-- ==== Sys2Proof/Word.lean ====
section
/-! DEFINITION. The word types of the machine. -/
namespace Sys2Proof

/-- A 32-bit register value (R107). -/
abbrev Word := BitVec 32
/-- A byte of storage. -/
abbrev Byte := BitVec 8
/-- A mask with one bit for each lane (R99). -/
abbrev Mask := BitVec 64
/-- An 80-bit virtual address (R129, R107). -/
abbrev VAddr := BitVec 80
/-- A 56-bit physical address (R165). -/
abbrev PAddr := BitVec 56

end Sys2Proof
end

