-- ==== Sys2Proof/Config.lean ====
section
/-! DEFINITION. What the spec leaves open: opaque constants without a body, so that nothing is provable of their values,
and the contents of the module's sealed records and keys, which the spec does not give. -/
namespace Sys2Proof.Config

/-- A free value of up to 64 bits, applied to the counter `fresh` of State (notes/assumptions/3.md). -/
opaque free : Nat → Nat
/-- A free choice, applied to what it is made for and where and when (notes/assumptions/3.md). -/
opaque choose : List Nat → Nat
/-- Serial number of the module, 16 bytes (R398). -/
opaque serial : BitVec 128
/-- Manufacturing lot, 8 bytes (R398). -/
opaque lot : BitVec 64
/-- The device certificate of the sealed identity (R398, R400). -/
opaque certificate : List (BitVec 8)
/-- What the 128-byte header of a signed region says: the body's length, the version, the floor MINVER, and the SHA-512 digest of the body. The spec
does not place these fields in the header (R393). -/
opaque headerLength : List (BitVec 8) → Nat
opaque headerVersion : List (BitVec 8) → BitVec 64
opaque headerMinver : List (BitVec 8) → BitVec 64
opaque headerDigest : List (BitVec 8) → List (BitVec 8)
/-- The verifying public key in the boot ROM of Lodge A (R393). -/
opaque bootKey : List (BitVec 8)
/-- The secret of the device key, which the PUF derives at each boot (R400). -/
opaque deviceSecret : List (BitVec 8)

end Sys2Proof.Config
end

