-- ==== Sys2Proof/Machine/Numbers.lean ====
section
/-! DEFINITION. The number formats and their arithmetic (02_numbers.md): exact dyadic values, one rounding at the end. -/
namespace Sys2Proof.Machine
open Sys2Proof

/-- Conditions raised, at the bit positions of GS (R25): 0 NV, 1 DV, 2 OF, 3 UF, 4 NX, 5 DZ, 6 IV. -/
abbrev Flags := BitVec 7

def flagNV : Flags := 1
def flagDV : Flags := 2
def flagOF : Flags := 4
def flagUF : Flags := 8
def flagNX : Flags := 16
def flagDZ : Flags := 32
def flagIV : Flags := 64

/-- Rounding modes: GC.RM (R24), and the stochastic rule with its random word (R36). -/
inductive RMode where
  | rne | rz | ru | rd
  | sr (r : Nat)
deriving DecidableEq, Repr

/-- The mode that a 2-bit code names (R24, R247). -/
def rmOf (c : Nat) : RMode := if c = 0 then .rne else if c = 1 then .rz else if c = 2 then .ru else .rd

/-- An IEEE format (R23) by its exponent and trailing significand bits. -/
structure Fmt where
  eb : Nat
  mb : Nat
deriving DecidableEq, Repr

def fp32 : Fmt := ⟨8, 23⟩
def fp16 : Fmt := ⟨5, 10⟩
def bf16 : Fmt := ⟨8, 7⟩

def Fmt.bias (f : Fmt) : Nat := 2 ^ (f.eb - 1) - 1
def Fmt.signBit (f : Fmt) : Nat := 2 ^ (f.eb + f.mb)
/-- The canonical quiet NaN (R23, R27). -/
def Fmt.qnan (f : Fmt) : Nat := (2 ^ f.eb - 1) * 2 ^ f.mb + 2 ^ (f.mb - 1)
def Fmt.inf (f : Fmt) (neg : Bool) : Nat := (2 ^ f.eb - 1) * 2 ^ f.mb + (if neg then f.signBit else 0)
def Fmt.maxFin (f : Fmt) (neg : Bool) : Nat := (2 ^ f.eb - 1) * 2 ^ f.mb - 1 + (if neg then f.signBit else 0)
def Fmt.zero (f : Fmt) (neg : Bool) : Nat := if neg then f.signBit else 0

/-- A value read from a format: NaN, infinity, or (−1)^neg × m × 2^e. -/
inductive Num where
  | nan (signaling : Bool)
  | inf (neg : Bool)
  | fin (neg : Bool) (m : Nat) (e : Int)
deriving DecidableEq, Repr

/-- Reads a code of an IEEE format (R23); with ftz a subnormal reads as zero of its sign (R26). -/
def Fmt.read (f : Fmt) (ftz : Bool) (x : Nat) : Num :=
  let neg := x / f.signBit % 2 = 1
  let ex := x / 2 ^ f.mb % 2 ^ f.eb
  let m := x % 2 ^ f.mb
  if ex = 2 ^ f.eb - 1 then
    if m = 0 then .inf neg else .nan (m < 2 ^ (f.mb - 1))
  else if ex = 0 then .fin neg (if ftz then 0 else m) (1 - (f.bias : Int) - f.mb)
  else .fin neg (2 ^ f.mb + m) ((ex : Int) - f.bias - f.mb)

/-- m × 2^e, with sticky standing for a further part below one unit of m, rounded to a multiple n of 2^q; and whether
that was inexact. At a tie rne takes the even n; in a format of P = 1, whose n above the smallest normal is 1, that is the larger
magnitude (DESIGN CHOICE, notes/assumptions/62.md). -/
def roundAt (mode : RMode) (neg : Bool) (m : Nat) (e : Int) (sticky : Bool) (q : Int) : Nat × Bool :=
  if q ≤ e then
    let n := m * 2 ^ (e - q).toNat
    let up := sticky && (match mode with | .ru => !neg | .rd => neg | _ => false)
    (n + (if up then 1 else 0), sticky)
  else
    let sh := (q - e).toNat
    let n := m / 2 ^ sh
    let r := m % 2 ^ sh
    let inexact := r ≠ 0 || sticky
    let half := 2 ^ (sh - 1)
    let up := match mode with
      | .rne => r > half || (r = half && (sticky || n % 2 = 1))
      | .rz => false
      | .ru => inexact && !neg
      | .rd => inexact && neg
      | .sr w => inexact && r * 2 ^ 32 > w * 2 ^ sh
    (n + (if up then 1 else 0), inexact)

/-- Whether an overflowing result of a sign becomes infinite in a mode (R28, R33). -/
def RMode.toInf : RMode → Bool → Bool
  | .rz, _ => false
  | .ru, neg => !neg
  | .rd, neg => neg
  | _, _ => true

/-- Rounds a finite value into an IEEE format (R26, R28): result bits and conditions; tininess is detected after rounding. -/
def Fmt.round (f : Fmt) (mode : RMode) (ftz : Bool) (neg : Bool) (m : Nat) (e : Int) (sticky : Bool) : Nat × Flags :=
  if m = 0 ∧ ¬ sticky then (f.zero neg, 0)
  else
    let top : Int := e + Nat.log2 m
    let emin : Int := 1 - (f.bias : Int)
    let q : Int := max (top - f.mb) (emin - f.mb)
    let (n, inexact) := roundAt mode neg m e sticky q
    let (n, q) := if n = 2 ^ (f.mb + 1) then (2 ^ f.mb, q + 1) else (n, q)
    let nx : Flags := if inexact then flagNX else 0
    if n ≥ 2 ^ f.mb ∧ q + f.mb > (f.bias : Int) then
      (if mode.toInf neg then f.inf neg else f.maxFin neg, flagOF ||| flagNX)
    else if n ≥ 2 ^ f.mb then
      let tiny := top < emin ∧ ¬ ((roundAt mode neg m e sticky (top - f.mb)).1 = 2 ^ (f.mb + 1) ∧ top + 1 ≥ emin)
      (((q + f.mb + f.bias).toNat) * 2 ^ f.mb + (n - 2 ^ f.mb) + f.zero neg, nx ||| (if tiny ∧ inexact then flagUF else 0))
    else if n ≠ 0 ∧ ftz then (f.zero neg, flagUF ||| flagNX)
    else (n + f.zero neg, nx ||| (if inexact then flagUF else 0))

/-- Sum of two signed values at one exponent. -/
def addSigned (n1 : Bool) (m1 : Nat) (n2 : Bool) (m2 : Nat) : Bool × Nat :=
  if n1 = n2 then (n1, m1 + m2) else if m1 ≥ m2 then (n1, m1 - m2) else (n2, m2 - m1)

/-- The exact sum of two finite values. -/
def addExact (n1 : Bool) (m1 : Nat) (e1 : Int) (n2 : Bool) (m2 : Nat) (e2 : Int) : Bool × Nat × Int :=
  let e := min e1 e2
  let (n, m) := addSigned n1 (m1 * 2 ^ (e1 - e).toNat) n2 (m2 * 2 ^ (e2 - e).toNat)
  (n, m, e)

/-- The NV flag of signalling operands (R27). -/
def snan : Num → Flags
  | .nan true => flagNV
  | _ => 0

/-- a × b + c rounded once (R284); the sign of an exact zero is −0 only in RD or when both terms are −0. -/
def Fmt.fma (f : Fmt) (mode : RMode) (ftz : Bool) (a b c : Num) : Nat × Flags :=
  let sig := snan a ||| snan b ||| snan c
  let mulInvalid := match a, b with
    | .inf _, .fin _ 0 _ => true
    | .fin _ 0 _, .inf _ => true
    | _, _ => false
  if mulInvalid then (f.qnan, sig ||| flagNV)
  else match a, b, c with
  | .nan _, _, _ => (f.qnan, sig)
  | _, .nan _, _ => (f.qnan, sig)
  | _, _, .nan _ => (f.qnan, sig)
  | .inf s, .inf t, .inf u => if (s != t) = u then (f.inf u, 0) else (f.qnan, flagNV)
  | .inf s, .inf t, _ => (f.inf (s != t), 0)
  | .inf s, .fin t _ _, .inf u => if (s != t) = u then (f.inf u, 0) else (f.qnan, flagNV)
  | .inf s, .fin t _ _, _ => (f.inf (s != t), 0)
  | .fin s _ _, .inf t, .inf u => if (s != t) = u then (f.inf u, 0) else (f.qnan, flagNV)
  | .fin s _ _, .inf t, _ => (f.inf (s != t), 0)
  | .fin _ _ _, .fin _ _ _, .inf u => (f.inf u, 0)
  | .fin s m1 e1, .fin t m2 e2, .fin u m3 e3 =>
    let p := s != t
    let (n, m, e) := addExact p (m1 * m2) (e1 + e2) u m3 e3
    if m = 0 then
      (f.zero (if m1 * m2 = 0 ∧ m3 = 0 ∧ p = u then p else mode = .rd), 0)
    else f.round mode ftz n m e false

/-- Negation of a value. -/
def Num.neg : Num → Num
  | .nan s => .nan s
  | .inf s => .inf (!s)
  | .fin s m e => .fin (!s) m e

/-- a + b (R280). -/
def Fmt.add (f : Fmt) (mode : RMode) (ftz : Bool) (a b : Num) : Nat × Flags := f.fma mode ftz a (.fin false 1 0) b

/-- a × b (R280): a zero product keeps the sign of the product. -/
def Fmt.mul (f : Fmt) (mode : RMode) (ftz : Bool) (a b : Num) : Nat × Flags :=
  match a, b with
  | .fin s m1 e1, .fin t m2 e2 => f.round mode ftz (s != t) (m1 * m2) (e1 + e2) false
  | a, b => f.fma mode ftz a b (.fin false 0 0)

/-- a / b (R280). -/
def Fmt.div (f : Fmt) (mode : RMode) (ftz : Bool) (a b : Num) : Nat × Flags :=
  let sig := snan a ||| snan b
  match a, b with
  | .nan _, _ => (f.qnan, sig)
  | _, .nan _ => (f.qnan, sig)
  | .inf _, .inf _ => (f.qnan, flagNV)
  | .inf s, .fin t _ _ => (f.inf (s != t), 0)
  | .fin s _ _, .inf t => (f.zero (s != t), 0)
  | .fin s m1 e1, .fin t m2 e2 =>
    if m2 = 0 then (if m1 = 0 then (f.qnan, flagNV) else (f.inf (s != t), flagDV))
    else
      let n := m1 * 2 ^ 80
      f.round mode ftz (s != t) (n / m2) (e1 - e2 - 80) (n % m2 ≠ 0)

/-- The integer square root by bits, from bit k − 1 down. -/
def isqrt (n : Nat) : Nat → Nat → Nat
  | 0, acc => acc
  | k + 1, acc => isqrt n k (if (acc + 2 ^ k) * (acc + 2 ^ k) ≤ n then acc + 2 ^ k else acc)

/-- √a (R281). -/
def Fmt.sqrt (f : Fmt) (mode : RMode) (ftz : Bool) (a : Num) : Nat × Flags :=
  match a with
  | .nan _ => (f.qnan, snan a)
  | .inf false => (f.inf false, 0)
  | .inf true => (f.qnan, flagNV)
  | .fin s 0 _ => (f.zero s, 0)
  | .fin true _ _ => (f.qnan, flagNV)
  | .fin false m e =>
    let (m, e) := if e % 2 = 0 then (m, e) else (2 * m, e - 1)
    let n := m * 2 ^ 80
    let r := isqrt n 64 0
    f.round mode ftz false r (e / 2 - 40) (r * r ≠ n)

/-- 1 / √a (R281). -/
def Fmt.rsqrt (f : Fmt) (mode : RMode) (ftz : Bool) (a : Num) : Nat × Flags :=
  match a with
  | .nan _ => (f.qnan, snan a)
  | .inf false => (f.zero false, 0)
  | .inf true => (f.qnan, flagNV)
  | .fin s 0 _ => (f.inf s, 0)
  | .fin true _ _ => (f.qnan, flagNV)
  | .fin false m e =>
    let (m, e) := if e % 2 = 0 then (m, e) else (2 * m, e - 1)
    let n := 2 ^ 128
    let r := isqrt (n / m) 65 0
    f.round mode ftz false r (-64 - e / 2) (r * r * m ≠ n)

/-- a rounded to an integral value in a mode, exact otherwise (R280 ops 14 to 17). -/
def Fmt.rndInt (f : Fmt) (mode : RMode) (a : Num) : Nat × Flags :=
  match a with
  | .nan _ => (f.qnan, snan a)
  | .inf s => (f.inf s, 0)
  | .fin s m e =>
    if e ≥ 0 then ((f.round .rne false s m e false).1, 0)
    else
      let n := (roundAt mode s m e false 0).1
      ((f.round .rne false s n 0 false).1, 0)

/-- Whether a < b, for values that are not NaN (−0 = +0). -/
def Num.lt (a b : Num) : Bool :=
  match a, b with
  | .nan _, _ => false
  | _, .nan _ => false
  | .inf s, .inf t => s && !t
  | .inf s, .fin _ _ _ => s
  | .fin _ _ _, .inf t => !t
  | .fin s m1 e1, .fin t m2 e2 =>
    let (n, m, _) := addExact s m1 e1 (!t) m2 e2
    n && m ≠ 0

def Num.isNan : Num → Bool
  | .nan _ => true
  | _ => false

def Num.isNeg : Num → Bool
  | .nan _ => false
  | .inf s => s
  | .fin s _ _ => s

/-- FMIN and FMAX (R27) by the order that puts −0 below +0. -/
def Fmt.minmax (f : Fmt) (wantMax : Bool) (ftz : Bool) (x y : Nat) : Nat × Flags :=
  let a := f.read ftz x
  let b := f.read ftz y
  let sig := snan a ||| snan b
  let canon (n : Num) (x : Nat) : Nat := match n with | .fin s 0 _ => f.zero s | _ => x
  match a.isNan, b.isNan with
  | true, true => (f.qnan, sig)
  | true, false => (canon b y, sig)
  | false, true => (canon a x, sig)
  | false, false =>
    let below := a.lt b || (!b.lt a && a.isNeg && !b.isNeg)
    (if below != wantMax then canon a x else canon b y, 0)

/-- An integer rounded into a format. -/
def Fmt.ofInt (f : Fmt) (mode : RMode) (z : Int) : Nat × Flags := f.round mode false (z < 0) z.natAbs 0 false

/-- A value to an integer of range [lo, hi] in a mode (R34): saturates with NV, NaN gives 0 with NV, NX if inexact. -/
def toIntSat (mode : RMode) (lo hi : Int) (a : Num) : Int × Flags :=
  match a with
  | .nan _ => (0, flagNV)
  | .inf s => (if s then lo else hi, flagNV)
  | .fin s m e =>
    let (n, inexact) := roundAt mode s m e false (max e 0)
    let mag : Int := if e ≥ 0 then (m : Int) * 2 ^ (min e 200).toNat else n
    let z := if s then -mag else mag
    if z < lo then (lo, flagNV) else if z > hi then (hi, flagNV) else (z, if inexact ∧ e < 0 then flagNX else 0)

/-- a × 2^b rounded once (R280 FSCALB); beyond ±1000 every b gives the same result. -/
def Fmt.scalb (f : Fmt) (mode : RMode) (ftz : Bool) (a : Num) (b : Int) : Nat × Flags :=
  match a with
  | .nan _ => (f.qnan, snan a)
  | .inf s => (f.inf s, 0)
  | .fin s m e => f.round mode ftz s m (e + max (-1000) (min b 1000)) false

/-! Binary8 formats (R29 to R33). -/

/-- A binary8 format: signedness and P. -/
structure B8 where
  signed : Bool
  p : Nat
deriving DecidableEq, Repr

/-- The format a precision code names (R316): 8 to 14 signed P1 to P7, 16 to 23 unsigned P1 to P8. -/
def b8Of (code : Nat) : B8 := if code < 16 then ⟨true, code - 7⟩ else ⟨false, code - 15⟩

def B8.bias (b : B8) : Nat := if b.signed then 2 ^ (7 - b.p) else 2 ^ (8 - b.p)
def B8.nan (b : B8) : Nat := if b.signed then 0x80 else 0xFF
/-- The code of +inf, which is the largest finite value in the finite variant. -/
def B8.top (b : B8) : Nat := if b.signed then 0x7F else 0xFE
def B8.maxFin (b : B8) (fin : Bool) : Nat := if fin then b.top else b.top - 1
/-- The code of the opposite sign of a nonzero code. -/
def B8.sign (b : B8) (neg : Bool) (c : Nat) : Nat := if b.signed ∧ neg ∧ c ≠ 0 then c + 0x80 else c

/-- Reads a code (R29, R31); `fin` selects the finite variant. -/
def B8.read (b : B8) (fin : Bool) (x : Nat) : Num :=
  if x = b.nan then .nan false
  else
    let neg := b.signed ∧ x ≥ 0x80
    let c := if neg then x - 0x80 else x
    if c = b.top ∧ ¬ fin then .inf neg
    else
      let ex := c / 2 ^ (b.p - 1)
      let m := c % 2 ^ (b.p - 1)
      let e0 : Int := 1 - (b.bias : Int) - (b.p - 1 : Nat)
      if ex = 0 then .fin neg m e0 else .fin neg (2 ^ (b.p - 1) + m) (e0 + ex - 1)

/-- Rounds a value into a binary8 format (R33). -/
def B8.round (b : B8) (mode : RMode) (fin sat : Bool) (x : Num) : Nat × Flags :=
  let ovf (neg isInf : Bool) : Nat × Flags :=
    let fl : Flags := if isInf then 0 else flagOF ||| flagNX
    if sat then (b.sign neg (b.maxFin fin), fl)
    else if fin then (b.nan, fl ||| flagNV)
    else
      (b.sign neg (if isInf || mode.toInf neg then b.top else b.top - 1), fl)
  match x with
  | .nan s => (b.nan, snan (.nan s))
  | .inf neg =>
    if neg ∧ ¬ b.signed then (if sat then (0, 0) else (b.nan, flagNV)) else ovf neg true
  | .fin neg m e =>
    if m = 0 then (0, 0)
    else
      let top : Int := e + Nat.log2 m
      let emin : Int := 1 - (b.bias : Int)
      let mb := b.p - 1
      let q : Int := max (top - mb) (emin - mb)
      let (n, inexact) := roundAt mode neg m e false q
      let (n, q) := if n = 2 ^ (mb + 1) then (2 ^ mb, q + 1) else (n, q)
      if n = 0 then (0, flagUF ||| flagNX)
      else if neg ∧ ¬ b.signed then (if sat then (0, flagNX) else (b.nan, flagNV))
      else
        let code := if n < 2 ^ mb then n else ((q + mb + b.bias).toNat) * 2 ^ mb + (n - 2 ^ mb)
        if code > b.maxFin fin then ovf neg false
        else
          let tiny := top < emin ∧ (n < 2 ^ mb ∨ ¬ ((roundAt mode neg m e false (top - mb)).1 = 2 ^ (mb + 1) ∧ top + 1 ≥ emin))
          (b.sign neg code, if inexact then flagNX ||| (if tiny then flagUF else 0) else 0)

/-- The FP32 bits of a binary8 code (R34): exact. -/
def B8.toF32 (b : B8) (fin : Bool) (x : Nat) : Nat :=
  match b.read fin x with
  | .nan _ => fp32.qnan
  | .inf s => fp32.inf s
  | .fin s m e => (fp32.round .rne false s m e false).1

/-! Special functions (R281), evaluated to 400 fraction bits and rounded once (notes/assumptions/12.md). -/

/-- Fraction bits of the evaluation. -/
def fracBits : Nat := 400
def one : Nat := 2 ^ fracBits

/-- Σ t^(2k+1) / (2k+1) for k counted by the first argument, with t2 = t² and the current power p. -/
def atanhSum (t2 : Nat) : Nat → Nat → Nat → Nat
  | 0, _, _ => 0
  | n + 1, k, p => p / (2 * k + 1) + atanhSum t2 n (k + 1) (p * t2 / one)

/-- 2 × atanh(a / b) = ln((b + a) / (b − a)). -/
def lnRatio (a b : Nat) : Nat := let t := a * one / b; 2 * atanhSum (t * t / one) 140 0 t

def ln2 : Nat := lnRatio 1 3

/-- Alternating Σ (−1)^k t^(2k+1) / (2k+1): the even and the odd terms apart. -/
def atanSum (t2 : Nat) : Nat → Nat → Nat → Int
  | 0, _, _ => 0
  | n + 1, k, p => ((p / (2 * k + 1) : Nat) : Int) - atanSum t2 n (k + 1) (p * t2 / one)

/-- π by Machin's formula. -/
def piFix : Nat :=
  let at_ (d : Nat) : Int := let t := one / d; atanSum (t * t / one) 100 0 t
  (16 * at_ 5 - 4 * at_ 239).toNat

/-- Σ t^k / k! from the term p at index k. -/
def expSum (t : Nat) : Nat → Nat → Nat → Nat
  | 0, _, _ => 0
  | n + 1, k, p => p + expSum t n (k + 1) (p * t / one / (k + 1))

/-- 2^f for a fraction f. -/
def exp2Frac (f : Nat) : Nat := expSum (f * ln2 / one) 110 0 one

/-- sin t = Σ (−1)^k t^(2k+1) / (2k+1)!. -/
def sinSum (t2 : Nat) : Nat → Nat → Nat → Int
  | 0, _, _ => 0
  | n + 1, k, p => (p : Int) - sinSum t2 n (k + 1) (p * t2 / one / ((2 * k + 2) * (2 * k + 3)))

/-- sin(π r) for r given in units of 2^-400, 0 < r < 1/2. -/
def sinPiFix (r : Nat) : Nat := let t := piFix * r / one; (sinSum (t * t / one) 60 0 t).toNat

/-- 2^a. -/
def Fmt.exp2 (f : Fmt) (mode : RMode) (ftz : Bool) (a : Num) : Nat × Flags :=
  match a with
  | .nan _ => (f.qnan, snan a)
  | .inf false => (f.inf false, 0)
  | .inf true => (f.zero false, 0)
  | .fin s m e =>
    if m = 0 then f.round mode ftz false 1 0 false
    else if e + Nat.log2 m ≥ 12 then f.round mode ftz false 1 (if s then -4000 else 4000) true
    else
      let x : Nat := if e ≥ 0 then m * 2 ^ e.toNat * one else m * one / 2 ^ (-e).toNat
      let z : Int := if s then -(x : Int) else x
      let k := z / (one : Int)
      let fr := (z % (one : Int)).toNat
      if fr = 0 then f.round mode ftz false 1 k false
      else f.round mode ftz false (exp2Frac fr) (k - fracBits) true

/-- log2 a. -/
def Fmt.log2 (f : Fmt) (mode : RMode) (ftz : Bool) (a : Num) : Nat × Flags :=
  match a with
  | .nan _ => (f.qnan, snan a)
  | .inf false => (f.inf false, 0)
  | .inf true => (f.qnan, flagNV)
  | .fin _ 0 _ => (f.inf true, flagDV)
  | .fin true _ _ => (f.qnan, flagNV)
  | .fin false m e =>
    let l := Nat.log2 m
    let ex : Int := e + l
    if m = 2 ^ l then f.ofInt mode ex
    else
      let fr := lnRatio (m - 2 ^ l) (m + 2 ^ l) * one / ln2
      let z : Int := ex * one + fr
      if z ≥ 0 then f.round mode ftz false z.toNat (-(fracBits : Int)) true
      else f.round mode ftz true ((-z).toNat - 1) (-(fracBits : Int)) true

/-- |a| mod 2 in units of 2^-400 (a of at least −200 in its exponent). -/
def mod2 (m : Nat) (e : Int) : Nat :=
  if e ≥ 1 then 0 else m * 2 ^ ((fracBits : Int) + e).toNat % (2 * one)

/-- sin(π a). -/
def Fmt.sinpi (f : Fmt) (mode : RMode) (ftz : Bool) (a : Num) : Nat × Flags :=
  match a with
  | .nan _ => (f.qnan, snan a)
  | .inf _ => (f.qnan, flagNV)
  | .fin s m e =>
    let r := mod2 m e
    let (neg, r) := if r ≥ one then (!s, r - one) else (s, r)
    if r = 0 then (f.zero s, 0)
    else
      let r := if 2 * r > one then one - r else r
      if 2 * r = one then f.round mode ftz neg 1 0 false
      else f.round mode ftz neg (sinPiFix r) (-(fracBits : Int)) true

/-- cos(π a). -/
def Fmt.cospi (f : Fmt) (mode : RMode) (ftz : Bool) (a : Num) : Nat × Flags :=
  match a with
  | .nan _ => (f.qnan, snan a)
  | .inf _ => (f.qnan, flagNV)
  | .fin _ m e =>
    let r := mod2 m e
    let r := if r > one then 2 * one - r else r
    let (neg, r) := if 2 * r > one then (true, one - r) else (false, r)
    if 2 * r = one then (f.zero false, 0)
    else if r = 0 then f.round mode ftz neg 1 0 false
    else
      let c := one / 2 - r
      -- cos(π r) is sin(π c); close to r = 0 the value is 1 − (π r)²/2, which 400 bits still separate from 1
      f.round mode ftz neg (if 2 ^ 220 * r < one then one - 1 else sinPiFix c) (-(fracBits : Int)) true

/-- tanh a. -/
def Fmt.tanh (f : Fmt) (mode : RMode) (ftz : Bool) (a : Num) : Nat × Flags :=
  match a with
  | .nan _ => (f.qnan, snan a)
  | .inf s => f.round mode ftz s 1 0 false
  | .fin s 0 _ => (f.zero s, 0)
  | .fin s m e =>
    let top : Int := e + Nat.log2 m
    if top ≥ 6 then f.round mode ftz s (2 ^ 80 - 1) (-80) true
    else if top < -31 then f.round mode ftz s (m * 2 ^ 40 - 1) (e - 40) true
    else
      let x : Nat := m * 2 ^ ((fracBits : Int) + e).toNat
      let y := 2 * x * one / ln2
      let k := y / one
      let fr := y % one
      -- u = 2^-y = 2^(1-fr) / 2^(k+1)
      let u := exp2Frac (one - fr) / 2 ^ (k + 1)
      f.round mode ftz s ((one - u) * one / (one + u)) (-(fracBits : Int)) true

/-- floor(log2 |a|) as FGETE gives it (R280). -/
def getExp (a : Num) : Word × Flags :=
  match a with
  | .nan _ => (0x7FFFFFFF, flagNV)
  | .inf _ => (0x7FFFFFFF, flagNV)
  | .fin _ 0 _ => (0x80000000, 0)
  | .fin _ m e => (BitVec.ofInt 32 (e + Nat.log2 m), 0)

end Sys2Proof.Machine
end

