-- ==== Sys2Proof/Syntax.lean ====
section
/-! DEFINITION. The instructions and events of the Tchifever T8: one constructor for each row of the opcode table.
A row with an encoding carries exactly the fields the table gives it; a row without one carries what tells its
occurrence from another (a queue, a group, an operation, what the host writes). -/
namespace Sys2Proof

/-- Where a group stands: core 0 to 831, partition 0 to 15, slot 0 to 15 (R11, R13). -/
structure GLoc where
  core : Nat
  part : Nat
  slot : Nat
deriving DecidableEq, Repr

/-- An operation that arrives over Promenade from another device (R73, R162). -/
inductive RemoteOp where
  | load (len : Nat)
  | store (bytes : List (BitVec 8))
  | atomic (op : BitVec 3) (wide : Bool) (v : BitVec 64)
  | cas (wide : Bool) (e v : BitVec 64)
  | signal (add : Bool) (v : BitVec 64)
deriving DecidableEq, Repr

/-- One constructor for each row of spec/opcode_table.json, in its order. -/
inductive Instr where
  | iadd (b : BitVec 8) (a : BitVec 8) (d : BitVec 7)
  | isub (b : BitVec 8) (a : BitVec 8) (d : BitVec 7)
  | imul (b : BitVec 8) (a : BitVec 8) (d : BitVec 7)
  | imulh (b : BitVec 8) (a : BitVec 8) (d : BitVec 7)
  | imulhn (b : BitVec 8) (a : BitVec 8) (d : BitVec 7)
  | idiv (b : BitVec 8) (a : BitVec 8) (d : BitVec 7)
  | idivn (b : BitVec 8) (a : BitVec 8) (d : BitVec 7)
  | irem (b : BitVec 8) (a : BitVec 8) (d : BitVec 7)
  | iremn (b : BitVec 8) (a : BitVec 8) (d : BitVec 7)
  | imin (b : BitVec 8) (a : BitVec 8) (d : BitVec 7)
  | iminn (b : BitVec 8) (a : BitVec 8) (d : BitVec 7)
  | imax (b : BitVec 8) (a : BitVec 8) (d : BitVec 7)
  | imaxn (b : BitVec 8) (a : BitVec 8) (d : BitVec 7)
  | and (b : BitVec 8) (a : BitVec 8) (d : BitVec 7)
  | or (b : BitVec 8) (a : BitVec 8) (d : BitVec 7)
  | xor (b : BitVec 8) (a : BitVec 8) (d : BitVec 7)
  | andn (b : BitVec 8) (a : BitVec 8) (d : BitVec 7)
  | shl (b : BitVec 8) (a : BitVec 8) (d : BitVec 7)
  | shr (b : BitVec 8) (a : BitVec 8) (d : BitVec 7)
  | shra (b : BitVec 8) (a : BitVec 8) (d : BitVec 7)
  | rotl (b : BitVec 8) (a : BitVec 8) (d : BitVec 7)
  | bfx (b : BitVec 8) (a : BitVec 8) (d : BitVec 7)
  | bilv2 (b : BitVec 8) (a : BitVec 8) (d : BitVec 7)
  | bdil2 (b : BitVec 8) (a : BitVec 8) (d : BitVec 7)
  | clz (b : BitVec 8) (a : BitVec 8) (d : BitVec 7)
  | popc (b : BitVec 8) (a : BitVec 8) (d : BitVec 7)
  | brev (b : BitVec 8) (a : BitVec 8) (d : BitVec 7)
  | iabs (b : BitVec 8) (a : BitVec 8) (d : BitVec 7)
  | sext (b : BitVec 8) (a : BitVec 8) (d : BitVec 7)
  | iaddd (b : BitVec 8) (a : BitVec 8) (d : BitVec 7)
  | isubd (b : BitVec 8) (a : BitVec 8) (d : BitVec 7)
  | shrd (b : BitVec 8) (a : BitVec 8) (d : BitVec 7)
  | fadd (b : BitVec 8) (a : BitVec 8) (d : BitVec 7)
  | fsub (b : BitVec 8) (a : BitVec 8) (d : BitVec 7)
  | fmul (b : BitVec 8) (a : BitVec 8) (d : BitVec 7)
  | fmin (b : BitVec 8) (a : BitVec 8) (d : BitVec 7)
  | fmax (b : BitVec 8) (a : BitVec 8) (d : BitVec 7)
  | fdiv (b : BitVec 8) (a : BitVec 8) (d : BitVec 7)
  | frcp (b : BitVec 8) (a : BitVec 8) (d : BitVec 7)
  | frsq (b : BitVec 8) (a : BitVec 8) (d : BitVec 7)
  | fsqrt (b : BitVec 8) (a : BitVec 8) (d : BitVec 7)
  | fexp2 (b : BitVec 8) (a : BitVec 8) (d : BitVec 7)
  | flog2 (b : BitVec 8) (a : BitVec 8) (d : BitVec 7)
  | fsinpi (b : BitVec 8) (a : BitVec 8) (d : BitVec 7)
  | fcospi (b : BitVec 8) (a : BitVec 8) (d : BitVec 7)
  | ftanh (b : BitVec 8) (a : BitVec 8) (d : BitVec 7)
  | frndn (b : BitVec 8) (a : BitVec 8) (d : BitVec 7)
  | frndz (b : BitVec 8) (a : BitVec 8) (d : BitVec 7)
  | ffloor (b : BitVec 8) (a : BitVec 8) (d : BitVec 7)
  | fceil (b : BitVec 8) (a : BitVec 8) (d : BitVec 7)
  | fneg (b : BitVec 8) (a : BitVec 8) (d : BitVec 7)
  | fabs (b : BitVec 8) (a : BitVec 8) (d : BitVec 7)
  | fcpys (b : BitVec 8) (a : BitVec 8) (d : BitVec 7)
  | hadd2 (b : BitVec 8) (a : BitVec 8) (d : BitVec 7)
  | hsub2 (b : BitVec 8) (a : BitVec 8) (d : BitVec 7)
  | hmul2 (b : BitVec 8) (a : BitVec 8) (d : BitVec 7)
  | hmin2 (b : BitVec 8) (a : BitVec 8) (d : BitVec 7)
  | hmax2 (b : BitVec 8) (a : BitVec 8) (d : BitVec 7)
  | badd2 (b : BitVec 8) (a : BitVec 8) (d : BitVec 7)
  | bmul2 (b : BitVec 8) (a : BitVec 8) (d : BitVec 7)
  | ffrac (b : BitVec 8) (a : BitVec 8) (d : BitVec 7)
  | fscalb (b : BitVec 8) (a : BitVec 8) (d : BitVec 7)
  | fgete (b : BitVec 8) (a : BitVec 8) (d : BitVec 7)
  | iaddk (k : BitVec 8) (a : BitVec 8) (d : BitVec 7)
  | imulk (k : BitVec 8) (a : BitVec 8) (d : BitVec 7)
  | andk (k : BitVec 8) (a : BitVec 8) (d : BitVec 7)
  | ork (k : BitVec 8) (a : BitVec 8) (d : BitVec 7)
  | xork (k : BitVec 8) (a : BitVec 8) (d : BitVec 7)
  | shlk (k : BitVec 5) (a : BitVec 8) (d : BitVec 7)
  | shrk (k : BitVec 5) (a : BitVec 8) (d : BitVec 7)
  | shrak (k : BitVec 5) (a : BitVec 8) (d : BitVec 7)
  | imink (k : BitVec 8) (a : BitVec 8) (d : BitVec 7)
  | imaxk (k : BitVec 8) (a : BitVec 8) (d : BitVec 7)
  | icmpeqk (k : BitVec 8) (a : BitVec 8) (p : BitVec 2)
  | icmpltk (k : BitVec 8) (a : BitVec 8) (p : BitVec 2)
  | faddk (k : BitVec 8) (a : BitVec 8) (d : BitVec 7)
  | fmulk (k : BitVec 8) (a : BitVec 8) (d : BitVec 7)
  | liml (i : BitVec 16) (d : BitVec 7)
  | limh (i : BitVec 16) (d : BitVec 7)
  | movk (k : BitVec 8) (a : BitVec 8) (d : BitVec 7)
  | ffma (b : BitVec 8) (a : BitVec 8) (d : BitVec 7)
  | ffms (b : BitVec 8) (a : BitVec 8) (d : BitVec 7)
  | fnfma (b : BitVec 8) (a : BitVec 8) (d : BitVec 7)
  | hfma2 (b : BitVec 8) (a : BitVec 8) (d : BitVec 7)
  | bfma2 (b : BitVec 8) (a : BitVec 8) (d : BitVec 7)
  | imad (b : BitVec 8) (a : BitVec 8) (d : BitVec 7)
  | bilv3 (b : BitVec 8) (a : BitVec 8) (d : BitVec 7)
  | bfi (b : BitVec 8) (a : BitVec 8) (d : BitVec 7)
  | selP0 (b : BitVec 8) (a : BitVec 8) (d : BitVec 7)
  | selP1 (b : BitVec 8) (a : BitVec 8) (d : BitVec 7)
  | selP2 (b : BitVec 8) (a : BitVec 8) (d : BitVec 7)
  | selP3 (b : BitVec 8) (a : BitVec 8) (d : BitVec 7)
  | icmpeq (b : BitVec 8) (a : BitVec 8) (p : BitVec 2)
  | icmpne (b : BitVec 8) (a : BitVec 8) (p : BitVec 2)
  | icmplt (b : BitVec 8) (a : BitVec 8) (p : BitVec 2)
  | icmple (b : BitVec 8) (a : BitVec 8) (p : BitVec 2)
  | icmpltn (b : BitVec 8) (a : BitVec 8) (p : BitVec 2)
  | icmplen (b : BitVec 8) (a : BitVec 8) (p : BitVec 2)
  | fcmpeq (b : BitVec 8) (a : BitVec 8) (p : BitVec 2)
  | fcmpne (b : BitVec 8) (a : BitVec 8) (p : BitVec 2)
  | fcmplt (b : BitVec 8) (a : BitVec 8) (p : BitVec 2)
  | fcmple (b : BitVec 8) (a : BitVec 8) (p : BitVec 2)
  | fcmpun (b : BitVec 8) (a : BitVec 8) (p : BitVec 2)
  | plop (t : BitVec 4) (y : BitVec 2) (x : BitVec 2) (p : BitVec 2)
  | cvt (m : BitVec 2) (s : BitVec 3) (t : BitVec 3) (a : BitVec 8) (d : BitVec 7)
  | cvt8 (r : BitVec 1) (t : BitVec 1) (f : BitVec 1) (p : BitVec 5) (a : BitVec 8) (d : BitVec 7)
  | cvt8n (f : BitVec 1) (p : BitVec 5) (a : BitVec 8) (d : BitVec 7)
  | movp (b : BitVec 8) (p : BitVec 2) (d : BitVec 7)
  | sadd (b : BitVec 8) (a : BitVec 8) (d : BitVec 7)
  | ssub (b : BitVec 8) (a : BitVec 8) (d : BitVec 7)
  | smul (b : BitVec 8) (a : BitVec 8) (d : BitVec 7)
  | smulh (b : BitVec 8) (a : BitVec 8) (d : BitVec 7)
  | smulhn (b : BitVec 8) (a : BitVec 8) (d : BitVec 7)
  | sdiv (b : BitVec 8) (a : BitVec 8) (d : BitVec 7)
  | sdivn (b : BitVec 8) (a : BitVec 8) (d : BitVec 7)
  | srem (b : BitVec 8) (a : BitVec 8) (d : BitVec 7)
  | sremn (b : BitVec 8) (a : BitVec 8) (d : BitVec 7)
  | smin (b : BitVec 8) (a : BitVec 8) (d : BitVec 7)
  | sminn (b : BitVec 8) (a : BitVec 8) (d : BitVec 7)
  | smax (b : BitVec 8) (a : BitVec 8) (d : BitVec 7)
  | smaxn (b : BitVec 8) (a : BitVec 8) (d : BitVec 7)
  | sand (b : BitVec 8) (a : BitVec 8) (d : BitVec 7)
  | sor (b : BitVec 8) (a : BitVec 8) (d : BitVec 7)
  | sxor (b : BitVec 8) (a : BitVec 8) (d : BitVec 7)
  | sshl (b : BitVec 8) (a : BitVec 8) (d : BitVec 7)
  | sshr (b : BitVec 8) (a : BitVec 8) (d : BitVec 7)
  | sshra (b : BitVec 8) (a : BitVec 8) (d : BitVec 7)
  | sclz (b : BitVec 8) (a : BitVec 8) (d : BitVec 7)
  | spopc (b : BitVec 8) (a : BitVec 8) (d : BitVec 7)
  | sbfx (b : BitVec 8) (a : BitVec 8) (d : BitVec 7)
  | smov (b : BitVec 8) (a : BitVec 8) (d : BitVec 7)
  | slil (i : BitVec 16) (d : BitVec 7)
  | slih (i : BitVec 16) (d : BitVec 7)
  | saddd (b : BitVec 8) (a : BitVec 8) (d : BitVec 7)
  | ssubd (b : BitVec 8) (a : BitVec 8) (d : BitVec 7)
  | scmp (b : BitVec 8) (a : BitVec 8)
  | srd (b : BitVec 8) (a : BitVec 8) (d : BitVec 7)
  | swr (b : BitVec 8) (a : BitVec 8)
  | wset (b : BitVec 8) (a : BitVec 8) (n : BitVec 4)
  | wadd (b : BitVec 8) (a : BitVec 8) (n : BitVec 4)
  | ldb (h : BitVec 2) (s : BitVec 2) (e : BitVec 4) (o : BitVec 8) (d : BitVec 7)
  | ldbs (h : BitVec 2) (s : BitVec 2) (e : BitVec 4) (o : BitVec 8) (d : BitVec 7)
  | ldh (h : BitVec 2) (s : BitVec 2) (e : BitVec 4) (o : BitVec 8) (d : BitVec 7)
  | ldhs (h : BitVec 2) (s : BitVec 2) (e : BitVec 4) (o : BitVec 8) (d : BitVec 7)
  | ldw (h : BitVec 2) (s : BitVec 2) (e : BitVec 4) (o : BitVec 8) (d : BitVec 7)
  | ldd (h : BitVec 2) (s : BitVec 2) (e : BitVec 4) (o : BitVec 8) (d : BitVec 7)
  | ldq (h : BitVec 2) (s : BitVec 2) (e : BitVec 4) (o : BitVec 8) (d : BitVec 7)
  | stb (h : BitVec 2) (s : BitVec 2) (e : BitVec 4) (o : BitVec 8) (d : BitVec 7)
  | sth (h : BitVec 2) (s : BitVec 2) (e : BitVec 4) (o : BitVec 8) (d : BitVec 7)
  | stw (h : BitVec 2) (s : BitVec 2) (e : BitVec 4) (o : BitVec 8) (d : BitVec 7)
  | std (h : BitVec 2) (s : BitVec 2) (e : BitVec 4) (o : BitVec 8) (d : BitVec 7)
  | stq (h : BitVec 2) (s : BitVec 2) (e : BitVec 4) (o : BitVec 8) (d : BitVec 7)
  | ldsw (s : BitVec 2) (o : BitVec 8) (d : BitVec 7)
  | ldsd (s : BitVec 2) (o : BitVec 8) (d : BitVec 7)
  | ldsq (s : BitVec 2) (o : BitVec 8) (d : BitVec 7)
  | stsw (s : BitVec 2) (o : BitVec 8) (d : BitVec 7)
  | stsd (s : BitVec 2) (o : BitVec 8) (d : BitVec 7)
  | stsq (s : BitVec 2) (o : BitVec 8) (d : BitVec 7)
  | lduw (h : BitVec 2) (s : BitVec 2) (e : BitVec 4) (o : BitVec 8) (d : BitVec 6)
  | ldud (h : BitVec 2) (s : BitVec 2) (e : BitVec 4) (o : BitVec 8) (d : BitVec 6)
  | ldba (h : BitVec 2) (s : BitVec 2) (e : BitVec 4) (o : BitVec 8) (d : BitVec 4)
  | stba (h : BitVec 2) (s : BitVec 2) (e : BitVec 4) (o : BitVec 8) (d : BitVec 4)
  | gath4 (h : BitVec 2) (s : BitVec 2) (e : BitVec 4) (o : BitVec 8) (d : BitVec 7)
  | pref (h : BitVec 2) (s : BitVec 2) (e : BitVec 4) (o : BitVec 8)
  | bra (o : BitVec 23)
  | brz (o : BitVec 23)
  | brnz (o : BitVec 23)
  | brn (o : BitVec 23)
  | brnn (o : BitVec 23)
  | brc (o : BitVec 23)
  | brnc (o : BitVec 23)
  | brvP0 (o : BitVec 23)
  | brvP1 (o : BitVec 23)
  | brvP2 (o : BitVec 23)
  | brvP3 (o : BitVec 23)
  | brany (o : BitVec 23)
  | brall (o : BitVec 23)
  | bre (o : BitVec 23)
  | call (o : BitVec 23)
  | mov (s : BitVec 5) (d : BitVec 6)
  | iadd16 (s : BitVec 5) (d : BitVec 6)
  | isub16 (s : BitVec 5) (d : BitVec 6)
  | imul16 (s : BitVec 5) (d : BitVec 6)
  | and16 (s : BitVec 5) (d : BitVec 6)
  | or16 (s : BitVec 5) (d : BitVec 6)
  | xor16 (s : BitVec 5) (d : BitVec 6)
  | shl16 (s : BitVec 5) (d : BitVec 6)
  | shr16 (s : BitVec 5) (d : BitVec 6)
  | shra16 (s : BitVec 5) (d : BitVec 6)
  | fadd16 (s : BitVec 5) (d : BitVec 6)
  | fsub16 (s : BitVec 5) (d : BitVec 6)
  | fmul16 (s : BitVec 5) (d : BitVec 6)
  | fmin16 (s : BitVec 5) (d : BitVec 6)
  | fmax16 (s : BitVec 5) (d : BitVec 6)
  | sel16 (s : BitVec 5) (d : BitVec 6)
  | nop
  | exit
  | join
  | ret
  | jmpi (a : BitVec 8)
  | yield
  | sleep (a : BitVec 8)
  | waitc (b : BitVec 8) (p : BitVec 8)
  | idem
  | scopeOpen (a : BitVec 8)
  | scopeClose
  | emget (k : BitVec 8)
  | emset (b : BitVec 8) (a : BitVec 8)
  | emand (b : BitVec 8) (a : BitVec 8)
  | trap (c : BitVec 8)
  | rte
  | icinv (b : BitVec 8) (a : BitVec 8)
  | fence (c : BitVec 1) (s : BitVec 3) (p : BitVec 2)
  | stampBegin (a : BitVec 8)
  | stampEnd (a : BitVec 8)
  | mcfg (b : BitVec 8) (a : BitVec 8)
  | actLd (b : BitVec 8) (n : BitVec 4)
  | badd (b : BitVec 8) (n : BitVec 4)
  | bset (k : BitVec 6) (n : BitVec 4)
  | bget (k : BitVec 6) (n : BitVec 4)
  | wfence
  | xshf (b : BitVec 8) (a : BitVec 8) (d : BitVec 7)
  | xdn (b : BitVec 8) (a : BitVec 8) (d : BitVec 7)
  | xup (b : BitVec 8) (a : BitVec 8) (d : BitVec 7)
  | xrot (b : BitVec 8) (a : BitVec 8) (d : BitVec 7)
  | xbfly (b : BitVec 8) (a : BitVec 8) (d : BitVec 7)
  | xred (o : BitVec 4) (a : BitVec 8) (d : BitVec 7)
  | xscan (e : BitVec 1) (o : BitVec 4) (a : BitVec 8) (d : BitVec 7)
  | xbal (h : BitVec 1) (p : BitVec 2) (d : BitVec 7)
  | xbcast (b : BitVec 8) (a : BitVec 8) (d : BitVec 7)
  | xfirst (a : BitVec 8) (d : BitVec 7)
  | mma (b : BitVec 8) (a : BitVec 8)
  | accAlloc (h : BitVec 3)
  | accFree (h : BitVec 3)
  | accZero (h : BitVec 3)
  | accRd (h : BitVec 3) (a : BitVec 8) (d : BitVec 7)
  | accWr (h : BitVec 3) (a : BitVec 8)
  | accMask (h : BitVec 3) (a : BitVec 8)
  | accRowmax (h : BitVec 3) (d : BitVec 7)
  | accRowsum (h : BitVec 3) (d : BitVec 7)
  | accRowscl (h : BitVec 3) (a : BitVec 8)
  | fragLda (a : BitVec 8) (d : BitVec 7)
  | fragLdb (a : BitVec 8) (d : BitVec 7)
  | fragLdas (a : BitVec 8) (d : BitVec 7)
  | fragLdbs (a : BitVec 8) (d : BitVec 7)
  | permLd (n : BitVec 2) (a : BitVec 8)
  | permLdg (n : BitVec 2) (a : BitVec 8)
  | permId (n : BitVec 2)
  | permInv (m : BitVec 2) (n : BitVec 2)
  | permCmp (m : BitVec 2) (n : BitVec 2) (k : BitVec 2)
  | permRnd (n : BitVec 2) (a : BitVec 8)
  | permPack (n : BitVec 2) (k : BitVec 2)
  | permApply (n : BitVec 2) (a : BitVec 8) (d : BitVec 7)
  | permSt (n : BitVec 2) (a : BitVec 8)
  | permCyc (n : BitVec 2) (d : BitVec 7)
  | permAcc (n : BitVec 2) (h : BitVec 3)
  | atom32 (v : BitVec 8) (a : BitVec 8) (x : BitVec 3) (e : BitVec 4)
  | atom64 (v : BitVec 8) (a : BitVec 8) (x : BitVec 3) (e : BitVec 4)
  | atoms (v : BitVec 8) (a : BitVec 8) (x : BitVec 3)
  | cas (v : BitVec 8) (a : BitVec 8) (w : BitVec 1) (s : BitVec 2) (e : BitVec 4)
  | ringInit (a : BitVec 8)
  | ringWait (b : BitVec 8) (a : BitVec 8)
  | ringRel (b : BitVec 8) (a : BitVec 8)
  | ringStat (b : BitVec 8) (a : BitVec 8)
  | barInit (b : BitVec 8) (a : BitVec 8)
  | barArrive (a : BitVec 8)
  | barWait (b : BitVec 8) (a : BitVec 8)
  | barStat (a : BitVec 8)
  | barSync (a : BitVec 8)
  | xcopyIn (k : BitVec 4) (n : BitVec 4) (a : BitVec 8)
  | xcopyOut (k : BitVec 4) (n : BitVec 4) (a : BitVec 8)
  | xcopyCommit (k : BitVec 4) (n : BitVec 4) (a : BitVec 8)
  | xcopyRows (k : BitVec 4) (n : BitVec 4) (a : BitVec 8)
  | mqSend (q : BitVec 2) (a : BitVec 8)
  | mqRecv (q : BitVec 2) (a : BitVec 8) (d : BitVec 7)
  | mqPop (q : BitVec 2) (a : BitVec 8)
  | tagLook (a : BitVec 8)
  | tagSet (b : BitVec 8) (a : BitVec 8)
  | tagClr (a : BitVec 8)
  | tagInv
  | ssetInit (k : BitVec 4) (n : BitVec 4) (a : BitVec 8)
  | ssetAdd (b : BitVec 8) (a : BitVec 8)
  | ssetBuild (a : BitVec 8)
  | ssetBind (a : BitVec 8)
  | ssetUnbind (a : BitVec 8)
  | ssetFree (a : BitVec 8)
  | ssetQuery (n : BitVec 2) (a : BitVec 8)
  | rastEmit (k : BitVec 4) (n : BitVec 4) (a : BitVec 8)
  | rastDraw (k : BitVec 4) (n : BitVec 4)
  | rastSin (n : BitVec 8)
  | rastSout (b : BitVec 8) (a : BitVec 8)
  | rastSkip
  | treemask (h : BitVec 1) (a : BitVec 8) (d : BitVec 7)
  | privTeamgo (k : BitVec 4) (n : BitVec 4) (a : BitVec 8)
  | privTeamdone
  | privAgsleep (a : BitVec 8)
  | privWkpop (k : BitVec 8)
  | dbgTracew (b : BitVec 8) (a : BitVec 8)
  | dbgPcsmp (a : BitVec 8)
  | ordInit (b : BitVec 8) (a : BitVec 8)
  | ordEnter (b : BitVec 8) (a : BitVec 8)
  | ordTry (b : BitVec 8) (a : BitVec 8)
  | ordWait (b : BitVec 8) (a : BitVec 8)
  | ordLeave (b : BitVec 8) (a : BitVec 8)
  | ordLeavev (b : BitVec 8) (a : BitVec 8)
  | ordQuery (a : BitVec 8)
  | identRead
  | attest
  | slotWrite
  | authRecovery
  | devReset
  | powerSet
  | powerCap
  | tickstop
  | stopStatus
  | ctxDefine
  | ctxAdmit
  | ctxSave
  | ctxRestore
  | ctxRelease
  | ctxPrio
  | ctxQuery
  | ctxFail
  | queueMap
  | queueReset
  | queueUnmap
  | launchQuery
  | tlbInval
  | pageResume
  | pageFail
  | linkEnable
  | linkFence
  | linkUnfence
  | linkSetup
  | trapSetup
  | traceSetup
  | pcbpSet
  | pcsampleSetup
  | dbgList
  | dbgRead
  | dbgWrite
  | dbgResume
  | mbCmdUnlisted (opcode : BitVec 16)
  | mbStatusWrite (v : BitVec 64)
  | tflagsWrite (v : BitVec 64)
  | bar2Write (offset : Nat) (v : BitVec 64)
  | registerWrite (offset : Nat) (v : BitVec 64)
  | queuePoll (q : Nat)
  | launch (q : Nat)
  | draw (q : Nat)
  | signal (q : Nat)
  | waitv (q : Nat)
  | codesync (q : Nat)
  | prio (q : Nat)
  | mark (q : Nat)
  | pad (q : Nat)
  | packetComplete (q : Nat) (n : Nat)
  | waitvPoll (q : Nat)
  | waitvTimeout (q : Nat)
  | launchClaim (launch : Nat)
  | teamComplete (team : Nat)
  | groupRetire (g : GLoc)
  | groupKill (g : GLoc)
  | loadFill (g : GLoc) (op : Nat)
  | pathOpComplete (g : GLoc) (op : Nat)
  | promotion (g : GLoc) (ent : Nat)
  | sleepWake (g : GLoc) (ent : Nat)
  | accStarve (core part : Nat)
  | ordTimeout (g : GLoc) (ent : Nat)
  | migratingRetry (g : GLoc) (ent : Nat)
  | rollback (g : GLoc) (ent : Nat) (reg : BitVec 8)
  | trapEntry (g : GLoc)
  | icacheLineFill (g : GLoc) (ent : Nat) (line : BitVec 32)
  | solveDone (core : Nat)
  | bankZeroDone (core part bank : Nat)
  | bankScrubDone (core part bank : Nat) (pass : Bool)
  | xcopyStart (core cmd : Nat)
  | sluiceChunk (core cmd : Nat)
  | xcopyEnd (core cmd : Nat)
  | mqDeliver (core q : Nat)
  | ssetBuildEnd (ctx handle : Nat)
  | rasterStageJob (draw job : Nat)
  | unitPublish (draw unit : Nat)
  | drawRelease (draw : Nat)
  | keyAbandon (ctx : Nat) (key : BitVec 64)
  | groupPreempt (g : GLoc)
  | coreRestore (core ctx : Nat)
  | ctxSaveDone (ctx : Nat)
  | ctxRestoreDone (ctx : Nat)
  | ctxReleaseDone (ctx : Nat)
  | queueResetDone (q : Nat)
  | tlbInvalDone
  | prioUpdateApply (core ctx : Nat)
  | remoteOpArrive (src q : Nat) (gen : BitVec 8) (addr : BitVec 56) (op : RemoteOp)
  | generationNotice (src q : Nat) (gen : BitVec 8)
  | linkTrainingStart (port : Nat)
  | linkTrained (port lanes peer : Nat)
  | linkTrainingTimeout (port : Nat)
  | linkLaneLost (port lanes : Nat)
  | linkDown (port : Nat)
  | flitCrcError (port : Nat)
  | cxlMemRead (offset len : Nat)
  | cxlMemWrite (offset : Nat) (bytes : List (BitVec 8))
  | cxlSnoop (addr : BitVec 56)
  | resetRelease
  | powerLoss
  | telemetryUpdate (mw : Nat) (temps : List Nat)
  | thermalFailsafe
  | tickStop
  | pcSample (core ctx : Nat)
  | pcComparatorMatch (index : Nat)
  | agsleepWake (core : Nat)
  | reservedEncoding (w : BitVec 32)
  | scanChainShift (chain : Nat)
  | directedCommandAck (unit : Nat)
  | generationNoticeAck (dev q : Nat) (gen : BitVec 8)
deriving DecidableEq, Repr

end Sys2Proof
end

