-- ==== Sys2Proof/Machine/State.lean ====
section
/-! DEFINITION. The state of the module as plain data. The unit that acts is held in front: the issuing entity `ent`,
its group `grp`, its team `team` and its core `core`; the other entities, groups, teams and cores stand in lists beside
them, and `State.focus` (Ops.lean) brings another to the front. Lists that stand for register files are read with a
default, so an index never runs off them. -/
namespace Sys2Proof.Machine
open Sys2Proof

/-- Storage as (address, byte) pairs in canonical form: addresses rise, no entry equals 0, the byte an unlisted address reads as. -/
abbrev Memory := List Host.Cell

/-- The trap codes (R377). -/
inductive TrapCode where
  | illegalInstr | illegalOperand | fetchFault | xlateFault | accessFault | misalign | divZero | intInvalid | fpExcept
  | permInvalid | ordDeadlock | ordTimeout | ordNest | ordCapacity | accStarve | scopeFault | streamerRights
  | regParityFatal | callDepth | brk | hwbkpt | softTrap | ringFault | barFault | mqFault | privFault | dataPoison
deriving DecidableEq, Repr

/-- What a trap leaves in the trap registers (R376, R378); `tpc` is the resume PC. -/
structure Trap where
  code : TrapCode := .illegalInstr
  tpc : Word := 0
  first : Word := 0
  fault : Word := 0
  addr : VAddr := 0
  lanes : Mask := 0
  data : Word := 0
deriving DecidableEq, Repr

/-- Why an entity is WAITING (R98). -/
inductive WaitReason where
  | scoreboard | counter | barrier | ring | order | scope | acc | join | sleep | perm
deriving DecidableEq, Repr

/-- Entity states (R97); an entity waiting for its fetch is READY (R98). -/
inductive EStatus where
  | ready
  | waiting (r : WaitReason)
  | faultwait
deriving DecidableEq, Repr

/-- SCC (R108): E, V, C, N, Z. -/
structure Scc where
  e : Bool := false
  v : Bool := false
  c : Bool := false
  n : Bool := false
  z : Bool := false
deriving DecidableEq, Repr

/-- An entry of the deferral stack (R101). -/
structure Deferral where
  dpc : Word
  dmask : Mask
  jpc : Option Word
  half : Bool
deriving DecidableEq, Repr

/-- The phase of a barrier (by core and window offset) that an entity waits for the end of (R178). -/
structure BarWait where
  core : Nat
  off : Nat
  phase : Nat
deriving DecidableEq, Repr

/-- What a waiting entity keeps for its wait: the barrier phase (R178), the wake tick (R270), the ticks waited by an ordered
section's form and what a grant reads (R214, R346), the first line fill that a FENCE does not wait for (R302). -/
structure WaitData where
  bar : Option BarWait := none
  wake : Option Nat := none
  ordTicks : Nat := 0
  ordGrant : Option Word := none
  fills : Option Nat := none
deriving DecidableEq, Repr

/-- The trap frame (R380), with the wait that the entity takes up again after RTE (R97). -/
structure Frame where
  pc : Word := 0
  em : Mask := 0
  scc : Scc := {}
  calls : List Word := []
  depth : Nat := 0
  wd : WaitData := {}
deriving DecidableEq, Repr

/-- The IDEM point (R125). -/
structure IdemPoint where
  pc : Word
  em : Mask
  scc : Scc
  calls : List Word
  defs : List Deferral
  scopes : List Nat
  dirty : Bool
deriving DecidableEq, Repr

/-- A page an entity is held under (R172, R173): its number VA[79:16] and whether it is MIGRATING. -/
structure HeldPage where
  page : BitVec 64
  migrating : Bool
deriving DecidableEq, Repr

/-- Where an entity's held access meets a page (R173): the address of its lowest lane there, and its lanes there. -/
structure PageFault where
  page : BitVec 64
  addr : VAddr
  lanes : Mask
deriving DecidableEq, Repr

/-- A schedulable entity (R95, R386). `promoted` is the tick of its promotion (R103). `l` is the path lane set; `gone` its lanes that a serial EXIT has ended; `heldFetch` says
that it is a fetch that FAULTWAIT holds; `failedRegs` are the registers that have failed since the last IDEM (R125); `prior` the operations
of the entities it comes from by splits and joins, which precede its own in program order (R148); `stale` the bytes of its ENTITY payload that stand
at or above the depths of its stacks, as they were last written (R387). -/
structure Entity where
  num : Nat := 0
  live : Bool := false
  pc : Word := 0
  em : Mask := 0
  l : Mask := 0
  gone : Mask := 0
  scc : Scc := {}
  calls : List Word := []
  defs : List Deferral := []
  parent : Option Nat := none
  status : EStatus := .ready
  wd : WaitData := {}
  held : List HeldPage := []
  heldFetch : Bool := false
  heldAt : List PageFault := []
  tickHi : Word := 0
  idem : Option IdemPoint := none
  failedRegs : List (BitVec 8) := []
  deferred : List Trap := []
  pendingTrap : Option Trap := none
  handling : Bool := false
  frame : Frame := {}
  skipCmp : Bool := false
  stepTrap : Nat := 0
  promoted : Option Nat := none
  yielded : Bool := false
  prior : List Nat := []
  stale : Memory := []
deriving DecidableEq, Repr

/-- A queue position: its value and, while pending (R114), the operation and word that will fill it. -/
structure QEntry where
  val : Word := 0
  tag : Option (Nat × Nat) := none
deriving DecidableEq, Repr

/-- One lane (R95, R107): named registers, result queue, predicates p0 to p3, stochastic use count (R37). -/
structure Lane where
  v : List Word := []
  q : List QEntry := []
  p : BitVec 4 := 0
  use : Word := 0
deriving DecidableEq, Repr

/-- The six paths (R137). -/
inductive Path where
  | vm | sp | xc | ga | mq | rs
deriving DecidableEq, Repr

/-- Where an outstanding operation writes a result (R114, R296, R319): `epi` is a word of the epilogue table; s registers 64 to 71 are the
handler bank. -/
inductive Dest where
  | q (lane word : Nat)
  | v (lane reg : Nat)
  | s (reg : Nat)
  | b (reg : Nat)
  | epi (word : Nat)
deriving DecidableEq, Repr

/-- One write that an outstanding operation makes when it completes. -/
structure Fill where
  dest : Dest
  val : VAddr
deriving DecidableEq, Repr

/-- A remote access of an operation (R230, R231): the device, the port taken, the address, the lane (64 for a form that acts once);
`stale` says that the usable ports of the device have changed since it was sent. -/
structure RemoteUse where
  dev : Nat
  port : Nat
  addr : VAddr
  lane : Nat
  stale : Bool := false
deriving DecidableEq, Repr

/-- Bytes of an access that go into a result: `size` bytes from byte `from_` of what is read, sign-extended where `signed`, from bit `bit`
of the destination's value on. -/
structure Part where
  dest : Dest
  from_ : Nat
  size : Nat
  bit : Nat := 0
  signed : Bool := false
deriving DecidableEq, Repr

/-- What an access does where it is performed (R150, R299, R300): a load, a store, an atomic by its code, a CAS; `barInit` is the
registration of a barrier, as it reaches its slot (R305). -/
inductive AccessKind where
  | load (parts : List Part)
  | store (bytes : List Byte)
  | atom (op : Nat) (val : BitVec 64) (parts : List Part)
  | cas (exp val : BitVec 64) (parts : List Part)
  | barInit
deriving DecidableEq, Repr

/-- One single-copy atomic access that an operation has still to perform (R130, R150): the lane (64 for a form that acts once), the scratchpad's
core or none for global memory, the address there and the size in bytes, the address that a report gives. -/
structure Todo where
  lane : Nat
  spad : Option Nat := none
  addr : Nat
  size : Nat
  va : VAddr
  what : AccessKind
deriving DecidableEq, Repr

/-- An outstanding operation: its path if it is counted (R138), its fills, whether it has finished out of turn,
whether it completes by itself, whether it is a RAST.SOUT (R211); `todo` are the accesses that it has still to perform, each at any time
until it completes (R150), and `after` the operations on its path that precede it in program order and meet its bytes (R149); `poisoned` are
the lanes that met an uncorrectable error, with the addresses to report (R176); `order` marks the status of an ORD form: until it has filled, an ENTER or WAIT holds the entity, and a TRY its memory accesses (R347). -/
structure Op where
  id : Nat
  path : Option Path
  ent : Nat
  fills : List Fill := []
  done : Bool := false
  auto : Bool := true
  uses : List RemoteUse := []
  sout : Bool := false
  todo : List Todo := []
  after : List Nat := []
  poisoned : List (Nat × VAddr) := []
  order : Option Bool := none
deriving DecidableEq, Repr

/-- A permutation register (R217, R219): state, destination lanes, switch settings. -/
inductive PmState where
  | invalid | solving | valid
deriving DecidableEq, Repr

structure Perm where
  state : PmState := .invalid
  pos : List Nat := []
  settings : List Bool := []
deriving DecidableEq, Repr

/-- An accumulator row with its poison bit and status (R122, R330); `bad` marks an uncorrectable error not yet met. -/
structure AccRow where
  elems : List Word := []
  bad : Bool := false
  poison : Bool := false
  sat : Bool := false
  inf : Bool := false
  nan : Bool := false
deriving DecidableEq, Repr

/-- A bound handle: its first bank and its rows (R122). -/
structure Acc where
  bank : Nat
  rows : List AccRow
deriving DecidableEq, Repr

/-- A split-table entry (R100). -/
structure SplitEntry where
  valid : Bool := false
  live : Nat := 0
  wait : Bool := false
  waitpc : Word := 0
  waiter : Nat := 0
  parent : Option Nat := none
deriving DecidableEq, Repr

/-- Group states (R97); `empty` is a slot that holds no group. -/
inductive GState where
  | empty | admitted | ready | trapped | preempted | exited
deriving DecidableEq, Repr

/-- The trap registers TCAUSE to TDATA (R376). -/
structure TrapRegs where
  cause : Word := 0
  pc : Word := 0
  first : Word := 0
  fault : Word := 0
  faultLo : Word := 0
  faultMid : Word := 0
  faultHi : Word := 0
  lanesLo : Word := 0
  lanesHi : Word := 0
  data : Word := 0
deriving DecidableEq, Repr

/-- A sample program's job (R199, R356, R359). -/
structure RastJob where
  draw : Nat
  unit : Nat
  batch : Nat
  job : Nat
  cursor : Nat := 0
  skipped : Bool := false
  left : Bool := false
deriving DecidableEq, Repr

/-- A key that a group holds, with the held sequence (R212). -/
structure HeldKey where
  key : BitVec 64
  seq : Word
deriving DecidableEq, Repr

/-- A group (R95, R386); `sibs` are its entities other than the one in front; `trapTick` is the tick of an entry after which another
entity may still issue in the same cycle (R381). -/
structure Group where
  loc : GLoc := ⟨0, 0, 0⟩
  gstate : GState := .empty
  agent : Bool := false
  team : Nat := 0
  gid : Nat := 0
  width : Nat := 16
  age : Nat := 0
  base : Nat := 0
  peak : Nat := 0
  scopes : List Nat := []
  fromReserve : Bool := false
  s : List Word := []
  hbank : List Word := []
  b : List VAddr := []
  lanes : List Lane := []
  pm : List Perm := []
  acc : List (Option Acc) := []
  gc : Word := 0
  gs : Word := 0
  seed : Word := 0
  mc : Word := 0
  mc2 : Word := 0
  epi : List Word := []
  ops : List Op := []
  split : List SplitEntry := []
  treg : TrapRegs := {}
  trapper : Nat := 0
  debugHeld : Bool := false
  trapTick : Option Nat := none
  keys : List HeldKey := []
  rast : Option RastJob := none
  lastExit : Word := 0
  killed : Bool := false
  sibs : List Entity := []
deriving DecidableEq, Repr

/-- A registered barrier (R177, R178): `phases` counts the phases that have ended; `reached` says that its registration has reached the slot (R305). -/
structure Barrier where
  core : Nat
  off : Nat
  expected : Nat
  arrived : Nat := 0
  phases : Nat := 0
  status : BitVec 64 := 0
  failed : Bool := false
  reached : Bool := true
deriving DecidableEq, Repr

/-- Slot states of a ring (R182). -/
inductive SlotState where
  | empty | filling | filled | held | poisoned
deriving DecidableEq, Repr

structure RingSlot where
  state : SlotState := .empty
  lap : BitVec 16 := 0
  rels : Nat := 0
  status : BitVec 64 := 0
deriving DecidableEq, Repr

/-- A registered ring (R181). -/
structure Ring where
  core : Nat
  off : Nat
  slotBase : Nat
  slotSz : Nat
  cons : Nat
  log2n : Nat
  slots : List RingSlot
deriving DecidableEq, Repr

/-- A write of a team word: what the word held before it, its tick, the place of the group that wrote, and what it set the word to or, for
WADD, added (R121). -/
structure WOld where
  reg : Nat
  val : Word
  tick : Nat
  by_ : GLoc
  x : Word
  add : Bool
deriving DecidableEq, Repr

/-- A team (R79, R94, R364). `core` is its (even) core; `base` and `base2` its window's place on it and on the partner. -/
structure Team where
  serial : Nat := 0
  core : Nat := 0
  launch : Word := 0
  ticket : BitVec 64 := 0
  job : Option Nat := none
  x : Word := 0
  y : Word := 0
  z : Word := 0
  gx : Word := 1
  gy : Word := 1
  gz : Word := 1
  ctx : Nat := 0
  queue : Nat := 0
  qgen : BitVec 8 := 0
  groups : Nat := 1
  pair : Bool := false
  producer : Option Nat := none
  cwin : VAddr := 0
  args : VAddr := 0
  entry : Word := 0
  gcinit : Word := 0
  seed : Word := 0
  width : Nat := 16
  named : Nat := 0
  peak : Nat := 0
  bars : Nat := 0
  scratch : Nat := 0
  base : Nat := 0
  base2 : Nat := 0
  w : List Word := []
  wold : List WOld := []
  barriers : List Barrier := []
  rings : List Ring := []
  draw : Option Nat := none
  exits : List (Nat × Word) := []
  err : Nat := 0
  killed : Bool := false
deriving DecidableEq, Repr

/-- A cached page-table entry (R169): address-space tag, level, VA above the level's index, the entry. -/
structure TlbEntry where
  astag : Nat
  level : Nat
  key : Nat
  pte : BitVec 64
deriving DecidableEq, Repr

/-- A line of the instruction cache (R238, R239). -/
structure ILine where
  ctx : Nat
  va : VAddr
  bytes : List Byte
deriving DecidableEq, Repr

/-- A line fill that a core has requested and that has not been delivered (R239, R302, R303): its number, and the line as memory held it then. -/
structure LineFill where
  id : Nat
  line : ILine
deriving DecidableEq, Repr

/-- A message queue of a core (R133, R134): counters, owner team, entries oldest first, sends that wait. -/
structure MqSend where
  from_ : GLoc
  op : Nat
  ctx : Nat
  bytes : List Byte
deriving DecidableEq, Repr

structure Mq where
  h : BitVec 16 := 0
  t : BitVec 16 := 0
  owner : Option Nat := none
  ownerCtx : Nat := 0
  sends : List MqSend := []
deriving DecidableEq, Repr

/-- A valid tag-table entry (R135). -/
structure TagEntry where
  set : Nat
  way : Nat
  ctx : Nat
  key : BitVec 64
  slot : Word
deriving DecidableEq, Repr

/-- The four XCOPY forms (R307). -/
inductive CopyForm where
  | cin | cout | commit | rows
deriving DecidableEq, Repr

/-- A command at the Sluice (R140 to R143, R307 to R309, R385): `begun` once its ring slot is FILLING, `described` once its
descriptor has been read, `started` once a COMMIT's tail has been too. -/
structure Copy where
  id : Nat
  g : GLoc
  team : Nat
  op : Nat
  form : CopyForm
  target : Word
  param : Word
  desc : VAddr
  perm : Option (List Nat) := none
  width : Nat := 16
  after : List Nat := []
  begun : Bool := false
  described : Bool := false
  started : Bool := false
  fields : BitVec 512 := 0
  tail : BitVec 64 := 0
  progress : Nat := 0
  range : Bool := false
  err : Nat := 0
  held : List HeldPage := []
deriving DecidableEq, Repr

/-- A PC comparator (R388). -/
structure Comparator where
  index : Nat
  ctx : Nat
  offset : Word
  qfilter : Nat
  gfilter : BitVec 6
  action : Nat
deriving DecidableEq, Repr

/-- What an accumulator bank that is not FREE is doing (R122). -/
inductive BankState where
  | owned | zeroing | poisoned | withheld
deriving DecidableEq, Repr

structure Bank where
  part : Nat
  bank : Nat
  state : BankState
deriving DecidableEq, Repr

/-- The priority a core holds for a resident context (R48). -/
structure CorePrio where
  ctx : Nat
  prio : Nat
  stamp : Nat
  mailbox : Bool
deriving DecidableEq, Repr

/-- Where one group of a held team stands (R365). -/
structure Hold where
  num : Nat
  places : List GLoc
  width : Nat
  named : Nat
  peak : Nat
  bars : Nat
  scratch : Nat
  base : Nat
  base2 : Nat
  pair : Bool
deriving DecidableEq, Repr

/-- A completed team not yet reported (R366). -/
structure DoneTeam where
  ticket : BitVec 64
  launch : Word
  err : Nat
deriving DecidableEq, Repr

/-- A core (R12); `groups` are its groups other than the one in front; `versions` are contents that lines have held and that a fetch may
still return (R239); `badSpad` the scratchpad bytes with an uncorrectable error (R124); `served` the place of the group whose command the Sluice served last (R140). -/
structure Core where
  num : Nat := 0
  spad : Memory := []
  badSpad : List Nat := []
  mqs : List Mq := []
  tags : List TagEntry := []
  icache : List ILine := []
  fills : List LineFill := []
  versions : List ILine := []
  itlb : List TlbEntry := []
  dtlb : List TlbEntry := []
  pergola : List (GLoc × Nat) := []
  sluice : List Copy := []
  served : Nat := 0
  cmps : List Comparator := []
  banks : List Bank := []
  prios : List CorePrio := []
  holds : List Hold := []
  wakes : BitVec 6 := 0
  done : List DoneTeam := []
  corrected : Nat := 0
  groups : List Group := []
deriving DecidableEq, Repr

/-- Context states (R44, R46). -/
inductive CtxState where
  | free | defined | resident | saving | saved | restoring | error | releasing
deriving DecidableEq, Repr

/-- A kept priority update (R48). -/
structure PrioUpdate where
  prio : Nat
  stamp : Nat
  mailbox : Bool
deriving DecidableEq, Repr

/-- What the device keeps of a saved core besides its stream: groups, commands and queues with what the stream's layout has
no room for (operation numbers, ages; notes/assumptions/24.md). -/
structure SavedCore where
  core : Nat
  groups : List Group
  copies : List Copy
  mqs : List (Nat × Mq)
deriving DecidableEq, Repr

/-- A context-table entry and what the management plane keeps beside it (R44, R48, R51, R360, R379, R392); `savingAt` is the tick at
which it left RESIDENT to be saved (R214); `traceNew` counts the records of the area that a TRACE_SETUP in progress gives (R17); `saveBad` says that the state being saved has an uncorrectable error (R50). -/
structure Ctx where
  num : Nat
  state : CtxState := .free
  root : BitVec 64 := 0
  flbase : BitVec 64 := 0
  fllog2 : Nat := 0
  ovbase : BitVec 64 := 0
  ovlog2 : Nat := 0
  ordwait : Nat := 0
  savebase : BitVec 64 := 0
  savemb : Nat := 0
  qmax : Nat := 0
  prio : Nat := 0
  astag : Nat := 0
  rslot : Nat := 0
  gen : BitVec 16 := 0
  base : PrioUpdate := ⟨0, 0, false⟩
  eff : PrioUpdate := ⟨0, 0, false⟩
  kept : List PrioUpdate := []
  claims : Nat := 0
  hoff : Word := 0
  hmask : Word := 0
  dmask : Word := 0
  trace : Bool := false
  traceBase : BitVec 64 := 0
  traceLog2 : Nat := 0
  traceNext : Nat := 0
  traceNew : Nat := 0
  sampleK : Nat := 0
  samplePos : List (Nat × Nat) := []
  saved : List SavedCore := []
  savedTeams : List Team := []
  keepsSlot : Bool := false
  savingAt : Nat := 0
  saveBad : Bool := false
deriving DecidableEq, Repr

/-- Queue states (R55). -/
inductive QState where
  | unmapped | idle | active | stalled | error | resetting
deriving DecidableEq, Repr

/-- A packet that has started and not completed (R62): its bits, its launch or draw, the error it carries, the tick of its
claim, the cores that a PRIO packet's update has not reached, whether a MARK has written, the pages it is held under (R174). -/
structure Started where
  n : Nat
  packet : BitVec 512
  launch : Word := 0
  err : Nat := 0
  stamp : Nat := 0
  wait : List Nat := []
  marked : Bool := false
  held : List HeldPage := []
deriving DecidableEq, Repr

/-- A queue descriptor and the scanner's record of the queue (R55 to R60, R66); `waitMet` says that the WAITV at its head has been seen true,
`claimTick` is the tick at which an agent claimed its notice (R48). -/
structure Queue where
  num : Nat
  state : QState := .unmapped
  ctx : Nat := 0
  cls : Nat := 0
  home : Nat := 0
  log2 : Nat := 0
  priook : Bool := false
  ring : BitVec 64 := 0
  widxAddr : BitVec 64 := 0
  ridxAddr : BitVec 64 := 0
  ridx : Nat := 0
  qgen : BitVec 8 := 0
  pollns : Nat := 0
  err : Nat := 0
  lastW : Nat := 0
  due : Nat := 0
  notice : Bool := false
  claimed : Bool := false
  claimTick : Nat := 0
  waitSince : Option Nat := none
  waitMet : Bool := false
  started : List Started := []
  held : List HeldPage := []
deriving DecidableEq, Repr

/-- A work notice (R82). -/
structure Notice where
  arbour : Nat
  raster : Bool
  cls : Nat
  queue : Nat
  qgen : BitVec 8
  launch : Word
deriving DecidableEq, Repr

/-- Launch states (R83). -/
inductive LaunchState where
  | pending | claimed | issuing | draining | done | failed
deriving DecidableEq, Repr

/-- A launch record (R83), with the packet and descriptor it was claimed from. `map` lists the started tickets and
whether each has completed. -/
structure Launch where
  id : Word
  state : LaunchState := .pending
  isDraw : Bool := false
  ticket : Nat := 0
  doneN : Nat := 0
  total : Nat := 0
  hwm : Nat := 0
  low : Nat := 0
  kdesc : VAddr := 0
  args : VAddr := 0
  gx : Nat := 1
  gy : Nat := 1
  gz : Nat := 1
  err : Nat := 0
  qgen : BitVec 8 := 0
  queue : Nat := 0
  packet : Nat := 0
  ctx : Nat := 0
  cohort : Bool := false
  morton : Bool := false
  sync : Bool := false
  go : Bool := false
  desc : BitVec 512 := 0
  map : List (Nat × Bool) := []
  holders : List (Nat × Nat × Nat) := []
deriving DecidableEq, Repr

/-- A waiter of a key (R210); `handler` says that the entity was handling a trap when it issued the form. -/
structure Waiter where
  g : GLoc
  ent : Nat
  seq : Word
  enter : Bool
  since : Nat
  handler : Bool := false
deriving DecidableEq, Repr

/-- A key that is not ABSENT (R210), or that something waits on. -/
structure Key where
  ctx : Nat
  key : BitVec 64
  n : Word
  holder : Option GLoc
  abandoned : Bool := false
  spilled : Bool := false
  ovslot : Nat := 0
  waiters : List Waiter := []
  skips : List Word := []
deriving DecidableEq, Repr

/-- Sample-set states (R187). -/
inductive SetState where
  | freed | empty | filling | building | built | bound
deriving DecidableEq, Repr

/-- A work unit of a set (R191). -/
structure WorkUnit where
  first : Nat
  count : Nat
  level : Nat
  qpath : Nat
  cell : Nat
deriving DecidableEq, Repr

/-- A sample as the Saltern read it at a build or close (R188, R190). -/
structure Sample where
  num : Nat
  x : Int
  y : Int
  ref : Word
  payload : Word
deriving DecidableEq, Repr

/-- What a command at the Saltern does (R187, R194); a DRAW packet's names its set and the draw's record. EMIT and DRAW give the addresses of
their header and records, which the Saltern reads when it applies them (R193, R354). -/
inductive SaltCmd where
  | init (handle : Nat) (desc : VAddr)
  | add (handle : Nat) (recs : List (List Word))
  | build (handle : Nat)
  | bind (handle : Nat)
  | unbind (handle : Nat)
  | free (handle : Nat)
  | query (handle n : Nat)
  | emit (at_ : VAddr) (recs : List VAddr)
  | draw (at_ : VAddr)
  | packet (handle : Nat) (launch : Word) (at_ : VAddr)
deriving DecidableEq, Repr

/-- A command that waits at the Saltern (R174, R189): the group and operation it completes, its team, its home, the operations that
must have completed before it (R188, R355), the pages it is held under. The home of an EMIT or DRAW that opens a draw is 8 until its header has
been read (R194). -/
structure HeldCmd where
  g : GLoc
  op : Nat
  team : Nat
  ctx : Nat
  home : Nat
  cmd : SaltCmd
  after : List Nat := []
  held : List HeldPage := []
deriving DecidableEq, Repr

/-- The index build of a set that runs: the operation that it completes, and the queue that it works for (R72, R187). -/
structure Builder where
  g : GLoc
  op : Nat
  launch : Word
  queue : Nat
  qgen : BitVec 8
deriving DecidableEq, Repr

/-- A sample set (R186 to R192, R203). -/
structure SampleSet where
  ctx : Nat
  handle : Nat
  state : SetState := .freed
  desc : BitVec 512 := 0
  count : Nat := 0
  err : Nat := 0
  lateFrom : Nat := 0
  latePlaced : Nat := 0
  rejected : Nat := 0
  order : List Sample := []
  units : List WorkUnit := []
  builder : Option Builder := none
  held : List HeldPage := []
deriving DecidableEq, Repr

/-- A snapped primitive (R195). -/
structure Prim where
  x0 : Int
  y0 : Int
  z0 : Word
  x1 : Int
  y1 : Int
  z1 : Word
  x2 : Int
  y2 : Int
  z2 : Word
  id : Word
deriving DecidableEq, Repr

/-- A job of a draw (R196). -/
structure Job where
  num : Nat
  unit : Nat
  batch : Nat
  prims : List Prim
  running : Bool := false
  committed : Bool := false
deriving DecidableEq, Repr

/-- A staged record of a unit (R199): the position in RESULTS, its value when loaded, its value now. -/
structure Staged where
  unit : Nat
  pos : Nat
  orig : BitVec 64
  now : BitVec 64
deriving DecidableEq, Repr

/-- A draw (R193 to R205); `toPost` counts the RASTER notices that wait for the draw before it (R189). -/
structure Draw where
  id : Word
  ctx : Nat
  home : Nat
  handle : Nat
  header : BitVec 512
  headerAt : VAddr := 0
  team : Nat := 0
  ops : List (GLoc × Nat) := []
  closed : Bool := false
  prims : List Prim := []
  smallN : Nat := 0
  jobs : List Job := []
  staged : List Staged := []
  published : List Nat := []
  counters : List Nat := []
  toPost : Nat := 0
  held : List HeldPage := []
deriving DecidableEq, Repr

/-- An open fault slot of an Arbour (R172). -/
structure FaultSlot where
  arbour : Nat
  ctx : Nat
  page : BitVec 64
deriving DecidableEq, Repr

/-- A port's state (R228, R229). -/
inductive PortState where
  | down | training | up | degraded | fenced
deriving DecidableEq, Repr

/-- A port (R228, R229); `resets` are the generations that it owes the far end, `theirs` those that the far end owes it (R232). -/
structure Port where
  num : Nat
  state : PortState := .down
  lanes : Nat := 0
  replays : Nat := 0
  retrains : BitVec 16 := 0
  peer : Nat := 0
  fails : Nat := 0
  resets : List (Nat × BitVec 8) := []
  theirs : List (Nat × BitVec 8) := []
deriving DecidableEq, Repr

/-- A generation: device, queue, QGEN (R73). -/
structure Generation where
  dev : Nat
  queue : Nat
  gen : BitVec 8
deriving DecidableEq, Repr

/-- DEVSTATE (R397). -/
inductive DevState where
  | boot | ready | recovery | stopped | failsafe
deriving DecidableEq, Repr

/-- What a mailbox command in progress waits for (R17): what a directed command carries to its units, or another end. -/
inductive Directed where
  | none
  | tlbInval (ctx : Nat) (va : VAddr) (len : Nat)
  | pageResume (ctx : Nat) (va : VAddr) (len : Nat)
  | pageFail (ctx : Nat) (va : VAddr) (len : Nat)
  | trapSetup (ctx : Nat) (trace : Bool) (hoff hmask dmask : Word)
  | traceSetup (ctx log2 : Nat) (base : BitVec 64)
  | comparator (c : Comparator) (core : Option Nat)
  | sampling (ctx k : Nat)
  | prio (ctx prio stamp : Nat)
  | save (ctx : Nat)
  | restore (ctx : Nat)
  | release (ctx : Nat)
  | queueReset (q : Nat)
  | kill (ctx : Nat)
  | tickstop (tick : Nat)
  | dbgRead (g : GLoc) (type index offset len : Nat)
  | dbgWrite (g : GLoc) (type index offset : Nat) (bytes : List Byte)
  | dbgResume (g : GLoc) (mode : Nat)
deriving DecidableEq, Repr

/-- The mailbox (R397, R398); `cmd` is the opcode last started. -/
structure Mailbox where
  cmd : Nat := 0
  params : List Byte := []
  response : List Byte := []
  busy : Bool := false
  result : Nat := 0
  rsvw : Bool := false
  directed : Directed := .none
  units : List Nat := []
  mark : Nat := 0
deriving DecidableEq, Repr

/-- Power, clock and telemetry (R401 to R403); `mw`, `temps` and the fields from `seenStep` on are the telemetry registers as they were last updated. -/
structure Power where
  step : Nat := 0
  cap : Nat := 4800
  seenStep : Nat := 0
  seenCap : Nat := 4800
  corrected : Nat := 0
  withheld : Nat := 0
  mw : Nat := 0
  temps : List Nat := List.replicate 16 0
  hot : Bool := false
  overcap : Bool := false
deriving DecidableEq, Repr

/-- The module outside the cores. `flash` is the module flash but for the sealed identity, whose version floor is `floor` (R393); `cxl` says that the
host has negotiated CXL (R234), `cxlData` and `cxlPoison` are what its last CXL.mem read returned (R236); `strays` are the PRIO packets of
reset queues whose updates are still on their way (R48). `lodgeTlb` is the TLB of Lodge A, where the scanner makes the control plane's accesses; `lodgeTlbB`
that of Lodge B (R169, notes/assumptions/65.md). -/
structure Device where
  tick : Nat := 0
  mem : Memory := []
  poison : List Nat := []
  devstate : DevState := .boot
  slot : Nat := 0
  booterr : Nat := 0
  cfgUp : Bool := true
  cxl : Bool := true
  cxlData : List Byte := []
  cxlPoison : Bool := false
  mb : Mailbox := {}
  msix : List Nat := []
  window : Memory := []
  flash : Memory := []
  booted : List Byte := []
  floor : Nat := 0
  version : Nat := 0
  power : Power := {}
  stopAt : Option Nat := none
  stopped : Option Nat := none
  scanned : List Nat := []
  ctxs : List Ctx := []
  queues : List Queue := []
  strays : List Started := []
  notices : List Notice := []
  openTable : List (Nat × Word) := []
  arbWakes : List (BitVec 6) := []
  arbCmps : List (List Comparator) := []
  launches : List Launch := []
  counters : List Nat := []
  sets : List SampleSet := []
  draws : List Draw := []
  salt : List HeldCmd := []
  keys : List Key := []
  slots : List FaultSlot := []
  l2tlb : List (Nat × TlbEntry) := []
  walkCache : List (Nat × TlbEntry) := []
  lodgeTlb : List TlbEntry := []
  lodgeTlbB : List TlbEntry := []
  ports : List Port := []
  devnum : Nat := 0
  routes : List (BitVec 64) := []
  gensIn : List Generation := []
  gensSent : List Generation := []
  gensAck : List Generation := []
deriving DecidableEq, Repr

/-- An entity of the module by place and number. -/
structure ELoc where
  g : GLoc
  ent : Nat
deriving DecidableEq, Repr

/-- A bit error that arises in storage (R122, R124, R176); `saved` is one in the state of a context that is being saved (R50). -/
inductive Upset where
  | memory (addr : Nat)
  | accRow (g : GLoc) (handle row : Nat)
  | spad (core addr : Nat)
  | saved (ctx : Nat)
  | corrected
deriving DecidableEq, Repr

/-- Who acts next (notes/assumptions/2.md): an event of the opcode table, an entity's issue, a core serving an open
launch (R85), ticks that pass, an upset; a second entity of a group that issues in the cycle in which another trapped (R381), a line
fill that is requested or delivered, the contents of a line that a later fetch of a core may return (R239), access k of an outstanding operation that is performed (R150), a queue reset at the far end of a port (R232),
the host's negotiation of CXL (R234). -/
inductive Turn where
  | event (i : Instr)
  | issue (e : ELoc)
  | serve (core : Nat) (launch : Nat)
  | pass (n : Nat)
  | upset (u : Upset)
  | also (e : ELoc)
  | request (e : ELoc)
  | deliver (core : Nat)
  | version (core ctx : Nat) (va : VAddr)
  | perform (g : GLoc) (op k : Nat)
  | farReset (port queue : Nat) (gen : BitVec 8)
  | cxl (on : Bool)
deriving DecidableEq, Repr

/-- The whole machine. -/
structure State where
  ent : Entity := {}
  grp : Group := {}
  team : Team := {}
  core : Core := {}
  teams : List Team := []
  cores : List Core := []
  dev : Device := {}
  turns : List Turn := []
  fresh : Nat := 0
  nextOp : Nat := 0
  nextAge : Nat := 1
  nextTeam : Nat := 1
deriving DecidableEq, Repr

/-- Why a step stops for good. -/
inductive Fault where
  /-- raised by every unit of a module that a tick stop has frozen: no unit acts after S until reset (R391). It is safe: the spec says that nothing acts. -/
  | frozen
deriving DecidableEq, Repr

/-- Why an instruction or event has no meaning in a state. -/
inductive Refusal where
  /-- raised by an arm of `exec` that has no meaning yet; safe, as nothing is claimed of it -/
  | notModelled (mnemonic : String)
  /-- raised by an event of the opcode table whose enabling condition does not hold, so that no hardware performs it in that state; safe, as the event does not occur -/
  | notDue
deriving DecidableEq, Repr

/-- The agent's entity (R81): slot 31. -/
def agentEntity : Entity := { num := 31, live := true, em := 0xFFFF, l := 0xFFFF }

/-- The agent's group on a core (R12, R81): partition 0, slot 15. -/
def agentGroup (c : Nat) : Group :=
  { loc := ⟨c, 0, 15⟩, gstate := .ready, agent := true, width := 16 }

/-- A core as it stands after reset (notes/assumptions/10.md). Its agent is the group in front. -/
def coreReset (c : Nat) : Core := { num := c }

/-- The machine right after reset is released (R395): DEVSTATE is BOOT, no user group exists, memory lists nothing. -/
def State.reset : State :=
  { ent := agentEntity, grp := agentGroup 0, core := coreReset 0 }

end Sys2Proof.Machine
end

