-- ==== Sys2Proof/Machine/Ops.lean ====
section
/-! DEFINITION. The named operations over storage, registers, entities and groups; translation; records; taking an
exception and returning from one. -/
namespace Sys2Proof.Machine
open Sys2Proof

/-! ## Lists read with a default -/

/-- The list with x at index i, filled up with d where it was shorter. -/
def putAt {α : Type} (d : α) : List α → Nat → α → List α
  | [], 0, x => [x]
  | [], n + 1, x => d :: putAt d [] n x
  | _ :: t, 0, x => x :: t
  | a :: t, n + 1, x => a :: putAt d t n x

/-! ## Storage -/

/-- The byte at an address: 0 where none is listed (notes/assumptions/4.md). -/
def Memory.read : Memory → Nat → Byte
  | [], _ => 0
  | (a, b) :: t, x => if a = x then b else Memory.read t x

/-- Stores a byte, keeping the canonical form: a zero byte is not listed. -/
def Memory.write : Memory → Nat → Byte → Memory
  | [], x, v => if v = 0 then [] else [(x, v)]
  | (a, b) :: t, x, v =>
    if x < a then (if v = 0 then (a, b) :: t else (x, v) :: (a, b) :: t)
    else if x = a then (if v = 0 then t else (x, v) :: t)
    else (a, b) :: Memory.write t x v

/-- Every listed address is at least lo, addresses rise, and no byte is 0. -/
def Memory.wfFrom : Nat → Memory → Bool
  | _, [] => true
  | lo, (a, b) :: t => decide (lo ≤ a) && decide (b ≠ 0) && Memory.wfFrom (a + 1) t

/-- The canonical form. -/
def Memory.wf (m : Memory) : Bool := Memory.wfFrom 0 m

/-- n bytes from an address up. -/
def Memory.readBytes (m : Memory) (a : Nat) : Nat → List Byte
  | 0 => []
  | n + 1 => m.read a :: Memory.readBytes m (a + 1) n

/-- Stores bytes from an address up. -/
def Memory.writeBytes : Memory → Nat → List Byte → Memory
  | m, _, [] => m
  | m, a, b :: t => Memory.writeBytes (m.write a b) (a + 1) t

/-- The natural number that bytes hold, least significant first (R4). -/
def leNat : List Byte → Nat
  | [] => 0
  | b :: t => b.toNat + 256 * leNat t

/-- n bytes of a natural number, least significant first (R4). -/
def leBytes : Nat → Nat → List Byte
  | _, 0 => []
  | x, n + 1 => BitVec.ofNat 8 x :: leBytes (x / 256) n

/-- The field [hi:lo] of a value of any width. -/
def fieldOf (x lo k : Nat) : Nat := x / 2 ^ lo % 2 ^ k

/-- The mask with the lanes that satisfy p. -/
def laneMask (p : Nat → Bool) : Nat → Mask
  | 0 => 0
  | n + 1 => laneMask p n ||| (if p n then (1 : Mask) <<< n else 0)

/-! ## Registers -/

/-- The count N of the named window (R116). -/
def Group.window (g : Group) : Nat := g.base + 8 * g.scopes.sum

def Group.lane (g : Group) (i : Nat) : Lane := g.lanes.getD i {}

/-- Applies f to every lane 0 to G − 1. -/
def Group.mapLanes (g : Group) (f : Nat → Lane → Lane) : Group :=
  { g with lanes := (List.range g.width).map fun i => f i (g.lane i) }

def Lane.reg (l : Lane) (r : Nat) : Word := l.v.getD r 0
def Lane.setReg (l : Lane) (r : Nat) (x : Word) : Lane := { l with v := putAt 0 l.v r x }
def Lane.qAt (l : Lane) (n : Nat) : QEntry := l.q.getD n {}
/-- Push(i, v) (R6): q15 is lost, each qn becomes qn+1, v becomes q0. -/
def Lane.push (l : Lane) (e : QEntry) : Lane := { l with q := e :: l.q.take 15 }

/-- Active(i) (R6). -/
def State.active (s : State) (i : Nat) : Bool := decide (i < s.grp.width) && s.ent.em.getLsbD i

/-- The unexited lanes of the path lane set: those that pushes reach (R99, R112). -/
def State.live (s : State) : Mask := s.ent.l &&& ~~~ s.ent.gone
def State.inL (s : State) (i : Nat) : Bool := decide (i < s.grp.width) && s.live.getLsbD i

/-- The active lanes in ascending order. -/
def State.activeLanes (s : State) : List Nat := (List.range s.grp.width).filter s.active
def State.activeMask (s : State) : Mask := laneMask s.active s.grp.width

/-- Where s register n stands: 0 to 63, or 64 to 71 for the handler bank that s56 to s63 name while the entity handles a
trap (R380). -/
def State.sIndex (s : State) (n : Nat) : Nat := if s.ent.handling ∧ 56 ≤ n ∧ n ≤ 63 then n + 8 else n

def Group.sAt (g : Group) (k : Nat) : Word := if 64 ≤ k then g.hbank.getD (k - 64) 0 else g.s.getD k 0
def Group.setSAt (g : Group) (k : Nat) (x : Word) : Group :=
  if 64 ≤ k then { g with hbank := putAt 0 g.hbank (k - 64) x } else { g with s := putAt 0 g.s k x }

def State.sreg (s : State) (n : Nat) : Word := s.grp.sAt (s.sIndex n)
def State.setS (s : State) (n : Nat) (x : Word) : State := { s with grp := s.grp.setSAt (s.sIndex n) x }

def State.breg (s : State) (n : Nat) : VAddr := s.grp.b.getD n 0
def State.setB (s : State) (n : Nat) (x : VAddr) : State := { s with grp := { s.grp with b := putAt 0 s.grp.b n x } }
def State.wreg (s : State) (n : Nat) : Word := s.team.w.getD n 0

/-- The ticks that n cycles of the arithmetic clock take at most, at its present step (R401). -/
def State.ticksOf (s : State) (n : Nat) : Nat := (n * [60, 75, 100, 120].getD s.dev.power.step 120 + 59) / 60

/-- What a team word held before writes of other groups that an instruction issued now need not see yet, newest first (R121). -/
def State.wordsSeen (s : State) (n : Nat) : List Word :=
  ((s.team.wold.filter fun o => o.reg = n).takeWhile fun o =>
    o.by_ != s.grp.loc && decide (s.dev.tick < o.tick + s.ticksOf (if o.by_.core = s.core.num then 8 else 24))).map WOld.val

/-- A team word as an instruction reads it: its value, or one that it held shortly before, by a free choice (R121). -/
def State.wseen (s : State) (n : Nat) : Word :=
  let l := s.wreg n :: s.wordsSeen n
  l.getD (Config.choose [121, s.core.num, s.grp.loc.part, s.grp.loc.slot, s.ent.pc.toNat, s.dev.tick, n] % l.length) 0

/-- The old values that stay visible once every write of a group has become visible (R156, R157): none from before its writes. -/
def settleWords (g : GLoc) : List Nat → List WOld → List WOld
  | _, [] => []
  | seen, o :: t =>
    if seen.contains o.reg then settleWords g seen t
    else if o.by_ = g then settleWords g (o.reg :: seen) t
    else o :: settleWords g seen t

/-- The team words that the group in front has written are visible to every group of its team (R156, R157). -/
def State.showWords (s : State) : State := { s with team := { s.team with wold := settleWords s.grp.loc [] s.team.wold } }

/-- What a team word holds after a write. -/
def WOld.after (o : WOld) : Word := if o.add then o.val + o.x else o.x

/-- The place of a write among those of its cycle (R121): the even core's first, then ascending partition. -/
def WOld.place (o : WOld) : Nat := o.by_.core % 2 * 16 + o.by_.part

/-- Puts a write among the earlier ones of its cycle, newest first; each starts from what the one before it left (R121). -/
def orderWrite (o : WOld) : List WOld → List WOld
  | [] => [o]
  | a :: t =>
    if a.place ≤ o.place then { o with val := a.after } :: a :: t
    else { a with val := ((orderWrite { o with val := a.val } t).head?.map WOld.after).getD a.val } :: orderWrite { o with val := a.val } t

/-- The writes of a word with one more of the present cycle, newest first (R121). -/
def State.writes (s : State) (n : Nat) (x : Word) (add : Bool) : List WOld :=
  orderWrite ⟨n, s.wreg n, s.dev.tick, s.grp.loc, x, add⟩ (s.team.wold.filter fun o => o.reg = n && o.tick = s.dev.tick)

/-- Sets a team word or adds to it, keeping what it held (R121). -/
def State.setW (s : State) (n : Nat) (x : Word) (add : Bool := false) : State := { s with team := { s.team with
  w := putAt 0 s.team.w n (((s.writes n x add).head?.map WOld.after).getD x)
  wold := s.writes n x add ++ s.team.wold.filter fun o => !(o.reg = n && o.tick = s.dev.tick) && decide (s.dev.tick < o.tick + s.ticksOf 24) } }
def State.raise (s : State) (f : Flags) : State := { s with grp := { s.grp with gs := s.grp.gs ||| f.setWidth 32 } }
def State.mapLanes (s : State) (f : Nat → Lane → Lane) : State := { s with grp := s.grp.mapLanes f }
def State.setEnt (s : State) (f : Entity → Entity) : State := { s with ent := f s.ent }
def State.setDev (s : State) (f : Device → Device) : State := { s with dev := f s.dev }

/-- EM ← m AND L, exited lanes never becoming active again (R99). -/
def State.setEM (s : State) (m : Mask) : State := s.setEnt fun e => { e with em := m &&& s.live }

/-- SCC as SRD reads it (R108). -/
def Scc.toWord (c : Scc) : Word :=
  BitVec.ofNat 32 (c.e.toNat * 16 + c.v.toNat * 8 + c.c.toNat * 4 + c.n.toNat * 2 + c.z.toNat)
def Scc.ofWord (w : Word) : Scc := ⟨w.getLsbD 4, w.getLsbD 3, w.getLsbD 2, w.getLsbD 1, w.getLsbD 0⟩

/-- Dirties the region after an IDEM point (R126). -/
def Entity.dirty (e : Entity) : Entity := { e with idem := e.idem.map fun p => { p with dirty := true } }
def State.dirty (s : State) : State := s.setEnt Entity.dirty

/-- A free value (notes/assumptions/3.md) and the state with the counter advanced. -/
def State.free (s : State) : Nat × State := (Config.free s.fresh, { s with fresh := s.fresh + 1 })

/-! ## Bringing a unit to the front -/

/-- The group in front with its entity among the others. -/
def State.stowGroup (s : State) : Group := { s.grp with sibs := s.ent :: s.grp.sibs }
/-- The core in front with its group among the others. -/
def State.stowCore (s : State) : Core := { s.core with groups := s.stowGroup :: s.core.groups }
/-- Every core the state lists, each with all its groups and they with all their entities. -/
def State.allCores (s : State) : List Core := s.stowCore :: s.cores
def State.allTeams (s : State) : List Team := s.team :: s.teams
/-- Every group that stands in a slot. -/
def State.allGroups (s : State) : List Group := (s.allCores.flatMap Core.groups).filter fun g => g.gstate != .empty
def State.coreGroups (s : State) : List Group := s.stowCore.groups.filter fun g => g.gstate != .empty
def State.groupAt (s : State) (l : GLoc) : Option Group := s.allGroups.find? fun g => g.loc = l
/-- A team by its number, the teams of saved contexts included. -/
def State.teamOf (s : State) (n : Nat) : Team := ((s.allTeams ++ s.dev.ctxs.flatMap Ctx.savedTeams).find? fun t => t.serial = n).getD { serial := n }

/-- Takes the first element that satisfies p out of a list. -/
def takeFirst {α : Type} (p : α → Bool) : List α → Option (α × List α)
  | [] => none
  | a :: t => if p a then some (a, t) else (takeFirst p t).map fun (x, r) => (x, a :: r)

/-- Brings a team to the front by its serial number; the agent's is number 0. -/
def State.focusTeam (s : State) (n : Nat) : State :=
  if s.team.serial = n then s
  else match takeFirst (fun t => t.serial = n) s.teams with
    | some (t, r) => { s with team := t, teams := s.team :: r }
    | none => { s with team := { serial := n }, teams := s.team :: s.teams }

/-- Puts a group in front, its first entity leading. -/
def State.leadGroup (s : State) (g : Group) (rest : List Group) : State :=
  let s := match g.sibs with
    | e :: t => { s with ent := e, grp := { g with sibs := t }, core := { s.core with groups := rest } }
    | [] => { s with ent := {}, grp := g, core := { s.core with groups := rest } }
  s.focusTeam g.team

/-- A core that the state does not list: as after reset, but for the wake events and the comparators of its Arbour (R367, R388). -/
def State.freshCore (s : State) (c : Nat) : Core :=
  { coreReset c with groups := [{ agentGroup c with sibs := [agentEntity] }], wakes := s.dev.arbWakes.getD (c / 104) 0, cmps := s.dev.arbCmps.getD (c / 104) [] }

/-- Brings a core to the front, led by its agent. -/
def State.focusCore (s : State) (c : Nat) : State :=
  if s.core.num = c then s
  else
    let (k, r) := (takeFirst (fun k => k.num = c) s.cores).getD (s.freshCore c, s.cores)
    let s' := { s with core := k, cores := s.stowCore :: r }
    match takeFirst Group.agent k.groups with
    | some (g, rest) => s'.leadGroup g rest
    | none => s'.leadGroup { agentGroup c with sibs := [agentEntity] } k.groups

/-- Brings a group to the front, if one stands there. -/
def State.focusGroup (s : State) (l : GLoc) : Option State :=
  if s.grp.loc = l ∧ s.core.num = l.core then some (s.focusTeam s.grp.team)
  else
    let s := s.focusCore l.core
    if s.grp.loc = l then some (s.focusTeam s.grp.team)
    else match takeFirst (fun g => g.loc = l) s.core.groups with
      | some (g, rest) => some (s.leadGroup g (s.stowGroup :: rest))
      | none => none

/-- Brings an entity of the group in front to the front. -/
def State.focusEnt (s : State) (n : Nat) : Option State :=
  if s.ent.num = n then some s
  else match takeFirst (fun e => e.num = n) s.grp.sibs with
    | some (e, r) => some { s with ent := e, grp := { s.grp with sibs := s.ent :: r } }
    | none => none

def State.focus (s : State) (l : GLoc) (n : Nat) : Option State := (s.focusGroup l).bind fun s => s.focusEnt n

/-- Applies f to every group, the one in front (with its entities together) included. -/
def State.mapGroups (s : State) (f : Group → Group) : State :=
  let g := f s.stowGroup
  let c := { s.core with groups := s.core.groups.map f }
  let s := { s with cores := s.cores.map fun (k : Core) => { k with groups := k.groups.map f } }
  match takeFirst (fun e => e.num = s.ent.num) g.sibs with
  | some (e, r) => { s with ent := e, grp := { g with sibs := r }, core := c }
  | none => match g.sibs with
    | e :: t => { s with ent := e, grp := { g with sibs := t }, core := c }
    | [] => { s with ent := { s.ent with live := false }, grp := g, core := c }

def State.mapCores (s : State) (f : Core → Core) : State := { s with core := f s.core, cores := s.cores.map f }
def State.mapTeams (s : State) (f : Team → Team) : State := { s with team := f s.team, teams := s.teams.map f }

/-! ## Records kept by number -/

def State.ctx (s : State) (n : Nat) : Ctx := (s.dev.ctxs.find? fun c => c.num = n).getD { num := n }

/-- Replaces the element that p finds, or adds it. -/
def upsert {α : Type} (p : α → Bool) (x : α) : List α → List α
  | [] => [x]
  | a :: t => if p a then x :: t else a :: upsert p x t

/-- A core by its number, and a change of it. -/
def State.coreOf (s : State) (c : Nat) : Core :=
  if s.core.num = c then s.core else (s.cores.find? fun k => k.num = c).getD (s.freshCore c)
def State.onCore (s : State) (c : Nat) (f : Core → Core) : State :=
  if s.core.num = c then { s with core := f s.core }
  else { s with cores := upsert (fun k => k.num = c) (f (s.coreOf c)) s.cores }

/-- What a core holds for a resident context (R48). -/
def Core.prio (k : Core) (c : Ctx) : PrioUpdate :=
  match k.prios.find? fun x => x.ctx = c.num with
  | some x => ⟨x.prio, x.stamp, x.mailbox⟩
  | none => c.base

def State.setCtx (s : State) (c : Ctx) : State := s.setDev fun d => { d with ctxs := upsert (fun k => k.num = c.num) c d.ctxs }
def State.queue (s : State) (n : Nat) : Queue := (s.dev.queues.find? fun q => q.num = n).getD { num := n }
def State.setQueue (s : State) (q : Queue) : State := s.setDev fun d => { d with queues := upsert (fun k => k.num = q.num) q d.queues }
def State.port (s : State) (n : Nat) : Port := (s.dev.ports.find? fun p => p.num = n).getD { num := n }
def State.setPort (s : State) (p : Port) : State := s.setDev fun d => { d with ports := upsert (fun k => k.num = p.num) p d.ports }
def State.launch? (s : State) (id : Word) : Option Launch := s.dev.launches.find? fun l => l.id = id
def State.setLaunch (s : State) (l : Launch) : State := s.setDev fun d => { d with launches := upsert (fun k => k.id = l.id) l d.launches }
def State.draw? (s : State) (id : Word) : Option Draw := s.dev.draws.find? fun l => l.id = id
def State.setDraw (s : State) (l : Draw) : State := s.setDev fun d => { d with draws := upsert (fun k => k.id = l.id) l d.draws }

def State.mem (s : State) : Memory := s.dev.mem

/-- Stores bytes in memory; a store removes the poison of what it overwrites (R176). -/
def State.store (s : State) (a : Nat) (bs : List Byte) : State :=
  s.setDev fun d => { d with mem := d.mem.writeBytes a bs, poison := d.poison.filter fun p => p < a || a + bs.length ≤ p }

def State.poisonedAt (s : State) (a n : Nat) : Bool := s.dev.poison.any fun p => a ≤ p && p < a + n

/-- The Arbour of a core (R11). -/
def arbourOf (core : Nat) : Nat := core / 104
def State.arbour (s : State) : Nat := arbourOf s.core.num

/-! ## Fault log and trace area -/

/-- What a fault record says (R52). -/
structure Rec where
  kind : Nat
  code : Nat
  addr : VAddr := 0
  pc : Word := 0
  launch : Word := 0
  progress : Nat := 0
  detail : Word := 0
  lanes : Mask := 0
  queue : Nat := 0
  core : Nat := 0
  part : Nat := 0
deriving DecidableEq, Repr

/-- The 512 bits of a fault record (R52). -/
def Rec.bits (r : Rec) (tick : Nat) : Nat :=
  r.addr.toNat * 2 ^ 432 + r.pc.toNat * 2 ^ 400 + r.launch.toNat * 2 ^ 368 + r.progress % 2 ^ 64 * 2 ^ 304 + tick % 2 ^ 64 * 2 ^ 240
    + r.detail.toNat * 2 ^ 208 + r.lanes.toNat * 2 ^ 144 + r.kind % 256 * 2 ^ 56 + r.code % 256 * 2 ^ 48 + r.queue % 4096 * 2 ^ 36
    + r.core % 1024 * 2 ^ 26 + r.part % 16 * 2 ^ 22

/-- Appends a record to a context's fault log (R51), until the context is FREE (R47); a full log counts a drop. -/
def State.record (s : State) (ctx : Nat) (r : Rec) : State :=
  let c := s.ctx ctx
  let base := c.flbase.toNat
  if c.state = .free then s
  else if c.claims - leNat (s.mem.readBytes (base + 8) 8) < 2 ^ c.fllog2 then
    let s := s.store (base + 64 + 64 * (c.claims % 2 ^ c.fllog2)) (leBytes (r.bits s.dev.tick) 64)
    (s.store base (leBytes (c.claims + 1) 8)).setCtx { c with claims := c.claims + 1 }
  else s.store (base + 16) (leBytes (leNat (s.mem.readBytes (base + 16) 8) + 1) 8)

/-- A record of a kind whose CODE the spec does not state: a free value (notes/assumptions/3.md). -/
def State.recordOpen (s : State) (ctx : Nat) (r : Rec) : State := let (k, t) := s.free; t.record ctx { r with code := k }

/-- What a trace record says (R360). -/
structure TraceRec where
  kind : Nat
  pc : Word
  d0 : Word
  d1 : Word
  launch : Word := 0
  sstate : Nat := 0
  reason : Nat := 0
  core : Nat := 0
  part : Nat := 0
  gid : Nat := 0
  ent : Nat := 0
deriving DecidableEq, Repr

def TraceRec.bits (r : TraceRec) (tick : Nat) : Nat :=
  tick % 2 ^ 64 * 2 ^ 192 + r.d1.toNat * 2 ^ 160 + r.d0.toNat * 2 ^ 128 + r.pc.toNat * 2 ^ 96 + r.launch.toNat * 2 ^ 64 + r.kind % 256 * 2 ^ 56
    + r.sstate % 8 * 2 ^ 53 + r.reason % 16 * 2 ^ 49 + r.core % 1024 * 2 ^ 39 + r.part % 16 * 2 ^ 35 + r.gid % 32 * 2 ^ 30 + r.ent % 32 * 2 ^ 25

/-- A context's settings as an Arbour has them: a command that changes them holds there once the Arbour has acknowledged it (R17). -/
def State.ctxOn (s : State) (arb n : Nat) : Ctx :=
  let c := s.ctx n
  if s.dev.mb.units.contains arb then c
  else match s.dev.mb.directed with
    | .trapSetup k trace hoff hmask dmask => if k = n then { c with trace, hoff, hmask, dmask } else c
    | .traceSetup k log2 base => if k = n then { c with traceBase := base, traceLog2 := log2, traceNext := c.traceNew } else c
    | .sampling k r => if k = n then { c with sampleK := r } else c
    | _ => c

/-- Whether an Arbour already uses the trace area that a TRACE_SETUP in progress gives a context. -/
def State.newArea (s : State) (arb n : Nat) : Bool :=
  match s.dev.mb.directed with
  | .traceSetup k _ _ => k = n && !s.dev.mb.units.contains arb
  | _ => false

/-- Appends a trace record (R360): none without an area, a drop when the unread records fill it. -/
def State.trace (s : State) (ctx : Nat) (r : TraceRec) : State :=
  let c := s.ctx ctx
  let v := s.ctxOn (arbourOf r.core) ctx
  let base := v.traceBase.toNat
  if base = 0 then s
  else if v.traceNext - leNat (s.mem.readBytes (base + 8) 8) < 2 ^ v.traceLog2 then
    let t := s.store (base + 64 + 32 * (v.traceNext % 2 ^ v.traceLog2)) (leBytes (r.bits s.dev.tick) 32)
    (t.store base (leBytes (v.traceNext + 1) 8)).setCtx (if s.newArea (arbourOf r.core) ctx then { c with traceNew := c.traceNew + 1 } else { c with traceNext := c.traceNext + 1 })
  else s.store (base + 16) (leBytes (leNat (s.mem.readBytes (base + 16) 8) + 1) 8)

/-- The fields that name the writing group and entity in a trace record. -/
def State.traceRec (s : State) (kind : Nat) (d0 d1 : Word) : TraceRec :=
  { kind, pc := s.ent.pc, d0, d1, launch := s.team.launch, core := s.core.num, part := s.grp.loc.part, gid := s.grp.gid, ent := s.ent.num }

/-! ## Physical addresses and translation (10_page.md) -/

/-- Where a physical address lies (R165). -/
inductive Place where
  | local | remote (dev : Nat) | host | hole
deriving DecidableEq, Repr

/-- The LOCAL map (R165): stacked DRAM of eight Arbours, LPDDR 6, holes. -/
def localMapped (l : Nat) : Bool :=
  (decide (l < 2 ^ 39) && decide (l % 2 ^ 36 < 48 * 2 ^ 30)) || (decide (2 ^ 40 ≤ l) && decide (l < 2 ^ 40 + 1536 * 2 ^ 30))

/-- Where a physical address lies. A host that has not negotiated CXL gives no access to its memory (R234, notes/assumptions/68.md). -/
def State.place (s : State) (pa : Nat) : Place :=
  if fieldOf pa 55 1 = 1 then (if s.dev.cxl then .host else .hole)
  else if fieldOf pa 53 2 ≠ 0 then .hole
  else
    let d := fieldOf pa 42 11
    if ¬ localMapped (pa % 2 ^ 42) ∨ d > 1151 then .hole else if d = s.dev.devnum then .local else .remote d

/-- The usable ports to a device, ascending (R229, R230). -/
def State.routePorts (s : State) (d : Nat) : List Nat :=
  (List.range 36).filter fun p => (s.dev.routes.getD d 0).getLsbD p && (s.port p).state ∈ [.up, .degraded]

/-- A port enters or leaves the usable set. What is outstanding towards a device whose usable ports change with it holds back new accesses
there (R230). -/
def State.movePort (s : State) (p : Port) : State :=
  let t := s.setPort p
  let use (u : RemoteUse) : RemoteUse := { u with stale := u.stale || s.routePorts u.dev != t.routePorts u.dev }
  t.mapGroups fun g => { g with ops := g.ops.map fun o => { o with uses := o.uses.map use } }

/-- The port that an access to a remote address takes (R230). -/
def State.portFor (s : State) (pa : Nat) : Option Nat :=
  let ps := s.routePorts (fieldOf pa 42 11)
  ps[pa % 2 ^ 42 / 128 % ps.length]?

/-- Index bits of a level (R166): the lowest VA bit that it uses. -/
def levelShift : Nat → Nat
  | 0 => 16 | 1 => 29 | 2 => 42 | 3 => 55 | _ => 68

def levelBits (l : Nat) : Nat := if l = 4 then 12 else 13

/-- A page-table entry's fields (R167). -/
def pteState (p : Nat) : Nat := fieldOf p 62 2
def pteLeaf (p : Nat) : Bool := p.testBit 61
def ptePA (p : Nat) : Nat := fieldOf p 16 40 * 2 ^ 16

/-- Malformed entries (R167). -/
def State.pteMalformed (s : State) (level p : Nat) : Bool :=
  pteState p != 0 &&
    (fieldOf p 56 2 != 0 || fieldOf p 0 16 != 0 || (level == 0 && !pteLeaf p) || (decide (2 ≤ level) && pteLeaf p)
      || (!pteLeaf p && fieldOf p 58 3 != 0) || (!pteLeaf p && pteState p != 1)
      || (level == 1 && pteLeaf p && fieldOf p 16 13 != 0) || (!pteLeaf p && s.place (ptePA p) != .local))

/-- Why a translation fails (R171); `tablePoison` is the fatal event of a poisoned page-table page (R50). -/
inductive XFail where
  | malformed | access | noRoute | poisoned | invalid | migrating | tablePoison
deriving DecidableEq, Repr

def tlbFind (l : List TlbEntry) (astag level key : Nat) : Option TlbEntry :=
  l.find? fun e => e.astag = astag && e.level = level && e.key = key

/-- Walks from a level down (R166): the leaf entry, which may be MIGRATING or POISONED, and its level, with the VALID entries met,
newest first. -/
def State.walk (s : State) (arb astag va : Nat) : Nat → Nat → List TlbEntry → Except XFail (Nat × Nat) × List TlbEntry
  | level, base, seen =>
    let key := va / 2 ^ levelShift level
    let at_ := base + 8 * (key % 2 ^ levelBits level)
    let hit := tlbFind ((s.dev.walkCache.filter fun e => e.1 = arb).map Prod.snd) astag level key
    let p := match hit with
      | some e => e.pte.toNat
      | none => leNat (s.mem.readBytes at_ 8)
    if hit.isNone && s.poisonedAt at_ 8 then (.error .tablePoison, seen)
    else if pteState p = 0 then (.error .invalid, seen)
    else if s.pteMalformed level p then (.error .malformed, seen)
    else if pteLeaf p then (.ok (p, level), if pteState p = 1 then ⟨astag, level, key, BitVec.ofNat 64 p⟩ :: seen else seen)
    else match level with
      | 0 => (.error .malformed, seen)
      | l + 1 => s.walk arb astag va l (ptePA p) (⟨astag, l + 1, key, BitVec.ofNat 64 p⟩ :: seen)

/-- What an access needs of a page (R167, R168). -/
structure Need where
  r : Bool := false
  w : Bool := false
  x : Bool := false
deriving DecidableEq, Repr

/-- The leaf that translates an address: from the first-level TLB, the Arbour's, or a walk (R169). -/
def State.leaf (s : State) (tlb : List TlbEntry) (c : Ctx) (arb va : Nat) : Except XFail (Nat × Nat) × List TlbEntry :=
  let look (l : List TlbEntry) : Option TlbEntry :=
    (tlbFind l c.astag 0 (va / 2 ^ 16)).or (tlbFind l c.astag 1 (va / 2 ^ 29))
  match (look tlb).or (look ((s.dev.l2tlb.filter fun e => e.1 = arb).map Prod.snd)) with
  | some e => (.ok (e.pte.toNat, e.level), [e])
  | none => s.walk arb c.astag va 4 c.root.toNat []

/-- What a leaf that grants the access gives: its page may be POISONED or MIGRATING (R167, R171). -/
def leafPA (p pa : Nat) : Except XFail Nat := if pteState p = 3 then .error .poisoned else if pteState p = 2 then .error .migrating else .ok pa

/-- Translates one address with its permission (R166 to R171): the physical address, and the entries to cache. Permissions and holes
come before POISONED and MIGRATING. -/
def State.translate (s : State) (tlb : List TlbEntry) (c : Ctx) (arb : Nat) (n : Need) (va : Nat) : Except XFail Nat × List TlbEntry :=
  match s.leaf tlb c arb va with
  | (.error f, seen) => (.error f, seen)
  | (.ok (p, level), seen) =>
    let pa := ptePA p + va % 2 ^ levelShift level
    if (n.r && !p.testBit 58) || (n.w && !p.testBit 59) || (n.x && !p.testBit 60) then (.error .access, seen)
    else match s.place pa with
      | .hole => (.error .access, seen)
      | .remote d => if s.routePorts d = [] then (.error .noRoute, seen) else (leafPA p pa, seen)
      | _ => (leafPA p pa, seen)

/-- Caches the entries a translation met (R169): leaves in the first-level and the Arbour's TLB, tables in the walk cache. A full one drops the
entry that was inserted longest ago, a choice of the model (notes/assumptions/74.md). -/
def State.cacheXlate (s : State) (fetch : Bool) (seen : List TlbEntry) : State :=
  let leaves := seen.filter fun e => pteLeaf e.pte.toNat
  let tables := seen.filter fun e => !pteLeaf e.pte.toNat
  let add (cap : Nat) (l new : List TlbEntry) : List TlbEntry := ((new.filter fun e => !l.contains e) ++ l).take cap
  let add2 (cap : Nat) (l : List (Nat × TlbEntry)) (new : List TlbEntry) : List (Nat × TlbEntry) :=
    (((new.map fun e => (s.arbour, e)).filter fun e => !l.contains e) ++ l.filter fun e => e.1 = s.arbour).take cap ++ l.filter fun e => e.1 ≠ s.arbour
  let core := if fetch then { s.core with itlb := add 64 s.core.itlb leaves } else { s.core with dtlb := add 512 s.core.dtlb leaves }
  { s with core := core, dev := { s.dev with l2tlb := add2 32768 s.dev.l2tlb leaves, walkCache := add2 4096 s.dev.walkCache tables } }

/-! ## Outcomes of an issue -/

abbrev Outcome := Host.Outcome State Fault Refusal

/-- What an instruction's issue comes to. -/
inductive Issue where
  /-- it retires; the next instruction follows -/
  | retire (s : State)
  /-- it retires; the entity continues at pc -/
  | goto (pc : Word) (s : State)
  /-- a precise trap: no effect (R378) -/
  | trap (t : Trap)
  /-- a completed trap: every effect stands (R28, R378) -/
  | after (t : Trap) (s : State)
  /-- the entity waits at this instruction (R98) -/
  | wait (r : WaitReason) (s : State)
  /-- the entity enters FAULTWAIT under these pages (R171, R172) -/
  | held (pages : List HeldPage) (s : State)
  /-- not issued: it is tried again at the entity's next turn -/
  | hold (s : State)
  /-- the entity has ended, or the meaning has placed the PC itself -/
  | placed (s : State)

/-- A precise trap at the instruction in front (R376, R378). -/
def State.trapHere (s : State) (c : TrapCode) (data : Word := 0) (lanes : Mask := 0) (addr : VAddr := 0) : Trap :=
  { code := c, tpc := s.ent.pc, first := s.ent.pc, fault := addr.setWidth 32, addr, lanes, data }

def State.illegal (s : State) (reason : Word := 0) : Issue := .trap (s.trapHere .illegalInstr reason)
/-- ILLEGAL_OPERAND naming a field (R241): 0 D, 1 A, 2 B. -/
def State.badField (s : State) (field : Nat) (v : Nat) : Issue := .trap (s.trapHere .illegalOperand (BitVec.ofNat 32 (field * 256 + v)))
/-- ILLEGAL_OPERAND for a cause that is not a field (R241). -/
def State.badCause (s : State) (v : Nat) : Issue := .trap (s.trapHere .illegalOperand (BitVec.ofNat 32 (0x300 + v)))

def TrapCode.num : TrapCode → Nat
  | .illegalInstr => 0x01 | .illegalOperand => 0x02 | .fetchFault => 0x03 | .xlateFault => 0x04 | .accessFault => 0x05
  | .misalign => 0x06 | .divZero => 0x07 | .intInvalid => 0x08 | .fpExcept => 0x09 | .permInvalid => 0x0A | .ordDeadlock => 0x0B
  | .ordTimeout => 0x0C | .ordNest => 0x0D | .ordCapacity => 0x0E | .accStarve => 0x0F | .scopeFault => 0x10 | .streamerRights => 0x11
  | .regParityFatal => 0x12 | .callDepth => 0x13 | .brk => 0x14 | .hwbkpt => 0x15 | .softTrap => 0x16 | .ringFault => 0x17
  | .barFault => 0x18 | .mqFault => 0x19 | .privFault => 0x1A | .dataPoison => 0x1B

/-! ## Outstanding operations and paths (R114, R137, R138) -/

/-- The count of a path: the operations not yet reported, in issue order (R138). -/
def Group.count (g : Group) (p : Path) : Nat := (g.ops.filter fun o => o.path = some p).length

/-- Whether two accesses meet: overlapping bytes of one storage. -/
def Todo.meets (a b : Todo) : Bool := a.spad = b.spad && decide (a.addr < b.addr + b.size) && decide (b.addr < a.addr + a.size)

/-- The operations that precede an entity's next access in program order and have not completed (R148): its own and those it has from
splits and joins. -/
def Group.earlier (g : Group) (e : Entity) : List Op := g.ops.filter fun o => !o.done && (o.ent = e.num || e.prior.contains o.id)

/-- Those of them on a path that have still to perform an access to bytes that the operation meets (R149). -/
def Group.precede (g : Group) (e : Entity) (o : Op) : List Nat :=
  ((g.earlier e).filter fun x => x.path = o.path && x.todo.any fun a => o.todo.any a.meets).map Op.id

/-- Adds an outstanding operation, newest last. -/
def State.addOp (s : State) (o : Op) : State :=
  { s with grp := { s.grp with ops := s.grp.ops ++ [{ o with id := s.nextOp, ent := s.ent.num, after := s.grp.precede s.ent o }] }, nextOp := s.nextOp + 1 }

/-- A path whose count is 63 takes no further instruction (R138). -/
def State.pathFull (s : State) (p : Path) : Bool := decide (63 ≤ s.grp.count p)

/-- Removes the finished operations at the head of each path (R138): one is reported only when every older one on its
path has been. -/
def reportDone (blocked : List Path) : List Op → List Op
  | [] => []
  | o :: t => match o.path with
    | none => if o.done then reportDone blocked t else o :: reportDone blocked t
    | some p =>
      if o.done && !blocked.contains p then reportDone blocked t
      else o :: reportDone (p :: blocked) t

/-- Writes one result (R114): a queue position wherever its tag now stands, a named, scalar or base register. The fill of a register that
SCOPE.CLOSE has released since still writes it, also where a later SCOPE.OPEN has it again (notes/assumptions/74.md). -/
def Group.fill (g : Group) (op : Nat) (f : Fill) : Group :=
  match f.dest with
  | .q i w => { g with lanes := putAt {} g.lanes i (let l := g.lane i
      { l with q := l.q.map fun e => if e.tag = some (op, w) then { val := f.val.setWidth 32, tag := none } else e }) }
  | .v i r => { g with lanes := putAt {} g.lanes i ((g.lane i).setReg r (f.val.setWidth 32)) }
  | .s r => g.setSAt r (f.val.setWidth 32)
  | .b r => { g with b := putAt 0 g.b r f.val }
  | .epi k => { g with epi := putAt 0 g.epi k (f.val.setWidth 32) }

/-- Completes an operation of the group in front: its fills, its report. -/
def Group.complete (g : Group) (id : Nat) : Group :=
  match g.ops.find? fun o => o.id = id with
  | none => g
  | some o =>
    let g := o.fills.foldl (fun g f => g.fill id f) g
    { g with ops := reportDone [] (g.ops.map fun x => if x.id = id then { x with done := true, fills := [], todo := [] } else x) }

/-- Whether a named register of a lane, an s or b register, or a word of the epilogue table is pending. -/
def Group.pendingDest (g : Group) (d : Dest) : Bool := g.ops.any fun o => !o.done && o.fills.any fun f => f.dest = d

/-- Whether register r of lane i, or position n of its queue, is pending. -/
def Group.pendingV (g : Group) (i r : Nat) : Bool := g.pendingDest (.v i r)
/-- Whether s register n, as the entity names it, is pending. -/
def State.pendingS (s : State) (n : Nat) : Bool := s.grp.pendingDest (.s (s.sIndex n))
/-- The accesses that an issue towards the Sluice or the Saltern releases (R158, R188, R355): those of the entity on VM, SP, GA and MQ
that have not completed. -/
def Group.before (g : Group) (e : Entity) : List Nat :=
  ((g.earlier e).filter fun o => [some Path.vm, some .sp, some .ga, some .mq].contains o.path).map Op.id

/-- The groups of contexts that are saved, or restored in part. -/
def State.savedGroups (s : State) : List Group := (s.dev.ctxs.flatMap Ctx.saved).flatMap SavedCore.groups
/-- Every team, those of saved contexts included. -/
def State.everyTeam (s : State) : List Team := s.allTeams ++ s.dev.ctxs.flatMap Ctx.savedTeams

/-- Whether one of some operations has still to complete, in a group on a core or saved. -/
def State.anyOpen (s : State) (ids : List Nat) : Bool :=
  (s.allGroups ++ s.savedGroups).any fun g => g.ops.any fun o => ids.contains o.id && !o.done

def Group.pendingQ (g : Group) (i n : Nat) : Bool := ((g.lane i).qAt n).tag.isSome

/-! ## Killing work and failing launches -/

/-- The entities of a killed group stop; the group stays until its operations are acknowledged (R97). `busy` are the operations that a
unit is still performing, which completes them. -/
def Group.kill (busy : List Nat) (g : Group) : Group :=
  { g with gstate := .exited, killed := true, sibs := g.sibs.map fun e => { e with live := false }, debugHeld := false, pm := [],
           ops := g.ops.map fun o => if o.path = some .xc ∨ busy.contains o.id then o else { o with auto := true } }

/-- The operations of index builds that run and of draws that are performed (R72, R425). -/
def State.saltBusy (s : State) : List Nat :=
  (s.dev.sets.flatMap fun x => (x.builder.map Builder.op).toList) ++ (s.dev.draws.filter Draw.closed).flatMap fun w => w.ops.map Prod.snd

/-- An entry that is needed: the key differs from ABSENT, or something waits on it. -/
def Key.needed (k : Key) : Bool := k.n != 0 || k.holder.isSome || k.abandoned || k.waiters != []

/-- What is kept of a key that needs no entry: the skips that the Saltern still has to make (R359); none where there are none. -/
def Key.idle (k : Key) : Option Key := if k.skips = [] then none else some { k with spilled := false, ovslot := 0 }

/-- The overflow slots of keys that are ABSENT again are free: zero (R214). -/
def State.freeSlots (s : State) (l : List Key) : State :=
  l.foldl (fun s k => if k.spilled then s.store ((s.ctx k.ctx).ovbase.toNat + 32 * k.ovslot) (leBytes 0 32) else s) s

/-- Keeps the keys that p selects and are needed; the others are ABSENT. -/
def State.keepKeys (s : State) (p : Key → Bool) : State :=
  (s.setDev fun d => { d with keys := (d.keys.filter p).filterMap fun k => if k.needed then some k else k.idle }).freeSlots (s.dev.keys.filter fun k => !(p k && k.needed))

/-- Withdraws the waits that p selects. -/
def State.withdraw (s : State) (p : Waiter → Bool) : State :=
  (s.setDev fun d => { d with keys := d.keys.map fun (k : Key) => { k with waiters := k.waiters.filter fun w => !p w } }).keepKeys fun _ => true

/-- Drops what groups have waiting outside their core: turns at keys, commands at the Saltern, sends. A group is named by its place
and its operations, as another context's saved group may have had the same place. -/
def State.dropWaits (s : State) (ls : List GLoc) : State :=
  let ops := ((s.allGroups.filter fun g => ls.contains g.loc).flatMap Group.ops).map Op.id
  let s := s.withdraw fun w => ls.contains w.g
  let s := s.setDev fun d => { d with salt := d.salt.filter fun c => c.team = 0 || !ops.contains c.op }
  s.mapCores fun k => { k with mqs := k.mqs.map fun (q : Mq) => { q with sends := q.sends.filter fun x => !ops.contains x.op } }

/-- Drops what a context's saved state holds of the teams that p selects, which then end as killed ones. -/
def State.killSaved (s : State) (p : Team → Bool) : State :=
  let saved := (s.dev.ctxs.flatMap Ctx.savedTeams).filter p
  let gone (n : Nat) : Bool := (s.allTeams.any fun t => t.serial = n && p t) || saved.any fun t => t.serial = n
  let ops := ((((s.dev.ctxs.flatMap Ctx.saved).flatMap SavedCore.groups).filter fun g => gone g.team).flatMap Group.ops).map Op.id
  let drop (k : SavedCore) : SavedCore :=
    { k with groups := k.groups.filter fun g => !gone g.team, copies := k.copies.filter fun c => !gone c.team
             mqs := k.mqs.map fun (n, q) => (n, { q with h := if q.owner.any gone then q.t else q.h, owner := if q.owner.any gone then none else q.owner, sends := q.sends.filter fun x => !ops.contains x.op }) }
  let s : State := { s with teams := s.teams ++ saved.map fun (t : Team) => { t with killed := true, barriers := [] } }
  s.setDev fun d => { d with
    salt := d.salt.filter fun c => c.team = 0 || !ops.contains c.op
    ctxs := d.ctxs.map fun (c : Ctx) => { c with saved := c.saved.map drop, savedTeams := c.savedTeams.filter fun t => !p t } }

/-- The key of a job's unit (R196): DRAWID in the high word, the unit in the low. -/
def RastJob.key (j : RastJob) : BitVec 64 := BitVec.ofNat 64 (j.draw * 2 ^ 32 + j.unit)

/-- The key of a sample program whose draw is over is ABSENT (R205), whatever the group has done there since; not while something holds it. -/
def State.dropStale (s : State) (g : Group) : State :=
  match g.rast with
  | some j => if (s.draw? (BitVec.ofNat 32 j.draw)).isNone then s.keepKeys fun k => !(k.ctx = (s.teamOf g.team).ctx && k.key = j.key && k.holder.isNone) else s
  | none => s

/-- Kills the teams that p selects: their groups stop, their barriers are unregistered (R178), their commands at the Sluice end KILLED
at the next chunk. -/
def State.killTeams (s : State) (p : Team → Bool) : State :=
  let dead := (s.allTeams.filter p).map Team.serial
  let gs := s.allGroups.filter fun g => !g.agent && dead.contains g.team
  let s := gs.foldl State.dropStale (s.dropWaits (gs.map Group.loc))
  let s := s.mapTeams fun t => if p t then { t with killed := true, barriers := [] } else t
  (s.mapGroups fun g => if !g.agent && dead.contains g.team && g.gstate != .empty then g.kill s.saltBusy else g).killSaved p

/-- Applies f to every group and every saved one. -/
def State.mapHeld (s : State) (f : Group → Group) : State :=
  (s.mapGroups f).setDev fun d => { d with ctxs := d.ctxs.map fun (c : Ctx) => { c with saved := c.saved.map fun (k : SavedCore) => { k with groups := k.groups.map f } } }

/-- A command's operation completes in its group (R137, R138). -/
def State.completeOp (s : State) (g : GLoc) (op : Nat) : State := s.mapHeld fun x => if x.loc = g then x.complete op else x

/-- Sets wake events of a core's agent (R367). -/
def State.wake (s : State) (core : Nat) (bit : Nat) : State := s.onCore core fun k => { k with wakes := k.wakes ||| (1#6 <<< bit) }
def State.wakeArbour (s : State) (arb bit : Nat) : State :=
  let s := s.mapCores fun k => if arbourOf k.num = arb then { k with wakes := k.wakes ||| (1#6 <<< bit) } else k
  s.setDev fun d => { d with arbWakes := putAt 0 d.arbWakes arb (d.arbWakes.getD arb 0 ||| (1#6 <<< bit)) }

/-- A launch's entries leave the open-launch tables (R84, R367). -/
def State.withdrawOpen (s : State) (id : Word) : State :=
  let arbs := (s.dev.openTable.filter fun e => e.2 = id).map Prod.fst
  arbs.foldl (fun s a => s.wakeArbour a 2) (s.setDev fun d => { d with openTable := d.openTable.filter fun e => e.2 != id })

/-- The draw that is being performed on its set (R189): the first that closed there. -/
def State.isHead (s : State) (w : Draw) : Bool :=
  w.closed && ((s.dev.draws.find? fun y => y.closed && y.ctx = w.ctx && y.handle = w.handle).map Draw.id) = some w.id

/-- Posts the RASTER notices that draws are due (R82, R199): a draw's first job starts after the release of the draw before it on its
set (R189). -/
def State.postHeads (s : State) : State :=
  (s.dev.draws.filter fun w => decide (0 < w.toPost) && s.isHead w).foldl (fun s w =>
    let l := (s.launch? w.id).getD { id := w.id }
    let q := s.queue l.queue
    let n : Notice := { arbour := w.home, raster := true, cls := q.cls, queue := l.queue, qgen := l.qgen, launch := w.id }
    ((s.setDraw { w with toPost := 0 }).setDev fun d => { d with notices := d.notices ++ List.replicate w.toPost n }).wakeArbour w.home 0) s

/-- The unit that a raster key names (R196), of a draw. -/
def Draw.keyUnit (w : Draw) (ctx : Nat) (k : BitVec 64) : Option Nat :=
  if ctx = w.ctx ∧ (k >>> 32).setWidth 32 = w.id ∧ w.jobs.any (fun j => j.unit = k.toNat % 2 ^ 32) then some (k.toNat % 2 ^ 32) else none

/-- The keys of a context that p selects become ABSENT (R210): nothing holds them, and the groups that wait there are killed. -/
def State.absentKeys (s : State) (mine : Nat → BitVec 64 → Bool) : State :=
  let dead := (s.dev.keys.filter fun k => mine k.ctx k.key).flatMap fun k => k.waiters.map Waiter.g
  let s := (s.keepKeys fun k => !mine k.ctx k.key).dropWaits dead
  let s := s.mapHeld fun g => { g with keys := g.keys.filter fun h => !mine (s.teamOf g.team).ctx h.key }
  s.mapGroups fun g => if dead.contains g.loc && !g.agent then g.kill s.saltBusy else g

/-- The keys of a draw's units that p selects become ABSENT (R205). -/
def State.absentUnits (s : State) (w : Draw) (p : Nat → Bool) : State := s.absentKeys fun ctx k => (w.keyUnit ctx k).any p

/-- A draw that is over leaves the Saltern: its operations complete, its notices, its units' keys and its unpublished records are
dropped (R205); the next draw on its set may start its jobs (R189). -/
def State.dropDraw (s : State) (id : Word) : State :=
  let ws := s.dev.draws.filter fun w => w.id = id
  let s := s.setDev fun d => { d with
    draws := d.draws.filter fun w => w.id != id
    notices := d.notices.filter fun n => !(n.raster && n.launch = id)
    salt := d.salt.filter fun c => match c.cmd with | .packet _ i _ => i != id | _ => true }
  let s := ws.foldl (fun s w => s.absentUnits w fun _ => true) s
  ((ws.flatMap Draw.ops).foldl (fun s o => s.completeOp o.1 o.2) s).postHeads

/-- A queue's outstanding notice is withdrawn (R60, R72). -/
def State.withdrawNotice (s : State) (q : Nat) : State :=
  let s := s.setQueue { s.queue q with notice := false, claimed := false }
  s.setDev fun d => { d with notices := d.notices.filter fun n => n.raster || n.queue != q }

/-- A queue error (R71): a record of KIND 0x03, and ERROR, which a queue in ERROR keeps with the code of its first error. -/
def State.queueError (s : State) (q code : Nat) (r : Rec) : State :=
  let k := s.queue q
  let s := s.record k.ctx { r with kind := 3, code, queue := q }
  if k.state = .idle ∨ k.state = .active ∨ k.state = .stalled then
    let s := s.withdrawNotice q
    s.setQueue { s.queue q with state := .error, err := code, waitSince := none, held := [] }
  else s

/-- The launch or draw becomes FAILED (R84): no further team, running teams killed, a record of KIND 0x03, its packet
carries the error and its queue enters ERROR (R71). A launch that is already over keeps its state. Where a directed command brings the
kill to the units (R17), `kill` is false. -/
def State.failLaunch (s : State) (id : Word) (err : Nat) (kill : Bool := true) : State :=
  match s.launch? id with
  | none => if kill then s.killTeams fun t => t.launch = id && t.serial != 0 else s
  | some l =>
    if l.state = .done ∨ l.state = .failed then s
    else
      let s := (s.setLaunch { l with state := .failed, err := err, holders := [] }).dropDraw id
      let s := s.mapCores fun k => { k with holds := k.holds.filter fun h => !l.holders.any fun x => x.1 = k.num && x.2.1 = h.num }
      let s := s.withdrawOpen id
      let s := if kill then s.killTeams fun t => t.launch = id && t.serial != 0 else s
      let code := if err = 7 then 7 else 5
      let s := s.queueError l.queue code { kind := 3, code, launch := id, progress := l.packet, detail := BitVec.ofNat 32 err }
      let q := s.queue l.queue
      s.setQueue { q with
        started := q.started.map fun k => if k.launch = id ∧ (k.packet.toNat % 256 = 1 ∨ k.packet.toNat % 256 = 2) then { k with err := code } else k }

/-- A fatal event (R46, R50): a record of the given KIND and CODE; the context enters ERROR, its launches fail and its groups are
killed, by a directed command where a mailbox command is the event and `kill` is false (R17, notes/assumptions/67.md). A save or restore in
progress stops, and its command ends with BAD_STATE (notes/assumptions/26.md). -/
def State.ctxFatal (s : State) (n kind code : Nat) (addr : VAddr := 0) (kill : Bool := true) : State :=
  let st := (s.ctx n).state
  if st = .free ∨ st = .releasing ∨ st = .error then s
  else
    let s := s.record n { kind, code, addr }
    let s := s.setCtx { s.ctx n with state := .error, keepsSlot := decide (st = .resident) }
    let open_ := s.dev.launches.filter fun l => l.ctx = n && (l.state = .claimed || l.state = .issuing || l.state = .draining || (l.isDraw && l.state = .pending))
    let s := open_.foldl (fun s l => s.failLaunch l.id 8 kill) s
    let s := if kill then s.killTeams fun t => t.ctx = n && t.serial != 0 else s
    if s.dev.mb.directed = .save n ∨ s.dev.mb.directed = .restore n then
      s.setDev fun d => { d with mb := { d.mb with busy := false, result := 2, response := [], directed := .none, units := [] }, msix := d.msix ++ [0] }
    else s

/-- The fatal event of a walk that meets a poisoned page-table page (R50). -/
def State.fatalAt (s : State) (ctx arb : Nat) (va : VAddr) : State :=
  let c := s.ctx ctx
  if (s.walk arb c.astag va.toNat 4 c.root.toNat []).1 = .error .tablePoison then s.ctxFatal ctx 8 2 va else s

/-- Opens or attaches to the fault slot of a held page (R172); `detail` carries the kind bits. -/
def State.attachSlot (s : State) (ctx arb : Nat) (page : BitVec 64) (r : Rec) : State :=
  if s.dev.slots.any (fun f => f.arbour = arb && f.ctx = ctx && f.page = page) then s
  else if (s.dev.slots.filter fun f => f.arbour = arb).length ≥ 256 then s
  else (s.setDev fun d => { d with slots := ⟨arb, ctx, page⟩ :: d.slots }).record ctx r

/-- The same for an access whose walk may have met a poisoned page-table page, which is a fatal event (R50). -/
def State.openSlot (s : State) (ctx arb : Nat) (page : BitVec 64) (r : Rec) : State :=
  let c := s.ctx ctx
  if (s.walk arb c.astag r.addr.toNat 4 c.root.toNat []).1 = .error .tablePoison then s.ctxFatal ctx 8 2 r.addr
  else s.attachSlot ctx arb page r

/-! ## Taking an exception and returning from one (25_traps_debug.md) -/

/-- The trap registers after entry (R376). -/
def Trap.regs (t : Trap) (ent : Nat) : TrapRegs :=
  { cause := BitVec.ofNat 32 (ent % 32 * 256 + t.code.num), pc := t.tpc, first := t.first, fault := t.fault
    faultLo := t.addr.setWidth 32, faultMid := (t.addr >>> 32).setWidth 32, faultHi := (t.addr >>> 64).setWidth 32
    lanesLo := t.lanes.setWidth 32, lanesHi := (t.lanes >>> 32).setWidth 32, data := t.data }

/-- The frame that entry writes (R380). -/
def Entity.frameAt (e : Entity) (pc : Word) : Frame := { pc, em := e.em, scc := e.scc, calls := e.calls, depth := e.defs.length, wd := e.wd }

/-- An unhandled trap (R383): a record of KIND 0x01, and the group's launch becomes FAILED with 0x06, which its team's end reports (R366). -/
def State.unhandled (s : State) (t : Trap) : State :=
  let s := s.record s.team.ctx { kind := 1, code := t.code.num, addr := t.addr, pc := t.first, launch := s.team.launch, detail := t.data, lanes := t.lanes, queue := s.team.queue, core := s.core.num, part := s.grp.loc.part }
  if s.grp.agent then s
  else
    let s : State := { s with team := { s.team with err := 6 } }
    s.failLaunch s.team.launch 6

/-- What every entry writes (R376, R380): the group TRAPPED, the trap registers, and the frame unless the entity was handling a trap. -/
def State.trapped (s : State) (t : Trap) : State := { s with
  grp := { s.grp with gstate := .trapped, treg := t.regs s.ent.num, trapper := s.ent.num, trapTick := some s.dev.tick }
  ent := { s.ent with frame := if s.ent.handling then s.ent.frame else s.ent.frameAt t.tpc, status := .ready, wd := {}, promoted := none, yielded := false } }

/-- The trace record of an entry (R379). -/
def State.traceTrap (s : State) (t : Trap) : State :=
  if (s.ctxOn s.arbour s.team.ctx).trace && !s.grp.agent then s.trace s.team.ctx { s.traceRec 6 t.tpc (s.grp.treg.cause) with pc := t.tpc } else s

/-- Enters the in-group handler at an offset (R380). -/
def State.enterHandler (s : State) (hoff : Word) : State := s.setEnt fun e => { e with handling := true, scc := {}, pc := hoff }
def State.holdForDebug (s : State) : State := { s with grp := { s.grp with debugHeld := true } }

/-- Enters a trap at the entity in front (R379, R380, R382): registers and frame written, the group TRAPPED; then the
debug handler, the in-group handler or the unhandled path. -/
def State.enterTrap (s : State) (t : Trap) : State :=
  let c := s.ctxOn s.arbour s.team.ctx
  let u := (s.trapped t).traceTrap t
  if s.ent.handling then u.unhandled t
  else if c.dmask.getLsbD t.code.num then u.holdForDebug
  else if c.hmask.getLsbD t.code.num && decide (t.code ≠ .regParityFatal) then u.enterHandler c.hoff
  else u.unhandled t

/-- Whether another entity's trap holds the group of the entity in front (R97, R381). -/
def State.stoppedByOther (s : State) : Bool := s.grp.gstate = .trapped && !s.ent.handling

/-- Takes a trap at the entity in front: it is entered, or recorded as pending while another entity's trap is handled (R381). -/
def State.takeTrap (s : State) (t : Trap) : State :=
  if s.stoppedByOther then s.setEnt fun e => { e with pendingTrap := e.pendingTrap.or (some t) } else s.enterTrap t

/-- Other entities of a group that a handler leaves run again (R97). -/
def Group.resume (g : Group) : Group := { g with gstate := .ready, debugHeld := false, trapTick := none }

/-- Ends trap handling at the entity in front (R382): PC, EM, SCC and call stack from the frame, the deferral entries
pushed by the handler popped, the group READY. -/
def State.returnTrap (s : State) : State :=
  let f := s.ent.frame
  let s := s.setEnt fun e => { e with
    handling := false, pc := f.pc, em := f.em &&& s.live, scc := f.scc, calls := f.calls
    defs := e.defs.drop (e.defs.length - f.depth), status := .ready, wd := f.wd
    skipCmp := e.skipCmp || s.grp.treg.cause.setWidth 8 == 0x15#8 }
  { s with grp := s.grp.resume }

/-- The entity moves on after an instruction (R97, R103, R387). -/
def Entity.finish (e : Entity) (pc : Word) : Entity :=
  { e with pc, status := .ready, wd := {}, held := [], heldFetch := false, promoted := none, skipCmp := false
           yielded := false
           stepTrap := 0
           deferred := if e.stepTrap = 1 then e.deferred ++ [{ code := .hwbkpt, tpc := pc, first := pc, data := 0x100 }] else e.deferred }

def State.finish (s : State) (pc : Word) : State := s.setEnt fun e => e.finish pc

/-- The record of KIND 0x04 that a malformed entry adds to its trap (R171). -/
def State.malformedRecord (s : State) (t : Trap) : State :=
  if t.code = .xlateFault then
    s.record s.team.ctx { kind := 4, code := t.code.num, addr := t.addr, pc := s.ent.pc, launch := s.team.launch, lanes := t.lanes, queue := s.team.queue, core := s.core.num, part := s.grp.loc.part }
  else s

/-- The machine after an issue at s0 of an instruction of len bytes (R237, R378). -/
def commit (len : Nat) (s0 : State) : Issue → Outcome
  | .retire s => .next (s.finish (s0.ent.pc + BitVec.ofNat 32 len))
  | .goto pc s => .next (s.finish pc)
  | .trap t => .next ((s0.malformedRecord t).takeTrap t)
  | .after t s => .next ((s.finish (s0.ent.pc + BitVec.ofNat 32 len)).takeTrap { t with tpc := s0.ent.pc + BitVec.ofNat 32 len })
  | .wait r s => .next (s.setEnt fun e => { e with status := .waiting r })
  | .held pages s => .next (s.setEnt fun e => { e with status := .faultwait, held := pages, heldFetch := false })
  | .hold s => .next s
  | .placed s => .next s

/-! ## Accesses of the lanes (R171) -/

/-- One lane's access. -/
structure Access where
  lane : Nat
  va : VAddr
  size : Nat
deriving DecidableEq, Repr

/-- The pages an access touches, as addresses to translate. -/
def Access.probes (a : Access) : List Nat :=
  let first := a.va.toNat
  let last := (first + a.size - 1) % 2 ^ 80
  if first / 2 ^ 16 = last / 2 ^ 16 then [first] else [first, last / 2 ^ 16 * 2 ^ 16]

/-- The failures of an access, each with its probe. -/
def State.failures (s : State) (c : Ctx) (n : Need) (a : Access) : List (XFail × Nat) :=
  a.probes.filterMap fun va => match (s.translate s.core.dtlb c s.arbour n va).1 with
    | .error f => some (f, va)
    | .ok _ => none

/-- A checked set of accesses: every access translates, or the issue ends otherwise. -/
inductive Checked where
  | ok (s : State)
  | bad (i : Issue)

/-- Translates and checks every access before any is sent (R171): alignment, malformed entries, permissions and holes,
POISONED, then INVALID and MIGRATING; the first check that fails in any lane decides. `uni` gives TLANES = 0. -/
def State.check (s : State) (n : Need) (align : Nat) (uni : Bool) (kind : Nat) (as : List Access) : Checked :=
  let c := s.ctx s.team.ctx
  let lanesOf (p : Access → Bool) : List Access := as.filter p
  let fails (a : Access) (fs : List XFail) : Bool := (s.failures c n a).any fun f => fs.contains f.1
  let deny (code : TrapCode) (bad : List Access) (data : Word) (addr : VAddr) : Checked :=
    .bad (.trap (s.trapHere code data (if uni then 0 else laneMask (fun i => bad.any fun a => a.lane = i) 64) addr))
  let first (bad : List Access) (fs : List XFail) : VAddr := match bad with
    | [] => 0
    | a :: _ => match (s.failures c n a).find? fun f => fs.contains f.1 with
      | some (_, va) => if va = a.va.toNat then a.va else BitVec.ofNat 80 va
      | none => a.va
  let mis := lanesOf fun a => a.va.toNat % align ≠ 0
  let mal := lanesOf fun a => fails a [.malformed]
  let acc := lanesOf fun a => fails a [.access, .noRoute]
  let poi := lanesOf fun a => fails a [.poisoned]
  let rep := lanesOf fun a => fails a [.invalid, .migrating]
  let fatal := lanesOf fun a => fails a [.tablePoison]
  if mis = [] ∧ fatal ≠ [] then .bad (.placed (s.ctxFatal s.team.ctx 8 2 (first fatal [.tablePoison])))
  else if mis ≠ [] then deny .misalign mis 0 ((mis.head?.map Access.va).getD 0)
  else if mal ≠ [] then
    .bad (.trap (s.trapHere .xlateFault 0 (if uni then 0 else laneMask (fun i => mal.any fun a => a.lane = i) 64) (first mal [.malformed])))
  else if acc ≠ [] then
    let data : Word := match acc with
      | a :: _ => if ((s.failures c n a).find? fun f => f.1 = .access ∨ f.1 = .noRoute).map Prod.fst = some .noRoute then 0x6FF else 0
      | [] => 0
    deny .accessFault acc data (first acc [.access, .noRoute])
  else if poi ≠ [] then deny .dataPoison poi 0 (first poi [.poisoned])
  else if rep ≠ [] then
    let pages := (rep.flatMap fun a => (s.failures c n a).filter fun f => f.1 = .invalid ∨ f.1 = .migrating).map
      fun f => (decide (f.1 = .migrating), BitVec.ofNat 64 (f.2 / 2 ^ 16), f.2)
    let lanes (page : BitVec 64) : Mask := if uni then 0 else laneMask (fun i => rep.any fun a => a.lane = i && (a.probes.any fun p => p / 2 ^ 16 = page.toNat)) 64
    let s := pages.foldl (fun s (mig, page, va) => if mig then s else
      s.attachSlot s.team.ctx s.arbour page { kind := 4, code := 4, addr := BitVec.ofNat 80 va, pc := s.ent.pc, launch := s.team.launch, detail := BitVec.ofNat 32 (kind + s.arbour * 256), queue := s.team.queue, core := s.core.num, part := s.grp.loc.part, lanes := lanes page }) s
    let at_ := pages.map fun (_, page, va) => (⟨page, BitVec.ofNat 80 va, lanes page⟩ : PageFault)
    .bad (.held ((pages.map fun (mig, page, _) => ⟨page, mig⟩).eraseDups) (s.setEnt fun e => { e with heldAt := at_ }))
  else
    .ok (as.foldl (fun s a => a.probes.foldl (fun s va => s.cacheXlate false (s.translate s.core.dtlb c s.arbour n va).2) s) s)

/-- The physical address of a checked virtual address. -/
def State.pa (s : State) (n : Need) (va : VAddr) : Nat :=
  match (s.translate s.core.dtlb (s.ctx s.team.ctx) s.arbour n va.toNat).1 with
  | .ok p => p
  | .error _ => 0

/-- n bytes at a virtual address, page by page. -/
def State.loadVA (s : State) (va : VAddr) (n : Nat) : List Byte :=
  if va.toNat % 2 ^ 16 + n ≤ 2 ^ 16 then s.mem.readBytes (s.pa { r := true } va) n
  else (List.range n).map fun i => s.mem.read (s.pa { r := true } (va + BitVec.ofNat 80 i))

/-- Stores bytes at a virtual address, page by page. -/
def State.storeVA (s : State) (va : VAddr) (bs : List Byte) : State :=
  if va.toNat % 2 ^ 16 + bs.length ≤ 2 ^ 16 then s.store (s.pa { w := true } va) bs
  else bs.zipIdx.foldl (fun t (b, i) => t.store (s.pa { w := true } (va + BitVec.ofNat 80 i)) [b]) s

/-- The remote accesses among physical addresses, with the lanes and virtual addresses they came from (R230). -/
def State.usesOf (s : State) (l : List (Nat × VAddr × Nat)) : List RemoteUse :=
  l.filterMap fun (lane, va, pa) => match s.place pa with
    | .remote d => (s.portFor pa).map fun p => { dev := d, port := p, addr := va, lane }
    | _ => none

/-- Whether remote accesses of a queue's generation may be sent now: the generation has been given and acknowledged (R73), else
the notice is sent; and no access to the device is outstanding that was sent before a change of its usable ports (R230). None: they may. -/
def State.remoteGateOf (s : State) (q : Nat) (gen : BitVec 8) (us : List RemoteUse) : Option State :=
  match us.find? fun u => !s.dev.gensAck.contains ⟨u.dev, q, gen⟩ with
  | some u =>
    let g : Generation := ⟨u.dev, q, gen⟩
    some (s.setDev fun v => { v with gensSent := if v.gensSent.contains g then v.gensSent else g :: v.gensSent })
  | none =>
    if us.any fun u => s.allGroups.any fun g => g.ops.any fun o => !o.done && o.uses.any fun k => k.dev = u.dev && k.stale then some s
    else none

/-- An event that awaits the acknowledgement of a generation (R73): the notice that its try in `t` has sent; once sent, the event is not due. -/
def State.noticed (s t : State) : Outcome :=
  if t.dev.gensSent = s.dev.gensSent then .refused .notDue else .next (s.setDev fun d => { d with gensSent := t.dev.gensSent })

def State.remoteGate (s : State) (us : List RemoteUse) : Option State := s.remoteGateOf s.team.queue s.team.qgen us

/-! ## The window (R131) -/

/-- What a window offset comes to. -/
inductive WinRes where
  | ok (core addr : Nat)
  | misalign
  | access
deriving DecidableEq, Repr

/-- Resolves a window offset of the team in front, seen from its group's core (R131). -/
def State.window (s : State) (o : Word) (size align : Nat) : WinRes :=
  let off := o.toNat % 2 ^ 23
  let partner := o.getLsbD 23
  if o.toNat % align ≠ 0 then .misalign
  else if o.toNat ≥ 2 ^ 24 ∨ (partner ∧ ¬ s.team.pair) ∨ off + size > s.team.scratch then .access
  else
    let c := if partner then (if s.core.num % 2 = 0 then s.core.num + 1 else s.core.num - 1) else s.core.num
    .ok c ((if c = s.team.core then s.team.base else s.team.base2) + off)

/-- The scratchpad of a core. -/
def State.spadOf (s : State) (c : Nat) : Memory := (s.coreOf c).spad

/-- Stores bytes in a core's scratchpad; a store removes the errors of what it overwrites (R176). -/
def State.spadStore (s : State) (c a : Nat) (bs : List Byte) : State := s.onCore c fun k =>
  { k with spad := k.spad.writeBytes a bs, badSpad := k.badSpad.filter fun p => p < a || a + bs.length ≤ p }

/-- Whether one of n bytes of a core's scratchpad holds an uncorrectable error (R124). -/
def State.spadBad (s : State) (c a n : Nat) : Bool := (s.coreOf c).badSpad.any fun p => a ≤ p && p < a + n

/-- A window access that fails, as a trap (R131): alignment first, then bounds, over the lanes given. -/
def State.checkWindow (s : State) (size align : Nat) (uni : Bool) (offs : List (Nat × Word)) : Option Trap :=
  let bad (r : WinRes) := offs.filter fun (_, o) => s.window o size align = r
  let mk (c : TrapCode) (l : List (Nat × Word)) : Trap :=
    s.trapHere c 0 (if uni then 0 else laneMask (fun i => l.any fun x => x.1 = i) 64) (((l.head?.map Prod.snd).getD 0).setWidth 80)
  if bad .misalign ≠ [] then some (mk .misalign (bad .misalign))
  else if bad .access ≠ [] then some (mk .accessFault (bad .access))
  else none

/-- The bytes at a resolved window offset. -/
def State.winLoad (s : State) (o : Word) (n : Nat) : List Byte :=
  match s.window o n 1 with
  | .ok c a => (s.spadOf c).readBytes a n
  | _ => leBytes 0 n

/-- Whether one of the n bytes at a resolved window offset holds an uncorrectable error. -/
def State.winBad (s : State) (o : Word) (n : Nat) : Bool :=
  match s.window o n 1 with
  | .ok c a => s.spadBad c a n
  | _ => false

def State.winStore (s : State) (o : Word) (bs : List Byte) : State :=
  match s.window o bs.length 1 with
  | .ok c a => s.spadStore c a bs
  | _ => s

/-! ## Errors met in accumulator rows (R330) -/

/-- The rows of a list that hold an uncorrectable error. -/
def Acc.badRows (k : Acc) (rows : List Nat) : List Nat := rows.filter fun m => (k.rows.getD m {}).bad

/-- A row whose error has been met: poisoned, the elements that `wr` selects 0x7FC00000, which a form that writes floating-point
values reports as a NaN written (R330). -/
def AccRow.met (r : AccRow) (float : Bool) (wr : Nat → Bool) : AccRow :=
  { r with bad := false, poison := true, elems := (List.range 32).map fun c => if wr c then 0x7FC00000 else r.elems.getD c 0
           nan := r.nan || (float && (List.range 32).any wr) }

/-- The report of the rows met: a record of KIND 0x05 and a DATA_POISON trap at the entity's next boundary. -/
def State.metErrors (s : State) (h : Nat) (rows : List Nat) : State :=
  if rows = [] then s
  else
    let lanes := laneMask (fun i => rows.contains i) 64
    let s := s.recordOpen s.team.ctx { kind := 5, code := 0, pc := s.ent.pc, launch := s.team.launch, detail := BitVec.ofNat 32 h, lanes, queue := s.team.queue, core := s.core.num, part := s.grp.loc.part }
    s.setEnt fun e => { e with deferred := e.deferred ++ [{ code := .dataPoison, lanes, data := BitVec.ofNat 32 h }] }

end Sys2Proof.Machine
end

