-- ==== Sys2Proof/Machine/Flags.lean ====
section
/-! DEFINITION. The flag computations: SCC (R260), the sticky flags of GS and the trap enables of GC (R24, R25, R28, R276). -/
namespace Sys2Proof.Machine
open Sys2Proof

/-- What a scalar operation gives: result, C, V (R260). -/
structure ScRes where
  r : Word
  c : Bool := false
  v : Bool := false
  flags : Flags := 0

/-- SCC after a form with .cc: Z and N from the result, C and V given, E unchanged (R260). -/
def Scc.set (k : Scc) (z n c v : Bool) : Scc := { k with z, n, c, v }

def addRes (x y : Word) : ScRes :=
  { r := x + y, c := decide (2 ^ 32 ≤ x.toNat + y.toNat), v := decide ((x + y).toInt ≠ x.toInt + y.toInt) }
def subRes (x y : Word) : ScRes :=
  { r := x - y, c := decide (y.toNat ≤ x.toNat), v := decide ((x - y).toInt ≠ x.toInt - y.toInt) }
def mulRes (x y : Word) : ScRes :=
  { r := x * y, c := decide (2 ^ 32 ≤ x.toNat * y.toNat), v := decide ((x * y).toInt ≠ x.toInt * y.toInt) }

/-- High 32 bits of the signed product (R260, R277). -/
def mulHi (x y : Word) : Word := BitVec.ofInt 32 (x.toInt * y.toInt / 2 ^ 32)
/-- High 32 bits of the natural product. -/
def mulHiN (x y : Word) : Word := BitVec.ofNat 32 (x.toNat * y.toNat / 2 ^ 32)

/-- Division with its borderline cases (R261, R278): quotient, condition. -/
def divS (x y : Word) : Word × Flags :=
  if y = 0 then (0xFFFFFFFF, flagDZ) else if x = 0x80000000 ∧ y = 0xFFFFFFFF then (0x80000000, flagIV) else (x.sdiv y, 0)
def divN (x y : Word) : Word × Flags := if y = 0 then (0xFFFFFFFF, flagDZ) else (x / y, 0)
def remS (x y : Word) : Word × Flags :=
  if y = 0 then (x, flagDZ) else if x = 0x80000000 ∧ y = 0xFFFFFFFF then (0, flagIV) else (x.srem y, 0)
def remN (x y : Word) : Word × Flags := if y = 0 then (x, flagDZ) else (x % y, 0)

def divRes (q : Word × Flags) : ScRes := { r := q.1, v := decide (q.2 ≠ 0), flags := q.2 }

/-- Shifts with the last bit shifted out (R260). -/
def shlRes (x y : Word) : ScRes := let n := y.toNat % 32; { r := x <<< n, c := decide (n ≠ 0) && x.getLsbD (32 - n) }
def shrRes (x y : Word) : ScRes := let n := y.toNat % 32; { r := x >>> n, c := decide (n ≠ 0) && x.getLsbD (n - 1) }
def shraRes (x y : Word) : ScRes := let n := y.toNat % 32; { r := x.sshiftRight n, c := decide (n ≠ 0) && x.getLsbD (n - 1) }

/-- Leading zeros, 0 to 32 (R260, R277). -/
def clz (x : Word) : Word := if x = 0 then 32 else BitVec.ofNat 32 (31 - Nat.log2 x.toNat)
/-- Ones, 0 to 32. -/
def popc (x : Word) : Word := BitVec.ofNat 32 ((List.range 32).filter fun i => x.getLsbD i).length
/-- Bit-field extract: p = y[4:0], w = y[9:5] + 1 (R260 SBFX, R277 BFX). -/
def bfx (x y : Word) : Word := BitVec.ofNat 32 (x.toNat / 2 ^ (y.toNat % 32) % 2 ^ (y.toNat / 32 % 32 + 1))

def sminW (x y : Word) : Word := if x.sle y then x else y
def smaxW (x y : Word) : Word := if x.sle y then y else x
def uminW (x y : Word) : Word := if x ≤ y then x else y
def umaxW (x y : Word) : Word := if x ≤ y then y else x

/-- The conditions whose traps GC enables, at the bit positions of GS (R24). -/
def gcEnable (gc : Word) : Flags := ((gc >>> 6) &&& 0x1F).setWidth 7 ||| (((gc >>> 4) &&& 3) <<< 5).setWidth 7

/-- The trap of raised enabled conditions: the first of DIV_ZERO, INT_INVALID and FP_EXCEPT that applies (R276). -/
def trapOfFlags (f : Flags) : TrapCode := if f &&& flagDZ ≠ 0 then .divZero else if f &&& flagIV ≠ 0 then .intInvalid else .fpExcept

/-- GC.RM and GC.FTZ (R24). -/
def State.rm (s : State) : RMode := rmOf (s.grp.gc.toNat % 4)
def State.ftz (s : State) : Bool := s.grp.gc.getLsbD 2

/-- The conditions that the lanes selected raise, ORed. -/
def orFlags (f : Nat → Flags) : List Nat → Flags
  | [] => 0
  | i :: t => f i ||| orFlags f t

/-- Retires s, or traps after completion where an active lane of `lanes` raised an enabled condition (R28, R276). -/
def State.retireFlags (s0 s : State) (lanes : List Nat) (f : Nat → Flags) : Issue :=
  let en := gcEnable s0.grp.gc
  let raised := orFlags f lanes &&& en
  if raised = 0 then .retire s
  else .after { code := trapOfFlags raised, first := s0.ent.pc, data := raised.setWidth 32, lanes := laneMask (fun i => lanes.contains i && decide (f i &&& en ≠ 0)) 64 } s

end Sys2Proof.Machine
end

