-- ==== Sys2Proof/Machine/Operands.lean ====
section
/-! DEFINITION. Operand codes (R109 to R111), the checks and waits on them (R110, R114, R240, R241), and the shapes of
the vector and scalar forms (R260, R275). -/
namespace Sys2Proof.Machine
open Sys2Proof

/-- What an operand code names (R109). -/
inductive Operand where
  | v (n : Nat) | q (n : Nat) | s (n : Nat) | w (n : Nat)
  | const (x : Word)
  | lane
  | width (shift : Nat)
  | gid
  | reserved
deriving DecidableEq, Repr

/-- The constants of codes 0xD0 to 0xDF (R109). -/
def constTable : List Word :=
  [0x3F000000, 0x3F800000, 0x40000000, 0x40800000, 0xBF000000, 0xBF800000, 0xC0000000, 0xC0800000,
   0x7F800000, 0xFF800000, 0x7FC00000, 0x3E800000, 0x80000000, 0x7FFFFFFF, 0xFFFFFFFF, 0x0000FFFF]

/-- Reads an operand code (R109). -/
def operand (c : BitVec 8) : Operand :=
  let n := c.toNat
  if n < 0x3F then .v n else if n = 0x3F then .const 0 else if n < 0x50 then .q (n - 0x40) else if n < 0x90 then .s (n - 0x50)
  else if n < 0xA0 then .w (n - 0x90) else if n < 0xC0 then .const (BitVec.ofNat 32 (n - 0xA0))
  else if n < 0xD0 then .const (BitVec.ofInt 32 (-(n - 0xBF : Nat))) else if n < 0xE0 then .const (constTable.getD (n - 0xD0) 0)
  else if n = 0xE0 then .lane else if n ≤ 0xE5 then .width (n - 0xE1) else if n = 0xE6 then .gid else .reserved

/-- Read(op, i) (R6): the operand as lane i sees it. -/
def State.read (s : State) (c : BitVec 8) (i : Nat) : Word :=
  match operand c with
  | .v n => (s.grp.lane i).reg n
  | .q n => ((s.grp.lane i).qAt n).val
  | .s n => s.sreg n
  | .w n => s.wseen n
  | .const x => x
  | .lane => BitVec.ofNat 32 i
  | .width k => BitVec.ofNat 32 (s.grp.width / 2 ^ k)
  | .gid => BitVec.ofNat 32 s.grp.gid
  | .reserved => 0

/-- A uniform operand. -/
def State.uni (s : State) (c : BitVec 8) : Word := s.read c 0

/-- A source code that no form may name: reserved, or a named register at or above N (R110). -/
def State.srcBad (s : State) (c : BitVec 8) : Bool :=
  match operand c with
  | .v n => decide (s.grp.window ≤ n)
  | .reserved => true
  | _ => false

/-- A per-lane code (R109). -/
def perLane (c : BitVec 8) : Bool :=
  match operand c with
  | .v _ => true
  | .q _ => true
  | .lane => true
  | _ => false

/-- A code that a uniform position may not name (R110). -/
def State.uniBad (s : State) (c : BitVec 8) : Bool := s.srcBad c || perLane c

/-- A destination D that names a register at or above N (R110, R111). -/
def State.dBad (s : State) (d : BitVec 7) : Bool := decide (d.toNat % 64 ≠ 0x3F) && decide (s.grp.window ≤ d.toNat % 64)

/-- The operand code that a ternary form's D reads: vD, or q0 when D is 0x3F or 0x7F (R111). -/
def thirdCode (d : BitVec 7) : BitVec 8 := if d.toNat % 64 = 0x3F then 0x40 else BitVec.ofNat 8 (d.toNat % 64)

/-- The code of the next register of a pair or run. -/
def codePlus (c : BitVec 8) (k : Nat) : BitVec 8 := c + BitVec.ofNat 8 k

/-- Whether an operand is pending in one of the lanes (R114). -/
def State.pendingIn (s : State) (lanes : List Nat) (c : BitVec 8) : Bool :=
  match operand c with
  | .v n => lanes.any fun i => s.grp.pendingV i n
  | .q n => lanes.any fun i => s.grp.pendingQ i n
  | .s n => s.pendingS n
  | _ => false

/-- Whether the register a destination names is pending in one of the lanes. -/
def State.pendingD (s : State) (lanes : List Nat) (d : BitVec 7) : Bool :=
  decide (d.toNat % 64 ≠ 0x3F) && lanes.any fun i => s.grp.pendingV i (d.toNat % 64)

/-- A source field: the field number and value that a trap reports (R241), and its operand code. -/
structure Src where
  field : Nat
  val : Nat
  code : BitVec 8

def srcA (a : BitVec 8) : Src := ⟨1, a.toNat, a⟩
def srcB (b : BitVec 8) : Src := ⟨2, b.toNat, b⟩

/-- The first source, in field order, that p rejects. -/
def firstBad (p : BitVec 8 → Bool) (l : List Src) : Option Src := l.find? fun x => p x.code

/-! ## Vector forms (R275) -/

/-- Writes and pushes r in the lanes of L as D says (R111, R112, R275): an active lane its result, another a pushed 0. -/
def State.vecWrite (s : State) (d : BitVec 7) (r : Nat → Word) : State :=
  s.mapLanes fun i l =>
    if s.inL i then
      let x := if s.active i then r i else 0
      let l := if s.active i && decide (d.toNat % 64 ≠ 0x3F) then l.setReg (d.toNat % 64) x else l
      if d.getLsbD 6 then l else l.push { val := x }
    else l

/-- The checks of a vector form: D, then the sources in order (R240, R241); then the scoreboard over `lanes` (R114). -/
def State.vecCheck (s : State) (d : BitVec 7) (srcs : List Src) (third : List (BitVec 8)) (lanes : List Nat) : Option Issue :=
  if s.dBad d then some (s.badField 0 d.toNat)
  else match firstBad s.srcBad srcs with
    | some x => some (s.badField x.field x.val)
    | none =>
      if (srcs.map Src.code ++ third).any (s.pendingIn lanes) || s.pendingD lanes d then some (.wait .scoreboard s) else none

/-- A per-lane form with function f of the lane (R275): writes, pushes, conditions into GS, enabled traps. -/
def State.vecForm (s : State) (d : BitVec 7) (srcs : List Src) (third : List (BitVec 8)) (f : Nat → Word × Flags) : Issue :=
  match s.vecCheck d srcs third s.activeLanes with
  | some i => i
  | none =>
    let t := (s.vecWrite d fun i => (f i).1).raise (orFlags (fun i => (f i).2) s.activeLanes)
    s.retireFlags t s.activeLanes fun i => (f i).2

/-- A binary form a op b. -/
def State.vec2 (s : State) (len : Nat) (d : BitVec 7) (a b : BitVec 8) (f : Word → Word → Word × Flags) : Outcome :=
  commit len s (s.vecForm d [srcA a, srcB b] [] fun i => f (s.read a i) (s.read b i))

/-- A binary form without conditions. -/
def State.vec2p (s : State) (len : Nat) (d : BitVec 7) (a b : BitVec 8) (f : Word → Word → Word) : Outcome :=
  s.vec2 len d a b fun x y => (f x y, 0)

/-- A one-source form; B is ignored (R242). -/
def State.vec1 (s : State) (d : BitVec 7) (a : BitVec 8) (f : Word → Word × Flags) : Outcome :=
  commit 4 s (s.vecForm d [srcA a] [] fun i => f (s.read a i))

/-- A form with no source at all. -/
def State.vec0 (s : State) (d : BitVec 7) (f : Nat → Word) : Outcome :=
  commit 4 s (s.vecForm d [] [] fun i => (f i, 0))

/-- A ternary form with its third source in D (R111). -/
def State.vec3 (s : State) (d : BitVec 7) (a b : BitVec 8) (f : Word → Word → Word → Word × Flags) : Outcome :=
  commit 4 s (s.vecForm d [srcA a, srcB b] [thirdCode d] fun i => f (s.read a i) (s.read b i) (s.read (thirdCode d) i))

/-- A 16-bit form (R243): D the left source and destination, S the right source, reported as B. -/
def d16 (d : BitVec 6) : BitVec 7 := d.setWidth 7
def s16 (c : BitVec 5) : BitVec 8 := if c.toNat < 16 then BitVec.ofNat 8 (0x40 + c.toNat) else BitVec.ofNat 8 (c.toNat - 16)

def State.vec16 (s : State) (c : BitVec 5) (d : BitVec 6) (f : Word → Word → Word × Flags) : Outcome :=
  commit 2 s (s.vecForm (d16 d) [⟨2, c.toNat, s16 c⟩] [thirdCode (d16 d)] fun i => f (s.read (thirdCode (d16 d)) i) (s.read (s16 c) i))

/-! ## Compares (R285) -/

/-- Sets bit i of a predicate in each active lane. -/
def State.predWrite (s : State) (p : BitVec 2) (r : Nat → Bool) : State :=
  s.mapLanes fun i l =>
    if s.inL i && s.active i then
      { l with p := if r i then l.p ||| (1#4 <<< p.toNat) else l.p &&& ~~~ (1#4 <<< p.toNat) }
    else l

def State.predForm (s : State) (p : BitVec 2) (srcs : List Src) (f : Nat → Bool × Flags) : Issue :=
  match s.vecCheck 0x3F srcs [] s.activeLanes with
  | some i => i
  | none =>
    let t := (s.predWrite p fun i => (f i).1).raise (orFlags (fun i => (f i).2) s.activeLanes)
    s.retireFlags t s.activeLanes fun i => (f i).2

def State.cmp2 (s : State) (p : BitVec 2) (a b : BitVec 8) (f : Word → Word → Bool × Flags) : Outcome :=
  commit 4 s (s.predForm p [srcA a, srcB b] fun i => f (s.read a i) (s.read b i))

/-- Predicate p in lane i. -/
def State.pred (s : State) (p : Nat) (i : Nat) : Bool := (s.grp.lane i).p.getLsbD p
/-- EM AND p as a mask. -/
def State.predMask (s : State) (p : Nat) : Mask := laneMask (fun i => s.active i && s.pred p i) s.grp.width

/-! ## Scalar forms (R260) -/

/-- The checks of a class 4 form: uniform sources (R110), then the scoreboard on them and on sD. -/
def State.scCheck (s : State) (srcs : List Src) (dst : List Nat) : Option Issue :=
  match firstBad s.uniBad srcs with
  | some x => some (s.badField x.field x.val)
  | none =>
    if (srcs.map Src.code).any (s.pendingIn []) || dst.any (fun n => s.pendingS n) then some (.wait .scoreboard s) else none

/-- The s register a class 4 D writes: none for 0x3F (R246). -/
def scDst (d : BitVec 7) : List Nat := if d.toNat % 64 = 0x3F then [] else [d.toNat % 64]

/-- Writes the result and, with .cc, SCC (R260). -/
def State.scWrite (s : State) (d : BitVec 7) (r : ScRes) : State :=
  let s := if d.toNat % 64 = 0x3F then s else s.setS (d.toNat % 64) r.r
  let s := if d.getLsbD 6 then s.setEnt fun e => { e with scc := e.scc.set (decide (r.r = 0)) (r.r.getLsbD 31) r.c r.v } else s
  s.raise r.flags

def State.scForm (s : State) (d : BitVec 7) (srcs : List Src) (extra : List Nat) (r : ScRes) : Issue :=
  match s.scCheck srcs (scDst d ++ extra) with
  | some i => i
  | none =>
    let t := s.scWrite d r
    if r.flags &&& gcEnable s.grp.gc = 0 then .retire t
    else .after { code := trapOfFlags (r.flags &&& gcEnable s.grp.gc), first := s.ent.pc, data := (r.flags &&& gcEnable s.grp.gc).setWidth 32 } t

def State.sc2 (s : State) (d : BitVec 7) (a b : BitVec 8) (f : Word → Word → ScRes) : Outcome :=
  commit 4 s (s.scForm d [srcA a, srcB b] [] (f (s.uni a) (s.uni b)))

def State.sc1 (s : State) (d : BitVec 7) (a : BitVec 8) (f : Word → ScRes) : Outcome :=
  commit 4 s (s.scForm d [srcA a] [] (f (s.uni a)))

/-! ## Pairs and runs -/

/-- An even v, q or s code whose upper register stands in the file (R279): the codes that name a pair. -/
def pairOk (c : BitVec 8) : Bool := c.toNat % 2 = 0 && (c.toNat ≤ 0x3C || (0x40 ≤ c.toNat && c.toNat ≤ 0x4E) || (0x50 ≤ c.toNat && c.toNat ≤ 0x8E))
/-- An even v code up to limit, or q or s code: the key pairs of R208 (limit v60). -/
def State.pairBad (s : State) (c : BitVec 8) : Bool := !pairOk c || s.srcBad c || s.srcBad (codePlus c 1)
/-- The 64-bit value of a pair in lane i, low word first. -/
def State.read64 (s : State) (c : BitVec 8) (i : Nat) : BitVec 64 := s.read (codePlus c 1) i ++ s.read c i

end Sys2Proof.Machine
end

