-- ==== Sys2Proof/Machine/Vector.lean ====
section
/-! DEFINITION. The vector forms: classes 0 to 3 and the 16-bit forms (19_isa_vector.md R275 to R286, R243). -/
namespace Sys2Proof.Machine
open Sys2Proof

/-- A binary FP32 function on register values (R26, R280). -/
def State.f2 (s : State) (f : Num → Num → Nat × Flags) (x y : Word) : Word × Flags :=
  let r := f (fp32.read s.ftz x.toNat) (fp32.read s.ftz y.toNat)
  (BitVec.ofNat 32 r.1, r.2)

def State.f1 (s : State) (f : Num → Nat × Flags) (x : Word) : Word × Flags :=
  let r := f (fp32.read s.ftz x.toNat)
  (BitVec.ofNat 32 r.1, r.2)

def State.f3 (s : State) (f : Num → Num → Num → Nat × Flags) (x y z : Word) : Word × Flags :=
  let r := f (fp32.read s.ftz x.toNat) (fp32.read s.ftz y.toNat) (fp32.read s.ftz z.toNat)
  (BitVec.ofNat 32 r.1, r.2)

/-- A packed function on the two 16-bit elements (R23, R282). -/
def pack2 (f : Nat → Nat → Nat × Flags) (x y : Word) : Word × Flags :=
  let lo := f (x.toNat % 2 ^ 16) (y.toNat % 2 ^ 16)
  let hi := f (x.toNat / 2 ^ 16) (y.toNat / 2 ^ 16)
  (BitVec.ofNat 32 (hi.1 * 2 ^ 16 + lo.1), lo.2 ||| hi.2)

def pack3 (f : Nat → Nat → Nat → Nat × Flags) (x y z : Word) : Word × Flags :=
  let lo := f (x.toNat % 2 ^ 16) (y.toNat % 2 ^ 16) (z.toNat % 2 ^ 16)
  let hi := f (x.toNat / 2 ^ 16) (y.toNat / 2 ^ 16) (z.toNat / 2 ^ 16)
  (BitVec.ofNat 32 (hi.1 * 2 ^ 16 + lo.1), lo.2 ||| hi.2)

/-- A packed binary function of a format under GC (R282). -/
def State.h2 (s : State) (m : Fmt) (f : Num → Num → Nat × Flags) : Word → Word → Word × Flags :=
  pack2 fun x y => f (m.read s.ftz x) (m.read s.ftz y)

/-- FADD, FSUB, FMUL, FMIN, FMAX of a form (R280, R27). -/
def State.fadd (s : State) : Word → Word → Word × Flags := s.f2 (fp32.add s.rm s.ftz)
def State.fsub (s : State) : Word → Word → Word × Flags := s.f2 fun a b => fp32.add s.rm s.ftz a b.neg
def State.fmul (s : State) : Word → Word → Word × Flags := s.f2 (fp32.mul s.rm s.ftz)
def State.fmin (s : State) (x y : Word) : Word × Flags := let r := fp32.minmax false s.ftz x.toNat y.toNat; (BitVec.ofNat 32 r.1, r.2)
def State.fmax (s : State) (x y : Word) : Word × Flags := let r := fp32.minmax true s.ftz x.toNat y.toNat; (BitVec.ofNat 32 r.1, r.2)

/-- A result that only moves bits of a, but for a NaN (R27, R280 FNEG, FABS, FCPYS). -/
def moveF (x : Word) (r : Word) : Word × Flags :=
  match fp32.read false x.toNat with
  | .nan g => (0x7FC00000, if g then flagNV else 0)
  | _ => (r, 0)

/-- a − FFLOOR(a), rounded (R280). -/
def fracOf (mode : RMode) (ftz : Bool) (a : Num) : Nat × Flags :=
  match a with
  | .inf _ => (fp32.qnan, flagNV)
  | .fin n m e =>
    if e ≥ 0 then fp32.add mode ftz a a.neg
    else fp32.add mode ftz a (Num.fin n (roundAt .rd n m e false 0).1 0).neg
  | a => fp32.add mode ftz a a

/-- Shift functions of R277: the count is b[4:0]. -/
def shl (x y : Word) : Word := x <<< (y.toNat % 32)
def shr (x y : Word) : Word := x >>> (y.toNat % 32)
def shra (x y : Word) : Word := x.sshiftRight (y.toNat % 32)

/-- The word whose bit k is f k. -/
def wordOf (f : Nat → Bool) : Word := (laneMask f 32).setWidth 32

/-- BILV2 (R277): bit 2k from a, bit 2k + 1 from b. -/
def bilv2 (x y : Word) : Word := wordOf fun k => if k % 2 = 0 then x.getLsbD (k / 2) else y.getLsbD (k / 2)
/-- BDIL2 (R277). -/
def bdil2 (x y : Word) : Word := wordOf fun k => decide (k < 16) && x.getLsbD (2 * k + (y.toNat % 2))
def brev (x : Word) : Word := wordOf fun k => x.getLsbD (31 - k)
/-- SEXT (R277): bits above n take a[n]. -/
def sext (x y : Word) : Word := wordOf fun k => x.getLsbD (min k (y.toNat % 32))
/-- BILV3 (R284). -/
def bilv3 (x y z : Word) : Word :=
  wordOf fun k => decide (k < 30) && (if k % 3 = 0 then x.getLsbD (k / 3) else if k % 3 = 1 then y.getLsbD (k / 3) else z.getLsbD (k / 3))
/-- BFI (R284): m = ((2^w − 1) << p) mod 2^32. -/
def bfi (a b c : Word) : Word :=
  let p := b.toNat % 32
  let m : Word := BitVec.ofNat 32 ((2 ^ (b.toNat / 32 % 32 + 1) - 1) * 2 ^ p)
  (c &&& ~~~ m) ||| ((a <<< p) &&& m)

/-- Sign-extended and zero-extended literals (R247). -/
def kS (k : BitVec 8) : Word := k.signExtend 32
def kZ (k : BitVec 8) : Word := k.setWidth 32
/-- The FP32 value of a signed P4 literal with infinities (R30, R247). -/
def kF (k : BitVec 8) : Word := BitVec.ofNat 32 ((B8.mk true 4).toF32 false k.toNat)

/-- A literal form a op k. -/
def State.vecK (s : State) (d : BitVec 7) (a : BitVec 8) (f : Word → Word × Flags) : Outcome := s.vec1 d a f

/-- The pair forms (R279): D, then the sources, then the scoreboard; low and high words written, high pushed first. -/
def State.vecPair (s : State) (d : BitVec 7) (srcs : List Src) (pairs : List (BitVec 8)) (plain : List (BitVec 8)) (f : Nat → BitVec 64) : Outcome :=
  let n := d.toNat % 64
  let codes := plain ++ pairs ++ pairs.map fun c => codePlus c 1
  let dbad := decide (n ≠ 0x3F) && (decide (n % 2 = 1) || decide (s.grp.window ≤ n + 1))
  commit 4 s <|
    if dbad then s.badField 0 d.toNat
    else match srcs.find? fun x => if pairs.contains x.code then s.pairBad x.code else s.srcBad x.code with
      | some x => s.badField x.field x.val
      | none =>
        if codes.any (s.pendingIn s.activeLanes) || s.pendingD s.activeLanes d || (decide (n ≠ 0x3F) && s.activeLanes.any fun i => s.grp.pendingV i (n + 1))
        then .wait .scoreboard s
        else .retire (s.mapLanes fun i l =>
          if s.inL i then
            let x := if s.active i then f i else 0
            let l := if s.active i && decide (n ≠ 0x3F) then (l.setReg n (x.setWidth 32)).setReg (n + 1) ((x >>> 32).setWidth 32) else l
            if d.getLsbD 6 then l else (l.push { val := (x >>> 32).setWidth 32 }).push { val := x.setWidth 32 }
          else l)

/-- SHRD reads a pair in A and any operand in B (R279). -/
def State.vecShrd (s : State) (d : BitVec 7) (a b : BitVec 8) : Outcome :=
  let n := d.toNat % 64
  let dbad := decide (n ≠ 0x3F) && (decide (n % 2 = 1) || decide (s.grp.window ≤ n + 1))
  let f (i : Nat) : BitVec 64 := s.read64 a i >>> ((s.read b i).toNat % 64)
  commit 4 s <|
    if dbad then s.badField 0 d.toNat
    else if s.pairBad a then s.badField 1 a.toNat
    else if s.srcBad b then s.badField 2 b.toNat
    else if [a, codePlus a 1, b].any (s.pendingIn s.activeLanes) || s.pendingD s.activeLanes d || (decide (n ≠ 0x3F) && s.activeLanes.any fun i => s.grp.pendingV i (n + 1))
    then .wait .scoreboard s
    else .retire (s.mapLanes fun i l =>
      if s.inL i then
        let x := if s.active i then f i else 0
        let l := if s.active i && decide (n ≠ 0x3F) then (l.setReg n (x.setWidth 32)).setReg (n + 1) ((x >>> 32).setWidth 32) else l
        if d.getLsbD 6 then l else (l.push { val := (x >>> 32).setWidth 32 }).push { val := x.setWidth 32 }
      else l)

/-- Float compares (R285): the test on two values and the conditions for a quiet NaN. -/
def State.fcmp (s : State) (quiet : Bool) (f : Num → Num → Bool) (x y : Word) : Bool × Flags :=
  let a := fp32.read s.ftz x.toNat
  let b := fp32.read s.ftz y.toNat
  (f a b, snan a ||| snan b ||| (if !quiet && (a.isNan || b.isNan) then flagNV else 0))

def numEq (a b : Num) : Bool := !a.isNan && !b.isNan && !a.lt b && !b.lt a

/-- CVT (R34, R286) between the format codes of R247. -/
def State.cvt (s : State) (m src dst : Nat) (x : Word) : Word × Flags :=
  let w (r : Nat × Flags) : Word × Flags := (BitVec.ofNat 32 r.1, r.2)
  let toF (f : Fmt) : Num → Nat × Flags
    | .nan g => (f.qnan, snan (.nan g))
    | .inf n => (f.inf n, 0)
    | .fin n q e => f.round s.rm s.ftz n q e false
  let i (lo hi : Int) : Word × Flags := let r := toIntSat (rmOf m) lo hi (fp32.read s.ftz x.toNat); (BitVec.ofInt 32 r.1, r.2)
  if src = 0 then
    if dst = 1 then w (toF bf16 (fp32.read s.ftz x.toNat))
    else if dst = 2 then w (toF fp16 (fp32.read s.ftz x.toNat))
    else if dst = 3 then i (-2147483648) 2147483647
    else if dst = 4 then i 0 4294967295
    else if dst = 5 then i (-128) 127
    else i 0 255
  else if src = 1 then w (toF fp32 (bf16.read s.ftz (x.toNat % 2 ^ 16)))
  else if src = 2 then w (toF fp32 (fp16.read s.ftz (x.toNat % 2 ^ 16)))
  else if src = 3 then w (fp32.ofInt s.rm x.toInt)
  else w (fp32.ofInt s.rm x.toNat)

/-- mix of R37. -/
def mix (x : BitVec 64) : BitVec 64 :=
  let z := x + 0x9E3779B97F4A7C15
  let z := (z ^^^ (z >>> 30)) * 0xBF58476D1CE4E5B9
  let z := (z ^^^ (z >>> 27)) * 0x94D049BB133111EB
  z ^^^ (z >>> 31)

/-- The linear team index (R37). -/
def State.teamIndex (s : State) : BitVec 64 :=
  BitVec.ofNat 64 (s.team.x.toNat + s.team.gx.toNat * (s.team.y.toNat + s.team.gy.toNat * s.team.z.toNat))

/-- The random word of lane i (R37). -/
def State.randWord (s : State) (i : Nat) : Nat :=
  let key : BitVec 64 := BitVec.ofNat 64 (s.grp.seed.toNat * 2 ^ 32 + s.grp.gid % 32 * 64 + i % 64)
  (mix (mix (mix key ^^^ s.teamIndex) ^^^ BitVec.ofNat 64 (s.grp.lane i).use.toNat)).toNat % 2 ^ 32

/-- CVT8 of one lane (R33, R36, R286). -/
def State.cvt8 (s : State) (sr sat fin : Bool) (p : Nat) (i : Nat) (x : Word) : Word × Flags :=
  let r := (b8Of p).round (if sr then .sr (s.randWord i) else s.rm) fin sat (fp32.read s.ftz x.toNat)
  (BitVec.ofNat 32 r.1, r.2)

/-- CVT8N (R34, R286): a subnormal result is flushed under FTZ (R26). -/
def State.cvt8n (s : State) (fin : Bool) (p : Nat) (x : Word) : Word × Flags :=
  match (b8Of p).read fin (x.toNat % 256) with
  | .nan _ => (0x7FC00000, 0)
  | .inf n => (BitVec.ofNat 32 (fp32.inf n), 0)
  | .fin n m e => let r := fp32.round .rne s.ftz n m e false; (BitVec.ofNat 32 r.1, r.2)

/-- Under SR each active lane's use count rises by 1 (R37). -/
def State.countUses (s : State) (sr : Bool) (u : State) : State :=
  if sr then u.mapLanes fun i l => if s.inL i && s.active i then { l with use := l.use + 1 } else l else u

/-- Adds A and B modulo 2^32 in each active lane. (R277) -/
def execIadd (b : BitVec 8) (a : BitVec 8) (d : BitVec 7) (s : State) : Outcome :=
  s.vec2p 4 d a b fun x y => x + y

/-- Subtracts B from A modulo 2^32 in each active lane. (R277) -/
def execIsub (b : BitVec 8) (a : BitVec 8) (d : BitVec 7) (s : State) : Outcome :=
  s.vec2p 4 d a b fun x y => x - y

/-- Writes the low 32 bits of A times B. (R277) -/
def execImul (b : BitVec 8) (a : BitVec 8) (d : BitVec 7) (s : State) : Outcome :=
  s.vec2p 4 d a b fun x y => x * y

/-- Writes the high 32 bits of the signed 64-bit product. (R277) -/
def execImulh (b : BitVec 8) (a : BitVec 8) (d : BitVec 7) (s : State) : Outcome :=
  s.vec2p 4 d a b fun x y => mulHi x y

/-- Writes the high 32 bits of the natural 64-bit product. (R277) -/
def execImulhn (b : BitVec 8) (a : BitVec 8) (d : BitVec 7) (s : State) : Outcome :=
  s.vec2p 4 d a b fun x y => mulHiN x y

/-- Signed per-lane division, truncating towards zero, with DZ and IV cases. (R278) -/
def execIdiv (b : BitVec 8) (a : BitVec 8) (d : BitVec 7) (s : State) : Outcome :=
  s.vec2 4 d a b divS

/-- Natural per-lane division. (R278) -/
def execIdivn (b : BitVec 8) (a : BitVec 8) (d : BitVec 7) (s : State) : Outcome :=
  s.vec2 4 d a b divN

/-- Signed per-lane remainder, with the sign of the dividend. (R278) -/
def execIrem (b : BitVec 8) (a : BitVec 8) (d : BitVec 7) (s : State) : Outcome :=
  s.vec2 4 d a b remS

/-- Natural per-lane remainder. (R278) -/
def execIremn (b : BitVec 8) (a : BitVec 8) (d : BitVec 7) (s : State) : Outcome :=
  s.vec2 4 d a b remN

/-- Writes the signed minimum of A and B. (R277) -/
def execImin (b : BitVec 8) (a : BitVec 8) (d : BitVec 7) (s : State) : Outcome :=
  s.vec2p 4 d a b fun x y => sminW x y

/-- Writes the natural minimum of A and B. (R277) -/
def execIminn (b : BitVec 8) (a : BitVec 8) (d : BitVec 7) (s : State) : Outcome :=
  s.vec2p 4 d a b fun x y => uminW x y

/-- Writes the signed maximum of A and B. (R277) -/
def execImax (b : BitVec 8) (a : BitVec 8) (d : BitVec 7) (s : State) : Outcome :=
  s.vec2p 4 d a b fun x y => smaxW x y

/-- Writes the natural maximum of A and B. (R277) -/
def execImaxn (b : BitVec 8) (a : BitVec 8) (d : BitVec 7) (s : State) : Outcome :=
  s.vec2p 4 d a b fun x y => umaxW x y

/-- Bitwise AND of A and B. (R277) -/
def execAnd (b : BitVec 8) (a : BitVec 8) (d : BitVec 7) (s : State) : Outcome :=
  s.vec2p 4 d a b fun x y => x &&& y

/-- Bitwise OR of A and B. (R277) -/
def execOr (b : BitVec 8) (a : BitVec 8) (d : BitVec 7) (s : State) : Outcome :=
  s.vec2p 4 d a b fun x y => x ||| y

/-- Bitwise exclusive-or of A and B. (R277) -/
def execXor (b : BitVec 8) (a : BitVec 8) (d : BitVec 7) (s : State) : Outcome :=
  s.vec2p 4 d a b fun x y => x ^^^ y

/-- Writes A AND NOT B. (R277) -/
def execAndn (b : BitVec 8) (a : BitVec 8) (d : BitVec 7) (s : State) : Outcome :=
  s.vec2p 4 d a b fun x y => x &&& ~~~ y

/-- Shifts A left by B[4:0]. (R277) -/
def execShl (b : BitVec 8) (a : BitVec 8) (d : BitVec 7) (s : State) : Outcome :=
  s.vec2p 4 d a b fun x y => shl x y

/-- Shifts A right by B[4:0] with zero fill. (R277) -/
def execShr (b : BitVec 8) (a : BitVec 8) (d : BitVec 7) (s : State) : Outcome :=
  s.vec2p 4 d a b fun x y => shr x y

/-- Shifts A right by B[4:0] with sign fill. (R277) -/
def execShra (b : BitVec 8) (a : BitVec 8) (d : BitVec 7) (s : State) : Outcome :=
  s.vec2p 4 d a b fun x y => shra x y

/-- Rotates A left by B[4:0]. (R277) -/
def execRotl (b : BitVec 8) (a : BitVec 8) (d : BitVec 7) (s : State) : Outcome :=
  s.vec2p 4 d a b fun x y => x.rotateLeft (y.toNat % 32)

/-- Extracts a bit field of A at position and width from B. (R277) -/
def execBfx (b : BitVec 8) (a : BitVec 8) (d : BitVec 7) (s : State) : Outcome :=
  s.vec2p 4 d a b fun x y => bfx x y

/-- Interleaves the low 16 bits of A and B into a Morton code. (R277) -/
def execBilv2 (b : BitVec 8) (a : BitVec 8) (d : BitVec 7) (s : State) : Outcome :=
  s.vec2p 4 d a b fun x y => bilv2 x y

/-- De-interleaves one coordinate out of a 2-D Morton code. (R277) -/
def execBdil2 (b : BitVec 8) (a : BitVec 8) (d : BitVec 7) (s : State) : Outcome :=
  s.vec2p 4 d a b fun x y => bdil2 x y

/-- Counts the leading zeros of A. (R277) -/
def execClz (_b : BitVec 8) (a : BitVec 8) (d : BitVec 7) (s : State) : Outcome :=
  s.vec1 d a fun x => (clz x, 0)

/-- Counts the ones in A. (R277) -/
def execPopc (_b : BitVec 8) (a : BitVec 8) (d : BitVec 7) (s : State) : Outcome :=
  s.vec1 d a fun x => (popc x, 0)

/-- Reverses the bits of A. (R277) -/
def execBrev (_b : BitVec 8) (a : BitVec 8) (d : BitVec 7) (s : State) : Outcome :=
  s.vec1 d a fun x => (brev x, 0)

/-- Writes the signed absolute value of A. (R277) -/
def execIabs (_b : BitVec 8) (a : BitVec 8) (d : BitVec 7) (s : State) : Outcome :=
  s.vec1 d a fun x => (if x.msb then -x else x, 0)

/-- Sign-extends A from bit B[4:0]. (R277) -/
def execSext (b : BitVec 8) (a : BitVec 8) (d : BitVec 7) (s : State) : Outcome :=
  s.vec2p 4 d a b fun x y => sext x y

/-- Adds two 64-bit register pairs modulo 2^64. (R279) -/
def execIaddd (b : BitVec 8) (a : BitVec 8) (d : BitVec 7) (s : State) : Outcome :=
  s.vecPair d [srcA a, srcB b] [a, b] [] fun i => s.read64 a i + s.read64 b i

/-- Subtracts two 64-bit register pairs modulo 2^64. (R279) -/
def execIsubd (b : BitVec 8) (a : BitVec 8) (d : BitVec 7) (s : State) : Outcome :=
  s.vecPair d [srcA a, srcB b] [a, b] [] fun i => s.read64 a i - s.read64 b i

/-- Shifts a 64-bit pair right with zero fill. (R279) -/
def execShrd (b : BitVec 8) (a : BitVec 8) (d : BitVec 7) (s : State) : Outcome :=
  s.vecShrd d a b

/-- FP32 addition, rounded in GC.RM. (R280) -/
def execFadd (b : BitVec 8) (a : BitVec 8) (d : BitVec 7) (s : State) : Outcome :=
  s.vec2 4 d a b s.fadd

/-- FP32 subtraction. (R280) -/
def execFsub (b : BitVec 8) (a : BitVec 8) (d : BitVec 7) (s : State) : Outcome :=
  s.vec2 4 d a b s.fsub

/-- FP32 multiplication. (R280) -/
def execFmul (b : BitVec 8) (a : BitVec 8) (d : BitVec 7) (s : State) : Outcome :=
  s.vec2 4 d a b s.fmul

/-- FP32 minimum, following the rules of R27. (R280) -/
def execFmin (b : BitVec 8) (a : BitVec 8) (d : BitVec 7) (s : State) : Outcome :=
  s.vec2 4 d a b s.fmin

/-- FP32 maximum, following the rules of R27. (R280) -/
def execFmax (b : BitVec 8) (a : BitVec 8) (d : BitVec 7) (s : State) : Outcome :=
  s.vec2 4 d a b s.fmax

/-- Correctly rounded FP32 division. (R280) -/
def execFdiv (b : BitVec 8) (a : BitVec 8) (d : BitVec 7) (s : State) : Outcome :=
  s.vec2 4 d a b (s.f2 (fp32.div s.rm s.ftz))

/-- Correctly rounded reciprocal. (R281) -/
def execFrcp (_b : BitVec 8) (a : BitVec 8) (d : BitVec 7) (s : State) : Outcome :=
  s.vec1 d a (s.f1 (fun x => fp32.div s.rm s.ftz (.fin false 1 0) x))

/-- Correctly rounded reciprocal square root. (R281) -/
def execFrsq (_b : BitVec 8) (a : BitVec 8) (d : BitVec 7) (s : State) : Outcome :=
  s.vec1 d a (s.f1 (fp32.rsqrt s.rm s.ftz))

/-- Correctly rounded square root. (R281) -/
def execFsqrt (_b : BitVec 8) (a : BitVec 8) (d : BitVec 7) (s : State) : Outcome :=
  s.vec1 d a (s.f1 (fp32.sqrt s.rm s.ftz))

/-- Correctly rounded 2 to the power A. (R281) -/
def execFexp2 (_b : BitVec 8) (a : BitVec 8) (d : BitVec 7) (s : State) : Outcome :=
  s.vec1 d a (s.f1 (fp32.exp2 s.rm s.ftz))

/-- Correctly rounded base-2 logarithm. (R281) -/
def execFlog2 (_b : BitVec 8) (a : BitVec 8) (d : BitVec 7) (s : State) : Outcome :=
  s.vec1 d a (s.f1 (fp32.log2 s.rm s.ftz))

/-- Correctly rounded sin(pi times A). (R281) -/
def execFsinpi (_b : BitVec 8) (a : BitVec 8) (d : BitVec 7) (s : State) : Outcome :=
  s.vec1 d a (s.f1 (fp32.sinpi s.rm s.ftz))

/-- Correctly rounded cos(pi times A). (R281) -/
def execFcospi (_b : BitVec 8) (a : BitVec 8) (d : BitVec 7) (s : State) : Outcome :=
  s.vec1 d a (s.f1 (fp32.cospi s.rm s.ftz))

/-- Correctly rounded tanh. (R281) -/
def execFtanh (_b : BitVec 8) (a : BitVec 8) (d : BitVec 7) (s : State) : Outcome :=
  s.vec1 d a (s.f1 (fp32.tanh s.rm s.ftz))

/-- Rounds A to an integral value, ties to even. (R280) -/
def execFrndn (_b : BitVec 8) (a : BitVec 8) (d : BitVec 7) (s : State) : Outcome :=
  s.vec1 d a (s.f1 (fp32.rndInt .rne))

/-- Rounds A to an integral value towards zero. (R280) -/
def execFrndz (_b : BitVec 8) (a : BitVec 8) (d : BitVec 7) (s : State) : Outcome :=
  s.vec1 d a (s.f1 (fp32.rndInt .rz))

/-- Rounds A down to an integral value. (R280) -/
def execFfloor (_b : BitVec 8) (a : BitVec 8) (d : BitVec 7) (s : State) : Outcome :=
  s.vec1 d a (s.f1 (fp32.rndInt .rd))

/-- Rounds A up to an integral value. (R280) -/
def execFceil (_b : BitVec 8) (a : BitVec 8) (d : BitVec 7) (s : State) : Outcome :=
  s.vec1 d a (s.f1 (fp32.rndInt .ru))

/-- Flips the sign bit of A. (R280) -/
def execFneg (_b : BitVec 8) (a : BitVec 8) (d : BitVec 7) (s : State) : Outcome :=
  s.vec1 d a fun x => moveF x (x ^^^ 0x80000000)

/-- Clears the sign bit of A. (R280) -/
def execFabs (_b : BitVec 8) (a : BitVec 8) (d : BitVec 7) (s : State) : Outcome :=
  s.vec1 d a fun x => moveF x (x &&& 0x7FFFFFFF)

/-- Copies the sign of B onto A. (R280) -/
def execFcpys (b : BitVec 8) (a : BitVec 8) (d : BitVec 7) (s : State) : Outcome :=
  s.vec2 4 d a b fun x y => moveF x ((x &&& 0x7FFFFFFF) ||| (y &&& 0x80000000))

/-- Packed FP16 addition. (R282) -/
def execHadd2 (b : BitVec 8) (a : BitVec 8) (d : BitVec 7) (s : State) : Outcome :=
  s.vec2 4 d a b (s.h2 fp16 (fp16.add s.rm s.ftz))

/-- Packed FP16 subtraction. (R282) -/
def execHsub2 (b : BitVec 8) (a : BitVec 8) (d : BitVec 7) (s : State) : Outcome :=
  s.vec2 4 d a b (s.h2 fp16 fun p q => fp16.add s.rm s.ftz p q.neg)

/-- Packed FP16 multiplication. (R282) -/
def execHmul2 (b : BitVec 8) (a : BitVec 8) (d : BitVec 7) (s : State) : Outcome :=
  s.vec2 4 d a b (s.h2 fp16 (fp16.mul s.rm s.ftz))

/-- Packed FP16 minimum. (R282) -/
def execHmin2 (b : BitVec 8) (a : BitVec 8) (d : BitVec 7) (s : State) : Outcome :=
  s.vec2 4 d a b (pack2 (fp16.minmax false s.ftz))

/-- Packed FP16 maximum. (R282) -/
def execHmax2 (b : BitVec 8) (a : BitVec 8) (d : BitVec 7) (s : State) : Outcome :=
  s.vec2 4 d a b (pack2 (fp16.minmax true s.ftz))

/-- Packed BF16 addition. (R282) -/
def execBadd2 (b : BitVec 8) (a : BitVec 8) (d : BitVec 7) (s : State) : Outcome :=
  s.vec2 4 d a b (s.h2 bf16 (bf16.add s.rm s.ftz))

/-- Packed BF16 multiplication. (R282) -/
def execBmul2 (b : BitVec 8) (a : BitVec 8) (d : BitVec 7) (s : State) : Outcome :=
  s.vec2 4 d a b (s.h2 bf16 (bf16.mul s.rm s.ftz))

/-- Writes A minus floor(A), rounded. (R280) -/
def execFfrac (_b : BitVec 8) (a : BitVec 8) (d : BitVec 7) (s : State) : Outcome :=
  s.vec1 d a (s.f1 (fracOf s.rm s.ftz))

/-- Writes A times 2^B, rounded once. (R280) -/
def execFscalb (b : BitVec 8) (a : BitVec 8) (d : BitVec 7) (s : State) : Outcome :=
  s.vec2 4 d a b fun x y => s.f1 (fun n => fp32.scalb s.rm s.ftz n y.toInt) x

/-- Writes floor(log2 |A|) as an int32. (R280) -/
def execFgete (_b : BitVec 8) (a : BitVec 8) (d : BitVec 7) (s : State) : Outcome :=
  s.vec1 d a fun x => getExp (fp32.read s.ftz x.toNat)

/-- Adds a sign-extended 8-bit literal. (R283) -/
def execIaddk (k : BitVec 8) (a : BitVec 8) (d : BitVec 7) (s : State) : Outcome :=
  s.vecK d a fun x => (x + kS k, 0)

/-- Multiplies by a signed literal. (R283) -/
def execImulk (k : BitVec 8) (a : BitVec 8) (d : BitVec 7) (s : State) : Outcome :=
  s.vecK d a fun x => (x * kS k, 0)

/-- Bitwise AND with a zero-extended literal. (R283) -/
def execAndk (k : BitVec 8) (a : BitVec 8) (d : BitVec 7) (s : State) : Outcome :=
  s.vecK d a fun x => (x &&& kZ k, 0)

/-- Bitwise OR with a zero-extended literal. (R283) -/
def execOrk (k : BitVec 8) (a : BitVec 8) (d : BitVec 7) (s : State) : Outcome :=
  s.vecK d a fun x => (x ||| kZ k, 0)

/-- Bitwise exclusive-or with a zero-extended literal. (R283) -/
def execXork (k : BitVec 8) (a : BitVec 8) (d : BitVec 7) (s : State) : Outcome :=
  s.vecK d a fun x => (x ^^^ kZ k, 0)

/-- Shifts left by a literal count. (R283) -/
def execShlk (k : BitVec 5) (a : BitVec 8) (d : BitVec 7) (s : State) : Outcome :=
  s.vecK d a fun x => (x <<< k.toNat, 0)

/-- Shifts right with zero fill by a literal count. (R283) -/
def execShrk (k : BitVec 5) (a : BitVec 8) (d : BitVec 7) (s : State) : Outcome :=
  s.vecK d a fun x => (x >>> k.toNat, 0)

/-- Shifts right with sign fill by a literal count. (R283) -/
def execShrak (k : BitVec 5) (a : BitVec 8) (d : BitVec 7) (s : State) : Outcome :=
  s.vecK d a fun x => (x.sshiftRight k.toNat, 0)

/-- Signed minimum with a literal. (R283) -/
def execImink (k : BitVec 8) (a : BitVec 8) (d : BitVec 7) (s : State) : Outcome :=
  s.vecK d a fun x => (sminW x (kS k), 0)

/-- Signed maximum with a literal. (R283) -/
def execImaxk (k : BitVec 8) (a : BitVec 8) (d : BitVec 7) (s : State) : Outcome :=
  s.vecK d a fun x => (smaxW x (kS k), 0)

/-- Sets a predicate where A equals the literal. (R285) -/
def execIcmpeqk (k : BitVec 8) (a : BitVec 8) (p : BitVec 2) (s : State) : Outcome :=
  commit 4 s (s.predForm p [srcA a] fun i => (decide (s.read a i = kS k), 0))

/-- Sets a predicate where A is signed-less than the literal. (R285) -/
def execIcmpltk (k : BitVec 8) (a : BitVec 8) (p : BitVec 2) (s : State) : Outcome :=
  commit 4 s (s.predForm p [srcA a] fun i => ((s.read a i).slt (kS k), 0))

/-- Adds the FP32 value of a signed P4 literal. (R283) -/
def execFaddk (k : BitVec 8) (a : BitVec 8) (d : BitVec 7) (s : State) : Outcome :=
  s.vecK d a fun x => s.fadd x (kF k)

/-- Multiplies by the FP32 value of a signed P4 literal. (R283) -/
def execFmulk (k : BitVec 8) (a : BitVec 8) (d : BitVec 7) (s : State) : Outcome :=
  s.vecK d a fun x => s.fmul x (kF k)

/-- Replaces the low 16 bits of the destination with imm16. (R283) -/
def execLiml (i : BitVec 16) (d : BitVec 7) (s : State) : Outcome :=
  commit 4 s (s.vecForm d [] [thirdCode d] fun n => ((s.read (thirdCode d) n &&& 0xFFFF0000) ||| i.setWidth 32, 0))

/-- Writes imm16 shifted left by 16. (R283) -/
def execLimh (i : BitVec 16) (d : BitVec 7) (s : State) : Outcome :=
  s.vec0 d fun _ => i.setWidth 32 <<< 16

/-- Writes a sign-extended literal. (R283) -/
def execMovk (k : BitVec 8) (_a : BitVec 8) (d : BitVec 7) (s : State) : Outcome :=
  s.vec0 d fun _ => kS k

/-- Fused A times B plus vD, rounded once. (R284) -/
def execFfma (b : BitVec 8) (a : BitVec 8) (d : BitVec 7) (s : State) : Outcome :=
  s.vec3 d a b (s.f3 (fp32.fma s.rm s.ftz))

/-- Fused A times B minus vD. (R284) -/
def execFfms (b : BitVec 8) (a : BitVec 8) (d : BitVec 7) (s : State) : Outcome :=
  s.vec3 d a b (s.f3 fun x y z => fp32.fma s.rm s.ftz x y z.neg)

/-- Fused negated A times B plus vD. (R284) -/
def execFnfma (b : BitVec 8) (a : BitVec 8) (d : BitVec 7) (s : State) : Outcome :=
  s.vec3 d a b (s.f3 fun x y z => fp32.fma s.rm s.ftz x.neg y z)

/-- Packed FP16 fused multiply-add. (R284) -/
def execHfma2 (b : BitVec 8) (a : BitVec 8) (d : BitVec 7) (s : State) : Outcome :=
  s.vec3 d a b (pack3 fun x y z => fp16.fma s.rm s.ftz (fp16.read s.ftz x) (fp16.read s.ftz y) (fp16.read s.ftz z))

/-- Packed BF16 fused multiply-add. (R284) -/
def execBfma2 (b : BitVec 8) (a : BitVec 8) (d : BitVec 7) (s : State) : Outcome :=
  s.vec3 d a b (pack3 fun x y z => bf16.fma s.rm s.ftz (bf16.read s.ftz x) (bf16.read s.ftz y) (bf16.read s.ftz z))

/-- Low 32 bits of A times B plus vD. (R284) -/
def execImad (b : BitVec 8) (a : BitVec 8) (d : BitVec 7) (s : State) : Outcome :=
  s.vec3 d a b fun x y z => (x * y + z, 0)

/-- Interleaves three 10-bit coordinates into a Morton code. (R284) -/
def execBilv3 (b : BitVec 8) (a : BitVec 8) (d : BitVec 7) (s : State) : Outcome :=
  s.vec3 d a b fun x y z => (bilv3 x y z, 0)

/-- Inserts a bit field of A into vD. (R284) -/
def execBfi (b : BitVec 8) (a : BitVec 8) (d : BitVec 7) (s : State) : Outcome :=
  s.vec3 d a b fun x y z => (bfi x y z, 0)

/-- Sets a predicate where A equals B. (R285) -/
def execIcmpeq (b : BitVec 8) (a : BitVec 8) (p : BitVec 2) (s : State) : Outcome :=
  s.cmp2 p a b fun x y => (decide (x = y), 0)

/-- Sets a predicate where A differs from B. (R285) -/
def execIcmpne (b : BitVec 8) (a : BitVec 8) (p : BitVec 2) (s : State) : Outcome :=
  s.cmp2 p a b fun x y => (decide (x ≠ y), 0)

/-- Signed less-than compare into a predicate. (R285) -/
def execIcmplt (b : BitVec 8) (a : BitVec 8) (p : BitVec 2) (s : State) : Outcome :=
  s.cmp2 p a b fun x y => (x.slt y, 0)

/-- Signed less-or-equal compare into a predicate. (R285) -/
def execIcmple (b : BitVec 8) (a : BitVec 8) (p : BitVec 2) (s : State) : Outcome :=
  s.cmp2 p a b fun x y => (x.sle y, 0)

/-- Natural less-than compare into a predicate. (R285) -/
def execIcmpltn (b : BitVec 8) (a : BitVec 8) (p : BitVec 2) (s : State) : Outcome :=
  s.cmp2 p a b fun x y => (x.ult y, 0)

/-- Natural less-or-equal compare into a predicate. (R285) -/
def execIcmplen (b : BitVec 8) (a : BitVec 8) (p : BitVec 2) (s : State) : Outcome :=
  s.cmp2 p a b fun x y => (x.ule y, 0)

/-- FP32 equality compare into a predicate. (R285) -/
def execFcmpeq (b : BitVec 8) (a : BitVec 8) (p : BitVec 2) (s : State) : Outcome :=
  s.cmp2 p a b (s.fcmp true numEq)

/-- FP32 inequality compare into a predicate. (R285) -/
def execFcmpne (b : BitVec 8) (a : BitVec 8) (p : BitVec 2) (s : State) : Outcome :=
  s.cmp2 p a b (s.fcmp true fun x y => !numEq x y)

/-- FP32 less-than compare into a predicate. (R285) -/
def execFcmplt (b : BitVec 8) (a : BitVec 8) (p : BitVec 2) (s : State) : Outcome :=
  s.cmp2 p a b (s.fcmp false Num.lt)

/-- FP32 less-or-equal compare into a predicate. (R285) -/
def execFcmple (b : BitVec 8) (a : BitVec 8) (p : BitVec 2) (s : State) : Outcome :=
  s.cmp2 p a b (s.fcmp false fun x y => x.lt y || numEq x y)

/-- Sets a predicate where either operand is NaN. (R285) -/
def execFcmpun (b : BitVec 8) (a : BitVec 8) (p : BitVec 2) (s : State) : Outcome :=
  s.cmp2 p a b (s.fcmp true fun x y => x.isNan || y.isNan)

/-- Combines two predicates through a 4-bit truth table. (R285) -/
def execPlop (t : BitVec 4) (y : BitVec 2) (x : BitVec 2) (p : BitVec 2) (s : State) : Outcome :=
  commit 4 s (s.predForm p [] fun i => (t.getLsbD (2 * (s.pred x.toNat i).toNat + (s.pred y.toNat i).toNat), 0))

/-- Converts between FP32, FP16, BF16 and integer formats. (R286) -/
def execCvt (m : BitVec 2) (z : BitVec 3) (t : BitVec 3) (a : BitVec 8) (d : BitVec 7) (s : State) : Outcome :=
  s.vec1 d a (s.cvt m.toNat z.toNat t.toNat)

/-- Rounds FP32 into a binary8 code, optionally saturating or stochastic. (R286) -/
def execCvt8 (r : BitVec 1) (t : BitVec 1) (f : BitVec 1) (p : BitVec 5) (a : BitVec 8) (d : BitVec 7) (s : State) : Outcome :=
  commit 4 s (match s.vecForm d [srcA a] [] (fun i => s.cvt8 (r == 1) (t == 1) (f == 1) p.toNat i (s.read a i)) with
    | .retire u => .retire (s.countUses (r == 1) u)
    | .after x u => .after x (s.countUses (r == 1) u)
    | x => x)

/-- Decodes a binary8 code exactly to FP32. (R286) -/
def execCvt8n (f : BitVec 1) (p : BitVec 5) (a : BitVec 8) (d : BitVec 7) (s : State) : Outcome :=
  s.vec1 d a (s.cvt8n (f == 1) p.toNat)

/-- Writes a predicate bit as 0 or 1. (R285) -/
def execMovp (_b : BitVec 8) (p : BitVec 2) (d : BitVec 7) (s : State) : Outcome :=
  s.vec0 d fun i => if s.pred p.toNat i then 1 else 0

/-- Selects A where p0 is set, else B. (R284) -/
def execSelP0 (b : BitVec 8) (a : BitVec 8) (d : BitVec 7) (s : State) : Outcome :=
  commit 4 s (s.vecForm d [srcA a, srcB b] [] fun i => (if s.pred 0 i then s.read a i else s.read b i, 0))

/-- Selects A where p1 is set, else B. (R284) -/
def execSelP1 (b : BitVec 8) (a : BitVec 8) (d : BitVec 7) (s : State) : Outcome :=
  commit 4 s (s.vecForm d [srcA a, srcB b] [] fun i => (if s.pred 1 i then s.read a i else s.read b i, 0))

/-- Selects A where p2 is set, else B. (R284) -/
def execSelP2 (b : BitVec 8) (a : BitVec 8) (d : BitVec 7) (s : State) : Outcome :=
  commit 4 s (s.vecForm d [srcA a, srcB b] [] fun i => (if s.pred 2 i then s.read a i else s.read b i, 0))

/-- Selects A where p3 is set, else B. (R284) -/
def execSelP3 (b : BitVec 8) (a : BitVec 8) (d : BitVec 7) (s : State) : Outcome :=
  commit 4 s (s.vecForm d [srcA a, srcB b] [] fun i => (if s.pred 3 i then s.read a i else s.read b i, 0))

/-- 16-bit move, as IADD D, S, zero. (R243) -/
def execMov (x : BitVec 5) (d : BitVec 6) (s : State) : Outcome :=
  commit 2 s (s.vecForm (d16 d) [⟨2, x.toNat, s16 x⟩] [] fun i => (s.read (s16 x) i, 0))

/-- 16-bit form of IADD. (R243) -/
def execIadd16 (x : BitVec 5) (d : BitVec 6) (s : State) : Outcome :=
  s.vec16 x d fun l r => (l + r, 0)

/-- 16-bit form of ISUB. (R243) -/
def execIsub16 (x : BitVec 5) (d : BitVec 6) (s : State) : Outcome :=
  s.vec16 x d fun l r => (l - r, 0)

/-- 16-bit form of IMUL. (R243) -/
def execImul16 (x : BitVec 5) (d : BitVec 6) (s : State) : Outcome :=
  s.vec16 x d fun l r => (l * r, 0)

/-- 16-bit form of AND. (R243) -/
def execAnd16 (x : BitVec 5) (d : BitVec 6) (s : State) : Outcome :=
  s.vec16 x d fun l r => (l &&& r, 0)

/-- 16-bit form of OR. (R243) -/
def execOr16 (x : BitVec 5) (d : BitVec 6) (s : State) : Outcome :=
  s.vec16 x d fun l r => (l ||| r, 0)

/-- 16-bit form of XOR. (R243) -/
def execXor16 (x : BitVec 5) (d : BitVec 6) (s : State) : Outcome :=
  s.vec16 x d fun l r => (l ^^^ r, 0)

/-- 16-bit form of SHL. (R243) -/
def execShl16 (x : BitVec 5) (d : BitVec 6) (s : State) : Outcome :=
  s.vec16 x d fun l r => (shl l r, 0)

/-- 16-bit form of SHR. (R243) -/
def execShr16 (x : BitVec 5) (d : BitVec 6) (s : State) : Outcome :=
  s.vec16 x d fun l r => (shr l r, 0)

/-- 16-bit form of SHRA. (R243) -/
def execShra16 (x : BitVec 5) (d : BitVec 6) (s : State) : Outcome :=
  s.vec16 x d fun l r => (shra l r, 0)

/-- 16-bit form of FADD. (R243) -/
def execFadd16 (x : BitVec 5) (d : BitVec 6) (s : State) : Outcome :=
  s.vec16 x d s.fadd

/-- 16-bit form of FSUB. (R243) -/
def execFsub16 (x : BitVec 5) (d : BitVec 6) (s : State) : Outcome :=
  s.vec16 x d s.fsub

/-- 16-bit form of FMUL. (R243) -/
def execFmul16 (x : BitVec 5) (d : BitVec 6) (s : State) : Outcome :=
  s.vec16 x d s.fmul

/-- 16-bit form of FMIN. (R243) -/
def execFmin16 (x : BitVec 5) (d : BitVec 6) (s : State) : Outcome :=
  s.vec16 x d s.fmin

/-- 16-bit form of FMAX. (R243) -/
def execFmax16 (x : BitVec 5) (d : BitVec 6) (s : State) : Outcome :=
  s.vec16 x d s.fmax

/-- 16-bit select: D takes S where p0 is set. (R243) -/
def execSel16 (x : BitVec 5) (d : BitVec 6) (s : State) : Outcome :=
  commit 2 s (s.vecForm (d16 d) [⟨2, x.toNat, s16 x⟩] [thirdCode (d16 d)] fun i => (if s.pred 0 i then s.read (s16 x) i else s.read (thirdCode (d16 d)) i, 0))

end Sys2Proof.Machine
end

