-- ==== Sys2Proof/Machine/Cross.lean ====
section
/-! DEFINITION. Cross-lane forms, reductions and scans (19_isa_vector.md R287 to R291, 02_numbers.md R41, R42). -/
namespace Sys2Proof.Machine
open Sys2Proof

/-- The lanes of L, which a serial EXIT leaves as it is (R99, R101), as a list. -/
def State.ownLanes (s : State) : List Nat := (List.range s.grp.width).filter s.ent.l.getLsbD
/-- The lanes of the group's other entities: those of no L have exited (R288). -/
def State.foreignLanes (s : State) : List Nat := (List.range s.grp.width).filter fun i => s.grp.sibs.any fun e => e.live && e.l.getLsbD i

/-- The value that will fill a destination, if one is pending there. -/
def Group.fillFor (g : Group) (p : Nat → Dest → Bool) : Option Word :=
  (g.ops.filter fun o => !o.done).findSome? fun o => (o.fills.find? fun f => p o.id f.dest).map fun f => f.val.setWidth 32

/-- What will fill an operand of lane j, if it is pending (R114). -/
def State.filling (s : State) (c : BitVec 8) (j : Nat) : Option Word :=
  match operand c with
  | .v n => s.grp.fillFor fun _ d => d = .v j n
  | .q n => match ((s.grp.lane j).qAt n).tag with
    | some (o, w) => s.grp.fillFor fun i d => i = o && d = .q j w
    | none => none
  | _ => none

/-- A of lane j as a cross-lane form reads it (R288); bit j of the choice selects the filled value of a foreign pending lane. -/
def State.peek (s : State) (choice : Nat) (c : BitVec 8) (j : Nat) : Word :=
  match s.filling c j with
  | some x => if s.foreignLanes.contains j && choice.testBit j then x else s.read c j
  | none => s.read c j

/-- The free choice for foreign pending lanes, taken only where there is one (R288, notes/assumptions/3.md). -/
def State.peekChoice (s : State) (c : BitVec 8) : Nat × State :=
  if s.foreignLanes.any fun j => (s.filling c j).isSome then s.free else (0, s)

/-- The checks of a cross-lane form (R287, R289): D, A, then B, which `uni` requires to be uniform; A pending in no lane of L. -/
def State.crossCheck (s : State) (d : BitVec 7) (a : BitVec 8) (b : Option (BitVec 8 × Bool)) : Option Issue :=
  if s.dBad d then some (s.badField 0 d.toNat)
  else if s.srcBad a then some (s.badField 1 a.toNat)
  else match b with
    | none => if s.pendingIn s.ownLanes a || s.pendingD s.activeLanes d then some (.wait .scoreboard s) else none
    | some (b, u) =>
      if (if u then s.uniBad b else s.srcBad b) then some (s.badField 2 b.toNat)
      else if s.pendingIn s.ownLanes a || s.pendingIn s.activeLanes b || s.pendingD s.activeLanes d then some (.wait .scoreboard s)
      else none

/-- A permuting form (R289): lane i receives A of lane f i, or its own where f gives none in 0 to G − 1. -/
def State.crossForm (s : State) (d : BitVec 7) (a : BitVec 8) (b : Option (BitVec 8 × Bool)) (f : Nat → Nat → Option Nat) : Outcome :=
  commit 4 s <| match s.crossCheck d a b with
    | some i => i
    | none =>
      let (c, t) := s.peekChoice a
      let v (i : Nat) : Nat := match b with | some (b, _) => (s.read b i).toNat | none => 0
      .retire (t.vecWrite d fun i => match f i (v i) with
        | some j => if j < s.grp.width then s.peek c a j else s.read a i
        | none => s.read a i)

/-- The reduction operations of R250, with their identities (R290). -/
def State.redOp (s : State) (o : Nat) : Word → Word → Word × Flags :=
  match o with
  | 0 => fun x y => (x + y, 0)
  | 1 => s.fadd
  | 2 => fun x y => (sminW x y, 0)
  | 3 => fun x y => (uminW x y, 0)
  | 4 => fun x y => (smaxW x y, 0)
  | 5 => fun x y => (umaxW x y, 0)
  | 6 => s.fmin
  | 7 => s.fmax
  | 8 => fun x y => (x &&& y, 0)
  | 9 => fun x y => (x ||| y, 0)
  | _ => fun x y => (x ^^^ y, 0)

def redIdentity (o : Nat) : Word :=
  match o with
  | 2 => 0x7FFFFFFF
  | 3 => 0xFFFFFFFF
  | 4 => 0x80000000
  | 6 => 0x7F800000
  | 7 => 0xFF800000
  | 8 => 0xFFFFFFFF
  | _ => 0

/-- Combines two values of which either may be absent, a the left operand (R41). -/
def combine (f : Word → Word → Word × Flags) : Option Word → Option Word → Option Word × Flags
  | none, b => (b, 0)
  | a, none => (a, 0)
  | some x, some y => let r := f x y; (some r.1, r.2)

/-- One step of the tree: neighbours are combined. -/
def pairUp (f : Word → Word → Word × Flags) : List (Option Word) → List (Option Word) × Flags
  | a :: b :: t =>
    let r := combine f a b
    let q := pairUp f t
    (r.1 :: q.1, r.2 ||| q.2)
  | l => (l, 0)

/-- The tree of R41 over at most 2^n values. A value that meets no other is passed on as it is, without canonicalisation or flag
(DESIGN CHOICE, notes/assumptions/62.md). -/
def redTree (f : Word → Word → Word × Flags) : Nat → List (Option Word) → Option Word × Flags
  | 0, l => (l.headD none, 0)
  | n + 1, l => let q := pairUp f l; let r := redTree f n q.1; (r.1, q.2 ||| r.2)

/-- One step of the scan at distance 2^k (R42). A value that meets no other is passed on as it is (DESIGN CHOICE,
notes/assumptions/62.md). -/
def scanStep (f : Word → Word → Word × Flags) (dist : Nat) (l : List (Option Word)) : List (Option Word) × Flags :=
  let r := (List.range l.length).map fun i => if i < dist then (l.getD i none, 0) else combine f (l.getD (i - dist) none) (l.getD i none)
  (r.map Prod.fst, (r.map Prod.snd).foldl (· ||| ·) 0)

/-- The scan of R42: steps 0 to n − 1. -/
def scanAll (f : Word → Word → Word × Flags) : Nat → Nat → List (Option Word) → List (Option Word) × Flags
  | 0, _, l => (l, 0)
  | n + 1, dist, l => let q := scanStep f dist l; let r := scanAll f n (2 * dist) q.1; (r.1, q.2 ||| r.2)

/-- The values of the active lanes. -/
def State.laneVals (s : State) (a : BitVec 8) : List (Option Word) :=
  (List.range s.grp.width).map fun i => if s.active i then some (s.read a i) else none

/-- The checks of a reduction; it also writes s63. -/
def State.redCheck (s : State) (d : BitVec 7) (a : BitVec 8) : Option Issue :=
  match s.crossCheck d a none with
  | some i => some i
  | none => if s.pendingS 63 || s.pendingD s.ownLanes d then some (.wait .scoreboard s) else none

/-- s63 and SCC.E after a reduction (R290). -/
def State.redSide (s : State) (total : Word) : State :=
  (s.setS 63 total).setEnt fun e => { e with scc := { e.scc with e := decide (s.activeLanes = []) } }

/-- Writes and pushes r in every lane of L, active or not (R290). -/
def State.writeL (s : State) (d : BitVec 7) (r : Word) : State :=
  s.mapLanes fun i l =>
    if s.inL i then
      let l := if d.toNat % 64 ≠ 0x3F then l.setReg (d.toNat % 64) r else l
      if d.getLsbD 6 then l else l.push { val := r }
    else l

/-- Reads A from a per-lane or uniform source lane. (R289) -/
def execXshf (b : BitVec 8) (a : BitVec 8) (d : BitVec 7) (s : State) : Outcome :=
  s.crossForm d a (some (b, false)) fun _ v => some v

/-- Reads A from lane i plus d. (R289) -/
def execXdn (b : BitVec 8) (a : BitVec 8) (d : BitVec 7) (s : State) : Outcome :=
  s.crossForm d a (some (b, true)) fun i v => some (i + v)

/-- Reads A from lane i minus d. (R289) -/
def execXup (b : BitVec 8) (a : BitVec 8) (d : BitVec 7) (s : State) : Outcome :=
  s.crossForm d a (some (b, true)) fun i v => if v ≤ i then some (i - v) else none

/-- Reads A from lane (i plus d) mod G. (R289) -/
def execXrot (b : BitVec 8) (a : BitVec 8) (d : BitVec 7) (s : State) : Outcome :=
  s.crossForm d a (some (b, true)) fun i v => some ((i + v) % s.grp.width)

/-- Reads A from lane i XOR m. (R289) -/
def execXbfly (b : BitVec 8) (a : BitVec 8) (d : BitVec 7) (s : State) : Outcome :=
  s.crossForm d a (some (b, true)) fun i v => some (i ^^^ v)

/-- Tree reduction over active lanes, writing all lanes of L and s63. (R290) -/
def execXred (o : BitVec 4) (a : BitVec 8) (d : BitVec 7) (s : State) : Outcome :=
  commit 4 s <| match s.redCheck d a with
    | some i => i
    | none =>
      let f := s.redOp o.toNat
      let r := redTree f 6 (s.laneVals a)
      let x := r.1.getD (redIdentity o.toNat)
      let t := ((s.writeL d x).redSide x).raise r.2
      s.retireFlags t s.activeLanes fun _ => r.2

/-- Inclusive or exclusive scan over active lanes. (R291) -/
def execXscan (e : BitVec 1) (o : BitVec 4) (a : BitVec 8) (d : BitVec 7) (s : State) : Outcome :=
  commit 4 s <| match s.redCheck d a with
    | some i => i
    | none =>
      let f := s.redOp o.toNat
      let r := scanAll f 6 1 (s.laneVals a)
      let id := redIdentity o.toNat
      let below (i : Nat) : Option Nat := (s.activeLanes.filter fun j => j < i).getLast?
      let val (i : Nat) : Word := (r.1.getD i none).getD id
      let x (i : Nat) : Word := if e = 1 then (match below i with | some j => val j | none => id) else val i
      let total := if s.activeLanes = [] then id else val (s.grp.width - 1)
      let t := ((s.vecWrite d x).redSide total).raise r.2
      s.retireFlags t s.activeLanes fun _ => r.2

/-- Writes half of EM AND a predicate. (R289) -/
def execXbal (h : BitVec 1) (p : BitVec 2) (d : BitVec 7) (s : State) : Outcome :=
  let m := s.predMask p.toNat
  commit 4 s (s.vecForm d [] [] fun _ => ((m >>> (32 * h.toNat)).setWidth 32, 0))

/-- Broadcasts A from a uniform lane. (R289) -/
def execXbcast (b : BitVec 8) (a : BitVec 8) (d : BitVec 7) (s : State) : Outcome :=
  s.crossForm d a (some (b, true)) fun _ v => some v

/-- Broadcasts A from the lowest active lane. (R289) -/
def execXfirst (a : BitVec 8) (d : BitVec 7) (s : State) : Outcome :=
  s.crossForm d a none fun _ _ => s.activeLanes.head?

end Sys2Proof.Machine
end

