-- ==== Sys2Proof/Machine/Scalar.lean ====
section
/-! DEFINITION. Scalar arithmetic, special registers and team words (18_isa_scalar.md R258 to R264). -/
namespace Sys2Proof.Machine
open Sys2Proof

/-- A class 4 pair operand (R246, R262): an even s code. -/
def sPairBad (c : BitVec 8) : Bool := !(c.toNat % 2 = 0 && 0x50 ≤ c.toNat && c.toNat ≤ 0x8E)

/-- 64-bit sum and difference with c and v taken at bit 63 (R262). -/
def add64 (x y : BitVec 64) : BitVec 64 × Bool × Bool :=
  (x + y, decide (2 ^ 64 ≤ x.toNat + y.toNat), decide ((x + y).toInt ≠ x.toInt + y.toInt))
def sub64 (x y : BitVec 64) : BitVec 64 × Bool × Bool :=
  (x - y, decide (y.toNat ≤ x.toNat), decide ((x - y).toInt ≠ x.toInt - y.toInt))

/-- The s registers that a pair with its even register n writes in class 4: never s63 (R260, R262, notes/assumptions/8.md). -/
def pairDest (n : Nat) : List Nat := if n = 0x3F then [] else if n = 62 then [62] else [n, n + 1]

/-- SADDD and SSUBD (R262). -/
def State.scPair (s : State) (d : BitVec 7) (a b : BitVec 8) (f : BitVec 64 → BitVec 64 → BitVec 64 × Bool × Bool) : Outcome :=
  let n := d.toNat % 64
  let dst := pairDest n
  commit 4 s <|
    if n % 2 = 1 ∧ n ≠ 0x3F then s.badField 0 d.toNat
    else match firstBad sPairBad [srcA a, srcB b] with
      | some x => s.badField x.field x.val
      | none =>
        if [a, codePlus a 1, b, codePlus b 1].any (s.pendingIn []) || dst.any (fun k => s.pendingS k) then .wait .scoreboard s
        else
          let r := f (s.read64 a 0) (s.read64 b 0)
          let t := dst.foldl (fun t k => t.setS k (if k = n then r.1.setWidth 32 else (r.1 >>> 32).setWidth 32)) s
          .retire (if d.getLsbD 6 then t.setEnt fun e => { e with scc := e.scc.set (decide (r.1 = 0)) (r.1.getLsbD 63) r.2.1 r.2.2 } else t)

/-- NAMED as SRD reads it (R120). -/
def Group.named (g : Group) : Word := BitVec.ofNat 32 (g.scopes.length * 65536 + g.peak * 256 + g.window)

/-- Where the team's window starts on the group's core (R108, R131). -/
def State.spbase (s : State) : Nat := if s.core.num = s.team.core then s.team.base else s.team.base2

/-- The special register of a number (R108): none for 0x1F and above 0x29. -/
def State.special (s : State) (n : Nat) : Option Word :=
  let r := s.grp.treg
  match n with
  | 0x00 => some (BitVec.ofNat 32 s.grp.width)
  | 0x01 => some (BitVec.ofNat 32 s.grp.gid)
  | 0x02 => some s.team.x
  | 0x03 => some s.team.y
  | 0x04 => some s.team.z
  | 0x05 => some s.team.gx
  | 0x06 => some s.team.gy
  | 0x07 => some s.team.gz
  | 0x08 => some (BitVec.ofNat 32 s.team.groups)
  | 0x09 => some (BitVec.ofNat 32 s.core.num)
  | 0x0A => some (BitVec.ofNat 32 s.arbour)
  | 0x0B => some (BitVec.ofNat 32 (s.core.num % 104 / 8))
  | 0x0C => some (BitVec.ofNat 32 s.grp.loc.part)
  | 0x0D => some (BitVec.ofNat 32 s.team.ctx)
  | 0x0E => some (BitVec.ofNat 32 s.team.queue)
  | 0x0F => some s.team.launch
  | 0x10 => some (BitVec.ofNat 32 s.dev.tick)
  | 0x11 => some s.ent.tickHi
  | 0x12 => some s.grp.gs
  | 0x13 => some s.grp.gc
  | 0x14 => some s.ent.scc.toWord
  | 0x15 => some (s.ent.em.setWidth 32)
  | 0x16 => some ((s.ent.em >>> 32).setWidth 32)
  | 0x17 => some s.grp.mc
  | 0x18 => some s.grp.mc2
  | 0x19 => some s.grp.named
  | 0x1A => some (BitVec.ofNat 32 s.spbase)
  | 0x1B => some (BitVec.ofNat 32 s.team.scratch)
  | 0x1C => some (BitVec.ofNat 32 (s.team.producer.getD 0xFFFFFFFF))
  | 0x1D => some (match s.grp.rast with | some j => BitVec.ofNat 32 j.draw | none => 0)
  | 0x1E => some s.grp.seed
  | 0x20 => some r.cause
  | 0x21 => some r.pc
  | 0x22 => some r.first
  | 0x23 => some r.fault
  | 0x24 => some r.faultLo
  | 0x25 => some r.faultMid
  | 0x26 => some r.faultHi
  | 0x27 => some r.lanesLo
  | 0x28 => some r.lanesHi
  | 0x29 => some r.data
  | _ => none

/-- EM as EMSET leaves it (R268): m AND L AND NOT the lanes parked in the deferral stack. -/
def Entity.parked (e : Entity) : Mask := e.defs.foldl (fun m d => m ||| d.dmask) 0
def State.emset (s : State) (m : Mask) : State := s.setEM (m &&& ~~~ s.ent.parked)

/-- The registers SWR may write, with its effect (R263); none for a number that is read only or rejected. -/
def State.swr (s : State) (n : Nat) (x : Word) : Option State :=
  match n with
  | 0x12 => some { s with grp := { s.grp with gs := x &&& 0x7F } }
  | 0x13 => some { s with grp := { s.grp with gc := x &&& 0x7F7 } }
  | 0x14 => some (s.setEnt fun e => { e with scc := Scc.ofWord x })
  | 0x15 => some (s.emset ((s.ent.em >>> 32).setWidth 32 ++ x))
  | 0x16 => some (s.emset (x ++ s.ent.em.setWidth 32))
  | 0x17 => some { s with grp := { s.grp with mc := x &&& 0xFFFFFF } }
  | 0x18 => some { s with grp := { s.grp with mc2 := x } }
  | 0x1E => some { s with grp := { s.grp with seed := x } }
  | _ => none

/-- Scalar addition, optionally setting SCC. (R260) -/
def execSadd (b : BitVec 8) (a : BitVec 8) (d : BitVec 7) (s : State) : Outcome :=
  s.sc2 d a b addRes

/-- Scalar subtraction. (R260) -/
def execSsub (b : BitVec 8) (a : BitVec 8) (d : BitVec 7) (s : State) : Outcome :=
  s.sc2 d a b subRes

/-- Scalar low multiply. (R260) -/
def execSmul (b : BitVec 8) (a : BitVec 8) (d : BitVec 7) (s : State) : Outcome :=
  s.sc2 d a b mulRes

/-- Scalar signed high multiply. (R260) -/
def execSmulh (b : BitVec 8) (a : BitVec 8) (d : BitVec 7) (s : State) : Outcome :=
  s.sc2 d a b fun x y => { r := mulHi x y }

/-- Scalar natural high multiply. (R260) -/
def execSmulhn (b : BitVec 8) (a : BitVec 8) (d : BitVec 7) (s : State) : Outcome :=
  s.sc2 d a b fun x y => { r := mulHiN x y }

/-- Scalar signed division. (R261) -/
def execSdiv (b : BitVec 8) (a : BitVec 8) (d : BitVec 7) (s : State) : Outcome :=
  s.sc2 d a b fun x y => divRes (divS x y)

/-- Scalar natural division. (R261) -/
def execSdivn (b : BitVec 8) (a : BitVec 8) (d : BitVec 7) (s : State) : Outcome :=
  s.sc2 d a b fun x y => divRes (divN x y)

/-- Scalar signed remainder. (R261) -/
def execSrem (b : BitVec 8) (a : BitVec 8) (d : BitVec 7) (s : State) : Outcome :=
  s.sc2 d a b fun x y => divRes (remS x y)

/-- Scalar natural remainder. (R261) -/
def execSremn (b : BitVec 8) (a : BitVec 8) (d : BitVec 7) (s : State) : Outcome :=
  s.sc2 d a b fun x y => divRes (remN x y)

/-- Scalar signed minimum. (R260) -/
def execSmin (b : BitVec 8) (a : BitVec 8) (d : BitVec 7) (s : State) : Outcome :=
  s.sc2 d a b fun x y => { r := sminW x y }

/-- Scalar natural minimum. (R260) -/
def execSminn (b : BitVec 8) (a : BitVec 8) (d : BitVec 7) (s : State) : Outcome :=
  s.sc2 d a b fun x y => { r := uminW x y }

/-- Scalar signed maximum. (R260) -/
def execSmax (b : BitVec 8) (a : BitVec 8) (d : BitVec 7) (s : State) : Outcome :=
  s.sc2 d a b fun x y => { r := smaxW x y }

/-- Scalar natural maximum. (R260) -/
def execSmaxn (b : BitVec 8) (a : BitVec 8) (d : BitVec 7) (s : State) : Outcome :=
  s.sc2 d a b fun x y => { r := umaxW x y }

/-- Scalar bitwise AND. (R260) -/
def execSand (b : BitVec 8) (a : BitVec 8) (d : BitVec 7) (s : State) : Outcome :=
  s.sc2 d a b fun x y => { r := x &&& y }

/-- Scalar bitwise OR. (R260) -/
def execSor (b : BitVec 8) (a : BitVec 8) (d : BitVec 7) (s : State) : Outcome :=
  s.sc2 d a b fun x y => { r := x ||| y }

/-- Scalar bitwise exclusive-or. (R260) -/
def execSxor (b : BitVec 8) (a : BitVec 8) (d : BitVec 7) (s : State) : Outcome :=
  s.sc2 d a b fun x y => { r := x ^^^ y }

/-- Scalar left shift. (R260) -/
def execSshl (b : BitVec 8) (a : BitVec 8) (d : BitVec 7) (s : State) : Outcome :=
  s.sc2 d a b shlRes

/-- Scalar right shift with zero fill. (R260) -/
def execSshr (b : BitVec 8) (a : BitVec 8) (d : BitVec 7) (s : State) : Outcome :=
  s.sc2 d a b shrRes

/-- Scalar right shift with sign fill. (R260) -/
def execSshra (b : BitVec 8) (a : BitVec 8) (d : BitVec 7) (s : State) : Outcome :=
  s.sc2 d a b shraRes

/-- Scalar leading-zero count. (R260) -/
def execSclz (_b : BitVec 8) (a : BitVec 8) (d : BitVec 7) (s : State) : Outcome :=
  s.sc1 d a fun x => { r := clz x }

/-- Scalar population count. (R260) -/
def execSpopc (_b : BitVec 8) (a : BitVec 8) (d : BitVec 7) (s : State) : Outcome :=
  s.sc1 d a fun x => { r := popc x }

/-- Scalar bit-field extract. (R260) -/
def execSbfx (b : BitVec 8) (a : BitVec 8) (d : BitVec 7) (s : State) : Outcome :=
  s.sc2 d a b fun x y => { r := bfx x y }

/-- Scalar move. (R260) -/
def execSmov (_b : BitVec 8) (a : BitVec 8) (d : BitVec 7) (s : State) : Outcome :=
  s.sc1 d a fun x => { r := x }

/-- Replaces the low 16 bits of an s register with imm16. (R260) -/
def execSlil (i : BitVec 16) (d : BitVec 7) (s : State) : Outcome :=
  commit 4 s (s.scForm d [] [] { r := ((if d.toNat % 64 = 0x3F then 0 else s.sreg (d.toNat % 64)) &&& 0xFFFF0000) ||| i.setWidth 32 })

/-- Writes imm16 shifted left by 16 to an s register. (R260) -/
def execSlih (i : BitVec 16) (d : BitVec 7) (s : State) : Outcome :=
  commit 4 s (s.scForm d [] [] { r := i.setWidth 32 <<< 16 })

/-- Scalar 64-bit pair addition. (R262) -/
def execSaddd (b : BitVec 8) (a : BitVec 8) (d : BitVec 7) (s : State) : Outcome :=
  s.scPair d a b add64

/-- Scalar 64-bit pair subtraction. (R262) -/
def execSsubd (b : BitVec 8) (a : BitVec 8) (d : BitVec 7) (s : State) : Outcome :=
  s.scPair d a b sub64

/-- Sets SCC as a subtraction would, and writes no register. (R262) -/
def execScmp (b : BitVec 8) (a : BitVec 8) (s : State) : Outcome :=
  s.sc2 0x7F a b subRes

/-- Reads a special register into an s register. (R263) -/
def execSrd (_b : BitVec 8) (a : BitVec 8) (d : BitVec 7) (s : State) : Outcome :=
  commit 4 s <| match s.special a.toNat with
    | none => s.badField 1 a.toNat
    | some x =>
      match s.scForm d [] [] { r := x } with
      | .retire t => .retire (if a.toNat = 0x10 then t.setEnt fun e => { e with tickHi := BitVec.ofNat 32 (s.dev.tick / 2 ^ 32) } else t)
      | i => i

/-- Writes a special register with its own side effects. (R263) -/
def execSwr (b : BitVec 8) (a : BitVec 8) (s : State) : Outcome :=
  commit 4 s <| match s.swr a.toNat 0 with
    | none => s.badField 1 a.toNat
    | some _ => match s.scCheck [srcB b] [] with
      | some i => i
      | none => .retire (((s.swr a.toNat (s.uni b)).getD s).dirty)

/-- Writes a team word. (R264) -/
def execWset (_b : BitVec 8) (a : BitVec 8) (n : BitVec 4) (s : State) : Outcome :=
  commit 4 s <| match s.scCheck [srcA a] [] with
    | some i => i
    | none => .retire ((s.setW n.toNat (s.uni a)).dirty)

/-- Adds to a team word. (R264) -/
def execWadd (_b : BitVec 8) (a : BitVec 8) (n : BitVec 4) (s : State) : Outcome :=
  commit 4 s <| match s.scCheck [srcA a] [] with
    | some i => i
    | none => .retire ((s.setW n.toNat (s.uni a) true).dirty)

end Sys2Proof.Machine
end

