-- ==== Sys2Proof/Machine/Control.lean ====
section
/-! DEFINITION. Branches, divergence, calls, masks, waits, scopes, traps by instruction, fences and base registers
(06_group.md R99 to R102, 07_registers.md R117, R118, R125, 18_isa_scalar.md R265 to R273, 20_isa_memory.md R302, R303). -/
namespace Sys2Proof.Machine
open Sys2Proof

/-- The target of a class 6 form (R249, R266). -/
def State.target (s : State) (o : BitVec 23) : Word := s.ent.pc + (o.signExtend 32 <<< 1)

/-- A branch that is taken when b holds. -/
def State.branch (s : State) (o : BitVec 23) (b : Bool) : Outcome := commit 4 s (if b then .goto (s.target o) s else .retire s)

/-! ## Divergence (R100, R101) -/

/-- The lowest number below n that is not used. -/
def lowestFree (used : List Nat) : Nat → Option Nat
  | 0 => none
  | n + 1 => (lowestFree used n).or (if used.contains n then none else some n)

/-- The holds that have a place in a partition of a core, one for each place (R365). -/
def State.holdsAt (s : State) (core part : Nat) : List Hold :=
  s.allCores.flatMap fun k => k.holds.flatMap fun h => (h.places.filter fun l => l.core = core && l.part = part).map fun _ => h

/-- The entity numbers in use in a partition of the core in front. -/
def State.entsUsed (s : State) (part : Nat) : List Nat :=
  (((s.coreGroups.filter fun g => g.loc.part = part).flatMap Group.sibs).filter Entity.live).map Entity.num

/-- The lowest free entity slot of the partition in front (R81, R100); held places keep theirs. -/
def State.freeEntity (s : State) : Option Nat :=
  let used := s.entsUsed s.grp.loc.part
  if used.length + (s.holdsAt s.core.num s.grp.loc.part).length < 32 then lowestFree used 32 else none

/-- The lowest free entry of the split table (R100). -/
def Group.freeSplit (g : Group) : Option Nat :=
  lowestFree ((List.range 8).filter fun i => (g.split.getD i {}).valid) 8

def State.setSplit (s : State) (e : Nat) (k : SplitEntry) : State := { s with grp := { s.grp with split := putAt {} s.grp.split e k } }

/-- Splits the entity in front at a BRV with T and entry e, entity n (R100); what the entity issued before precedes both (R148). -/
def State.splitAt (s : State) (p : Nat) (t : Mask) (target : Word) (e n : Nat) : State :=
  let pm := laneMask (s.pred p) s.grp.width
  let x := { s.ent with parent := some e, idem := none }
  let child : Entity :=
    { num := n, live := true, pc := target, em := t, l := s.ent.l &&& pm, gone := s.ent.gone, scc := s.ent.scc, calls := s.ent.calls, parent := some e, tickHi := s.ent.tickHi
      prior := (s.grp.earlier s.ent).map Op.id }
  let s := s.setSplit e { valid := true, live := 2, parent := s.ent.parent }
  { s with ent := { x with em := x.em &&& ~~~ pm, l := x.l &&& ~~~ pm }, grp := { s.grp with sibs := child :: s.grp.sibs } }

/-- BRV p (R100, R101). While an entity handles a trap it never splits (R380). -/
def State.brv (s : State) (p : Nat) (o : BitVec 23) : Outcome :=
  let t := s.predMask p
  let serial : Issue :=
    if 8 ≤ s.ent.defs.length then s.illegal 1
    else
      let d : Deferral := { dpc := s.ent.pc + 4, dmask := s.ent.em &&& ~~~ t, jpc := none, half := false }
      .goto (s.target o) ((s.setEM t).setEnt fun e => { e with defs := d :: e.defs, idem := none })
  commit 4 s <|
    if t = 0 then .retire s
    else if t = s.activeMask then .goto (s.target o) s
    else match s.ent.handling, s.grp.freeSplit, s.freeEntity with
      | false, some e, some n => .retire (s.splitAt p t (s.target o) e n)
      | _, _, _ => serial

/-- Fuses the entity in front into waiter y at entry e, y coming to the front (R100). -/
def State.fuse (s : State) (y : Nat) : Option State :=
  match takeFirst (fun e => e.num = y) s.grp.sibs with
  | none => none
  | some (w, r) =>
    let x := s.ent
    let w := { w with em := w.em ||| x.em, l := w.l ||| x.l, gone := w.gone ||| x.gone, idem := none, deferred := w.deferred ++ x.deferred, prior := w.prior ++ x.prior, status := .ready }
    some { s with ent := w, grp := { s.grp with sibs := r, ops := s.grp.ops.map fun o => if o.ent = x.num then { o with ent := y } else o } }

/-- JOIN by the entity in front (R100, R101); the number bounds how many entries it can pass through. -/
def State.join : Nat → State → Issue
  | 0, s => .retire s
  | n + 1, s =>
    match s.ent.defs, s.ent.parent with
    | d :: r, _ =>
      if d.half then .retire ((s.setEM (s.ent.em ||| d.dmask)).setEnt fun e => { e with defs := r })
      else .goto d.dpc ((s.setEM d.dmask).setEnt fun e => { e with defs := { d with dmask := s.ent.em, jpc := some s.ent.pc, half := true } :: r })
    | [], none => .retire s
    | [], some e =>
      let k := s.grp.split.getD e {}
      let free (t : State) : State := (t.setSplit e {}).setEnt fun x => { x with parent := k.parent }
      if k.live ≤ 1 then State.join n (free s)
      else if !k.wait then .wait .join (s.setSplit e { k with wait := true, waitpc := s.ent.pc, waiter := s.ent.num })
      else if k.waiter = s.ent.num ∨ k.waitpc ≠ s.ent.pc then .wait .join s
      else match s.fuse k.waiter with
        | some t => State.join n (free t)
        | none => .retire s

/-- The state an issue of the entity in front leaves, for an entity that resumes at its JOIN. -/
def settle (s0 : State) (i : Issue) : State :=
  match commit 4 s0 i with
  | .next s => s
  | _ => s0

/-- A child of entry e has exited (R100): LIVE falls; a sole waiter resumes; an empty entry counts in its parent. -/
def State.childExit : Nat → Option Nat → Nat → State → State
  | 0, _, _, s => s
  | _, none, _, s => s
  | n + 1, some e, x, s =>
    let k := s.grp.split.getD e {}
    let k := { k with live := k.live - 1, wait := k.wait && decide (k.waiter ≠ x) }
    if k.live = 0 then State.childExit n k.parent x (s.setSplit e {})
    else
      let s := s.setSplit e k
      if k.wait then
        match s.focusEnt k.waiter with
        | some t => settle t (t.join 9)
        | none => s
      else s

/-- Ends the entity in front with every lane of its L (R102): its slot is freed; the last entity makes the group EXITED. -/
def State.endEntity (s : State) : State :=
  let x := s.ent
  let s := { s with grp := { s.grp with lastExit := x.pc } }
  match s.grp.sibs with
  | [] => { s with ent := { x with live := false }, grp := { s.grp with gstate := .exited } }
  | e :: t => State.childExit 9 x.parent x.num { s with ent := e, grp := { s.grp with sibs := t } }

/-- EXIT (R101, R102); the number bounds the deferral entries it can pass. -/
def State.exitLanes : Nat → State → Issue
  | 0, s => .placed s.endEntity
  | n + 1, s =>
    match s.ent.defs with
    | [] => .placed s.endEntity
    | d :: r =>
      let s : State := { s with ent := { s.ent with gone := s.ent.gone ||| s.ent.em, em := 0 }, grp := { s.grp with lastExit := s.ent.pc } }
      if d.half then
        let t := (s.setEM d.dmask).setEnt fun e => { e with defs := r }
        match d.jpc with
        | some j => .goto (j + 4) t
        | none => State.exitLanes n t
      else .goto d.dpc ((s.setEM d.dmask).setEnt fun e => { e with defs := { d with dmask := 0, jpc := none, half := true } :: r })

/-! ## Waits -/

def pathOf : Nat → Path
  | 0 => .vm | 1 => .sp | 2 => .xc | 3 => .ga | 4 => .mq | _ => .rs

/-- The counts on VM, SP, GA and MQ are zero (R155). -/
def Group.drained (g : Group) : Bool := [Path.vm, .sp, .ga, .mq].all fun p => g.count p = 0

/-- A wait on a condition, with a reason. -/
def State.waitFor (s : State) (b : Bool) (r : WaitReason) : Issue := if b then .retire s else .wait r s

/-! ## Scopes (R117, R118) -/

/-- Bytes of named storage that a group holds in its partition. -/
def Group.storage (g : Group) : Nat := 4 * g.width * g.window
/-- Groups of the partition in front, the group in front included. -/
def State.partGroups (s : State) (p : Nat) : List Group := s.coreGroups.filter fun g => g.loc.part = p
def storageFree (gs : List Group) : Nat := 98304 - (gs.map Group.storage).sum
/-- The reserve of R117. -/
def reserveOf (gs : List Group) : Nat := (gs.map fun g => 4 * g.width * (g.peak - g.base)).foldl max 0
def Group.scopeWaits (g : Group) : Bool := g.sibs.any fun e => e.status = .waiting .scope

/-- Whether a request of n granules by the group in front is granted, and whether it takes from the reserve (R117). -/
def State.scopeGrant (s : State) (n : Nat) : Option Bool :=
  let gs := s.partGroups s.grp.loc.part
  let older := gs.filter fun g => g.age < s.grp.age && g.loc != s.grp.loc
  let need := 4 * s.grp.width * (8 * n)
  let held := ((s.holdsAt s.core.num s.grp.loc.part).map fun h => 4 * h.width * h.named).sum
  let holder := !older.any fun g => g.scopeWaits || g.fromReserve
  let keeps := decide (need + reserveOf gs + held ≤ storageFree gs)
  if older.any Group.scopeWaits then none
  else if keeps then some false
  else if holder ∧ need + held ≤ storageFree gs then some true
  else none

def State.scopeFault (s : State) : Issue := .trap (s.trapHere .scopeFault)

/-! ## Code visibility (R303) -/

/-- Drops the instruction lines of a context that overlap a range of a code window, and what a later fetch of them could return
from before (R239); a length of 0 covers the window. Fills in flight stay (R303). -/
def Core.icinv (k : Core) (ctx : Nat) (cwin : VAddr) (start len : Word) : Core :=
  let keep (l : ILine) : Bool :=
    !(l.ctx = ctx && decide ((l.va - cwin).toNat < 2 ^ 32) &&
      (len = 0 || (decide (((l.va - cwin).setWidth 32 - start).toNat < len.toNat) || decide ((start - (l.va - cwin).setWidth 32).toNat < 128))))
  { k with icache := k.icache.filter keep, versions := k.versions.filter keep }

/-- Whether a core belongs to the instance of a scope for the group in front (R151). -/
def State.inScope (s : State) (scope core : Nat) : Bool :=
  match scope with
  | 0 => core = s.core.num
  | 1 => core = s.core.num || (s.team.pair && core / 2 = s.core.num / 2)
  | 2 => core / 104 = s.core.num / 104 && core % 104 / 8 = s.core.num % 104 / 8
  | 3 => core / 104 = s.core.num / 104
  | _ => true

/-- Whether a line fill requested before number n by a core of a scope has not been delivered (R302). -/
def State.fillsWait (s : State) (scope n : Nat) : Bool := s.allCores.any fun k => s.inScope scope k.num && k.fills.any fun f => f.id < n

/-! ## Instructions -/

/-- Branches always. (R266) -/
def execBra (o : BitVec 23) (s : State) : Outcome :=
  s.branch o true

/-- Branches if SCC.Z is 1. (R266) -/
def execBrz (o : BitVec 23) (s : State) : Outcome :=
  s.branch o (s.ent.scc.z)

/-- Branches if SCC.Z is 0. (R266) -/
def execBrnz (o : BitVec 23) (s : State) : Outcome :=
  s.branch o (!s.ent.scc.z)

/-- Branches if SCC.N is 1. (R266) -/
def execBrn (o : BitVec 23) (s : State) : Outcome :=
  s.branch o (s.ent.scc.n)

/-- Branches if SCC.N is 0. (R266) -/
def execBrnn (o : BitVec 23) (s : State) : Outcome :=
  s.branch o (!s.ent.scc.n)

/-- Branches if SCC.C is 1. (R266) -/
def execBrc (o : BitVec 23) (s : State) : Outcome :=
  s.branch o (s.ent.scc.c)

/-- Branches if SCC.C is 0. (R266) -/
def execBrnc (o : BitVec 23) (s : State) : Outcome :=
  s.branch o (!s.ent.scc.c)

/-- Divergent branch on p0, splitting the entity or running paths serially. (R100) -/
def execBrvP0 (o : BitVec 23) (s : State) : Outcome :=
  s.brv 0 o

/-- Divergent branch on p1. (R100) -/
def execBrvP1 (o : BitVec 23) (s : State) : Outcome :=
  s.brv 1 o

/-- Divergent branch on p2. (R100) -/
def execBrvP2 (o : BitVec 23) (s : State) : Outcome :=
  s.brv 2 o

/-- Divergent branch on p3. (R100) -/
def execBrvP3 (o : BitVec 23) (s : State) : Outcome :=
  s.brv 3 o

/-- Uniform branch if any active lane has p0 set. (R266) -/
def execBrany (o : BitVec 23) (s : State) : Outcome :=
  s.branch o (decide (s.predMask 0 ≠ 0))

/-- Uniform branch if every active lane has p0 set. (R266) -/
def execBrall (o : BitVec 23) (s : State) : Outcome :=
  s.branch o (decide (s.activeMask ≠ 0) && decide (s.predMask 0 = s.activeMask))

/-- Branches if SCC.E is 1. (R266) -/
def execBre (o : BitVec 23) (s : State) : Outcome :=
  s.branch o s.ent.scc.e

/-- Pushes the return offset and branches. (R267) -/
def execCall (o : BitVec 23) (s : State) : Outcome :=
  commit 4 s <|
    if 8 ≤ s.ent.calls.length then .trap (s.trapHere .callDepth 0)
    else .goto (s.target o) (s.setEnt fun e => { e with calls := (e.pc + 4) :: e.calls })

/-- Does nothing. (R272) -/
def execNop (s : State) : Outcome :=
  commit 4 s (.retire s)

/-- Ends the lanes of the entity and frees it, or ends a serial half. (R102) -/
def execExit (s : State) : Outcome :=
  commit 4 s <|
    if s.ent.handling then
      .placed (({ s with grp := s.grp.resume }.setEnt fun e => { e with handling := false, defs := [] }).endEntity)
    else s.exitLanes 9

/-- Waits for or fuses with the sibling entity, or performs a serial join. (R100) -/
def execJoin (s : State) : Outcome :=
  commit 4 s (s.join 9)

/-- Pops the call stack into the PC. (R267) -/
def execRet (s : State) : Outcome :=
  commit 4 s <| match s.ent.calls with
    | [] => .trap (s.trapHere .callDepth 1)
    | r :: t => .goto r (s.setEnt fun e => { e with calls := t })

/-- Jumps to a uniform offset. (R267) -/
def execJmpi (a : BitVec 8) (s : State) : Outcome :=
  commit 4 s <| match s.scCheck [srcA a] [] with
    | some i => i
    | none => if (s.uni a).getLsbD 0 then .trap (s.trapHere .misalign 0 0 ((s.uni a).setWidth 80)) else .goto (s.uni a) s

/-- What YIELD does (R271): the promotion is cleared, and the entity ranks below the others until it next issues. -/
def State.yieldNow (s : State) : Outcome :=
  match commit 4 s (.retire s) with
  | .next t => .next (t.setEnt fun e => { e with promoted := none, yielded := true })
  | r => r

/-- Clears the entity's promotion and ranks it last. (R271) -/
def execYield (s : State) : Outcome :=
  s.yieldNow

/-- Holds the entity until a wake tick. (R270) -/
def execSleep (a : BitVec 8) (s : State) : Outcome :=
  match s.ent.wd.wake with
  | some w => commit 4 s (s.waitFor (decide (w ≤ s.dev.tick)) .sleep)
  | none =>
    match s.scCheck [srcA a] [] with
    | some i => commit 4 s i
    | none =>
      if s.uni a = 0 then s.yieldNow
      else commit 4 s (.wait .sleep (s.setEnt fun e => { e with wd := { e.wd with wake := some (s.dev.tick + (s.uni a).toNat) } }))

/-- Holds the entity until a path count falls to a threshold. (R269) -/
def execWaitc (b : BitVec 8) (p : BitVec 8) (s : State) : Outcome :=
  commit 4 s <| match s.scCheck [srcB b] [] with
    | some i => i
    | none => s.waitFor (decide (s.grp.count (pathOf p.toNat) ≤ (s.uni b).toNat)) .counter

/-- Sets a clean rollback point. (R125) -/
def execIdem (s : State) : Outcome :=
  commit 4 s <| .retire <| s.setEnt fun e =>
    { e with failedRegs := [], idem := some { pc := e.pc + 4, em := e.em, scc := e.scc, calls := e.calls, defs := e.defs, scopes := s.grp.scopes, dirty := false } }

/-- Requests named-register granules, waiting with reason SCOPE. (R117) -/
def execScopeOpen (a : BitVec 8) (s : State) : Outcome :=
  commit 4 s <| match s.scCheck [srcA a] [] with
    | some i => i
    | none =>
      let n := (s.uni a).toNat
      if n = 0 ∨ 7 < n ∨ s.grp.peak < s.grp.window + 8 * n ∨ 4 ≤ s.grp.scopes.length then s.scopeFault
      else match s.scopeGrant n with
        | none => .wait .scope s
        | some r =>
          let w := s.grp.window
          let t : State := { s with grp := { s.grp with scopes := n :: s.grp.scopes, fromReserve := s.grp.fromReserve || r } }
          .retire (t.mapLanes fun _ l => { l with v := l.v.take w }).dirty

/-- Releases the granules of the latest scope. (R118) -/
def execScopeClose (s : State) : Outcome :=
  commit 4 s <| match s.grp.scopes with
    | [] => s.scopeFault
    | _ :: r =>
      let t : State := { s with grp := { s.grp with scopes := r } }
      let gs := t.partGroups t.grp.loc.part
      let t : State := { t with grp := { t.grp with fromReserve := t.grp.fromReserve && decide (r ≠ []) && decide (storageFree gs < reserveOf gs) } }
      .retire (t.mapLanes fun _ l => { l with v := l.v.take t.grp.window }).dirty

/-- Copies EM into two s registers. (R268) -/
def execEmget (k : BitVec 8) (s : State) : Outcome :=
  commit 4 s <|
    if s.pendingS k.toNat || s.pendingS (k.toNat + 1) then .wait .scoreboard s
    else .retire ((s.setS k.toNat (s.ent.em.setWidth 32)).setS (k.toNat + 1) ((s.ent.em >>> 32).setWidth 32))

/-- Sets EM, limited by the path lane set and parked lanes. (R268) -/
def execEmset (b : BitVec 8) (a : BitVec 8) (s : State) : Outcome :=
  commit 4 s <| match s.scCheck [srcA a, srcB b] [] with
    | some i => i
    | none => .retire (s.emset (s.uni b ++ s.uni a))

/-- ANDs EM with a mask. (R268) -/
def execEmand (b : BitVec 8) (a : BitVec 8) (s : State) : Outcome :=
  commit 4 s <| match s.scCheck [srcA a, srcB b] [] with
    | some i => i
    | none => .retire (s.setEM (s.ent.em &&& (s.uni b ++ s.uni a)))

/-- Raises SOFT_TRAP, or BRK for code 255. (R273) -/
def execTrap (c : BitVec 8) (s : State) : Outcome :=
  commit 4 s <|
    if c = 0xFF then .trap (s.trapHere .brk 0xFF)
    else .after { s.trapHere .softTrap (c.setWidth 32) with tpc := s.ent.pc + 4 } s

/-- Ends trap handling, restores the frame and resumes the group. (R382) -/
def execRte (s : State) : Outcome :=
  commit 4 s (if s.ent.handling then .placed s.returnTrap else s.illegal)

/-- Invalidates instruction-cache lines of a code-window range on the core. (R303) -/
def execIcinv (b : BitVec 8) (a : BitVec 8) (s : State) : Outcome :=
  commit 4 s <| match s.scCheck [srcA a, srcB b] [] with
    | some i => i
    | none => .retire { s with core := s.core.icinv s.team.ctx s.team.cwin (s.uni a) (s.uni b) }

/-- Orders accesses at a scope, holding until path counts are zero, and with the code bit until the line fills requested before it by
a core of the scope have been delivered. (R155, R302) -/
def execFence (c : BitVec 1) (x : BitVec 3) (_p : BitVec 2) (s : State) : Outcome :=
  commit 4 s <|
    if c = 0 then s.waitFor s.grp.drained .counter
    else
      let n := s.ent.wd.fills.getD s.nextOp
      if s.grp.drained && !s.fillsWait x.toNat n then .retire s else .wait .counter (s.setEnt fun e => { e with wd := { e.wd with fills := some n } })

/-- Waits for team-word writes to be visible, then fences AR at TEAM. (R156) -/
def execWfence (s : State) : Outcome :=
  commit 4 s (if s.grp.drained then .retire s.showWords else .wait .counter s)

/-- Adds a sign-extended value to a base register. (R265) -/
def execBadd (b : BitVec 8) (n : BitVec 4) (s : State) : Outcome :=
  commit 4 s <| match s.scCheck [srcB b] [] with
    | some i => i
    | none =>
      if s.grp.pendingDest (.b n.toNat) then .wait .scoreboard s
      else .retire (s.setB n.toNat (s.breg n.toNat + (s.uni b).signExtend 80))

/-- Sets a base register from three s registers. (R265) -/
def execBset (k : BitVec 6) (n : BitVec 4) (s : State) : Outcome :=
  commit 4 s <|
    if [0, 1, 2].any (fun i => s.pendingS (k.toNat + i)) || s.grp.pendingDest (.b n.toNat) then .wait .scoreboard s
    else .retire (s.setB n.toNat ((s.sreg (k.toNat + 2)).setWidth 16 ++ s.sreg (k.toNat + 1) ++ s.sreg k.toNat))

/-- Copies a base register into three s registers. (R265) -/
def execBget (k : BitVec 6) (n : BitVec 4) (s : State) : Outcome :=
  commit 4 s <|
    if [0, 1, 2].any (fun i => s.pendingS (k.toNat + i)) || s.grp.pendingDest (.b n.toNat) then .wait .scoreboard s
    else
      let x := s.breg n.toNat
      .retire (((s.setS k.toNat (x.setWidth 32)).setS (k.toNat + 1) ((x >>> 32).setWidth 32)).setS (k.toNat + 2) ((x >>> 64).setWidth 32))

end Sys2Proof.Machine
end

