-- ==== Sys2Proof/Machine/Mem.lean ====
section
/-! DEFINITION. Loads and stores: class 5 (20_isa_memory.md R294 to R298, 08_memory.md R130, R131). An issue checks its accesses and leaves
them with an outstanding operation; they are performed later (Access.lean). -/
namespace Sys2Proof.Machine
open Sys2Proof

/-! ## Issuing an access -/

/-- The parts of n bytes in units of g, as offset and length (R130). -/
def unitsOf (g n : Nat) : List (Nat × Nat) := (List.range ((n + g - 1) / g)).map fun k => (g * k, min g (n - g * k))

/-- The single-copy atomic accesses of the lanes' accesses, in units of g bytes: `what` says what each does, of its lane, its offset and its
length. -/
def State.todoOf (s : State) (n : Need) (uni : Bool) (g : Nat) (as : List Access) (what : Nat → Nat → Nat → AccessKind) : List Todo :=
  as.flatMap fun a => (unitsOf g a.size).map fun (o, k) =>
    { lane := if uni then 64 else a.lane, addr := s.pa n (a.va + BitVec.ofNat 80 o), size := k, va := a.va, what := what a.lane o k }

/-- The remote accesses among some accesses, each over the port of its line (R230). -/
def State.usesOfTodo (s : State) (l : List Todo) : List RemoteUse := s.usesOf (l.map fun x => (x.lane, x.va, x.addr))

/-- Checks the accesses (R171), then the remote gate (R73, R230), then continues with what is to be performed. -/
def State.access (s : State) (n : Need) (align : Nat) (uni : Bool) (kind g : Nat) (as : List Access) (what : Nat → Nat → Nat → AccessKind)
    (f : State → List Todo → List RemoteUse → Issue) : Issue :=
  match s.check n align uni kind as with
  | .bad i => i
  | .ok t =>
    let l := s.todoOf n uni g as what
    match t.remoteGate (s.usesOfTodo l) with
    | some h => .hold h
    | none => f t l (s.usesOfTodo l)

/-- Pushes n positions in each lane of L, pending under the next operation in the active lanes, 0 in the others. -/
def State.pushPending (s : State) (n : Nat) : State :=
  s.mapLanes fun i l => if s.inL i then (List.range n).foldl (fun l k => l.push { tag := if s.active i then some (s.nextOp, n - 1 - k) else none }) l else l

/-- Adds the operation of an instruction with a result: named register r and those that follow it, and the pushes; word k of
lane i is k of vals i, newest push word 0 (R114, R297); accesses that are still to be performed fill in what they read. A form with neither
path nor result leaves nothing outstanding. -/
def State.loadOp (s : State) (path : Option Path) (reg : Option Nat) (push : Bool) (nw : Nat) (vals : Nat → List Word) (us : List RemoteUse := [])
    (todo : List Todo := []) (poisoned : List (Nat × VAddr) := []) (order : Option Bool := none) : State :=
  let fills := s.activeLanes.flatMap fun i => (vals i).zipIdx.flatMap fun (x, k) =>
    (match reg with | some r => [⟨.v i (r + k), x.setWidth 80⟩] | none => []) ++ (if push then [⟨.q i k, x.setWidth 80⟩] else [])
  let t := if push then s.pushPending nw else s
  if path = none ∧ fills = [] then t else t.addOp { id := 0, ent := 0, path, fills, uses := us, todo, poisoned, order }

/-- The fills of nw words in each active lane, which accesses have still to read. -/
def blanks (nw : Nat) (_ : Nat) : List Word := List.replicate nw 0

/-- Where word k of a lane's result goes. -/
def resultDests (reg : Option Nat) (push : Bool) (i k : Nat) : List Dest :=
  (match reg with | some r => [.v i (r + k)] | none => []) ++ (if push then [.q i k] else [])

/-- What a unit of `len` bytes from byte o of an access reads of a result of nw words, of `size` bytes each. -/
def wordParts (nw size : Nat) (signed : Bool) (dests : Nat → List Dest) (o len : Nat) : List Part :=
  ((List.range nw).filter fun k => decide (o ≤ 4 * k) && decide (4 * k < o + len)).flatMap fun k =>
    (dests k).map fun d => { dest := d, from_ := 4 * k - o, size, signed }

/-- The named register that D names, if any (R111). -/
def dReg (d : BitVec 7) : Option Nat := if d.toNat % 64 = 0x3F then none else some (d.toNat % 64)

/-- The effective address of lane i (R248): scale codes 0 ×1, 1 ×4, 2 ×8, 3 ×16. -/
def scaleOf (x : BitVec 2) : Nat := match x.toNat with | 0 => 1 | 1 => 4 | 2 => 8 | _ => 16
def State.ea (s : State) (x : BitVec 2) (e : BitVec 4) (o : BitVec 8) (i : Nat) : VAddr :=
  s.breg e.toNat + (s.read o i).signExtend 80 * BitVec.ofNat 80 (scaleOf x)
/-- The window offset of lane i (R131). -/
def State.wo (s : State) (x : BitVec 2) (o : BitVec 8) (i : Nat) : Word := s.read o i * BitVec.ofNat 32 (scaleOf x)

def State.accesses (s : State) (size : Nat) (ea : Nat → VAddr) : List Access := s.activeLanes.map fun i => ⟨i, ea i, size⟩

/-- A destination run of n registers that never pushes (R248, R294): a multiple of n, its last register below N. -/
def State.runBad (s : State) (d : BitVec 7) (n : Nat) : Bool :=
  decide (d.toNat % 64 % n ≠ 0) || decide (d.toNat % 64 = 0x3F) || decide (s.grp.window < d.toNat % 64 + n)

/-- A store source of n words (R248, R294): codes 0x00 to 0x4F; for n > 1 a v or q run whose first code is a multiple of n. -/
def State.storeBad (s : State) (d : BitVec 7) (n : Nat) : Bool :=
  let c := d.toNat
  decide (0x50 ≤ c) || s.srcBad (d.setWidth 8) || (decide (1 < n) && (decide (c % n ≠ 0) || decide (c = 0x3F) || s.srcBad (codePlus (d.setWidth 8) (n - 1))))

/-- The scoreboard on the offset, the base, and other operand codes in the active lanes. -/
def State.memPending (s : State) (base : Option (BitVec 4)) (codes : List (BitVec 8)) : Bool :=
  codes.any (s.pendingIn s.activeLanes) || (match base with | some e => s.grp.pendingDest (.b e.toNat) | none => false)

/-- Waits common to counted forms: the scoreboard, then a full path (R138). -/
def State.ready (s : State) (pend : Bool) (p : Path) (f : Issue) : Issue :=
  if pend then .wait .scoreboard s else if s.pathFull p then .wait .counter s else f

/-! ## Global forms -/

/-- The destination of a load: named registers from r on, and whether it pushes. -/
structure Ld where
  bad : Bool
  regs : Nat
  push : Bool

/-- A global load (R294, R297): `size` bytes in each lane, in units of g. -/
def State.load (s : State) (path : Path) (x : BitVec 2) (e : BitVec 4) (o : BitVec 8) (d : BitVec 7) (ld : Ld) (size align g : Nat) (signed : Bool) : Outcome :=
  commit 4 s <|
    if ld.bad then s.badField 0 d.toNat
    else if s.srcBad o then s.badField 1 o.toNat
    else
      let pendD := (dReg d).any fun r => s.activeLanes.any fun i => (List.range ld.regs).any fun k => s.grp.pendingV i (r + k)
      s.ready (s.memPending (some e) [o] || pendD) path <|
        s.access { r := true } align false 1 g (s.accesses size (s.ea x e o))
          (fun i o len => .load (wordParts ld.regs (min size 4) signed (resultDests (dReg d) ld.push i) o len)) fun t todo us =>
          .retire (t.loadOp (some path) (dReg d) ld.push ld.regs (blanks ld.regs) us todo)

def State.ld1 (s : State) (d : BitVec 7) : Ld := ⟨s.dBad d, 1, !d.getLsbD 6⟩
def State.ldRun (s : State) (d : BitVec 7) (n : Nat) : Ld := ⟨s.runBad d n, n, false⟩

/-- The bytes that a store of n words, or of `size` bytes of one, takes from lane i. -/
def State.storeBytes (s : State) (d : BitVec 7) (n size i : Nat) : List Byte :=
  ((List.range n).flatMap fun k => leBytes (s.read (codePlus (d.setWidth 8) k) i).toNat 4).take size

/-- What a unit of a store writes: its part of the lane's bytes. -/
def State.storePart (s : State) (d : BitVec 7) (n size i o len : Nat) : AccessKind := .store (((s.storeBytes d n size i).drop o).take len)

/-- A global store (R294). -/
def State.storeForm (s : State) (x : BitVec 2) (e : BitVec 4) (o : BitVec 8) (d : BitVec 7) (n size : Nat) : Outcome :=
  commit 4 s <|
    if s.storeBad d n then s.badField 0 d.toNat
    else if s.srcBad o then s.badField 1 o.toNat
    else
      s.ready (s.memPending (some e) (o :: (List.range n).map (codePlus (d.setWidth 8)))) .vm <|
        s.access { w := true } size false 2 8 (s.accesses size (s.ea x e o)) (s.storePart d n size) fun t todo us =>
          .retire (t.addOp { id := 0, ent := 0, path := some .vm, uses := us, todo }).dirty

/-! ## Scratchpad forms (R295) -/

def State.offsets (s : State) (wo : Nat → Word) : List (Nat × Word) := s.activeLanes.map fun i => (i, wo i)

/-- The accesses of `size` bytes at window offsets (R131), in units of g. -/
def State.winTodo (s : State) (uni : Bool) (size g : Nat) (os : List (Nat × Word)) (what : Nat → Nat → Nat → AccessKind) : List Todo :=
  os.flatMap fun (i, w) => match s.window w size 1 with
    | .ok c a => (unitsOf g size).map fun (o, k) => { lane := if uni then 64 else i, spad := some c, addr := a + o, size := k, va := w.setWidth 80, what := what i o k }
    | _ => []

def State.spLoad (s : State) (x : BitVec 2) (o : BitVec 8) (d : BitVec 7) (ld : Ld) : Outcome :=
  commit 4 s <|
    if ld.bad then s.badField 0 d.toNat
    else if s.srcBad o then s.badField 1 o.toNat
    else
      let pendD := (dReg d).any fun r => s.activeLanes.any fun i => (List.range ld.regs).any fun k => s.grp.pendingV i (r + k)
      s.ready (s.memPending none [o] || pendD) .sp <|
        match s.checkWindow (4 * ld.regs) (4 * ld.regs) false (s.offsets (s.wo x o)) with
        | some t => .trap t
        | none => .retire (s.loadOp (some .sp) (dReg d) ld.push ld.regs (blanks ld.regs) []
            (s.winTodo false (4 * ld.regs) 8 (s.offsets (s.wo x o)) fun i o len => .load (wordParts ld.regs 4 false (resultDests (dReg d) ld.push i) o len)))

def State.spStore (s : State) (x : BitVec 2) (o : BitVec 8) (d : BitVec 7) (n : Nat) : Outcome :=
  commit 4 s <|
    if s.storeBad d n then s.badField 0 d.toNat
    else if s.srcBad o then s.badField 1 o.toNat
    else
      s.ready (s.memPending none (o :: (List.range n).map (codePlus (d.setWidth 8)))) .sp <|
        match s.checkWindow (4 * n) (4 * n) false (s.offsets (s.wo x o)) with
        | some t => .trap t
        | none => .retire (s.addOp { id := 0, ent := 0, path := some .sp, todo := s.winTodo false (4 * n) 8 (s.offsets (s.wo x o)) (s.storePart d n (4 * n)) }).dirty

/-! ## Uniform forms (R296) -/

/-- One access for the whole group, with TLANES 0 on a fault. -/
def State.uniAccess (s : State) (n : Need) (x : BitVec 2) (e : BitVec 4) (o : BitVec 8) (size kind : Nat) (pend : Bool) (what : Nat → Nat → AccessKind)
    (f : State → List Todo → List RemoteUse → State) : Issue :=
  if s.uniBad o then s.badField 1 o.toNat
  else
    s.ready (pend || s.pendingIn [] o || s.grp.pendingDest (.b e.toNat)) .vm <|
      s.access n size true kind 8 [⟨0, s.ea x e o 0, size⟩] (fun _ => what) fun t todo us => .retire (f t todo us)

/-- A uniform load's operation, with blank results. -/
def State.uniLoad (t : State) (dests : List Dest) (todo : List Todo) (us : List RemoteUse) : State :=
  t.addOp { id := 0, ent := 0, path := some .vm, uses := us, fills := dests.map fun d => ⟨d, 0⟩, todo }

/-- Global load of a zero-extended byte. (R294) -/
def execLdb (_h : BitVec 2) (x : BitVec 2) (e : BitVec 4) (o : BitVec 8) (d : BitVec 7) (s : State) : Outcome :=
  s.load .vm x e o d (s.ld1 d) 1 1 8 false

/-- Global load of a sign-extended byte. (R294) -/
def execLdbs (_h : BitVec 2) (x : BitVec 2) (e : BitVec 4) (o : BitVec 8) (d : BitVec 7) (s : State) : Outcome :=
  s.load .vm x e o d (s.ld1 d) 1 1 8 true

/-- Global load of a zero-extended halfword. (R294) -/
def execLdh (_h : BitVec 2) (x : BitVec 2) (e : BitVec 4) (o : BitVec 8) (d : BitVec 7) (s : State) : Outcome :=
  s.load .vm x e o d (s.ld1 d) 2 2 8 false

/-- Global load of a sign-extended halfword. (R294) -/
def execLdhs (_h : BitVec 2) (x : BitVec 2) (e : BitVec 4) (o : BitVec 8) (d : BitVec 7) (s : State) : Outcome :=
  s.load .vm x e o d (s.ld1 d) 2 2 8 true

/-- Global load of a word. (R294) -/
def execLdw (_h : BitVec 2) (x : BitVec 2) (e : BitVec 4) (o : BitVec 8) (d : BitVec 7) (s : State) : Outcome :=
  s.load .vm x e o d (s.ld1 d) 4 4 8 false

/-- Global load of 8 bytes into a register pair. (R294) -/
def execLdd (_h : BitVec 2) (x : BitVec 2) (e : BitVec 4) (o : BitVec 8) (d : BitVec 7) (s : State) : Outcome :=
  s.load .vm x e o d (s.ldRun d 2) 8 8 8 false

/-- Global load of 16 bytes into four registers. (R294) -/
def execLdq (_h : BitVec 2) (x : BitVec 2) (e : BitVec 4) (o : BitVec 8) (d : BitVec 7) (s : State) : Outcome :=
  s.load .vm x e o d (s.ldRun d 4) 16 16 8 false

/-- Global store of a byte. (R294) -/
def execStb (_h : BitVec 2) (x : BitVec 2) (e : BitVec 4) (o : BitVec 8) (d : BitVec 7) (s : State) : Outcome :=
  s.storeForm x e o d 1 1

/-- Global store of a halfword. (R294) -/
def execSth (_h : BitVec 2) (x : BitVec 2) (e : BitVec 4) (o : BitVec 8) (d : BitVec 7) (s : State) : Outcome :=
  s.storeForm x e o d 1 2

/-- Global store of a word. (R294) -/
def execStw (_h : BitVec 2) (x : BitVec 2) (e : BitVec 4) (o : BitVec 8) (d : BitVec 7) (s : State) : Outcome :=
  s.storeForm x e o d 1 4

/-- Global store of 8 bytes. (R294) -/
def execStd (_h : BitVec 2) (x : BitVec 2) (e : BitVec 4) (o : BitVec 8) (d : BitVec 7) (s : State) : Outcome :=
  s.storeForm x e o d 2 8

/-- Global store of 16 bytes. (R294) -/
def execStq (_h : BitVec 2) (x : BitVec 2) (e : BitVec 4) (o : BitVec 8) (d : BitVec 7) (s : State) : Outcome :=
  s.storeForm x e o d 4 16

/-- Scratchpad load of a word. (R295) -/
def execLdsw (x : BitVec 2) (o : BitVec 8) (d : BitVec 7) (s : State) : Outcome :=
  s.spLoad x o d (s.ld1 d)

/-- Scratchpad load of 8 bytes. (R295) -/
def execLdsd (x : BitVec 2) (o : BitVec 8) (d : BitVec 7) (s : State) : Outcome :=
  s.spLoad x o d (s.ldRun d 2)

/-- Scratchpad load of 16 bytes. (R295) -/
def execLdsq (x : BitVec 2) (o : BitVec 8) (d : BitVec 7) (s : State) : Outcome :=
  s.spLoad x o d (s.ldRun d 4)

/-- Scratchpad store of a word. (R295) -/
def execStsw (x : BitVec 2) (o : BitVec 8) (d : BitVec 7) (s : State) : Outcome :=
  s.spStore x o d 1

/-- Scratchpad store of 8 bytes. (R295) -/
def execStsd (x : BitVec 2) (o : BitVec 8) (d : BitVec 7) (s : State) : Outcome :=
  s.spStore x o d 2

/-- Scratchpad store of 16 bytes. (R295) -/
def execStsq (x : BitVec 2) (o : BitVec 8) (d : BitVec 7) (s : State) : Outcome :=
  s.spStore x o d 4

/-- Uniform load of a word into an s register. (R296) -/
def execLduw (_h : BitVec 2) (x : BitVec 2) (e : BitVec 4) (o : BitVec 8) (d : BitVec 6) (s : State) : Outcome :=
  let dest (k : Nat) : Dest := .s (s.sIndex (d.toNat + k))
  commit 4 s <| s.uniAccess { r := true } x e o 4 1 (s.pendingS d.toNat) (fun o len => .load (wordParts 1 4 false (fun k => [dest k]) o len)) fun t =>
    t.uniLoad [dest 0]

/-- Uniform load of 8 bytes into an s register pair. (R296) -/
def execLdud (_h : BitVec 2) (x : BitVec 2) (e : BitVec 4) (o : BitVec 8) (d : BitVec 6) (s : State) : Outcome :=
  let dest (k : Nat) : Dest := .s (s.sIndex (d.toNat + k))
  commit 4 s <|
    if d.toNat % 2 = 1 then s.badField 0 d.toNat
    else s.uniAccess { r := true } x e o 8 1 (s.pendingS d.toNat || s.pendingS (d.toNat + 1)) (fun o len => .load (wordParts 2 4 false (fun k => [dest k]) o len)) fun t =>
      t.uniLoad [dest 0, dest 1]

/-- Uniform load of an 80-bit base register. (R296) -/
def execLdba (_h : BitVec 2) (x : BitVec 2) (e : BitVec 4) (o : BitVec 8) (d : BitVec 4) (s : State) : Outcome :=
  commit 4 s <| s.uniAccess { r := true } x e o 16 1 (s.grp.pendingDest (.b d.toNat))
    (fun o _ => .load [{ dest := .b d.toNat, from_ := 0, size := if o = 0 then 8 else 2, bit := 8 * o }]) fun t => t.uniLoad [.b d.toNat]

/-- Uniform store of an 80-bit base register. (R296) -/
def execStba (_h : BitVec 2) (x : BitVec 2) (e : BitVec 4) (o : BitVec 8) (d : BitVec 4) (s : State) : Outcome :=
  commit 4 s <| s.uniAccess { w := true } x e o 16 2 (s.grp.pendingDest (.b d.toNat))
    (fun o len => .store (((leBytes (s.breg d.toNat).toNat 16).drop o).take len)) fun t todo us =>
    (t.addOp { id := 0, ent := 0, path := some .vm, uses := us, todo }).dirty

/-- Gathers four words per lane on path GA. (R297) -/
def execGath4 (_h : BitVec 2) (x : BitVec 2) (e : BitVec 4) (o : BitVec 8) (d : BitVec 7) (s : State) : Outcome :=
  let bad := decide (d.toNat % 64 ≠ 0x3F) && s.runBad d 4
  s.load .ga x e o d ⟨bad, 4, !d.getLsbD 6⟩ 16 4 4 false

/-- Asks the home L2 to hold a line; no fault, no path. (R298) -/
def execPref (_h : BitVec 2) (_x : BitVec 2) (e : BitVec 4) (o : BitVec 8) (s : State) : Outcome :=
  commit 4 s <|
    if s.srcBad o then s.badField 1 o.toNat
    else if s.memPending (some e) [o] then .wait .scoreboard s
    else .retire s

end Sys2Proof.Machine
end

