-- ==== Sys2Proof/Machine/Matrix.lean ====
section
/-! DEFINITION. Matrix instructions: MCFG, ACT.LD, FRAG, MMA, the ACC forms, TREEMASK, and the accumulator banks
(21_isa_matrix.md R315 to R331, 02_numbers.md R38 to R40, 07_registers.md R122, R123). -/
namespace Sys2Proof.Machine
open Sys2Proof

/-! ## Command words (R316, R317) -/

inductive MKind where
  | b8 | int | half (f : Fmt) | single
deriving DecidableEq, Repr

def isB8 (c : Nat) : Bool := (decide (8 ≤ c) && decide (c ≤ 14)) || (decide (16 ≤ c) && decide (c ≤ 23))

/-- The kind that the precisions form, and the check of the output precision (R317). -/
def mkind (mc : Word) : Option MKind :=
  let a := fieldOf mc.toNat 3 5
  let b := fieldOf mc.toNat 8 5
  let out := fieldOf mc.toNat 19 5
  if !(decide (out ≤ 4) || isB8 out) then none
  else if isB8 a && isB8 b then some .b8
  else if (a = 3 ∨ a = 4) ∧ (b = 3 ∨ b = 4) then some .int
  else if a = 1 ∧ b = 1 then some (.half bf16)
  else if a = 2 ∧ b = 2 then some (.half fp16)
  else if a = 0 ∧ b = 0 then some .single
  else none

/-- Elements along K, and bytes of an element (R317). -/
def MKind.k : MKind → Nat
  | .b8 => 32 | .int => 32 | .half _ => 16 | .single => 8
def MKind.size : MKind → Nat
  | .b8 => 1 | .int => 1 | .half _ => 2 | .single => 4

/-! ## Exact sums (R38 to R40) -/

/-- A × B × 2^sc, exact; the specials of R39. -/
def Num.mulExact (sc : Int) : Num → Num → Num
  | .nan _, _ => .nan false
  | _, .nan _ => .nan false
  | .inf _, .fin _ 0 _ => .nan false
  | .fin _ 0 _, .inf _ => .nan false
  | .inf s, .inf t => .inf (s != t)
  | .inf s, .fin t _ _ => .inf (s != t)
  | .fin s _ _, .inf t => .inf (s != t)
  | .fin s m e, .fin t n f => .fin (s != t) (m * n) (e + f + sc)

def Num.addEx : Num → Num → Num
  | .nan _, _ => .nan false
  | _, .nan _ => .nan false
  | .inf s, .inf t => if s = t then .inf s else .nan false
  | .inf s, _ => .inf s
  | _, .inf t => .inf t
  | .fin s m e, .fin t n f => let r := addExact s m e t n f; .fin r.1 r.2.1 r.2.2

def Num.isNegZero : Num → Bool
  | .fin true 0 _ => true
  | _ => false

/-- The terms summed exactly and rounded once in RNE (R38, R39). -/
def sumExact (l : List Num) : Nat :=
  match l.foldl Num.addEx (.fin false 0 0) with
  | .nan _ => fp32.qnan
  | .inf s => fp32.inf s
  | .fin s m e => if m = 0 then fp32.zero (l.all Num.isNegZero) else (fp32.round .rne false s m e false).1

/-! ## The epilogue (R318, R324) -/

def f32 (x : Nat) : Num := fp32.read false x
def mxAdd (x y : Nat) : Nat := (fp32.add .rne false (f32 x) (f32 y)).1
def mxMul (x y : Nat) : Nat := (fp32.mul .rne false (f32 x) (f32 y)).1

/-- The epilogue on an FP32 value of column n. -/
def epilogue (mc mc2 : Word) (tab : List Word) (n x : Nat) : Nat :=
  let w (k : Nat) : Nat := (tab.getD k 0).toNat
  let x := if mc.getLsbD 14 then mxAdd x (w n) else x
  let x :=
    if mc.getLsbD 15 then
      let u := mxMul (fp32.add .rne false (f32 x) (f32 (w 32)).neg).1 (w 33)
      let j := (toIntSat .rd 0 63 (f32 u)).1.toNat
      (fp32.fma .rne false (f32 (w (64 + 2 * j))) (f32 x) (f32 (w (65 + 2 * j)))).1
    else x
  if mc.getLsbD 16 then mxMul x mc2.toNat else x

/-- An encoded element and the status bits it sets: SAT, INF, NAN (R330). -/
structure Enc where
  w : Word
  sat : Bool := false
  inf : Bool := false
  nan : Bool := false

def encOf (w : Nat) (n : Num) (sat : Bool) : Enc :=
  { w := BitVec.ofNat 32 w, sat, inf := match n with | .inf _ => true | _ => false, nan := n.isNan }

/-- Encode of an FP32 value (R324). -/
def encode32 (mc : Word) (x : Nat) : Enc :=
  let out := fieldOf mc.toNat 19 5
  if out = 0 then encOf x (f32 x) false
  else if out ≤ 2 then
    let f := if out = 1 then bf16 else fp16
    let v := match f32 x with
      | .nan _ => f.qnan
      | .inf s => f.inf s
      | .fin s m e => (f.round .rne false s m e false).1
    encOf v (f.read false v) false
  else if out ≤ 4 then
    let r := if out = 3 then toIntSat .rne (-128) 127 (f32 x) else toIntSat .rne 0 255 (f32 x)
    { w := BitVec.ofInt 32 r.1, sat := decide (r.2 &&& flagNV ≠ 0) }
  else
    let b := b8Of out
    let r := b.round .rne (mc.getLsbD 18) (mc.getLsbD 17) (f32 x)
    let ovf := decide (r.2 &&& flagOF ≠ 0) || (match f32 x with | .inf s => b.signed || !s | _ => false)
    encOf r.1 (b.read (mc.getLsbD 18) r.1) ovf

/-- Encode of an int32 that was never converted (R324). -/
def encodeInt (mc : Word) (x : Word) : Enc :=
  let out := fieldOf mc.toNat 19 5
  if out = 0 then { w := x }
  else
    let lo : Int := if out = 3 then -128 else 0
    let hi : Int := if out = 3 then 127 else 255
    let v := max lo (min hi x.toInt)
    { w := BitVec.ofInt 32 v, sat := decide (v ≠ x.toInt) }

/-! ## Fragments (R320 to R322) -/

/-- Byte e of the run of registers of lane i that starts at r. -/
def Group.fragByte (g : Group) (i r e : Nat) : Nat := fieldOf ((g.lane i).reg (r + e / 4)).toNat (8 * (e % 4)) 8
/-- n bytes from byte e on, least significant first. -/
def Group.fragNat (g : Group) (i r e n : Nat) : Nat := leNat ((List.range n).map fun k => BitVec.ofNat 8 (g.fragByte i r (e + k)))

/-- Registers of a B fragment. -/
def bRegs (width : Nat) : Nat := 256 / width

/-- The lane that holds element k of column n of B, and the byte where its run starts there (R321). -/
def bPlace (width size k n : Nat) : Nat × Nat :=
  if width = 16 then (n / 2, 32 * (n % 2) + k * size)
  else if width = 32 then (n, k * size)
  else let h := 16 / size; (2 * n + k / h, k % h * size)

/-- The scale of column n (R322): its lane and its byte. -/
def bScale (width n : Nat) : Nat × Nat := if width = 16 then (n / 2, n % 2) else if width = 32 then (n, 0) else (2 * n, 0)

/-- Where a unit of len bytes goes that stands at byte e of the run of registers of lane i that starts at r (R321). -/
def fragParts (i r e len : Nat) : List Part :=
  (unitsOf 4 len).map fun (o, k) => { dest := .v i (r + (e + o) / 4), from_ := o, size := k, bit := 8 * ((e + o) % 4) }

/-- A FRAG form: n registers from D; lane i reads the runs `rows i` (offset from o, length) in turn (R320). -/
def State.frag (s : State) (d : BitVec 7) (a : BitVec 8) (n align : Nat) (rows : Nat → Nat → List (Nat × Nat)) (pitch : Nat → Nat) : Outcome :=
  commit 4 s <|
    if 0x3F ≤ d.toNat ∨ s.grp.window < d.toNat + n then s.badField 0 d.toNat
    else if s.uniBad a then s.badField 1 a.toNat
    else
      s.ready (s.pendingIn [] a || s.activeLanes.any fun i => (List.range n).any fun k => s.grp.pendingV i (d.toNat + k)) .sp <|
        let w := (s.uni a).toNat
        let p := pitch (w / 2 ^ 24)
        -- an offset that leaves the 23 bits of its window stays out of bounds, whichever window bit 23 names
        let at_ (x : Nat) : Word := BitVec.ofNat 32 (if w % 2 ^ 23 + x < 2 ^ 23 then w % 2 ^ 24 + x else 2 ^ 24 + w % 2 ^ 23 + x)
        let runs : List (Nat × Nat × Nat) := s.activeLanes.flatMap fun i => (rows p i).map fun r => (i, r)
        if s.activeLanes ≠ [] ∧ w % 2 ^ 24 % align ≠ 0 then .trap (s.trapHere .misalign 0 s.activeMask (BitVec.ofNat 80 (w % 2 ^ 24)))
        else
          let bad := runs.filter fun r => match s.window (at_ r.2.1) r.2.2 1 with | .ok _ _ => false | _ => true
          match bad with
          | r :: _ => .trap (s.trapHere .accessFault 0 (laneMask (fun i => bad.any fun x => x.1 = i) 64) (BitVec.ofNat 80 (w % 2 ^ 24 + r.2.1)))
          | [] =>
            let todo (i : Nat) : List Todo := (rows p i).zipIdx.flatMap fun (r, j) =>
              s.winTodo false r.2 8 [(i, at_ r.1)] fun i o len => .load (fragParts i d.toNat (j * r.2 + o) len)
            .retire (s.loadOp (some .sp) (some d.toNat) false n (blanks n) [] (s.activeLanes.flatMap todo))

/-- The rows of B that lane i reads, of `len` bytes each in the widths 16 and 32 (R321, R322). -/
def bRows (width len p i : Nat) : List (Nat × Nat) :=
  if width = 16 then [(2 * i * p, len), ((2 * i + 1) * p, len)] else if width = 32 then [(i * p, len)]
  else if len = 1 then [(i / 2 * p, 1)] else [(i / 2 * p + 16 * (i % 2), 16)]

def dataPitch (f : Nat) : Nat := if f = 0 then 32 else 32 * f
def scalePitch (f : Nat) : Nat := if f = 0 then 256 else f

/-! ## MMA (R323) -/

/-- Where row m reads element k of A. -/
def State.mmaA (s : State) (kind : MKind) (mc : Word) (a m k : Nat) : Num :=
  let x := s.grp.fragNat m a (k * kind.size) kind.size
  match kind with
  | .b8 => (b8Of (fieldOf mc.toNat 3 5)).read (mc.getLsbD 18) x
  | .half f => f.read false x
  | _ => f32 x
def State.mmaB (s : State) (kind : MKind) (mc : Word) (b k n : Nat) : Num :=
  let p := bPlace s.grp.width kind.size k n
  let x := s.grp.fragNat p.1 b p.2 kind.size
  match kind with
  | .b8 => (b8Of (fieldOf mc.toNat 8 5)).read (mc.getLsbD 18) x
  | .half f => f.read false x
  | _ => f32 x

/-- An 8-bit integer of precision 3 (INT8) or 4 (natural). -/
def int8 (prec x : Nat) : Int := if prec = 3 ∧ 128 ≤ x then (x : Int) - 256 else x

/-- The step of R38 or R40 for one element, with the epilogue and Encode (R323, R324). -/
def State.mmaElem (s : State) (kind : MKind) (mc mc2 : Word) (a b m n : Nat) (c : Word) : Enc :=
  match kind with
  | .int =>
    let terms := (List.range 32).map fun k =>
      let p := bPlace s.grp.width 1 k n
      int8 (fieldOf mc.toNat 3 5) (s.grp.fragByte m a k) * int8 (fieldOf mc.toNat 8 5) (s.grp.fragByte p.1 b p.2)
    let x := c + BitVec.ofInt 32 terms.sum
    if !mc.getLsbD 14 && !mc.getLsbD 15 && !mc.getLsbD 16 && [0, 3, 4].contains (fieldOf mc.toNat 19 5) then encodeInt mc x
    else encode32 mc (epilogue mc mc2 s.grp.epi n (fp32.ofInt .rne x.toInt).1)
  | kind =>
    let sc : Option Int :=
      if kind = .b8 then
        let sa := s.grp.fragByte m (a + 8) 0
        let p := bScale s.grp.width n
        let sb := s.grp.fragByte p.1 (b + bRegs s.grp.width) p.2
        if sa = 255 ∨ sb = 255 then none else some ((sa : Int) + sb - 254)
      else some 0
    let x := match sc with
      | none => fp32.qnan
      | some e => sumExact (f32 c.toNat :: (List.range kind.k).map fun k => Num.mulExact e (s.mmaA kind mc a m k) (s.mmaB kind mc b k n))
    encode32 mc (epilogue mc mc2 s.grp.epi n x)

/-- Whether MMA writes floating-point values into its row: not where its output is an integer (R317, R324, R330). -/
def floatOut (kind : MKind) (mc : Word) : Bool :=
  let out := fieldOf mc.toNat 19 5
  out != 3 && out != 4 && !(kind = .int && out = 0 && !mc.getLsbD 14 && !mc.getLsbD 15 && !mc.getLsbD 16)

/-- A row with what a form writes into it: elements, and the sticky bits (R330). -/
def AccRow.encoded (r : AccRow) (l : List Enc) : AccRow :=
  { r with elems := l.map Enc.w, sat := r.sat || l.any Enc.sat, inf := r.inf || l.any Enc.inf, nan := r.nan || l.any Enc.nan }

/-- Applies f to the rows of the active lanes. -/
def State.rowsAct (s : State) (h : Nat) (k : Acc) (f : Nat → AccRow → AccRow) : State :=
  let rows := (List.range s.grp.width).map fun m => if s.active m then f m (k.rows.getD m {}) else k.rows.getD m {}
  { s with grp := { s.grp with acc := putAt none s.grp.acc h (some { k with rows }) } }

/-- Active rows of a handle that are poisoned, as a DATA_POISON trap (R323, R327). -/
def State.rowPoison (s : State) (h : Nat) (k : Acc) : Option Issue :=
  let bad := laneMask (fun m => s.active m && (k.rows.getD m {}).poison) s.grp.width
  if bad = 0 then none else some (.trap (s.trapHere .dataPoison (BitVec.ofNat 32 h) bad))

/-- The status word of a row (R330). -/
def AccRow.status (r : AccRow) : Word := BitVec.ofNat 32 (r.sat.toNat * 8 + r.inf.toNat * 4 + r.nan.toNat * 2 + r.poison.toNat)

/-! ## Accumulator banks (R122) -/

def banksOf (width : Nat) : Nat := if width = 64 then 2 else 1

/-- The lowest run of FREE banks of a partition (notes/assumptions/20.md). -/
def Core.freeBanks (k : Core) (part n : Nat) : Option Nat :=
  (List.range (17 - n)).find? fun b => (List.range n).all fun j => !k.banks.any fun x => x.part = part && x.bank = b + j

/-- The banks of a handle after it is given up: zeroed, or scrubbed where a row is poisoned. -/
def Core.releaseBanks (k : Core) (part : Nat) (a : Acc) (n : Nat) : Core :=
  { k with banks := (List.range n).foldl (fun l j =>
      let st : BankState := if ((a.rows.drop (32 * j)).take 32).any AccRow.poison then .poisoned else .zeroing
      ⟨part, a.bank + j, st⟩ :: l.filter fun x => !(x.part = part && x.bank = a.bank + j)) k.banks }

/-- Frees every bound handle of a group at its retirement or kill. -/
def Core.releaseAll (k : Core) (g : Group) : Core :=
  g.acc.foldl (fun k a => match a with | some a => k.releaseBanks g.loc.part a (banksOf g.width) | none => k) k

/-! ## ACC forms (R327) -/

/-- A form on a bound handle, after the checks of its fields. -/
def State.withAcc (s : State) (h : Nat) (f : Acc → Issue) : Issue :=
  match s.grp.acc.getD h none with
  | none => s.badCause h
  | some k => f k

/-- RD, ROWMAX, ROWSUM: r of each active row; a row whose error is met gives a free value (R330). -/
def State.accRead (s : State) (d : BitVec 7) (h : Nat) (k : Acc) (f : AccRow → Word) : Issue :=
  let met := k.badRows s.activeLanes
  if met = [] then .retire (s.vecWrite d fun m => f (k.rows.getD m {})).dirty
  else
    let (x, t) := s.free
    let t := t.vecWrite d fun m => if met.contains m then BitVec.ofNat 32 (x / 2 ^ (32 * m)) else f (k.rows.getD m {})
    .retire ((t.rowsAct h k fun _ r => if r.bad then r.met false fun _ => false else r).metErrors h met).dirty

/-- The walk of TREEMASK from lane j, the number bounding it by the lanes that remain below (R331). -/
def treeWalk (par : Nat → Nat) : Nat → Nat → Mask
  | 0, j => (1 : Mask) <<< j
  | n + 1, j => ((1 : Mask) <<< j) ||| (if par j < j then treeWalk par n (par j) else 0)

/-- Writes the matrix command words MC and MC2. A, its value included, is checked before B (R241). (R315) -/
def execMcfg (b : BitVec 8) (a : BitVec 8) (s : State) : Outcome :=
  commit 4 s <| match s.scCheck [srcA a] [] with
    | some i => i
    | none =>
      if (s.uni a).toNat / 2 ^ 24 ≠ 0 then s.badField 1 a.toNat
      else match s.scCheck [srcB b] [] with
        | some i => i
        | none => .retire { s with grp := { s.grp with mc := s.uni a, mc2 := s.uni b } }.dirty

/-- Loads the 768-byte epilogue table from global memory. (R319) -/
def execActLd (b : BitVec 8) (n : BitVec 4) (s : State) : Outcome :=
  commit 4 s <|
    if s.uniBad b then s.badField 2 b.toNat
    else
      s.ready (s.pendingIn [] b || s.grp.pendingDest (.b n.toNat) || s.grp.pendingDest (.epi 0)) .vm <|
        let va := s.breg n.toNat + (s.uni b).setWidth 80
        s.access { r := true } 64 true 1 8 [⟨0, va, 768⟩] (fun _ o len => .load (wordParts 192 4 false (fun k => [.epi k]) o len)) fun t todo us =>
          .retire (t.addOp { id := 0, ent := 0, path := some .vm, uses := us, fills := (List.range 192).map fun k => ⟨.epi k, 0⟩, todo }).dirty

/-- One exact matrix K-step with optional epilogue into an accumulator handle. (R323) -/
def execMma (b : BitVec 8) (a : BitVec 8) (s : State) : Outcome :=
  commit 4 s <|
    let mc := s.grp.mc
    let h := mc.toNat % 8
    match mkind mc with
    | none => s.badCause 0x10
    | some kind => s.withAcc h fun k =>
      let extra := if kind = .b8 then 1 else 0
      let na := 8 + extra
      let nb := bRegs s.grp.width + extra
      let bad (c : BitVec 8) (n : Nat) : Bool := decide (0x3F ≤ c.toNat) || decide (s.grp.window < c.toNat + n)
      let pend (c : BitVec 8) (n : Nat) : Bool := (List.range s.grp.width).any fun i => (List.range n).any fun j => s.grp.pendingV i (c.toNat + j)
      if bad a na then s.badField 1 a.toNat
      else if bad b nb then s.badField 2 b.toNat
      else if pend a na || pend b nb || ((mc.getLsbD 14 || mc.getLsbD 15) && s.grp.pendingDest (.epi 0)) then .wait .scoreboard s
      else
        let zero := mc.getLsbD 13
        match (if zero then none else s.rowPoison h k) with
        | some i => i
        | none =>
          let met := if zero then [] else k.badRows s.activeLanes
          let t := s.rowsAct h k fun m r =>
            if !zero && r.bad then r.met (floatOut kind mc) fun _ => true
            else (if zero then {} else r).encoded <| (List.range 32).map fun n =>
              s.mmaElem kind mc s.grp.mc2 a.toNat b.toNat m n (if zero then 0 else r.elems.getD n 0)
          .retire (t.metErrors h met).dirty

/-- Binds a handle to free banks, waiting with reason ACC. (R122) -/
def execAccAlloc (h : BitVec 3) (s : State) : Outcome :=
  commit 4 s <|
    if (s.grp.acc.getD h.toNat none).isSome then s.badCause h.toNat
    else
      let n := banksOf s.grp.width
      match s.core.freeBanks s.grp.loc.part n with
      | none => .wait .acc s
      | some b =>
        let row : AccRow := { elems := List.replicate 32 0 }
        let owned := (List.range n).map fun j => (⟨s.grp.loc.part, b + j, .owned⟩ : Bank)
        .retire { s with grp := { s.grp with acc := putAt none s.grp.acc h.toNat (some ⟨b, List.replicate s.grp.width row⟩) }
                         core := { s.core with banks := owned ++ s.core.banks } }.dirty

/-- Unbinds a handle after earlier MX instructions on it. (R328) -/
def execAccFree (h : BitVec 3) (s : State) : Outcome :=
  commit 4 s <| s.withAcc h.toNat fun k =>
    .retire { s with grp := { s.grp with acc := putAt none s.grp.acc h.toNat none }
                     core := s.core.releaseBanks s.grp.loc.part k (banksOf s.grp.width) }.dirty

/-- Zeroes active rows and clears their poison and status. (R327) -/
def execAccZero (h : BitVec 3) (s : State) : Outcome :=
  commit 4 s <| s.withAcc h.toNat fun k => .retire (s.rowsAct h.toNat k fun _ _ => { elems := List.replicate 32 0 }).dirty

/-- Reads an accumulator column or the row status into a register. (R327) -/
def execAccRd (h : BitVec 3) (a : BitVec 8) (d : BitVec 7) (s : State) : Outcome :=
  commit 4 s <|
    if s.dBad d then s.badField 0 d.toNat
    else if s.uniBad a then s.badField 1 a.toNat
    else s.withAcc h.toNat fun k =>
      if s.pendingIn [] a || s.pendingD s.activeLanes d then .wait .scoreboard s
      else
        let c := (s.uni a).toNat
        if 32 < c then s.badCause 0x20
        else if c = 32 then .retire (s.vecWrite d fun m => (k.rows.getD m {}).status).dirty
        else match s.rowPoison h.toNat k with
          | some i => i
          | none => s.accRead d h.toNat k fun r => r.elems.getD c 0

/-- Writes q0 into an accumulator column. (R327) -/
def execAccWr (h : BitVec 3) (a : BitVec 8) (s : State) : Outcome :=
  commit 4 s <|
    if s.uniBad a then s.badField 1 a.toNat
    else s.withAcc h.toNat fun k =>
      if s.pendingIn [] a || s.pendingIn s.activeLanes 0x40 then .wait .scoreboard s
      else
        let c := (s.uni a).toNat
        if 31 < c then s.badCause 0x20
        else match s.rowPoison h.toNat k with
          | some i => i
          | none => .retire (s.rowsAct h.toNat k fun m r => { r with elems := putAt 0 r.elems c (s.read 0x40 m) }).dirty

/-- Sets masked-out elements to minus infinity. (R327) -/
def execAccMask (h : BitVec 3) (a : BitVec 8) (s : State) : Outcome :=
  commit 4 s <|
    if s.srcBad a then s.badField 1 a.toNat
    else s.withAcc h.toNat fun k =>
      if s.pendingIn s.activeLanes a then .wait .scoreboard s
      else match s.rowPoison h.toNat k with
        | some i => i
        | none => .retire (s.rowsAct h.toNat k fun m r =>
            let x := s.read a m
            { r with elems := (List.range 32).map fun c => if x.getLsbD c then r.elems.getD c 0 else 0xFF800000
                     inf := r.inf || decide (x ≠ 0xFFFFFFFF) }).dirty

/-- Writes the largest element of each active row. (R327) -/
def execAccRowmax (h : BitVec 3) (d : BitVec 7) (s : State) : Outcome :=
  commit 4 s <|
    if s.dBad d then s.badField 0 d.toNat
    else s.withAcc h.toNat fun k =>
      if s.pendingD s.activeLanes d then .wait .scoreboard s
      else match s.rowPoison h.toNat k with
        | some i => i
        | none => s.accRead d h.toNat k fun r => BitVec.ofNat 32 (r.elems.foldl (fun x e => (fp32.minmax true false x e.toNat).1) fp32.qnan)

/-- Writes the rounded exact sum of each active row. (R327) -/
def execAccRowsum (h : BitVec 3) (d : BitVec 7) (s : State) : Outcome :=
  commit 4 s <|
    if s.dBad d then s.badField 0 d.toNat
    else s.withAcc h.toNat fun k =>
      if s.pendingD s.activeLanes d then .wait .scoreboard s
      else match s.rowPoison h.toNat k with
        | some i => i
        | none => s.accRead d h.toNat k fun r => BitVec.ofNat 32 (sumExact (r.elems.map fun e => f32 e.toNat))

/-- Scales each active row by a per-lane factor. (R327) -/
def execAccRowscl (h : BitVec 3) (a : BitVec 8) (s : State) : Outcome :=
  commit 4 s <|
    if s.srcBad a then s.badField 1 a.toNat
    else s.withAcc h.toNat fun k =>
      if s.pendingIn s.activeLanes a then .wait .scoreboard s
      else match s.rowPoison h.toNat k with
        | some i => i
        | none =>
          let t := s.rowsAct h.toNat k fun m r =>
            if r.bad then r.met true fun _ => true
            else r.encoded (r.elems.map fun e => let v := mxMul e.toNat (s.read a m).toNat; encOf v (f32 v) false)
          .retire (t.metErrors h.toNat (k.badRows s.activeLanes)).dirty

/-- Loads an A fragment from the window. (R320) -/
def execFragLda (a : BitVec 8) (d : BitVec 7) (s : State) : Outcome :=
  s.frag d a 8 32 (fun p i => [(i * p, 32)]) dataPitch

/-- Loads a B fragment from the window. (R320) -/
def execFragLdb (a : BitVec 8) (d : BitVec 7) (s : State) : Outcome :=
  s.frag d a (bRegs s.grp.width) 32 (bRows s.grp.width 32) dataPitch

/-- Loads A block scales. (R322) -/
def execFragLdas (a : BitVec 8) (d : BitVec 7) (s : State) : Outcome :=
  s.frag d a 1 1 (fun p i => [(i * p, 1)]) scalePitch

/-- Loads B block scales. (R322) -/
def execFragLdbs (a : BitVec 8) (d : BitVec 7) (s : State) : Outcome :=
  s.frag d a 1 1 (bRows s.grp.width 1) scalePitch

/-- Builds root-path masks from parent indices. (R331) -/
def execTreemask (h : BitVec 1) (a : BitVec 8) (d : BitVec 7) (s : State) : Outcome :=
  commit 4 s <| match s.crossCheck d a none with
    | some i => i
    | none =>
      let (c, t) := s.peekChoice a
      let par (j : Nat) : Nat := (s.peek c a j).toNat
      .retire (t.loadOp none (dReg d) (!d.getLsbD 6) 1 fun i =>
        let m := treeWalk par 64 i
        [if h = 0 then m.setWidth 32 else (m >>> 32).setWidth 32]).dirty

/-- 64 cycles of ACC waits trap the youngest group. (R123) -/
def execAccStarve (core part : Nat) (s : State) : Outcome :=
  let s := s.focusCore core
  let gs := (s.partGroups part).filter fun g => !g.agent
  let ents := gs.flatMap fun g => if g.gstate = .ready then g.sibs.filter Entity.live else []
  if gs.any (fun g => g.gstate = .trapped) ∨ ents = [] ∨ ents.any (fun e => e.status ≠ .waiting .acc) then .refused .notDue
  else
    let ready := gs.filter fun g => g.gstate = .ready
    let young := (ready.map Group.age).foldl max 0
    match ready.find? fun g => g.age = young with
    | none => .refused .notDue
    | some g => match (List.range 32).find? fun n => g.sibs.any fun e => e.live && e.num = n with
      | none => .refused .notDue
      | some n => match s.focus g.loc n with
        | none => .refused .notDue
        | some t => .next (t.takeTrap (t.trapHere .accStarve))

/-- A freed accumulator bank finishes zeroing. (R122) -/
def execBankZeroDone (core part bank : Nat) (s : State) : Outcome :=
  let s := s.focusCore core
  if s.core.banks.contains ⟨part, bank, .zeroing⟩ then
    .next { s with core := { s.core with banks := s.core.banks.filter fun x => x != ⟨part, bank, .zeroing⟩ } }
  else .refused .notDue

/-- A poisoned bank's scrub test ends, freeing or withholding it. (R122) -/
def execBankScrubDone (core part bank : Nat) (pass : Bool) (s : State) : Outcome :=
  let s := s.focusCore core
  let b : Bank := ⟨part, bank, .poisoned⟩
  if s.core.banks.contains b then
    let rest := s.core.banks.filter fun x => x != b
    .next { s with core := { s.core with banks := if pass then rest else ⟨part, bank, .withheld⟩ :: rest } }
  else .refused .notDue

end Sys2Proof.Machine
end

