-- ==== Sys2Proof/Machine/Access.lean ====
section
/-! DEFINITION. Performing the accesses of outstanding operations (09_consistency.md R147 to R152): each single-copy atomic access takes its
place in the write order at one moment between its issue and the completion of its operation; accesses of one entity on one path to bytes
that meet are performed in program order. The steps of atomics (20_isa_memory.md R299, R300), and the bytes of barriers (11_barrier.md R177). -/
namespace Sys2Proof.Machine
open Sys2Proof

/-! ## Atomics -/

/-- The new value of an atomic (R299) on n-bit values. -/
def atomOp {n : Nat} (op : Nat) (old val : BitVec n) : BitVec n :=
  match op with
  | 0 => old + val
  | 1 => if old.sle val then old else val
  | 2 => if old ≤ val then old else val
  | 3 => if old.sle val then val else old
  | 4 => if old ≤ val then val else old
  | 5 => old &&& val
  | 6 => old ||| val
  | _ => val

/-- One lane's step on the n bytes it addresses: the new value of the old. -/
def atomStep (size op : Nat) (val : BitVec 64) (old : BitVec 64) : BitVec 64 :=
  if size = 4 then (atomOp op (old.setWidth 32) (val.setWidth 32)).setWidth 64 else atomOp op old val

def casStep (size : Nat) (e v : BitVec 64) (old : BitVec 64) : BitVec 64 :=
  if size = 4 then (if old.setWidth 32 = e.setWidth 32 then v &&& 0xFFFFFFFF else old) else if old = e then v else old

/-! ## Barriers in the window (R177) -/

/-- The scratchpad address of a window offset on a core of the team in front (R131). -/
def State.teamAddr (s : State) (core off : Nat) : Nat := (if core = s.team.core then s.team.base else s.team.base2) + off

/-- The 16 bytes of a barrier (R177). -/
def Barrier.bits (b : Barrier) : Nat := b.status.toNat * 2 ^ 64 + b.expected * 2 ^ 48 + b.arrived * 2 ^ 32 + b.phases % 2

/-- The barrier at a place, also one whose registration has not reached its slot. -/
def Team.barrierAt (t : Team) (core off : Nat) : Option Barrier := t.barriers.find? fun b => b.core = core && b.off = off

/-- The barrier that is registered at a place. -/
def Team.barrier? (t : Team) (core off : Nat) : Option Barrier := (t.barrierAt core off).filter Barrier.reached

/-- Keeps a barrier and writes its bytes to the window, as the device does after every change. -/
def State.putBarrier (s : State) (b : Barrier) : State :=
  let s : State := { s with team := { s.team with barriers := upsert (fun k => k.core = b.core && k.off = b.off) b s.team.barriers } }
  s.spadStore b.core (s.teamAddr b.core b.off) (leBytes b.bits 16)

/-! ## One access -/

/-- The value that a part takes of the bytes read. -/
def Part.value (p : Part) (bs : List Byte) : VAddr :=
  let x := leNat ((bs.drop p.from_).take p.size)
  (if p.signed then ((BitVec.ofNat (8 * p.size) x).signExtend 32).setWidth 80 else BitVec.ofNat 80 x) <<< p.bit

/-- The results of an operation with what a load's or an atomic's parts took. -/
def Op.took (o : Op) (ps : List Part) (bs : List Byte) : Op :=
  { o with fills := o.fills.map fun (f : Fill) => { f with val := ps.foldl (fun v p => if p.dest = f.dest then v ||| p.value bs else v) f.val } }

/-- The parts that an access reads. -/
def AccessKind.parts : AccessKind → List Part
  | .load ps => ps
  | .store _ => []
  | .atom _ _ ps => ps
  | .cas _ _ ps => ps
  | .barInit => []

/-- Whether an access may write. -/
def AccessKind.writes : AccessKind → Bool
  | .load _ => false
  | _ => true

/-- An access without the parts that go to some destinations. -/
def AccessKind.without (ds : List Dest) : AccessKind → AccessKind
  | .load ps => .load (ps.filter fun p => !ds.contains p.dest)
  | .store bs => .store bs
  | .atom o v ps => .atom o v (ps.filter fun p => !ds.contains p.dest)
  | .cas e v ps => .cas e v (ps.filter fun p => !ds.contains p.dest)
  | .barInit => .barInit

/-- An operation one of whose reads met an uncorrectable error (R176): what that read goes to is 0, whatever else is read for it. -/
def Op.met (o : Op) (a : Todo) : Op :=
  let ds := a.what.parts.map Part.dest
  { o with fills := o.fills.map fun (f : Fill) => if ds.contains f.dest then { f with val := 0 } else f
           todo := o.todo.map fun (x : Todo) => { x with what := x.what.without ds }
           poisoned := o.poisoned ++ [(a.lane, a.va)] }

/-- The bytes at an access; none where they hold an uncorrectable error (R124, R176). -/
def State.todoRead (s : State) (a : Todo) : Option (List Byte) :=
  match a.spad with
  | none => if s.poisonedAt a.addr a.size then none else some (s.mem.readBytes a.addr a.size)
  | some c => if s.spadBad c a.addr a.size then none else some ((s.spadOf c).readBytes a.addr a.size)

def State.todoWrite (s : State) (a : Todo) (bs : List Byte) : State :=
  match a.spad with
  | none => s.store a.addr bs
  | some c => s.spadStore c a.addr bs

/-- One step on a location: the new value of the old. Data with an error stays as it is (R176). -/
def State.rmw (s : State) (a : Todo) (f : BitVec 64 → BitVec 64) : State × Option (List Byte) :=
  match s.todoRead a with
  | none => (s, none)
  | some bs => (s.todoWrite a (leBytes (f (BitVec.ofNat 64 (leNat bs))).toNat a.size), some bs)

/-- What an access does, and what it returns: none where it met an uncorrectable error. -/
def State.doAccess (s : State) (a : Todo) : State × Option (List Byte) :=
  match a.what with
  | .load _ => (s, s.todoRead a)
  | .store bs => (s.todoWrite a bs, some [])
  | .atom op v _ => s.rmw a (atomStep a.size op v)
  | .cas e v _ => s.rmw a (casStep a.size e v)
  | .barInit => match (a.spad.bind fun c => s.team.barrierAt c a.addr) with
    | some b => (if b.reached then s else s.putBarrier { b with reached := true }, some [])
    | none => (s, some [])

/-! ## The accesses of an operation -/

/-- Whether an access must wait for one that precedes it in program order on its path (R149). -/
def Group.blocked (g : Group) (o : Op) (a : Todo) : Bool := g.ops.any fun x => o.after.contains x.id && x.todo.any a.meets

/-- Performs access k of an operation of the group in front; none where there is no such access, or one that precedes it holds it. -/
def State.perform (s : State) (op k : Nat) : Option State :=
  (s.grp.ops.find? fun o => o.id = op).bind fun o => (o.todo[k]?).bind fun a =>
    if s.grp.blocked o a then none
    else
      let r := s.doAccess a
      let rest : Op := { o with todo := o.todo.eraseIdx k }
      let x := match r.2 with
        | some bs => rest.took a.what.parts bs
        | none => rest.met a
      some { r.1 with grp := { r.1.grp with ops := r.1.grp.ops.map fun y => if y.id = op then x else y } }

/-- Performs the first n accesses that an operation has left. -/
def State.performN : Nat → Nat → State → Option State
  | 0, _, s => some s
  | n + 1, op, s => (s.perform op 0).bind (State.performN n op)

/-- Performs what an operation has left. -/
def State.performAll (s : State) (op : Nat) : Option State :=
  match s.grp.ops.find? fun o => o.id = op with
  | none => none
  | some o => s.performN o.todo.length op

/-- Performs what some operations have left, in order, as far as it may be. -/
def State.performOps (s : State) (ops : List Nat) : State := ops.foldl (fun s op => (s.performAll op).getD s) s

/-- The registrations of the entity in front reach their slots: its BAR operations do so in issue order (R305). -/
def State.reachSlots (s : State) : State :=
  s.performOps (((s.grp.earlier s.ent).filter fun o => o.todo.any fun a => a.what = .barInit).map Op.id)

end Sys2Proof.Machine
end

