-- ==== Sys2Proof/Machine/Sync.lean ====
section
/-! DEFINITION. Barriers and rings (11_barrier.md R177 to R184, 20_isa_memory.md R305, R306). -/
namespace Sys2Proof.Machine
open Sys2Proof

/-! ## Barriers -/

/-- One arrival (R178): true when it ends the phase. -/
def Barrier.arrive (b : Barrier) : Barrier × Bool :=
  if b.arrived + 1 = b.expected then ({ b with arrived := 0, phases := b.phases + 1 }, true) else ({ b with arrived := b.arrived + 1 }, false)

/-- The arrival of a command that has ended, with its status word (R177, R178). -/
def Barrier.arriveCommand (b : Barrier) (status : BitVec 64) : Barrier :=
  let b := if b.failed then b else { b with status, failed := status.getLsbD 62 }
  b.arrive.1

/-- The groups of the team in front. -/
def State.teamGroups (s : State) : List Group := s.allGroups.filter fun g => !g.agent && g.team = s.team.serial

/-- Whether an entity waits for the current phase of a barrier. -/
def State.hasWaiter (s : State) (b : Barrier) : Bool :=
  s.teamGroups.any fun g => g.sibs.any fun e => e.live && e.status = .waiting .barrier && e.wd.bar = some ⟨b.core, b.off, b.phases⟩

def State.barFault (s : State) : Issue := .trap (s.trapHere .barFault)

/-- The place of a barrier offset (R179): none where it is misaligned or rejected by R131. -/
def State.barPlace (s : State) (o : Word) : Option (Nat × Nat) :=
  match s.window o 16 16 with
  | .ok c _ => some (c, o.toNat % 2 ^ 23)
  | _ => none

/-- The barrier that a form of the entity in front acts on, once the entity's own registrations have reached their slots (R305). -/
def State.atBarrier (s : State) (c off : Nat) (f : State → Barrier → Issue) : Issue :=
  match s.reachSlots.team.barrier? c off with
  | none => s.barFault
  | some b => f s.reachSlots b

/-- A BAR form other than INIT (R179): f gets the registered barrier. An entity that waits at one goes on with that one. -/
def State.barForm (s : State) (srcs : List Src) (a : BitVec 8) (f : State → Barrier → Issue) : Outcome :=
  commit 4 s <| match s.ent.wd.bar with
    | some w => s.atBarrier w.core w.off f
    | none => match s.scCheck srcs [] with
      | some i => i
      | none => match s.barPlace (s.uni a) with
        | none => s.barFault
        | some (c, off) => s.atBarrier c off f

/-- Waits for the end of a phase (R178). -/
def State.barWaitFor (s : State) (b : Barrier) : Issue :=
  .wait .barrier (s.setEnt fun e => { e with wd := { e.wd with bar := some ⟨b.core, b.off, b.phases⟩ } })

/-- Whether the phase that the entity waits for has ended; none when it waits for none. -/
def State.barOver (s : State) (b : Barrier) : Option Bool := s.ent.wd.bar.map fun w => decide (w.phase < b.phases)

/-! ## Rings -/

def SlotState.num : SlotState → Nat
  | .empty => 0 | .filling => 1 | .filled => 2 | .held => 3 | .poisoned => 4

/-- The 16 bytes of a slot record (R182). -/
def RingSlot.bits (r : RingSlot) : Nat := r.lap.toNat * 2 ^ 112 + r.rels * 2 ^ 96 + r.state.num * 2 ^ 64 + r.status.toNat

/-- The ring of the team in front at a header offset of a core's window. -/
def Team.ring? (t : Team) (core off : Nat) : Option Ring := t.rings.find? fun r => r.core = core && r.off = off

/-- Keeps a ring and writes the record of slot j. -/
def State.putSlot (s : State) (r : Ring) (j : Nat) (x : RingSlot) : State :=
  let r := { r with slots := putAt {} r.slots j x }
  let s : State := { s with team := { s.team with rings := upsert (fun k => k.core = r.core && k.off = r.off) r s.team.rings } }
  s.spadStore r.core (s.teamAddr r.core (r.off + 32 + 16 * j)) (leBytes x.bits 16)

/-- The slot and lap that a position names (R183). -/
def Ring.slotOf (r : Ring) (t : Word) : Nat := t.toNat % 2 ^ r.log2n
def Ring.lapOf (r : Ring) (t : Word) : BitVec 16 := BitVec.ofNat 16 (t.toNat / 2 ^ r.log2n)

def State.ringFault (s : State) : Issue := .trap (s.trapHere .ringFault)

/-- The header that RING.INIT reads, checked (R181): none where it raises RING_FAULT. -/
def State.ringHeader (s : State) (o : Word) : Option Ring :=
  let off := o.toNat
  let h := leNat (s.winLoad o 32)
  let log2n := fieldOf h 6 3
  let n := 2 ^ log2n
  let sz := fieldOf h 14 10
  let base := fieldOf h 24 24
  let recs := off + 32 + 16 * n
  let last := base + n * 64 * sz
  let old := s.team.ring? s.core.num off
  if 2 ^ 23 ≤ off ∨ off % 32 ≠ 0 ∨ s.team.scratch < off + 32 then none
  else if fieldOf h 48 208 ≠ 0 ∨ fieldOf h 1 5 ≠ 0 ∨ log2n = 7 ∨ sz = 0 ∨ base % 64 ≠ 0 then none
  else if s.team.scratch < recs ∨ s.team.scratch < last ∨ (off < last ∧ base < recs) then none
  else if (old.map fun r => r.slots.any fun x => x.state != .empty).getD false then none
  else if old.isNone ∧ 64 ≤ ((s.allTeams.flatMap Team.rings).filter fun r => r.core = s.core.num).length then none
  else some { core := s.core.num, off, slotBase := base, slotSz := sz, cons := fieldOf h 9 5, log2n, slots := List.replicate n {} }

/-- A RING form other than INIT (R306): f gets the ring, the slot's number, and the slot. -/
def State.ringForm (s : State) (a b : BitVec 8) (f : Ring → Nat → RingSlot → BitVec 16 → Issue) : Outcome :=
  commit 4 s <| match s.scCheck [srcA a, srcB b] [] with
    | some i => i
    | none =>
      match s.team.ring? s.core.num (s.uni a).toNat with
      | none => s.ringFault
      | some r =>
        let j := r.slotOf (s.uni b)
        f r j (r.slots.getD j {}) (r.lapOf (s.uni b))

/-- RING.WAIT (R183). -/
def State.ringWait (s : State) (r : Ring) (j : Nat) (x : RingSlot) (p : BitVec 16) : Issue :=
  if p = x.lap then
    match x.state with
    | .filled => .retire (s.putSlot r j { x with state := .held }).dirty
    | .held => .retire s.dirty
    | .poisoned => .retire s.dirty
    | _ => .wait .ring s
  else if (p - x.lap).toNat < 2 ^ 15 then .wait .ring s
  else s.ringFault

/-- A release of every earlier access of the entity in front: each has been performed (R154). -/
def State.released (s : State) : State := s.performOps (s.grp.before s.ent)

/-- RING.REL (R183): a release, so the slot changes after the entity's earlier accesses have been performed (R158). -/
def State.ringRel (s : State) (r : Ring) (j : Nat) (x : RingSlot) (p : BitVec 16) : Issue :=
  if x.state = .empty ∨ x.state = .filling ∨ p ≠ x.lap then s.ringFault
  else if x.rels < r.cons then .retire (s.released.putSlot r j { x with rels := x.rels + 1 }).dirty
  else .retire (s.released.putSlot r j { x with state := .empty, rels := 0, lap := x.lap + 1 }).dirty

/-- The four words of a 16-byte record, pushed as a load (R305, R306). -/
def State.pushRecord (s : State) (bits : Nat) : State :=
  s.loadOp none none true 4 fun _ => (List.range 4).map fun k => BitVec.ofNat 32 (fieldOf bits (32 * k) 32)

/-- Registers a ring and empties its slots. (R306) -/
def execRingInit (a : BitVec 8) (s : State) : Outcome :=
  commit 4 s <| match s.scCheck [srcA a] [] with
    | some i => i
    | none =>
      if s.grp.count .sp ≠ 0 then .wait .counter s
      else match s.ringHeader (s.uni a) with
        | none => s.ringFault
        | some r =>
          let h := leNat (s.winLoad (s.uni a) 32)
          let t := s.spadStore r.core (s.teamAddr r.core r.off) (leBytes (h / 2 * 2 + 1) 32)
          .retire ((List.range r.slots.length).foldl (fun t j => t.putSlot r j {}) t).dirty

/-- Waits for a ring position to be filled; acquire. (R183) -/
def execRingWait (b : BitVec 8) (a : BitVec 8) (s : State) : Outcome :=
  s.ringForm a b s.ringWait

/-- Releases a ring position. (R183) -/
def execRingRel (b : BitVec 8) (a : BitVec 8) (s : State) : Outcome :=
  s.ringForm a b s.ringRel

/-- Pushes a slot record. (R306) -/
def execRingStat (b : BitVec 8) (a : BitVec 8) (s : State) : Outcome :=
  s.ringForm a b fun _ _ x _ => .retire (s.pushRecord x.bits).dirty

/-- The registration of a new barrier: it is on its way to its slot, and other entities find the offset unregistered until it has
reached it (R305, R406). -/
def State.registerBarrier (s : State) (c off n : Nat) : State :=
  ({ s with team := { s.team with barriers := s.team.barriers ++ [{ core := c, off, expected := n, reached := false }] } } : State).addOp
    { id := 0, ent := 0, path := none, todo := [{ lane := 64, spad := some c, addr := off, size := 16, va := 0, what := .barInit }] }

/-- Registers a barrier with EXPECTED arrivals. (R178) -/
def execBarInit (b : BitVec 8) (a : BitVec 8) (s : State) : Outcome :=
  commit 4 s <| match s.scCheck [srcA a, srcB b] [] with
    | some i => i
    | none =>
      let n := (s.uni b).toNat
      match s.barPlace (s.uni a) with
      | none => s.barFault
      | some (c, off) =>
        if n = 0 ∨ 65535 < n then s.barFault
        else match s.team.barrierAt c off with
          | some k =>
            if k.arrived ≠ 0 ∨ s.hasWaiter k then s.barFault
            else .retire (s.putBarrier { core := c, off, expected := n, phases := 2 * (k.phases / 2 + 1) }).dirty
          | none =>
            if s.team.bars ≤ (s.team.barriers.filter fun k => k.core = c).length then s.barFault
            else .retire (s.registerBarrier c off n).dirty

/-- One arrival, after path counts drain. (R178) -/
def execBarArrive (a : BitVec 8) (s : State) : Outcome :=
  s.barForm [srcA a] a fun s k => if s.grp.drained then .retire (s.showWords.putBarrier k.arrive.1).dirty else .wait .counter s

/-- Waits for the current phase to end. (R178) -/
def execBarWait (b : BitVec 8) (a : BitVec 8) (s : State) : Outcome :=
  s.barForm [srcA a, srcB b] a fun s k => match s.barOver k with
    | some over_ => if over_ then .retire s.dirty else .wait .barrier s
    | none => if decide (k.phases % 2 = 1) ≠ (s.uni b).getLsbD 0 then .retire s.dirty else s.barWaitFor k

/-- Pushes the barrier's 16 bytes as a load. (R305) -/
def execBarStat (a : BitVec 8) (s : State) : Outcome :=
  s.barForm [srcA a] a fun s k => .retire (s.pushRecord k.bits).dirty

/-- Arrival followed by a wait for that phase. (R305) -/
def execBarSync (a : BitVec 8) (s : State) : Outcome :=
  s.barForm [srcA a] a fun s k => match s.barOver k with
    | some over_ => if over_ then .retire s.dirty else .wait .barrier s
    | none =>
      if !s.grp.drained then .wait .counter s
      else if k.arrive.2 then .retire (s.showWords.putBarrier k.arrive.1).dirty
      else (s.showWords.putBarrier k.arrive.1).dirty.barWaitFor k.arrive.1

end Sys2Proof.Machine
end

