-- ==== Sys2Proof/Machine/Perm.lean ====
section
/-! DEFINITION. Permutation registers, the Pergola, and the PERM and PERM.ACC forms (14_permutations.md,
22_isa_perm_order.md R334 to R343). -/
namespace Sys2Proof.Machine
open Sys2Proof

/-! ## The network (R218) -/

/-- One loop of the looping rule: input port p goes to the upper half; its destination's output switch is set by it, and the
partner of that destination forces the input switch it comes from; until the loop closes. -/
def loopRule (pos inv : List Nat) : Nat → Nat → List (Option Bool) × List (Option Bool) → List (Option Bool) × List (Option Bool)
  | 0, _, st => st
  | n + 1, p, (ins, outs) =>
    let d := pos.getD p 0
    let outs := putAt none outs (d / 2) (some (decide (d % 2 = 1)))
    let q := inv.getD (d ^^^ 1) 0
    if (ins.getD (q / 2) none).isSome then (ins, outs)
    else loopRule pos inv n (q ^^^ 1) (putAt none ins (q / 2) (some (decide (q % 2 = 0))), outs)

/-- The inverse list of a bijection on 0 to N − 1. -/
def invOf (pos : List Nat) : List Nat := (List.range pos.length).map fun m => pos.idxOf m

/-- The input and output switches of a level: the lowest unset input switch is set straight, and its loop followed. -/
def levelSwitches (pos : List Nat) : List Bool × List Bool :=
  let inv := invOf pos
  let h := pos.length / 2
  let st := (List.range h).foldl (fun st i =>
    if (st.1.getD i none).isSome then st else loopRule pos inv pos.length (2 * i) (putAt none st.1 i (some false), st.2)) (List.replicate h none, List.replicate h none)
  (st.1.map fun b => b.getD false, st.2.map fun b => b.getD false)

/-- The stages of the network for 2^n ports, each stage's switches in order. -/
def benes : Nat → List Nat → List (List Bool)
  | 0, _ => []
  | 1, pos => [[decide (pos.getD 0 0 = 1)]]
  | n + 1, pos =>
    let (ins, outs) := levelSwitches pos
    let h := pos.length / 2
    let up := (List.range h).map fun k => pos.getD (if ins.getD k false then 2 * k + 1 else 2 * k) 0 / 2
    let lo := (List.range h).map fun k => pos.getD (if ins.getD k false then 2 * k else 2 * k + 1) 0 / 2
    ins :: (((benes n up).zip (benes n lo)).map fun (a, b) => a ++ b) ++ [outs]

/-- The settings of a position list, in the order of the image (R217): switch k of stage s at s × G/2 + k. -/
def settingsOf (pos : List Nat) : List Bool := (benes (Nat.log2 pos.length) pos).flatten

/-- A number whose bit i is the i-th of a list. -/
def bitsNat : List Bool → Nat
  | [] => 0
  | b :: t => b.toNat + 2 * bitsNat t

def widthCode (g : Nat) : Nat := if g = 64 then 2 else if g = 32 then 1 else 0

/-- POS and SETTINGS of an image. -/
def Perm.body (p : Perm) : Nat := bitsNat p.settings * 2 ^ 512 + leNat (p.pos.map (BitVec.ofNat 8))

/-- The 128-byte image (R217). A register that is INVALID holds in POS and SETTINGS what the host has written there (R387), else 0. -/
def Perm.image (p : Perm) (width : Nat) : Nat :=
  widthCode width * 2 ^ 872 + (match p.state with
    | .valid => 2 * 2 ^ 864 + p.body
    | .solving => 0
    | .invalid => p.body)

/-! ## The forms -/

def Group.perm (g : Group) (n : Nat) : Perm := g.pm.getD n {}
def State.setPerm (s : State) (n : Nat) (p : Perm) : State := { s with grp := { s.grp with pm := putAt {} s.grp.pm n p } }

/-- A reader of permutation registers: waits while one is SOLVING, raises PERM_INVALID where a source is INVALID (R219, R335). -/
def State.permReady (s : State) (srcs : List Nat) (dst : List Nat) (f : Issue) : Issue :=
  if (srcs ++ dst).any fun n => (s.grp.perm n).state = .solving then .wait .perm s
  else if srcs.any fun n => (s.grp.perm n).state = .invalid then .trap (s.trapHere .permInvalid)
  else f

/-- A solving form: waits for a place at the Pergola, writes POS and queues the request (R219, R220, R335). -/
def State.solve (s : State) (n : Nat) (pos : List Nat) : Issue :=
  if 4 ≤ s.core.pergola.length then .wait .perm s
  else
    let t := s.setPerm n { state := .solving, pos, settings := [] }
    .retire { t with core := { t.core with pergola := t.core.pergola ++ [(t.grp.loc, n)] } }

/-- PERM.LD and PERM.LDG (R221, R222, R336). -/
def State.permLoad (s : State) (n : BitVec 2) (a : BitVec 8) (gather : Bool) : Outcome :=
  commit 4 s <|
    if s.srcBad a then s.badField 1 a.toNat
    else if s.pendingIn s.ownLanes a then .wait .scoreboard s
    else s.permReady [] [n.toNat] <|
      let (c, t) := s.peekChoice a
      let g := s.grp.width
      let v := (List.range g).map fun j => (s.peek c a j).toNat
      let marked (j : Nat) : Bool := decide (g ≤ v.getD j 0) || (v.take j).contains (v.getD j 0)
      let marks := laneMask (fun j => decide (j < g) && marked j) 64
      if marks ≠ 0 then
        .trap (s.trapHere .permInvalid ((marks ||| (marks >>> 32)).setWidth 32) (laneMask (fun m => decide (m < g) && !v.contains m) 64))
      else t.solve n.toNat (if gather then invOf v else v)

/-- The shuffle of R338. -/
def State.shuffle (s : State) (u : Word) : List Nat :=
  let g := s.grp.width
  let key : BitVec 64 := (s.grp.seed.setWidth 64 <<< 32) ||| 0x800 ||| BitVec.ofNat 64 (s.grp.gid % 32 * 64)
  (List.range (g - 1)).foldl (fun pos i =>
    let k := g - 1 - i
    let x := mix (mix (mix key ^^^ s.teamIndex) ^^^ ((u.setWidth 64 <<< 32) ||| BitVec.ofNat 64 k))
    let m := x.toNat % 2 ^ 32 * (k + 1) / 2 ^ 32
    putAt 0 (putAt 0 pos k (pos.getD m 0)) m (pos.getD k 0)) (List.range g)

/-- The packing of R339: the lanes of c by rank, then the others. -/
def packPos (g : Nat) (c : Mask) : List Nat :=
  let rank (p : Nat → Bool) (j : Nat) : Nat := ((List.range j).filter p).length
  let inC (j : Nat) : Bool := c.getLsbD j
  let count := rank inC g
  (List.range g).map fun j => if inC j then rank inC j else count + rank (fun i => !inC i) j

/-- The length of the cycle of j, by at most n steps from i. -/
def cycleLen (pos : List Nat) (j : Nat) : Nat → Nat → Nat → Nat
  | 0, _, len => len
  | n + 1, i, len => if pos.getD i 0 = j then len + 1 else cycleLen pos j n (pos.getD i 0) (len + 1)

/-- Whether j is the least lane of its cycle. -/
def cycleMin (pos : List Nat) (j : Nat) : Nat → Nat → Bool
  | 0, _ => true
  | n + 1, i => if i = j then true else if i < j then false else cycleMin pos j n (pos.getD i 0)

/-- The word of PERM.CYC (R224). -/
def cycWord (pos : List Nat) : Word :=
  let g := pos.length
  let lens := (List.range g).map fun j => cycleLen pos j g j 0
  let cycles := ((List.range g).filter fun j => cycleMin pos j g (pos.getD j 0)).length
  let fixed := ((List.range g).filter fun j => pos.getD j 0 = j).length
  BitVec.ofNat 32 (lens.foldl max 0 * 2 ^ 24 + cycles * 2 ^ 16 + fixed * 2 ^ 8 + (g - cycles) % 2)

/-- Checks a scatter list and queues its solve. (R336) -/
def execPermLd (n : BitVec 2) (a : BitVec 8) (s : State) : Outcome :=
  s.permLoad n a false

/-- Checks a gather list and queues its solve. (R336) -/
def execPermLdg (n : BitVec 2) (a : BitVec 8) (s : State) : Outcome :=
  s.permLoad n a true

/-- Makes a register the identity at once. (R337) -/
def execPermId (n : BitVec 2) (s : State) : Outcome :=
  commit 4 s <| s.permReady [] [n.toNat] <|
    let pos := List.range s.grp.width
    .retire (s.setPerm n.toNat { state := .valid, pos, settings := settingsOf pos })

/-- Writes the inverse of another register and queues its solve. (R337) -/
def execPermInv (m : BitVec 2) (n : BitVec 2) (s : State) : Outcome :=
  commit 4 s <| s.permReady [m.toNat] [n.toNat] <| s.solve n.toNat (invOf (s.grp.perm m.toNat).pos)

/-- Writes the composition of two registers and queues its solve. (R337) -/
def execPermCmp (m : BitVec 2) (n : BitVec 2) (k : BitVec 2) (s : State) : Outcome :=
  commit 4 s <| s.permReady [k.toNat, m.toNat] [n.toNat] <|
    s.solve n.toNat ((s.grp.perm k.toNat).pos.map fun j => (s.grp.perm m.toNat).pos.getD j 0)

/-- Builds a seeded shuffle and queues its solve. (R338) -/
def execPermRnd (n : BitVec 2) (a : BitVec 8) (s : State) : Outcome :=
  commit 4 s <| match s.scCheck [srcA a] [] with
    | some i => i
    | none => s.permReady [] [n.toNat] <| s.solve n.toNat (s.shuffle (s.uni a))

/-- Builds a packing permutation from a predicate and writes the count to s63. (R339) -/
def execPermPack (n : BitVec 2) (k : BitVec 2) (s : State) : Outcome :=
  commit 4 s <|
    if s.pendingS 63 then .wait .scoreboard s
    else s.permReady [] [n.toNat] <|
      let c := s.predMask k.toNat
      match s.solve n.toNat (packPos s.grp.width c) with
      | .retire t => .retire (t.setS 63 (BitVec.ofNat 32 ((List.range 64).filter fun i => c.getLsbD i).length))
      | i => i

/-- Scatters a vector register by a permutation. (R222) -/
def execPermApply (n : BitVec 2) (a : BitVec 8) (d : BitVec 7) (s : State) : Outcome :=
  commit 4 s <| match s.crossCheck d a none with
    | some i => i
    | none => s.permReady [n.toNat] [] <|
      let (c, t) := s.peekChoice a
      let inv := invOf (s.grp.perm n.toNat).pos
      .retire (t.vecWrite d fun i => s.peek c a (inv.getD i 0))

/-- Writes a register's 128-byte image to the window. (R342) -/
def execPermSt (n : BitVec 2) (a : BitVec 8) (s : State) : Outcome :=
  commit 4 s <| match s.scCheck [srcA a] [] with
    | some i => i
    | none =>
      s.ready false .sp <|
        if (s.grp.perm n.toNat).state = .solving then .wait .perm s
        else match s.checkWindow 128 64 true [(0, s.uni a)] with
          | some t => .trap t
          | none =>
            let image := leBytes ((s.grp.perm n.toNat).image s.grp.width) 128
            .retire (s.addOp { id := 0, ent := 0, path := some .sp, todo := s.winTodo true 128 8 [(0, s.uni a)] fun _ o len => .store ((image.drop o).take len) }).dirty

/-- Pushes the cycle statistics of a permutation. (R341) -/
def execPermCyc (n : BitVec 2) (d : BitVec 7) (s : State) : Outcome :=
  commit 4 s <| match s.vecCheck d [] [] s.activeLanes with
    | some i => i
    | none => s.permReady [n.toNat] [] <| .retire (s.vecWrite d fun _ => cycWord (s.grp.perm n.toNat).pos)

/-- Moves accumulator rows by a permutation, with poison and status. (R343) -/
def execPermAcc (n : BitVec 2) (h : BitVec 3) (s : State) : Outcome :=
  commit 4 s <| match s.grp.acc.getD h.toNat none with
    | none => s.badCause h.toNat
    | some k => s.permReady [n.toNat] [] <|
      let inv := invOf (s.grp.perm n.toNat).pos
      let met := k.badRows (List.range s.grp.width)
      let row (m : Nat) : AccRow := let r := k.rows.getD m {}; if r.bad then r.met false fun _ => true else r
      let rows := (List.range s.grp.width).map fun m => row (inv.getD m 0)
      let t : State := { s with grp := { s.grp with acc := putAt none s.grp.acc h.toNat (some { k with rows }) } }
      .retire (t.metErrors h.toNat met).dirty

/-- The Pergola finishes a solve and the register becomes VALID. (R335) -/
def execSolveDone (core : Nat) (s : State) : Outcome :=
  let s := s.focusCore core
  match s.core.pergola with
  | [] => .refused .notDue
  | (l, n) :: r =>
    let s : State := { s with core := { s.core with pergola := r } }
    .next (s.mapGroups fun g =>
      let p := g.perm n
      if g.loc = l ∧ p.state = .solving then { g with pm := putAt {} g.pm n { p with state := .valid, settings := settingsOf p.pos } } else g)

end Sys2Proof.Machine
end

