-- ==== Sys2Proof/Machine/Order.lean ====
section
/-! DEFINITION. Ordered sections: the Wicket and the ORD forms (13_sections.md, 22_isa_perm_order.md R345 to R349). -/
namespace Sys2Proof.Machine
open Sys2Proof

/-! ## Keys -/

/-- The home Arbour of a key (R208). -/
def keyHome (k : BitVec 64) : Nat :=
  (List.range 22).foldl (fun x i => x ^^^ fieldOf k.toNat (3 * i) (if i = 21 then 1 else 3)) 0

/-- Sequence s against n (R210): (s − n) mod 2^32 in [1, 2^31) is ahead. -/
def seqAhead (s n : Word) : Bool := s != n && decide ((s - n).toNat < 2 ^ 31)
def seqBehind (s n : Word) : Bool := s != n && !seqAhead s n
/-- The condition of WAIT (R210). -/
def seqReached (s n : Word) : Bool := decide ((n - s).toNat < 2 ^ 31)

def State.key? (s : State) (ctx : Nat) (k : BitVec 64) : Option Key := s.dev.keys.find? fun x => x.ctx = ctx && x.key = k
/-- A key as it stands: ABSENT behaves as IDLE(0) with the flag clear. -/
def State.keyAt (s : State) (ctx : Nat) (k : BitVec 64) : Key := (s.key? ctx k).getD { ctx, key := k, n := 0, holder := none }

/-- The status word (R209). -/
def Key.status (k : Key) (outcome : Nat) : Word :=
  BitVec.ofNat 32 (outcome * 2 ^ 30 + k.abandoned.toNat * 2 ^ 29 + k.spilled.toNat * 2 ^ 28)

/-- The overflow slot that a spilled key takes (R214): the first zero slot of the 16 from mix(key) mod 2^OVLOG2. -/
def State.overflowSlot (s : State) (c : Ctx) (k : BitVec 64) : Option Nat :=
  ((List.range 16).map fun i => ((mix k).toNat + i) % 2 ^ c.ovlog2).find? fun j =>
    (s.mem.readBytes (c.ovbase.toNat + 32 * j) 32).all fun b => b = 0

/-- Whether a key has an entry. -/
def State.hasEntry (s : State) (ctx : Nat) (k : BitVec 64) : Bool := (s.key? ctx k).any Key.needed

/-- Makes room for a key's entry (R214): at its home Wicket, or, with its 65,536 entries in use, in the overflow table; none
where both are full. What a taken slot holds beyond being non-zero is free (notes/assumptions/3.md). -/
def State.admitKey (s : State) (k : Key) : Option (Key × State) :=
  if s.hasEntry k.ctx k.key ∨ !k.needed then some (k, s)
  else if (s.dev.keys.filter fun x => x.needed && !x.spilled && keyHome x.key = keyHome k.key).length < 65536 then some (k, s)
  else
    let c := s.ctx k.ctx
    match s.overflowSlot c k.key with
    | none => none
    | some j =>
      let (v, t) := s.free
      let v := if v % 2 ^ 256 = 0 then 1 else v
      some ({ k with spilled := true, ovslot := j }, t.store (c.ovbase.toNat + 32 * j) (leBytes v 32))

/-- Keeps a key, or frees its entry when it is ABSENT again (R210, R214). -/
def State.putKey (s : State) (k : Key) : State :=
  let p (x : Key) : Bool := x.ctx = k.ctx && x.key = k.key
  if k.needed then s.setDev fun d => { d with keys := upsert p k d.keys }
  else (s.setDev fun d => { d with keys := (d.keys.filter fun x => !p x) ++ k.idle.toList }).freeSlots [k]

/-- A job of a draw counts as committed (R199). -/
def State.commitJob (s : State) (draw unit batch : Nat) : State :=
  let upd (w : Draw) : Draw :=
    if w.id = BitVec.ofNat 32 draw then { w with jobs := w.jobs.map fun j => if j.unit = unit ∧ j.batch = batch then { j with committed := true } else j }
    else w
  s.setDev fun d => { d with draws := d.draws.map upd }

/-- The skipped jobs whose sequence is due (R359): the key passes them. -/
def Key.passSkips : Nat → Key → Key
  | 0, k => k
  | n + 1, k => if k.holder.isNone && k.skips.contains k.n then Key.passSkips n { k with n := k.n + 1, skips := k.skips.filter fun x => x != k.n } else k
def Key.passed (k : Key) : Key := k.passSkips (k.skips.length + 1)

/-- A key with a job that is skipped at a sequence (R359): what passing it at once needs of an entry is found (R214). -/
def State.skipKey (s : State) (k : Key) (batch : Word) : Option (Key × State) :=
  let k := { k with skips := k.skips ++ [batch] }
  (s.admitKey k.passed).map fun r => ({ k with spilled := r.1.spilled, ovslot := r.1.ovslot }, r.2)

/-- Re-evaluates the waiters in order of arrival (R210): those that stay, and those that return with their status. An ENTER whose
turn has come in a group that `full` says holds 4 keys returns outcome 3, for its trap (R212). -/
def Key.wake (full : GLoc → Bool) (k : Key) : List Waiter → Key × List (Waiter × Word)
  | [] => ({ k with waiters := [] }, [])
  | w :: t =>
    if w.enter ∧ seqBehind w.seq k.n then
      let r := k.wake full t
      (r.1, (w, k.status 2) :: r.2)
    else if w.enter ∧ w.seq = k.n ∧ k.holder = none then
      let r := Key.wake full { k with holder := if full w.g then none else some w.g } t
      (r.1, (w, k.status (if full w.g then 3 else 0)) :: r.2)
    else if !w.enter && seqReached w.seq k.n then
      let r := k.wake full t
      (r.1, (w, k.status 0) :: r.2)
    else
      let r := k.wake full t
      ({ r.1 with waiters := w :: r.1.waiters }, r.2)

/-- An outcome reaches the entity that waits for it: at its present wait, or at the one that it takes up again after RTE (R97). -/
def Entity.granted (e : Entity) (w : Waiter) (st : Word) : Entity :=
  if e.handling && !w.handler then { e with frame := { e.frame with wd := { e.frame.wd with ordGrant := some st } } }
  else { e with wd := { e.wd with ordGrant := some st } }

/-- Tells a waiting entity its outcome; an admitted group holds the key. -/
def State.grant (s : State) (key : BitVec 64) (w : Waiter) (st : Word) : State :=
  s.mapGroups fun g =>
    if g.loc = w.g then
      { g with keys := if w.enter && fieldOf st.toNat 30 2 = 0 then ⟨key, w.seq⟩ :: g.keys else g.keys
               sibs := g.sibs.map fun e => if e.num = w.ent then e.granted w st else e }
    else g

/-- Whether a group holds as many keys as it may (R212). -/
def State.keysFull (s : State) (l : GLoc) : Bool := s.allGroups.any fun g => g.loc = l && decide (4 ≤ g.keys.length)

/-- A change of a key reaches the Wicket (R210, R211): skips, then waiters, then skips that became due. -/
def State.changeKey (s : State) (k : Key) : State :=
  let r := Key.wake s.keysFull k.passed k.passed.waiters
  r.2.foldl (fun s x => s.grant k.key x.1 x.2) (s.putKey r.1)

/-- The holder's section ends with sequence n next (R210). -/
def State.releaseKey (s : State) (ctx : Nat) (key : BitVec 64) (n : Word) (abandoned : Option Bool) : State :=
  let k := s.keyAt ctx key
  s.changeKey { k with n, holder := none, abandoned := abandoned.getD k.abandoned }

/-- Abandons a key that its holder leaves by being killed or by exiting (R210, R215). -/
def State.abandonKey (s : State) (ctx : Nat) (key : BitVec 64) : State := s.releaseKey ctx key ((s.keyAt ctx key).n + 1) (some true)

/-! ## The forms -/

/-- ORD_WAIT_LIMIT of a context (R44): 0 means 2^24. -/
def Ctx.ordLimit (c : Ctx) : Nat := if c.ordwait = 0 then 2 ^ 24 else c.ordwait

/-- The operand checks and waits of an ORD form (R208, R346 step 2), its key and sequence from the lowest active lane. -/
def State.ordForm (s : State) (a : BitVec 8) (b : Option (BitVec 8)) (f : BitVec 64 → Word → Issue) : Outcome :=
  commit 4 s <|
    if s.pairBad a then s.badField 1 a.toNat
    else if (b.map s.srcBad).getD false then s.badField 2 ((b.map BitVec.toNat).getD 0)
    else match s.activeLanes with
      | [] => s.badCause 0x30
      | i :: _ =>
        if ([a, codePlus a 1] ++ b.toList).any (s.pendingIn [i]) then .wait .scoreboard s
        else f (s.read64 a i) ((b.map fun c => s.read c i).getD 0)

/-- Pushes the status of TRY, ENTER or WAIT as a load is pushed (R209, R345); until it has filled, the entity waits for it (R347). -/
def State.pushStatus (s : State) (st : Word) (try_ : Bool) : Issue := .retire (s.loadOp none none true 1 (fun _ => [st]) [] [] [] (some (!try_))).dirty

def State.holds (s : State) (k : BitVec 64) : Option HeldKey := s.grp.keys.find? fun h => h.key = k

/-- Whether the groups that a chain of waits reaches from `gs` include the entering group (R213). -/
def State.probe (s : State) (me : GLoc) : Nat → List GLoc → Bool
  | 0, _ => false
  | n + 1, gs =>
    if gs.contains me then true
    else State.probe s me n ((s.dev.keys.filter fun k => k.waiters.any fun w => w.enter && gs.contains w.g).filterMap Key.holder)

/-- Waits for a key (R210), which dirties the region (R126), once room for its entry is found (R346 step 6); an ENTER of a HELD key probes first (step 7). -/
def State.ordWaitOn (s : State) (k : Key) (seq : Word) (enter : Bool) : Issue :=
  let w : Waiter := { g := s.grp.loc, ent := s.ent.num, seq, enter, since := s.dev.tick, handler := s.ent.handling }
  match s.admitKey { k with waiters := k.waiters ++ [w] } with
  | none => .trap (s.trapHere .ordCapacity)
  | some (k', t) =>
    if enter && (k.holder.map fun h => s.probe s.grp.loc 9 [h]).getD false then .trap (s.trapHere .ordDeadlock 1)
    else .wait .order (t.putKey k').dirty

/-- Whether the entity already waits at the key. -/
def Key.waits (k : Key) (g : GLoc) (e : Entity) : Bool := k.waiters.any fun w => w.g = g && w.ent = e.num && w.handler == e.handling

/-- ENTER and WAIT: an entity that waits at a key goes on with that wait, whatever its operands hold since, and ends it once its outcome has
returned (R210); an ENTER whose turn came in a group that holds 4 keys traps (R212). -/
def State.ordWaitForm (s : State) (a b : BitVec 8) (f : BitVec 64 → Word → Issue) : Outcome :=
  match s.ent.wd.ordGrant with
  | some st => commit 4 s (if fieldOf st.toNat 30 2 = 3 then .trap (s.trapHere .ordNest 0) else s.pushStatus st false)
  | none => if s.dev.keys.any fun k => k.waits s.grp.loc s.ent then commit 4 s (.wait .order s) else s.ordForm a (some b) f

/-- Admission of the group in front (R210). -/
def State.ordAdmit (s : State) (k : Key) (seq : Word) (try_ : Bool) : Issue :=
  match s.admitKey { k with holder := some s.grp.loc } with
  | none => .trap (s.trapHere .ordCapacity)
  | some (k', t) =>
    let t := t.putKey k'
    { t with grp := { t.grp with keys := ⟨k.key, seq⟩ :: t.grp.keys } }.pushStatus (k'.status 0) try_

/-- ENTER or TRY, past the checks of R346 steps 3 and 4 (R210). -/
def State.ordEnter (s : State) (key : BitVec 64) (seq : Word) (try_ : Bool) : Issue :=
  let k := s.keyAt s.team.ctx key
  if !try_ && (s.holds key).isSome then .trap (s.trapHere .ordDeadlock 0)
  else if 4 ≤ s.grp.keys.length then .trap (s.trapHere .ordNest 0)
  else if seqBehind seq k.n then s.pushStatus (k.status 2) try_
  else if seq = k.n ∧ k.holder = none then s.ordAdmit k seq try_
  else if try_ then s.pushStatus (k.status 1) true
  else s.ordWaitOn k seq true

/-- The group in front leaves a section: a sample program that leaves its own key's commits its job (R199, R349). -/
def State.leaveJob (s : State) (key : BitVec 64) : State :=
  match s.grp.rast with
  | some j => if key = j.key then { s with grp := { s.grp with rast := some { j with left := true } } }.commitJob j.draw j.unit j.batch else s
  | none => s

/-- LEAVE and LEAVEV past their checks (R349): held until the paths are drained and every earlier RAST.SOUT has completed. -/
def State.ordLeave (s : State) (h : HeldKey) (next : Word) (flag : Option Bool) : Issue :=
  if !s.grp.drained || s.grp.ops.any (fun o => o.sout && !o.done) then .wait .counter s
  else
    let t : State := { s.leaveJob h.key with grp := { (s.leaveJob h.key).grp with keys := s.grp.keys.filter fun x => x != h } }
    .retire (t.releaseKey t.team.ctx h.key next flag).dirty

/-- Sets a key's sequence if it is not held. (R210) -/
def execOrdInit (b : BitVec 8) (a : BitVec 8) (s : State) : Outcome :=
  s.ordForm a (some b) fun key m =>
    let k := s.keyAt s.team.ctx key
    if k.holder.isSome then .retire (s.loadOp none none true 1 fun _ => [k.status 1]).dirty
    else match s.admitKey { k with n := m, abandoned := false } with
      | none => .trap (s.trapHere .ordCapacity)
      | some (k', t) => .retire ((t.loadOp none none true 1 fun _ => [k'.status 0]).changeKey k').dirty

/-- Enters an ordered section at a sequence, waiting its turn. (R210) -/
def execOrdEnter (b : BitVec 8) (a : BitVec 8) (s : State) : Outcome :=
  s.ordWaitForm a b fun key q => s.ordEnter key q false

/-- Tries to enter an ordered section without waiting. (R210) -/
def execOrdTry (b : BitVec 8) (a : BitVec 8) (s : State) : Outcome :=
  s.ordForm a (some b) fun key q => s.ordEnter key q true

/-- Waits until a key's sequence reaches a value. (R210) -/
def execOrdWait (b : BitVec 8) (a : BitVec 8) (s : State) : Outcome :=
  s.ordWaitForm a b fun key q =>
    let k := s.keyAt s.team.ctx key
    if seqReached q k.n then s.pushStatus (k.status 0) false
    else s.ordWaitOn k q false

/-- Leaves a held section, advancing the key by one. (R349) -/
def execOrdLeave (b : BitVec 8) (a : BitVec 8) (s : State) : Outcome :=
  s.ordForm a (some b) fun key q =>
    match s.holds key with
    | none => .trap (s.trapHere .ordNest 1)
    | some h => if h.seq ≠ q then .trap (s.trapHere .ordNest 1) else s.ordLeave h (q + 1) none

/-- Leaves a held section, setting the next sequence. (R349) -/
def execOrdLeavev (b : BitVec 8) (a : BitVec 8) (s : State) : Outcome :=
  s.ordForm a (some b) fun key v =>
    match s.holds key with
    | none => .trap (s.trapHere .ordNest 1)
    | some h => s.ordLeave h v (some false)

/-- Pushes a key's state word and sequence. (R348) -/
def execOrdQuery (a : BitVec 8) (s : State) : Outcome :=
  s.ordForm a none fun key _ =>
    let k := s.keyAt s.team.ctx key
    let st : Nat := if k.holder.isSome then 2 else if k.needed then 1 else 0
    let w := BitVec.ofNat 32 (st * 2 ^ 30 + k.abandoned.toNat * 2 ^ 29 + k.spilled.toNat * 2 ^ 28 + (if (s.holds key).isSome then 2 ^ 27 else 0) + min 63 k.waiters.length)
    .retire (s.loadOp none none true 2 fun _ => [k.n, w]).dirty

/-- An ENTER or WAIT has waited ORD_WAIT_LIMIT ticks. While another entity handles a trap, its own is pending (R381). (R214) -/
def execOrdTimeout (g : GLoc) (ent : Nat) (s : State) : Outcome :=
  match s.focus g ent with
  | none => .refused .notDue
  | some t =>
    match t.dev.keys.findSome? fun k => (k.waiters.find? fun w => w.g = g && w.ent = ent && w.handler == t.ent.handling).map fun w => (k, w) with
    | none => .refused .notDue
    | some (_, w) =>
      if t.ent.status ≠ .waiting .order ∨ (t.ctx t.team.ctx).state ≠ .resident ∨ t.dev.tick < w.since + ((t.ctx t.team.ctx).ordLimit - t.ent.wd.ordTicks) then .refused .notDue
      else
        let t := (t.withdraw fun x => x.g = g && x.ent = ent && x.handler == t.ent.handling).setEnt fun e => { e with wd := {} }
        .next (t.takeTrap (t.trapHere .ordTimeout w.seq))

/-- A killed or exited holder's writes drain and its key advances ABANDONED; a sample program has then left its section (R215). (R210) -/
def execKeyAbandon (ctx : Nat) (key : BitVec 64) (s : State) : Outcome :=
  match s.dev.keys.find? fun k => k.ctx = ctx && k.key = key with
  | none => .refused .notDue
  | some k =>
    match k.holder with
    | none => .refused .notDue
    | some l =>
      let holds (g : Group) : Bool := g.loc = l && g.keys.any fun h => h.key = key
      -- a holder that was killed while it was saved stands nowhere
      if (s.ctx ctx).saved.any fun c => c.groups.any holds then .refused .notDue
      else if !s.allGroups.any (fun g => holds g && (s.allTeams.any fun t => t.serial = g.team && t.ctx = ctx)) then .next (s.abandonKey ctx key)
      else match s.focusGroup l with
      | none => .refused .notDue
      | some t =>
        if t.grp.gstate ≠ .exited ∨ t.grp.ops.any fun o => !o.done then .refused .notDue
        else
          let u := (t.leaveJob key).abandonKey ctx key
          .next ({ u with grp := { u.grp with keys := u.grp.keys.filter fun h => h.key != key } }.dropStale u.grp)

end Sys2Proof.Machine
end

