-- ==== Sys2Proof/Machine/Message.lean ====
section
/-! DEFINITION. Message queues and the tag table (08_memory.md R133 to R136, 20_isa_memory.md R310, R311). -/
namespace Sys2Proof.Machine
open Sys2Proof

/-! ## Message queues -/

/-- The entries present (R133). -/
def Mq.count (m : Mq) : Nat := (m.t - m.h).toNat
/-- The scratchpad address of entry k of queue n. -/
def mqAddr (n k : Nat) : Nat := 491520 + 8192 * n + 64 * (k % 128)

def Core.mq (k : Core) (n : Nat) : Mq := k.mqs.getD n {}
def Core.setMq (k : Core) (n : Nat) (m : Mq) : Core := { k with mqs := putAt {} k.mqs n m }

/-- The core at a position of the cluster of the group in front (R310). -/
def State.clusterCore (s : State) (p : Nat) : Nat := s.core.num / 8 * 8 + p

/-- The operation of a send completes with a word in every lane that waits for it (R134, R310). -/
def State.resolveSend (s : State) (x : MqSend) (w : Word) : State :=
  s.mapHeld fun g =>
    if g.loc = x.from_ then
      ({ g with ops := g.ops.map fun (o : Op) => if o.id = x.op then { o with fills := o.fills.map fun (f : Fill) => { f with val := w.setWidth 80 } } else o }).complete x.op
    else g

/-- RECV and POP claim an unclaimed queue (R133); a queue of another team raises MQ_FAULT with TDATA = q (R310). -/
def State.mqOwn (s : State) (q : Nat) (f : State → Mq → Issue) : Issue :=
  let m := s.core.mq q
  match m.owner with
  | none =>
    let m := { m with owner := some s.team.serial, ownerCtx := s.team.ctx }
    f { s with core := s.core.setMq q m } m
  | some n => if n = s.team.serial then f s m else .trap (s.trapHere .mqFault (BitVec.ofNat 32 q))

/-! ## The tag table -/

/-- The set of a key (R135): the exclusive-or of its bytes. -/
def tagSet (k : BitVec 64) : Nat := (List.range 8).foldl (fun x i => x ^^^ fieldOf k.toNat (8 * i) 8) 0

def tagFind (l : List TagEntry) (ctx : Nat) (k : BitVec 64) : Option TagEntry := l.find? fun e => e.ctx = ctx && e.key = k
def tagDrop (l : List TagEntry) (ctx : Nat) (k : BitVec 64) : List TagEntry := l.filter fun e => !(e.ctx = ctx && e.key = k)

/-- TAG.SET (R135): the result and the table. -/
def tagPut (l : List TagEntry) (ctx : Nat) (k : BitVec 64) (slot : Word) : Word × List TagEntry :=
  if slot = 0xFFFFFFFF then (slot, tagDrop l ctx k)
  else match tagFind l ctx k with
    | some _ => (slot, l.map fun e => if e.ctx = ctx ∧ e.key = k then { e with slot } else e)
    | none => match lowestFree ((l.filter fun e => e.set = tagSet k).map TagEntry.way) 4 with
      | some w => (slot, ⟨tagSet k, w, ctx, k, slot⟩ :: l)
      | none => (0xFFFFFFFF, l)

/-- The checks and waits of a TAG form with a key (R311). -/
def State.tagForm (s : State) (a : BitVec 8) (b : Option (BitVec 8)) (f : Issue) : Outcome :=
  commit 4 s <|
    if s.pairBad a then s.badField 1 a.toNat
    else if (b.map s.srcBad).getD false then s.badField 2 ((b.map BitVec.toNat).getD 0)
    else s.ready (([a, codePlus a 1] ++ b.toList).any (s.pendingIn s.activeLanes)) .sp f

/-- The lanes' SETs one after another, in ascending order (R311). -/
def tagPuts (ctx : Nat) (key : Nat → BitVec 64) (slot : Nat → Word) : List TagEntry → List Nat → List (Nat × Word) × List TagEntry
  | l, [] => ([], l)
  | l, i :: t =>
    let r := tagPut l ctx (key i) (slot i)
    let q := tagPuts ctx key slot r.2 t
    ((i, r.1) :: q.1, q.2)

/-- The earlier scratchpad writes of the entity in front to some bytes (R310). -/
def State.spWrites (s : State) (c a n : Nat) : List Nat :=
  let at_ : Todo := { lane := 64, spad := some c, addr := a, size := n, va := 0, what := .load [] }
  ((s.grp.earlier s.ent).filter fun o => o.path = some .sp && o.todo.any fun x => x.meets at_ && x.what.writes).map Op.id

/-- The 64 bytes that MQ.SEND reads, once the entity's earlier scratchpad writes to them have been performed (R310). -/
def State.sendFrom (s : State) (o : Word) : State :=
  match s.window o 64 1 with
  | .ok c a => s.performOps (s.spWrites c a 64)
  | _ => s

/-- Sends 64 bytes to a cluster message queue. (R310) -/
def execMqSend (q : BitVec 2) (a : BitVec 8) (s : State) : Outcome :=
  commit 4 s <| match s.scCheck [srcA a] [] with
    | some i => i
    | none =>
      let v := s.uni a
      if v.toNat / 2 ^ 27 ≠ 0 then s.badField 1 a.toNat
      else s.ready false .mq <|
        let p := fieldOf v.toNat 24 3
        let o : Word := v &&& 0xFFFFFF
        match s.checkWindow 64 64 true [(0, o)] with
        | some t => .trap t
        | none =>
          let c := s.clusterCore p
          let m := (s.coreOf c).mq q.toNat
          if m.owner.isSome ∧ m.ownerCtx ≠ s.team.ctx then .trap (s.trapHere .mqFault (BitVec.ofNat 32 (p * 4 + q.toNat)))
          else
            let s := s.sendFrom o
            let t := (s.pushPending 1).addOp { id := 0, ent := 0, path := some .mq, auto := false, fills := s.activeLanes.map fun i => ⟨.q i 0, 0⟩ }
            .retire (t.onCore c fun k =>
              let m := k.mq q.toNat
              k.setMq q.toNat { m with sends := m.sends ++ [{ from_ := s.grp.loc, op := s.nextOp, ctx := s.team.ctx, bytes := s.winLoad o 64 }] }).dirty

/-- Reads words of entries of the own queue. (R310) -/
def execMqRecv (q : BitVec 2) (a : BitVec 8) (d : BitVec 7) (s : State) : Outcome :=
  commit 4 s <|
    if s.dBad d then s.badField 0 d.toNat
    else match s.scCheck [srcA a] [] with
      | some i => i
      | none =>
        if s.pendingD s.activeLanes d then .wait .scoreboard s
        else s.mqOwn q.toNat fun t m =>
          let at_ (i : Nat) : Nat := mqAddr q.toNat (m.h.toNat + ((s.uni a).toNat + i / 16)) + 4 * (i % 16)
          let there (i : Nat) : Bool := decide ((s.uni a).toNat + i / 16 < m.count)
          let bad (i : Nat) : Bool := s.spadBad s.core.num (at_ i) 4
          let word (i : Nat) : Word := if there i && !bad i then BitVec.ofNat 32 (leNat (s.core.spad.readBytes (at_ i) 4)) else 0
          .retire (t.loadOp none (dReg d) (!d.getLsbD 6) 1 (fun i => [word i]) [] []
            ((s.activeLanes.filter fun i => there i && bad i).map fun i => (i, BitVec.ofNat 80 (at_ i)))).dirty

/-- Removes entries at the head of the own queue. (R310) -/
def execMqPop (q : BitVec 2) (a : BitVec 8) (s : State) : Outcome :=
  commit 4 s <| match s.scCheck [srcA a] [] with
    | some i => i
    | none => s.mqOwn q.toNat fun t m =>
      let n := min (s.uni a).toNat m.count
      let t : State := { t with core := t.core.setMq q.toNat { m with h := m.h + BitVec.ofNat 16 n } }
      .retire (t.loadOp none none true 1 fun _ => [BitVec.ofNat 32 (m.count - n)]).dirty

/-- Looks up a key in the tag table. (R311) -/
def execTagLook (a : BitVec 8) (s : State) : Outcome :=
  s.tagForm a none <|
    let look (i : Nat) : Word := ((tagFind s.core.tags s.team.ctx (s.read64 a i)).map TagEntry.slot).getD 0xFFFFFFFF
    .retire (s.loadOp (some .sp) none true 1 fun i => [look i]).dirty

/-- Sets a key's slot in the tag table. (R311) -/
def execTagSet (b : BitVec 8) (a : BitVec 8) (s : State) : Outcome :=
  s.tagForm a (some b) <|
    let r := tagPuts s.team.ctx (s.read64 a) (s.read b) s.core.tags s.activeLanes
    let t := s.loadOp (some .sp) none true 1 fun i => [(r.1.lookup i).getD 0]
    .retire { t with core := { t.core with tags := r.2 } }.dirty

/-- Invalidates a key's entry. (R311) -/
def execTagClr (a : BitVec 8) (s : State) : Outcome :=
  s.tagForm a none <|
    let t := s.addOp { id := 0, ent := 0, path := some .sp }
    .retire { t with core := { t.core with tags := s.activeLanes.foldl (fun l i => tagDrop l s.team.ctx (s.read64 a i)) s.core.tags } }.dirty

/-- Invalidates every entry of the context on the core. (R311) -/
def execTagInv (s : State) : Outcome :=
  commit 4 s <| s.ready false .sp <|
    let t := s.addOp { id := 0, ent := 0, path := some .sp }
    .retire { t with core := { t.core with tags := t.core.tags.filter fun e => e.ctx != s.team.ctx } }.dirty

/-- A waiting send is delivered when an entry frees. (R134) -/
def execMqDeliver (core q : Nat) (s : State) : Outcome :=
  let m := (s.coreOf core).mq q
  match m.sends with
  | [] => .refused .notDue
  | x :: r =>
    if m.owner = none ∨ m.ownerCtx ≠ x.ctx then
      .next ((s.onCore core fun k => k.setMq q { m with sends := r }).resolveSend x 0xFFFFFFFF)
    else if 128 ≤ m.count then .refused .notDue
    else
      let s := s.spadStore core (mqAddr q m.t.toNat) x.bytes
      let m := { m with t := m.t + 1, sends := r }
      .next ((s.onCore core fun k => k.setMq q m).resolveSend x (BitVec.ofNat 32 (128 - m.count)))

end Sys2Proof.Machine
end

