-- ==== Sys2Proof/Machine/Sluice.lean ====
section
/-! DEFINITION. The Sluice: XCOPY and the events of its commands (08_memory.md R140 to R143, 20_isa_memory.md R307 to R309,
02_numbers.md R35, 11_barrier.md R184, R185). -/
namespace Sys2Proof.Machine
open Sys2Proof

/-! ## Accesses of the units (R174) -/

/-- The parts of a run of bytes that lie in one page each. -/
def pieces : Nat → Nat → Nat → List (Nat × Nat)
  | 0, _, _ => []
  | n + 1, va, len =>
    let k := min len (2 ^ 16 - va % 2 ^ 16)
    if len = 0 then [] else (va % 2 ^ 80, k) :: pieces n (va + k) (len - k)
def piecesOf (va : VAddr) (len : Nat) : List (Nat × Nat) := pieces (len / 2 ^ 16 + 2) va.toNat len

/-- What a unit's access comes to: an error code (1 XLATE, 2 ACCESS, 3 DATA_POISON), or pages that hold it (R143, R174). -/
inductive GRes where
  | ok
  | err (code : Nat)
  | held (pages : List (HeldPage × Nat))
deriving DecidableEq, Repr

/-- Checks runs of bytes in the order of R171: malformed, permission or hole, POISONED, then INVALID or MIGRATING. A page-table page that is
poisoned comes first: what holds the access there is the fatal event of R50 (`State.openSlot`). A malformed entry that these units meet writes
no record of KIND 0x04 of its own (notes/assumptions/74.md). -/
def State.gCheck (s : State) (tlb : List TlbEntry) (c : Ctx) (arb : Nat) (n : Need) (runs : List (VAddr × Nat)) : GRes :=
  let fs := (runs.flatMap fun r => piecesOf r.1 r.2).filterMap fun p => match (s.translate tlb c arb n p.1).1 with
    | .error f => some (f, p.1)
    | .ok _ => none
  let has (l : List XFail) : Bool := fs.any fun f => l.contains f.1
  if fs = [] then .ok
  else if has [.tablePoison] then .held (((fs.filter fun f => f.1 = .tablePoison).map fun f => (⟨BitVec.ofNat 64 (f.2 / 2 ^ 16), false⟩, f.2)).eraseDups)
  else if has [.malformed] then .err 1
  else if has [.access, .noRoute] then .err 2
  else if has [.poisoned] then .err 3
  else .held ((fs.map fun f => (⟨BitVec.ofNat 64 (f.2 / 2 ^ 16), decide (f.1 = .migrating)⟩, f.2)).eraseDups)

def State.gPa (s : State) (tlb : List TlbEntry) (c : Ctx) (arb : Nat) (n : Need) (va : Nat) : Nat :=
  match (s.translate tlb c arb n va).1 with
  | .ok p => p
  | .error _ => 0

def State.gRead (s : State) (tlb : List TlbEntry) (c : Ctx) (arb : Nat) (va : VAddr) (len : Nat) : List Byte :=
  (piecesOf va len).flatMap fun p => s.mem.readBytes (s.gPa tlb c arb { r := true } p.1) p.2

/-- Whether the bytes of an access that has been checked for its need hold poison. -/
def State.gBad (s : State) (tlb : List TlbEntry) (c : Ctx) (arb : Nat) (n : Need) (va : VAddr) (len : Nat) : Bool :=
  (piecesOf va len).any fun p => s.poisonedAt (s.gPa tlb c arb n p.1) p.2
def State.gPoisoned (s : State) (tlb : List TlbEntry) (c : Ctx) (arb : Nat) (va : VAddr) (len : Nat) : Bool := s.gBad tlb c arb { r := true } va len

def State.gWrite (s : State) (tlb : List TlbEntry) (c : Ctx) (arb : Nat) (va : VAddr) (bs : List Byte) : State :=
  ((piecesOf va bs.length).foldl (fun (t, bs) p => (t.store (s.gPa tlb c arb { w := true } p.1) (bs.take p.2), bs.drop p.2)) (s, bs)).1

/-- The remote accesses of a unit. -/
def State.gUses (s : State) (tlb : List TlbEntry) (c : Ctx) (arb : Nat) (n : Need) (runs : List (VAddr × Nat)) : List RemoteUse :=
  s.usesOf ((runs.flatMap fun r => piecesOf r.1 r.2).map fun p => (64, BitVec.ofNat 80 p.1, s.gPa tlb c arb n p.1))

/-- Opens the slots of the INVALID pages that hold a unit's access (R172, R174); DETAIL has the one bit of the unit's kind set
(notes/assumptions/74.md). -/
def State.slotsFor (s : State) (launch : Word) (queue core ctx arb kind : Nat) (pages : List (HeldPage × Nat)) : State :=
  pages.foldl (fun s (p, va) => if p.migrating then s else
    s.openSlot ctx arb p.page { kind := 4, code := 4, addr := BitVec.ofNat 80 va, launch, detail := BitVec.ofNat 32 (kind + arb * 256), queue, core }) s

def State.gSlots (s : State) (ctx arb kind : Nat) (pages : List (HeldPage × Nat)) : State :=
  s.slotsFor s.team.launch s.team.queue s.core.num ctx arb kind pages

/-! ## Formats (R35, R142) -/

/-- A value-preserving code of a small float in a signed binary8 format: e exponent, m trailing field of t bits, bias. -/
def recode (p t bias : Nat) (neg : Bool) (e m : Nat) : Byte :=
  let x : Num := if e = 0 then .fin neg m (1 - (bias : Int) - t) else .fin neg (2 ^ t + m) ((e : Int) - bias - t)
  BitVec.ofNat 8 ((B8.mk true p).round .rne false false x).1

/-- E4M3 and E5M2 (R35). -/
def e4m3 (b : Byte) : Byte := if b = 0x80 then 0 else if b = 0x7F ∨ b = 0xFF then 0x80 else b
def e5m2 (b : Byte) : Byte :=
  if b = 0x80 then 0 else if b = 0x7C then 0x7F else if b = 0xFC then 0xFF else if 0x7C < b.toNat % 128 then 0x80 else b
def e2m3 (x : Nat) : Byte := recode 4 3 1 (x.testBit 5) (fieldOf x 3 2) (fieldOf x 0 3)
def e3m2 (x : Nat) : Byte := recode 3 2 3 (x.testBit 5) (fieldOf x 2 3) (fieldOf x 0 2)
def e2m1 (x : Nat) : Byte := recode 2 1 1 (x.testBit 3) (fieldOf x 1 2) (fieldOf x 0 1)

/-- Four 6-bit elements in each three bytes. -/
def sixes (f : Nat → Byte) : List Byte → List Byte
  | a :: b :: c :: t => let x := leNat [a, b, c]; f (x % 64) :: f (fieldOf x 6 6) :: f (fieldOf x 12 6) :: f (fieldOf x 18 6) :: sixes f t
  | _ => []
/-- Two 4-bit elements in each byte, the even one low. -/
def fours (f : Nat → Byte) : List Byte → List Byte
  | a :: t => f (a.toNat % 16) :: f (a.toNat / 16) :: fours f t
  | [] => []

/-- The bytes of a row in the target format (R142). -/
def convertRow (sfmt : Nat) (bs : List Byte) : List Byte :=
  match sfmt with
  | 5 => bs.map e4m3
  | 6 => bs.map e5m2
  | 7 => sixes e2m3 bs
  | 8 => sixes e3m2 bs
  | 9 => fours e2m1 bs
  | _ => bs

/-- Bytes of a source row, and bytes of an element of the target (R142, R143). -/
def sourceBytes (sfmt cols : Nat) : Nat :=
  match sfmt with
  | 0 => 4 * cols | 1 => 2 * cols | 2 => 2 * cols | 7 => 3 * cols / 4 | 8 => 3 * cols / 4 | 9 => cols / 2 | _ => cols
def targetSize (sfmt : Nat) : Nat := match sfmt with | 0 => 4 | 1 => 2 | 2 => 2 | _ => 1

/-- A block scale in the target (R35), and whether it saturated to 0xFF. -/
def convertScale (sfmt : Nat) (e : Byte) : Byte × Bool :=
  if sfmt = 3 ∨ sfmt = 4 then (0x7F, false)
  else if sfmt = 5 ∨ sfmt = 6 then (if e = 0xFF then (0xFF, false) else if e = 0xFE then (0xFF, true) else (e + 1, false))
  else (e, false)

/-! ## Descriptors (R141) -/

structure CopyDesc where
  src : VAddr
  sscale : VAddr
  spitch : Nat
  rows : Nat
  cols : Nat
  dst : Nat
  scdst : Nat
  dpitch : Nat
  sfmt : Nat

def copyDesc (x : BitVec 512) : CopyDesc :=
  let n := x.toNat
  { src := BitVec.ofNat 80 (fieldOf n 432 80), sscale := BitVec.ofNat 80 (fieldOf n 352 80), spitch := fieldOf n 320 32, rows := fieldOf n 304 16
    cols := fieldOf n 288 16, dst := fieldOf n 264 24, scdst := fieldOf n 240 24, dpitch := fieldOf n 220 20, sfmt := fieldOf n 208 4 }

/-- n and PM of a COMMIT parameter, PM and DIR of a ROWS parameter (R308). -/
def Copy.commitN (k : Copy) : Nat := fieldOf k.param.toNat 16 16
def Copy.dir (k : Copy) : Bool := k.param.getLsbD 3

/-- Rows that a command moves. -/
def Copy.total (k : Copy) : Nat := match k.form with | .commit => k.commitN | _ => (copyDesc k.fields).rows

/-- BAD_DESC (R141, R308, R309). -/
def Copy.badDesc (k : Copy) : Bool :=
  let n := k.fields.toNat
  let d := copyDesc k.fields
  let fmts := match k.form with
    | .cin => [0, 1, 2, 3, 4, 5, 6, 7, 8, 9, 10] | .cout => [0, 1, 2, 10] | _ => [0, 1, 2, 3, 4, 10]
  decide (fieldOf n 212 8 ≠ 0) || decide (fieldOf n 0 208 ≠ 0) || !fmts.contains d.sfmt || decide (d.rows = 0 ∨ 4096 < d.rows) || decide (d.cols = 0 ∨ 16384 < d.cols)
    || (decide (3 ≤ d.sfmt) && decide (d.cols % 32 ≠ 0)) || decide (d.dpitch < d.cols * targetSize d.sfmt)
    || decide (d.src.toNat % 4 ≠ 0 ∨ d.spitch % 4 ≠ 0 ∨ d.dst % 64 ≠ 0 ∨ d.scdst % 64 ≠ 0 ∨ d.dpitch % 64 ≠ 0)
    || (match k.form with
        | .rows => k.perm.isSome && decide (d.rows % k.width ≠ 0)
        | .commit => decide (d.sscale.toNat % 8 ≠ 0) || decide (d.rows < k.commitN) || (match k.perm with
            | some p => decide (k.width < d.rows) || (List.range k.commitN).any fun i => decide (d.rows ≤ p.idxOf i)
            | none => false)
        | _ => false)

/-! ## Rows -/

/-- Where len bytes at an offset of the command's window data stand (R131, R308): core and scratchpad address; none past SPSIZE or
past the slot. KIND 0 counts from the start of the slot's data. -/
def State.copyWindow (s : State) (k : Copy) (base off len : Nat) : Option (Nat × Nat) :=
  let a := base % 2 ^ 23 + off
  if k.target.toNat / 2 ^ 30 = 0 then
    match s.team.ring? s.core.num (fieldOf k.target.toNat 0 24) with
    | none => none
    | some r =>
      if base ≥ 2 ^ 23 ∨ 64 * r.slotSz < a + len then none
      else some (r.core, s.teamAddr r.core (r.slotBase + r.slotOf k.param * 64 * r.slotSz + a))
  else if s.team.scratch < a + len ∨ (base ≥ 2 ^ 23 ∧ ¬ s.team.pair) then none
  else
    let c := if base ≥ 2 ^ 23 then (if s.core.num % 2 = 0 then s.core.num + 1 else s.core.num - 1) else s.core.num
    some (c, s.teamAddr c a)

inductive RowRes where
  | ok (s : State) (range : Bool)
  | err (code : Nat)
  | held (pages : List (HeldPage × Nat))
  | notice (s : State)

/-- Reads runs of global memory for a row, then continues: faults, the remote gate, poison (R174). -/
def State.rowRead (s : State) (c : Ctx) (runs : List (VAddr × Nat)) (f : RowRes) : RowRes :=
  match s.gCheck s.core.dtlb c s.arbour { r := true } runs with
  | .err e => .err e
  | .held p => .held p
  | .ok => match s.remoteGate (s.gUses s.core.dtlb c s.arbour { r := true } runs) with
    | some t => .notice t
    | none => if runs.any fun r => s.gPoisoned s.core.dtlb c s.arbour r.1 r.2 then .err 3 else f

/-- Writes runs of global memory for a row. -/
def State.rowWrite (s : State) (c : Ctx) (runs : List (VAddr × List Byte)) : RowRes :=
  let rs := runs.map fun r => (r.1, r.2.length)
  match s.gCheck s.core.dtlb c s.arbour { w := true } rs with
  | .err e => .err e
  | .held p => .held p
  | .ok => match s.remoteGate (s.gUses s.core.dtlb c s.arbour { w := true } rs) with
    | some t => .notice t
    | none => .ok (runs.foldl (fun t r => t.gWrite s.core.dtlb c s.arbour r.1 r.2) s) false

/-- Scale bytes of a row, and the length of a row in the window (R142, R143). -/
def CopyDesc.scales (d : CopyDesc) : Nat := if 3 ≤ d.sfmt then d.cols / 32 else 0
def CopyDesc.rowLen (d : CopyDesc) : Nat := d.cols * targetSize d.sfmt
/-- Where row m of the source, and its scales, stand in global memory (R141, R143). -/
def CopyDesc.rowAt (d : CopyDesc) (m : Nat) : VAddr := d.src + BitVec.ofNat 80 (m * d.spitch)
def CopyDesc.scaleAt (d : CopyDesc) (m : Nat) : VAddr := d.sscale + BitVec.ofNat 80 (m * d.scales)

/-- The row that ROWS moves row i to, or COMMIT takes it from, by its permutation (R308, R309). -/
def Copy.permRow (k : Copy) (i : Nat) : Nat :=
  match k.form, k.perm with
  | .commit, some p => p.idxOf i
  | _, some p => i / k.width * k.width + p.getD (i % k.width) 0
  | _, none => i

/-- What row i of a command needs of global memory, and its runs there. -/
def Copy.rowRuns (k : Copy) (i : Nat) : Need × List (VAddr × Nat) :=
  let d := copyDesc k.fields
  match k.form with
  | .cin => ({ r := true }, (d.rowAt i, sourceBytes d.sfmt d.cols) :: if 5 ≤ d.sfmt ∧ d.sscale ≠ 0 then [(d.scaleAt i, d.scales)] else [])
  | .cout => ({ w := true }, (d.rowAt i, d.rowLen) :: if d.sfmt = 10 ∧ d.sscale ≠ 0 then [(d.scaleAt i, d.scales)] else [])
  | .rows => if k.dir then ({ r := true }, [(d.rowAt i, d.rowLen)]) else ({ w := true }, [(d.rowAt (k.permRow i), d.rowLen)])
  | .commit => ({ w := true }, [(d.rowAt (k.tail.toNat + i), d.rowLen)])

/-- Moves row i of a command (R143, R308, R309), the command's team in front. Window data with an uncorrectable error ends it (R176). -/
def State.copyRow (s : State) (k : Copy) (i : Nat) : RowRes :=
  let d := copyDesc k.fields
  let c := s.ctx s.team.ctx
  let nb := d.scales
  let row (m : Nat) : VAddr := d.rowAt m
  let scale (m : Nat) : VAddr := d.scaleAt m
  let len := d.rowLen
  let out (c1 a1 : Nat) (x : RowRes) : RowRes := if s.spadBad c1 a1 len then .err 3 else x
  match k.form with
  | .cin =>
    let scaled := 5 ≤ d.sfmt ∧ d.sscale ≠ 0
    s.rowRead c (k.rowRuns i).2 <|
      match s.copyWindow k d.dst (i * d.dpitch) len, s.copyWindow k d.scdst (i * nb) nb with
      | some (c1, a1), some (c2, a2) =>
        let es := (if scaled then s.gRead s.core.dtlb c s.arbour (scale i) nb else List.replicate nb 0x7F).map (convertScale d.sfmt)
        let t := s.spadStore c1 a1 (convertRow d.sfmt (s.gRead s.core.dtlb c s.arbour (row i) (sourceBytes d.sfmt d.cols)))
        .ok (if nb = 0 then t else t.spadStore c2 a2 (es.map Prod.fst)) (es.any Prod.snd)
      | some (c1, a1), none =>
        if nb = 0 then .ok (s.spadStore c1 a1 (convertRow d.sfmt (s.gRead s.core.dtlb c s.arbour (row i) (sourceBytes d.sfmt d.cols)))) false else .err 5
      | none, _ => .err 5
  | .cout =>
    match s.copyWindow k d.dst (i * d.dpitch) len with
    | none => .err 5
    | some (c1, a1) =>
      let data := (row i, (s.spadOf c1).readBytes a1 len)
      if d.sfmt = 10 ∧ d.sscale ≠ 0 then
        match s.copyWindow k d.scdst (i * nb) nb with
        | none => .err 5
        | some (c2, a2) => out c1 a1 (if s.spadBad c2 a2 nb then .err 3 else s.rowWrite c [data, (scale i, (s.spadOf c2).readBytes a2 nb)])
      else out c1 a1 (s.rowWrite c [data])
  | .rows =>
    let j := k.permRow i
    if k.dir then
      s.rowRead c (k.rowRuns i).2 <|
        match s.copyWindow k d.dst (j * d.dpitch) len with
        | none => .err 5
        | some (c1, a1) => .ok (s.spadStore c1 a1 (s.gRead s.core.dtlb c s.arbour (row i) len)) false
    else
      match s.copyWindow k d.dst (i * d.dpitch) len with
      | none => .err 5
      | some (c1, a1) => out c1 a1 (s.rowWrite c [(row j, (s.spadOf c1).readBytes a1 len)])
  | .commit =>
    match s.copyWindow k d.dst (k.permRow i * d.dpitch) len with
    | none => .err 5
    | some (c1, a1) => out c1 a1 (s.rowWrite c [(row (k.tail.toNat + i), (s.spadOf c1).readBytes a1 len)])

/-! ## Commands -/

def State.putCopy (s : State) (k : Copy) : State :=
  { s with core := { s.core with sluice := s.core.sluice.map fun x => if x.id = k.id then k else x } }

/-- At most n rows of a command; it stops at a row that fails, with error e where the chunk's check gave one, and at a notice that must
be acknowledged first. -/
def State.copyRows (e : Nat) : Nat → State → Copy → State × Copy
  | 0, s, k => (s, k)
  | n + 1, s, k =>
    if k.total ≤ k.progress then (s, k)
    else match s.copyRow k k.progress with
      | .ok t r => State.copyRows e n t { k with progress := k.progress + 1, range := k.range || r }
      | .err x => (s, { k with err := if e = 0 then x else e })
      | .held _ => (s, { k with err := e })
      | .notice t => (t, k)

/-- Rows that the current chunk of a command still has (R143). -/
def Copy.chunk (k : Copy) : Nat := min (32 - k.progress % 32) (k.total - k.progress)

/-- The present chunk of a command (R143, R174): its rows are checked together, in the order of R171. Pages that hold one of them hold
the command before it moves any; a failure lets the rows below the first that fails stand. -/
def State.copyChunk (s : State) (k : Copy) : State × Copy :=
  let runs := (List.range k.chunk).flatMap fun j => (k.rowRuns (k.progress + j)).2
  match s.gCheck s.core.dtlb (s.ctx s.team.ctx) s.arbour (k.rowRuns k.progress).1 runs with
  | .ok => State.copyRows 0 k.chunk s k
  | .err e => State.copyRows e k.chunk s k
  | .held p => (s.gSlots s.team.ctx s.arbour 16 p, { k with held := p.map Prod.fst })

/-- Brings a core, the team of one of its commands, and the command (R140). -/
def State.copyAt (s : State) (core cmd : Nat) : Option (State × Copy) :=
  let s := s.focusCore core
  (s.core.sluice.find? fun k => k.id = cmd).map fun k => (s.focusTeam k.team, k)

/-- Commands of one group run in issue order (R140). -/
def State.copyFirst (s : State) (k : Copy) : Bool := ((s.core.sluice.filter fun x => x.g = k.g).head?.map Copy.id) = some k.id

/-- Whether the Sluice could serve a chunk of a command. -/
def State.servable (s : State) (k : Copy) : Bool :=
  k.started && k.err = 0 && k.held = [] && decide (k.progress < k.total) && !(s.teamOf k.team).killed && s.copyFirst k

/-- The place of a group among the 256 of its core. -/
def placeOf (l : GLoc) : Nat := l.part * 16 + l.slot
/-- Commands of different groups are served in rotation (R140): none whose group comes sooner after the one served last can be served. The
rotation takes the groups by partition and slot, from the first on, a choice of the model (notes/assumptions/74.md). -/
def State.copyTurn (s : State) (k : Copy) : Bool :=
  let dist (x : Copy) : Nat := (placeOf x.g + 255 - s.core.served) % 256
  s.core.sluice.all fun x => !s.servable x || decide (dist k ≤ dist x)

/-- The operations of the issuing entity before the command that have not completed (R158). -/
def State.copyWaits (s : State) (k : Copy) : Bool := s.anyOpen k.after

/-- The status word (R143). -/
def Copy.status (k : Copy) : BitVec 64 :=
  BitVec.ofNat 64 (2 ^ 63 + (if k.err ≠ 0 then 2 ^ 62 else 0) + (if k.range then 2 ^ 61 else 0) + k.err % 256 * 2 ^ 48 + k.progress)

/-- The barrier that a target word of KIND 1 names. -/
def State.targetBarrier (s : State) (k : Copy) : Option Barrier :=
  let off := fieldOf k.target.toNat 0 24
  let c := if off ≥ 2 ^ 23 then (if s.core.num % 2 = 0 then s.core.num + 1 else s.core.num - 1) else s.core.num
  s.team.barrier? c (off % 2 ^ 23)

/-- A command as it ends: one that names an unregistered barrier has failed with BAD_DESC (R179), unless its team was killed. -/
def State.ended (s : State) (k : Copy) : Copy :=
  if k.target.toNat / 2 ^ 30 = 1 ∧ !s.team.killed ∧ (s.targetBarrier k).isNone then { k with err := 4 } else k

/-- Writes the status word at the place that the target word names (R307, R143, R183, R177). A command that is killed before it starts writes it
to a slot whose state stays (R185, notes/assumptions/18.md). -/
def State.copyStatus (s : State) (k : Copy) : State :=
  let off := fieldOf k.target.toNat 0 24
  match k.target.toNat / 2 ^ 30 with
  | 0 => match s.team.ring? s.core.num off with
    | none => s
    | some r =>
      let j := r.slotOf k.param
      let x := r.slots.getD j {}
      s.putSlot r j { x with state := if x.state ≠ .filling then x.state else if k.err = 0 then .filled else .poisoned, status := k.status }
  | 1 => match s.targetBarrier k with
    | some b => s.putBarrier (b.arriveCommand k.status)
    | none => s.winStore (BitVec.ofNat 32 (off + 8)) (leBytes k.status.toNat 8)
  | _ => s.winStore (BitVec.ofNat 32 off) (leBytes k.status.toNat 8)

/-- A failure that no group of the team observes (R185), which a killed team has not: a record of KIND 0x02, and the launch becomes
FAILED with 0x07, which the team's end reports (R366). -/
def State.noObserver (s : State) (k : Copy) : State :=
  if k.err ≠ 0 ∧ k.err ≠ 6 ∧ !s.team.killed ∧ (s.teamGroups ++ s.savedGroups.filter fun g => g.team = s.team.serial).all fun g => g.gstate = .exited then
    let s := s.record s.team.ctx { kind := 2, code := k.err, launch := s.team.launch, progress := k.progress, detail := (k.status >>> 32).setWidth 32, queue := s.team.queue, core := s.core.num }
    { s with team := { s.team with err := 7 } }.failLaunch s.team.launch 7
  else s

/-! ## Issue (R307, R308) -/

/-- The target word's place is well formed (R307): kind, reserved bits, alignment and bounds; KIND 0 only for IN. -/
def State.targetBad (s : State) (form : CopyForm) (w : Word) : Bool :=
  let n := w.toNat
  let size := match n / 2 ^ 30 with | 0 => 32 | 1 => 16 | _ => 8
  decide (n / 2 ^ 30 = 3) || decide (fieldOf n 24 6 ≠ 0) || (decide (n / 2 ^ 30 = 0) && decide (form ≠ .cin))
    || (match s.window (BitVec.ofNat 32 (fieldOf n 0 24)) size size with | .ok _ _ => false | _ => true)

/-- The parameter is ill formed (R308). -/
def paramBad (form : CopyForm) (kind : Nat) (p : Word) : Bool :=
  let n := p.toNat
  match form with
  | .cin => decide (kind ≠ 0) && decide (n ≠ 0)
  | .cout => decide (n ≠ 0)
  | .rows => decide (4 < n % 8) || decide (16 ≤ n)
  | .commit => decide (4 < n % 8) || decide (fieldOf n 3 13 ≠ 0)

def State.xcopy (s : State) (form : CopyForm) (k n : BitVec 4) (a : BitVec 8) : Outcome :=
  commit 4 s <|
    if s.team.producer ≠ some s.grp.gid then .trap (s.trapHere .streamerRights)
    else if sPairBad a then s.badField 1 a.toNat
    else
      s.ready (s.pendingIn [] a || s.pendingIn [] (codePlus a 1) || s.grp.pendingDest (.b n.toNat)) .xc <|
        let target := s.uni a
        let param := s.uni (codePlus a 1)
        let kind := target.toNat / 2 ^ 30
        let pm : Option Nat := match form with
          | .rows => if param.toNat % 8 < 4 then some (param.toNat % 8) else none
          | .commit => if param.toNat % 8 < 4 then some (param.toNat % 8) else none
          | _ => none
        if s.targetBad form target then s.badField 1 a.toNat
        else if paramBad form kind param then s.badCause 0x40
        else if kind = 0 ∧ (s.team.ring? s.core.num (fieldOf target.toNat 0 24)).isNone then s.ringFault
        else s.permReady pm.toList [] <|
          let s := s.reachSlots
          let cmd : Copy := { id := s.nextOp, g := s.grp.loc, team := s.grp.team, op := s.nextOp, form, target, param, desc := s.breg n.toNat + BitVec.ofNat 80 (64 * k.toNat), perm := pm.map fun p => (s.grp.perm p).pos, width := s.grp.width, after := s.grp.before s.ent }
          let t := s.addOp { id := 0, ent := 0, path := some .xc, auto := false }
          .retire { t with core := { t.core with sluice := t.core.sluice ++ [cmd] } }.dirty

/-- Issues a Sluice copy from global memory into the window. (R308) -/
def execXcopyIn (k : BitVec 4) (n : BitVec 4) (a : BitVec 8) (s : State) : Outcome :=
  s.xcopy .cin k n a

/-- Issues a Sluice copy from the window to global memory. (R308) -/
def execXcopyOut (k : BitVec 4) (n : BitVec 4) (a : BitVec 8) (s : State) : Outcome :=
  s.xcopy .cout k n a

/-- Issues a packed commit of rows behind a tail. (R309) -/
def execXcopyCommit (k : BitVec 4) (n : BitVec 4) (a : BitVec 8) (s : State) : Outcome :=
  s.xcopy .commit k n a

/-- Issues a raw row copy, optionally permuted. (R308) -/
def execXcopyRows (k : BitVec 4) (n : BitVec 4) (a : BitVec 8) (s : State) : Outcome :=
  s.xcopy .rows k n a

/-- The Sluice starts a command once prior accesses and its slot allow. (R158) -/
def execXcopyStart (core cmd : Nat) (s : State) : Outcome :=
  match s.copyAt core cmd with
  | none => .refused .notDue
  | some (s, k) =>
    if k.started ∨ k.err ≠ 0 ∨ k.held ≠ [] ∨ s.team.killed ∨ !s.copyFirst k ∨ s.copyWaits k then .refused .notDue
    else
      let kind := k.target.toNat / 2 ^ 30
      let ring := if kind = 0 then s.team.ring? s.core.num (fieldOf k.target.toNat 0 24) else none
      let free := match ring with
        | some r => let x := r.slots.getD (r.slotOf k.param) {}; k.begun || (decide (x.state = .empty) && decide (x.lap = r.lapOf k.param))
        | none => true
      if !free then .refused .notDue
      else
        let c := s.ctx s.team.ctx
        let barred := decide (kind = 1) && (match s.barPlace (BitVec.ofNat 32 (fieldOf k.target.toNat 0 24)) with
          | some (b, off) => (s.team.barrier? b off).isNone
          | none => true)
        let t := match ring with
          | some r => let j := r.slotOf k.param; s.putSlot r j { r.slots.getD j {} with state := .filling }
          | none => s
        let k := { k with begun := true }
        let go (k : Copy) : Outcome := .next (t.putCopy { k with started := true })
        -- reads n bytes for the command, or ends or holds it
        let read (k : Copy) (va : VAddr) (n : Nat) (f : Nat → Outcome) : Outcome :=
          match s.gCheck s.core.dtlb c s.arbour { r := true } [(va, n)] with
          | .err e => go { k with err := e }
          | .held p => .next ((t.gSlots s.team.ctx s.arbour 16 p).putCopy { k with held := p.map Prod.fst })
          | .ok => if s.gPoisoned s.core.dtlb c s.arbour va n then go { k with err := 3 } else f (leNat (s.gRead s.core.dtlb c s.arbour va n))
        let described (k : Copy) : Outcome :=
          if k.badDesc || barred then go { k with err := 4 }
          else if k.form = .commit then read { k with described := true } (copyDesc k.fields).sscale 8 fun x => go { k with tail := BitVec.ofNat 64 x }
          else go k
        if k.described then described k else read k k.desc 64 fun x => described { k with fields := BitVec.ofNat 512 x }

/-- The Sluice processes one chunk of a command, the groups' commands in rotation. (R140) -/
def execSluiceChunk (core cmd : Nat) (s : State) : Outcome :=
  match s.copyAt core cmd with
  | none => .refused .notDue
  | some (s, k) =>
    if !s.servable k ∨ !s.copyTurn k then .refused .notDue
    else
      let r := s.copyChunk k
      let t := r.1.putCopy r.2
      if r.2 = k then s.noticed r.1 else .next { t with core := { t.core with served := placeOf k.g } }

/-- A command ends and its status word is written to its target. (R143) -/
def execXcopyEnd (core cmd : Nat) (s : State) : Outcome :=
  match s.copyAt core cmd with
  | none => .refused .notDue
  | some (s, k) =>
    let over_ := k.started && decide (k.total ≤ k.progress)
    let k := if s.team.killed ∧ k.err = 0 ∧ !over_ then { k with err := 6, held := [] } else k
    if !s.copyFirst k ∨ (k.err = 0 ∧ !over_) then .refused .notDue
    else
      let c := s.ctx s.team.ctx
      let done (s : State) (k : Copy) : Outcome :=
        let k := s.ended k
        let t := (s.copyStatus k).completeOp k.g k.op
        .next ({ t with core := { t.core with sluice := t.core.sluice.filter fun x => x.id != k.id } }.noObserver k)
      if k.form = .commit ∧ k.err = 0 then
        match s.rowWrite c [((copyDesc k.fields).sscale, leBytes (k.tail.toNat + k.commitN) 8)] with
        | .ok t _ => done t k
        | .err e => done s { k with err := e }
        | .held p => if k.held ≠ [] then .refused .notDue else .next ((s.gSlots s.team.ctx s.arbour 16 p).putCopy { k with held := p.map Prod.fst })
        | .notice t => s.noticed t
      else done s k

end Sys2Proof.Machine
end

