-- ==== Sys2Proof/Machine/Kernel.lean ====
section
/-! DEFINITION. Kernel descriptors, the admission and the start of teams, and the end of groups and teams
(05_kernel.md R75 to R93, 06_group.md R97). -/
namespace Sys2Proof.Machine
open Sys2Proof

/-! ## Kernel descriptors (R76, R77) -/

structure KDesc where
  cwin : VAddr
  entry : Word
  coff : Word
  clen : Word
  gcinit : Word
  seed : Word
  argsz : Nat
  widthCode : Nat
  pair : Bool
  groups : Nat
  named : Nat
  peak : Nat
  producer : Option Nat
  accres : Nat
  bars : Nat
  scratch : Nat
  arbours : Nat
deriving DecidableEq, Repr

def KDesc.width (k : KDesc) : Nat := if k.widthCode = 2 then 64 else if k.widthCode = 1 then 32 else 16

/-- The descriptor in its first 512 bits. -/
def kdesc (n : Nat) : KDesc :=
  { cwin := BitVec.ofNat 80 (fieldOf n 432 80), entry := BitVec.ofNat 32 (fieldOf n 400 32), coff := BitVec.ofNat 32 (fieldOf n 368 32)
    clen := BitVec.ofNat 32 (fieldOf n 336 32), gcinit := BitVec.ofNat 32 (fieldOf n 304 32), seed := BitVec.ofNat 32 (fieldOf n 272 32)
    argsz := fieldOf n 256 16, widthCode := fieldOf n 62 2, pair := n.testBit 61, groups := fieldOf n 56 5 + 1, named := 8 * fieldOf n 53 3
    peak := 8 * fieldOf n 50 3, producer := if n.testBit 49 then some (fieldOf n 44 5) else none, accres := fieldOf n 39 5
    bars := fieldOf n 33 6, scratch := 256 * fieldOf n 22 11, arbours := fieldOf n 14 8 }

/-- BAD_KERNEL (R77), over all 2,048 bits. -/
def badKernel (n : Nat) : Bool :=
  let k := kdesc n
  decide (n / 2 ^ 512 ≠ 0) || decide (fieldOf n 64 192 ≠ 0) || decide (fieldOf n 0 14 ≠ 0) || decide (k.gcinit &&& ~~~ (0x7F7 : Word) ≠ 0)
    || decide (k.widthCode = 3) || decide (k.peak < k.named) || (match k.producer with | some p => decide (k.groups ≤ p) | none => false)
    || decide (16 < k.accres) || decide (32 < k.bars) || decide (1920 * 256 < k.scratch) || decide (k.cwin.toNat % 2 ^ 32 ≠ 0)
    || k.entry.getLsbD 0 || decide (k.entry.toNat < k.coff.toNat) || decide (k.coff.toNat + k.clen.toNat ≤ k.entry.toNat)

/-- Whether n bytes at an address all translate to readable pages. -/
def State.readable (s : State) (ctx arb : Nat) (va : VAddr) (n : Nat) : Bool := s.gCheck [] (s.ctx ctx) arb { r := true } [(va, n)] = .ok

/-- Reads and checks a kernel descriptor (R77): the descriptor, or an ERRCODE. Pages that do not translate fail it
(notes/assumptions/21.md). -/
def State.readDesc (s : State) (ctx arb : Nat) (desc : VAddr) : Except Nat KDesc :=
  if !s.readable ctx arb desc 256 || s.gPoisoned [] (s.ctx ctx) arb desc 256 then .error 2
  else
    let n := leNat (s.gRead [] (s.ctx ctx) arb desc 256)
    if badKernel n then .error 1 else .ok (kdesc n)

/-- Reads and checks a kernel and its arguments for a launch or draw (R77). Of several failures, the first in this order gives the
ERRCODE (notes/assumptions/62.md). -/
def State.readKernel (s : State) (ctx arb : Nat) (desc args : VAddr) : Except Nat KDesc :=
  match s.readDesc ctx arb desc with
  | .error e => .error e
  | .ok k => if s.readable ctx arb args k.argsz then .ok k else .error 3

/-- The fatal event where a page-table page that a kernel's descriptor or arguments need is poisoned (R50). -/
def State.fatalKernel (s : State) (ctx arb : Nat) (desc args : VAddr) : State :=
  let n := match s.readDesc ctx arb desc with | .ok k => k.argsz | .error _ => 0
  (piecesOf desc 256 ++ piecesOf args n).foldl (fun t p => t.fatalAt ctx arb (BitVec.ofNat 80 p.1)) s

/-! ## SYNC (R64, R65, R303) -/

/-- Invalidates the instruction lines of a code range on the cores of the Arbours that p selects (R303). -/
def State.codeSync (s : State) (ctx : Nat) (cwin : VAddr) (off len : Word) (p : Nat → Bool) : State :=
  s.mapCores fun k => if p (arbourOf k.num) then k.icinv ctx cwin off len else k

/-- Whether a line fill is in flight on a core of the Arbours that p selects (R302, R304). -/
def State.filling? (s : State) (p : Nat → Bool) : Bool := s.allCores.any fun k => p (arbourOf k.num) && k.fills != []

/-! ## The grid walk (R86) -/

def isPow2 (n : Nat) : Bool := n != 0 && decide (2 ^ Nat.log2 n = n)

/-- The bits of t dealt out in rounds: bit k of each dimension that has one. -/
def deal (lx ly lz : Nat) : Nat → Nat → Nat → Nat × Nat × Nat
  | 0, _, _ => (0, 0, 0)
  | n + 1, k, t =>
    let x := if k < lx then (t % 2, t / 2) else (0, t)
    let y := if k < ly then (x.2 % 2, x.2 / 2) else (0, x.2)
    let z := if k < lz then (y.2 % 2, y.2 / 2) else (0, y.2)
    let r := deal lx ly lz n (k + 1) z.2
    (x.1 + 2 * r.1, y.1 + 2 * r.2.1, z.1 + 2 * r.2.2)

def Launch.index (l : Launch) (t : Nat) : Nat × Nat × Nat :=
  if l.morton then deal (Nat.log2 l.gx) (Nat.log2 l.gy) (Nat.log2 l.gz) 31 0 t
  else (t % l.gx, t / l.gx % l.gy, t / (l.gx * l.gy))

/-! ## Placement (R87) -/

/-- A group, or the place of a held one, as admission counts it. -/
structure Occ where
  loc : GLoc
  ents : Nat
  bytes : Nat
  reserve : Nat
  user : Bool
deriving DecidableEq, Repr

def Group.occ (g : Group) : Occ :=
  { loc := g.loc, ents := (g.sibs.filter Entity.live).length, bytes := g.storage, reserve := 4 * g.width * (g.peak - g.base), user := !g.agent }

/-- What takes room on a core: its groups, and the places held there. -/
def State.occs (s : State) (core : Nat) : List Occ :=
  (((s.coreOf core).groups ++ (if s.core.num = core then [s.stowGroup] else [])).filter fun g => g.gstate != .empty).map Group.occ
    ++ s.allCores.flatMap fun k => k.holds.flatMap fun h => (h.places.filter fun l => l.core = core).map fun l =>
      { loc := l, ents := 1, bytes := 4 * h.width * h.named, reserve := 4 * h.width * (h.peak - h.named), user := true }

/-- Places one group on a core: the place, or the reason of R365. It takes the lowest free slot of its partition, a choice of the model
(notes/assumptions/62.md). -/
def placeOne (banks : List Bank) (core : Nat) (occ : List Occ) (width base peak accres : Nat) : Except Nat GLoc :=
  let at_ (p : Nat) : List Occ := occ.filter fun x => x.loc.part = p
  let slot (p : Nat) : Option Nat := lowestFree ((at_ p).map fun x => x.loc.slot) 16
  let slotOk (p : Nat) : Bool := (slot p).isSome && decide (((at_ p).map Occ.ents).sum < 32)
  let need := 4 * width * base
  let storOk (p : Nat) : Bool :=
    decide (need + ((at_ p).map Occ.reserve).foldl max (4 * width * (peak - base)) + ((at_ p).map Occ.bytes).sum ≤ 98304)
  let accOk (p : Nat) : Bool := decide (accres + (banks.filter fun b => b.part = p).length ≤ 16)
  let one := (List.range 16).filter slotOk
  let two := one.filter storOk
  let three := two.filter accOk
  if one = [] then .error 1
  else if two = [] then .error 2
  else
    let count (p : Nat) : Nat := ((at_ p).filter Occ.user).length
    let least := (three.map count).foldl min 16
    match three.find? fun p => count p = least with
    | none => .error 3
    | some p => .ok ⟨core, p, (slot p).getD 0⟩

/-- Places the groups from GID g on, in ascending order; each counts for those after it. -/
def State.placeAll (s : State) (core : Nat) (k : KDesc) : Nat → Nat → List Occ → Except Nat (List GLoc)
  | 0, _, _ => .ok []
  | n + 1, g, occ =>
    let c := if k.pair then core + g % 2 else core
    match placeOne (s.coreOf c).banks c (occ.filter fun x => x.loc.core = c) k.width k.named k.peak k.accres with
    | .error r => .error (if c = core then r else 6)
    | .ok l => match s.placeAll core k n (g + 1) ({ loc := l, ents := 1, bytes := 4 * k.width * k.named, reserve := 4 * k.width * (k.peak - k.named), user := true } :: occ) with
      | .error r => .error r
      | .ok t => .ok (l :: t)

/-- Whether a team stands on a core, and its barrier slots, window base and window size there. -/
def Team.on (t : Team) (core : Nat) : Bool := t.serial != 0 && (t.core = core || (t.pair && t.core + 1 = core))
def Team.share (t : Team) (core : Nat) : Nat × Nat × Nat := (t.bars, if t.core = core then t.base else t.base2, t.scratch)

/-- The teams p selects that stand on a core, as (barrier slots, window base, window size), held ones included. -/
def State.windowsOf (s : State) (core : Nat) (p : Team → Bool) : List (Nat × Nat × Nat) :=
  ((s.allTeams.filter fun t => t.on core && p t).map fun t => t.share core)
    ++ s.allCores.flatMap fun k => (k.holds.filter fun h => k.num = core || (h.pair && k.num + 1 = core)).map fun h => (h.bars, if k.num = core then h.base else h.base2, h.scratch)

def State.windows (s : State) (core : Nat) : List (Nat × Nat × Nat) := s.windowsOf core fun _ => true

/-- A run of len bytes of the 480 KB that no window overlaps (R87, R132). The model takes the lowest, and base 0 for an empty window
(notes/assumptions/62.md). -/
def firstRun (ws : List (Nat × Nat)) (len : Nat) : Option Nat :=
  if len = 0 then some 0
  else
    let fits (b : Nat) : Bool := decide (b + len ≤ 491520) && ws.all fun w => decide (b + len ≤ w.1) || decide (w.1 + w.2 ≤ b)
    match (0 :: ws.map fun w => w.1 + w.2).filter fits with
    | [] => none
    | b :: t => some (t.foldl min b)

/-- Whether a core has the barrier slots, and where it has room for the window. -/
def State.shared (s : State) (core : Nat) (k : KDesc) : Except Nat Nat :=
  let ws := s.windows core
  if 64 < k.bars + (ws.map Prod.fst).sum then .error 4
  else match firstRun (ws.map Prod.snd) k.scratch with
    | none => .error 5
    | some b => .ok b

/-- A core's part of a restore that has not been done yet (R50). -/
def State.awaitsRestore (s : State) (core : Nat) : Bool := s.dev.ctxs.any fun c => c.state = .restoring && c.saved.any fun k => k.core = core

/-- Admission of one team by a core (R87): its hold, or the reason of R365. A core that waits to restore admits none (R50); its
reason is 1 (notes/assumptions/27.md). -/
def State.admission (s : State) (core : Nat) (k : KDesc) : Except Nat Hold :=
  let holds := (s.coreOf core).holds
  match lowestFree (holds.map Hold.num) 8 with
  | none => .error 7
  | some num =>
    if s.awaitsRestore core || (k.pair && (decide (core % 2 = 1) || s.awaitsRestore (core + 1))) then .error 1
    else match s.placeAll core k k.groups 0 (s.occs core ++ (if k.pair then s.occs (core + 1) else [])) with
      | .error r => .error r
      | .ok places => match s.shared core k with
        | .error r => .error r
        | .ok base => match (if k.pair then s.shared (core + 1) k else .ok 0) with
          | .error _ => .error 6
          | .ok base2 => .ok ⟨num, places, k.width, k.named, k.peak, k.bars, k.scratch, base, base2, k.pair⟩

/-- How many teams an idle core or pair holds at once, at most n (R88, R89); the hold numbers are not counted. -/
def idleTeams (k : KDesc) : Nat → State → Nat
  | 0, _ => 0
  | n + 1, s =>
    match s.placeAll 0 k k.groups 0 (s.occs 0 ++ (if k.pair then s.occs 1 else [])), s.shared 0 k with
    | .ok places, .ok base =>
      1 + idleTeams k n { s with core := { s.core with holds := ⟨8, places, k.width, k.named, k.peak, k.bars, k.scratch, base, base, k.pair⟩ :: s.core.holds } }
    | _, _ => 0

/-- The Arbours whose cores take tickets (R76). -/
def KDesc.takes (k : KDesc) (arb : Nat) : Bool := k.arbours = 0 || k.arbours.testBit arb

/-- LAUNCH_TOO_LARGE (R88, R89). -/
def tooLarge (k : KDesc) (cohort : Bool) (total : Nat) : Bool :=
  if cohort then
    let cores := 104 * ((List.range 8).filter k.takes).length / (if k.pair then 2 else 1)
    decide (idleTeams k 256 State.reset * cores < total)
  else idleTeams k 1 State.reset = 0

/-! ## Starting a team (R79) -/

/-- What a team is started with. -/
structure StartInfo where
  kd : KDesc
  args : VAddr
  grid : Nat × Nat × Nat
  index : Nat × Nat × Nat
  launch : Word
  ctx : Nat
  queue : Nat
  qgen : BitVec 8
  ticket : Nat
  job : Option RastJob
  count : Nat
  draw : Option Nat

/-- The state of R79 for one group; a sample program's lanes from `count` on are exited (R199). Reserved bits of GC read 0 (R5). -/
def newGroup (i : StartInfo) (team gid age ent : Nat) (loc : GLoc) : Group :=
  let w := i.kd.width
  let all := laneMask (fun _ => true) w
  let gone := if i.job.isSome then laneMask (fun l => i.count ≤ l) w else 0
  let em := all &&& ~~~ gone
  { loc, gstate := .ready, team, gid, width := w, age, base := i.kd.named, peak := i.kd.peak, b := [i.args, i.kd.cwin], gc := i.kd.gcinit &&& 0x7F7, seed := i.kd.seed
    rast := i.job
    sibs := [{ num := ent, live := true, pc := i.kd.entry, em, l := all, gone, idem := some { pc := i.kd.entry, em, scc := {}, calls := [], defs := [], scopes := [], dirty := false } }] }

/-- Puts a new group into its slot. Its first entity takes a number of the range of R81 that is free in the partition: the model takes
the lowest (notes/assumptions/62.md). -/
def State.insertGroup (s : State) (i : StartInfo) (team gid : Nat) (l : GLoc) : State :=
  let used := (((s.allGroups.filter fun g => g.loc.core = l.core && g.loc.part = l.part).flatMap Group.sibs).filter Entity.live).map Entity.num
  let g := newGroup i team gid s.nextAge ((lowestFree used 32).getD 0) l
  { s.onCore l.core fun k => { k with groups := g :: k.groups } with nextAge := s.nextAge + 1 }

/-- Starts a held team on its core (R85, R365). -/
def State.startTeam (s : State) (core : Nat) (h : Hold) (i : StartInfo) : State :=
  let n := s.nextTeam
  let t : Team := { serial := n, core, launch := i.launch, ticket := BitVec.ofNat 64 i.ticket, job := i.job.map RastJob.job, x := BitVec.ofNat 32 i.index.1, y := BitVec.ofNat 32 i.index.2.1, z := BitVec.ofNat 32 i.index.2.2, gx := BitVec.ofNat 32 i.grid.1, gy := BitVec.ofNat 32 i.grid.2.1, gz := BitVec.ofNat 32 i.grid.2.2, ctx := i.ctx, queue := i.queue, qgen := i.qgen, groups := i.kd.groups, pair := h.pair, producer := i.kd.producer, cwin := i.kd.cwin, args := i.args, entry := i.kd.entry, gcinit := i.kd.gcinit, seed := i.kd.seed, width := i.kd.width, named := i.kd.named, peak := i.kd.peak, bars := h.bars, scratch := h.scratch, base := h.base, base2 := h.base2, draw := i.draw }
  let s : State := { s with teams := t :: s.teams, nextTeam := n + 1 }
  let s := s.onCore core fun k => { k with holds := k.holds.filter fun x => x.num != h.num }
  h.places.zipIdx.foldl (fun s (l, gid) => s.insertGroup i n gid l) s

/-! ## The end of groups and teams (R91, R97) -/

/-- Takes a group out of its slot; the core's agent comes to the front if the group stood there. A place it held at the Pergola is
kept by no group. -/
def State.removeGroup (s : State) (l : GLoc) : State :=
  let drop (k : Core) (g : Group) : Core :=
    let k := k.releaseAll g
    { k with pergola := k.pergola.map fun x => if x.1 = l then (⟨l.core, 16, 16⟩, x.2) else x }
  if s.grp.loc = l ∧ s.core.num = l.core then
    let k := drop s.core s.stowGroup
    match takeFirst Group.agent k.groups with
    | some (a, r) => { s with core := k }.leadGroup a r
    | none => { s with core := k }.leadGroup { agentGroup l.core with sibs := [agentEntity] } k.groups
  else s.onCore l.core fun k => match takeFirst (fun g => g.loc = l) k.groups with
    | some (g, r) => { drop k g with groups := r }
    | none => k


/-- LOW passes the completed tickets (R91), whose bits stay in the map (R83). -/
def Launch.advance : Nat → Launch → Launch
  | 0, l => l
  | n + 1, l => if l.map.contains (l.low, true) then Launch.advance n { l with low := l.low + 1 } else l

/-- DONE is reached with every team completed (R84). -/
def Launch.settle (l : Launch) : Launch := if l.state = .draining ∧ l.doneN = l.total then { l with state := .done } else l

/-- Steps 1 and 2 of R91 for ticket t. -/
def Launch.complete (l : Launch) (t : Nat) : Launch :=
  Launch.settle (Launch.advance (l.map.length + 1) { l with doneN := l.doneN + 1, map := l.map.map fun e => if e.1 = t then (t, true) else e })

end Sys2Proof.Machine
end

