-- ==== Sys2Proof/Machine/Saltern.lean ====
section
/-! DEFINITION. The Saltern: sample sets, draws, jobs, and the SSET and RAST forms (12_samplesets.md R186 to R205,
23_isa_raster_system.md R351 to R359, 10_page.md R174). -/
namespace Sys2Proof.Machine
open Sys2Proof

/-! ## Descriptors (R186, R193) -/

structure SetDesc where
  samples : VAddr
  results : VAddr
  index : VAddr
  cap : Nat
  width : Nat
  height : Nat
  cell : Nat
  levels : Nat
  thresh : Nat
  unit : Nat

def setDesc (x : BitVec 512) : SetDesc :=
  let n := x.toNat
  { samples := BitVec.ofNat 80 (fieldOf n 432 80), results := BitVec.ofNat 80 (fieldOf n 352 80), index := BitVec.ofNat 80 (fieldOf n 272 80)
    cap := fieldOf n 248 24, width := fieldOf n 234 14 + 1, height := fieldOf n 220 14 + 1, cell := 2 ^ (fieldOf n 217 3 + 2), levels := fieldOf n 215 2
    thresh := fieldOf n 207 8, unit := fieldOf n 200 7 }

/-- BAD_DESC (R186). -/
def setBad (x : BitVec 512) : Bool :=
  let d := setDesc x
  decide (fieldOf x.toNat 0 200 ≠ 0) || decide (d.samples.toNat % 64 ≠ 0 ∨ d.results.toNat % 64 ≠ 0 ∨ d.index.toNat % 64 ≠ 0)
    || decide (d.cap = 0 ∨ 2 ^ 24 - 256 < d.cap) || decide (4 < fieldOf x.toNat 217 3) || decide (d.thresh = 0) || decide (d.unit = 0 ∨ 64 < d.unit)

structure Header where
  primbase : VAddr
  args : VAddr
  kdesc : VAddr
  smallbase : VAddr
  count : Nat
  smallmax : Nat
  seth : Nat
  pbatch : Nat
  mode : Nat
  smallout : Bool
  cullcw : Bool
  stats : VAddr

def header (x : BitVec 512) : Header :=
  let n := x.toNat
  { primbase := BitVec.ofNat 80 (fieldOf n 432 80), args := BitVec.ofNat 80 (fieldOf n 352 80), kdesc := BitVec.ofNat 80 (fieldOf n 272 80)
    smallbase := BitVec.ofNat 80 (fieldOf n 192 80), count := fieldOf n 160 32, smallmax := fieldOf n 144 16, seth := fieldOf n 128 16
    pbatch := fieldOf n 120 8, mode := fieldOf n 118 2, smallout := n.testBit 117, cullcw := n.testBit 116, stats := BitVec.ofNat 80 (fieldOf n 36 80) }

/-- A header that fails its draw (R194). -/
def headerBad (x : BitVec 512) : Bool := decide (fieldOf x.toNat 0 36 ≠ 0) || decide ((header x).pbatch = 0) || decide (2 ≤ (header x).mode)

/-! ## Sets -/

def State.set (s : State) (ctx h : Nat) : SampleSet := (s.dev.sets.find? fun x => x.ctx = ctx && x.handle = h).getD { ctx, handle := h }
def State.putSet (s : State) (x : SampleSet) : State :=
  s.setDev fun d => { d with sets := upsert (fun k => k.ctx = x.ctx && k.handle = x.handle) x d.sets }
/-- Records an error: the first one stays (R203). -/
def SampleSet.fail (x : SampleSet) (e : Nat) : SampleSet := if x.err = 0 then { x with err := e } else x
/-- Drops the index (R187). -/
def SampleSet.drop (x : SampleSet) : SampleSet := { x with order := [], units := [], rejected := 0 }
def SetState.num : SetState → Nat
  | .freed => 0 | .empty => 1 | .filling => 2 | .building => 3 | .built => 4 | .bound => 5
/-- Samples on the late list (R192). -/
def SampleSet.late (x : SampleSet) : Nat := if x.state = .bound then x.count - x.lateFrom else 0
/-- The value of QUERY (R203). -/
def SampleSet.query (x : SampleSet) (n : Nat) : Word :=
  BitVec.ofNat 32 (match n with | 0 => x.err * 2 ^ 24 + x.late * 2 ^ 8 + x.state.num | 1 => x.count | 2 => x.units.length | _ => x.rejected)

/-! ## Snapping, cells and leaves (R190, R191) -/

/-- RNE(x × 256); none for a value that is not finite. -/
def snap (x : Word) : Option Int :=
  match fp32.read false x.toNat with
  | .fin n m e => let r := (roundAt .rne n m (e + 8) false 0).1; some (if n then -(r : Int) else r)
  | _ => none

/-- A sample as read from its record. -/
def sampleOf (num : Nat) (r : List Word) : Sample :=
  let w (k : Nat) : Word := r.getD k 0
  match snap (w 0), snap (w 1) with
  | some x, some y => { num, x, y, ref := w 2, payload := w 3 }
  | _, _ => { num, x := -1, y := -1, ref := w 2, payload := w 3 }

def SetDesc.accepts (d : SetDesc) (p : Sample) : Bool :=
  decide (0 ≤ p.x) && decide (p.x < 256 * d.width) && decide (0 ≤ p.y) && decide (p.y < 256 * d.height)

def SetDesc.cellX (d : SetDesc) (x : Int) : Int := x / (256 * d.cell)
def SetDesc.across (d : SetDesc) : Nat := (d.width + d.cell - 1) / d.cell
def SetDesc.cellOf (d : SetDesc) (p : Sample) : Nat := ((d.cellX p.y) * d.across + d.cellX p.x).toNat

/-- The quadrant of a sample among the children of its cell at level l. -/
def SetDesc.quad (d : SetDesc) (l : Nat) (p : Sample) : Nat :=
  let half : Int := 256 * d.cell / 2 ^ (l + 1)
  (p.x / half % 2).toNat + 2 * (p.y / half % 2).toNat

/-- The leaf that a sample falls in, as level and QPATH, given the built samples of its cell; n levels may still split. -/
def SetDesc.leaf (d : SetDesc) (p : Sample) : Nat → Nat → Nat → List Sample → Nat × Nat
  | 0, l, path, _ => (l, path)
  | n + 1, l, path, inside =>
    if d.thresh < inside.length then
      let q := d.quad l p
      d.leaf p n (l + 1) (path + q * 4 ^ l) (inside.filter fun x => d.quad l x = q)
    else (l, path)

/-- A sample with its leaf: cell, level, QPATH. -/
structure Leafed where
  p : Sample
  cell : Nat
  level : Nat
  path : Nat

def SetDesc.leafed (d : SetDesc) (built : List Sample) (p : Sample) : Leafed :=
  let r := d.leaf p d.levels 0 0 (built.filter fun x => d.cellOf x = d.cellOf p)
  ⟨p, d.cellOf p, r.1, r.2⟩

/-- The sort key (R191): cell, then the quadrants depth first, then the sample number. -/
def Leafed.key (x : Leafed) : Nat := ((x.cell * 4 + x.path % 4) * 4 + x.path / 4 % 4) * 4 + x.path / 16 % 4
def Leafed.before (a b : Leafed) : Bool := decide (a.key < b.key) || (a.key = b.key && decide (a.p.num < b.p.num))

def insertSorted (x : Leafed) : List Leafed → List Leafed
  | [] => [x]
  | a :: t => if x.before a then x :: a :: t else a :: insertSorted x t
def sortLeafed (l : List Leafed) : List Leafed := l.foldr insertSorted []

/-- Cuts a sorted list into work units, the first sample at position pos (R191). -/
def cutUnits (u : Nat) : Nat → Nat → List Leafed → List WorkUnit
  | 0, _, _ => []
  | _, _, [] => []
  | n + 1, pos, a :: t =>
    let run := a :: t.takeWhile fun b => b.cell = a.cell && b.path = a.path && b.level = a.level
    let k := min u run.length
    { first := pos, count := k, level := a.level, qpath := a.path, cell := a.cell } :: cutUnits u n (pos + k) ((a :: t).drop k)

/-- Orders samples against the built ones: the order, the units from position pos on, the rejected count (R191, R192). The rejected samples
stand last, among themselves in ascending number, a choice of the model (notes/assumptions/74.md). -/
def SetDesc.orderSamples (d : SetDesc) (built new : List Sample) (pos : Nat) : List Sample × List WorkUnit × Nat :=
  let ok := sortLeafed ((new.filter d.accepts).map (d.leafed built))
  let bad := new.filter fun p => !d.accepts p
  (ok.map Leafed.p ++ bad, cutUnits d.unit ok.length pos ok, bad.length)

/-! ## Accesses (R174) -/

inductive SRes where
  | ok
  | err (code : Nat)
  | held (pages : List (HeldPage × Nat))
  | wait (s : State)

/-- Checks runs that the Saltern of an Arbour accesses for a queue's work. -/
def State.saltCheck (s : State) (ctx home q : Nat) (gen : BitVec 8) (n : Need) (runs : List (VAddr × Nat)) : SRes :=
  let c := s.ctx ctx
  match s.gCheck [] c home n runs with
  | .err e => .err e
  | .held p => .held p
  | .ok => match s.remoteGateOf q gen (s.gUses [] c home n runs) with
    | some t => .wait t
    | none => if n.r && runs.any fun r => s.gPoisoned [] c home r.1 r.2 then .err 3 else .ok

def State.saltRead (s : State) (ctx home : Nat) (va : VAddr) (n : Nat) : List Byte := s.gRead [] (s.ctx ctx) home va n
def State.saltWrite (s : State) (ctx home : Nat) (l : List (VAddr × List Byte)) : State :=
  l.foldl (fun t r => t.gWrite [] (s.ctx ctx) home r.1 r.2) s

/-- The 32-bit words of bytes. -/
def wordsOf : Nat → List Byte → List Word
  | 0, _ => []
  | n + 1, l => BitVec.ofNat 32 (leNat (l.take 4)) :: wordsOf n (l.drop 4)

/-- Records of k words each from bytes. -/
def recordsOf (k : Nat) : Nat → List Byte → List (List Word)
  | 0, _ => []
  | n + 1, l => wordsOf k l :: recordsOf k n (l.drop (4 * k))

/-- The samples from number `num` on, as their records stand. -/
def State.readSamples (s : State) (ctx home : Nat) (d : SetDesc) (num n : Nat) : List Sample :=
  ((recordsOf 4 n (s.saltRead ctx home (d.samples + BitVec.ofNat 80 (16 * num)) (16 * n))).zipIdx).map fun (r, i) => sampleOf (num + i) r

/-- The unit table entry (R191), and where it stands. -/
def WorkUnit.bytes (u : WorkUnit) : List Byte :=
  leBytes u.first 4 ++ leBytes u.count 1 ++ leBytes u.level 1 ++ leBytes u.qpath 1 ++ leBytes 0 1 ++ leBytes u.cell 4 ++ leBytes 0 4
def SetDesc.unitAt (d : SetDesc) (u : Nat) : VAddr := d.index + BitVec.ofNat 80 ((4 * (d.cap + 256) + 63) / 64 * 64 + 16 * u)

/-- The writes of order entries from position pos and unit entries from unit u (R191). -/
def SetDesc.indexWrites (d : SetDesc) (pos u : Nat) (order : List Sample) (units : List WorkUnit) : List (VAddr × List Byte) :=
  [(d.index + BitVec.ofNat 80 (4 * pos), order.flatMap fun p => leBytes p.num 4), (d.unitAt u, units.flatMap WorkUnit.bytes)]

def onesAt (d : SetDesc) (pos n : Nat) : VAddr × List Byte := (d.results + BitVec.ofNat 80 (8 * pos), List.replicate (8 * n) 0xFF)
def sizes (l : List (VAddr × List Byte)) : List (VAddr × Nat) := l.map fun r => (r.1, r.2.length)

/-! ## Coverage and depth (R197, R198) -/

def edge (ax ay bx by_ sx sy : Int) : Int := (bx - ax) * (sy - ay) - (by_ - ay) * (sx - ax)
def Prim.area (p : Prim) : Int := edge p.x1 p.y1 p.x2 p.y2 0 0 + edge p.x2 p.y2 p.x0 p.y0 0 0 + edge p.x0 p.y0 p.x1 p.y1 0 0

/-- e > 0, or e = 0 on a top or left edge. -/
def edgeIn (e dx dy : Int) : Bool := decide (0 < e) || (e = 0 && ((dy = 0 && decide (0 < dx)) || decide (dy < 0)))

/-- The depth of a covered sample. -/
def Prim.depth (p : Prim) (sx sy : Int) : Option Word :=
  let p := if p.area < 0 then { p with x1 := p.x2, y1 := p.y2, z1 := p.z2, x2 := p.x1, y2 := p.y1, z2 := p.z1 } else p
  let e0 := edge p.x1 p.y1 p.x2 p.y2 sx sy
  let e1 := edge p.x2 p.y2 p.x0 p.y0 sx sy
  let e2 := edge p.x0 p.y0 p.x1 p.y1 sx sy
  if edgeIn e0 (p.x2 - p.x1) (p.y2 - p.y1) && edgeIn e1 (p.x0 - p.x2) (p.y0 - p.y2) && edgeIn e2 (p.x1 - p.x0) (p.y1 - p.y0) then
    let i (z : Int) : Num := f32 (fp32.ofInt .rne z).1
    let sub (x y : Word) : Num := f32 (fp32.add .rne false (f32 x.toNat) (f32 y.toNat).neg).1
    let b1 := f32 (fp32.div .rne false (i e1) (i p.area)).1
    let b2 := f32 (fp32.div .rne false (i e2) (i p.area)).1
    let t := (fp32.fma .rne false b1 (sub p.z1 p.z0) (f32 p.z0.toNat)).1
    let d := (fp32.fma .rne false b2 (sub p.z2 p.z0) (f32 t)).1
    some <| BitVec.ofNat 32 <|
      if (f32 d).isNan then 0x3F800000
      else if !(Num.lt (.fin false 0 0) (f32 d)) then 0
      else if Num.lt (.fin false 1 0) (f32 d) then 0x3F800000 else d
  else none

/-! ## Emission (R195) -/

/-- What becomes of an emitted record: its snapped primitive, or none where it is culled; and whether it is small. -/
def primOf (d : SetDesc) (h : Header) (r : List Word) : Option (Prim × Bool) :=
  let w (k : Nat) : Word := r.getD k 0
  match snap (w 0), snap (w 1), snap (w 3), snap (w 4), snap (w 6), snap (w 7) with
  | some x0, some y0, some x1, some y1, some x2, some y2 =>
    let p : Prim := { x0, y0, z0 := w 2, x1, y1, z1 := w 5, x2, y2, z2 := w 8, id := w 9 }
    let lox := min x0 (min x1 x2)
    let hix := max x0 (max x1 x2)
    let loy := min y0 (min y1 y2)
    let hiy := max y0 (max y1 y2)
    let far := [x0, y0, x1, y1, x2, y2].any fun v => decide (2 ^ 30 < v.natAbs)
    if far || p.area = 0 || (decide (p.area < 0) && h.cullcw) || decide (hix < 0) || decide (hiy < 0) || decide (256 * (d.width : Int) ≤ lox) || decide (256 * (d.height : Int) ≤ loy) then none
    else some (p, d.cellX lox = d.cellX hix && d.cellX loy = d.cellX hiy)
  | _, _, _, _, _, _ => none

def bump (l : List Nat) (i n : Nat) : List Nat := putAt 0 l i (l.getD i 0 + n)

/-- Emits records into a draw; the side-list writes that this makes (R195, R204). -/
def emitAll (d : SetDesc) (w : Draw) : List (List Word) → Draw × List (VAddr × List Byte)
  | [] => (w, [])
  | r :: t =>
    let h := header w.header
    let w := { w with counters := bump w.counters 0 1 }
    match primOf d h r with
    | none => emitAll d { w with counters := bump w.counters 1 1 } t
    | some (p, small) =>
      if small && h.smallout && decide (w.smallN < h.smallmax) then
        let q := emitAll d { w with counters := bump w.counters 2 1, smallN := w.smallN + 1 } t
        (q.1, (h.smallbase + BitVec.ofNat 80 (48 * w.smallN), r.flatMap fun x => leBytes x.toNat 4) :: q.2)
      else emitAll d { w with prims := w.prims ++ [p] } t

/-- Whether a primitive is binned to a unit: its bounding box, in cell units, takes in the unit's cell (R196). -/
def SetDesc.touches (d : SetDesc) (p : Prim) (u : WorkUnit) : Bool :=
  let cx : Int := u.cell % d.across
  let cy : Int := u.cell / d.across
  decide (d.cellX (min p.x0 (min p.x1 p.x2)) ≤ cx) && decide (cx ≤ d.cellX (max p.x0 (max p.x1 p.x2)))
    && decide (d.cellX (min p.y0 (min p.y1 p.y2)) ≤ cy) && decide (cy ≤ d.cellX (max p.y0 (max p.y1 p.y2)))

/-- Cuts a bin into batches of p. -/
def batches (p : Nat) : Nat → List Prim → List (List Prim)
  | 0, _ => []
  | _, [] => []
  | n + 1, l => l.take p :: batches p n (l.drop p)

/-- The jobs of a draw (R196): over units, and batches within a unit. -/
def SetDesc.jobsOf (d : SetDesc) (p : Nat) (prims : List Prim) (units : List WorkUnit) : List Job :=
  let l := units.zipIdx.flatMap fun (u, i) =>
    let bin := prims.filter fun q => d.touches q u
    (batches p bin.length bin).zipIdx.map fun (b, k) => (i, k, b)
  l.zipIdx.map fun ((u, k, b), n) => { num := n, unit := u, batch := k, prims := b }

/-! ## Draws -/

/-- A new draw, with its record (R83, R92, R194); total is unknown until the close. -/
def State.newDraw (s : State) (ctx home queue : Nat) (qgen : BitVec 8) (team : Nat) (handle : Nat) (at_ : VAddr) (hd : BitVec 512) (kd : VAddr) (packet : Nat) : Word × State :=
  let n := s.dev.counters.getD home 0
  let id : Word := BitVec.ofNat 32 (home * 2 ^ 29 + n % 2 ^ 29)
  let l : Launch := { id, state := .claimed, isDraw := true, total := 2 ^ 64 - 1, kdesc := kd, args := (header hd).args, qgen, queue, packet, ctx }
  let s := s.setDev fun d => { d with counters := putAt 0 d.counters home (n + 1) }
  (id, (s.setLaunch l).setDraw { id, ctx, home, handle, header := hd, headerAt := at_, team })

/-- A record of a draw that is over and kept for no one is freed (R84). -/
def State.freeLaunch (s : State) (id : Word) : State := s.setDev fun d => { d with launches := d.launches.filter fun l => l.id != id }

/-- What applying a command comes to: applied, with whether its operation is then over; held; or to be tried again. -/
inductive Applied where
  | done (s : State) (over_ : Bool)
  | held (pages : List (HeldPage × Nat))
  | wait (s : State)

/-- Goes on after a check: its failure is the given one. -/
def SRes.go (r : SRes) (fail : Nat → Applied) (f : Applied) : Applied :=
  match r with
  | .ok => f
  | .err e => fail e
  | .held p => .held p
  | .wait s => .wait s

/-- A failed access of the Saltern for a draw (R174): its ERRCODE is 8 above the access's. -/
def State.failDraw (s : State) (w : Draw) (e : Nat) : State := s.failLaunch w.id (e + 8)

/-- Closes a draw (R192, R196): late samples placed, each by its leaf among the samples that the build accepted, primitives binned and cut
into jobs; notices are posted once no draw is before it on its set (R189). -/
def State.closeDraw (s : State) (w : Draw) (q : Nat) (gen : BitVec 8) (over_ : Bool) : Applied :=
  let x := s.set w.ctx w.handle
  let d := setDesc x.desc
  let h := header w.header
  let new := x.count - x.latePlaced
  (s.saltCheck w.ctx w.home q gen { r := true } [(d.samples + BitVec.ofNat 80 (16 * x.latePlaced), 16 * new)]).go (fun e => .done (s.failDraw w e) over_) <|
    let built := x.order.filter fun p => decide (p.num < x.lateFrom) && d.accepts p
    let pos := x.order.length
    let (order, units, rej) := d.orderSamples built (s.readSamples w.ctx w.home d x.latePlaced new) pos
    let writes := d.indexWrites pos x.units.length order units ++ [onesAt d pos new]
    (s.saltCheck w.ctx w.home q gen { w := true } (sizes writes)).go (fun e => .done (s.failDraw w e) over_) <|
      let s := s.saltWrite w.ctx w.home writes
      let x := { x with order := x.order ++ order, units := x.units ++ units, rejected := x.rejected + rej, latePlaced := x.count }
      let s := s.putSet x
      let l := (s.launch? w.id).getD { id := w.id }
      let kernel : Except Nat KDesc := if h.mode = 1 then .ok (kdesc 0) else s.readKernel w.ctx w.home l.kdesc h.args
      match kernel with
      | .error e => .done ((s.failLaunch w.id e).fatalKernel w.ctx w.home l.kdesc h.args) over_
      | .ok k =>
        if h.mode = 0 ∧ (k.groups ≠ 1 ∨ k.pair ∨ k.producer.isSome ∨ k.width < d.unit) then .done (s.failLaunch w.id 1) over_
        else if h.mode = 0 ∧ tooLarge k false 1 then .done (s.failLaunch w.id 5) over_
        else
          let jobs := d.jobsOf h.pbatch w.prims x.units
          let w := { w with closed := true, jobs, toPost := if h.mode = 0 then jobs.length else 0 }
          let s := s.setDev fun v => { v with draws := (v.draws.filter fun y => y.id != w.id) ++ [w] }
          let desc : BitVec 512 := if h.mode = 0 then BitVec.ofNat 512 (leNat (s.saltRead w.ctx w.home l.kdesc 64)) else 0
          let s := s.setLaunch { l with state := .issuing, total := jobs.length, desc }
          .done s.postHeads false

/-- Emits records into a draw (R194, R195). -/
def State.emitInto (s : State) (w : Draw) (q : Nat) (gen : BitVec 8) (recs : List (List Word)) (over_ : Bool) (f : State → Draw → Applied) : Applied :=
  let r := emitAll (setDesc (s.set w.ctx w.handle).desc) w recs
  (s.saltCheck w.ctx w.home q gen { w := true } (sizes r.2)).go (fun e => .done (s.failDraw w e) over_) <|
    let s := s.saltWrite w.ctx w.home r.2
    f (s.setDraw r.1) r.1

/-- Emits the COUNT records at PRIMBASE and closes (R194). -/
def State.emitStream (s : State) (w : Draw) (q : Nat) (gen : BitVec 8) (over_ : Bool) : Applied :=
  let h := header w.header
  (s.saltCheck w.ctx w.home q gen { r := true } [(h.primbase, 48 * h.count)]).go (fun e => .done (s.failDraw w e) over_) <|
    s.emitInto w q gen (recordsOf 12 h.count (s.saltRead w.ctx w.home h.primbase (48 * h.count))) over_ fun s w => s.closeDraw w q gen over_

/-- Whether a handle may be drawn on (R194). -/
def State.drawable (s : State) (ctx h : Nat) : Bool := decide (h ≤ 1023) && decide ((s.set ctx h).state = .bound)

/-- Records on an Arbour (R84). -/
def State.recordsAt (s : State) (home : Nat) : Nat :=
  (s.dev.launches.filter fun l => l.state != .pending && l.state != .done && l.id.toNat / 2 ^ 29 = home).length

/-- The open draw of a team. -/
def State.openDraw (s : State) (team : Nat) : Option Draw := s.dev.draws.find? fun w => w.team = team && team != 0 && !w.closed

/-- The Arbour whose Saltern accesses memory for a command: its home, or, while that is not known, that of the issuing core. -/
def HeldCmd.arb (c : HeldCmd) : Nat := if c.home < 8 then c.home else arbourOf c.g.core

/-- Checks runs for a command of a team (R174). -/
def State.cmdCheck (s : State) (c : HeldCmd) (n : Need) (runs : List (VAddr × Nat)) : SRes :=
  s.saltCheck c.ctx c.arb (s.teamOf c.team).queue (s.teamOf c.team).qgen n runs

/-- A stream header as it stands in memory; none where it cannot be read now. -/
def State.headerNow (s : State) (c : HeldCmd) (at_ : VAddr) : Option (BitVec 512) :=
  match s.cmdCheck c { r := true } [(at_, 64)] with
  | .ok => some (BitVec.ofNat 512 (leNat (s.saltRead c.ctx c.arb at_ 64)))
  | _ => none

/-- Where the header of an EMIT or DRAW stands. -/
def SaltCmd.headerAt : SaltCmd → Option VAddr
  | .emit a _ => some a
  | .draw a => some a
  | _ => none

/-- A command with the home that it now has (R189, R194): that of its team's open draw, or of the set that its header names, once the accesses that
its issue releases have completed and the header can be read. -/
def State.homed (s : State) (c : HeldCmd) : HeldCmd :=
  match c.cmd.headerAt with
  | none => c
  | some a => { c with home := match s.openDraw c.team with
      | some w => w.home
      | none => if s.anyOpen c.after then 8 else ((s.headerNow { c with home := 8 } a).map fun x => (header x).seth % 8).getD 8 }

/-- Opens the draw of a team's EMIT or DRAW (R194). It counts for its launch's packet (R71). -/
def State.openTeamDraw (s : State) (c : HeldCmd) (at_ : VAddr) (home : Nat) (hd : BitVec 512) : Word × State :=
  let t := s.teamOf c.team
  s.newDraw c.ctx home t.queue t.qgen c.team (header hd).seth at_ hd (header hd).kdesc (((s.launch? t.launch).map Launch.packet).getD 0)

/-- A draw whose header cannot be read fails as it opens (R174, R194); what its record holds of the header is 0 (notes/assumptions/75.md). -/
def State.openFailed (s : State) (c : HeldCmd) (at_ : VAddr) (err : Nat) : State :=
  let r := s.openTeamDraw c at_ c.arb 0
  r.2.failLaunch r.1 err

/-- The draw that an EMIT or DRAW of a team acts on: the open one, or one opened now, whose header is read then (R193); its header or set may fail it (R194). A
DRAW that names another header than the open draw fails that draw as an EMIT does, and opens its own (notes/assumptions/22.md). -/
def State.drawFor (s : State) (c : HeldCmd) (at_ : VAddr) (f : State → Draw → Applied) : Applied :=
  let emit := match c.cmd with | .emit _ _ => true | _ => false
  let openNew (s : State) : Applied :=
    (s.cmdCheck c { r := true } [(at_, 64)]).go (fun e => .done (s.openFailed c at_ (e + 8)) true) <|
      let hd : BitVec 512 := BitVec.ofNat 512 (leNat (s.saltRead c.ctx c.arb at_ 64))
      let home := (header hd).seth % 8
      if 256 ≤ s.recordsAt home then .wait s
      else
        let (id, u) := s.openTeamDraw c at_ home hd
        if headerBad hd || !u.drawable c.ctx (header hd).seth then .done (u.failLaunch id 4) true
        else match u.draw? id with
          | some w => f u w
          | none => .done u true
  match s.openDraw c.team with
  | none => openNew s
  | some w =>
    if w.headerAt = at_ then f s w
    else if emit then .done (s.failLaunch w.id 4) true
    else openNew (s.failLaunch w.id 4)

/-- The SYNC of a DRAW packet (R65, R304), as the packet is applied: line fills of its Arbour drain first, and the code range that the descriptor
gives is invalidated there. One that cannot be read gives none (notes/assumptions/21.md); a draw of mode 0 then fails by it at its close. -/
def State.drawSync (s : State) (l : Launch) (c : HeldCmd) (f : State → Applied) : Applied :=
  if !l.sync then f s
  else if s.filling? (fun a => a = c.home) then .wait s
  else match s.saltCheck c.ctx c.home l.queue l.qgen { r := true } [(l.kdesc, 256)] with
    | .held p => .held p
    | .wait t => .wait t
    | .err _ => f s
    | .ok => match s.readDesc c.ctx c.home l.kdesc with
      | .ok k => f (s.codeSync c.ctx k.cwin k.coff k.clen fun a => a = c.home)
      | .error _ => f s

/-- Applies a command at the Saltern (R187, R189, R194). An INIT whose descriptor is invalid where 512 sets stand already records BAD_DESC, a choice
of the model (R203, notes/assumptions/74.md). -/
def State.applyCmd (s : State) (c : HeldCmd) : Applied :=
  let t := s.teamOf c.team
  let fail (h e : Nat) : Applied := .done (s.putSet ((s.set c.ctx h).fail e)) true
  let busy (h : Nat) : Bool := s.dev.draws.any fun w => w.ctx = c.ctx && w.handle = h
  let chk (n : Need) (runs : List (VAddr × Nat)) : SRes := s.cmdCheck c n runs
  match c.cmd with
  | .init h desc =>
    let x := s.set c.ctx h
    if x.state ≠ .freed then fail h 1
    else (chk { r := true } [(desc, 64)]).go (fun e => fail h (e + 4)) <|
      let d : BitVec 512 := BitVec.ofNat 512 (leNat (s.saltRead c.ctx c.home desc 64))
      if setBad d then fail h 2
      else if 512 ≤ (s.dev.sets.filter fun y => y.handle % 8 = h % 8 && y.state != .freed).length then fail h 8
      else .done (s.putSet { ctx := c.ctx, handle := h, state := .empty, desc := d }) true
  | .add h recs =>
    let x := s.set c.ctx h
    let d := setDesc x.desc
    if !([SetState.empty, .filling, .built, .bound].contains x.state) then fail h 1
    else
      let room := if x.state = .bound then 256 - x.late else d.cap - x.count
      let take := recs.take room
      let w := [(d.samples + BitVec.ofNat 80 (16 * x.count), take.flatMap fun r => r.flatMap fun v => leBytes v.toNat 4)]
      (chk { w := true } (sizes w)).go (fun e => fail h (e + 4)) <|
        let y := if take.length < recs.length then x.fail (if x.state = .bound then 4 else 3) else x
        let y := if x.state = .bound then y else { y.drop with state := .filling }
        .done ((s.saltWrite c.ctx c.home w).putSet { y with count := x.count + take.length }) true
  | .build h =>
    let x := s.set c.ctx h
    if x.state = .empty ∨ x.state = .filling then .done (s.putSet { x with state := .building, builder := some ⟨c.g, c.op, t.launch, t.queue, t.qgen⟩ }) false else fail h 1
  | .bind h =>
    let x := s.set c.ctx h
    if x.state ≠ .built then fail h 1
    else
      let w := [onesAt (setDesc x.desc) 0 x.count]
      (chk { w := true } (sizes w)).go (fun e => fail h (e + 4)) <|
        .done ((s.saltWrite c.ctx c.home w).putSet { x with state := .bound, lateFrom := x.count, latePlaced := x.count }) true
  | .unbind h =>
    let x := s.set c.ctx h
    if x.state ≠ .bound then fail h 1 else if busy h then fail h 9 else .done (s.putSet { x.drop with state := .filling }) true
  | .free h =>
    let x := s.set c.ctx h
    if x.state = .freed then fail h 1 else if busy h then fail h 9 else .done (s.putSet { ctx := c.ctx, handle := h, err := x.err }) true
  | .query h n =>
    let v := (s.set c.ctx h).query n
    .done (s.mapHeld fun g => if g.loc = c.g then { g with ops := g.ops.map fun o => if o.id = c.op then { o with fills := o.fills.map fun (f : Fill) => { f with val := v.setWidth 80 } } else o } else g) true
  | .emit at_ recs =>
    s.drawFor c at_ fun s w =>
      (s.saltCheck c.ctx w.home t.queue t.qgen { r := true } (recs.map fun a => (a, 48))).go (fun e => .done (s.failDraw w e) true) <|
        s.emitInto w t.queue t.qgen (recs.map fun a => wordsOf 12 (s.saltRead c.ctx w.home a 48)) true fun s _ => .done s true
  | .draw at_ =>
    s.drawFor c at_ fun s w => (s.setDraw { w with ops := [(c.g, c.op)] }).emitStream { w with ops := [(c.g, c.op)] } t.queue t.qgen true
  | .packet h id at_ =>
    let l := (s.launch? id).getD { id }
    if (s.ctx c.ctx).state ≠ .resident ∨ (l.state = .pending ∧ 256 ≤ s.recordsAt c.home) then .wait s
    else s.drawSync l c fun s => (s.saltCheck c.ctx c.home l.queue l.qgen { r := true } [(at_, 64)]).go (fun e => .done (s.failLaunch id (e + 8)) true) <|
      let hd : BitVec 512 := BitVec.ofNat 512 (leNat (s.saltRead c.ctx c.home at_ 64))
      if headerBad hd || !s.drawable c.ctx h || decide (h % 8 ≠ c.home) then .done (s.failLaunch id 4) true
      else
        let w : Draw := { id, ctx := c.ctx, home := c.home, handle := h, header := hd, headerAt := at_ }
        ((s.setDraw w).setLaunch { l with state := .claimed, args := (header hd).args }).emitStream w l.queue l.qgen true

/-! ## The order of commands (R189) -/

/-- The set whose building holds a command (R189); an EMIT or DRAW acts on that of its team's open draw, or of the header it opens one by. -/
def State.cmdSet (s : State) (c : HeldCmd) : Option Nat :=
  let drawn (at_ : VAddr) : Option Nat := match s.openDraw c.team with
    | some w => some w.handle
    | none => (s.headerNow c at_).map fun x => (header x).seth
  match c.cmd with
  | .init h _ => some h | .add h _ => some h | .build h => some h | .bind h => some h | .unbind h => some h | .free h => some h
  | .query _ _ => none
  | .emit a _ => drawn a
  | .draw a => drawn a
  | .packet h _ _ => some h

/-- Whether a command waits for the accesses that its issue releases (R188, R355), or for the build of its set. -/
def State.cmdHeld (s : State) (c : HeldCmd) : Bool :=
  s.anyOpen c.after || ((s.cmdSet c).map fun h => decide ((s.set c.ctx h).state = .building)).getD false

/-- The command's operation has nothing left to wait for. -/
def State.release (s : State) (c : HeldCmd) : State :=
  s.mapHeld fun g => if g.loc = c.g then { g with ops := g.ops.map fun o => if o.id = c.op then { o with auto := true } else o } else g

/-- Tries a command, which is applied whole or not at all; what holds it keeps it in `salt`. -/
def State.tryCmd (s : State) (c : HeldCmd) : State × Option HeldCmd :=
  match s.applyCmd c with
  | .done t b => (if b then t.release c else t, none)
  | .held p =>
    let (launch, queue) := match c.cmd with
      | .packet _ id _ => (id, ((s.launch? id).map Launch.queue).getD 0)
      | _ => ((s.teamOf c.team).launch, (s.teamOf c.team).queue)
    (s.slotsFor launch queue (if c.team = 0 then 0 else c.g.core) c.ctx c.arb 32 p, some { c with held := p.map Prod.fst })
  | .wait t => (s.setDev fun d => { d with gensSent := t.dev.gensSent }, some c)

/-- Commands of one group at one Saltern keep their order; one whose home is not known yet, with all of the group's. -/
def sameOrder (a b : HeldCmd) : Bool := a.g = b.g && (a.home = b.home || a.home = 8 || b.home = 8)

/-- A command arrives at its Saltern. -/
def State.submit (s : State) (c : HeldCmd) : State :=
  let park (s : State) (c : HeldCmd) : State := s.setDev fun d => { d with salt := d.salt ++ [c] }
  let c := s.homed c
  if s.dev.salt.any (sameOrder c) || s.cmdHeld c then park s c
  else match s.tryCmd c with
    | (t, none) => t
    | (t, some c) => park t c

/-- Tries the commands that wait, oldest first (R189, R174); `ahead` are those that stay. -/
def State.drainList : List HeldCmd → List HeldCmd → State → State
  | [], ahead, s => s.setDev fun d => { d with salt := ahead ++ d.salt }
  | c :: t, ahead, s =>
    let c := if c.held = [] then s.homed c else c
    if c.held ≠ [] ∨ ahead.any (sameOrder c) ∨ s.cmdHeld c then State.drainList t (ahead ++ [c]) s
    else match s.tryCmd c with
      | (u, none) => State.drainList t ahead u
      | (u, some c) => State.drainList t (ahead ++ [c]) u
def State.drainSalt (s : State) : State := State.drainList s.dev.salt [] (s.setDev fun d => { d with salt := [] })

/-! ## Jobs (R199, R200) -/

def Draw.key (w : Draw) (u : Nat) : BitVec 64 := w.id ++ BitVec.ofNat 32 u
def Draw.unitStaged (w : Draw) (u : Nat) : List Staged := w.staged.filter fun r => r.unit = u
def State.unitOf (s : State) (w : Draw) (u : Nat) : WorkUnit := (s.set w.ctx w.handle).units.getD u ⟨0, 0, 0, 0, 0⟩
/-- The sample of lane i in a unit. -/
def State.sampleAt (s : State) (w : Draw) (u i : Nat) : Option Sample :=
  let k := s.unitOf w u
  if i < k.count then (s.set w.ctx w.handle).order[k.first + i]? else none

/-- Loads a unit's staged records when its first job starts (R199). -/
def State.stage (s : State) (w : Draw) (u : Nat) (fail : Nat → Applied) (f : State → Draw → Applied) : Applied :=
  if w.unitStaged u ≠ [] then f s w
  else
    let k := s.unitOf w u
    let l := (s.launch? w.id).getD { id := w.id }
    let va := (setDesc (s.set w.ctx w.handle).desc).results + BitVec.ofNat 80 (8 * k.first)
    (s.saltCheck w.ctx w.home l.queue l.qgen { r := true } [(va, 8 * k.count)]).go fail <|
      let ws := wordsOf (2 * k.count) (s.saltRead w.ctx w.home va (8 * k.count))
      let recs := (List.range k.count).map fun i => let x : BitVec 64 := ws.getD (2 * i + 1) 0 ++ ws.getD (2 * i) 0; (⟨u, k.first + i, x, x⟩ : Staged)
      let w := { w with staged := w.staged ++ recs }
      f (s.setDraw w) w

/-- A unit's access holds: the pages' slots open, and the draw waits under them. -/
def State.holdDraw (s : State) (w : Draw) (p : List (HeldPage × Nat)) : State :=
  (s.slotsFor w.id ((s.launch? w.id).map Launch.queue |>.getD 0) (104 * w.home) w.ctx w.home 32 p).setDraw { w with held := p.map Prod.fst }

/-- One primitive against a staged record (R200). -/
def depthMin (p : Prim) (smp : Sample) (r : Staged) : Staged :=
  match p.depth smp.x smp.y with
  | none => r
  | some d =>
    if r.now = 0xFFFFFFFFFFFFFFFF#64 ∨ Num.lt (f32 d.toNat) (f32 (fieldOf r.now.toNat 32 32)) then { r with now := d ++ p.id } else r

/-- The effort counters of a job run (R204). -/
def Draw.ran (w : Draw) (count : Nat) (j : Job) : Draw := { w with counters := bump (bump w.counters 5 (count * j.prims.length)) 6 1 }

/-- Brings the units of a draw that are not published back to their first batch (R205); groups of published units go on. -/
def State.rerunDraw (s : State) (w : Draw) : State :=
  let undone (u : Nat) : Bool := !w.published.contains u
  let s := s.killTeams fun t => t.draw = some w.id.toNat && (t.job.bind fun j => w.jobs[j]?).any fun j => undone j.unit
  let s := s.absentUnits w undone
  let redo := (w.jobs.filter fun j => undone j.unit).length
  let w := { w with held := [], toPost := if (header w.header).mode = 0 ∧ w.closed then redo else 0, staged := w.staged.filter fun r => !undone r.unit
                    jobs := w.jobs.map fun (j : Job) => if undone j.unit then { j with running := false, committed := false } else j }
  ((s.setDraw w).setDev fun d => { d with notices := d.notices.filter fun n => !(n.raster && n.launch = w.id) }).postHeads

/-! ## SSET (R351, R352) -/

/-- An SSET form: A's handle, then the command; `pend` holds it, `push` gives QUERY its positions. -/
def State.sset (s : State) (a : BitVec 8) (bad : Option Issue) (pend : Bool) (push : Bool) (f : Nat → SaltCmd) : Outcome :=
  commit 4 s <|
    if s.uniBad a then s.badField 1 a.toNat
    else match bad with
      | some i => i
      | none =>
        s.ready (s.pendingIn [] a || pend) .rs <|
          let h := (s.uni a).toNat
          if 1023 < h then s.badCause 0x60
          else
            let op := s.nextOp
            let t := s.mapLanes fun i l => if push && s.inL i then l.push { tag := if s.active i then some (op, 0) else none } else l
            let t := t.addOp { id := 0, ent := 0, path := some .rs, auto := false, fills := if push then s.activeLanes.map fun i => ⟨.q i 0, 0⟩ else [] }
            .retire (t.submit { g := s.grp.loc, op, team := s.team.serial, ctx := s.team.ctx, home := h % 8, cmd := f h, after := s.grp.before s.ent }).dirty

/-! ## RAST (R353 to R359) -/

/-- The job of the group in front with its draw and unit; none outside a sample program. -/
def State.rastJob (s : State) : Option (RastJob × Draw × Job) :=
  s.grp.rast.bind fun j => (s.dev.draws.find? fun w => w.id.toNat = j.draw).bind fun w => (w.jobs[j.job]?).map fun k => (j, w, k)

/-- The current primitive: the cursor stands before the first at 0. -/
def RastJob.prim? (j : RastJob) (k : Job) : Option Prim := if j.cursor = 0 then none else k.prims[j.cursor - 1]?

/-- The value of RAST.SIN n for lane i (R202, R356, R357). -/
def State.sinValue (s : State) (n : Nat) (j : RastJob) (w : Draw) (k : Job) (i : Nat) : Word :=
  let smp := (s.sampleAt w j.unit i).getD ⟨0, 0, 0, 0, 0⟩
  let rec_ : BitVec 64 := (((w.unitStaged j.unit)[i]?).map Staged.now).getD 0
  match n with
  | 0 => ((j.prim? k).bind fun p => p.depth smp.x smp.y).getD 0x7F800000
  | 1 => ((j.prim? k).map Prim.id).getD 0xFFFFFFFF
  | 2 => BitVec.ofInt 32 smp.x
  | 3 => BitVec.ofInt 32 smp.y
  | 4 => smp.ref
  | 5 => smp.payload
  | 6 => BitVec.ofNat 32 smp.num
  | 7 => BitVec.ofNat 32 j.unit
  | 8 => BitVec.ofNat 32 j.batch
  | 9 => rec_.setWidth 32
  | _ => (rec_ >>> 32).setWidth 32

/-- Whether commands of the group in front that it issued before wait at its draw's Saltern, which takes a group's forms in program order
(R189); SIN, SOUT and SKIP then are not issued (notes/assumptions/69.md). -/
def State.behind (s : State) (w : Draw) : Bool := s.dev.salt.any fun c => c.g = s.grp.loc && (c.home = w.home || c.home = 8) && s.grp.ops.any fun o => o.id = c.op

/-- Whether the group holds its job's key. -/
def State.holdsJob (s : State) (j : RastJob) (w : Draw) : Bool := s.grp.keys.any fun k => k.key = w.key j.unit

/-- An EMIT or DRAW (R354): the lanes' records in order, then the header, which names no lane, are translated and checked at issue. The Saltern
translates them again and reads them when it applies the form (R170, R355). -/
def State.drawForm (s : State) (recs : List Access) (at_ : VAddr) (cmd : SaltCmd) : Issue :=
  s.access { r := true } 16 false 1 16 (recs ++ [⟨64, at_, 64⟩]) (fun _ _ _ => .load []) fun t _ _ =>
    .retire ((t.addOp { id := 0, ent := 0, path := some .rs, auto := false }).submit
      { g := t.grp.loc, op := t.nextOp, team := t.team.serial, ctx := t.team.ctx, home := 8, cmd, after := s.grp.before s.ent }).dirty

/-- Initialises a sample set from a descriptor. (R187) -/
def execSsetInit (k : BitVec 4) (n : BitVec 4) (a : BitVec 8) (s : State) : Outcome :=
  s.sset a none (s.grp.pendingDest (.b n.toNat)) false fun h => .init h (s.breg n.toNat + BitVec.ofNat 80 (64 * k.toNat))

/-- Adds one sample per active lane. (R188) -/
def execSsetAdd (b : BitVec 8) (a : BitVec 8) (s : State) : Outcome :=
  let bad := if 0x3B < b.toNat ∨ s.grp.window ≤ b.toNat + 3 then some (s.badField 2 b.toNat) else none
  let regs := (List.range 4).map (codePlus b)
  s.sset a bad (regs.any (s.pendingIn s.activeLanes)) false fun h => .add h (s.activeLanes.map fun i => regs.map fun c => s.read c i)

/-- Starts the index build of a set. (R190) -/
def execSsetBuild (a : BitVec 8) (s : State) : Outcome :=
  s.sset a none false false .build

/-- Binds a built set and clears its results. (R187) -/
def execSsetBind (a : BitVec 8) (s : State) : Outcome :=
  s.sset a none false false .bind

/-- Unbinds a set, making late samples ordinary. (R187) -/
def execSsetUnbind (a : BitVec 8) (s : State) : Outcome :=
  s.sset a none false false .unbind

/-- Frees a set handle. (R187) -/
def execSsetFree (a : BitVec 8) (s : State) : Outcome :=
  s.sset a none false false .free

/-- Pushes a status or count of a set. (R203) -/
def execSsetQuery (n : BitVec 2) (a : BitVec 8) (s : State) : Outcome :=
  s.sset a none false true fun h => .query h n.toNat

/-- Emits one primitive per active lane into the team's draw. (R354) -/
def execRastEmit (k : BitVec 4) (n : BitVec 4) (a : BitVec 8) (s : State) : Outcome :=
  commit 4 s <|
    if s.srcBad a then s.badField 1 a.toNat
    else
      s.ready (s.pendingIn s.activeLanes a || s.grp.pendingDest (.b n.toNat)) .rs <|
        let at_ := s.breg n.toNat + BitVec.ofNat 80 (64 * k.toNat)
        let recs := s.accesses 48 fun i => s.breg n.toNat + (s.read a i).setWidth 80
        s.drawForm recs at_ (.emit at_ (recs.map Access.va))

/-- Emits a header's records and closes the draw. (R354) -/
def execRastDraw (k : BitVec 4) (n : BitVec 4) (s : State) : Outcome :=
  commit 4 s <|
    s.ready (s.grp.pendingDest (.b n.toNat)) .rs <|
      let at_ := s.breg n.toNat + BitVec.ofNat 80 (64 * k.toNat)
      s.drawForm [] at_ (.draw at_)

/-- Reads job input, advancing the primitive cursor for n = 0. (R356) -/
def execRastSin (n : BitVec 8) (s : State) : Outcome :=
  commit 4 s <|
    if 10 < n.toNat then s.illegal
    else match s.rastJob with
      | none => s.illegal 3
      | some (j, w, k) =>
        if s.behind w then .hold s
        else s.ready false .rs <|
          let last := k.prims.length + 1
          let j := if n = 0 then { j with cursor := min (j.cursor + 1) last } else j
          let e := (decide (n.toNat ≤ 1) && decide (j.cursor = last)) || (decide (n = 1) && decide (j.cursor = 0))
          let t : State := { s with grp := { s.grp with rast := some j } }
          let t := t.setEnt fun x => { x with scc := { x.scc with e } }
          .retire (t.loadOp (some .rs) none true 1 (fun i => [s.sinValue n.toNat j w k i])).dirty

/-- Writes staged records while holding the job's key. (R358) -/
def execRastSout (b : BitVec 8) (a : BitVec 8) (s : State) : Outcome :=
  commit 4 s <|
    if s.srcBad a then s.badField 1 a.toNat
    else if s.srcBad b then s.badField 2 b.toNat
    else match s.rastJob with
    | none => s.illegal 3
    | some (j, w, _) =>
      if !s.holdsJob j w then s.illegal 3
      else if s.behind w then .hold s
      else
        s.ready (s.pendingIn s.activeLanes a || s.pendingIn s.activeLanes b) .rs <|
          let first := (s.unitOf w j.unit).first
          let put (r : Staged) : Staged :=
            if r.unit = j.unit ∧ s.active (r.pos - first) then { r with now := s.read b (r.pos - first) ++ s.read a (r.pos - first) } else r
          .retire ((s.setDraw { w with staged := w.staged.map put }).addOp { id := 0, ent := 0, path := some .rs, sout := true }).dirty

/-- Commits the job without holding its key: the job counts as committed at once (R199), and the Saltern passes the key at its sequence when that
is due, for which the key may need an entry (R53, R214). (R359) -/
def execRastSkip (s : State) : Outcome :=
  commit 4 s <|
    match s.rastJob with
    | none => s.illegal 3
    | some (j, w, _) =>
      let key := s.keyAt w.ctx (w.key j.unit)
      if s.holdsJob j w ∨ key.waiters.any (fun x => x.enter && x.g = s.grp.loc) ∨ j.left ∨ j.skipped then s.illegal 3
      else if s.behind w then .hold s
      else
        s.ready false .rs <|
          match s.skipKey key (BitVec.ofNat 32 j.batch) with
          | none => .trap (s.trapHere .ordCapacity)
          | some (key, t) =>
            let t : State := { t with grp := { t.grp with rast := some { j with skipped := true } } }
            .retire (((t.commitJob j.draw j.unit j.batch).changeKey key).addOp { id := 0, ent := 0, path := some .rs }).dirty

/-- The group, on a core or saved, whose BUILD a set runs (R187). -/
def State.buildOwner (s : State) (x : SampleSet) : Option Group :=
  x.builder.bind fun b => (s.allGroups ++ s.savedGroups).find? fun g => g.ops.any fun o => o.id = b.op

/-- A build ends: its operation completes, and the commands that it held are tried (R187, R189). -/
def State.endBuild (s : State) (x : SampleSet) : State :=
  let s := s.putSet { x with builder := none, held := [] }
  (match x.builder with | some b => s.completeOp b.g b.op | none => s).drainSalt
def State.failBuild (s : State) (x : SampleSet) (e : Nat) : State := s.endBuild { (x.drop).fail (e + 4) with state := .filling }

/-- An index build ends, applying held commands. One that is held at a page when its group is killed writes nothing more: it stops there, as
a killed copy does (R72, notes/assumptions/52.md). (R187) -/
def execSsetBuildEnd (ctx handle : Nat) (s : State) : Outcome :=
  let x := s.set ctx handle
  let d := setDesc x.desc
  let q : Builder := x.builder.getD ⟨⟨0, 0, 0⟩, 0, 0, 0, 0⟩
  let fail (e : Nat) : Applied := .done (s.failBuild x e) true
  let stopped := (s.buildOwner x).all Group.killed
  if x.state ≠ .building ∨ (x.held ≠ [] ∧ !stopped) then .refused .notDue
  else if x.held ≠ [] then .next (s.endBuild { x.drop with state := .filling })
  else
    let chk (n : Need) (runs : List (VAddr × Nat)) : SRes := s.saltCheck ctx (handle % 8) q.queue q.qgen n runs
    let r := (chk { r := true } [(d.samples, 16 * x.count)]).go fail <|
      let smp := s.readSamples ctx (handle % 8) d 0 x.count
      let (order, units, rej) := d.orderSamples (smp.filter d.accepts) smp 0
      let writes := d.indexWrites 0 0 order units
      (chk { w := true } (sizes writes)).go fail <|
        .done ((s.saltWrite ctx (handle % 8) writes).endBuild { x with state := .built, order, units, rejected := rej }) true
    match r with
    | .done t _ => .next t
    | .held p => .next ((s.slotsFor q.launch q.queue 0 ctx (handle % 8) 32 p).putSet { x with held := p.map Prod.fst })
    | .wait t => s.noticed t

/-- The raster stage performs a depth-min job when its sequence is due. (R200) -/
def execRasterStageJob (draw job : Nat) (s : State) : Outcome :=
  match s.draw? (BitVec.ofNat 32 draw) with
  | none => .refused .notDue
  | some w => match w.jobs[job]? with
    | none => .refused .notDue
    | some j =>
      let k := s.keyAt w.ctx (w.key j.unit)
      if !s.isHead w ∨ (header w.header).mode ≠ 1 ∨ w.held ≠ [] ∨ j.committed ∨ k.holder.isSome ∨ k.n ≠ BitVec.ofNat 32 j.batch ∨ (s.ctx w.ctx).state ≠ .resident ∨ (s.admitKey { k with n := k.n + 1 }).isNone then .refused .notDue
      else
        let r := s.stage w j.unit (fun e => .done (s.failDraw w e) true) fun s w =>
          let count := (s.unitOf w j.unit).count
          let upd (r : Staged) : Staged :=
            if r.unit = j.unit then j.prims.foldl (fun r p => match (s.set w.ctx w.handle).order[r.pos]? with | some x => depthMin p x r | none => r) r else r
          let s := s.setDraw ({ w with staged := w.staged.map upd }.ran count j)
          let s := s.commitJob w.id.toNat j.unit j.batch
          match s.admitKey { k with n := k.n + 1 } with
          | some (k, s) => .done (s.changeKey k) true
          | none => .done s true
        match r with
        | .done t _ => .next t
        | .held p => .next (s.holdDraw w p)
        | .wait t => s.noticed t

/-- A unit's last job commits and its staged records are published. (R199) -/
def execUnitPublish (draw unit : Nat) (s : State) : Outcome :=
  match s.draw? (BitVec.ofNat 32 draw) with
  | none => .refused .notDue
  | some w =>
    let jobs := w.jobs.filter fun j => j.unit = unit
    let recs := w.unitStaged unit
    if !s.isHead w ∨ w.held ≠ [] ∨ w.published.contains unit ∨ jobs = [] ∨ jobs.any (fun j => !j.committed) then .refused .notDue
    else
      let x := s.set w.ctx w.handle
      let l := (s.launch? w.id).getD { id := w.id }
      let writes := [((setDesc x.desc).results + BitVec.ofNat 80 (8 * (s.unitOf w unit).first), recs.flatMap fun r => leBytes r.now.toNat 8)]
      let r := (s.saltCheck w.ctx w.home l.queue l.qgen { w := true } (sizes writes)).go (fun e => .done (s.failDraw w e) true) <|
        let s := s.saltWrite w.ctx w.home writes
        let covered := recs.filter fun r => match x.order[r.pos]? with
          | some p => jobs.any fun j => j.prims.any fun q => (q.depth p.x p.y).isSome
          | none => false
        let passed := recs.filter fun r => r.orig != r.now
        let s := s.setDraw { w with published := unit :: w.published, counters := bump (bump w.counters 3 covered.length) 4 passed.length, staged := w.staged.filter fun r => r.unit != unit }
        .done (s.absentUnits w fun u => u = unit) true
      match r with
      | .done t _ => .next t
      | .held p => .next (s.holdDraw w p)
      | .wait t => s.noticed t

/-- All units published; the Saltern releases the draw. (R160) -/
def execDrawRelease (draw : Nat) (s : State) : Outcome :=
  match s.draw? (BitVec.ofNat 32 draw) with
  | none => .refused .notDue
  | some w =>
    let running := s.everyTeam.any fun t => t.serial != 0 && t.draw = some draw
    if !s.isHead w ∨ w.held ≠ [] ∨ running ∨ (w.jobs.any fun j => !w.published.contains j.unit) then .refused .notDue
    else
      let l := (s.launch? w.id).getD { id := w.id }
      let st := (header w.header).stats
      let fin (s : State) : Applied :=
        let s := s.dropDraw w.id
        .done ((if w.team = 0 then s.setLaunch { l with state := .done, doneN := l.total } else s.freeLaunch w.id).drainSalt) true
      let bad (e : Nat) : Applied := .done (s.failDraw w e) true
      let r : Applied :=
        if st = 0 then fin s
        else (s.saltCheck w.ctx w.home l.queue l.qgen { r := true } [(st, 64)]).go bad <|
          (s.saltCheck w.ctx w.home l.queue l.qgen { w := true } [(st, 64)]).go bad <|
            let old := s.saltRead w.ctx w.home st 64
            let new := (List.range 8).flatMap fun k => leBytes (leNat ((old.drop (8 * k)).take 8) + w.counters.getD k 0) 8
            fin (s.saltWrite w.ctx w.home [(st, new)])
      match r with
      | .done t _ => .next t
      | .held p => .next (s.holdDraw w p)
      | .wait t => s.noticed t

end Sys2Proof.Machine
end

