-- ==== Sys2Proof/Machine/Agent.lean ====
section
/-! DEFINITION. The agents: claiming launches, admitting and starting teams, the PRIV forms, and the end of groups and teams
(05_kernel.md R81 to R92, 06_group.md R97, 23_isa_raster_system.md R363 to R368). -/
namespace Sys2Proof.Machine
open Sys2Proof

/-! ## Notices (R82, R368) -/

/-- The notice that a claim takes: of an Arbour, the lowest class and the oldest in it; those of a context that is not RESIDENT
are left (R49, notes/assumptions/23.md). -/
def State.headNotice (s : State) (arb : Nat) : Option Notice :=
  let l := s.dev.notices.filter fun n => n.arbour = arb && decide ((s.ctx (s.queue n.queue).ctx).state = .resident)
  (List.range 4).findSome? fun c => l.find? fun n => n.cls = c

def State.dropNotice (s : State) (n : Notice) : State := s.setDev fun d => { d with notices := d.notices.erase n }

/-- The 16 bytes of a notice. -/
def Notice.bytes (n : Notice) : List Byte :=
  [if n.raster then 2 else 1, BitVec.ofNat 8 n.cls] ++ leBytes n.queue 2 ++ [n.qgen, 0, 0, 0] ++ leBytes (if n.raster then n.launch.toNat else 0) 4 ++ leBytes 0 4

/-! ## Starting teams -/

/-- What a team of a launch starts with (R79, R86). -/
def Launch.info (l : Launch) (t : Nat) : StartInfo :=
  { kd := Sys2Proof.Machine.kdesc l.desc.toNat, args := l.args, grid := (l.gx, l.gy, l.gz), index := l.index t, launch := l.id, ctx := l.ctx, queue := l.queue, qgen := l.qgen
    ticket := t, job := none, count := 0, draw := none }

/-- Notes a ticket as started (R85), in the place of the ticket 65,536 before it (R83). -/
def Launch.start (l : Launch) (t : Nat) : Launch := { l with hwm := max l.hwm (t + 1), map := (t, false) :: l.map.filter fun e => e.1 % 65536 != t % 65536 }

/-- The job of a draw as a sample program reads it (R199). -/
def Job.rast (j : Job) (draw : Word) : RastJob := { draw := draw.toNat, unit := j.unit, batch := j.batch, job := j.num }

/-- A held team runs as the sample program of a job (R199, R204). -/
def State.runJob (s : State) (core : Nat) (h : Hold) (w : Draw) (j : Job) (i : StartInfo) : State :=
  let count := (s.unitOf w j.unit).count
  let w := ({ w with jobs := w.jobs.map fun (k : Job) => if k.num = j.num then { k with running := true } else k }).ran count j
  let s := s.setDraw { w with counters := bump w.counters 7 1 }
  let l := (s.launch? w.id).getD { id := w.id }
  let s := s.setLaunch { (l.start j.num) with ticket := max l.ticket (j.num + 1) }
  s.startTeam core h { i with job := some (j.rast w.id), count, draw := some w.id.toNat }

/-- Starts a held team as the sample program of a job, whose unit is staged then (R199); a staging that fails ends the draw, and the team
with it (R174). -/
def State.startJob (s : State) (core : Nat) (h : Hold) (w : Draw) (j : Job) (i : StartInfo) : Applied :=
  s.stage w j.unit (fun e => .done ((s.runJob core h w j i).failDraw w e) true) fun s w => .done (s.runJob core h w j i) true

/-- Starts the teams that agents hold for tickets of a launch. -/
def State.startHeld (s : State) (l : Launch) (hs : List (Nat × Nat × Nat)) : State :=
  hs.foldl (fun s x => match (s.coreOf x.1).holds.find? fun h => h.num = x.2.1 with
    | some h => s.startTeam x.1 h (l.info x.2.2)
    | none => s) s

/-- An agent that holds ticket t goes on (R85), once the map has its place and the context is RESIDENT: its team starts; a COHORT ticket
stays held until the last one sets GO, and then every holding agent starts its team (R89). -/
def State.goOn (s : State) (l : Launch) (x : Nat × Nat × Nat) : Option State :=
  let t := x.2.2
  if l.low + 65536 ≤ t ∨ (s.ctx l.ctx).state ≠ .resident ∨ (l.cohort ∧ l.map.contains (t, false)) then none
  else
    let l := l.start t
    if l.cohort ∧ t + 1 ≠ l.total then some (s.setLaunch l)
    else
      let go := if l.cohort then l.holders else [x]
      let l := { l with go := l.cohort, holders := l.holders.filter fun y => !go.contains y }
      let s := if l.cohort then go.foldl (fun s x => s.wake x.1 3) s else s
      some ((s.setLaunch l).startHeld l go)

/-- The agent of a core goes on with a ticket that it holds. -/
def State.serveLaunch (s : State) (core : Nat) (l : Launch) : Option State := (l.holders.find? fun x => x.1 = core).bind (s.goOn l)

/-- Whether the agent of a core waits with a ticket (R85). -/
def State.agentWaits (s : State) (core : Nat) : Bool := s.dev.launches.any fun l => !l.cohort && l.holders.any fun x => x.1 = core

/-- An agent takes a ticket of an open launch (R85): it holds a team's resources, adds 1 to TICKET, and goes on as far as it may. No
ticket is taken while the context is not RESIDENT (R49). -/
def State.takeTicket (s : State) (core : Nat) (l : Launch) : Option State :=
  if l.state ≠ .issuing ∨ !s.dev.openTable.contains (arbourOf core, l.id) ∨ (s.ctx l.ctx).state ≠ .resident ∨ s.agentWaits core then none
  else match s.admission core (kdesc l.desc.toNat) with
    | .error _ => none
    | .ok h =>
      let t := l.ticket
      let l := { l with ticket := t + 1 }
      if l.total ≤ t then some ((s.setLaunch (Launch.settle { l with state := .draining })).withdrawOpen l.id)
      else
        let x := (core, h.num, t)
        let l := { l with holders := l.holders ++ [x] }
        let u := (s.onCore core fun k => { k with holds := h :: k.holds }).setLaunch l
        some ((u.goOn l x).getD u)

/-- The job that an agent takes of a draw (R199): the lowest one of an unpublished unit that is neither running nor committed. -/
def Draw.nextJob (w : Draw) : Option Job := w.jobs.find? fun j => !j.running && !j.committed && !w.published.contains j.unit

def State.serveDraw (s : State) (core : Nat) (w : Draw) (l : Launch) : Option State :=
  let kd := kdesc l.desc.toNat
  if !s.isHead w ∨ (header w.header).mode ≠ 0 ∨ w.held ≠ [] ∨ arbourOf core ≠ w.home ∨ (s.ctx w.ctx).state ≠ .resident then none
  else match s.headNotice w.home, w.nextJob with
    | some n, some j =>
      if ¬ n.raster ∨ n.launch ≠ w.id then none
      else match s.admission core kd with
        | .error _ => none
        | .ok h =>
          let i : StartInfo := { l.info j.num with args := (header w.header).args, grid := (1, 1, 1), index := (0, 0, 0) }
          match (s.dropNotice n).startJob core h w j i with
          | .done u _ => some u
          | .held p => some (s.holdDraw w p)
          | .wait t => match s.noticed t with | .next u => some u | _ => none
    | _, _ => none

/-- What an agent does for an open launch. -/
def State.serveOne (s : State) (core : Nat) (l : Launch) : Option State := (s.serveLaunch core l).or (s.takeTicket core l)

/-- The place of a launch in an agent's scan (R82): the effective priority of its context, then LAUNCHID. -/
def State.scanPlace (s : State) (core : Nat) (l : Launch) : Nat := (15 - ((s.coreOf core).prio (s.ctx l.ctx)).prio) * 2 ^ 32 + l.id.toNat

/-- A core's agent acts for a launch or draw: for a launch only where it can act for none before it in its scan (R82). -/
def State.serve (s : State) (core : Nat) (id : Word) : Option State :=
  match s.launch? id with
  | none => none
  | some l =>
    if l.isDraw then (s.draw? id).bind fun w => s.serveDraw core w l
    else if s.dev.launches.any fun x => !x.isDraw && decide (s.scanPlace core x < s.scanPlace core l) && (s.serveOne core x).isSome then none
    else s.serveOne core l

/-! ## Claiming a launch (R84, R88, R89) -/

/-- The launch's checks (R77, R86, R88, R89): the descriptor, or an ERRCODE. Of several failures the first in this order decides, a choice
of the model (notes/assumptions/62.md). -/
def State.checkLaunch (s : State) (l : Launch) : Except Nat KDesc :=
  match s.readKernel l.ctx (l.id.toNat / 2 ^ 29) l.kdesc l.args with
  | .error e => .error e
  | .ok k =>
    if l.morton ∧ ¬ (isPow2 l.gx ∧ isPow2 l.gy ∧ isPow2 l.gz) then .error 4
    else if tooLarge k l.cohort l.total then .error 5
    else .ok k

/-- A claimed launch becomes ISSUING (R84, R304): no other COHORT launch is, line fills that SYNC drains have been delivered, and the
open-launch tables have room, without which the model keeps it CLAIMED (notes/assumptions/62.md). -/
def State.openLaunch (s : State) (l : Launch) : Option State :=
  let k := kdesc l.desc.toNat
  let arbs := (List.range 8).filter k.takes
  let full := arbs.any fun a => decide (256 ≤ (s.dev.openTable.filter fun e => e.1 = a).length)
  let other := l.cohort && s.dev.launches.any fun x => x.cohort && x.state = .issuing && x.id != l.id
  if full ∨ other ∨ (l.sync ∧ s.filling? k.takes) then none
  else
    let s := if l.sync then s.codeSync l.ctx k.cwin k.coff k.clen k.takes else s
    let s := (s.setLaunch { l with state := .issuing }).setDev fun d => { d with openTable := d.openTable ++ arbs.map fun a => (a, l.id) }
    some (arbs.foldl (fun s a => s.wakeArbour a 2) s)

/-- Record space frees and a pending launch is claimed: its descriptor is read, this once (R76), and checked. (R84) -/
def execLaunchClaim (launch : Nat) (s : State) : Outcome :=
  match s.launch? (BitVec.ofNat 32 launch) with
  | none => .refused .notDue
  | some l =>
    let home := l.id.toNat / 2 ^ 29
    if l.isDraw ∨ (s.ctx l.ctx).state ≠ .resident then .refused .notDue
    else if l.state = .claimed then (match s.openLaunch l with | some t => .next t | none => .refused .notDue)
    else if l.state ≠ .pending ∨ 256 ≤ s.recordsAt home then .refused .notDue
    else match s.checkLaunch l with
      | .error e => .next ((s.failLaunch l.id e).fatalKernel l.ctx home l.kdesc l.args)
      | .ok _ =>
        let l := { l with state := .claimed, desc := BitVec.ofNat 512 (leNat (s.gRead [] (s.ctx l.ctx) home l.kdesc 64)) }
        .next ((s.openLaunch l).getD (s.setLaunch l))

/-! ## PRIV (R363 to R368) -/

/-- A PRIV form: only the agent's, its results pending in s registers until filled. -/
def State.priv (s : State) (a : Option (BitVec 8)) (dst : List Nat) (f : Issue) : Outcome :=
  commit 4 s <|
    if ¬ s.grp.agent then .trap (s.trapHere .privFault)
    else match a.bind fun a => if s.uniBad a then some (s.badField 1 a.toNat) else none with
      | some i => i
      | none => if (a.any fun a => s.pendingIn [] a) ∨ dst.any s.pendingS then .wait .scoreboard s else f

/-- Values that fill s registers from k on. -/
def State.fillS (s : State) (k : Nat) (l : List Word) : State :=
  s.addOp { id := 0, ent := 0, path := none, fills := l.zipIdx.map fun (x, i) => ⟨.s (s.sIndex (k + i)), x.setWidth 80⟩ }

/-- What a team start block says (R364), from its 1,024 bits. -/
def blockInfo (n : Nat) : StartInfo :=
  let kd := kdesc (n % 2 ^ 512)
  { kd, args := BitVec.ofNat 80 (fieldOf n 944 80), grid := (fieldOf n 913 31, fieldOf n 897 16, fieldOf n 881 16), index := (fieldOf n 850 31, fieldOf n 834 16, fieldOf n 818 16)
    launch := BitVec.ofNat 32 (fieldOf n 786 32), ctx := fieldOf n 780 6, queue := fieldOf n 768 12, qgen := BitVec.ofNat 8 (fieldOf n 760 8)
    ticket := fieldOf n 692 64, job := none, count := 0, draw := none }
def blockHold (n : Nat) : Nat := fieldOf n 756 4
def blockJob (n : Nat) : Option Nat := if fieldOf n 660 32 = 2 ^ 32 - 1 then none else some (fieldOf n 660 32)

/-- What TEAMGO does with a block that it has read (R365). The job of a draw starts only after the draw before it on its set (R189). -/
def State.teamGo (s : State) (step n : Nat) : Issue :=
  let core := s.core.num
  let ok (s : State) (num : Nat) : Issue := .retire (s.fillS 63 [BitVec.ofNat 32 (2 ^ 31 + num)])
  let held := s.core.holds.find? fun h => h.num = blockHold n
  match step, held with
  | 0, _ => match s.admission core (kdesc (n % 2 ^ 512)) with
    | .ok h => ok (s.onCore core fun k => { k with holds := h :: k.holds }) h.num
    | .error r => .retire (s.fillS 63 [BitVec.ofNat 32 (r * 2 ^ 28)])
  | 1, some h =>
    let i := blockInfo n
    match blockJob n, s.draw? i.launch with
    | some jn, some w => match w.jobs[jn]? with
      | none => ok (s.startTeam core h i) h.num
      | some j =>
        if w.held ≠ [] ∨ !s.isHead w then .hold s
        else match s.startJob core h w j i with
          | .done t _ => ok t h.num
          | .held p => .hold (s.holdDraw w p)
          | .wait t => .hold t
    | _, _ => ok (s.startTeam core h i) h.num
  | 2, some h => ok (s.onCore core fun k => { k with holds := k.holds.filter fun x => x.num != h.num }) h.num
  | _, _ => s.badCause 0x50


/-- Agent holds, starts or releases a team. A START is a release, so the agent's earlier accesses are performed before it; the block is read
after its earlier stores to it (R149, R425). (R365) -/
def execPrivTeamgo (k : BitVec 4) (n : BitVec 4) (a : BitVec 8) (s : State) : Outcome :=
  s.priv (some a) [63] <|
    let va := s.breg n.toNat + BitVec.ofNat 80 (64 * k.toNat)
    if s.grp.pendingDest (.b n.toNat) then .wait .scoreboard s
    else if 2 < (s.uni a).toNat then s.badCause 0x50
    else s.access { r := true } 64 true 1 8 [⟨0, va, 128⟩] (fun _ _ _ => .load []) fun t todo _ =>
      let u := if s.uni a = 1 then t.released else t.performOps (t.grp.precede t.ent { id := 0, ent := 0, path := some .vm, todo })
      u.teamGo (s.uni a).toNat (leNat (u.loadVA va 128))

/-- Agent receives the next completed team of the core. (R366) -/
def execPrivTeamdone (s : State) : Outcome :=
  s.priv none [60, 61, 62, 63] <|
    match s.core.done with
    | [] => .retire (s.fillS 63 [0])
    | x :: r => .retire ({ s with core := { s.core with done := r } }.fillS 60 [x.ticket.setWidth 32, (x.ticket >>> 32).setWidth 32, x.launch, BitVec.ofNat 32 (2 ^ 31 + x.err)])

/-- AGSLEEP returns: the events that occurred go to s63, and are cleared (R367). -/
def State.agWake (s : State) (limit : Bool) : State :=
  let m : Word := s.core.wakes.setWidth 32 ||| (if limit then 0x20 else 0)
  { s with core := { s.core with wakes := 0 } }.fillS 63 [m]

/-- Whether the tick limit of the entity's AGSLEEP has passed. -/
def State.agLimit (s : State) : Bool := s.ent.wd.wake.any fun w => decide (w ≤ s.dev.tick)


/-- Agent waits for a wake event or a tick limit. (R367) -/
def execPrivAgsleep (a : BitVec 8) (s : State) : Outcome :=
  s.priv (some a) [63] <|
    if s.core.wakes ≠ 0 ∨ s.agLimit then .retire (s.agWake s.agLimit)
    else if s.uni a = 0 ∨ s.ent.wd.wake.isSome then .wait .sleep s
    else .wait .sleep (s.setEnt fun e => { e with wd := { e.wd with wake := some (s.dev.tick + (s.uni a).toNat) } })

/-- Agent claims the head work notice. (R368) -/
def execPrivWkpop (k : BitVec 8) (s : State) : Outcome :=
  if k.toNat % 2 = 1 ∨ 60 < k.toNat then commit 4 s s.illegal
  else s.priv none ((List.range 4).map fun i => k.toNat + i) <|
    match s.headNotice s.arbour with
    | none => .retire (s.fillS k.toNat [0, 0, 0, 0])
    | some n =>
      let t := s.dropNotice n
      let t := if n.raster then t else t.setQueue { t.queue n.queue with claimed := true, notice := false, claimTick := t.dev.tick }
      .retire (t.fillS k.toNat (wordsOf 4 n.bytes))

/-- A wake event or tick limit ends an agent's sleep. (R367) -/
def execAgsleepWake (core : Nat) (s : State) : Outcome :=
  let t := s.focusCore core
  match t.focusGroup ⟨core, 0, 15⟩ with
  | none => .refused .notDue
  | some t =>
    if t.ent.status = .waiting .sleep ∧ (t.core.wakes ≠ 0 ∨ t.agLimit) then .next (t.setEnt fun e => { e with status := .ready }) else .refused .notDue

/-! ## The end of groups and teams -/


/-- An exited or killed group retires once its operations complete; a skip that needs an entry waits for one (R53). (R97) -/
def execGroupRetire (g : GLoc) (s : State) : Outcome :=
  match s.groupAt g with
  | none => .refused .notDue
  | some x =>
    if x.agent ∨ x.gstate ≠ .exited ∨ x.killed ∨ x.ops ≠ [] ∨ x.keys ≠ [] ∨ s.dev.salt.any (fun c => c.g = g) then .refused .notDue
    else
      let gone (s : State) : Outcome :=
        .next ((s.mapTeams fun t => if t.serial = x.team then { t with exits := (x.gid, x.lastExit) :: t.exits } else t).removeGroup g)
      -- a sample program that has neither left its section nor skipped is skipped at exit (R199)
      match x.rast with
      | none => gone s
      | some j =>
        if j.left ∨ j.skipped then gone s
        else
          if (s.draw? (BitVec.ofNat 32 j.draw)).isNone then gone (s.dropStale x)
          else match s.skipKey (s.keyAt (s.teamOf x.team).ctx j.key) (BitVec.ofNat 32 j.batch) with
            | none => .refused .notDue
            | some (k, s) => gone ((s.commitJob j.draw j.unit j.batch).changeKey k)

/-- A directed kill removes a group. (R97) -/
def execGroupKill (g : GLoc) (s : State) : Outcome :=
  match s.groupAt g with
  | none => .refused .notDue
  | some x => if x.agent ∨ ¬ x.killed ∨ x.ops ≠ [] ∨ x.keys ≠ [] then .refused .notDue else .next (s.removeGroup g)

/-- The queues of a core that a team owns become unclaimed, and the sends that wait for them are told so (R133, R134). -/
def State.freeQueues (s : State) (team : Nat) : State :=
  let owned := s.allCores.flatMap fun k => k.mqs.filter fun q => q.owner = some team
  let s := s.mapCores fun k => { k with mqs := k.mqs.map fun (q : Mq) => if q.owner = some team then { h := q.t, t := q.t } else q }
  (owned.flatMap Mq.sends).foldl (fun s x => s.resolveSend x 0xFFFFFFFF) s

/-- The ERRCODE that a team's end calls for (R366): that of its own failure, or KILLED. -/
def Team.endErr (t : Team) : Nat := if t.err ≠ 0 then t.err else if t.killed then 8 else 0


/-- A team's groups have exited and its operations completed. (R91) -/
def execTeamComplete (team : Nat) (s : State) : Outcome :=
  match s.allTeams.find? fun t => t.serial = team with
  | none => .refused .notDue
  | some t =>
    if team = 0 ∨ s.allGroups.any (fun g => !g.agent && g.team = team) ∨ s.dev.ctxs.any (fun c => c.saved.any fun k => k.groups.any fun g => g.team = team) ∨ s.allCores.any (fun k => k.sluice.any fun c => c.team = team) then .refused .notDue
    else
      let s := s.focusTeam 0
      let s : State := { s with teams := s.teams.filter fun x => x.serial != team }
      let s := match s.launch? t.launch with
        | some l => if t.killed then s else s.setLaunch (l.complete t.ticket.toNat)
        | none => s
      let s := s.onCore t.core fun k => { k with done := k.done ++ [⟨t.ticket, t.launch, t.endErr⟩] }
      .next ((s.wake t.core 1).freeQueues team)

end Sys2Proof.Machine
end

