-- ==== Sys2Proof/Machine/Atomic.lean ====
section
/-! DEFINITION. Atomics and compare-and-swap (20_isa_memory.md R299 to R301, 09_consistency.md R147): an issue leaves one step per active lane
with its operation, performed in any order (Access.lean). -/
namespace Sys2Proof.Machine
open Sys2Proof

/-- The operand checks of an atomic (R240): A, then the value. -/
def State.atomBad (s : State) (a v : BitVec 8) (size : Nat) : Option Issue :=
  if s.srcBad a then some (s.badField 1 a.toNat)
  else if (if size = 4 then s.srcBad v else s.pairBad v) then some (s.badField 2 v.toNat)
  else none

def State.atomVal (s : State) (v : BitVec 8) (size i : Nat) : BitVec 64 := if size = 4 then (s.read v i).setWidth 64 else s.read64 v i

/-- A global atomic (R299): `what` is the step of a lane, which fills its positions with the old value. -/
def State.atomForm (s : State) (e : BitVec 4) (a v : BitVec 8) (size : Nat) (extra : List (BitVec 8)) (what : Nat → List Part → AccessKind) : Outcome :=
  commit 4 s <| match s.atomBad a v size with
    | some i => i
    | none =>
      s.ready (s.memPending (some e) ([a, v] ++ (if size = 4 then [] else [codePlus v 1]) ++ extra)) .vm <|
        s.access { r := true, w := true } size false 4 size (s.accesses size fun i => s.breg e.toNat + (s.read a i).signExtend 80)
          (fun i o len => what i (wordParts (size / 4) 4 false (resultDests none true i) o len)) fun t todo us =>
          .retire (t.loadOp (some .vm) none true (size / 4) (blanks (size / 4)) us todo).dirty

/-- A scratchpad atomic (R299, R131). -/
def State.atomSp (s : State) (a v : BitVec 8) (size : Nat) (extra : List (BitVec 8)) (what : Nat → List Part → AccessKind) : Outcome :=
  commit 4 s <| match s.atomBad a v size with
    | some i => i
    | none =>
      s.ready (s.memPending none ([a, v] ++ (if size = 4 then [] else [codePlus v 1]) ++ extra)) .sp <|
        match s.checkWindow size size false (s.offsets fun i => s.read a i) with
        | some t => .trap t
        | none => .retire (s.loadOp (some .sp) none true (size / 4) (blanks (size / 4)) []
            (s.winTodo false size size (s.offsets fun i => s.read a i) fun i o len => what i (wordParts (size / 4) 4 false (resultDests none true i) o len))).dirty

/-- The expected value of a CAS, from q0 or q1 and q0 (R300). -/
def State.casExp (s : State) (size i : Nat) : BitVec 64 := if size = 4 then (s.read 0x40 i).setWidth 64 else s.read64 0x40 i

/-- Per-lane 32-bit global atomic, returning the old value. (R299) -/
def execAtom32 (v : BitVec 8) (a : BitVec 8) (x : BitVec 3) (e : BitVec 4) (s : State) : Outcome :=
  s.atomForm e a v 4 [] fun i => .atom x.toNat (s.atomVal v 4 i)

/-- Per-lane 64-bit global atomic, returning the old value. (R299) -/
def execAtom64 (v : BitVec 8) (a : BitVec 8) (x : BitVec 3) (e : BitVec 4) (s : State) : Outcome :=
  s.atomForm e a v 8 [] fun i => .atom x.toNat (s.atomVal v 8 i)

/-- Per-lane 32-bit scratchpad atomic. (R299) -/
def execAtoms (v : BitVec 8) (a : BitVec 8) (x : BitVec 3) (s : State) : Outcome :=
  s.atomSp a v 4 [] fun i => .atom x.toNat (s.atomVal v 4 i)

/-- Per-lane compare-and-swap against q0. (R300) -/
def execCas (v : BitVec 8) (a : BitVec 8) (w : BitVec 1) (y : BitVec 2) (e : BitVec 4) (s : State) : Outcome :=
  let size := if w = 1 then 8 else 4
  let extra : List (BitVec 8) := if w = 1 then [0x40, 0x41] else [0x40]
  let f (i : Nat) : List Part → AccessKind := .cas (s.casExp size i) (s.atomVal v size i)
  if y = 0 then s.atomForm e a v size extra f else s.atomSp a v size extra f

end Sys2Proof.Machine
end

