-- ==== Sys2Proof/Machine/Fetch.lean ====
section
/-! DEFINITION. Fetching an instruction's bytes from the instruction cache (16_encoding.md R237 to R239), and who may issue (06_group.md R103). -/
namespace Sys2Proof.Machine
open Sys2Proof

/-- The code-window offset of the line that holds an offset. -/
def lineStart (pc : Word) : Word := pc &&& 0xFFFFFF80

/-- The bytes of a cached line. -/
def Core.line (k : Core) (ctx : Nat) (va : VAddr) : Option (List Byte) := (k.icache.find? fun l => l.ctx = ctx && l.va = va).map ILine.bytes

/-- The halfword at an offset, or the offset of the line that is not cached. -/
def Core.half (k : Core) (ctx : Nat) (cwin : VAddr) (pc : Word) : Except Word Nat :=
  match k.line ctx (cwin + (lineStart pc).setWidth 80) with
  | none => .error (lineStart pc)
  | some bs => .ok (leNat ((bs.drop (pc.toNat % 128)).take 2))

/-- The instruction at an offset, as length in bytes and word (R237), or the line that it still needs. -/
def Core.fetch (k : Core) (ctx : Nat) (cwin : VAddr) (pc : Word) : Except Word (Nat × Nat) :=
  match k.half ctx cwin pc with
  | .error l => .error l
  | .ok h =>
    if h % 2 = 0 then .ok (2, h)
    else match k.half ctx cwin (pc + 2) with
      | .error l => .error l
      | .ok h2 => .ok (4, h + 65536 * h2)

/-- The space that a group fetches from: its context's, or the firmware's, numbered 64, which no line fill brings and no context shares
(R16, R81). -/
def Group.codeSpace (g : Group) (t : Team) : Nat := if g.agent then 64 else t.ctx

/-- What the entity in front fetches. -/
def State.fetch (s : State) : Except Word (Nat × Nat) := s.core.fetch (s.grp.codeSpace s.team) s.team.cwin s.ent.pc

/-- Whether an entity may issue as far as its group, its context and its cached line go. -/
def State.canIssue (s : State) (g : Group) (e : Entity) : Bool :=
  let t := s.teamOf g.team
  e.live && (g.agent || decide ((s.ctx t.ctx).state = .resident)) && (g.gstate = .ready || (g.gstate = .trapped && e.handling))
    && (match (s.coreOf g.loc.core).fetch (g.codeSpace t) t.cwin e.pc with | .ok _ => true | .error _ => false)

/-- A fetch of a line for the entity in front that fails (R171, R238): the offset that could not be fetched. -/
def State.fetchFailed (s : State) (line : Word) : Word := if line = lineStart s.ent.pc then s.ent.pc else s.ent.pc + 2

/-- Whether the group in front may issue and take traps: an agent, or a group whose context is RESIDENT (R46, R48, R384). -/
def State.running (s : State) : Bool := s.grp.agent || decide ((s.ctx s.team.ctx).state = .resident)

/-- The line of the code window at an offset, of the entity in front. -/
def State.lineVA (s : State) (line : Word) : VAddr := s.team.cwin + line.setWidth 80
def ILine.is (l : ILine) (ctx : Nat) (va : VAddr) : Bool := l.ctx = ctx && l.va = va

/-- A line goes into the cache of 1,024 lines, which keeps a line that it holds (R239). A full cache drops the line filled longest ago, a choice
of the model (R12, notes/assumptions/62.md). -/
def Core.cacheLine (k : Core) (l : ILine) : Core := if k.icache.any fun x => x.is l.ctx l.va then k else { k with icache := (l :: k.icache).take 1024 }

/-- The contents that a fetch of a line may return (R239): those that memory holds, those of a fill in flight, those that the line has
held since the core invalidated it. -/
def State.lineVersions (s : State) (va : VAddr) (now : List Byte) : List (List Byte) :=
  now :: (((s.core.fills.map LineFill.line) ++ s.core.versions).filter fun l => l.is s.team.ctx va).map ILine.bytes

/-- A line as it stands in memory now, for the entity in front, where its fetch meets no fault. -/
def State.lineNow (s : State) (line : Word) : Option ILine :=
  match (s.translate s.core.itlb (s.ctx s.team.ctx) s.arbour { x := true } (s.lineVA line).toNat).1 with
  | .ok pa => if s.poisonedAt pa 128 ∨ (s.remoteGate (s.usesOf [(64, s.lineVA line, pa)])).isSome then none else some ⟨s.team.ctx, s.lineVA line, s.mem.readBytes pa 128⟩
  | .error _ => none

/-- A core requests the line that the entity in front misses (R303): what memory holds now may be delivered at any later time. -/
def State.requestLine (s : State) : Option State :=
  match s.fetch with
  | .error l => if s.grp.agent then none else (s.lineNow l).map fun x => { s with core := { s.core with fills := s.core.fills ++ [⟨s.nextOp, x⟩] }, nextOp := s.nextOp + 1 }
  | .ok _ => none

/-- What a line of a context holds in memory now, which a later fetch of a core may still return until the core invalidates the line (R239). -/
def State.keepVersion (s : State) (core ctx : Nat) (va : VAddr) : Option State :=
  if 831 < core ∨ va.toNat % 128 ≠ 0 then none
  else match (s.translate (s.coreOf core).itlb (s.ctx ctx) (arbourOf core) { x := true } va.toNat).1 with
    | .ok pa => if s.poisonedAt pa 128 then none else some (s.onCore core fun k => { k with versions := ⟨ctx, va, s.mem.readBytes pa 128⟩ :: k.versions })
    | .error _ => none

/-- The oldest fill in flight to a core is delivered. -/
def State.deliverLine (s : State) (core : Nat) : Option State :=
  match (s.coreOf core).fills with
  | [] => none
  | f :: r => some (s.onCore core fun k => { k with fills := r }.cacheLine f.line)

/-- The fetch of a line by the entity in front (R168, R171, R238, R239). What it returns is a free choice among the versions that it may
return. A POISONED page fails it as any other failing translation does (notes/assumptions/63.md). -/
def State.fillLine (s : State) (line : Word) : Outcome :=
  let c := s.ctx s.team.ctx
  let va := s.lineVA line
  let off := s.fetchFailed line
  let addr := s.team.cwin + off.setWidth 80
  let r := s.translate s.core.itlb c s.arbour { x := true } va.toNat
  let fail (code : TrapCode) (data : Word) : Trap := { s.trapHere code data 0 addr with fault := off }
  match r.1 with
  | .error .malformed =>
    let u := s.record s.team.ctx { kind := 4, code := TrapCode.num .fetchFault, addr, pc := s.ent.pc, launch := s.team.launch, queue := s.team.queue, core := s.core.num, part := s.grp.loc.part }
    .next (u.takeTrap (fail .fetchFault 0))
  | .error .access => .next (s.takeTrap (fail .fetchFault 0))
  | .error .noRoute => .next (s.takeTrap (fail .fetchFault 0x6FF))
  | .error .poisoned => .next (s.takeTrap (fail .fetchFault 0))
  | .error .tablePoison => .next (s.ctxFatal s.team.ctx 8 2 addr)
  | .error .invalid =>
    let page := BitVec.ofNat 64 (va.toNat / 2 ^ 16)
    let u := s.attachSlot s.team.ctx s.arbour page { kind := 4, code := 3, addr, pc := s.ent.pc, launch := s.team.launch, detail := BitVec.ofNat 32 (8 + s.arbour * 256), queue := s.team.queue, core := s.core.num, part := s.grp.loc.part }
    .next (u.setEnt fun e => { e with status := .faultwait, held := [⟨page, false⟩], heldFetch := true, heldAt := [⟨page, addr, 0⟩] })
  | .error .migrating =>
    .next (s.setEnt fun e => { e with status := .faultwait, held := [⟨BitVec.ofNat 64 (va.toNat / 2 ^ 16), true⟩], heldFetch := true })
  | .ok pa =>
    match s.remoteGate (s.usesOf [(64, va, pa)]) with
    | some u => s.noticed u
    | none =>
      if s.poisonedAt pa 128 then .next (s.takeTrap (fail .fetchFault 0))
      else
        let u := s.cacheXlate true r.2
        let l := s.lineVersions va (s.mem.readBytes pa 128)
        let bytes := l.getD (Config.choose [239, s.core.num, va.toNat, s.dev.tick] % l.length) (s.mem.readBytes pa 128)
        .next { u with core := { u.core with fills := u.core.fills.filter fun f => !f.line.is s.team.ctx va }.cacheLine ⟨s.team.ctx, va, bytes⟩ }

end Sys2Proof.Machine
end

