-- ==== Sys2Proof/Machine/Event.lean ====
section
/-! DEFINITION. The events of operations and entities: fills, completions, wake-ups, retries, rollbacks, trap entry and line
fetches (07_registers.md R114, R125, 08_memory.md R137, R138, 06_group.md R97, R103, 25_traps_debug.md R380, R381). -/
namespace Sys2Proof.Machine
open Sys2Proof

/-- The address of the lowest lane among some lanes' addresses. -/
def lowestLane (l : List (Nat × VAddr)) : VAddr := (l.foldl (fun (b : Nat × VAddr) x => if x.1 < b.1 then x else b) (l.headD (0, 0))).2

/-- The report of a load that met an uncorrectable error (R176): a record of KIND 0x05, and a trap at the entity's next boundary. Where several
lanes met errors, the address is that of the lowest, a choice of the model (notes/assumptions/74.md). -/
def State.reportPoison (s : State) (o : Op) : State :=
  if o.poisoned = [] then s
  else
    let va := lowestLane o.poisoned
    let lanes := laneMask (fun i => o.poisoned.any fun x => x.1 = i) 64
    let s := s.recordOpen s.team.ctx { kind := 5, code := 0, addr := va, launch := s.team.launch, lanes, queue := s.team.queue, core := s.core.num, part := s.grp.loc.part }
    let t : Trap := { code := .dataPoison, addr := va, fault := va.setWidth 32, lanes }
    match s.focusEnt o.ent with
    | some s => s.setEnt fun e => { e with deferred := e.deferred ++ [t] }
    | none => s

/-- An outstanding operation of a group that may complete by itself, what it had left being performed (R150). -/
def State.dueOp (s : State) (g : GLoc) (op : Nat) : Option (State × Op) :=
  (s.focusGroup g).bind fun t => (t.grp.ops.find? fun o => o.id = op && !o.done && o.auto).bind fun _ =>
    (t.performAll op).bind fun u => (u.grp.ops.find? fun o => o.id = op).map fun o => (u, o)

/-- An operation completes: its accesses over a port have passed, so no flit of them fails in a row (R228). -/
def State.finishOp (s : State) (o : Op) : State :=
  let s := { s with grp := s.grp.complete o.id }.reportPoison o
  if o.uses = [] then s
  else s.setDev fun d => { d with ports := d.ports.map fun (p : Port) => if o.uses.any fun u => u.port = p.num then { p with fails := 0 } else p }

/-- The entity leads its group and satisfies p. -/
def State.eventAt (s : State) (g : GLoc) (ent : Nat) (p : State → Bool) (f : State → Outcome) : Outcome :=
  match s.focus g ent with
  | none => .refused .notDue
  | some t => if t.ent.live && p t then f t else .refused .notDue

/-- The lowest-numbered entity of the group in front that satisfies p. -/
def State.lowestEnt (s : State) (p : Entity → Bool) : Option Nat :=
  (List.range 32).find? fun n => (s.ent :: s.grp.sibs).any fun e => e.live && e.num = n && p e

/-- Enters the trap that the entity in front has pending, or the first that was deferred to its boundary (R378, R381). -/
def State.enterPending (s : State) : State :=
  match s.ent.pendingTrap, s.ent.deferred with
  | some t, _ => (s.setEnt fun e => { e with pendingTrap := none }).takeTrap t
  | none, t :: r => (s.setEnt fun e => { e with deferred := r }).takeTrap { t with tpc := s.ent.pc, first := s.ent.pc }
  | none, [] => s

/-- The entity whose trap the group in front enters next (R381): pending traps first, in ascending entity number. While a trap is handled, only
the handling entity's own, pending or deferred to its next boundary (R378), which is then unhandled (R382). -/
def State.nextTrap (s : State) : Option Nat :=
  if !s.running then none
  else match s.grp.gstate with
    | .ready => (s.lowestEnt fun e => e.pendingTrap.isSome).or (s.lowestEnt fun e => e.deferred != [])
    | .trapped => s.lowestEnt fun e => e.handling && (e.pendingTrap.isSome || e.deferred != [])
    | _ => none


/-- A load's value fills its pending register or queue position. (R114) -/
def execLoadFill (g : GLoc) (op : Nat) (s : State) : Outcome :=
  match s.dueOp g op with
  | none => .refused .notDue
  | some (t, o) => if o.fills = [] then .refused .notDue else .next (t.finishOp o)

/-- A counted operation completes and the path counter falls in issue order. (R138) -/
def execPathOpComplete (g : GLoc) (op : Nat) (s : State) : Outcome :=
  match s.dueOp g op with
  | none => .refused .notDue
  | some (t, o) => if o.fills ≠ [] then .refused .notDue else .next (t.finishOp o)

/-- An entity a candidate for 1,024 cycles is promoted: READY, its instruction fetched, its context RESIDENT, and its group READY or its
own trap in handling. That no register which it reads is pending is tried where the event comes (`State.promotable`, Step.lean). (R103) -/
def execPromotion (g : GLoc) (ent : Nat) (s : State) : Outcome :=
  s.eventAt g ent (fun t => t.canIssue t.stowGroup t.ent && t.ent.status = .ready && t.ent.promoted.isNone && !t.grp.agent) fun t =>
    .next (t.setEnt fun e => { e with promoted := some t.dev.tick })

/-- The global tick reaches a sleeping entity's wake tick. (R270) -/
def execSleepWake (g : GLoc) (ent : Nat) (s : State) : Outcome :=
  s.eventAt g ent (fun t => t.ent.status = .waiting .sleep && t.ent.wd.wake.any fun w => decide (w ≤ t.dev.tick)) fun t =>
    .next (t.setEnt fun e => { e with status := .ready })

/-- A MIGRATING waiter translates again every 65,536 ticks. (R173) -/
def execMigratingRetry (g : GLoc) (ent : Nat) (s : State) : Outcome :=
  s.eventAt g ent (fun t => t.ent.status = .faultwait && t.ent.held.any HeldPage.migrating) fun t =>
    .next (t.setEnt fun e => { e with status := .ready })

/-- Returns the entity in front to its IDEM point (R125): q0 to q15 of the lanes of L are zero. -/
def State.rollback (s : State) (p : IdemPoint) (reg : BitVec 8) : State :=
  let s : State := { s with grp := { s.grp with scopes := p.scopes } }
  let s := s.mapLanes fun i l => if s.inL i then { l with q := [] } else l
  let s : State := { s with core := { s.core with corrected := s.core.corrected + 1 } }
  s.setEnt fun e => { e with pc := p.pc, em := p.em &&& s.live, scc := p.scc, calls := p.calls, defs := p.defs, status := .ready, wd := {}, failedRegs := reg :: e.failedRegs }

/-- What a word of class 7 reads per lane, by its family (R252). -/
def familyReads (op a b d : Nat) : List (Nat × Nat) :=
  let sub := b % 16
  match op with
  | 1 => [(a, 1), (b, 1)]
  | 2 => [(a, 1)] | 3 => [(a, 1)] | 4 => [(a, 1)] | 5 => [(a, 1)] | 6 => [(a, 1)] | 7 => [(a, 1)] | 9 => [(a, 1)] | 10 => [(a, 1)]
  | 12 => if sub = 4 then [(0x40, 1)] else if sub = 5 ∨ sub = 8 then [(a, 1)] else []
  | 14 => if sub = 0 ∨ sub = 1 ∨ sub = 7 then [(a, 1)] else []
  | 16 => [(a, 1), (b, 1)]
  | 17 => [(a, 1), (b, 2)]
  | 18 => [(a, 1), (b, 1)]
  | 19 => if d.testBit 6 then [(a, 1), (b, 2), (0x40, 2)] else [(a, 1), (b, 1), (0x40, 1)]
  | 24 => if d = 1 then [(a, 2), (b, 1)] else if d < 3 then [(a, 2)] else []
  | 25 => if d = 1 then [(b, 4)] else []
  | 26 => if d = 0 then [(a, 1)] else if d = 3 then [(a, 1), (b, 1)] else []
  | 27 => [(a, 1)]
  | 30 => [(a, 2), (b, 1)]
  | _ => []

/-- The v and q codes that a word reads per lane, each with the length of its run; MMA's are those of the configuration `mma`. A code that names
no v or q register stands for none. -/
def wordReads (mma : Nat × Nat) (len w : Nat) : List (Nat × Nat) :=
  let a := fieldOf w 16 8
  let b := fieldOf w 24 8
  let d := fieldOf w 9 7
  let op := fieldOf w 4 5
  let third (d : Nat) : Nat := (thirdCode (BitVec.ofNat 7 d)).toNat
  if len = 2 then
    [((s16 (BitVec.ofNat 5 (fieldOf w 11 5))).toNat, 1)] ++ if fieldOf w 1 4 = 0 then [] else [(third (fieldOf w 5 6), 1)]
  else match fieldOf w 1 3 with
    | 0 => if op = 29 ∨ op = 30 then [(a, 2), (b, 2)] else if op = 31 then [(a, 2), (b, 1)] else if 24 ≤ op ∧ op ≤ 27 then [(a, 1)] else [(a, 1), (b, 1)]
    | 1 => if (6 ≤ op ∧ op ≤ 19) ∨ op = 28 ∨ op = 30 then [(a, 1)] else [(a, 1), (b, 1)]
    | 2 => if op ≤ 13 then [(a, 1)] else if op = 14 then [(third d, 1)] else []
    | 3 => if op ≤ 7 then [(a, 1), (b, 1), (third d, 1)] else if op ≤ 22 then [(a, 1), (b, 1)] else if 24 ≤ op ∧ op ≤ 26 then [(a, 1)] else []
    | 5 =>
      let n := ([1, 1, 2, 4, 1].getD (op - 7) 0) + ([1, 2, 4].getD (op - 15) 0)
      (if op ≤ 17 ∨ op = 22 ∨ op = 23 then [(a, 1)] else []) ++ if (7 ≤ op ∧ op ≤ 11) ∨ (15 ≤ op ∧ op ≤ 17) then [(d, n)] else []
    | 7 => if op = 11 then [(a, mma.1), (b, mma.2)] else familyReads op a b d
    | _ => []

/-- The lengths of the runs that an MMA of the group in front reads, its scale registers included (R327, R328). -/
def State.mmaRuns (s : State) : Nat × Nat :=
  let scales : Nat := if mkind s.grp.mc = some .b8 then 1 else 0
  (8 + scales, bRegs s.grp.width + scales)

/-- Whether the instruction at the PC of the entity in front reads a v or q register, given by its operand code, for an active lane or as a
cross-lane source (R124); PERM.LD and PERM.LDG read it in every lane of L (R333). -/
def State.mayRead (s : State) (reg : BitVec 8) : Bool :=
  match s.fetch with
  | .ok (len, w) =>
    let perm := len = 4 && fieldOf w 1 3 = 7 && fieldOf w 4 5 = 14 && decide (fieldOf w 24 4 ≤ 1)
    (s.activeMask != 0 || perm) && (wordReads s.mmaRuns len w).any fun x => decide (x.1 ≤ reg.toNat ∧ reg.toNat < x.1 + x.2)
  | .error _ => false

/-- A named or queue register, which has parity; every other code stands for state that SECDED protects: s, w, and from 0xA0 on state
that no operand names (b, p, EM, PC and the rest, R124). -/
def parityReg (reg : BitVec 8) : Bool := reg.toNat < 0x50

/-- The clean point to which a parity error takes the entity back; none where it has none, it is dirty, or the register has failed since (R125). -/
def Entity.cleanPoint (e : Entity) (reg : BitVec 8) : Option IdemPoint := e.idem.filter fun p => !p.dirty && parityReg reg && !e.failedRegs.contains reg

/-- A parity error that the instruction of the entity in front meets (R125), or a double-bit error of other state (R124): back to
the clean point, or else REG_PARITY_FATAL. -/
def State.parityError (s : State) (reg : BitVec 8) : State :=
  match s.ent.cleanPoint reg with
  | some p => s.rollback p reg
  | none => s.takeTrap { s.trapHere .regParityFatal with tpc := 0 }

/-- A parity error: the entity returns to its clean point, once its register-writing loads have completed, or else dies by it. (R125) -/
def execRollback (g : GLoc) (ent : Nat) (reg : BitVec 8) (s : State) : Outcome :=
  s.eventAt g ent (fun t => t.running && (t.grp.gstate = .ready || t.ent.handling) && t.ent.status != .faultwait && (!parityReg reg || t.mayRead reg)
      && ((t.ent.cleanPoint reg).isNone || !t.grp.ops.any fun o => o.ent = t.ent.num && !o.done && o.fills != [])) fun t =>
    .next (t.parityError reg)

/-- A trap is entered, routed in-group, to debug, or unhandled. (R380) -/
def execTrapEntry (g : GLoc) (s : State) : Outcome :=
  match s.focusGroup g with
  | none => .refused .notDue
  | some t => match t.nextTrap.bind t.focusEnt with
    | none => .refused .notDue
    | some u => .next u.enterPending

/-- An entity that fetches: READY, or in a wait that ends when its instruction is tried again, whose line has been dropped meanwhile. -/
def EStatus.fetches : EStatus → Bool
  | .ready => true
  | .waiting .order => false
  | .waiting .sleep => false
  | .waiting _ => true
  | .faultwait => false


/-- An instruction line fetch completes or faults. (R238) -/
def execIcacheLineFill (g : GLoc) (ent : Nat) (line : BitVec 32) (s : State) : Outcome :=
  s.eventAt g ent (fun t => t.running && (t.grp.gstate = .ready || t.ent.handling) && !t.grp.agent && t.ent.status.fetches) fun t =>
    match t.fetch with
    | .error l => if l = line then t.fillLine line else .refused .notDue
    | .ok _ => .refused .notDue

/-- An entity issues a fetched 32-bit word that is a reserved or malformed encoding and it raises ILLEGAL_INSTR with TDATA 0. (R240) -/
def execReservedEncoding (_w : BitVec 32) (s : State) : Outcome :=
  commit 4 s s.illegal

end Sys2Proof.Machine
end

