-- ==== Sys2Proof/Machine/Debug.lean ====
section
/-! DEFINITION. Stamps, trace writes, samples, comparators and the tick stop (23_isa_raster_system.md R360 to R362,
25_traps_debug.md R388, R391, R392). -/
namespace Sys2Proof.Machine
open Sys2Proof

def WaitReason.num : WaitReason → Nat
  | .scoreboard => 0 | .counter => 1 | .barrier => 2 | .ring => 3 | .order => 4 | .scope => 5 | .acc => 6 | .join => 7 | .sleep => 8 | .perm => 9

/-- SSTATE and REASON of an entity (R362): `issuing` is the entity that issues the sampling form. -/
def sampleState (k : Core) (t : Team) (g : Group) (e : Entity) (issuing : Bool) : Nat × Nat :=
  if issuing then (0, 0)
  else if g.gstate = .preempted then (7, 0)
  else if g.gstate = .trapped ∧ (g.debugHeld ∨ ¬ e.handling) then (5, 0)
  else match e.status with
    | .faultwait => (4, 0)
    | .waiting r => (2, r.num)
    | .ready => match k.fetch (g.codeSpace t) t.cwin e.pc with
      | .ok _ => (1, 0)
      | .error _ => (3, 0)

/-- Appends the records of entities, ascending. -/
def State.sampleEnts (s : State) (ctx : Nat) (base : TraceRec) (k : Core) (t : Team) (g : Group) (issuing : Option Nat) (es : List Entity) : State :=
  es.foldl (fun s e =>
    let (st, r) := sampleState k t g e (issuing = some e.num)
    s.trace ctx { base with d0 := e.pc, d1 := BitVec.ofNat 32 g.gid, sstate := st, reason := r, ent := e.num }) s

/-- The live entities of a group, ascending. -/
def Group.liveEnts (g : Group) : List Entity := (List.range 32).flatMap fun n => g.sibs.filter fun e => e.live && e.num = n

/-- A record-writing form with one operand (R361). -/
def State.stamp (s : State) (kind : Nat) (a : BitVec 8) : Outcome :=
  commit 4 s <| match s.scCheck [srcA a] [] with
    | some i => i
    | none => .retire (s.trace s.team.ctx (s.traceRec kind 0 (s.uni a)))


/-- Writes a trace stamp at issue. (R361) -/
def execStampBegin (a : BitVec 8) (s : State) : Outcome :=
  s.stamp 2 a

/-- Writes a trace stamp once earlier instructions have retired. (R361) -/
def execStampEnd (a : BitVec 8) (s : State) : Outcome :=
  s.stamp 3 a

/-- Writes a trace record with two values. (R361) -/
def execDbgTracew (b : BitVec 8) (a : BitVec 8) (s : State) : Outcome :=
  commit 4 s <| match s.scCheck [srcA a, srcB b] [] with
    | some i => i
    | none => .retire (s.trace s.team.ctx (s.traceRec 1 (s.uni a) (s.uni b))).dirty

/-- Samples the entities of a group of the team into trace records. (R362) -/
def execDbgPcsmp (a : BitVec 8) (s : State) : Outcome :=
  commit 4 s <| match s.scCheck [srcA a] [] with
    | some i => i
    | none =>
      let n := (s.uni a).toNat
      if s.team.groups ≤ n then s.badField 1 a.toNat
      else
        let base : TraceRec := s.traceRec 4 0 (BitVec.ofNat 32 n)
        match s.allGroups.find? fun g => !g.agent && g.team = s.team.serial && g.gid = n && g.gstate != .exited with
        | some g => .retire (s.sampleEnts s.team.ctx base (s.coreOf g.loc.core) s.team g (if n = s.grp.gid then some s.ent.num else none) g.liveEnts).dirty
        | none =>
          let last := ((s.allGroups.find? fun g => !g.agent && g.team = s.team.serial && g.gid = n).map Group.lastExit).getD ((s.team.exits.lookup n).getD 0)
          .retire (s.trace s.team.ctx { base with d0 := last, sstate := 6, ent := 0 }).dirty

/-- The place of an entity in the rotation over slots and then entities (R392). -/
def samplePlace (g : Group) (e : Entity) : Nat := (g.loc.part * 16 + g.loc.slot) * 32 + e.num


/-- Whether an entity that is sampled issues in the sampling cycle (R362): a free choice for one that can (notes/assumptions/42.md). -/
def State.issuesNow (s : State) (ctx : Nat) (g : Group) (e : Entity) : Bool :=
  e.status = .ready && s.canIssue g e && Config.choose [392, g.loc.core, ctx, s.dev.tick] % 2 = 1

/-- Every 2^k ticks a core samples one entity into a trace record. (R392) -/
def execPcSample (core ctx : Nat) (s : State) : Outcome :=
  let c := s.ctx ctx
  let k := s.coreOf core
  let teamIn (n : Nat) : Bool := s.allTeams.any fun t => t.serial = n && t.ctx = ctx
  let ents := (s.allGroups.filter fun g => !g.agent && g.loc.core = core && teamIn g.team).flatMap fun g => g.liveEnts.map fun e => (samplePlace g e, g, e)
  if (s.ctxOn (arbourOf core) ctx).sampleK = 0 then .refused .notDue
  else
    let from_ := (c.samplePos.lookup core).getD 0
    let later := ents.filter fun x => decide (from_ ≤ x.1)
    let pool := if later = [] then ents else later
    let low := (pool.map fun x => x.1).foldl min (2 ^ 14)
    match pool.find? fun x => x.1 = low with
    | none => .next s
    | some (p, g, e) =>
      let issuing := if s.issuesNow ctx g e then some e.num else none
      let s := s.setCtx { c with samplePos := (core, p + 1) :: c.samplePos.filter fun x => x.1 != core }
      let t := s.teamOf g.team
      .next (s.sampleEnts ctx { kind := 5, pc := 0, d0 := 0, d1 := 0, launch := t.launch, core, part := g.loc.part, gid := g.gid } k t g issuing [e])

/-- Whether a comparator matches the issue of the instruction at the PC of the entity in front (R388). -/
def State.matches (s : State) (c : Comparator) : Bool :=
  c.action != 0 && c.ctx = s.team.ctx && c.offset = s.ent.pc && (c.qfilter = 0xFFF || c.qfilter = s.team.queue)
    && (!c.gfilter.getLsbD 5 || (c.gfilter.setWidth 5).toNat = s.grp.gid)

/-- The comparator that acts on the next issue of the entity in front: the lowest index that matches. -/
def State.comparator (s : State) : Option Comparator :=
  if s.grp.agent ∨ s.ent.skipCmp ∨ !s.running then none
  else (List.range 8).findSome? fun i => s.core.cmps.find? fun c => c.index = i && s.matches c

/-- The module freezes (R391, R402): a command in progress ends with STOPPED (R399). -/
def State.freeze (s : State) (at_ : Nat) (st : DevState) : State :=
  s.setDev fun d => { d with
    stopped := some at_, devstate := st, stopAt := none
    msix := if d.mb.busy then d.msix ++ [0] else d.msix
    mb := if d.mb.busy then { d.mb with busy := false, result := 6, directed := .none, units := [], response := [] } else d.mb }


/-- An issuing instruction matches a PC comparator and traps, traces or stops; a waiting entity's instruction issues when its wait ends. Where
another entity of the group has trapped in the same cycle, the trap is pending (R381). (R388) -/
def execPcComparatorMatch (index : Nat) (s : State) : Outcome :=
  match s.comparator with
  | none => .refused .notDue
  | some c =>
    if c.index ≠ index ∨ s.ent.status = .faultwait ∨ ¬ (s.grp.gstate = .ready ∨ s.grp.gstate = .trapped) then .refused .notDue
    else match c.action with
      | 1 => .next (s.takeTrap (s.trapHere .hwbkpt (BitVec.ofNat 32 index)))
      | 2 => .next ((s.trace s.team.ctx (s.traceRec 7 s.ent.pc (BitVec.ofNat 32 index))).setEnt fun e => { e with skipCmp := true })
      | _ => .next (s.freeze s.dev.tick .stopped)

/-- The module freezes at the end of the stop tick. (R391) -/
def execTickStop (s : State) : Outcome :=
  match s.dev.stopAt with
  | none => .refused .notDue
  | some t => if t ≤ s.dev.tick then .next (s.freeze t .stopped) else .refused .notDue

/-- After a tick stop, the IEEE 1149.1 port on Lodge A shifts out the scan chains of each Arbour and Lodge. (R391) -/
def execScanChainShift (chain : Nat) (s : State) : Outcome :=
  if s.dev.stopped.isNone ∨ 10 ≤ chain ∨ s.dev.scanned.contains chain then .refused .notDue
  else .next (s.setDev fun d => { d with scanned := d.scanned ++ [chain] })

end Sys2Proof.Machine
end

