-- ==== Sys2Proof/Machine/Queue.lean ====
section
/-! DEFINITION. Queues: polling, packets and their completion (04_queue.md R55 to R74). -/
namespace Sys2Proof.Machine
open Sys2Proof

/-! ## Physical words (R55, R56) -/

/-- Whether n bytes at a physical address can be reached as ring or index (R55, R71). -/
def State.reach (s : State) (a : BitVec 64) (n : Nat) : Bool :=
  decide (a.toNat < 2 ^ 56) && (match s.place a.toNat with | .local => true | .host => true | _ => false) && !s.poisonedAt a.toNat n

def State.word64 (s : State) (a : BitVec 64) : Nat := leNat (s.mem.readBytes a.toNat 8)
def State.putWord64 (s : State) (a : BitVec 64) (x : Nat) : State := s.store a.toNat (leBytes x 8)

/-! ## Notices and states (R59, R60) -/

/-- Posts the queue's notice; at most one is outstanding. -/
def State.postNotice (s : State) (q : Nat) : State :=
  let k := s.queue q
  if k.notice ∨ k.claimed then s
  else
    let s := (s.setQueue { k with notice := true }).setDev fun d => { d with notices := d.notices ++ [{ arbour := k.home, raster := false, cls := k.cls, queue := q, qgen := k.qgen, launch := 0 }] }
    s.wakeArbour k.home 0

/-- A queue error at the packet of an index (R71). -/
def State.errorAt (s : State) (q code n : Nat) : State := s.queueError q code { kind := 3, code, progress := n }

/-- After a completion (R60, R62): a queue that waited for BARRIER goes on; a queue with nothing left is IDLE. -/
def State.settleQueue (s : State) (q : Nat) : State :=
  let k := s.queue q
  if k.started ≠ [] then s
  else if k.state = .stalled ∧ k.waitSince.isNone then (s.setQueue { k with state := .active }).postNotice q
  else if k.state = .active ∧ k.lastW ≤ k.ridx then s.setQueue { k with state := .idle }
  else s

/-! ## Packets (R61) -/

def pktType (p : Nat) : Nat := p % 256
def pktBarrier (p : Nat) : Bool := p.testBit 8
def pktSync (p : Nat) : Bool := p.testBit 9
def pktSigen (p : Nat) : Bool := p.testBit 10 || pktType p = 3
def pktSigaddr (p : Nat) : VAddr := BitVec.ofNat 80 (fieldOf p 64 80)
def pktSigop (p : Nat) : Nat := fieldOf p 144 4
def pktSigval (p : Nat) : BitVec 64 := BitVec.ofNat 64 (fieldOf p 192 64)

/-- BAD_PACKET (R61 to R71). -/
def State.badPacket (s : State) (q : Queue) (p : Nat) : Bool :=
  let t := pktType p
  let ctx := fieldOf p 256 8
  if t = 8 then false
  else
    decide (t = 0 ∨ 8 < t) || decide (1 < pktSigop p) || decide (fieldOf p 148 44 ≠ 0) || decide (fieldOf p 11 53 ≠ 0) || (pktSync p && decide (2 < t))
      || decide ((pktSigaddr p).toNat % 16 ≠ 0)
      || (match t with
        | 1 => decide (fieldOf p 481 31 ≠ 0 ∨ fieldOf p 416 31 = 0 ∨ fieldOf p 448 16 = 0 ∨ fieldOf p 464 16 = 0 ∨ fieldOf p 336 80 % 64 ≠ 0 ∨ fieldOf p 256 80 % 256 ≠ 0)
        | 2 => decide (fieldOf p 432 80 ≠ 0 ∨ fieldOf p 336 80 % 64 ≠ 0 ∨ fieldOf p 256 80 % 256 ≠ 0)
        | 3 => decide (fieldOf p 256 256 ≠ 0)
        | 4 => decide (fieldOf p 467 13 ≠ 0 ∨ 3 < fieldOf p 464 3 ∨ fieldOf p 256 80 % 8 ≠ 0)
        | 5 => decide (fieldOf p 320 192 ≠ 0 ∨ fieldOf p 256 32 % 128 ≠ 0 ∨ fieldOf p 288 32 % 128 ≠ 0)
        | 6 => decide (fieldOf p 268 244 ≠ 0 ∨ ¬ q.priook ∨ 63 < ctx) || decide ((s.ctx ctx).state = .free ∨ (s.ctx ctx).state = .releasing)
        | _ => decide (fieldOf p 400 112 ≠ 0 ∨ fieldOf p 256 80 % 16 ≠ 0))

/-! ## Control-plane accesses (R174) -/

/-- What a control-plane access comes to. -/
inductive CRes where
  | ok (s : State)
  | fail
  | held (pages : List HeldPage) (s : State)
  | wait (s : State)

/-- Checks an access to a virtual address for a queue, through the Lodge's TLB (R169, R174). -/
def State.control (s : State) (q : Queue) (n : Need) (va : VAddr) (len : Nat) : CRes :=
  let c := s.ctx q.ctx
  let tlb := s.dev.lodgeTlb
  match s.gCheck tlb c q.home n [(va, len)] with
  | .err _ => .fail
  | .held p => .held (p.map Prod.fst) (s.slotsFor 0 q.num 0 q.ctx q.home 64 p)
  | .ok =>
    if s.gBad tlb c q.home n va len then .fail
    else match s.remoteGateOf q.num q.qgen (s.gUses tlb c q.home n [(va, len)]) with
      | some t => .wait t
      | none =>
        let new := ((piecesOf va len).flatMap fun p => (s.translate tlb c q.home n p.1).2).filter fun e => pteLeaf e.pte.toNat && !tlb.contains e
        .ok (s.setDev fun d => { d with lodgeTlb := (new.eraseDups ++ d.lodgeTlb).take 1024 })

def State.ctlRead (s : State) (q : Queue) (va : VAddr) (n : Nat) : Nat := leNat (s.gRead s.dev.lodgeTlb (s.ctx q.ctx) q.home va n)
def State.ctlWrite (s : State) (q : Queue) (va : VAddr) (bs : List Byte) : State := s.gWrite s.dev.lodgeTlb (s.ctx q.ctx) q.home va bs

/-! ## Completion (R62) -/

def State.putStarted (s : State) (q : Nat) (k : Started) : State :=
  let x := s.queue q
  s.setQueue { x with started := x.started.map fun y => if y.n = k.n then k else y }

/-- The packet is complete: it leaves the queue's started packets; the record of a launch that is DONE is freed (R84). -/
def State.packetOver (s : State) (q : Nat) (k : Started) : State :=
  let x := s.queue q
  let s := s.setQueue { x with started := x.started.filter fun y => y.n != k.n }
  let s := match s.launch? k.launch with
    | some l => if l.state = LaunchState.done ∧ (pktType k.packet.toNat = 1 ∨ pktType k.packet.toNat = 2) then s.freeLaunch l.id else s
    | none => s
  s.settleQueue q

/-- Applies a packet's signal (R62), its access being checked. -/
def State.applySignal (s : State) (q : Queue) (k : Started) : State :=
  let p := k.packet.toNat
  let a := pktSigaddr p
  let s := if k.err ≠ 0 ∧ s.ctlRead q (a + 8) 8 < 2 ^ 63 then s.ctlWrite q (a + 8) (leBytes (2 ^ 63 + 3 * 256 + k.err) 8) else s
  let v := if pktSigop p = 0 then (pktSigval p).toNat else s.ctlRead q a 8 + (pktSigval p).toNat
  s.ctlWrite q a (leBytes v 8)

/-- The signal's own access fails: SIGNAL_FAULT, and the packet is over without its signal (R71). -/
def State.signalFailed (s : State) (q : Nat) (k : Started) : State := ((s.putStarted q { k with err := 6 }).errorAt q 6 k.n).packetOver q { k with err := 6 }

/-- Goes on after a control-plane access of a started packet: a fault of it is SIGNAL_FAULT (R71). -/
def State.access? (s : State) (q : Nat) (k : Started) (n : Need) (va : VAddr) (len : Nat) (f : State → State) : State :=
  match s.control (s.queue q) n va len with
  | .ok t => f t
  | .fail => s.signalFailed q k
  | .held p t => t.putStarted q { k with held := p }
  | .wait t => t

/-- The signal of a packet whose work is done, and its completion. -/
def State.signalPacket (s : State) (q : Nat) (k : Started) : State :=
  if pktSigen k.packet.toNat then
    s.access? q k { r := true, w := true } (pktSigaddr k.packet.toNat) 16 fun t => (t.applySignal (t.queue q) k).packetOver q k
  else s.packetOver q k

/-- A failed access of a started packet that its own work makes: the signal then carries SIGNAL_FAULT (R62, R71). -/
def State.failStarted (s : State) (q : Nat) (k : Started) : State :=
  let k := { k with err := 6 }
  ((s.putStarted q k).errorAt q 6 k.n).signalPacket q k

/-- Does what is left of a started packet's work (R62, R69), then its signal; a MARK that has failed writes nothing more. A MARK whose write was held at a page records the tick at which
the write is made, a choice of the model (notes/assumptions/62.md). -/
def State.finishPacket (s : State) (q : Nat) (k : Started) : State :=
  let p := k.packet.toNat
  if pktType p = 7 ∧ ¬ k.marked ∧ k.err = 0 then
    let va : VAddr := BitVec.ofNat 80 (fieldOf p 256 80)
    match s.control (s.queue q) { w := true } va 16 with
    | .ok t =>
      let k := { k with marked := true }
      ((t.ctlWrite (t.queue q) va (leBytes t.dev.tick 8 ++ leBytes (fieldOf p 336 64) 8)).putStarted q k).signalPacket q k
    | .fail => s.failStarted q k
    | .held pg t => t.putStarted q { k with held := pg }
    | .wait t => t
  else if pktType p = 8 then s.packetOver q k
  else s.signalPacket q k

/-- The work of a started packet is done (R62). -/
def State.packetDone (s : State) (k : Started) : Bool :=
  match pktType k.packet.toNat with
  | 1 => over_ k
  | 2 => over_ k
  | 6 => k.wait.isEmpty
  | _ => true
where
  over_ (k : Started) : Bool :=
    (match s.launch? k.launch with | none => true | some l => decide (l.state = LaunchState.done) || decide (l.state = LaunchState.failed)) && !(s.everyTeam.any fun t => t.serial != 0 && t.launch = k.launch)

/-! ## Starting packets (R59) -/

/-- The read index passes the head packet, which has started; a later packet that is known gets its notice. -/
def State.startPacket (s : State) (q : Nat) (k : Started) : State :=
  let x := s.queue q
  let s := (s.setQueue { x with ridx := x.ridx + 1, started := x.started ++ [k], waitSince := none, waitMet := false, held := [], state := .active }).putWord64 x.ridxAddr (x.ridx + 1)
  if x.ridx + 1 < x.lastW then s.postNotice q else s

/-- The head packet's bits. -/
def State.headPacket (s : State) (k : Queue) : Nat := leNat (s.mem.readBytes (k.ring.toNat + 64 * (k.ridx % 2 ^ k.log2)) 64)

/-- An agent handles the head packet (R59): it claims the notice, copies and checks the packet; one of another type is not this
event's; a packet that BARRIER holds makes the queue STALLED; then f starts it. -/
def State.handle (s : State) (q : Nat) (mine : Nat → Bool) (f : State → Queue → Nat → Outcome) : Outcome :=
  let k := s.queue q
  let listed := (s.headNotice k.home).any fun n => !n.raster && n.queue = q
  if k.state ≠ .active ∨ k.lastW ≤ k.ridx ∨ ¬ (k.claimed ∨ listed) then .refused .notDue
  else if (s.ctx k.ctx).state ≠ .resident then .next ((s.setQueue { k with claimed := false }).postNotice q)
  else
    let t := s.withdrawNotice q
    let k := t.queue q
    if !s.reach (k.ring + BitVec.ofNat 64 (64 * (k.ridx % 2 ^ k.log2))) 64 ∨ !s.reach k.ridxAddr 8 then .next (t.errorAt q 3 k.ridx)
    else
      let p := s.headPacket k
      if !mine (pktType p) then .refused .notDue
      else if s.badPacket k p then .next (t.errorAt q 1 k.ridx)
      else if pktType p ≠ 8 ∧ pktBarrier p ∧ k.started ≠ [] then .next (t.setQueue { k with state := .stalled })
      else f t k p

/-- A packet that starts, with nothing left to wait for. -/
def State.startNow (s : State) (q : Nat) (k : Queue) (p : Nat) : State :=
  let x : Started := { n := k.ridx, packet := BitVec.ofNat 512 p }
  (s.startPacket q x).finishPacket q x

/-- The number of the next launch or draw of an Arbour (R83). -/
def State.newLaunchId (s : State) (home : Nat) : Word × State :=
  let n := s.dev.counters.getD home 0
  (BitVec.ofNat 32 (home * 2 ^ 29 + n % 2 ^ 29), s.setDev fun d => { d with counters := putAt 0 d.counters home (n + 1) })

/-! ## WAITV (R66) -/

/-- The condition of a WAITV on the word read. -/
def waitCond (p w : Nat) : Bool :=
  let m : BitVec 64 := BitVec.ofNat 64 (fieldOf p 400 64)
  let a := BitVec.ofNat 64 w &&& m
  let b := BitVec.ofNat 64 (fieldOf p 336 64) &&& m
  match fieldOf p 464 3 with
  | 0 => a = b
  | 1 => a != b
  | 2 => decide (b.toNat ≤ a.toNat)
  | _ => decide (a.toNat < b.toNat)

def waitAddr (p : Nat) : VAddr := BitVec.ofNat 80 (fieldOf p 256 80)

/-- Reads the word of the WAITV at the queue's head: what follows once the condition holds is `met`; else the queue is STALLED. TIMEOUT counts
from the tick of the first read after the packet's claim, a choice of the model (notes/assumptions/62.md). -/
def State.tryWait (s : State) (q : Nat) (k : Queue) (p : Nat) (met : State → State) : State :=
  let stall (s : State) (held : List HeldPage) : State :=
    s.setQueue { s.queue q with state := .stalled, held, waitSince := some (k.waitSince.getD s.dev.tick) }
  match s.control k { r := true } (waitAddr p) 8 with
  | .ok t => if waitCond p (t.ctlRead k (waitAddr p) 8) then met t else stall t []
  | .fail => let x : Started := { n := k.ridx, packet := BitVec.ofNat 512 p }; (s.startPacket q x).failStarted q x
  | .held pg t => stall t pg
  | .wait t => stall t []

/-- The WAITV that stalls a queue, if one does. -/
def State.waiting? (s : State) (q : Nat) : Option Nat :=
  let k := s.queue q
  if k.state = .stalled ∧ k.waitSince.isSome then some (s.headPacket k) else none


/-- The polling interval after a poll, in ns (R58). -/
def Queue.nextPoll (k : Queue) (new : Bool) : Nat := if k.cls = 0 then 128 else if new then 256 else min 65536 (2 * k.pollns)
/-- The first interval of a queue (R58). -/
def firstPoll (cls : Nat) : Nat := if cls = 0 then 128 else 256
/-- A queue that the scanner polls. -/
def Queue.polled (k : Queue) : Bool := k.state != .unmapped && k.state != .resetting
/-- Among queues due at one tick, which is polled before another (R58). -/
def Queue.pollsBefore (a b : Queue) : Bool := a.polled && a.due = b.due && (decide (a.cls < b.cls) || (a.cls = b.cls && decide (a.num < b.num)))


/-- Scanner polls a due queue's write index and posts a notice. Choices of the model (notes/assumptions/74.md): a poll that cannot read W leaves the
interval as it is (R58), and writes its record also where the queue is in ERROR, while an overrun writes none there (R71). (R58) -/
def execQueuePoll (q : Nat) (s : State) : Outcome :=
  let k := s.queue q
  if !k.polled ∨ s.dev.tick < k.due ∨ s.dev.queues.any (fun x => x.pollsBefore k) then .refused .notDue
  else if !s.reach k.widxAddr 8 then .next ((s.setQueue { k with due := s.dev.tick + k.pollns * 5 / 4 }).errorAt q 3 k.ridx)
  else
    let w := s.word64 k.widxAddr
    let ns := k.nextPoll (decide (k.lastW < w))
    let t := s.setQueue { k with pollns := ns, due := s.dev.tick + ns * 5 / 4, lastW := w }
    if k.state = .error then .next t
    else if k.ridx + 2 ^ k.log2 < w ∨ w < k.lastW then .next (t.errorAt q 2 k.ridx)
    else if k.ridx < w ∧ k.state ≠ .stalled then .next ((t.setQueue { t.queue q with state := .active }).postNotice q)
    else .next t

/-- A LAUNCH packet starts a kernel launch. (R64) -/
def execLaunch (q : Nat) (s : State) : Outcome :=
  s.handle q (fun t => t = 1 || t = 0 || decide (8 < t)) fun s k p =>
    let (id, t) := s.newLaunchId k.home
    let gx := fieldOf p 416 31
    let gy := fieldOf p 448 16
    let gz := fieldOf p 464 16
    let l : Launch := { id, total := gx * gy * gz, kdesc := BitVec.ofNat 80 (fieldOf p 256 80), args := BitVec.ofNat 80 (fieldOf p 336 80), gx, gy, gz, qgen := k.qgen, queue := q, packet := k.ridx, ctx := k.ctx, cohort := p.testBit 480, morton := p.testBit 447, sync := pktSync p }
    .next ((t.setLaunch l).startPacket q { n := k.ridx, packet := BitVec.ofNat 512 p, launch := id })

/-- A DRAW packet rasterises a stream onto a bound set; its SYNC is done as the Saltern applies it (`State.drawSync`). (R65) -/
def execDraw (q : Nat) (s : State) : Outcome :=
  s.handle q (fun t => t = 2) fun s k p =>
    let (id, t) := s.newLaunchId k.home
    let kd : VAddr := BitVec.ofNat 80 (fieldOf p 256 80)
    let at_ : VAddr := BitVec.ofNat 80 (fieldOf p 336 80)
    let l : Launch := { id, isDraw := true, total := 2 ^ 64 - 1, kdesc := kd, qgen := k.qgen, queue := q, packet := k.ridx, ctx := k.ctx, sync := pktSync p }
    let t := (t.setLaunch l).startPacket q { n := k.ridx, packet := BitVec.ofNat 512 p, launch := id }
    .next (t.submit { g := ⟨q, 16, 16⟩, op := t.nextOp, team := 0, ctx := k.ctx, home := k.home, cmd := .packet (fieldOf p 416 16) id at_ })

/-- A SIGNAL packet applies its signal. (R63) -/
def execSignal (q : Nat) (s : State) : Outcome :=
  s.handle q (fun t => t = 3) fun s k p => .next (s.startNow q k p)

/-- A WAITV packet stalls the queue until a word condition holds; once the scanner has seen it hold, the packet starts when an agent claims the
re-posted notice (R60). (R66) -/
def execWaitv (q : Nat) (s : State) : Outcome :=
  s.handle q (fun t => t = 4) fun s k p => .next (if k.waitMet then s.startNow q k p else s.tryWait q k p fun t => t.startNow q k p)

/-- Drops the lines of a context in a range of code-window offsets, whatever the window (R67). -/
def Core.icinvAll (k : Core) (ctx : Nat) (off len : Word) : Core :=
  let keeps (l : ILine) : Bool := !({ k with icache := [l] }.icinv ctx (l.va >>> 32 <<< 32) off len).icache.isEmpty
  { k with icache := k.icache.filter keeps, versions := k.versions.filter keeps }


/-- A CODESYNC packet performs ICINV on every core, once the line fills in flight have been delivered (R304). (R67) -/
def execCodesync (q : Nat) (s : State) : Outcome :=
  s.handle q (fun t => t = 5) fun s k p =>
    if s.filling? fun _ => true then .refused .notDue
    else .next ((s.mapCores fun c => c.icinvAll k.ctx (BitVec.ofNat 32 (fieldOf p 256 32)) (BitVec.ofNat 32 (fieldOf p 288 32))).startNow q k p)

/-- Whether an update replaces what is held (R48): the later stamp; on equal stamps the mailbox's. -/
def PrioUpdate.beats (u : PrioUpdate) (prio : PrioUpdate) : Bool := decide (prio.stamp < u.stamp) || (u.stamp = prio.stamp && u.mailbox && !prio.mailbox)

/-- An update reaches a core (R48). -/
def State.applyPrio (s : State) (core ctx : Nat) (u : PrioUpdate) : State :=
  let c := s.ctx ctx
  let s := s.onCore core fun k => if u.beats (k.prio c) then { k with prios := upsert (fun x => x.ctx = ctx) ⟨ctx, u.prio, u.stamp, u.mailbox⟩ k.prios } else k
  s.wake core 4

/-- An update is accepted (R48): whether it goes to the cores, and the state. -/
def State.takePrio (s : State) (ctx : Nat) (u : PrioUpdate) : Bool × State :=
  let c := s.ctx ctx
  match c.state with
  | .resident => (true, s.setCtx { c with eff := if u.beats c.eff then u else c.eff })
  | .error => (false, s)
  | _ => (false, s.setCtx { c with kept := c.kept ++ [u] })

/-- The update that a PRIO packet carries. -/
def Started.update (k : Started) : PrioUpdate := ⟨fieldOf k.packet.toNat 264 4, k.stamp, false⟩
def Started.prioCtx (k : Started) : Nat := fieldOf k.packet.toNat 256 8


/-- The tick at which an agent claims the packet at a queue's head (R48): that of its PRIV.WKPOP, or the present one. -/
def State.claimedAt (s : State) (q : Nat) : Nat := if (s.queue q).claimed then (s.queue q).claimTick else s.dev.tick


/-- A PRIO packet sets a context's effective priority, its stamp the tick of the packet's claim. (R68) -/
def execPrio (q : Nat) (s : State) : Outcome :=
  let stamp := s.claimedAt q
  s.handle q (fun t => t = 6) fun s k p =>
    let x : Started := { n := k.ridx, packet := BitVec.ofNat 512 p, stamp }
    let (send, t) := s.takePrio x.prioCtx x.update
    let x := { x with wait := if send then List.range 832 else [] }
    let t := t.startPacket q x
    .next (if send then t else t.finishPacket q x)

/-- A priority update reaches a core and is applied by stamp; one whose queue has been reset since is still on its way (R68). (R48) -/
def execPrioUpdateApply (core ctx : Nat) (s : State) : Outcome :=
  let mine (k : Started) : Bool := pktType k.packet.toNat = 6 && k.prioCtx = ctx && k.wait.contains core
  let l := (s.dev.queues.flatMap fun q => (q.started.filter mine).map fun k => (some q.num, k)) ++ (s.dev.strays.filter mine).map fun k => (none, k)
  let first := (l.map fun x => x.2.stamp).foldl min s.dev.tick
  match l.find? fun x => x.2.stamp = first with
  | none => .refused .notDue
  | some (q, k) =>
    let t := s.applyPrio core ctx k.update
    let x := { k with wait := k.wait.filter fun c => c != core }
    match q with
    | some q => .next (t.putStarted q x)
    | none => .next (t.setDev fun d => { d with strays := (x :: d.strays.erase k).filter fun y => y.wait != [] })

/-- A MARK packet writes the tick and a value. (R69) -/
def execMark (q : Nat) (s : State) : Outcome :=
  s.handle q (fun t => t = 7) fun s k p => .next (s.startNow q k p)

/-- A PAD packet starts and completes at once. (R70) -/
def execPad (q : Nat) (s : State) : Outcome :=
  s.handle q (fun t => t = 8) fun s k p => .next (s.startNow q k p)

/-- A packet's work completes and its signal is applied. (R62) -/
def execPacketComplete (q : Nat) (n : Nat) (s : State) : Outcome :=
  let k := s.queue q
  match k.started.find? fun x => x.n = n with
  | none => .refused .notDue
  | some x =>
    if k.state = .resetting ∨ x.held ≠ [] ∨ !s.packetDone x then .refused .notDue else .next (s.finishPacket q x)

/-- The WAITV word is re-read at the polling interval: once the condition holds the queue is ACTIVE and its notice is posted again (R60). (R66) -/
def execWaitvPoll (q : Nat) (s : State) : Outcome :=
  match s.waiting? q with
  | none => .refused .notDue
  | some p =>
    let k := s.queue q
    if k.held ≠ [] ∨ (s.ctx k.ctx).state ≠ .resident then .refused .notDue
    else .next (s.tryWait q k p fun t => (t.setQueue { t.queue q with state := .active, waitMet := true }).postNotice q)

/-- A WAITV exceeds its TIMEOUT and the queue errs. (R66) -/
def execWaitvTimeout (q : Nat) (s : State) : Outcome :=
  match s.waiting? q with
  | none => .refused .notDue
  | some p =>
    let k := s.queue q
    let limit := fieldOf p 480 32
    if limit = 0 ∨ s.dev.tick < k.waitSince.getD 0 + limit ∨ (s.gCheck s.dev.lodgeTlb (s.ctx k.ctx) k.home { r := true } [(waitAddr p, 8)] = .ok ∧ waitCond p (s.ctlRead k (waitAddr p) 8)) then .refused .notDue
    else .next (s.errorAt q 4 k.ridx)

end Sys2Proof.Machine
end

