-- ==== Sys2Proof/Machine/Codec.lean ====
section
/-! DEFINITION. The payloads of the save stream, which the debug commands read and write as well
(25_traps_debug.md R385 to R387). Each has a function that gives its bytes and one that puts bytes back. -/
namespace Sys2Proof.Machine
open Sys2Proof

/-- The value of n bytes from offset o. -/
def byteField (bs : List Byte) (o n : Nat) : Nat := leNat ((bs.drop o).take n)
def wordField (bs : List Byte) (o : Nat) : Word := BitVec.ofNat 32 (byteField bs o 4)
def wordBytes (l : List Word) : List Byte := l.flatMap fun x => leBytes x.toNat 4

/-! ## GROUP (R386) -/

def Acc.handleBits (a : Option Acc) : Nat := match a with | some k => 2 ^ 15 + k.bank | none => 0

/-- A split-table entry's 64 bits (R100). -/
def SplitEntry.bits (k : SplitEntry) : Nat :=
  k.waitpc.toNat * 2 ^ 32 + k.waiter % 32 * 2 ^ 16 + k.live % 4 * 2 ^ 8 + k.wait.toNat * 2 ^ 7 + k.parent.isSome.toNat * 2 ^ 6 + k.parent.getD 0 % 8 * 8 + k.valid.toNat
def splitOf (n : Nat) : SplitEntry :=
  { valid := n.testBit 0, live := fieldOf n 8 2, wait := n.testBit 7, waitpc := BitVec.ofNat 32 (fieldOf n 32 32), waiter := fieldOf n 16 5
    parent := if n.testBit 6 then some (fieldOf n 3 3) else none }

/-- A permutation register with its image put back (R217, R387). One that is SOLVING stays so: only the Pergola's return ends that (R219). -/
def Perm.put (p : Perm) (width n : Nat) : Perm :=
  if p.state = .solving then p
  else if fieldOf n 864 2 ≠ 2 ∧ fieldOf n 0 864 = 0 then {}
  else
    { state := if fieldOf n 864 2 = 2 then .valid else .invalid, pos := (List.range width).map fun j => fieldOf n (8 * j) 8
      settings := (List.range ((2 * Nat.log2 width - 1) * (width / 2))).map fun k => n.testBit (512 + k) }

/-- The state code of a group: what a pre-empted one was (R97, R386). -/
def Group.stateCode (g : Group) : Nat :=
  match g.gstate with
  | .admitted => 0 | .ready => 1 | .trapped => 2 | .exited => 3 | .empty => 3
  | .preempted => if g.debugHeld || g.sibs.any Entity.handling then 2 else 1

def Group.mask (g : Group) (p : Nat) : Mask := laneMask (fun i => (g.lane i).p.getLsbD p) g.width

def TrapRegs.words (r : TrapRegs) : List Word := [r.cause, r.pc, r.first, r.fault, r.faultLo, r.faultMid, r.faultHi, r.lanesLo, r.lanesHi, r.data]

/-- The paths in the order of their counts. -/
def paths : List Path := [.vm, .sp, .xc, .ga, .mq, .rs]

/-- The GROUP payload of a group with all its entities among `sibs`; `low` says that it is the team's lowest GID on the core. -/
def Group.bytes (g : Group) (t : Team) (low : Bool) : List Byte :=
  leBytes t.launch.toNat 4 ++ leBytes t.ticket.toNat 8
    ++ leBytes g.gid 1 ++ leBytes (widthCode g.width) 1 ++ leBytes g.stateCode 1 ++ leBytes (g.sibs.filter Entity.live).length 1
    ++ wordBytes [g.gc, g.gs, g.seed, g.mc, g.mc2, g.named]
    ++ (paths.flatMap fun p => leBytes (g.count p) 1) ++ leBytes 0 2
    ++ ((List.range 8).flatMap fun h => leBytes (Acc.handleBits (g.acc.getD h none)) 2)
    ++ wordBytes ((List.range 72).map g.sAt)
    ++ ((List.range 16).flatMap fun n => leBytes (g.b.getD n 0).toNat 16)
    ++ ((List.range 4).flatMap fun n => leBytes ((g.perm n).image g.width) 128)
    ++ wordBytes ((List.range 192).map fun i => g.epi.getD i 0)
    ++ ((List.range 8).flatMap fun e => leBytes (g.split.getD e {}).bits 8)
    ++ ((List.range 4).flatMap fun p => leBytes (g.mask p).toNat 8)
    ++ wordBytes ((List.range 64).map fun i => (g.lane i).use)
    ++ wordBytes g.treg.words
    ++ wordBytes ((List.range 16).map fun i => if low then t.w.getD i 0 else 0)
    ++ leBytes (if g.loc.core = t.core then t.base else t.base2) 4 ++ leBytes t.scratch 4

/-- The window's state as NAMED gives it (R120): PEAK, as many open scopes, and COUNT registers, what the scopes do not make up of them
being the base. -/
def Group.putWindow (g : Group) (named : Nat) : Group :=
  let depth := fieldOf named 16 3
  let scopes := List.replicate (depth - g.scopes.length) 0 ++ g.scopes.drop (g.scopes.length - depth)
  { g with scopes, peak := fieldOf named 8 6, base := fieldOf named 0 6 - 8 * scopes.sum }

/-- A path's count becomes n (R137, R138): the oldest operations beyond it are no longer counted; a count without an operation never falls. -/
def Group.putCount (g : Group) (p : Path) (n : Nat) : Group :=
  let extra := ((g.ops.filter fun o => o.path = some p).take (g.count p - n)).map Op.id
  let more := (List.range (n - g.count p)).map fun i => ({ id := 2 ^ 64 + paths.idxOf p * 64 + i, path := some p, ent := 32, auto := false } : Op)
  { g with ops := (g.ops.map fun o => if extra.contains o.id then { o with path := none } else o) ++ more }

/-- Puts GROUP bytes back. What identifies the group (its launch, place and width) stays; reserved bits read 0 (R5). -/
def Group.putBytes (g : Group) (bs : List Byte) : Group :=
  let w := wordField bs
  let g := paths.zipIdx.foldl (fun g (p, i) => g.putCount p (byteField bs (40 + i) 1)) (g.putWindow (byteField bs 36 4))
  { g with
    gc := w 16 &&& 0x7F7, gs := w 20 &&& 0x7F, seed := w 24, mc := w 28 &&& 0xFFFFFF, mc2 := w 32
    acc := (List.range 8).map fun h =>
      let x := byteField bs (48 + 2 * h) 2
      if x.testBit 15 then some { (g.acc.getD h none).getD ⟨0, []⟩ with bank := x % 16 } else none
    s := (List.range 64).map fun i => w (64 + 4 * i)
    hbank := (List.range 8).map fun i => w (320 + 4 * i)
    b := (List.range 16).map fun i => BitVec.ofNat 80 (byteField bs (352 + 16 * i) 10)
    pm := (List.range 4).map fun i => (g.perm i).put g.width (byteField bs (608 + 128 * i) 128)
    epi := (List.range 192).map fun i => w (1120 + 4 * i)
    split := (List.range 8).map fun i => splitOf (byteField bs (1888 + 8 * i) 8)
    lanes := (List.range g.width).map fun i =>
      { g.lane i with p := BitVec.ofNat 4 (((List.range 4).map fun p => ((byteField bs (1952 + 8 * p) 8).testBit i).toNat * 2 ^ p).sum), use := w (1984 + 4 * i) }
    treg := ⟨w 2240 &&& 0x1FFF, w 2244, w 2248, w 2252, w 2256, w 2260, w 2264, w 2268, w 2272, w 2276⟩ }

/-- The team words of a GROUP payload. -/
def teamWords (bs : List Byte) : List Word := (List.range 16).map fun i => wordField bs (2280 + 4 * i)

/-- A team as a GROUP payload of one of its groups on a core gives it: the team words, if it is that of the lowest GID there, and the window's
place on the core and its size (R386). What a word held before still shows (R121) where it stays as it is. -/
def Team.putShared (t : Team) (core : Nat) (low : Bool) (bs : List Byte) : Team :=
  let kept (o : WOld) : Bool := t.w.getD o.reg 0 = (teamWords bs).getD o.reg 0
  let t := if low then { t with w := teamWords bs, wold := t.wold.filter kept } else t
  let t := { t with scratch := byteField bs 2348 4 }
  if core = t.core then { t with base := byteField bs 2344 4 } else { t with base2 := byteField bs 2344 4 }

/-! ## ENTITY (R386) -/

def EStatus.code : EStatus → Nat
  | .ready => 0 | .waiting _ => 1 | .faultwait => 2
def EStatus.reason : EStatus → Nat
  | .waiting .scoreboard => 0 | .waiting r => r.num | _ => 0
def statusOf (state reason : Nat) : EStatus :=
  match state with
  | 0 => .ready
  | 2 => .faultwait
  | _ => .waiting (match reason with
    | 0 => .scoreboard | 1 => .counter | 2 => .barrier | 3 => .ring | 4 => .order | 5 => .scope | 6 => .acc | 7 => .join | 8 => .sleep | _ => .perm)

/-- A stack of at most 8 entries of n bytes each, the oldest first; above its depth stand the bytes of m from offset o. -/
def stackBytes (m : Memory) (o n : Nat) (l : List (List Byte)) : List Byte :=
  (List.range 8).flatMap fun i => (l.reverse[i]?).getD (m.readBytes (o + n * i) n)
/-- A stack of return addresses at an offset (R386). -/
def callBytes (m : Memory) (o : Nat) (l : List Word) : List Byte := stackBytes m o 4 (l.map fun x => leBytes x.toNat 4)
def stackOf (bs : List Byte) (o n : Nat) : List Word := ((List.range (min n 8)).map fun i => wordField bs (o + 4 * i)).reverse

def Deferral.bytes (d : Deferral) : List Byte := leBytes d.dpc.toNat 4 ++ leBytes d.dmask.toNat 8 ++ leBytes (d.jpc.getD 0xFFFFFFFF).toNat 4

/-- The trap that an entity has pending. -/
def Entity.trap? (e : Entity) : Option Trap := e.pendingTrap.or e.deferred.head?

def Entity.flagByte (e : Entity) : Nat := e.handling.toNat + 2 * e.trap?.isSome.toNat + 4 * e.skipCmp.toNat + 8 * e.parent.isSome.toNat + 16 * (e.parent.getD 0 % 8)

/-- The ENTITY payload. -/
def Entity.bytes (e : Entity) : List Byte :=
  let l := e.l &&& ~~~ e.gone
  let n := e.defs.length
  leBytes e.pc.toNat 4 ++ leBytes e.em.toNat 8 ++ leBytes l.toNat 8
    ++ leBytes e.scc.toWord.toNat 1 ++ leBytes e.status.code 1 ++ leBytes e.status.reason 1 ++ leBytes e.flagByte 1
    ++ leBytes (e.wd.wake.getD 0) 8 ++ callBytes e.stale 32 e.calls ++ leBytes e.calls.length 1
    ++ leBytes n 1 ++ leBytes (bitsNat (e.defs.reverse.map Deferral.half) + (e.stale.read 66).toNat / 2 ^ n * 2 ^ n) 1 ++ leBytes ((e.trap?.map fun t => t.code.num).getD 0) 1
    ++ stackBytes e.stale 68 16 (e.defs.map Deferral.bytes)
    ++ leBytes e.frame.pc.toNat 4 ++ leBytes e.frame.em.toNat 8 ++ leBytes e.frame.scc.toWord.toNat 1 ++ leBytes e.frame.calls.length 1 ++ leBytes e.frame.depth 1 ++ leBytes 0 1
    ++ callBytes e.stale 212 e.frame.calls ++ leBytes e.wd.ordTicks 8 ++ leBytes e.tickHi.toNat 4

def trapCodes : List TrapCode :=
  [.illegalInstr, .illegalOperand, .fetchFault, .xlateFault, .accessFault, .misalign, .divZero, .intInvalid, .fpExcept, .permInvalid, .ordDeadlock, .ordTimeout, .ordNest,
   .ordCapacity, .accStarve, .scopeFault, .streamerRights, .regParityFatal, .callDepth, .brk, .hwbkpt, .softTrap, .ringFault, .barFault, .mqFault, .privFault, .dataPoison]

/-- Whether a byte of an ENTITY payload stands at or above the depth of its stack, by the depths that the payload gives (R386, R387). -/
def aboveDepth (bs : List Byte) (i : Nat) : Bool :=
  let n (o : Nat) : Nat := byteField bs o 1
  (decide (32 + 4 * n 64 ≤ i) && decide (i < 64)) || i = 66 || (decide (68 + 16 * n 65 ≤ i) && decide (i < 196)) || (decide (212 + 4 * n 209 ≤ i) && decide (i < 244))

/-- Those bytes that are not 0. -/
def staleOf (bs : List Byte) : Memory :=
  (List.range 256).filterMap fun i => let b := bs.getD i 0; if aboveDepth bs i && b != 0 then some (i, b) else none

/-- Puts ENTITY bytes back. A trap that stays pending keeps what the layout has no room for. -/
def Entity.putBytes (e : Entity) (bs : List Byte) : Entity :=
  let w := wordField bs
  let flags := byteField bs 23 1
  let depth := min (byteField bs 65 1) 8
  let half := byteField bs 66 1
  let defs := ((List.range depth).map fun i =>
    let o := 68 + 16 * i
    let j := w (o + 12)
    (⟨w o, BitVec.ofNat 64 (byteField bs (o + 4) 8), if j = 0xFFFFFFFF then none else some j, half.testBit i⟩ : Deferral)).reverse
  let code := byteField bs 67 1
  let kept := flags.testBit 1 && ((e.trap?.map fun t => t.code.num) = some code)
  let fresh : Option Trap := if flags.testBit 1 then (trapCodes.find? fun c => c.num = code).map fun c => { code := c, tpc := w 0, first := w 0 } else none
  { e with
    pc := w 0, em := BitVec.ofNat 64 (byteField bs 4 8), l := BitVec.ofNat 64 (byteField bs 12 8), gone := 0
    scc := Scc.ofWord (BitVec.ofNat 32 (byteField bs 20 1)), status := statusOf (byteField bs 21 1) (byteField bs 22 1)
    handling := flags.testBit 0, skipCmp := flags.testBit 2, parent := if flags.testBit 3 then some (fieldOf flags 4 3) else none
    pendingTrap := if kept then e.pendingTrap else fresh
    deferred := if kept then e.deferred else []
    wd := { e.wd with wake := if byteField bs 24 8 = 0 then none else some (byteField bs 24 8), ordTicks := byteField bs 244 8 }
    calls := stackOf bs 32 (byteField bs 64 1), defs
    frame := { e.frame with pc := w 196, em := BitVec.ofNat 64 (byteField bs 200 8), scc := Scc.ofWord (BitVec.ofNat 32 (byteField bs 208 1)), calls := stackOf bs 212 (byteField bs 209 1), depth := byteField bs 210 1 }
    tickHi := w 252, stale := staleOf bs }

/-! ## NAMED, QUEUE, ACC (R385) -/

def Group.namedBytes (g : Group) : List Byte := wordBytes ((List.range g.window).flatMap fun r => (List.range g.width).map fun i => (g.lane i).reg r)
def Group.putNamed (g : Group) (bs : List Byte) : Group :=
  g.mapLanes fun i l => { l with v := (List.range g.window).map fun r => wordField bs (4 * (r * g.width + i)) }

def Group.queueBytes (g : Group) : List Byte := wordBytes ((List.range 16).flatMap fun n => (List.range g.width).map fun i => ((g.lane i).qAt n).val)
/-- A position that is pending keeps its operation, which still fills it. -/
def Group.putQueue (g : Group) (bs : List Byte) : Group :=
  g.mapLanes fun i l => { l with q := (List.range 16).map fun n => { l.qAt n with val := wordField bs (4 * (n * g.width + i)) } }

/-- The handle that owns a bank, and the first of its rows there. -/
def Group.bankRows (g : Group) (bank : Nat) : Option (Nat × Nat) :=
  (List.range 8).findSome? fun h => match g.acc.getD h none with
    | some k => if bank = k.bank then some (h, 0) else if banksOf g.width = 2 ∧ bank = k.bank + 1 then some (h, 32) else none
    | none => none

def Acc.bankBytes (k : Acc) (from_ : Nat) : List Byte :=
  let row (m : Nat) : AccRow := k.rows.getD (from_ + m) {}
  wordBytes ((List.range 32).flatMap fun m => (List.range 32).map fun c => (row m).elems.getD c 0) ++ wordBytes ((List.range 32).map fun m => (row m).status)

def Acc.putBank (k : Acc) (from_ width : Nat) (bs : List Byte) : Acc :=
  let row (m : Nat) : AccRow :=
    let st := wordField bs (4096 + 4 * m)
    { k.rows.getD (from_ + m) {} with elems := (List.range 32).map fun c => wordField bs (4 * (32 * m + c)), sat := st.getLsbD 3, inf := st.getLsbD 2, nan := st.getLsbD 1, poison := st.getLsbD 0 }
  { k with rows := (List.range width).map fun m => if from_ ≤ m ∧ m < from_ + 32 then row (m - from_) else k.rows.getD m {} }

def Group.bankBytes (g : Group) (bank : Nat) : Option (List Byte) :=
  (g.bankRows bank).bind fun (h, m) => (g.acc.getD h none).map fun k => k.bankBytes m
def Group.putBank (g : Group) (bank : Nat) (bs : List Byte) : Group :=
  match g.bankRows bank with
  | none => g
  | some (h, m) => { g with acc := putAt none g.acc h ((g.acc.getD h none).map fun k => k.putBank m g.width bs) }

/-! ## By TYPE and INDEX -/

/-- The payload of a group's record (R385): TYPE 2 GROUP, 3 ENTITY, 4 NAMED, 5 QUEUE, 6 ACC. -/
def Group.payload (g : Group) (t : Team) (low : Bool) (type index : Nat) : Option (List Byte) :=
  match type with
  | 2 => if index = 0 then some (g.bytes t low) else none
  | 3 => (g.sibs.find? fun e => e.live && e.num = index).map Entity.bytes
  | 4 => if index = 0 then some g.namedBytes else none
  | 5 => if index = 0 then some g.queueBytes else none
  | 6 => g.bankBytes index
  | _ => none

/-- Puts the payload of a group's record back. -/
def Group.putPayload (g : Group) (type index : Nat) (bs : List Byte) : Group :=
  match type with
  | 2 => g.putBytes bs
  | 3 => { g with sibs := g.sibs.map fun e => if e.live && e.num = index then e.putBytes bs else e }
  | 4 => g.putNamed bs
  | 5 => g.putQueue bs
  | 6 => g.putBank index bs
  | _ => g

/-! ## The stream (R385) -/

/-- One record: its header, and its payload padded to 16 bytes. -/
def streamRecord (type part slot index : Nat) (payload : List Byte) : List Byte :=
  leBytes type 1 ++ leBytes part 1 ++ leBytes slot 1 ++ leBytes index 1 ++ leBytes payload.length 4 ++ leBytes 0 8
    ++ payload ++ List.replicate ((16 - payload.length % 16) % 16) 0

/-- The records of one group. -/
def Group.records (g : Group) (t : Team) (low : Bool) : List (List Byte) :=
  let r (type index : Nat) : List (List Byte) := match g.payload t low type index with
    | some p => [streamRecord type g.loc.part g.loc.slot index p]
    | none => []
  r 2 0 ++ (g.liveEnts.flatMap fun e => r 3 e.num) ++ r 4 0 ++ r 5 0 ++ ((List.range 16).flatMap fun b => r 6 b)

def CopyForm.num : CopyForm → Nat
  | .cin => 0 | .cout => 1 | .commit => 2 | .rows => 3

def Copy.bytes (k : Copy) : List Byte :=
  leBytes k.form.num 1 ++ leBytes k.g.slot 1 ++ leBytes k.perm.isSome.toNat 1 ++ leBytes 0 1 ++ wordBytes [k.target, k.param] ++ leBytes k.progress 4 ++ leBytes k.tail.toNat 8
    ++ leBytes k.desc.toNat 16 ++ (match k.perm with | some p => (List.range 64).flatMap fun j => leBytes (p.getD j 0) 1 | none => [])

/-- Puts back what the record of a command carries. -/
def Copy.putBytes (k : Copy) (bs : List Byte) : Copy :=
  { k with target := wordField bs 4, param := wordField bs 8, progress := byteField bs 12 4, tail := BitVec.ofNat 64 (byteField bs 16 8), desc := BitVec.ofNat 80 (byteField bs 24 16)
           perm := if byteField bs 2 1 = 1 then some ((List.range k.width).map fun j => byteField bs (40 + j) 1) else none }

end Sys2Proof.Machine
end

