-- ==== Sys2Proof/Machine/Crypto.lean ====
section
/-! DEFINITION. SHA-512 and Ed25519, which 26_bringup.md R393, R394 and R400 name and do not define: as FIPS 180-4 and RFC 8032
define them (notes/assumptions/73.md). -/
namespace Sys2Proof.Machine
open Sys2Proof

/-! ## SHA-512 -/

/-- The natural number that bytes hold, most significant first. -/
def beNat (bs : List Byte) : Nat := bs.foldl (fun n b => 256 * n + b.toNat) 0
/-- n bytes of a natural number, most significant first. -/
def beBytes (x n : Nat) : List Byte := (leBytes x n).reverse

/-- The largest r below 2^n with r^k at most x. -/
def rootOf (k x : Nat) : Nat → Nat
  | 0 => 0
  | n + 1 => go n (2 ^ n)
where
  go : Nat → Nat → Nat
    | 0, r => if r ^ k ≤ x then r else r - 1
    | i + 1, r => if r ^ k ≤ x then go i (r + 2 ^ i) else go i (r - 2 ^ i)

def primesBelow (n : Nat) : List Nat := (List.range n).filter fun p => decide (2 ≤ p) && (List.range p).all fun d => decide (d < 2) || decide (p % d ≠ 0)

/-- The first 64 bits of the fractional part of the k-th root of a prime. -/
def rootBits (k p : Nat) : BitVec 64 := BitVec.ofNat 64 (rootOf k (p * 2 ^ (64 * k)) 70)
def shaConstants : List (BitVec 64) := (primesBelow 410).map (rootBits 3)
def shaInitial : List (BitVec 64) := (primesBelow 20).map (rootBits 2)

/-- The padded message: one bit 1, zeros, the length in bits. -/
def shaPad (m : List Byte) : List Byte := m ++ [0x80] ++ List.replicate ((239 - m.length % 128) % 128) 0 ++ beBytes (8 * m.length) 16

/-- The next words of the message schedule, newest first. -/
def shaSchedule : Nat → List (BitVec 64) → List (BitVec 64)
  | 0, w => w
  | n + 1, w =>
    let x := w.getD 1 0
    let y := w.getD 14 0
    let s1 := x.rotateRight 19 ^^^ x.rotateRight 61 ^^^ x >>> 6
    let s0 := y.rotateRight 1 ^^^ y.rotateRight 8 ^^^ y >>> 7
    shaSchedule n ((s1 + w.getD 6 0 + s0 + w.getD 15 0) :: w)

/-- One round on a to h with a constant and a schedule word. -/
def shaRound (v : List (BitVec 64)) (kw : BitVec 64 × BitVec 64) : List (BitVec 64) :=
  match v with
  | [a, b, c, d, e, f, g, h] =>
    let t1 := h + (e.rotateRight 14 ^^^ e.rotateRight 18 ^^^ e.rotateRight 41) + ((e &&& f) ^^^ (~~~ e &&& g)) + kw.1 + kw.2
    let t2 := (a.rotateRight 28 ^^^ a.rotateRight 34 ^^^ a.rotateRight 39) + ((a &&& b) ^^^ (a &&& c) ^^^ (b &&& c))
    [t1 + t2, a, b, c, d + t1, e, f, g]
  | _ => v

/-- One block of 128 bytes. -/
def shaBlock (h : List (BitVec 64)) (block : List Byte) : List (BitVec 64) :=
  let w := (List.range 16).map fun i => BitVec.ofNat 64 (beNat ((block.drop (8 * i)).take 8))
  List.zipWith (· + ·) h ((shaConstants.zip (shaSchedule 64 w.reverse).reverse).foldl shaRound h)

/-- The SHA-512 digest of a message, 64 bytes. -/
def sha512 (m : List Byte) : List Byte :=
  let p := shaPad m
  let h := (List.range (p.length / 128)).foldl (fun h i => shaBlock h ((p.drop (128 * i)).take 128)) shaInitial
  h.flatMap fun x => beBytes x.toNat 8

/-! ## Ed25519 -/

/-- b^e modulo m, of an exponent of n bits. -/
def powMod (m b : Nat) : Nat → Nat → Nat
  | 0, _ => 1 % m
  | n + 1, e =>
    let r := powMod m b n (e / 2)
    if e % 2 = 1 then r * r % m * b % m else r * r % m

/-- The field's prime, the order of the base point, the curve's d, and a square root of -1. -/
def edP : Nat := 2 ^ 255 - 19
def edL : Nat := 2 ^ 252 + 27742317777372353535851937790883648493
def edInv (x : Nat) : Nat := powMod edP x 255 (edP - 2)
def edD : Nat := (edP - 121665) * edInv 121666 % edP
def edI : Nat := powMod edP 2 255 ((edP - 1) / 4)

/-- The sum of two points of the curve. -/
def edAdd (a b : Nat × Nat) : Nat × Nat :=
  let k := edD * (a.1 * b.1 % edP) % edP * (a.2 * b.2 % edP) % edP
  ((a.1 * b.2 + a.2 * b.1) * edInv (1 + k) % edP, (a.2 * b.2 + a.1 * b.1) * edInv (edP + 1 - k) % edP)

/-- k times a point, k of n bits. -/
def edMul (a : Nat × Nat) : Nat → Nat → Nat × Nat
  | 0, _ => (0, 1)
  | n + 1, k =>
    let r := edMul a n (k / 2)
    let r := edAdd r r
    if k % 2 = 1 then edAdd r a else r

/-- The point with a y, and an x of the given parity. -/
def edPoint (y sign : Nat) : Option (Nat × Nat) :=
  let u := (y * y + edP - 1) % edP
  let v := (edD * (y * y % edP) + 1) % edP
  let x := u * powMod edP v 255 3 % edP * powMod edP (u * powMod edP v 255 7) 255 ((edP - 5) / 8) % edP
  let w := v * (x * x % edP) % edP
  let root : Option Nat := if w = u then some x else if w = (edP - u) % edP then some (x * edI % edP) else none
  if edP ≤ y then none
  else root.bind fun x => if x = 0 ∧ sign = 1 then none else some (if x % 2 = sign then x else edP - x, y)

def edBase : Nat × Nat := (edPoint (4 * edInv 5 % edP) 0).getD (0, 1)
def edEncode (a : Nat × Nat) : List Byte := leBytes (a.1 % 2 * 2 ^ 255 + a.2) 32
def edDecode (bs : List Byte) : Option (Nat × Nat) := edPoint (leNat bs % 2 ^ 255) (leNat bs / 2 ^ 255)

/-- Whether a signature of 64 bytes over a message verifies under a public key. -/
def edVerify (key m sig : List Byte) : Bool :=
  let s := leNat (sig.drop 32)
  match edDecode key, edDecode (sig.take 32) with
  | some a, some r => sig.length = 64 && key.length = 32 && decide (s < edL) && edMul edBase 256 s = edAdd r (edMul a 256 (leNat (sha512 (sig.take 32 ++ key ++ m)) % edL))
  | _, _ => false

/-- The secret scalar and the prefix of a secret. -/
def edScalar (secret : List Byte) : Nat := leNat ((sha512 secret).take 32) % 2 ^ 254 / 8 * 8 + 2 ^ 254
def edPublic (secret : List Byte) : List Byte := edEncode (edMul edBase 256 (edScalar secret))

/-- The signature of a message with a secret. -/
def edSign (secret m : List Byte) : List Byte :=
  let r := leNat (sha512 ((sha512 secret).drop 32 ++ m)) % edL
  let head := edEncode (edMul edBase 256 r)
  head ++ leBytes ((r + leNat (sha512 (head ++ edPublic secret ++ m)) * edScalar secret) % edL) 32

end Sys2Proof.Machine
end

