-- ==== Sys2Proof/Machine/Mailbox.lean ====
section
/-! DEFINITION. The mailbox and its registers, boot, firmware, power, and the settings that commands direct to the units
(26_bringup.md R393 to R403, 25_traps_debug.md R379, R388, R391, R392, 23_isa_raster_system.md R360). -/
namespace Sys2Proof.Machine
open Sys2Proof

/-! ## Commands (R397, R398) -/

def State.setMb (s : State) (f : Mailbox → Mailbox) : State := s.setDev fun d => { d with mb := f d.mb }

/-- A command ends with a result and a response; MSI-X vector 0 is raised. -/
def State.mbDone (s : State) (result : Nat) (resp : List Byte := []) : State :=
  s.setDev fun d => { d with mb := { d.mb with busy := false, result, response := resp, directed := .none, units := [] }, msix := d.msix ++ [0] }

/-- A command starts and goes on until its units have acknowledged it, or until its other end comes. -/
def State.mbStart (s : State) (x : Directed) (units : List Nat) (resp : List Byte := []) : State :=
  s.setMb fun m => { m with busy := true, response := resp, directed := x, units }

/-- A parameter of the command, from its offset and size. -/
def State.param (s : State) (o n : Nat) : Nat := byteField s.dev.mb.params o n

/-- No parameter byte but those of the runs given is set (R398). -/
def State.unusedZero (s : State) (used : List (Nat × Nat)) : Bool :=
  s.dev.mb.params.zipIdx.all fun (b, i) => b = 0 || used.any fun u => decide (u.1 ≤ i) && decide (i < u.1 + u.2)

/-- A command: BUSY while another is in progress, BAD_STATE where DEVSTATE does not take it, BAD_PARAM for an unused byte (R398). -/
def State.mbox (s : State) (ok : List DevState) (used : List (Nat × Nat)) (f : Outcome) : Outcome :=
  if s.dev.mb.busy then .next (s.setMb fun m => { m with result := 1 })
  else if !ok.contains s.dev.devstate then .next (s.mbDone 2)
  else if !s.unusedZero used then .next (s.mbDone 3)
  else f

def allStates : List DevState := [.boot, .ready, .recovery, .stopped, .failsafe]

/-- MB_STATUS (R397). -/
def DevState.num : DevState → Nat
  | .boot => 1 | .ready => 2 | .recovery => 3 | .stopped => 4 | .failsafe => 5
def Device.status (d : Device) : Nat :=
  d.devstate.num * 2 ^ 56 + d.slot % 256 * 2 ^ 48 + d.booterr % 2 ^ 16 * 2 ^ 32 + d.mb.busy.toNat * 2 ^ 31 + d.mb.rsvw.toNat * 2 ^ 30 + d.mb.result % 2 ^ 16

/-! ## Images and boot (R393 to R396) -/

def mebi : Nat := 2 ^ 20

/-- The regions of the module flash, as offset and size (R393); the sealed identity stands in 1 MB at 200 MB, and the 55 MB from 201 MB on are
reserved. -/
def slotRegion (slot : Nat) : Nat × Nat := (slot * (96 * mebi), 96 * mebi)
def defectRegion : Nat × Nat := (192 * mebi, 4 * mebi)
def calibRegion : Nat × Nat := (196 * mebi, 4 * mebi)

/-- The parts of a signed region (R393): a 128-byte header, the body of the length that it gives, and the signature over both. -/
def imageHeader (bs : List Byte) : List Byte := bs.take 128
def imageSize (bs : List Byte) : Nat := Config.headerLength (imageHeader bs) + 192
def imageBody (bs : List Byte) : List Byte := (bs.drop 128).take (imageSize bs - 192)
def imageSigned (bs : List Byte) : List Byte := bs.take (imageSize bs - 64)
def imageSignature (bs : List Byte) : List Byte := (bs.drop (imageSize bs - 64)).take 64
def imageVersion (bs : List Byte) : Nat := (Config.headerVersion (imageHeader bs)).toNat
def imageMinver (bs : List Byte) : Nat := (Config.headerMinver (imageHeader bs)).toNat

/-- The image in a region of the flash: as many bytes as its header calls for. -/
def Device.image (d : Device) (r : Nat × Nat) : List Byte := d.flash.readBytes r.1 (min r.2 (imageSize (d.flash.readBytes r.1 128)))
def Device.slotImage (d : Device) (slot : Nat) : List Byte := d.image (slotRegion slot)

/-- A slot or signed region authenticates (R394): its digest, its signature, its version against the floor. -/
def authentic (floor : Nat) (bs : List Byte) : Bool :=
  decide (imageSize bs ≤ bs.length) && sha512 (imageBody bs) = Config.headerDigest (imageHeader bs)
    && edVerify Config.bootKey (imageSigned bs) (imageSignature bs) && decide (floor ≤ imageVersion bs)

/-- The slot that boots, as its number, its image, and the BOOTERR bits of those that failed before it (R394, R395). -/
def Device.choose (d : Device) : Option (Nat × List Byte) × Nat :=
  let a := (0, d.slotImage 0)
  let b := (1, d.slotImage 1)
  let (x, y) := if imageVersion a.2 < imageVersion b.2 then (b, a) else (a, b)
  if authentic d.floor x.2 then (some x, 0)
  else if authentic d.floor y.2 then (some y, x.1 + 1)
  else (none, 3)

/-- BOOTERR bits of the defect map and the calibration region. -/
def Device.regionErr (d : Device) : Nat := (if authentic d.floor (d.image defectRegion) then 0 else 4) + (if authentic d.floor (d.image calibRegion) then 0 else 8)

/-- Boot from an image (R394, R395): READY, with the floor raised. -/
def Device.boot (d : Device) (slot err : Nat) (img : List Byte) : Device :=
  { d with devstate := .ready, slot, booterr := err, cfgUp := true, booted := img, version := imageVersion img
           floor := max d.floor (imageMinver img), msix := d.msix ++ [0] }
def Device.recover (d : Device) (err : Nat) : Device := { d with devstate := .recovery, booterr := err }

/-- The state that reset leaves (R390, R395): flash, the sealed identity and memory outside the module stay. The module's own memory is zero,
under the device number that it had and under the one that it has again. -/
def State.resetAll (s : State) : State :=
  let own (n : Nat) (a : Nat) : Bool := decide ({ s with dev := { s.dev with devnum := n } }.place a = .local)
  let away (a : Nat) : Bool := !own s.dev.devnum a && !own 0 a
  { State.reset with
    turns := s.turns, fresh := s.fresh
    dev := { ({} : Device) with mem := s.dev.mem.filter fun c => away c.1, poison := s.dev.poison.filter away, flash := s.dev.flash, floor := s.dev.floor } }


/-- Reset is released and boot runs. (R395) -/
def execResetRelease (s : State) : Outcome :=
  if s.dev.devstate ≠ .boot then .refused .notDue
  else
    let d := s.dev
    match d.choose with
    | (some (n, img), e) => .next (s.setDev fun d => if d.regionErr = 0 then d.boot n e img else d.recover (e + d.regionErr))
    | (none, e) => .next (s.setDev fun d => d.recover (e + d.regionErr))

/-- Loses all state and restarts boot. (R399) -/
def execDevReset (s : State) : Outcome :=
  s.mbox allStates [] (.next s.resetAll)

/-- Removal of the 48 V input loses all state. (R390) -/
def execPowerLoss (s : State) : Outcome :=
  .next s.resetAll

/-- Authenticates the recovery-window image and continues boot. (R396) -/
def execAuthRecovery (s : State) : Outcome :=
  s.mbox [.recovery] [(0, 8)] <|
    let n := s.param 0 8
    if mebi < n then .next (s.mbDone 3)
    else
      let img := s.dev.window.readBytes 0 n
      if !authentic s.dev.floor img then .next (s.mbDone 5)
      else .next ((s.setDev fun d => if d.regionErr = 0 then d.boot 2 d.booterr img else d.recover d.regionErr).mbDone 0)

/-- Mailbox command returning serial, lot, versions and certificate. (R399) -/
def execIdentRead (s : State) : Outcome :=
  s.mbox allStates [] <|
    let d := s.dev
    let v (slot : Nat) : List Byte := leBytes (imageVersion (d.slotImage slot)) 8
    .next (s.mbDone 0 (leBytes Config.serial.toNat 16 ++ leBytes Config.lot.toNat 8 ++ leBytes d.version 8 ++ v 0 ++ v 1 ++ leBytes d.floor 8
      ++ leBytes (min Config.certificate.length 448) 4 ++ leBytes 0 4 ++ Config.certificate.take 448))

/-- The 168 bytes of an attestation (R400): digests of the booted image's and the defect map's header and body, version, nonce. -/
def State.attested (s : State) : List Byte :=
  sha512 (imageSigned s.dev.booted) ++ sha512 (imageSigned (s.dev.image defectRegion)) ++ leBytes s.dev.version 8 ++ leBytes (s.param 0 32) 32

/-- The public half of the device key, which the sealed identity holds with its certificate (R393, R400). -/
def devicePublic : List Byte := edPublic Config.deviceSecret


/-- Mailbox command returning a signed attestation over a nonce. (R400) -/
def execAttest (s : State) : Outcome :=
  s.mbox [.ready, .recovery] [(0, 32)] <| .next (s.mbDone 0 (s.attested ++ edSign Config.deviceSecret s.attested))

/-- A list with bytes put over it from offset o, filled up with zeros (R399). -/
def splice (l : List Byte) (o : Nat) (bs : List Byte) : List Byte := l.take o ++ List.replicate (o - l.length) 0 ++ bs ++ l.drop (o + bs.length)


/-- Mailbox command copying an image into a firmware slot. (R399) -/
def execSlotWrite (s : State) : Outcome :=
  s.mbox [.ready] [(0, 1), (8, 24)] <|
    let slot := s.param 0 1
    let src := s.param 8 8
    let off := s.param 16 8
    let len := s.param 24 8
    let host := decide (src < 2 ^ 56 ∧ s.place src = .host)
    if 1 < slot ∨ 96 * mebi < off + len ∨ ¬ (host ∨ (src = 0 ∧ s.dev.slot = 2 ∧ len ≤ mebi)) ∨ (slot = s.dev.slot ∧ !authentic s.dev.floor (s.dev.slotImage (1 - slot))) then .next (s.mbDone 3)
    else
      let bs := if src = 0 then s.dev.window.readBytes 0 len else s.mem.readBytes src len
      .next ((s.setDev fun d => { d with flash := d.flash.writeBytes ((slotRegion slot).1 + off) bs }).mbDone 0)

/-- Sets the arithmetic clock step. (R401) -/
def execPowerSet (s : State) : Outcome :=
  s.mbox [.ready] [(0, 1)] <|
    if 3 < s.param 0 1 then .next (s.mbDone 3) else .next ((s.setDev fun d => { d with power := { d.power with step := s.param 0 1 } }).mbDone 0)

/-- Sets the module power cap. (R399) -/
def execPowerCap (s : State) : Outcome :=
  s.mbox [.ready] [(0, 4)] <|
    let w := s.param 0 4
    if w < 1000 ∨ 4800 < w then .next (s.mbDone 3) else .next ((s.setDev fun d => { d with power := { d.power with cap := w } }).mbDone 0)

/-- Names a future tick at which the module stops. (R391) -/
def execTickstop (s : State) : Outcome :=
  s.mbox [.ready] [(0, 8)] <|
    let t := s.param 0 8
    if t < s.dev.tick + 1250 then .next (s.mbDone 3) else .next (s.mbStart (.tickstop t) (List.range 10))

/-- Returns the stop tick. (R391) -/
def execStopStatus (s : State) : Outcome :=
  s.mbox [.ready, .stopped, .failsafe] [] <| .next (s.mbDone 0 (leBytes ((s.dev.stopped.or s.dev.stopAt).getD 0) 8))

/-- The commands by opcode (R398). -/
def mbCommands : List (Nat × Instr) :=
  [(0x01, .identRead), (0x02, .attest), (0x03, .slotWrite), (0x04, .authRecovery), (0x05, .devReset), (0x06, .powerSet), (0x07, .powerCap), (0x08, .tickstop), (0x09, .stopStatus),
   (0x10, .ctxDefine), (0x11, .ctxAdmit), (0x12, .ctxSave), (0x13, .ctxRestore), (0x14, .ctxRelease), (0x15, .ctxPrio), (0x16, .ctxQuery), (0x17, .ctxFail),
   (0x20, .queueMap), (0x21, .queueReset), (0x22, .queueUnmap), (0x23, .launchQuery), (0x30, .tlbInval), (0x31, .pageResume), (0x32, .pageFail),
   (0x40, .linkEnable), (0x41, .linkFence), (0x42, .linkUnfence), (0x43, .linkSetup), (0x50, .trapSetup), (0x51, .traceSetup), (0x52, .pcbpSet), (0x53, .pcsampleSetup),
   (0x58, .dbgList), (0x59, .dbgRead), (0x5A, .dbgWrite), (0x5B, .dbgResume)]
def mbOpcodes : List Nat := mbCommands.map Prod.fst

/-- The row of the opcode table that a write of MB_CMD performs: the command of its opcode, or the refusal of one that is not listed (R397, R398). -/
noncomputable def mbCommand (opcode : BitVec 16) : Instr := (mbCommands.lookup opcode.toNat).getD (.mbCmdUnlisted opcode)


/-- A write of an opcode not listed is refused with BAD_PARAM. (R398) -/
def execMbCmdUnlisted (opcode : BitVec 16) (s : State) : Outcome :=
  if mbOpcodes.contains opcode.toNat then .refused .notDue
  else if opcode = 0 then .next s
  else if s.dev.mb.busy then .next (s.setMb fun m => { m with result := 1 })
  else .next (s.mbDone 3)

/-- Host write to MB_STATUS clears RSVW by W1C. (R397) -/
def execMbStatusWrite (v : BitVec 64) (s : State) : Outcome :=
  .next (s.setMb fun m => { m with rsvw := (m.rsvw && !v.getLsbD 30) || decide ((v >>> 16).setWidth 14 ≠ (0 : BitVec 14)) })

/-- Whether the host reaches a BAR0 offset (R396): in RECOVERY only the mailbox and the window. -/
def State.reachesBar (s : State) (offset : Nat) : Bool := decide (s.dev.devstate ≠ .recovery) || decide (offset < 0x400) || decide (2 ^ 20 ≤ offset)


/-- Host write to TFLAGS clears HOT or OVERCAP by W1C. (R403) -/
def execTflagsWrite (v : BitVec 64) (s : State) : Outcome :=
  if !s.reachesBar 0x9018 then .next s
  else
    let s := if v >>> 2 = 0 then s else s.setMb fun m => { m with rsvw := true }
    .next (s.setDev fun d => { d with power := { d.power with hot := d.power.hot && !v.getLsbD 1, overcap := d.power.overcap && !v.getLsbD 0 } })

/-- Host write to read-only BAR2, ignored and logged, unless the host does not reach it (R396). (R235) -/
def execBar2Write (offset : Nat) (v : BitVec 64) (s : State) : Outcome :=
  if 2 ^ 19 ≤ offset then .refused .notDue else .next (if v = 0 ∨ s.dev.devstate = .recovery then s else s.setMb fun m => { m with rsvw := true })

/-- The reserved bits of the BAR0 register at an offset (R5, R228, R397, R403); all of them where no register stands. -/
def reservedBits (offset : Nat) : BitVec 64 :=
  if 0x8000 ≤ offset ∧ offset < 0x8120 then 0x001F00000000F8F8
  else if (0x9000 ≤ offset ∧ offset < 0x90B0) ∨ (0x200 ≤ offset ∧ offset < 0x400) then 0
  else 0xFFFFFFFFFFFFFFFF


/-- Host write to a register with no row of its own, with RSV fields ignored and logged. A write of MB_CMD, MB_STATUS or TFLAGS is that of its own
row (`hostWrite`, Step.lean). (R5) -/
def execRegisterWrite (offset : Nat) (v : BitVec 64) (s : State) : Outcome :=
  if offset % 8 ≠ 0 ∨ 2 ^ 21 ≤ offset ∨ offset = 0 ∨ offset = 0x100 ∨ offset = 0x9018 then .refused .notDue
  else if offset < 0x100 then
    .next (s.setMb fun m => { m with params := splice m.params (offset - 8) (leBytes v.toNat 8) })
  else if 2 ^ 20 ≤ offset then
    .next (if s.dev.devstate = .recovery then s.setDev fun d => { d with window := d.window.writeBytes (offset - 2 ^ 20) (leBytes v.toNat 8) } else s)
  else .next (if v &&& reservedBits offset = 0 ∨ !s.reachesBar offset then s else s.setMb fun m => { m with rsvw := true })

/-- The corrected errors of the cores (R125, R403), and their withheld accumulator banks (R122, R403). -/
def State.correctedSum (s : State) : Nat := (s.allCores.map Core.corrected).sum
def State.withheldSum (s : State) : Nat := (s.allCores.map fun k => (k.banks.filter fun b => b.state = .withheld).length).sum


/-- Telemetry registers update every 1 ms, in every DEVSTATE. (R403) -/
def execTelemetryUpdate (mw : Nat) (temps : List Nat) (s : State) : Outcome :=
  let over_ := decide (1000 * s.dev.power.cap < mw)
  .next (s.setDev fun d => { d with
    power := { d.power with mw, seenStep := d.power.step, seenCap := d.power.cap, corrected := s.correctedSum, withheld := s.withheldSum, temps := (List.range 16).map fun i => temps.getD i 0, hot := d.power.hot || temps.any fun t => decide (100000 ≤ t), overcap := d.power.overcap || over_ }
    msix := if over_ then d.msix ++ [1] else d.msix })

/-- 110 °C for 256 µs forces a tick stop in FAILSAFE, also during boot; a TICKSTOP or comparator stop of the same tick then finds the module stopped. The sensors
are not the telemetry, which shows them once in 1 ms. (R402) -/
def execThermalFailsafe (s : State) : Outcome :=
  if s.dev.stopped.isSome then .refused .notDue
  else .next ((s.freeze s.dev.tick .failsafe).setDev fun d => { d with power := { d.power with hot := true } })

/-! ## Settings directed to the units (R17) -/

/-- The units of the module: Arbours 0 to 7 with their cores, Lodges A and B as 8 and 9 (notes/assumptions/25.md). -/
def arbours : List Nat := List.range 8
def allUnits : List Nat := List.range 10

/-- A context number that names a context in a state in which settings are taken (R170, R360, R379). -/
def State.usable (s : State) (n : Nat) : Bool := (s.ctx n).state != .free && (s.ctx n).state != .releasing


/-- Sets a context's trap routing. (R379) -/
def execTrapSetup (s : State) : Outcome :=
  s.mbox [.ready] [(0, 2), (4, 12)] <|
    let c := s.param 0 1
    let hoff := s.param 4 4
    if 63 < c ∨ 1 < s.param 1 1 ∨ hoff % 2 = 1 then .next (s.mbDone 3)
    else if !s.usable c then .next (s.mbDone 2)
    else .next (s.mbStart (.trapSetup c (decide (s.param 1 1 = 1)) (BitVec.ofNat 32 hoff) (BitVec.ofNat 32 (s.param 8 4)) (BitVec.ofNat 32 (s.param 12 4))) arbours)

/-- Sets or removes a context's trace area. (R360) -/
def execTraceSetup (s : State) : Outcome :=
  s.mbox [.ready] [(0, 2), (8, 8)] <|
    let c := s.param 0 1
    let k := s.param 1 1
    let base := s.param 8 8
    if 63 < c ∨ (base ≠ 0 ∧ (k < 8 ∨ 20 < k ∨ base % 4096 ≠ 0 ∨ 2 ^ 56 ≤ base)) then .next (s.mbDone 3)
    else if !s.usable c then .next (s.mbDone 2)
    else .next (s.mbStart (.traceSetup c k (BitVec.ofNat 64 base)) arbours)

/-- Sets a PC comparator on one or all cores. (R388) -/
def execPcbpSet (s : State) : Outcome :=
  s.mbox [.ready] [(0, 12)] <|
    let core := s.param 0 2
    let c : Comparator := { index := s.param 2 1, ctx := s.param 3 1, offset := BitVec.ofNat 32 (s.param 8 4), qfilter := s.param 4 2, gfilter := BitVec.ofNat 6 (s.param 6 1), action := s.param 7 1 }
    if (831 < core ∧ core ≠ 0xFFFF) ∨ 7 < c.index ∨ 63 < c.ctx ∨ 0xFFF < c.qfilter ∨ 63 < s.param 6 1 ∨ 3 < c.action then .next (s.mbDone 3)
    else .next (s.mbStart (.comparator c (if core = 0xFFFF then none else some core)) (if core = 0xFFFF then arbours else [arbourOf core]))

/-- Sets periodic PC sampling for a context. (R392) -/
def execPcsampleSetup (s : State) : Outcome :=
  s.mbox [.ready] [(0, 2)] <|
    let c := s.param 0 1
    let k := s.param 1 1
    if 63 < c ∨ (k ≠ 0 ∧ (k < 10 ∨ 24 < k)) then .next (s.mbDone 3)
    else if !s.usable c then .next (s.mbDone 2)
    else .next (s.mbStart (.sampling c k) arbours)

end Sys2Proof.Machine
end

