-- ==== Sys2Proof/Machine/Context.lean ====
section
/-! DEFINITION. Contexts and queues as the mailbox and the management plane change them: definition, residency, saving and
restoring, release, priorities (03_context.md R44 to R50, 25_traps_debug.md R384 to R386); mapping, resetting and unmapping
queues (04_queue.md R55, R56, R60, R72, R73); the query of a launch record (05_kernel.md R83). -/
namespace Sys2Proof.Machine
open Sys2Proof

/-! ## The context table -/

/-- Whether a context holds a resident slot (R46): one that was RESIDENT when it failed or was released keeps it until its groups
retire. -/
def State.holdsSlot (s : State) (c : Ctx) : Bool :=
  c.state = .resident || c.state = .saving || c.state = .restoring
    || (c.keepsSlot && (c.state = .error || c.state = .releasing) && s.allGroups.any fun g => !g.agent && (s.teamOf g.team).ctx = c.num)
/-- The slot that CTX_ADMIT and CTX_RESTORE assign as RSLOT: the lowest free one, a choice of the model (R46, notes/assumptions/62.md). -/
def State.freeSlot (s : State) : Option Nat := lowestFree ((s.dev.ctxs.filter s.holdsSlot).map Ctx.rslot) 4

def CtxState.num : CtxState → Nat
  | .free => 0 | .defined => 1 | .resident => 2 | .saving => 3 | .saved => 4 | .restoring => 5 | .error => 6 | .releasing => 7

/-- The lowest address-space tag, from 1, that no other context holds (R45). -/
def State.freeTag (s : State) : Nat :=
  let used := (s.dev.ctxs.filter fun c => c.state != .free).map Ctx.astag
  ((List.range 64).find? fun i => !used.contains (i + 1)).getD 64 + 1

/-- The refusals of R45. -/
def State.badDefine (s : State) : Bool :=
  let sb := s.param 56 8
  let mb := s.param 64 4
  decide (s.param 8 8 % 4096 ≠ 0 ∨ s.param 16 8 % 4096 ≠ 0 ∨ s.param 32 8 % 65536 ≠ 0 ∨ sb % 2 ^ 20 ≠ 0)
    || decide (s.param 24 1 < 4 ∨ 16 < s.param 24 1 ∨ s.param 40 1 < 10 ∨ 20 < s.param 40 1)
    || decide (s.param 68 2 = 0 ∨ 4096 < s.param 68 2 ∨ 15 < s.param 70 1 ∨ mb < 832)
    || decide (2 ^ 56 ≤ sb ∨ s.place sb ≠ .local ∨ 48 * 2 ^ 30 < sb % 2 ^ 42 + mb * 2 ^ 20)

/-- A command on the context of parameter 0 (R46): BAD_PARAM for a number past 63, BAD_STATE for a state that does not take it. -/
def State.ctxCmd (s : State) (used : List (Nat × Nat)) (ok : List CtxState) (f : Ctx → Outcome) : Outcome :=
  s.mbox [.ready] used <|
    let c := s.ctx (s.param 0 1)
    if 63 < c.num then .next (s.mbDone 3)
    else if !ok.contains c.state then .next (s.mbDone 2)
    else f c

/-- The last of some updates in the order of R48. -/
def lastUpdate (b : PrioUpdate) : List PrioUpdate → PrioUpdate
  | [] => b
  | u :: t => t.foldl (fun a u => if u.beats a then u else a) u

/-- A context becomes RESIDENT (R46, R48): PRIO, then the latest of the kept updates, held by every core. The stamp that goes with PRIO itself is 0, a
choice of the model (notes/assumptions/74.md). -/
def State.makeResident (s : State) (n : Nat) (slot : Nat) : State :=
  let c := s.ctx n
  let u := lastUpdate ⟨c.prio, 0, false⟩ c.kept
  (s.setCtx { c with state := .resident, rslot := slot, base := u, eff := u, kept := [], keepsSlot := false }).mapCores fun k => { k with prios := k.prios.filter fun x => x.ctx != n }


/-- Defines a context entry and assigns its ASTAG. The stamp of its PRIO is 0, a choice of the model (R48, notes/assumptions/74.md). (R45) -/
def execCtxDefine (s : State) : Outcome :=
  s.ctxCmd [(0, 1), (8, 17), (32, 9), (48, 4), (56, 15)] [.free] fun c =>
    if s.badDefine then .next (s.mbDone 3)
    else
      let a (o : Nat) : BitVec 64 := BitVec.ofNat 64 (s.param o 8)
      let p := s.param 70 1
      let tag := s.freeTag
      let new : Ctx := { num := c.num, state := .defined, root := a 8, flbase := a 16, fllog2 := s.param 24 1, ovbase := a 32, ovlog2 := s.param 40 1, ordwait := s.param 48 4, savebase := a 56, savemb := s.param 64 4, qmax := s.param 68 2, prio := p, astag := tag, gen := c.gen + 1, base := ⟨p, 0, false⟩, eff := ⟨p, 0, false⟩ }
      .next (((s.setCtx new).store (s.param 16 8) (leBytes 0 64)).mbDone 0 (leBytes tag 2 ++ leBytes new.gen.toNat 2))

/-- Makes a defined context resident in a free slot. (R46) -/
def execCtxAdmit (s : State) : Outcome :=
  s.ctxCmd [(0, 1)] [.defined] fun c => match s.freeSlot with
    | none => .next (s.mbDone 4)
    | some r => .next ((s.makeResident c.num r).mbDone 0 (leBytes r 1))

/-- Priority updates of packets on their way to the cores are kept (R48). -/
def State.keepUpdates (s : State) (n : Nat) : State :=
  let mine (k : Started) : Bool := pktType k.packet.toNat = 6 && k.prioCtx = n && k.wait != []
  let us := ((s.dev.queues.flatMap Queue.started ++ s.dev.strays).filter mine).map Started.update
  let c := s.ctx n
  let s := s.setCtx { c with kept := c.kept ++ us }
  s.setDev fun d => { d with
    strays := d.strays.filter fun k => !mine k
    queues := d.queues.map fun (q : Queue) => { q with started := q.started.map fun k => if mine k then { k with wait := [] } else k } }

/-- Starts pre-emption and saving of a resident context. (R49) -/
def execCtxSave (s : State) : Outcome :=
  s.ctxCmd [(0, 1)] [.resident] fun c =>
    let t := (s.setCtx { c with state := .saving, savingAt := s.dev.tick, saveBad := false }).keepUpdates c.num
    let t := (t.dev.draws.filter fun w => w.ctx = c.num).foldl State.rerunDraw t
    .next (t.mbStart (.save c.num) [])

/-- Starts reloading a saved context. (R50) -/
def execCtxRestore (s : State) : Outcome :=
  s.ctxCmd [(0, 1)] [.saved] fun c => match s.freeSlot with
    | none => .next (s.mbDone 4)
    | some r => .next ((s.setCtx { c with state := .restoring, rslot := r }).mbStart (.restore c.num) [] (leBytes r 1))

/-- Sets a context's effective priority with a stamp. (R48) -/
def execCtxPrio (s : State) : Outcome :=
  s.ctxCmd [(0, 2)] [.defined, .resident, .saving, .saved, .restoring, .error] fun c =>
    let p := s.param 1 1
    let stamp := leBytes s.dev.tick 8
    if 15 < p then .next (s.mbDone 3)
    else match s.takePrio c.num ⟨p, s.dev.tick, true⟩ with
      | (true, t) => .next (t.mbStart (.prio c.num p s.dev.tick) (List.range 832) stamp)
      | (false, t) => .next (t.mbDone 0 stamp)

/-- Returns a context's state, slot, priority and stamp. Of a context that is not RESIDENT, they are those last effective, and kept updates do not
show, a choice of the model (notes/assumptions/74.md). (R48) -/
def execCtxQuery (s : State) : Outcome :=
  s.ctxCmd [(0, 1)] [.free, .defined, .resident, .saving, .saved, .restoring, .error, .releasing] fun c =>
    .next (s.mbDone 0 (leBytes c.state.num 1 ++ leBytes c.rslot 1 ++ leBytes c.eff.prio 1 ++ leBytes 0 5 ++ leBytes c.eff.stamp 8))

/-- Fatal event putting a context into ERROR, its groups killed by the Arbours (R17). (R50) -/
def execCtxFail (s : State) : Outcome :=
  s.ctxCmd [(0, 1)] [.defined, .resident, .saving, .saved, .restoring] fun c => .next ((s.ctxFatal c.num 8 1 (kill := false)).mbStart (.kill c.num) arbours)

/-! ## Pre-emption and the save (R384, R385) -/

/-- What must have ended before a group is taken (R384): VM, SP and GA operations, every load's and status's fill but that of an
MQ.SEND that waits for an entry (notes/assumptions/66.md), MX instructions, solves. -/
def Group.quiet (g : Group) : Bool :=
  g.count .vm = 0 && g.count .sp = 0 && g.count .ga = 0
    && (g.ops.all fun o => o.done || (o.path = some .mq && !o.auto) || (o.fills = [] && o.path.isSome))
    && g.pm.all fun p => p.state != .solving

/-- A user group of a context. -/
def State.ofCtx (s : State) (n : Nat) (g : Group) : Bool := !g.agent && (s.teamOf g.team).ctx = n

/-- Takes a group (R215, R384): its IDEM points end, and its waits at keys are withdrawn with the ticks they have waited. -/
def State.preempt (s : State) (l : GLoc) : State :=
  let waits := (s.dev.keys.flatMap Key.waiters).filter fun w => w.g = l
  let until_ := (((s.groupAt l).map fun g => (s.ctx (s.teamOf g.team).ctx).savingAt)).getD s.dev.tick
  let ent (e : Entity) : Entity :=
    let at_ (handler : Bool) (d : WaitData) : WaitData := match waits.find? fun w => w.ent = e.num && w.handler == handler with
      | some w => { d with ordTicks := d.ordTicks + (until_ - w.since) }
      | none => d
    { e with idem := none, failedRegs := [], wd := at_ e.handling e.wd, frame := if e.handling then { e.frame with wd := at_ false e.frame.wd } else e.frame }
  (s.mapGroups fun g => if g.loc = l then { g with gstate := .preempted, sibs := g.sibs.map ent } else g).withdraw fun w => w.g = l

/-- A group that has drained is taken and written to the save stream. (R384) -/
def execGroupPreempt (g : GLoc) (s : State) : Outcome :=
  match s.groupAt g with
  | none => .refused .notDue
  | some x =>
    if x.agent ∨ (s.ctx (s.teamOf x.team).ctx).state ≠ .saving ∨ ¬ (x.gstate = .admitted ∨ x.gstate = .ready ∨ x.gstate = .trapped) ∨ !x.quiet then .refused .notDue
    else .next (s.preempt g)

/-- What a core holds of a context. -/
def State.heldOn (s : State) (n core : Nat) : SavedCore :=
  let k := s.coreOf core
  { core
    groups := s.allGroups.filter fun g => g.loc.core = core && s.ofCtx n g
    copies := k.sluice.filter fun c => (s.teamOf c.team).ctx = n
    mqs := (List.range 4).filterMap fun q => let m := k.mq q; if m.owner.isSome && m.ownerCtx = n then some (q, m) else none }

/-- Whether a group's GID is the lowest of its team on a core. -/
def SavedCore.lowest (k : SavedCore) (g : Group) : Bool := k.groups.all fun x => x.team != g.team || decide (g.gid ≤ x.gid)

/-- The records of a core's stream (R385), CORE first and END last. -/
def State.streamOf (s : State) (c : Ctx) (k : SavedCore) : List (List Byte) :=
  let spad := s.spadOf k.core
  let gs := (List.range 256).flatMap fun i => k.groups.filter fun g => g.loc.part * 16 + g.loc.slot = i
  let leads := gs.filter k.lowest
  let windows := leads.flatMap fun g =>
    let (_, base, len) := (s.teamOf g.team).share k.core
    [streamRecord 7 g.loc.part g.loc.slot 0 (leBytes base 4 ++ leBytes len 4 ++ leBytes 0 8 ++ spad.readBytes base len)]
  let mqs := k.mqs.map fun (q, m) =>
    let t := s.teamOf (m.owner.getD 0)
    streamRecord 8 0 0 q (leBytes m.h.toNat 2 ++ leBytes m.t.toNat 2 ++ leBytes t.launch.toNat 4 ++ leBytes t.ticket.toNat 8
      ++ (List.range m.count).flatMap fun j => spad.readBytes (mqAddr q (m.h.toNat + j)) 64)
  let copies := k.copies.map fun x => streamRecord 9 x.g.part x.g.slot 0 x.bytes
  let places := leads.flatMap fun g =>
    let t := s.teamOf g.team
    let r (i : Nat) (l : List Nat) : List (List Byte) := if l = [] then [] else [streamRecord 10 g.loc.part g.loc.slot i (l.flatMap fun o => leBytes o 4)]
    r 0 ((t.rings.filter fun x => x.core = k.core).map Ring.off) ++ r 1 ((t.barriers.filter fun x => x.core = k.core).map Barrier.off)
  let body := (gs.flatMap fun g => g.records (s.teamOf g.team) (k.lowest g)) ++ windows ++ mqs ++ copies ++ places
  [streamRecord 1 0 0 0 (leBytes k.core 4 ++ leBytes c.num 4 ++ leBytes c.gen.toNat 4 ++ leBytes (body.length + 2) 4 ++ leBytes s.dev.tick 8)]
    ++ body ++ [streamRecord 15 0 0 0 []]

/-- Where byte o of a core's stream stands (R49, R385): in its block, then in its extension. -/
def Ctx.streamAt (c : Ctx) (core o : Nat) : Nat :=
  c.savebase.toNat + arbourOf core * 2 ^ 36 + 2 ^ 22 * (core % 104) + if o < 2 ^ 22 then o else 416 * 2 ^ 20 + (o - 2 ^ 22)

def State.writeStream (s : State) (c : Ctx) (core : Nat) (bs : List Byte) : State :=
  (s.store (c.streamAt core 0) (bs.take (2 ^ 22))).store (c.streamAt core (2 ^ 22)) (bs.drop (2 ^ 22))

/-- Takes what a core holds of a context off the core (R46, R136). -/
def State.takeOff (s : State) (n : Nat) (k : SavedCore) : State :=
  let s := k.groups.foldl (fun s g => s.removeGroup g.loc) s
  s.onCore k.core fun x =>
    { x with sluice := x.sluice.filter fun c => !k.copies.any fun y => y.id = c.id
             mqs := x.mqs.map fun (q : Mq) => if q.owner.isSome ∧ q.ownerCtx = n then { h := q.t, t := q.t } else q
             tags := x.tags.filter fun e => e.ctx != n }

/-- A command at the Sluice that stands at a chunk boundary, or is held at its chunk (R49, R143). -/
def Copy.atBoundary (k : Copy) : Bool := k.progress % 32 = 0 || decide (k.total ≤ k.progress) || k.err != 0 || k.held != [] || !k.started

/-- An uncorrectable error in a group's accumulators (R50). -/
def Group.hasError (g : Group) : Bool := g.acc.any fun a => a.any fun k => k.rows.any AccRow.bad

/-- An uncorrectable error in what a saved core's state holds: accumulators, windows, queue entries (R50). -/
def State.savedBad (s : State) (k : SavedCore) : Bool :=
  k.groups.any Group.hasError
    || (k.groups.any fun g => let w := (s.teamOf g.team).share k.core; s.spadBad k.core w.2.1 w.2.2)
    || k.mqs.any fun (q, m) => (List.range m.count).any fun j => s.spadBad k.core (mqAddr q (m.h.toNat + j)) 64


/-- The last core reports saved and the slot is freed. (R46) -/
def execCtxSaveDone (ctx : Nat) (s : State) : Outcome :=
  let c := s.ctx ctx
  let ks := ((List.range 832).map (s.heldOn ctx)).filter fun k => k.groups != [] || k.copies != [] || k.mqs != []
  let gs := ks.flatMap SavedCore.groups
  if c.state ≠ .saving ∨ gs.any (fun g => g.gstate != .preempted && !(g.gstate = .exited && !g.killed && g.quiet)) ∨ ks.any (fun k => k.copies.any fun x => !x.atBoundary) then .refused .notDue
  else if c.saveBad || ks.any s.savedBad then .next (s.ctxFatal ctx 7 1)
  else
    let s := ks.foldl (fun s k => s.writeStream c k.core (s.streamOf c k).flatten) s
    let s := (ks.foldl (fun s k => s.takeOff ctx k) s).mapCores fun x => { x with tags := x.tags.filter fun e => e.ctx != ctx }
    let s := if s.team.ctx = ctx then s.focusTeam 0 else s
    let mine (t : Team) : Bool := t.serial != 0 && t.ctx = ctx && !t.killed
    let ts := s.teams.filter mine
    let s : State := { s with teams := s.teams.filter fun t => !mine t }
    let s := s.setCtx { s.ctx ctx with state := .saved, saved := ks, savedTeams := ts }
    .next (if s.dev.mb.directed = .save ctx then s.mbDone 0 else s)

/-! ## The restore (R50, R385) -/

/-- A record of a stream. -/
structure SRecord where
  type : Nat
  part : Nat
  slot : Nat
  index : Nat
  bytes : List Byte
deriving DecidableEq, Repr

def State.streamBytes (s : State) (c : Ctx) (core o n : Nat) : List Byte := (List.range n).map fun i => s.mem.read (c.streamAt core (o + i))

/-- Reads at most n records from offset o of a core's stream, and how far they reach. -/
def State.readStream (s : State) (c : Ctx) (core : Nat) : Nat → Nat → List SRecord × Nat
  | 0, o => ([], o)
  | n + 1, o =>
    let h := s.streamBytes c core o 16
    let len := byteField h 4 4
    let r : SRecord := ⟨byteField h 0 1, byteField h 1 1, byteField h 2 1, byteField h 3 1, s.streamBytes c core (o + 16) len⟩
    if r.type = 15 then ([r], o + 16)
    else
      let q := State.readStream s c core n (o + 16 + (len + 15) / 16 * 16)
      (r :: q.1, q.2)

/-- The team of a context that a record names by LAUNCHID and TICKET, from an offset on. -/
def State.teamNamed (s : State) (c : Ctx) (bs : List Byte) (o : Nat) : Option Nat :=
  ((s.allTeams ++ c.savedTeams).find? fun t => t.serial != 0 && t.ctx = c.num && !t.killed && t.launch = wordField bs o && t.ticket = BitVec.ofNat 64 (byteField bs (o + 4) 8)).map Team.serial

/-- The state of a group from its code (R386). -/
def gstateOf : Nat → GState
  | 0 => .admitted | 1 => .ready | 2 => .trapped | _ => .exited

/-- The group that a GROUP record gives at the place it names: the saved one of its team and GID, or else a new one. -/
def SavedCore.groupOf (old : SavedCore) (team : Nat) (r : SRecord) : Group :=
  let gid := byteField r.bytes 12 1
  let g := (old.groups.find? fun g => g.team = team && g.gid = gid).getD { team, gid, width := 16 * 2 ^ byteField r.bytes 13 1 }
  { g.putBytes r.bytes with loc := ⟨old.core, r.part, r.slot⟩, gstate := gstateOf (byteField r.bytes 14 1), sibs := [] }

/-- The entity that an ENTITY record gives a group. -/
def SavedCore.entityOf (old : SavedCore) (g : Group) (r : SRecord) : Entity :=
  let e := (old.groups.find? fun x => x.team = g.team && x.gid = g.gid).bind fun x => x.sibs.find? fun e => e.live && e.num = r.index
  (e.getD { num := r.index, live := true }).putBytes r.bytes

/-- Returns one record to the partition and slot that it names (R385). A GROUP record that names no team of the context is passed over
(notes/assumptions/24.md). -/
def SavedCore.put (old : SavedCore) (s : State) (c : Ctx) (k : SavedCore) (r : SRecord) : SavedCore :=
  let at_ (f : Group → Group) : SavedCore := { k with groups := k.groups.map fun g => if g.loc.part = r.part ∧ g.loc.slot = r.slot then f g else g }
  match r.type with
  | 2 => match s.teamNamed c r.bytes 0 with
    | some n => { k with groups := k.groups ++ [old.groupOf n r] }
    | none => k
  | 3 => at_ fun g => { g with sibs := g.sibs ++ [old.entityOf g r] }
  | 4 => at_ fun g => g.putNamed r.bytes
  | 5 => at_ fun g => g.putQueue r.bytes
  | 6 => at_ fun g => g.putBank r.index r.bytes
  | 8 =>
    let m := (old.mqs.lookup r.index).getD { ownerCtx := c.num }
    { k with mqs := (r.index, { m with h := BitVec.ofNat 16 (byteField r.bytes 0 2), t := BitVec.ofNat 16 (byteField r.bytes 2 2), owner := s.teamNamed c r.bytes 4 }) :: k.mqs.filter fun x => x.1 != r.index }
  | _ => k

/-- Puts the SLUICE records back, each to the command of its place and form; commands without one stay as they are. -/
def putCopies (l : List Copy) : List SRecord → List Copy
  | [] => l
  | r :: t => match takeFirst (fun (k : Copy) => k.g.part = r.part && k.g.slot = r.slot && k.form.num = byteField r.bytes 0 1) l with
    | some (k, rest) => k.putBytes r.bytes :: putCopies rest t
    | none => putCopies l t

/-- Registered offsets as a record gives them, in order; those beyond it are registered no longer. -/
def putOffsets {α : Type} (mine : α → Bool) (f : α → Nat → α) (bs : List Byte) : Nat → List α → List α
  | _, [] => []
  | i, x :: t =>
    if !mine x then x :: putOffsets mine f bs i t
    else if 4 * i < bs.length then f x (byteField bs (4 * i) 4) :: putOffsets mine f bs (i + 1) t
    else putOffsets mine f bs i t

/-- The rings and barriers of a team on a core, of its records or of none. -/
def Team.putPlaces (t : Team) (core : Nat) (rings bars : List Byte) : Team :=
  { t with rings := putOffsets (fun (x : Ring) => x.core = core) (fun x o => { x with off := o }) rings 0 t.rings
           barriers := putOffsets (fun (x : Barrier) => x.core = core) (fun x o => { x with off := o }) bars 0 t.barriers }

/-- What the records of a stream make of a saved core (R385). -/
def State.restored (s : State) (c : Ctx) (old : SavedCore) (rs : List SRecord) : SavedCore :=
  let k := rs.foldl (old.put s c) { core := old.core, groups := [], copies := [], mqs := old.mqs.filter fun m => m.2.owner.isNone }
  let moved (l : GLoc) : GLoc :=
    (((old.groups.find? fun g => g.loc = l).bind fun g => k.groups.find? fun x => x.team = g.team && x.gid = g.gid).map Group.loc).getD l
  { k with copies := putCopies (old.copies.map fun (x : Copy) => { x with g := moved x.g }) (rs.filter fun r => r.type = 9)
           mqs := k.mqs.map fun (q, m) => (q, { m with sends := m.sends.map fun x => { x with from_ := moved x.from_ } }) }

/-- The banks that a group owns. -/
def Group.ownBanks (g : Group) : List Bank :=
  g.acc.flatMap fun a => match a with
    | some k => (List.range (banksOf g.width)).map fun j => ⟨g.loc.part, k.bank + j, .owned⟩
    | none => []

/-- Whether the storage that a saved core's state needs is free there (R50). -/
def State.roomFor (s : State) (c : Ctx) (k : SavedCore) : Bool :=
  let occ := s.occs k.core
  let mine := k.groups.map Group.occ
  let core := s.coreOf k.core
  let at_ (p : Nat) (l : List Occ) : List Occ := l.filter fun o => o.loc.part = p
  let nums (p : Nat) (gs : List Group) : List Nat := (((gs.filter fun g => g.loc.part = p).flatMap Group.sibs).filter Entity.live).map Entity.num
  let here := s.allGroups.filter fun g => g.loc.core = k.core
  let ts := (s.allTeams ++ c.savedTeams).filter fun t => t.ctx = c.num && t.on k.core
  let others := s.windowsOf k.core fun t => t.ctx != c.num
  let share (t : Team) : Nat × Nat × Nat := t.share k.core
  mine.all (fun o => !occ.any fun x => x.loc = o.loc)
    && (List.range 16).all (fun p => at_ p mine = []
      || (decide (((at_ p occ ++ at_ p mine).map Occ.ents).sum ≤ 32)
        && (nums p k.groups).all (fun n => !(nums p here).contains n)
        && decide (((at_ p occ ++ at_ p mine).map Occ.bytes).sum + ((at_ p occ ++ at_ p mine).map Occ.reserve).foldl max 0 ≤ 98304)))
    && (k.groups.flatMap Group.ownBanks).all (fun b => !core.banks.any fun x => x.part = b.part && x.bank = b.bank)
    && decide ((others.map Prod.fst).sum + (ts.map fun t => (share t).1).sum ≤ 64)
    && ts.all (fun t => (share t).2.2 = 0 || others.all fun w => decide ((share t).2.1 + (share t).2.2 ≤ w.2.1) || decide (w.2.1 + w.2.2 ≤ (share t).2.1))
    && k.mqs.all fun (q, m) => m.owner.isNone || (core.mq q).owner.isNone

/-- A group as it stood when it was taken (R97, R384): entities in FAULTWAIT translate again, and those that waited for a section
issue their form again (R215). -/
def Group.wakeSaved (g : Group) : Group :=
  { g with gstate := match g.stateCode with | 0 => .admitted | 1 => .ready | 2 => .trapped | _ => .exited
           sibs := g.sibs.map fun e =>
             if e.status = .faultwait then { e with status := .ready, held := [], heldAt := [], heldFetch := false }
             else if e.status = .waiting .order then { e with status := .ready } else e }

/-- Places what a stream gives back on its core (R50): `full` is what its records rs make of the saved core k. -/
def State.putBack (s : State) (c : Ctx) (k full : SavedCore) (rs : List SRecord) : State :=
  let copies := full.copies.map fun (x : Copy) => { x with held := [] }
  let dead := full.mqs.filter fun m => m.2.owner.isNone
  let live := full.mqs.filter fun m => m.2.owner.isSome
  -- the teams of the context stand again
  let s : State := { s with teams := s.teams ++ (s.ctx c.num).savedTeams }
  let s := s.setCtx { s.ctx c.num with savedTeams := [], saved := (s.ctx c.num).saved.filter fun x => x.core != k.core }
  let bytes (type index : Nat) (g : Group) : List Byte :=
    ((rs.find? fun r => r.type = type && r.index = index && r.part = g.loc.part && r.slot = g.loc.slot).map SRecord.bytes).getD []
  let s := full.groups.foldl (fun s g => s.mapTeams fun t =>
    if t.serial ≠ g.team then t
    else
      let t := t.putShared k.core (full.lowest g) (bytes 2 0 g)
      if full.lowest g then t.putPlaces k.core (bytes 10 0 g) (bytes 10 1 g) else t) s
  let s := s.onCore k.core fun x =>
    let x := { x with groups := full.groups.map Group.wakeSaved ++ x.groups, banks := full.groups.flatMap Group.ownBanks ++ x.banks, sluice := x.sluice ++ copies }
    live.foldl (fun x m => x.setMq m.1 { m.2 with sends := m.2.sends ++ (x.mq m.1).sends }) x
  let s := (rs.filter fun r => r.type = 7).foldl (fun s r => s.spadStore k.core (byteField r.bytes 0 4) ((r.bytes.drop 16).take (byteField r.bytes 4 4))) s
  let entries (s : State) (m : Nat × Mq) : State :=
    match rs.find? fun r => r.type = 8 && r.index = m.1 with
    | some r => (List.range m.2.count).foldl (fun s j => s.spadStore k.core (mqAddr m.1 (m.2.h.toNat + j)) ((r.bytes.drop (16 + 64 * j)).take 64)) s
    | none => s
  let s := live.foldl entries s
  (dead.flatMap fun m => m.2.sends).foldl (fun s x => s.resolveSend x 0xFFFFFFFF) s

/-- A core's waiting restore proceeds once storage is free. (R50) -/
def execCoreRestore (core ctx : Nat) (s : State) : Outcome :=
  let c := s.ctx ctx
  match c.saved.find? fun k => k.core = core with
  | none => .refused .notDue
  | some k =>
    let (rs, len) := s.readStream c core 8192 0
    let full := s.restored c k rs
    if c.state ≠ .restoring then .refused .notDue
    else if s.poisonedAt (c.streamAt core 0) (min len (2 ^ 22)) ∨ s.poisonedAt (c.streamAt core (2 ^ 22)) (len - 2 ^ 22) then .next (s.ctxFatal ctx 7 2)
    else if !s.roomFor c full then .refused .notDue
    else .next (s.putBack c k full rs)

/-- The last core reports restored and the context is RESIDENT. (R46) -/
def execCtxRestoreDone (ctx : Nat) (s : State) : Outcome :=
  let c := s.ctx ctx
  if c.state ≠ .restoring ∨ c.saved ≠ [] then .refused .notDue
  else
    let s : State := { s with teams := s.teams ++ c.savedTeams }
    let s := s.setCtx { c with savedTeams := [] }
    let t := s.makeResident ctx c.rslot
    .next (if t.dev.mb.directed = .restore ctx then t.mbDone 0 t.dev.mb.response else t)

/-! ## Queues (R55, R56, R60, R72, R73) -/

/-- Whether n bytes from a physical address lie in the module's memory or in host memory (R55). -/
def State.inReach (s : State) (a n : Nat) : Bool :=
  decide (a + n ≤ 2 ^ 56) && [a, a + n - 1].all fun x => match s.place x with | .local => true | .host => true | _ => false

/-- The refusals of QUEUE_MAP (R55). -/
def State.badMap (s : State) : Bool :=
  let c := s.param 2 1
  let cls := s.param 3 1
  let lg := s.param 5 1
  let ring := s.param 8 8
  let w := s.param 16 8
  let r := s.param 24 8
  let mapped (p : Queue → Bool) : Nat := (s.dev.queues.filter fun q => q.state != .unmapped && p q).length
  decide (ring % 4096 ≠ 0 ∨ w % 8 ≠ 0 ∨ r % 8 ≠ 0 ∨ lg < 4 ∨ 20 < lg ∨ 3 < cls ∨ 7 < s.param 4 1 ∨ 1 < s.param 6 1 ∨ 63 < c)
    || !s.inReach ring (64 * 2 ^ lg) || !s.inReach w 8 || !s.inReach r 8
    || decide (s.param 6 1 = 1 ∧ cls ≠ 0) || !s.usable c
    || decide ((s.ctx c).qmax ≤ mapped fun q => q.ctx = c) || (decide (cls = 0) && decide (64 ≤ mapped fun q => q.cls = 0))

/-- Maps a queue descriptor. (R55) -/
def execQueueMap (s : State) : Outcome :=
  s.mbox [.ready] [(0, 7), (8, 24)] <|
    let n := s.param 0 2
    let k := s.queue n
    if 4095 < n then .next (s.mbDone 3)
    else if k.state ≠ .unmapped then .next (s.mbDone 2)
    else if s.badMap then .next (s.mbDone 3)
    else
      let w := s.word64 (BitVec.ofNat 64 (s.param 16 8))
      let ns := firstPoll (s.param 3 1)
      let q : Queue := { num := n, state := .idle, ctx := s.param 2 1, cls := s.param 3 1, home := s.param 4 1, log2 := s.param 5 1, priook := decide (s.param 6 1 = 1), ring := BitVec.ofNat 64 (s.param 8 8), widxAddr := BitVec.ofNat 64 (s.param 16 8), ridxAddr := BitVec.ofNat 64 (s.param 24 8), ridx := w, qgen := k.qgen + 1, pollns := ns, lastW := w, due := s.dev.tick + ns * 5 / 4 }
      .next (((s.setQueue q).putWord64 q.ridxAddr w).mbDone 0 (leBytes q.qgen.toNat 1))

/-- A packet whose priority update has not reached every core (R48, R68). -/
def Started.onItsWay (k : Started) : Bool := pktType k.packet.toNat = 6 && k.wait != []

/-- Step 1 of R72, and of step 2 what the management plane does: nothing of the queue starts any more, its draws that wait at a Saltern are dropped, and
its launches fail; their teams are killed by the directed command that follows (R17). Accepted priority updates still reach the cores (R48). -/
def State.startReset (s : State) (q : Nat) : State :=
  let s := s.withdrawNotice q
  let mine := (s.dev.launches.filter fun l => l.queue = q).map Launch.id
  let s := s.setDev fun d => { d with salt := d.salt.filter fun c => match c.cmd with | .packet _ id _ => !mine.contains id | _ => true }
  let s := s.setDev fun d => { d with strays := d.strays ++ (s.queue q).started.filter Started.onItsWay }
  let s := s.setQueue { s.queue q with state := .resetting, started := [], held := [], waitSince := none, waitMet := false }
  let s := s.setDev fun d => { d with launches := d.launches.filter fun l => !(l.queue = q && (l.state = .failed || l.state = .done || l.state = .pending)) }
  (s.dev.launches.filter fun l => l.queue = q).foldl (fun s l => s.failLaunch l.id 8 (kill := false)) s

/-- Generations of a queue that await delivery over a port (R73). -/
def Port.pending (p : Port) (q : Nat) : Nat := (p.resets.filter fun r => r.1 = q).length

/-- Whether a port is usable (R229). -/
def Port.usable (p : Port) : Bool := p.state = .up || p.state = .degraded

/-- Whether generations of a queue await delivery through a port to some device (R73): the port is not usable, and it leads to a device that
holds a generation of the queue. -/
def State.owes (s : State) (q : Nat) (p : Port) : Bool :=
  let devs := ((s.dev.gensAck ++ s.dev.gensSent).filter fun g => g.queue = q).map Generation.dev
  !p.usable && devs.any fun d => p.peer = d || (s.dev.routes.getD d 0).getLsbD p.num


/-- Starts resetting a queue and killing its work. (R72) -/
def execQueueReset (s : State) : Outcome :=
  s.mbox [.ready] [(0, 2)] <|
    let n := s.param 0 2
    let k := s.queue n
    if 4095 < n then .next (s.mbDone 3)
    else if k.state = .unmapped ∨ k.state = .resetting ∨ s.dev.ports.any (fun p => s.owes n p && decide (127 ≤ p.pending n)) then .next (s.mbDone 2)
    else .next ((s.startReset n).mbStart (.queueReset n) arbours)

/-- The new generation is noted for the exchange of every port that is not usable (R232). -/
def State.noteReset (s : State) (q : Nat) (gen : BitVec 8) : State :=
  (List.range 36).foldl (fun s n => if (s.port n).usable then s else s.setPort { s.port n with resets := (s.port n).resets ++ [(q, gen)] }) s

/-- Whether the units have acknowledged a directed command, if it is the one under way. -/
def State.unitsDone (s : State) (x : Directed) : Bool := s.dev.mb.directed ≠ x || s.dev.mb.units = []

/-- Writes of the reset work are acknowledged, those of its index builds too, and RESET_DONE is reported. (R72) -/
def execQueueResetDone (q : Nat) (s : State) : Outcome :=
  let k := s.queue q
  let busy (t : Team) : Bool := t.serial != 0 && t.queue = q
  if k.state ≠ .resetting ∨ !s.unitsDone (.queueReset q) ∨ !s.unitsDone (.release k.ctx) ∨ s.everyTeam.any busy ∨ s.dev.sets.any (fun x => x.builder.any fun b => b.queue = q) then .refused .notDue
  else
    let gen := k.qgen + 1
    let ns := firstPoll k.cls
    let s := s.setDev fun d => { d with launches := d.launches.filter fun l => l.queue != q }
    let s := ((s.setQueue { k with state := .idle, qgen := gen, ridx := k.lastW, pollns := ns, due := s.dev.tick + ns * 5 / 4 }).putWord64 k.ridxAddr k.lastW).noteReset q gen
    .next (if s.dev.mb.directed = .queueReset q then s.mbDone 0x10 (leBytes gen.toNat 1) else s)

/-- Unmaps an idle queue. (R60) -/
def execQueueUnmap (s : State) : Outcome :=
  s.mbox [.ready] [(0, 2)] <|
    let n := s.param 0 2
    let k := s.queue n
    if 4095 < n then .next (s.mbDone 3)
    else if k.state ≠ .idle then .next (s.mbDone 2)
    else .next (((s.withdrawNotice n).setQueue { num := n, qgen := k.qgen }).mbDone 0)

/-! ## Release (R47) -/

/-- Starts releasing a context: its keys are ABSENT (R210), its queues are reset, and the Arbours kill what groups remain (R17). (R47) -/
def execCtxRelease (s : State) : Outcome :=
  s.ctxCmd [(0, 1)] [.defined, .resident, .saved, .error] fun c =>
    let n := c.num
    let t := s.setCtx { c with state := .releasing, keepsSlot := c.keepsSlot || decide (c.state = .resident) }
    let qs := (t.dev.queues.filter fun q => q.ctx = n && q.state != .unmapped && q.state != .resetting).map Queue.num
    .next (((qs.foldl State.startReset t).absentKeys fun ctx _ => ctx = n).mbStart (.release n) arbours)

/-- Drops the cached translations of an address-space tag that p selects (R47, R170). -/
def State.dropTlb (s : State) (p : TlbEntry → Bool) (arb : Nat → Bool) (lodgeA lodgeB : Bool) : State :=
  let s := s.mapCores fun k => if arb (arbourOf k.num) then { k with itlb := k.itlb.filter fun e => !p e, dtlb := k.dtlb.filter fun e => !p e } else k
  s.setDev fun d => { d with
    l2tlb := d.l2tlb.filter fun e => !(arb e.1 && p e.2)
    walkCache := d.walkCache.filter fun e => !(arb e.1 && p e.2)
    lodgeTlb := if lodgeA then d.lodgeTlb.filter fun e => !p e else d.lodgeTlb
    lodgeTlbB := if lodgeB then d.lodgeTlbB.filter fun e => !p e else d.lodgeTlbB }

/-- The last release step is done and the entry becomes FREE; what other units keep of the context goes with it. (R47) -/
def execCtxReleaseDone (ctx : Nat) (s : State) : Outcome :=
  let c := s.ctx ctx
  if c.state ≠ .releasing ∨ !s.unitsDone (.release ctx) ∨ s.dev.queues.any (fun q => q.ctx = ctx && q.state = .resetting) ∨ s.allTeams.any (fun t => t.serial != 0 && t.ctx = ctx) then .refused .notDue
  else
    let s := s.dropTlb (fun e => e.astag = c.astag) (fun _ => true) true true
    let s := s.mapCores fun k => { k with
      icache := k.icache.filter fun l => l.ctx != ctx, versions := k.versions.filter fun l => l.ctx != ctx, fills := k.fills.filter fun f => f.line.ctx != ctx
      tags := k.tags.filter fun e => e.ctx != ctx, prios := k.prios.filter fun x => x.ctx != ctx }
    let s := s.keepKeys fun k => k.ctx != ctx
    let s := s.setDev fun d => { d with sets := d.sets.filter fun x => x.ctx != ctx, salt := d.salt.filter fun x => x.ctx != ctx, strays := d.strays.filter fun k => k.prioCtx != ctx }
    let s := s.setCtx { num := ctx, gen := c.gen }
    .next (if s.dev.mb.directed = .release ctx then s.mbDone 0 else s)

/-! ## The query of a record (R83) -/

def LaunchState.num : LaunchState → Nat
  | .pending => 0 | .claimed => 1 | .issuing => 2 | .draining => 3 | .done => 4 | .failed => 5

/-- The header of a launch record. -/
def Launch.headerBytes (l : Launch) : List Byte :=
  leBytes (l.ticket % 2 ^ 64 * 2 ^ 448 + l.doneN % 2 ^ 64 * 2 ^ 384 + l.total % 2 ^ 64 * 2 ^ 320 + l.hwm % 2 ^ 64 * 2 ^ 256 + l.low % 2 ^ 64 * 2 ^ 192
    + l.kdesc.toNat * 2 ^ 112 + l.id.toNat * 2 ^ 80 + l.err % 256 * 2 ^ 72 + l.qgen.toNat * 2 ^ 64 + l.queue % 4096 * 2 ^ 52 + l.ctx % 64 * 2 ^ 46
    + l.cohort.toNat * 2 ^ 45 + l.morton.toNat * 2 ^ 44 + l.go.toNat * 2 ^ 43 + l.state.num) 64

/-- Byte i of the progress map: four tickets of two bits each. -/
def Launch.mapByte (l : Launch) (i : Nat) : Byte :=
  BitVec.ofNat 8 ((List.range 4).map fun j =>
    match l.map.find? fun e => e.1 % 65536 = 4 * i + j with
    | some e => (if e.2 then 3 else 1) * 4 ^ j
    | none => 0).sum

/-- Copies a kept launch record to host memory. (R83) -/
def execLaunchQuery (s : State) : Outcome :=
  s.mbox [.ready] [(0, 4), (8, 8)] <|
    let at_ := s.param 8 8
    match s.launch? (BitVec.ofNat 32 (s.param 0 4)) with
    | none => .next (s.mbDone 3)
    | some l =>
      if at_ % 64 ≠ 0 ∨ !s.inReach at_ 16448 ∨ l.state = .pending ∨ l.state = .done then .next (s.mbDone 3)
      else
        let t := s.store at_ (l.headerBytes ++ (List.range 16384).map l.mapByte)
        let t := if l.state = .failed then t.freeLaunch l.id else t
        .next (t.mbDone 0)

end Sys2Proof.Machine
end

