-- ==== Sys2Proof/Machine/Pages.lean ====
section
/-! DEFINITION. Page commands, the acknowledgement of directed commands, and the commands of the resident debug handler
(10_page.md R170 to R174, 01_device.md R17, 25_traps_debug.md R387). -/
namespace Sys2Proof.Machine
open Sys2Proof

/-! ## Ranges -/

/-- A range of a context's pages (R170): the whole space where the length is 0. -/
structure PageRange where
  ctx : Nat
  va : Nat
  len : Nat
deriving DecidableEq, Repr

def PageRange.has (r : PageRange) (page : BitVec 64) : Bool :=
  r.len = 0 || (decide (r.va / 2 ^ 16 ≤ page.toNat) && decide (page.toNat < (r.va + r.len) / 2 ^ 16))

/-- A cached entry that maps or leads to the range (R170). -/
def PageRange.meets (r : PageRange) (e : TlbEntry) : Bool :=
  let lo := e.key * 2 ^ levelShift e.level
  r.len = 0 || (decide (lo < r.va + r.len) && decide (r.va < lo + 2 ^ levelShift e.level))

/-- A page command (R170, R173), which starts with every unit in `units`. -/
def State.pageCmd (s : State) (units : List Nat) (f : Nat → VAddr → Nat → Directed) : Outcome :=
  s.mbox [.ready] [(0, 1), (16, 10), (32, 8)] <|
    let c := s.param 0 1
    let va := s.param 16 10
    let len := s.param 32 8
    if 63 < c ∨ va % 2 ^ 16 ≠ 0 ∨ len % 2 ^ 16 ≠ 0 then .next (s.mbDone 3)
    else if !s.usable c then .next (s.mbDone 2)
    else .next (s.mbStart (f c (BitVec.ofNat 80 va) len) units)

/-- Invalidates cached translations of a range. (R170) -/
def execTlbInval (s : State) : Outcome :=
  s.pageCmd allUnits .tlbInval

/-- Closes fault slots and lets waiters translate again. (R173) -/
def execPageResume (s : State) : Outcome :=
  s.pageCmd arbours .pageResume

/-- Closes fault slots and traps their waiters. (R173) -/
def execPageFail (s : State) : Outcome :=
  s.pageCmd arbours .pageFail

/-- Whether an operation is an access that used a translation (R137, R170). -/
def Op.access (o : Op) : Bool := o.path = some .vm || o.path = some .ga || (o.path = none && o.fills != [])

/-- Accesses using old translations complete and INVAL_DONE is reported. (R170) -/
def execTlbInvalDone (s : State) : Outcome :=
  match s.dev.mb.directed with
  | .tlbInval c _ _ =>
    let groups := s.allGroups.filter fun g => decide ((s.teamOf g.team).ctx = c)
    if s.dev.mb.units ≠ [] ∨ groups.any (fun g => g.ops.any fun o => !o.done && o.access && decide (o.id < s.dev.mb.mark)) then .refused .notDue
    else .next (s.mbDone 0x11)
  | _ => .refused .notDue

/-! ## Waiters of slots (R172 to R174) -/

/-- What closes at an Arbour: the range, and the slots that are open there before. -/
structure Closing where
  arbour : Nat
  range : PageRange
  slots : List FaultSlot
deriving DecidableEq, Repr

/-- Whether a waiter of a context is attached to a slot of a page. -/
def Closing.slot (k : Closing) (ctx : Nat) (p : BitVec 64) : Bool := k.slots.any fun f => f.arbour = k.arbour && f.ctx = ctx && f.page = p
def Closing.closes (k : Closing) (p : BitVec 64) : Bool := k.range.has p && k.slot k.range.ctx p
/-- Whether any slot closes. -/
def Closing.any (k : Closing) : Bool := k.slots.any fun f => f.arbour = k.arbour && f.ctx = k.range.ctx && k.range.has f.page

/-- Whether a waiter of a context under these pages translates again: PAGE_RESUME releases one of them, or it found every slot open and one,
of whatever context, has closed (R172, R173). -/
def Closing.frees (k : Closing) (resume : Bool) (ctx : Nat) (l : List HeldPage) : Bool :=
  l.any fun h => (resume && ctx = k.range.ctx && k.range.has h.page && (h.migrating || k.slot ctx h.page)) || (!h.migrating && !k.slot ctx h.page && k.any)

/-- Whether PAGE_FAIL ends a waiter of a context under these pages (R173). -/
def Closing.fails (k : Closing) (ctx : Nat) (l : List HeldPage) : Bool := ctx = k.range.ctx && l.any fun h => !h.migrating && k.closes h.page

/-- The trap of a waiter that PAGE_FAIL ends: precise, its address that of the lowest lane held there (R171, R173, R378). -/
def Closing.trap (k : Closing) (e : Entity) : Trap :=
  let fs := e.heldAt.filter fun f => k.closes f.page
  let addr := (fs.head?.map PageFault.addr).getD 0
  { code := if e.heldFetch then .fetchFault else .xlateFault, tpc := e.pc, first := e.pc, fault := addr.setWidth 32, addr, lanes := (fs.map PageFault.lanes).foldl (· ||| ·) 0 }

/-- An entity in FAULTWAIT at a closing. -/
def Closing.entity (k : Closing) (resume : Bool) (ctx : Nat) (e : Entity) : Entity :=
  if e.status ≠ .faultwait then e
  else if !resume && k.fails ctx e.held then { e with status := .ready, held := [], pendingTrap := some (k.trap e), heldFetch := false }
  else if k.frees resume ctx e.held then { e with status := .ready, held := [], heldFetch := false }
  else e

/-- A command at a Sluice at a closing. -/
def Closing.copy (k : Closing) (resume : Bool) (ctx : Nat) (x : Copy) : Copy :=
  if x.held = [] then x
  else if !resume && k.fails ctx x.held then { x with held := [], err := 1 }
  else if k.frees resume ctx x.held then { x with held := [] }
  else x

/-- PAGE_FAIL ends a command at the Saltern (R174): a form on a set records XLATE, and an EMIT or DRAW fails its draw, also where the header is what was held. -/
def State.failCmd (s : State) (c : HeldCmd) : State :=
  let s := s.setDev fun d => { d with salt := d.salt.filter fun x => !(x.g = c.g && x.op = c.op) }
  let setFail (h : Nat) : State := (s.putSet ((s.set c.ctx h).fail 5)).release c
  let drawFail (at_ : VAddr) : State :=
    match s.drawFor c at_ fun s w => .done (s.failLaunch w.id 9) true with
    | .done t _ => t.release c
    | .wait t => t.release c
    | .held _ => (s.openFailed c at_ 9).release c
  match c.cmd with
  | .init h _ => setFail h
  | .add h _ => setFail h
  | .build h => setFail h
  | .bind h => setFail h
  | .unbind h => setFail h
  | .free h => setFail h
  | .query h _ => setFail h
  | .emit at_ _ => drawFail at_
  | .draw at_ => drawFail at_
  | .packet _ id _ => s.failLaunch id 9

/-- The Saltern's waiters at a closing: commands, builds, draws. -/
def State.closeSalt (s : State) (k : Closing) (resume : Bool) : State :=
  let mine (home : Nat) : Bool := home = k.arbour
  let cmds := s.dev.salt.filter fun c => mine c.arb && c.held != []
  let sets := s.dev.sets.filter fun x => mine (x.handle % 8) && x.held != []
  let draws := s.dev.draws.filter fun w => mine w.home && w.held != []
  let free (ctx : Nat) (l : List HeldPage) : List HeldPage := if k.frees resume ctx l then [] else l
  let s := s.setDev fun d => { d with
    salt := d.salt.map fun c => if mine c.arb then { c with held := free c.ctx c.held } else c
    sets := d.sets.map fun x => if mine (x.handle % 8) then { x with held := free x.ctx x.held } else x
    draws := d.draws.map fun w => if mine w.home then { w with held := free w.ctx w.held } else w }
  let s := if resume then s else
    let s := (cmds.filter fun c => k.fails c.ctx c.held).foldl State.failCmd s
    let s := (sets.filter fun x => k.fails x.ctx x.held).foldl (fun s x => s.failBuild (s.set x.ctx x.handle) 1) s
    (draws.filter fun w => k.fails w.ctx w.held).foldl (fun s w => s.failLaunch w.id 9) s
  s.drainSalt

/-- A started packet whose access PAGE_FAIL ends (R71, R174). -/
def State.failHeld (s : State) (q : Nat) (x : Started) : State :=
  let x := { x with held := [] }
  if pktType x.packet.toNat = 7 ∧ ¬ x.marked ∧ x.err = 0 then s.failStarted q x else s.signalFailed q x

/-- The control plane's waiters at a closing (R174). -/
def State.closeQueue (s : State) (k : Closing) (resume : Bool) (n : Nat) : State :=
  let q := s.queue n
  let free (l : List HeldPage) : List HeldPage := if k.frees resume q.ctx l then [] else l
  let s := s.setQueue { q with held := free q.held, started := q.started.map fun x => { x with held := free x.held } }
  if resume then s
  else
    let s := (q.started.filter fun x => k.fails q.ctx x.held).foldl (fun s x => s.failHeld n x) s
    match s.waiting? n with
    | some p =>
      if k.fails q.ctx q.held then
        let x : Started := { n := q.ridx, packet := BitVec.ofNat 512 p }
        (s.startPacket n x).failStarted n x
      else s
    | none => s

/-- PAGE_RESUME or PAGE_FAIL at an Arbour (R173, R174). -/
def State.closePages (s : State) (arb : Nat) (r : PageRange) (resume : Bool) : State :=
  let k : Closing := ⟨arb, r, s.dev.slots⟩
  let s := s.setDev fun d => { d with slots := d.slots.filter fun f => !(f.arbour = arb && f.ctx = r.ctx && r.has f.page) }
  let s := s.mapGroups fun g => if arbourOf g.loc.core = arb then { g with sibs := g.sibs.map (k.entity resume (s.teamOf g.team).ctx) } else g
  let s := s.mapCores fun c => if arbourOf c.num = arb then { c with sluice := c.sluice.map fun x => k.copy resume (s.teamOf x.team).ctx x } else c
  let qs := (s.dev.queues.filter fun q => q.home = arb).map Queue.num
  (qs.foldl (fun s n => s.closeQueue k resume n) s).closeSalt k resume

/-! ## The resident debug handler (R387) -/

/-- Whether a group's GID is the lowest of its team on its core. -/
def State.lowestGid (s : State) (g : Group) : Bool := s.allGroups.all fun x => x.agent || x.team != g.team || x.loc.core != g.loc.core || decide (g.gid ≤ x.gid)

/-- The group at a place with the payload named, as the debug handler answers (R387): BAD_STATE for a group that it does not hold,
BAD_PARAM where there is no such payload or it does not have the n bytes from o. -/
def State.dbg (s : State) (l : GLoc) (type index o n : Nat) (f : Group → List Byte → State) : State :=
  match (s.groupAt l).bind fun g => if g.debugHeld then some g else none with
  | none => s.mbDone 2
  | some g => match g.payload (s.teamOf g.team) (s.lowestGid g) type index with
    | none => s.mbDone 3
    | some bs => if bs.length < o + n then s.mbDone 3 else f g bs

/-- DBG_READ at its core. -/
def State.dbgRead (s : State) (l : GLoc) (type index o n : Nat) : State :=
  s.dbg l type index o n fun _ bs => s.mbDone 0 ((bs.drop o).take n)

/-- DBG_WRITE at its core: the bytes change, and no others. -/
def State.dbgWrite (s : State) (l : GLoc) (type index o : Nat) (new : List Byte) : State :=
  s.dbg l type index o new.length fun g bs =>
    let bs := splice bs o new
    let t := s.mapGroups fun x => if x.loc = l then x.putPayload type index bs else x
    let t := if type = 2 then t.mapTeams fun x => if x.serial = g.team then x.putShared l.core (s.lowestGid g) bs else x else t
    t.mbDone 0

/-- DBG_RESUME at its core (R382, R387). A group that a fatal trap holds never resumes (R378): it can only be killed. -/
def State.dbgResume (s : State) (l : GLoc) (mode : Nat) : State :=
  match (s.groupAt l).bind fun g => if g.debugHeld then some g else none with
  | none => s.mbDone 2
  | some g =>
    if mode = 2 then (s.failLaunch (s.teamOf g.team).launch 8).mbDone 0
    else if g.gstate ≠ .trapped ∨ g.treg.cause.setWidth 8 = BitVec.ofNat 8 (TrapCode.num .regParityFatal) then s.mbDone 2
    else match s.focus l g.trapper with
      | none => s.mbDone 2
      | some t =>
        let t := t.returnTrap
        (if mode = 1 then t.setEnt fun e => { e with stepTrap := 1 } else t).mbDone 0

/-- The place that parameters 0 to 3 name. -/
def State.dbgPlace (s : State) : GLoc := ⟨s.param 0 2, s.param 2 1, s.param 3 1⟩

/-- Whether a write of bytes [o, o + n) of a payload touches bytes that DBG_WRITE refuses. -/
def dbgRefused (type o n : Nat) : Bool :=
  let meets (lo hi : Nat) : Bool := decide (o < hi) && decide (lo < o + n)
  (type = 2 && (meets 0 16 || meets 2240 2280)) || (type = 3 && meets 12 20)


/-- Lists groups held by the debug handler. (R387) -/
def execDbgList (s : State) : Outcome :=
  s.mbox [.ready] [(0, 1)] <|
    let c := s.param 0 1
    if 63 < c then .next (s.mbDone 3)
    else
      let l := (s.allGroups.filter fun g => g.debugHeld && s.ofCtx c g).take 127
      .next (s.mbDone 0 (leBytes l.length 4 ++ l.flatMap fun g => leBytes g.loc.core 2 ++ leBytes g.loc.part 1 ++ leBytes g.loc.slot 1))

/-- Reads state bytes of a held group. (R387) -/
def execDbgRead (s : State) : Outcome :=
  s.mbox [.ready] [(0, 6), (8, 8)] <|
    let n := s.param 12 4
    if 512 < n ∨ 831 < s.param 0 2 then .next (s.mbDone 3)
    else .next (s.mbStart (.dbgRead s.dbgPlace (s.param 4 1) (s.param 5 1) (s.param 8 4) n) [arbourOf (s.param 0 2)])

/-- Writes state bytes of a held group. (R387) -/
def execDbgWrite (s : State) : Outcome :=
  s.mbox [.ready] [(0, 6), (8, 8 + min 232 (s.param 12 4))] <|
    let o := s.param 8 4
    let n := s.param 12 4
    if 232 < n ∨ 831 < s.param 0 2 ∨ dbgRefused (s.param 4 1) o n then .next (s.mbDone 3)
    else .next (s.mbStart (.dbgWrite s.dbgPlace (s.param 4 1) (s.param 5 1) o (leBytes (s.param 16 n) n)) [arbourOf (s.param 0 2)])

/-- Resumes, single-steps or kills a held group. (R387) -/
def execDbgResume (s : State) : Outcome :=
  s.mbox [.ready] [(0, 5)] <|
    if 2 < s.param 4 1 ∨ 831 < s.param 0 2 then .next (s.mbDone 3)
    else .next (s.mbStart (.dbgResume s.dbgPlace (s.param 4 1)) [arbourOf (s.param 0 2)])

/-! ## Directed commands (R17) -/

/-- A comparator takes the place of the one with its index (R388). -/
def setComparator (c : Comparator) (l : List Comparator) : List Comparator := c :: l.filter fun x => x.index != c.index

/-- The teams of an Arbour that p selects are killed (R17, R47, R72). -/
def State.killOn (s : State) (unit : Nat) (p : Team → Bool) : State := s.killTeams fun t => t.serial != 0 && arbourOf t.core = unit && p t

/-- What a unit does with a directed command. What an Arbour's TLB no longer holds, Lodge A has not from it (R170, R175). -/
def State.applyDirected (s : State) (unit : Nat) : Directed → State
  | .tlbInval c va len =>
    let tag := (s.ctx c).astag
    s.dropTlb (fun e => e.astag = tag && PageRange.meets ⟨c, va.toNat, len⟩ e) (fun a => a = unit) (unit != 9) (unit = 9)
  | .queueReset q => s.killOn unit fun t => t.queue = q
  | .kill c => s.killOn unit fun t => t.ctx = c
  | .release c => (s.killOn unit fun t => t.ctx = c).closePages unit ⟨c, 0, 0⟩ true
  | .pageResume c va len => s.closePages unit ⟨c, va.toNat, len⟩ true
  | .pageFail c va len => s.closePages unit ⟨c, va.toNat, len⟩ false
  | .comparator c (some core) => s.onCore core fun k => { k with cmps := setComparator c k.cmps }
  | .comparator c none =>
    let s := s.mapCores fun k => if arbourOf k.num = unit then { k with cmps := setComparator c k.cmps } else k
    s.setDev fun d => { d with arbCmps := putAt [] d.arbCmps unit (setComparator c (d.arbCmps.getD unit [])) }
  | .prio c p stamp => s.applyPrio unit c ⟨p, stamp, true⟩
  -- the Arbour uses the new area from here on (`State.ctxOn`), whose header the first to acknowledge finds zero
  | .traceSetup c _ base =>
    if s.dev.mb.units.length + 1 < arbours.length then s
    else
      let s := s.setCtx { s.ctx c with traceNew := 0 }
      if base = 0 then s else s.store base.toNat (leBytes 0 64)
  -- the Arbour's cores begin their rotation anew
  | .sampling c _ => s.setCtx { s.ctx c with samplePos := (s.ctx c).samplePos.filter fun x => arbourOf x.1 != unit }
  | _ => s

/-- The end of a directed command, on the last acknowledgement. -/
def State.endDirected (s : State) : Directed → State
  | .tlbInval _ _ _ => s.setMb fun m => { m with mark := s.nextOp }
  | .trapSetup c tr hoff hm dm => (s.setCtx { s.ctx c with trace := tr, hoff, hmask := hm, dmask := dm }).mbDone 0
  | .traceSetup c k base => (s.setCtx { s.ctx c with traceBase := base, traceLog2 := k, traceNext := (s.ctx c).traceNew }).mbDone 0
  | .tickstop t => (s.setDev fun d => { d with stopAt := some t }).mbDone 0
  | .dbgRead g type index o n => s.dbgRead g type index o n
  | .dbgWrite g type index o bs => s.dbgWrite g type index o bs
  | .dbgResume g mode => s.dbgResume g mode
  | .sampling c k => (s.setCtx { s.ctx c with sampleK := k }).mbDone 0
  | .queueReset _ => s
  | .release _ => s
  | _ => s.mbDone 0 s.dev.mb.response

/-- A unit acknowledges a directed command, and the mailbox command that sent it completes on the last acknowledgement. (R17) -/
def execDirectedCommandAck (unit : Nat) (s : State) : Outcome :=
  let x := s.dev.mb.directed
  if !s.dev.mb.units.contains unit then .refused .notDue
  else
    let t := (s.setMb fun m => { m with units := m.units.filter fun u => u != unit }).applyDirected unit x
    .next (if t.dev.mb.units = [] then t.endDirected x else t)

end Sys2Proof.Machine
end

