-- ==== Sys2Proof/Machine/Link.lean ====
section
/-! DEFINITION. Promenade ports, operations that arrive over them, generation notices, and the CXL host port
(15_link.md R228 to R236, 04_queue.md R73). -/
namespace Sys2Proof.Machine
open Sys2Proof

/-! ## Generations (R73) -/

/-- A generation takes the place of the one held for its device and queue. -/
def putGeneration (l : List Generation) (g : Generation) : List Generation := g :: l.filter fun x => !(x.dev = g.dev && x.queue = g.queue)

/-- The far device has acknowledged a generation. -/
def State.acknowledge (s : State) (g : Generation) : State :=
  s.setDev fun d => { d with gensSent := d.gensSent.filter fun x => x != g, gensAck := putGeneration d.gensAck g }

/-! ## A port leaves the usable set (R231) -/

/-- An operation after the accesses it has on a port have failed: what they would write is 0, and what their lanes have not performed is not
performed any more. -/
def Op.failOn (p : Nat) (o : Op) : Op :=
  let lanes := (o.uses.filter fun u => u.port = p).map RemoteUse.lane
  let hit (d : Dest) : Bool := match d with
    | .q i _ => lanes.contains i
    | .v i _ => lanes.contains i
    | _ => true
  { o with fills := o.fills.map fun (f : Fill) => if hit f.dest then { f with val := 0 } else f
           todo := o.todo.filter fun a => !lanes.contains a.lane
           uses := o.uses.filter fun u => u.port != p }

/-- An operation that is outstanding on a port. -/
def Op.onPort (p : Nat) (o : Op) : Bool := !o.done && o.uses.any fun u => u.port = p

/-- The trap of a failed operation: the first of its accesses on the port, their lanes, and 0x600 with the port (R231). -/
def Op.portTrap (p : Nat) (o : Op) : Trap :=
  let bad := o.uses.filter fun u => u.port = p
  let addr := (bad.head?.map RemoteUse.addr).getD 0
  { code := .accessFault, fault := addr.setWidth 32, addr, lanes := laneMask (fun i => bad.any fun u => u.lane = i) 64, data := BitVec.ofNat 32 (0x600 + p) }

/-- What the failures of one group's operations leave (R231): their values, and the trap that each issuing entity takes at its
next boundary. -/
def Group.failPort (g : Group) (p : Nat) : Group :=
  { g with ops := g.ops.map fun o => if o.onPort p then o.failOn p else o
           sibs := g.sibs.map fun e => { e with deferred := e.deferred ++ ((g.ops.filter fun o => o.onPort p && o.ent = e.num).map (Op.portTrap p)) } }

/-- A port leaves the usable set: a record for each failed operation, then the failures (R231). -/
def State.failPort (s : State) (p code : Nat) : State :=
  let gs := s.allGroups.filter fun g => g.ops.any fun o => o.onPort p
  let s := gs.foldl (fun s g =>
    let t := s.teamOf g.team
    (g.ops.filter fun o => o.onPort p).foldl (fun s o =>
      let x := o.portTrap p
      s.record t.ctx { kind := 6, code, addr := x.addr, detail := x.data, lanes := x.lanes, launch := t.launch, queue := t.queue, core := g.loc.core, part := g.loc.part }) s) s
  s.mapGroups fun g => if g.ops.any fun o => o.onPort p then g.failPort p else g

/-- A port goes DOWN or is FENCED. -/
def State.lose (s : State) (p : Nat) (st : PortState) : State :=
  let k := s.port p
  let s := s.movePort { k with state := st, lanes := 0, fails := 0 }
  if k.usable then s.failPort p (if st = .fenced then 2 else 1) else s

/-- A command on the port of parameter 0. -/
def State.portCmd (s : State) (ok : Port → Bool) (f : Port → State) : Outcome :=
  s.mbox [.ready] [(0, 1)] <|
    let p := s.param 0 1
    if 35 < p then .next (s.mbDone 3)
    else if !ok (s.port p) then .next (s.mbDone 2)
    else .next ((f (s.port p)).mbDone 0)

/-- A port enters TRAINING (R229). -/
def State.train (s : State) (k : Port) : State := s.setPort { k with state := .training, lanes := 0, fails := 0, retrains := k.retrains + 1 }


/-- Starts training of a DOWN port. (R229) -/
def execLinkEnable (s : State) : Outcome :=
  s.portCmd (fun k => k.state = .down) s.train

/-- Fences a port. (R229) -/
def execLinkFence (s : State) : Outcome :=
  s.portCmd (fun _ => true) fun k => s.lose k.num .fenced

/-- Returns a fenced port to DOWN. (R229) -/
def execLinkUnfence (s : State) : Outcome :=
  s.portCmd (fun k => k.state = .fenced) fun k => s.setPort { k with state := .down }

/-- Memory with the module's own number changed: what the module holds moves with it. -/
def Memory.renumber (m : Memory) (old new : Nat) : Memory :=
  let own (d a : Nat) : Bool := a / 2 ^ 42 = d
  if old = new then m
  else (m.filter fun c => own old c.1).foldl (fun m c => m.write (new * 2 ^ 42 + c.1 % 2 ^ 42) c.2) (m.filter fun c => !own old c.1 && !own new c.1)

/-- Sets the device number and routing table. (R230) -/
def execLinkSetup (s : State) : Outcome :=
  s.mbox [.ready] [(0, 2), (8, 8)] <|
    let n := s.param 0 2
    let at_ := s.param 8 8
    let idle (p : Nat) : Bool := (s.port p).state = .down || (s.port p).state = .fenced
    if 1151 < n ∨ at_ % 64 ≠ 0 ∨ !s.inReach at_ 9216 then .next (s.mbDone 3)
    else if (List.range 36).any fun p => !idle p then .next (s.mbDone 2)
    else
      let bs := s.mem.readBytes at_ 9216
      let routes := (List.range 1152).map fun d => BitVec.ofNat 64 (byteField bs (8 * d) 8 % 2 ^ 36)
      .next ((s.setDev fun d => { d with
        routes, devnum := n, mem := d.mem.renumber d.devnum n
        poison := d.poison.map fun a => if a / 2 ^ 42 = d.devnum then n * 2 ^ 42 + a % 2 ^ 42 else a }).mbDone 0)

/-! ## Events of ports -/

/-- A far end begins training a DOWN port. (R229) -/
def execLinkTrainingStart (port : Nat) (s : State) : Outcome :=
  if 35 < port ∨ (s.port port).state ≠ .down then .refused .notDue else .next (s.train (s.port port))

/-- Lanes train and the generation exchange completes, in both directions; the port is usable. (R232) -/
def execLinkTrained (port lanes peer : Nat) (s : State) : Outcome :=
  let k := s.port port
  if 35 < port ∨ k.state ≠ .training ∨ lanes < 2 ∨ 4 < lanes ∨ 1151 < peer then .refused .notDue
  else
    let s := k.resets.foldl (fun s r => s.acknowledge ⟨peer, r.1, r.2⟩) s
    let s := s.setDev fun d => { d with gensIn := k.theirs.foldl (fun l r => putGeneration l ⟨peer, r.1, r.2⟩) d.gensIn }
    .next (s.movePort { k with state := if lanes = 4 then .up else .degraded, lanes, peer, resets := [], theirs := [], fails := 0 }).drainSalt

/-- The far end of a port that is not usable resets a queue of its own, whose new generation it owes the module (R232). -/
def State.farReset (s : State) (port q : Nat) (gen : BitVec 8) : State := s.setPort { s.port port with theirs := (s.port port).theirs ++ [(q, gen)] }

/-- Fewer than 2 lanes after 10 ms; the port returns DOWN. (R229) -/
def execLinkTrainingTimeout (port : Nat) (s : State) : Outcome :=
  let k := s.port port
  if 35 < port ∨ k.state ≠ .training then .refused .notDue else .next (s.setPort { k with state := .down, lanes := 0 })

/-- An UP port loses a lane and becomes DEGRADED. (R229) -/
def execLinkLaneLost (port lanes : Nat) (s : State) : Outcome :=
  let k := s.port port
  if 35 < port ∨ k.state ≠ .up ∨ lanes < 2 ∨ 3 < lanes then .refused .notDue else .next (s.setPort { k with state := .degraded, lanes })

/-- A port leaves the usable set and its outstanding operations fail. (R231) -/
def execLinkDown (port : Nat) (s : State) : Outcome :=
  if 35 < port ∨ !(s.port port).usable then .refused .notDue else .next (s.lose port .down)

/-- A flit fails its CRC and is replayed. (R228) -/
def execFlitCrcError (port : Nat) (s : State) : Outcome :=
  let k := s.port port
  if 35 < port ∨ !k.usable then .refused .notDue
  else if 7 ≤ k.fails then .next (s.lose port .down)
  else .next (s.setPort { k with fails := k.fails + 1, replays := min 65535 (k.replays + 1) })

/-! ## Operations from other devices (R73, R162) -/

/-- What an operation from another device does at its home L2; one on poisoned data leaves it as it is (R176). -/
def State.remoteOp (s : State) (a : Nat) (op : RemoteOp) : State :=
  let rmw (size : Nat) (f : BitVec 64 → BitVec 64) : State :=
    if s.poisonedAt a size then s else s.store a (leBytes (f (BitVec.ofNat 64 (leNat (s.mem.readBytes a size)))).toNat size)
  match op with
  | .load _ => s
  | .store bs => s.store a bs
  | .atomic o wide v => let n := if wide then 8 else 4; rmw n (atomStep n o.toNat v)
  | .cas wide e v => let n := if wide then 8 else 4; rmw n (casStep n e v)
  | .signal add v => rmw 8 fun old => if add then old + v else v

/-- A remote operation arrives and is performed or dropped by QGEN. (R73) -/
def execRemoteOpArrive (src q : Nat) (gen : BitVec 8) (addr : BitVec 56) (op : RemoteOp) (s : State) : Outcome :=
  let drops := match op with | .load _ => false | _ => !s.dev.gensIn.contains ⟨src, q, gen⟩
  if s.place addr.toNat ≠ .local then .refused .notDue
  else .next (if drops then s else s.remoteOp addr.toNat op)

/-- A generation notice arrives and sets the held QGEN. (R73) -/
def execGenerationNotice (src q : Nat) (gen : BitVec 8) (s : State) : Outcome :=
  .next (s.setDev fun d => { d with gensIn := putGeneration d.gensIn ⟨src, q, gen⟩ })

/-- The acknowledgement of a generation notice returns to the source device, which may then send the remote operations of that generation. (R73) -/
def execGenerationNoticeAck (dev q : Nat) (gen : BitVec 8) (s : State) : Outcome :=
  if !s.dev.gensSent.contains ⟨dev, q, gen⟩ then .refused .notDue else .next (s.acknowledge ⟨dev, q, gen⟩).drainSalt

/-! ## The CXL host port (R234, R236) -/

/-- The physical address of a host offset. -/
def State.hdm (s : State) (o : Nat) : Nat := s.dev.devnum * 2 ^ 42 + o

/-- An access of the host that meets a hole is reported by a record of KIND 0x05; the spec does not say in whose fault log, nor
with what CODE (notes/assumptions/28.md). -/
def State.holeRecord (s : State) : State :=
  let (k, t) := s.free
  let cs := (List.range 64).filter t.usable
  match cs[k % cs.length]? with
  | some c => t.recordOpen c { kind := 5, code := 0 }
  | none => t

def holeIn (offset len : Nat) : Bool := (List.range len).any fun i => !localMapped (offset + i)

/-- Whether the host reaches memory through CXL.mem (R234, R395): it has negotiated CXL, and the module is READY. -/
def State.cxlMem (s : State) (offset len : Nat) : Bool := s.dev.devstate = .ready && s.dev.cxl && decide (offset + len ≤ 2 ^ 42)

/-- What a read returns: the bytes at the offset, or data marked poisoned, whose value is free, where a hole or a poisoned byte is read
(R176, R236). -/
def State.cxlReturn (s : State) (offset len : Nat) : State :=
  if holeIn offset len || s.poisonedAt (s.hdm offset) len then
    let (k, t) := s.free
    t.setDev fun d => { d with cxlData := leBytes k len, cxlPoison := true }
  else s.setDev fun d => { d with cxlData := s.mem.readBytes (s.hdm offset) len, cxlPoison := false }


/-- A host CXL.mem read performed at the home L2. (R236) -/
def execCxlMemRead (offset len : Nat) (s : State) : Outcome :=
  if !s.cxlMem offset len then .refused .notDue
  else .next (let t := s.cxlReturn offset len; if holeIn offset len then t.holeRecord else t)

/-- A host CXL.mem write performed at the home L2. (R236) -/
def execCxlMemWrite (offset : Nat) (bytes : List (BitVec 8)) (s : State) : Outcome :=
  if !s.cxlMem offset bytes.length then .refused .notDue
  else
    let t := bytes.zipIdx.foldl (fun s (b, i) => if localMapped (offset + i) then s.store (s.hdm (offset + i)) [b] else s) s
    .next (if holeIn offset bytes.length then t.holeRecord else t)

/-- A host snoop answered with no data; a host that has not negotiated CXL makes none. (R234) -/
def execCxlSnoop (_addr : BitVec 56) (s : State) : Outcome :=
  if s.dev.cxl then .next s else .refused .notDue

end Sys2Proof.Machine
end

