-- ==== Sys2Proof/Machine/Dispatch.lean ====
section
/-! DEFINITION. The dispatch: one arm for each constructor of Instr. -/
namespace Sys2Proof.Machine
open Sys2Proof

def exec (i : Instr) (s : State) : Host.Outcome State Fault Refusal :=
  match i with
  | .iadd b a d => Sys2Proof.Machine.execIadd b a d s
  | .isub b a d => Sys2Proof.Machine.execIsub b a d s
  | .imul b a d => Sys2Proof.Machine.execImul b a d s
  | .imulh b a d => Sys2Proof.Machine.execImulh b a d s
  | .imulhn b a d => Sys2Proof.Machine.execImulhn b a d s
  | .idiv b a d => Sys2Proof.Machine.execIdiv b a d s
  | .idivn b a d => Sys2Proof.Machine.execIdivn b a d s
  | .irem b a d => Sys2Proof.Machine.execIrem b a d s
  | .iremn b a d => Sys2Proof.Machine.execIremn b a d s
  | .imin b a d => Sys2Proof.Machine.execImin b a d s
  | .iminn b a d => Sys2Proof.Machine.execIminn b a d s
  | .imax b a d => Sys2Proof.Machine.execImax b a d s
  | .imaxn b a d => Sys2Proof.Machine.execImaxn b a d s
  | .and b a d => Sys2Proof.Machine.execAnd b a d s
  | .or b a d => Sys2Proof.Machine.execOr b a d s
  | .xor b a d => Sys2Proof.Machine.execXor b a d s
  | .andn b a d => Sys2Proof.Machine.execAndn b a d s
  | .shl b a d => Sys2Proof.Machine.execShl b a d s
  | .shr b a d => Sys2Proof.Machine.execShr b a d s
  | .shra b a d => Sys2Proof.Machine.execShra b a d s
  | .rotl b a d => Sys2Proof.Machine.execRotl b a d s
  | .bfx b a d => Sys2Proof.Machine.execBfx b a d s
  | .bilv2 b a d => Sys2Proof.Machine.execBilv2 b a d s
  | .bdil2 b a d => Sys2Proof.Machine.execBdil2 b a d s
  | .clz b a d => Sys2Proof.Machine.execClz b a d s
  | .popc b a d => Sys2Proof.Machine.execPopc b a d s
  | .brev b a d => Sys2Proof.Machine.execBrev b a d s
  | .iabs b a d => Sys2Proof.Machine.execIabs b a d s
  | .sext b a d => Sys2Proof.Machine.execSext b a d s
  | .iaddd b a d => Sys2Proof.Machine.execIaddd b a d s
  | .isubd b a d => Sys2Proof.Machine.execIsubd b a d s
  | .shrd b a d => Sys2Proof.Machine.execShrd b a d s
  | .fadd b a d => Sys2Proof.Machine.execFadd b a d s
  | .fsub b a d => Sys2Proof.Machine.execFsub b a d s
  | .fmul b a d => Sys2Proof.Machine.execFmul b a d s
  | .fmin b a d => Sys2Proof.Machine.execFmin b a d s
  | .fmax b a d => Sys2Proof.Machine.execFmax b a d s
  | .fdiv b a d => Sys2Proof.Machine.execFdiv b a d s
  | .frcp b a d => Sys2Proof.Machine.execFrcp b a d s
  | .frsq b a d => Sys2Proof.Machine.execFrsq b a d s
  | .fsqrt b a d => Sys2Proof.Machine.execFsqrt b a d s
  | .fexp2 b a d => Sys2Proof.Machine.execFexp2 b a d s
  | .flog2 b a d => Sys2Proof.Machine.execFlog2 b a d s
  | .fsinpi b a d => Sys2Proof.Machine.execFsinpi b a d s
  | .fcospi b a d => Sys2Proof.Machine.execFcospi b a d s
  | .ftanh b a d => Sys2Proof.Machine.execFtanh b a d s
  | .frndn b a d => Sys2Proof.Machine.execFrndn b a d s
  | .frndz b a d => Sys2Proof.Machine.execFrndz b a d s
  | .ffloor b a d => Sys2Proof.Machine.execFfloor b a d s
  | .fceil b a d => Sys2Proof.Machine.execFceil b a d s
  | .fneg b a d => Sys2Proof.Machine.execFneg b a d s
  | .fabs b a d => Sys2Proof.Machine.execFabs b a d s
  | .fcpys b a d => Sys2Proof.Machine.execFcpys b a d s
  | .hadd2 b a d => Sys2Proof.Machine.execHadd2 b a d s
  | .hsub2 b a d => Sys2Proof.Machine.execHsub2 b a d s
  | .hmul2 b a d => Sys2Proof.Machine.execHmul2 b a d s
  | .hmin2 b a d => Sys2Proof.Machine.execHmin2 b a d s
  | .hmax2 b a d => Sys2Proof.Machine.execHmax2 b a d s
  | .badd2 b a d => Sys2Proof.Machine.execBadd2 b a d s
  | .bmul2 b a d => Sys2Proof.Machine.execBmul2 b a d s
  | .ffrac b a d => Sys2Proof.Machine.execFfrac b a d s
  | .fscalb b a d => Sys2Proof.Machine.execFscalb b a d s
  | .fgete b a d => Sys2Proof.Machine.execFgete b a d s
  | .iaddk k a d => Sys2Proof.Machine.execIaddk k a d s
  | .imulk k a d => Sys2Proof.Machine.execImulk k a d s
  | .andk k a d => Sys2Proof.Machine.execAndk k a d s
  | .ork k a d => Sys2Proof.Machine.execOrk k a d s
  | .xork k a d => Sys2Proof.Machine.execXork k a d s
  | .shlk k a d => Sys2Proof.Machine.execShlk k a d s
  | .shrk k a d => Sys2Proof.Machine.execShrk k a d s
  | .shrak k a d => Sys2Proof.Machine.execShrak k a d s
  | .imink k a d => Sys2Proof.Machine.execImink k a d s
  | .imaxk k a d => Sys2Proof.Machine.execImaxk k a d s
  | .icmpeqk k a p => Sys2Proof.Machine.execIcmpeqk k a p s
  | .icmpltk k a p => Sys2Proof.Machine.execIcmpltk k a p s
  | .faddk k a d => Sys2Proof.Machine.execFaddk k a d s
  | .fmulk k a d => Sys2Proof.Machine.execFmulk k a d s
  | .liml k d => Sys2Proof.Machine.execLiml k d s
  | .limh k d => Sys2Proof.Machine.execLimh k d s
  | .movk k a d => Sys2Proof.Machine.execMovk k a d s
  | .ffma b a d => Sys2Proof.Machine.execFfma b a d s
  | .ffms b a d => Sys2Proof.Machine.execFfms b a d s
  | .fnfma b a d => Sys2Proof.Machine.execFnfma b a d s
  | .hfma2 b a d => Sys2Proof.Machine.execHfma2 b a d s
  | .bfma2 b a d => Sys2Proof.Machine.execBfma2 b a d s
  | .imad b a d => Sys2Proof.Machine.execImad b a d s
  | .bilv3 b a d => Sys2Proof.Machine.execBilv3 b a d s
  | .bfi b a d => Sys2Proof.Machine.execBfi b a d s
  | .selP0 b a d => Sys2Proof.Machine.execSelP0 b a d s
  | .selP1 b a d => Sys2Proof.Machine.execSelP1 b a d s
  | .selP2 b a d => Sys2Proof.Machine.execSelP2 b a d s
  | .selP3 b a d => Sys2Proof.Machine.execSelP3 b a d s
  | .icmpeq b a p => Sys2Proof.Machine.execIcmpeq b a p s
  | .icmpne b a p => Sys2Proof.Machine.execIcmpne b a p s
  | .icmplt b a p => Sys2Proof.Machine.execIcmplt b a p s
  | .icmple b a p => Sys2Proof.Machine.execIcmple b a p s
  | .icmpltn b a p => Sys2Proof.Machine.execIcmpltn b a p s
  | .icmplen b a p => Sys2Proof.Machine.execIcmplen b a p s
  | .fcmpeq b a p => Sys2Proof.Machine.execFcmpeq b a p s
  | .fcmpne b a p => Sys2Proof.Machine.execFcmpne b a p s
  | .fcmplt b a p => Sys2Proof.Machine.execFcmplt b a p s
  | .fcmple b a p => Sys2Proof.Machine.execFcmple b a p s
  | .fcmpun b a p => Sys2Proof.Machine.execFcmpun b a p s
  | .plop t y x p => Sys2Proof.Machine.execPlop t y x p s
  | .cvt m x t a d => Sys2Proof.Machine.execCvt m x t a d s
  | .cvt8 r t f p a d => Sys2Proof.Machine.execCvt8 r t f p a d s
  | .cvt8n f p a d => Sys2Proof.Machine.execCvt8n f p a d s
  | .movp b p d => Sys2Proof.Machine.execMovp b p d s
  | .sadd b a d => Sys2Proof.Machine.execSadd b a d s
  | .ssub b a d => Sys2Proof.Machine.execSsub b a d s
  | .smul b a d => Sys2Proof.Machine.execSmul b a d s
  | .smulh b a d => Sys2Proof.Machine.execSmulh b a d s
  | .smulhn b a d => Sys2Proof.Machine.execSmulhn b a d s
  | .sdiv b a d => Sys2Proof.Machine.execSdiv b a d s
  | .sdivn b a d => Sys2Proof.Machine.execSdivn b a d s
  | .srem b a d => Sys2Proof.Machine.execSrem b a d s
  | .sremn b a d => Sys2Proof.Machine.execSremn b a d s
  | .smin b a d => Sys2Proof.Machine.execSmin b a d s
  | .sminn b a d => Sys2Proof.Machine.execSminn b a d s
  | .smax b a d => Sys2Proof.Machine.execSmax b a d s
  | .smaxn b a d => Sys2Proof.Machine.execSmaxn b a d s
  | .sand b a d => Sys2Proof.Machine.execSand b a d s
  | .sor b a d => Sys2Proof.Machine.execSor b a d s
  | .sxor b a d => Sys2Proof.Machine.execSxor b a d s
  | .sshl b a d => Sys2Proof.Machine.execSshl b a d s
  | .sshr b a d => Sys2Proof.Machine.execSshr b a d s
  | .sshra b a d => Sys2Proof.Machine.execSshra b a d s
  | .sclz b a d => Sys2Proof.Machine.execSclz b a d s
  | .spopc b a d => Sys2Proof.Machine.execSpopc b a d s
  | .sbfx b a d => Sys2Proof.Machine.execSbfx b a d s
  | .smov b a d => Sys2Proof.Machine.execSmov b a d s
  | .slil k d => Sys2Proof.Machine.execSlil k d s
  | .slih k d => Sys2Proof.Machine.execSlih k d s
  | .saddd b a d => Sys2Proof.Machine.execSaddd b a d s
  | .ssubd b a d => Sys2Proof.Machine.execSsubd b a d s
  | .scmp b a => Sys2Proof.Machine.execScmp b a s
  | .srd b a d => Sys2Proof.Machine.execSrd b a d s
  | .swr b a => Sys2Proof.Machine.execSwr b a s
  | .wset b a n => Sys2Proof.Machine.execWset b a n s
  | .wadd b a n => Sys2Proof.Machine.execWadd b a n s
  | .ldb h x e o d => Sys2Proof.Machine.execLdb h x e o d s
  | .ldbs h x e o d => Sys2Proof.Machine.execLdbs h x e o d s
  | .ldh h x e o d => Sys2Proof.Machine.execLdh h x e o d s
  | .ldhs h x e o d => Sys2Proof.Machine.execLdhs h x e o d s
  | .ldw h x e o d => Sys2Proof.Machine.execLdw h x e o d s
  | .ldd h x e o d => Sys2Proof.Machine.execLdd h x e o d s
  | .ldq h x e o d => Sys2Proof.Machine.execLdq h x e o d s
  | .stb h x e o d => Sys2Proof.Machine.execStb h x e o d s
  | .sth h x e o d => Sys2Proof.Machine.execSth h x e o d s
  | .stw h x e o d => Sys2Proof.Machine.execStw h x e o d s
  | .std h x e o d => Sys2Proof.Machine.execStd h x e o d s
  | .stq h x e o d => Sys2Proof.Machine.execStq h x e o d s
  | .ldsw x o d => Sys2Proof.Machine.execLdsw x o d s
  | .ldsd x o d => Sys2Proof.Machine.execLdsd x o d s
  | .ldsq x o d => Sys2Proof.Machine.execLdsq x o d s
  | .stsw x o d => Sys2Proof.Machine.execStsw x o d s
  | .stsd x o d => Sys2Proof.Machine.execStsd x o d s
  | .stsq x o d => Sys2Proof.Machine.execStsq x o d s
  | .lduw h x e o d => Sys2Proof.Machine.execLduw h x e o d s
  | .ldud h x e o d => Sys2Proof.Machine.execLdud h x e o d s
  | .ldba h x e o d => Sys2Proof.Machine.execLdba h x e o d s
  | .stba h x e o d => Sys2Proof.Machine.execStba h x e o d s
  | .gath4 h x e o d => Sys2Proof.Machine.execGath4 h x e o d s
  | .pref h x e o => Sys2Proof.Machine.execPref h x e o s
  | .bra o => Sys2Proof.Machine.execBra o s
  | .brz o => Sys2Proof.Machine.execBrz o s
  | .brnz o => Sys2Proof.Machine.execBrnz o s
  | .brn o => Sys2Proof.Machine.execBrn o s
  | .brnn o => Sys2Proof.Machine.execBrnn o s
  | .brc o => Sys2Proof.Machine.execBrc o s
  | .brnc o => Sys2Proof.Machine.execBrnc o s
  | .brvP0 o => Sys2Proof.Machine.execBrvP0 o s
  | .brvP1 o => Sys2Proof.Machine.execBrvP1 o s
  | .brvP2 o => Sys2Proof.Machine.execBrvP2 o s
  | .brvP3 o => Sys2Proof.Machine.execBrvP3 o s
  | .brany o => Sys2Proof.Machine.execBrany o s
  | .brall o => Sys2Proof.Machine.execBrall o s
  | .bre o => Sys2Proof.Machine.execBre o s
  | .call o => Sys2Proof.Machine.execCall o s
  | .mov x d => Sys2Proof.Machine.execMov x d s
  | .iadd16 x d => Sys2Proof.Machine.execIadd16 x d s
  | .isub16 x d => Sys2Proof.Machine.execIsub16 x d s
  | .imul16 x d => Sys2Proof.Machine.execImul16 x d s
  | .and16 x d => Sys2Proof.Machine.execAnd16 x d s
  | .or16 x d => Sys2Proof.Machine.execOr16 x d s
  | .xor16 x d => Sys2Proof.Machine.execXor16 x d s
  | .shl16 x d => Sys2Proof.Machine.execShl16 x d s
  | .shr16 x d => Sys2Proof.Machine.execShr16 x d s
  | .shra16 x d => Sys2Proof.Machine.execShra16 x d s
  | .fadd16 x d => Sys2Proof.Machine.execFadd16 x d s
  | .fsub16 x d => Sys2Proof.Machine.execFsub16 x d s
  | .fmul16 x d => Sys2Proof.Machine.execFmul16 x d s
  | .fmin16 x d => Sys2Proof.Machine.execFmin16 x d s
  | .fmax16 x d => Sys2Proof.Machine.execFmax16 x d s
  | .sel16 x d => Sys2Proof.Machine.execSel16 x d s
  | .nop => Sys2Proof.Machine.execNop s
  | .exit => Sys2Proof.Machine.execExit s
  | .join => Sys2Proof.Machine.execJoin s
  | .ret => Sys2Proof.Machine.execRet s
  | .jmpi a => Sys2Proof.Machine.execJmpi a s
  | .yield => Sys2Proof.Machine.execYield s
  | .sleep a => Sys2Proof.Machine.execSleep a s
  | .waitc b p => Sys2Proof.Machine.execWaitc b p s
  | .idem => Sys2Proof.Machine.execIdem s
  | .scopeOpen a => Sys2Proof.Machine.execScopeOpen a s
  | .scopeClose => Sys2Proof.Machine.execScopeClose s
  | .emget k => Sys2Proof.Machine.execEmget k s
  | .emset b a => Sys2Proof.Machine.execEmset b a s
  | .emand b a => Sys2Proof.Machine.execEmand b a s
  | .trap c => Sys2Proof.Machine.execTrap c s
  | .rte => Sys2Proof.Machine.execRte s
  | .icinv b a => Sys2Proof.Machine.execIcinv b a s
  | .fence c x p => Sys2Proof.Machine.execFence c x p s
  | .stampBegin a => Sys2Proof.Machine.execStampBegin a s
  | .stampEnd a => Sys2Proof.Machine.execStampEnd a s
  | .mcfg b a => Sys2Proof.Machine.execMcfg b a s
  | .actLd b n => Sys2Proof.Machine.execActLd b n s
  | .badd b n => Sys2Proof.Machine.execBadd b n s
  | .bset k n => Sys2Proof.Machine.execBset k n s
  | .bget k n => Sys2Proof.Machine.execBget k n s
  | .wfence => Sys2Proof.Machine.execWfence s
  | .xshf b a d => Sys2Proof.Machine.execXshf b a d s
  | .xdn b a d => Sys2Proof.Machine.execXdn b a d s
  | .xup b a d => Sys2Proof.Machine.execXup b a d s
  | .xrot b a d => Sys2Proof.Machine.execXrot b a d s
  | .xbfly b a d => Sys2Proof.Machine.execXbfly b a d s
  | .xred o a d => Sys2Proof.Machine.execXred o a d s
  | .xscan e o a d => Sys2Proof.Machine.execXscan e o a d s
  | .xbal h p d => Sys2Proof.Machine.execXbal h p d s
  | .xbcast b a d => Sys2Proof.Machine.execXbcast b a d s
  | .xfirst a d => Sys2Proof.Machine.execXfirst a d s
  | .mma b a => Sys2Proof.Machine.execMma b a s
  | .accAlloc h => Sys2Proof.Machine.execAccAlloc h s
  | .accFree h => Sys2Proof.Machine.execAccFree h s
  | .accZero h => Sys2Proof.Machine.execAccZero h s
  | .accRd h a d => Sys2Proof.Machine.execAccRd h a d s
  | .accWr h a => Sys2Proof.Machine.execAccWr h a s
  | .accMask h a => Sys2Proof.Machine.execAccMask h a s
  | .accRowmax h d => Sys2Proof.Machine.execAccRowmax h d s
  | .accRowsum h d => Sys2Proof.Machine.execAccRowsum h d s
  | .accRowscl h a => Sys2Proof.Machine.execAccRowscl h a s
  | .fragLda a d => Sys2Proof.Machine.execFragLda a d s
  | .fragLdb a d => Sys2Proof.Machine.execFragLdb a d s
  | .fragLdas a d => Sys2Proof.Machine.execFragLdas a d s
  | .fragLdbs a d => Sys2Proof.Machine.execFragLdbs a d s
  | .permLd n a => Sys2Proof.Machine.execPermLd n a s
  | .permLdg n a => Sys2Proof.Machine.execPermLdg n a s
  | .permId n => Sys2Proof.Machine.execPermId n s
  | .permInv m n => Sys2Proof.Machine.execPermInv m n s
  | .permCmp m n k => Sys2Proof.Machine.execPermCmp m n k s
  | .permRnd n a => Sys2Proof.Machine.execPermRnd n a s
  | .permPack n k => Sys2Proof.Machine.execPermPack n k s
  | .permApply n a d => Sys2Proof.Machine.execPermApply n a d s
  | .permSt n a => Sys2Proof.Machine.execPermSt n a s
  | .permCyc n d => Sys2Proof.Machine.execPermCyc n d s
  | .permAcc n h => Sys2Proof.Machine.execPermAcc n h s
  | .atom32 v a x e => Sys2Proof.Machine.execAtom32 v a x e s
  | .atom64 v a x e => Sys2Proof.Machine.execAtom64 v a x e s
  | .atoms v a x => Sys2Proof.Machine.execAtoms v a x s
  | .cas v a w x e => Sys2Proof.Machine.execCas v a w x e s
  | .ringInit a => Sys2Proof.Machine.execRingInit a s
  | .ringWait b a => Sys2Proof.Machine.execRingWait b a s
  | .ringRel b a => Sys2Proof.Machine.execRingRel b a s
  | .ringStat b a => Sys2Proof.Machine.execRingStat b a s
  | .barInit b a => Sys2Proof.Machine.execBarInit b a s
  | .barArrive a => Sys2Proof.Machine.execBarArrive a s
  | .barWait b a => Sys2Proof.Machine.execBarWait b a s
  | .barStat a => Sys2Proof.Machine.execBarStat a s
  | .barSync a => Sys2Proof.Machine.execBarSync a s
  | .xcopyIn k n a => Sys2Proof.Machine.execXcopyIn k n a s
  | .xcopyOut k n a => Sys2Proof.Machine.execXcopyOut k n a s
  | .xcopyCommit k n a => Sys2Proof.Machine.execXcopyCommit k n a s
  | .xcopyRows k n a => Sys2Proof.Machine.execXcopyRows k n a s
  | .mqSend q a => Sys2Proof.Machine.execMqSend q a s
  | .mqRecv q a d => Sys2Proof.Machine.execMqRecv q a d s
  | .mqPop q a => Sys2Proof.Machine.execMqPop q a s
  | .tagLook a => Sys2Proof.Machine.execTagLook a s
  | .tagSet b a => Sys2Proof.Machine.execTagSet b a s
  | .tagClr a => Sys2Proof.Machine.execTagClr a s
  | .tagInv => Sys2Proof.Machine.execTagInv s
  | .ssetInit k n a => Sys2Proof.Machine.execSsetInit k n a s
  | .ssetAdd b a => Sys2Proof.Machine.execSsetAdd b a s
  | .ssetBuild a => Sys2Proof.Machine.execSsetBuild a s
  | .ssetBind a => Sys2Proof.Machine.execSsetBind a s
  | .ssetUnbind a => Sys2Proof.Machine.execSsetUnbind a s
  | .ssetFree a => Sys2Proof.Machine.execSsetFree a s
  | .ssetQuery n a => Sys2Proof.Machine.execSsetQuery n a s
  | .rastEmit k n a => Sys2Proof.Machine.execRastEmit k n a s
  | .rastDraw k n => Sys2Proof.Machine.execRastDraw k n s
  | .rastSin n => Sys2Proof.Machine.execRastSin n s
  | .rastSout b a => Sys2Proof.Machine.execRastSout b a s
  | .rastSkip => Sys2Proof.Machine.execRastSkip s
  | .treemask h a d => Sys2Proof.Machine.execTreemask h a d s
  | .privTeamgo k n a => Sys2Proof.Machine.execPrivTeamgo k n a s
  | .privTeamdone => Sys2Proof.Machine.execPrivTeamdone s
  | .privAgsleep a => Sys2Proof.Machine.execPrivAgsleep a s
  | .privWkpop k => Sys2Proof.Machine.execPrivWkpop k s
  | .dbgTracew b a => Sys2Proof.Machine.execDbgTracew b a s
  | .dbgPcsmp a => Sys2Proof.Machine.execDbgPcsmp a s
  | .ordInit b a => Sys2Proof.Machine.execOrdInit b a s
  | .ordEnter b a => Sys2Proof.Machine.execOrdEnter b a s
  | .ordTry b a => Sys2Proof.Machine.execOrdTry b a s
  | .ordWait b a => Sys2Proof.Machine.execOrdWait b a s
  | .ordLeave b a => Sys2Proof.Machine.execOrdLeave b a s
  | .ordLeavev b a => Sys2Proof.Machine.execOrdLeavev b a s
  | .ordQuery a => Sys2Proof.Machine.execOrdQuery a s
  | .identRead => Sys2Proof.Machine.execIdentRead s
  | .attest => Sys2Proof.Machine.execAttest s
  | .slotWrite => Sys2Proof.Machine.execSlotWrite s
  | .authRecovery => Sys2Proof.Machine.execAuthRecovery s
  | .devReset => Sys2Proof.Machine.execDevReset s
  | .powerSet => Sys2Proof.Machine.execPowerSet s
  | .powerCap => Sys2Proof.Machine.execPowerCap s
  | .tickstop => Sys2Proof.Machine.execTickstop s
  | .stopStatus => Sys2Proof.Machine.execStopStatus s
  | .ctxDefine => Sys2Proof.Machine.execCtxDefine s
  | .ctxAdmit => Sys2Proof.Machine.execCtxAdmit s
  | .ctxSave => Sys2Proof.Machine.execCtxSave s
  | .ctxRestore => Sys2Proof.Machine.execCtxRestore s
  | .ctxRelease => Sys2Proof.Machine.execCtxRelease s
  | .ctxPrio => Sys2Proof.Machine.execCtxPrio s
  | .ctxQuery => Sys2Proof.Machine.execCtxQuery s
  | .ctxFail => Sys2Proof.Machine.execCtxFail s
  | .queueMap => Sys2Proof.Machine.execQueueMap s
  | .queueReset => Sys2Proof.Machine.execQueueReset s
  | .queueUnmap => Sys2Proof.Machine.execQueueUnmap s
  | .launchQuery => Sys2Proof.Machine.execLaunchQuery s
  | .tlbInval => Sys2Proof.Machine.execTlbInval s
  | .pageResume => Sys2Proof.Machine.execPageResume s
  | .pageFail => Sys2Proof.Machine.execPageFail s
  | .linkEnable => Sys2Proof.Machine.execLinkEnable s
  | .linkFence => Sys2Proof.Machine.execLinkFence s
  | .linkUnfence => Sys2Proof.Machine.execLinkUnfence s
  | .linkSetup => Sys2Proof.Machine.execLinkSetup s
  | .trapSetup => Sys2Proof.Machine.execTrapSetup s
  | .traceSetup => Sys2Proof.Machine.execTraceSetup s
  | .pcbpSet => Sys2Proof.Machine.execPcbpSet s
  | .pcsampleSetup => Sys2Proof.Machine.execPcsampleSetup s
  | .dbgList => Sys2Proof.Machine.execDbgList s
  | .dbgRead => Sys2Proof.Machine.execDbgRead s
  | .dbgWrite => Sys2Proof.Machine.execDbgWrite s
  | .dbgResume => Sys2Proof.Machine.execDbgResume s
  | .mbCmdUnlisted opcode => Sys2Proof.Machine.execMbCmdUnlisted opcode s
  | .mbStatusWrite v => Sys2Proof.Machine.execMbStatusWrite v s
  | .tflagsWrite v => Sys2Proof.Machine.execTflagsWrite v s
  | .bar2Write offset v => Sys2Proof.Machine.execBar2Write offset v s
  | .registerWrite offset v => Sys2Proof.Machine.execRegisterWrite offset v s
  | .queuePoll q => Sys2Proof.Machine.execQueuePoll q s
  | .launch q => Sys2Proof.Machine.execLaunch q s
  | .draw q => Sys2Proof.Machine.execDraw q s
  | .signal q => Sys2Proof.Machine.execSignal q s
  | .waitv q => Sys2Proof.Machine.execWaitv q s
  | .codesync q => Sys2Proof.Machine.execCodesync q s
  | .prio q => Sys2Proof.Machine.execPrio q s
  | .mark q => Sys2Proof.Machine.execMark q s
  | .pad q => Sys2Proof.Machine.execPad q s
  | .packetComplete q n => Sys2Proof.Machine.execPacketComplete q n s
  | .waitvPoll q => Sys2Proof.Machine.execWaitvPoll q s
  | .waitvTimeout q => Sys2Proof.Machine.execWaitvTimeout q s
  | .launchClaim launch => Sys2Proof.Machine.execLaunchClaim launch s
  | .teamComplete team => Sys2Proof.Machine.execTeamComplete team s
  | .groupRetire g => Sys2Proof.Machine.execGroupRetire g s
  | .groupKill g => Sys2Proof.Machine.execGroupKill g s
  | .loadFill g op => Sys2Proof.Machine.execLoadFill g op s
  | .pathOpComplete g op => Sys2Proof.Machine.execPathOpComplete g op s
  | .promotion g ent => Sys2Proof.Machine.execPromotion g ent s
  | .sleepWake g ent => Sys2Proof.Machine.execSleepWake g ent s
  | .accStarve core part => Sys2Proof.Machine.execAccStarve core part s
  | .ordTimeout g ent => Sys2Proof.Machine.execOrdTimeout g ent s
  | .migratingRetry g ent => Sys2Proof.Machine.execMigratingRetry g ent s
  | .rollback g ent reg => Sys2Proof.Machine.execRollback g ent reg s
  | .trapEntry g => Sys2Proof.Machine.execTrapEntry g s
  | .icacheLineFill g ent line => Sys2Proof.Machine.execIcacheLineFill g ent line s
  | .solveDone core => Sys2Proof.Machine.execSolveDone core s
  | .bankZeroDone core part bank => Sys2Proof.Machine.execBankZeroDone core part bank s
  | .bankScrubDone core part bank pass => Sys2Proof.Machine.execBankScrubDone core part bank pass s
  | .xcopyStart core cmd => Sys2Proof.Machine.execXcopyStart core cmd s
  | .sluiceChunk core cmd => Sys2Proof.Machine.execSluiceChunk core cmd s
  | .xcopyEnd core cmd => Sys2Proof.Machine.execXcopyEnd core cmd s
  | .mqDeliver core q => Sys2Proof.Machine.execMqDeliver core q s
  | .ssetBuildEnd ctx handle => Sys2Proof.Machine.execSsetBuildEnd ctx handle s
  | .rasterStageJob draw job => Sys2Proof.Machine.execRasterStageJob draw job s
  | .unitPublish draw unit => Sys2Proof.Machine.execUnitPublish draw unit s
  | .drawRelease draw => Sys2Proof.Machine.execDrawRelease draw s
  | .keyAbandon ctx key => Sys2Proof.Machine.execKeyAbandon ctx key s
  | .groupPreempt g => Sys2Proof.Machine.execGroupPreempt g s
  | .coreRestore core ctx => Sys2Proof.Machine.execCoreRestore core ctx s
  | .ctxSaveDone ctx => Sys2Proof.Machine.execCtxSaveDone ctx s
  | .ctxRestoreDone ctx => Sys2Proof.Machine.execCtxRestoreDone ctx s
  | .ctxReleaseDone ctx => Sys2Proof.Machine.execCtxReleaseDone ctx s
  | .queueResetDone q => Sys2Proof.Machine.execQueueResetDone q s
  | .tlbInvalDone => Sys2Proof.Machine.execTlbInvalDone s
  | .prioUpdateApply core ctx => Sys2Proof.Machine.execPrioUpdateApply core ctx s
  | .remoteOpArrive src q gen addr op => Sys2Proof.Machine.execRemoteOpArrive src q gen addr op s
  | .generationNotice src q gen => Sys2Proof.Machine.execGenerationNotice src q gen s
  | .linkTrainingStart port => Sys2Proof.Machine.execLinkTrainingStart port s
  | .linkTrained port lanes peer => Sys2Proof.Machine.execLinkTrained port lanes peer s
  | .linkTrainingTimeout port => Sys2Proof.Machine.execLinkTrainingTimeout port s
  | .linkLaneLost port lanes => Sys2Proof.Machine.execLinkLaneLost port lanes s
  | .linkDown port => Sys2Proof.Machine.execLinkDown port s
  | .flitCrcError port => Sys2Proof.Machine.execFlitCrcError port s
  | .cxlMemRead offset len => Sys2Proof.Machine.execCxlMemRead offset len s
  | .cxlMemWrite offset bytes => Sys2Proof.Machine.execCxlMemWrite offset bytes s
  | .cxlSnoop addr => Sys2Proof.Machine.execCxlSnoop addr s
  | .resetRelease => Sys2Proof.Machine.execResetRelease s
  | .powerLoss => Sys2Proof.Machine.execPowerLoss s
  | .telemetryUpdate mw temps => Sys2Proof.Machine.execTelemetryUpdate mw temps s
  | .thermalFailsafe => Sys2Proof.Machine.execThermalFailsafe s
  | .tickStop => Sys2Proof.Machine.execTickStop s
  | .pcSample core ctx => Sys2Proof.Machine.execPcSample core ctx s
  | .pcComparatorMatch index => Sys2Proof.Machine.execPcComparatorMatch index s
  | .agsleepWake core => Sys2Proof.Machine.execAgsleepWake core s
  | .reservedEncoding w => Sys2Proof.Machine.execReservedEncoding w s
  | .scanChainShift chain => Sys2Proof.Machine.execScanChainShift chain s
  | .directedCommandAck unit => Sys2Proof.Machine.execDirectedCommandAck unit s
  | .generationNoticeAck dev q gen => Sys2Proof.Machine.execGenerationNoticeAck dev q gen s

end Sys2Proof.Machine
end

