-- ==== Sys2Proof/WellFormed.lean ====
section
/-! DEFINITION. Well-formed instructions: the literal ranges that R240 step 2 checks beyond the fixed bits of a row
(R241, R247 to R251, R268, R265, R294, R300, R353, R368). -/
namespace Sys2Proof

/-- The precision codes a CVT8 or CVT8N may name (R247): 8 to 14 and 16 to 23. -/
def precOk (p : BitVec 5) : Bool := (8 ≤ p.toNat && p.toNat ≤ 14) || (16 ≤ p.toNat && p.toNat ≤ 23)

/-- The conversion pairs and modes of CVT (R247): 0→1, 0→2, 1→0, 2→0, 3→0, 4→0 with mode 0; 0→3 to 0→6 in any mode. -/
def Instr.cvtPairOk (m : BitVec 2) (s t : BitVec 3) : Bool :=
  (s.toNat = 0 && 3 ≤ t.toNat && t.toNat ≤ 6) ||
  (m.toNat = 0 && ((s.toNat = 0 && (t.toNat = 1 || t.toNat = 2)) ||
    ((s.toNat = 1 || s.toNat = 2 || s.toNat = 3 || s.toNat = 4) && t.toNat = 0)))

/-- Every literal of the instruction lies in its stated set; a row without such a literal is always well formed. -/
def Instr.wf : Instr → Bool
  | .iadd _ _ _ => true
  | .isub _ _ _ => true
  | .imul _ _ _ => true
  | .imulh _ _ _ => true
  | .imulhn _ _ _ => true
  | .idiv _ _ _ => true
  | .idivn _ _ _ => true
  | .irem _ _ _ => true
  | .iremn _ _ _ => true
  | .imin _ _ _ => true
  | .iminn _ _ _ => true
  | .imax _ _ _ => true
  | .imaxn _ _ _ => true
  | .and _ _ _ => true
  | .or _ _ _ => true
  | .xor _ _ _ => true
  | .andn _ _ _ => true
  | .shl _ _ _ => true
  | .shr _ _ _ => true
  | .shra _ _ _ => true
  | .rotl _ _ _ => true
  | .bfx _ _ _ => true
  | .bilv2 _ _ _ => true
  | .bdil2 _ _ _ => true
  | .clz _ _ _ => true
  | .popc _ _ _ => true
  | .brev _ _ _ => true
  | .iabs _ _ _ => true
  | .sext _ _ _ => true
  | .iaddd _ _ _ => true
  | .isubd _ _ _ => true
  | .shrd _ _ _ => true
  | .fadd _ _ _ => true
  | .fsub _ _ _ => true
  | .fmul _ _ _ => true
  | .fmin _ _ _ => true
  | .fmax _ _ _ => true
  | .fdiv _ _ _ => true
  | .frcp _ _ _ => true
  | .frsq _ _ _ => true
  | .fsqrt _ _ _ => true
  | .fexp2 _ _ _ => true
  | .flog2 _ _ _ => true
  | .fsinpi _ _ _ => true
  | .fcospi _ _ _ => true
  | .ftanh _ _ _ => true
  | .frndn _ _ _ => true
  | .frndz _ _ _ => true
  | .ffloor _ _ _ => true
  | .fceil _ _ _ => true
  | .fneg _ _ _ => true
  | .fabs _ _ _ => true
  | .fcpys _ _ _ => true
  | .hadd2 _ _ _ => true
  | .hsub2 _ _ _ => true
  | .hmul2 _ _ _ => true
  | .hmin2 _ _ _ => true
  | .hmax2 _ _ _ => true
  | .badd2 _ _ _ => true
  | .bmul2 _ _ _ => true
  | .ffrac _ _ _ => true
  | .fscalb _ _ _ => true
  | .fgete _ _ _ => true
  | .iaddk _ _ _ => true
  | .imulk _ _ _ => true
  | .andk _ _ _ => true
  | .ork _ _ _ => true
  | .xork _ _ _ => true
  | .shlk _ _ _ => true
  | .shrk _ _ _ => true
  | .shrak _ _ _ => true
  | .imink _ _ _ => true
  | .imaxk _ _ _ => true
  | .icmpeqk _ _ _ => true
  | .icmpltk _ _ _ => true
  | .faddk _ _ _ => true
  | .fmulk _ _ _ => true
  | .liml _ _ => true
  | .limh _ _ => true
  | .movk _ _ _ => true
  | .ffma _ _ _ => true
  | .ffms _ _ _ => true
  | .fnfma _ _ _ => true
  | .hfma2 _ _ _ => true
  | .bfma2 _ _ _ => true
  | .imad _ _ _ => true
  | .bilv3 _ _ _ => true
  | .bfi _ _ _ => true
  | .selP0 _ _ _ => true
  | .selP1 _ _ _ => true
  | .selP2 _ _ _ => true
  | .selP3 _ _ _ => true
  | .icmpeq _ _ _ => true
  | .icmpne _ _ _ => true
  | .icmplt _ _ _ => true
  | .icmple _ _ _ => true
  | .icmpltn _ _ _ => true
  | .icmplen _ _ _ => true
  | .fcmpeq _ _ _ => true
  | .fcmpne _ _ _ => true
  | .fcmplt _ _ _ => true
  | .fcmple _ _ _ => true
  | .fcmpun _ _ _ => true
  | .plop _ _ _ _ => true
  | .cvt m s t _ _ => Instr.cvtPairOk m s t
  | .cvt8 _ _ _ p _ _ => precOk p
  | .cvt8n _ p _ _ => precOk p
  | .movp _ _ _ => true
  | .sadd _ _ _ => true
  | .ssub _ _ _ => true
  | .smul _ _ _ => true
  | .smulh _ _ _ => true
  | .smulhn _ _ _ => true
  | .sdiv _ _ _ => true
  | .sdivn _ _ _ => true
  | .srem _ _ _ => true
  | .sremn _ _ _ => true
  | .smin _ _ _ => true
  | .sminn _ _ _ => true
  | .smax _ _ _ => true
  | .smaxn _ _ _ => true
  | .sand _ _ _ => true
  | .sor _ _ _ => true
  | .sxor _ _ _ => true
  | .sshl _ _ _ => true
  | .sshr _ _ _ => true
  | .sshra _ _ _ => true
  | .sclz _ _ _ => true
  | .spopc _ _ _ => true
  | .sbfx _ _ _ => true
  | .smov _ _ _ => true
  | .slil _ _ => true
  | .slih _ _ => true
  | .saddd _ _ _ => true
  | .ssubd _ _ _ => true
  | .scmp _ _ => true
  | .srd _ _ _ => true
  | .swr _ _ => true
  | .wset _ _ _ => true
  | .wadd _ _ _ => true
  | .ldb h _ _ _ _ => h.toNat ≠ 3
  | .ldbs h _ _ _ _ => h.toNat ≠ 3
  | .ldh h _ _ _ _ => h.toNat ≠ 3
  | .ldhs h _ _ _ _ => h.toNat ≠ 3
  | .ldw h _ _ _ _ => h.toNat ≠ 3
  | .ldd h _ _ _ _ => h.toNat ≠ 3
  | .ldq h _ _ _ _ => h.toNat ≠ 3
  | .stb h _ _ _ _ => h.toNat ≠ 3
  | .sth h _ _ _ _ => h.toNat ≠ 3
  | .stw h _ _ _ _ => h.toNat ≠ 3
  | .std h _ _ _ _ => h.toNat ≠ 3
  | .stq h _ _ _ _ => h.toNat ≠ 3
  | .ldsw _ _ _ => true
  | .ldsd _ _ _ => true
  | .ldsq _ _ _ => true
  | .stsw _ _ _ => true
  | .stsd _ _ _ => true
  | .stsq _ _ _ => true
  | .lduw h _ _ _ _ => h.toNat ≠ 3
  | .ldud h _ _ _ _ => h.toNat ≠ 3
  | .ldba h _ _ _ _ => h.toNat ≠ 3
  | .stba h _ _ _ _ => h.toNat ≠ 3
  | .gath4 h _ _ _ _ => h.toNat ≠ 3
  | .pref h _ _ _ => h.toNat ≠ 3
  | .bra _ => true
  | .brz _ => true
  | .brnz _ => true
  | .brn _ => true
  | .brnn _ => true
  | .brc _ => true
  | .brnc _ => true
  | .brvP0 _ => true
  | .brvP1 _ => true
  | .brvP2 _ => true
  | .brvP3 _ => true
  | .brany _ => true
  | .brall _ => true
  | .bre _ => true
  | .call _ => true
  | .mov _ _ => true
  | .iadd16 _ _ => true
  | .isub16 _ _ => true
  | .imul16 _ _ => true
  | .and16 _ _ => true
  | .or16 _ _ => true
  | .xor16 _ _ => true
  | .shl16 _ _ => true
  | .shr16 _ _ => true
  | .shra16 _ _ => true
  | .fadd16 _ _ => true
  | .fsub16 _ _ => true
  | .fmul16 _ _ => true
  | .fmin16 _ _ => true
  | .fmax16 _ _ => true
  | .sel16 _ _ => true
  | .nop => true
  | .exit => true
  | .join => true
  | .ret => true
  | .jmpi _ => true
  | .yield => true
  | .sleep _ => true
  | .waitc _ p => p.toNat ≤ 5
  | .idem => true
  | .scopeOpen _ => true
  | .scopeClose => true
  | .emget k => k.toNat % 2 = 0 && k.toNat ≤ 62
  | .emset _ _ => true
  | .emand _ _ => true
  | .trap _ => true
  | .rte => true
  | .icinv _ _ => true
  | .fence _ s p => p.toNat ≠ 0 && s.toNat ≠ 7
  | .stampBegin _ => true
  | .stampEnd _ => true
  | .mcfg _ _ => true
  | .actLd _ _ => true
  | .badd _ _ => true
  | .bset k _ => k.toNat ≤ 61
  | .bget k _ => k.toNat ≤ 61
  | .wfence => true
  | .xshf _ _ _ => true
  | .xdn _ _ _ => true
  | .xup _ _ _ => true
  | .xrot _ _ _ => true
  | .xbfly _ _ _ => true
  | .xred o _ _ => o.toNat ≤ 10
  | .xscan _ o _ _ => o.toNat ≤ 10
  | .xbal _ _ _ => true
  | .xbcast _ _ _ => true
  | .xfirst _ _ => true
  | .mma _ _ => true
  | .accAlloc _ => true
  | .accFree _ => true
  | .accZero _ => true
  | .accRd _ _ _ => true
  | .accWr _ _ => true
  | .accMask _ _ => true
  | .accRowmax _ _ => true
  | .accRowsum _ _ => true
  | .accRowscl _ _ => true
  | .fragLda _ _ => true
  | .fragLdb _ _ => true
  | .fragLdas _ _ => true
  | .fragLdbs _ _ => true
  | .permLd _ _ => true
  | .permLdg _ _ => true
  | .permId _ => true
  | .permInv _ _ => true
  | .permCmp _ _ _ => true
  | .permRnd _ _ => true
  | .permPack _ _ => true
  | .permApply _ _ _ => true
  | .permSt _ _ => true
  | .permCyc _ _ => true
  | .permAcc _ _ => true
  | .atom32 _ _ _ _ => true
  | .atom64 _ _ _ _ => true
  | .atoms _ _ _ => true
  | .cas _ _ _ s e => s.toNat = 0 || (s.toNat = 1 && e.toNat = 0)
  | .ringInit _ => true
  | .ringWait _ _ => true
  | .ringRel _ _ => true
  | .ringStat _ _ => true
  | .barInit _ _ => true
  | .barArrive _ => true
  | .barWait _ _ => true
  | .barStat _ => true
  | .barSync _ => true
  | .xcopyIn _ _ _ => true
  | .xcopyOut _ _ _ => true
  | .xcopyCommit _ _ _ => true
  | .xcopyRows _ _ _ => true
  | .mqSend _ _ => true
  | .mqRecv _ _ _ => true
  | .mqPop _ _ => true
  | .tagLook _ => true
  | .tagSet _ _ => true
  | .tagClr _ => true
  | .tagInv => true
  | .ssetInit _ _ _ => true
  | .ssetAdd _ _ => true
  | .ssetBuild _ => true
  | .ssetBind _ => true
  | .ssetUnbind _ => true
  | .ssetFree _ => true
  | .ssetQuery _ _ => true
  | .rastEmit _ _ _ => true
  | .rastDraw _ _ => true
  | .rastSin n => n.toNat ≤ 10
  | .rastSout _ _ => true
  | .rastSkip => true
  | .treemask _ _ _ => true
  | .privTeamgo _ _ _ => true
  | .privTeamdone => true
  | .privAgsleep _ => true
  | .privWkpop k => k.toNat % 2 = 0 && k.toNat ≤ 60
  | .dbgTracew _ _ => true
  | .dbgPcsmp _ => true
  | .ordInit _ _ => true
  | .ordEnter _ _ => true
  | .ordTry _ _ => true
  | .ordWait _ _ => true
  | .ordLeave _ _ => true
  | .ordLeavev _ _ => true
  | .ordQuery _ => true
  | .identRead => true
  | .attest => true
  | .slotWrite => true
  | .authRecovery => true
  | .devReset => true
  | .powerSet => true
  | .powerCap => true
  | .tickstop => true
  | .stopStatus => true
  | .ctxDefine => true
  | .ctxAdmit => true
  | .ctxSave => true
  | .ctxRestore => true
  | .ctxRelease => true
  | .ctxPrio => true
  | .ctxQuery => true
  | .ctxFail => true
  | .queueMap => true
  | .queueReset => true
  | .queueUnmap => true
  | .launchQuery => true
  | .tlbInval => true
  | .pageResume => true
  | .pageFail => true
  | .linkEnable => true
  | .linkFence => true
  | .linkUnfence => true
  | .linkSetup => true
  | .trapSetup => true
  | .traceSetup => true
  | .pcbpSet => true
  | .pcsampleSetup => true
  | .dbgList => true
  | .dbgRead => true
  | .dbgWrite => true
  | .dbgResume => true
  | .mbCmdUnlisted _ => true
  | .mbStatusWrite _ => true
  | .tflagsWrite _ => true
  | .bar2Write _ _ => true
  | .registerWrite _ _ => true
  | .queuePoll _ => true
  | .launch _ => true
  | .draw _ => true
  | .signal _ => true
  | .waitv _ => true
  | .codesync _ => true
  | .prio _ => true
  | .mark _ => true
  | .pad _ => true
  | .packetComplete _ _ => true
  | .waitvPoll _ => true
  | .waitvTimeout _ => true
  | .launchClaim _ => true
  | .teamComplete _ => true
  | .groupRetire _ => true
  | .groupKill _ => true
  | .loadFill _ _ => true
  | .pathOpComplete _ _ => true
  | .promotion _ _ => true
  | .sleepWake _ _ => true
  | .accStarve _ _ => true
  | .ordTimeout _ _ => true
  | .migratingRetry _ _ => true
  | .rollback _ _ _ => true
  | .trapEntry _ => true
  | .icacheLineFill _ _ _ => true
  | .solveDone _ => true
  | .bankZeroDone _ _ _ => true
  | .bankScrubDone _ _ _ _ => true
  | .xcopyStart _ _ => true
  | .sluiceChunk _ _ => true
  | .xcopyEnd _ _ => true
  | .mqDeliver _ _ => true
  | .ssetBuildEnd _ _ => true
  | .rasterStageJob _ _ => true
  | .unitPublish _ _ => true
  | .drawRelease _ => true
  | .keyAbandon _ _ => true
  | .groupPreempt _ => true
  | .coreRestore _ _ => true
  | .ctxSaveDone _ => true
  | .ctxRestoreDone _ => true
  | .ctxReleaseDone _ => true
  | .queueResetDone _ => true
  | .tlbInvalDone => true
  | .prioUpdateApply _ _ => true
  | .remoteOpArrive _ _ _ _ _ => true
  | .generationNotice _ _ _ => true
  | .linkTrainingStart _ => true
  | .linkTrained _ _ _ => true
  | .linkTrainingTimeout _ => true
  | .linkLaneLost _ _ => true
  | .linkDown _ => true
  | .flitCrcError _ => true
  | .cxlMemRead _ _ => true
  | .cxlMemWrite _ _ => true
  | .cxlSnoop _ => true
  | .resetRelease => true
  | .powerLoss => true
  | .telemetryUpdate _ _ => true
  | .thermalFailsafe => true
  | .tickStop => true
  | .pcSample _ _ => true
  | .pcComparatorMatch _ => true
  | .agsleepWake _ => true
  | .reservedEncoding _ => true
  | .scanChainShift _ => true
  | .directedCommandAck _ => true
  | .generationNoticeAck _ _ _ => true

end Sys2Proof
end

