-- ==== Sys2Proof/Decode.lean ====
section
/-! DEFINITION. The decoder (16_encoding.md): total on any word, rejecting by name; after it the encoder, written from
the same encoding tables. A word is a natural number whose bit 0 is bit 0 of the instruction (R4, R237). -/
namespace Sys2Proof

/-- Why a word is no instruction (R240 step 2, R241 TDATA 0). -/
inductive DecodeError where
  /-- a reserved class opcode, family or sub-operation -/
  | reservedOpcode
  /-- a field that must hold a fixed value holds another -/
  | nonzeroField
  /-- a literal outside its stated set, or a reserved combination -/
  | literalRange
deriving DecidableEq, Repr

/-- The natural number in bits [lo+k-1:lo] of w. -/
def bits (w lo k : Nat) : Nat := w / 2 ^ lo % 2 ^ k

/-- The same bits as a field of an instruction. -/
def fld (w lo k : Nat) : BitVec k := BitVec.ofNat k (w / 2 ^ lo)

/-- The 16-bit form (R243): op in [4:1], D in [10:5], S in [15:11]; every pattern is an instruction. -/
def decode16 (w : Nat) : Except DecodeError Instr :=
  match bits w 1 4 with
  | 0 => .ok (.mov (fld w 11 5) (fld w 5 6))
  | 1 => .ok (.iadd16 (fld w 11 5) (fld w 5 6))
  | 2 => .ok (.isub16 (fld w 11 5) (fld w 5 6))
  | 3 => .ok (.imul16 (fld w 11 5) (fld w 5 6))
  | 4 => .ok (.and16 (fld w 11 5) (fld w 5 6))
  | 5 => .ok (.or16 (fld w 11 5) (fld w 5 6))
  | 6 => .ok (.xor16 (fld w 11 5) (fld w 5 6))
  | 7 => .ok (.shl16 (fld w 11 5) (fld w 5 6))
  | 8 => .ok (.shr16 (fld w 11 5) (fld w 5 6))
  | 9 => .ok (.shra16 (fld w 11 5) (fld w 5 6))
  | 10 => .ok (.fadd16 (fld w 11 5) (fld w 5 6))
  | 11 => .ok (.fsub16 (fld w 11 5) (fld w 5 6))
  | 12 => .ok (.fmul16 (fld w 11 5) (fld w 5 6))
  | 13 => .ok (.fmin16 (fld w 11 5) (fld w 5 6))
  | 14 => .ok (.fmax16 (fld w 11 5) (fld w 5 6))
  | _ => .ok (.sel16 (fld w 11 5) (fld w 5 6))

/-- Class 0 (R245): the opcode in [8:4]. -/
def decodeVI (w : Nat) : Except DecodeError Instr :=
  match bits w 4 5 with
  | 0 => .ok (.iadd (fld w 24 8) (fld w 16 8) (fld w 9 7))
  | 1 => .ok (.isub (fld w 24 8) (fld w 16 8) (fld w 9 7))
  | 2 => .ok (.imul (fld w 24 8) (fld w 16 8) (fld w 9 7))
  | 3 => .ok (.imulh (fld w 24 8) (fld w 16 8) (fld w 9 7))
  | 4 => .ok (.imulhn (fld w 24 8) (fld w 16 8) (fld w 9 7))
  | 5 => .ok (.idiv (fld w 24 8) (fld w 16 8) (fld w 9 7))
  | 6 => .ok (.idivn (fld w 24 8) (fld w 16 8) (fld w 9 7))
  | 7 => .ok (.irem (fld w 24 8) (fld w 16 8) (fld w 9 7))
  | 8 => .ok (.iremn (fld w 24 8) (fld w 16 8) (fld w 9 7))
  | 9 => .ok (.imin (fld w 24 8) (fld w 16 8) (fld w 9 7))
  | 10 => .ok (.iminn (fld w 24 8) (fld w 16 8) (fld w 9 7))
  | 11 => .ok (.imax (fld w 24 8) (fld w 16 8) (fld w 9 7))
  | 12 => .ok (.imaxn (fld w 24 8) (fld w 16 8) (fld w 9 7))
  | 13 => .ok (.and (fld w 24 8) (fld w 16 8) (fld w 9 7))
  | 14 => .ok (.or (fld w 24 8) (fld w 16 8) (fld w 9 7))
  | 15 => .ok (.xor (fld w 24 8) (fld w 16 8) (fld w 9 7))
  | 16 => .ok (.andn (fld w 24 8) (fld w 16 8) (fld w 9 7))
  | 17 => .ok (.shl (fld w 24 8) (fld w 16 8) (fld w 9 7))
  | 18 => .ok (.shr (fld w 24 8) (fld w 16 8) (fld w 9 7))
  | 19 => .ok (.shra (fld w 24 8) (fld w 16 8) (fld w 9 7))
  | 20 => .ok (.rotl (fld w 24 8) (fld w 16 8) (fld w 9 7))
  | 21 => .ok (.bfx (fld w 24 8) (fld w 16 8) (fld w 9 7))
  | 22 => .ok (.bilv2 (fld w 24 8) (fld w 16 8) (fld w 9 7))
  | 23 => .ok (.bdil2 (fld w 24 8) (fld w 16 8) (fld w 9 7))
  | 24 => .ok (.clz (fld w 24 8) (fld w 16 8) (fld w 9 7))
  | 25 => .ok (.popc (fld w 24 8) (fld w 16 8) (fld w 9 7))
  | 26 => .ok (.brev (fld w 24 8) (fld w 16 8) (fld w 9 7))
  | 27 => .ok (.iabs (fld w 24 8) (fld w 16 8) (fld w 9 7))
  | 28 => .ok (.sext (fld w 24 8) (fld w 16 8) (fld w 9 7))
  | 29 => .ok (.iaddd (fld w 24 8) (fld w 16 8) (fld w 9 7))
  | 30 => .ok (.isubd (fld w 24 8) (fld w 16 8) (fld w 9 7))
  | 31 => .ok (.shrd (fld w 24 8) (fld w 16 8) (fld w 9 7))
  | _ => .error .reservedOpcode

/-- Class 1 (R245): the opcode in [8:4]. -/
def decodeVF (w : Nat) : Except DecodeError Instr :=
  match bits w 4 5 with
  | 0 => .ok (.fadd (fld w 24 8) (fld w 16 8) (fld w 9 7))
  | 1 => .ok (.fsub (fld w 24 8) (fld w 16 8) (fld w 9 7))
  | 2 => .ok (.fmul (fld w 24 8) (fld w 16 8) (fld w 9 7))
  | 3 => .ok (.fmin (fld w 24 8) (fld w 16 8) (fld w 9 7))
  | 4 => .ok (.fmax (fld w 24 8) (fld w 16 8) (fld w 9 7))
  | 5 => .ok (.fdiv (fld w 24 8) (fld w 16 8) (fld w 9 7))
  | 6 => .ok (.frcp (fld w 24 8) (fld w 16 8) (fld w 9 7))
  | 7 => .ok (.frsq (fld w 24 8) (fld w 16 8) (fld w 9 7))
  | 8 => .ok (.fsqrt (fld w 24 8) (fld w 16 8) (fld w 9 7))
  | 9 => .ok (.fexp2 (fld w 24 8) (fld w 16 8) (fld w 9 7))
  | 10 => .ok (.flog2 (fld w 24 8) (fld w 16 8) (fld w 9 7))
  | 11 => .ok (.fsinpi (fld w 24 8) (fld w 16 8) (fld w 9 7))
  | 12 => .ok (.fcospi (fld w 24 8) (fld w 16 8) (fld w 9 7))
  | 13 => .ok (.ftanh (fld w 24 8) (fld w 16 8) (fld w 9 7))
  | 14 => .ok (.frndn (fld w 24 8) (fld w 16 8) (fld w 9 7))
  | 15 => .ok (.frndz (fld w 24 8) (fld w 16 8) (fld w 9 7))
  | 16 => .ok (.ffloor (fld w 24 8) (fld w 16 8) (fld w 9 7))
  | 17 => .ok (.fceil (fld w 24 8) (fld w 16 8) (fld w 9 7))
  | 18 => .ok (.fneg (fld w 24 8) (fld w 16 8) (fld w 9 7))
  | 19 => .ok (.fabs (fld w 24 8) (fld w 16 8) (fld w 9 7))
  | 20 => .ok (.fcpys (fld w 24 8) (fld w 16 8) (fld w 9 7))
  | 21 => .ok (.hadd2 (fld w 24 8) (fld w 16 8) (fld w 9 7))
  | 22 => .ok (.hsub2 (fld w 24 8) (fld w 16 8) (fld w 9 7))
  | 23 => .ok (.hmul2 (fld w 24 8) (fld w 16 8) (fld w 9 7))
  | 24 => .ok (.hmin2 (fld w 24 8) (fld w 16 8) (fld w 9 7))
  | 25 => .ok (.hmax2 (fld w 24 8) (fld w 16 8) (fld w 9 7))
  | 26 => .ok (.badd2 (fld w 24 8) (fld w 16 8) (fld w 9 7))
  | 27 => .ok (.bmul2 (fld w 24 8) (fld w 16 8) (fld w 9 7))
  | 28 => .ok (.ffrac (fld w 24 8) (fld w 16 8) (fld w 9 7))
  | 29 => .ok (.fscalb (fld w 24 8) (fld w 16 8) (fld w 9 7))
  | 30 => .ok (.fgete (fld w 24 8) (fld w 16 8) (fld w 9 7))
  | _ => .error .reservedOpcode

/-- Class 2 (R245): the opcode in [8:4]. -/
def decodeVK (w : Nat) : Except DecodeError Instr :=
  match bits w 4 5 with
  | 0 => .ok (.iaddk (fld w 24 8) (fld w 16 8) (fld w 9 7))
  | 1 => .ok (.imulk (fld w 24 8) (fld w 16 8) (fld w 9 7))
  | 2 => .ok (.andk (fld w 24 8) (fld w 16 8) (fld w 9 7))
  | 3 => .ok (.ork (fld w 24 8) (fld w 16 8) (fld w 9 7))
  | 4 => .ok (.xork (fld w 24 8) (fld w 16 8) (fld w 9 7))
  | 5 => if bits w 29 3 == 0 then .ok (.shlk (fld w 24 5) (fld w 16 8) (fld w 9 7)) else .error .nonzeroField
  | 6 => if bits w 29 3 == 0 then .ok (.shrk (fld w 24 5) (fld w 16 8) (fld w 9 7)) else .error .nonzeroField
  | 7 => if bits w 29 3 == 0 then .ok (.shrak (fld w 24 5) (fld w 16 8) (fld w 9 7)) else .error .nonzeroField
  | 8 => .ok (.imink (fld w 24 8) (fld w 16 8) (fld w 9 7))
  | 9 => .ok (.imaxk (fld w 24 8) (fld w 16 8) (fld w 9 7))
  | 10 => if bits w 11 5 == 0 then .ok (.icmpeqk (fld w 24 8) (fld w 16 8) (fld w 9 2)) else .error .nonzeroField
  | 11 => if bits w 11 5 == 0 then .ok (.icmpltk (fld w 24 8) (fld w 16 8) (fld w 9 2)) else .error .nonzeroField
  | 12 => .ok (.faddk (fld w 24 8) (fld w 16 8) (fld w 9 7))
  | 13 => .ok (.fmulk (fld w 24 8) (fld w 16 8) (fld w 9 7))
  | 14 => .ok (.liml (fld w 16 16) (fld w 9 7))
  | 15 => .ok (.limh (fld w 16 16) (fld w 9 7))
  | 16 => .ok (.movk (fld w 24 8) (fld w 16 8) (fld w 9 7))
  | _ => .error .reservedOpcode

/-- Class 3 (R245): the opcode in [8:4]. -/
def decodeVM (w : Nat) : Except DecodeError Instr :=
  match bits w 4 5 with
  | 0 => .ok (.ffma (fld w 24 8) (fld w 16 8) (fld w 9 7))
  | 1 => .ok (.ffms (fld w 24 8) (fld w 16 8) (fld w 9 7))
  | 2 => .ok (.fnfma (fld w 24 8) (fld w 16 8) (fld w 9 7))
  | 3 => .ok (.hfma2 (fld w 24 8) (fld w 16 8) (fld w 9 7))
  | 4 => .ok (.bfma2 (fld w 24 8) (fld w 16 8) (fld w 9 7))
  | 5 => .ok (.imad (fld w 24 8) (fld w 16 8) (fld w 9 7))
  | 6 => .ok (.bilv3 (fld w 24 8) (fld w 16 8) (fld w 9 7))
  | 7 => .ok (.bfi (fld w 24 8) (fld w 16 8) (fld w 9 7))
  | 8 => .ok (.selP0 (fld w 24 8) (fld w 16 8) (fld w 9 7))
  | 9 => .ok (.selP1 (fld w 24 8) (fld w 16 8) (fld w 9 7))
  | 10 => .ok (.selP2 (fld w 24 8) (fld w 16 8) (fld w 9 7))
  | 11 => .ok (.selP3 (fld w 24 8) (fld w 16 8) (fld w 9 7))
  | 12 => if bits w 11 5 == 0 then .ok (.icmpeq (fld w 24 8) (fld w 16 8) (fld w 9 2)) else .error .nonzeroField
  | 13 => if bits w 11 5 == 0 then .ok (.icmpne (fld w 24 8) (fld w 16 8) (fld w 9 2)) else .error .nonzeroField
  | 14 => if bits w 11 5 == 0 then .ok (.icmplt (fld w 24 8) (fld w 16 8) (fld w 9 2)) else .error .nonzeroField
  | 15 => if bits w 11 5 == 0 then .ok (.icmple (fld w 24 8) (fld w 16 8) (fld w 9 2)) else .error .nonzeroField
  | 16 => if bits w 11 5 == 0 then .ok (.icmpltn (fld w 24 8) (fld w 16 8) (fld w 9 2)) else .error .nonzeroField
  | 17 => if bits w 11 5 == 0 then .ok (.icmplen (fld w 24 8) (fld w 16 8) (fld w 9 2)) else .error .nonzeroField
  | 18 => if bits w 11 5 == 0 then .ok (.fcmpeq (fld w 24 8) (fld w 16 8) (fld w 9 2)) else .error .nonzeroField
  | 19 => if bits w 11 5 == 0 then .ok (.fcmpne (fld w 24 8) (fld w 16 8) (fld w 9 2)) else .error .nonzeroField
  | 20 => if bits w 11 5 == 0 then .ok (.fcmplt (fld w 24 8) (fld w 16 8) (fld w 9 2)) else .error .nonzeroField
  | 21 => if bits w 11 5 == 0 then .ok (.fcmple (fld w 24 8) (fld w 16 8) (fld w 9 2)) else .error .nonzeroField
  | 22 => if bits w 11 5 == 0 then .ok (.fcmpun (fld w 24 8) (fld w 16 8) (fld w 9 2)) else .error .nonzeroField
  | 23 => if bits w 11 5 == 0 && bits w 20 4 == 0 && bits w 28 4 == 0 then .ok (.plop (fld w 24 4) (fld w 18 2) (fld w 16 2) (fld w 9 2)) else .error .nonzeroField
  | 24 => .ok (.cvt (fld w 30 2) (fld w 27 3) (fld w 24 3) (fld w 16 8) (fld w 9 7))
  | 25 => .ok (.cvt8 (fld w 31 1) (fld w 30 1) (fld w 29 1) (fld w 24 5) (fld w 16 8) (fld w 9 7))
  | 26 => if bits w 30 2 == 0 then .ok (.cvt8n (fld w 29 1) (fld w 24 5) (fld w 16 8) (fld w 9 7)) else .error .nonzeroField
  | 27 => if bits w 18 6 == 0 then .ok (.movp (fld w 24 8) (fld w 16 2) (fld w 9 7)) else .error .nonzeroField
  | _ => .error .reservedOpcode

/-- Class 4 (R245): the opcode in [8:4]. -/
def decodeSC (w : Nat) : Except DecodeError Instr :=
  match bits w 4 5 with
  | 0 => .ok (.sadd (fld w 24 8) (fld w 16 8) (fld w 9 7))
  | 1 => .ok (.ssub (fld w 24 8) (fld w 16 8) (fld w 9 7))
  | 2 => .ok (.smul (fld w 24 8) (fld w 16 8) (fld w 9 7))
  | 3 => .ok (.smulh (fld w 24 8) (fld w 16 8) (fld w 9 7))
  | 4 => .ok (.smulhn (fld w 24 8) (fld w 16 8) (fld w 9 7))
  | 5 => .ok (.sdiv (fld w 24 8) (fld w 16 8) (fld w 9 7))
  | 6 => .ok (.sdivn (fld w 24 8) (fld w 16 8) (fld w 9 7))
  | 7 => .ok (.srem (fld w 24 8) (fld w 16 8) (fld w 9 7))
  | 8 => .ok (.sremn (fld w 24 8) (fld w 16 8) (fld w 9 7))
  | 9 => .ok (.smin (fld w 24 8) (fld w 16 8) (fld w 9 7))
  | 10 => .ok (.sminn (fld w 24 8) (fld w 16 8) (fld w 9 7))
  | 11 => .ok (.smax (fld w 24 8) (fld w 16 8) (fld w 9 7))
  | 12 => .ok (.smaxn (fld w 24 8) (fld w 16 8) (fld w 9 7))
  | 13 => .ok (.sand (fld w 24 8) (fld w 16 8) (fld w 9 7))
  | 14 => .ok (.sor (fld w 24 8) (fld w 16 8) (fld w 9 7))
  | 15 => .ok (.sxor (fld w 24 8) (fld w 16 8) (fld w 9 7))
  | 16 => .ok (.sshl (fld w 24 8) (fld w 16 8) (fld w 9 7))
  | 17 => .ok (.sshr (fld w 24 8) (fld w 16 8) (fld w 9 7))
  | 18 => .ok (.sshra (fld w 24 8) (fld w 16 8) (fld w 9 7))
  | 19 => .ok (.sclz (fld w 24 8) (fld w 16 8) (fld w 9 7))
  | 20 => .ok (.spopc (fld w 24 8) (fld w 16 8) (fld w 9 7))
  | 21 => .ok (.sbfx (fld w 24 8) (fld w 16 8) (fld w 9 7))
  | 22 => .ok (.smov (fld w 24 8) (fld w 16 8) (fld w 9 7))
  | 23 => .ok (.slil (fld w 16 16) (fld w 9 7))
  | 24 => .ok (.slih (fld w 16 16) (fld w 9 7))
  | 25 => .ok (.saddd (fld w 24 8) (fld w 16 8) (fld w 9 7))
  | 26 => .ok (.ssubd (fld w 24 8) (fld w 16 8) (fld w 9 7))
  | 27 => if bits w 9 7 == 127 then .ok (.scmp (fld w 24 8) (fld w 16 8)) else .error .nonzeroField
  | 28 => .ok (.srd (fld w 24 8) (fld w 16 8) (fld w 9 7))
  | 29 => if bits w 9 7 == 127 then .ok (.swr (fld w 24 8) (fld w 16 8)) else .error .nonzeroField
  | 30 => if bits w 13 3 == 0 then .ok (.wset (fld w 24 8) (fld w 16 8) (fld w 9 4)) else .error .nonzeroField
  | 31 => if bits w 13 3 == 0 then .ok (.wadd (fld w 24 8) (fld w 16 8) (fld w 9 4)) else .error .nonzeroField
  | _ => .error .reservedOpcode

/-- Class 5 (R245): the opcode in [8:4]. -/
def decodeME (w : Nat) : Except DecodeError Instr :=
  match bits w 4 5 with
  | 0 => .ok (.ldb (fld w 30 2) (fld w 28 2) (fld w 24 4) (fld w 16 8) (fld w 9 7))
  | 1 => .ok (.ldbs (fld w 30 2) (fld w 28 2) (fld w 24 4) (fld w 16 8) (fld w 9 7))
  | 2 => .ok (.ldh (fld w 30 2) (fld w 28 2) (fld w 24 4) (fld w 16 8) (fld w 9 7))
  | 3 => .ok (.ldhs (fld w 30 2) (fld w 28 2) (fld w 24 4) (fld w 16 8) (fld w 9 7))
  | 4 => .ok (.ldw (fld w 30 2) (fld w 28 2) (fld w 24 4) (fld w 16 8) (fld w 9 7))
  | 5 => .ok (.ldd (fld w 30 2) (fld w 28 2) (fld w 24 4) (fld w 16 8) (fld w 9 7))
  | 6 => .ok (.ldq (fld w 30 2) (fld w 28 2) (fld w 24 4) (fld w 16 8) (fld w 9 7))
  | 7 => .ok (.stb (fld w 30 2) (fld w 28 2) (fld w 24 4) (fld w 16 8) (fld w 9 7))
  | 8 => .ok (.sth (fld w 30 2) (fld w 28 2) (fld w 24 4) (fld w 16 8) (fld w 9 7))
  | 9 => .ok (.stw (fld w 30 2) (fld w 28 2) (fld w 24 4) (fld w 16 8) (fld w 9 7))
  | 10 => .ok (.std (fld w 30 2) (fld w 28 2) (fld w 24 4) (fld w 16 8) (fld w 9 7))
  | 11 => .ok (.stq (fld w 30 2) (fld w 28 2) (fld w 24 4) (fld w 16 8) (fld w 9 7))
  | 12 => if bits w 24 4 == 0 && bits w 30 2 == 0 then .ok (.ldsw (fld w 28 2) (fld w 16 8) (fld w 9 7)) else .error .nonzeroField
  | 13 => if bits w 24 4 == 0 && bits w 30 2 == 0 then .ok (.ldsd (fld w 28 2) (fld w 16 8) (fld w 9 7)) else .error .nonzeroField
  | 14 => if bits w 24 4 == 0 && bits w 30 2 == 0 then .ok (.ldsq (fld w 28 2) (fld w 16 8) (fld w 9 7)) else .error .nonzeroField
  | 15 => if bits w 24 4 == 0 && bits w 30 2 == 0 then .ok (.stsw (fld w 28 2) (fld w 16 8) (fld w 9 7)) else .error .nonzeroField
  | 16 => if bits w 24 4 == 0 && bits w 30 2 == 0 then .ok (.stsd (fld w 28 2) (fld w 16 8) (fld w 9 7)) else .error .nonzeroField
  | 17 => if bits w 24 4 == 0 && bits w 30 2 == 0 then .ok (.stsq (fld w 28 2) (fld w 16 8) (fld w 9 7)) else .error .nonzeroField
  | 18 => if bits w 15 1 == 0 then .ok (.lduw (fld w 30 2) (fld w 28 2) (fld w 24 4) (fld w 16 8) (fld w 9 6)) else .error .nonzeroField
  | 19 => if bits w 15 1 == 0 then .ok (.ldud (fld w 30 2) (fld w 28 2) (fld w 24 4) (fld w 16 8) (fld w 9 6)) else .error .nonzeroField
  | 20 => if bits w 13 3 == 0 then .ok (.ldba (fld w 30 2) (fld w 28 2) (fld w 24 4) (fld w 16 8) (fld w 9 4)) else .error .nonzeroField
  | 21 => if bits w 13 3 == 0 then .ok (.stba (fld w 30 2) (fld w 28 2) (fld w 24 4) (fld w 16 8) (fld w 9 4)) else .error .nonzeroField
  | 22 => .ok (.gath4 (fld w 30 2) (fld w 28 2) (fld w 24 4) (fld w 16 8) (fld w 9 7))
  | 23 => if bits w 9 7 == 127 then .ok (.pref (fld w 30 2) (fld w 28 2) (fld w 24 4) (fld w 16 8)) else .error .nonzeroField
  | _ => .error .reservedOpcode

/-- Class 6 (R245): the opcode in [8:4]. -/
def decodeBR (w : Nat) : Except DecodeError Instr :=
  match bits w 4 5 with
  | 0 => .ok (.bra (fld w 9 23))
  | 1 => .ok (.brz (fld w 9 23))
  | 2 => .ok (.brnz (fld w 9 23))
  | 3 => .ok (.brn (fld w 9 23))
  | 4 => .ok (.brnn (fld w 9 23))
  | 5 => .ok (.brc (fld w 9 23))
  | 6 => .ok (.brnc (fld w 9 23))
  | 7 => .ok (.brvP0 (fld w 9 23))
  | 8 => .ok (.brvP1 (fld w 9 23))
  | 9 => .ok (.brvP2 (fld w 9 23))
  | 10 => .ok (.brvP3 (fld w 9 23))
  | 11 => .ok (.brany (fld w 9 23))
  | 12 => .ok (.brall (fld w 9 23))
  | 13 => .ok (.bre (fld w 9 23))
  | 14 => .ok (.call (fld w 9 23))
  | _ => .error .reservedOpcode

/-- Family 0 of class 7 (R250). -/
def decodeFam0 (w : Nat) : Except DecodeError Instr :=
  match bits w 9 7 with
  | 0 => if bits w 16 16 == 0 then .ok (.nop) else .error .nonzeroField
  | 1 => if bits w 16 16 == 0 then .ok (.exit) else .error .nonzeroField
  | 2 => if bits w 16 16 == 0 then .ok (.join) else .error .nonzeroField
  | 3 => if bits w 16 16 == 0 then .ok (.ret) else .error .nonzeroField
  | 4 => if bits w 24 8 == 0 then .ok (.jmpi (fld w 16 8)) else .error .nonzeroField
  | 5 => if bits w 16 16 == 0 then .ok (.yield) else .error .nonzeroField
  | 6 => if bits w 24 8 == 0 then .ok (.sleep (fld w 16 8)) else .error .nonzeroField
  | 7 => .ok (.waitc (fld w 24 8) (fld w 16 8))
  | 8 => if bits w 16 16 == 0 then .ok (.idem) else .error .nonzeroField
  | 9 => if bits w 24 8 == 0 then .ok (.scopeOpen (fld w 16 8)) else .error .nonzeroField
  | 10 => if bits w 16 16 == 0 then .ok (.scopeClose) else .error .nonzeroField
  | 11 => if bits w 24 8 == 0 then .ok (.emget (fld w 16 8)) else .error .nonzeroField
  | 12 => .ok (.emset (fld w 24 8) (fld w 16 8))
  | 13 => .ok (.emand (fld w 24 8) (fld w 16 8))
  | 14 => if bits w 24 8 == 0 then .ok (.trap (fld w 16 8)) else .error .nonzeroField
  | 15 => if bits w 16 16 == 0 then .ok (.rte) else .error .nonzeroField
  | 16 => .ok (.icinv (fld w 24 8) (fld w 16 8))
  | 17 => if bits w 22 10 == 0 then .ok (.fence (fld w 21 1) (fld w 18 3) (fld w 16 2)) else .error .nonzeroField
  | 18 => if bits w 24 8 == 0 then .ok (.stampBegin (fld w 16 8)) else .error .nonzeroField
  | 19 => if bits w 24 8 == 0 then .ok (.stampEnd (fld w 16 8)) else .error .nonzeroField
  | 20 => .ok (.mcfg (fld w 24 8) (fld w 16 8))
  | 21 => if bits w 20 4 == 0 then .ok (.actLd (fld w 24 8) (fld w 16 4)) else .error .nonzeroField
  | 22 => if bits w 20 4 == 0 then .ok (.badd (fld w 24 8) (fld w 16 4)) else .error .nonzeroField
  | 23 => if bits w 20 4 == 0 && bits w 30 2 == 0 then .ok (.bset (fld w 24 6) (fld w 16 4)) else .error .nonzeroField
  | 24 => if bits w 20 4 == 0 && bits w 30 2 == 0 then .ok (.bget (fld w 24 6) (fld w 16 4)) else .error .nonzeroField
  | 25 => if bits w 16 16 == 0 then .ok (.wfence) else .error .nonzeroField
  | _ => .error .reservedOpcode

/-- Family 1 of class 7 (R250). -/
def decodeFam1 (w : Nat) : Except DecodeError Instr :=
  .ok (.xshf (fld w 24 8) (fld w 16 8) (fld w 9 7))

/-- Family 2 of class 7 (R250). -/
def decodeFam2 (w : Nat) : Except DecodeError Instr :=
  .ok (.xdn (fld w 24 8) (fld w 16 8) (fld w 9 7))

/-- Family 3 of class 7 (R250). -/
def decodeFam3 (w : Nat) : Except DecodeError Instr :=
  .ok (.xup (fld w 24 8) (fld w 16 8) (fld w 9 7))

/-- Family 4 of class 7 (R250). -/
def decodeFam4 (w : Nat) : Except DecodeError Instr :=
  .ok (.xrot (fld w 24 8) (fld w 16 8) (fld w 9 7))

/-- Family 5 of class 7 (R250). -/
def decodeFam5 (w : Nat) : Except DecodeError Instr :=
  .ok (.xbfly (fld w 24 8) (fld w 16 8) (fld w 9 7))

/-- Family 6 of class 7 (R250). -/
def decodeFam6 (w : Nat) : Except DecodeError Instr :=
  if bits w 28 4 == 0 then .ok (.xred (fld w 24 4) (fld w 16 8) (fld w 9 7)) else .error .nonzeroField

/-- Family 7 of class 7 (R250). -/
def decodeFam7 (w : Nat) : Except DecodeError Instr :=
  if bits w 28 3 == 0 then .ok (.xscan (fld w 31 1) (fld w 24 4) (fld w 16 8) (fld w 9 7)) else .error .nonzeroField

/-- Family 8 of class 7 (R250). -/
def decodeFam8 (w : Nat) : Except DecodeError Instr :=
  if bits w 18 6 == 0 && bits w 25 7 == 0 then .ok (.xbal (fld w 24 1) (fld w 16 2) (fld w 9 7)) else .error .nonzeroField

/-- Family 9 of class 7 (R250). -/
def decodeFam9 (w : Nat) : Except DecodeError Instr :=
  .ok (.xbcast (fld w 24 8) (fld w 16 8) (fld w 9 7))

/-- Family 10 of class 7 (R250). -/
def decodeFam10 (w : Nat) : Except DecodeError Instr :=
  if bits w 24 8 == 0 then .ok (.xfirst (fld w 16 8) (fld w 9 7)) else .error .nonzeroField

/-- Family 11 of class 7 (R250). -/
def decodeFam11 (w : Nat) : Except DecodeError Instr :=
  if bits w 9 7 == 0 then .ok (.mma (fld w 24 8) (fld w 16 8)) else .error .nonzeroField

/-- Family 12 of class 7 (R250). -/
def decodeFam12 (w : Nat) : Except DecodeError Instr :=
  match bits w 24 4 with
  | 0 => if bits w 9 15 == 127 && bits w 31 1 == 0 then .ok (.accAlloc (fld w 28 3)) else .error .nonzeroField
  | 1 => if bits w 9 15 == 127 && bits w 31 1 == 0 then .ok (.accFree (fld w 28 3)) else .error .nonzeroField
  | 2 => if bits w 9 15 == 127 && bits w 31 1 == 0 then .ok (.accZero (fld w 28 3)) else .error .nonzeroField
  | 3 => if bits w 31 1 == 0 then .ok (.accRd (fld w 28 3) (fld w 16 8) (fld w 9 7)) else .error .nonzeroField
  | 4 => if bits w 9 7 == 127 && bits w 31 1 == 0 then .ok (.accWr (fld w 28 3) (fld w 16 8)) else .error .nonzeroField
  | 5 => if bits w 9 7 == 127 && bits w 31 1 == 0 then .ok (.accMask (fld w 28 3) (fld w 16 8)) else .error .nonzeroField
  | 6 => if bits w 16 8 == 0 && bits w 31 1 == 0 then .ok (.accRowmax (fld w 28 3) (fld w 9 7)) else .error .nonzeroField
  | 7 => if bits w 16 8 == 0 && bits w 31 1 == 0 then .ok (.accRowsum (fld w 28 3) (fld w 9 7)) else .error .nonzeroField
  | 8 => if bits w 9 7 == 127 && bits w 31 1 == 0 then .ok (.accRowscl (fld w 28 3) (fld w 16 8)) else .error .nonzeroField
  | _ => .error .reservedOpcode

/-- Family 13 of class 7 (R250). -/
noncomputable def decodeFam13 (w : Nat) : Except DecodeError Instr :=
  match bits w 24 4 with
  | 0 => if bits w 28 4 == 0 then .ok (.fragLda (fld w 16 8) (fld w 9 7)) else .error .nonzeroField
  | 1 => if bits w 28 4 == 0 then .ok (.fragLdb (fld w 16 8) (fld w 9 7)) else .error .nonzeroField
  | 2 => if bits w 28 4 == 0 then .ok (.fragLdas (fld w 16 8) (fld w 9 7)) else .error .nonzeroField
  | 3 => if bits w 28 4 == 0 then .ok (.fragLdbs (fld w 16 8) (fld w 9 7)) else .error .nonzeroField
  | _ => .error .reservedOpcode

/-- Family 14 of class 7 (R250). -/
noncomputable def decodeFam14 (w : Nat) : Except DecodeError Instr :=
  match bits w 24 4 with
  | 0 => if bits w 9 7 == 127 && bits w 30 2 == 0 then .ok (.permLd (fld w 28 2) (fld w 16 8)) else .error .nonzeroField
  | 1 => if bits w 9 7 == 127 && bits w 30 2 == 0 then .ok (.permLdg (fld w 28 2) (fld w 16 8)) else .error .nonzeroField
  | 2 => if bits w 9 15 == 127 && bits w 30 2 == 0 then .ok (.permId (fld w 28 2)) else .error .nonzeroField
  | 3 => if bits w 9 15 == 127 then .ok (.permInv (fld w 30 2) (fld w 28 2)) else .error .nonzeroField
  | 4 => if bits w 9 7 == 127 && bits w 18 6 == 0 then .ok (.permCmp (fld w 30 2) (fld w 28 2) (fld w 16 2)) else .error .nonzeroField
  | 5 => if bits w 9 7 == 127 && bits w 30 2 == 0 then .ok (.permRnd (fld w 28 2) (fld w 16 8)) else .error .nonzeroField
  | 6 => if bits w 9 7 == 127 && bits w 18 6 == 0 && bits w 30 2 == 0 then .ok (.permPack (fld w 28 2) (fld w 16 2)) else .error .nonzeroField
  | 7 => if bits w 30 2 == 0 then .ok (.permApply (fld w 28 2) (fld w 16 8) (fld w 9 7)) else .error .nonzeroField
  | 8 => if bits w 9 7 == 127 && bits w 30 2 == 0 then .ok (.permSt (fld w 28 2) (fld w 16 8)) else .error .nonzeroField
  | 9 => if bits w 16 8 == 0 && bits w 30 2 == 0 then .ok (.permCyc (fld w 28 2) (fld w 9 7)) else .error .nonzeroField
  | _ => .error .reservedOpcode

/-- Family 15 of class 7 (R250). -/
noncomputable def decodeFam15 (w : Nat) : Except DecodeError Instr :=
  if bits w 9 15 == 127 && bits w 27 1 == 0 && bits w 30 2 == 0 then .ok (.permAcc (fld w 28 2) (fld w 24 3)) else .error .nonzeroField

/-- Family 16 of class 7 (R250). -/
noncomputable def decodeFam16 (w : Nat) : Except DecodeError Instr :=
  .ok (.atom32 (fld w 24 8) (fld w 16 8) (fld w 13 3) (fld w 9 4))

/-- Family 17 of class 7 (R250). -/
noncomputable def decodeFam17 (w : Nat) : Except DecodeError Instr :=
  .ok (.atom64 (fld w 24 8) (fld w 16 8) (fld w 13 3) (fld w 9 4))

/-- Family 18 of class 7 (R250). -/
noncomputable def decodeFam18 (w : Nat) : Except DecodeError Instr :=
  if bits w 9 4 == 0 then .ok (.atoms (fld w 24 8) (fld w 16 8) (fld w 13 3)) else .error .nonzeroField

/-- Family 19 of class 7 (R250). -/
noncomputable def decodeFam19 (w : Nat) : Except DecodeError Instr :=
  .ok (.cas (fld w 24 8) (fld w 16 8) (fld w 15 1) (fld w 13 2) (fld w 9 4))

/-- Family 20 of class 7 (R250). -/
noncomputable def decodeFam20 (w : Nat) : Except DecodeError Instr :=
  match bits w 9 7 with
  | 0 => if bits w 24 8 == 0 then .ok (.ringInit (fld w 16 8)) else .error .nonzeroField
  | 1 => .ok (.ringWait (fld w 24 8) (fld w 16 8))
  | 2 => .ok (.ringRel (fld w 24 8) (fld w 16 8))
  | 3 => .ok (.ringStat (fld w 24 8) (fld w 16 8))
  | _ => .error .reservedOpcode

/-- Family 21 of class 7 (R250). -/
noncomputable def decodeFam21 (w : Nat) : Except DecodeError Instr :=
  match bits w 9 7 with
  | 0 => .ok (.barInit (fld w 24 8) (fld w 16 8))
  | 1 => if bits w 24 8 == 0 then .ok (.barArrive (fld w 16 8)) else .error .nonzeroField
  | 2 => .ok (.barWait (fld w 24 8) (fld w 16 8))
  | 3 => if bits w 24 8 == 0 then .ok (.barStat (fld w 16 8)) else .error .nonzeroField
  | 4 => if bits w 24 8 == 0 then .ok (.barSync (fld w 16 8)) else .error .nonzeroField
  | _ => .error .reservedOpcode

/-- Family 22 of class 7 (R250). -/
noncomputable def decodeFam22 (w : Nat) : Except DecodeError Instr :=
  match bits w 9 7 with
  | 0 => .ok (.xcopyIn (fld w 28 4) (fld w 24 4) (fld w 16 8))
  | 1 => .ok (.xcopyOut (fld w 28 4) (fld w 24 4) (fld w 16 8))
  | 2 => .ok (.xcopyCommit (fld w 28 4) (fld w 24 4) (fld w 16 8))
  | 3 => .ok (.xcopyRows (fld w 28 4) (fld w 24 4) (fld w 16 8))
  | _ => .error .reservedOpcode

/-- Family 23 of class 7 (R250). -/
noncomputable def decodeFam23 (w : Nat) : Except DecodeError Instr :=
  match bits w 24 4 with
  | 0 => if bits w 9 7 == 127 && bits w 30 2 == 0 then .ok (.mqSend (fld w 28 2) (fld w 16 8)) else .error .nonzeroField
  | 1 => if bits w 30 2 == 0 then .ok (.mqRecv (fld w 28 2) (fld w 16 8) (fld w 9 7)) else .error .nonzeroField
  | 2 => if bits w 9 7 == 127 && bits w 30 2 == 0 then .ok (.mqPop (fld w 28 2) (fld w 16 8)) else .error .nonzeroField
  | _ => .error .reservedOpcode

/-- Family 24 of class 7 (R250). -/
noncomputable def decodeFam24 (w : Nat) : Except DecodeError Instr :=
  match bits w 9 7 with
  | 0 => if bits w 24 8 == 0 then .ok (.tagLook (fld w 16 8)) else .error .nonzeroField
  | 1 => .ok (.tagSet (fld w 24 8) (fld w 16 8))
  | 2 => if bits w 24 8 == 0 then .ok (.tagClr (fld w 16 8)) else .error .nonzeroField
  | 3 => if bits w 16 16 == 0 then .ok (.tagInv) else .error .nonzeroField
  | _ => .error .reservedOpcode

/-- Family 25 of class 7 (R250). -/
noncomputable def decodeFam25 (w : Nat) : Except DecodeError Instr :=
  match bits w 9 7 with
  | 0 => .ok (.ssetInit (fld w 28 4) (fld w 24 4) (fld w 16 8))
  | 1 => .ok (.ssetAdd (fld w 24 8) (fld w 16 8))
  | 2 => if bits w 24 8 == 0 then .ok (.ssetBuild (fld w 16 8)) else .error .nonzeroField
  | 3 => if bits w 24 8 == 0 then .ok (.ssetBind (fld w 16 8)) else .error .nonzeroField
  | 4 => if bits w 24 8 == 0 then .ok (.ssetUnbind (fld w 16 8)) else .error .nonzeroField
  | 5 => if bits w 24 8 == 0 then .ok (.ssetFree (fld w 16 8)) else .error .nonzeroField
  | 6 => if bits w 26 6 == 0 then .ok (.ssetQuery (fld w 24 2) (fld w 16 8)) else .error .nonzeroField
  | _ => .error .reservedOpcode

/-- Family 26 of class 7 (R250). -/
noncomputable def decodeFam26 (w : Nat) : Except DecodeError Instr :=
  match bits w 9 7 with
  | 0 => .ok (.rastEmit (fld w 28 4) (fld w 24 4) (fld w 16 8))
  | 1 => if bits w 16 8 == 0 then .ok (.rastDraw (fld w 28 4) (fld w 24 4)) else .error .nonzeroField
  | 2 => if bits w 16 8 == 0 then .ok (.rastSin (fld w 24 8)) else .error .nonzeroField
  | 3 => .ok (.rastSout (fld w 24 8) (fld w 16 8))
  | 4 => if bits w 16 16 == 0 then .ok (.rastSkip) else .error .nonzeroField
  | _ => .error .reservedOpcode

/-- Family 27 of class 7 (R250). -/
noncomputable def decodeFam27 (w : Nat) : Except DecodeError Instr :=
  if bits w 25 7 == 0 then .ok (.treemask (fld w 24 1) (fld w 16 8) (fld w 9 7)) else .error .nonzeroField

/-- Family 28 of class 7 (R250). -/
noncomputable def decodeFam28 (w : Nat) : Except DecodeError Instr :=
  match bits w 9 7 with
  | 0 => .ok (.privTeamgo (fld w 28 4) (fld w 24 4) (fld w 16 8))
  | 1 => if bits w 16 16 == 0 then .ok (.privTeamdone) else .error .nonzeroField
  | 2 => if bits w 24 8 == 0 then .ok (.privAgsleep (fld w 16 8)) else .error .nonzeroField
  | 3 => if bits w 24 8 == 0 then .ok (.privWkpop (fld w 16 8)) else .error .nonzeroField
  | _ => .error .reservedOpcode

/-- Family 29 of class 7 (R250). -/
noncomputable def decodeFam29 (w : Nat) : Except DecodeError Instr :=
  match bits w 9 7 with
  | 0 => .ok (.dbgTracew (fld w 24 8) (fld w 16 8))
  | 1 => if bits w 24 8 == 0 then .ok (.dbgPcsmp (fld w 16 8)) else .error .nonzeroField
  | _ => .error .reservedOpcode

/-- Family 30 of class 7 (R250). -/
noncomputable def decodeFam30 (w : Nat) : Except DecodeError Instr :=
  match bits w 9 7 with
  | 0 => .ok (.ordInit (fld w 24 8) (fld w 16 8))
  | 1 => .ok (.ordEnter (fld w 24 8) (fld w 16 8))
  | 2 => .ok (.ordTry (fld w 24 8) (fld w 16 8))
  | 3 => .ok (.ordWait (fld w 24 8) (fld w 16 8))
  | 4 => .ok (.ordLeave (fld w 24 8) (fld w 16 8))
  | 5 => .ok (.ordLeavev (fld w 24 8) (fld w 16 8))
  | 6 => if bits w 24 8 == 0 then .ok (.ordQuery (fld w 16 8)) else .error .nonzeroField
  | _ => .error .reservedOpcode

/-- Class 7 (R250): the family in [8:4]. -/
noncomputable def decodeEX (w : Nat) : Except DecodeError Instr :=
  match bits w 4 5 with
  | 0 => decodeFam0 w
  | 1 => decodeFam1 w
  | 2 => decodeFam2 w
  | 3 => decodeFam3 w
  | 4 => decodeFam4 w
  | 5 => decodeFam5 w
  | 6 => decodeFam6 w
  | 7 => decodeFam7 w
  | 8 => decodeFam8 w
  | 9 => decodeFam9 w
  | 10 => decodeFam10 w
  | 11 => decodeFam11 w
  | 12 => decodeFam12 w
  | 13 => decodeFam13 w
  | 14 => decodeFam14 w
  | 15 => decodeFam15 w
  | 16 => decodeFam16 w
  | 17 => decodeFam17 w
  | 18 => decodeFam18 w
  | 19 => decodeFam19 w
  | 20 => decodeFam20 w
  | 21 => decodeFam21 w
  | 22 => decodeFam22 w
  | 23 => decodeFam23 w
  | 24 => decodeFam24 w
  | 25 => decodeFam25 w
  | 26 => decodeFam26 w
  | 27 => decodeFam27 w
  | 28 => decodeFam28 w
  | 29 => decodeFam29 w
  | 30 => decodeFam30 w
  | _ => .error .reservedOpcode

/-- The 32-bit form (R245): the class in [3:1]. -/
noncomputable def decode32 (w : Nat) : Except DecodeError Instr :=
  match bits w 1 3 with
  | 0 => decodeVI w | 1 => decodeVF w | 2 => decodeVK w | 3 => decodeVM w
  | 4 => decodeSC w | 5 => decodeME w | 6 => decodeBR w | _ => decodeEX w

/-- A literal outside its set is rejected too (R240 step 2). -/
def checkWf : Except DecodeError Instr → Except DecodeError Instr
  | .ok i => if i.wf then .ok i else .error .literalRange
  | .error e => .error e

/-- The instruction in a word: bit 0 gives the length (R237). A 16-bit form is read from the low halfword. -/
noncomputable def decode (w : Nat) : Except DecodeError Instr :=
  if w % 2 = 0 then decode16 (w % 2 ^ 16) else checkWf (decode32 (w % 2 ^ 32))

/-- Bytes of the instruction that a word begins (R237). -/
def wordLen (w : Nat) : Nat := if w % 2 = 0 then 2 else 4

/-- A word laid out as the hardware stores it, least significant byte first (R4). -/
def wordBytes (w : Nat) : List (BitVec 8) :=
  [BitVec.ofNat 8 w, BitVec.ofNat 8 (w / 2 ^ 8), BitVec.ofNat 8 (w / 2 ^ 16), BitVec.ofNat 8 (w / 2 ^ 24)]

/-- The word that bytes hold (R4). -/
def bytesWord : List (BitVec 8) → Nat
  | [] => 0
  | b :: t => b.toNat + 2 ^ 8 * bytesWord t

/-- What the decoder reads from the bytes of an instruction whose bits are w, numbered as the opcode table numbers them. -/
noncomputable def decodeTableWord (nbits w : Nat) : Option Instr :=
  match decode (bytesWord (wordBytes (w % 2 ^ nbits))) with
  | .ok i => if nbits < 8 * wordLen w then none else some i
  | .error _ => none

/-- A field x placed at bit lo of the word c. -/
def put (lo x c : Nat) : Nat := c + x * 2 ^ lo

/-- The word of a well-formed instruction, from the same encoding tables (R243, R245, R248 to R251); none for a row without an encoding. -/
def encode : Instr → Option Nat
  | .iadd b a d => some (put 24 b.toNat (put 16 a.toNat (put 9 d.toNat 1)))
  | .isub b a d => some (put 24 b.toNat (put 16 a.toNat (put 9 d.toNat 17)))
  | .imul b a d => some (put 24 b.toNat (put 16 a.toNat (put 9 d.toNat 33)))
  | .imulh b a d => some (put 24 b.toNat (put 16 a.toNat (put 9 d.toNat 49)))
  | .imulhn b a d => some (put 24 b.toNat (put 16 a.toNat (put 9 d.toNat 65)))
  | .idiv b a d => some (put 24 b.toNat (put 16 a.toNat (put 9 d.toNat 81)))
  | .idivn b a d => some (put 24 b.toNat (put 16 a.toNat (put 9 d.toNat 97)))
  | .irem b a d => some (put 24 b.toNat (put 16 a.toNat (put 9 d.toNat 113)))
  | .iremn b a d => some (put 24 b.toNat (put 16 a.toNat (put 9 d.toNat 129)))
  | .imin b a d => some (put 24 b.toNat (put 16 a.toNat (put 9 d.toNat 145)))
  | .iminn b a d => some (put 24 b.toNat (put 16 a.toNat (put 9 d.toNat 161)))
  | .imax b a d => some (put 24 b.toNat (put 16 a.toNat (put 9 d.toNat 177)))
  | .imaxn b a d => some (put 24 b.toNat (put 16 a.toNat (put 9 d.toNat 193)))
  | .and b a d => some (put 24 b.toNat (put 16 a.toNat (put 9 d.toNat 209)))
  | .or b a d => some (put 24 b.toNat (put 16 a.toNat (put 9 d.toNat 225)))
  | .xor b a d => some (put 24 b.toNat (put 16 a.toNat (put 9 d.toNat 241)))
  | .andn b a d => some (put 24 b.toNat (put 16 a.toNat (put 9 d.toNat 257)))
  | .shl b a d => some (put 24 b.toNat (put 16 a.toNat (put 9 d.toNat 273)))
  | .shr b a d => some (put 24 b.toNat (put 16 a.toNat (put 9 d.toNat 289)))
  | .shra b a d => some (put 24 b.toNat (put 16 a.toNat (put 9 d.toNat 305)))
  | .rotl b a d => some (put 24 b.toNat (put 16 a.toNat (put 9 d.toNat 321)))
  | .bfx b a d => some (put 24 b.toNat (put 16 a.toNat (put 9 d.toNat 337)))
  | .bilv2 b a d => some (put 24 b.toNat (put 16 a.toNat (put 9 d.toNat 353)))
  | .bdil2 b a d => some (put 24 b.toNat (put 16 a.toNat (put 9 d.toNat 369)))
  | .clz b a d => some (put 24 b.toNat (put 16 a.toNat (put 9 d.toNat 385)))
  | .popc b a d => some (put 24 b.toNat (put 16 a.toNat (put 9 d.toNat 401)))
  | .brev b a d => some (put 24 b.toNat (put 16 a.toNat (put 9 d.toNat 417)))
  | .iabs b a d => some (put 24 b.toNat (put 16 a.toNat (put 9 d.toNat 433)))
  | .sext b a d => some (put 24 b.toNat (put 16 a.toNat (put 9 d.toNat 449)))
  | .iaddd b a d => some (put 24 b.toNat (put 16 a.toNat (put 9 d.toNat 465)))
  | .isubd b a d => some (put 24 b.toNat (put 16 a.toNat (put 9 d.toNat 481)))
  | .shrd b a d => some (put 24 b.toNat (put 16 a.toNat (put 9 d.toNat 497)))
  | .fadd b a d => some (put 24 b.toNat (put 16 a.toNat (put 9 d.toNat 3)))
  | .fsub b a d => some (put 24 b.toNat (put 16 a.toNat (put 9 d.toNat 19)))
  | .fmul b a d => some (put 24 b.toNat (put 16 a.toNat (put 9 d.toNat 35)))
  | .fmin b a d => some (put 24 b.toNat (put 16 a.toNat (put 9 d.toNat 51)))
  | .fmax b a d => some (put 24 b.toNat (put 16 a.toNat (put 9 d.toNat 67)))
  | .fdiv b a d => some (put 24 b.toNat (put 16 a.toNat (put 9 d.toNat 83)))
  | .frcp b a d => some (put 24 b.toNat (put 16 a.toNat (put 9 d.toNat 99)))
  | .frsq b a d => some (put 24 b.toNat (put 16 a.toNat (put 9 d.toNat 115)))
  | .fsqrt b a d => some (put 24 b.toNat (put 16 a.toNat (put 9 d.toNat 131)))
  | .fexp2 b a d => some (put 24 b.toNat (put 16 a.toNat (put 9 d.toNat 147)))
  | .flog2 b a d => some (put 24 b.toNat (put 16 a.toNat (put 9 d.toNat 163)))
  | .fsinpi b a d => some (put 24 b.toNat (put 16 a.toNat (put 9 d.toNat 179)))
  | .fcospi b a d => some (put 24 b.toNat (put 16 a.toNat (put 9 d.toNat 195)))
  | .ftanh b a d => some (put 24 b.toNat (put 16 a.toNat (put 9 d.toNat 211)))
  | .frndn b a d => some (put 24 b.toNat (put 16 a.toNat (put 9 d.toNat 227)))
  | .frndz b a d => some (put 24 b.toNat (put 16 a.toNat (put 9 d.toNat 243)))
  | .ffloor b a d => some (put 24 b.toNat (put 16 a.toNat (put 9 d.toNat 259)))
  | .fceil b a d => some (put 24 b.toNat (put 16 a.toNat (put 9 d.toNat 275)))
  | .fneg b a d => some (put 24 b.toNat (put 16 a.toNat (put 9 d.toNat 291)))
  | .fabs b a d => some (put 24 b.toNat (put 16 a.toNat (put 9 d.toNat 307)))
  | .fcpys b a d => some (put 24 b.toNat (put 16 a.toNat (put 9 d.toNat 323)))
  | .hadd2 b a d => some (put 24 b.toNat (put 16 a.toNat (put 9 d.toNat 339)))
  | .hsub2 b a d => some (put 24 b.toNat (put 16 a.toNat (put 9 d.toNat 355)))
  | .hmul2 b a d => some (put 24 b.toNat (put 16 a.toNat (put 9 d.toNat 371)))
  | .hmin2 b a d => some (put 24 b.toNat (put 16 a.toNat (put 9 d.toNat 387)))
  | .hmax2 b a d => some (put 24 b.toNat (put 16 a.toNat (put 9 d.toNat 403)))
  | .badd2 b a d => some (put 24 b.toNat (put 16 a.toNat (put 9 d.toNat 419)))
  | .bmul2 b a d => some (put 24 b.toNat (put 16 a.toNat (put 9 d.toNat 435)))
  | .ffrac b a d => some (put 24 b.toNat (put 16 a.toNat (put 9 d.toNat 451)))
  | .fscalb b a d => some (put 24 b.toNat (put 16 a.toNat (put 9 d.toNat 467)))
  | .fgete b a d => some (put 24 b.toNat (put 16 a.toNat (put 9 d.toNat 483)))
  | .iaddk k a d => some (put 24 k.toNat (put 16 a.toNat (put 9 d.toNat 5)))
  | .imulk k a d => some (put 24 k.toNat (put 16 a.toNat (put 9 d.toNat 21)))
  | .andk k a d => some (put 24 k.toNat (put 16 a.toNat (put 9 d.toNat 37)))
  | .ork k a d => some (put 24 k.toNat (put 16 a.toNat (put 9 d.toNat 53)))
  | .xork k a d => some (put 24 k.toNat (put 16 a.toNat (put 9 d.toNat 69)))
  | .shlk k a d => some (put 24 k.toNat (put 16 a.toNat (put 9 d.toNat 85)))
  | .shrk k a d => some (put 24 k.toNat (put 16 a.toNat (put 9 d.toNat 101)))
  | .shrak k a d => some (put 24 k.toNat (put 16 a.toNat (put 9 d.toNat 117)))
  | .imink k a d => some (put 24 k.toNat (put 16 a.toNat (put 9 d.toNat 133)))
  | .imaxk k a d => some (put 24 k.toNat (put 16 a.toNat (put 9 d.toNat 149)))
  | .icmpeqk k a p => some (put 24 k.toNat (put 16 a.toNat (put 9 p.toNat 165)))
  | .icmpltk k a p => some (put 24 k.toNat (put 16 a.toNat (put 9 p.toNat 181)))
  | .faddk k a d => some (put 24 k.toNat (put 16 a.toNat (put 9 d.toNat 197)))
  | .fmulk k a d => some (put 24 k.toNat (put 16 a.toNat (put 9 d.toNat 213)))
  | .liml i d => some (put 16 i.toNat (put 9 d.toNat 229))
  | .limh i d => some (put 16 i.toNat (put 9 d.toNat 245))
  | .movk k a d => some (put 24 k.toNat (put 16 a.toNat (put 9 d.toNat 261)))
  | .ffma b a d => some (put 24 b.toNat (put 16 a.toNat (put 9 d.toNat 7)))
  | .ffms b a d => some (put 24 b.toNat (put 16 a.toNat (put 9 d.toNat 23)))
  | .fnfma b a d => some (put 24 b.toNat (put 16 a.toNat (put 9 d.toNat 39)))
  | .hfma2 b a d => some (put 24 b.toNat (put 16 a.toNat (put 9 d.toNat 55)))
  | .bfma2 b a d => some (put 24 b.toNat (put 16 a.toNat (put 9 d.toNat 71)))
  | .imad b a d => some (put 24 b.toNat (put 16 a.toNat (put 9 d.toNat 87)))
  | .bilv3 b a d => some (put 24 b.toNat (put 16 a.toNat (put 9 d.toNat 103)))
  | .bfi b a d => some (put 24 b.toNat (put 16 a.toNat (put 9 d.toNat 119)))
  | .selP0 b a d => some (put 24 b.toNat (put 16 a.toNat (put 9 d.toNat 135)))
  | .selP1 b a d => some (put 24 b.toNat (put 16 a.toNat (put 9 d.toNat 151)))
  | .selP2 b a d => some (put 24 b.toNat (put 16 a.toNat (put 9 d.toNat 167)))
  | .selP3 b a d => some (put 24 b.toNat (put 16 a.toNat (put 9 d.toNat 183)))
  | .icmpeq b a p => some (put 24 b.toNat (put 16 a.toNat (put 9 p.toNat 199)))
  | .icmpne b a p => some (put 24 b.toNat (put 16 a.toNat (put 9 p.toNat 215)))
  | .icmplt b a p => some (put 24 b.toNat (put 16 a.toNat (put 9 p.toNat 231)))
  | .icmple b a p => some (put 24 b.toNat (put 16 a.toNat (put 9 p.toNat 247)))
  | .icmpltn b a p => some (put 24 b.toNat (put 16 a.toNat (put 9 p.toNat 263)))
  | .icmplen b a p => some (put 24 b.toNat (put 16 a.toNat (put 9 p.toNat 279)))
  | .fcmpeq b a p => some (put 24 b.toNat (put 16 a.toNat (put 9 p.toNat 295)))
  | .fcmpne b a p => some (put 24 b.toNat (put 16 a.toNat (put 9 p.toNat 311)))
  | .fcmplt b a p => some (put 24 b.toNat (put 16 a.toNat (put 9 p.toNat 327)))
  | .fcmple b a p => some (put 24 b.toNat (put 16 a.toNat (put 9 p.toNat 343)))
  | .fcmpun b a p => some (put 24 b.toNat (put 16 a.toNat (put 9 p.toNat 359)))
  | .plop t y x p => some (put 24 t.toNat (put 18 y.toNat (put 16 x.toNat (put 9 p.toNat 375))))
  | .cvt m s t a d => some (put 30 m.toNat (put 27 s.toNat (put 24 t.toNat (put 16 a.toNat (put 9 d.toNat 391)))))
  | .cvt8 r t f p a d => some (put 31 r.toNat (put 30 t.toNat (put 29 f.toNat (put 24 p.toNat (put 16 a.toNat (put 9 d.toNat 407))))))
  | .cvt8n f p a d => some (put 29 f.toNat (put 24 p.toNat (put 16 a.toNat (put 9 d.toNat 423))))
  | .movp b p d => some (put 24 b.toNat (put 16 p.toNat (put 9 d.toNat 439)))
  | .sadd b a d => some (put 24 b.toNat (put 16 a.toNat (put 9 d.toNat 9)))
  | .ssub b a d => some (put 24 b.toNat (put 16 a.toNat (put 9 d.toNat 25)))
  | .smul b a d => some (put 24 b.toNat (put 16 a.toNat (put 9 d.toNat 41)))
  | .smulh b a d => some (put 24 b.toNat (put 16 a.toNat (put 9 d.toNat 57)))
  | .smulhn b a d => some (put 24 b.toNat (put 16 a.toNat (put 9 d.toNat 73)))
  | .sdiv b a d => some (put 24 b.toNat (put 16 a.toNat (put 9 d.toNat 89)))
  | .sdivn b a d => some (put 24 b.toNat (put 16 a.toNat (put 9 d.toNat 105)))
  | .srem b a d => some (put 24 b.toNat (put 16 a.toNat (put 9 d.toNat 121)))
  | .sremn b a d => some (put 24 b.toNat (put 16 a.toNat (put 9 d.toNat 137)))
  | .smin b a d => some (put 24 b.toNat (put 16 a.toNat (put 9 d.toNat 153)))
  | .sminn b a d => some (put 24 b.toNat (put 16 a.toNat (put 9 d.toNat 169)))
  | .smax b a d => some (put 24 b.toNat (put 16 a.toNat (put 9 d.toNat 185)))
  | .smaxn b a d => some (put 24 b.toNat (put 16 a.toNat (put 9 d.toNat 201)))
  | .sand b a d => some (put 24 b.toNat (put 16 a.toNat (put 9 d.toNat 217)))
  | .sor b a d => some (put 24 b.toNat (put 16 a.toNat (put 9 d.toNat 233)))
  | .sxor b a d => some (put 24 b.toNat (put 16 a.toNat (put 9 d.toNat 249)))
  | .sshl b a d => some (put 24 b.toNat (put 16 a.toNat (put 9 d.toNat 265)))
  | .sshr b a d => some (put 24 b.toNat (put 16 a.toNat (put 9 d.toNat 281)))
  | .sshra b a d => some (put 24 b.toNat (put 16 a.toNat (put 9 d.toNat 297)))
  | .sclz b a d => some (put 24 b.toNat (put 16 a.toNat (put 9 d.toNat 313)))
  | .spopc b a d => some (put 24 b.toNat (put 16 a.toNat (put 9 d.toNat 329)))
  | .sbfx b a d => some (put 24 b.toNat (put 16 a.toNat (put 9 d.toNat 345)))
  | .smov b a d => some (put 24 b.toNat (put 16 a.toNat (put 9 d.toNat 361)))
  | .slil i d => some (put 16 i.toNat (put 9 d.toNat 377))
  | .slih i d => some (put 16 i.toNat (put 9 d.toNat 393))
  | .saddd b a d => some (put 24 b.toNat (put 16 a.toNat (put 9 d.toNat 409)))
  | .ssubd b a d => some (put 24 b.toNat (put 16 a.toNat (put 9 d.toNat 425)))
  | .scmp b a => some (put 24 b.toNat (put 16 a.toNat 65465))
  | .srd b a d => some (put 24 b.toNat (put 16 a.toNat (put 9 d.toNat 457)))
  | .swr b a => some (put 24 b.toNat (put 16 a.toNat 65497))
  | .wset b a n => some (put 24 b.toNat (put 16 a.toNat (put 9 n.toNat 489)))
  | .wadd b a n => some (put 24 b.toNat (put 16 a.toNat (put 9 n.toNat 505)))
  | .ldb h s e o d => some (put 30 h.toNat (put 28 s.toNat (put 24 e.toNat (put 16 o.toNat (put 9 d.toNat 11)))))
  | .ldbs h s e o d => some (put 30 h.toNat (put 28 s.toNat (put 24 e.toNat (put 16 o.toNat (put 9 d.toNat 27)))))
  | .ldh h s e o d => some (put 30 h.toNat (put 28 s.toNat (put 24 e.toNat (put 16 o.toNat (put 9 d.toNat 43)))))
  | .ldhs h s e o d => some (put 30 h.toNat (put 28 s.toNat (put 24 e.toNat (put 16 o.toNat (put 9 d.toNat 59)))))
  | .ldw h s e o d => some (put 30 h.toNat (put 28 s.toNat (put 24 e.toNat (put 16 o.toNat (put 9 d.toNat 75)))))
  | .ldd h s e o d => some (put 30 h.toNat (put 28 s.toNat (put 24 e.toNat (put 16 o.toNat (put 9 d.toNat 91)))))
  | .ldq h s e o d => some (put 30 h.toNat (put 28 s.toNat (put 24 e.toNat (put 16 o.toNat (put 9 d.toNat 107)))))
  | .stb h s e o d => some (put 30 h.toNat (put 28 s.toNat (put 24 e.toNat (put 16 o.toNat (put 9 d.toNat 123)))))
  | .sth h s e o d => some (put 30 h.toNat (put 28 s.toNat (put 24 e.toNat (put 16 o.toNat (put 9 d.toNat 139)))))
  | .stw h s e o d => some (put 30 h.toNat (put 28 s.toNat (put 24 e.toNat (put 16 o.toNat (put 9 d.toNat 155)))))
  | .std h s e o d => some (put 30 h.toNat (put 28 s.toNat (put 24 e.toNat (put 16 o.toNat (put 9 d.toNat 171)))))
  | .stq h s e o d => some (put 30 h.toNat (put 28 s.toNat (put 24 e.toNat (put 16 o.toNat (put 9 d.toNat 187)))))
  | .ldsw s o d => some (put 28 s.toNat (put 16 o.toNat (put 9 d.toNat 203)))
  | .ldsd s o d => some (put 28 s.toNat (put 16 o.toNat (put 9 d.toNat 219)))
  | .ldsq s o d => some (put 28 s.toNat (put 16 o.toNat (put 9 d.toNat 235)))
  | .stsw s o d => some (put 28 s.toNat (put 16 o.toNat (put 9 d.toNat 251)))
  | .stsd s o d => some (put 28 s.toNat (put 16 o.toNat (put 9 d.toNat 267)))
  | .stsq s o d => some (put 28 s.toNat (put 16 o.toNat (put 9 d.toNat 283)))
  | .lduw h s e o d => some (put 30 h.toNat (put 28 s.toNat (put 24 e.toNat (put 16 o.toNat (put 9 d.toNat 299)))))
  | .ldud h s e o d => some (put 30 h.toNat (put 28 s.toNat (put 24 e.toNat (put 16 o.toNat (put 9 d.toNat 315)))))
  | .ldba h s e o d => some (put 30 h.toNat (put 28 s.toNat (put 24 e.toNat (put 16 o.toNat (put 9 d.toNat 331)))))
  | .stba h s e o d => some (put 30 h.toNat (put 28 s.toNat (put 24 e.toNat (put 16 o.toNat (put 9 d.toNat 347)))))
  | .gath4 h s e o d => some (put 30 h.toNat (put 28 s.toNat (put 24 e.toNat (put 16 o.toNat (put 9 d.toNat 363)))))
  | .pref h s e o => some (put 30 h.toNat (put 28 s.toNat (put 24 e.toNat (put 16 o.toNat 65403))))
  | .bra o => some (put 9 o.toNat 13)
  | .brz o => some (put 9 o.toNat 29)
  | .brnz o => some (put 9 o.toNat 45)
  | .brn o => some (put 9 o.toNat 61)
  | .brnn o => some (put 9 o.toNat 77)
  | .brc o => some (put 9 o.toNat 93)
  | .brnc o => some (put 9 o.toNat 109)
  | .brvP0 o => some (put 9 o.toNat 125)
  | .brvP1 o => some (put 9 o.toNat 141)
  | .brvP2 o => some (put 9 o.toNat 157)
  | .brvP3 o => some (put 9 o.toNat 173)
  | .brany o => some (put 9 o.toNat 189)
  | .brall o => some (put 9 o.toNat 205)
  | .bre o => some (put 9 o.toNat 221)
  | .call o => some (put 9 o.toNat 237)
  | .mov s d => some (put 11 s.toNat (put 5 d.toNat 0))
  | .iadd16 s d => some (put 11 s.toNat (put 5 d.toNat 2))
  | .isub16 s d => some (put 11 s.toNat (put 5 d.toNat 4))
  | .imul16 s d => some (put 11 s.toNat (put 5 d.toNat 6))
  | .and16 s d => some (put 11 s.toNat (put 5 d.toNat 8))
  | .or16 s d => some (put 11 s.toNat (put 5 d.toNat 10))
  | .xor16 s d => some (put 11 s.toNat (put 5 d.toNat 12))
  | .shl16 s d => some (put 11 s.toNat (put 5 d.toNat 14))
  | .shr16 s d => some (put 11 s.toNat (put 5 d.toNat 16))
  | .shra16 s d => some (put 11 s.toNat (put 5 d.toNat 18))
  | .fadd16 s d => some (put 11 s.toNat (put 5 d.toNat 20))
  | .fsub16 s d => some (put 11 s.toNat (put 5 d.toNat 22))
  | .fmul16 s d => some (put 11 s.toNat (put 5 d.toNat 24))
  | .fmin16 s d => some (put 11 s.toNat (put 5 d.toNat 26))
  | .fmax16 s d => some (put 11 s.toNat (put 5 d.toNat 28))
  | .sel16 s d => some (put 11 s.toNat (put 5 d.toNat 30))
  | .nop => some 15
  | .exit => some 527
  | .join => some 1039
  | .ret => some 1551
  | .jmpi a => some (put 16 a.toNat 2063)
  | .yield => some 2575
  | .sleep a => some (put 16 a.toNat 3087)
  | .waitc b p => some (put 24 b.toNat (put 16 p.toNat 3599))
  | .idem => some 4111
  | .scopeOpen a => some (put 16 a.toNat 4623)
  | .scopeClose => some 5135
  | .emget k => some (put 16 k.toNat 5647)
  | .emset b a => some (put 24 b.toNat (put 16 a.toNat 6159))
  | .emand b a => some (put 24 b.toNat (put 16 a.toNat 6671))
  | .trap c => some (put 16 c.toNat 7183)
  | .rte => some 7695
  | .icinv b a => some (put 24 b.toNat (put 16 a.toNat 8207))
  | .fence c s p => some (put 21 c.toNat (put 18 s.toNat (put 16 p.toNat 8719)))
  | .stampBegin a => some (put 16 a.toNat 9231)
  | .stampEnd a => some (put 16 a.toNat 9743)
  | .mcfg b a => some (put 24 b.toNat (put 16 a.toNat 10255))
  | .actLd b n => some (put 24 b.toNat (put 16 n.toNat 10767))
  | .badd b n => some (put 24 b.toNat (put 16 n.toNat 11279))
  | .bset k n => some (put 24 k.toNat (put 16 n.toNat 11791))
  | .bget k n => some (put 24 k.toNat (put 16 n.toNat 12303))
  | .wfence => some 12815
  | .xshf b a d => some (put 24 b.toNat (put 16 a.toNat (put 9 d.toNat 31)))
  | .xdn b a d => some (put 24 b.toNat (put 16 a.toNat (put 9 d.toNat 47)))
  | .xup b a d => some (put 24 b.toNat (put 16 a.toNat (put 9 d.toNat 63)))
  | .xrot b a d => some (put 24 b.toNat (put 16 a.toNat (put 9 d.toNat 79)))
  | .xbfly b a d => some (put 24 b.toNat (put 16 a.toNat (put 9 d.toNat 95)))
  | .xred o a d => some (put 24 o.toNat (put 16 a.toNat (put 9 d.toNat 111)))
  | .xscan e o a d => some (put 31 e.toNat (put 24 o.toNat (put 16 a.toNat (put 9 d.toNat 127))))
  | .xbal h p d => some (put 24 h.toNat (put 16 p.toNat (put 9 d.toNat 143)))
  | .xbcast b a d => some (put 24 b.toNat (put 16 a.toNat (put 9 d.toNat 159)))
  | .xfirst a d => some (put 16 a.toNat (put 9 d.toNat 175))
  | .mma b a => some (put 24 b.toNat (put 16 a.toNat 191))
  | .accAlloc h => some (put 28 h.toNat 65231)
  | .accFree h => some (put 28 h.toNat 16842447)
  | .accZero h => some (put 28 h.toNat 33619663)
  | .accRd h a d => some (put 28 h.toNat (put 24 3 (put 16 a.toNat (put 9 d.toNat 207))))
  | .accWr h a => some (put 28 h.toNat (put 24 4 (put 16 a.toNat 65231)))
  | .accMask h a => some (put 28 h.toNat (put 24 5 (put 16 a.toNat 65231)))
  | .accRowmax h d => some (put 28 h.toNat (put 24 6 (put 9 d.toNat 207)))
  | .accRowsum h d => some (put 28 h.toNat (put 24 7 (put 9 d.toNat 207)))
  | .accRowscl h a => some (put 28 h.toNat (put 24 8 (put 16 a.toNat 65231)))
  | .fragLda a d => some (put 16 a.toNat (put 9 d.toNat 223))
  | .fragLdb a d => some (put 24 1 (put 16 a.toNat (put 9 d.toNat 223)))
  | .fragLdas a d => some (put 24 2 (put 16 a.toNat (put 9 d.toNat 223)))
  | .fragLdbs a d => some (put 24 3 (put 16 a.toNat (put 9 d.toNat 223)))
  | .permLd n a => some (put 28 n.toNat (put 16 a.toNat 65263))
  | .permLdg n a => some (put 28 n.toNat (put 24 1 (put 16 a.toNat 65263)))
  | .permId n => some (put 28 n.toNat 33619695)
  | .permInv m n => some (put 30 m.toNat (put 28 n.toNat 50396911))
  | .permCmp m n k => some (put 30 m.toNat (put 28 n.toNat (put 24 4 (put 16 k.toNat 65263))))
  | .permRnd n a => some (put 28 n.toNat (put 24 5 (put 16 a.toNat 65263)))
  | .permPack n k => some (put 28 n.toNat (put 24 6 (put 16 k.toNat 65263)))
  | .permApply n a d => some (put 28 n.toNat (put 24 7 (put 16 a.toNat (put 9 d.toNat 239))))
  | .permSt n a => some (put 28 n.toNat (put 24 8 (put 16 a.toNat 65263)))
  | .permCyc n d => some (put 28 n.toNat (put 24 9 (put 9 d.toNat 239)))
  | .permAcc n h => some (put 28 n.toNat (put 24 h.toNat 65279))
  | .atom32 v a x e => some (put 24 v.toNat (put 16 a.toNat (put 13 x.toNat (put 9 e.toNat 271))))
  | .atom64 v a x e => some (put 24 v.toNat (put 16 a.toNat (put 13 x.toNat (put 9 e.toNat 287))))
  | .atoms v a x => some (put 24 v.toNat (put 16 a.toNat (put 13 x.toNat 303)))
  | .cas v a w s e => some (put 24 v.toNat (put 16 a.toNat (put 15 w.toNat (put 13 s.toNat (put 9 e.toNat 319)))))
  | .ringInit a => some (put 16 a.toNat 335)
  | .ringWait b a => some (put 24 b.toNat (put 16 a.toNat 847))
  | .ringRel b a => some (put 24 b.toNat (put 16 a.toNat 1359))
  | .ringStat b a => some (put 24 b.toNat (put 16 a.toNat 1871))
  | .barInit b a => some (put 24 b.toNat (put 16 a.toNat 351))
  | .barArrive a => some (put 16 a.toNat 863)
  | .barWait b a => some (put 24 b.toNat (put 16 a.toNat 1375))
  | .barStat a => some (put 16 a.toNat 1887)
  | .barSync a => some (put 16 a.toNat 2399)
  | .xcopyIn k n a => some (put 28 k.toNat (put 24 n.toNat (put 16 a.toNat 367)))
  | .xcopyOut k n a => some (put 28 k.toNat (put 24 n.toNat (put 16 a.toNat 879)))
  | .xcopyCommit k n a => some (put 28 k.toNat (put 24 n.toNat (put 16 a.toNat 1391)))
  | .xcopyRows k n a => some (put 28 k.toNat (put 24 n.toNat (put 16 a.toNat 1903)))
  | .mqSend q a => some (put 28 q.toNat (put 16 a.toNat 65407))
  | .mqRecv q a d => some (put 28 q.toNat (put 24 1 (put 16 a.toNat (put 9 d.toNat 383))))
  | .mqPop q a => some (put 28 q.toNat (put 24 2 (put 16 a.toNat 65407)))
  | .tagLook a => some (put 16 a.toNat 399)
  | .tagSet b a => some (put 24 b.toNat (put 16 a.toNat 911))
  | .tagClr a => some (put 16 a.toNat 1423)
  | .tagInv => some 1935
  | .ssetInit k n a => some (put 28 k.toNat (put 24 n.toNat (put 16 a.toNat 415)))
  | .ssetAdd b a => some (put 24 b.toNat (put 16 a.toNat 927))
  | .ssetBuild a => some (put 16 a.toNat 1439)
  | .ssetBind a => some (put 16 a.toNat 1951)
  | .ssetUnbind a => some (put 16 a.toNat 2463)
  | .ssetFree a => some (put 16 a.toNat 2975)
  | .ssetQuery n a => some (put 24 n.toNat (put 16 a.toNat 3487))
  | .rastEmit k n a => some (put 28 k.toNat (put 24 n.toNat (put 16 a.toNat 431)))
  | .rastDraw k n => some (put 28 k.toNat (put 24 n.toNat 943))
  | .rastSin n => some (put 24 n.toNat 1455)
  | .rastSout b a => some (put 24 b.toNat (put 16 a.toNat 1967))
  | .rastSkip => some 2479
  | .treemask h a d => some (put 24 h.toNat (put 16 a.toNat (put 9 d.toNat 447)))
  | .privTeamgo k n a => some (put 28 k.toNat (put 24 n.toNat (put 16 a.toNat 463)))
  | .privTeamdone => some 975
  | .privAgsleep a => some (put 16 a.toNat 1487)
  | .privWkpop k => some (put 16 k.toNat 1999)
  | .dbgTracew b a => some (put 24 b.toNat (put 16 a.toNat 479))
  | .dbgPcsmp a => some (put 16 a.toNat 991)
  | .ordInit b a => some (put 24 b.toNat (put 16 a.toNat 495))
  | .ordEnter b a => some (put 24 b.toNat (put 16 a.toNat 1007))
  | .ordTry b a => some (put 24 b.toNat (put 16 a.toNat 1519))
  | .ordWait b a => some (put 24 b.toNat (put 16 a.toNat 2031))
  | .ordLeave b a => some (put 24 b.toNat (put 16 a.toNat 2543))
  | .ordLeavev b a => some (put 24 b.toNat (put 16 a.toNat 3055))
  | .ordQuery a => some (put 16 a.toNat 3567)
  | .identRead => none
  | .attest => none
  | .slotWrite => none
  | .authRecovery => none
  | .devReset => none
  | .powerSet => none
  | .powerCap => none
  | .tickstop => none
  | .stopStatus => none
  | .ctxDefine => none
  | .ctxAdmit => none
  | .ctxSave => none
  | .ctxRestore => none
  | .ctxRelease => none
  | .ctxPrio => none
  | .ctxQuery => none
  | .ctxFail => none
  | .queueMap => none
  | .queueReset => none
  | .queueUnmap => none
  | .launchQuery => none
  | .tlbInval => none
  | .pageResume => none
  | .pageFail => none
  | .linkEnable => none
  | .linkFence => none
  | .linkUnfence => none
  | .linkSetup => none
  | .trapSetup => none
  | .traceSetup => none
  | .pcbpSet => none
  | .pcsampleSetup => none
  | .dbgList => none
  | .dbgRead => none
  | .dbgWrite => none
  | .dbgResume => none
  | .mbCmdUnlisted _ => none
  | .mbStatusWrite _ => none
  | .tflagsWrite _ => none
  | .bar2Write _ _ => none
  | .registerWrite _ _ => none
  | .queuePoll _ => none
  | .launch _ => none
  | .draw _ => none
  | .signal _ => none
  | .waitv _ => none
  | .codesync _ => none
  | .prio _ => none
  | .mark _ => none
  | .pad _ => none
  | .packetComplete _ _ => none
  | .waitvPoll _ => none
  | .waitvTimeout _ => none
  | .launchClaim _ => none
  | .teamComplete _ => none
  | .groupRetire _ => none
  | .groupKill _ => none
  | .loadFill _ _ => none
  | .pathOpComplete _ _ => none
  | .promotion _ _ => none
  | .sleepWake _ _ => none
  | .accStarve _ _ => none
  | .ordTimeout _ _ => none
  | .migratingRetry _ _ => none
  | .rollback _ _ _ => none
  | .trapEntry _ => none
  | .icacheLineFill _ _ _ => none
  | .solveDone _ => none
  | .bankZeroDone _ _ _ => none
  | .bankScrubDone _ _ _ _ => none
  | .xcopyStart _ _ => none
  | .sluiceChunk _ _ => none
  | .xcopyEnd _ _ => none
  | .mqDeliver _ _ => none
  | .ssetBuildEnd _ _ => none
  | .rasterStageJob _ _ => none
  | .unitPublish _ _ => none
  | .drawRelease _ => none
  | .keyAbandon _ _ => none
  | .groupPreempt _ => none
  | .coreRestore _ _ => none
  | .ctxSaveDone _ => none
  | .ctxRestoreDone _ => none
  | .ctxReleaseDone _ => none
  | .queueResetDone _ => none
  | .tlbInvalDone => none
  | .prioUpdateApply _ _ => none
  | .remoteOpArrive _ _ _ _ _ => none
  | .generationNotice _ _ _ => none
  | .linkTrainingStart _ => none
  | .linkTrained _ _ _ => none
  | .linkTrainingTimeout _ => none
  | .linkLaneLost _ _ => none
  | .linkDown _ => none
  | .flitCrcError _ => none
  | .cxlMemRead _ _ => none
  | .cxlMemWrite _ _ => none
  | .cxlSnoop _ => none
  | .resetRelease => none
  | .powerLoss => none
  | .telemetryUpdate _ _ => none
  | .thermalFailsafe => none
  | .tickStop => none
  | .pcSample _ _ => none
  | .pcComparatorMatch _ => none
  | .agsleepWake _ => none
  | .reservedEncoding _ => none
  | .scanChainShift _ => none
  | .directedCommandAck _ => none
  | .generationNoticeAck _ _ _ => none

/-- Bytes of an instruction: 2 for the 16-bit forms, 4 for the other encoded forms (R237). -/
def Instr.len : Instr → Nat
  | .mov _ _ => 2
  | .iadd16 _ _ => 2
  | .isub16 _ _ => 2
  | .imul16 _ _ => 2
  | .and16 _ _ => 2
  | .or16 _ _ => 2
  | .xor16 _ _ => 2
  | .shl16 _ _ => 2
  | .shr16 _ _ => 2
  | .shra16 _ _ => 2
  | .fadd16 _ _ => 2
  | .fsub16 _ _ => 2
  | .fmul16 _ _ => 2
  | .fmin16 _ _ => 2
  | .fmax16 _ _ => 2
  | .sel16 _ _ => 2
  | _ => 4

end Sys2Proof
end

