-- ==== Sys2Proof/Machine/HostRead.lean ====
section
/-! DEFINITION. What the host reads: the images of the context table and of the queue descriptors in BAR2, the registers of BAR0
(03_context.md R44, 04_queue.md R55, 15_link.md R228, R235, 26_bringup.md R396, R397, R403). Reserved bits read 0 (R5). -/
namespace Sys2Proof.Machine
open Sys2Proof

/-- A field of k bits at bit lo. -/
def bitsAt (x lo k : Nat) : Nat := x % 2 ^ k * 2 ^ lo

/-- The 512 bits of a context-table entry (R44). -/
def Ctx.entryBits (c : Ctx) : Nat :=
  bitsAt c.qmax 480 16 + bitsAt c.savemb 448 32 + bitsAt c.savebase.toNat 384 64 + bitsAt c.ordwait 352 32 + bitsAt c.ovlog2 320 8 + bitsAt c.ovbase.toNat 256 64
    + bitsAt c.fllog2 192 8 + bitsAt c.flbase.toNat 128 64 + bitsAt c.root.toNat 64 64 + bitsAt c.gen.toNat 32 16 + bitsAt c.astag 16 16 + bitsAt c.prio 12 4
    + bitsAt c.rslot 8 2 + bitsAt c.state.num 0 8

/-- The STATE code of a queue (R55). -/
def QState.num : QState → Nat
  | .unmapped => 0 | .idle => 1 | .active => 2 | .stalled => 3 | .error => 4 | .resetting => 5

/-- The 512 bits of a queue descriptor (R55). -/
def Queue.descBits (q : Queue) : Nat :=
  bitsAt q.ridxAddr.toNat 384 64 + bitsAt q.widxAddr.toNat 320 64 + bitsAt q.ring.toNat 256 64 + bitsAt q.ridx 192 64 + bitsAt q.pollns 128 32 + bitsAt q.err 96 8
    + bitsAt q.qgen.toNat 88 8 + bitsAt q.home 80 3 + bitsAt q.ctx 64 6 + bitsAt q.log2 48 5 + bitsAt q.cls 38 2 + bitsAt q.priook.toNat 37 1 + bitsAt q.state.num 0 8

/-- The STATE code of a port (R228). -/
def PortState.num : PortState → Nat
  | .down => 0 | .training => 1 | .up => 2 | .degraded => 3 | .fenced => 4

/-- A port's status register (R228). -/
def Port.statusBits (p : Port) : Nat :=
  bitsAt p.peer 53 11 + bitsAt p.retrains.toNat 32 16 + bitsAt p.replays 16 16 + bitsAt p.lanes 8 3 + bitsAt p.state.num 0 3

/-- TFLAGS and the telemetry registers, by offset (R403). -/
def Power.reg (p : Power) (offset : Nat) : Nat :=
  if offset = 0x9000 then p.mw
  else if offset = 0x9008 then p.seenStep
  else if offset = 0x9010 then p.seenCap
  else if offset = 0x9018 then p.hot.toNat * 2 + p.overcap.toNat
  else if 0x9020 ≤ offset ∧ offset < 0x90A0 then p.temps.getD ((offset - 0x9020) / 8) 0
  else if offset = 0x90A0 then p.corrected
  else if offset = 0x90A8 then p.withheld
  else 0

/-- The 64-bit register of BAR0 at an offset that is a multiple of 8, or the window's bytes there; none where the host does not reach it (R396).
MB_CMD reads as last written (notes/assumptions/70.md). -/
def State.bar0Read (s : State) (offset : Nat) : Option (BitVec 64) :=
  let at_ (bs : List Byte) (o : Nat) : Nat := leNat ((bs.drop o).take 8)
  if !s.reachesBar offset then none
  else some (BitVec.ofNat 64 (
    if offset = 0 then s.dev.mb.cmd
    else if offset < 0x100 then at_ s.dev.mb.params (offset - 8)
    else if offset = 0x100 then s.dev.status
    else if 0x200 ≤ offset ∧ offset < 0x400 then at_ s.dev.mb.response (offset - 0x200)
    else if 0x8000 ≤ offset ∧ offset < 0x8120 then (s.port ((offset - 0x8000) / 8)).statusBits
    else if 2 ^ 20 ≤ offset then (if s.dev.devstate = .recovery then leNat (s.dev.window.readBytes (offset - 2 ^ 20) 8) else 0)
    else s.dev.power.reg offset))

/-- The 64 bytes of BAR2 from an offset that is a multiple of 64 (R235): context entries from 0, queue descriptors from 0x4_0000. -/
def State.bar2Read (s : State) (offset : Nat) : Option (BitVec 512) :=
  if s.dev.devstate = .recovery then none
  else some (BitVec.ofNat 512 (
    if offset < 64 * 64 then (s.ctx (offset / 64)).entryBits
    else if 0x40000 ≤ offset ∧ offset < 0x40000 + 64 * 4096 then (s.queue ((offset - 0x40000) / 64)).descBits
    else 0))

/-- A host write of 64 bits to BAR0, as the rows of the opcode table that it is (R235, R397, R403): a command by its opcode, MB_STATUS, TFLAGS,
or a register without a row of its own. Bits [63:16] written to MB_CMD, which R397 does not name, are dropped without RSVW, a choice of the model
(R5, notes/assumptions/74.md). -/
noncomputable def hostWrite (offset : Nat) (v : BitVec 64) : Instr :=
  if offset = 0 then mbCommand (v.setWidth 16)
  else if offset = 0x100 then .mbStatusWrite v
  else if offset = 0x9018 then .tflagsWrite v
  else .registerWrite offset v

/-- MB_CMD keeps the opcode written to it. -/
def State.noteCommand (s : State) (offset : Nat) (v : BitVec 64) : State := if offset = 0 then s.setMb fun m => { m with cmd := v.toNat % 2 ^ 16 } else s

end Sys2Proof.Machine
end

