-- ==== Sys2Proof/Machine/Sched.lean ====
section
/-! DEFINITION. Who acts next where State does not say it (06_group.md R98, R103, notes/assumptions/2.md): the entity that issues,
the events that may be due, an agent's service of an open launch; bit errors that arise; what an entity issues; and the placing of
an instruction where the next step fetches it. -/
namespace Sys2Proof.Machine
open Sys2Proof

/-! ## Events and the states of the device (R391, R395, R396, R399) -/

/-- The events of the management processor, its mailbox and its registers, which a stopped module keeps (R391), and those of boot
and recovery. Commands refuse by themselves where DEVSTATE does not take them. -/
def management : Instr → Bool
  | .resetRelease => true | .devReset => true | .powerLoss => true | .authRecovery => true | .identRead => true | .attest => true
  | .slotWrite => true | .powerSet => true | .powerCap => true | .tickstop => true | .stopStatus => true
  | .ctxDefine => true | .ctxAdmit => true | .ctxSave => true | .ctxRestore => true | .ctxRelease => true | .ctxPrio => true | .ctxQuery => true | .ctxFail => true
  | .queueMap => true | .queueReset => true | .queueUnmap => true | .launchQuery => true | .tlbInval => true | .pageResume => true | .pageFail => true
  | .linkEnable => true | .linkFence => true | .linkUnfence => true | .linkSetup => true
  | .trapSetup => true | .traceSetup => true | .pcbpSet => true | .pcsampleSetup => true
  | .dbgList => true | .dbgRead => true | .dbgWrite => true | .dbgResume => true
  | .mbCmdUnlisted _ => true | .mbStatusWrite _ => true | .tflagsWrite _ => true | .bar2Write _ _ => true | .registerWrite _ _ => true
  | .telemetryUpdate _ _ => true | .thermalFailsafe => true | .scanChainShift _ => true
  | _ => false

/-- Whether a row is an event: a row that no word encodes, and that no entity issues. -/
def isEvent (i : Instr) : Bool := (encode i).isNone && (match i with | .reservedEncoding _ => false | _ => true)

/-- Whether an event may be tried in a state of the device. -/
def State.allows (s : State) (i : Instr) : Bool := isEvent i && (management i || decide (s.dev.devstate = .ready))

/-! ## The entity that issues (R103) -/

/-- The candidates: READY entities that can issue. -/
def State.candidates (s : State) : List (Group × Entity) :=
  s.allGroups.flatMap fun g => (g.sibs.filter fun e => e.status = .ready && s.canIssue g e).map fun e => (g, e)

/-- The rank of a candidate within its partition (R103, R271): the agent, promoted entities, priority, age, entity number. -/
def State.rank (s : State) (g : Group) (e : Entity) : Nat :=
  let c := s.ctx (s.teamOf g.team).ctx
  let low := (if e.yielded then 2 ^ 70 else 0) + g.age * 32 + e.num
  if g.agent then 0
  else match e.promoted with
    | some t => 2 ^ 80 + t * 2 ^ 72 + low
    | none => 2 ^ 150 + (15 - ((s.coreOf g.loc.core).prio c).prio) * 2 ^ 72 + low

/-- Partitions take turns, from the one after that of the entity in front. -/
def State.distance (s : State) (l : GLoc) : Nat := (l.core * 16 + l.part + 13312 - (s.core.num * 16 + s.grp.loc.part) - 1) % 13312

/-- The first of the elements with the least key. -/
def least {α : Type} (f : α → Nat) : List α → Option α
  | [] => none
  | a :: t => match least f t with
    | none => some a
    | some b => if f a ≤ f b then some a else some b

/-- The waiting entities that would issue if their wait ended. -/
def State.waiters (s : State) : List (Group × Entity) :=
  s.allGroups.flatMap fun g => (g.sibs.filter fun e => (match e.status with | .waiting _ => true | _ => false) && s.canIssue g e).map fun e => (g, e)

/-- The first of some entities in the order in which they issue: by partition, then by rank (R103). -/
def State.firstOf (s : State) (l : List (Group × Entity)) : Option ELoc :=
  (least (fun x => s.distance x.1.loc * 2 ^ 160 + s.rank x.1 x.2) l).map fun x => ⟨x.1.loc, x.2.num⟩

/-- What the entity in front issues: a line is fetched, or the instruction at its PC (R237 to R240). -/
noncomputable def State.nextInstr (s : State) : Option Instr :=
  match s.fetch with
  | .error l => if s.grp.agent then none else some (.icacheLineFill s.grp.loc s.ent.num l)
  | .ok (_, w) => match decode w with
    | .ok i => some i
    | .error _ => some (.reservedEncoding (BitVec.ofNat 32 w))

/-- Whether a word is a memory access on some path (R245, R252): class 5 but for PREF, ACT.LD, and the families of FRAG, PERM.ST, ATOM32 to RAST. -/
def accessWord (len w : Nat) : Bool :=
  let op := fieldOf w 4 5
  len = 4 && ((fieldOf w 1 3 = 5 && op != 23)
    || (fieldOf w 1 3 = 7 && ((op = 0 && fieldOf w 9 7 = 21) || op = 13 || (op = 14 && fieldOf w 24 4 = 8) || (decide (16 ≤ op) && decide (op ≤ 26)))))

/-- What holds the entity in front before it issues (R347): an ENTER or WAIT whose status has not filled, and for an access a TRY's. -/
def State.orderHold (s : State) : Option WaitReason :=
  let open_ (b : Bool) : Bool := (s.grp.earlier s.ent).any fun o => o.order = some b
  if open_ true then some .order
  else match s.fetch with
    | .ok (len, w) => if open_ false && accessWord len w then some .scoreboard else none
    | .error _ => none

/-! ## Events that may be due -/

noncomputable def opEvents (g : Group) : List Instr := (g.ops.filter fun o => !o.done && o.auto).flatMap fun o => [.loadFill g.loc o.id, .pathOpComplete g.loc o.id]

noncomputable def State.entEvents (s : State) (g : Group) : List Instr :=
  let t := s.teamOf g.team
  g.sibs.flatMap fun e => match e.status with
    | .waiting .sleep => [.sleepWake g.loc e.num]
    | .waiting .order => [.ordTimeout g.loc e.num]
    | .faultwait => []
    | _ => match (s.coreOf g.loc.core).fetch (g.codeSpace t) t.cwin e.pc with
      | .error l => [.icacheLineFill g.loc e.num l]
      | .ok _ => []

noncomputable def State.groupEvents (s : State) : List Instr :=
  s.allGroups.flatMap fun g => [.trapEntry g.loc, .groupRetire g.loc, .groupKill g.loc, .groupPreempt g.loc] ++ opEvents g ++ s.entEvents g

noncomputable def copyEvents (core : Nat) (c : Copy) : List Instr := [.xcopyStart core c.id, .sluiceChunk core c.id, .xcopyEnd core c.id]
noncomputable def bankEvents (core : Nat) (b : Bank) : List Instr := [.bankZeroDone core b.part b.bank, .bankScrubDone core b.part b.bank true]

noncomputable def coreEvents (k : Core) : List Instr :=
  List.flatten [[.agsleepWake k.num, .solveDone k.num], k.sluice.flatMap (copyEvents k.num), (List.range 4).map (.mqDeliver k.num), k.banks.flatMap (bankEvents k.num),
    (List.range 16).map (.accStarve k.num)]

noncomputable def startedEvents (q : Nat) (k : Started) : List Instr := .packetComplete q k.n :: k.wait.map fun c => .prioUpdateApply c k.prioCtx

noncomputable def queueEvents (q : Queue) : List Instr :=
  List.flatten [[.queuePoll q.num, .launch q.num, .draw q.num, .signal q.num, .waitv q.num, .codesync q.num, .prio q.num, .mark q.num, .pad q.num, .waitvTimeout q.num, .queueResetDone q.num],
    q.started.flatMap (startedEvents q.num)]

noncomputable def ctxEvents (c : Ctx) : List Instr :=
  List.flatten [[.ctxSaveDone c.num, .ctxRestoreDone c.num, .ctxReleaseDone c.num], c.saved.map fun k => .coreRestore k.core c.num]

noncomputable def drawEvents (w : Draw) : List Instr :=
  .drawRelease w.id.toNat :: w.jobs.flatMap fun j => [.rasterStageJob w.id.toNat j.num, .unitPublish w.id.toNat j.unit]

noncomputable def State.deviceEvents (s : State) : List Instr :=
  List.flatten [s.dev.launches.map fun l => .launchClaim l.id.toNat, (s.allTeams.filter fun t => t.serial != 0).map fun t => .teamComplete t.serial,
    s.dev.keys.map fun k => .keyAbandon k.ctx k.key, s.dev.sets.map fun x => .ssetBuildEnd x.ctx x.handle, s.dev.draws.flatMap drawEvents,
    s.dev.mb.units.map .directedCommandAck, s.dev.strays.flatMap fun k => k.wait.map fun c => .prioUpdateApply c k.prioCtx, [.tlbInvalDone]]

/-- WAITV words are read again at the queue's polling interval (R66). -/
noncomputable def State.waitvEvents (s : State) : List Instr :=
  (s.dev.queues.filter fun q => (s.dev.tick - q.waitSince.getD s.dev.tick) % (firstPoll q.cls * 5 / 4) = 0).map fun q => .waitvPoll q.num

/-- The events that may be due, in the order in which they are tried. -/
noncomputable def State.internalEvents (s : State) : List Instr :=
  s.groupEvents ++ s.allCores.flatMap coreEvents ++ s.dev.ctxs.flatMap ctxEvents ++ s.deviceEvents ++ s.dev.queues.flatMap queueEvents ++ s.waitvEvents

/-- An agent that can act for an open launch or draw (R85, R199). -/
def State.nextServe (s : State) : Option State :=
  s.dev.launches.findSome? fun l => (List.range 832).findSome? fun c => s.serve c l.id

/-! ## Ticks and bit errors -/

/-- The pages under which a waiter still waits once its MIGRATING ones are due to translate again (R173). -/
def retryHeld (l : List HeldPage) : List HeldPage := if l.any HeldPage.migrating then [] else l

/-- Every 65,536 ticks all that waits at MIGRATING pages translates again (R173): entities, copies, commands and draws at the Salterns, packets. -/
def State.retryMigrating (s : State) : State :=
  let s := s.mapGroups fun g => { g with sibs := g.sibs.map fun e =>
    if e.status = .faultwait ∧ e.held.any HeldPage.migrating then { e with status := .ready, held := [], heldFetch := false } else e }
  let s := s.mapCores fun k => { k with sluice := k.sluice.map fun (c : Copy) => { c with held := retryHeld c.held } }
  s.setDev fun d => { d with
    salt := d.salt.map fun (c : HeldCmd) => { c with held := retryHeld c.held }
    sets := d.sets.map fun (x : SampleSet) => { x with held := retryHeld x.held }
    draws := d.draws.map fun (w : Draw) => { w with held := retryHeld w.held }
    queues := d.queues.map fun (q : Queue) => { q with held := retryHeld q.held, started := q.started.map fun (k : Started) => { k with held := retryHeld k.held } } }

/-- The tick at whose end the module freezes (R391): that of a TICKSTOP command, its units told or still to be told. -/
def State.stopTick (s : State) : Option Nat := s.dev.stopAt.or (match s.dev.mb.directed with | .tickstop t => some t | _ => none)

/-- The tick moves on by n (R390), or the module freezes at the end of its stop tick (R391). -/
def State.advance (s : State) (n : Nat) : State :=
  let go (s : State) : State :=
    let t := s.setDev fun d => { d with tick := d.tick + n }
    if s.dev.tick / 65536 = (s.dev.tick + n) / 65536 then t else t.retryMigrating
  match s.stopTick with
  | some at_ => if at_ < s.dev.tick + n then (s.setDev fun d => { d with tick := max d.tick at_ }).freeze at_ .stopped else go s
  | none => go s

/-- Ticks pass; commands that the Salterns turned away are tried again, unless the module has frozen. -/
def State.pass (s : State) (n : Nat) : State := let t := s.advance n; if t.dev.stopped.isSome then t else t.drainSalt

/-- The tick after an issue, unless it has frozen the module (R391). -/
def afterIssue : Outcome → Outcome
  | .next s => .next (if s.dev.stopped.isSome then s else s.advance 1)
  | .fault f => .fault f
  | .refused r => .refused r

/-- A bit error arises in storage (R50, R122, R124, R176, R403). -/
def State.upset (s : State) : Upset → State
  | .memory a => s.setDev fun d => { d with poison := if d.poison.contains a then d.poison else a :: d.poison }
  | .accRow l h m => s.mapGroups fun g =>
      if g.loc = l then { g with acc := putAt none g.acc h ((g.acc.getD h none).map fun k => { k with rows := putAt {} k.rows m { k.rows.getD m {} with bad := true } }) } else g
  | .spad c a => s.onCore c fun k => { k with badSpad := if k.badSpad.contains a then k.badSpad else a :: k.badSpad }
  | .saved n => if (s.ctx n).state = .saving then s.setCtx { s.ctx n with saveBad := true } else s
  | .corrected => { s with core := { s.core with corrected := s.core.corrected + 1 } }

/-! ## Placing an instruction (notes/assumptions/29.md) -/

/-- Puts bytes into the cached line that holds an offset of the code window of the entity in front. -/
def State.putByte (s : State) (pc : Word) (b : Byte) : State :=
  let va := s.lineVA (lineStart pc)
  let space := s.grp.codeSpace s.team
  let old := (s.core.line space va).getD (leBytes 0 128)
  let new : ILine := ⟨space, va, old.set (pc.toNat % 128) b⟩
  { s with core := { s.core with icache := upsert (fun l => l.is space va) new s.core.icache } }
def State.putCode (s : State) : Word → List Byte → State
  | _, [] => s
  | pc, b :: t => (s.putByte pc b).putCode (pc + 1) t

/-- The kernel of the group that `withFetchWord` installs. -/
def loadedKernel : KDesc :=
  { cwin := 0x100000000, entry := 0, coff := 0, clen := 128, gcinit := 0, seed := 0, argsz := 0, widthCode := 0, pair := false, groups := 1, named := 56, peak := 56
    producer := some 0, accres := 1, bars := 1, scratch := 4096, arbours := 0 }

/-- A READY module with a user group of a resident context in front. -/
def State.installUser (s : State) : State :=
  let c : Ctx := { num := 1, state := .resident, astag := 1 }
  let s := (s.setDev fun d => { d with devstate := .ready }).setCtx c
  let h : Hold := ⟨0, [⟨0, 0, 0⟩], 16, 56, 56, 1, 4096, 0, 0, false⟩
  let i : StartInfo := { kd := loadedKernel, args := 0, grid := (1, 1, 1), index := (0, 0, 0), launch := 0, ctx := 1, queue := 0, qgen := 0, ticket := 0, job := none, count := 0, draw := none }
  let s := s.startTeam 0 h i
  (s.focusGroup ⟨0, 0, 0⟩).getD s

/-- A READY module with the agent of core 0 in front. -/
def State.installAgent (s : State) : State :=
  let s := s.setDev fun d => { d with devstate := .ready }
  (s.focus ⟨0, 0, 15⟩ 31).getD s

/-- Whether the entity in front can take the instruction as it is. -/
def State.takesCode (s : State) (agent : Bool) : Bool :=
  s.dev.devstate = .ready && s.ent.live && s.ent.status = .ready && (s.grp.gstate = .ready || s.ent.handling) && s.running && s.grp.agent = agent && s.comparator.isNone
    && s.nextTrap.isNone && (s.grp.earlier s.ent).all (fun o => o.order.isNone) && s.team.serial = s.grp.team

/-- The bytes of an instruction of nbits bits, the bits above them zero. -/
def codeBytes (nbits w : Nat) : List Byte := (Sys2Proof.wordBytes (w % 2 ^ nbits)).take (wordLen (w % 2 ^ nbits))

/-- Whether a word is one of the PRIV family (family 28 of class 7, R363), which only an agent may issue. -/
noncomputable def isPriv (nbits w : Nat) : Bool :=
  match decodeTableWord nbits w with
  | some (.privTeamgo _ _ _) => true | some .privTeamdone => true | some (.privAgsleep _) => true | some (.privWkpop _) => true
  | _ => false

end Sys2Proof.Machine
end

