-- ==== Sys2Proof/Machine/Step.lean ====
section
/-! DEFINITION. One step of the machine, and the placing of an instruction where it is fetched. -/
namespace Sys2Proof.Machine
open Sys2Proof

/-- Why an entity waits after an outcome, at an instruction that has not issued; none where it does not. -/
def waitAfter (g : GLoc) (ent : Nat) : Host.Outcome State Fault Refusal → Option WaitReason
  | .next t => (t.focus g ent).bind fun u => match u.ent.status with
    | .waiting r => some r
    | _ => none
  | _ => none
def stillWaits (g : GLoc) (ent : Nat) (o : Host.Outcome State Fault Refusal) : Bool := (waitAfter g ent o).isSome

/-- The instruction of the entity in front is tried: what an ordered section's form holds waits (R347); a comparator acts where the instruction
would issue (R388). -/
noncomputable def State.tryInstr (s : State) (i : Instr) : Host.Outcome State Fault Refusal :=
  match s.orderHold, s.comparator with
  | some r, _ => .next (s.setEnt fun e => { e with status := .waiting r })
  | none, some c => if s.fetch.isOk && !stillWaits s.grp.loc s.ent.num (exec i s) then exec (.pcComparatorMatch c.index) s else exec i s
  | none, none => exec i s

/-- The entity in front issues: its group's pending traps are entered first (R381). -/
noncomputable def State.issueFront (s : State) : Host.Outcome State Fault Refusal :=
  if s.nextTrap.isSome then exec (.trapEntry s.grp.loc) s
  else match s.nextInstr with
    | some i => s.tryInstr i
    | none => .refused .notDue

/-- The entity issues, or a waiting one tries its instruction again (R97, R98). -/
noncomputable def State.issueAt (s : State) (e : ELoc) : Host.Outcome State Fault Refusal :=
  match s.focus e.g e.ent with
  | none => .refused .notDue
  | some t => if t.canIssue t.stowGroup t.ent && decide (t.ent.status ≠ .faultwait) then t.issueFront else .refused .notDue

/-- A second entity of the group issues in the cycle in which a lower-numbered one trapped (R103, R381): a trap of its own becomes pending. -/
noncomputable def State.issueAlso (s : State) (e : ELoc) : Host.Outcome State Fault Refusal :=
  match s.focus e.g e.ent with
  | none => .refused .notDue
  | some t =>
    if t.grp.trapTick ≠ some t.dev.tick ∨ t.ent.num ≤ t.grp.trapper ∨ t.ent.handling ∨ t.ent.pendingTrap.isSome ∨ t.ent.status ≠ .ready ∨ !t.canIssue { t.stowGroup with gstate := .ready } t.ent then .refused .notDue
    else
      let t : State := { t with grp := { t.grp with trapTick := none } }
      match t.nextInstr with
      | some i => t.tryInstr i
      | none => .refused .notDue

/-- Whether an event may come by itself: a promotion only where no register that the instruction reads is pending (R103); a comparator acts only
where an instruction issues. -/
noncomputable def State.promotable (s : State) : Instr → Bool
  | .promotion g ent => match s.issueAt ⟨g, ent⟩ with
    | .next t => match t.focus g ent with
      | some u => u.ent.status ≠ .waiting .scoreboard
      | none => true
    | _ => true
  | .pcComparatorMatch _ => false
  | _ => true

/-- An event of the list: a host write is that of the row it writes to (R397). -/
noncomputable def State.event (s : State) (i : Instr) : Host.Outcome State Fault Refusal :=
  match i with
  | .registerWrite offset v => exec (hostWrite offset v) (s.noteCommand offset v)
  | i => if s.allows i && s.promotable i then exec i s else .refused .notDue

/-- Something that a READY module does, if it can. -/
def State.whenReady (s : State) (t : Option State) : Host.Outcome State Fault Refusal :=
  if s.dev.devstate ≠ .ready then .refused .notDue else match t with
    | some t => .next t
    | none => .refused .notDue

/-- What a turn of the list does. -/
noncomputable def State.turn (s : State) : Turn → Host.Outcome State Fault Refusal
  | .event i => s.event i
  | .issue e => if s.dev.devstate = .ready then s.issueAt e else .refused .notDue
  | .also e => if s.dev.devstate = .ready then s.issueAlso e else .refused .notDue
  | .serve core id => s.whenReady (s.serve core (BitVec.ofNat 32 id))
  | .pass n => if s.dev.stopped.isSome then .fault .frozen else .next (s.pass n)
  | .upset u => s.whenReady (some (s.upset u))
  | .request e => s.whenReady ((s.focus e.g e.ent).bind State.requestLine)
  | .deliver core => s.whenReady (s.deliverLine core)
  | .version core ctx va => s.whenReady (s.keepVersion core ctx va)
  | .perform g op k => s.whenReady ((s.focusGroup g).bind fun t => t.perform op k)
  | .farReset port q gen => if 35 < port ∨ (s.port port).usable ∨ s.dev.stopped.isSome then .refused .notDue else .next (s.farReset port q gen)
  | .cxl on => if s.dev.devstate = .boot then .next (s.setDev fun d => { d with cxl := on }) else .refused .notDue

/-- Whether an outcome is a next state. -/
def goesOn : Host.Outcome State Fault Refusal → Bool
  | .next _ => true
  | _ => false

/-- Whether the wait of a waiting entity has ended (R97): its instruction issues, or it waits for another reason. -/
noncomputable def State.wakes (s : State) (e : ELoc) : Bool := goesOn (s.issueAt e) && waitAfter e.g e.ent (s.issueAt e) != waitAfter e.g e.ent (.next s)

/-- The entity that issues next: the READY ones and those whose wait has ended are ranked together (R97, R103). -/
noncomputable def State.nextIssue (s : State) : Option ELoc := s.firstOf (s.candidates ++ s.waiters.filter fun x => s.wakes ⟨x.1.loc, x.2.num⟩)

/-- The delivery of a line fill that is in flight. -/
def State.nextDelivery (s : State) : Option State := s.allCores.findSome? fun k => s.deliverLine k.num

/-- What a READY module does where no turn is listed (notes/assumptions/2.md): an event that is due, an issue, a service of an
agent, the delivery of a line fill, the passing of a tick. -/
noncomputable def State.default (s : State) : Host.Outcome State Fault Refusal :=
  match s.internalEvents.find? fun i => goesOn (exec i s) with
  | some i => exec i s
  | none => match s.nextIssue with
    | some e => afterIssue (s.issueAt e)
    | none => match s.nextServe.or s.nextDelivery with
      | some t => .next t
      | none => .next (s.pass 1)

/-- One step: the head of the list of turns, or what follows by itself. -/
noncomputable def step (s : State) : Host.Outcome State Fault Refusal :=
  let s := s.focusTeam s.grp.team
  match s.turns with
  | t :: r => { s with turns := r }.turn t
  | [] => match s.dev.devstate with
    | .boot => exec .resetRelease s
    | .ready => s.default
    | .recovery => .next (s.pass 1)
    | .stopped => .fault .frozen
    | .failsafe => .fault .frozen

/-- The state with an instruction placed where the next step fetches and issues it: in the cached line of the entity in front, if that
entity can take it; else in that of an entity installed for it, a user group's or, for the PRIV family, the agent's. -/
noncomputable def State.withFetchWord (s : State) (nbits w : Nat) : State :=
  let agent := isPriv nbits w
  let t := if s.takesCode agent then s else if agent then s.installAgent else s.installUser
  { t.putCode t.ent.pc (codeBytes nbits w) with turns := .issue ⟨t.grp.loc, t.ent.num⟩ :: t.turns }

end Sys2Proof.Machine
end

