-- ==== Sys2Proof/Laws/Encode.lean ====
section
/-! SUPPORT. How the fields that an encoder puts into a word are read back (R237, R240). -/
namespace Sys2Proof.Laws
open Sys2Proof

/-- c fits in n bits. -/
abbrev Under (n c : Nat) : Prop := c < 2 ^ n

theorem under_put {lo n k c : Nat} (x : BitVec k) (h : Under lo c) (g : lo + k ≤ n) : Under n (put lo x.toNat c) := by
  unfold Under put at *
  have e : 2 ^ (lo + k) ≤ 2 ^ n := Nat.pow_le_pow_right (by omega) g
  rw [Nat.pow_add, Nat.mul_comm] at e
  calc c + x.toNat * 2 ^ lo < (x.toNat + 1) * 2 ^ lo := by rw [Nat.add_mul]; omega
    _ ≤ 2 ^ k * 2 ^ lo := Nat.mul_le_mul_right _ x.isLt
    _ ≤ 2 ^ n := e

theorem under_put_lit {lo n k c x : Nat} (hx : x < 2 ^ k) (h : Under lo c) (g : lo + k ≤ n) : Under n (put lo x c) := by
  simpa [Nat.mod_eq_of_lt hx] using under_put (BitVec.ofNat k x) h g

theorem put_div_at {lo c x : Nat} (h : Under lo c) : put lo x c / 2 ^ lo = x := by
  unfold put Under at *
  rw [Nat.add_mul_div_right _ _ (Nat.two_pow_pos lo), Nat.div_eq_of_lt h, Nat.zero_add]

theorem put_div_below {lo m k : Nat} (x c : Nat) (g : m + k ≤ lo) : put lo x c / 2 ^ m % 2 ^ k = c / 2 ^ m % 2 ^ k := by
  unfold put
  obtain ⟨j, rfl⟩ := Nat.exists_eq_add_of_le g
  have e : x * 2 ^ (m + k + j) = x * 2 ^ j * 2 ^ k * 2 ^ m := by rw [Nat.pow_add, Nat.pow_add]; ring
  rw [e, Nat.add_mul_div_right _ _ (Nat.two_pow_pos m), Nat.add_mul_mod_self_right]

/-- A field put above a field leaves it. -/
theorem bits_put_below {lo m k : Nat} (x c : Nat) (g : m + k ≤ lo) : bits (put lo x c) m k = bits c m k := put_div_below x c g

theorem fld_put_below {lo m k : Nat} (x c : Nat) (g : m + k ≤ lo) : fld (put lo x c) m k = fld c m k := by
  apply BitVec.eq_of_toNat_eq
  simpa [fld] using put_div_below x c g

/-- A field reads as what was put there. -/
theorem fld_put {lo c k : Nat} (x : BitVec k) (h : Under lo c) : fld (put lo x.toNat c) lo k = x := by
  apply BitVec.eq_of_toNat_eq
  simp [fld, put_div_at h]

theorem bits_put {lo c k : Nat} (x : BitVec k) (h : Under lo c) : bits (put lo x.toNat c) lo k = x.toNat := by
  rw [bits, put_div_at h, Nat.mod_eq_of_lt x.isLt]

theorem bits_put_lit {lo c k x : Nat} (hx : x < 2 ^ k) (h : Under lo c) : bits (put lo x c) lo k = x := by
  rw [bits, put_div_at h, Nat.mod_eq_of_lt hx]

/-- Nothing was put above the fields of a word. -/
theorem bits_above {lo k c : Nat} (h : Under lo c) : bits c lo k = 0 := by
  unfold bits; rw [Nat.div_eq_of_lt h, Nat.zero_mod]

theorem put_mod_two {lo : Nat} (x c : Nat) (g : 1 ≤ lo) : put lo x c % 2 = c % 2 := by
  simpa using put_div_below (m := 0) (k := 1) x c (by omega)

theorem decode_odd {w : Nat} (h : Under 32 w) (o : w % 2 = 1) : decode w = checkWf (decode32 w) := by
  rw [decode, if_neg (by omega), Nat.mod_eq_of_lt h]

theorem decode_even {w : Nat} (h : Under 16 w) (o : w % 2 = 0) : decode w = decode16 w := by
  rw [decode, if_pos o, Nat.mod_eq_of_lt h]

end Sys2Proof.Laws
end

