-- ==== Sys2Proof/Laws/PerInstr.lean ====
section
/-! SUPPORT. Per instruction: the word the encoder gives a well-formed instruction decodes to it (R237 to R251). -/
namespace Sys2Proof.Laws.Coding
open Sys2Proof Sys2Proof.Laws

/-- The encoding of a well-formed instruction, where it has one, decodes to the instruction. -/
def Statement (i : Instr) : Prop := ∀ w, encode i = some w → i.wf = true → decode w = .ok i

theorem of_word {i : Instr} {w : Nat} (e : encode i = some w) (u : Under 32 w) (o : w % 2 = 1) (h : decode32 w = .ok i) :
    Statement i := by
  intro v hv hw
  rw [e] at hv; cases hv
  rw [decode_odd u o, h]; simp only [checkWf, hw, ↓reduceIte]

theorem of_half {i : Instr} {w : Nat} (e : encode i = some w) (u : Under 16 w) (o : w % 2 = 0) (h : decode16 w = .ok i) :
    Statement i := by
  intro v hv hw
  rw [e] at hv; cases hv
  rw [decode_even u o, h]

theorem iadd (b a d) : Statement (.iadd b a d) := by
  refine of_word rfl (by (repeat refine under_put _ ?_ (by decide)); decide) (by simp (disch := decide) only [put_mod_two]) ?_
  simp (disch := first | decide | ((repeat refine under_put _ ?_ (by decide)); decide)) only [decode32, decodeVI, bits_put_below, fld_put_below, fld_put, show bits 1 1 3 = 0 from rfl, show bits 1 4 5 = 0 from rfl]
theorem isub (b a d) : Statement (.isub b a d) := by
  refine of_word rfl (by (repeat refine under_put _ ?_ (by decide)); decide) (by simp (disch := decide) only [put_mod_two]) ?_
  simp (disch := first | decide | ((repeat refine under_put _ ?_ (by decide)); decide)) only [decode32, decodeVI, bits_put_below, fld_put_below, fld_put, show bits 17 1 3 = 0 from rfl, show bits 17 4 5 = 1 from rfl]
theorem imul (b a d) : Statement (.imul b a d) := by
  refine of_word rfl (by (repeat refine under_put _ ?_ (by decide)); decide) (by simp (disch := decide) only [put_mod_two]) ?_
  simp (disch := first | decide | ((repeat refine under_put _ ?_ (by decide)); decide)) only [decode32, decodeVI, bits_put_below, fld_put_below, fld_put, show bits 33 1 3 = 0 from rfl, show bits 33 4 5 = 2 from rfl]
theorem imulh (b a d) : Statement (.imulh b a d) := by
  refine of_word rfl (by (repeat refine under_put _ ?_ (by decide)); decide) (by simp (disch := decide) only [put_mod_two]) ?_
  simp (disch := first | decide | ((repeat refine under_put _ ?_ (by decide)); decide)) only [decode32, decodeVI, bits_put_below, fld_put_below, fld_put, show bits 49 1 3 = 0 from rfl, show bits 49 4 5 = 3 from rfl]
theorem imulhn (b a d) : Statement (.imulhn b a d) := by
  refine of_word rfl (by (repeat refine under_put _ ?_ (by decide)); decide) (by simp (disch := decide) only [put_mod_two]) ?_
  simp (disch := first | decide | ((repeat refine under_put _ ?_ (by decide)); decide)) only [decode32, decodeVI, bits_put_below, fld_put_below, fld_put, show bits 65 1 3 = 0 from rfl, show bits 65 4 5 = 4 from rfl]
theorem idiv (b a d) : Statement (.idiv b a d) := by
  refine of_word rfl (by (repeat refine under_put _ ?_ (by decide)); decide) (by simp (disch := decide) only [put_mod_two]) ?_
  simp (disch := first | decide | ((repeat refine under_put _ ?_ (by decide)); decide)) only [decode32, decodeVI, bits_put_below, fld_put_below, fld_put, show bits 81 1 3 = 0 from rfl, show bits 81 4 5 = 5 from rfl]
theorem idivn (b a d) : Statement (.idivn b a d) := by
  refine of_word rfl (by (repeat refine under_put _ ?_ (by decide)); decide) (by simp (disch := decide) only [put_mod_two]) ?_
  simp (disch := first | decide | ((repeat refine under_put _ ?_ (by decide)); decide)) only [decode32, decodeVI, bits_put_below, fld_put_below, fld_put, show bits 97 1 3 = 0 from rfl, show bits 97 4 5 = 6 from rfl]
theorem irem (b a d) : Statement (.irem b a d) := by
  refine of_word rfl (by (repeat refine under_put _ ?_ (by decide)); decide) (by simp (disch := decide) only [put_mod_two]) ?_
  simp (disch := first | decide | ((repeat refine under_put _ ?_ (by decide)); decide)) only [decode32, decodeVI, bits_put_below, fld_put_below, fld_put, show bits 113 1 3 = 0 from rfl, show bits 113 4 5 = 7 from rfl]
theorem iremn (b a d) : Statement (.iremn b a d) := by
  refine of_word rfl (by (repeat refine under_put _ ?_ (by decide)); decide) (by simp (disch := decide) only [put_mod_two]) ?_
  simp (disch := first | decide | ((repeat refine under_put _ ?_ (by decide)); decide)) only [decode32, decodeVI, bits_put_below, fld_put_below, fld_put, show bits 129 1 3 = 0 from rfl, show bits 129 4 5 = 8 from rfl]
theorem imin (b a d) : Statement (.imin b a d) := by
  refine of_word rfl (by (repeat refine under_put _ ?_ (by decide)); decide) (by simp (disch := decide) only [put_mod_two]) ?_
  simp (disch := first | decide | ((repeat refine under_put _ ?_ (by decide)); decide)) only [decode32, decodeVI, bits_put_below, fld_put_below, fld_put, show bits 145 1 3 = 0 from rfl, show bits 145 4 5 = 9 from rfl]
theorem iminn (b a d) : Statement (.iminn b a d) := by
  refine of_word rfl (by (repeat refine under_put _ ?_ (by decide)); decide) (by simp (disch := decide) only [put_mod_two]) ?_
  simp (disch := first | decide | ((repeat refine under_put _ ?_ (by decide)); decide)) only [decode32, decodeVI, bits_put_below, fld_put_below, fld_put, show bits 161 1 3 = 0 from rfl, show bits 161 4 5 = 10 from rfl]
theorem imax (b a d) : Statement (.imax b a d) := by
  refine of_word rfl (by (repeat refine under_put _ ?_ (by decide)); decide) (by simp (disch := decide) only [put_mod_two]) ?_
  simp (disch := first | decide | ((repeat refine under_put _ ?_ (by decide)); decide)) only [decode32, decodeVI, bits_put_below, fld_put_below, fld_put, show bits 177 1 3 = 0 from rfl, show bits 177 4 5 = 11 from rfl]
theorem imaxn (b a d) : Statement (.imaxn b a d) := by
  refine of_word rfl (by (repeat refine under_put _ ?_ (by decide)); decide) (by simp (disch := decide) only [put_mod_two]) ?_
  simp (disch := first | decide | ((repeat refine under_put _ ?_ (by decide)); decide)) only [decode32, decodeVI, bits_put_below, fld_put_below, fld_put, show bits 193 1 3 = 0 from rfl, show bits 193 4 5 = 12 from rfl]
theorem and (b a d) : Statement (.and b a d) := by
  refine of_word rfl (by (repeat refine under_put _ ?_ (by decide)); decide) (by simp (disch := decide) only [put_mod_two]) ?_
  simp (disch := first | decide | ((repeat refine under_put _ ?_ (by decide)); decide)) only [decode32, decodeVI, bits_put_below, fld_put_below, fld_put, show bits 209 1 3 = 0 from rfl, show bits 209 4 5 = 13 from rfl]
theorem or (b a d) : Statement (.or b a d) := by
  refine of_word rfl (by (repeat refine under_put _ ?_ (by decide)); decide) (by simp (disch := decide) only [put_mod_two]) ?_
  simp (disch := first | decide | ((repeat refine under_put _ ?_ (by decide)); decide)) only [decode32, decodeVI, bits_put_below, fld_put_below, fld_put, show bits 225 1 3 = 0 from rfl, show bits 225 4 5 = 14 from rfl]
theorem xor (b a d) : Statement (.xor b a d) := by
  refine of_word rfl (by (repeat refine under_put _ ?_ (by decide)); decide) (by simp (disch := decide) only [put_mod_two]) ?_
  simp (disch := first | decide | ((repeat refine under_put _ ?_ (by decide)); decide)) only [decode32, decodeVI, bits_put_below, fld_put_below, fld_put, show bits 241 1 3 = 0 from rfl, show bits 241 4 5 = 15 from rfl]
theorem andn (b a d) : Statement (.andn b a d) := by
  refine of_word rfl (by (repeat refine under_put _ ?_ (by decide)); decide) (by simp (disch := decide) only [put_mod_two]) ?_
  simp (disch := first | decide | ((repeat refine under_put _ ?_ (by decide)); decide)) only [decode32, decodeVI, bits_put_below, fld_put_below, fld_put, show bits 257 1 3 = 0 from rfl, show bits 257 4 5 = 16 from rfl]
theorem shl (b a d) : Statement (.shl b a d) := by
  refine of_word rfl (by (repeat refine under_put _ ?_ (by decide)); decide) (by simp (disch := decide) only [put_mod_two]) ?_
  simp (disch := first | decide | ((repeat refine under_put _ ?_ (by decide)); decide)) only [decode32, decodeVI, bits_put_below, fld_put_below, fld_put, show bits 273 1 3 = 0 from rfl, show bits 273 4 5 = 17 from rfl]
theorem shr (b a d) : Statement (.shr b a d) := by
  refine of_word rfl (by (repeat refine under_put _ ?_ (by decide)); decide) (by simp (disch := decide) only [put_mod_two]) ?_
  simp (disch := first | decide | ((repeat refine under_put _ ?_ (by decide)); decide)) only [decode32, decodeVI, bits_put_below, fld_put_below, fld_put, show bits 289 1 3 = 0 from rfl, show bits 289 4 5 = 18 from rfl]
theorem shra (b a d) : Statement (.shra b a d) := by
  refine of_word rfl (by (repeat refine under_put _ ?_ (by decide)); decide) (by simp (disch := decide) only [put_mod_two]) ?_
  simp (disch := first | decide | ((repeat refine under_put _ ?_ (by decide)); decide)) only [decode32, decodeVI, bits_put_below, fld_put_below, fld_put, show bits 305 1 3 = 0 from rfl, show bits 305 4 5 = 19 from rfl]
theorem rotl (b a d) : Statement (.rotl b a d) := by
  refine of_word rfl (by (repeat refine under_put _ ?_ (by decide)); decide) (by simp (disch := decide) only [put_mod_two]) ?_
  simp (disch := first | decide | ((repeat refine under_put _ ?_ (by decide)); decide)) only [decode32, decodeVI, bits_put_below, fld_put_below, fld_put, show bits 321 1 3 = 0 from rfl, show bits 321 4 5 = 20 from rfl]
theorem bfx (b a d) : Statement (.bfx b a d) := by
  refine of_word rfl (by (repeat refine under_put _ ?_ (by decide)); decide) (by simp (disch := decide) only [put_mod_two]) ?_
  simp (disch := first | decide | ((repeat refine under_put _ ?_ (by decide)); decide)) only [decode32, decodeVI, bits_put_below, fld_put_below, fld_put, show bits 337 1 3 = 0 from rfl, show bits 337 4 5 = 21 from rfl]
theorem bilv2 (b a d) : Statement (.bilv2 b a d) := by
  refine of_word rfl (by (repeat refine under_put _ ?_ (by decide)); decide) (by simp (disch := decide) only [put_mod_two]) ?_
  simp (disch := first | decide | ((repeat refine under_put _ ?_ (by decide)); decide)) only [decode32, decodeVI, bits_put_below, fld_put_below, fld_put, show bits 353 1 3 = 0 from rfl, show bits 353 4 5 = 22 from rfl]
theorem bdil2 (b a d) : Statement (.bdil2 b a d) := by
  refine of_word rfl (by (repeat refine under_put _ ?_ (by decide)); decide) (by simp (disch := decide) only [put_mod_two]) ?_
  simp (disch := first | decide | ((repeat refine under_put _ ?_ (by decide)); decide)) only [decode32, decodeVI, bits_put_below, fld_put_below, fld_put, show bits 369 1 3 = 0 from rfl, show bits 369 4 5 = 23 from rfl]
theorem clz (b a d) : Statement (.clz b a d) := by
  refine of_word rfl (by (repeat refine under_put _ ?_ (by decide)); decide) (by simp (disch := decide) only [put_mod_two]) ?_
  simp (disch := first | decide | ((repeat refine under_put _ ?_ (by decide)); decide)) only [decode32, decodeVI, bits_put_below, fld_put_below, fld_put, show bits 385 1 3 = 0 from rfl, show bits 385 4 5 = 24 from rfl]
theorem popc (b a d) : Statement (.popc b a d) := by
  refine of_word rfl (by (repeat refine under_put _ ?_ (by decide)); decide) (by simp (disch := decide) only [put_mod_two]) ?_
  simp (disch := first | decide | ((repeat refine under_put _ ?_ (by decide)); decide)) only [decode32, decodeVI, bits_put_below, fld_put_below, fld_put, show bits 401 1 3 = 0 from rfl, show bits 401 4 5 = 25 from rfl]
theorem brev (b a d) : Statement (.brev b a d) := by
  refine of_word rfl (by (repeat refine under_put _ ?_ (by decide)); decide) (by simp (disch := decide) only [put_mod_two]) ?_
  simp (disch := first | decide | ((repeat refine under_put _ ?_ (by decide)); decide)) only [decode32, decodeVI, bits_put_below, fld_put_below, fld_put, show bits 417 1 3 = 0 from rfl, show bits 417 4 5 = 26 from rfl]
theorem iabs (b a d) : Statement (.iabs b a d) := by
  refine of_word rfl (by (repeat refine under_put _ ?_ (by decide)); decide) (by simp (disch := decide) only [put_mod_two]) ?_
  simp (disch := first | decide | ((repeat refine under_put _ ?_ (by decide)); decide)) only [decode32, decodeVI, bits_put_below, fld_put_below, fld_put, show bits 433 1 3 = 0 from rfl, show bits 433 4 5 = 27 from rfl]
theorem sext (b a d) : Statement (.sext b a d) := by
  refine of_word rfl (by (repeat refine under_put _ ?_ (by decide)); decide) (by simp (disch := decide) only [put_mod_two]) ?_
  simp (disch := first | decide | ((repeat refine under_put _ ?_ (by decide)); decide)) only [decode32, decodeVI, bits_put_below, fld_put_below, fld_put, show bits 449 1 3 = 0 from rfl, show bits 449 4 5 = 28 from rfl]
theorem iaddd (b a d) : Statement (.iaddd b a d) := by
  refine of_word rfl (by (repeat refine under_put _ ?_ (by decide)); decide) (by simp (disch := decide) only [put_mod_two]) ?_
  simp (disch := first | decide | ((repeat refine under_put _ ?_ (by decide)); decide)) only [decode32, decodeVI, bits_put_below, fld_put_below, fld_put, show bits 465 1 3 = 0 from rfl, show bits 465 4 5 = 29 from rfl]
theorem isubd (b a d) : Statement (.isubd b a d) := by
  refine of_word rfl (by (repeat refine under_put _ ?_ (by decide)); decide) (by simp (disch := decide) only [put_mod_two]) ?_
  simp (disch := first | decide | ((repeat refine under_put _ ?_ (by decide)); decide)) only [decode32, decodeVI, bits_put_below, fld_put_below, fld_put, show bits 481 1 3 = 0 from rfl, show bits 481 4 5 = 30 from rfl]
theorem shrd (b a d) : Statement (.shrd b a d) := by
  refine of_word rfl (by (repeat refine under_put _ ?_ (by decide)); decide) (by simp (disch := decide) only [put_mod_two]) ?_
  simp (disch := first | decide | ((repeat refine under_put _ ?_ (by decide)); decide)) only [decode32, decodeVI, bits_put_below, fld_put_below, fld_put, show bits 497 1 3 = 0 from rfl, show bits 497 4 5 = 31 from rfl]
theorem fadd (b a d) : Statement (.fadd b a d) := by
  refine of_word rfl (by (repeat refine under_put _ ?_ (by decide)); decide) (by simp (disch := decide) only [put_mod_two]) ?_
  simp (disch := first | decide | ((repeat refine under_put _ ?_ (by decide)); decide)) only [decode32, decodeVF, bits_put_below, fld_put_below, fld_put, show bits 3 1 3 = 1 from rfl, show bits 3 4 5 = 0 from rfl]
theorem fsub (b a d) : Statement (.fsub b a d) := by
  refine of_word rfl (by (repeat refine under_put _ ?_ (by decide)); decide) (by simp (disch := decide) only [put_mod_two]) ?_
  simp (disch := first | decide | ((repeat refine under_put _ ?_ (by decide)); decide)) only [decode32, decodeVF, bits_put_below, fld_put_below, fld_put, show bits 19 1 3 = 1 from rfl, show bits 19 4 5 = 1 from rfl]
theorem fmul (b a d) : Statement (.fmul b a d) := by
  refine of_word rfl (by (repeat refine under_put _ ?_ (by decide)); decide) (by simp (disch := decide) only [put_mod_two]) ?_
  simp (disch := first | decide | ((repeat refine under_put _ ?_ (by decide)); decide)) only [decode32, decodeVF, bits_put_below, fld_put_below, fld_put, show bits 35 1 3 = 1 from rfl, show bits 35 4 5 = 2 from rfl]
theorem fmin (b a d) : Statement (.fmin b a d) := by
  refine of_word rfl (by (repeat refine under_put _ ?_ (by decide)); decide) (by simp (disch := decide) only [put_mod_two]) ?_
  simp (disch := first | decide | ((repeat refine under_put _ ?_ (by decide)); decide)) only [decode32, decodeVF, bits_put_below, fld_put_below, fld_put, show bits 51 1 3 = 1 from rfl, show bits 51 4 5 = 3 from rfl]
theorem fmax (b a d) : Statement (.fmax b a d) := by
  refine of_word rfl (by (repeat refine under_put _ ?_ (by decide)); decide) (by simp (disch := decide) only [put_mod_two]) ?_
  simp (disch := first | decide | ((repeat refine under_put _ ?_ (by decide)); decide)) only [decode32, decodeVF, bits_put_below, fld_put_below, fld_put, show bits 67 1 3 = 1 from rfl, show bits 67 4 5 = 4 from rfl]
theorem fdiv (b a d) : Statement (.fdiv b a d) := by
  refine of_word rfl (by (repeat refine under_put _ ?_ (by decide)); decide) (by simp (disch := decide) only [put_mod_two]) ?_
  simp (disch := first | decide | ((repeat refine under_put _ ?_ (by decide)); decide)) only [decode32, decodeVF, bits_put_below, fld_put_below, fld_put, show bits 83 1 3 = 1 from rfl, show bits 83 4 5 = 5 from rfl]
theorem frcp (b a d) : Statement (.frcp b a d) := by
  refine of_word rfl (by (repeat refine under_put _ ?_ (by decide)); decide) (by simp (disch := decide) only [put_mod_two]) ?_
  simp (disch := first | decide | ((repeat refine under_put _ ?_ (by decide)); decide)) only [decode32, decodeVF, bits_put_below, fld_put_below, fld_put, show bits 99 1 3 = 1 from rfl, show bits 99 4 5 = 6 from rfl]
theorem frsq (b a d) : Statement (.frsq b a d) := by
  refine of_word rfl (by (repeat refine under_put _ ?_ (by decide)); decide) (by simp (disch := decide) only [put_mod_two]) ?_
  simp (disch := first | decide | ((repeat refine under_put _ ?_ (by decide)); decide)) only [decode32, decodeVF, bits_put_below, fld_put_below, fld_put, show bits 115 1 3 = 1 from rfl, show bits 115 4 5 = 7 from rfl]
theorem fsqrt (b a d) : Statement (.fsqrt b a d) := by
  refine of_word rfl (by (repeat refine under_put _ ?_ (by decide)); decide) (by simp (disch := decide) only [put_mod_two]) ?_
  simp (disch := first | decide | ((repeat refine under_put _ ?_ (by decide)); decide)) only [decode32, decodeVF, bits_put_below, fld_put_below, fld_put, show bits 131 1 3 = 1 from rfl, show bits 131 4 5 = 8 from rfl]
theorem fexp2 (b a d) : Statement (.fexp2 b a d) := by
  refine of_word rfl (by (repeat refine under_put _ ?_ (by decide)); decide) (by simp (disch := decide) only [put_mod_two]) ?_
  simp (disch := first | decide | ((repeat refine under_put _ ?_ (by decide)); decide)) only [decode32, decodeVF, bits_put_below, fld_put_below, fld_put, show bits 147 1 3 = 1 from rfl, show bits 147 4 5 = 9 from rfl]
theorem flog2 (b a d) : Statement (.flog2 b a d) := by
  refine of_word rfl (by (repeat refine under_put _ ?_ (by decide)); decide) (by simp (disch := decide) only [put_mod_two]) ?_
  simp (disch := first | decide | ((repeat refine under_put _ ?_ (by decide)); decide)) only [decode32, decodeVF, bits_put_below, fld_put_below, fld_put, show bits 163 1 3 = 1 from rfl, show bits 163 4 5 = 10 from rfl]
theorem fsinpi (b a d) : Statement (.fsinpi b a d) := by
  refine of_word rfl (by (repeat refine under_put _ ?_ (by decide)); decide) (by simp (disch := decide) only [put_mod_two]) ?_
  simp (disch := first | decide | ((repeat refine under_put _ ?_ (by decide)); decide)) only [decode32, decodeVF, bits_put_below, fld_put_below, fld_put, show bits 179 1 3 = 1 from rfl, show bits 179 4 5 = 11 from rfl]
theorem fcospi (b a d) : Statement (.fcospi b a d) := by
  refine of_word rfl (by (repeat refine under_put _ ?_ (by decide)); decide) (by simp (disch := decide) only [put_mod_two]) ?_
  simp (disch := first | decide | ((repeat refine under_put _ ?_ (by decide)); decide)) only [decode32, decodeVF, bits_put_below, fld_put_below, fld_put, show bits 195 1 3 = 1 from rfl, show bits 195 4 5 = 12 from rfl]
theorem ftanh (b a d) : Statement (.ftanh b a d) := by
  refine of_word rfl (by (repeat refine under_put _ ?_ (by decide)); decide) (by simp (disch := decide) only [put_mod_two]) ?_
  simp (disch := first | decide | ((repeat refine under_put _ ?_ (by decide)); decide)) only [decode32, decodeVF, bits_put_below, fld_put_below, fld_put, show bits 211 1 3 = 1 from rfl, show bits 211 4 5 = 13 from rfl]
theorem frndn (b a d) : Statement (.frndn b a d) := by
  refine of_word rfl (by (repeat refine under_put _ ?_ (by decide)); decide) (by simp (disch := decide) only [put_mod_two]) ?_
  simp (disch := first | decide | ((repeat refine under_put _ ?_ (by decide)); decide)) only [decode32, decodeVF, bits_put_below, fld_put_below, fld_put, show bits 227 1 3 = 1 from rfl, show bits 227 4 5 = 14 from rfl]
theorem frndz (b a d) : Statement (.frndz b a d) := by
  refine of_word rfl (by (repeat refine under_put _ ?_ (by decide)); decide) (by simp (disch := decide) only [put_mod_two]) ?_
  simp (disch := first | decide | ((repeat refine under_put _ ?_ (by decide)); decide)) only [decode32, decodeVF, bits_put_below, fld_put_below, fld_put, show bits 243 1 3 = 1 from rfl, show bits 243 4 5 = 15 from rfl]
theorem ffloor (b a d) : Statement (.ffloor b a d) := by
  refine of_word rfl (by (repeat refine under_put _ ?_ (by decide)); decide) (by simp (disch := decide) only [put_mod_two]) ?_
  simp (disch := first | decide | ((repeat refine under_put _ ?_ (by decide)); decide)) only [decode32, decodeVF, bits_put_below, fld_put_below, fld_put, show bits 259 1 3 = 1 from rfl, show bits 259 4 5 = 16 from rfl]
theorem fceil (b a d) : Statement (.fceil b a d) := by
  refine of_word rfl (by (repeat refine under_put _ ?_ (by decide)); decide) (by simp (disch := decide) only [put_mod_two]) ?_
  simp (disch := first | decide | ((repeat refine under_put _ ?_ (by decide)); decide)) only [decode32, decodeVF, bits_put_below, fld_put_below, fld_put, show bits 275 1 3 = 1 from rfl, show bits 275 4 5 = 17 from rfl]
theorem fneg (b a d) : Statement (.fneg b a d) := by
  refine of_word rfl (by (repeat refine under_put _ ?_ (by decide)); decide) (by simp (disch := decide) only [put_mod_two]) ?_
  simp (disch := first | decide | ((repeat refine under_put _ ?_ (by decide)); decide)) only [decode32, decodeVF, bits_put_below, fld_put_below, fld_put, show bits 291 1 3 = 1 from rfl, show bits 291 4 5 = 18 from rfl]
theorem fabs (b a d) : Statement (.fabs b a d) := by
  refine of_word rfl (by (repeat refine under_put _ ?_ (by decide)); decide) (by simp (disch := decide) only [put_mod_two]) ?_
  simp (disch := first | decide | ((repeat refine under_put _ ?_ (by decide)); decide)) only [decode32, decodeVF, bits_put_below, fld_put_below, fld_put, show bits 307 1 3 = 1 from rfl, show bits 307 4 5 = 19 from rfl]
theorem fcpys (b a d) : Statement (.fcpys b a d) := by
  refine of_word rfl (by (repeat refine under_put _ ?_ (by decide)); decide) (by simp (disch := decide) only [put_mod_two]) ?_
  simp (disch := first | decide | ((repeat refine under_put _ ?_ (by decide)); decide)) only [decode32, decodeVF, bits_put_below, fld_put_below, fld_put, show bits 323 1 3 = 1 from rfl, show bits 323 4 5 = 20 from rfl]
theorem hadd2 (b a d) : Statement (.hadd2 b a d) := by
  refine of_word rfl (by (repeat refine under_put _ ?_ (by decide)); decide) (by simp (disch := decide) only [put_mod_two]) ?_
  simp (disch := first | decide | ((repeat refine under_put _ ?_ (by decide)); decide)) only [decode32, decodeVF, bits_put_below, fld_put_below, fld_put, show bits 339 1 3 = 1 from rfl, show bits 339 4 5 = 21 from rfl]
theorem hsub2 (b a d) : Statement (.hsub2 b a d) := by
  refine of_word rfl (by (repeat refine under_put _ ?_ (by decide)); decide) (by simp (disch := decide) only [put_mod_two]) ?_
  simp (disch := first | decide | ((repeat refine under_put _ ?_ (by decide)); decide)) only [decode32, decodeVF, bits_put_below, fld_put_below, fld_put, show bits 355 1 3 = 1 from rfl, show bits 355 4 5 = 22 from rfl]
theorem hmul2 (b a d) : Statement (.hmul2 b a d) := by
  refine of_word rfl (by (repeat refine under_put _ ?_ (by decide)); decide) (by simp (disch := decide) only [put_mod_two]) ?_
  simp (disch := first | decide | ((repeat refine under_put _ ?_ (by decide)); decide)) only [decode32, decodeVF, bits_put_below, fld_put_below, fld_put, show bits 371 1 3 = 1 from rfl, show bits 371 4 5 = 23 from rfl]
theorem hmin2 (b a d) : Statement (.hmin2 b a d) := by
  refine of_word rfl (by (repeat refine under_put _ ?_ (by decide)); decide) (by simp (disch := decide) only [put_mod_two]) ?_
  simp (disch := first | decide | ((repeat refine under_put _ ?_ (by decide)); decide)) only [decode32, decodeVF, bits_put_below, fld_put_below, fld_put, show bits 387 1 3 = 1 from rfl, show bits 387 4 5 = 24 from rfl]
theorem hmax2 (b a d) : Statement (.hmax2 b a d) := by
  refine of_word rfl (by (repeat refine under_put _ ?_ (by decide)); decide) (by simp (disch := decide) only [put_mod_two]) ?_
  simp (disch := first | decide | ((repeat refine under_put _ ?_ (by decide)); decide)) only [decode32, decodeVF, bits_put_below, fld_put_below, fld_put, show bits 403 1 3 = 1 from rfl, show bits 403 4 5 = 25 from rfl]
theorem badd2 (b a d) : Statement (.badd2 b a d) := by
  refine of_word rfl (by (repeat refine under_put _ ?_ (by decide)); decide) (by simp (disch := decide) only [put_mod_two]) ?_
  simp (disch := first | decide | ((repeat refine under_put _ ?_ (by decide)); decide)) only [decode32, decodeVF, bits_put_below, fld_put_below, fld_put, show bits 419 1 3 = 1 from rfl, show bits 419 4 5 = 26 from rfl]
theorem bmul2 (b a d) : Statement (.bmul2 b a d) := by
  refine of_word rfl (by (repeat refine under_put _ ?_ (by decide)); decide) (by simp (disch := decide) only [put_mod_two]) ?_
  simp (disch := first | decide | ((repeat refine under_put _ ?_ (by decide)); decide)) only [decode32, decodeVF, bits_put_below, fld_put_below, fld_put, show bits 435 1 3 = 1 from rfl, show bits 435 4 5 = 27 from rfl]
theorem ffrac (b a d) : Statement (.ffrac b a d) := by
  refine of_word rfl (by (repeat refine under_put _ ?_ (by decide)); decide) (by simp (disch := decide) only [put_mod_two]) ?_
  simp (disch := first | decide | ((repeat refine under_put _ ?_ (by decide)); decide)) only [decode32, decodeVF, bits_put_below, fld_put_below, fld_put, show bits 451 1 3 = 1 from rfl, show bits 451 4 5 = 28 from rfl]
theorem fscalb (b a d) : Statement (.fscalb b a d) := by
  refine of_word rfl (by (repeat refine under_put _ ?_ (by decide)); decide) (by simp (disch := decide) only [put_mod_two]) ?_
  simp (disch := first | decide | ((repeat refine under_put _ ?_ (by decide)); decide)) only [decode32, decodeVF, bits_put_below, fld_put_below, fld_put, show bits 467 1 3 = 1 from rfl, show bits 467 4 5 = 29 from rfl]
theorem fgete (b a d) : Statement (.fgete b a d) := by
  refine of_word rfl (by (repeat refine under_put _ ?_ (by decide)); decide) (by simp (disch := decide) only [put_mod_two]) ?_
  simp (disch := first | decide | ((repeat refine under_put _ ?_ (by decide)); decide)) only [decode32, decodeVF, bits_put_below, fld_put_below, fld_put, show bits 483 1 3 = 1 from rfl, show bits 483 4 5 = 30 from rfl]
theorem iaddk (k a d) : Statement (.iaddk k a d) := by
  refine of_word rfl (by (repeat refine under_put _ ?_ (by decide)); decide) (by simp (disch := decide) only [put_mod_two]) ?_
  simp (disch := first | decide | ((repeat refine under_put _ ?_ (by decide)); decide)) only [decode32, decodeVK, bits_put_below, fld_put_below, fld_put, show bits 5 1 3 = 2 from rfl, show bits 5 4 5 = 0 from rfl]
theorem imulk (k a d) : Statement (.imulk k a d) := by
  refine of_word rfl (by (repeat refine under_put _ ?_ (by decide)); decide) (by simp (disch := decide) only [put_mod_two]) ?_
  simp (disch := first | decide | ((repeat refine under_put _ ?_ (by decide)); decide)) only [decode32, decodeVK, bits_put_below, fld_put_below, fld_put, show bits 21 1 3 = 2 from rfl, show bits 21 4 5 = 1 from rfl]
theorem andk (k a d) : Statement (.andk k a d) := by
  refine of_word rfl (by (repeat refine under_put _ ?_ (by decide)); decide) (by simp (disch := decide) only [put_mod_two]) ?_
  simp (disch := first | decide | ((repeat refine under_put _ ?_ (by decide)); decide)) only [decode32, decodeVK, bits_put_below, fld_put_below, fld_put, show bits 37 1 3 = 2 from rfl, show bits 37 4 5 = 2 from rfl]
theorem ork (k a d) : Statement (.ork k a d) := by
  refine of_word rfl (by (repeat refine under_put _ ?_ (by decide)); decide) (by simp (disch := decide) only [put_mod_two]) ?_
  simp (disch := first | decide | ((repeat refine under_put _ ?_ (by decide)); decide)) only [decode32, decodeVK, bits_put_below, fld_put_below, fld_put, show bits 53 1 3 = 2 from rfl, show bits 53 4 5 = 3 from rfl]
theorem xork (k a d) : Statement (.xork k a d) := by
  refine of_word rfl (by (repeat refine under_put _ ?_ (by decide)); decide) (by simp (disch := decide) only [put_mod_two]) ?_
  simp (disch := first | decide | ((repeat refine under_put _ ?_ (by decide)); decide)) only [decode32, decodeVK, bits_put_below, fld_put_below, fld_put, show bits 69 1 3 = 2 from rfl, show bits 69 4 5 = 4 from rfl]
theorem shlk (k a d) : Statement (.shlk k a d) := by
  refine of_word rfl (by (repeat refine under_put _ ?_ (by decide)); decide) (by simp (disch := decide) only [put_mod_two]) ?_
  simp (disch := first | decide | ((repeat refine under_put _ ?_ (by decide)); decide)) only [decode32, decodeVK, bits_put_below, bits_above, beq_self_eq_true, ↓reduceIte, fld_put_below, fld_put, show bits 85 1 3 = 2 from rfl, show bits 85 4 5 = 5 from rfl]
theorem shrk (k a d) : Statement (.shrk k a d) := by
  refine of_word rfl (by (repeat refine under_put _ ?_ (by decide)); decide) (by simp (disch := decide) only [put_mod_two]) ?_
  simp (disch := first | decide | ((repeat refine under_put _ ?_ (by decide)); decide)) only [decode32, decodeVK, bits_put_below, bits_above, beq_self_eq_true, ↓reduceIte, fld_put_below, fld_put, show bits 101 1 3 = 2 from rfl, show bits 101 4 5 = 6 from rfl]
theorem shrak (k a d) : Statement (.shrak k a d) := by
  refine of_word rfl (by (repeat refine under_put _ ?_ (by decide)); decide) (by simp (disch := decide) only [put_mod_two]) ?_
  simp (disch := first | decide | ((repeat refine under_put _ ?_ (by decide)); decide)) only [decode32, decodeVK, bits_put_below, bits_above, beq_self_eq_true, ↓reduceIte, fld_put_below, fld_put, show bits 117 1 3 = 2 from rfl, show bits 117 4 5 = 7 from rfl]
theorem imink (k a d) : Statement (.imink k a d) := by
  refine of_word rfl (by (repeat refine under_put _ ?_ (by decide)); decide) (by simp (disch := decide) only [put_mod_two]) ?_
  simp (disch := first | decide | ((repeat refine under_put _ ?_ (by decide)); decide)) only [decode32, decodeVK, bits_put_below, fld_put_below, fld_put, show bits 133 1 3 = 2 from rfl, show bits 133 4 5 = 8 from rfl]
theorem imaxk (k a d) : Statement (.imaxk k a d) := by
  refine of_word rfl (by (repeat refine under_put _ ?_ (by decide)); decide) (by simp (disch := decide) only [put_mod_two]) ?_
  simp (disch := first | decide | ((repeat refine under_put _ ?_ (by decide)); decide)) only [decode32, decodeVK, bits_put_below, fld_put_below, fld_put, show bits 149 1 3 = 2 from rfl, show bits 149 4 5 = 9 from rfl]
theorem icmpeqk (k a p) : Statement (.icmpeqk k a p) := by
  refine of_word rfl (by (repeat refine under_put _ ?_ (by decide)); decide) (by simp (disch := decide) only [put_mod_two]) ?_
  simp (disch := first | decide | ((repeat refine under_put _ ?_ (by decide)); decide)) only [decode32, decodeVK, bits_put_below, bits_above, beq_self_eq_true, ↓reduceIte, fld_put_below, fld_put, show bits 165 1 3 = 2 from rfl, show bits 165 4 5 = 10 from rfl]
theorem icmpltk (k a p) : Statement (.icmpltk k a p) := by
  refine of_word rfl (by (repeat refine under_put _ ?_ (by decide)); decide) (by simp (disch := decide) only [put_mod_two]) ?_
  simp (disch := first | decide | ((repeat refine under_put _ ?_ (by decide)); decide)) only [decode32, decodeVK, bits_put_below, bits_above, beq_self_eq_true, ↓reduceIte, fld_put_below, fld_put, show bits 181 1 3 = 2 from rfl, show bits 181 4 5 = 11 from rfl]
theorem faddk (k a d) : Statement (.faddk k a d) := by
  refine of_word rfl (by (repeat refine under_put _ ?_ (by decide)); decide) (by simp (disch := decide) only [put_mod_two]) ?_
  simp (disch := first | decide | ((repeat refine under_put _ ?_ (by decide)); decide)) only [decode32, decodeVK, bits_put_below, fld_put_below, fld_put, show bits 197 1 3 = 2 from rfl, show bits 197 4 5 = 12 from rfl]
theorem fmulk (k a d) : Statement (.fmulk k a d) := by
  refine of_word rfl (by (repeat refine under_put _ ?_ (by decide)); decide) (by simp (disch := decide) only [put_mod_two]) ?_
  simp (disch := first | decide | ((repeat refine under_put _ ?_ (by decide)); decide)) only [decode32, decodeVK, bits_put_below, fld_put_below, fld_put, show bits 213 1 3 = 2 from rfl, show bits 213 4 5 = 13 from rfl]
theorem liml (i d) : Statement (.liml i d) := by
  refine of_word rfl (by (repeat refine under_put _ ?_ (by decide)); decide) (by simp (disch := decide) only [put_mod_two]) ?_
  simp (disch := first | decide | ((repeat refine under_put _ ?_ (by decide)); decide)) only [decode32, decodeVK, bits_put_below, fld_put_below, fld_put, show bits 229 1 3 = 2 from rfl, show bits 229 4 5 = 14 from rfl]
theorem limh (i d) : Statement (.limh i d) := by
  refine of_word rfl (by (repeat refine under_put _ ?_ (by decide)); decide) (by simp (disch := decide) only [put_mod_two]) ?_
  simp (disch := first | decide | ((repeat refine under_put _ ?_ (by decide)); decide)) only [decode32, decodeVK, bits_put_below, fld_put_below, fld_put, show bits 245 1 3 = 2 from rfl, show bits 245 4 5 = 15 from rfl]
theorem movk (k a d) : Statement (.movk k a d) := by
  refine of_word rfl (by (repeat refine under_put _ ?_ (by decide)); decide) (by simp (disch := decide) only [put_mod_two]) ?_
  simp (disch := first | decide | ((repeat refine under_put _ ?_ (by decide)); decide)) only [decode32, decodeVK, bits_put_below, fld_put_below, fld_put, show bits 261 1 3 = 2 from rfl, show bits 261 4 5 = 16 from rfl]
theorem ffma (b a d) : Statement (.ffma b a d) := by
  refine of_word rfl (by (repeat refine under_put _ ?_ (by decide)); decide) (by simp (disch := decide) only [put_mod_two]) ?_
  simp (disch := first | decide | ((repeat refine under_put _ ?_ (by decide)); decide)) only [decode32, decodeVM, bits_put_below, fld_put_below, fld_put, show bits 7 1 3 = 3 from rfl, show bits 7 4 5 = 0 from rfl]
theorem ffms (b a d) : Statement (.ffms b a d) := by
  refine of_word rfl (by (repeat refine under_put _ ?_ (by decide)); decide) (by simp (disch := decide) only [put_mod_two]) ?_
  simp (disch := first | decide | ((repeat refine under_put _ ?_ (by decide)); decide)) only [decode32, decodeVM, bits_put_below, fld_put_below, fld_put, show bits 23 1 3 = 3 from rfl, show bits 23 4 5 = 1 from rfl]
theorem fnfma (b a d) : Statement (.fnfma b a d) := by
  refine of_word rfl (by (repeat refine under_put _ ?_ (by decide)); decide) (by simp (disch := decide) only [put_mod_two]) ?_
  simp (disch := first | decide | ((repeat refine under_put _ ?_ (by decide)); decide)) only [decode32, decodeVM, bits_put_below, fld_put_below, fld_put, show bits 39 1 3 = 3 from rfl, show bits 39 4 5 = 2 from rfl]
theorem hfma2 (b a d) : Statement (.hfma2 b a d) := by
  refine of_word rfl (by (repeat refine under_put _ ?_ (by decide)); decide) (by simp (disch := decide) only [put_mod_two]) ?_
  simp (disch := first | decide | ((repeat refine under_put _ ?_ (by decide)); decide)) only [decode32, decodeVM, bits_put_below, fld_put_below, fld_put, show bits 55 1 3 = 3 from rfl, show bits 55 4 5 = 3 from rfl]
theorem bfma2 (b a d) : Statement (.bfma2 b a d) := by
  refine of_word rfl (by (repeat refine under_put _ ?_ (by decide)); decide) (by simp (disch := decide) only [put_mod_two]) ?_
  simp (disch := first | decide | ((repeat refine under_put _ ?_ (by decide)); decide)) only [decode32, decodeVM, bits_put_below, fld_put_below, fld_put, show bits 71 1 3 = 3 from rfl, show bits 71 4 5 = 4 from rfl]
theorem imad (b a d) : Statement (.imad b a d) := by
  refine of_word rfl (by (repeat refine under_put _ ?_ (by decide)); decide) (by simp (disch := decide) only [put_mod_two]) ?_
  simp (disch := first | decide | ((repeat refine under_put _ ?_ (by decide)); decide)) only [decode32, decodeVM, bits_put_below, fld_put_below, fld_put, show bits 87 1 3 = 3 from rfl, show bits 87 4 5 = 5 from rfl]
theorem bilv3 (b a d) : Statement (.bilv3 b a d) := by
  refine of_word rfl (by (repeat refine under_put _ ?_ (by decide)); decide) (by simp (disch := decide) only [put_mod_two]) ?_
  simp (disch := first | decide | ((repeat refine under_put _ ?_ (by decide)); decide)) only [decode32, decodeVM, bits_put_below, fld_put_below, fld_put, show bits 103 1 3 = 3 from rfl, show bits 103 4 5 = 6 from rfl]
theorem bfi (b a d) : Statement (.bfi b a d) := by
  refine of_word rfl (by (repeat refine under_put _ ?_ (by decide)); decide) (by simp (disch := decide) only [put_mod_two]) ?_
  simp (disch := first | decide | ((repeat refine under_put _ ?_ (by decide)); decide)) only [decode32, decodeVM, bits_put_below, fld_put_below, fld_put, show bits 119 1 3 = 3 from rfl, show bits 119 4 5 = 7 from rfl]
theorem selP0 (b a d) : Statement (.selP0 b a d) := by
  refine of_word rfl (by (repeat refine under_put _ ?_ (by decide)); decide) (by simp (disch := decide) only [put_mod_two]) ?_
  simp (disch := first | decide | ((repeat refine under_put _ ?_ (by decide)); decide)) only [decode32, decodeVM, bits_put_below, fld_put_below, fld_put, show bits 135 1 3 = 3 from rfl, show bits 135 4 5 = 8 from rfl]
theorem selP1 (b a d) : Statement (.selP1 b a d) := by
  refine of_word rfl (by (repeat refine under_put _ ?_ (by decide)); decide) (by simp (disch := decide) only [put_mod_two]) ?_
  simp (disch := first | decide | ((repeat refine under_put _ ?_ (by decide)); decide)) only [decode32, decodeVM, bits_put_below, fld_put_below, fld_put, show bits 151 1 3 = 3 from rfl, show bits 151 4 5 = 9 from rfl]
theorem selP2 (b a d) : Statement (.selP2 b a d) := by
  refine of_word rfl (by (repeat refine under_put _ ?_ (by decide)); decide) (by simp (disch := decide) only [put_mod_two]) ?_
  simp (disch := first | decide | ((repeat refine under_put _ ?_ (by decide)); decide)) only [decode32, decodeVM, bits_put_below, fld_put_below, fld_put, show bits 167 1 3 = 3 from rfl, show bits 167 4 5 = 10 from rfl]
theorem selP3 (b a d) : Statement (.selP3 b a d) := by
  refine of_word rfl (by (repeat refine under_put _ ?_ (by decide)); decide) (by simp (disch := decide) only [put_mod_two]) ?_
  simp (disch := first | decide | ((repeat refine under_put _ ?_ (by decide)); decide)) only [decode32, decodeVM, bits_put_below, fld_put_below, fld_put, show bits 183 1 3 = 3 from rfl, show bits 183 4 5 = 11 from rfl]
theorem icmpeq (b a p) : Statement (.icmpeq b a p) := by
  refine of_word rfl (by (repeat refine under_put _ ?_ (by decide)); decide) (by simp (disch := decide) only [put_mod_two]) ?_
  simp (disch := first | decide | ((repeat refine under_put _ ?_ (by decide)); decide)) only [decode32, decodeVM, bits_put_below, bits_above, beq_self_eq_true, ↓reduceIte, fld_put_below, fld_put, show bits 199 1 3 = 3 from rfl, show bits 199 4 5 = 12 from rfl]
theorem icmpne (b a p) : Statement (.icmpne b a p) := by
  refine of_word rfl (by (repeat refine under_put _ ?_ (by decide)); decide) (by simp (disch := decide) only [put_mod_two]) ?_
  simp (disch := first | decide | ((repeat refine under_put _ ?_ (by decide)); decide)) only [decode32, decodeVM, bits_put_below, bits_above, beq_self_eq_true, ↓reduceIte, fld_put_below, fld_put, show bits 215 1 3 = 3 from rfl, show bits 215 4 5 = 13 from rfl]
theorem icmplt (b a p) : Statement (.icmplt b a p) := by
  refine of_word rfl (by (repeat refine under_put _ ?_ (by decide)); decide) (by simp (disch := decide) only [put_mod_two]) ?_
  simp (disch := first | decide | ((repeat refine under_put _ ?_ (by decide)); decide)) only [decode32, decodeVM, bits_put_below, bits_above, beq_self_eq_true, ↓reduceIte, fld_put_below, fld_put, show bits 231 1 3 = 3 from rfl, show bits 231 4 5 = 14 from rfl]
theorem icmple (b a p) : Statement (.icmple b a p) := by
  refine of_word rfl (by (repeat refine under_put _ ?_ (by decide)); decide) (by simp (disch := decide) only [put_mod_two]) ?_
  simp (disch := first | decide | ((repeat refine under_put _ ?_ (by decide)); decide)) only [decode32, decodeVM, bits_put_below, bits_above, beq_self_eq_true, ↓reduceIte, fld_put_below, fld_put, show bits 247 1 3 = 3 from rfl, show bits 247 4 5 = 15 from rfl]
theorem icmpltn (b a p) : Statement (.icmpltn b a p) := by
  refine of_word rfl (by (repeat refine under_put _ ?_ (by decide)); decide) (by simp (disch := decide) only [put_mod_two]) ?_
  simp (disch := first | decide | ((repeat refine under_put _ ?_ (by decide)); decide)) only [decode32, decodeVM, bits_put_below, bits_above, beq_self_eq_true, ↓reduceIte, fld_put_below, fld_put, show bits 263 1 3 = 3 from rfl, show bits 263 4 5 = 16 from rfl]
theorem icmplen (b a p) : Statement (.icmplen b a p) := by
  refine of_word rfl (by (repeat refine under_put _ ?_ (by decide)); decide) (by simp (disch := decide) only [put_mod_two]) ?_
  simp (disch := first | decide | ((repeat refine under_put _ ?_ (by decide)); decide)) only [decode32, decodeVM, bits_put_below, bits_above, beq_self_eq_true, ↓reduceIte, fld_put_below, fld_put, show bits 279 1 3 = 3 from rfl, show bits 279 4 5 = 17 from rfl]
theorem fcmpeq (b a p) : Statement (.fcmpeq b a p) := by
  refine of_word rfl (by (repeat refine under_put _ ?_ (by decide)); decide) (by simp (disch := decide) only [put_mod_two]) ?_
  simp (disch := first | decide | ((repeat refine under_put _ ?_ (by decide)); decide)) only [decode32, decodeVM, bits_put_below, bits_above, beq_self_eq_true, ↓reduceIte, fld_put_below, fld_put, show bits 295 1 3 = 3 from rfl, show bits 295 4 5 = 18 from rfl]
theorem fcmpne (b a p) : Statement (.fcmpne b a p) := by
  refine of_word rfl (by (repeat refine under_put _ ?_ (by decide)); decide) (by simp (disch := decide) only [put_mod_two]) ?_
  simp (disch := first | decide | ((repeat refine under_put _ ?_ (by decide)); decide)) only [decode32, decodeVM, bits_put_below, bits_above, beq_self_eq_true, ↓reduceIte, fld_put_below, fld_put, show bits 311 1 3 = 3 from rfl, show bits 311 4 5 = 19 from rfl]
theorem fcmplt (b a p) : Statement (.fcmplt b a p) := by
  refine of_word rfl (by (repeat refine under_put _ ?_ (by decide)); decide) (by simp (disch := decide) only [put_mod_two]) ?_
  simp (disch := first | decide | ((repeat refine under_put _ ?_ (by decide)); decide)) only [decode32, decodeVM, bits_put_below, bits_above, beq_self_eq_true, ↓reduceIte, fld_put_below, fld_put, show bits 327 1 3 = 3 from rfl, show bits 327 4 5 = 20 from rfl]
theorem fcmple (b a p) : Statement (.fcmple b a p) := by
  refine of_word rfl (by (repeat refine under_put _ ?_ (by decide)); decide) (by simp (disch := decide) only [put_mod_two]) ?_
  simp (disch := first | decide | ((repeat refine under_put _ ?_ (by decide)); decide)) only [decode32, decodeVM, bits_put_below, bits_above, beq_self_eq_true, ↓reduceIte, fld_put_below, fld_put, show bits 343 1 3 = 3 from rfl, show bits 343 4 5 = 21 from rfl]
theorem fcmpun (b a p) : Statement (.fcmpun b a p) := by
  refine of_word rfl (by (repeat refine under_put _ ?_ (by decide)); decide) (by simp (disch := decide) only [put_mod_two]) ?_
  simp (disch := first | decide | ((repeat refine under_put _ ?_ (by decide)); decide)) only [decode32, decodeVM, bits_put_below, bits_above, beq_self_eq_true, ↓reduceIte, fld_put_below, fld_put, show bits 359 1 3 = 3 from rfl, show bits 359 4 5 = 22 from rfl]
theorem plop (t y x p) : Statement (.plop t y x p) := by
  refine of_word rfl (by (repeat refine under_put _ ?_ (by decide)); decide) (by simp (disch := decide) only [put_mod_two]) ?_
  simp (disch := first | decide | ((repeat refine under_put _ ?_ (by decide)); decide)) only [decode32, decodeVM, bits_put_below, bits_above, beq_self_eq_true, Bool.and_self, ↓reduceIte, fld_put_below, fld_put, show bits 375 1 3 = 3 from rfl, show bits 375 4 5 = 23 from rfl]
theorem cvt (m s t a d) : Statement (.cvt m s t a d) := by
  refine of_word rfl (by (repeat refine under_put _ ?_ (by decide)); decide) (by simp (disch := decide) only [put_mod_two]) ?_
  simp (disch := first | decide | ((repeat refine under_put _ ?_ (by decide)); decide)) only [decode32, decodeVM, bits_put_below, fld_put_below, fld_put, show bits 391 1 3 = 3 from rfl, show bits 391 4 5 = 24 from rfl]
theorem cvt8 (r t f p a d) : Statement (.cvt8 r t f p a d) := by
  refine of_word rfl (by (repeat refine under_put _ ?_ (by decide)); decide) (by simp (disch := decide) only [put_mod_two]) ?_
  simp (disch := first | decide | ((repeat refine under_put _ ?_ (by decide)); decide)) only [decode32, decodeVM, bits_put_below, fld_put_below, fld_put, show bits 407 1 3 = 3 from rfl, show bits 407 4 5 = 25 from rfl]
theorem cvt8n (f p a d) : Statement (.cvt8n f p a d) := by
  refine of_word rfl (by (repeat refine under_put _ ?_ (by decide)); decide) (by simp (disch := decide) only [put_mod_two]) ?_
  simp (disch := first | decide | ((repeat refine under_put _ ?_ (by decide)); decide)) only [decode32, decodeVM, bits_put_below, bits_above, beq_self_eq_true, ↓reduceIte, fld_put_below, fld_put, show bits 423 1 3 = 3 from rfl, show bits 423 4 5 = 26 from rfl]
theorem movp (b p d) : Statement (.movp b p d) := by
  refine of_word rfl (by (repeat refine under_put _ ?_ (by decide)); decide) (by simp (disch := decide) only [put_mod_two]) ?_
  simp (disch := first | decide | ((repeat refine under_put _ ?_ (by decide)); decide)) only [decode32, decodeVM, bits_put_below, bits_above, beq_self_eq_true, ↓reduceIte, fld_put_below, fld_put, show bits 439 1 3 = 3 from rfl, show bits 439 4 5 = 27 from rfl]
theorem sadd (b a d) : Statement (.sadd b a d) := by
  refine of_word rfl (by (repeat refine under_put _ ?_ (by decide)); decide) (by simp (disch := decide) only [put_mod_two]) ?_
  simp (disch := first | decide | ((repeat refine under_put _ ?_ (by decide)); decide)) only [decode32, decodeSC, bits_put_below, fld_put_below, fld_put, show bits 9 1 3 = 4 from rfl, show bits 9 4 5 = 0 from rfl]
theorem ssub (b a d) : Statement (.ssub b a d) := by
  refine of_word rfl (by (repeat refine under_put _ ?_ (by decide)); decide) (by simp (disch := decide) only [put_mod_two]) ?_
  simp (disch := first | decide | ((repeat refine under_put _ ?_ (by decide)); decide)) only [decode32, decodeSC, bits_put_below, fld_put_below, fld_put, show bits 25 1 3 = 4 from rfl, show bits 25 4 5 = 1 from rfl]
theorem smul (b a d) : Statement (.smul b a d) := by
  refine of_word rfl (by (repeat refine under_put _ ?_ (by decide)); decide) (by simp (disch := decide) only [put_mod_two]) ?_
  simp (disch := first | decide | ((repeat refine under_put _ ?_ (by decide)); decide)) only [decode32, decodeSC, bits_put_below, fld_put_below, fld_put, show bits 41 1 3 = 4 from rfl, show bits 41 4 5 = 2 from rfl]
theorem smulh (b a d) : Statement (.smulh b a d) := by
  refine of_word rfl (by (repeat refine under_put _ ?_ (by decide)); decide) (by simp (disch := decide) only [put_mod_two]) ?_
  simp (disch := first | decide | ((repeat refine under_put _ ?_ (by decide)); decide)) only [decode32, decodeSC, bits_put_below, fld_put_below, fld_put, show bits 57 1 3 = 4 from rfl, show bits 57 4 5 = 3 from rfl]
theorem smulhn (b a d) : Statement (.smulhn b a d) := by
  refine of_word rfl (by (repeat refine under_put _ ?_ (by decide)); decide) (by simp (disch := decide) only [put_mod_two]) ?_
  simp (disch := first | decide | ((repeat refine under_put _ ?_ (by decide)); decide)) only [decode32, decodeSC, bits_put_below, fld_put_below, fld_put, show bits 73 1 3 = 4 from rfl, show bits 73 4 5 = 4 from rfl]
theorem sdiv (b a d) : Statement (.sdiv b a d) := by
  refine of_word rfl (by (repeat refine under_put _ ?_ (by decide)); decide) (by simp (disch := decide) only [put_mod_two]) ?_
  simp (disch := first | decide | ((repeat refine under_put _ ?_ (by decide)); decide)) only [decode32, decodeSC, bits_put_below, fld_put_below, fld_put, show bits 89 1 3 = 4 from rfl, show bits 89 4 5 = 5 from rfl]
theorem sdivn (b a d) : Statement (.sdivn b a d) := by
  refine of_word rfl (by (repeat refine under_put _ ?_ (by decide)); decide) (by simp (disch := decide) only [put_mod_two]) ?_
  simp (disch := first | decide | ((repeat refine under_put _ ?_ (by decide)); decide)) only [decode32, decodeSC, bits_put_below, fld_put_below, fld_put, show bits 105 1 3 = 4 from rfl, show bits 105 4 5 = 6 from rfl]
theorem srem (b a d) : Statement (.srem b a d) := by
  refine of_word rfl (by (repeat refine under_put _ ?_ (by decide)); decide) (by simp (disch := decide) only [put_mod_two]) ?_
  simp (disch := first | decide | ((repeat refine under_put _ ?_ (by decide)); decide)) only [decode32, decodeSC, bits_put_below, fld_put_below, fld_put, show bits 121 1 3 = 4 from rfl, show bits 121 4 5 = 7 from rfl]
theorem sremn (b a d) : Statement (.sremn b a d) := by
  refine of_word rfl (by (repeat refine under_put _ ?_ (by decide)); decide) (by simp (disch := decide) only [put_mod_two]) ?_
  simp (disch := first | decide | ((repeat refine under_put _ ?_ (by decide)); decide)) only [decode32, decodeSC, bits_put_below, fld_put_below, fld_put, show bits 137 1 3 = 4 from rfl, show bits 137 4 5 = 8 from rfl]
theorem smin (b a d) : Statement (.smin b a d) := by
  refine of_word rfl (by (repeat refine under_put _ ?_ (by decide)); decide) (by simp (disch := decide) only [put_mod_two]) ?_
  simp (disch := first | decide | ((repeat refine under_put _ ?_ (by decide)); decide)) only [decode32, decodeSC, bits_put_below, fld_put_below, fld_put, show bits 153 1 3 = 4 from rfl, show bits 153 4 5 = 9 from rfl]
theorem sminn (b a d) : Statement (.sminn b a d) := by
  refine of_word rfl (by (repeat refine under_put _ ?_ (by decide)); decide) (by simp (disch := decide) only [put_mod_two]) ?_
  simp (disch := first | decide | ((repeat refine under_put _ ?_ (by decide)); decide)) only [decode32, decodeSC, bits_put_below, fld_put_below, fld_put, show bits 169 1 3 = 4 from rfl, show bits 169 4 5 = 10 from rfl]
theorem smax (b a d) : Statement (.smax b a d) := by
  refine of_word rfl (by (repeat refine under_put _ ?_ (by decide)); decide) (by simp (disch := decide) only [put_mod_two]) ?_
  simp (disch := first | decide | ((repeat refine under_put _ ?_ (by decide)); decide)) only [decode32, decodeSC, bits_put_below, fld_put_below, fld_put, show bits 185 1 3 = 4 from rfl, show bits 185 4 5 = 11 from rfl]
theorem smaxn (b a d) : Statement (.smaxn b a d) := by
  refine of_word rfl (by (repeat refine under_put _ ?_ (by decide)); decide) (by simp (disch := decide) only [put_mod_two]) ?_
  simp (disch := first | decide | ((repeat refine under_put _ ?_ (by decide)); decide)) only [decode32, decodeSC, bits_put_below, fld_put_below, fld_put, show bits 201 1 3 = 4 from rfl, show bits 201 4 5 = 12 from rfl]
theorem sand (b a d) : Statement (.sand b a d) := by
  refine of_word rfl (by (repeat refine under_put _ ?_ (by decide)); decide) (by simp (disch := decide) only [put_mod_two]) ?_
  simp (disch := first | decide | ((repeat refine under_put _ ?_ (by decide)); decide)) only [decode32, decodeSC, bits_put_below, fld_put_below, fld_put, show bits 217 1 3 = 4 from rfl, show bits 217 4 5 = 13 from rfl]
theorem sor (b a d) : Statement (.sor b a d) := by
  refine of_word rfl (by (repeat refine under_put _ ?_ (by decide)); decide) (by simp (disch := decide) only [put_mod_two]) ?_
  simp (disch := first | decide | ((repeat refine under_put _ ?_ (by decide)); decide)) only [decode32, decodeSC, bits_put_below, fld_put_below, fld_put, show bits 233 1 3 = 4 from rfl, show bits 233 4 5 = 14 from rfl]
theorem sxor (b a d) : Statement (.sxor b a d) := by
  refine of_word rfl (by (repeat refine under_put _ ?_ (by decide)); decide) (by simp (disch := decide) only [put_mod_two]) ?_
  simp (disch := first | decide | ((repeat refine under_put _ ?_ (by decide)); decide)) only [decode32, decodeSC, bits_put_below, fld_put_below, fld_put, show bits 249 1 3 = 4 from rfl, show bits 249 4 5 = 15 from rfl]
theorem sshl (b a d) : Statement (.sshl b a d) := by
  refine of_word rfl (by (repeat refine under_put _ ?_ (by decide)); decide) (by simp (disch := decide) only [put_mod_two]) ?_
  simp (disch := first | decide | ((repeat refine under_put _ ?_ (by decide)); decide)) only [decode32, decodeSC, bits_put_below, fld_put_below, fld_put, show bits 265 1 3 = 4 from rfl, show bits 265 4 5 = 16 from rfl]
theorem sshr (b a d) : Statement (.sshr b a d) := by
  refine of_word rfl (by (repeat refine under_put _ ?_ (by decide)); decide) (by simp (disch := decide) only [put_mod_two]) ?_
  simp (disch := first | decide | ((repeat refine under_put _ ?_ (by decide)); decide)) only [decode32, decodeSC, bits_put_below, fld_put_below, fld_put, show bits 281 1 3 = 4 from rfl, show bits 281 4 5 = 17 from rfl]
theorem sshra (b a d) : Statement (.sshra b a d) := by
  refine of_word rfl (by (repeat refine under_put _ ?_ (by decide)); decide) (by simp (disch := decide) only [put_mod_two]) ?_
  simp (disch := first | decide | ((repeat refine under_put _ ?_ (by decide)); decide)) only [decode32, decodeSC, bits_put_below, fld_put_below, fld_put, show bits 297 1 3 = 4 from rfl, show bits 297 4 5 = 18 from rfl]
theorem sclz (b a d) : Statement (.sclz b a d) := by
  refine of_word rfl (by (repeat refine under_put _ ?_ (by decide)); decide) (by simp (disch := decide) only [put_mod_two]) ?_
  simp (disch := first | decide | ((repeat refine under_put _ ?_ (by decide)); decide)) only [decode32, decodeSC, bits_put_below, fld_put_below, fld_put, show bits 313 1 3 = 4 from rfl, show bits 313 4 5 = 19 from rfl]
theorem spopc (b a d) : Statement (.spopc b a d) := by
  refine of_word rfl (by (repeat refine under_put _ ?_ (by decide)); decide) (by simp (disch := decide) only [put_mod_two]) ?_
  simp (disch := first | decide | ((repeat refine under_put _ ?_ (by decide)); decide)) only [decode32, decodeSC, bits_put_below, fld_put_below, fld_put, show bits 329 1 3 = 4 from rfl, show bits 329 4 5 = 20 from rfl]
theorem sbfx (b a d) : Statement (.sbfx b a d) := by
  refine of_word rfl (by (repeat refine under_put _ ?_ (by decide)); decide) (by simp (disch := decide) only [put_mod_two]) ?_
  simp (disch := first | decide | ((repeat refine under_put _ ?_ (by decide)); decide)) only [decode32, decodeSC, bits_put_below, fld_put_below, fld_put, show bits 345 1 3 = 4 from rfl, show bits 345 4 5 = 21 from rfl]
theorem smov (b a d) : Statement (.smov b a d) := by
  refine of_word rfl (by (repeat refine under_put _ ?_ (by decide)); decide) (by simp (disch := decide) only [put_mod_two]) ?_
  simp (disch := first | decide | ((repeat refine under_put _ ?_ (by decide)); decide)) only [decode32, decodeSC, bits_put_below, fld_put_below, fld_put, show bits 361 1 3 = 4 from rfl, show bits 361 4 5 = 22 from rfl]
theorem slil (i d) : Statement (.slil i d) := by
  refine of_word rfl (by (repeat refine under_put _ ?_ (by decide)); decide) (by simp (disch := decide) only [put_mod_two]) ?_
  simp (disch := first | decide | ((repeat refine under_put _ ?_ (by decide)); decide)) only [decode32, decodeSC, bits_put_below, fld_put_below, fld_put, show bits 377 1 3 = 4 from rfl, show bits 377 4 5 = 23 from rfl]
theorem slih (i d) : Statement (.slih i d) := by
  refine of_word rfl (by (repeat refine under_put _ ?_ (by decide)); decide) (by simp (disch := decide) only [put_mod_two]) ?_
  simp (disch := first | decide | ((repeat refine under_put _ ?_ (by decide)); decide)) only [decode32, decodeSC, bits_put_below, fld_put_below, fld_put, show bits 393 1 3 = 4 from rfl, show bits 393 4 5 = 24 from rfl]
theorem saddd (b a d) : Statement (.saddd b a d) := by
  refine of_word rfl (by (repeat refine under_put _ ?_ (by decide)); decide) (by simp (disch := decide) only [put_mod_two]) ?_
  simp (disch := first | decide | ((repeat refine under_put _ ?_ (by decide)); decide)) only [decode32, decodeSC, bits_put_below, fld_put_below, fld_put, show bits 409 1 3 = 4 from rfl, show bits 409 4 5 = 25 from rfl]
theorem ssubd (b a d) : Statement (.ssubd b a d) := by
  refine of_word rfl (by (repeat refine under_put _ ?_ (by decide)); decide) (by simp (disch := decide) only [put_mod_two]) ?_
  simp (disch := first | decide | ((repeat refine under_put _ ?_ (by decide)); decide)) only [decode32, decodeSC, bits_put_below, fld_put_below, fld_put, show bits 425 1 3 = 4 from rfl, show bits 425 4 5 = 26 from rfl]
theorem scmp (b a) : Statement (.scmp b a) := by
  refine of_word rfl (by (repeat refine under_put _ ?_ (by decide)); decide) (by simp (disch := decide) only [put_mod_two]) ?_
  simp (disch := first | decide | ((repeat refine under_put _ ?_ (by decide)); decide)) only [decode32, decodeSC, bits_put_below, beq_self_eq_true, ↓reduceIte, fld_put_below, fld_put, show bits 65465 1 3 = 4 from rfl, show bits 65465 4 5 = 27 from rfl, show bits 65465 9 7 = 127 from rfl]
theorem srd (b a d) : Statement (.srd b a d) := by
  refine of_word rfl (by (repeat refine under_put _ ?_ (by decide)); decide) (by simp (disch := decide) only [put_mod_two]) ?_
  simp (disch := first | decide | ((repeat refine under_put _ ?_ (by decide)); decide)) only [decode32, decodeSC, bits_put_below, fld_put_below, fld_put, show bits 457 1 3 = 4 from rfl, show bits 457 4 5 = 28 from rfl]
theorem swr (b a) : Statement (.swr b a) := by
  refine of_word rfl (by (repeat refine under_put _ ?_ (by decide)); decide) (by simp (disch := decide) only [put_mod_two]) ?_
  simp (disch := first | decide | ((repeat refine under_put _ ?_ (by decide)); decide)) only [decode32, decodeSC, bits_put_below, beq_self_eq_true, ↓reduceIte, fld_put_below, fld_put, show bits 65497 1 3 = 4 from rfl, show bits 65497 4 5 = 29 from rfl, show bits 65497 9 7 = 127 from rfl]
theorem wset (b a n) : Statement (.wset b a n) := by
  refine of_word rfl (by (repeat refine under_put _ ?_ (by decide)); decide) (by simp (disch := decide) only [put_mod_two]) ?_
  simp (disch := first | decide | ((repeat refine under_put _ ?_ (by decide)); decide)) only [decode32, decodeSC, bits_put_below, bits_above, beq_self_eq_true, ↓reduceIte, fld_put_below, fld_put, show bits 489 1 3 = 4 from rfl, show bits 489 4 5 = 30 from rfl]
theorem wadd (b a n) : Statement (.wadd b a n) := by
  refine of_word rfl (by (repeat refine under_put _ ?_ (by decide)); decide) (by simp (disch := decide) only [put_mod_two]) ?_
  simp (disch := first | decide | ((repeat refine under_put _ ?_ (by decide)); decide)) only [decode32, decodeSC, bits_put_below, bits_above, beq_self_eq_true, ↓reduceIte, fld_put_below, fld_put, show bits 505 1 3 = 4 from rfl, show bits 505 4 5 = 31 from rfl]
theorem ldb (h s e o d) : Statement (.ldb h s e o d) := by
  refine of_word rfl (by (repeat refine under_put _ ?_ (by decide)); decide) (by simp (disch := decide) only [put_mod_two]) ?_
  simp (disch := first | decide | ((repeat refine under_put _ ?_ (by decide)); decide)) only [decode32, decodeME, bits_put_below, fld_put_below, fld_put, show bits 11 1 3 = 5 from rfl, show bits 11 4 5 = 0 from rfl]
theorem ldbs (h s e o d) : Statement (.ldbs h s e o d) := by
  refine of_word rfl (by (repeat refine under_put _ ?_ (by decide)); decide) (by simp (disch := decide) only [put_mod_two]) ?_
  simp (disch := first | decide | ((repeat refine under_put _ ?_ (by decide)); decide)) only [decode32, decodeME, bits_put_below, fld_put_below, fld_put, show bits 27 1 3 = 5 from rfl, show bits 27 4 5 = 1 from rfl]
theorem ldh (h s e o d) : Statement (.ldh h s e o d) := by
  refine of_word rfl (by (repeat refine under_put _ ?_ (by decide)); decide) (by simp (disch := decide) only [put_mod_two]) ?_
  simp (disch := first | decide | ((repeat refine under_put _ ?_ (by decide)); decide)) only [decode32, decodeME, bits_put_below, fld_put_below, fld_put, show bits 43 1 3 = 5 from rfl, show bits 43 4 5 = 2 from rfl]
theorem ldhs (h s e o d) : Statement (.ldhs h s e o d) := by
  refine of_word rfl (by (repeat refine under_put _ ?_ (by decide)); decide) (by simp (disch := decide) only [put_mod_two]) ?_
  simp (disch := first | decide | ((repeat refine under_put _ ?_ (by decide)); decide)) only [decode32, decodeME, bits_put_below, fld_put_below, fld_put, show bits 59 1 3 = 5 from rfl, show bits 59 4 5 = 3 from rfl]
theorem ldw (h s e o d) : Statement (.ldw h s e o d) := by
  refine of_word rfl (by (repeat refine under_put _ ?_ (by decide)); decide) (by simp (disch := decide) only [put_mod_two]) ?_
  simp (disch := first | decide | ((repeat refine under_put _ ?_ (by decide)); decide)) only [decode32, decodeME, bits_put_below, fld_put_below, fld_put, show bits 75 1 3 = 5 from rfl, show bits 75 4 5 = 4 from rfl]
theorem ldd (h s e o d) : Statement (.ldd h s e o d) := by
  refine of_word rfl (by (repeat refine under_put _ ?_ (by decide)); decide) (by simp (disch := decide) only [put_mod_two]) ?_
  simp (disch := first | decide | ((repeat refine under_put _ ?_ (by decide)); decide)) only [decode32, decodeME, bits_put_below, fld_put_below, fld_put, show bits 91 1 3 = 5 from rfl, show bits 91 4 5 = 5 from rfl]
theorem ldq (h s e o d) : Statement (.ldq h s e o d) := by
  refine of_word rfl (by (repeat refine under_put _ ?_ (by decide)); decide) (by simp (disch := decide) only [put_mod_two]) ?_
  simp (disch := first | decide | ((repeat refine under_put _ ?_ (by decide)); decide)) only [decode32, decodeME, bits_put_below, fld_put_below, fld_put, show bits 107 1 3 = 5 from rfl, show bits 107 4 5 = 6 from rfl]
theorem stb (h s e o d) : Statement (.stb h s e o d) := by
  refine of_word rfl (by (repeat refine under_put _ ?_ (by decide)); decide) (by simp (disch := decide) only [put_mod_two]) ?_
  simp (disch := first | decide | ((repeat refine under_put _ ?_ (by decide)); decide)) only [decode32, decodeME, bits_put_below, fld_put_below, fld_put, show bits 123 1 3 = 5 from rfl, show bits 123 4 5 = 7 from rfl]
theorem sth (h s e o d) : Statement (.sth h s e o d) := by
  refine of_word rfl (by (repeat refine under_put _ ?_ (by decide)); decide) (by simp (disch := decide) only [put_mod_two]) ?_
  simp (disch := first | decide | ((repeat refine under_put _ ?_ (by decide)); decide)) only [decode32, decodeME, bits_put_below, fld_put_below, fld_put, show bits 139 1 3 = 5 from rfl, show bits 139 4 5 = 8 from rfl]
theorem stw (h s e o d) : Statement (.stw h s e o d) := by
  refine of_word rfl (by (repeat refine under_put _ ?_ (by decide)); decide) (by simp (disch := decide) only [put_mod_two]) ?_
  simp (disch := first | decide | ((repeat refine under_put _ ?_ (by decide)); decide)) only [decode32, decodeME, bits_put_below, fld_put_below, fld_put, show bits 155 1 3 = 5 from rfl, show bits 155 4 5 = 9 from rfl]
theorem std (h s e o d) : Statement (.std h s e o d) := by
  refine of_word rfl (by (repeat refine under_put _ ?_ (by decide)); decide) (by simp (disch := decide) only [put_mod_two]) ?_
  simp (disch := first | decide | ((repeat refine under_put _ ?_ (by decide)); decide)) only [decode32, decodeME, bits_put_below, fld_put_below, fld_put, show bits 171 1 3 = 5 from rfl, show bits 171 4 5 = 10 from rfl]
theorem stq (h s e o d) : Statement (.stq h s e o d) := by
  refine of_word rfl (by (repeat refine under_put _ ?_ (by decide)); decide) (by simp (disch := decide) only [put_mod_two]) ?_
  simp (disch := first | decide | ((repeat refine under_put _ ?_ (by decide)); decide)) only [decode32, decodeME, bits_put_below, fld_put_below, fld_put, show bits 187 1 3 = 5 from rfl, show bits 187 4 5 = 11 from rfl]
theorem ldsw (s o d) : Statement (.ldsw s o d) := by
  refine of_word rfl (by (repeat refine under_put _ ?_ (by decide)); decide) (by simp (disch := decide) only [put_mod_two]) ?_
  simp (disch := first | decide | ((repeat refine under_put _ ?_ (by decide)); decide)) only [decode32, decodeME, bits_put_below, bits_above, beq_self_eq_true, Bool.and_self, ↓reduceIte, fld_put_below, fld_put, show bits 203 1 3 = 5 from rfl, show bits 203 4 5 = 12 from rfl]
theorem ldsd (s o d) : Statement (.ldsd s o d) := by
  refine of_word rfl (by (repeat refine under_put _ ?_ (by decide)); decide) (by simp (disch := decide) only [put_mod_two]) ?_
  simp (disch := first | decide | ((repeat refine under_put _ ?_ (by decide)); decide)) only [decode32, decodeME, bits_put_below, bits_above, beq_self_eq_true, Bool.and_self, ↓reduceIte, fld_put_below, fld_put, show bits 219 1 3 = 5 from rfl, show bits 219 4 5 = 13 from rfl]
theorem ldsq (s o d) : Statement (.ldsq s o d) := by
  refine of_word rfl (by (repeat refine under_put _ ?_ (by decide)); decide) (by simp (disch := decide) only [put_mod_two]) ?_
  simp (disch := first | decide | ((repeat refine under_put _ ?_ (by decide)); decide)) only [decode32, decodeME, bits_put_below, bits_above, beq_self_eq_true, Bool.and_self, ↓reduceIte, fld_put_below, fld_put, show bits 235 1 3 = 5 from rfl, show bits 235 4 5 = 14 from rfl]
theorem stsw (s o d) : Statement (.stsw s o d) := by
  refine of_word rfl (by (repeat refine under_put _ ?_ (by decide)); decide) (by simp (disch := decide) only [put_mod_two]) ?_
  simp (disch := first | decide | ((repeat refine under_put _ ?_ (by decide)); decide)) only [decode32, decodeME, bits_put_below, bits_above, beq_self_eq_true, Bool.and_self, ↓reduceIte, fld_put_below, fld_put, show bits 251 1 3 = 5 from rfl, show bits 251 4 5 = 15 from rfl]
theorem stsd (s o d) : Statement (.stsd s o d) := by
  refine of_word rfl (by (repeat refine under_put _ ?_ (by decide)); decide) (by simp (disch := decide) only [put_mod_two]) ?_
  simp (disch := first | decide | ((repeat refine under_put _ ?_ (by decide)); decide)) only [decode32, decodeME, bits_put_below, bits_above, beq_self_eq_true, Bool.and_self, ↓reduceIte, fld_put_below, fld_put, show bits 267 1 3 = 5 from rfl, show bits 267 4 5 = 16 from rfl]
theorem stsq (s o d) : Statement (.stsq s o d) := by
  refine of_word rfl (by (repeat refine under_put _ ?_ (by decide)); decide) (by simp (disch := decide) only [put_mod_two]) ?_
  simp (disch := first | decide | ((repeat refine under_put _ ?_ (by decide)); decide)) only [decode32, decodeME, bits_put_below, bits_above, beq_self_eq_true, Bool.and_self, ↓reduceIte, fld_put_below, fld_put, show bits 283 1 3 = 5 from rfl, show bits 283 4 5 = 17 from rfl]
theorem lduw (h s e o d) : Statement (.lduw h s e o d) := by
  refine of_word rfl (by (repeat refine under_put _ ?_ (by decide)); decide) (by simp (disch := decide) only [put_mod_two]) ?_
  simp (disch := first | decide | ((repeat refine under_put _ ?_ (by decide)); decide)) only [decode32, decodeME, bits_put_below, bits_above, beq_self_eq_true, ↓reduceIte, fld_put_below, fld_put, show bits 299 1 3 = 5 from rfl, show bits 299 4 5 = 18 from rfl]
theorem ldud (h s e o d) : Statement (.ldud h s e o d) := by
  refine of_word rfl (by (repeat refine under_put _ ?_ (by decide)); decide) (by simp (disch := decide) only [put_mod_two]) ?_
  simp (disch := first | decide | ((repeat refine under_put _ ?_ (by decide)); decide)) only [decode32, decodeME, bits_put_below, bits_above, beq_self_eq_true, ↓reduceIte, fld_put_below, fld_put, show bits 315 1 3 = 5 from rfl, show bits 315 4 5 = 19 from rfl]
theorem ldba (h s e o d) : Statement (.ldba h s e o d) := by
  refine of_word rfl (by (repeat refine under_put _ ?_ (by decide)); decide) (by simp (disch := decide) only [put_mod_two]) ?_
  simp (disch := first | decide | ((repeat refine under_put _ ?_ (by decide)); decide)) only [decode32, decodeME, bits_put_below, bits_above, beq_self_eq_true, ↓reduceIte, fld_put_below, fld_put, show bits 331 1 3 = 5 from rfl, show bits 331 4 5 = 20 from rfl]
theorem stba (h s e o d) : Statement (.stba h s e o d) := by
  refine of_word rfl (by (repeat refine under_put _ ?_ (by decide)); decide) (by simp (disch := decide) only [put_mod_two]) ?_
  simp (disch := first | decide | ((repeat refine under_put _ ?_ (by decide)); decide)) only [decode32, decodeME, bits_put_below, bits_above, beq_self_eq_true, ↓reduceIte, fld_put_below, fld_put, show bits 347 1 3 = 5 from rfl, show bits 347 4 5 = 21 from rfl]
theorem gath4 (h s e o d) : Statement (.gath4 h s e o d) := by
  refine of_word rfl (by (repeat refine under_put _ ?_ (by decide)); decide) (by simp (disch := decide) only [put_mod_two]) ?_
  simp (disch := first | decide | ((repeat refine under_put _ ?_ (by decide)); decide)) only [decode32, decodeME, bits_put_below, fld_put_below, fld_put, show bits 363 1 3 = 5 from rfl, show bits 363 4 5 = 22 from rfl]
theorem pref (h s e o) : Statement (.pref h s e o) := by
  refine of_word rfl (by (repeat refine under_put _ ?_ (by decide)); decide) (by simp (disch := decide) only [put_mod_two]) ?_
  simp (disch := first | decide | ((repeat refine under_put _ ?_ (by decide)); decide)) only [decode32, decodeME, bits_put_below, beq_self_eq_true, ↓reduceIte, fld_put_below, fld_put, show bits 65403 1 3 = 5 from rfl, show bits 65403 4 5 = 23 from rfl, show bits 65403 9 7 = 127 from rfl]
theorem bra (o) : Statement (.bra o) := by
  refine of_word rfl (by (repeat refine under_put _ ?_ (by decide)); decide) (by simp (disch := decide) only [put_mod_two]) ?_
  simp (disch := first | decide | ((repeat refine under_put _ ?_ (by decide)); decide)) only [decode32, decodeBR, bits_put_below, fld_put, show bits 13 1 3 = 6 from rfl, show bits 13 4 5 = 0 from rfl]
theorem brz (o) : Statement (.brz o) := by
  refine of_word rfl (by (repeat refine under_put _ ?_ (by decide)); decide) (by simp (disch := decide) only [put_mod_two]) ?_
  simp (disch := first | decide | ((repeat refine under_put _ ?_ (by decide)); decide)) only [decode32, decodeBR, bits_put_below, fld_put, show bits 29 1 3 = 6 from rfl, show bits 29 4 5 = 1 from rfl]
theorem brnz (o) : Statement (.brnz o) := by
  refine of_word rfl (by (repeat refine under_put _ ?_ (by decide)); decide) (by simp (disch := decide) only [put_mod_two]) ?_
  simp (disch := first | decide | ((repeat refine under_put _ ?_ (by decide)); decide)) only [decode32, decodeBR, bits_put_below, fld_put, show bits 45 1 3 = 6 from rfl, show bits 45 4 5 = 2 from rfl]
theorem brn (o) : Statement (.brn o) := by
  refine of_word rfl (by (repeat refine under_put _ ?_ (by decide)); decide) (by simp (disch := decide) only [put_mod_two]) ?_
  simp (disch := first | decide | ((repeat refine under_put _ ?_ (by decide)); decide)) only [decode32, decodeBR, bits_put_below, fld_put, show bits 61 1 3 = 6 from rfl, show bits 61 4 5 = 3 from rfl]
theorem brnn (o) : Statement (.brnn o) := by
  refine of_word rfl (by (repeat refine under_put _ ?_ (by decide)); decide) (by simp (disch := decide) only [put_mod_two]) ?_
  simp (disch := first | decide | ((repeat refine under_put _ ?_ (by decide)); decide)) only [decode32, decodeBR, bits_put_below, fld_put, show bits 77 1 3 = 6 from rfl, show bits 77 4 5 = 4 from rfl]
theorem brc (o) : Statement (.brc o) := by
  refine of_word rfl (by (repeat refine under_put _ ?_ (by decide)); decide) (by simp (disch := decide) only [put_mod_two]) ?_
  simp (disch := first | decide | ((repeat refine under_put _ ?_ (by decide)); decide)) only [decode32, decodeBR, bits_put_below, fld_put, show bits 93 1 3 = 6 from rfl, show bits 93 4 5 = 5 from rfl]
theorem brnc (o) : Statement (.brnc o) := by
  refine of_word rfl (by (repeat refine under_put _ ?_ (by decide)); decide) (by simp (disch := decide) only [put_mod_two]) ?_
  simp (disch := first | decide | ((repeat refine under_put _ ?_ (by decide)); decide)) only [decode32, decodeBR, bits_put_below, fld_put, show bits 109 1 3 = 6 from rfl, show bits 109 4 5 = 6 from rfl]
theorem brvP0 (o) : Statement (.brvP0 o) := by
  refine of_word rfl (by (repeat refine under_put _ ?_ (by decide)); decide) (by simp (disch := decide) only [put_mod_two]) ?_
  simp (disch := first | decide | ((repeat refine under_put _ ?_ (by decide)); decide)) only [decode32, decodeBR, bits_put_below, fld_put, show bits 125 1 3 = 6 from rfl, show bits 125 4 5 = 7 from rfl]
theorem brvP1 (o) : Statement (.brvP1 o) := by
  refine of_word rfl (by (repeat refine under_put _ ?_ (by decide)); decide) (by simp (disch := decide) only [put_mod_two]) ?_
  simp (disch := first | decide | ((repeat refine under_put _ ?_ (by decide)); decide)) only [decode32, decodeBR, bits_put_below, fld_put, show bits 141 1 3 = 6 from rfl, show bits 141 4 5 = 8 from rfl]
theorem brvP2 (o) : Statement (.brvP2 o) := by
  refine of_word rfl (by (repeat refine under_put _ ?_ (by decide)); decide) (by simp (disch := decide) only [put_mod_two]) ?_
  simp (disch := first | decide | ((repeat refine under_put _ ?_ (by decide)); decide)) only [decode32, decodeBR, bits_put_below, fld_put, show bits 157 1 3 = 6 from rfl, show bits 157 4 5 = 9 from rfl]
theorem brvP3 (o) : Statement (.brvP3 o) := by
  refine of_word rfl (by (repeat refine under_put _ ?_ (by decide)); decide) (by simp (disch := decide) only [put_mod_two]) ?_
  simp (disch := first | decide | ((repeat refine under_put _ ?_ (by decide)); decide)) only [decode32, decodeBR, bits_put_below, fld_put, show bits 173 1 3 = 6 from rfl, show bits 173 4 5 = 10 from rfl]
theorem brany (o) : Statement (.brany o) := by
  refine of_word rfl (by (repeat refine under_put _ ?_ (by decide)); decide) (by simp (disch := decide) only [put_mod_two]) ?_
  simp (disch := first | decide | ((repeat refine under_put _ ?_ (by decide)); decide)) only [decode32, decodeBR, bits_put_below, fld_put, show bits 189 1 3 = 6 from rfl, show bits 189 4 5 = 11 from rfl]
theorem brall (o) : Statement (.brall o) := by
  refine of_word rfl (by (repeat refine under_put _ ?_ (by decide)); decide) (by simp (disch := decide) only [put_mod_two]) ?_
  simp (disch := first | decide | ((repeat refine under_put _ ?_ (by decide)); decide)) only [decode32, decodeBR, bits_put_below, fld_put, show bits 205 1 3 = 6 from rfl, show bits 205 4 5 = 12 from rfl]
theorem bre (o) : Statement (.bre o) := by
  refine of_word rfl (by (repeat refine under_put _ ?_ (by decide)); decide) (by simp (disch := decide) only [put_mod_two]) ?_
  simp (disch := first | decide | ((repeat refine under_put _ ?_ (by decide)); decide)) only [decode32, decodeBR, bits_put_below, fld_put, show bits 221 1 3 = 6 from rfl, show bits 221 4 5 = 13 from rfl]
theorem call (o) : Statement (.call o) := by
  refine of_word rfl (by (repeat refine under_put _ ?_ (by decide)); decide) (by simp (disch := decide) only [put_mod_two]) ?_
  simp (disch := first | decide | ((repeat refine under_put _ ?_ (by decide)); decide)) only [decode32, decodeBR, bits_put_below, fld_put, show bits 237 1 3 = 6 from rfl, show bits 237 4 5 = 14 from rfl]
theorem mov (s d) : Statement (.mov s d) := by
  refine of_half rfl (by (repeat refine under_put _ ?_ (by decide)); decide) (by simp (disch := decide) only [put_mod_two]) ?_
  simp (disch := first | decide | ((repeat refine under_put _ ?_ (by decide)); decide)) only [decode16, bits_put_below, fld_put_below, fld_put, show bits 0 1 4 = 0 from rfl]
theorem iadd16 (s d) : Statement (.iadd16 s d) := by
  refine of_half rfl (by (repeat refine under_put _ ?_ (by decide)); decide) (by simp (disch := decide) only [put_mod_two]) ?_
  simp (disch := first | decide | ((repeat refine under_put _ ?_ (by decide)); decide)) only [decode16, bits_put_below, fld_put_below, fld_put, show bits 2 1 4 = 1 from rfl]
theorem isub16 (s d) : Statement (.isub16 s d) := by
  refine of_half rfl (by (repeat refine under_put _ ?_ (by decide)); decide) (by simp (disch := decide) only [put_mod_two]) ?_
  simp (disch := first | decide | ((repeat refine under_put _ ?_ (by decide)); decide)) only [decode16, bits_put_below, fld_put_below, fld_put, show bits 4 1 4 = 2 from rfl]
theorem imul16 (s d) : Statement (.imul16 s d) := by
  refine of_half rfl (by (repeat refine under_put _ ?_ (by decide)); decide) (by simp (disch := decide) only [put_mod_two]) ?_
  simp (disch := first | decide | ((repeat refine under_put _ ?_ (by decide)); decide)) only [decode16, bits_put_below, fld_put_below, fld_put, show bits 6 1 4 = 3 from rfl]
theorem and16 (s d) : Statement (.and16 s d) := by
  refine of_half rfl (by (repeat refine under_put _ ?_ (by decide)); decide) (by simp (disch := decide) only [put_mod_two]) ?_
  simp (disch := first | decide | ((repeat refine under_put _ ?_ (by decide)); decide)) only [decode16, bits_put_below, fld_put_below, fld_put, show bits 8 1 4 = 4 from rfl]
theorem or16 (s d) : Statement (.or16 s d) := by
  refine of_half rfl (by (repeat refine under_put _ ?_ (by decide)); decide) (by simp (disch := decide) only [put_mod_two]) ?_
  simp (disch := first | decide | ((repeat refine under_put _ ?_ (by decide)); decide)) only [decode16, bits_put_below, fld_put_below, fld_put, show bits 10 1 4 = 5 from rfl]
theorem xor16 (s d) : Statement (.xor16 s d) := by
  refine of_half rfl (by (repeat refine under_put _ ?_ (by decide)); decide) (by simp (disch := decide) only [put_mod_two]) ?_
  simp (disch := first | decide | ((repeat refine under_put _ ?_ (by decide)); decide)) only [decode16, bits_put_below, fld_put_below, fld_put, show bits 12 1 4 = 6 from rfl]
theorem shl16 (s d) : Statement (.shl16 s d) := by
  refine of_half rfl (by (repeat refine under_put _ ?_ (by decide)); decide) (by simp (disch := decide) only [put_mod_two]) ?_
  simp (disch := first | decide | ((repeat refine under_put _ ?_ (by decide)); decide)) only [decode16, bits_put_below, fld_put_below, fld_put, show bits 14 1 4 = 7 from rfl]
theorem shr16 (s d) : Statement (.shr16 s d) := by
  refine of_half rfl (by (repeat refine under_put _ ?_ (by decide)); decide) (by simp (disch := decide) only [put_mod_two]) ?_
  simp (disch := first | decide | ((repeat refine under_put _ ?_ (by decide)); decide)) only [decode16, bits_put_below, fld_put_below, fld_put, show bits 16 1 4 = 8 from rfl]
theorem shra16 (s d) : Statement (.shra16 s d) := by
  refine of_half rfl (by (repeat refine under_put _ ?_ (by decide)); decide) (by simp (disch := decide) only [put_mod_two]) ?_
  simp (disch := first | decide | ((repeat refine under_put _ ?_ (by decide)); decide)) only [decode16, bits_put_below, fld_put_below, fld_put, show bits 18 1 4 = 9 from rfl]
theorem fadd16 (s d) : Statement (.fadd16 s d) := by
  refine of_half rfl (by (repeat refine under_put _ ?_ (by decide)); decide) (by simp (disch := decide) only [put_mod_two]) ?_
  simp (disch := first | decide | ((repeat refine under_put _ ?_ (by decide)); decide)) only [decode16, bits_put_below, fld_put_below, fld_put, show bits 20 1 4 = 10 from rfl]
theorem fsub16 (s d) : Statement (.fsub16 s d) := by
  refine of_half rfl (by (repeat refine under_put _ ?_ (by decide)); decide) (by simp (disch := decide) only [put_mod_two]) ?_
  simp (disch := first | decide | ((repeat refine under_put _ ?_ (by decide)); decide)) only [decode16, bits_put_below, fld_put_below, fld_put, show bits 22 1 4 = 11 from rfl]
theorem fmul16 (s d) : Statement (.fmul16 s d) := by
  refine of_half rfl (by (repeat refine under_put _ ?_ (by decide)); decide) (by simp (disch := decide) only [put_mod_two]) ?_
  simp (disch := first | decide | ((repeat refine under_put _ ?_ (by decide)); decide)) only [decode16, bits_put_below, fld_put_below, fld_put, show bits 24 1 4 = 12 from rfl]
theorem fmin16 (s d) : Statement (.fmin16 s d) := by
  refine of_half rfl (by (repeat refine under_put _ ?_ (by decide)); decide) (by simp (disch := decide) only [put_mod_two]) ?_
  simp (disch := first | decide | ((repeat refine under_put _ ?_ (by decide)); decide)) only [decode16, bits_put_below, fld_put_below, fld_put, show bits 26 1 4 = 13 from rfl]
theorem fmax16 (s d) : Statement (.fmax16 s d) := by
  refine of_half rfl (by (repeat refine under_put _ ?_ (by decide)); decide) (by simp (disch := decide) only [put_mod_two]) ?_
  simp (disch := first | decide | ((repeat refine under_put _ ?_ (by decide)); decide)) only [decode16, bits_put_below, fld_put_below, fld_put, show bits 28 1 4 = 14 from rfl]
theorem sel16 (s d) : Statement (.sel16 s d) := by
  refine of_half rfl (by (repeat refine under_put _ ?_ (by decide)); decide) (by simp (disch := decide) only [put_mod_two]) ?_
  simp (disch := first | decide | ((repeat refine under_put _ ?_ (by decide)); decide)) only [decode16, bits_put_below, fld_put_below, fld_put, show bits 30 1 4 = 15 from rfl]
theorem nop : Statement (.nop) := by
  refine of_word rfl (by decide) (rfl) ?_
  simp (disch := first | decide | ((repeat refine under_put _ ?_ (by decide)); decide)) only [decode32, decodeEX, decodeFam0, beq_self_eq_true, ↓reduceIte, show bits 15 1 3 = 7 from rfl, show bits 15 4 5 = 0 from rfl, show bits 15 9 7 = 0 from rfl, show bits 15 16 16 = 0 from rfl]
theorem exit : Statement (.exit) := by
  refine of_word rfl (by decide) (rfl) ?_
  simp (disch := first | decide | ((repeat refine under_put _ ?_ (by decide)); decide)) only [decode32, decodeEX, decodeFam0, beq_self_eq_true, ↓reduceIte, show bits 527 1 3 = 7 from rfl, show bits 527 4 5 = 0 from rfl, show bits 527 9 7 = 1 from rfl, show bits 527 16 16 = 0 from rfl]
theorem join : Statement (.join) := by
  refine of_word rfl (by decide) (rfl) ?_
  simp (disch := first | decide | ((repeat refine under_put _ ?_ (by decide)); decide)) only [decode32, decodeEX, decodeFam0, beq_self_eq_true, ↓reduceIte, show bits 1039 1 3 = 7 from rfl, show bits 1039 4 5 = 0 from rfl, show bits 1039 9 7 = 2 from rfl, show bits 1039 16 16 = 0 from rfl]
theorem ret : Statement (.ret) := by
  refine of_word rfl (by decide) (rfl) ?_
  simp (disch := first | decide | ((repeat refine under_put _ ?_ (by decide)); decide)) only [decode32, decodeEX, decodeFam0, beq_self_eq_true, ↓reduceIte, show bits 1551 1 3 = 7 from rfl, show bits 1551 4 5 = 0 from rfl, show bits 1551 9 7 = 3 from rfl, show bits 1551 16 16 = 0 from rfl]
theorem jmpi (a) : Statement (.jmpi a) := by
  refine of_word rfl (by (repeat refine under_put _ ?_ (by decide)); decide) (by simp (disch := decide) only [put_mod_two]) ?_
  simp (disch := first | decide | ((repeat refine under_put _ ?_ (by decide)); decide)) only [decode32, decodeEX, decodeFam0, bits_put_below, bits_above, beq_self_eq_true, ↓reduceIte, fld_put, show bits 2063 1 3 = 7 from rfl, show bits 2063 4 5 = 0 from rfl, show bits 2063 9 7 = 4 from rfl]
theorem yield : Statement (.yield) := by
  refine of_word rfl (by decide) (rfl) ?_
  simp (disch := first | decide | ((repeat refine under_put _ ?_ (by decide)); decide)) only [decode32, decodeEX, decodeFam0, beq_self_eq_true, ↓reduceIte, show bits 2575 1 3 = 7 from rfl, show bits 2575 4 5 = 0 from rfl, show bits 2575 9 7 = 5 from rfl, show bits 2575 16 16 = 0 from rfl]
theorem sleep (a) : Statement (.sleep a) := by
  refine of_word rfl (by (repeat refine under_put _ ?_ (by decide)); decide) (by simp (disch := decide) only [put_mod_two]) ?_
  simp (disch := first | decide | ((repeat refine under_put _ ?_ (by decide)); decide)) only [decode32, decodeEX, decodeFam0, bits_put_below, bits_above, beq_self_eq_true, ↓reduceIte, fld_put, show bits 3087 1 3 = 7 from rfl, show bits 3087 4 5 = 0 from rfl, show bits 3087 9 7 = 6 from rfl]
theorem waitc (b p) : Statement (.waitc b p) := by
  refine of_word rfl (by (repeat refine under_put _ ?_ (by decide)); decide) (by simp (disch := decide) only [put_mod_two]) ?_
  simp (disch := first | decide | ((repeat refine under_put _ ?_ (by decide)); decide)) only [decode32, decodeEX, decodeFam0, bits_put_below, fld_put_below, fld_put, show bits 3599 1 3 = 7 from rfl, show bits 3599 4 5 = 0 from rfl, show bits 3599 9 7 = 7 from rfl]
theorem idem : Statement (.idem) := by
  refine of_word rfl (by decide) (rfl) ?_
  simp (disch := first | decide | ((repeat refine under_put _ ?_ (by decide)); decide)) only [decode32, decodeEX, decodeFam0, beq_self_eq_true, ↓reduceIte, show bits 4111 1 3 = 7 from rfl, show bits 4111 4 5 = 0 from rfl, show bits 4111 9 7 = 8 from rfl, show bits 4111 16 16 = 0 from rfl]
theorem scopeOpen (a) : Statement (.scopeOpen a) := by
  refine of_word rfl (by (repeat refine under_put _ ?_ (by decide)); decide) (by simp (disch := decide) only [put_mod_two]) ?_
  simp (disch := first | decide | ((repeat refine under_put _ ?_ (by decide)); decide)) only [decode32, decodeEX, decodeFam0, bits_put_below, bits_above, beq_self_eq_true, ↓reduceIte, fld_put, show bits 4623 1 3 = 7 from rfl, show bits 4623 4 5 = 0 from rfl, show bits 4623 9 7 = 9 from rfl]
theorem scopeClose : Statement (.scopeClose) := by
  refine of_word rfl (by decide) (rfl) ?_
  simp (disch := first | decide | ((repeat refine under_put _ ?_ (by decide)); decide)) only [decode32, decodeEX, decodeFam0, beq_self_eq_true, ↓reduceIte, show bits 5135 1 3 = 7 from rfl, show bits 5135 4 5 = 0 from rfl, show bits 5135 9 7 = 10 from rfl, show bits 5135 16 16 = 0 from rfl]
theorem emget (k) : Statement (.emget k) := by
  refine of_word rfl (by (repeat refine under_put _ ?_ (by decide)); decide) (by simp (disch := decide) only [put_mod_two]) ?_
  simp (disch := first | decide | ((repeat refine under_put _ ?_ (by decide)); decide)) only [decode32, decodeEX, decodeFam0, bits_put_below, bits_above, beq_self_eq_true, ↓reduceIte, fld_put, show bits 5647 1 3 = 7 from rfl, show bits 5647 4 5 = 0 from rfl, show bits 5647 9 7 = 11 from rfl]
theorem emset (b a) : Statement (.emset b a) := by
  refine of_word rfl (by (repeat refine under_put _ ?_ (by decide)); decide) (by simp (disch := decide) only [put_mod_two]) ?_
  simp (disch := first | decide | ((repeat refine under_put _ ?_ (by decide)); decide)) only [decode32, decodeEX, decodeFam0, bits_put_below, fld_put_below, fld_put, show bits 6159 1 3 = 7 from rfl, show bits 6159 4 5 = 0 from rfl, show bits 6159 9 7 = 12 from rfl]
theorem emand (b a) : Statement (.emand b a) := by
  refine of_word rfl (by (repeat refine under_put _ ?_ (by decide)); decide) (by simp (disch := decide) only [put_mod_two]) ?_
  simp (disch := first | decide | ((repeat refine under_put _ ?_ (by decide)); decide)) only [decode32, decodeEX, decodeFam0, bits_put_below, fld_put_below, fld_put, show bits 6671 1 3 = 7 from rfl, show bits 6671 4 5 = 0 from rfl, show bits 6671 9 7 = 13 from rfl]
theorem trap (c) : Statement (.trap c) := by
  refine of_word rfl (by (repeat refine under_put _ ?_ (by decide)); decide) (by simp (disch := decide) only [put_mod_two]) ?_
  simp (disch := first | decide | ((repeat refine under_put _ ?_ (by decide)); decide)) only [decode32, decodeEX, decodeFam0, bits_put_below, bits_above, beq_self_eq_true, ↓reduceIte, fld_put, show bits 7183 1 3 = 7 from rfl, show bits 7183 4 5 = 0 from rfl, show bits 7183 9 7 = 14 from rfl]
theorem rte : Statement (.rte) := by
  refine of_word rfl (by decide) (rfl) ?_
  simp (disch := first | decide | ((repeat refine under_put _ ?_ (by decide)); decide)) only [decode32, decodeEX, decodeFam0, beq_self_eq_true, ↓reduceIte, show bits 7695 1 3 = 7 from rfl, show bits 7695 4 5 = 0 from rfl, show bits 7695 9 7 = 15 from rfl, show bits 7695 16 16 = 0 from rfl]
theorem icinv (b a) : Statement (.icinv b a) := by
  refine of_word rfl (by (repeat refine under_put _ ?_ (by decide)); decide) (by simp (disch := decide) only [put_mod_two]) ?_
  simp (disch := first | decide | ((repeat refine under_put _ ?_ (by decide)); decide)) only [decode32, decodeEX, decodeFam0, bits_put_below, fld_put_below, fld_put, show bits 8207 1 3 = 7 from rfl, show bits 8207 4 5 = 0 from rfl, show bits 8207 9 7 = 16 from rfl]
theorem fence (c s p) : Statement (.fence c s p) := by
  refine of_word rfl (by (repeat refine under_put _ ?_ (by decide)); decide) (by simp (disch := decide) only [put_mod_two]) ?_
  simp (disch := first | decide | ((repeat refine under_put _ ?_ (by decide)); decide)) only [decode32, decodeEX, decodeFam0, bits_put_below, bits_above, beq_self_eq_true, ↓reduceIte, fld_put_below, fld_put, show bits 8719 1 3 = 7 from rfl, show bits 8719 4 5 = 0 from rfl, show bits 8719 9 7 = 17 from rfl]
theorem stampBegin (a) : Statement (.stampBegin a) := by
  refine of_word rfl (by (repeat refine under_put _ ?_ (by decide)); decide) (by simp (disch := decide) only [put_mod_two]) ?_
  simp (disch := first | decide | ((repeat refine under_put _ ?_ (by decide)); decide)) only [decode32, decodeEX, decodeFam0, bits_put_below, bits_above, beq_self_eq_true, ↓reduceIte, fld_put, show bits 9231 1 3 = 7 from rfl, show bits 9231 4 5 = 0 from rfl, show bits 9231 9 7 = 18 from rfl]
theorem stampEnd (a) : Statement (.stampEnd a) := by
  refine of_word rfl (by (repeat refine under_put _ ?_ (by decide)); decide) (by simp (disch := decide) only [put_mod_two]) ?_
  simp (disch := first | decide | ((repeat refine under_put _ ?_ (by decide)); decide)) only [decode32, decodeEX, decodeFam0, bits_put_below, bits_above, beq_self_eq_true, ↓reduceIte, fld_put, show bits 9743 1 3 = 7 from rfl, show bits 9743 4 5 = 0 from rfl, show bits 9743 9 7 = 19 from rfl]
theorem mcfg (b a) : Statement (.mcfg b a) := by
  refine of_word rfl (by (repeat refine under_put _ ?_ (by decide)); decide) (by simp (disch := decide) only [put_mod_two]) ?_
  simp (disch := first | decide | ((repeat refine under_put _ ?_ (by decide)); decide)) only [decode32, decodeEX, decodeFam0, bits_put_below, fld_put_below, fld_put, show bits 10255 1 3 = 7 from rfl, show bits 10255 4 5 = 0 from rfl, show bits 10255 9 7 = 20 from rfl]
theorem actLd (b n) : Statement (.actLd b n) := by
  refine of_word rfl (by (repeat refine under_put _ ?_ (by decide)); decide) (by simp (disch := decide) only [put_mod_two]) ?_
  simp (disch := first | decide | ((repeat refine under_put _ ?_ (by decide)); decide)) only [decode32, decodeEX, decodeFam0, bits_put_below, bits_above, beq_self_eq_true, ↓reduceIte, fld_put_below, fld_put, show bits 10767 1 3 = 7 from rfl, show bits 10767 4 5 = 0 from rfl, show bits 10767 9 7 = 21 from rfl]
theorem badd (b n) : Statement (.badd b n) := by
  refine of_word rfl (by (repeat refine under_put _ ?_ (by decide)); decide) (by simp (disch := decide) only [put_mod_two]) ?_
  simp (disch := first | decide | ((repeat refine under_put _ ?_ (by decide)); decide)) only [decode32, decodeEX, decodeFam0, bits_put_below, bits_above, beq_self_eq_true, ↓reduceIte, fld_put_below, fld_put, show bits 11279 1 3 = 7 from rfl, show bits 11279 4 5 = 0 from rfl, show bits 11279 9 7 = 22 from rfl]
theorem bset (k n) : Statement (.bset k n) := by
  refine of_word rfl (by (repeat refine under_put _ ?_ (by decide)); decide) (by simp (disch := decide) only [put_mod_two]) ?_
  simp (disch := first | decide | ((repeat refine under_put _ ?_ (by decide)); decide)) only [decode32, decodeEX, decodeFam0, bits_put_below, bits_above, beq_self_eq_true, Bool.and_self, ↓reduceIte, fld_put_below, fld_put, show bits 11791 1 3 = 7 from rfl, show bits 11791 4 5 = 0 from rfl, show bits 11791 9 7 = 23 from rfl]
theorem bget (k n) : Statement (.bget k n) := by
  refine of_word rfl (by (repeat refine under_put _ ?_ (by decide)); decide) (by simp (disch := decide) only [put_mod_two]) ?_
  simp (disch := first | decide | ((repeat refine under_put _ ?_ (by decide)); decide)) only [decode32, decodeEX, decodeFam0, bits_put_below, bits_above, beq_self_eq_true, Bool.and_self, ↓reduceIte, fld_put_below, fld_put, show bits 12303 1 3 = 7 from rfl, show bits 12303 4 5 = 0 from rfl, show bits 12303 9 7 = 24 from rfl]
theorem wfence : Statement (.wfence) := by
  refine of_word rfl (by decide) (rfl) ?_
  simp (disch := first | decide | ((repeat refine under_put _ ?_ (by decide)); decide)) only [decode32, decodeEX, decodeFam0, beq_self_eq_true, ↓reduceIte, show bits 12815 1 3 = 7 from rfl, show bits 12815 4 5 = 0 from rfl, show bits 12815 9 7 = 25 from rfl, show bits 12815 16 16 = 0 from rfl]
theorem xshf (b a d) : Statement (.xshf b a d) := by
  refine of_word rfl (by (repeat refine under_put _ ?_ (by decide)); decide) (by simp (disch := decide) only [put_mod_two]) ?_
  simp (disch := first | decide | ((repeat refine under_put _ ?_ (by decide)); decide)) only [decode32, decodeEX, decodeFam1, bits_put_below, fld_put_below, fld_put, show bits 31 1 3 = 7 from rfl, show bits 31 4 5 = 1 from rfl]
theorem xdn (b a d) : Statement (.xdn b a d) := by
  refine of_word rfl (by (repeat refine under_put _ ?_ (by decide)); decide) (by simp (disch := decide) only [put_mod_two]) ?_
  simp (disch := first | decide | ((repeat refine under_put _ ?_ (by decide)); decide)) only [decode32, decodeEX, decodeFam2, bits_put_below, fld_put_below, fld_put, show bits 47 1 3 = 7 from rfl, show bits 47 4 5 = 2 from rfl]
theorem xup (b a d) : Statement (.xup b a d) := by
  refine of_word rfl (by (repeat refine under_put _ ?_ (by decide)); decide) (by simp (disch := decide) only [put_mod_two]) ?_
  simp (disch := first | decide | ((repeat refine under_put _ ?_ (by decide)); decide)) only [decode32, decodeEX, decodeFam3, bits_put_below, fld_put_below, fld_put, show bits 63 1 3 = 7 from rfl, show bits 63 4 5 = 3 from rfl]
theorem xrot (b a d) : Statement (.xrot b a d) := by
  refine of_word rfl (by (repeat refine under_put _ ?_ (by decide)); decide) (by simp (disch := decide) only [put_mod_two]) ?_
  simp (disch := first | decide | ((repeat refine under_put _ ?_ (by decide)); decide)) only [decode32, decodeEX, decodeFam4, bits_put_below, fld_put_below, fld_put, show bits 79 1 3 = 7 from rfl, show bits 79 4 5 = 4 from rfl]
theorem xbfly (b a d) : Statement (.xbfly b a d) := by
  refine of_word rfl (by (repeat refine under_put _ ?_ (by decide)); decide) (by simp (disch := decide) only [put_mod_two]) ?_
  simp (disch := first | decide | ((repeat refine under_put _ ?_ (by decide)); decide)) only [decode32, decodeEX, decodeFam5, bits_put_below, fld_put_below, fld_put, show bits 95 1 3 = 7 from rfl, show bits 95 4 5 = 5 from rfl]
theorem xred (o a d) : Statement (.xred o a d) := by
  refine of_word rfl (by (repeat refine under_put _ ?_ (by decide)); decide) (by simp (disch := decide) only [put_mod_two]) ?_
  simp (disch := first | decide | ((repeat refine under_put _ ?_ (by decide)); decide)) only [decode32, decodeEX, decodeFam6, bits_put_below, bits_above, beq_self_eq_true, ↓reduceIte, fld_put_below, fld_put, show bits 111 1 3 = 7 from rfl, show bits 111 4 5 = 6 from rfl]
theorem xscan (e o a d) : Statement (.xscan e o a d) := by
  refine of_word rfl (by (repeat refine under_put _ ?_ (by decide)); decide) (by simp (disch := decide) only [put_mod_two]) ?_
  simp (disch := first | decide | ((repeat refine under_put _ ?_ (by decide)); decide)) only [decode32, decodeEX, decodeFam7, bits_put_below, bits_above, beq_self_eq_true, ↓reduceIte, fld_put_below, fld_put, show bits 127 1 3 = 7 from rfl, show bits 127 4 5 = 7 from rfl]
theorem xbal (h p d) : Statement (.xbal h p d) := by
  refine of_word rfl (by (repeat refine under_put _ ?_ (by decide)); decide) (by simp (disch := decide) only [put_mod_two]) ?_
  simp (disch := first | decide | ((repeat refine under_put _ ?_ (by decide)); decide)) only [decode32, decodeEX, decodeFam8, bits_put_below, bits_above, beq_self_eq_true, Bool.and_self, ↓reduceIte, fld_put_below, fld_put, show bits 143 1 3 = 7 from rfl, show bits 143 4 5 = 8 from rfl]
theorem xbcast (b a d) : Statement (.xbcast b a d) := by
  refine of_word rfl (by (repeat refine under_put _ ?_ (by decide)); decide) (by simp (disch := decide) only [put_mod_two]) ?_
  simp (disch := first | decide | ((repeat refine under_put _ ?_ (by decide)); decide)) only [decode32, decodeEX, decodeFam9, bits_put_below, fld_put_below, fld_put, show bits 159 1 3 = 7 from rfl, show bits 159 4 5 = 9 from rfl]
theorem xfirst (a d) : Statement (.xfirst a d) := by
  refine of_word rfl (by (repeat refine under_put _ ?_ (by decide)); decide) (by simp (disch := decide) only [put_mod_two]) ?_
  simp (disch := first | decide | ((repeat refine under_put _ ?_ (by decide)); decide)) only [decode32, decodeEX, decodeFam10, bits_put_below, bits_above, beq_self_eq_true, ↓reduceIte, fld_put_below, fld_put, show bits 175 1 3 = 7 from rfl, show bits 175 4 5 = 10 from rfl]
theorem mma (b a) : Statement (.mma b a) := by
  refine of_word rfl (by (repeat refine under_put _ ?_ (by decide)); decide) (by simp (disch := decide) only [put_mod_two]) ?_
  simp (disch := first | decide | ((repeat refine under_put _ ?_ (by decide)); decide)) only [decode32, decodeEX, decodeFam11, bits_put_below, beq_self_eq_true, ↓reduceIte, fld_put_below, fld_put, show bits 191 1 3 = 7 from rfl, show bits 191 4 5 = 11 from rfl, show bits 191 9 7 = 0 from rfl]
theorem accAlloc (h) : Statement (.accAlloc h) := by
  refine of_word rfl (by (repeat refine under_put _ ?_ (by decide)); decide) (by simp (disch := decide) only [put_mod_two]) ?_
  simp (disch := first | decide | ((repeat refine under_put _ ?_ (by decide)); decide)) only [decode32, decodeEX, decodeFam12, bits_put_below, bits_above, beq_self_eq_true, Bool.and_self, ↓reduceIte, fld_put, show bits 65231 1 3 = 7 from rfl, show bits 65231 4 5 = 12 from rfl, show bits 65231 9 15 = 127 from rfl]
theorem accFree (h) : Statement (.accFree h) := by
  refine of_word rfl (by (repeat refine under_put _ ?_ (by decide)); decide) (by simp (disch := decide) only [put_mod_two]) ?_
  simp (disch := first | decide | ((repeat refine under_put _ ?_ (by decide)); decide)) only [decode32, decodeEX, decodeFam12, bits_put_below, bits_above, beq_self_eq_true, Bool.and_self, ↓reduceIte, fld_put, show bits 16842447 1 3 = 7 from rfl, show bits 16842447 4 5 = 12 from rfl, show bits 16842447 24 4 = 1 from rfl, show bits 16842447 9 15 = 127 from rfl]
theorem accZero (h) : Statement (.accZero h) := by
  refine of_word rfl (by (repeat refine under_put _ ?_ (by decide)); decide) (by simp (disch := decide) only [put_mod_two]) ?_
  simp (disch := first | decide | ((repeat refine under_put _ ?_ (by decide)); decide)) only [decode32, decodeEX, decodeFam12, bits_put_below, bits_above, beq_self_eq_true, Bool.and_self, ↓reduceIte, fld_put, show bits 33619663 1 3 = 7 from rfl, show bits 33619663 4 5 = 12 from rfl, show bits 33619663 24 4 = 2 from rfl, show bits 33619663 9 15 = 127 from rfl]
theorem accRd (h a d) : Statement (.accRd h a d) := by
  refine of_word rfl (by (repeat first | refine under_put _ ?_ (by decide) | refine under_put_lit (k := 4) (by decide) ?_ (by decide)); decide) (by simp (disch := decide) only [put_mod_two]) ?_
  simp (disch := first | decide | ((repeat first | refine under_put _ ?_ (by decide) | refine under_put_lit (k := 4) (by decide) ?_ (by decide)); decide)) only [decode32, decodeEX, decodeFam12, bits_put_below, bits_put_lit, bits_above, beq_self_eq_true, ↓reduceIte, fld_put_below, fld_put, show bits 207 1 3 = 7 from rfl, show bits 207 4 5 = 12 from rfl]
theorem accWr (h a) : Statement (.accWr h a) := by
  refine of_word rfl (by (repeat first | refine under_put _ ?_ (by decide) | refine under_put_lit (k := 4) (by decide) ?_ (by decide)); decide) (by simp (disch := decide) only [put_mod_two]) ?_
  simp (disch := first | decide | ((repeat first | refine under_put _ ?_ (by decide) | refine under_put_lit (k := 4) (by decide) ?_ (by decide)); decide)) only [decode32, decodeEX, decodeFam12, bits_put_below, bits_put_lit, bits_above, beq_self_eq_true, Bool.and_self, ↓reduceIte, fld_put_below, fld_put, show bits 65231 1 3 = 7 from rfl, show bits 65231 4 5 = 12 from rfl, show bits 65231 9 7 = 127 from rfl]
theorem accMask (h a) : Statement (.accMask h a) := by
  refine of_word rfl (by (repeat first | refine under_put _ ?_ (by decide) | refine under_put_lit (k := 4) (by decide) ?_ (by decide)); decide) (by simp (disch := decide) only [put_mod_two]) ?_
  simp (disch := first | decide | ((repeat first | refine under_put _ ?_ (by decide) | refine under_put_lit (k := 4) (by decide) ?_ (by decide)); decide)) only [decode32, decodeEX, decodeFam12, bits_put_below, bits_put_lit, bits_above, beq_self_eq_true, Bool.and_self, ↓reduceIte, fld_put_below, fld_put, show bits 65231 1 3 = 7 from rfl, show bits 65231 4 5 = 12 from rfl, show bits 65231 9 7 = 127 from rfl]
theorem accRowmax (h d) : Statement (.accRowmax h d) := by
  refine of_word rfl (by (repeat first | refine under_put _ ?_ (by decide) | refine under_put_lit (k := 4) (by decide) ?_ (by decide)); decide) (by simp (disch := decide) only [put_mod_two]) ?_
  simp (disch := first | decide | ((repeat first | refine under_put _ ?_ (by decide) | refine under_put_lit (k := 4) (by decide) ?_ (by decide)); decide)) only [decode32, decodeEX, decodeFam12, bits_put_below, bits_put_lit, bits_above, beq_self_eq_true, Bool.and_self, ↓reduceIte, fld_put_below, fld_put, show bits 207 1 3 = 7 from rfl, show bits 207 4 5 = 12 from rfl]
theorem accRowsum (h d) : Statement (.accRowsum h d) := by
  refine of_word rfl (by (repeat first | refine under_put _ ?_ (by decide) | refine under_put_lit (k := 4) (by decide) ?_ (by decide)); decide) (by simp (disch := decide) only [put_mod_two]) ?_
  simp (disch := first | decide | ((repeat first | refine under_put _ ?_ (by decide) | refine under_put_lit (k := 4) (by decide) ?_ (by decide)); decide)) only [decode32, decodeEX, decodeFam12, bits_put_below, bits_put_lit, bits_above, beq_self_eq_true, Bool.and_self, ↓reduceIte, fld_put_below, fld_put, show bits 207 1 3 = 7 from rfl, show bits 207 4 5 = 12 from rfl]
theorem accRowscl (h a) : Statement (.accRowscl h a) := by
  refine of_word rfl (by (repeat first | refine under_put _ ?_ (by decide) | refine under_put_lit (k := 4) (by decide) ?_ (by decide)); decide) (by simp (disch := decide) only [put_mod_two]) ?_
  simp (disch := first | decide | ((repeat first | refine under_put _ ?_ (by decide) | refine under_put_lit (k := 4) (by decide) ?_ (by decide)); decide)) only [decode32, decodeEX, decodeFam12, bits_put_below, bits_put_lit, bits_above, beq_self_eq_true, Bool.and_self, ↓reduceIte, fld_put_below, fld_put, show bits 65231 1 3 = 7 from rfl, show bits 65231 4 5 = 12 from rfl, show bits 65231 9 7 = 127 from rfl]
theorem fragLda (a d) : Statement (.fragLda a d) := by
  refine of_word rfl (by (repeat refine under_put _ ?_ (by decide)); decide) (by simp (disch := decide) only [put_mod_two]) ?_
  simp (disch := first | decide | ((repeat refine under_put _ ?_ (by decide)); decide)) only [decode32, decodeEX, decodeFam13, bits_put_below, bits_above, beq_self_eq_true, ↓reduceIte, fld_put_below, fld_put, show bits 223 1 3 = 7 from rfl, show bits 223 4 5 = 13 from rfl]
theorem fragLdb (a d) : Statement (.fragLdb a d) := by
  refine of_word rfl (by (repeat first | refine under_put _ ?_ (by decide) | refine under_put_lit (k := 4) (by decide) ?_ (by decide)); decide) (by simp (disch := decide) only [put_mod_two]) ?_
  simp (disch := first | decide | ((repeat first | refine under_put _ ?_ (by decide) | refine under_put_lit (k := 4) (by decide) ?_ (by decide)); decide)) only [decode32, decodeEX, decodeFam13, bits_put_below, bits_put_lit, bits_above, beq_self_eq_true, ↓reduceIte, fld_put_below, fld_put, show bits 223 1 3 = 7 from rfl, show bits 223 4 5 = 13 from rfl]
theorem fragLdas (a d) : Statement (.fragLdas a d) := by
  refine of_word rfl (by (repeat first | refine under_put _ ?_ (by decide) | refine under_put_lit (k := 4) (by decide) ?_ (by decide)); decide) (by simp (disch := decide) only [put_mod_two]) ?_
  simp (disch := first | decide | ((repeat first | refine under_put _ ?_ (by decide) | refine under_put_lit (k := 4) (by decide) ?_ (by decide)); decide)) only [decode32, decodeEX, decodeFam13, bits_put_below, bits_put_lit, bits_above, beq_self_eq_true, ↓reduceIte, fld_put_below, fld_put, show bits 223 1 3 = 7 from rfl, show bits 223 4 5 = 13 from rfl]
theorem fragLdbs (a d) : Statement (.fragLdbs a d) := by
  refine of_word rfl (by (repeat first | refine under_put _ ?_ (by decide) | refine under_put_lit (k := 4) (by decide) ?_ (by decide)); decide) (by simp (disch := decide) only [put_mod_two]) ?_
  simp (disch := first | decide | ((repeat first | refine under_put _ ?_ (by decide) | refine under_put_lit (k := 4) (by decide) ?_ (by decide)); decide)) only [decode32, decodeEX, decodeFam13, bits_put_below, bits_put_lit, bits_above, beq_self_eq_true, ↓reduceIte, fld_put_below, fld_put, show bits 223 1 3 = 7 from rfl, show bits 223 4 5 = 13 from rfl]
theorem permLd (n a) : Statement (.permLd n a) := by
  refine of_word rfl (by (repeat refine under_put _ ?_ (by decide)); decide) (by simp (disch := decide) only [put_mod_two]) ?_
  simp (disch := first | decide | ((repeat refine under_put _ ?_ (by decide)); decide)) only [decode32, decodeEX, decodeFam14, bits_put_below, bits_above, beq_self_eq_true, Bool.and_self, ↓reduceIte, fld_put_below, fld_put, show bits 65263 1 3 = 7 from rfl, show bits 65263 4 5 = 14 from rfl, show bits 65263 9 7 = 127 from rfl]
theorem permLdg (n a) : Statement (.permLdg n a) := by
  refine of_word rfl (by (repeat first | refine under_put _ ?_ (by decide) | refine under_put_lit (k := 4) (by decide) ?_ (by decide)); decide) (by simp (disch := decide) only [put_mod_two]) ?_
  simp (disch := first | decide | ((repeat first | refine under_put _ ?_ (by decide) | refine under_put_lit (k := 4) (by decide) ?_ (by decide)); decide)) only [decode32, decodeEX, decodeFam14, bits_put_below, bits_put_lit, bits_above, beq_self_eq_true, Bool.and_self, ↓reduceIte, fld_put_below, fld_put, show bits 65263 1 3 = 7 from rfl, show bits 65263 4 5 = 14 from rfl, show bits 65263 9 7 = 127 from rfl]
theorem permId (n) : Statement (.permId n) := by
  refine of_word rfl (by (repeat refine under_put _ ?_ (by decide)); decide) (by simp (disch := decide) only [put_mod_two]) ?_
  simp (disch := first | decide | ((repeat refine under_put _ ?_ (by decide)); decide)) only [decode32, decodeEX, decodeFam14, bits_put_below, bits_above, beq_self_eq_true, Bool.and_self, ↓reduceIte, fld_put, show bits 33619695 1 3 = 7 from rfl, show bits 33619695 4 5 = 14 from rfl, show bits 33619695 24 4 = 2 from rfl, show bits 33619695 9 15 = 127 from rfl]
theorem permInv (m n) : Statement (.permInv m n) := by
  refine of_word rfl (by (repeat refine under_put _ ?_ (by decide)); decide) (by simp (disch := decide) only [put_mod_two]) ?_
  simp (disch := first | decide | ((repeat refine under_put _ ?_ (by decide)); decide)) only [decode32, decodeEX, decodeFam14, bits_put_below, beq_self_eq_true, ↓reduceIte, fld_put_below, fld_put, show bits 50396911 1 3 = 7 from rfl, show bits 50396911 4 5 = 14 from rfl, show bits 50396911 24 4 = 3 from rfl, show bits 50396911 9 15 = 127 from rfl]
theorem permCmp (m n k) : Statement (.permCmp m n k) := by
  refine of_word rfl (by (repeat first | refine under_put _ ?_ (by decide) | refine under_put_lit (k := 4) (by decide) ?_ (by decide)); decide) (by simp (disch := decide) only [put_mod_two]) ?_
  simp (disch := first | decide | ((repeat first | refine under_put _ ?_ (by decide) | refine under_put_lit (k := 4) (by decide) ?_ (by decide)); decide)) only [decode32, decodeEX, decodeFam14, bits_put_below, bits_put_lit, bits_above, beq_self_eq_true, Bool.and_self, ↓reduceIte, fld_put_below, fld_put, show bits 65263 1 3 = 7 from rfl, show bits 65263 4 5 = 14 from rfl, show bits 65263 9 7 = 127 from rfl]
theorem permRnd (n a) : Statement (.permRnd n a) := by
  refine of_word rfl (by (repeat first | refine under_put _ ?_ (by decide) | refine under_put_lit (k := 4) (by decide) ?_ (by decide)); decide) (by simp (disch := decide) only [put_mod_two]) ?_
  simp (disch := first | decide | ((repeat first | refine under_put _ ?_ (by decide) | refine under_put_lit (k := 4) (by decide) ?_ (by decide)); decide)) only [decode32, decodeEX, decodeFam14, bits_put_below, bits_put_lit, bits_above, beq_self_eq_true, Bool.and_self, ↓reduceIte, fld_put_below, fld_put, show bits 65263 1 3 = 7 from rfl, show bits 65263 4 5 = 14 from rfl, show bits 65263 9 7 = 127 from rfl]
theorem permPack (n k) : Statement (.permPack n k) := by
  refine of_word rfl (by (repeat first | refine under_put _ ?_ (by decide) | refine under_put_lit (k := 4) (by decide) ?_ (by decide)); decide) (by simp (disch := decide) only [put_mod_two]) ?_
  simp (disch := first | decide | ((repeat first | refine under_put _ ?_ (by decide) | refine under_put_lit (k := 4) (by decide) ?_ (by decide)); decide)) only [decode32, decodeEX, decodeFam14, bits_put_below, bits_put_lit, bits_above, beq_self_eq_true, Bool.and_self, ↓reduceIte, fld_put_below, fld_put, show bits 65263 1 3 = 7 from rfl, show bits 65263 4 5 = 14 from rfl, show bits 65263 9 7 = 127 from rfl]
theorem permApply (n a d) : Statement (.permApply n a d) := by
  refine of_word rfl (by (repeat first | refine under_put _ ?_ (by decide) | refine under_put_lit (k := 4) (by decide) ?_ (by decide)); decide) (by simp (disch := decide) only [put_mod_two]) ?_
  simp (disch := first | decide | ((repeat first | refine under_put _ ?_ (by decide) | refine under_put_lit (k := 4) (by decide) ?_ (by decide)); decide)) only [decode32, decodeEX, decodeFam14, bits_put_below, bits_put_lit, bits_above, beq_self_eq_true, ↓reduceIte, fld_put_below, fld_put, show bits 239 1 3 = 7 from rfl, show bits 239 4 5 = 14 from rfl]
theorem permSt (n a) : Statement (.permSt n a) := by
  refine of_word rfl (by (repeat first | refine under_put _ ?_ (by decide) | refine under_put_lit (k := 4) (by decide) ?_ (by decide)); decide) (by simp (disch := decide) only [put_mod_two]) ?_
  simp (disch := first | decide | ((repeat first | refine under_put _ ?_ (by decide) | refine under_put_lit (k := 4) (by decide) ?_ (by decide)); decide)) only [decode32, decodeEX, decodeFam14, bits_put_below, bits_put_lit, bits_above, beq_self_eq_true, Bool.and_self, ↓reduceIte, fld_put_below, fld_put, show bits 65263 1 3 = 7 from rfl, show bits 65263 4 5 = 14 from rfl, show bits 65263 9 7 = 127 from rfl]
theorem permCyc (n d) : Statement (.permCyc n d) := by
  refine of_word rfl (by (repeat first | refine under_put _ ?_ (by decide) | refine under_put_lit (k := 4) (by decide) ?_ (by decide)); decide) (by simp (disch := decide) only [put_mod_two]) ?_
  simp (disch := first | decide | ((repeat first | refine under_put _ ?_ (by decide) | refine under_put_lit (k := 4) (by decide) ?_ (by decide)); decide)) only [decode32, decodeEX, decodeFam14, bits_put_below, bits_put_lit, bits_above, beq_self_eq_true, Bool.and_self, ↓reduceIte, fld_put_below, fld_put, show bits 239 1 3 = 7 from rfl, show bits 239 4 5 = 14 from rfl]
theorem permAcc (n h) : Statement (.permAcc n h) := by
  refine of_word rfl (by (repeat refine under_put _ ?_ (by decide)); decide) (by simp (disch := decide) only [put_mod_two]) ?_
  simp (disch := first | decide | ((repeat refine under_put _ ?_ (by decide)); decide)) only [decode32, decodeEX, decodeFam15, bits_put_below, bits_above, beq_self_eq_true, Bool.and_self, ↓reduceIte, fld_put_below, fld_put, show bits 65279 1 3 = 7 from rfl, show bits 65279 4 5 = 15 from rfl, show bits 65279 9 15 = 127 from rfl]
theorem atom32 (v a x e) : Statement (.atom32 v a x e) := by
  refine of_word rfl (by (repeat refine under_put _ ?_ (by decide)); decide) (by simp (disch := decide) only [put_mod_two]) ?_
  simp (disch := first | decide | ((repeat refine under_put _ ?_ (by decide)); decide)) only [decode32, decodeEX, decodeFam16, bits_put_below, fld_put_below, fld_put, show bits 271 1 3 = 7 from rfl, show bits 271 4 5 = 16 from rfl]
theorem atom64 (v a x e) : Statement (.atom64 v a x e) := by
  refine of_word rfl (by (repeat refine under_put _ ?_ (by decide)); decide) (by simp (disch := decide) only [put_mod_two]) ?_
  simp (disch := first | decide | ((repeat refine under_put _ ?_ (by decide)); decide)) only [decode32, decodeEX, decodeFam17, bits_put_below, fld_put_below, fld_put, show bits 287 1 3 = 7 from rfl, show bits 287 4 5 = 17 from rfl]
theorem atoms (v a x) : Statement (.atoms v a x) := by
  refine of_word rfl (by (repeat refine under_put _ ?_ (by decide)); decide) (by simp (disch := decide) only [put_mod_two]) ?_
  simp (disch := first | decide | ((repeat refine under_put _ ?_ (by decide)); decide)) only [decode32, decodeEX, decodeFam18, bits_put_below, beq_self_eq_true, ↓reduceIte, fld_put_below, fld_put, show bits 303 1 3 = 7 from rfl, show bits 303 4 5 = 18 from rfl, show bits 303 9 4 = 0 from rfl]
theorem cas (v a w s e) : Statement (.cas v a w s e) := by
  refine of_word rfl (by (repeat refine under_put _ ?_ (by decide)); decide) (by simp (disch := decide) only [put_mod_two]) ?_
  simp (disch := first | decide | ((repeat refine under_put _ ?_ (by decide)); decide)) only [decode32, decodeEX, decodeFam19, bits_put_below, fld_put_below, fld_put, show bits 319 1 3 = 7 from rfl, show bits 319 4 5 = 19 from rfl]
theorem ringInit (a) : Statement (.ringInit a) := by
  refine of_word rfl (by (repeat refine under_put _ ?_ (by decide)); decide) (by simp (disch := decide) only [put_mod_two]) ?_
  simp (disch := first | decide | ((repeat refine under_put _ ?_ (by decide)); decide)) only [decode32, decodeEX, decodeFam20, bits_put_below, bits_above, beq_self_eq_true, ↓reduceIte, fld_put, show bits 335 1 3 = 7 from rfl, show bits 335 4 5 = 20 from rfl]
theorem ringWait (b a) : Statement (.ringWait b a) := by
  refine of_word rfl (by (repeat refine under_put _ ?_ (by decide)); decide) (by simp (disch := decide) only [put_mod_two]) ?_
  simp (disch := first | decide | ((repeat refine under_put _ ?_ (by decide)); decide)) only [decode32, decodeEX, decodeFam20, bits_put_below, fld_put_below, fld_put, show bits 847 1 3 = 7 from rfl, show bits 847 4 5 = 20 from rfl, show bits 847 9 7 = 1 from rfl]
theorem ringRel (b a) : Statement (.ringRel b a) := by
  refine of_word rfl (by (repeat refine under_put _ ?_ (by decide)); decide) (by simp (disch := decide) only [put_mod_two]) ?_
  simp (disch := first | decide | ((repeat refine under_put _ ?_ (by decide)); decide)) only [decode32, decodeEX, decodeFam20, bits_put_below, fld_put_below, fld_put, show bits 1359 1 3 = 7 from rfl, show bits 1359 4 5 = 20 from rfl, show bits 1359 9 7 = 2 from rfl]
theorem ringStat (b a) : Statement (.ringStat b a) := by
  refine of_word rfl (by (repeat refine under_put _ ?_ (by decide)); decide) (by simp (disch := decide) only [put_mod_two]) ?_
  simp (disch := first | decide | ((repeat refine under_put _ ?_ (by decide)); decide)) only [decode32, decodeEX, decodeFam20, bits_put_below, fld_put_below, fld_put, show bits 1871 1 3 = 7 from rfl, show bits 1871 4 5 = 20 from rfl, show bits 1871 9 7 = 3 from rfl]
theorem barInit (b a) : Statement (.barInit b a) := by
  refine of_word rfl (by (repeat refine under_put _ ?_ (by decide)); decide) (by simp (disch := decide) only [put_mod_two]) ?_
  simp (disch := first | decide | ((repeat refine under_put _ ?_ (by decide)); decide)) only [decode32, decodeEX, decodeFam21, bits_put_below, fld_put_below, fld_put, show bits 351 1 3 = 7 from rfl, show bits 351 4 5 = 21 from rfl, show bits 351 9 7 = 0 from rfl]
theorem barArrive (a) : Statement (.barArrive a) := by
  refine of_word rfl (by (repeat refine under_put _ ?_ (by decide)); decide) (by simp (disch := decide) only [put_mod_two]) ?_
  simp (disch := first | decide | ((repeat refine under_put _ ?_ (by decide)); decide)) only [decode32, decodeEX, decodeFam21, bits_put_below, bits_above, beq_self_eq_true, ↓reduceIte, fld_put, show bits 863 1 3 = 7 from rfl, show bits 863 4 5 = 21 from rfl, show bits 863 9 7 = 1 from rfl]
theorem barWait (b a) : Statement (.barWait b a) := by
  refine of_word rfl (by (repeat refine under_put _ ?_ (by decide)); decide) (by simp (disch := decide) only [put_mod_two]) ?_
  simp (disch := first | decide | ((repeat refine under_put _ ?_ (by decide)); decide)) only [decode32, decodeEX, decodeFam21, bits_put_below, fld_put_below, fld_put, show bits 1375 1 3 = 7 from rfl, show bits 1375 4 5 = 21 from rfl, show bits 1375 9 7 = 2 from rfl]
theorem barStat (a) : Statement (.barStat a) := by
  refine of_word rfl (by (repeat refine under_put _ ?_ (by decide)); decide) (by simp (disch := decide) only [put_mod_two]) ?_
  simp (disch := first | decide | ((repeat refine under_put _ ?_ (by decide)); decide)) only [decode32, decodeEX, decodeFam21, bits_put_below, bits_above, beq_self_eq_true, ↓reduceIte, fld_put, show bits 1887 1 3 = 7 from rfl, show bits 1887 4 5 = 21 from rfl, show bits 1887 9 7 = 3 from rfl]
theorem barSync (a) : Statement (.barSync a) := by
  refine of_word rfl (by (repeat refine under_put _ ?_ (by decide)); decide) (by simp (disch := decide) only [put_mod_two]) ?_
  simp (disch := first | decide | ((repeat refine under_put _ ?_ (by decide)); decide)) only [decode32, decodeEX, decodeFam21, bits_put_below, bits_above, beq_self_eq_true, ↓reduceIte, fld_put, show bits 2399 1 3 = 7 from rfl, show bits 2399 4 5 = 21 from rfl, show bits 2399 9 7 = 4 from rfl]
theorem xcopyIn (k n a) : Statement (.xcopyIn k n a) := by
  refine of_word rfl (by (repeat refine under_put _ ?_ (by decide)); decide) (by simp (disch := decide) only [put_mod_two]) ?_
  simp (disch := first | decide | ((repeat refine under_put _ ?_ (by decide)); decide)) only [decode32, decodeEX, decodeFam22, bits_put_below, fld_put_below, fld_put, show bits 367 1 3 = 7 from rfl, show bits 367 4 5 = 22 from rfl, show bits 367 9 7 = 0 from rfl]
theorem xcopyOut (k n a) : Statement (.xcopyOut k n a) := by
  refine of_word rfl (by (repeat refine under_put _ ?_ (by decide)); decide) (by simp (disch := decide) only [put_mod_two]) ?_
  simp (disch := first | decide | ((repeat refine under_put _ ?_ (by decide)); decide)) only [decode32, decodeEX, decodeFam22, bits_put_below, fld_put_below, fld_put, show bits 879 1 3 = 7 from rfl, show bits 879 4 5 = 22 from rfl, show bits 879 9 7 = 1 from rfl]
theorem xcopyCommit (k n a) : Statement (.xcopyCommit k n a) := by
  refine of_word rfl (by (repeat refine under_put _ ?_ (by decide)); decide) (by simp (disch := decide) only [put_mod_two]) ?_
  simp (disch := first | decide | ((repeat refine under_put _ ?_ (by decide)); decide)) only [decode32, decodeEX, decodeFam22, bits_put_below, fld_put_below, fld_put, show bits 1391 1 3 = 7 from rfl, show bits 1391 4 5 = 22 from rfl, show bits 1391 9 7 = 2 from rfl]
theorem xcopyRows (k n a) : Statement (.xcopyRows k n a) := by
  refine of_word rfl (by (repeat refine under_put _ ?_ (by decide)); decide) (by simp (disch := decide) only [put_mod_two]) ?_
  simp (disch := first | decide | ((repeat refine under_put _ ?_ (by decide)); decide)) only [decode32, decodeEX, decodeFam22, bits_put_below, fld_put_below, fld_put, show bits 1903 1 3 = 7 from rfl, show bits 1903 4 5 = 22 from rfl, show bits 1903 9 7 = 3 from rfl]
theorem mqSend (q a) : Statement (.mqSend q a) := by
  refine of_word rfl (by (repeat refine under_put _ ?_ (by decide)); decide) (by simp (disch := decide) only [put_mod_two]) ?_
  simp (disch := first | decide | ((repeat refine under_put _ ?_ (by decide)); decide)) only [decode32, decodeEX, decodeFam23, bits_put_below, bits_above, beq_self_eq_true, Bool.and_self, ↓reduceIte, fld_put_below, fld_put, show bits 65407 1 3 = 7 from rfl, show bits 65407 4 5 = 23 from rfl, show bits 65407 9 7 = 127 from rfl]
theorem mqRecv (q a d) : Statement (.mqRecv q a d) := by
  refine of_word rfl (by (repeat first | refine under_put _ ?_ (by decide) | refine under_put_lit (k := 4) (by decide) ?_ (by decide)); decide) (by simp (disch := decide) only [put_mod_two]) ?_
  simp (disch := first | decide | ((repeat first | refine under_put _ ?_ (by decide) | refine under_put_lit (k := 4) (by decide) ?_ (by decide)); decide)) only [decode32, decodeEX, decodeFam23, bits_put_below, bits_put_lit, bits_above, beq_self_eq_true, ↓reduceIte, fld_put_below, fld_put, show bits 383 1 3 = 7 from rfl, show bits 383 4 5 = 23 from rfl]
theorem mqPop (q a) : Statement (.mqPop q a) := by
  refine of_word rfl (by (repeat first | refine under_put _ ?_ (by decide) | refine under_put_lit (k := 4) (by decide) ?_ (by decide)); decide) (by simp (disch := decide) only [put_mod_two]) ?_
  simp (disch := first | decide | ((repeat first | refine under_put _ ?_ (by decide) | refine under_put_lit (k := 4) (by decide) ?_ (by decide)); decide)) only [decode32, decodeEX, decodeFam23, bits_put_below, bits_put_lit, bits_above, beq_self_eq_true, Bool.and_self, ↓reduceIte, fld_put_below, fld_put, show bits 65407 1 3 = 7 from rfl, show bits 65407 4 5 = 23 from rfl, show bits 65407 9 7 = 127 from rfl]
theorem tagLook (a) : Statement (.tagLook a) := by
  refine of_word rfl (by (repeat refine under_put _ ?_ (by decide)); decide) (by simp (disch := decide) only [put_mod_two]) ?_
  simp (disch := first | decide | ((repeat refine under_put _ ?_ (by decide)); decide)) only [decode32, decodeEX, decodeFam24, bits_put_below, bits_above, beq_self_eq_true, ↓reduceIte, fld_put, show bits 399 1 3 = 7 from rfl, show bits 399 4 5 = 24 from rfl]
theorem tagSet (b a) : Statement (.tagSet b a) := by
  refine of_word rfl (by (repeat refine under_put _ ?_ (by decide)); decide) (by simp (disch := decide) only [put_mod_two]) ?_
  simp (disch := first | decide | ((repeat refine under_put _ ?_ (by decide)); decide)) only [decode32, decodeEX, decodeFam24, bits_put_below, fld_put_below, fld_put, show bits 911 1 3 = 7 from rfl, show bits 911 4 5 = 24 from rfl, show bits 911 9 7 = 1 from rfl]
theorem tagClr (a) : Statement (.tagClr a) := by
  refine of_word rfl (by (repeat refine under_put _ ?_ (by decide)); decide) (by simp (disch := decide) only [put_mod_two]) ?_
  simp (disch := first | decide | ((repeat refine under_put _ ?_ (by decide)); decide)) only [decode32, decodeEX, decodeFam24, bits_put_below, bits_above, beq_self_eq_true, ↓reduceIte, fld_put, show bits 1423 1 3 = 7 from rfl, show bits 1423 4 5 = 24 from rfl, show bits 1423 9 7 = 2 from rfl]
theorem tagInv : Statement (.tagInv) := by
  refine of_word rfl (by decide) (rfl) ?_
  simp (disch := first | decide | ((repeat refine under_put _ ?_ (by decide)); decide)) only [decode32, decodeEX, decodeFam24, beq_self_eq_true, ↓reduceIte, show bits 1935 1 3 = 7 from rfl, show bits 1935 4 5 = 24 from rfl, show bits 1935 9 7 = 3 from rfl, show bits 1935 16 16 = 0 from rfl]
theorem ssetInit (k n a) : Statement (.ssetInit k n a) := by
  refine of_word rfl (by (repeat refine under_put _ ?_ (by decide)); decide) (by simp (disch := decide) only [put_mod_two]) ?_
  simp (disch := first | decide | ((repeat refine under_put _ ?_ (by decide)); decide)) only [decode32, decodeEX, decodeFam25, bits_put_below, fld_put_below, fld_put, show bits 415 1 3 = 7 from rfl, show bits 415 4 5 = 25 from rfl, show bits 415 9 7 = 0 from rfl]
theorem ssetAdd (b a) : Statement (.ssetAdd b a) := by
  refine of_word rfl (by (repeat refine under_put _ ?_ (by decide)); decide) (by simp (disch := decide) only [put_mod_two]) ?_
  simp (disch := first | decide | ((repeat refine under_put _ ?_ (by decide)); decide)) only [decode32, decodeEX, decodeFam25, bits_put_below, fld_put_below, fld_put, show bits 927 1 3 = 7 from rfl, show bits 927 4 5 = 25 from rfl, show bits 927 9 7 = 1 from rfl]
theorem ssetBuild (a) : Statement (.ssetBuild a) := by
  refine of_word rfl (by (repeat refine under_put _ ?_ (by decide)); decide) (by simp (disch := decide) only [put_mod_two]) ?_
  simp (disch := first | decide | ((repeat refine under_put _ ?_ (by decide)); decide)) only [decode32, decodeEX, decodeFam25, bits_put_below, bits_above, beq_self_eq_true, ↓reduceIte, fld_put, show bits 1439 1 3 = 7 from rfl, show bits 1439 4 5 = 25 from rfl, show bits 1439 9 7 = 2 from rfl]
theorem ssetBind (a) : Statement (.ssetBind a) := by
  refine of_word rfl (by (repeat refine under_put _ ?_ (by decide)); decide) (by simp (disch := decide) only [put_mod_two]) ?_
  simp (disch := first | decide | ((repeat refine under_put _ ?_ (by decide)); decide)) only [decode32, decodeEX, decodeFam25, bits_put_below, bits_above, beq_self_eq_true, ↓reduceIte, fld_put, show bits 1951 1 3 = 7 from rfl, show bits 1951 4 5 = 25 from rfl, show bits 1951 9 7 = 3 from rfl]
theorem ssetUnbind (a) : Statement (.ssetUnbind a) := by
  refine of_word rfl (by (repeat refine under_put _ ?_ (by decide)); decide) (by simp (disch := decide) only [put_mod_two]) ?_
  simp (disch := first | decide | ((repeat refine under_put _ ?_ (by decide)); decide)) only [decode32, decodeEX, decodeFam25, bits_put_below, bits_above, beq_self_eq_true, ↓reduceIte, fld_put, show bits 2463 1 3 = 7 from rfl, show bits 2463 4 5 = 25 from rfl, show bits 2463 9 7 = 4 from rfl]
theorem ssetFree (a) : Statement (.ssetFree a) := by
  refine of_word rfl (by (repeat refine under_put _ ?_ (by decide)); decide) (by simp (disch := decide) only [put_mod_two]) ?_
  simp (disch := first | decide | ((repeat refine under_put _ ?_ (by decide)); decide)) only [decode32, decodeEX, decodeFam25, bits_put_below, bits_above, beq_self_eq_true, ↓reduceIte, fld_put, show bits 2975 1 3 = 7 from rfl, show bits 2975 4 5 = 25 from rfl, show bits 2975 9 7 = 5 from rfl]
theorem ssetQuery (n a) : Statement (.ssetQuery n a) := by
  refine of_word rfl (by (repeat refine under_put _ ?_ (by decide)); decide) (by simp (disch := decide) only [put_mod_two]) ?_
  simp (disch := first | decide | ((repeat refine under_put _ ?_ (by decide)); decide)) only [decode32, decodeEX, decodeFam25, bits_put_below, bits_above, beq_self_eq_true, ↓reduceIte, fld_put_below, fld_put, show bits 3487 1 3 = 7 from rfl, show bits 3487 4 5 = 25 from rfl, show bits 3487 9 7 = 6 from rfl]
theorem rastEmit (k n a) : Statement (.rastEmit k n a) := by
  refine of_word rfl (by (repeat refine under_put _ ?_ (by decide)); decide) (by simp (disch := decide) only [put_mod_two]) ?_
  simp (disch := first | decide | ((repeat refine under_put _ ?_ (by decide)); decide)) only [decode32, decodeEX, decodeFam26, bits_put_below, fld_put_below, fld_put, show bits 431 1 3 = 7 from rfl, show bits 431 4 5 = 26 from rfl, show bits 431 9 7 = 0 from rfl]
theorem rastDraw (k n) : Statement (.rastDraw k n) := by
  refine of_word rfl (by (repeat refine under_put _ ?_ (by decide)); decide) (by simp (disch := decide) only [put_mod_two]) ?_
  simp (disch := first | decide | ((repeat refine under_put _ ?_ (by decide)); decide)) only [decode32, decodeEX, decodeFam26, bits_put_below, beq_self_eq_true, ↓reduceIte, fld_put_below, fld_put, show bits 943 1 3 = 7 from rfl, show bits 943 4 5 = 26 from rfl, show bits 943 9 7 = 1 from rfl, show bits 943 16 8 = 0 from rfl]
theorem rastSin (n) : Statement (.rastSin n) := by
  refine of_word rfl (by (repeat refine under_put _ ?_ (by decide)); decide) (by simp (disch := decide) only [put_mod_two]) ?_
  simp (disch := first | decide | ((repeat refine under_put _ ?_ (by decide)); decide)) only [decode32, decodeEX, decodeFam26, bits_put_below, beq_self_eq_true, ↓reduceIte, fld_put, show bits 1455 1 3 = 7 from rfl, show bits 1455 4 5 = 26 from rfl, show bits 1455 9 7 = 2 from rfl, show bits 1455 16 8 = 0 from rfl]
theorem rastSout (b a) : Statement (.rastSout b a) := by
  refine of_word rfl (by (repeat refine under_put _ ?_ (by decide)); decide) (by simp (disch := decide) only [put_mod_two]) ?_
  simp (disch := first | decide | ((repeat refine under_put _ ?_ (by decide)); decide)) only [decode32, decodeEX, decodeFam26, bits_put_below, fld_put_below, fld_put, show bits 1967 1 3 = 7 from rfl, show bits 1967 4 5 = 26 from rfl, show bits 1967 9 7 = 3 from rfl]
theorem rastSkip : Statement (.rastSkip) := by
  refine of_word rfl (by decide) (rfl) ?_
  simp (disch := first | decide | ((repeat refine under_put _ ?_ (by decide)); decide)) only [decode32, decodeEX, decodeFam26, beq_self_eq_true, ↓reduceIte, show bits 2479 1 3 = 7 from rfl, show bits 2479 4 5 = 26 from rfl, show bits 2479 9 7 = 4 from rfl, show bits 2479 16 16 = 0 from rfl]
theorem treemask (h a d) : Statement (.treemask h a d) := by
  refine of_word rfl (by (repeat refine under_put _ ?_ (by decide)); decide) (by simp (disch := decide) only [put_mod_two]) ?_
  simp (disch := first | decide | ((repeat refine under_put _ ?_ (by decide)); decide)) only [decode32, decodeEX, decodeFam27, bits_put_below, bits_above, beq_self_eq_true, ↓reduceIte, fld_put_below, fld_put, show bits 447 1 3 = 7 from rfl, show bits 447 4 5 = 27 from rfl]
theorem privTeamgo (k n a) : Statement (.privTeamgo k n a) := by
  refine of_word rfl (by (repeat refine under_put _ ?_ (by decide)); decide) (by simp (disch := decide) only [put_mod_two]) ?_
  simp (disch := first | decide | ((repeat refine under_put _ ?_ (by decide)); decide)) only [decode32, decodeEX, decodeFam28, bits_put_below, fld_put_below, fld_put, show bits 463 1 3 = 7 from rfl, show bits 463 4 5 = 28 from rfl, show bits 463 9 7 = 0 from rfl]
theorem privTeamdone : Statement (.privTeamdone) := by
  refine of_word rfl (by decide) (rfl) ?_
  simp (disch := first | decide | ((repeat refine under_put _ ?_ (by decide)); decide)) only [decode32, decodeEX, decodeFam28, beq_self_eq_true, ↓reduceIte, show bits 975 1 3 = 7 from rfl, show bits 975 4 5 = 28 from rfl, show bits 975 9 7 = 1 from rfl, show bits 975 16 16 = 0 from rfl]
theorem privAgsleep (a) : Statement (.privAgsleep a) := by
  refine of_word rfl (by (repeat refine under_put _ ?_ (by decide)); decide) (by simp (disch := decide) only [put_mod_two]) ?_
  simp (disch := first | decide | ((repeat refine under_put _ ?_ (by decide)); decide)) only [decode32, decodeEX, decodeFam28, bits_put_below, bits_above, beq_self_eq_true, ↓reduceIte, fld_put, show bits 1487 1 3 = 7 from rfl, show bits 1487 4 5 = 28 from rfl, show bits 1487 9 7 = 2 from rfl]
theorem privWkpop (k) : Statement (.privWkpop k) := by
  refine of_word rfl (by (repeat refine under_put _ ?_ (by decide)); decide) (by simp (disch := decide) only [put_mod_two]) ?_
  simp (disch := first | decide | ((repeat refine under_put _ ?_ (by decide)); decide)) only [decode32, decodeEX, decodeFam28, bits_put_below, bits_above, beq_self_eq_true, ↓reduceIte, fld_put, show bits 1999 1 3 = 7 from rfl, show bits 1999 4 5 = 28 from rfl, show bits 1999 9 7 = 3 from rfl]
theorem dbgTracew (b a) : Statement (.dbgTracew b a) := by
  refine of_word rfl (by (repeat refine under_put _ ?_ (by decide)); decide) (by simp (disch := decide) only [put_mod_two]) ?_
  simp (disch := first | decide | ((repeat refine under_put _ ?_ (by decide)); decide)) only [decode32, decodeEX, decodeFam29, bits_put_below, fld_put_below, fld_put, show bits 479 1 3 = 7 from rfl, show bits 479 4 5 = 29 from rfl, show bits 479 9 7 = 0 from rfl]
theorem dbgPcsmp (a) : Statement (.dbgPcsmp a) := by
  refine of_word rfl (by (repeat refine under_put _ ?_ (by decide)); decide) (by simp (disch := decide) only [put_mod_two]) ?_
  simp (disch := first | decide | ((repeat refine under_put _ ?_ (by decide)); decide)) only [decode32, decodeEX, decodeFam29, bits_put_below, bits_above, beq_self_eq_true, ↓reduceIte, fld_put, show bits 991 1 3 = 7 from rfl, show bits 991 4 5 = 29 from rfl, show bits 991 9 7 = 1 from rfl]
theorem ordInit (b a) : Statement (.ordInit b a) := by
  refine of_word rfl (by (repeat refine under_put _ ?_ (by decide)); decide) (by simp (disch := decide) only [put_mod_two]) ?_
  simp (disch := first | decide | ((repeat refine under_put _ ?_ (by decide)); decide)) only [decode32, decodeEX, decodeFam30, bits_put_below, fld_put_below, fld_put, show bits 495 1 3 = 7 from rfl, show bits 495 4 5 = 30 from rfl, show bits 495 9 7 = 0 from rfl]
theorem ordEnter (b a) : Statement (.ordEnter b a) := by
  refine of_word rfl (by (repeat refine under_put _ ?_ (by decide)); decide) (by simp (disch := decide) only [put_mod_two]) ?_
  simp (disch := first | decide | ((repeat refine under_put _ ?_ (by decide)); decide)) only [decode32, decodeEX, decodeFam30, bits_put_below, fld_put_below, fld_put, show bits 1007 1 3 = 7 from rfl, show bits 1007 4 5 = 30 from rfl, show bits 1007 9 7 = 1 from rfl]
theorem ordTry (b a) : Statement (.ordTry b a) := by
  refine of_word rfl (by (repeat refine under_put _ ?_ (by decide)); decide) (by simp (disch := decide) only [put_mod_two]) ?_
  simp (disch := first | decide | ((repeat refine under_put _ ?_ (by decide)); decide)) only [decode32, decodeEX, decodeFam30, bits_put_below, fld_put_below, fld_put, show bits 1519 1 3 = 7 from rfl, show bits 1519 4 5 = 30 from rfl, show bits 1519 9 7 = 2 from rfl]
theorem ordWait (b a) : Statement (.ordWait b a) := by
  refine of_word rfl (by (repeat refine under_put _ ?_ (by decide)); decide) (by simp (disch := decide) only [put_mod_two]) ?_
  simp (disch := first | decide | ((repeat refine under_put _ ?_ (by decide)); decide)) only [decode32, decodeEX, decodeFam30, bits_put_below, fld_put_below, fld_put, show bits 2031 1 3 = 7 from rfl, show bits 2031 4 5 = 30 from rfl, show bits 2031 9 7 = 3 from rfl]
theorem ordLeave (b a) : Statement (.ordLeave b a) := by
  refine of_word rfl (by (repeat refine under_put _ ?_ (by decide)); decide) (by simp (disch := decide) only [put_mod_two]) ?_
  simp (disch := first | decide | ((repeat refine under_put _ ?_ (by decide)); decide)) only [decode32, decodeEX, decodeFam30, bits_put_below, fld_put_below, fld_put, show bits 2543 1 3 = 7 from rfl, show bits 2543 4 5 = 30 from rfl, show bits 2543 9 7 = 4 from rfl]
theorem ordLeavev (b a) : Statement (.ordLeavev b a) := by
  refine of_word rfl (by (repeat refine under_put _ ?_ (by decide)); decide) (by simp (disch := decide) only [put_mod_two]) ?_
  simp (disch := first | decide | ((repeat refine under_put _ ?_ (by decide)); decide)) only [decode32, decodeEX, decodeFam30, bits_put_below, fld_put_below, fld_put, show bits 3055 1 3 = 7 from rfl, show bits 3055 4 5 = 30 from rfl, show bits 3055 9 7 = 5 from rfl]
theorem ordQuery (a) : Statement (.ordQuery a) := by
  refine of_word rfl (by (repeat refine under_put _ ?_ (by decide)); decide) (by simp (disch := decide) only [put_mod_two]) ?_
  simp (disch := first | decide | ((repeat refine under_put _ ?_ (by decide)); decide)) only [decode32, decodeEX, decodeFam30, bits_put_below, bits_above, beq_self_eq_true, ↓reduceIte, fld_put, show bits 3567 1 3 = 7 from rfl, show bits 3567 4 5 = 30 from rfl, show bits 3567 9 7 = 6 from rfl]
theorem identRead : Statement (.identRead) := nofun
theorem attest : Statement (.attest) := nofun
theorem slotWrite : Statement (.slotWrite) := nofun
theorem authRecovery : Statement (.authRecovery) := nofun
theorem devReset : Statement (.devReset) := nofun
theorem powerSet : Statement (.powerSet) := nofun
theorem powerCap : Statement (.powerCap) := nofun
theorem tickstop : Statement (.tickstop) := nofun
theorem stopStatus : Statement (.stopStatus) := nofun
theorem ctxDefine : Statement (.ctxDefine) := nofun
theorem ctxAdmit : Statement (.ctxAdmit) := nofun
theorem ctxSave : Statement (.ctxSave) := nofun
theorem ctxRestore : Statement (.ctxRestore) := nofun
theorem ctxRelease : Statement (.ctxRelease) := nofun
theorem ctxPrio : Statement (.ctxPrio) := nofun
theorem ctxQuery : Statement (.ctxQuery) := nofun
theorem ctxFail : Statement (.ctxFail) := nofun
theorem queueMap : Statement (.queueMap) := nofun
theorem queueReset : Statement (.queueReset) := nofun
theorem queueUnmap : Statement (.queueUnmap) := nofun
theorem launchQuery : Statement (.launchQuery) := nofun
theorem tlbInval : Statement (.tlbInval) := nofun
theorem pageResume : Statement (.pageResume) := nofun
theorem pageFail : Statement (.pageFail) := nofun
theorem linkEnable : Statement (.linkEnable) := nofun
theorem linkFence : Statement (.linkFence) := nofun
theorem linkUnfence : Statement (.linkUnfence) := nofun
theorem linkSetup : Statement (.linkSetup) := nofun
theorem trapSetup : Statement (.trapSetup) := nofun
theorem traceSetup : Statement (.traceSetup) := nofun
theorem pcbpSet : Statement (.pcbpSet) := nofun
theorem pcsampleSetup : Statement (.pcsampleSetup) := nofun
theorem dbgList : Statement (.dbgList) := nofun
theorem dbgRead : Statement (.dbgRead) := nofun
theorem dbgWrite : Statement (.dbgWrite) := nofun
theorem dbgResume : Statement (.dbgResume) := nofun
theorem mbCmdUnlisted (x0) : Statement (.mbCmdUnlisted x0) := nofun
theorem mbStatusWrite (x0) : Statement (.mbStatusWrite x0) := nofun
theorem tflagsWrite (x0) : Statement (.tflagsWrite x0) := nofun
theorem bar2Write (x0 x1) : Statement (.bar2Write x0 x1) := nofun
theorem registerWrite (x0 x1) : Statement (.registerWrite x0 x1) := nofun
theorem queuePoll (x0) : Statement (.queuePoll x0) := nofun
theorem launch (x0) : Statement (.launch x0) := nofun
theorem draw (x0) : Statement (.draw x0) := nofun
theorem signal (x0) : Statement (.signal x0) := nofun
theorem waitv (x0) : Statement (.waitv x0) := nofun
theorem codesync (x0) : Statement (.codesync x0) := nofun
theorem prio (x0) : Statement (.prio x0) := nofun
theorem mark (x0) : Statement (.mark x0) := nofun
theorem pad (x0) : Statement (.pad x0) := nofun
theorem packetComplete (x0 x1) : Statement (.packetComplete x0 x1) := nofun
theorem waitvPoll (x0) : Statement (.waitvPoll x0) := nofun
theorem waitvTimeout (x0) : Statement (.waitvTimeout x0) := nofun
theorem launchClaim (x0) : Statement (.launchClaim x0) := nofun
theorem teamComplete (x0) : Statement (.teamComplete x0) := nofun
theorem groupRetire (x0) : Statement (.groupRetire x0) := nofun
theorem groupKill (x0) : Statement (.groupKill x0) := nofun
theorem loadFill (x0 x1) : Statement (.loadFill x0 x1) := nofun
theorem pathOpComplete (x0 x1) : Statement (.pathOpComplete x0 x1) := nofun
theorem promotion (x0 x1) : Statement (.promotion x0 x1) := nofun
theorem sleepWake (x0 x1) : Statement (.sleepWake x0 x1) := nofun
theorem accStarve (x0 x1) : Statement (.accStarve x0 x1) := nofun
theorem ordTimeout (x0 x1) : Statement (.ordTimeout x0 x1) := nofun
theorem migratingRetry (x0 x1) : Statement (.migratingRetry x0 x1) := nofun
theorem rollback (x0 x1 x2) : Statement (.rollback x0 x1 x2) := nofun
theorem trapEntry (x0) : Statement (.trapEntry x0) := nofun
theorem icacheLineFill (x0 x1 x2) : Statement (.icacheLineFill x0 x1 x2) := nofun
theorem solveDone (x0) : Statement (.solveDone x0) := nofun
theorem bankZeroDone (x0 x1 x2) : Statement (.bankZeroDone x0 x1 x2) := nofun
theorem bankScrubDone (x0 x1 x2 x3) : Statement (.bankScrubDone x0 x1 x2 x3) := nofun
theorem xcopyStart (x0 x1) : Statement (.xcopyStart x0 x1) := nofun
theorem sluiceChunk (x0 x1) : Statement (.sluiceChunk x0 x1) := nofun
theorem xcopyEnd (x0 x1) : Statement (.xcopyEnd x0 x1) := nofun
theorem mqDeliver (x0 x1) : Statement (.mqDeliver x0 x1) := nofun
theorem ssetBuildEnd (x0 x1) : Statement (.ssetBuildEnd x0 x1) := nofun
theorem rasterStageJob (x0 x1) : Statement (.rasterStageJob x0 x1) := nofun
theorem unitPublish (x0 x1) : Statement (.unitPublish x0 x1) := nofun
theorem drawRelease (x0) : Statement (.drawRelease x0) := nofun
theorem keyAbandon (x0 x1) : Statement (.keyAbandon x0 x1) := nofun
theorem groupPreempt (x0) : Statement (.groupPreempt x0) := nofun
theorem coreRestore (x0 x1) : Statement (.coreRestore x0 x1) := nofun
theorem ctxSaveDone (x0) : Statement (.ctxSaveDone x0) := nofun
theorem ctxRestoreDone (x0) : Statement (.ctxRestoreDone x0) := nofun
theorem ctxReleaseDone (x0) : Statement (.ctxReleaseDone x0) := nofun
theorem queueResetDone (x0) : Statement (.queueResetDone x0) := nofun
theorem tlbInvalDone : Statement (.tlbInvalDone) := nofun
theorem prioUpdateApply (x0 x1) : Statement (.prioUpdateApply x0 x1) := nofun
theorem remoteOpArrive (x0 x1 x2 x3 x4) : Statement (.remoteOpArrive x0 x1 x2 x3 x4) := nofun
theorem generationNotice (x0 x1 x2) : Statement (.generationNotice x0 x1 x2) := nofun
theorem linkTrainingStart (x0) : Statement (.linkTrainingStart x0) := nofun
theorem linkTrained (x0 x1 x2) : Statement (.linkTrained x0 x1 x2) := nofun
theorem linkTrainingTimeout (x0) : Statement (.linkTrainingTimeout x0) := nofun
theorem linkLaneLost (x0 x1) : Statement (.linkLaneLost x0 x1) := nofun
theorem linkDown (x0) : Statement (.linkDown x0) := nofun
theorem flitCrcError (x0) : Statement (.flitCrcError x0) := nofun
theorem cxlMemRead (x0 x1) : Statement (.cxlMemRead x0 x1) := nofun
theorem cxlMemWrite (x0 x1) : Statement (.cxlMemWrite x0 x1) := nofun
theorem cxlSnoop (x0) : Statement (.cxlSnoop x0) := nofun
theorem resetRelease : Statement (.resetRelease) := nofun
theorem powerLoss : Statement (.powerLoss) := nofun
theorem telemetryUpdate (x0 x1) : Statement (.telemetryUpdate x0 x1) := nofun
theorem thermalFailsafe : Statement (.thermalFailsafe) := nofun
theorem tickStop : Statement (.tickStop) := nofun
theorem pcSample (x0 x1) : Statement (.pcSample x0 x1) := nofun
theorem pcComparatorMatch (x0) : Statement (.pcComparatorMatch x0) := nofun
theorem agsleepWake (x0) : Statement (.agsleepWake x0) := nofun
theorem reservedEncoding (x0) : Statement (.reservedEncoding x0) := nofun
theorem scanChainShift (x0) : Statement (.scanChainShift x0) := nofun
theorem directedCommandAck (x0) : Statement (.directedCommandAck x0) := nofun
theorem generationNoticeAck (x0 x1 x2) : Statement (.generationNoticeAck x0 x1 x2) := nofun

end Sys2Proof.Laws.Coding
end

