-- ==== Sys2Proof/Safety.lean ====
section
/-! DEFINITION. The terms that claims use: safe states and steps, and the results and frames of the forms. A frame is an
equation: the state after is the state before but for the fields it names. -/
namespace Sys2Proof.Machine
open Sys2Proof

/-! ## Safe states -/

/-- Every storage of the machine is in the canonical form: memory, the recovery window, every scratchpad, the flash. -/
def State.Canonical (s : State) : Prop :=
  s.dev.mem.wf = true ∧ s.dev.window.wf = true ∧ s.core.spad.wf = true ∧ (∀ k ∈ s.cores, k.spad.wf = true) ∧ s.dev.flash.wf = true

/-- A step of the machine that goes on. -/
def Steps (s t : State) : Prop := step s = .next t

/-- A run of steps that all go on. -/
inductive Reaches (s : State) : State → Prop where
  | refl : Reaches s s
  | tail {t u : State} (h : Reaches s t) (k : Steps t u) : Reaches s u

/-- A state is safe when its storage is canonical and no step from it stops the machine with a fault. -/
def State.Safe (s : State) : Prop := s.Canonical ∧ ∀ f, step s ≠ .fault f

/-! ## Vector forms (R275, R276) -/

/-- The operands of a vector form may be named (R110, R111) and are pending in no active lane (R114). -/
structure State.Ready (s : State) (d : BitVec 7) (srcs : List (BitVec 8)) : Prop where
  dest : s.dBad d = false
  sources : ∀ c ∈ srcs, s.srcBad c = false
  settled : ∀ c ∈ srcs, s.pendingIn s.activeLanes c = false
  destSettled : s.pendingD s.activeLanes d = false

/-- Lane i of the path lane set is active and so receives the form's result (R275). -/
def State.computes (s : State) (i : Nat) : Bool := s.inL i && s.active i

/-- What a per-lane form of len bytes with destination D, results r and conditions f does (R275): the PC moves on, GS gains f, an
active lane's vD receives its result, each lane of L pushes its result or 0 unless D[6] is 1, and nothing else changes. -/
structure VecResult (len : Nat) (d : BitVec 7) (r : Nat → Word) (f : Flags) (s t : State) : Prop where
  frame : t = { s with
    ent := s.ent.finish (s.ent.pc + BitVec.ofNat 32 len)
    grp := { s.grp with lanes := t.grp.lanes, gs := s.grp.gs ||| f.setWidth 32 } }
  named : ∀ i < s.grp.width, ∀ k, (t.grp.lane i).reg k = if s.computes i ∧ k = d.toNat % 64 ∧ k ≠ 0x3F then r i else (s.grp.lane i).reg k
  queue : ∀ i < s.grp.width, (t.grp.lane i).q =
    if s.inL i ∧ d.getLsbD 6 = false then { val := if s.active i then r i else 0 } :: (s.grp.lane i).q.take 15 else (s.grp.lane i).q
  preds : ∀ i < s.grp.width, (t.grp.lane i).p = (s.grp.lane i).p
  uses : ∀ i < s.grp.width, (t.grp.lane i).use = (s.grp.lane i).use

/-- What a compare or PLOP with predicate p does (R285): bit i of p becomes the test's result in each active lane i; nothing is
written or pushed. -/
structure PredResult (p : BitVec 2) (r : Nat → Bool) (f : Flags) (s t : State) : Prop where
  frame : t = { s with
    ent := s.ent.finish (s.ent.pc + 4)
    grp := { s.grp with lanes := t.grp.lanes, gs := s.grp.gs ||| f.setWidth 32 } }
  preds : ∀ i < s.grp.width, ∀ k < 4, (t.grp.lane i).p.getLsbD k = if s.computes i ∧ k = p.toNat then r i else (s.grp.lane i).p.getLsbD k
  lanes : ∀ i < s.grp.width, (t.grp.lane i).v = (s.grp.lane i).v ∧ (t.grp.lane i).q = (s.grp.lane i).q ∧ (t.grp.lane i).use = (s.grp.lane i).use

/-- What a form with a trap enabled for its conditions does (R28, R276): it completes in every lane as r says, then traps with the
first of DIV_ZERO, INT_INVALID and FP_EXCEPT, naming the lanes and the enabled conditions raised. -/
def TrapsAfter (len : Nat) (f : Nat → Flags) (s : State) (result : State → Prop) (t : State) : Prop :=
  ∃ u, result u ∧ t = u.takeTrap {
    code := trapOfFlags (orFlags f s.activeLanes &&& gcEnable s.grp.gc), tpc := s.ent.pc + BitVec.ofNat 32 len, first := s.ent.pc
    data := (orFlags f s.activeLanes &&& gcEnable s.grp.gc).setWidth 32
    lanes := laneMask (fun i => s.activeLanes.contains i && decide (f i &&& gcEnable s.grp.gc ≠ 0)) 64 }

/-- What a per-lane form with results r does: it completes, and it traps after where a condition it raised is enabled (R275, R276). -/
def VecDone (len : Nat) (d : BitVec 7) (r : Nat → Word × Flags) (s t : State) : Prop :=
  if orFlags (fun i => (r i).2) s.activeLanes &&& gcEnable s.grp.gc = 0
  then VecResult len d (fun i => (r i).1) (orFlags (fun i => (r i).2) s.activeLanes) s t
  else TrapsAfter len (fun i => (r i).2) s (VecResult len d (fun i => (r i).1) (orFlags (fun i => (r i).2) s.activeLanes) s) t

/-- The same of a compare. -/
def PredDone (p : BitVec 2) (r : Nat → Bool × Flags) (s t : State) : Prop :=
  if orFlags (fun i => (r i).2) s.activeLanes &&& gcEnable s.grp.gc = 0
  then PredResult p (fun i => (r i).1) (orFlags (fun i => (r i).2) s.activeLanes) s t
  else TrapsAfter 4 (fun i => (r i).2) s (PredResult p (fun i => (r i).1) (orFlags (fun i => (r i).2) s.activeLanes) s) t

/-! ## Conversions (R28, R33, R34, R36) -/

/-- n × 2^q is m × 2^e rounded to a multiple of 2^q in a mode (R28, R36); rne takes the even n at a tie. -/
def Rounds (mode : RMode) (neg : Bool) (m : Nat) (e q : Int) (n : Nat) : Prop :=
  if q ≤ e then n = m * 2 ^ (e - q).toNat
  else
    let unit := 2 ^ (q - e).toNat
    let rest := m % unit
    let up : Prop := match mode with
      | .rne => unit < 2 * rest ∨ (unit = 2 * rest ∧ m / unit % 2 = 1)
      | .rz => False
      | .ru => rest ≠ 0 ∧ neg = false
      | .rd => rest ≠ 0 ∧ neg = true
      | .sr r => rest ≠ 0 ∧ r * unit < rest * 2 ^ 32
    (up → n = m / unit + 1) ∧ (¬ up → n = m / unit)

/-- Whether m × 2^e is no multiple of 2^q. -/
def Inexact (m : Nat) (e q : Int) : Prop := e < q ∧ m % 2 ^ (q - e).toNat ≠ 0

/-- Whether a value with leading exponent top is tiny after rounding to mb + 1 bits (R28). -/
def Tiny (mode : RMode) (neg : Bool) (m : Nat) (e top emin : Int) (mb : Nat) : Prop :=
  top < emin ∧ ¬ (emin ≤ top + 1 ∧ Rounds mode neg m e (top - mb) (2 ^ (mb + 1)))

/-- The magnitude that a result too large takes: infinity, or the largest finite value (R28, R33). -/
def OverflowsToInf (mode : RMode) (neg : Bool) : Prop :=
  match mode with
  | .rz => False
  | .ru => neg = false
  | .rd => neg = true
  | _ => True

/-- c and fl are the code and the conditions of a value converted into an IEEE format (R26, R28, R34). -/
def Fmt.Converts (f : Fmt) (mode : RMode) (ftz : Bool) (x : Num) (c : Nat) (fl : Flags) : Prop :=
  match x with
  | .nan signaling => c = f.qnan ∧ fl = if signaling then flagNV else 0
  | .inf neg => c = f.inf neg ∧ fl = 0
  | .fin neg m e =>
    let top : Int := e + Nat.log2 m
    let emin : Int := 1 - (f.bias : Int)
    let q : Int := max (top - f.mb) (emin - f.mb)
    (m = 0 → c = f.zero neg ∧ fl = 0) ∧
    (m ≠ 0 → ∀ n, Rounds mode neg m e q n →
      let big : Prop := 2 ^ f.mb ≤ n ∧ ((f.bias : Int) < q + f.mb ∨ (n = 2 ^ (f.mb + 1) ∧ (f.bias : Int) < q + 1 + f.mb))
      (big → fl = flagOF ||| flagNX ∧ (OverflowsToInf mode neg → c = f.inf neg) ∧ (¬ OverflowsToInf mode neg → c = f.maxFin neg)) ∧
      (¬ big → 2 ^ f.mb ≤ n → c = (q + f.mb + f.bias).toNat * 2 ^ f.mb + (n - 2 ^ f.mb) + f.zero neg ∧
        (¬ Inexact m e q → fl = 0) ∧ (Inexact m e q → (Tiny mode neg m e top emin f.mb → fl = flagNX ||| flagUF) ∧ (¬ Tiny mode neg m e top emin f.mb → fl = flagNX))) ∧
      (n < 2 ^ f.mb → n ≠ 0 → ftz = true → c = f.zero neg ∧ fl = flagUF ||| flagNX) ∧
      (n < 2 ^ f.mb → (n = 0 ∨ ftz = false) → c = n + f.zero neg ∧ (¬ Inexact m e q → fl = 0) ∧ (Inexact m e q → fl = flagNX ||| flagUF)))

/-! ## Arithmetic (R25, R27, R280, R281, R284) -/

/-- (−1)^neg × m. -/
def signedNat (neg : Bool) (m : Nat) : Int := if neg then -(m : Int) else m

def Num.Infinite (a : Num) : Prop := ∃ s, a = .inf s
def Num.Zero (a : Num) : Prop := ∃ s e, a = .fin s 0 e

/-- c and fl are the code and the conditions of a positive magnitude and a sign, rounded once: of n × 2^e where `exact`, else of a value between n × 2^e and
(n + 1) × 2^e. The unit 2^e is far below the last place, so every value between rounds as the one halfway does. -/
def Fmt.RoundsNear (f : Fmt) (mode : RMode) (ftz neg : Bool) (n : Nat) (e : Int) (exact : Prop) (c : Nat) (fl : Flags) : Prop :=
  (exact → f.Converts mode ftz (.fin neg n e) c fl) ∧ (¬ exact → f.Converts mode ftz (.fin neg (2 * n + 1) (e - 1)) c fl)

/-- c and fl are those of x × y + w, rounded once (R27, R280, R284): an exact zero is +0, but −0 in RD or where both terms are −0. -/
def Fmt.Fused (f : Fmt) (mode : RMode) (ftz : Bool) (x y w : Num) (c : Nat) (fl : Flags) : Prop :=
  let invalid : Prop := (x.Infinite ∧ y.Zero) ∨ (x.Zero ∧ y.Infinite)
  let p : Bool := x.isNeg != y.isNeg
  let infinite : Prop := x.Infinite ∨ y.Infinite
  (invalid → c = f.qnan ∧ fl = flagNV) ∧
  (¬ invalid → (x.isNan || y.isNan || w.isNan) = true → c = f.qnan ∧ fl = snan x ||| snan y ||| snan w) ∧
  (¬ invalid → (x.isNan || y.isNan || w.isNan) = false →
    (infinite → (w = .inf (!p) → c = f.qnan ∧ fl = flagNV) ∧ (w ≠ .inf (!p) → c = f.inf p ∧ fl = 0)) ∧
    (¬ infinite → ∀ u, w = .inf u → c = f.inf u ∧ fl = 0) ∧
    ∀ s m₁ e₁ t m₂ e₂ u m₃ e₃, x = .fin s m₁ e₁ → y = .fin t m₂ e₂ → w = .fin u m₃ e₃ →
      let e : Int := min (e₁ + e₂) e₃
      let z : Int := signedNat p (m₁ * m₂) * 2 ^ (e₁ + e₂ - e).toNat + signedNat u m₃ * 2 ^ (e₃ - e).toNat
      f.Converts mode ftz (.fin (if z = 0 then (if m₁ * m₂ = 0 ∧ m₃ = 0 ∧ p = u then p else decide (mode = .rd)) else decide (z < 0)) z.natAbs e) c fl)

/-- c and fl are those of x × y (R27, R280). -/
def Fmt.Product (f : Fmt) (mode : RMode) (ftz : Bool) (x y : Num) (c : Nat) (fl : Flags) : Prop :=
  let invalid : Prop := (x.Infinite ∧ y.Zero) ∨ (x.Zero ∧ y.Infinite)
  (invalid → c = f.qnan ∧ fl = flagNV) ∧
  ((x.isNan || y.isNan) = true → c = f.qnan ∧ fl = snan x ||| snan y) ∧
  (¬ invalid → (x.isNan || y.isNan) = false → (x.Infinite ∨ y.Infinite) → c = f.inf (x.isNeg != y.isNeg) ∧ fl = 0) ∧
  ∀ s m₁ e₁ t m₂ e₂, x = .fin s m₁ e₁ → y = .fin t m₂ e₂ → f.Converts mode ftz (.fin (s != t) (m₁ * m₂) (e₁ + e₂)) c fl

/-- c and fl are those of x / y (R27, R280): of finite significands, the quotient lies between two neighbouring multiples of 2^(e₁ − e₂ − 80). -/
def Fmt.Quotient (f : Fmt) (mode : RMode) (ftz : Bool) (x y : Num) (c : Nat) (fl : Flags) : Prop :=
  let p : Bool := x.isNeg != y.isNeg
  ((x.isNan || y.isNan) = true → c = f.qnan ∧ fl = snan x ||| snan y) ∧
  ((x.Infinite ∧ y.Infinite ∨ x.Zero ∧ y.Zero) → c = f.qnan ∧ fl = flagNV) ∧
  ∀ s m₁ e₁ t m₂ e₂,
    (x = .inf s → y = .fin t m₂ e₂ → c = f.inf p ∧ fl = 0) ∧
    (x = .fin s m₁ e₁ → y = .inf t → c = f.zero p ∧ fl = 0) ∧
    (x = .fin s m₁ e₁ → y = .fin t m₂ e₂ → m₁ ≠ 0 → m₂ = 0 → c = f.inf p ∧ fl = flagDV) ∧
    (x = .fin s m₁ e₁ → y = .fin t m₂ e₂ → m₂ ≠ 0 → ∀ n, n * m₂ ≤ m₁ * 2 ^ 80 → m₁ * 2 ^ 80 < (n + 1) * m₂ →
      f.RoundsNear mode ftz p n (e₁ - e₂ - 80) (n * m₂ = m₁ * 2 ^ 80) c fl)

/-- c and fl are those of √x (R27, R281): of a finite x > 0, m₀ × 2^(2k) with a significand of an even exponent, the root lies between two neighbouring
multiples of 2^(k − 40). -/
def Fmt.Root (f : Fmt) (mode : RMode) (ftz : Bool) (x : Num) (c : Nat) (fl : Flags) : Prop :=
  (x.isNan = true → c = f.qnan ∧ fl = snan x) ∧
  (x = .inf false → c = f.inf false ∧ fl = 0) ∧
  (x.isNeg = true → ¬ x.Zero → c = f.qnan ∧ fl = flagNV) ∧
  (∀ s e, x = .fin s 0 e → c = f.zero s ∧ fl = 0) ∧
  ∀ m e, x = .fin false m e → m ≠ 0 →
    let m₀ := if e % 2 = 0 then m else 2 * m
    ∀ n, n * n ≤ m₀ * 2 ^ 80 → m₀ * 2 ^ 80 < (n + 1) * (n + 1) → f.RoundsNear mode ftz false n (e / 2 - 40) (n * n = m₀ * 2 ^ 80) c fl

/-- z and fl are the integer and the conditions of a value converted to the range lo to hi (R34). -/
def IntConverts (mode : RMode) (lo hi : Int) (x : Num) (z : Int) (fl : Flags) : Prop :=
  match x with
  | .nan _ => z = 0 ∧ fl = flagNV
  | .inf neg => z = (if neg then lo else hi) ∧ fl = flagNV
  | .fin neg m e => ∀ n, Rounds mode neg m e 0 n →
    let v : Int := if neg then -(n : Int) else n
    (v < lo → z = lo ∧ fl = flagNV) ∧ (hi < v → z = hi ∧ fl = flagNV) ∧
      (lo ≤ v → v ≤ hi → z = v ∧ (Inexact m e 0 → fl = flagNX) ∧ (¬ Inexact m e 0 → fl = 0))

/-- c and fl are the code and the conditions of a value rounded into a binary8 format (R33, step by step). -/
def B8.Converts (b : B8) (mode : RMode) (fin sat : Bool) (x : Num) (c : Nat) (fl : Flags) : Prop :=
  let last := (if b.signed then 0x7F else 0xFE) - if fin then 0 else 1
  let bias := if b.signed then 2 ^ (7 - b.p) else 2 ^ (8 - b.p)
  let nan := if b.signed then 0x80 else 0xFF
  let signed (neg : Bool) (k : Nat) : Nat := if b.signed ∧ neg ∧ k ≠ 0 then k + 0x80 else k
  -- step 5, for an infinite value and for a finite one
  let over_ (neg infinite : Bool) : Prop :=
    let of : Flags := if infinite then 0 else flagOF ||| flagNX
    (sat = true → c = signed neg last ∧ fl = of) ∧
    (sat = false → fin = true → c = nan ∧ fl = of ||| flagNV) ∧
    (sat = false → fin = false → fl = of ∧ ((infinite = true ∨ OverflowsToInf mode neg) → c = signed neg (last + 1)) ∧
      (infinite = false → ¬ OverflowsToInf mode neg → c = signed neg last))
  match x with
  | .nan signaling => c = nan ∧ fl = if signaling then flagNV else 0
  | .inf neg =>
    (neg = true → b.signed = false → (sat = true → c = 0 ∧ fl = 0) ∧ (sat = false → c = nan ∧ fl = flagNV)) ∧
    ((neg = false ∨ b.signed = true) → over_ neg true)
  | .fin neg m e =>
    let mb := b.p - 1
    let top : Int := e + Nat.log2 m
    let emin : Int := 1 - (bias : Int)
    let q : Int := max (top - mb) (emin - mb)
    (m = 0 → c = 0 ∧ fl = 0) ∧
    (m ≠ 0 → ∀ n, Rounds mode neg m e q n →
      let code := if n < 2 ^ mb then n else (q + mb + bias).toNat * 2 ^ mb + (n - 2 ^ mb)
      (n = 0 → c = 0 ∧ fl = flagUF ||| flagNX) ∧
      (n ≠ 0 → neg = true → b.signed = false → (sat = true → c = 0 ∧ fl = flagNX) ∧ (sat = false → c = nan ∧ fl = flagNV)) ∧
      (n ≠ 0 → (neg = false ∨ b.signed = true) →
        (last < code → over_ neg false) ∧
        (code ≤ last → c = signed neg code ∧ (¬ Inexact m e q → fl = 0) ∧
          (Inexact m e q → ((n < 2 ^ mb ∨ Tiny mode neg m e top emin mb) → fl = flagNX ||| flagUF) ∧ (¬ (n < 2 ^ mb ∨ Tiny mode neg m e top emin mb) → fl = flagNX)))))

/-! ## Pair forms (R279) -/

/-- The operands of a pair form: D even with its upper register in the window, or 0x3F; the pairs even and in the window, the plain
sources allowed; nothing pending. -/
structure State.PairReady (s : State) (d : BitVec 7) (pairs plain : List (BitVec 8)) : Prop where
  dest : d.toNat % 64 = 0x3F ∨ (d.toNat % 2 = 0 ∧ d.toNat % 64 + 1 < s.grp.window)
  pairOk : ∀ c ∈ pairs, s.pairBad c = false
  plainOk : ∀ c ∈ plain, s.srcBad c = false
  settled : ∀ c ∈ plain ++ pairs ++ pairs.map (fun c => codePlus c 1), s.pendingIn s.activeLanes c = false
  destSettled : d.toNat % 64 = 0x3F ∨ ∀ i ∈ s.activeLanes, s.grp.pendingV i (d.toNat % 64) = false ∧ s.grp.pendingV i (d.toNat % 64 + 1) = false

/-- What a pair form with 64-bit results r does (R279): the low word to vD and q0, the high word to vD+1 and q1. -/
structure PairResult (d : BitVec 7) (r : Nat → BitVec 64) (s t : State) : Prop where
  frame : t = { s with ent := s.ent.finish (s.ent.pc + 4), grp := { s.grp with lanes := t.grp.lanes } }
  named : ∀ i < s.grp.width, ∀ k, (t.grp.lane i).reg k =
    if s.computes i ∧ d.toNat % 64 ≠ 0x3F ∧ k = d.toNat % 64 then (r i).setWidth 32
    else if s.computes i ∧ d.toNat % 64 ≠ 0x3F ∧ k = d.toNat % 64 + 1 then (r i >>> 32).setWidth 32
    else (s.grp.lane i).reg k
  queue : ∀ i < s.grp.width, (t.grp.lane i).q =
    if s.inL i ∧ d.getLsbD 6 = false then
      { val := if s.active i then (r i).setWidth 32 else 0 } :: { val := if s.active i then (r i >>> 32).setWidth 32 else 0 } :: (s.grp.lane i).q.take 14
    else (s.grp.lane i).q
  others : ∀ i < s.grp.width, (t.grp.lane i).p = (s.grp.lane i).p ∧ (t.grp.lane i).use = (s.grp.lane i).use

/-! ## Cross-lane forms (R287 to R291) -/

/-- The operands of a cross-lane form may be named, and A is pending in no lane of L; B is uniform where the form says so. -/
structure State.CrossReady (s : State) (d : BitVec 7) (a : BitVec 8) (b : Option (BitVec 8 × Bool)) : Prop where
  dest : s.dBad d = false
  left : s.srcBad a = false
  right : ∀ c u, b = some (c, u) → s.srcBad c = false ∧ (u = true → perLane c = false) ∧ s.pendingIn s.activeLanes c = false
  settled : s.pendingIn s.ownLanes a = false
  destSettled : s.pendingD s.activeLanes d = false

/-- A value that a form reading A of lane j may obtain (R288): the register's value there, or the value that will fill it where
the lane is another entity's and A is pending in it. -/
def State.Sees (s : State) (a : BitVec 8) (j : Nat) (x : Word) : Prop := x = s.read a j ∨ (j ∈ s.foreignLanes ∧ s.filling a j = some x)

/-- What lane i receives from the source lane named, where each lane j is read once, as v j (R287, R288): its own A where the named
lane is out of range. -/
def State.crossValue (s : State) (a : BitVec 8) (v : Nat → Word) (i : Nat) : Option Nat → Word
  | some j => if j < s.grp.width then v j else s.read a i
  | none => s.read a i

/-- What writing r to vD and pushing it in every lane of L does (R290): a reduction's write, with conditions f. -/
structure AllLanes (d : BitVec 7) (r : Word) (f : Flags) (s t : State) : Prop where
  frame : t = { s with
    ent := s.ent.finish (s.ent.pc + 4)
    grp := { s.grp with lanes := t.grp.lanes, gs := s.grp.gs ||| f.setWidth 32 } }
  named : ∀ i < s.grp.width, ∀ k, (t.grp.lane i).reg k = if s.inL i ∧ k = d.toNat % 64 ∧ k ≠ 0x3F then r else (s.grp.lane i).reg k
  queue : ∀ i < s.grp.width, (t.grp.lane i).q = if s.inL i ∧ d.getLsbD 6 = false then { val := r } :: (s.grp.lane i).q.take 15 else (s.grp.lane i).q
  others : ∀ i < s.grp.width, (t.grp.lane i).p = (s.grp.lane i).p ∧ (t.grp.lane i).use = (s.grp.lane i).use

/-- What a reduction or scan does beside R (R290, R291): s63 receives the total and SCC.E says that no lane was active; a trap
enabled for its conditions names the active lanes. -/
def SideDone (R : State → Prop) (total : Word) (f : Flags) (s t : State) : Prop :=
  let Full (t : State) : Prop := ∃ u, R u ∧ t = { u with
    ent := { u.ent with scc := { u.ent.scc with e := decide (s.activeLanes = []) } }, grp := u.grp.setSAt (s.sIndex 63) total }
  if orFlags (fun _ => f) s.activeLanes &&& gcEnable s.grp.gc = 0 then Full t else TrapsAfter 4 (fun _ => f) s Full t

/-! ## Scalar forms (R260) -/

/-- The operands of a uniform form may be named and are settled, and the s registers dst (as the entity names them) are not pending. -/
structure State.UniReady (s : State) (srcs : List (BitVec 8)) (dst : List Nat) : Prop where
  sources : ∀ c ∈ srcs, s.uniBad c = false
  settled : ∀ c ∈ srcs, s.pendingIn [] c = false
  dest : ∀ n ∈ dst, s.pendingS n = false

/-- The group's s registers and handler bank after writes of some of them: the last write of a register in the list holds. -/
def SWrites (s : State) (ws : List (Nat × Word)) (t : State) : Prop :=
  ∀ k, t.grp.sAt k = ws.foldl (fun x w => if k = s.sIndex w.1 then w.2 else x) (s.grp.sAt k)

/-- The writes of a team word in one cycle, newest first, each starting from what the one before it left, the oldest from v (R121). -/
def rechain (v : Word) : List WOld → List WOld
  | [] => []
  | o :: l => { o with val := ((rechain v l).head?.map WOld.after).getD v } :: rechain v l

/-- What a team word that was v holds after writes, newest first. -/
def lastWrite (v : Word) (ws : List WOld) : Word := (ws.head?.map WOld.after).getD v

/-- An instruction of len bytes that only writes s registers and the fields e of its entity: the frame. -/
def ScalarFrame (len : Nat) (e : Entity) (f : Flags) (ws : List (Nat × Word)) (s t : State) : Prop :=
  SWrites s ws t ∧ t = { s with
    ent := e.finish (s.ent.pc + BitVec.ofNat 32 len)
    grp := { s.grp with s := t.grp.s, hbank := t.grp.hbank, gs := s.grp.gs ||| f.setWidth 32 } }

/-- What a class 4 form with result r does (R260): sD unless D[5:0] is 0x3F, and SCC with .cc, E unchanged. -/
def ScResult (d : BitVec 7) (r : ScRes) (s t : State) : Prop :=
  ScalarFrame 4 { s.ent with scc := if d.getLsbD 6 then { e := s.ent.scc.e, v := r.v, c := r.c, n := r.r.getLsbD 31, z := decide (r.r = 0) } else s.ent.scc }
    r.flags (if d.toNat % 64 = 0x3F then [] else [(d.toNat % 64, r.r)]) s t

/-- The same with a trap after an enabled condition, TLANES 0 (R261, R28). -/
def ScDone (d : BitVec 7) (r : ScRes) (s t : State) : Prop :=
  if r.flags &&& gcEnable s.grp.gc = 0 then ScResult d r s t
  else ∃ u, ScResult d r s u ∧ t = u.takeTrap {
    code := trapOfFlags (r.flags &&& gcEnable s.grp.gc), tpc := s.ent.pc + 4, first := s.ent.pc, data := (r.flags &&& gcEnable s.grp.gc).setWidth 32 }

/-! ## Memory forms (R171, R294 to R301): their issue -/

/-- Accesses that may be issued: aligned, every page translates with its permission, and what is remote may be sent, each unit of g bytes over
the port of its line (R73, R171, R230). -/
structure State.Sendable (s : State) (n : Need) (align g : Nat) (uni : Bool) (as : List Access) : Prop where
  aligned : ∀ a ∈ as, a.va.toNat % align = 0
  mapped : ∀ a ∈ as, ∀ v ∈ a.probes, ∃ p, (s.translate s.core.dtlb (s.ctx s.team.ctx) s.arbour n v).1 = .ok p
  sent : ∀ a ∈ as, ∀ k, g * k < a.size → s.remoteGate (s.usesOf [(if uni then 64 else a.lane, a.va, s.pa n (a.va + BitVec.ofNat 80 (g * k)))]) = none

/-- The operand codes and the base register of a memory form are settled, and its path has room (R114, R138). -/
structure State.MemReady (s : State) (path : Path) (base : Option (BitVec 4)) (codes : List (BitVec 8)) : Prop where
  settled : ∀ c ∈ codes, s.pendingIn s.activeLanes c = false
  base : ∀ e, base = some e → s.grp.pendingDest (.b e.toNat) = false
  room : s.grp.count path < 63

/-- The named registers vD to vD+n−1 that a load writes, if any: in the window, and not pending in an active lane. -/
structure State.RunReady (s : State) (d : BitVec 7) (n : Nat) : Prop where
  named : d.toNat % 64 = 0x3F ∨ (d.toNat % 64 % n = 0 ∧ d.toNat % 64 + n ≤ s.grp.window)
  settled : d.toNat % 64 = 0x3F ∨ ∀ i ∈ s.activeLanes, ∀ k < n, s.grp.pendingV i (d.toNat % 64 + k) = false

/-- What the issue of a memory form may change: its entity, the lanes' queues, the group's operations and their counter, the translation
caches. Memory and the scratchpads stay as they are until the operation's accesses are performed. -/
def MemFrame (e : Entity) (s t : State) : Prop := t = { s with
  ent := e.finish (s.ent.pc + 4)
  grp := { s.grp with lanes := t.grp.lanes, ops := t.grp.ops }
  core := { s.core with dtlb := t.core.dtlb }
  dev := { s.dev with l2tlb := t.dev.l2tlb, walkCache := t.dev.walkCache }
  nextOp := t.nextOp }

/-- Neither memory nor a scratchpad is written. -/
structure MemoryKept (s t : State) : Prop where
  mem : t.dev.mem = s.dev.mem
  poison : t.dev.poison = s.dev.poison
  spad : t.core.spad = s.core.spad
  badSpad : t.core.badSpad = s.core.badSpad
  cores : t.cores = s.cores

/-- The cores but for their scratchpads. -/
def CoresKept (s t : State) : Prop := ∀ c, { t.coreOf c with spad := [], badSpad := [] } = { s.coreOf c with spad := [], badSpad := [] }

/-- The number of an operation that a new one of the entity in front follows (R148, R149): an operation of the entity, or one that it has from
splits and joins, on the same path, not completed, with an access left to bytes that the new one meets. -/
def State.Follows (s : State) (path : Option Path) (todo : List Todo) (n : Nat) : Prop :=
  ∃ y ∈ s.grp.ops, y.id = n ∧ y.done = false ∧ (y.ent = s.ent.num ∨ y.id ∈ s.ent.prior) ∧ y.path = path ∧ ∃ a ∈ y.todo, ∃ b ∈ todo, a.meets b = true

/-- A counted operation of the entity is added, with these fills and accesses (R114, R138, R149). -/
structure OpAdded (path : Path) (fills : Fill → Prop) (uses : List RemoteUse) (todo : List Todo) (s t : State) : Prop where
  added : ∃ o, t.grp.ops = s.grp.ops ++ [o] ∧ (∀ f, f ∈ o.fills ↔ fills f) ∧ (∀ n, n ∈ o.after ↔ s.Follows (some path) todo n) ∧
    o = { id := s.nextOp, path := some path, ent := s.ent.num, fills := o.fills, uses, todo, after := o.after }
  counted : t.nextOp = s.nextOp + 1

/-- What a load does to its group as it issues (R114, R294): the operation, which will write word k of lane i, val i k where it is known then,
to register reg + k and to position k of the pushes; each lane of L pushes n positions, pending in an active lane. -/
structure LoadResult (path : Path) (reg : Option Nat) (push : Bool) (n : Nat) (val : Nat → Nat → Word) (uses : List RemoteUse)
    (todo : List Todo) (s t : State) : Prop where
  op : OpAdded path (fun f => ∃ i k, i ∈ s.activeLanes ∧ k < n ∧
    ((∃ r, reg = some r ∧ f = ⟨.v i (r + k), (val i k).setWidth 80⟩) ∨ (push = true ∧ f = ⟨.q i k, (val i k).setWidth 80⟩))) uses todo s t
  queue : ∀ i < s.grp.width, (t.grp.lane i).q = if s.inL i ∧ push = true then
    (List.range n).map (fun k => { tag := if s.active i then some (s.nextOp, k) else none }) ++ (s.grp.lane i).q.take (16 - n) else (s.grp.lane i).q
  others : ∀ i < s.grp.width, (t.grp.lane i).v = (s.grp.lane i).v ∧ (t.grp.lane i).p = (s.grp.lane i).p ∧ (t.grp.lane i).use = (s.grp.lane i).use

/-- The named register of a destination field. -/
def namedReg (d : BitVec 7) : Option Nat := if d.toNat % 64 = 0x3F then none else some (d.toNat % 64)

/-! ## Memory forms: their accesses, performed later (R147 to R150) -/

/-- Operation o of the group in front stands as it was issued, but for its record of ports, and none of its accesses waits for one that
precedes it (R149). -/
def State.Performable (u : State) (o : Op) : Prop :=
  ∃ us, { o with uses := us } ∈ u.grp.ops ∧ (∀ y ∈ u.grp.ops, y.id = o.id → y = { o with uses := us }) ∧ ∀ a ∈ o.todo, u.grp.blocked { o with uses := us } a = false

/-- v is u after operation o has performed every access: it has `val` for each destination, and the lanes and addresses that `met` an
uncorrectable error. Only the storage may change beside. -/
structure Performs (o : Op) (val : Dest → VAddr) (met : Nat × VAddr → Prop) (u v : State) : Prop where
  op : ∃ ps, (∀ x, x ∈ ps ↔ met x) ∧ v.grp.ops = u.grp.ops.map fun y => if y.id = o.id then
    { y with todo := [], fills := y.fills.map fun (f : Fill) => { f with val := val f.dest }, poisoned := ps } else y
  frame : v = { u with
    grp := { u.grp with ops := v.grp.ops }
    core := { u.core with spad := v.core.spad, badSpad := v.core.badSpad }
    cores := v.cores
    dev := { u.dev with mem := v.dev.mem, poison := v.dev.poison } }

/-- The result of each destination of a load whose word k goes to register r + k and to position k of the pushes. -/
def laneResults (r : Nat) (word : Nat → Nat → VAddr) : Dest → VAddr
  | .v i k => word i (k - r)
  | .q i k => word i k
  | _ => 0

/-- Byte k of the data of a store from code d (R294): registers or positions of four bytes each. -/
def State.storeByte (s : State) (d : BitVec 7) (i k : Nat) : Byte := (s.read (codePlus (d.setWidth 8) (k / 4)) i).extractLsb' (8 * (k % 4)) 8

/-- What stores of some lanes leave at each address (R147, R294), where byte k of lane i goes to `at_ i k`: a byte that one of them stores
there, or, outside the stored bytes, the byte that stood there. -/
def Stored (lanes : List Nat) (size : Nat) (at_ : Nat → Nat → Option Nat) (byte : Nat → Nat → Byte) (before after : Nat → Byte) : Prop :=
  ∀ a, (∃ i ∈ lanes, ∃ k < size, at_ i k = some a ∧ after a = byte i k) ∨ ((∀ i ∈ lanes, ∀ k < size, at_ i k ≠ some a) ∧ after a = before a)

/-- What stores of some lanes leave of the uncorrectable errors: those of the bytes that they do not store (R176). -/
def Cleaned (lanes : List Nat) (size : Nat) (at_ : Nat → Nat → Option Nat) (before after : List Nat) : Prop :=
  ∀ p, p ∈ after ↔ p ∈ before ∧ ∀ i ∈ lanes, ∀ k < size, at_ i k ≠ some p

/-- The core and the scratchpad address of a window access (R131). -/
def State.winPlace (s : State) (size : Nat) (o : Word) : Option (Nat × Nat) :=
  match s.window o size size with
  | .ok c p => some (c, p)
  | _ => none

/-- The address on core c of byte k of a window access. -/
def winByte (c : Nat) (place : Nat → Option (Nat × Nat)) (i k : Nat) : Option Nat := (place i).bind fun x => if x.1 = c then some (x.2 + k) else none

/-- The value at lane i's location before it acts, where the lanes act in the order given and `same` says which share its location. -/
def atomBefore {n : Nat} (same : Nat → Nat → Bool) (step : Nat → BitVec n → BitVec n) (init : BitVec n) (order : List Nat) (i : Nat) : BitVec n :=
  ((order.takeWhile fun j => j ≠ i).filter (same i)).foldl (fun x j => step j x) init
/-- The value there after all lanes have acted. -/
def atomAfter {n : Nat} (same : Nat → Nat → Bool) (step : Nat → BitVec n → BitVec n) (init : BitVec n) (order : List Nat) (i : Nat) : BitVec n :=
  (order.filter (same i)).foldl (fun x j => step j x) init

/-- What the atomics of some lanes do as they are performed (R147, R176, R299): in some order, each lane's location, `init i` before, takes its
step, and the lane returns the value before it; a `bad` location stays and returns 0. `same` says which lanes share a location. -/
def Atomics (n : Nat) (lanes : List Nat) (same : Nat → Nat → Bool) (init : Nat → BitVec n) (bad : Nat → Bool) (step : Nat → BitVec n → BitVec n)
    (va : Nat → VAddr) (o : Op) (u v : State) (stored : (Nat → Nat → Byte) → Prop) : Prop :=
  ∃ order : List Nat, order.Perm lanes ∧
    let old (i : Nat) : BitVec n := if bad i then 0 else atomBefore same step (init i) order i
    Performs o (laneResults 0 fun i k => ((old i >>> (32 * k)).setWidth 32).setWidth 80) (fun x => ∃ i ∈ lanes, bad i = true ∧ x = (i, va i)) u v ∧
    stored fun i k => (atomAfter same step (init i) order i).extractLsb' (8 * k) 8

/-! ## Pushes of uncounted forms, scratchpad writes, barriers and rings (R177 to R183, R305, R306) -/

/-- What a form that returns n words per lane without a path does (R114): the operation where a lane awaits something, the pushes, and no other change
of the lanes; `poisoned` are the lanes that met an uncorrectable error, with the addresses to report (R176), `order` says that it is the status of an ordered section, which orders the accesses after it (R347). -/
structure PushResult (reg : Option Nat) (push : Bool) (n : Nat) (val : Nat → Nat → Word) (poisoned : List (Nat × VAddr)) (order : Option Bool) (s t : State) : Prop where
  op : let fills (f : Fill) : Prop := ∃ i k, i ∈ s.activeLanes ∧ k < n ∧
      ((∃ r, reg = some r ∧ f = ⟨.v i (r + k), (val i k).setWidth 80⟩) ∨ (push = true ∧ f = ⟨.q i k, (val i k).setWidth 80⟩))
    ((∃ f, fills f) → ∃ o, t.grp.ops = s.grp.ops ++ [o] ∧ (∀ f, f ∈ o.fills ↔ fills f) ∧ o = { id := s.nextOp, path := none, ent := s.ent.num, fills := o.fills, poisoned, order } ∧ t.nextOp = s.nextOp + 1) ∧
    ((∀ f, ¬ fills f) → t.grp.ops = s.grp.ops ∧ t.nextOp = s.nextOp)
  queue : ∀ i < s.grp.width, (t.grp.lane i).q = if s.inL i ∧ push = true then
    (List.range n).map (fun k => { tag := if s.active i then some (s.nextOp, k) else none }) ++ (s.grp.lane i).q.take (16 - n) else (s.grp.lane i).q
  others : ∀ i < s.grp.width, (t.grp.lane i).v = (s.grp.lane i).v ∧ (t.grp.lane i).p = (s.grp.lane i).p ∧ (t.grp.lane i).use = (s.grp.lane i).use

/-- t has s's state but for the group's lanes and operations and the operation counter, and entity e. -/
def PushFrame (e : Entity) (s t : State) : Prop := t = { s with
  ent := e, grp := { s.grp with lanes := t.grp.lanes, ops := t.grp.ops }, nextOp := t.nextOp }

/-- Bytes are written to the scratchpad of core c from a on, which removes the errors there (R176), and no other byte of any scratchpad. -/
def SpadWritten (c a : Nat) (bs : List Byte) (s t : State) : Prop :=
  (∀ k x, (t.spadOf k).read x = if k = c ∧ a ≤ x ∧ x < a + bs.length then bs.getD (x - a) 0 else (s.spadOf k).read x) ∧
  ∀ k x, x ∈ (t.coreOf k).badSpad ↔ x ∈ (s.coreOf k).badSpad ∧ ¬ (k = c ∧ a ≤ x ∧ x < a + bs.length)

/-- Barrier b of the team in front is what it now is, in the device and in its slot of the window (R177); nothing else changes but the entity. -/
structure BarrierSet (e : Entity) (b : Barrier) (s t : State) : Prop where
  kept : t.team.barrierAt b.core b.off = some b
  others : ∀ c o, ¬ (c = b.core ∧ o = b.off) → t.team.barrierAt c o = s.team.barrierAt c o
  bytes : SpadWritten b.core (s.teamAddr b.core b.off) (leBytes b.bits 16) s t
  cores : CoresKept s t
  frame : t = { s with
    ent := e, team := { s.team with barriers := t.team.barriers }, core := { s.core with spad := t.core.spad, badSpad := t.core.badSpad }, cores := t.cores }

/-- Ring r of the team in front holds these slots, whose records stand in the window from slot j on; nothing else changes but the entity. -/
structure RingSet (e : Entity) (r : Ring) (a : Nat) (bs : List Byte) (s t : State) : Prop where
  kept : t.team.ring? r.core r.off = some r
  others : ∀ c o, ¬ (c = r.core ∧ o = r.off) → t.team.ring? c o = s.team.ring? c o
  bytes : SpadWritten r.core a bs s t
  cores : CoresKept s t
  frame : t = { s with
    ent := e, team := { s.team with rings := t.team.rings }, core := { s.core with spad := t.core.spad, badSpad := t.core.badSpad }, cores := t.cores }

/-! ## Permutations (R219 to R224, R335) -/

/-- A position list of G lanes: each lane's destination, all different (R217). -/
def IsPerm (g : Nat) (pos : List Nat) : Prop := pos.length = g ∧ pos.Nodup ∧ ∀ m ∈ pos, m < g

/-- A solving form leaves register n SOLVING with a position list, and its request last at the Pergola (R219, R335). -/
structure SolveQueued (n : Nat) (pos : List Nat) (s t : State) : Prop where
  perms : ∀ k, t.grp.perm k = if k = n then { state := .solving, pos, settings := [] } else s.grp.perm k
  frame : t = { s with
    ent := s.ent.finish (s.ent.pc + 4), grp := { s.grp with pm := t.grp.pm }, core := { s.core with pergola := s.core.pergola ++ [(s.grp.loc, n)] } }


/-! ## The trace area and the mailbox (R360, R397, R398) -/

/-- What appending a trace record to a context's area does (R360): nothing without an area; with room, the 32 bytes of the record stand at its place and
the count is one more; a full area counts a drop; all other memory is as it was. The area is that of the Arbour of the core that the record names, where
a TRACE_SETUP in progress may have given it a new one already, whose records count by themselves (R17). -/
structure Traced (ctx : Nat) (r : TraceRec) (s t : State) : Prop where
  frame : t = { s with dev := { s.dev with mem := t.dev.mem, poison := t.dev.poison, ctxs := t.dev.ctxs } }
  absent : (s.ctxOn (arbourOf r.core) ctx).traceBase = 0 → t = s
  kept : let c := s.ctxOn (arbourOf r.core) ctx
    let base := c.traceBase.toNat
    let place := base + 64 + 32 * (c.traceNext % 2 ^ c.traceLog2)
    ∀ a, (a < base ∨ base + 24 ≤ a) → (a < place ∨ place + 32 ≤ a) → t.mem.read a = s.mem.read a ∧ (a ∈ t.dev.poison ↔ a ∈ s.dev.poison)
  room : let c := s.ctxOn (arbourOf r.core) ctx
    let base := c.traceBase.toNat
    s.Canonical → base ≠ 0 → c.traceNext - leNat (s.mem.readBytes (base + 8) 8) < 2 ^ c.traceLog2 →
      t.mem.readBytes (base + 64 + 32 * (c.traceNext % 2 ^ c.traceLog2)) 32 = leBytes (r.bits s.dev.tick) 32 ∧ t.mem.readBytes base 8 = leBytes (c.traceNext + 1) 8 ∧
        t.ctx ctx = (if s.newArea (arbourOf r.core) ctx then { s.ctx ctx with traceNew := (s.ctx ctx).traceNew + 1 } else { s.ctx ctx with traceNext := (s.ctx ctx).traceNext + 1 }) ∧
        ∀ n, n ≠ ctx → t.ctx n = s.ctx n
  full : let c := s.ctxOn (arbourOf r.core) ctx
    let base := c.traceBase.toNat
    s.Canonical → base ≠ 0 → 2 ^ c.traceLog2 ≤ c.traceNext - leNat (s.mem.readBytes (base + 8) 8) →
      t.mem.readBytes (base + 16) 8 = leBytes (leNat (s.mem.readBytes (base + 16) 8) + 1) 8 ∧ t.dev.ctxs = s.dev.ctxs

/-- A mailbox command is taken: none is in progress, DEVSTATE allows it, and no parameter byte but those of the runs given is set. -/
structure State.Takes (s : State) (ok : List DevState) (used : List (Nat × Nat)) : Prop where
  idle : s.dev.mb.busy = false
  state : s.dev.devstate ∈ ok
  unused : ∀ i, s.dev.mb.params.getD i 0 ≠ 0 → ∃ u ∈ used, u.1 ≤ i ∧ i < u.1 + u.2
end Sys2Proof.Machine
end

