-- ==== Sys2Proof/Certificates/Slice0/Obligations.lean ====
section
/-! DEFINITION. The statements for the provers, in the order of OBLIGATIONS.json. -/
open Sys2Proof Sys2Proof.Machine

/-! ## Vector forms (19_isa_vector.md) -/

/-- (R277) Each integer form of class 0 whose sources are ready completes, and its result is the one the table gives; it raises no
condition and changes nothing but the lanes and the PC.
Completes: iadd, isub, imul, imulh, imulhn, imin, iminn, imax, imaxn, and, or, xor, andn, shl, shr, shra, rotl, bfx. -/
def Obligations.IntegerFormResults : Prop :=
  ∀ (s : State) (d : BitVec 7) (a b : BitVec 8) (i : Instr) (f : Word → Word → Word),
    (i, f) ∈ ([
      (.iadd b a d, fun x y => x + y), (.isub b a d, fun x y => x - y), (.imul b a d, fun x y => x * y),
      (.imulh b a d, fun x y => BitVec.ofInt 32 (x.toInt * y.toInt / 2 ^ 32)), (.imulhn b a d, fun x y => BitVec.ofNat 32 (x.toNat * y.toNat / 2 ^ 32)),
      (.imin b a d, fun x y => if x.toInt ≤ y.toInt then x else y), (.iminn b a d, fun x y => if x.toNat ≤ y.toNat then x else y),
      (.imax b a d, fun x y => if x.toInt ≤ y.toInt then y else x), (.imaxn b a d, fun x y => if x.toNat ≤ y.toNat then y else x),
      (.and b a d, fun x y => x &&& y), (.or b a d, fun x y => x ||| y), (.xor b a d, fun x y => x ^^^ y), (.andn b a d, fun x y => x &&& ~~~ y),
      (.shl b a d, fun x y => x <<< (y.toNat % 32)), (.shr b a d, fun x y => x >>> (y.toNat % 32)), (.shra b a d, fun x y => x.sshiftRight (y.toNat % 32)),
      (.rotl b a d, fun x y => x.rotateLeft (y.toNat % 32)),
      (.bfx b a d, fun x y => (x >>> (y.toNat % 32)) &&& BitVec.ofNat 32 (2 ^ (y.toNat / 32 % 32 + 1) - 1))] : List (Instr × (Word → Word → Word))) →
    s.Ready d [a, b] → ∃ t, exec i s = .next t ∧ VecResult 4 d (fun k => f (s.read a k) (s.read b k)) 0 s t

/-- (R278, R276) Division truncates towards zero; a zero divisor gives all ones or the dividend and raises DZ, the signed overflow
raises IV; every lane completes, and an enabled trap follows.
Completes: idiv, idivn, irem, iremn. -/
def Obligations.DivisionForms : Prop :=
  ∀ (s : State) (d : BitVec 7) (a b : BitVec 8) (i : Instr) (zero flow : Word → Word) (signed : Bool) (f : Word → Word → Word),
    (i, zero, flow, signed, f) ∈ ([
      (.idiv b a d, fun _ => 0xFFFFFFFF, fun _ => 0x80000000, true, fun x y => BitVec.ofInt 32 (x.toInt.tdiv y.toInt)),
      (.idivn b a d, fun _ => 0xFFFFFFFF, fun x => x, false, fun x y => BitVec.ofNat 32 (x.toNat / y.toNat)),
      (.irem b a d, fun x => x, fun _ => 0, true, fun x y => BitVec.ofInt 32 (x.toInt.tmod y.toInt)),
      (.iremn b a d, fun x => x, fun x => x, false, fun x y => BitVec.ofNat 32 (x.toNat % y.toNat))] :
        List (Instr × (Word → Word) × (Word → Word) × Bool × (Word → Word → Word))) →
    s.Ready d [a, b] → ∃ t, exec i s = .next t ∧ VecDone 4 d (fun k =>
      let x := s.read a k
      let y := s.read b k
      if y = 0 then (zero x, flagDZ) else if signed ∧ x = 0x80000000 ∧ y = 0xFFFFFFFF then (flow x, flagIV) else (f x y, 0)) s t

/-- (R279) The 64-bit forms read even pairs, low word first, and deliver low and high words to vD and vD+1 and to q0 and q1.
Completes: iaddd, isubd, shrd. -/
def Obligations.PairForms : Prop :=
  ∀ (s : State) (d : BitVec 7) (a b : BitVec 8),
    (s.PairReady d [a, b] [] →
      (∃ t, exec (.iaddd b a d) s = .next t ∧ PairResult d (fun k => s.read64 a k + s.read64 b k) s t) ∧
      ∃ t, exec (.isubd b a d) s = .next t ∧ PairResult d (fun k => s.read64 a k - s.read64 b k) s t) ∧
    (s.PairReady d [a] [b] → ∃ t, exec (.shrd b a d) s = .next t ∧ PairResult d (fun k => s.read64 a k >>> ((s.read b k).toNat % 64)) s t)

/-- (R277, R284) The bit forms, bit by bit: interleaves, reversals, counts, sign extension, absolute value.
Completes: bilv2, bdil2, sext, bilv3, brev, clz, popc, iabs. -/
def Obligations.BitForms : Prop :=
  ∀ (s : State) (d : BitVec 7) (a b : BitVec 8),
    (s.Ready d [a, b] →
      (∃ t r, exec (.bilv2 b a d) s = .next t ∧ VecResult 4 d r 0 s t ∧
        ∀ i, ∀ k < 16, (r i).getLsbD (2 * k) = (s.read a i).getLsbD k ∧ (r i).getLsbD (2 * k + 1) = (s.read b i).getLsbD k) ∧
      (∃ t r, exec (.bdil2 b a d) s = .next t ∧ VecResult 4 d r 0 s t ∧
        ∀ i, ∀ k < 32, (r i).getLsbD k = (decide (k < 16) && (s.read a i).getLsbD (2 * k + (s.read b i).toNat % 2))) ∧
      (∃ t r, exec (.sext b a d) s = .next t ∧ VecResult 4 d r 0 s t ∧
        ∀ i, ∀ k < 32, (r i).getLsbD k = (s.read a i).getLsbD (if k ≤ (s.read b i).toNat % 32 then k else (s.read b i).toNat % 32))) ∧
    (s.Ready d [a, b, thirdCode d] →
      ∃ t r, exec (.bilv3 b a d) s = .next t ∧ VecResult 4 d r 0 s t ∧
        ∀ i, (∀ k < 10, (r i).getLsbD (3 * k) = (s.read a i).getLsbD k ∧ (r i).getLsbD (3 * k + 1) = (s.read b i).getLsbD k ∧
          (r i).getLsbD (3 * k + 2) = (s.read (thirdCode d) i).getLsbD k) ∧ (r i).getLsbD 30 = false ∧ (r i).getLsbD 31 = false) ∧
    (s.Ready d [a] →
      (∃ t r, exec (.brev b a d) s = .next t ∧ VecResult 4 d r 0 s t ∧ ∀ i, ∀ k < 32, (r i).getLsbD k = (s.read a i).getLsbD (31 - k)) ∧
      (∃ t r, exec (.clz b a d) s = .next t ∧ VecResult 4 d r 0 s t ∧
        ∀ i, (s.read a i = 0 → r i = 32) ∧ (s.read a i ≠ 0 → (r i).toNat ≤ 31 ∧ 2 ^ (31 - (r i).toNat) ≤ (s.read a i).toNat ∧ (s.read a i).toNat < 2 ^ (32 - (r i).toNat))) ∧
      (∃ t r, exec (.popc b a d) s = .next t ∧ VecResult 4 d r 0 s t ∧
        ∀ i, (r i).toNat = ((List.range 32).map fun k => ((s.read a i).getLsbD k).toNat).sum) ∧
      ∃ t r, exec (.iabs b a d) s = .next t ∧ VecResult 4 d r 0 s t ∧
        ∀ i, (r i).toNat = (s.read a i).toInt.natAbs)

/-- (R280, R281, R282, R26) Each floating-point form of class 1 completes with its function of the operands, read under GC.FTZ and
rounded in GC.RM, and raises its conditions; a NaN moved by FNEG, FABS or FCPYS becomes the canonical one.
Completes: fadd, fsub, fmul, fdiv, fmin, fmax, fcpys, hadd2, hsub2, hmul2, hmin2, hmax2, badd2, bmul2, fscalb, frcp, frsq, fsqrt, fexp2, flog2, fsinpi, fcospi,
ftanh, frndn, frndz, ffloor, fceil, fneg, fabs, ffrac, fgete. -/
def Obligations.FloatForms : Prop :=
  ∀ (s : State) (d : BitVec 7) (a b : BitVec 8) (i : Instr),
    let m := s.rm
    let z := s.ftz
    (∀ f : Word → Word → Word × Flags, (i, f) ∈ ([
      (.fadd b a d, s.f2 fun x y => fp32.add m z x y), (.fsub b a d, s.f2 fun x y => fp32.add m z x y.neg), (.fmul b a d, s.f2 fun x y => fp32.mul m z x y),
      (.fdiv b a d, s.f2 fun x y => fp32.div m z x y), (.fmin b a d, s.fmin), (.fmax b a d, s.fmax),
      (.fcpys b a d, fun x y => moveF x ((x &&& 0x7FFFFFFF) ||| (y &&& 0x80000000))),
      (.hadd2 b a d, s.h2 fp16 fun x y => fp16.add m z x y), (.hsub2 b a d, s.h2 fp16 fun x y => fp16.add m z x y.neg),
      (.hmul2 b a d, s.h2 fp16 fun x y => fp16.mul m z x y), (.hmin2 b a d, pack2 (fp16.minmax false z)), (.hmax2 b a d, pack2 (fp16.minmax true z)),
      (.badd2 b a d, s.h2 bf16 fun x y => bf16.add m z x y), (.bmul2 b a d, s.h2 bf16 fun x y => bf16.mul m z x y),
      (.fscalb b a d, fun x y => s.f1 (fun n => fp32.scalb m z n y.toInt) x)] : List (Instr × (Word → Word → Word × Flags))) →
      s.Ready d [a, b] → ∃ t, exec i s = .next t ∧ VecDone 4 d (fun k => f (s.read a k) (s.read b k)) s t) ∧
    (∀ f : Word → Word × Flags, (i, f) ∈ ([
      (.frcp b a d, s.f1 fun x => fp32.div m z (.fin false 1 0) x), (.frsq b a d, s.f1 (fp32.rsqrt m z)), (.fsqrt b a d, s.f1 (fp32.sqrt m z)),
      (.fexp2 b a d, s.f1 (fp32.exp2 m z)), (.flog2 b a d, s.f1 (fp32.log2 m z)), (.fsinpi b a d, s.f1 (fp32.sinpi m z)),
      (.fcospi b a d, s.f1 (fp32.cospi m z)), (.ftanh b a d, s.f1 (fp32.tanh m z)),
      (.frndn b a d, s.f1 (fp32.rndInt .rne)), (.frndz b a d, s.f1 (fp32.rndInt .rz)), (.ffloor b a d, s.f1 (fp32.rndInt .rd)), (.fceil b a d, s.f1 (fp32.rndInt .ru)),
      (.fneg b a d, fun x => moveF x (x ^^^ 0x80000000)), (.fabs b a d, fun x => moveF x (x &&& 0x7FFFFFFF)),
      (.ffrac b a d, s.f1 (fracOf m z)), (.fgete b a d, fun x => getExp (fp32.read z x.toNat))] : List (Instr × (Word → Word × Flags))) →
      s.Ready d [a] → ∃ t, exec i s = .next t ∧ VecDone 4 d (fun k => f (s.read a k)) s t)

/-- (R283, R247) Each literal form completes with the table's result: sign-extended, zero-extended or P4 literals.
Completes: iaddk, imulk, andk, ork, xork, shlk, shrk, shrak, imink, imaxk, faddk, fmulk, limh, movk, liml. -/
def Obligations.LiteralForms : Prop :=
  ∀ (s : State) (d : BitVec 7) (a k : BitVec 8) (k5 : BitVec 5) (imm : BitVec 16) (i : Instr),
    (∀ f : Word → Word, (i, f) ∈ ([
      (.iaddk k a d, fun x => x + BitVec.ofInt 32 k.toInt), (.imulk k a d, fun x => x * BitVec.ofInt 32 k.toInt),
      (.andk k a d, fun x => x &&& BitVec.ofNat 32 k.toNat), (.ork k a d, fun x => x ||| BitVec.ofNat 32 k.toNat), (.xork k a d, fun x => x ^^^ BitVec.ofNat 32 k.toNat),
      (.shlk k5 a d, fun x => x <<< k5.toNat), (.shrk k5 a d, fun x => x >>> k5.toNat), (.shrak k5 a d, fun x => x.sshiftRight k5.toNat),
      (.imink k a d, fun x => if x.toInt ≤ k.toInt then x else BitVec.ofInt 32 k.toInt),
      (.imaxk k a d, fun x => if x.toInt ≤ k.toInt then BitVec.ofInt 32 k.toInt else x)] : List (Instr × (Word → Word))) →
      s.Ready d [a] → ∃ t, exec i s = .next t ∧ VecResult 4 d (fun n => f (s.read a n)) 0 s t) ∧
    (s.Ready d [a] →
      (∃ t, exec (.faddk k a d) s = .next t ∧ VecDone 4 d (fun n => s.fadd (s.read a n) (kF k)) s t) ∧
      ∃ t, exec (.fmulk k a d) s = .next t ∧ VecDone 4 d (fun n => s.fmul (s.read a n) (kF k)) s t) ∧
    (s.Ready d [] →
      (∃ t, exec (.limh imm d) s = .next t ∧ VecResult 4 d (fun _ => BitVec.ofNat 32 (imm.toNat * 2 ^ 16)) 0 s t) ∧
      ∃ t, exec (.movk k a d) s = .next t ∧ VecResult 4 d (fun _ => BitVec.ofInt 32 k.toInt) 0 s t) ∧
    (s.Ready d [thirdCode d] →
      ∃ t, exec (.liml imm d) s = .next t ∧ VecResult 4 d (fun n => (s.read (thirdCode d) n &&& 0xFFFF0000) ||| BitVec.ofNat 32 imm.toNat) 0 s t)

/-- (R284, R282, R111) The ternary forms read their third source from vD, or from q0 where D is 0x3F or 0x7F; SEL chooses by a
predicate bit of the lane.
Completes: ffma, ffms, fnfma, hfma2, bfma2, imad, bfi, selP0, selP1, selP2, selP3. -/
def Obligations.TernaryForms : Prop :=
  ∀ (s : State) (d : BitVec 7) (a b : BitVec 8) (i : Instr),
    let m := s.rm
    let z := s.ftz
    (∀ f : Word → Word → Word → Word × Flags, (i, f) ∈ ([
      (.ffma b a d, s.f3 fun x y c => fp32.fma m z x y c), (.ffms b a d, s.f3 fun x y c => fp32.fma m z x y c.neg), (.fnfma b a d, s.f3 fun x y c => fp32.fma m z x.neg y c),
      (.hfma2 b a d, pack3 fun x y c => fp16.fma m z (fp16.read z x) (fp16.read z y) (fp16.read z c)),
      (.bfma2 b a d, pack3 fun x y c => bf16.fma m z (bf16.read z x) (bf16.read z y) (bf16.read z c)),
      (.imad b a d, fun x y c => (x * y + c, 0)),
      (.bfi b a d, fun x y c =>
        let mask : Word := BitVec.ofNat 32 ((2 ^ (y.toNat / 32 % 32 + 1) - 1) * 2 ^ (y.toNat % 32))
        ((c &&& ~~~ mask) ||| ((x <<< (y.toNat % 32)) &&& mask), 0))] : List (Instr × (Word → Word → Word → Word × Flags))) →
      s.Ready d [a, b, thirdCode d] → ∃ t, exec i s = .next t ∧ VecDone 4 d (fun k => f (s.read a k) (s.read b k) (s.read (thirdCode d) k)) s t) ∧
    (∀ p : Nat, (i, p) ∈ ([(.selP0 b a d, 0), (.selP1 b a d, 1), (.selP2 b a d, 2), (.selP3 b a d, 3)] : List (Instr × Nat)) →
      s.Ready d [a, b] → ∃ t, exec i s = .next t ∧ VecResult 4 d (fun k => if (s.grp.lane k).p.getLsbD p then s.read a k else s.read b k) 0 s t)

/-- (R285, R247) A compare sets its predicate bit in each active lane and changes nothing else; PLOP looks its bit up in the table;
MOVP gives the bit as 0 or 1.
Completes: icmpeq, icmpne, icmplt, icmple, icmpltn, icmplen, icmpeqk, icmpltk, fcmpeq, fcmpne, fcmplt, fcmple, fcmpun, plop, movp. -/
def Obligations.CompareForms : Prop :=
  ∀ (s : State) (p : BitVec 2) (a b : BitVec 8) (i : Instr),
    (∀ f : Word → Word → Bool, (i, f) ∈ ([
      (.icmpeq b a p, fun x y => decide (x = y)), (.icmpne b a p, fun x y => decide (x ≠ y)),
      (.icmplt b a p, fun x y => decide (x.toInt < y.toInt)), (.icmple b a p, fun x y => decide (x.toInt ≤ y.toInt)),
      (.icmpltn b a p, fun x y => decide (x.toNat < y.toNat)), (.icmplen b a p, fun x y => decide (x.toNat ≤ y.toNat))] : List (Instr × (Word → Word → Bool))) →
      s.Ready 0x3F [a, b] → ∃ t, exec i s = .next t ∧ PredResult p (fun k => f (s.read a k) (s.read b k)) 0 s t) ∧
    (∀ k : BitVec 8, s.Ready 0x3F [a] →
      (∃ t, exec (.icmpeqk k a p) s = .next t ∧ PredResult p (fun n => decide ((s.read a n).toInt = k.toInt)) 0 s t) ∧
      ∃ t, exec (.icmpltk k a p) s = .next t ∧ PredResult p (fun n => decide ((s.read a n).toInt < k.toInt)) 0 s t) ∧
    (∀ (q : Bool) (f : Machine.Num → Machine.Num → Bool), (i, q, f) ∈ ([
      (.fcmpeq b a p, true, numEq), (.fcmpne b a p, true, fun x y => !numEq x y), (.fcmplt b a p, false, Machine.Num.lt),
      (.fcmple b a p, false, fun x y => x.lt y || numEq x y), (.fcmpun b a p, true, fun x y => x.isNan || y.isNan)] : List (Instr × Bool × (Machine.Num → Machine.Num → Bool))) →
      s.Ready 0x3F [a, b] → ∃ t, exec i s = .next t ∧ PredDone p (fun k =>
        let x := fp32.read s.ftz (s.read a k).toNat
        let y := fp32.read s.ftz (s.read b k).toNat
        (f x y, snan x ||| snan y ||| (if !q && (x.isNan || y.isNan) then flagNV else 0))) s t) ∧
    (∀ (table : BitVec 4) (x y : BitVec 2), s.Ready 0x3F [] →
      ∃ t, exec (.plop table y x p) s = .next t ∧
        PredResult p (fun k => table.getLsbD (2 * ((s.grp.lane k).p.getLsbD x.toNat).toNat + ((s.grp.lane k).p.getLsbD y.toNat).toNat)) 0 s t) ∧
    (∀ d : BitVec 7, s.Ready d [] →
      ∃ t, exec (.movp b p d) s = .next t ∧ VecResult 4 d (fun k => if (s.grp.lane k).p.getLsbD p.toNat then 1 else 0) 0 s t)

/-- (R26, R27, R33, R34, R36, R37, R280, R281, R284, R286) The arithmetic of each IEEE format, by which the vector forms give their results, rounds the exact
sum, product, quotient, root or fused sum once and raises the conditions of R25; NaN, infinite and zero operands resolve as the tables say. CVT, CVT8 and CVT8N complete
in every lane with the code and the conditions that R33 and R34 give, case by case: NaN,
infinity, zero, rounding, overflow and saturation; a trap follows where a condition raised is enabled. Under SR the mode is the stochastic one with the
lane's random word of R37, and the use count of each active lane rises by one, trap or not. What the spec leaves open is the model's: UF and NX for an inexact
binary8 result below the smallest normal number (notes/assumptions/38.md), and the tie of P = 1, which takes the larger magnitude (notes/assumptions/62.md).
Completes: cvt, cvt8, cvt8n. -/
def Obligations.ConversionForms : Prop :=
  (∀ f ∈ [fp32, fp16, bf16], ∀ (rm : Nat) (z : Bool) (p q r : Nat),
    let m := rmOf rm
    let x := f.read z p
    let y := f.read z q
    let w := f.read z r
    f.Fused m z x y w (f.fma m z x y w).1 (f.fma m z x y w).2 ∧ f.Fused m z x y w.neg (f.fma m z x y w.neg).1 (f.fma m z x y w.neg).2 ∧
      f.Fused m z x.neg y w (f.fma m z x.neg y w).1 (f.fma m z x.neg y w).2 ∧
    f.Fused m z x (.fin false 1 0) y (f.add m z x y).1 (f.add m z x y).2 ∧ f.Fused m z x (.fin false 1 0) y.neg (f.add m z x y.neg).1 (f.add m z x y.neg).2 ∧
    f.Product m z x y (f.mul m z x y).1 (f.mul m z x y).2 ∧ f.Quotient m z x y (f.div m z x y).1 (f.div m z x y).2 ∧
    f.Quotient m z (.fin false 1 0) x (f.div m z (.fin false 1 0) x).1 (f.div m z (.fin false 1 0) x).2 ∧ f.Root m z x (f.sqrt m z x).1 (f.sqrt m z x).2) ∧
  ∀ (s : State) (d : BitVec 7) (a : BitVec 8), s.Ready d [a] →
    let x (k : Nat) : Machine.Num := fp32.read s.ftz (s.read a k).toNat
    let small (k : Nat) : Nat := (s.read a k).toNat % 2 ^ 16
    (∀ (m : BitVec 2) (z u : BitVec 3) (C : Nat → Word → Flags → Prop), (m, z, u, C) ∈ ([
        (0, 0, 1, fun k w f => w.toNat < 2 ^ 16 ∧ bf16.Converts s.rm s.ftz (x k) w.toNat f), (0, 0, 2, fun k w f => w.toNat < 2 ^ 16 ∧ fp16.Converts s.rm s.ftz (x k) w.toNat f),
        (0, 1, 0, fun k w f => fp32.Converts s.rm s.ftz (bf16.read s.ftz (small k)) w.toNat f), (0, 2, 0, fun k w f => fp32.Converts s.rm s.ftz (fp16.read s.ftz (small k)) w.toNat f),
        (0, 3, 0, fun k w f => fp32.Converts s.rm false (.fin (decide ((s.read a k).toInt < 0)) (s.read a k).toInt.natAbs 0) w.toNat f),
        (0, 4, 0, fun k w f => fp32.Converts s.rm false (.fin false (s.read a k).toNat 0) w.toNat f),
        (m, 0, 3, fun k w f => IntConverts (rmOf m.toNat) (-2 ^ 31) (2 ^ 31 - 1) (x k) w.toInt f), (m, 0, 4, fun k w f => IntConverts (rmOf m.toNat) 0 (2 ^ 32 - 1) (x k) w.toNat f),
        (m, 0, 5, fun k w f => IntConverts (rmOf m.toNat) (-128) 127 (x k) w.toInt f), (m, 0, 6, fun k w f => IntConverts (rmOf m.toNat) 0 255 (x k) w.toNat f)] :
          List (BitVec 2 × BitVec 3 × BitVec 3 × (Nat → Word → Flags → Prop))) →
      ∃ t r, exec (.cvt m z u a d) s = .next t ∧ VecDone 4 d r s t ∧ ∀ k, C k (r k).1 (r k).2) ∧
    (∀ (f : BitVec 1) (p : BitVec 5), precOk p = true → ∃ t r, exec (.cvt8n f p a d) s = .next t ∧ VecDone 4 d r s t ∧ ∀ k,
      let b := b8Of p.toNat
      let code := (s.read a k).toNat % 256
      let neg := b.signed && decide (0x80 ≤ code)
      let c := if neg then code - 0x80 else code
      let field := c / 2 ^ (b.p - 1)
      let least : Int := 1 - (b.bias : Int) - (b.p - 1 : Nat)
      (code = b.nan → r k = (0x7FC00000, 0)) ∧
      (code ≠ b.nan → c = (if b.signed then 0x7F else 0xFE) → f = 0 → r k = (if neg then 0xFF800000 else 0x7F800000, 0)) ∧
      (code ≠ b.nan → (c ≠ (if b.signed then 0x7F else 0xFE) ∨ f = 1) → fp32.Converts .rne s.ftz
        (if field = 0 then .fin neg (c % 2 ^ (b.p - 1)) least else .fin neg (2 ^ (b.p - 1) + c % 2 ^ (b.p - 1)) (least + field - 1)) (r k).1.toNat (r k).2)) ∧
    (∀ (g f : BitVec 1) (p : BitVec 5), precOk p = true → ∃ t r, exec (.cvt8 0 g f p a d) s = .next t ∧ VecDone 4 d r s t ∧
      ∀ k, (r k).1.toNat < 256 ∧ (b8Of p.toNat).Converts s.rm (f == 1) (g == 1) (x k) (r k).1.toNat (r k).2) ∧
    ∀ (g f : BitVec 1) (p : BitVec 5), precOk p = true →
      let mix (x : BitVec 64) : BitVec 64 :=
        let z := x + 0x9E3779B97F4A7C15
        let z := (z ^^^ (z >>> 30)) * 0xBF58476D1CE4E5B9
        let z := (z ^^^ (z >>> 27)) * 0x94D049BB133111EB
        z ^^^ (z >>> 31)
      let key (k : Nat) : BitVec 64 := BitVec.ofNat 64 (s.grp.seed.toNat * 2 ^ 32 + s.grp.gid % 32 * 2 ^ 6 + k % 64)
      let team : BitVec 64 := BitVec.ofNat 64 (s.team.x.toNat + s.team.gx.toNat * (s.team.y.toNat + s.team.gy.toNat * s.team.z.toNat))
      let word (k : Nat) : Nat := (mix (mix (mix (key k) ^^^ team) ^^^ BitVec.ofNat 64 (s.grp.lane k).use.toNat)).toNat % 2 ^ 32
      ∃ (u v : State) (r : Nat → Word × Flags),
        let raised : Flags := orFlags (fun k => (r k).2) s.activeLanes
        let fired : Flags := raised &&& gcEnable s.grp.gc
        (∀ k, (r k).1.toNat < 256 ∧ (b8Of p.toNat).Converts (.sr (word k)) (f == 1) (g == 1) (x k) (r k).1.toNat (r k).2) ∧
        VecResult 4 d (fun k => (r k).1) raised s u ∧ v = { u with grp := { u.grp with lanes := v.grp.lanes } } ∧
        (∀ k < s.grp.width, v.grp.lane k = { u.grp.lane k with use := if s.computes k then (s.grp.lane k).use + 1 else (s.grp.lane k).use }) ∧
        exec (.cvt8 1 g f p a d) s = .next (if fired = 0 then v else v.takeTrap {
          code := trapOfFlags fired, tpc := s.ent.pc + 4, first := s.ent.pc, data := fired.setWidth 32
          lanes := laneMask (fun k => s.activeLanes.contains k && decide ((r k).2 &&& gcEnable s.grp.gc ≠ 0)) 64 })

/-- (R243) A 16-bit form executes as its 32-bit equivalent: D is the left source and the destination, q0 where D is 63; the result is
always pushed, and the next instruction stands two bytes on.
Completes: iadd16, isub16, imul16, and16, or16, xor16, shl16, shr16, shra16, fadd16, fsub16, fmul16, fmin16, fmax16, mov, sel16. -/
def Obligations.SixteenBitForms : Prop :=
  ∀ (s : State) (x : BitVec 5) (d : BitVec 6) (i : Instr),
    let D : BitVec 7 := BitVec.ofNat 7 d.toNat
    let S : BitVec 8 := if x.toNat < 16 then BitVec.ofNat 8 (0x40 + x.toNat) else BitVec.ofNat 8 (x.toNat - 16)
    let L : BitVec 8 := if d.toNat = 63 then 0x40 else BitVec.ofNat 8 d.toNat
    (∀ f : Word → Word → Word × Flags, (i, f) ∈ ([
      (.iadd16 x d, fun l r => (l + r, 0)), (.isub16 x d, fun l r => (l - r, 0)), (.imul16 x d, fun l r => (l * r, 0)),
      (.and16 x d, fun l r => (l &&& r, 0)), (.or16 x d, fun l r => (l ||| r, 0)), (.xor16 x d, fun l r => (l ^^^ r, 0)),
      (.shl16 x d, fun l r => (l <<< (r.toNat % 32), 0)), (.shr16 x d, fun l r => (l >>> (r.toNat % 32), 0)), (.shra16 x d, fun l r => (l.sshiftRight (r.toNat % 32), 0)),
      (.fadd16 x d, s.fadd), (.fsub16 x d, s.fsub), (.fmul16 x d, s.fmul), (.fmin16 x d, s.fmin), (.fmax16 x d, s.fmax)] : List (Instr × (Word → Word → Word × Flags))) →
      s.Ready D [S, L] → ∃ t, exec i s = .next t ∧ VecDone 2 D (fun k => f (s.read L k) (s.read S k)) s t) ∧
    (s.Ready D [S] → ∃ t, exec (.mov x d) s = .next t ∧ VecResult 2 D (fun k => s.read S k) 0 s t) ∧
    (s.Ready D [S, L] →
      ∃ t, exec (.sel16 x d) s = .next t ∧ VecResult 2 D (fun k => if (s.grp.lane k).p.getLsbD 0 then s.read S k else s.read L k) 0 s t)

/-- (R110, R114, R240, R241) A vector form that names a reserved code or a register at or above N has no effect but the precise trap
ILLEGAL_OPERAND with the first bad field of D, A, B; a form whose operand is pending waits for the scoreboard. -/
def Obligations.OperandFieldTraps : Prop :=
  ∀ (s : State) (d : BitVec 7) (a b : BitVec 8),
    let bad (field value : Nat) : Host.Outcome State Fault Refusal := .next (s.takeTrap (s.trapHere .illegalOperand (BitVec.ofNat 32 (field * 256 + value))))
    let waits : Host.Outcome State Fault Refusal := .next { s with ent := { s.ent with status := .waiting .scoreboard } }
    (∀ op ∈ ([Instr.iadd, .isub, .imul, .imulh, .imulhn, .idiv, .idivn, .irem, .iremn, .imin, .iminn, .imax, .imaxn, .and, .or, .xor, .andn, .shl, .shr, .shra, .rotl,
        .bfx, .bilv2, .bdil2, .sext, .fadd, .fsub, .fmul, .fmin, .fmax, .fdiv, .fcpys, .hadd2, .hsub2, .hmul2, .hmin2, .hmax2, .badd2, .bmul2, .fscalb,
        .ffma, .ffms, .fnfma, .hfma2, .bfma2, .imad, .bilv3, .bfi, .selP0, .selP1, .selP2, .selP3] : List (BitVec 8 → BitVec 8 → BitVec 7 → Instr)),
      (s.dBad d = true → exec (op b a d) s = bad 0 d.toNat) ∧
      (s.dBad d = false → s.srcBad a = true → exec (op b a d) s = bad 1 a.toNat) ∧
      (s.dBad d = false → s.srcBad a = false → s.srcBad b = true → exec (op b a d) s = bad 2 b.toNat) ∧
      (s.dBad d = false → s.srcBad a = false → s.srcBad b = false → (s.pendingIn s.activeLanes a || s.pendingIn s.activeLanes b || s.pendingD s.activeLanes d) = true →
        exec (op b a d) s = waits)) ∧
    ∀ op ∈ ([Instr.clz, .popc, .brev, .iabs, .frcp, .frsq, .fsqrt, .fexp2, .flog2, .fsinpi, .fcospi, .ftanh, .frndn, .frndz, .ffloor, .fceil, .fneg, .fabs, .ffrac, .fgete,
        .iaddk, .imulk, .andk, .ork, .xork, .imink, .imaxk, .faddk, .fmulk] : List (BitVec 8 → BitVec 8 → BitVec 7 → Instr)),
      (s.dBad d = true → exec (op b a d) s = bad 0 d.toNat) ∧
      (s.dBad d = false → s.srcBad a = true → exec (op b a d) s = bad 1 a.toNat) ∧
      (s.dBad d = false → s.srcBad a = false → (s.pendingIn s.activeLanes a || s.pendingD s.activeLanes d) = true → exec (op b a d) s = waits)

/-- (R288, R289) A permuting form delivers A of the lane that its family names; each source lane is read once; a lane out of range
gives the reading lane its own A; XBAL gives half of EM AND p.
Completes: xshf, xdn, xup, xrot, xbfly, xbcast, xfirst, xbal. -/
def Obligations.PermutingForms : Prop :=
  ∀ (s : State) (d : BitVec 7) (a b : BitVec 8),
    (∀ (i : Instr) (u : Bool) (f : Nat → Nat → Option Nat), (i, u, f) ∈ ([
      (.xshf b a d, false, fun _ v => some v), (.xdn b a d, true, fun k v => some (k + v)),
      (.xup b a d, true, fun k v => if v ≤ k then some (k - v) else none), (.xrot b a d, true, fun k v => some ((k + v) % s.grp.width)),
      (.xbfly b a d, true, fun k v => some (k ^^^ v)), (.xbcast b a d, true, fun _ v => some v)] : List (Instr × Bool × (Nat → Nat → Option Nat))) →
      s.CrossReady d a (some (b, u)) → ∃ t v, exec i s = .next t ∧ (∀ j, s.Sees a j (v j)) ∧
        VecResult 4 d (fun k => s.crossValue a v k (f k (s.read b k).toNat)) 0 { s with fresh := t.fresh } t) ∧
    (s.CrossReady d a none → ∃ t v, exec (.xfirst a d) s = .next t ∧ (∀ j, s.Sees a j (v j)) ∧
      VecResult 4 d (fun k => s.crossValue a v k s.activeLanes.head?) 0 { s with fresh := t.fresh } t) ∧
    (∀ (h : BitVec 1) (p : BitVec 2), s.Ready d [] → ∃ t r, exec (.xbal h p d) s = .next t ∧ VecResult 4 d r 0 s t ∧
      ∀ i, ∀ k < 32, (r i).getLsbD k = (s.active (32 * h.toNat + k) && (s.grp.lane (32 * h.toNat + k)).p.getLsbD p.toNat))

/-- (R41, R42, R290, R291) XRED gives the tree's result to every lane of L and to s63; XSCAN gives each active lane its scan value and s63
the total; SCC.E says that no lane was active.
Completes: xred, xscan. -/
def Obligations.ReductionForms : Prop :=
  ∀ (s : State) (d : BitVec 7) (a : BitVec 8) (o : BitVec 4), o.toNat ≤ 10 →
    s.CrossReady d a none → s.pendingS 63 = false → s.pendingD s.ownLanes d = false →
    (let r := redTree (s.redOp o.toNat) 6 (s.laneVals a)
     let x := r.1.getD (redIdentity o.toNat)
     ∃ t, exec (.xred o a d) s = .next t ∧ SideDone (AllLanes d x r.2 s) x r.2 s t) ∧
    ∀ e : BitVec 1,
      let r := scanAll (s.redOp o.toNat) 6 1 (s.laneVals a)
      let val (i : Nat) : Word := (r.1.getD i none).getD (redIdentity o.toNat)
      let below (i : Nat) : Word := match (s.activeLanes.filter fun j => j < i).getLast? with | some j => val j | none => redIdentity o.toNat
      let total := if s.activeLanes = [] then redIdentity o.toNat else val (s.grp.width - 1)
      ∃ t, exec (.xscan e o a d) s = .next t ∧ SideDone (VecResult 4 d (fun i => if e = 1 then below i else val i) r.2 s) total r.2 s t

/-! ## Scalar forms, control flow and the system family (18_isa_scalar.md) -/

/-- (R260) Each scalar form whose uniform operands are settled writes sD unless D[5:0] is 0x3F, sets SCC with .cc as the table gives
and leaves SCC.E and all else; one-source forms ignore B.
Completes: sadd, ssub, smul, smulh, smulhn, smin, sminn, smax, smaxn, sand, sor, sxor, sshl, sshr, sshra, sbfx, sclz, spopc, smov, slil, slih. -/
def Obligations.ScalarForms : Prop :=
  ∀ (s : State) (d : BitVec 7) (a b : BitVec 8) (imm : BitVec 16) (i : Instr),
    (∀ f : Word → Word → ScRes, (i, f) ∈ ([
      (.sadd b a d, fun x y => { r := x + y, c := decide (2 ^ 32 ≤ x.toNat + y.toNat), v := decide (x.toInt + y.toInt < -2 ^ 31 ∨ 2 ^ 31 ≤ x.toInt + y.toInt) }),
      (.ssub b a d, fun x y => { r := x - y, c := decide (y.toNat ≤ x.toNat), v := decide (x.toInt - y.toInt < -2 ^ 31 ∨ 2 ^ 31 ≤ x.toInt - y.toInt) }),
      (.smul b a d, fun x y => { r := x * y, c := decide (2 ^ 32 ≤ x.toNat * y.toNat), v := decide (x.toInt * y.toInt < -2 ^ 31 ∨ 2 ^ 31 ≤ x.toInt * y.toInt) }),
      (.smulh b a d, fun x y => { r := BitVec.ofInt 32 (x.toInt * y.toInt / 2 ^ 32) }), (.smulhn b a d, fun x y => { r := BitVec.ofNat 32 (x.toNat * y.toNat / 2 ^ 32) }),
      (.smin b a d, fun x y => { r := if x.toInt ≤ y.toInt then x else y }), (.sminn b a d, fun x y => { r := if x.toNat ≤ y.toNat then x else y }),
      (.smax b a d, fun x y => { r := if x.toInt ≤ y.toInt then y else x }), (.smaxn b a d, fun x y => { r := if x.toNat ≤ y.toNat then y else x }),
      (.sand b a d, fun x y => { r := x &&& y }), (.sor b a d, fun x y => { r := x ||| y }), (.sxor b a d, fun x y => { r := x ^^^ y }),
      (.sshl b a d, fun x y => { r := x <<< (y.toNat % 32), c := decide (y.toNat % 32 ≠ 0) && x.getLsbD (32 - y.toNat % 32) }),
      (.sshr b a d, fun x y => { r := x >>> (y.toNat % 32), c := decide (y.toNat % 32 ≠ 0) && x.getLsbD (y.toNat % 32 - 1) }),
      (.sshra b a d, fun x y => { r := x.sshiftRight (y.toNat % 32), c := decide (y.toNat % 32 ≠ 0) && x.getLsbD (y.toNat % 32 - 1) }),
      (.sbfx b a d, fun x y => { r := (x >>> (y.toNat % 32)) &&& BitVec.ofNat 32 (2 ^ (y.toNat / 32 % 32 + 1) - 1) })] : List (Instr × (Word → Word → ScRes))) →
      s.UniReady [a, b] (scDst d) → ∃ t, exec i s = .next t ∧ ScResult d (f (s.uni a) (s.uni b)) s t) ∧
    (∀ f : Word → Word, (i, f) ∈ ([(.sclz b a d, clz), (.spopc b a d, popc), (.smov b a d, fun x => x)] : List (Instr × (Word → Word))) →
      s.UniReady [a] (scDst d) → ∃ t, exec i s = .next t ∧ ScResult d { r := f (s.uni a) } s t) ∧
    (s.UniReady [] (scDst d) →
      (∃ t, exec (.slil imm d) s = .next t ∧ ScResult d { r := ((if d.toNat % 64 = 0x3F then 0 else s.sreg (d.toNat % 64)) &&& 0xFFFF0000) ||| BitVec.ofNat 32 imm.toNat } s t) ∧
      ∃ t, exec (.slih imm d) s = .next t ∧ ScResult d { r := BitVec.ofNat 32 (imm.toNat * 2 ^ 16) } s t)

/-- (R261, R262) Scalar division: results, conditions and V of the borderline cases, an enabled trap following the completed instruction. The pair forms
add and subtract 64-bit values of even/odd s pairs, with Z over all 64 bits and N, C and V at bit 63; with D[5:0] = 62 they write s62 alone, since class 4 never
writes s63 (R260), which is the model's reading (notes/assumptions/8.md); SCMP sets SCC as SSUB with .cc would and writes no register.
Completes: sdiv, sdivn, srem, sremn, saddd, ssubd, scmp. -/
def Obligations.ScalarDivisionAndPairs : Prop :=
  ∀ (s : State) (d : BitVec 7) (a b : BitVec 8),
    (∀ (i : Instr) (zero flow : Word → Word) (signed : Bool) (f : Word → Word → Word), (i, zero, flow, signed, f) ∈ ([
        (.sdiv b a d, fun _ => 0xFFFFFFFF, fun _ => 0x80000000, true, fun x y => BitVec.ofInt 32 (x.toInt.tdiv y.toInt)),
        (.sdivn b a d, fun _ => 0xFFFFFFFF, fun x => x, false, fun x y => BitVec.ofNat 32 (x.toNat / y.toNat)),
        (.srem b a d, fun x => x, fun _ => 0, true, fun x y => BitVec.ofInt 32 (x.toInt.tmod y.toInt)),
        (.sremn b a d, fun x => x, fun x => x, false, fun x y => BitVec.ofNat 32 (x.toNat % y.toNat))] :
          List (Instr × (Word → Word) × (Word → Word) × Bool × (Word → Word → Word))) →
      s.UniReady [a, b] (scDst d) →
        let x := s.uni a
        let y := s.uni b
        ∃ t, exec i s = .next t ∧ ScDone d (if y = 0 then { r := zero x, v := true, flags := flagDZ }
          else if signed ∧ x = 0x80000000 ∧ y = 0xFFFFFFFF then { r := flow x, v := true, flags := flagIV } else { r := f x y }) s t) ∧
    (let n := d.toNat % 64
     (n % 2 = 0 ∨ n = 0x3F) → sPairBad a = false → sPairBad b = false →
      s.UniReady [] (if n = 0x3F then [] else if n = 62 then [62] else [n, n + 1]) → (∀ c ∈ [a, codePlus a 1, b, codePlus b 1], s.pendingIn [] c = false) →
      let x := s.read64 a 0
      let y := s.read64 b 0
      let done (r : BitVec 64) (c v : Bool) (t : State) : Prop :=
        ScalarFrame 4 { s.ent with scc := if d.getLsbD 6 then { e := s.ent.scc.e, v, c, n := r.getLsbD 63, z := decide (r = 0) } else s.ent.scc } 0
          (if n = 0x3F then [] else if n = 62 then [(62, r.setWidth 32)] else [(n, r.setWidth 32), (n + 1, (r >>> 32).setWidth 32)]) s t
      (∃ t, exec (.saddd b a d) s = .next t ∧
        done (x + y) (decide (2 ^ 64 ≤ x.toNat + y.toNat)) (decide (x.toInt + y.toInt < -2 ^ 63 ∨ 2 ^ 63 ≤ x.toInt + y.toInt)) t) ∧
      (∃ t, exec (.ssubd b a d) s = .next t ∧
        done (x - y) (decide (y.toNat ≤ x.toNat)) (decide (x.toInt - y.toInt < -2 ^ 63 ∨ 2 ^ 63 ≤ x.toInt - y.toInt)) t)) ∧
    (s.UniReady [a, b] [] → ∃ t u, exec (.scmp b a) s = .next t ∧ exec (.ssub b a 0x7F) s = .next u ∧ t = u ∧ SWrites s [] t)

/-- (R108, R263, R264) SRD reads every special register that R108 numbers; SWR has the register's effect; team words are written and
added to, the writes of one cycle taking effect the even core's first and in ascending partition order, and keep for the other groups what they held
(R121, notes/assumptions/5.md); a number that R108 rejects, or a write of a read-only one, traps ILLEGAL_OPERAND naming A.
Completes: srd, swr, wset, wadd. -/
def Obligations.SpecialRegisters : Prop :=
  ∀ (s : State) (d : BitVec 7) (a b : BitVec 8) (n : BitVec 4),
    let bad : Host.Outcome State Fault Refusal := .next (s.takeTrap (s.trapHere .illegalOperand (BitVec.ofNat 32 (0x100 + a.toNat))))
    (∀ (r : BitVec 8) (x : Word), (r, x) ∈ ([
      (0x00#8, BitVec.ofNat 32 s.grp.width), (0x01#8, BitVec.ofNat 32 s.grp.gid), (0x02#8, s.team.x), (0x03#8, s.team.y), (0x04#8, s.team.z), (0x05#8, s.team.gx), (0x06#8, s.team.gy),
      (0x07#8, s.team.gz), (0x08#8, BitVec.ofNat 32 s.team.groups), (0x09#8, BitVec.ofNat 32 s.core.num), (0x0A#8, BitVec.ofNat 32 s.arbour), (0x0B#8, BitVec.ofNat 32 (s.core.num % 104 / 8)),
      (0x0C#8, BitVec.ofNat 32 s.grp.loc.part), (0x0D#8, BitVec.ofNat 32 s.team.ctx), (0x0E#8, BitVec.ofNat 32 s.team.queue), (0x0F#8, s.team.launch),
      (0x11#8, s.ent.tickHi), (0x12#8, s.grp.gs), (0x13#8, s.grp.gc), (0x14#8, s.ent.scc.toWord), (0x15#8, s.ent.em.setWidth 32), (0x16#8, (s.ent.em >>> 32).setWidth 32), (0x17#8, s.grp.mc), (0x18#8, s.grp.mc2),
      (0x19#8, s.grp.named), (0x1A#8, BitVec.ofNat 32 s.spbase), (0x1B#8, BitVec.ofNat 32 s.team.scratch), (0x1C#8, BitVec.ofNat 32 (s.team.producer.getD 0xFFFFFFFF)),
      (0x1D#8, match s.grp.rast with | some j => BitVec.ofNat 32 j.draw | none => 0), (0x1E#8, s.grp.seed), (0x20#8, s.grp.treg.cause), (0x21#8, s.grp.treg.pc), (0x22#8, s.grp.treg.first),
      (0x23#8, s.grp.treg.fault), (0x24#8, s.grp.treg.faultLo), (0x25#8, s.grp.treg.faultMid), (0x26#8, s.grp.treg.faultHi), (0x27#8, s.grp.treg.lanesLo), (0x28#8, s.grp.treg.lanesHi),
      (0x29#8, s.grp.treg.data)] : List (BitVec 8 × Word)) →
      s.UniReady [] (scDst d) → ∃ t, exec (.srd b r d) s = .next t ∧ ScResult d { r := x } s t) ∧
    (s.UniReady [] (scDst d) → ∃ t u, exec (.srd b 0x10 d) s = .next t ∧ ScResult d { r := BitVec.ofNat 32 s.dev.tick } s u ∧
      t = { u with ent := { u.ent with tickHi := BitVec.ofNat 32 (s.dev.tick / 2 ^ 32) } }) ∧
    ((a = 0x1F ∨ 0x29 < a.toNat) → exec (.srd b a d) s = bad) ∧
    (∀ (r : BitVec 8) (g : Group) (e : Entity), (r, g, e) ∈ ([
      (0x12#8, { s.grp with gs := s.uni b &&& 0x7F }, s.ent), (0x13#8, { s.grp with gc := s.uni b &&& 0x7F7 }, s.ent), (0x14#8, s.grp, { s.ent with scc := Scc.ofWord (s.uni b) }),
      (0x15#8, s.grp, { s.ent with em := ((s.ent.em >>> 32).setWidth 32 ++ s.uni b) &&& ~~~ s.ent.parked &&& s.live }),
      (0x16#8, s.grp, { s.ent with em := (s.uni b ++ s.ent.em.setWidth 32) &&& ~~~ s.ent.parked &&& s.live }),
      (0x17#8, { s.grp with mc := s.uni b &&& 0xFFFFFF }, s.ent), (0x18#8, { s.grp with mc2 := s.uni b }, s.ent), (0x1E#8, { s.grp with seed := s.uni b }, s.ent)] : List (BitVec 8 × Group × Entity)) →
      s.UniReady [b] [] → exec (.swr b r) s = .next { s with grp := g, ent := e.dirty.finish (s.ent.pc + 4) }) ∧
    (a.toNat ∉ [0x12, 0x13, 0x14, 0x15, 0x16, 0x17, 0x18, 0x1E] → exec (.swr b a) s = bad) ∧
    (s.UniReady [a] [] →
      let done (x : Word) (add : Bool) (t : State) : Prop :=
        let cycle (o : WOld) : Bool := o.reg = n.toNat && o.tick = s.dev.tick
        let place (l : GLoc) : Nat := l.core % 2 * 16 + l.part
        ∀ later earlier, s.team.wold.filter cycle = later ++ earlier → (∀ o ∈ later, place s.grp.loc < place o.by_) → (∀ o, earlier.head? = some o → place o.by_ ≤ place s.grp.loc) →
          let before : Word := match earlier.head?, later.getLast? with
            | some o, _ => o.after
            | none, some o => o.val
            | none, none => s.wreg n.toNat
          let ws := rechain before (later ++ [⟨n.toNat, before, s.dev.tick, s.grp.loc, x, add⟩])
          (∀ k, t.wreg k = if k = n.toNat then lastWrite before ws else s.wreg k) ∧
          t = { s with
            ent := s.ent.dirty.finish (s.ent.pc + 4)
            team := { s.team with w := t.team.w, wold := ws ++ earlier ++ s.team.wold.filter fun o => !cycle o && decide (s.dev.tick < o.tick + s.ticksOf 24) } }
      (∃ t, exec (.wset b a n) s = .next t ∧ done (s.uni a) false t) ∧ ∃ t, exec (.wadd b a n) s = .next t ∧ done (s.uni a) true t)

/-- (R249, R266, R267) A branch whose condition holds continues at PC + 2 × offset, and one whose condition does not continues at PC + 4. CALL pushes PC + 4
and branches, RET pops, JMPI goes to its operand; a full or empty stack traps CALL_DEPTH and an odd target MISALIGN, with no effect.
Completes: bra, brz, brnz, brn, brnn, brc, brnc, bre, brany, brall, call, ret, jmpi. -/
def Obligations.BranchesAndCalls : Prop :=
  ∀ (s : State) (o : BitVec 23) (a : BitVec 8),
    let target := s.ent.pc + BitVec.ofInt 32 (2 * o.toInt)
    let p0 (k : Nat) : Prop := s.active k ∧ (s.grp.lane k).p.getLsbD 0
    (∀ (i : Instr) (taken : Prop), (i, taken) ∈ ([
        (.bra o, True), (.brz o, s.ent.scc.z = true), (.brnz o, s.ent.scc.z = false), (.brn o, s.ent.scc.n = true), (.brnn o, s.ent.scc.n = false),
        (.brc o, s.ent.scc.c = true), (.brnc o, s.ent.scc.c = false), (.bre o, s.ent.scc.e = true), (.brany o, ∃ k < 64, p0 k),
        (.brall o, (∃ k < 64, s.active k) ∧ ∀ k < 64, s.active k → p0 k)] : List (Instr × Prop)) →
      (taken → exec i s = .next (s.finish target)) ∧ (¬ taken → exec i s = .next (s.finish (s.ent.pc + 4)))) ∧
    (s.ent.calls.length < 8 → exec (.call o) s = .next { s with ent := { s.ent with calls := (s.ent.pc + 4) :: s.ent.calls }.finish target }) ∧
    (8 ≤ s.ent.calls.length → exec (.call o) s = .next (s.takeTrap (s.trapHere .callDepth 0))) ∧
    (∀ r l, s.ent.calls = r :: l → exec .ret s = .next { s with ent := { s.ent with calls := l }.finish r }) ∧
    (s.ent.calls = [] → exec .ret s = .next (s.takeTrap (s.trapHere .callDepth 1))) ∧
    (s.UniReady [a] [] →
      ((s.uni a).getLsbD 0 = false → exec (.jmpi a) s = .next (s.finish (s.uni a))) ∧
      ((s.uni a).getLsbD 0 = true → exec (.jmpi a) s = .next (s.takeTrap (s.trapHere .misalign 0 0 ((s.uni a).setWidth 80)))))

/-- (R100, R101, R380) BRV falls through when no active lane has the predicate, moves the entity when all have it, splits into two
entities where a split entry and an entity slot are free, both after what the entity issued before (R148), and otherwise runs the paths serially, trapping when the deferral stack is full.
Completes: brvP0, brvP1, brvP2, brvP3. -/
def Obligations.DivergentBranch : Prop :=
  ∀ (s : State) (o : BitVec 23) (i : Instr) (p : Nat),
    (i, p) ∈ ([(.brvP0 o, 0), (.brvP1 o, 1), (.brvP2 o, 2), (.brvP3 o, 3)] : List (Instr × Nat)) →
    let t := s.predMask p
    let target := s.ent.pc + BitVec.ofInt 32 (2 * o.toInt)
    (t = 0 → exec i s = .next (s.finish (s.ent.pc + 4))) ∧
    (t ≠ 0 → t = s.activeMask → exec i s = .next (s.finish target)) ∧
    (t ≠ 0 → t ≠ s.activeMask → ∀ e n, s.ent.handling = false → s.grp.freeSplit = some e → s.freeEntity = some n →
      let pm := laneMask (fun k => (s.grp.lane k).p.getLsbD p) s.grp.width
      exec i s = .next { s with
        ent := { s.ent with em := s.ent.em &&& ~~~ pm, l := s.ent.l &&& ~~~ pm, parent := some e, idem := none }.finish (s.ent.pc + 4)
        grp := { s.grp with
          split := putAt {} s.grp.split e { valid := true, live := 2, parent := s.ent.parent }
          sibs := { num := n, live := true, pc := target, em := t, l := s.ent.l &&& pm, gone := s.ent.gone, scc := s.ent.scc, calls := s.ent.calls, parent := some e, tickHi := s.ent.tickHi, prior := (s.grp.earlier s.ent).map Op.id } :: s.grp.sibs } }) ∧
    (t ≠ 0 → t ≠ s.activeMask → (s.ent.handling = true ∨ s.grp.freeSplit = none ∨ s.freeEntity = none) →
      (s.ent.defs.length < 8 → exec i s = .next { s with ent := { s.ent with
        em := t &&& s.live, idem := none, defs := { dpc := s.ent.pc + 4, dmask := s.ent.em &&& ~~~ t, jpc := none, half := false } :: s.ent.defs }.finish target }) ∧
      (8 ≤ s.ent.defs.length → exec i s = .next (s.takeTrap (s.trapHere .illegalInstr 1))))

/-- (R265, R268) EMGET copies EM to a pair, EMSET sets EM within L and outside the parked lanes, EMAND narrows it; BADD, BSET and BGET
act on the 80-bit base registers; nothing else changes.
Completes: emget, emset, emand, badd, bset, bget. -/
def Obligations.MaskAndBaseForms : Prop :=
  ∀ (s : State) (a b k : BitVec 8) (k6 : BitVec 6) (n : BitVec 4),
    let parked := s.ent.defs.foldl (fun m d => m ||| d.dmask) 0
    (s.UniReady [] [k.toNat, k.toNat + 1] → ∃ t, exec (.emget k) s = .next t ∧
      ScalarFrame 4 s.ent 0 [(k.toNat, s.ent.em.setWidth 32), (k.toNat + 1, (s.ent.em >>> 32).setWidth 32)] s t) ∧
    (s.UniReady [a, b] [] →
      exec (.emset b a) s = .next { s with ent := { s.ent with em := (s.uni b ++ s.uni a) &&& ~~~ parked &&& s.live }.finish (s.ent.pc + 4) } ∧
      exec (.emand b a) s = .next { s with ent := { s.ent with em := s.ent.em &&& (s.uni b ++ s.uni a) &&& s.live }.finish (s.ent.pc + 4) }) ∧
    (s.grp.pendingDest (.b n.toNat) = false →
      let sets (x : VAddr) (t : State) : Prop := (∀ j, t.breg j = if j = n.toNat then x else s.breg j) ∧
        t = { s with ent := s.ent.finish (s.ent.pc + 4), grp := { s.grp with b := t.grp.b } }
      (s.UniReady [b] [] → ∃ t, exec (.badd b n) s = .next t ∧ sets (s.breg n.toNat + BitVec.ofInt 80 (s.uni b).toInt) t) ∧
      (s.UniReady [] [k6.toNat, k6.toNat + 1, k6.toNat + 2] →
        (∃ t, exec (.bset k6 n) s = .next t ∧ sets ((s.sreg (k6.toNat + 2)).setWidth 16 ++ s.sreg (k6.toNat + 1) ++ s.sreg k6.toNat) t) ∧
        ∃ t, exec (.bget k6 n) s = .next t ∧ ScalarFrame 4 s.ent 0 [(k6.toNat, (s.breg n.toNat).setWidth 32), (k6.toNat + 1, (s.breg n.toNat >>> 32).setWidth 32),
          (k6.toNat + 2, (s.breg n.toNat >>> 64).setWidth 32)] s t))

/-- (R125, R139, R155, R156, R269, R270, R271, R272) NOP only moves on; WAITC, FENCE and WFENCE complete when the counts allow it and wait for
them otherwise, FENCE with the code bit also for the line fills requested before it on the cores of its scope (R302), and WFENCE makes the
group's writes of team words visible; SLEEP waits for its wake tick; YIELD ranks its entity last; IDEM sets a clean rollback point.
Completes: nop, waitc, fence, wfence, yield, sleep, idem. -/
def Obligations.WaitForms : Prop :=
  ∀ (s : State) (a b p : BitVec 8) (x : BitVec 3) (q : BitVec 2),
    let waits (r : WaitReason) : State := { s with ent := { s.ent with status := .waiting r } }
    let drained : Prop := ∀ y ∈ [Path.vm, .sp, .ga, .mq], s.grp.count y = 0
    exec .nop s = .next (s.finish (s.ent.pc + 4)) ∧
    (s.UniReady [b] [] → ∀ y, (p.toNat, y) ∈ [(0, Path.vm), (1, .sp), (2, .xc), (3, .ga), (4, .mq), (5, .rs)] →
      exec (.waitc b p) s = .next (if s.grp.count y ≤ (s.uni b).toNat then s.finish (s.ent.pc + 4) else waits .counter)) ∧
    (drained → exec (.fence 0 x q) s = .next (s.finish (s.ent.pc + 4)) ∧ ∃ t, exec .wfence s = .next t ∧ (∀ o ∈ t.team.wold, o.by_ ≠ s.grp.loc) ∧
      t.team.wold.Sublist s.team.wold ∧ t = { s with ent := s.ent.finish (s.ent.pc + 4), team := { s.team with wold := t.team.wold } }) ∧
    (¬ drained → exec (.fence 0 x q) s = .next (waits .counter) ∧ exec .wfence s = .next (waits .counter)) ∧
    (let first := s.ent.wd.fills.getD s.nextOp
     let due : Prop := ∃ k ∈ s.allCores, s.inScope x.toNat k.num ∧ ∃ f ∈ k.fills, f.id < first
     (drained → ¬ due → exec (.fence 1 x q) s = .next (s.finish (s.ent.pc + 4))) ∧
     ((¬ drained ∨ due) → exec (.fence 1 x q) s = .next { s with ent := { s.ent with wd := { s.ent.wd with fills := some first }, status := .waiting .counter } })) ∧
    exec .yield s = .next { s with ent := { s.ent.finish (s.ent.pc + 4) with yielded := true } } ∧
    (s.ent.wd.wake = none → s.UniReady [a] [] → exec (.sleep a) s = .next (
      if s.uni a = 0 then { s with ent := { s.ent.finish (s.ent.pc + 4) with yielded := true } }
      else { s with ent := { s.ent with wd := { s.ent.wd with wake := some (s.dev.tick + (s.uni a).toNat) }, status := .waiting .sleep } })) ∧
    (∀ w, s.ent.wd.wake = some w → exec (.sleep a) s = .next (if w ≤ s.dev.tick then s.finish (s.ent.pc + 4) else waits .sleep)) ∧
    exec .idem s = .next { s with ent := { s.ent with
      failedRegs := []
      idem := some { pc := s.ent.pc + 4, em := s.ent.em, scc := s.ent.scc, calls := s.ent.calls, defs := s.ent.defs, scopes := s.grp.scopes, dirty := false } }.finish (s.ent.pc + 4) }

/-- (R97, R101, R102, R100, R380, R382) EXIT of a group's last entity makes the group EXITED; of one of several it leaves its split entry, lets a waiting sibling resume past its
JOIN, or frees an entry whose other child is gone, which counts in its parent; from a trap handler it does the same without deferral entries. At a deferral entry it ends its lanes and
runs the other path, or goes on past a half one, or exits again where that has no JOIN. JOIN without a split falls through, waits for its sibling's JOIN or, at another PC, for its exit,
fuses with it and performs the JOIN again at a parent entry, or takes up the other half.
Completes: exit, join. -/
def Obligations.ExitAndJoin : Prop :=
  ∀ s : State,
    (s.ent.handling = false → s.ent.defs = [] → s.grp.sibs = [] →
      exec .exit s = .next { s with ent := { s.ent with live := false }, grp := { s.grp with lastExit := s.ent.pc, gstate := .exited } }) ∧
    (s.ent.handling = true → s.grp.sibs = [] → exec .exit s = .next { s with
      ent := { s.ent with live := false, handling := false, defs := [] }
      grp := { s.grp with lastExit := s.ent.pc, gstate := .exited, debugHeld := false, trapTick := none } }) ∧
    (s.ent.handling = true → exec .exit s = exec .exit { s with
      ent := { s.ent with handling := false, defs := [] }, grp := { s.grp with gstate := .ready, debugHeld := false, trapTick := none } }) ∧
    (∀ e l q, s.ent.handling = false → s.ent.defs = [] → s.grp.sibs = e :: l → s.ent.parent = some q → s.grp.split.length ≤ 8 →
      let k := s.grp.split.getD q {}
      let k' := { k with live := k.live - 1, wait := k.wait && decide (k.waiter ≠ s.ent.num) }
      let left : State := { s with ent := e, grp := { s.grp with lastExit := s.ent.pc, sibs := l, split := putAt {} s.grp.split q k' } }
      (2 ≤ k.live → k'.wait = false → exec .exit s = .next left) ∧
      (k.live = 2 → k'.wait = true → ∀ u, left.focusEnt k.waiter = some u → u.ent.defs = [] → u.ent.parent = some q →
        let free : State := { u with ent := { u.ent with parent := k.parent }, grp := { u.grp with split := putAt {} u.grp.split q {} } }
        exec .exit s = if k.parent = none then .next (free.finish (u.ent.pc + 4)) else exec .join free) ∧
      (k.live ≤ 1 → exec .exit s = exec .exit { s with ent := { s.ent with parent := k.parent }, grp := { s.grp with split := putAt {} s.grp.split q {} } })) ∧
    (∀ e l, s.ent.handling = false → s.ent.defs = [] → s.grp.sibs = e :: l → s.ent.parent = none →
      exec .exit s = .next { s with ent := e, grp := { s.grp with lastExit := s.ent.pc, sibs := l } }) ∧
    (∀ d r, s.ent.handling = false → s.ent.defs = d :: r → d.half = false →
      exec .exit s = .next { s with
        ent := { s.ent with gone := s.ent.gone ||| s.ent.em, em := d.dmask &&& (s.ent.l &&& ~~~ (s.ent.gone ||| s.ent.em)), defs := { d with dmask := 0, jpc := none, half := true } :: r }.finish d.dpc
        grp := { s.grp with lastExit := s.ent.pc } }) ∧
    (∀ d r j, s.ent.handling = false → s.ent.defs = d :: r → d.half = true → d.jpc = some j →
      exec .exit s = .next { s with
        ent := { s.ent with gone := s.ent.gone ||| s.ent.em, em := d.dmask &&& (s.ent.l &&& ~~~ (s.ent.gone ||| s.ent.em)), defs := r }.finish (j + 4)
        grp := { s.grp with lastExit := s.ent.pc } }) ∧
    (∀ d r, s.ent.handling = false → s.ent.defs = d :: r → s.ent.defs.length ≤ 8 → d.half = true → d.jpc = none →
      exec .exit s = exec .exit { s with
        ent := { s.ent with gone := s.ent.gone ||| s.ent.em, em := d.dmask &&& (s.ent.l &&& ~~~ (s.ent.gone ||| s.ent.em)), defs := r }, grp := { s.grp with lastExit := s.ent.pc } }) ∧
    (s.ent.defs = [] → s.ent.parent = none → exec .join s = .next (s.finish (s.ent.pc + 4))) ∧
    (∀ d r, s.ent.defs = d :: r → d.half = true →
      exec .join s = .next { s with ent := { s.ent with em := (s.ent.em ||| d.dmask) &&& s.live, defs := r }.finish (s.ent.pc + 4) }) ∧
    (∀ d r, s.ent.defs = d :: r → d.half = false →
      exec .join s = .next { s with ent := { s.ent with em := d.dmask &&& s.live, defs := { d with dmask := s.ent.em, jpc := some s.ent.pc, half := true } :: r }.finish d.dpc }) ∧
    (∀ e, s.ent.defs = [] → s.ent.parent = some e → 1 < (s.grp.split.getD e {}).live → (s.grp.split.getD e {}).wait = false →
      exec .join s = .next { s with
        ent := { s.ent with status := .waiting .join }
        grp := { s.grp with split := putAt {} s.grp.split e { s.grp.split.getD e {} with wait := true, waitpc := s.ent.pc, waiter := s.ent.num } } }) ∧
    (∀ e, s.ent.defs = [] → s.ent.parent = some e → 1 < (s.grp.split.getD e {}).live → (s.grp.split.getD e {}).wait = true →
      ((s.grp.split.getD e {}).waiter = s.ent.num ∨ (s.grp.split.getD e {}).waitpc ≠ s.ent.pc) → exec .join s = .next { s with ent := { s.ent with status := .waiting .join } }) ∧
    (∀ e w l m, s.ent.defs = [] → s.ent.parent = some e → (s.grp.split.getD e {}).live = 2 → (s.grp.split.getD e {}).wait = true →
      (s.grp.split.getD e {}).waiter ≠ s.ent.num → (s.grp.split.getD e {}).waitpc = s.ent.pc → w.num = (s.grp.split.getD e {}).waiter →
      s.grp.sibs = l ++ w :: m → (∀ y ∈ l, y.num ≠ w.num) → w.defs = [] → w.pc = s.ent.pc → s.grp.split.length ≤ 8 →
      let up := (s.grp.split.getD e {}).parent
      let fused : State := { s with
        ent := { w with em := w.em ||| s.ent.em, l := w.l ||| s.ent.l, gone := w.gone ||| s.ent.gone, idem := none, deferred := w.deferred ++ s.ent.deferred, prior := w.prior ++ s.ent.prior, parent := up, status := .ready }
        grp := { s.grp with
          sibs := l ++ m, split := putAt {} s.grp.split e {}
          ops := s.grp.ops.map fun o => if o.ent = s.ent.num then { o with ent := w.num } else o } }
      exec .join s = if up = none then .next (fused.finish (s.ent.pc + 4)) else exec .join fused)

/-- (R117, R118, R303) SCOPE.OPEN adds its granules on top of the window, or waits with reason SCOPE, or traps SCOPE_FAULT; SCOPE.CLOSE
releases the latest scope; the registers below the old window keep their values, those granted read 0, and the released ones are gone; ICINV drops lines.
Completes: scopeOpen, scopeClose, icinv. -/
def Obligations.ScopeForms : Prop :=
  ∀ (s : State) (a b : BitVec 8), s.UniReady [a] [] →
    let n := (s.uni a).toNat
    let bad : Prop := n = 0 ∨ 7 < n ∨ s.grp.peak < s.grp.window + 8 * n ∨ 4 ≤ s.grp.scopes.length
    (bad → exec (.scopeOpen a) s = .next (s.takeTrap (s.trapHere .scopeFault))) ∧
    (¬ bad → s.scopeGrant n = none → exec (.scopeOpen a) s = .next { s with ent := { s.ent with status := .waiting .scope } }) ∧
    (¬ bad → ∀ r, s.scopeGrant n = some r → ∃ t, exec (.scopeOpen a) s = .next t ∧ t.grp.window = s.grp.window + 8 * n ∧
      (∀ i < s.grp.width, ∀ k, (t.grp.lane i).reg k = if k < s.grp.window then (s.grp.lane i).reg k else 0) ∧
      (∀ i < s.grp.width, (t.grp.lane i).q = (s.grp.lane i).q ∧ (t.grp.lane i).p = (s.grp.lane i).p ∧ (t.grp.lane i).use = (s.grp.lane i).use) ∧
      t = { s with
        ent := s.ent.dirty.finish (s.ent.pc + 4)
        grp := { s.grp with scopes := n :: s.grp.scopes, fromReserve := s.grp.fromReserve || r, lanes := t.grp.lanes } }) ∧
    (s.grp.scopes = [] → exec .scopeClose s = .next (s.takeTrap (s.trapHere .scopeFault))) ∧
    (∀ m r, s.grp.scopes = m :: r → ∃ t, exec .scopeClose s = .next t ∧ t.grp.window + 8 * m = s.grp.window ∧
      (∀ i < s.grp.width, ∀ k < t.grp.window, (t.grp.lane i).reg k = (s.grp.lane i).reg k) ∧
      (∀ i < s.grp.width, (t.grp.lane i).q = (s.grp.lane i).q ∧ (t.grp.lane i).p = (s.grp.lane i).p ∧ (t.grp.lane i).use = (s.grp.lane i).use) ∧
      t = { s with
        ent := s.ent.dirty.finish (s.ent.pc + 4)
        grp := { s.grp with scopes := r, fromReserve := t.grp.fromReserve, lanes := t.grp.lanes } }) ∧
    (s.UniReady [b] [] → exec (.icinv b a) s = .next { s with
      ent := s.ent.finish (s.ent.pc + 4), core := s.core.icinv s.team.ctx s.team.cwin (s.uni a) (s.uni b) })

/-! ## Traps (25_traps_debug.md) -/

/-- (R84, R376, R379, R380, R381, R383, R391) Taking a trap writes the trap registers and the frame and makes the group TRAPPED. Routed in-group, it clears SCC,
goes to HOFF and names the handler bank; a trap that DMASK selects holds the group for the debug handler, the PC and SCC as they stood; with the trace on, an
entry appends a record of KIND 6. One that no handler takes fails the group's open launch with ERRCODE 0x06 and its queue, and kills its running teams, their
groups keeping their registers; a launch without a draw leaves every other team's groups as they are. While another entity's trap holds the
group, a trap is recorded as pending, the first that comes, and nothing else changes. -/
def Obligations.TrapEntry : Prop :=
  ∀ (s : State) (t : Trap),
    let c := s.ctxOn s.arbour s.team.ctx
    let code := t.code.num
    let cause := BitVec.ofNat 32 (s.ent.num % 32 * 256 + code)
    let regs : TrapRegs := {
      cause, pc := t.tpc, first := t.first, fault := t.fault, faultLo := t.addr.setWidth 32, faultMid := (t.addr >>> 32).setWidth 32
      faultHi := (t.addr >>> 64).setWidth 32, lanesLo := t.lanes.setWidth 32, lanesHi := (t.lanes >>> 32).setWidth 32, data := t.data }
    let frame : Frame := { pc := t.tpc, em := s.ent.em, scc := s.ent.scc, calls := s.ent.calls, depth := s.ent.defs.length, wd := s.ent.wd }
    let traced (dev : Device) : Prop := (c.trace = false ∨ s.grp.agent = true → dev = s.dev) ∧
      (c.trace = true → s.grp.agent = false → Traced s.team.ctx
        { kind := 6, pc := t.tpc, d0 := t.tpc, d1 := cause, launch := s.team.launch, core := s.core.num, part := s.grp.loc.part, gid := s.grp.gid, ent := s.ent.num }
        s { s with dev })
    (s.grp.gstate = .trapped → s.ent.handling = false →
      s.takeTrap t = { s with ent := { s.ent with pendingTrap := if s.ent.pendingTrap = none then some t else s.ent.pendingTrap } }) ∧
    (s.grp.gstate ≠ .trapped → s.ent.handling = false → c.dmask.getLsbD code = false → c.hmask.getLsbD code = true → t.code ≠ .regParityFatal →
      ∃ dev, s.takeTrap t = { s with
          dev
          grp := { s.grp with gstate := .trapped, trapper := s.ent.num, trapTick := some s.dev.tick, treg := regs }
          ent := { s.ent with frame, status := .ready, wd := {}, promoted := none, yielded := false, handling := true, scc := {}, pc := c.hoff } } ∧
        traced dev ∧
        ∀ n, 56 ≤ n → n ≤ 63 → (s.takeTrap t).sreg n = s.grp.hbank.getD (n - 56) 0) ∧
    (s.grp.gstate ≠ .trapped → s.ent.handling = false → c.dmask.getLsbD code = true →
      ∃ dev, s.takeTrap t = { s with
          dev
          grp := { s.grp with gstate := .trapped, trapper := s.ent.num, trapTick := some s.dev.tick, treg := regs, debugHeld := true }
          ent := { s.ent with frame, status := .ready, wd := {}, promoted := none, yielded := false } } ∧
        traced dev) ∧
    ∀ l, (s.ent.handling = true ∨ (s.grp.gstate ≠ .trapped ∧ c.dmask.getLsbD code = false ∧ (c.hmask.getLsbD code = false ∨ t.code = .regParityFatal))) →
      s.grp.agent = false → s.launch? s.team.launch = some l → l.state ≠ .done → l.state ≠ .failed →
      let u := s.takeTrap t
      u.launch? s.team.launch = some { l with state := .failed, err := 6, holders := [] } ∧
        (∀ id, id ≠ s.team.launch → u.launch? id = s.launch? id) ∧
        ((s.queue l.queue).state ∈ [.idle, .active, .stalled] → (u.queue l.queue).state = .error ∧ (u.queue l.queue).err = 5) ∧
        (∀ k ∈ u.allTeams, k.launch = s.team.launch → k.serial ≠ 0 → k.killed = true) ∧ u.grp.treg = regs ∧
        (s.team.serial ≠ 0 → s.grp.team = s.team.serial → (∀ w ∈ s.dev.draws, w.id ≠ s.team.launch) →
          u.team = { s.team with err := 6, killed := true, barriers := [] } ∧
          u.ent = { s.ent with
            frame := if s.ent.handling then s.ent.frame else frame
            status := .ready, wd := {}, promoted := none, yielded := false, live := false } ∧
          u.grp = { s.grp with
            gstate := .exited, killed := true, trapper := s.ent.num, trapTick := some s.dev.tick, treg := regs, debugHeld := false, pm := []
            sibs := s.grp.sibs.map fun e => { e with live := false }
            ops := u.grp.ops } ∧
          (u.grp.ops.map fun o => { o with auto := true }) = (s.grp.ops.map fun o => { o with auto := true }) ∧
          ∀ g ∈ (s.core :: s.cores).flatMap Core.groups, (g.agent = true ∨ ∀ m ∈ s.allTeams, m.serial = g.team → m.launch ≠ s.team.launch ∨ m.serial = 0) →
            g ∈ (u.core :: u.cores).flatMap Core.groups)

/-- (R273; the rest of it by R378 and R382) TRAP is a completed SOFT_TRAP, and code 255 a precise BRK; RTE restores PC, EM, SCC and the call stack from the
frame, drops the deferral entries the handler pushed and lets the group go on; outside a handler it traps ILLEGAL_INSTR. EXIT in a
handler ends the handling and the entity.
Completes: trap, rte, reservedEncoding. -/
def Obligations.TrapAndReturn : Prop :=
  ∀ (s : State) (c : BitVec 8),
    (c ≠ 0xFF → exec (.trap c) s = .next ((s.finish (s.ent.pc + 4)).takeTrap
      { code := .softTrap, tpc := s.ent.pc + 4, first := s.ent.pc, data := BitVec.ofNat 32 c.toNat })) ∧
    exec (.trap 0xFF) s = .next (s.takeTrap { code := .brk, tpc := s.ent.pc, first := s.ent.pc, data := 0xFF }) ∧
    (s.ent.handling = true → exec .rte s = .next { s with
      ent := { s.ent with
        handling := false, pc := s.ent.frame.pc, em := s.ent.frame.em &&& s.live, scc := s.ent.frame.scc, calls := s.ent.frame.calls
        defs := s.ent.defs.drop (s.ent.defs.length - s.ent.frame.depth), status := .ready, wd := s.ent.frame.wd
        skipCmp := s.ent.skipCmp || s.grp.treg.cause.setWidth 8 == 0x15#8 }
      grp := { s.grp with gstate := .ready, debugHeld := false, trapTick := none } }) ∧
    (s.ent.handling = false → exec .rte s = .next (s.takeTrap (s.trapHere .illegalInstr 0))) ∧
    (s.ent.handling = true → s.grp.sibs = [] → exec .exit s = .next { s with
      ent := { s.ent with handling := false, defs := [], live := false }
      grp := { s.grp with gstate := .exited, debugHeld := false, trapTick := none, lastExit := s.ent.pc } }) ∧
    ∀ w : Word, exec (.reservedEncoding w) s = .next (s.takeTrap (s.trapHere .illegalInstr 0))

/-- (R380, R382) Taking a trap in the group's handler and returning at once restores the entity's PC to the resume PC and its EM, SCC,
call stack and deferral stack, and makes the group READY with its own s56 to s63. -/
def Obligations.TrapThenReturnRestores : Prop :=
  ∀ (s : State) (t : Trap),
    let c := s.ctxOn s.arbour s.team.ctx
    s.grp.gstate ≠ .trapped → s.ent.handling = false → s.ent.em &&& s.live = s.ent.em → c.dmask.getLsbD t.code.num = false → c.hmask.getLsbD t.code.num = true → t.code ≠ .regParityFatal →
    ∃ u, exec .rte (s.takeTrap t) = .next u ∧ u.ent.pc = t.tpc ∧ u.ent.em = s.ent.em ∧ u.ent.scc = s.ent.scc ∧ u.ent.calls = s.ent.calls ∧
      u.ent.defs = s.ent.defs ∧ u.ent.handling = false ∧ u.grp.gstate = .ready ∧ ∀ n < 64, u.sreg n = s.sreg n

/-! ## Encoding, fetching and stepping (16_encoding.md) -/

/-- (R127, R206, R226, R253, R256, R292, R312 and the worked encodings of the other chapters) Words that the spec writes out decode to
the instructions they stand for. -/
def Obligations.WorkedEncodingsDecode : Prop :=
  ∀ p ∈ ([
    (0x02010651, .idiv 2 1 3), (0x3FD00403, .fadd 0x3F 0xD0 2), (0x401000F5, .limh 0x4010 0), (0x28027ED5, .fmulk 0x28 2 0x3F), (0x01000C67, .bilv3 1 0 6), (0x00000367, .fcmpun 0 0 1),
    (0x8B027F97, .cvt8 1 0 0 11 2 0x3F), (0xA1518219, .ssub 0xA1 0x51 0x41), (0x3F1407C9, .srd 0x3F 0x14 3), (0xFFFFF82D, .brnz 0x7FFFFC), (0x0040804B, .ldw 0 0 0 0x40 0x40),
    (0x11A2093B, .ldud 0 1 1 0xA2 4), (0x00A1120F, .scopeOpen 0xA1), (0x0032220F, .fence 1 4 2), (0x0001041F, .xshf 0 1 2), (0x01050C6F, .xred 1 5 6), (0x80244A7F, .xscan 1 0 0x24 0x25),
    (0x180800BF, .mma 0x18 8), (0x03A104CF, .accRd 0 0xA1 2), (0x015E30DF, .fragLdb 0x5E 0x18), (0x1600FEEF, .permPack 1 0), (0x1000FEFF, .permAcc 1 0), (0x0402471F, .atom64 4 2 2 3),
    (0x0301053F, .cas 3 1 0 0 2), (0x003F014F, .ringInit 0x3F), (0xA23F015F, .barInit 0xA2 0x3F), (0x0256016F, .xcopyIn 0 2 0x56), (0x20A1019F, .ssetInit 2 0 0xA1), (0x304001AF, .rastEmit 3 0 0x40),
    (0x000107BF, .treemask 0 1 3), (0x000003CF, .privTeamdone), (0x020005EF, .ordTry 2 0), (0x1078, .fmul16 2 3), (0x803E, .sel16 16 1)] : List (Nat × Instr)),
    decode p.1 = .ok p.2

/-- (R237 to R256) The decoder reads back every instruction of the table that the encoder writes: no bit of any encoding is dropped. -/
def Obligations.DecodeOfEncode : Prop := ∀ i : Instr, Laws.Coding.Statement i

/-- (R240, R242) A word that the decoder accepts is the encoding of a well-formed instruction, and of no other: reserved opcodes, fields
that must be zero and literals outside their sets are refused. -/
def Obligations.EncodeOfDecode : Prop :=
  ∀ (w : Nat) (i : Instr), decode w = .ok i → i.wf = true ∧ encode i = some (w % 2 ^ (8 * wordLen w))

/-- (R97, R98, R237, R240, R347, R381, R388) A step runs the decoded instruction: an entity in front whose turn it is, that may issue and whose cached line
holds its bytes, executes exactly the instruction that they decode to, ILLEGAL_INSTR where they decode to none. Before it come a pending trap of its group, what an
ordered section's form holds, and a comparator, which acts where the instruction would issue and not where it still waits: that it does not act while the
instruction waits, and what a section's form holds, are the model's readings (notes/assumptions/71.md). Where no turn is
listed and no event falls due first, the entity that ranks first issues, READY or with its wait ended, and a tick passes after it: that is the model's order (notes/assumptions/2.md). -/
def Obligations.StepRunsDecodedInstruction : Prop :=
  ∀ (s : State) (n w : Nat) (i : Instr),
    s.team.serial = s.grp.team → s.grp.loc.core = s.core.num → s.dev.devstate = .ready → s.canIssue s.stowGroup s.ent = true → s.ent.status ≠ .faultwait →
    s.fetch = .ok (n, w) → (decode w = .ok i ∨ ((∃ e, decode w = .error e) ∧ i = .reservedEncoding (BitVec.ofNat 32 w))) →
    (∀ r, s.turns = .issue ⟨s.grp.loc, s.ent.num⟩ :: r →
      let u : State := { s with turns := r }
      (s.nextTrap = none → s.orderHold = none → s.comparator = none → step s = exec i u) ∧
      (s.nextTrap ≠ none → step s = exec (.trapEntry s.grp.loc) u) ∧
      (∀ x, s.nextTrap = none → s.orderHold = some x → step s = .next { u with ent := { s.ent with status := .waiting x } }) ∧
      ∀ k, s.nextTrap = none → s.orderHold = none → s.comparator = some k →
        (stillWaits s.grp.loc s.ent.num (exec i u) = true → step s = exec i u) ∧
        (stillWaits s.grp.loc s.ent.num (exec i u) = false → step s = exec (.pcComparatorMatch k.index) u)) ∧
    (s.turns = [] → (s.internalEvents.find? fun k => goesOn (exec k s)) = none → s.nextIssue = some ⟨s.grp.loc, s.ent.num⟩ →
      s.nextTrap = none → s.orderHold = none → s.comparator = none → ∀ t, exec i s = .next t →
        (t.dev.stopped ≠ none → step s = .next t) ∧ (t.dev.stopped = none → step s = .next (t.advance 1)) ∧
        (t.dev.stopped = none → t.stopTick = none → (t.dev.tick + 1) % 65536 ≠ 0 → step s = .next { t with dev := { t.dev with tick := t.dev.tick + 1 } }))

/-- (R16, R176, R381, R390, R391, R395, R396, R397, R399) A turn of the list runs its event where the module's state lets it happen, and not otherwise; a host write
is the command or register of its offset; ticks pass only in a module that has not stopped, up to its stop tick; a poisoned byte arises where the list says
so; an outstanding access is performed where it may be; a line of memory as it stands is kept for a later fetch of a core (R239); a module after reset boots first.
The list of turns is the model's own way to say what happens when (notes/assumptions/2.md), with the turns of accesses (notes/assumptions/5.md), of bit errors
(notes/assumptions/60.md) and of kept lines (notes/assumptions/64.md); that MB_CMD then holds what was last written is its choice (notes/assumptions/70.md). -/
def Obligations.StepTakesTurns : Prop :=
  ∀ (s : State) (r : List Turn), s.team.serial = s.grp.team →
    let u : State := { s with turns := r }
    (∀ i, s.turns = .event i :: r → (∀ o v, i ≠ .registerWrite o v) →
      (s.allows i = true → u.promotable i = true → step s = exec i u) ∧ ((s.allows i = false ∨ u.promotable i = false) → step s = .refused .notDue)) ∧
    (∀ (o : Nat) (v : BitVec 64), s.turns = .event (.registerWrite o v) :: r →
      (o = 0 → step s = exec (mbCommand (v.setWidth 16)) { u with dev := { s.dev with mb := { s.dev.mb with cmd := v.toNat % 2 ^ 16 } } }) ∧
      (o = 0x100 → step s = exec (.mbStatusWrite v) u) ∧ (o = 0x9018 → step s = exec (.tflagsWrite v) u) ∧
      (o ≠ 0 → o ≠ 0x100 → o ≠ 0x9018 → step s = exec (.registerWrite o v) u)) ∧
    (∀ e, (s.turns = .issue e :: r ∨ s.turns = .also e :: r) → s.dev.devstate ≠ .ready → step s = .refused .notDue) ∧
    (∀ g op k, s.turns = .perform g op k :: r →
      (s.dev.devstate ≠ .ready → step s = .refused .notDue) ∧
      (s.dev.devstate = .ready → ∀ v, u.focusGroup g = some v → step s = match v.perform op k with
        | some t => .next t
        | none => .refused .notDue)) ∧
    (∀ core ctx va pa, s.turns = .version core ctx va :: r → s.dev.devstate = .ready → core < 832 → va.toNat % 128 = 0 →
      (s.translate (s.coreOf core).itlb (s.ctx ctx) (core / 104) { x := true } va.toNat).1 = .ok pa → s.poisonedAt pa 128 = false →
      ∃ t, step s = .next t ∧ (t.coreOf core).versions = ⟨ctx, va, s.mem.readBytes pa 128⟩ :: (s.coreOf core).versions ∧ (∀ c, c ≠ core → t.coreOf c = s.coreOf c) ∧
        t.dev = s.dev ∧ t.turns = r) ∧
    (∀ n, s.turns = .pass n :: r → s.dev.stopped = none → ∃ t, step s = .next t ∧
      (s.stopTick = none → s.dev.salt = [] → s.dev.tick / 65536 = (s.dev.tick + n) / 65536 → t = { u with dev := { s.dev with tick := s.dev.tick + n } }) ∧
      (∀ k, s.stopTick = some k → k < s.dev.tick + n → t.dev.stopped = some k ∧ t.dev.tick = max s.dev.tick k ∧ t.dev.devstate = .stopped ∧
        t = { u with dev := { s.dev with tick := t.dev.tick, stopped := t.dev.stopped, stopAt := none, devstate := .stopped, mb := t.dev.mb, msix := t.dev.msix } })) ∧
    (∀ n, s.turns = .pass n :: r → s.dev.stopped ≠ none → step s = .fault .frozen) ∧
    (∀ a, s.turns = .upset (.memory a) :: r → s.dev.devstate = .ready → ∃ t, step s = .next t ∧ a ∈ t.dev.poison ∧
      (∀ b, b ≠ a → (b ∈ t.dev.poison ↔ b ∈ s.dev.poison)) ∧ t = { u with dev := { s.dev with poison := t.dev.poison } }) ∧
    (s.turns = [] → s.dev.devstate = .boot → step s = exec .resetRelease s) ∧
    (s.turns = [] → (s.dev.devstate = .stopped ∨ s.dev.devstate = .failsafe) → step s = .fault .frozen)

/-- (R12, R81, R376, R390, R393, R397, R403) The module right after reset: DEVSTATE BOOT, SLOT, BOOTERR, BUSY, RSVW and RESULT 0, TFLAGS 0, the tick at
0, no context, queue or port in use, each core's agent in its slot with entity 31, its trap registers 0. The other values of State.reset
are the model's (notes/assumptions/10.md), and so is the canonical form of storage, which holds then (notes/assumptions/4.md). -/
def Obligations.ResetValues : Prop :=
  let d := State.reset.dev
  d.devstate = .boot ∧ d.slot = 0 ∧ d.booterr = 0 ∧ d.mb.busy = false ∧ d.mb.rsvw = false ∧ d.mb.result = 0 ∧ d.power.hot = false ∧ d.power.overcap = false ∧ d.tick = 0 ∧ d.stopped = none ∧
    (∀ n, (State.reset.ctx n).state = .free) ∧ (∀ n, (State.reset.queue n).state = .unmapped) ∧ (∀ n, (State.reset.port n).state = .down) ∧
    (∀ c, ∃ k, State.reset.focus ⟨c, 0, 15⟩ 31 = some k ∧ k.core.num = c ∧ k.grp.agent = true ∧ k.grp.treg = {} ∧ k.ent.live = true ∧ k.ent.num = 31) ∧ State.reset.Canonical

/-! ## Invariants -/

/-- (R176; notes/assumptions/4.md: the canonical form is the model's own) Memory, the recovery window and every scratchpad keep their canonical
form in every step, and so does the flash (R393): addresses rise and no byte equal to what an unlisted address reads as is listed. -/
def Obligations.CanonicalKeptByEveryStep : Prop := ∀ s t : State, s.Canonical → step s = .next t → t.Canonical

/-- (R391, R399, R402) Only DEV_RESET, or the removal of power, leaves STOPPED or FAILSAFE: any other step that goes on keeps the tick, the stop
tick and DEVSTATE. -/
def Obligations.StoppedUntilReset : Prop :=
  ∀ s t : State, (s.dev.devstate = .stopped ∨ s.dev.devstate = .failsafe) → s.dev.stopped ≠ none → step s = .next t →
    (∃ r, s.turns = .event .devReset :: r ∨ s.turns = .event .powerLoss :: r ∨ ∃ v : BitVec 64, s.turns = .event (.registerWrite 0 v) :: r ∧ v.setWidth 16 = (0x05 : BitVec 16)) ∨
    (t.dev.tick = s.dev.tick ∧ t.dev.stopped = s.dev.stopped ∧ t.dev.devstate = s.dev.devstate)

/-! ## Loads, stores and atomics (20_isa_memory.md) -/

/-- (R294, R297, R114, R130, R138, R149, R150, R176) A global load whose operands are ready and whose accesses may be sent issues: path VM or GA takes an
operation that will write vD on and the pushed positions, and memory is not touched. Its accesses, of 8 bytes at most and of 4 for GATH4, are performed between
then and its completion; performed together in a state u they return the bytes that stand there in u, extended as the form says, and 0 for what an uncorrectable
error has met. That R150's time of performing is any turn of the model, one access at a time, and otherwise the completion, is its choice (notes/assumptions/5.md);
that an error makes 0 of all that its access reads is another (notes/assumptions/11.md).
Completes: ldb, ldbs, ldh, ldhs, ldw, gath4, ldd, ldq. -/
def Obligations.GlobalLoads : Prop :=
  ∀ (s : State) (h x : BitVec 2) (e : BitVec 4) (o : BitVec 8) (d : BitVec 7) (i : Instr) (path : Path) (size align g n : Nat) (push : Bool) (ext : Word → Word),
    let run : Prop := d.toNat % 64 ≠ 0x3F
    (i, path, size, align, g, n, push, ext) ∈ ([
      (.ldb h x e o d, .vm, 1, 1, 8, 1, !d.getLsbD 6, fun w => w), (.ldbs h x e o d, .vm, 1, 1, 8, 1, !d.getLsbD 6, fun w => (w.setWidth 8).signExtend 32),
      (.ldh h x e o d, .vm, 2, 2, 8, 1, !d.getLsbD 6, fun w => w), (.ldhs h x e o d, .vm, 2, 2, 8, 1, !d.getLsbD 6, fun w => (w.setWidth 16).signExtend 32),
      (.ldw h x e o d, .vm, 4, 4, 8, 1, !d.getLsbD 6, fun w => w), (.gath4 h x e o d, .ga, 16, 4, 4, 4, !d.getLsbD 6, fun w => w),
      (.ldd h x e o d, .vm, 8, 8, 8, 2, false, fun w => w), (.ldq h x e o d, .vm, 16, 16, 8, 4, false, fun w => w)] :
        List (Instr × Path × Nat × Nat × Nat × Nat × Bool × (Word → Word))) →
    (n = 1 ∨ path = .ga ∨ run) → s.srcBad o = false → s.MemReady path (some e) [o] → s.RunReady d n →
    s.Sendable { r := true } align g false (s.accesses size (s.ea x e o)) →
    let pa (i k : Nat) : Nat := s.pa { r := true } (s.ea x e o i + BitVec.ofNat 80 (g * k))
    let len (k : Nat) : Nat := min g (size - g * k)
    ∃ t what, let todo := s.todoOf { r := true } false g (s.accesses size (s.ea x e o)) what
      exec i s = .next t ∧ MemFrame s.ent s t ∧ LoadResult path (namedReg d) push n (fun _ _ => 0) (s.usesOfTodo todo) todo s t ∧
      ∀ op u, t.grp.ops = s.grp.ops ++ [op] → u.Performable op → ∃ v, u.performAll op.id = some v ∧ MemoryKept u v ∧
        Performs op (laneResults (d.toNat % 64) fun i k => let m := 4 * k / g
            if u.poisonedAt (pa i m) (len m) then 0 else (ext (BitVec.ofNat 32 (leNat (u.mem.readBytes (pa i m + (4 * k - g * m)) (min size 4))))).setWidth 80)
          (fun y => ∃ i ∈ s.activeLanes, ∃ k, g * k < size ∧ u.poisonedAt (pa i k) (len k) = true ∧ y = (i, s.ea x e o i)) u v

/-- (R294, R130, R147, R149, R150, R176) A global store whose operands are ready and whose accesses may be sent issues with an operation on path VM and changes no
register and no byte yet; its accesses, of 8 bytes at most, are performed between then and its completion, and together they write the low bytes of its source at
each active lane's address, remove the errors of what they overwrite, and write no other byte of memory. The time of each access is the model's
choice (notes/assumptions/5.md).
Completes: stb, sth, stw, std, stq. -/
def Obligations.GlobalStores : Prop :=
  ∀ (s : State) (h x : BitVec 2) (e : BitVec 4) (o : BitVec 8) (d : BitVec 7) (i : Instr) (n size : Nat),
    (i, n, size) ∈ ([(.stb h x e o d, 1, 1), (.sth h x e o d, 1, 2), (.stw h x e o d, 1, 4), (.std h x e o d, 2, 8), (.stq h x e o d, 4, 16)] : List (Instr × Nat × Nat)) →
    s.storeBad d n = false → s.srcBad o = false → s.MemReady .vm (some e) (o :: (List.range n).map (codePlus (d.setWidth 8))) →
    s.Sendable { w := true } size 8 false (s.accesses size (s.ea x e o)) →
    let at_ (i k : Nat) : Option Nat := some (s.pa { w := true } (s.ea x e o i + BitVec.ofNat 80 (8 * (k / 8))) + k % 8)
    ∃ t what, let todo := s.todoOf { w := true } false 8 (s.accesses size (s.ea x e o)) what
      exec i s = .next t ∧ MemFrame s.ent.dirty s t ∧ t.grp.lanes = s.grp.lanes ∧ OpAdded .vm (fun _ => False) (s.usesOfTodo todo) todo s t ∧
      ∀ op u, t.grp.ops = s.grp.ops ++ [op] → u.Performable op → u.Canonical → ∃ v, u.performAll op.id = some v ∧
        Performs op (fun _ => 0) (fun _ => False) u v ∧ v.core = u.core ∧ v.cores = u.cores ∧
        Stored s.activeLanes size at_ (s.storeByte d) u.dev.mem.read v.dev.mem.read ∧ Cleaned s.activeLanes size at_ u.dev.poison v.dev.poison

/-- (R295, R124, R130, R131, R147, R150, R176) Scratchpad loads and stores issue on path SP with their accesses of the window, of 8 bytes at most, and change no byte
yet. Performed together, a load's return the words that stand there, and 0 for what an uncorrectable error has met, and a store's write the source's words
at each active lane's offset, remove the errors there, and write no other byte of any scratchpad. An offset that is misaligned or outside the window
traps with no effect. The time of each access is the model's choice (notes/assumptions/5.md), and what an error makes 0 of (notes/assumptions/11.md).
Completes: ldsw, ldsd, ldsq, stsw, stsd, stsq. -/
def Obligations.ScratchpadForms : Prop :=
  ∀ (s : State) (x : BitVec 2) (o : BitVec 8) (d : BitVec 7) (i : Instr) (n : Nat),
    let w (i : Nat) : Word := s.wo x o i
    let inWindow : Prop := ∀ i ∈ s.activeLanes, ∃ c p, s.window (w i) (4 * n) (4 * n) = .ok c p
    let mis (i : Nat) : Bool := s.active i && decide (s.window (w i) (4 * n) (4 * n) = .misalign)
    let out (i : Nat) : Bool := s.active i && decide (s.window (w i) (4 * n) (4 * n) = .access)
    let first (p : Nat → Bool) : VAddr := (((s.activeLanes.find? p).map w).getD 0).setWidth 80
    let place (i : Nat) : Option (Nat × Nat) := s.winPlace (4 * n) (w i)
    let len (k : Nat) : Nat := min 8 (4 * n - 8 * k)
    s.srcBad o = false →
    ((i, n) ∈ ([(.ldsw x o d, 1), (.ldsd x o d, 2), (.ldsq x o d, 4)] : List (Instr × Nat)) → (n = 1 ∨ d.toNat % 64 ≠ 0x3F) → s.MemReady .sp none [o] → s.RunReady d n →
      (inWindow → ∃ t what, let todo := s.winTodo false (4 * n) 8 (s.offsets w) what
        exec i s = .next t ∧ MemFrame s.ent s t ∧ t.core = s.core ∧ t.dev = s.dev ∧ LoadResult .sp (namedReg d) (decide (n = 1) && !d.getLsbD 6) n (fun _ _ => 0) [] todo s t ∧
        ∀ op u, t.grp.ops = s.grp.ops ++ [op] → u.Performable op → ∃ v, u.performAll op.id = some v ∧ MemoryKept u v ∧
          Performs op (laneResults (d.toNat % 64) fun i k => ((place i).map fun (c, p) =>
              if u.spadBad c (p + 8 * (k / 2)) (len (k / 2)) then 0 else BitVec.ofNat 80 (leNat ((u.spadOf c).readBytes (p + 4 * k) 4))).getD 0)
            (fun y => ∃ i ∈ s.activeLanes, ∃ k c p, 8 * k < 4 * n ∧ place i = some (c, p) ∧ u.spadBad c (p + 8 * k) (len k) = true ∧ y = (i, (w i).setWidth 80)) u v) ∧
      ((∃ i < s.grp.width, mis i) → exec i s = .next (s.takeTrap (s.trapHere .misalign 0 (laneMask mis 64) (first mis)))) ∧
      ((∀ i < s.grp.width, mis i = false) → (∃ i < s.grp.width, out i) → exec i s = .next (s.takeTrap (s.trapHere .accessFault 0 (laneMask out 64) (first out))))) ∧
    ((i, n) ∈ ([(.stsw x o d, 1), (.stsd x o d, 2), (.stsq x o d, 4)] : List (Instr × Nat)) → s.storeBad d n = false →
      s.MemReady .sp none (o :: (List.range n).map (codePlus (d.setWidth 8))) →
      (inWindow → ∃ t what, let todo := s.winTodo false (4 * n) 8 (s.offsets w) what
        exec i s = .next t ∧ MemFrame s.ent.dirty s t ∧ t.core = s.core ∧ t.dev = s.dev ∧ t.grp.lanes = s.grp.lanes ∧ OpAdded .sp (fun _ => False) [] todo s t ∧
        ∀ op u, t.grp.ops = s.grp.ops ++ [op] → u.Performable op → u.Canonical → ∃ v, u.performAll op.id = some v ∧ Performs op (fun _ => 0) (fun _ => False) u v ∧
          v.dev = u.dev ∧ CoresKept u v ∧ ∀ c, Stored s.activeLanes (4 * n) (winByte c place) (s.storeByte d) (u.spadOf c).read (v.spadOf c).read ∧
            Cleaned s.activeLanes (4 * n) (winByte c place) (u.coreOf c).badSpad (v.coreOf c).badSpad) ∧
      ((∃ i < s.grp.width, mis i) → exec i s = .next (s.takeTrap (s.trapHere .misalign 0 (laneMask mis 64) (first mis)))) ∧
      ((∀ i < s.grp.width, mis i = false) → (∃ i < s.grp.width, out i) → exec i s = .next (s.takeTrap (s.trapHere .accessFault 0 (laneMask out 64) (first out)))))

/-- (R296, R298, R130, R149, R150, R176) The uniform forms perform one access for the group, in units of 8 bytes: LDUW, LDUD and LDBA will fill their s or b
registers with the bytes that stand there where they are performed, or with 0 where an uncorrectable error is met; STBA will write 16 bytes, the upper six 0, and no other.
Nothing is read or written as they issue; the time is the model's choice (notes/assumptions/5.md). PREF only moves on.
Completes: lduw, ldud, ldba, stba, pref. -/
def Obligations.UniformMemoryForms : Prop :=
  ∀ (s : State) (h x : BitVec 2) (e b : BitVec 4) (o : BitVec 8) (d : BitVec 6),
    let va : VAddr := s.ea x e o 0
    let sd (k : Nat) : Dest := .s (s.sIndex (d.toNat + k))
    s.grp.pendingDest (.b e.toNat) = false →
    (s.uniBad o = false → s.pendingIn [] o = false → s.grp.count .vm < 63 →
      (∀ (i : Instr) (size : Nat) (dests : List Dest), (i, size, dests) ∈ ([
        (.lduw h x e o d, 4, [sd 0]), (.ldud h x e o d, 8, [sd 0, sd 1]), (.ldba h x e o b, 16, [.b b.toNat])] : List (Instr × Nat × List Dest)) →
        (size = 16 ∨ s.pendingS d.toNat = false) → (size = 8 → d.toNat % 2 = 0 ∧ s.pendingS (d.toNat + 1) = false) → (size = 16 → s.grp.pendingDest (.b b.toNat) = false) →
        s.Sendable { r := true } size 8 true [⟨0, va, size⟩] →
        let pa (k : Nat) : Nat := s.pa { r := true } (va + BitVec.ofNat 80 (8 * k))
        ∃ t what, let todo := s.todoOf { r := true } true 8 [⟨0, va, size⟩] what
          exec i s = .next t ∧ MemFrame s.ent s t ∧ t.grp.lanes = s.grp.lanes ∧ OpAdded .vm (fun f => ∃ y ∈ dests, f = ⟨y, 0⟩) (s.usesOfTodo todo) todo s t ∧
          ∀ op u, t.grp.ops = s.grp.ops ++ [op] → u.Performable op → ∃ v, u.performAll op.id = some v ∧ MemoryKept u v ∧
            let bad : Bool := u.poisonedAt (pa 0) (min 8 size) || (decide (size = 16) && u.poisonedAt (pa 1) 8)
            Performs op (fun y => if bad then 0
                else if size = 16 then BitVec.ofNat 80 (leNat (u.mem.readBytes (pa 0) 8 ++ u.mem.readBytes (pa 1) 2))
                else BitVec.ofNat 80 (leNat (u.mem.readBytes (pa 0 + if y = sd 0 then 0 else 4) 4)))
              (fun y => bad = true ∧ y = (64, va)) u v) ∧
      (s.grp.pendingDest (.b b.toNat) = false → s.Sendable { w := true } 16 8 true [⟨0, va, 16⟩] →
        let at_ (_ k : Nat) : Option Nat := some (s.pa { w := true } (va + BitVec.ofNat 80 (8 * (k / 8))) + k % 8)
        ∃ t what, let todo := s.todoOf { w := true } true 8 [⟨0, va, 16⟩] what
          exec (.stba h x e o b) s = .next t ∧ MemFrame s.ent.dirty s t ∧ t.grp.lanes = s.grp.lanes ∧ OpAdded .vm (fun _ => False) (s.usesOfTodo todo) todo s t ∧
          ∀ op u, t.grp.ops = s.grp.ops ++ [op] → u.Performable op → u.Canonical → ∃ v, u.performAll op.id = some v ∧
            Performs op (fun _ => 0) (fun _ => False) u v ∧ v.core = u.core ∧ v.cores = u.cores ∧
            Stored [0] 16 at_ (fun _ k => (s.breg b.toNat).extractLsb' (8 * k) 8) u.dev.mem.read v.dev.mem.read ∧ Cleaned [0] 16 at_ u.dev.poison v.dev.poison)) ∧
    (s.srcBad o = false → (∀ c ∈ [o], s.pendingIn s.activeLanes c = false) → exec (.pref h x e o) s = .next (s.finish (s.ent.pc + 4)))

/-- (R299, R300, R147, R149, R150, R176) Atomics and CAS on global memory issue with one access per active lane, which touches no byte yet. Performed together,
in some order of the lanes, each lane's location takes the new value that the operation gives and the lane returns the old; no other byte changes. Their time is
the model's choice (notes/assumptions/5.md); so is that data with an uncorrectable error stays as it is and returns 0 (notes/assumptions/11.md).
Completes: atom32, atom64, cas. -/
def Obligations.GlobalAtomics : Prop :=
  ∀ (s : State) (v a : BitVec 8) (x : BitVec 3) (e : BitVec 4) (n : Nat) (i : Instr) (f : Nat → BitVec n → BitVec n → BitVec n) (extra : List (BitVec 8)),
    let val (i : Nat) : BitVec n := if n = 32 then (s.read v i).setWidth n else (s.read64 v i).setWidth n
    let exp (i : Nat) : BitVec n := if n = 32 then (s.read 0x40 i).setWidth n else (s.read64 0x40 i).setWidth n
    let op (f : BitVec n → BitVec n → BitVec n) : Nat → BitVec n → BitVec n → BitVec n := fun _ => f
    (((n = 32 ∧ i = .atom32 v a x e ∨ n = 64 ∧ i = .atom64 v a x e) ∧ extra = [] ∧
      (x, f) ∈ ([(0, op fun o w => o + w), (1, op fun o w => if o.toInt ≤ w.toInt then o else w), (2, op fun o w => if o.toNat ≤ w.toNat then o else w),
        (3, op fun o w => if o.toInt ≤ w.toInt then w else o), (4, op fun o w => if o.toNat ≤ w.toNat then w else o),
        (5, op fun o w => o &&& w), (6, op fun o w => o ||| w), (7, op fun _ w => w)] : List (BitVec 3 × (Nat → BitVec n → BitVec n → BitVec n)))) ∨
      ((n = 32 ∧ i = .cas v a 0 0 e ∧ extra = [0x40] ∨ n = 64 ∧ i = .cas v a 1 0 e ∧ extra = [0x40, 0x41]) ∧ f = fun i o w => if o = exp i then w else o)) →
    s.srcBad a = false → (if n = 32 then s.srcBad v = false else s.pairBad v = false) →
    s.MemReady .vm (some e) ([a, v] ++ (if n = 32 then [] else [codePlus v 1]) ++ extra) →
    let va (i : Nat) : VAddr := s.breg e.toNat + (s.read a i).signExtend 80
    let pa (i : Nat) : Nat := s.pa { r := true, w := true } (va i)
    s.Sendable { r := true, w := true } (n / 8) (n / 8) false (s.accesses (n / 8) va) →
    ∃ t what, let todo := s.todoOf { r := true, w := true } false (n / 8) (s.accesses (n / 8) va) what
      exec i s = .next t ∧ MemFrame s.ent.dirty s t ∧ LoadResult .vm none true (n / 32) (fun _ _ => 0) (s.usesOfTodo todo) todo s t ∧
      ∀ op u, t.grp.ops = s.grp.ops ++ [op] → u.Performable op → u.Canonical → ∃ v, u.performAll op.id = some v ∧ v.core = u.core ∧ v.cores = u.cores ∧
        (∀ p, p ∈ v.dev.poison ↔ p ∈ u.dev.poison) ∧
        let bad (i : Nat) : Bool := u.poisonedAt (pa i) (n / 8)
        Atomics n s.activeLanes (fun i j => pa i = pa j) (fun i => BitVec.ofNat n (leNat (u.mem.readBytes (pa i) (n / 8)))) bad (fun i o => f i o (val i)) va op u v fun byte =>
          Stored s.activeLanes (n / 8) (fun i k => if bad i then none else some (pa i + k)) byte u.dev.mem.read v.dev.mem.read

/-- (R299, R300, R124, R131, R147, R150) The same on the scratchpad: ATOMS and the scratchpad forms of CAS, with the same choices (notes/assumptions/5.md,
notes/assumptions/11.md).
Completes: atoms, cas. -/
def Obligations.ScratchpadAtomics : Prop :=
  ∀ (s : State) (v a : BitVec 8) (x : BitVec 3) (e : BitVec 4) (y : BitVec 2) (n : Nat) (i : Instr) (f : Nat → BitVec n → BitVec n → BitVec n) (extra : List (BitVec 8)),
    let val (i : Nat) : BitVec n := if n = 32 then (s.read v i).setWidth n else (s.read64 v i).setWidth n
    let exp (i : Nat) : BitVec n := if n = 32 then (s.read 0x40 i).setWidth n else (s.read64 0x40 i).setWidth n
    let op (f : BitVec n → BitVec n → BitVec n) : Nat → BitVec n → BitVec n → BitVec n := fun _ => f
    ((n = 32 ∧ i = .atoms v a x ∧ extra = [] ∧
      (x, f) ∈ ([(0, op fun o w => o + w), (1, op fun o w => if o.toInt ≤ w.toInt then o else w), (2, op fun o w => if o.toNat ≤ w.toNat then o else w),
        (3, op fun o w => if o.toInt ≤ w.toInt then w else o), (4, op fun o w => if o.toNat ≤ w.toNat then w else o),
        (5, op fun o w => o &&& w), (6, op fun o w => o ||| w), (7, op fun _ w => w)] : List (BitVec 3 × (Nat → BitVec n → BitVec n → BitVec n)))) ∨
      (y ≠ 0 ∧ (n = 32 ∧ i = .cas v a 0 y e ∧ extra = [0x40] ∨ n = 64 ∧ i = .cas v a 1 y e ∧ extra = [0x40, 0x41]) ∧ f = fun i o w => if o = exp i then w else o)) →
    s.srcBad a = false → (if n = 32 then s.srcBad v = false else s.pairBad v = false) →
    s.MemReady .sp none ([a, v] ++ (if n = 32 then [] else [codePlus v 1]) ++ extra) →
    (∀ i ∈ s.activeLanes, ∃ c p, s.window (s.read a i) (n / 8) (n / 8) = .ok c p) →
    let place (i : Nat) : Option (Nat × Nat) := s.winPlace (n / 8) (s.read a i)
    ∃ t what, let todo := s.winTodo false (n / 8) (n / 8) (s.offsets fun i => s.read a i) what
      exec i s = .next t ∧ MemFrame s.ent.dirty s t ∧ t.core = s.core ∧ t.dev = s.dev ∧ LoadResult .sp none true (n / 32) (fun _ _ => 0) [] todo s t ∧
      ∀ op u, t.grp.ops = s.grp.ops ++ [op] → u.Performable op → u.Canonical → ∃ v, u.performAll op.id = some v ∧ v.dev = u.dev ∧ CoresKept u v ∧
        (∀ c p, p ∈ (v.coreOf c).badSpad ↔ p ∈ (u.coreOf c).badSpad) ∧
        let bad (i : Nat) : Bool := (place i).any fun (c, p) => u.spadBad c p (n / 8)
        Atomics n s.activeLanes (fun i j => place i = place j)
          (fun i => ((place i).map fun (c, p) => BitVec.ofNat n (leNat ((u.spadOf c).readBytes p (n / 8)))).getD 0) bad (fun i o => f i o (val i))
          (fun i => (s.read a i).setWidth 80) op u v fun byte =>
          ∀ c, Stored s.activeLanes (n / 8) (fun i k => if bad i then none else winByte c place i k) byte (u.spadOf c).read (v.spadOf c).read

/-- (R51, R171, R172, R378) The first check that fails in any lane decides an access, with no effect but the trap or the wait: MISALIGN, XLATE_FAULT of a
malformed entry, ACCESS_FAULT, DATA_POISON of a POISONED page, FAULTWAIT under the INVALID and MIGRATING pages; TLANES names the lanes that fail it. A wait
keeps the entity's PC, every register, queue and count; memory changes in the fault log alone, where each INVALID page that had no slot is
reported, and each such page has its slot while the Arbour has slots left. -/
def Obligations.AccessFaults : Prop :=
  ∀ (s : State) (h x : BitVec 2) (e : BitVec 4) (o : BitVec 8) (d : BitVec 7) (i : Instr) (n : Need),
    ((i = .ldw h x e o d ∧ n = { r := true } ∧ s.RunReady d 1 ∧ s.MemReady .vm (some e) [o]) ∨
      (i = .stw h x e o d ∧ n = { w := true } ∧ s.storeBad d 1 = false ∧ s.MemReady .vm (some e) (o :: (List.range 1).map (codePlus (d.setWidth 8))))) →
    s.srcBad o = false →
    let ea : Nat → VAddr := s.ea x e o
    let xlate (i : Nat) : Except XFail Nat := (s.translate s.core.dtlb (s.ctx s.team.ctx) s.arbour n (ea i).toNat).1
    let mis (i : Nat) : Bool := s.active i && decide ((ea i).toNat % 4 ≠ 0)
    let bad (f : XFail) (i : Nat) : Bool := s.active i && decide (xlate i = .error f)
    let none_ (p : Nat → Bool) : Prop := ∀ i < s.grp.width, p i = false
    let first (p : Nat → Bool) : VAddr := ((s.activeLanes.find? p).map ea).getD 0
    let traps (c : TrapCode) (data : Word) (p : Nat → Bool) (u : State) : Prop := exec i s = .next (u.takeTrap (s.trapHere c data (laneMask p 64) (first p)))
    (none_ (bad .tablePoison) ∨ ¬ none_ mis) →
    (¬ none_ mis → traps .misalign 0 mis s) ∧
    (none_ mis → ¬ none_ (bad .malformed) → traps .xlateFault 0 (bad .malformed) (s.malformedRecord (s.trapHere .xlateFault 0 (laneMask (bad .malformed) 64) (first (bad .malformed))))) ∧
    (none_ mis → none_ (bad .malformed) →
      let acc (i : Nat) : Bool := bad .access i || bad .noRoute i
      (¬ none_ acc → traps .accessFault (if ((s.activeLanes.find? acc).map xlate) = some (.error .noRoute) then 0x6FF else 0) acc s) ∧
      (none_ acc → ¬ none_ (bad .poisoned) → traps .dataPoison 0 (bad .poisoned) s) ∧
      (s.grp.width ≤ 64 → none_ acc → none_ (bad .poisoned) → ¬ (none_ (bad .invalid) ∧ none_ (bad .migrating)) → ∃ u,
        let page (i : Nat) : BitVec 64 := BitVec.ofNat 64 ((ea i).toNat / 2 ^ 16)
        let rep (i : Nat) : Bool := bad .invalid i || bad .migrating i
        let log : BitVec 64 := (s.ctx s.team.ctx).flbase
        let slot (i : Nat) : FaultSlot := ⟨s.arbour, s.team.ctx, page i⟩
        exec i s = .next u ∧
        (∀ p, p ∈ u.ent.held ↔ ∃ i < s.grp.width, (bad .invalid i = true ∧ p = ⟨page i, false⟩) ∨ (bad .migrating i = true ∧ p = ⟨page i, true⟩)) ∧
        (∀ f, f ∈ u.ent.heldAt ↔ ∃ i < s.grp.width, rep i = true ∧ f = ⟨page i, ea i, laneMask (fun j => rep j && decide (page j = page i)) 64⟩) ∧
        u = { s with
          ent := { s.ent with status := .faultwait, held := u.ent.held, heldFetch := false, heldAt := u.ent.heldAt }
          dev := { s.dev with mem := u.dev.mem, poison := u.dev.poison, slots := u.dev.slots, ctxs := u.dev.ctxs } } ∧
        (∀ a, (a < log.toNat ∨ log.toNat + 64 + 64 * 2 ^ (s.ctx s.team.ctx).fllog2 ≤ a) → u.dev.mem.read a = s.dev.mem.read a ∧ (a ∈ u.dev.poison ↔ a ∈ s.dev.poison)) ∧
        (∀ k, { u.ctx k with claims := (s.ctx k).claims } = s.ctx k) ∧
        (none_ (bad .invalid) → u.dev = s.dev) ∧
        ((s.dev.slots.filter fun f => f.arbour = s.arbour).length + 64 ≤ 256 →
          ∀ f, f ∈ u.dev.slots ↔ f ∈ s.dev.slots ∨ ∃ i < s.grp.width, bad .invalid i = true ∧ f = slot i)))

/-! ## Events of operations and entities (07_registers.md, 08_memory.md, 06_group.md) -/

/-- (R52, R114, R138, R147, R149, R150, R176) An outstanding operation's accesses are performed one by one, each not before those that precede it on its path and
meet its bytes: a load reads, a store writes its bytes, an atomic or CAS does both in one step, and nothing else changes but the operation. Its completion performs
what is left, then every pending register and queue position of the operation receives its value, the operation is reported once every older one of its path has
been, and no other register of the group changes. A load that met an uncorrectable error is reported with its lanes, by a record of KIND 0x05 and a DATA_POISON
trap at the entity's next boundary; that the address is that of the lowest such lane is the model's choice (notes/assumptions/74.md), as is the time of each
access (notes/assumptions/5.md).
Completes: loadFill, pathOpComplete. -/
def Obligations.OperationsComplete : Prop :=
  (∀ (s t : State) (g : GLoc) (op : Nat) (o₀ : Op) (i : Instr),
    s.focusGroup g = some t → t.grp.ops.find? (fun x => x.id = op) = some o₀ → o₀.done = false → o₀.auto = true →
    ((i = .loadFill g op ∧ o₀.fills ≠ []) ∨ (i = .pathOpComplete g op ∧ o₀.fills = [])) →
    (t.performAll op = none → exec i s = .refused .notDue) ∧
    ∀ u o, t.performAll op = some u → u.grp.ops.find? (fun x => x.id = op) = some o →
    let last {α : Type} (p : Fill → Bool) (f : Fill → α) (x : α) : α := o.fills.foldl (fun x k => if p k then f k else x) x
    let marked : List Op := u.grp.ops.map fun x => if x.id = op then { x with done := true, fills := [], todo := [] } else x
    ∃ v, exec i s = .next v ∧
      (∀ k r, (v.grp.lane k).reg r = last (fun f => decide (f.dest = .v k r)) (fun f => f.val.setWidth 32) ((u.grp.lane k).reg r)) ∧
      (∀ k, (v.grp.lane k).q = (u.grp.lane k).q.map fun e =>
        match o.fills.find? fun f => match e.tag, f.dest with | some (n, w), .q j v => decide (n = op ∧ j = k ∧ v = w) | _, _ => false with
        | some f => { val := f.val.setWidth 32, tag := none }
        | none => e) ∧
      (∀ k, (v.grp.lane k).p = (u.grp.lane k).p ∧ (v.grp.lane k).use = (u.grp.lane k).use) ∧
      (∀ k, v.grp.sAt k = last (fun f => decide (f.dest = .s k)) (fun f => f.val.setWidth 32) (u.grp.sAt k)) ∧
      (∀ k, v.breg k = last (fun f => decide (f.dest = .b k)) Fill.val (u.breg k)) ∧
      (∀ k, v.grp.epi.getD k 0 = last (fun f => decide (f.dest = .epi k)) (fun f => f.val.setWidth 32) (u.grp.epi.getD k 0)) ∧
      (∀ p, v.grp.ops.filter (fun x => x.path = some p) = (marked.filter fun x => x.path = some p).dropWhile Op.done) ∧
      v.grp.ops.filter (fun x => x.path = none) = marked.filter (fun x => x.path = none && !x.done) ∧
      let w : State := { u with grp := { u.grp with lanes := v.grp.lanes, s := v.grp.s, hbank := v.grp.hbank, b := v.grp.b, epi := v.grp.epi, ops := v.grp.ops } }
      (o.uses = [] → o.poisoned = [] → v = w) ∧
      (o.uses = [] → o.poisoned ≠ [] → o.ent = u.ent.num → ∃ l va, (l, va) ∈ o.poisoned ∧ (∀ x ∈ o.poisoned, l ≤ x.1) ∧
        let lanes := laneMask (fun i => o.poisoned.any fun x => x.1 = i) 64
        let x := w.recordOpen w.team.ctx { kind := 5, code := 0, addr := va, launch := w.team.launch, lanes, queue := w.team.queue, core := w.core.num, part := w.grp.loc.part }
        v = { x with ent := { x.ent with deferred := x.ent.deferred ++ [{ code := .dataPoison, addr := va, fault := va.setWidth 32, lanes }] } })) ∧
  ∀ (s : State) (op k : Nat) (o : Op) (a : Todo), s.grp.ops.find? (fun x => x.id = op) = some o → o.todo[k]? = some a →
    let left : Op := { o with todo := o.todo.eraseIdx k }
    let put (t : State) (x : Op) : State := { t with grp := { s.grp with ops := s.grp.ops.map fun y => if y.id = op then x else y } }
    let given (bs : List Byte) : Op := { left with fills := o.fills.map fun (f : Fill) => { f with val := (a.what.parts.filter fun p => p.dest = f.dest).foldl (fun v p => v ||| p.value bs) f.val } }
    let step (f : BitVec 64 → BitVec 64) : Prop := ∀ bs, s.todoRead a = some bs →
      s.perform op k = some (put (s.todoWrite a (leBytes (f (BitVec.ofNat 64 (leNat bs))).toNat a.size)) (given bs))
    ((∃ y ∈ s.grp.ops, y.id ∈ o.after ∧ ∃ b ∈ y.todo, a.meets b = true) → s.perform op k = none) ∧
    ((∀ y ∈ s.grp.ops, y.id ∈ o.after → ∀ b ∈ y.todo, a.meets b = false) →
      (∀ ps, a.what = .load ps → ∀ bs, s.todoRead a = some bs → s.perform op k = some (put s (given bs))) ∧
      (∀ bs, a.what = .store bs → a.spad = none → s.perform op k = some (put (s.store a.addr bs) left)) ∧
      (∀ bs c, a.what = .store bs → a.spad = some c → s.perform op k = some (put (s.spadStore c a.addr bs) left)) ∧
      (∀ x v ps, a.what = .atom x v ps → step (atomStep a.size x v)) ∧ (∀ e v ps, a.what = .cas e v ps → step (casStep a.size e v)) ∧
      ((∀ bs, a.what ≠ .store bs) → a.what ≠ .barInit → s.todoRead a = none → ∃ x, s.perform op k = some (put s x) ∧
        x.fills = o.fills.map (fun (f : Fill) => { f with val := if ∃ p ∈ a.what.parts, p.dest = f.dest then 0 else f.val }) ∧ x.poisoned = o.poisoned ++ [(a.lane, a.va)]))

/-- (R97, R103, R124, R125, R173, R238, R239, R240, R270, R378, R381, R382) The events of an entity: promotion of one that could issue, the end of a sleep, a retry of a MIGRATING
wait, the return to the IDEM point with q0 to q15 zero once the loads that write registers have completed, the entry of a pending trap, the fetch of a line, whose contents are one of the
versions that R239 allows. Each changes what it names and nothing else; a parity error without a clean point that can serve, and a double-bit error of other state, is
REG_PARITY_FATAL at once. While a trap is handled, the handling entity alone enters another, its own. The model's own: the register that has failed is the event's argument
(notes/assumptions/1.md), TPC 0 of REG_PARITY_FATAL (notes/assumptions/40.md), a full cache keeps the newest 1,024 lines (notes/assumptions/62.md), a fetch of a POISONED page or of
poisoned bytes is a FETCH_FAULT (notes/assumptions/63.md), fills in flight and versions of lines (notes/assumptions/64.md), what an instruction reads and codes from 0x50 on for
state that SECDED protects (notes/assumptions/72.md).
Completes: promotion, sleepWake, migratingRetry, rollback, icacheLineFill, trapEntry. -/
def Obligations.EntityEvents : Prop :=
  ∀ (s t : State) (g : GLoc) (n : Nat),
    (s.focus g n = some t → t.ent.live = true →
      (t.canIssue t.stowGroup t.ent = true → t.ent.status = .ready → t.ent.promoted = none → t.grp.agent = false →
        exec (.promotion g n) s = .next { t with ent := { t.ent with promoted := some t.dev.tick } }) ∧
      (∀ w, t.ent.status = .waiting .sleep → t.ent.wd.wake = some w → w ≤ t.dev.tick → exec (.sleepWake g n) s = .next { t with ent := { t.ent with status := .ready } }) ∧
      (t.ent.status = .faultwait → (∃ p ∈ t.ent.held, p.migrating = true) → exec (.migratingRetry g n) s = .next { t with ent := { t.ent with status := .ready } }) ∧
      (∀ reg, t.running = true → (t.grp.gstate = .ready ∨ t.ent.handling = true) → t.ent.status ≠ .faultwait → (0x50 ≤ reg.toNat ∨ t.mayRead reg = true) →
        (∀ p, t.ent.idem = some p → p.dirty = false → reg.toNat < 0x50 → reg ∉ t.ent.failedRegs →
          ((∃ o ∈ t.grp.ops, o.ent = t.ent.num ∧ o.done = false ∧ o.fills ≠ []) → exec (.rollback g n reg) s = .refused .notDue) ∧
          ((∀ o ∈ t.grp.ops, o.ent = t.ent.num → o.done = false → o.fills = []) → ∃ u, exec (.rollback g n reg) s = .next u ∧
          (∀ i < t.grp.width, u.grp.lane i = if t.inL i then { t.grp.lane i with q := [] } else t.grp.lane i) ∧
          u = { t with
            ent := { t.ent with pc := p.pc, em := p.em &&& t.live, scc := p.scc, calls := p.calls, defs := p.defs, status := .ready, wd := {}, failedRegs := reg :: t.ent.failedRegs }
            grp := { t.grp with scopes := p.scopes, lanes := u.grp.lanes }, core := { t.core with corrected := t.core.corrected + 1 } })) ∧
        ((t.ent.idem = none ∨ ∃ p, t.ent.idem = some p ∧ (p.dirty = true ∨ 0x50 ≤ reg.toNat ∨ reg ∈ t.ent.failedRegs)) →
          exec (.rollback g n reg) s = .next (t.takeTrap { code := .regParityFatal, tpc := 0, first := t.ent.pc }))) ∧
      (∀ line, t.running = true → (t.grp.gstate = .ready ∨ t.ent.handling = true) → t.grp.agent = false → t.ent.status.fetches = true → t.fetch = .error line →
        let va : VAddr := t.team.cwin + line.setWidth 80
        let off : Word := if line = lineStart t.ent.pc then t.ent.pc else t.ent.pc + 2
        let addr : VAddr := t.team.cwin + off.setWidth 80
        let page : BitVec 64 := BitVec.ofNat 64 (va.toNat / 2 ^ 16)
        let r := (t.translate t.core.itlb (t.ctx t.team.ctx) t.arbour { x := true } va.toNat).1
        let fail (data : Word) : Trap := { code := .fetchFault, tpc := t.ent.pc, first := t.ent.pc, fault := off, addr, data }
        let rec_ : Rec := { kind := 4, code := 3, addr, pc := t.ent.pc, launch := t.team.launch, queue := t.team.queue, core := t.core.num, part := t.grp.loc.part }
        let log : BitVec 64 := (t.ctx t.team.ctx).flbase
        (∀ pa, r = .ok pa → t.remoteGate (t.usesOf [(64, va, pa)]) = none →
          (t.poisonedAt pa 128 = false → ∃ u bs, exec (.icacheLineFill g n line) s = .next u ∧
            (bs = t.dev.mem.readBytes pa 128 ∨ (∃ f ∈ t.core.fills, f.line = ⟨t.team.ctx, va, bs⟩) ∨ ⟨t.team.ctx, va, bs⟩ ∈ t.core.versions) ∧
            u = { t with
              core := { t.core with
                itlb := u.core.itlb, icache := (⟨t.team.ctx, va, bs⟩ :: t.core.icache).take 1024
                fills := t.core.fills.filter fun f => !f.line.is t.team.ctx va }
              dev := { t.dev with l2tlb := u.dev.l2tlb, walkCache := u.dev.walkCache } }) ∧
          (t.poisonedAt pa 128 = true → exec (.icacheLineFill g n line) s = .next (t.takeTrap (fail 0)))) ∧
        ((r = .error .access ∨ r = .error .poisoned) → exec (.icacheLineFill g n line) s = .next (t.takeTrap (fail 0))) ∧
        (r = .error .noRoute → exec (.icacheLineFill g n line) s = .next (t.takeTrap (fail 0x6FF))) ∧
        (r = .error .malformed → exec (.icacheLineFill g n line) s = .next ((t.record t.team.ctx rec_).takeTrap (fail 0))) ∧
        (r = .error .invalid → ∃ u, exec (.icacheLineFill g n line) s = .next u ∧
          u = { t with
            ent := { t.ent with status := .faultwait, held := [⟨page, false⟩], heldFetch := true, heldAt := [⟨page, addr, 0⟩] }
            dev := { t.dev with mem := u.dev.mem, poison := u.dev.poison, slots := u.dev.slots, ctxs := u.dev.ctxs } } ∧
          (∀ a, (a < log.toNat ∨ log.toNat + 64 + 64 * 2 ^ (t.ctx t.team.ctx).fllog2 ≤ a) → u.dev.mem.read a = t.dev.mem.read a ∧ (a ∈ u.dev.poison ↔ a ∈ t.dev.poison)) ∧
          ((t.dev.slots.filter fun f => f.arbour = t.arbour).length < 256 → ∀ f, f ∈ u.dev.slots ↔ f ∈ t.dev.slots ∨ f = ⟨t.arbour, t.team.ctx, page⟩)) ∧
        (r = .error .migrating → exec (.icacheLineFill g n line) s = .next { t with
          ent := { t.ent with status := .faultwait, held := [⟨page, true⟩], heldFetch := true } }))) ∧
    (∀ k, t.nextTrap = some k → t.running = true ∧ (t.grp.gstate = .ready ∨ t.grp.gstate = .trapped) ∧ ∃ e ∈ t.ent :: t.grp.sibs, e.num = k ∧ e.live = true ∧
      (e.pendingTrap ≠ none ∨ e.deferred ≠ []) ∧ (t.grp.gstate = .trapped → e.handling = true) ∧
      ∀ y ∈ t.ent :: t.grp.sibs, y.live = true → y.num < k → (t.grp.gstate = .trapped → y.handling = false ∨ (y.pendingTrap = none ∧ y.deferred = [])) ∧
        (t.grp.gstate = .ready → y.num < 32 → y.pendingTrap = none ∧ (e.pendingTrap ≠ none ∨ y.deferred = []))) ∧
    (∀ k u, s.focusGroup g = some t → t.nextTrap = some k → t.focusEnt k = some u →
      (∀ x, u.ent.pendingTrap = some x → exec (.trapEntry g) s = .next ({ u with ent := { u.ent with pendingTrap := none } }.takeTrap x)) ∧
      (∀ x r, u.ent.pendingTrap = none → u.ent.deferred = x :: r →
        exec (.trapEntry g) s = .next ({ u with ent := { u.ent with deferred := r } }.takeTrap { x with tpc := u.ent.pc, first := u.ent.pc })))

/-! ## Barriers, rings, message queues, the tag table (11_barrier.md, 20_isa_memory.md) -/

/-- (R157, R177 to R180, R305) BAR.INIT registers a barrier, whose slot and whose finding by other entities follow when its registration is performed, in the
entity's order before its own later forms; ARRIVE counts an arrival after the paths have drained and makes the group's writes of team words
visible, WAIT waits for the phase that its parity
names, SYNC arrives and waits, STAT pushes the 16 bytes; the slot in the window holds the barrier after each change; an offset that
names no barrier, and a bad registration, trap BAR_FAULT; an entity that waits goes on with the barrier that it waits at. That a further registration continues
the phase count of the one before at an even number is the model's (notes/assumptions/14.md).
Completes: barInit, barArrive, barWait, barStat, barSync. -/
def Obligations.BarrierForms : Prop :=
  ∀ (s : State) (a b : BitVec 8), s.UniReady [a, b] [] →
    let u := s.reachSlots
    let done : Entity := u.ent.dirty.finish (s.ent.pc + 4)
    let fault : Host.Outcome State Fault Refusal := .next (s.takeTrap (s.trapHere .barFault))
    let waits (r : WaitReason) : Host.Outcome State Fault Refusal := .next { u with ent := { u.ent with status := .waiting r } }
    let n := (s.uni b).toNat
    ((∀ o ∈ s.grp.earlier s.ent, ∀ x ∈ o.todo, x.what ≠ .barInit) → u = s) ∧
    (s.barPlace (s.uni a) = none → exec (.barInit b a) s = fault ∧
      (s.ent.wd.bar = none → ∀ i ∈ [Instr.barArrive a, .barWait b a, .barStat a, .barSync a], exec i s = fault)) ∧
    (∀ w i, i ∈ [Instr.barWait b a, .barSync a] → s.ent.wd.bar = some w →
      (u.team.barrier? w.core w.off = none → exec i s = fault) ∧
      ∀ k, u.team.barrier? w.core w.off = some k → u.ent.wd.bar = some w → exec i s = if w.phase < k.phases then .next { u with ent := done } else waits .barrier) ∧
    (∀ c o, s.barPlace (s.uni a) = some (c, o) →
      ((n = 0 ∨ 65535 < n) → exec (.barInit b a) s = fault) ∧
      (n ≠ 0 → n ≤ 65535 → s.team.barrierAt c o = none →
        (s.team.bars ≤ (s.team.barriers.filter fun k => k.core = c).length → exec (.barInit b a) s = fault) ∧
        ((s.team.barriers.filter fun k => k.core = c).length < s.team.bars →
          ∃ t op, exec (.barInit b a) s = .next t ∧ t = { s with
              ent := s.ent.dirty.finish (s.ent.pc + 4), nextOp := s.nextOp + 1, grp := { s.grp with ops := s.grp.ops ++ [op] }
              team := { s.team with barriers := s.team.barriers ++ [{ core := c, off := o, expected := n, reached := false }] } } ∧
            t.team.barrier? c o = none ∧ op.id = s.nextOp ∧ op.ent = s.ent.num ∧ op.fills = [] ∧ (∃ x, op.todo = [x] ∧ x.what = .barInit) ∧
            ∀ q : State, q.Canonical → q.Performable op → q.team.barrierAt c o = some { core := c, off := o, expected := n, reached := false } → ∃ v, q.performAll op.id = some v ∧
              v.grp = { q.grp with ops := q.grp.ops.map fun y => if y.id = op.id then { y with todo := [] } else y } ∧
              BarrierSet q.ent { core := c, off := o, expected := n } q { v with grp := q.grp })) ∧
      (∀ k, n ≠ 0 → n ≤ 65535 → s.team.barrierAt c o = some k →
        ((k.arrived ≠ 0 ∨ s.hasWaiter k = true) → exec (.barInit b a) s = fault) ∧
        (s.Canonical → k.arrived = 0 → s.hasWaiter k = false →
          ∃ t m, exec (.barInit b a) s = .next t ∧ k.phases < m ∧ m % 2 = 0 ∧ BarrierSet (s.ent.dirty.finish (s.ent.pc + 4)) { core := c, off := o, expected := n, phases := m } s t)) ∧
      (u.team.barrier? c o = none → s.ent.wd.bar = none → ∀ i ∈ [Instr.barArrive a, .barWait b a, .barStat a, .barSync a], exec i s = fault) ∧
      (∀ k, u.team.barrier? c o = some k → k.core = c → k.off = o → s.ent.wd.bar = none → u.ent.wd.bar = none →
        let after : Barrier := if k.arrived + 1 = k.expected then { k with arrived := 0, phases := k.phases + 1 } else { k with arrived := k.arrived + 1 }
        let drained : Prop := ∀ y ∈ [Path.vm, .sp, .ga, .mq], u.grp.count y = 0
        let waitFor (e : Entity) (k : Barrier) : Entity := { e with status := .waiting .barrier, wd := { e.wd with bar := some ⟨k.core, k.off, k.phases⟩ } }
        (¬ drained → exec (.barArrive a) s = waits .counter) ∧
        (u.Canonical → drained → ∃ t, exec (.barArrive a) s = .next t ∧ BarrierSet done after u.showWords t) ∧
        (decide (k.phases % 2 = 1) ≠ (u.uni b).getLsbD 0 → exec (.barWait b a) s = .next { u with ent := done }) ∧
        (decide (k.phases % 2 = 1) = (u.uni b).getLsbD 0 → exec (.barWait b a) s = .next { u with ent := waitFor u.ent k }) ∧
        (∃ t, exec (.barStat a) s = .next t ∧ PushFrame done u t ∧ PushResult none true 4 (fun _ j => BitVec.ofNat 32 (k.bits / 2 ^ (32 * j))) [] none u t) ∧
        (¬ drained → exec (.barSync a) s = waits .counter) ∧
        (u.Canonical → drained → ∃ t, exec (.barSync a) s = .next t ∧
          BarrierSet (if k.arrived + 1 = k.expected then done else waitFor u.ent.dirty after) after u.showWords t)))

/-- (R154, R158, R181 to R183, R306) RING.INIT registers a ring with empty slots, WAIT waits for its position to be filled and holds it, REL counts releases and
empties the slot with the last, after the entity's earlier accesses have been performed, STAT pushes the slot's record; other positions and headers trap RING_FAULT.
Completes: ringInit, ringWait, ringRel, ringStat. -/
def Obligations.RingForms : Prop :=
  ∀ (s : State) (a b : BitVec 8), s.UniReady [a, b] [] →
    let done : Entity := s.ent.dirty.finish (s.ent.pc + 4)
    let fault : Host.Outcome State Fault Refusal := .next (s.takeTrap (s.trapHere .ringFault))
    let waits (r : WaitReason) : Host.Outcome State Fault Refusal := .next { s with ent := { s.ent with status := .waiting r } }
    let v := s.released
    (s.grp.count .sp ≠ 0 → exec (.ringInit a) s = waits .counter) ∧
    (s.grp.count .sp = 0 → s.ringHeader (s.uni a) = none → exec (.ringInit a) s = fault) ∧
    (∀ r, s.Canonical → s.grp.count .sp = 0 → s.ringHeader (s.uni a) = some r →
      r.core = s.core.num ∧ r.off = (s.uni a).toNat ∧ r.slots = List.replicate (2 ^ r.log2n) {} ∧ ∃ t, exec (.ringInit a) s = .next t ∧
        RingSet done r (s.teamAddr r.core r.off) (leBytes (leNat (s.winLoad (s.uni a) 32) / 2 * 2 + 1) 32 ++ List.replicate (16 * r.slots.length) 0) s t) ∧
    ((∀ o ∈ s.grp.ops, o.id ∈ s.grp.before s.ent → o.todo = []) → v = s) ∧
    (s.team.ring? s.core.num (s.uni a).toNat = none → ∀ i ∈ [Instr.ringWait b a, .ringRel b a, .ringStat b a], exec i s = fault) ∧
    (∀ r, s.team.ring? s.core.num (s.uni a).toNat = some r →
      let j := (s.uni b).toNat % 2 ^ r.log2n
      let p : BitVec 16 := BitVec.ofNat 16 ((s.uni b).toNat / 2 ^ r.log2n)
      let x := r.slots.getD j {}
      let set (y : RingSlot) (t : State) : Prop := RingSet done { r with slots := putAt {} r.slots j y } (s.teamAddr r.core (r.off + 32 + 16 * j)) (leBytes y.bits 16) s t
      (s.Canonical → p = x.lap → x.state = .filled → ∃ t, exec (.ringWait b a) s = .next t ∧ set { x with state := .held } t) ∧
      (p = x.lap → (x.state = .held ∨ x.state = .poisoned) → exec (.ringWait b a) s = .next { s with ent := done }) ∧
      (p = x.lap → (x.state = .empty ∨ x.state = .filling) → exec (.ringWait b a) s = waits .ring) ∧
      (p ≠ x.lap → exec (.ringWait b a) s = if (p - x.lap).toNat < 2 ^ 15 then waits .ring else fault) ∧
      ((x.state = .empty ∨ x.state = .filling ∨ p ≠ x.lap) → exec (.ringRel b a) s = fault) ∧
      (v.Canonical → x.state ≠ .empty → x.state ≠ .filling → p = x.lap → ∃ t, exec (.ringRel b a) s = .next t ∧
        let y : RingSlot := if x.rels < r.cons then { x with rels := x.rels + 1 } else { x with state := .empty, rels := 0, lap := x.lap + 1 }
        RingSet (v.ent.dirty.finish (s.ent.pc + 4)) { r with slots := putAt {} r.slots j y } (v.teamAddr r.core (r.off + 32 + 16 * j)) (leBytes y.bits 16) v t) ∧
      ∃ t, exec (.ringStat b a) s = .next t ∧ PushFrame done s t ∧ PushResult none true 4 (fun _ k => BitVec.ofNat 32 (x.bits / 2 ^ (32 * k))) [] none s t)

/-- (R124, R133, R134, R176, R310) MQ.SEND reads its 64 bytes, once the entity's earlier scratchpad writes to them have been performed, and waits at the queue of a cluster core; a delivery stores them at the tail and returns to every lane
that waits for it the free entries left, or all ones where the queue is unclaimed, and a claimed queue that is full delivers nothing; RECV reads entries, a word with an uncorrectable
error as 0, POP removes them, and both claim the queue for their team, or trap
MQ_FAULT where another holds it.
Completes: mqSend, mqRecv, mqPop, mqDeliver. -/
def Obligations.MessageQueues : Prop :=
  ∀ (s : State) (q : BitVec 2) (a : BitVec 8) (d : BitVec 7), s.UniReady [a] [] →
    let done : Entity := s.ent.dirty.finish (s.ent.pc + 4)
    let fault (n : Nat) : Host.Outcome State Fault Refusal := .next (s.takeTrap (s.trapHere .mqFault (BitVec.ofNat 32 n)))
    let v := s.uni a
    let p := v.toNat / 2 ^ 24 % 8
    let c := s.core.num / 8 * 8 + p
    let m := (s.coreOf c).mq q.toNat
    let own := s.core.mq q.toNat
    let claimed : Mq := { own with owner := some s.team.serial, ownerCtx := if own.owner = none then s.team.ctx else own.ownerCtx }
    let present := (own.t - own.h).toNat
    let r := s.sendFrom (v &&& 0xFFFFFF)
    (v.toNat < 2 ^ 27 → s.grp.count .mq < 63 → (∃ k x, s.window (v &&& 0xFFFFFF) 64 64 = .ok k x) →
      (m.owner ≠ none → m.ownerCtx ≠ s.team.ctx → exec (.mqSend q a) s = fault (p * 4 + q.toNat)) ∧
      ((m.owner = none ∨ m.ownerCtx = s.team.ctx) → ∃ t, exec (.mqSend q a) s = .next t ∧
        t.grp.ops = r.grp.ops ++ [{ id := s.nextOp, path := some .mq, ent := s.ent.num, auto := false, fills := s.activeLanes.map fun i => ⟨.q i 0, 0⟩ }] ∧
        (∀ i < s.grp.width, (t.grp.lane i).q = if s.inL i then { tag := if s.active i then some (s.nextOp, 0) else none } :: (s.grp.lane i).q.take 15 else (s.grp.lane i).q) ∧
        (t.coreOf c).mq q.toNat = { m with sends := m.sends ++ [{ from_ := s.grp.loc, op := s.nextOp, ctx := s.team.ctx, bytes := r.winLoad (v &&& 0xFFFFFF) 64 }] } ∧
        (∀ k, t.spadOf k = r.spadOf k) ∧ t.ent = done ∧ t.dev = r.dev)) ∧
    ((∀ o ∈ s.grp.earlier s.ent, o.path = some .sp → o.todo = []) → r = s) ∧
    (∀ n, own.owner = some n → n ≠ s.team.serial → exec (.mqPop q a) s = fault q.toNat ∧
      (s.dBad d = false → s.pendingD s.activeLanes d = false → exec (.mqRecv q a d) s = fault q.toNat)) ∧
    ((own.owner = none ∨ own.owner = some s.team.serial) →
      (s.dBad d = false → s.pendingD s.activeLanes d = false → ∃ t, exec (.mqRecv q a d) s = .next t ∧
        (let k (i : Nat) : Nat := v.toNat + i / 16
         let at_ (i : Nat) : Nat := 491520 + 8192 * q.toNat + 64 * ((own.h.toNat + k i) % 128) + 4 * (i % 16)
         let bad (i : Nat) : Bool := decide (k i < present) && s.core.badSpad.any fun p => decide (at_ i ≤ p) && decide (p < at_ i + 4)
         PushResult (namedReg d) (!d.getLsbD 6) 1 (fun i _ => if k i < present ∧ bad i = false then BitVec.ofNat 32 (leNat (s.core.spad.readBytes (at_ i) 4)) else 0)
          ((s.activeLanes.filter bad).map fun i => (i, BitVec.ofNat 80 (at_ i))) none s t) ∧
        t = { s with ent := done, nextOp := t.nextOp, grp := { s.grp with lanes := t.grp.lanes, ops := t.grp.ops }, core := { s.core with mqs := t.core.mqs } } ∧
        t.core.mq q.toNat = claimed) ∧
      ∃ t, exec (.mqPop q a) s = .next t ∧ PushResult none true 1 (fun _ _ => BitVec.ofNat 32 (present - min v.toNat present)) [] none s t ∧
        t = { s with ent := done, nextOp := t.nextOp, grp := { s.grp with lanes := t.grp.lanes, ops := t.grp.ops }, core := { s.core with mqs := t.core.mqs } } ∧
        t.core.mq q.toNat = { claimed with h := own.h + BitVec.ofNat 16 (min v.toNat present) }) ∧
    (∀ (c n : Nat) (x : MqSend) (r : List MqSend), ((s.coreOf c).mq n).sends = x :: r →
      let m := (s.coreOf c).mq n
      let free := 128 - (m.t - m.h).toNat
      let returns (w : Word) (t : State) : Prop := ∀ g o, s.groupAt x.from_ = some g → g.ops.find? (fun y => y.id = x.op) = some o → ∃ u, t.groupAt x.from_ = some u ∧
        ∀ i, (u.lane i).q = (g.lane i).q.map fun e => if o.fills.any (fun f => match f.dest with | .q j k => decide (j = i ∧ e.tag = some (x.op, k)) | _ => false) then { val := w, tag := none } else e
      ((m.owner = none ∨ m.ownerCtx ≠ x.ctx) → ∃ t, exec (.mqDeliver c n) s = .next t ∧ t.dev.mem = s.dev.mem ∧ (t.coreOf c).mq n = { m with sends := r } ∧
        (∀ k, t.spadOf k = s.spadOf k) ∧ returns 0xFFFFFFFF t) ∧
      (m.owner ≠ none → m.ownerCtx = x.ctx → free = 0 → exec (.mqDeliver c n) s = .refused .notDue) ∧
      (m.owner ≠ none → m.ownerCtx = x.ctx → 0 < free → s.Canonical → ∃ t, exec (.mqDeliver c n) s = .next t ∧ t.dev.mem = s.dev.mem ∧
        (t.coreOf c).mq n = { m with t := m.t + 1, sends := r } ∧ SpadWritten c (491520 + 8192 * n + 64 * (m.t.toNat % 128)) x.bytes s t ∧
        returns (BitVec.ofNat 32 (free - 1)) t))

/-- (R135, R311) TAG.LOOK returns the slot of each lane's key in the context's entries of the core, all ones where there is none; SET replaces it, adds it
in a free way of the key's set, or removes it; CLR and INV remove entries. Each is counted on path SP and changes no register.
Completes: tagLook, tagSet, tagClr, tagInv. -/
def Obligations.TagTable : Prop :=
  ∀ (s : State) (a b : BitVec 8),
    let done : Entity := s.ent.dirty.finish (s.ent.pc + 4)
    let slot (l : List TagEntry) (k : BitVec 64) : Option Word := (l.find? fun e => e.ctx = s.team.ctx && e.key = k).map TagEntry.slot
    let frame (t : State) : Prop := t = { s with ent := done, nextOp := t.nextOp, grp := { s.grp with lanes := t.grp.lanes, ops := t.grp.ops }, core := { s.core with tags := t.core.tags } }
    (s.pairBad a = false → s.MemReady .sp none [a, codePlus a 1] →
      (∃ t, exec (.tagLook a) s = .next t ∧ frame t ∧ t.core.tags = s.core.tags ∧
        LoadResult .sp none true 1 (fun i _ => (slot s.core.tags (s.read64 a i)).getD 0xFFFFFFFF) [] [] s t) ∧
      (∃ t, exec (.tagClr a) s = .next t ∧ frame t ∧ t.grp.lanes = s.grp.lanes ∧ OpAdded .sp (fun _ => False) [] [] s t ∧
        ∀ e, e ∈ t.core.tags ↔ e ∈ s.core.tags ∧ ¬ (e.ctx = s.team.ctx ∧ ∃ i ∈ s.activeLanes, e.key = s.read64 a i))) ∧
    (s.pairBad a = false → s.srcBad b = false → s.MemReady .sp none [a, codePlus a 1, b] → ∃ t val, exec (.tagSet b a) s = .next t ∧ frame t ∧
      LoadResult .sp none true 1 val [] [] s t ∧
      ∀ i, s.activeLanes = [i] →
        let k := s.read64 a i
        let x := s.read b i
        let taken (w : Nat) : Prop := ∃ e ∈ s.core.tags, e.set = tagSet k ∧ e.way = w
        (x = 0xFFFFFFFF → val i 0 = x ∧ slot t.core.tags k = none) ∧
        (x ≠ 0xFFFFFFFF → (slot s.core.tags k ≠ none ∨ ∃ w < 4, ¬ taken w) → val i 0 = x ∧ slot t.core.tags k = some x) ∧
        (x ≠ 0xFFFFFFFF → slot s.core.tags k = none → (∀ w < 4, taken w) → val i 0 = 0xFFFFFFFF ∧ t.core.tags = s.core.tags) ∧
        ∀ k', k' ≠ k → slot t.core.tags k' = slot s.core.tags k') ∧
    (s.grp.count .sp < 63 → ∃ t, exec .tagInv s = .next t ∧ frame t ∧ t.grp.lanes = s.grp.lanes ∧ OpAdded .sp (fun _ => False) [] [] s t ∧
      ∀ e, e ∈ t.core.tags ↔ e ∈ s.core.tags ∧ e.ctx ≠ s.team.ctx)

/-! ## The Sluice (08_memory.md, 20_isa_memory.md) -/

/-- (R240, R307, R308) An XCOPY form traps STREAMER_RIGHTS in any group but the producer, then for a bad pair, target word, parameter or ring; otherwise it
counts on path XC and leaves its command last at the core's Sluice, with the pair, the descriptor's address and the named permutation
copied, and the accesses that must complete before it starts (R158): those before it on VM, SP, GA and MQ; the entity's own barrier registrations have reached their
slots (R305). Nothing else changes.
Completes: xcopyIn, xcopyOut, xcopyCommit, xcopyRows. -/
def Obligations.XcopyIssue : Prop :=
  ∀ (s : State) (k n : BitVec 4) (a : BitVec 8) (i : Instr) (form : CopyForm),
    (i, form) ∈ ([(.xcopyIn k n a, .cin), (.xcopyOut k n a, .cout), (.xcopyCommit k n a, .commit), (.xcopyRows k n a, .rows)] : List (Instr × CopyForm)) →
    let traps (c : TrapCode) (data : Word) : Prop := exec i s = .next (s.takeTrap (s.trapHere c data))
    let target := s.uni a
    let param := s.uni (codePlus a 1)
    let kind := target.toNat / 2 ^ 30
    let names : Prop := (form = .commit ∨ form = .rows) ∧ param.toNat % 8 < 4
    let ring := s.team.ring? s.core.num (target.toNat % 2 ^ 24)
    (s.team.producer ≠ some s.grp.gid → traps .streamerRights 0) ∧
    (s.team.producer = some s.grp.gid →
      (sPairBad a = true → traps .illegalOperand (BitVec.ofNat 32 (256 + a.toNat))) ∧
      (sPairBad a = false → s.pendingIn [] a = false → s.pendingIn [] (codePlus a 1) = false → s.grp.pendingDest (.b n.toNat) = false → s.grp.count .xc < 63 →
        (s.targetBad form target = true → traps .illegalOperand (BitVec.ofNat 32 (256 + a.toNat))) ∧
        (s.targetBad form target = false → paramBad form kind param = true → traps .illegalOperand 0x340) ∧
        (s.targetBad form target = false → paramBad form kind param = false →
          (kind = 0 → ring = none → traps .ringFault 0) ∧
          ((kind ≠ 0 ∨ ring ≠ none) →
            (names → (s.grp.perm (param.toNat % 8)).state = .invalid → traps .permInvalid 0) ∧
            (names → (s.grp.perm (param.toNat % 8)).state = .solving → exec i s = .next { s with ent := { s.ent with status := .waiting .perm } }) ∧
            ((¬ names ∨ (s.grp.perm (param.toNat % 8)).state = .valid) → ∃ u cmd, u = s.reachSlots ∧ exec i s = .next { u with
                ent := u.ent.dirty.finish (s.ent.pc + 4), nextOp := u.nextOp + 1
                grp := { u.grp with ops := u.grp.ops ++ [{ id := u.nextOp, path := some .xc, ent := u.ent.num, auto := false }] }
                core := { u.core with sluice := u.core.sluice ++ [cmd] } } ∧
              cmd = { id := u.nextOp, g := u.grp.loc, team := u.grp.team, op := u.nextOp, form, target, param, desc := u.breg n.toNat + BitVec.ofNat 80 (64 * k.toNat), perm := cmd.perm
                      width := u.grp.width, after := cmd.after } ∧
              (¬ names → cmd.perm = none) ∧ (names → cmd.perm = some (u.grp.perm (param.toNat % 8)).pos) ∧
              ∀ n, n ∈ cmd.after ↔ ∃ o ∈ u.grp.ops, o.id = n ∧ o.done = false ∧ (o.ent = u.ent.num ∨ o.id ∈ u.ent.prior) ∧ o.path ∈ [some .vm, some .sp, some .ga, some .mq])))))

/-- (R140, R141, R142, R143, R158, R177, R183) A command at the Sluice starts when it is its group's first and the accesses before it are done: its descriptor is read, once, a bad one
ends it BAD_DESC, a COMMIT's tail is read after it, from a page that holds it once that is resumed, and a ring's slot becomes FILLING; a chunk, in the groups' rotation, moves rows up to the next multiple of 32; a row of SFMT 0 to 2 moves
into the window as it stands; the end writes the status word, or delivers it to the slot or the barrier, and removes the command.
Completes: xcopyStart, sluiceChunk, xcopyEnd. -/
def Obligations.SluiceEvents : Prop :=
  ∀ (s t : State) (core cmd : Nat) (k : Copy), s.copyAt core cmd = some (t, k) → t.team.killed = false →
    let c := t.ctx t.team.ctx
    let kind := k.target.toNat / 2 ^ 30
    let off := k.target.toNat % 2 ^ 24
    let x : BitVec 512 := BitVec.ofNat 512 (leNat (t.gRead t.core.dtlb c t.arbour k.desc 64))
    let bad := { k with fields := x }.badDesc
    (k.started = false → k.described = false → k.err = 0 → k.held = [] → t.copyFirst k = true → t.copyWaits k = false → (kind = 1 → ∃ b o, t.barPlace (BitVec.ofNat 32 off) = some (b, o) ∧ t.team.barrier? b o ≠ none) →
      (kind ≠ 0 →
        (∀ e, t.gCheck t.core.dtlb c t.arbour { r := true } [(k.desc, 64)] = .err e → exec (.xcopyStart core cmd) s = .next (t.putCopy { k with begun := true, started := true, err := e })) ∧
        (t.gCheck t.core.dtlb c t.arbour { r := true } [(k.desc, 64)] = .ok → t.gPoisoned t.core.dtlb c t.arbour k.desc 64 = false →
          (bad = true → exec (.xcopyStart core cmd) s = .next (t.putCopy { k with fields := x, begun := true, started := true, err := 4 })) ∧
          (bad = false → k.form ≠ .commit → exec (.xcopyStart core cmd) s = .next (t.putCopy { k with fields := x, begun := true, started := true, err := 0 })) ∧
          (bad = false → k.form = .commit →
            let tail : VAddr := (copyDesc x).sscale
            (t.gCheck t.core.dtlb c t.arbour { r := true } [(tail, 8)] = .ok → t.gPoisoned t.core.dtlb c t.arbour tail 8 = false → exec (.xcopyStart core cmd) s =
              .next (t.putCopy { k with fields := x, begun := true, described := true, started := true, tail := BitVec.ofNat 64 (leNat (t.gRead t.core.dtlb c t.arbour tail 8)) })) ∧
            ∀ pages, t.gCheck t.core.dtlb c t.arbour { r := true } [(tail, 8)] = .held pages → exec (.xcopyStart core cmd) s =
              .next ((t.gSlots t.team.ctx t.arbour 16 pages).putCopy { k with fields := x, begun := true, described := true, held := pages.map Prod.fst })))) ∧
      (∀ r, kind = 0 → t.team.ring? t.core.num off = some r →
        let j := k.param.toNat % 2 ^ r.log2n
        let y := r.slots.getD j {}
        y.state = .empty → y.lap = BitVec.ofNat 16 (k.param.toNat / 2 ^ r.log2n) → t.gCheck t.core.dtlb c t.arbour { r := true } [(k.desc, 64)] = .ok → t.gPoisoned t.core.dtlb c t.arbour k.desc 64 = false →
        k.form ≠ .commit → ∃ u r', exec (.xcopyStart core cmd) s = .next u ∧ u.team.ring? t.core.num off = some r' ∧ r'.slots.getD j {} = { y with state := .filling } ∧
          u.core.sluice = t.core.sluice.map (fun z => if z.id = k.id then { k with fields := x, begun := true, started := true, err := if bad then 4 else 0 } else z) ∧ u.dev = t.dev)) ∧
    (k.started = false → k.described = true → k.begun = true → k.form = .commit → kind ≠ 0 → kind ≠ 1 → k.err = 0 → k.held = [] → t.copyFirst k = true → t.copyWaits k = false → k.badDesc = false →
      let tail : VAddr := (copyDesc k.fields).sscale
      t.gCheck t.core.dtlb c t.arbour { r := true } [(tail, 8)] = .ok → t.gPoisoned t.core.dtlb c t.arbour tail 8 = false →
      exec (.xcopyStart core cmd) s = .next (t.putCopy { k with started := true, tail := BitVec.ofNat 64 (leNat (t.gRead t.core.dtlb c t.arbour tail 8)) })) ∧
    (t.copyTurn k = false → exec (.sluiceChunk core cmd) s = .refused .notDue) ∧
    (k.started = true → k.err = 0 → k.held = [] → k.progress < k.total → t.copyFirst k = true → t.copyTurn k = true →
      t.remoteGate (t.gUses t.core.dtlb c t.arbour (k.rowRuns k.progress).1 (k.rowRuns k.progress).2) = none →
      (∃ u k', exec (.sluiceChunk core cmd) s = .next u ∧ u.core.served = k.g.part * 16 + k.g.slot ∧ u.core.sluice = t.core.sluice.map (fun z => if z.id = k.id then k' else z) ∧
        k.progress ≤ k'.progress ∧ k'.progress ≤ min k.total (k.progress + (32 - k.progress % 32)) ∧ k' = { k with progress := k'.progress, range := k'.range, err := k'.err, held := k'.held }) ∧
      (let d := copyDesc k.fields
       let row : VAddr := d.src + BitVec.ofNat 80 (k.progress * d.spitch)
       let n := sourceBytes d.sfmt d.cols
       ∀ cc p, s.Canonical → k.form = .cin → d.sfmt ≤ 2 → k.progress + 1 = k.total → t.copyWindow k d.dst (k.progress * d.dpitch) (d.cols * targetSize d.sfmt) = some (cc, p) →
        t.gCheck t.core.dtlb c t.arbour { r := true } [(row, n)] = .ok → t.remoteGate (t.gUses t.core.dtlb c t.arbour { r := true } [(row, n)]) = none →
        t.gPoisoned t.core.dtlb c t.arbour row n = false →
        ∃ u, exec (.sluiceChunk core cmd) s = .next u ∧ SpadWritten cc p (t.gRead t.core.dtlb c t.arbour row n) t u ∧ u.dev = t.dev ∧ CoresKept { t with core := { t.core with sluice := u.core.sluice, served := u.core.served } } u)) ∧
    (k.started = true → k.err = 0 → k.total ≤ k.progress → t.copyFirst k = true → k.form ≠ .commit →
      let status : BitVec 64 := BitVec.ofNat 64 (2 ^ 63 + (if k.range then 2 ^ 61 else 0) + k.progress)
      (∃ u, exec (.xcopyEnd core cmd) s = .next u ∧ (∀ z, z ∈ u.core.sluice ↔ z ∈ t.core.sluice ∧ z.id ≠ k.id) ∧ u.dev.mem = t.dev.mem) ∧
      (∀ cc p, s.Canonical → kind = 2 → t.window (BitVec.ofNat 32 off) 8 1 = .ok cc p → ∃ u, exec (.xcopyEnd core cmd) s = .next u ∧ SpadWritten cc p (leBytes status.toNat 8) t u) ∧
      (∀ r, kind = 0 → t.team.ring? t.core.num off = some r →
        let j := k.param.toNat % 2 ^ r.log2n
        let y := r.slots.getD j {}
        y.state = .filling → ∃ u r', exec (.xcopyEnd core cmd) s = .next u ∧ u.team.ring? t.core.num off = some r' ∧ r'.slots.getD j {} = { y with state := .filled, status := status }))

/-! ## Permutations (14_permutations.md, 22_isa_perm_order.md) -/

/-- (R219 to R224, R335 to R343) The solving forms check their list or build it, leave the register SOLVING and queue it at the Pergola, or wait for a place
there; SOLVE_DONE makes the oldest request's register VALID, with its settings; ID is VALID at once; INV, CMP, APPLY, CYC and PERM.ACC read a VALID register, wait for a
SOLVING one, and trap PERM_INVALID with TDATA and TLANES 0 at an INVALID one; a list that is no permutation traps it with the marked lanes and the missing values (R221);
ST's operation on path SP writes the image. Completes: permLd, permLdg, permId, permInv, permCmp, permRnd, permPack, permApply, permCyc, permAcc, permSt,
solveDone. -/
def Obligations.PermutationForms : Prop :=
  ∀ (s : State) (n m k : BitVec 2) (a : BitVec 8) (d : BitVec 7) (h : BitVec 3),
    let g := s.grp.width
    let perm (x : BitVec 2) : Perm := s.grp.perm x.toNat
    let room : Prop := s.core.pergola.length < 4
    let free : Prop := (perm n).state ≠ .solving
    let waits : Host.Outcome State Fault Refusal := .next { s with ent := { s.ent with status := .waiting .perm } }
    ((perm n).state = .solving → (∀ i ∈ [Instr.permId n, .permInv m n, .permCmp m n k], exec i s = waits) ∧
      (s.srcBad a = false → s.pendingIn s.ownLanes a = false → ∀ i ∈ [Instr.permLd n a, .permLdg n a], exec i s = waits) ∧ (s.UniReady [a] [] → exec (.permRnd n a) s = waits)) ∧
    (free → exec (.permId n) s = .next { s with ent := s.ent.finish (s.ent.pc + 4), grp := { s.grp with
      pm := putAt {} s.grp.pm n.toNat { state := .valid, pos := List.range g, settings := settingsOf (List.range g) } } }) ∧
    (free → room → s.srcBad a = false → s.pendingIn s.ownLanes a = false → (∀ j ∈ s.foreignLanes, s.filling a j = none) →
      IsPerm g ((List.range g).map fun j => (s.read a j).toNat) →
      (∃ t, exec (.permLd n a) s = .next t ∧ SolveQueued n.toNat ((List.range g).map fun j => (s.read a j).toNat) s t) ∧
      ∃ t pos, exec (.permLdg n a) s = .next t ∧ SolveQueued n.toNat pos s t ∧ ∀ j < g, pos.getD (s.read a j).toNat 0 = j) ∧
    (free → s.srcBad a = false → s.pendingIn s.ownLanes a = false →
      ∃ v : Nat → Word, (∀ j, s.Sees a j (v j)) ∧
        (IsPerm g ((List.range g).map fun j => (v j).toNat) → room →
          (∃ t, exec (.permLd n a) s = .next t ∧ SolveQueued n.toNat ((List.range g).map fun j => (v j).toNat) { s with fresh := t.fresh } t) ∧
          ∃ t pos, exec (.permLdg n a) s = .next t ∧ SolveQueued n.toNat pos { s with fresh := t.fresh } t ∧ ∀ j < g, pos.getD (v j).toNat 0 = j) ∧
        (g ≤ 64 → ¬ IsPerm g ((List.range g).map fun j => (v j).toNat) → ∀ i ∈ [Instr.permLd n a, .permLdg n a], ∃ t x, exec i s = .next (s.takeTrap t) ∧
          (let marked (j : Nat) : Prop := j < g ∧ (g ≤ (v j).toNat ∨ ∃ i < j, v i = v j)
           ∀ k < 32, x.getLsbD k = true ↔ (marked k ∨ marked (k + 32))) ∧ t = s.trapHere .permInvalid x (laneMask (fun p => decide (p < g) && !((List.range g).map fun j => (v j).toNat).contains p) 64))) ∧
    (free → s.UniReady [a] [] → room → ∃ t pos, exec (.permRnd n a) s = .next t ∧ SolveQueued n.toNat pos s t ∧ (0 < g → pos.Perm (List.range g))) ∧
    (free → (perm m).state = .valid → room →
      (∃ t pos, exec (.permInv m n) s = .next t ∧ SolveQueued n.toNat pos s t ∧ (IsPerm (perm m).pos.length (perm m).pos → ∀ j < (perm m).pos.length, pos.getD ((perm m).pos.getD j 0) 0 = j)) ∧
      ((perm k).state = .valid → ∃ t, exec (.permCmp m n k) s = .next t ∧ SolveQueued n.toNat ((perm k).pos.map fun j => (perm m).pos.getD j 0) s t)) ∧
    (free → s.pendingS 63 = false → room →
      let inC (j : Nat) : Bool := (s.predMask k.toNat).getLsbD j
      let rank (p : Nat → Bool) (j : Nat) : Nat := ((List.range j).filter p).length
      ∃ t u, exec (.permPack n k) s = .next t ∧ SolveQueued n.toNat ((List.range g).map fun j => if inC j then rank inC j else rank inC g + rank (fun i => !inC i) j) s u ∧
        t = { u with grp := t.grp } ∧ SWrites u [(63, BitVec.ofNat 32 (rank inC 64))] t ∧ t.grp = { u.grp with s := t.grp.s, hbank := t.grp.hbank }) ∧
    (let invalid : Host.Outcome State Fault Refusal := .next (s.takeTrap (s.trapHere .permInvalid))
     (free → (perm m).state = .invalid → exec (.permInv m n) s = invalid) ∧
     (free → (perm k).state ≠ .solving → (perm m).state ≠ .solving → ((perm k).state = .invalid ∨ (perm m).state = .invalid) → exec (.permCmp m n k) s = invalid) ∧
     (∀ q, s.grp.acc.getD h.toNat none = some q → ((perm n).state = .invalid → exec (.permAcc n h) s = invalid) ∧ ((perm n).state = .solving → exec (.permAcc n h) s = waits)) ∧
     (s.grp.acc.getD h.toNat none = none → exec (.permAcc n h) s = .next (s.takeTrap (s.trapHere .illegalOperand (BitVec.ofNat 32 (0x300 + h.toNat))))) ∧
     ((perm m).state = .solving → exec (.permInv m n) s = waits ∧ exec (.permCmp m n k) s = waits ∧ exec (.permCmp k n m) s = waits) ∧
     ((perm n).state = .solving → (s.CrossReady d a none → exec (.permApply n a d) s = waits) ∧ (s.Ready d [] → exec (.permCyc n d) s = waits))) ∧
    ((perm n).state = .invalid → (s.CrossReady d a none → exec (.permApply n a d) s = .next (s.takeTrap (s.trapHere .permInvalid))) ∧
      (s.Ready d [] → exec (.permCyc n d) s = .next (s.takeTrap (s.trapHere .permInvalid)))) ∧
    ((perm n).state = .valid →
      (s.CrossReady d a none → ∃ (t : State) (r v : Nat → Word), exec (.permApply n a d) s = .next t ∧ (∀ j, s.Sees a j (v j)) ∧ VecResult 4 d r 0 { s with fresh := t.fresh } t ∧
        (IsPerm g (perm n).pos → ∀ j < g, r ((perm n).pos.getD j 0) = v j)) ∧
      (s.Ready d [] → ∃ t r, exec (.permCyc n d) s = .next t ∧ VecResult 4 d (fun _ => r) 0 s t ∧
        (IsPerm g (perm n).pos → 0 < g → g ≤ 64 →
          let next (i : Nat) : Nat := (perm n).pos.getD i 0
          let cycles := ((List.range g).filter fun j => (List.range g).all fun k => decide (j ≤ next^[k] j)).length
          let fixed := ((List.range g).filter fun j => next j = j).length
          ∃ longest, (∃ j < g, 0 < longest ∧ next^[longest] j = j ∧ ∀ k, 0 < k → k < longest → next^[k] j ≠ j) ∧
            (∀ j < g, ∃ k, 0 < k ∧ k ≤ longest ∧ next^[k] j = j) ∧ r.toNat = longest * 2 ^ 24 + cycles * 2 ^ 16 + fixed * 2 ^ 8 + (g - cycles) % 2)) ∧
      (∀ q, s.grp.acc.getD h.toNat none = some q → (∀ m < g, (q.rows.getD m {}).bad = false) → ∃ t q', exec (.permAcc n h) s = .next t ∧
        (∀ x, t.grp.acc.getD x none = if x = h.toNat then some q' else s.grp.acc.getD x none) ∧ q'.bank = q.bank ∧ (IsPerm g (perm n).pos → ∀ j < g, q'.rows.getD ((perm n).pos.getD j 0) {} = q.rows.getD j {}) ∧
        t = { s with ent := s.ent.dirty.finish (s.ent.pc + 4), grp := { s.grp with acc := t.grp.acc } })) ∧
    (s.UniReady [a] [] → free → s.grp.count .sp < 63 → ∀ c p, s.window (s.uni a) 128 64 = .ok c p → s.window (s.uni a) 128 1 = .ok c p →
      ∃ t what, let todo := s.winTodo true 128 8 [(0, s.uni a)] what
        exec (.permSt n a) s = .next t ∧ OpAdded .sp (fun _ => False) [] todo s t ∧
        t = { s with ent := s.ent.dirty.finish (s.ent.pc + 4), nextOp := t.nextOp, grp := { s.grp with ops := t.grp.ops } } ∧
        ∀ op u, t.grp.ops = s.grp.ops ++ [op] → u.Performable op → u.Canonical → ∃ v, u.performAll op.id = some v ∧ Performs op (fun _ => 0) (fun _ => False) u v ∧
          v.dev = u.dev ∧ CoresKept u v ∧ SpadWritten c p (leBytes ((perm n).image g) 128) u v) ∧
    (∀ c l j r, (s.focusCore c).core.pergola = (l, j) :: r → ∃ u, exec (.solveDone c) s = .next u ∧ u.core.pergola = r ∧ u.dev = s.dev ∧
      (∀ x ∈ u.stowCore.groups, x.loc = l → (x.perm j).state ≠ .solving) ∧
      ∀ y ∈ (s.focusCore c).stowCore.groups, y.loc = l → (y.perm j).state = .solving → ∃ x ∈ u.stowCore.groups,
        x = { y with pm := putAt {} y.pm j { y.perm j with state := .valid, settings := settingsOf (y.perm j).pos } })

/-! ## Matrix instructions and accumulators (21_isa_matrix.md) -/

/-- (R315, R317, R319 to R324) MCFG sets the command words; ACT.LD will write the epilogue table and the FRAG forms the bytes of their window rows to a
run of registers, as those bytes stand where the accesses are performed, and 0 for what an uncorrectable error has met (notes/assumptions/5.md, notes/assumptions/11.md); FRAG
traps ACCESS_FAULT with the lanes and the first address outside the window, a row whose sum leaves the 23 bits of its window among them (notes/assumptions/30.md); MMA replaces each active row, and each element of an integer
K-step without an epilogue is the accumulator plus the exact sum of products; the malformed cases trap. Completes: mcfg, actLd, fragLda, fragLdb, fragLdas,
fragLdbs, mma. -/
def Obligations.MatrixForms : Prop :=
  ∀ (s : State) (a b : BitVec 8) (n : BitVec 4) (d : BitVec 7),
    let traps (c : TrapCode) (data : Nat) (lanes : Mask) (i : Instr) : Prop := exec i s = .next (s.takeTrap (s.trapHere c (BitVec.ofNat 32 data) lanes))
    (s.UniReady [a, b] [] →
      ((s.uni a).toNat < 2 ^ 24 → exec (.mcfg b a) s = .next { s with ent := s.ent.dirty.finish (s.ent.pc + 4), grp := { s.grp with mc := s.uni a, mc2 := s.uni b } }) ∧
      (2 ^ 24 ≤ (s.uni a).toNat → traps .illegalOperand (0x100 + a.toNat) 0 (.mcfg b a))) ∧
    (let va : VAddr := s.breg n.toNat + (s.uni b).setWidth 80
     let pa (m : Nat) : Nat := s.pa { r := true } (va + BitVec.ofNat 80 (8 * m))
     s.uniBad b = false → s.pendingIn [] b = false → s.grp.pendingDest (.b n.toNat) = false → s.grp.pendingDest (.epi 0) = false → s.grp.count .vm < 63 →
      s.Sendable { r := true } 64 8 true [⟨0, va, 768⟩] →
      ∃ t what, let todo := s.todoOf { r := true } true 8 [⟨0, va, 768⟩] what
        exec (.actLd b n) s = .next t ∧ MemFrame s.ent.dirty s t ∧ t.grp.lanes = s.grp.lanes ∧ OpAdded .vm (fun f => ∃ k < 192, f = ⟨.epi k, 0⟩) (s.usesOfTodo todo) todo s t ∧
        ∀ op u, t.grp.ops = s.grp.ops ++ [op] → u.Performable op → ∃ v, u.performAll op.id = some v ∧ MemoryKept u v ∧
          Performs op (fun y => match y with
              | .epi k => if u.poisonedAt (pa (k / 2)) 8 then 0 else BitVec.ofNat 80 (leNat (u.mem.readBytes (pa (k / 2) + 4 * (k % 2)) 4))
              | _ => 0) (fun y => ∃ m < 96, u.poisonedAt (pa m) 8 = true ∧ y = (64, va)) u v) ∧
    (let w := (s.uni a).toNat % 2 ^ 24
     let f := (s.uni a).toNat / 2 ^ 24
     let g := s.grp.width
     ∀ (i : Instr) (m align : Nat) (rows : Nat → List (Nat × Nat)), (i, m, align, rows) ∈ ([
      (.fragLda a d, 8, 32, fun i => [(i * (32 * max f 1), 32)]),
      (.fragLdb a d, 256 / g, 32, fun i => if g = 16 then [(2 * i * (32 * max f 1), 32), ((2 * i + 1) * (32 * max f 1), 32)] else if g = 32 then [(i * (32 * max f 1), 32)]
        else [(i / 2 * (32 * max f 1) + 16 * (i % 2), 16)]),
      (.fragLdas a d, 1, 1, fun i => [(i * (if f = 0 then 256 else f), 1)]),
      (.fragLdbs a d, 1, 1, fun i => let p := if f = 0 then 256 else f; if g = 16 then [(2 * i * p, 1), ((2 * i + 1) * p, 1)] else if g = 32 then [(i * p, 1)] else [(i / 2 * p, 1)])] :
        List (Instr × Nat × Nat × (Nat → List (Nat × Nat)))) →
      d.toNat < 0x3F → d.toNat + m ≤ s.grp.window → s.uniBad a = false → s.pendingIn [] a = false → s.grp.count .sp < 63 →
      (∀ i ∈ s.activeLanes, ∀ k < m, s.grp.pendingV i (d.toNat + k) = false) →
      (s.activeLanes ≠ [] → w % align ≠ 0 → exec i s = .next (s.takeTrap (s.trapHere .misalign 0 s.activeMask (BitVec.ofNat 80 w)))) ∧
      (w % align = 0 → (∀ i ∈ s.activeLanes, ∀ r ∈ rows i, w % 2 ^ 23 + r.1 < 2 ^ 23 ∧ ∃ c p, s.window (BitVec.ofNat 32 (w + r.1)) r.2 1 = .ok c p) →
        let place (r : Nat × Nat) : Option (Nat × Nat) := match s.window (BitVec.ofNat 32 (w + r.1)) r.2 1 with
          | .ok c p => some (c, p)
          | _ => none
        ∃ t todo, exec i s = .next t ∧ MemFrame s.ent s t ∧ t.core = s.core ∧ t.dev = s.dev ∧ LoadResult .sp (some d.toNat) false m (fun _ _ => 0) [] todo s t ∧
          (∀ x ∈ todo, ∃ ps, x.what = .load ps) ∧
          ∀ op u, t.grp.ops = s.grp.ops ++ [op] → u.Performable op → ∃ v, u.performAll op.id = some v ∧ MemoryKept u v ∧
            let hurt (r : Nat × Nat) (m : Nat) : Bool := decide (8 * m < r.2) && (place r).any fun (c, p) => u.spadBad c (p + 8 * m) (min 8 (r.2 - 8 * m))
            let lost (i k : Nat) : Bool := (rows i).zipIdx.any fun (r, j) => (List.range 4).any fun m =>
              hurt r m && decide (j * r.2 + 8 * m < 4 * k + 4) && decide (4 * k < j * r.2 + 8 * m + min 8 (r.2 - 8 * m))
            let bytes (i : Nat) : List Byte := (rows i).flatMap fun r => ((place r).map fun (c, p) => (u.spadOf c).readBytes p r.2).getD []
            Performs op (laneResults d.toNat fun i k => if lost i k then 0 else BitVec.ofNat 80 (leNat (((bytes i).drop (4 * k)).take 4)))
              (fun y => ∃ i ∈ s.activeLanes, ∃ r ∈ rows i, ∃ m, hurt r m = true ∧ y = (i, BitVec.ofNat 80 (w + r.1))) u v) ∧
      (w % align = 0 →
        let out (r : Nat × Nat) : Prop := 2 ^ 23 ≤ w % 2 ^ 23 + r.1 ∨ ∀ c p, s.window (BitVec.ofNat 32 (w + r.1)) r.2 1 ≠ .ok c p
        (∃ i ∈ s.activeLanes, ∃ r ∈ rows i, out r) → ∃ lanes r, exec i s = .next (s.takeTrap (s.trapHere .accessFault 0 lanes (BitVec.ofNat 80 (w + r.1)))) ∧
          out r ∧ r ∈ s.activeLanes.flatMap rows ∧ ∀ j < 64, lanes.getLsbD j = true ↔ j ∈ s.activeLanes ∧ ∃ r ∈ rows j, out r)) ∧
    (let mc := s.grp.mc
     let h := mc.toNat % 8
     (mkind mc = none → traps .illegalOperand 0x310 0 (.mma b a)) ∧
     (mkind mc ≠ none → s.grp.acc.getD h none = none → traps .illegalOperand (0x300 + h) 0 (.mma b a)) ∧
     ∀ kind k, mkind mc = some kind → s.grp.acc.getD h none = some k →
      let x := if kind = .b8 then 1 else 0
      let zero := mc.getLsbD 13
      let poisoned (m : Nat) : Bool := s.active m && (k.rows.getD m {}).poison
      a.toNat < 0x3F → a.toNat + 8 + x ≤ s.grp.window → b.toNat < 0x3F → b.toNat + 256 / s.grp.width + x ≤ s.grp.window →
      (∀ i < s.grp.width, (∀ j < 8 + x, s.grp.pendingV i (a.toNat + j) = false) ∧ ∀ j < 256 / s.grp.width + x, s.grp.pendingV i (b.toNat + j) = false) →
      ((mc.getLsbD 14 || mc.getLsbD 15) = true → s.grp.pendingDest (.epi 0) = false) →
      (zero = false → (∃ m < s.grp.width, poisoned m = true) → traps .dataPoison h (laneMask poisoned s.grp.width) (.mma b a)) ∧
      ((zero = true ∨ ∀ m < s.grp.width, s.active m = true → (k.rows.getD m {}).poison = false ∧ (k.rows.getD m {}).bad = false) →
        let old (m c : Nat) : Word := if zero then 0 else (k.rows.getD m {}).elems.getD c 0
        ∃ t k', exec (.mma b a) s = .next t ∧ t = { s with ent := s.ent.dirty.finish (s.ent.pc + 4), grp := { s.grp with acc := t.grp.acc } } ∧
          t.grp.acc.getD h none = some k' ∧ k'.bank = k.bank ∧ (∀ j, j ≠ h → t.grp.acc.getD j none = s.grp.acc.getD j none) ∧
          ∀ m < s.grp.width,
            (s.active m = false → k'.rows.getD m {} = k.rows.getD m {}) ∧
            (s.active m = true → (k'.rows.getD m {}).poison = false ∧
              (kind ≠ .int → fieldOf mc.toNat 19 5 = 0 → let was := if zero then ({} : AccRow) else k.rows.getD m {}
                let now := k'.rows.getD m {}
                now.sat = was.sat ∧ (now.inf = true ↔ was.inf = true ∨ ∃ c < 32, ∃ neg, f32 (now.elems.getD c 0).toNat = .inf neg) ∧
                  (now.nan = true ↔ was.nan = true ∨ ∃ c < 32, (f32 (now.elems.getD c 0).toNat).isNan = true)) ∧ ∀ c < 32,
              let e : Word := (k'.rows.getD m {}).elems.getD c 0
              let value (terms : List Machine.Num) : Word := (encode32 mc (epilogue mc s.grp.mc2 s.grp.epi c (sumExact (f32 (old m c).toNat :: terms)))).w
              (kind = .int → mc.getLsbD 14 = false → mc.getLsbD 15 = false → mc.getLsbD 16 = false → fieldOf mc.toNat 19 5 = 0 →
                e = old m c + BitVec.ofInt 32 ((List.range 32).map fun j =>
                  int8 (fieldOf mc.toNat 3 5) (s.grp.fragByte m a.toNat j) * int8 (fieldOf mc.toNat 8 5) (s.grp.fragByte (bPlace s.grp.width 1 j c).1 b.toNat (bPlace s.grp.width 1 j c).2)).sum) ∧
              (∀ q, kind = .half q → e = value ((List.range 16).map fun j => Machine.Num.mulExact 0 (s.mmaA kind mc a.toNat m j) (s.mmaB kind mc b.toNat j c))) ∧
              (kind = .single → e = value ((List.range 8).map fun j => Machine.Num.mulExact 0 (s.mmaA kind mc a.toNat m j) (s.mmaB kind mc b.toNat j c))) ∧
              (kind = .b8 →
                let sa := s.grp.fragByte m (a.toNat + 8) 0
                let sb := s.grp.fragByte (bScale s.grp.width c).1 (b.toNat + 256 / s.grp.width) (bScale s.grp.width c).2
                e = if sa = 255 ∨ sb = 255 then (encode32 mc (epilogue mc s.grp.mc2 s.grp.epi c 0x7FC00000)).w
                  else value ((List.range 32).map fun j => Machine.Num.mulExact ((sa : Int) + sb - 254) (s.mmaA kind mc a.toNat m j) (s.mmaB kind mc b.toNat j c))))))

/-- (R122, R123, R327, R328, R330, R331) ACC.ALLOC binds a handle to free banks or waits, where a group of 64 lanes takes two consecutive ones, which is the
model's reading (notes/assumptions/20.md); what a row that meets its error holds and gives is its choice (notes/assumptions/31.md); ACC.FREE gives its banks up; the other forms read or replace the active
rows of a bound handle, and trap DATA_POISON on a poisoned one; a row whose error is met becomes poisoned, with a DATA_POISON trap at the entity's next
boundary; an unbound handle traps. TREEMASK walks the parents. The banks' events free or withhold them; ACC_STARVE traps the youngest group. Completes:
accAlloc, accFree, accZero, accRd, accWr, accMask, accRowmax, accRowsum, accRowscl, treemask, bankZeroDone, bankScrubDone, accStarve. -/
def Obligations.AccumulatorForms : Prop :=
  ∀ (s : State) (h : BitVec 3) (a : BitVec 8) (d : BitVec 7),
    let done : Entity := s.ent.dirty.finish (s.ent.pc + 4)
    let traps (c : TrapCode) (data : Nat) (lanes : Mask) (i : Instr) : Prop := exec i s = .next (s.takeTrap (s.trapHere c (BitVec.ofNat 32 data) lanes))
    let part := s.grp.loc.part
    let n := if s.grp.width = 64 then 2 else 1
    let others (t : State) : Prop := ∀ j, j ≠ h.toNat → t.grp.acc.getD j none = s.grp.acc.getD j none
    let free (k : Nat) : Prop := k + n ≤ 16 ∧ ∀ j < n, ∀ x ∈ s.core.banks, ¬ (x.part = part ∧ x.bank = k + j)
    (s.grp.acc.getD h.toNat none = none →
      ((∃ k, free k) → ∃ t k, exec (.accAlloc h) s = .next t ∧ free k ∧ others t ∧
        t.grp.acc.getD h.toNat none = some { bank := k, rows := List.replicate s.grp.width { elems := List.replicate 32 0 } } ∧
        t = { s with ent := done, grp := { s.grp with acc := t.grp.acc }, core := { s.core with banks := (List.range n).map (fun j => { part, bank := k + j, state := .owned }) ++ s.core.banks } }) ∧
      ((∀ k, ¬ free k) → exec (.accAlloc h) s = .next { s with ent := { s.ent with status := .waiting .acc } }) ∧
      ∀ i ∈ ([.accFree h, .accZero h] : List Instr), traps .illegalOperand (0x300 + h.toNat) 0 i) ∧
    (∀ k, s.grp.acc.getD h.toNat none = some k →
      let row (m : Nat) : AccRow := k.rows.getD m {}
      let poisoned (m : Nat) : Bool := s.active m && (row m).poison
      let clean : Prop := ∀ m < s.grp.width, s.active m = true → (row m).poison = false ∧ (row m).bad = false
      let spoilt (i : Instr) : Prop := (∃ m < s.grp.width, poisoned m = true) → traps .dataPoison h.toNat (laneMask poisoned s.grp.width) i
      let rowsTo (i : Instr) (f : Nat → AccRow) : Prop := ∃ t k', exec i s = .next t ∧ t = { s with ent := done, grp := { s.grp with acc := t.grp.acc } } ∧ others t ∧
        t.grp.acc.getD h.toNat none = some k' ∧ k'.bank = k.bank ∧ ∀ m < s.grp.width, k'.rows.getD m {} = if s.active m then f m else row m
      let reads (i : Instr) (f : AccRow → Word) : Prop := ∃ t, exec i s = .next t ∧ VecResult 4 d (fun m => f (row m)) 0 s.dirty t
      traps .illegalOperand (0x300 + h.toNat) 0 (.accAlloc h) ∧
      (∃ t, exec (.accFree h) s = .next t ∧ others t ∧ t.grp.acc.getD h.toNat none = none ∧
        t = { s with ent := done, grp := { s.grp with acc := t.grp.acc }, core := { s.core with banks := t.core.banks } } ∧
        ∀ x, x ∈ t.core.banks ↔ (x ∈ s.core.banks ∧ ¬ (x.part = part ∧ ∃ j < n, x.bank = k.bank + j)) ∨
          ∃ j < n, x = { part, bank := k.bank + j, state := if ((k.rows.drop (32 * j)).take 32).any AccRow.poison then .poisoned else .zeroing }) ∧
      rowsTo (.accZero h) (fun _ => { elems := List.replicate 32 0 }) ∧
      (let c := (s.uni a).toNat
       s.dBad d = false → s.uniBad a = false → s.pendingIn [] a = false → s.pendingD s.activeLanes d = false →
        (32 < c → traps .illegalOperand 0x320 0 (.accRd h a d)) ∧
        (c = 32 → reads (.accRd h a d) fun r => BitVec.ofNat 32 (r.sat.toNat * 8 + r.inf.toNat * 4 + r.nan.toNat * 2 + r.poison.toNat)) ∧
        (c < 32 → spoilt (.accRd h a d) ∧ (clean → reads (.accRd h a d) fun r => r.elems.getD c 0))) ∧
      (let c := (s.uni a).toNat
       s.uniBad a = false → s.pendingIn [] a = false → s.pendingIn s.activeLanes 0x40 = false →
        (32 ≤ c → traps .illegalOperand 0x320 0 (.accWr h a)) ∧
        (c < 32 → spoilt (.accWr h a) ∧ (clean → rowsTo (.accWr h a) fun m => { row m with elems := putAt 0 (row m).elems c (s.read 0x40 m) }))) ∧
      (s.srcBad a = false → s.pendingIn s.activeLanes a = false →
        spoilt (.accMask h a) ∧ spoilt (.accRowscl h a) ∧
        (clean → rowsTo (.accMask h a) fun m => { row m with
          elems := (List.range 32).map fun c => if (s.read a m).getLsbD c then (row m).elems.getD c 0 else 0xFF800000
          inf := (row m).inf || decide (s.read a m ≠ 0xFFFFFFFF) }) ∧
        (clean → rowsTo (.accRowscl h a) fun m =>
          let v (e : Word) : Nat := (fp32.mul .rne false (f32 e.toNat) (f32 (s.read a m).toNat)).1
          { row m with
            elems := (row m).elems.map fun e => BitVec.ofNat 32 (v e)
            inf := (row m).inf || (row m).elems.any fun e => match f32 (v e) with | .inf _ => true | _ => false
            nan := (row m).nan || (row m).elems.any fun e => (f32 (v e)).isNan })) ∧
      (s.dBad d = false → s.pendingD s.activeLanes d = false →
        spoilt (.accRowmax h d) ∧ spoilt (.accRowsum h d) ∧
        (clean → reads (.accRowmax h d) fun r => BitVec.ofNat 32 (r.elems.foldl (fun x e => (fp32.minmax true false x e.toNat).1) 0x7FC00000)) ∧
        (clean → reads (.accRowsum h d) fun r => BitVec.ofNat 32 (sumExact (r.elems.map fun e => f32 e.toNat)))) ∧
      ((∀ m < s.grp.width, poisoned m = false) →
        let bad (m : Nat) : Bool := s.activeLanes.contains m && (row m).bad
        (∃ m < s.grp.width, bad m = true) →
        let meets (i : Instr) (writes : Bool) : Prop := ∃ t k', exec i s = .next t ∧ t.grp.acc.getD h.toNat none = some k' ∧ k'.bank = k.bank ∧
          t.ent = ({ s.ent with deferred := s.ent.deferred ++ [{ code := .dataPoison, lanes := laneMask bad 64, data := BitVec.ofNat 32 h.toNat }] } : Entity).dirty.finish (s.ent.pc + 4) ∧
          ∀ m < s.grp.width, bad m = true → let r := k'.rows.getD m {}
            r.poison = true ∧ r.bad = false ∧ (writes = true → r.nan = true) ∧ ∀ c < 32, r.elems.getD c 0 = if writes then 0x7FC00000 else (row m).elems.getD c 0
        (s.dBad d = false → s.pendingD s.activeLanes d = false → meets (.accRowmax h d) false ∧ meets (.accRowsum h d) false) ∧
        (s.srcBad a = false → s.pendingIn s.activeLanes a = false → meets (.accRowscl h a) true))) ∧
    (∀ half : BitVec 1, s.CrossReady d a none → ∃ (t : State) (val : Nat → Nat → Word) (v : Nat → Word) (m : Nat → Mask), exec (.treemask half a d) s = .next t ∧ PushFrame done { s with fresh := t.fresh } t ∧
      PushResult (namedReg d) (!d.getLsbD 6) 1 val [] none s t ∧ (∀ j, s.Sees a j (v j)) ∧ (∀ i : Nat, val i 0 = if half = 0 then (m i).setWidth 32 else (m i >>> 32).setWidth 32) ∧
      ∀ i < 64, ∀ k < 64, (m i).getLsbD k = (decide (k = i) || (decide ((v i).toNat < i) && (m (v i).toNat).getLsbD k))) ∧
    (∀ core p bank : Nat, let t := s.focusCore core
      (⟨p, bank, .zeroing⟩ ∈ t.core.banks → exec (.bankZeroDone core p bank) s = .next { t with core := { t.core with banks := t.core.banks.filter fun x => x ≠ ⟨p, bank, .zeroing⟩ } }) ∧
      (⟨p, bank, .poisoned⟩ ∈ t.core.banks → ∀ pass, exec (.bankScrubDone core p bank pass) s = .next { t with core := { t.core with
        banks := (if pass then [] else [⟨p, bank, .withheld⟩]) ++ t.core.banks.filter fun x => x ≠ ⟨p, bank, .poisoned⟩ } })) ∧
    (∀ (core p : Nat) (g : Group) (e : Entity) (u : State), let t := s.focusCore core
      let gs := (t.partGroups p).filter fun x => x.agent = false
      g ∈ gs → g.gstate = .ready → e ∈ g.sibs → e.live = true → e.num < 32 → (∀ x ∈ gs, x.gstate ≠ .trapped) →
      (∀ x ∈ gs, x.gstate = .ready → (x = g ∨ x.age < g.age) ∧ ∀ y ∈ x.sibs, y.live = true → y.status = .waiting .acc) → (∀ y ∈ g.sibs, y.live = true → e.num ≤ y.num) →
      t.focus g.loc e.num = some u → exec (.accStarve core p) s = .next (u.takeTrap (u.trapHere .accStarve)))

/-! ## Ordered sections (13_sections.md, 22_isa_perm_order.md) -/

/-- (R208 to R215, R345 to R349) ENTER and TRY admit the group whose sequence is the key's, turn away a passed one, and wait or return for one that is ahead or a key that is
held; WAIT waits for its sequence; INIT sets an unheld key; LEAVE and LEAVEV end the section of a held key and admit the next in sequence; QUERY
reads. A status is pushed as a load's result is, and orders what follows it (notes/assumptions/19.md). An entity that waits goes on with its wait. The errors trap, a wait past
the limit traps ORD_TIMEOUT, and the key of a holder that is gone or has exited advances ABANDONED, or is ABSENT with its draw (R205). What waits at a key needs its entry, which
QUERY then gives as IDLE (notes/assumptions/16.md). Completes: ordInit, ordEnter, ordTry, ordWait, ordLeave, ordLeavev, ordQuery, ordTimeout, keyAbandon. -/
def Obligations.OrderedSections : Prop :=
  ∀ (s : State) (a b : BitVec 8) (lane : Nat) (l : List Nat),
    let done : Entity := s.ent.dirty.finish (s.ent.pc + 4)
    let traps (c : TrapCode) (data : Word) (i : Instr) : Prop := exec i s = .next (s.takeTrap (s.trapHere c data))
    let ctx := s.team.ctx
    let key := s.read64 a lane
    let q := s.read b lane
    let k := s.keyAt ctx key
    let word (outcome : Nat) (k : Key) : Word := BitVec.ofNat 32 (outcome * 2 ^ 30 + k.abandoned.toNat * 2 ^ 29 + k.spilled.toNat * 2 ^ 28)
    let pushes (st : Word) (i : Instr) : Prop := ∃ t, exec i s = .next t ∧ PushFrame done s t ∧ PushResult none true 1 (fun _ _ => st) [] (some (decide (i ≠ .ordTry b a))) s t
    let needed (x : Key) : Prop := x.n ≠ 0 ∨ x.holder ≠ none ∨ x.abandoned = true ∨ x.waiters ≠ []
    let room : Prop := (∃ x, s.key? ctx key = some x ∧ needed x) ∨
      ∀ l : List Key, l.Sublist s.dev.keys → (∀ x ∈ l, needed x ∧ x.spilled = false ∧ keyHome x.key = keyHome key) → l.length < 65536
    let full : Prop := ¬ room ∧ s.overflowSlot (s.ctx ctx) key = none
    let waiting : Prop := ∃ x ∈ s.dev.keys, x.waits s.grp.loc s.ent = true
    let fresh : Prop := s.ent.wd.ordGrant = none ∧ ¬ waiting
    let keySet (k' : Key) (t : State) : Prop := t.keyAt ctx key = k' ∧ ∀ c x, ¬ (c = ctx ∧ x = key) → t.keyAt c x = s.keyAt c x
    let reached : Prop := (k.n - q).toNat < 2 ^ 31
    let ahead : Prop := q ≠ k.n ∧ (q - k.n).toNat < 2 ^ 31
    (s.activeLanes = [] → s.pairBad a = false → s.srcBad b = false → (∀ i ∈ [Instr.ordInit b a, .ordTry b a, .ordLeave b a, .ordLeavev b a, .ordQuery a], traps .illegalOperand 0x330 i) ∧
      (fresh → traps .illegalOperand 0x330 (.ordEnter b a) ∧ traps .illegalOperand 0x330 (.ordWait b a))) ∧
    (∀ i ∈ [Instr.ordEnter b a, .ordWait b a],
      (s.ent.wd.ordGrant = none → waiting → exec i s = .next { s with ent := { s.ent with status := .waiting .order } }) ∧
      ∀ st, s.ent.wd.ordGrant = some st → (fieldOf st.toNat 30 2 = 3 → traps .ordNest 0 i) ∧ (fieldOf st.toNat 30 2 ≠ 3 → pushes st i)) ∧
    (s.activeLanes = lane :: l → s.pairBad a = false → s.srcBad b = false → (∀ c ∈ [a, codePlus a 1, b], s.pendingIn [lane] c = false) →
      (fresh →
        let waits (enter : Bool) (i : Instr) : Prop := ∃ t, exec i s = .next t ∧ keySet { k with waiters := k.waiters ++ [{ g := s.grp.loc, ent := s.ent.num, seq := q, enter, since := s.dev.tick, handler := s.ent.handling }] } t ∧
          t = { s with ent := { s.ent.dirty with status := .waiting .order }, dev := { s.dev with keys := t.dev.keys } }
        let chain : Prop := ∃ h, k.holder = some h ∧ s.probe s.grp.loc 9 [h] = true
        ((s.holds key).isSome = true → traps .ordDeadlock 0 (.ordEnter b a)) ∧
        (∀ i, (i = .ordTry b a ∨ (i = .ordEnter b a ∧ s.holds key = none)) →
          (4 ≤ s.grp.keys.length → traps .ordNest 0 i) ∧
          (s.grp.keys.length < 4 →
            (q ≠ k.n → ¬ ahead → pushes (word 2 k) i) ∧
            (q = k.n → k.holder = none → room → ∃ t, exec i s = .next t ∧ keySet { k with holder := some s.grp.loc } t ∧
              let s' : State := { s with grp := { s.grp with keys := { key, seq := q } :: s.grp.keys }, dev := { s.dev with keys := t.dev.keys } }
              PushFrame done s' t ∧ PushResult none true 1 (fun _ _ => word 0 k) [] (some (decide (i ≠ .ordTry b a))) s' t) ∧
            (q = k.n → k.holder = none → full → traps .ordCapacity 0 i) ∧
            (ahead ∨ (q = k.n ∧ k.holder ≠ none) → i = .ordTry b a → pushes (word 1 k) i) ∧
            (ahead ∨ (q = k.n ∧ k.holder ≠ none) → i = .ordEnter b a → room → (chain → traps .ordDeadlock 1 i) ∧ (¬ chain → waits true i)) ∧
            (ahead → i = .ordEnter b a → full → traps .ordCapacity 0 i))) ∧
        (reached → pushes (word 0 k) (.ordWait b a)) ∧
        (¬ reached → (room → waits false (.ordWait b a)) ∧ (full → traps .ordCapacity 0 (.ordWait b a)))) ∧
      (k.holder ≠ none → ∃ t, exec (.ordInit b a) s = .next t ∧ PushFrame done s t ∧ PushResult none true 1 (fun _ _ => word 1 k) [] none s t) ∧
      (k.holder = none → k.waiters = [] → k.skips = [] → k.spilled = false → room → ∃ t, exec (.ordInit b a) s = .next t ∧ (t.keyAt ctx key).n = q ∧ (t.keyAt ctx key).holder = none ∧
        (t.keyAt ctx key).abandoned = false ∧ (∀ c x, ¬ (c = ctx ∧ x = key) → t.keyAt c x = s.keyAt c x) ∧ PushFrame done { s with dev := { s.dev with keys := t.dev.keys } } t ∧
        PushResult none true 1 (fun _ _ => word 0 { k with abandoned := false }) [] none s t) ∧
      (s.holds key = none → traps .ordNest 1 (.ordLeave b a) ∧ traps .ordNest 1 (.ordLeavev b a)) ∧
      (∀ h, s.holds key = some h →
        let drained : Prop := (∀ y ∈ [Path.vm, .sp, .ga, .mq], s.grp.count y = 0) ∧ ∀ o ∈ s.grp.ops, o.sout = true → o.done = true
        (h.seq ≠ q → traps .ordNest 1 (.ordLeave b a)) ∧
        ∀ i n flag, ((i = .ordLeave b a ∧ h.seq = q ∧ n = q + 1 ∧ flag = k.abandoned) ∨ (i = .ordLeavev b a ∧ n = q ∧ flag = false)) →
          (¬ drained → exec i s = .next { s with ent := { s.ent with status := .waiting .counter } }) ∧
          (drained → k.skips = [] → k.spilled = false →
            (k.waiters = [] → ∃ t, exec i s = .next t ∧ (t.keyAt ctx key).n = n ∧ (t.keyAt ctx key).holder = none ∧ (t.keyAt ctx key).abandoned = flag ∧
              (∀ c x, ¬ (c = ctx ∧ x = key) → t.keyAt c x = s.keyAt c x) ∧
              t = { s with
                ent := done, dev := { s.dev with keys := t.dev.keys, draws := t.dev.draws }
                grp := { s.grp with keys := s.grp.keys.filter fun x => x ≠ h, rast := t.grp.rast } } ∧
              (s.grp.rast = none → t.dev.draws = s.dev.draws ∧ t.grp.rast = none) ∧
              ∀ j, s.grp.rast = some j →
                (key = BitVec.ofNat 64 (j.draw * 2 ^ 32 + j.unit) → t.grp.rast = some { j with left := true } ∧ t.dev.draws = s.dev.draws.map fun w => if w.id ≠ BitVec.ofNat 32 j.draw then w else
                  { w with jobs := w.jobs.map fun y => if y.unit = j.unit ∧ y.batch = j.batch then { y with committed := true } else y }) ∧
                (key ≠ BitVec.ofNat 64 (j.draw * 2 ^ 32 + j.unit) → t.grp.rast = some j ∧ t.dev.draws = s.dev.draws)) ∧
            (∀ w, k.waiters = [w] → w.enter = true → w.seq = n →
              let told (outcome : Nat) (t : State) : Prop := w.g ≠ s.grp.loc → ∀ g ∈ t.allGroups, g.loc = w.g → (outcome = 0 → { key, seq := n } ∈ g.keys) ∧
                ∀ e ∈ g.sibs, e.num = w.ent → e.handling = w.handler → e.wd.ordGrant = some (word outcome { k with abandoned := flag })
              ((∀ g ∈ s.allGroups, g.loc = w.g → g.keys.length < 4) →
                ∃ t, exec i s = .next t ∧ (t.keyAt ctx key).n = n ∧ (t.keyAt ctx key).holder = some w.g ∧ (t.keyAt ctx key).waiters = [] ∧ told 0 t) ∧
              ((∃ g ∈ s.allGroups, g.loc = w.g ∧ 4 ≤ g.keys.length) → w.g ≠ s.grp.loc →
                ∃ t, exec i s = .next t ∧ (t.keyAt ctx key).n = n ∧ (t.keyAt ctx key).holder = none ∧ (t.keyAt ctx key).waiters = [] ∧ told 3 t)))) ∧
      ∃ t, exec (.ordQuery a) s = .next t ∧ PushFrame done s t ∧ PushResult none true 2 (fun _ j => if j = 0 then k.n else
        word (if k.holder ≠ none then 2 else if k.n ≠ 0 ∨ k.abandoned = true ∨ k.waiters ≠ [] then 1 else 0) k
          + BitVec.ofNat 32 ((if (s.holds key).isSome then 2 ^ 27 else 0) + min 63 k.waiters.length)) [] none s t) ∧
    (∀ (g : GLoc) (e : Nat) (t : State) (w : Waiter), s.focus g e = some t → t.ent.status = .waiting .order → (t.ctx t.team.ctx).state = .resident →
      (∃ x ∈ t.dev.keys, w ∈ x.waiters) → w.g = g → w.ent = e → w.handler = t.ent.handling → (∀ x ∈ t.dev.keys, ∀ y ∈ x.waiters, y.g = g → y.ent = e → y = w) →
      w.since + ((t.ctx t.team.ctx).ordLimit - t.ent.wd.ordTicks) ≤ t.dev.tick →
      ∃ u : State, exec (.ordTimeout g e) s = .next (u.takeTrap (u.trapHere .ordTimeout w.seq)) ∧ (∀ x ∈ u.dev.keys, ∀ y ∈ x.waiters, ¬ (y.g = g ∧ y.ent = e)) ∧
        ((∀ x ∈ t.dev.keys, x.spilled = false) → u.dev.mem = t.dev.mem ∧ u.dev.poison = t.dev.poison) ∧
        u = { t with ent := { t.ent with wd := {} }, dev := { t.dev with keys := u.dev.keys, mem := u.dev.mem, poison := u.dev.poison } }) ∧
    (∀ (c : Nat) (x : BitVec 64) (y : Key) (g : GLoc), s.key? c x = some y → y.holder = some g →
      (∀ z ∈ (s.ctx c).saved, ∀ w ∈ z.groups, ¬ (w.loc = g ∧ ∃ v ∈ w.keys, v.key = x)) → y.waiters = [] → y.skips = [] →
      let holds (z : Group) : Prop := z.loc = g ∧ ∃ w ∈ z.keys, w.key = x
      let gone (t : State) : Prop := exec (.keyAbandon c x) s = .next t ∧ (t.keyAt c x).n = y.n + 1 ∧ (t.keyAt c x).holder = none ∧ (t.keyAt c x).abandoned = true
      ((∀ z ∈ s.allGroups, ¬ holds z) → ∃ t, gone t ∧ t = { s with dev := { s.dev with keys := t.dev.keys } }) ∧
      ((∃ z ∈ s.allGroups, holds z ∧ ∃ w ∈ s.allTeams, w.serial = z.team ∧ w.ctx = c) → ∀ u, s.focusGroup g = some u → u.grp.gstate = .exited → (∀ o ∈ u.grp.ops, o.done = true) →
        (∃ t, exec (.keyAbandon c x) s = .next t ∧ ∀ w, w ∈ t.grp.keys ↔ w ∈ u.grp.keys ∧ w.key ≠ x) ∧
        ((∀ j, u.grp.rast = some j → x ≠ BitVec.ofNat 64 (j.draw * 2 ^ 32 + j.unit) ∨ (s.draw? (BitVec.ofNat 32 j.draw)).isSome = true) → ∃ t, gone t) ∧
        (∀ j, u.grp.rast = some j → x = BitVec.ofNat 64 (j.draw * 2 ^ 32 + j.unit) → s.draw? (BitVec.ofNat 32 j.draw) = none → (u.teamOf u.grp.team).ctx = c →
          (s.dev.keys.filter fun z => z.ctx = c && z.key = x) = [y] → ∃ t, exec (.keyAbandon c x) s = .next t ∧ t.key? c x = none)))

/-! ## Sample sets (12_samplesets.md, 23_isa_raster_system.md) -/

/-- (R186 to R192, R203, R351, R352) An SSET form that no other command of its group waits before is applied at once: in the states that take it, it changes the set, and the
memory, as its table says; in the others the set keeps its state and records the error; a set that is BUILDING holds it, as do the accesses that its issue
releases, and an earlier command of its group that waits there. SSET.BUILD's end orders the samples; a build held at a page whose group was killed stops (notes/assumptions/52.md).
Each form is counted on path RS. SSET.FREE leaves counts of 0, and in BOUND the 256 late samples alone limit SSET.ADD (notes/assumptions/35.md); BAD_DESC comes before NO_SPACE, and
the rejected samples stand in ascending number (notes/assumptions/74.md). Completes: ssetInit, ssetAdd, ssetBuild, ssetBind, ssetUnbind, ssetFree,
ssetQuery, ssetBuildEnd. -/
def Obligations.SampleSets : Prop :=
  (∀ (s : State) (k n : BitVec 4) (a b : BitVec 8) (m : BitVec 2),
    let ctx := s.team.ctx
    let h := (s.uni a).toNat
    let x := s.set ctx h
    let c := s.ctx ctx
    let d := setDesc x.desc
    let done : Entity := s.ent.dirty.finish (s.ent.pc + 4)
    let op (over_ : Bool) : Op := { id := s.nextOp, path := some .rs, ent := s.ent.num, auto := over_ }
    let check (need : Need) (va : VAddr) (len : Nat) (r : GRes) : Prop := s.gCheck [] c (h % 8) need [(va, len)] = r
    let reach (need : Need) (va : VAddr) (len : Nat) : Prop :=
      check need va len .ok ∧ s.gUses [] c (h % 8) need [(va, len)] = [] ∧ (need.r = true → s.gPoisoned [] c (h % 8) va len = false)
    let kept (t : State) : Prop := t.ent = done ∧ t.team = s.team ∧ t.nextOp = s.nextOp + 1 ∧ ∀ q j, ¬ (q = ctx ∧ j = h) → t.set q j = s.set q j
    let applied (i : Instr) (y : SampleSet) (over_ : Bool) (w : Option (VAddr × List Byte)) : Prop := ∃ t, exec i s = .next t ∧ kept t ∧ t.set ctx h = y ∧
      t.grp = { s.grp with ops := s.grp.ops ++ [op over_] } ∧ t.dev.salt = s.dev.salt ∧
      t.dev.mem = match w with | none => s.dev.mem | some (va, bs) => (s.gWrite [] c (h % 8) va bs).dev.mem
    let fails (i : Instr) (e : Nat) : Prop := applied i { x with err := if x.err = 0 then e else x.err } true none
    let forms : List Instr := [.ssetInit k n a, .ssetAdd b a, .ssetBuild a, .ssetBind a, .ssetUnbind a, .ssetFree a]
    s.uniBad a = false → s.pendingIn [] a = false → s.grp.pendingDest (.b n.toNat) = false → b.toNat < 0x3C → b.toNat + 3 < s.grp.window →
      (∀ j < 4, s.pendingIn s.activeLanes (codePlus b j) = false) → s.grp.count .rs < 63 → (∀ o ∈ s.grp.ops, o.id ≠ s.nextOp) →
    (1024 ≤ h → ∀ i ∈ .ssetQuery m a :: forms, exec i s = .next (s.takeTrap (s.trapHere .illegalOperand 0x360))) ∧
    (let before (o : Op) : Prop := o.done = false ∧ (o.ent = s.ent.num ∨ o.id ∈ s.ent.prior) ∧ o.path ∈ [some Path.vm, some .sp, some .ga, some .mq]
     let parked (i : Instr) : Prop := ∃ t cmd after, exec i s = .next t ∧ kept t ∧ t.set ctx h = x ∧ t.grp = { s.grp with ops := s.grp.ops ++ [op false] } ∧ t.dev.mem = s.dev.mem ∧
        t.dev.salt = s.dev.salt ++ [{ g := s.grp.loc, op := s.nextOp, team := s.team.serial, ctx, home := h % 8, cmd, after }] ∧
        ∀ n, n ∈ after ↔ ∃ o ∈ s.grp.ops, o.id = n ∧ before o
     (h < 1024 → s.grp.gstate ≠ .empty → (∃ o ∈ s.grp.ops, before o) → ∀ i ∈ forms, parked i) ∧
     (h < 1024 → (∃ w ∈ s.dev.salt, w.g = s.grp.loc ∧ (w.home = h % 8 ∨ w.home = 8)) → ∀ i ∈ forms, parked i) ∧
     (h < 1024 → (∀ w ∈ s.dev.salt, ¬ (w.g = s.grp.loc ∧ (w.home = h % 8 ∨ w.home = 8))) → (∀ o ∈ s.grp.ops, ¬ before o) →
      let busy : Prop := ∃ w ∈ s.dev.draws, w.ctx = ctx ∧ w.handle = h
      let va : VAddr := s.breg n.toNat + BitVec.ofNat 80 (64 * k.toNat)
      let desc : BitVec 512 := BitVec.ofNat 512 (leNat (s.gRead [] c (h % 8) va 64))
      (x.state = .building → ∀ i ∈ forms, parked i) ∧
      (x.state = .freed →
        (∀ i ∈ [Instr.ssetAdd b a, .ssetBuild a, .ssetBind a, .ssetUnbind a, .ssetFree a], fails i 1) ∧
        (∀ e, check { r := true } va 64 (.err e) → fails (.ssetInit k n a) (e + 4)) ∧
        (reach { r := true } va 64 →
          (setBad desc = true → fails (.ssetInit k n a) 2) ∧
          (setBad desc = false → 512 ≤ (s.dev.sets.filter fun y => y.handle % 8 = h % 8 && y.state != .freed).length → fails (.ssetInit k n a) 8) ∧
          (setBad desc = false → (s.dev.sets.filter fun y => y.handle % 8 = h % 8 && y.state != .freed).length < 512 →
            applied (.ssetInit k n a) { ctx, handle := h, state := .empty, desc } true none))) ∧
      (x.state ≠ .freed → x.state ≠ .building →
        fails (.ssetInit k n a) 1 ∧
        (x.state ≠ .empty → x.state ≠ .filling → fails (.ssetBuild a) 1) ∧ (x.state ≠ .built → fails (.ssetBind a) 1) ∧ (x.state ≠ .bound → fails (.ssetUnbind a) 1) ∧
        (let bound := x.state = .bound
         let recs : List (List Word) := s.activeLanes.map fun i => (List.range 4).map fun j => s.read (codePlus b j) i
         let taken := recs.take (if bound then 256 - (x.count - x.lateFrom) else d.cap - x.count)
         let at_ : VAddr := d.samples + BitVec.ofNat 80 (16 * x.count)
         let err := if taken.length < recs.length ∧ x.err = 0 then (if bound then 4 else 3) else x.err
         reach { w := true } at_ (16 * taken.length) →
          applied (.ssetAdd b a) (if bound then { x with count := x.count + taken.length, err }
            else { x with state := .filling, count := x.count + taken.length, err, order := [], units := [], rejected := 0 }) true
            (some (at_, taken.flatMap fun r => r.flatMap fun v => leBytes v.toNat 4))) ∧
        ((x.state = .empty ∨ x.state = .filling) → applied (.ssetBuild a) { x with state := .building, builder := some ⟨s.grp.loc, s.nextOp, s.team.launch, s.team.queue, s.team.qgen⟩ } false none) ∧
        (x.state = .built → reach { w := true } (d.results + BitVec.ofNat 80 (8 * 0)) (8 * x.count) →
          applied (.ssetBind a) { x with state := .bound, lateFrom := x.count, latePlaced := x.count } true (some (d.results + BitVec.ofNat 80 (8 * 0), List.replicate (8 * x.count) 0xFF))) ∧
        (x.state = .bound → ¬ busy → applied (.ssetUnbind a) { x with state := .filling, order := [], units := [], rejected := 0 } true none) ∧
        (x.state = .bound → busy → fails (.ssetUnbind a) 9) ∧
        (busy → fails (.ssetFree a) 9) ∧ (¬ busy → applied (.ssetFree a) { ctx, handle := h, err := x.err } true none)) ∧
      (let late := if x.state = .bound then x.count - x.lateFrom else 0
       let v : Word := BitVec.ofNat 32 (match m.toNat with | 0 => x.err * 2 ^ 24 + late * 2 ^ 8 + x.state.num | 1 => x.count | 2 => x.units.length | _ => x.rejected)
       ∃ t, exec (.ssetQuery m a) s = .next t ∧ kept t ∧ t.dev.sets = s.dev.sets ∧ t.dev.salt = s.dev.salt ∧ t.dev.mem = s.dev.mem ∧
        (∀ i < s.grp.width, (t.grp.lane i).q = if s.inL i then { tag := if s.active i then some (s.nextOp, 0) else none } :: (s.grp.lane i).q.take 15 else (s.grp.lane i).q) ∧
        t.grp = { s.grp with lanes := t.grp.lanes, ops := s.grp.ops ++ [{ op true with fills := s.activeLanes.map fun i => ⟨.q i 0, v.setWidth 80⟩ }] })))) ∧
  ∀ (s : State) (ctx h : Nat), let x := s.set ctx h
    let d := setDesc x.desc
    let c := s.ctx ctx
    let reach (need : Need) (r : VAddr × Nat) : Prop := s.gCheck [] c (h % 8) need [r] = .ok ∧ s.gUses [] c (h % 8) need [r] = [] ∧ (need.r = true → s.gPoisoned [] c (h % 8) r.1 r.2 = false)
    let smp := s.readSamples ctx (h % 8) d 0 x.count
    let r := d.orderSamples (smp.filter d.accepts) smp 0
    (∀ g, x.state = .building → x.held ≠ [] → s.dev.salt = [] → s.buildOwner x = some g → g.killed = true → ∃ t, exec (.ssetBuildEnd ctx h) s = .next t ∧
      t.set ctx h = { x with state := .filling, order := [], units := [], rejected := 0, builder := none, held := [] } ∧ t.dev.mem = s.dev.mem) ∧
    (x.state = .building → x.held = [] → s.dev.salt = [] →
    (∀ e, s.gCheck [] c (h % 8) { r := true } [(d.samples, 16 * x.count)] = .err e → ∃ t, exec (.ssetBuildEnd ctx h) s = .next t ∧
      t.set ctx h = { x with state := .filling, order := [], units := [], rejected := 0, builder := none, held := [], err := if x.err = 0 then e + 4 else x.err }) ∧
    (reach { r := true } (d.samples, 16 * x.count) → s.gCheck [] c (h % 8) { w := true } (sizes (d.indexWrites 0 0 r.1 r.2.1)) = .ok → s.gUses [] c (h % 8) { w := true } (sizes (d.indexWrites 0 0 r.1 r.2.1)) = [] →
      ∃ t, exec (.ssetBuildEnd ctx h) s = .next t ∧ t.set ctx h = { x with state := .built, order := r.1, units := r.2.1, rejected := r.2.2, builder := none, held := [] } ∧
        r.1.Perm smp ∧ r.2.2 = (smp.filter fun p => !d.accepts p).length ∧ (∀ u ∈ r.2.1, u.count ≤ d.unit) ∧
        t.dev.mem = (s.saltWrite ctx (h % 8) (d.indexWrites 0 0 r.1 r.2.1)).dev.mem))

/-! ## Draws (12_samplesets.md, 23_isa_raster_system.md) -/

/-- (R194 to R196, R354) RAST.EMIT appends its lanes' records to the team's open draw, or opens one; RAST.DRAW emits the header's records and closes the draw, which binds its
primitives to jobs; the form translates at issue, and the Saltern reads the header and the records again when it applies it (R170, R355). A command that others of the group, or
accesses before it, wait before is kept at the Saltern; SIN, SOUT and SKIP are held at issue while one of their group waits there (notes/assumptions/69.md). (R199, R202, R356 to R359) In a sample program SIN reads the
job and moves the cursor, SOUT writes staged records under the job's key, SKIP commits without it at once; elsewhere they trap. (R160, R199 to R201, R205) The raster
stage performs a depth-min job, a unit's records are published and its key is gone, a draw is released. Completes: rastEmit, rastDraw, rastSin, rastSout,
rastSkip, rasterStageJob, unitPublish, drawRelease. -/
def Obligations.RasterForms : Prop :=
  (∀ (s : State) (a b x : BitVec 8) (n k : BitVec 4),
    let done : Entity := s.ent.dirty.finish (s.ent.pc + 4)
    let traps (data : Word) (i : Instr) : Prop := exec i s = .next (s.takeTrap (s.trapHere .illegalInstr data))
    let ctx := s.team.ctx
    (10 < x.toNat → traps 0 (.rastSin x)) ∧
    (s.rastJob = none → (x.toNat ≤ 10 → traps 3 (.rastSin x)) ∧ (s.srcBad a = false → s.srcBad b = false → traps 3 (.rastSout b a)) ∧ traps 3 .rastSkip) ∧
    (s.srcBad a = true → exec (.rastSout b a) s = .next (s.takeTrap (s.trapHere .illegalOperand (BitVec.ofNat 32 (0x100 + a.toNat))))) ∧
    (s.srcBad a = false → s.srcBad b = true → exec (.rastSout b a) s = .next (s.takeTrap (s.trapHere .illegalOperand (BitVec.ofNat 32 (0x200 + b.toNat))))) ∧
    (∀ j w q, s.rastJob = some (j, w, q) → (∃ c ∈ s.dev.salt, c.g = s.grp.loc ∧ (c.home = w.home ∨ c.home = 8) ∧ ∃ o ∈ s.grp.ops, o.id = c.op) →
      let holds : Prop := ∃ h ∈ s.grp.keys, h.key = w.id ++ BitVec.ofNat 32 j.unit
      (x.toNat ≤ 10 → exec (.rastSin x) s = .next s) ∧ (s.srcBad a = false → s.srcBad b = false → holds → exec (.rastSout b a) s = .next s) ∧
      (¬ holds → (s.keyAt w.ctx (w.id ++ BitVec.ofNat 32 j.unit)).waiters = [] → j.left = false → j.skipped = false → exec .rastSkip s = .next s)) ∧
    (∀ j w q, s.rastJob = some (j, w, q) → s.grp.count .rs < 63 → (∀ c ∈ s.dev.salt, ¬ (c.g = s.grp.loc ∧ (c.home = w.home ∨ c.home = 8) ∧ ∃ o ∈ s.grp.ops, o.id = c.op)) →
      let last := q.prims.length + 1
      let cur := if x = 0 then min (j.cursor + 1) last else j.cursor
      let prim : Option Prim := if cur = 0 then none else q.prims[cur - 1]?
      let smp (i : Nat) : Sample := (s.sampleAt w j.unit i).getD { num := 0, x := 0, y := 0, ref := 0, payload := 0 }
      let staged (i : Nat) : BitVec 64 := (((w.staged.filter fun r => r.unit = j.unit)[i]?).map Staged.now).getD 0
      let holds : Prop := ∃ h ∈ s.grp.keys, h.key = w.id ++ BitVec.ofNat 32 j.unit
      let key := s.keyAt w.ctx (w.id ++ BitVec.ofNat 32 j.unit)
      let batch : Word := BitVec.ofNat 32 j.batch
      (∀ val : Nat → Word, (x, val) ∈ ([
          (0#8, fun i => ((prim.bind fun p => p.depth (smp i).x (smp i).y).getD 0x7F800000)), (1#8, fun _ => (prim.map Prim.id).getD 0xFFFFFFFF),
          (2#8, fun i => BitVec.ofInt 32 (smp i).x), (3#8, fun i => BitVec.ofInt 32 (smp i).y), (4#8, fun i => (smp i).ref), (5#8, fun i => (smp i).payload),
          (6#8, fun i => BitVec.ofNat 32 (smp i).num), (7#8, fun _ => BitVec.ofNat 32 j.unit), (8#8, fun _ => batch), (9#8, fun i => (staged i).setWidth 32),
          (10#8, fun i => (staged i >>> 32).setWidth 32)] : List (BitVec 8 × (Nat → Word))) →
        ∃ t, exec (.rastSin x) s = .next t ∧ LoadResult .rs none true 1 (fun i _ => val i) [] [] s t ∧ t = { s with
          ent := { s.ent with scc := { s.ent.scc with e := decide ((x.toNat ≤ 1 ∧ cur = last) ∨ (x = 1 ∧ cur = 0)) } }.dirty.finish (s.ent.pc + 4)
          grp := { s.grp with rast := some { j with cursor := cur }, lanes := t.grp.lanes, ops := t.grp.ops }, nextOp := t.nextOp }) ∧
      (s.srcBad a = false → s.srcBad b = false →
        (¬ holds → traps 3 (.rastSout b a)) ∧
        (holds → s.pendingIn s.activeLanes a = false → s.pendingIn s.activeLanes b = false → ∃ t, exec (.rastSout b a) s = .next t ∧
          t = { s with
            ent := done, nextOp := s.nextOp + 1, dev := { s.dev with draws := t.dev.draws }
            grp := { s.grp with ops := s.grp.ops ++ [{ id := s.nextOp, path := some .rs, ent := s.ent.num, sout := true }] } } ∧
          t.draw? w.id = some { w with staged := w.staged.map fun r =>
            let i := r.pos - (s.unitOf w j.unit).first
            if r.unit = j.unit ∧ s.active i then { r with now := s.read b i ++ s.read a i } else r } ∧ ∀ y, y ≠ w.id → t.draw? y = s.draw? y)) ∧
      ((holds ∨ (∃ y ∈ key.waiters, y.enter = true ∧ y.g = s.grp.loc) ∨ j.left = true ∨ j.skipped = true) → traps 3 .rastSkip) ∧
      (¬ holds → key.waiters = [] → key.skips = [] → j.left = false → j.skipped = false →
        ((∃ y, s.key? w.ctx (w.id ++ BitVec.ofNat 32 j.unit) = some y ∧ y.needed = true) ∨ (s.dev.keys.filter fun y => y.needed && !y.spilled && keyHome y.key = keyHome key.key).length < 65536) → ∃ t, exec .rastSkip s = .next t ∧
        t.ent = done ∧ t.grp = { s.grp with rast := some { j with skipped := true }, ops := s.grp.ops ++ [{ id := s.nextOp, path := some .rs, ent := s.ent.num }] } ∧
        let key' := t.keyAt w.ctx (w.id ++ BitVec.ofNat 32 j.unit)
        (t.dev.draws = s.dev.draws.map fun v => if v.id ≠ w.id then v else { v with jobs := v.jobs.map fun y => if y.unit = j.unit ∧ y.batch = j.batch then { y with committed := true } else y }) ∧
        (key.holder = none → key.n = batch → key'.n = batch + 1 ∧ key'.skips = []) ∧
        ((key.holder ≠ none ∨ key.n ≠ batch) → key'.n = key.n ∧ key'.skips = [batch]))) ∧
    (let at_ : VAddr := s.breg n.toNat + BitVec.ofNat 80 (64 * k.toNat)
     let c := s.ctx ctx
     let arb := s.grp.loc.core / 104
     let lanes : List Access := s.accesses 48 fun i => s.breg n.toNat + (s.read a i).setWidth 80
     let open_ := s.openDraw s.team.serial
     let before (o : Op) : Prop := o.done = false ∧ (o.ent = s.ent.num ∨ o.id ∈ s.ent.prior) ∧ o.path ∈ [some Path.vm, some .sp, some .ga, some .mq]
     let early : Prop := ∃ o ∈ s.grp.ops, before o
     let ahead (home : Nat) : Prop := ∃ w ∈ s.dev.salt, w.g = s.grp.loc ∧ (w.home = home ∨ w.home = 8)
     s.srcBad a = false → s.pendingIn s.activeLanes a = false → s.grp.pendingDest (.b n.toNat) = false → s.grp.count .rs < 63 →
      ∀ (i : Instr) (as : List Access) (cmd : SaltCmd) (u : State),
        (i, as, cmd) ∈ ([(.rastEmit k n a, lanes, .emit at_ (lanes.map Access.va)), (.rastDraw k n, [], .draw at_)] : List (Instr × List Access × SaltCmd)) →
        s.Sendable { r := true } 16 16 false (as ++ [⟨64, at_, 64⟩]) →
        -- u is s with what the issue's translations have cached
        s.check { r := true } 16 false 1 (as ++ [⟨64, at_, 64⟩]) = .ok u →
        let reach (home : Nat) (runs : List (VAddr × Nat)) : Prop :=
          u.gCheck [] c home { r := true } runs = .ok ∧ u.gUses [] c home { r := true } runs = [] ∧ ∀ r ∈ runs, u.gPoisoned [] c home r.1 r.2 = false
        let hdAt (home : Nat) : BitVec 512 := BitVec.ofNat 512 (leNat (u.gRead [] c home at_ 64))
        let hd := hdAt arb
        let hh := header hd
        let op : Op := { id := s.nextOp, path := some .rs, ent := s.ent.num, auto := false }
        let parked (home : Nat) : Prop := ∃ t after, exec i s = .next t ∧ t.ent = done ∧ t.grp = { s.grp with ops := s.grp.ops ++ [op] } ∧
          t.dev.salt = s.dev.salt ++ [{ g := s.grp.loc, op := s.nextOp, team := s.team.serial, ctx, home, cmd, after }] ∧
          (∀ m, m ∈ after ↔ ∃ o ∈ s.grp.ops, o.id = m ∧ before o) ∧ t.dev.draws = s.dev.draws ∧ t.dev.mem = s.dev.mem
        (∀ w, open_ = some w → s.grp.gstate ≠ .empty → (early ∨ ahead w.home ∨ (s.set ctx w.handle).state = .building) → parked w.home) ∧
        (open_ = none → s.grp.gstate ≠ .empty → early → parked 8) ∧
        (open_ = none → ¬ early → reach arb [(at_, 64)] → ahead (hh.seth % 8) → parked (hh.seth % 8)) ∧
        (¬ early → s.team.serial ≠ 0 →
          (i = .rastEmit k n a →
            let runs : List (VAddr × Nat) := lanes.map fun y => (y.va, 48)
            let emitted (w w' : Draw) : Prop := w'.header = w.header ∧ w'.headerAt = w.headerAt ∧ w'.handle = w.handle ∧ w'.closed = false ∧
              w'.counters.getD 0 0 = w.counters.getD 0 0 + s.activeLanes.length ∧
              w'.prims.length + w'.counters.getD 1 0 = w.prims.length + w.counters.getD 1 0 + s.activeLanes.length ∧ ∃ more, w'.prims = w.prims ++ more
            (open_ = none → reach arb [(at_, 64)] → reach (hh.seth % 8) ((at_, 64) :: runs) → hdAt (hh.seth % 8) = hd → ¬ ahead (hh.seth % 8) →
              s.recordsAt (hh.seth % 8) < 256 → headerBad hd = false → s.drawable ctx hh.seth = true → hh.smallout = false →
              ∃ t w, exec i s = .next t ∧ t.ent = done ∧ t.openDraw s.team.serial = some w ∧
                emitted { id := w.id, ctx, home := hh.seth % 8, handle := hh.seth, header := hd, headerAt := at_ } w ∧ t.dev.mem = s.dev.mem) ∧
            (∀ w, open_ = some w → w.home < 8 → ¬ ahead w.home → (s.set ctx w.handle).state ≠ .building → reach w.home runs → w.headerAt = at_ → (header w.header).smallout = false →
              s.draw? w.id = some w → ∃ t w', exec i s = .next t ∧ t.ent = done ∧
              t.openDraw s.team.serial = some w' ∧ w'.id = w.id ∧ emitted w w' ∧ t.dev.mem = s.dev.mem)) ∧
          (i = .rastDraw k n → ∀ w, open_ = some w → w.home < 8 → ¬ ahead w.home → (s.set ctx w.handle).state ≠ .building → w.headerAt = at_ → s.draw? w.id = some w →
            let v := header w.header
            let y := s.set w.ctx w.handle
            let d := setDesc y.desc
            v.smallout = false → v.mode = 1 → y.count = y.latePlaced →
            u.gCheck [] (s.ctx w.ctx) w.home { r := true } [(v.primbase, 48 * v.count)] = .ok →
            u.gUses [] (s.ctx w.ctx) w.home { r := true } [(v.primbase, 48 * v.count)] = [] → u.gPoisoned [] (s.ctx w.ctx) w.home v.primbase (48 * v.count) = false →
            ∃ t w', exec i s = .next t ∧ t.ent = done ∧ t.grp.ops = s.grp.ops ++ [op] ∧
              t.draw? w.id = some w' ∧ w'.closed = true ∧ w'.ops = [(s.grp.loc, s.nextOp)] ∧ w'.counters.getD 0 0 = w.counters.getD 0 0 + v.count ∧
              w'.jobs = d.jobsOf v.pbatch w'.prims y.units ∧ t.dev.mem = s.dev.mem)))) ∧
  ∀ (s : State) (id : Nat) (w : Draw), s.draw? (BitVec.ofNat 32 id) = some w → s.isHead w = true → w.held = [] →
    let x := s.set w.ctx w.handle
    (∀ (n : Nat) (j : Job), w.jobs[n]? = some j →
      let key := s.keyAt w.ctx (w.id ++ BitVec.ofNat 32 j.unit)
      (header w.header).mode = 1 → j.committed = false → key.holder = none → key.n = BitVec.ofNat 32 j.batch → key.waiters = [] → key.skips = [] → key.spilled = false → j.unit < 2 ^ 32 → j.batch < 2 ^ 32 →
      (s.ctx w.ctx).state = .resident → ((∃ y, s.key? w.ctx (w.id ++ BitVec.ofNat 32 j.unit) = some y ∧ y.needed = true) ∨ (s.dev.keys.filter fun y => y.needed && !y.spilled && keyHome y.key = keyHome key.key).length < 65536) →
      (∃ r ∈ w.staged, r.unit = j.unit) → ∃ t w', exec (.rasterStageJob id n) s = .next t ∧ t.draw? w.id = some w' ∧
        w'.staged = w.staged.map (fun r => if r.unit = j.unit then j.prims.foldl (fun r p => match x.order[r.pos]? with | some y => depthMin p y r | none => r) r else r) ∧
        (∀ z, w'.jobs[n]? = some z → z.committed = true) ∧ (t.keyAt w.ctx (w.id ++ BitVec.ofNat 32 j.unit)).n = BitVec.ofNat 32 (j.batch + 1) ∧ t.dev.mem = s.dev.mem) ∧
    (∀ unit : Nat,
      let recs := w.staged.filter fun r => r.unit = unit
      let va : VAddr := (setDesc x.desc).results + BitVec.ofNat 80 (8 * (s.unitOf w unit).first)
      let key := s.keyAt w.ctx (w.id ++ BitVec.ofNat 32 unit)
      unit ∉ w.published → (∃ j ∈ w.jobs, j.unit = unit) → (∀ j ∈ w.jobs, j.unit = unit → j.committed = true) → key.waiters = [] → (∀ y ∈ s.dev.keys, y.spilled = false) → unit < 2 ^ 32 →
      s.gCheck [] (s.ctx w.ctx) w.home { w := true } [(va, 8 * recs.length)] = .ok → s.gUses [] (s.ctx w.ctx) w.home { w := true } [(va, 8 * recs.length)] = [] →
      ∃ t w', exec (.unitPublish id unit) s = .next t ∧ t.draw? w.id = some w' ∧ w'.published = unit :: w.published ∧ (∀ r, r ∈ w'.staged ↔ r ∈ w.staged ∧ r.unit ≠ unit) ∧
        w'.jobs = w.jobs ∧ t.key? w.ctx (w.id ++ BitVec.ofNat 32 unit) = none ∧ t.dev.mem = (s.gWrite [] (s.ctx w.ctx) w.home va (recs.flatMap fun r => leBytes r.now.toNat 8)).dev.mem) ∧
    ((header w.header).stats = 0 → (∀ t ∈ s.everyTeam, t.serial ≠ 0 → t.draw ≠ some id) → (∀ j ∈ w.jobs, j.unit ∈ w.published) → s.dev.salt = [] → (∀ y ∈ s.dev.keys, y.spilled = false) →
      ∃ t, exec (.drawRelease id) s = .next t ∧ t.draw? w.id = none ∧ t.dev.mem = s.dev.mem ∧ (w.team ≠ 0 → t.launch? w.id = none) ∧
        (w.team = 0 → ∀ l, s.launch? w.id = some l → t.launch? w.id = some { l with state := .done, doneN := l.total }))

/-! ## Agents, launches and teams (05_kernel.md, 06_group.md, 23_isa_raster_system.md) -/

/-- (R363 to R368) A PRIV form traps PRIV_FAULT in any group but an agent's. There, TEAMGO reads its block after the agent's earlier stores to it (R149) and holds, starts or releases
a team and answers in s63; a start follows every earlier access of the agent (R425), and is made for a failed launch too (notes/assumptions/39.md); TEAMDONE takes the oldest
completed team; AGSLEEP returns the events that have occurred, or sleeps; WKPOP takes the notice of the lowest class and notes its tick (R48), passing over contexts that are not
RESIDENT (notes/assumptions/23.md). A launch that finds 256 open ones stays CLAIMED, and of several failed checks the first counts (notes/assumptions/62.md). (R76, R82, R84, R85, R91, R97) A
launch is claimed, read once and checked; an agent takes a ticket of it and starts its team, or drains it; a team's end is counted, and LOW passes completed
tickets; groups leave their slots. Completes: privTeamgo, privTeamdone, privAgsleep, privWkpop, agsleepWake, launchClaim, teamComplete, groupRetire, groupKill. -/
def Obligations.AgentForms : Prop :=
  (∀ (s : State) (a k8 : BitVec 8) (n k : BitVec 4),
    let fill (u : State) (first : Nat) (l : List Word) : State := { u with
      ent := u.ent.finish (u.ent.pc + 4), nextOp := u.nextOp + 1
      grp := { u.grp with ops := u.grp.ops ++ [{ id := u.nextOp, path := none, ent := u.ent.num, fills := l.zipIdx.map fun (x, i) => ⟨.s (u.sIndex (first + i)), x.setWidth 80⟩ }] } }
    (s.grp.agent = false → (∀ i ∈ [Instr.privTeamgo k n a, .privTeamdone, .privAgsleep a], exec i s = .next (s.takeTrap (s.trapHere .privFault))) ∧
      (k8.toNat % 2 = 0 → k8.toNat ≤ 60 → exec (.privWkpop k8) s = .next (s.takeTrap (s.trapHere .privFault)))) ∧
    ((k8.toNat % 2 = 1 ∨ 60 < k8.toNat) → exec (.privWkpop k8) s = .next (s.takeTrap (s.trapHere .illegalInstr 0))) ∧
    (s.grp.agent = true →
      ((∀ j ∈ [60, 61, 62, 63], s.pendingS j = false) →
        (s.core.done = [] → exec .privTeamdone s = .next (fill s 63 [0])) ∧
        (∀ x r, s.core.done = x :: r → exec .privTeamdone s = .next (fill { s with core := { s.core with done := r } } 60
          [x.ticket.setWidth 32, (x.ticket >>> 32).setWidth 32, x.launch, BitVec.ofNat 32 (2 ^ 31 + x.err)]))) ∧
      (s.uniBad a = false → s.pendingIn [] a = false → s.pendingS 63 = false →
        let limit : Prop := ∃ w, s.ent.wd.wake = some w ∧ w ≤ s.dev.tick
        let woken (bit : Word) : State := fill { s with core := { s.core with wakes := 0 } } 63 [s.core.wakes.setWidth 32 ||| bit]
        (limit → exec (.privAgsleep a) s = .next (woken 0x20)) ∧
        (¬ limit → s.core.wakes ≠ 0 → exec (.privAgsleep a) s = .next (woken 0)) ∧
        (¬ limit → s.core.wakes = 0 → exec (.privAgsleep a) s = .next { s with ent := { s.ent with
          status := .waiting .sleep, wd := { s.ent.wd with wake := if s.uni a = 0 ∨ s.ent.wd.wake ≠ none then s.ent.wd.wake else some (s.dev.tick + (s.uni a).toNat) } } }) ∧
        (let va : VAddr := s.breg n.toNat + BitVec.ofNat 80 (64 * k.toNat)
         let step := (s.uni a).toNat
         s.grp.pendingDest (.b n.toNat) = false → (2 < step → exec (.privTeamgo k n a) s = .next (s.takeTrap (s.trapHere .illegalOperand 0x350))) ∧
          (step ≤ 2 → s.Sendable { r := true } 64 8 true [⟨0, va, 128⟩] → ∃ u : State,
            u = { s with core := { s.core with dtlb := u.core.dtlb }, dev := { s.dev with l2tlb := u.dev.l2tlb, walkCache := u.dev.walkCache } } ∧
          -- r is u with the agent's earlier accesses performed: all for a start, else those to the block
          let r := if step = 1 then u.released else u.performOps (u.grp.precede u.ent { id := 0, ent := 0, path := some .vm, todo := s.todoOf { r := true } true 8 [⟨0, va, 128⟩] fun _ _ _ => .load [] })
          let block := leNat (r.loadVA va 128)
          let held := r.core.holds.find? fun h => h.num = fieldOf block 756 4
          ((∀ o ∈ s.grp.ops, o.todo = []) → r = u) ∧
          (step = 1 → (s.grp.ops.map Op.id).Nodup → (∀ o ∈ s.grp.ops, o.after = []) → ∀ o ∈ r.grp.ops, o.done = false → (o.ent = s.ent.num ∨ o.id ∈ s.ent.prior) →
            o.path ∈ [some Path.vm, some .sp, some .ga, some .mq] → o.todo = []) ∧
          (∀ h, step = 0 → r.admission r.core.num (kdesc (block % 2 ^ 512)) = .ok h →
            exec (.privTeamgo k n a) s = .next (fill { r with core := { r.core with holds := h :: r.core.holds } } 63 [BitVec.ofNat 32 (2 ^ 31 + h.num)])) ∧
          (∀ e, step = 0 → r.admission r.core.num (kdesc (block % 2 ^ 512)) = .error e → exec (.privTeamgo k n a) s = .next (fill r 63 [BitVec.ofNat 32 (e * 2 ^ 28)])) ∧
          (∀ h, step = 1 → held = some h → fieldOf block 660 32 = 2 ^ 32 - 1 → ∃ t, exec (.privTeamgo k n a) s = .next t ∧
            t = fill (r.startTeam r.core.num h (blockInfo block)) 63 [BitVec.ofNat 32 (2 ^ 31 + h.num)] ∧ t.nextTeam = r.nextTeam + 1 ∧ ∃ y ∈ t.allTeams,
              y.serial = r.nextTeam ∧ y.launch = BitVec.ofNat 32 (fieldOf block 786 32) ∧ y.ctx = fieldOf block 780 6 ∧ y.queue = fieldOf block 768 12 ∧ y.ticket = BitVec.ofNat 64 (fieldOf block 692 64) ∧
              y.x = BitVec.ofNat 32 (fieldOf block 850 31) ∧ y.gx = BitVec.ofNat 32 (fieldOf block 913 31) ∧ y.args = BitVec.ofNat 80 (fieldOf block 944 80) ∧ y.killed = false) ∧
          (∀ h, step = 2 → held = some h → exec (.privTeamgo k n a) s = .next (fill { r with core := { r.core with holds := r.core.holds.filter fun x => x.num != h.num } } 63
            [BitVec.ofNat 32 (2 ^ 31 + h.num)])) ∧
          (step ≠ 0 → held = none → exec (.privTeamgo k n a) s = .next (s.takeTrap (s.trapHere .illegalOperand 0x350)))))) ∧
      ((∀ j < 4, s.pendingS (k8.toNat + j) = false) →
        (k8.toNat % 2 = 0 → k8.toNat ≤ 60 →
          let listed (x : Notice) : Prop := x ∈ s.dev.notices ∧ x.arbour = s.arbour ∧ x.cls < 4 ∧ (s.ctx (s.queue x.queue).ctx).state = .resident
          ((∀ x, ¬ listed x) → exec (.privWkpop k8) s = .next (fill s k8.toNat [0, 0, 0, 0])) ∧
          (∀ y, listed y → ∃ x, listed x ∧ x.cls ≤ y.cls ∧
            let t : State := { s with dev := { s.dev with notices := s.dev.notices.erase x } }
            exec (.privWkpop k8) s = .next (fill (if x.raster then t else t.setQueue { s.queue x.queue with claimed := true, notice := false, claimTick := s.dev.tick }) k8.toNat [
              BitVec.ofNat 32 ((if x.raster then 2 else 1) + x.cls * 2 ^ 8 + x.queue % 2 ^ 16 * 2 ^ 16), x.qgen.setWidth 32, if x.raster then x.launch else 0, 0])))))) ∧
  (∀ (s t : State) (core : Nat), (s.focusCore core).focusGroup ⟨core, 0, 15⟩ = some t → t.ent.status = .waiting .sleep → (t.core.wakes ≠ 0 ∨ ∃ w, t.ent.wd.wake = some w ∧ w ≤ t.dev.tick) →
    exec (.agsleepWake core) s = .next { t with ent := { t.ent with status := .ready } }) ∧
  (∀ (s : State) (id : Nat) (l : Launch), s.launch? (BitVec.ofNat 32 id) = some l → l.isDraw = false → (s.ctx l.ctx).state = .resident →
    let full (k : KDesc) : Prop := ∃ arb < 8, k.takes arb = true ∧ 256 ≤ (s.dev.openTable.filter fun e => e.1 = arb).length
    let other : Prop := l.cohort = true ∧ ∃ x ∈ s.dev.launches, x.cohort = true ∧ x.state = .issuing ∧ x.id ≠ l.id
    let draining (k : KDesc) : Prop := l.sync = true ∧ ∃ c ∈ s.allCores, k.takes (c.num / 104) = true ∧ c.fills ≠ []
    let blocked (k : KDesc) : Prop := full k ∨ other ∨ draining k
    let opens (k : KDesc) (desc : BitVec 512) : Prop := ∃ t, exec (.launchClaim id) s = .next t ∧ t.launch? l.id = some { l with state := .issuing, desc } ∧
      ∀ arb x, (arb, x) ∈ t.dev.openTable ↔ (arb, x) ∈ s.dev.openTable ∨ (x = l.id ∧ arb < 8 ∧ k.takes arb = true)
    (l.state = .claimed → let k := kdesc l.desc.toNat
      (blocked k → exec (.launchClaim id) s = .refused .notDue) ∧ (¬ blocked k → opens k l.desc)) ∧
    (l.state = .pending → s.recordsAt (l.id.toNat / 2 ^ 29) < 256 → (∀ e, s.checkLaunch l = .error e → ∃ t y, exec (.launchClaim id) s = .next t ∧ t.launch? l.id = some y ∧ y.state = .failed ∧ y.err = e) ∧
    (∀ k, s.checkLaunch l = .ok k →
      let desc : BitVec 512 := BitVec.ofNat 512 (leNat (s.gRead [] (s.ctx l.ctx) (l.id.toNat / 2 ^ 29) l.kdesc 64))
      (blocked k → ∃ t, exec (.launchClaim id) s = .next t ∧ t.launch? l.id = some { l with state := .claimed, desc } ∧ t.dev.openTable = s.dev.openTable) ∧
      (¬ blocked k → opens k desc)))) ∧
  (∀ (s : State) (core : Nat) (l : Launch), s.launch? l.id = some l → s.dev.launches = [l] → l.isDraw = false → l.state = .issuing → l.cohort = false → l.holders = [] →
    (core / 104, l.id) ∈ s.dev.openTable → (s.ctx l.ctx).state = .resident → ∀ h, s.admission core (kdesc l.desc.toNat) = .ok h →
    (l.total ≤ l.ticket → ∃ t y, s.serve core l.id = some t ∧ t.launch? l.id = some y ∧ y.ticket = l.ticket + 1 ∧
      y.state = (if l.doneN = l.total then .done else .draining) ∧ ∀ arb x, (arb, x) ∈ t.dev.openTable ↔ (arb, x) ∈ s.dev.openTable ∧ x ≠ l.id) ∧
    (l.ticket < l.total → l.ticket < l.low + 65536 → ∃ t y team, s.serve core l.id = some t ∧ t.launch? l.id = some y ∧ y.ticket = l.ticket + 1 ∧ y.hwm = max l.hwm (l.ticket + 1) ∧
      y.map.lookup l.ticket = some false ∧ team ∈ t.allTeams ∧ team.serial = s.nextTeam ∧ team.launch = l.id ∧ team.ticket = BitVec.ofNat 64 l.ticket ∧
      team.x = BitVec.ofNat 32 (l.index l.ticket).1 ∧ team.y = BitVec.ofNat 32 (l.index l.ticket).2.1 ∧ team.z = BitVec.ofNat 32 (l.index l.ticket).2.2 ∧ team.ctx = l.ctx ∧
      ∀ k ∈ t.dev.openTable, k ∈ s.dev.openTable)) ∧
  (∀ (s : State) (n : Nat) (t : Team), n ≠ 0 → s.allTeams.find? (fun x => x.serial = n) = some t → (∀ g ∈ s.allGroups, g.team = n → g.agent = true) →
    (∀ c ∈ s.dev.ctxs, ∀ k ∈ c.saved, ∀ g ∈ k.groups, g.team ≠ n) → (∀ k ∈ s.allCores, ∀ c ∈ k.sluice, c.team ≠ n) →
    ∃ u, exec (.teamComplete n) s = .next u ∧ (∀ x ∈ u.allTeams, x.serial ≠ n) ∧
      (u.coreOf t.core).done = (s.coreOf t.core).done ++ [{ ticket := t.ticket, launch := t.launch, err := if t.err ≠ 0 then t.err else if t.killed then 8 else 0 }] ∧
      ∀ l, s.launch? t.launch = some l → ∃ y, u.launch? t.launch = some y ∧ (t.killed = true → y = l) ∧
        (t.killed = false → y.doneN = l.doneN + 1 ∧ y.total = l.total ∧ (∀ e, e ∈ y.map ↔ ∃ x ∈ l.map, e = (x.1, decide (x.1 = t.ticket.toNat) || x.2)) ∧
          l.low ≤ y.low ∧ (∀ j, l.low ≤ j → j < y.low → (j, true) ∈ y.map) ∧ (y.low, true) ∉ y.map ∧ y.state = if l.state = .draining ∧ l.doneN + 1 = l.total then .done else l.state)) ∧
  ∀ (s : State) (a : Group) (r : List Group), s.core.num = s.grp.loc.core → takeFirst Group.agent s.core.groups = some (a, r) →
    s.grp.agent = false → s.grp.gstate = .exited → s.grp.ops = [] → s.grp.keys = [] → s.grp.team ≠ 0 →
    ∀ i, ((i = .groupRetire s.grp.loc ∧ s.grp.killed = false ∧ s.grp.rast = none ∧ ∀ c ∈ s.dev.salt, c.g ≠ s.grp.loc) ∨ (i = .groupKill s.grp.loc ∧ s.grp.killed = true)) →
      ∃ u, exec i s = .next u ∧ u.core.num = s.core.num ∧ u.grp.agent = true ∧ u.grp.loc = a.loc ∧ u.core.groups = r ∧ u.cores = s.cores ∧
        (s.grp.killed = false → s.team.serial = s.grp.team → ∃ x ∈ u.allTeams, x = { s.team with exits := (s.grp.gid, s.grp.lastExit) :: s.team.exits })

/-! ## Debugging (23_isa_raster_system.md, 25_traps_debug.md) -/

/-- (R360 to R362, R388, R391, R392) The stamps, DBG.TRACEW and DBG.PCSMP append their records to the context's trace area, and so does a periodic sample; a PC comparator that
matches traps, traces or stops; the tick stop freezes the module at its tick; scan chains then shift out once. (R387) The commands of the
resident debug handler list, read, write, resume and kill the groups it holds; a command on one core goes to its Arbour (notes/assumptions/25.md), and a fatal trap's group is not
resumed (notes/assumptions/71.md). The trace area has the header of the fault log (R51), as 23_isa_raster_system.md says. A comparator acts where the instruction would issue, and
not while it waits (notes/assumptions/71.md). A GID beyond the team is a bad operand, and whether a sampled entity that can issue does so in the cycle is open
(notes/assumptions/42.md). Completes: stampBegin, stampEnd, dbgTracew, dbgPcsmp, pcSample, pcComparatorMatch, tickStop, scanChainShift,
dbgList, dbgRead, dbgWrite, dbgResume. -/
def Obligations.DebugForms : Prop :=
  (∀ (s : State) (a b : BitVec 8), s.UniReady [a, b] [] →
    let ctx := s.team.ctx
    let rec_ (kind : Nat) (d0 d1 : Word) : TraceRec := { kind, pc := s.ent.pc, d0, d1, launch := s.team.launch, core := s.core.num, part := s.grp.loc.part, gid := s.grp.gid, ent := s.ent.num }
    let done : Entity := s.ent.dirty.finish (s.ent.pc + 4)
    let n := (s.uni a).toNat
    (∃ u, Traced ctx (rec_ 2 0 (s.uni a)) s u ∧ exec (.stampBegin a) s = .next { u with ent := s.ent.finish (s.ent.pc + 4) }) ∧
    (∃ u, Traced ctx (rec_ 3 0 (s.uni a)) s u ∧ exec (.stampEnd a) s = .next { u with ent := s.ent.finish (s.ent.pc + 4) }) ∧
    (∃ u, Traced ctx (rec_ 1 (s.uni a) (s.uni b)) s u ∧ exec (.dbgTracew b a) s = .next { u with ent := done }) ∧
    (s.team.groups ≤ n → exec (.dbgPcsmp a) s = .next (s.takeTrap (s.trapHere .illegalOperand (BitVec.ofNat 32 (0x100 + a.toNat))))) ∧
    (n < s.team.groups →
      let is (g : Group) : Prop := g.agent = false ∧ g.team = s.team.serial ∧ g.gid = n
      (∃ t, exec (.dbgPcsmp a) s = .next t ∧ t = { s with ent := done, dev := { s.dev with mem := t.dev.mem, poison := t.dev.poison, ctxs := t.dev.ctxs } }) ∧
      (∀ g e, s.allGroups.find? (fun g => !g.agent && g.team = s.team.serial && g.gid = n && g.gstate != .exited) = some g → g.liveEnts = [e] →
        let state := sampleState (s.coreOf g.loc.core) s.team g e (decide (n = s.grp.gid ∧ s.ent.num = e.num))
        ∃ u, Traced ctx { rec_ 4 e.pc (BitVec.ofNat 32 g.gid) with sstate := state.1, reason := state.2, ent := e.num } s u ∧ exec (.dbgPcsmp a) s = .next { u with ent := done }) ∧
      (∀ g, s.allGroups.find? (fun g => !g.agent && g.team = s.team.serial && g.gid = n) = some g → (∀ x ∈ s.allGroups, is x → x.gstate = .exited) →
        ∃ u, Traced ctx { rec_ 4 g.lastExit (BitVec.ofNat 32 n) with sstate := 6, ent := 0 } s u ∧ exec (.dbgPcsmp a) s = .next { u with ent := done }) ∧
      ((∀ g ∈ s.allGroups, ¬ is g) → ∃ u, Traced ctx { rec_ 4 ((s.team.exits.lookup n).getD 0) (BitVec.ofNat 32 n) with sstate := 6, ent := 0 } s u ∧
        exec (.dbgPcsmp a) s = .next { u with ent := done }))) ∧
  (∀ (s : State) (core ctx : Nat), (s.ctxOn (core / 104) ctx).sampleK ≠ 0 →
    let teamIn (n : Nat) : Prop := ∃ t ∈ s.allTeams, t.serial = n ∧ t.ctx = ctx
    let here (g : Group) : Prop := g ∈ s.allGroups ∧ g.agent = false ∧ g.loc.core = core ∧ teamIn g.team
    ((∀ g, here g → g.liveEnts = []) → exec (.pcSample core ctx) s = .next s) ∧
    (∀ g e, here g → (∀ x, here x → x = g) → g.liveEnts = [e] → ((s.ctx ctx).samplePos.lookup core).getD 0 ≤ samplePlace g e → samplePlace g e < 2 ^ 14 →
      let u : State := s.setCtx { s.ctx ctx with samplePos := (core, samplePlace g e + 1) :: (s.ctx ctx).samplePos.filter fun x => x.1 != core }
      ∃ t issues, exec (.pcSample core ctx) s = .next t ∧ (issues = true → e.status = .ready ∧ s.canIssue g e = true) ∧
        let state := sampleState (s.coreOf core) (s.teamOf g.team) g e issues
        Traced ctx { kind := 5, pc := 0, d0 := e.pc, d1 := BitVec.ofNat 32 g.gid, launch := (s.teamOf g.team).launch, sstate := state.1, reason := state.2, core
                     part := g.loc.part, gid := g.gid, ent := e.num } u t)) ∧
  (∀ s : State,
    let frozen (at_ : Nat) (t : State) : Prop := t = { s with dev := { s.dev with stopped := some at_, devstate := .stopped, stopAt := none, msix := t.dev.msix, mb := t.dev.mb } } ∧
      (s.dev.mb.busy = false → t.dev.mb = s.dev.mb ∧ t.dev.msix = s.dev.msix) ∧ (s.dev.mb.busy = true → t.dev.mb.busy = false ∧ t.dev.mb.result = 6)
    (∀ c, s.comparator = some c → s.ent.status ≠ .faultwait → (s.grp.gstate = .ready ∨ s.grp.gstate = .trapped) →
      (c.offset = s.ent.pc ∧ c.ctx = s.team.ctx ∧ c ∈ s.core.cmps ∧ c.action ≠ 0) ∧
      (c.action = 1 → exec (.pcComparatorMatch c.index) s = .next (s.takeTrap (s.trapHere .hwbkpt (BitVec.ofNat 32 c.index)))) ∧
      (c.action = 2 → ∃ u, Traced s.team.ctx { kind := 7, pc := s.ent.pc, d0 := s.ent.pc, d1 := BitVec.ofNat 32 c.index, launch := s.team.launch, core := s.core.num, part := s.grp.loc.part
                                               gid := s.grp.gid, ent := s.ent.num } s u ∧ exec (.pcComparatorMatch c.index) s = .next { u with ent := { s.ent with skipCmp := true } }) ∧
      (c.action = 3 → ∃ t, exec (.pcComparatorMatch c.index) s = .next t ∧ frozen s.dev.tick t)) ∧
    (∀ n, s.dev.stopAt = some n → n ≤ s.dev.tick → ∃ t, exec .tickStop s = .next t ∧ frozen n t) ∧
    (∀ c < 10, s.dev.stopped ≠ none → c ∉ s.dev.scanned → exec (.scanChainShift c) s = .next { s with dev := { s.dev with scanned := s.dev.scanned ++ [c] } })) ∧
  ∀ s : State,
    let place : GLoc := ⟨s.param 0 2, s.param 2 1, s.param 3 1⟩
    let type := s.param 4 1
    let index := s.param 5 1
    let off := s.param 8 4
    let n := s.param 12 4
    let held (g : Group) : Prop := s.groupAt place = some g ∧ g.debugHeld = true
    -- the command as the core's Arbour acknowledges it
    let acked (f : Directed) (t : State) : Prop := s.dev.mb.directed = f → s.dev.mb.units = [arbourOf place.core] → exec (.directedCommandAck (arbourOf place.core)) s = .next t
    let ended (result : Nat) (resp : List Byte) (u : State) : State := { u with dev := { u.dev with
      msix := u.dev.msix ++ [0], mb := { s.dev.mb with busy := false, result, response := resp, directed := .none, units := [] } } }
    (s.Takes [.ready] [(0, 1)] → s.param 0 1 ≤ 63 →
      let l := (s.allGroups.filter fun g => g.debugHeld && (!g.agent && (s.teamOf g.team).ctx = s.param 0 1)).take 127
      exec .dbgList s = .next (ended 0 (leBytes l.length 4 ++ l.flatMap fun g => leBytes g.loc.core 2 ++ leBytes g.loc.part 1 ++ leBytes g.loc.slot 1) s)) ∧
    (s.Takes [.ready] [(0, 6), (8, 8)] → n ≤ 512 → place.core ≤ 831 → exec .dbgRead s = .next (s.mbStart (.dbgRead place type index off n) [arbourOf place.core])) ∧
    (s.Takes [.ready] [(0, 6), (8, 8 + min 232 n)] → n ≤ 232 → place.core ≤ 831 → dbgRefused type off n = false →
      exec .dbgWrite s = .next (s.mbStart (.dbgWrite place type index off (leBytes (s.param 16 n) n)) [arbourOf place.core])) ∧
    (s.Takes [.ready] [(0, 5)] → type ≤ 2 → place.core ≤ 831 → exec .dbgResume s = .next (s.mbStart (.dbgResume place type) [arbourOf place.core])) ∧
    (∀ g, held g →
      (∀ bs, g.payload (s.teamOf g.team) (s.lowestGid g) type index = some bs → off + n ≤ bs.length → acked (.dbgRead place type index off n) (ended 0 ((bs.drop off).take n) s)) ∧
      (∀ bs, g.payload (s.teamOf g.team) (s.lowestGid g) type index = some bs → bs.length < off + n → acked (.dbgRead place type index off n) (ended 3 [] s)) ∧
      (g.payload (s.teamOf g.team) (s.lowestGid g) type index = none → acked (.dbgRead place type index off n) (ended 3 [] s)) ∧
      (∀ bs new, g.payload (s.teamOf g.team) (s.lowestGid g) type index = some bs → s.dev.mb.directed = .dbgWrite place type index off new → s.dev.mb.units = [arbourOf place.core] →
        (bs.length < off + new.length → exec (.directedCommandAck (arbourOf place.core)) s = .next (ended 3 [] s)) ∧
        (off + new.length ≤ bs.length → ∃ t, exec (.directedCommandAck (arbourOf place.core)) s = .next t ∧ t.dev = (ended 0 [] s).dev ∧
          (∀ x ∈ s.allGroups, x.loc = place → ∃ y ∈ t.allGroups, y.loc = place ∧ y.gid = x.gid ∧ y.team = x.team ∧ y.debugHeld = x.debugHeld) ∧
          ∀ x, x.loc ≠ place → (x ∈ t.allGroups ↔ x ∈ s.allGroups))) ∧
      (∀ t mode, mode < 2 → g.gstate = .trapped → g.treg.cause.setWidth 8 ≠ 0x12#8 → s.focus place g.trapper = some t →
        let u := t.returnTrap
        acked (.dbgResume place mode) (ended 0 [] (if mode = 1 then { u with ent := { u.ent with stepTrap := 1 } } else u))) ∧
      (∀ mode < 2, g.treg.cause.setWidth 8 = 0x12#8 → acked (.dbgResume place mode) (ended 2 [] s)) ∧
      (∀ l, s.launch? (s.teamOf g.team).launch = some l → l.state ≠ .done → l.state ≠ .failed → s.dev.mb.directed = .dbgResume place 2 → s.dev.mb.units = [arbourOf place.core] →
        ∃ t y, exec (.directedCommandAck (arbourOf place.core)) s = .next t ∧ t.launch? l.id = some y ∧ y.state = .failed ∧ y.err = 8 ∧ t.dev.mb.busy = false ∧ t.dev.mb.result = 0)) ∧
    ((∀ g, ¬ held g) → ∀ f ∈ [Directed.dbgRead place type index off n, .dbgResume place type], acked f (ended 2 [] s))

/-! ## Queues (04_queue.md) -/

/-- (R58 to R71) A poll reads the write index, posts the notice of a queue with work and errs one that has overrun. The head packet of an active queue, its notice at hand, starts: a
malformed one errs the queue with BAD_PACKET, BARRIER stalls it while packets are outstanding, and otherwise the read index moves on and the
packet does its work; CODESYNC waits for the line fills in flight, and the Saltern keeps a SYNC draw until those of its Arbour are delivered. A WAITV whose condition the scanner sees hold makes its queue ACTIVE again,
its notice posted. A packet whose work is done applies its signal and leaves the queue; a signal that fails leaves the first error of a queue in ERROR. (R48) A
priority update has the tick of the packet's claim as its stamp, and reaches the cores by stamp, the earliest first (notes/assumptions/43.md). W stays as read where the queue has
overrun, and PRIO for a context that is not RESIDENT completes at once (notes/assumptions/41.md); TIMEOUT counts from the first read of WAITV (notes/assumptions/62.md). Completes: queuePoll, launch, draw, signal, waitv, codesync, prio, mark, pad, waitvPoll, waitvTimeout,
packetComplete, prioUpdateApply. -/
def Obligations.QueueEvents : Prop :=
  ∀ (s : State) (q : Nat),
    let k := s.queue q
    let p := s.headPacket k
    let x : Started := { n := k.ridx, packet := BitVec.ofNat 512 p }
    let w0 := s.withdrawNotice q
    let u := w0.startPacket q x
    let moved (t : State) (y : Started) : Prop := (t.queue q).ridx = k.ridx + 1 ∧ (t.queue q).started = k.started ++ [y] ∧ (t.queue q).state = .active
    let over_ (t : State) : Prop := (t.queue q).ridx = k.ridx + 1 ∧ (t.queue q).started = k.started ∧ (t.queue q).state = if k.started = [] ∧ k.lastW ≤ k.ridx + 1 then .idle else .active
    let errs (i : Instr) (code : Nat) : Prop := ∃ t, exec i s = .next t ∧ (t.queue q).state = .error ∧ (t.queue q).err = code ∧ (t.queue q).notice = false ∧ (t.queue q).claimed = false ∧
      ∀ n ∈ t.dev.notices, n.raster = false → n.queue ≠ q
    (let first : Prop := k.polled = true ∧ k.due ≤ s.dev.tick ∧ ∀ y ∈ s.dev.queues, y.pollsBefore k = false
     let w := leNat (s.dev.mem.readBytes k.widxAddr.toNat 8)
     first →
      (s.reach k.widxAddr 8 = false → (k.state = .idle ∨ k.state = .active ∨ k.state = .stalled) → errs (.queuePoll q) 3) ∧
      (s.reach k.widxAddr 8 = true → ∃ t, exec (.queuePoll q) s = .next t ∧ (t.queue q).lastW = w ∧
        (t.queue q).pollns = (if k.cls = 0 then 128 else if k.lastW < w then 256 else min 65536 (2 * k.pollns)) ∧ (t.queue q).due = s.dev.tick + (t.queue q).pollns * 5 / 4 ∧
        ((k.state = .idle ∨ k.state = .active) → k.lastW ≤ w → k.ridx < w → w ≤ k.ridx + 2 ^ k.log2 → (t.queue q).state = .active ∧ ((t.queue q).notice = true ∨ (t.queue q).claimed = true)) ∧
        ((k.state = .idle ∨ k.state = .active ∨ k.state = .stalled) → (k.ridx + 2 ^ k.log2 < w ∨ w < k.lastW) → (t.queue q).state = .error ∧ (t.queue q).err = 2))) ∧
    (k.state = .active → k.ridx < k.lastW → (k.claimed = true ∨ ∃ n, s.headNotice k.home = some n ∧ n.raster = false ∧ n.queue = q) → (s.ctx k.ctx).state = .resident →
      s.reach (k.ring + BitVec.ofNat 64 (64 * (k.ridx % 2 ^ k.log2))) 64 = true → s.reach k.ridxAddr 8 = true → (∀ y ∈ k.started, y.n ≠ k.ridx) →
      let type := p % 256
      let handler : Instr := match type with | 2 => .draw q | 3 => .signal q | 4 => .waitv q | 5 => .codesync q | 6 => .prio q | 7 => .mark q | 8 => .pad q | _ => .launch q
      (s.badPacket k p = true → errs handler 1) ∧
      (s.badPacket k p = false → type ≠ 8 → p.testBit 8 = true → k.started ≠ [] → ∃ t, exec handler s = .next t ∧ (t.queue q).state = .stalled ∧ (t.queue q).ridx = k.ridx ∧ t.dev.mem = s.dev.mem) ∧
      moved u x ∧ u.dev.mem = s.dev.mem.writeBytes k.ridxAddr.toNat (leBytes (k.ridx + 1) 8) ∧
      (s.badPacket k p = false → (type = 8 ∨ p.testBit 8 = false ∨ k.started = []) →
        let signals := p.testBit 10
        (type = 8 → ∃ t, exec (.pad q) s = .next t ∧ over_ t ∧ t.dev.mem = u.dev.mem) ∧
        (∀ v, type = 3 → u.control (u.queue q) { r := true, w := true } (BitVec.ofNat 80 (fieldOf p 64 80)) 16 = .ok v →
          let a : VAddr := BitVec.ofNat 80 (fieldOf p 64 80)
          let val := fieldOf p 192 64
          ∃ t, exec (.signal q) s = .next t ∧ over_ t ∧
            t.dev.mem = (v.ctlWrite (v.queue q) a (leBytes (if fieldOf p 144 4 = 0 then val else v.ctlRead (v.queue q) a 8 + val) 8)).dev.mem) ∧
        (type = 3 → u.control (u.queue q) { r := true, w := true } (BitVec.ofNat 80 (fieldOf p 64 80)) 16 = .fail → ∃ t, exec (.signal q) s = .next t ∧ (t.queue q).state = .error ∧ (t.queue q).err = 6 ∧
          (t.queue q).started = k.started) ∧
        (∀ v, type = 7 → signals = false → u.control (u.queue q) { w := true } (BitVec.ofNat 80 (fieldOf p 256 80)) 16 = .ok v → ∃ t, exec (.mark q) s = .next t ∧ over_ t ∧
          t.dev.mem = (v.ctlWrite (v.queue q) (BitVec.ofNat 80 (fieldOf p 256 80)) (leBytes s.dev.tick 8 ++ leBytes (fieldOf p 336 64) 8)).dev.mem) ∧
        (type = 7 → signals = false → u.control (u.queue q) { w := true } (BitVec.ofNat 80 (fieldOf p 256 80)) 16 = .fail → ∃ t, exec (.mark q) s = .next t ∧ (t.queue q).state = .error ∧
          (t.queue q).err = 6 ∧ (t.queue q).started = k.started) ∧
        (type = 5 → (∃ c ∈ s.allCores, c.fills ≠ []) → exec (.codesync q) s = .refused .notDue) ∧
        (type = 5 → signals = false → (∀ c ∈ s.allCores, c.fills = []) → ∃ t, exec (.codesync q) s = .next t ∧ over_ t ∧ t.dev.mem = u.dev.mem ∧
          t.core.icache = (s.core.icinvAll k.ctx (BitVec.ofNat 32 (fieldOf p 256 32)) (BitVec.ofNat 32 (fieldOf p 288 32))).icache ∧
          t.cores.map Core.icache = s.cores.map fun c => (c.icinvAll k.ctx (BitVec.ofNat 32 (fieldOf p 256 32)) (BitVec.ofNat 32 (fieldOf p 288 32))).icache) ∧
        (let c := s.ctx (fieldOf p 256 8)
         let stamp := if k.claimed then k.claimTick else s.dev.tick
         let up : PrioUpdate := ⟨fieldOf p 264 4, stamp, false⟩
         type = 6 →
          (c.state = .resident → ∃ t, exec (.prio q) s = .next t ∧ moved t { x with stamp, wait := List.range 832 } ∧
            t.ctx (fieldOf p 256 8) = { c with eff := if up.beats c.eff then up else c.eff }) ∧
          (c.state ≠ .resident → signals = false → ∃ t, exec (.prio q) s = .next t ∧ over_ t ∧ t.ctx (fieldOf p 256 8) = if c.state = .error then c else { c with kept := c.kept ++ [up] })) ∧
        (type = 4 → k.waitMet = true → signals = false → ∃ t, exec (.waitv q) s = .next t ∧ over_ t) ∧
        (∀ v, type = 4 → k.waitMet = false → w0.control (w0.queue q) { r := true } (BitVec.ofNat 80 (fieldOf p 256 80)) 8 = .ok v →
          let word : BitVec 64 := BitVec.ofNat 64 (v.ctlRead (v.queue q) (BitVec.ofNat 80 (fieldOf p 256 80)) 8)
          let mask : BitVec 64 := BitVec.ofNat 64 (fieldOf p 400 64)
          let ref : BitVec 64 := BitVec.ofNat 64 (fieldOf p 336 64)
          let met : Prop := match fieldOf p 464 3 with
            | 0 => word &&& mask = ref &&& mask | 1 => word &&& mask ≠ ref &&& mask
            | 2 => (ref &&& mask).toNat ≤ (word &&& mask).toNat | _ => (word &&& mask).toNat < (ref &&& mask).toNat
          (met → signals = false → ∃ t, exec (.waitv q) s = .next t ∧ over_ t) ∧
          (¬ met → ∃ t, exec (.waitv q) s = .next t ∧ (t.queue q).state = .stalled ∧ (t.queue q).ridx = k.ridx ∧ (t.queue q).waitSince = some (k.waitSince.getD s.dev.tick) ∧ t.dev.mem = s.dev.mem)) ∧
        (let id : Word := BitVec.ofNat 32 (k.home * 2 ^ 29 + s.dev.counters.getD k.home 0 % 2 ^ 29)
         let gx := fieldOf p 416 31
         let gy := fieldOf p 448 16
         let gz := fieldOf p 464 16
         (type = 1 → ∃ t, exec (.launch q) s = .next t ∧ moved t { x with launch := id } ∧ t.dev.counters.getD k.home 0 = s.dev.counters.getD k.home 0 + 1 ∧ t.launch? id = some {
            id, total := gx * gy * gz, kdesc := BitVec.ofNat 80 (fieldOf p 256 80), args := BitVec.ofNat 80 (fieldOf p 336 80), gx, gy, gz, qgen := k.qgen, queue := q, packet := k.ridx, ctx := k.ctx
            cohort := p.testBit 480, morton := p.testBit 447, sync := p.testBit 9 }) ∧
         (type = 2 → ∃ t, exec (.draw q) s = .next t) ∧
         (type = 2 → ((∃ c ∈ s.dev.salt, c.g = ⟨q, 16, 16⟩ ∧ (c.home = k.home ∨ c.home = 8)) ∨ (p.testBit 9 = true ∧ ∃ c ∈ s.allCores, c.num / 104 = k.home ∧ c.fills ≠ [])) → ∃ t, exec (.draw q) s = .next t ∧ moved t { x with launch := id } ∧
            t.launch? id = some { id, isDraw := true, total := 2 ^ 64 - 1, kdesc := BitVec.ofNat 80 (fieldOf p 256 80), qgen := k.qgen, queue := q, packet := k.ridx, ctx := k.ctx, sync := p.testBit 9 } ∧
            t.dev.salt = s.dev.salt ++ [{ g := ⟨q, 16, 16⟩, op := s.nextOp, team := 0, ctx := k.ctx, home := k.home, cmd := .packet (fieldOf p 416 16) id (BitVec.ofNat 80 (fieldOf p 336 80)) }])))) ∧
    (k.state = .stalled → ∀ since, k.waitSince = some since →
      (∀ v, k.held = [] → (s.ctx k.ctx).state = .resident → s.control k { r := true } (BitVec.ofNat 80 (fieldOf p 256 80)) 8 = .ok v → waitCond p (v.ctlRead k (BitVec.ofNat 80 (fieldOf p 256 80)) 8) = false →
        ∃ t, exec (.waitvPoll q) s = .next t ∧ (t.queue q).state = .stalled ∧ (t.queue q).ridx = k.ridx ∧ (t.queue q).waitSince = some since) ∧
      (∀ v, k.held = [] → (s.ctx k.ctx).state = .resident → s.control k { r := true } (BitVec.ofNat 80 (fieldOf p 256 80)) 8 = .ok v → waitCond p (v.ctlRead k (BitVec.ofNat 80 (fieldOf p 256 80)) 8) = true →
        ∃ t, exec (.waitvPoll q) s = .next t ∧ (t.queue q).state = .active ∧ (t.queue q).waitMet = true ∧ (t.queue q).ridx = k.ridx ∧ (t.queue q).started = k.started ∧
          ((t.queue q).notice = true ∨ (t.queue q).claimed = true) ∧ t.dev.mem = s.dev.mem) ∧
      (let limit := fieldOf p 480 32
       limit ≠ 0 → since + limit ≤ s.dev.tick → (s.gCheck s.dev.lodgeTlb (s.ctx k.ctx) k.home { r := true } [(BitVec.ofNat 80 (fieldOf p 256 80), 8)] = .ok →
         waitCond p (s.ctlRead k (BitVec.ofNat 80 (fieldOf p 256 80)) 8) = false) → errs (.waitvTimeout q) 4)) ∧
    (∀ (n : Nat) (y : Started), k.started.find? (fun z => z.n = n) = some y → k.state ≠ .resetting → y.held = [] → s.packetDone y = true → pktSigen y.packet.toNat = false →
      (y.packet.toNat % 256 ≠ 7 ∨ y.marked = true ∨ y.err ≠ 0) → ∃ t, exec (.packetComplete q n) s = .next t ∧ (∀ z, z ∈ (t.queue q).started ↔ z ∈ k.started ∧ z.n ≠ n) ∧ t.dev.mem = s.dev.mem ∧
        ∀ l, s.launch? y.launch = some l → l.state = .done → (y.packet.toNat % 256 = 1 ∨ y.packet.toNat % 256 = 2) → t.launch? y.launch = none) ∧
    (∀ (n : Nat) (y : Started), k.started.find? (fun z => z.n = n) = some y → k.state = .error → y.held = [] → s.packetDone y = true → pktSigen y.packet.toNat = true →
      y.packet.toNat % 256 ≠ 7 → y.packet.toNat % 256 ≠ 8 → s.control k { r := true, w := true } (BitVec.ofNat 80 (fieldOf y.packet.toNat 64 80)) 16 = .fail →
      ∃ t, exec (.packetComplete q n) s = .next t ∧ (t.queue q).state = .error ∧ (t.queue q).err = k.err ∧ ∀ z, z ∈ (t.queue q).started ↔ z ∈ k.started ∧ z.n ≠ n) ∧
    ∀ (core ctx : Nat) (y : Started), k ∈ s.dev.queues → y ∈ k.started → y.packet.toNat % 256 = 6 → fieldOf y.packet.toNat 256 8 = ctx → core ∈ y.wait → y.stamp ≤ s.dev.tick →
      (∀ z ∈ s.dev.queues, ∀ v ∈ z.started, v.packet.toNat % 256 = 6 → fieldOf v.packet.toNat 256 8 = ctx → core ∈ v.wait → (z = k ∧ v = y) ∨ y.stamp < v.stamp) →
      (∀ v ∈ s.dev.strays, v.packet.toNat % 256 = 6 → fieldOf v.packet.toNat 256 8 = ctx → core ∈ v.wait → y.stamp < v.stamp) →
      let up : PrioUpdate := ⟨fieldOf y.packet.toNat 264 4, y.stamp, false⟩
      let held := (s.coreOf core).prio (s.ctx ctx)
      ∃ t, exec (.prioUpdateApply core ctx) s = .next t ∧ (t.queue q).started = k.started.map (fun z => if z.n = y.n then { y with wait := y.wait.filter fun c => c ≠ core } else z) ∧
        (t.coreOf core).prio (t.ctx ctx) = (if up.beats held then up else held) ∧ (t.coreOf core).wakes = (s.coreOf core).wakes ||| 0x10

/-! ## Contexts and queues under the mailbox (03_context.md, 04_queue.md) -/

/-- (R17, R45 to R50, R384) The CTX commands define, admit, save, restore and release a context, set its priority, return its state and fail it; a number past
63 ends them with BAD_PARAM, a state that does not take them with BAD_STATE, an admission without a slot with NO_SLOT. The events of a save, a restore and a
release end them. (R55, R60, R72) QUEUE_MAP, QUEUE_RESET and QUEUE_UNMAP change a queue's descriptor. (R83) LAUNCH_QUERY copies a kept record. Kills and the release of a
context are directed commands: each Arbour kills what stands there and acknowledges, and the release or reset ends after the last acknowledgement (R17). The units of such
commands are those of notes/assumptions/25.md; a release or reset drops what notes/assumptions/52.md says, and the keys of a context that enters RELEASING are ABSENT (R210). The
states that take CTX_QUERY and CTX_FAIL are those of notes/assumptions/53.md, the slot is the lowest free one (notes/assumptions/62.md), a send that waits for an entry does not hold a
save (notes/assumptions/66.md), PRIO stands with stamp 0, and CTX_QUERY gives what was last effective (notes/assumptions/74.md). Completes: ctxDefine, ctxAdmit, ctxSave, ctxRestore, ctxRelease, ctxPrio, ctxQuery, ctxFail, groupPreempt, ctxSaveDone, coreRestore, ctxRestoreDone, ctxReleaseDone,
queueMap, queueReset, queueUnmap, queueResetDone, launchQuery. -/
def Obligations.ContextCommands : Prop :=
  ∀ (s : State) (n : Nat),
    let c := s.ctx n
    let ended (result : Nat) (resp : List Byte) (u : State) : State := { u with dev := { u.dev with
      msix := u.dev.msix ++ [0], mb := { u.dev.mb with busy := false, result, response := resp, directed := .none, units := [] } } }
    let started (x : Directed) (units : List Nat) (resp : List Byte) (u : State) : State := { u with dev := { u.dev with
      mb := { u.dev.mb with busy := true, response := resp, directed := x, units } } }
    let sets (k : Ctx) (u : State) : Prop := u.ctx n = k ∧ ∀ m, m ≠ n → u.ctx m = s.ctx m
    let slotFree (r : Nat) : Prop := r < 4 ∧ (∀ x ∈ s.dev.ctxs, s.holdsSlot x = true → x.rslot ≠ r) ∧ ∀ y < r, ∃ x ∈ s.dev.ctxs, s.holdsSlot x = true ∧ x.rslot = y
    let noSlot : Prop := ∀ r < 4, ∃ x ∈ s.dev.ctxs, s.holdsSlot x = true ∧ x.rslot = r
    let latest (u : PrioUpdate) : Prop := (u = ⟨c.prio, 0, false⟩ ∨ u ∈ c.kept) ∧ ∀ v ∈ c.kept, v.beats u = false
    let command (i : Instr) (used : List (Nat × Nat)) (ok : List CtxState) (does : Prop) : Prop := s.Takes [.ready] used → s.param 0 1 = n →
      (63 < n → exec i s = .next (ended 3 [] s)) ∧ (n ≤ 63 → c.state ∉ ok → exec i s = .next (ended 2 [] s)) ∧ (n ≤ 63 → c.state ∈ ok → does)
    command .ctxDefine [(0, 1), (8, 17), (32, 9), (48, 4), (56, 15)] [.free] (
      let root := s.param 8 8
      let fl := s.param 16 8
      let ov := s.param 32 8
      let sb := s.param 56 8
      let mb := s.param 64 4
      let fits : Prop := root % 4096 = 0 ∧ fl % 4096 = 0 ∧ ov % 65536 = 0 ∧ sb % 2 ^ 20 = 0 ∧ 4 ≤ s.param 24 1 ∧ s.param 24 1 ≤ 16 ∧ 10 ≤ s.param 40 1 ∧ s.param 40 1 ≤ 20 ∧
        1 ≤ s.param 68 2 ∧ s.param 68 2 ≤ 4096 ∧ s.param 70 1 ≤ 15 ∧ 832 ≤ mb ∧ sb < 2 ^ 56 ∧ s.place sb = .local ∧ sb % 2 ^ 42 + mb * 2 ^ 20 ≤ 48 * 2 ^ 30
      (¬ fits → exec .ctxDefine s = .next (ended 3 [] s)) ∧
      ∀ tag, fits → 1 ≤ tag → tag ≤ 64 → (∀ x ∈ s.dev.ctxs, x.state ≠ .free → x.astag ≠ tag) → (∀ y, 1 ≤ y → y < tag → ∃ x ∈ s.dev.ctxs, x.state ≠ .free ∧ x.astag = y) →
        ∃ t, exec .ctxDefine s = .next t ∧ sets { num := n, state := .defined, root := BitVec.ofNat 64 root, flbase := BitVec.ofNat 64 fl, fllog2 := s.param 24 1, ovbase := BitVec.ofNat 64 ov
                                                  ovlog2 := s.param 40 1, ordwait := s.param 48 4, savebase := BitVec.ofNat 64 sb, savemb := mb, qmax := s.param 68 2, prio := s.param 70 1, astag := tag
                                                  gen := c.gen + 1, base := ⟨s.param 70 1, 0, false⟩, eff := ⟨s.param 70 1, 0, false⟩ } t ∧
          t.dev.mem = s.dev.mem.writeBytes fl (leBytes 0 64) ∧ t.dev.mb.result = 0 ∧ t.dev.mb.response = leBytes tag 2 ++ leBytes (c.gen + 1).toNat 2) ∧
    command .ctxAdmit [(0, 1)] [.defined] (
      (noSlot → exec .ctxAdmit s = .next (ended 4 [] s)) ∧
      ∀ r, slotFree r → ∃ t u, exec .ctxAdmit s = .next t ∧ latest u ∧ sets { c with state := .resident, rslot := r, base := u, eff := u, kept := [], keepsSlot := false } t ∧
        (∀ k, (t.coreOf k).prio (t.ctx n) = u) ∧ t = ended 0 (leBytes r 1) { s with core := t.core, cores := t.cores, dev := { s.dev with ctxs := t.dev.ctxs } }) ∧
    command .ctxSave [(0, 1)] [.resident] (∃ t, exec .ctxSave s = .next t ∧ (t.ctx n).state = .saving ∧ t.dev.mb.busy = true ∧ t.dev.mb.directed = .save n ∧
      ((∀ w ∈ s.dev.draws, w.ctx ≠ n) → t = started (.save n) [] [] { s with dev := { s.dev with ctxs := t.dev.ctxs, queues := t.dev.queues, strays := t.dev.strays } } ∧
        sets { c with
          state := .saving
          savingAt := s.dev.tick
          saveBad := false
          kept := c.kept ++ ((s.dev.queues.flatMap Queue.started ++ s.dev.strays).filter fun x => decide (x.packet.toNat % 256 = 6 ∧ fieldOf x.packet.toNat 256 8 = n ∧ x.wait ≠ [])).map
            fun x => ⟨fieldOf x.packet.toNat 264 4, x.stamp, false⟩ } t)) ∧
    command .ctxRestore [(0, 1)] [.saved] (
      (noSlot → exec .ctxRestore s = .next (ended 4 [] s)) ∧
      ∀ r, slotFree r → ∃ t, exec .ctxRestore s = .next t ∧ sets { c with state := .restoring, rslot := r } t ∧ t = started (.restore n) [] (leBytes r 1) { s with dev := { s.dev with ctxs := t.dev.ctxs } }) ∧
    command .ctxRelease [(0, 1)] [.defined, .resident, .saved, .error] (∃ t, exec .ctxRelease s = .next t ∧ (t.ctx n).state = .releasing ∧ t.dev.mb.busy = true ∧ t.dev.mb.directed = .release n ∧ t.dev.mb.units = List.range 8 ∧
      (∀ k ∈ t.dev.keys, k.ctx ≠ n) ∧ (∀ q ∈ s.dev.queues, s.queue q.num = q → q.ctx = n → q.state ≠ .unmapped → (t.queue q.num).state = .resetting) ∧
      (∀ l, s.dev.launches.filter (fun y => y.id = l.id) = [l] → s.dev.queues.filter (fun y => y.num = l.queue) = [s.queue l.queue] → (s.queue l.queue).ctx = n → (s.queue l.queue).state ≠ .unmapped → (s.queue l.queue).state ≠ .resetting →
        (l.state = .claimed ∨ l.state = .issuing ∨ l.state = .draining) → ∃ y, t.launch? l.id = some y ∧ y.state = .failed ∧ y.err = 8)) ∧
    -- what the Arbours do on a kill, a reset or a release, and what the last acknowledgement ends
    (∀ (x : Directed) (p : Team → Prop) (unit : Nat), (x, p) ∈ [(Directed.release n, fun y => y.ctx = n), (.kill n, fun y => y.ctx = n), (.queueReset n, fun y => y.queue = n)] →
      s.dev.mb.directed = x → unit ∈ s.dev.mb.units → ∃ t, exec (.directedCommandAck unit) s = .next t ∧
        (∀ y ∈ t.allTeams, y.serial ≠ 0 → y.core / 104 = unit → p y → y.killed = true) ∧
        (x = .release n → s.dev.salt = [] → s.dev.draws = [] → ∀ f ∈ t.dev.slots, f.arbour = unit → f.ctx ≠ n) ∧
        (t.dev.mb = { s.dev.mb with units := s.dev.mb.units.filter fun v => v ≠ unit } ∨ (x = .kill n ∧ (∀ v ∈ s.dev.mb.units, v = unit) ∧
          t.dev.mb = { s.dev.mb with busy := false, result := 0, directed := .none, units := [] })) ∧
        (x = .kill n → (∀ v ∈ s.dev.mb.units, v = unit) → t.dev.mb.busy = false)) ∧
    command .ctxPrio [(0, 2)] [.defined, .resident, .saving, .saved, .restoring, .error] (
      let p := s.param 1 1
      let u : PrioUpdate := ⟨p, s.dev.tick, true⟩
      let stamp := leBytes s.dev.tick 8
      (15 < p → exec .ctxPrio s = .next (ended 3 [] s)) ∧
      (p ≤ 15 → c.state = .error → exec .ctxPrio s = .next (ended 0 stamp s)) ∧
      (p ≤ 15 → c.state = .resident → ∃ t, exec .ctxPrio s = .next t ∧ sets { c with eff := if u.beats c.eff then u else c.eff } t ∧
        t = started (.prio n p s.dev.tick) (List.range 832) stamp { s with dev := { s.dev with ctxs := t.dev.ctxs } }) ∧
      (p ≤ 15 → c.state ≠ .error → c.state ≠ .resident → ∃ t, exec .ctxPrio s = .next t ∧ sets { c with kept := c.kept ++ [u] } t ∧ t = ended 0 stamp { s with dev := { s.dev with ctxs := t.dev.ctxs } })) ∧
    command .ctxQuery [(0, 1)] [.free, .defined, .resident, .saving, .saved, .restoring, .error, .releasing] (
      let code := match c.state with | .free => 0 | .defined => 1 | .resident => 2 | .saving => 3 | .saved => 4 | .restoring => 5 | .error => 6 | .releasing => 7
      exec .ctxQuery s = .next (ended 0 (leBytes code 1 ++ leBytes c.rslot 1 ++ leBytes c.eff.prio 1 ++ leBytes 0 5 ++ leBytes c.eff.stamp 8) s)) ∧
    command .ctxFail [(0, 1)] [.defined, .resident, .saving, .saved, .restoring] (∃ t, exec .ctxFail s = .next t ∧ (t.ctx n).state = .error ∧ t.dev.mb.busy = true ∧ t.dev.mb.directed = .kill n ∧ t.dev.mb.units = List.range 8 ∧
      (∀ l, s.launch? l.id = some l → l.ctx = n → (l.state = .claimed ∨ l.state = .issuing ∨ l.state = .draining) → ∃ y, t.launch? l.id = some y ∧ y.state = .failed ∧ y.err = 8) ∧
      ((∀ l ∈ s.dev.launches, l.ctx ≠ n) → t.dev.mem = (s.record n { kind := 8, code := 1 }).dev.mem)) ∧
    -- the events of a save, a restore and a release
    (∀ (g : GLoc) (x : Group), s.groupAt g = some x → (∀ k ∈ s.allCores, ∀ y ∈ k.groups, y.loc = g → y = x) → x.agent = false → (s.teamOf x.team).ctx = n → c.state = .saving → (x.gstate = .admitted ∨ x.gstate = .ready ∨ x.gstate = .trapped) →
      x.count .vm = 0 → x.count .sp = 0 → x.count .ga = 0 → (∀ o ∈ x.ops, o.done = true ∨ (o.path = some .mq ∧ o.auto = false) ∨ (o.fills = [] ∧ o.path ≠ none)) → (∀ p ∈ x.pm, p.state ≠ .solving) →
      let waited (e : Entity) (handler : Bool) (d : WaitData) : WaitData :=
        match ((s.dev.keys.flatMap Key.waiters).filter fun w => w.g = g).find? fun w => w.ent = e.num && w.handler == handler with
        | some w => { d with ordTicks := d.ordTicks + (c.savingAt - w.since) }
        | none => d
      ∃ t, exec (.groupPreempt g) s = .next t ∧ (∀ k ∈ t.dev.keys, ∀ w ∈ k.waiters, w.g ≠ g) ∧
        t.groupAt g = some { x with
          gstate := .preempted
          sibs := x.sibs.map fun e => { e with
            idem := none, failedRegs := [], wd := waited e e.handling e.wd
            frame := if e.handling then { e.frame with wd := waited e false e.frame.wd } else e.frame } }) ∧
    (c.state = .saving → (∀ g ∈ s.allGroups, g.agent = false → (s.teamOf g.team).ctx = n → g.gstate = .preempted ∧ ∀ a, some a ∈ g.acc → ∀ r ∈ a.rows, r.bad = false) →
      c.saveBad = false → (∀ k ∈ s.allCores, k.badSpad = []) →
      (∀ k < 832, ∀ x ∈ (s.coreOf k).sluice, (s.teamOf x.team).ctx = n → x.progress % 32 = 0) →
      ∃ t, exec (.ctxSaveDone n) s = .next t ∧ (t.ctx n).state = .saved ∧ (s.dev.mb.directed = .save n → t.dev.mb.busy = false ∧ t.dev.mb.result = 0) ∧ (s.dev.mb.directed ≠ .save n → t.dev.mb = s.dev.mb)) ∧
    (c.state = .saving → (∀ g ∈ s.allGroups, g.agent = false → (s.teamOf g.team).ctx = n → g.gstate = .preempted) →
      (∀ k < 832, ∀ x ∈ (s.coreOf k).sluice, (s.teamOf x.team).ctx = n → x.progress % 32 = 0) → c.saveBad = true →
      ∃ t, exec (.ctxSaveDone n) s = .next t ∧ (t.ctx n).state = .error ∧ (s.dev.mb.directed = .save n → t.dev.mb.busy = false ∧ t.dev.mb.result = 2)) ∧
    (∀ core k, c.state = .restoring → c.saved.find? (fun x => x.core = core) = some k → s.roomFor c (s.restored c k (s.readStream c core 8192 0).1) = true →
      (s.dev.poison = [] → ∃ t, exec (.coreRestore core n) s = .next t ∧ (t.ctx n).state = .restoring ∧ (t.ctx n).saved.map SavedCore.core = (c.saved.map SavedCore.core).filter fun x => x ≠ core) ∧
      (s.poisonedAt (c.streamAt core 0) 16 = true → ∃ t, exec (.coreRestore core n) s = .next t ∧ (t.ctx n).state = .error ∧ (s.dev.mb.directed = .restore n → t.dev.mb.busy = false ∧ t.dev.mb.result = 2))) ∧
    (c.state = .restoring → c.saved = [] → ∃ t u, exec (.ctxRestoreDone n) s = .next t ∧ latest u ∧ sets { c with state := .resident, base := u, eff := u, kept := [], savedTeams := [], keepsSlot := false } t ∧
      (∀ k, (t.coreOf k).prio (t.ctx n) = u) ∧ t.teams = s.teams ++ c.savedTeams ∧
      (s.dev.mb.directed = .restore n → t.dev.mb = { s.dev.mb with busy := false, result := 0, directed := .none, units := [] }) ∧ (s.dev.mb.directed ≠ .restore n → t.dev.mb = s.dev.mb)) ∧
    (c.state = .releasing → (s.dev.mb.directed = .release n → s.dev.mb.units = []) → (∀ q ∈ s.dev.queues, q.ctx = n → q.state ≠ .resetting) → (∀ x ∈ s.allTeams, x.serial ≠ 0 → x.ctx ≠ n) → ∃ t, exec (.ctxReleaseDone n) s = .next t ∧
      sets { num := n, gen := c.gen } t ∧ (∀ k ∈ t.allCores, (∀ e ∈ k.itlb ++ k.dtlb, e.astag ≠ c.astag) ∧ (∀ l ∈ k.icache ++ k.versions, l.ctx ≠ n) ∧ (∀ f ∈ k.fills, f.line.ctx ≠ n) ∧ ∀ e ∈ k.tags, e.ctx ≠ n) ∧
      (∀ k ∈ t.dev.keys, k.ctx ≠ n) ∧
      (∀ e ∈ t.dev.l2tlb ++ t.dev.walkCache, e.2.astag ≠ c.astag) ∧ (∀ e ∈ t.dev.lodgeTlb ++ t.dev.lodgeTlbB, e.astag ≠ c.astag) ∧ (∀ x ∈ t.dev.sets, x.ctx ≠ n) ∧ ((∀ k ∈ s.dev.keys, k.spilled = false) → t.dev.mem = s.dev.mem) ∧
      (s.dev.mb.directed = .release n → t.dev.mb.busy = false ∧ t.dev.mb.result = 0) ∧ (s.dev.mb.directed ≠ .release n → t.dev.mb = s.dev.mb)) ∧
    -- queues
    (let q := s.param 0 2
     let k := s.queue q
     let only (x : Queue) (u : State) : Prop := u.queue q = x ∧ ∀ m, m ≠ q → u.queue m = s.queue m
     (s.Takes [.ready] [(0, 7), (8, 24)] → q ≤ 4095 →
      let cls := s.param 3 1
      let lg := s.param 5 1
      let ring := s.param 8 8
      let w := s.param 16 8
      let r := s.param 24 8
      let mapped (p : Queue → Bool) : Nat := (s.dev.queues.filter fun x => x.state != .unmapped && p x).length
      let inReach (a len : Nat) : Prop := a + len ≤ 2 ^ 56 ∧ ∀ x ∈ [a, a + len - 1], s.place x = .local ∨ s.place x = .host
      let fits : Prop := ring % 4096 = 0 ∧ w % 8 = 0 ∧ r % 8 = 0 ∧ 4 ≤ lg ∧ lg ≤ 20 ∧ cls ≤ 3 ∧ s.param 4 1 ≤ 7 ∧ s.param 6 1 ≤ 1 ∧ s.param 2 1 ≤ 63 ∧ inReach ring (64 * 2 ^ lg) ∧ inReach w 8 ∧ inReach r 8 ∧
        (s.param 6 1 = 1 → cls = 0) ∧ (s.ctx (s.param 2 1)).state ≠ .free ∧ (s.ctx (s.param 2 1)).state ≠ .releasing ∧ mapped (fun x => x.ctx = s.param 2 1) < (s.ctx (s.param 2 1)).qmax ∧
        (cls = 0 → mapped (fun x => x.cls = 0) < 64)
      (k.state ≠ .unmapped → exec .queueMap s = .next (ended 2 [] s)) ∧
      (k.state = .unmapped → ¬ fits → exec .queueMap s = .next (ended 3 [] s)) ∧
      (k.state = .unmapped → fits → ∃ t, exec .queueMap s = .next t ∧
        let at_ := leNat (s.dev.mem.readBytes w 8)
        let ns := if cls = 0 then 128 else 256
        only { num := q, state := .idle, ctx := s.param 2 1, cls, home := s.param 4 1, log2 := lg, priook := decide (s.param 6 1 = 1), ring := BitVec.ofNat 64 ring, widxAddr := BitVec.ofNat 64 w
               ridxAddr := BitVec.ofNat 64 r, ridx := at_, qgen := k.qgen + 1, pollns := ns, lastW := at_, due := s.dev.tick + ns * 5 / 4 } t ∧
        t.dev.mem = s.dev.mem.writeBytes r (leBytes at_ 8) ∧ t.dev.mb.result = 0 ∧ t.dev.mb.response = leBytes (k.qgen + 1).toNat 1)) ∧
     (s.Takes [.ready] [(0, 2)] → q ≤ 4095 →
      ((k.state = .unmapped ∨ k.state = .resetting) → exec .queueReset s = .next (ended 2 [] s)) ∧
      (k.state ≠ .unmapped → k.state ≠ .resetting → (∀ p ∈ s.dev.ports, (p.resets.filter fun r => r.1 = q).length < 127) → ∃ t, exec .queueReset s = .next t ∧
        (t.queue q).state = .resetting ∧ (t.queue q).started = [] ∧ (∀ x ∈ t.dev.notices, x.raster = true ∨ x.queue ≠ q) ∧
        t.dev.mb.busy = true ∧ t.dev.mb.directed = .queueReset q ∧ t.dev.mb.units = List.range 8 ∧
        (∀ x ∈ t.dev.salt, ∀ h id a, x.cmd = .packet h id a → ∀ l ∈ s.dev.launches, l.queue = q → l.id ≠ id) ∧
        ∀ l, s.launch? l.id = some l → l.queue = q → (l.state = .claimed ∨ l.state = .issuing ∨ l.state = .draining) → ∃ y, t.launch? l.id = some y ∧ y.state = .failed ∧ y.err = 8) ∧
      (k.state ≠ .idle → exec .queueUnmap s = .next (ended 2 [] s)) ∧
      (k.state = .idle → ∃ t, exec .queueUnmap s = .next t ∧ only { num := q, qgen := k.qgen } t ∧ (∀ x ∈ t.dev.notices, x.raster = true ∨ x.queue ≠ q) ∧
        t = ended 0 [] { s with dev := { s.dev with queues := t.dev.queues, notices := t.dev.notices } }))) ∧
    (∀ q, let k := s.queue q
     k.state = .resetting → ((s.dev.mb.directed = .queueReset q ∨ s.dev.mb.directed = .release k.ctx) → s.dev.mb.units = []) → (∀ x ∈ s.allTeams, x.serial ≠ 0 → x.queue ≠ q) → (∀ y ∈ s.dev.ctxs, ∀ x ∈ y.savedTeams, x.serial ≠ 0 → x.queue ≠ q) →
      (∀ x ∈ s.dev.sets, ∀ b, x.builder = some b → b.queue ≠ q) → ∃ t, exec (.queueResetDone q) s = .next t ∧
      t.queue q = { k with state := .idle, qgen := k.qgen + 1, ridx := k.lastW, pollns := if k.cls = 0 then 128 else 256, due := s.dev.tick + (if k.cls = 0 then 128 else 256) * 5 / 4 } ∧
      (∀ m, m ≠ q → t.queue m = s.queue m) ∧ t.dev.mem = s.dev.mem.writeBytes k.ridxAddr.toNat (leBytes k.lastW 8) ∧ (∀ l ∈ t.dev.launches, l.queue ≠ q) ∧
      (s.dev.mb.directed = .queueReset q → t.dev.mb.busy = false ∧ t.dev.mb.result = 0x10 ∧ t.dev.mb.response = leBytes (k.qgen + 1).toNat 1) ∧
      (s.dev.mb.directed ≠ .queueReset q → t.dev.mb = s.dev.mb)) ∧
    (s.Takes [.ready] [(0, 4), (8, 8)] →
      let at_ := s.param 8 8
      (s.launch? (BitVec.ofNat 32 (s.param 0 4)) = none → exec .launchQuery s = .next (ended 3 [] s)) ∧
      ∀ l, s.launch? (BitVec.ofNat 32 (s.param 0 4)) = some l →
        ((at_ % 64 ≠ 0 ∨ s.inReach at_ 16448 = false ∨ l.state = .pending ∨ l.state = .done) → exec .launchQuery s = .next (ended 3 [] s)) ∧
        (at_ % 64 = 0 → s.inReach at_ 16448 = true → l.state ≠ .pending → l.state ≠ .done → ∃ (t : State) (bs : List Byte), exec .launchQuery s = .next t ∧
          t.dev.mem = s.dev.mem.writeBytes at_ bs ∧ bs.length = 16448 ∧ t.dev.mb.result = 0 ∧ (l.state = .failed → t.launch? l.id = none) ∧ (l.state ≠ .failed → t.dev.launches = s.dev.launches) ∧
          (let state := match l.state with | .pending => 0 | .claimed => 1 | .issuing => 2 | .draining => 3 | .done => 4 | .failed => 5
           bs.take 64 = leBytes (state + l.go.toNat * 2 ^ 43 + l.morton.toNat * 2 ^ 44 + l.cohort.toNat * 2 ^ 45 + l.ctx % 64 * 2 ^ 46 + l.queue % 4096 * 2 ^ 52 + l.qgen.toNat * 2 ^ 64 + l.err % 256 * 2 ^ 72
            + l.id.toNat * 2 ^ 80 + l.kdesc.toNat * 2 ^ 112 + l.low % 2 ^ 64 * 2 ^ 192 + l.hwm % 2 ^ 64 * 2 ^ 256 + l.total % 2 ^ 64 * 2 ^ 320 + l.doneN % 2 ^ 64 * 2 ^ 384 + l.ticket % 2 ^ 64 * 2 ^ 448) 64) ∧
          ∀ i < 65536, fieldOf (bs.getD (64 + i / 4) 0).toNat (2 * (i % 4)) 2 = match l.map.find? fun e => e.1 % 65536 = i with | some e => if e.2 then 3 else 1 | none => 0))

/-! ## The mailbox, boot and power (26_bringup.md, 25_traps_debug.md, 10_page.md) -/

/-- (R397, R398) A command written while another is in progress ends with BUSY and changes nothing else; one in a DEVSTATE that does not take it with BAD_STATE; one with an unused
parameter byte that is not 0, and an opcode not listed, with BAD_PARAM. Each other command has its effect: identity, attestation, slots, power, the tick stop, the settings of a context. A setting
goes to its units, and takes effect and ends with their acknowledgement (R17, R170, R173, R360, R379, R388, R391, R392). (R390, R395, R396) Boot authenticates an image; a device reset and a power loss leave flash and what
stands outside the module. (R5, R397, R402, R403) Writes of registers, telemetry, and the thermal failsafe. Where a signed region's
header has its fields is the model's (notes/assumptions/46.md), as are BAD_STATE in STOPPED and FAILSAFE and the bits of BOOTERR (notes/assumptions/45.md), what a reset keeps
(notes/assumptions/47.md), STOP_STATUS and the header of a trace area (notes/assumptions/48.md), the units of a command (notes/assumptions/25.md), INVAL_DONE (notes/assumptions/55.md), a
length of 0 (notes/assumptions/57.md), and the upper bits of a write of MB_CMD (notes/assumptions/74.md). SHA-512 and Ed25519 are FIPS 180-4's and RFC 8032's (notes/assumptions/73.md).
Completes: identRead, attest, slotWrite, authRecovery, devReset, powerSet, powerCap, tickstop, stopStatus, trapSetup, traceSetup, pcbpSet, pcsampleSetup, tlbInval, pageResume, pageFail,
directedCommandAck, tlbInvalDone, mbCmdUnlisted, mbStatusWrite, tflagsWrite, bar2Write, registerWrite, telemetryUpdate, thermalFailsafe, resetRelease, powerLoss. -/
def Obligations.MailboxCommands : Prop :=
  ∀ s : State,
    let d := s.dev
    let ended (result : Nat) (resp : List Byte) (u : State) : State := { u with dev := { u.dev with
      msix := u.dev.msix ++ [0], mb := { u.dev.mb with busy := false, result, response := resp, directed := .none, units := [] } } }
    let started (x : Directed) (units : List Nat) : State := { s with dev := { d with mb := { d.mb with busy := true, response := [], directed := x, units } } }
    let arb := List.range 8
    let numbered (n a : Nat) : Prop := ({ s with dev := { d with devnum := n } } : State).place a = .local
    let away (a : Nat) : Bool := decide (¬ numbered d.devnum a ∧ ¬ numbered 0 a)
    let reset : State := { State.reset with
      turns := s.turns, fresh := s.fresh
      dev := { mem := d.mem.filter fun c => away c.1, poison := d.poison.filter away, flash := d.flash, floor := d.floor } }
    -- a signed region of the flash: header, body and signature
    let size (img : List Byte) : Nat := Config.headerLength (img.take 128) + 192
    let signed (img : List Byte) : List Byte := img.take (size img - 64)
    let version (img : List Byte) : Nat := (Config.headerVersion (img.take 128)).toNat
    let region (base len : Nat) : List Byte := d.flash.readBytes (base * 2 ^ 20) (min (len * 2 ^ 20) (size (d.flash.readBytes (base * 2 ^ 20) 128)))
    let img (n : Nat) : List Byte := region (96 * n) 96
    let defects := region 192 4
    let calib := region 196 4
    let authentic (img : List Byte) : Prop := size img ≤ img.length ∧ sha512 ((img.drop 128).take (size img - 192)) = Config.headerDigest (img.take 128) ∧
      edVerify Config.bootKey (signed img) ((img.drop (size img - 64)).take 64) = true ∧ d.floor ≤ version img
    let regions : Prop := authentic defects ∧ authentic calib
    let booted (slot err : Nat) (img : List Byte) (v : Device) : Device := { v with
      devstate := .ready, slot, booterr := err, cfgUp := true, booted := img, version := version img, floor := max d.floor (Config.headerMinver (img.take 128)).toNat, msix := v.msix ++ [0] }
    let usable (c : Nat) : Prop := (s.ctx c).state ≠ .free ∧ (s.ctx c).state ≠ .releasing
    -- commands: the states that take them and the parameter bytes they use
    let all : List DevState := [.boot, .ready, .recovery, .stopped, .failsafe]
    let len := s.param 12 4
    let commands : List (Nat × Instr × List DevState × List (Nat × Nat)) := [
      (0x01, .identRead, all, []), (0x05, .devReset, all, []), (0x02, .attest, [.ready, .recovery], [(0, 32)]), (0x03, .slotWrite, [.ready], [(0, 1), (8, 24)]), (0x04, .authRecovery, [.recovery], [(0, 8)]),
      (0x06, .powerSet, [.ready], [(0, 1)]), (0x07, .powerCap, [.ready], [(0, 4)]), (0x08, .tickstop, [.ready], [(0, 8)]), (0x09, .stopStatus, [.ready, .stopped, .failsafe], []),
      (0x10, .ctxDefine, [.ready], [(0, 1), (8, 17), (32, 9), (48, 4), (56, 15)]), (0x11, .ctxAdmit, [.ready], [(0, 1)]), (0x12, .ctxSave, [.ready], [(0, 1)]), (0x13, .ctxRestore, [.ready], [(0, 1)]),
      (0x14, .ctxRelease, [.ready], [(0, 1)]), (0x15, .ctxPrio, [.ready], [(0, 2)]), (0x16, .ctxQuery, [.ready], [(0, 1)]), (0x17, .ctxFail, [.ready], [(0, 1)]),
      (0x20, .queueMap, [.ready], [(0, 7), (8, 24)]), (0x21, .queueReset, [.ready], [(0, 2)]), (0x22, .queueUnmap, [.ready], [(0, 2)]), (0x23, .launchQuery, [.ready], [(0, 4), (8, 8)]),
      (0x30, .tlbInval, [.ready], [(0, 1), (16, 10), (32, 8)]), (0x31, .pageResume, [.ready], [(0, 1), (16, 10), (32, 8)]), (0x32, .pageFail, [.ready], [(0, 1), (16, 10), (32, 8)]),
      (0x40, .linkEnable, [.ready], [(0, 1)]), (0x41, .linkFence, [.ready], [(0, 1)]), (0x42, .linkUnfence, [.ready], [(0, 1)]), (0x43, .linkSetup, [.ready], [(0, 2), (8, 8)]),
      (0x50, .trapSetup, [.ready], [(0, 2), (4, 12)]), (0x51, .traceSetup, [.ready], [(0, 2), (8, 8)]), (0x52, .pcbpSet, [.ready], [(0, 12)]), (0x53, .pcsampleSetup, [.ready], [(0, 2)]),
      (0x58, .dbgList, [.ready], [(0, 1)]), (0x59, .dbgRead, [.ready], [(0, 6), (8, 8)]), (0x5A, .dbgWrite, [.ready], [(0, 6), (8, 8 + min 232 len)]), (0x5B, .dbgResume, [.ready], [(0, 5)])]
    (∀ op i states used, (op, i, states, used) ∈ commands →
      -- a host write of the opcode to MB_CMD performs the command
      (∀ v : BitVec 64, v.toNat % 2 ^ 16 = op → s.event (.registerWrite 0 v) = exec i { s with dev := { d with mb := { d.mb with cmd := op } } }) ∧
      (d.mb.busy = true → exec i s = .next { s with dev := { d with mb := { d.mb with result := 1 } } }) ∧
      (d.mb.busy = false → d.devstate ∉ states → exec i s = .next (ended 2 [] s)) ∧
      (d.mb.busy = false → d.devstate ∈ states → (∃ j, d.mb.params.getD j 0 ≠ 0 ∧ ∀ u ∈ used, j < u.1 ∨ u.1 + u.2 ≤ j) → exec i s = .next (ended 3 [] s))) ∧
    (∀ op : BitVec 16, op ≠ 0 → op.toNat ∉ (List.range' 1 9 ++ List.range' 0x10 8 ++ List.range' 0x20 4 ++ List.range' 0x30 3 ++ List.range' 0x40 4 ++ List.range' 0x50 4 ++ List.range' 0x58 4) →
      exec (.mbCmdUnlisted op) s = .next (if d.mb.busy = true then { s with dev := { d with mb := { d.mb with result := 1 } } } else ended 3 [] s)) ∧
    -- identity, slots, boot
    (let v (n : Nat) : List Byte := leBytes (version (img n)) 8
     s.Takes all [] → exec .identRead s = .next (ended 0 (leBytes Config.serial.toNat 16 ++ leBytes Config.lot.toNat 8 ++ leBytes d.version 8 ++ v 0 ++ v 1 ++ leBytes d.floor 8 ++
      leBytes (min Config.certificate.length 448) 4 ++ leBytes 0 4 ++ Config.certificate.take 448) s) ∧ exec .devReset s = .next reset) ∧
    exec .powerLoss s = .next reset ∧
    (s.Takes [.ready, .recovery] [(0, 32)] →
      let m := sha512 (signed d.booted) ++ sha512 (signed defects) ++ leBytes d.version 8 ++ leBytes (s.param 0 32) 32
      exec .attest s = .next (ended 0 (m ++ edSign Config.deviceSecret m) s)) ∧
    (s.Takes [.ready] [(0, 1), (8, 24)] →
      let slot := s.param 0 1
      let src := s.param 8 8
      let off := s.param 16 8
      let n := s.param 24 8
      let takes : Prop := slot ≤ 1 ∧ off + n ≤ 96 * 2 ^ 20 ∧ ((src < 2 ^ 56 ∧ s.place src = .host) ∨ (src = 0 ∧ d.slot = 2 ∧ n ≤ 2 ^ 20)) ∧ (slot = d.slot → authentic (img (1 - slot)))
      let first := 96 * 2 ^ 20 * slot + off
      (¬ takes → exec .slotWrite s = .next (ended 3 [] s)) ∧
      (takes → ∃ t, exec .slotWrite s = .next t ∧ t = ended 0 [] { s with dev := { d with flash := t.dev.flash } } ∧
        (s.Canonical → ∀ a, t.dev.flash.read a = if first ≤ a ∧ a < first + n then (if src = 0 then d.window.read (a - first) else d.mem.read (src + (a - first))) else d.flash.read a))) ∧
    (d.devstate = .boot →
      let first := if version (img 0) < version (img 1) then 1 else 0
      (regions → authentic (img first) → exec .resetRelease s = .next { s with dev := booted first 0 (img first) d }) ∧
      (regions → ¬ authentic (img first) → authentic (img (1 - first)) → exec .resetRelease s = .next { s with dev := booted (1 - first) (first + 1) (img (1 - first)) d }) ∧
      (regions → ¬ authentic (img 0) → ¬ authentic (img 1) → exec .resetRelease s = .next { s with dev := { d with devstate := .recovery, booterr := 3 } }) ∧
      (¬ regions → ∃ e, exec .resetRelease s = .next { s with dev := { d with devstate := .recovery, booterr := e } } ∧ (e.testBit 2 = true ↔ ¬ authentic defects) ∧ (e.testBit 3 = true ↔ ¬ authentic calib))) ∧
    (s.Takes [.recovery] [(0, 8)] →
      let n := s.param 0 8
      let img := d.window.readBytes 0 n
      (2 ^ 20 < n → exec .authRecovery s = .next (ended 3 [] s)) ∧
      (n ≤ 2 ^ 20 → ¬ authentic img → exec .authRecovery s = .next (ended 5 [] s)) ∧
      (n ≤ 2 ^ 20 → authentic img → regions → exec .authRecovery s = .next (ended 0 [] { s with dev := booted 2 d.booterr img d })) ∧
      (n ≤ 2 ^ 20 → authentic img → ¬ regions → ∃ e, exec .authRecovery s = .next (ended 0 [] { s with dev := { d with devstate := .recovery, booterr := e } }))) ∧
    -- power and the stop
    (s.Takes [.ready] [(0, 1)] → exec .powerSet s = .next (if s.param 0 1 ≤ 3 then ended 0 [] { s with dev := { d with power := { d.power with step := s.param 0 1 } } } else ended 3 [] s)) ∧
    (s.Takes [.ready] [(0, 4)] → exec .powerCap s = .next (if 1000 ≤ s.param 0 4 ∧ s.param 0 4 ≤ 4800 then ended 0 [] { s with dev := { d with power := { d.power with cap := s.param 0 4 } } } else ended 3 [] s)) ∧
    (s.Takes [.ready] [(0, 8)] → exec .tickstop s = .next (if d.tick + 1250 ≤ s.param 0 8 then started (.tickstop (s.param 0 8)) (List.range 10) else ended 3 [] s)) ∧
    (s.Takes [.ready, .stopped, .failsafe] [] → exec .stopStatus s = .next (ended 0 (leBytes (match d.stopped, d.stopAt with | some t, _ => t | none, some t => t | none, none => 0) 8) s)) ∧
    -- settings of a context, pages, comparators: to their units
    (let c := s.param 0 1
     let k := s.param 1 1
     (s.Takes [.ready] [(0, 2), (4, 12)] → c ≤ 63 →
      let fits : Prop := k ≤ 1 ∧ s.param 4 4 % 2 = 0
      (¬ fits → exec .trapSetup s = .next (ended 3 [] s)) ∧ (fits → ¬ usable c → exec .trapSetup s = .next (ended 2 [] s)) ∧
      (fits → usable c → exec .trapSetup s = .next (started (.trapSetup c (decide (k = 1)) (BitVec.ofNat 32 (s.param 4 4)) (BitVec.ofNat 32 (s.param 8 4)) (BitVec.ofNat 32 (s.param 12 4))) arb))) ∧
     (s.Takes [.ready] [(0, 2), (8, 8)] → c ≤ 63 →
      let base := s.param 8 8
      let fits : Prop := base = 0 ∨ (8 ≤ k ∧ k ≤ 20 ∧ base % 4096 = 0 ∧ base < 2 ^ 56)
      (¬ fits → exec .traceSetup s = .next (ended 3 [] s)) ∧ (fits → ¬ usable c → exec .traceSetup s = .next (ended 2 [] s)) ∧
      (fits → usable c → exec .traceSetup s = .next (started (.traceSetup c k (BitVec.ofNat 64 base)) arb))) ∧
     (s.Takes [.ready] [(0, 2)] → c ≤ 63 →
      let fits : Prop := k = 0 ∨ (10 ≤ k ∧ k ≤ 24)
      (¬ fits → exec .pcsampleSetup s = .next (ended 3 [] s)) ∧ (fits → ¬ usable c → exec .pcsampleSetup s = .next (ended 2 [] s)) ∧
      (fits → usable c → exec .pcsampleSetup s = .next (started (.sampling c k) arb))) ∧
     (s.Takes [.ready] [(0, 1), (16, 10), (32, 8)] →
      let va := s.param 16 10
      let n := s.param 32 8
      let fits : Prop := c ≤ 63 ∧ va % 2 ^ 16 = 0 ∧ n % 2 ^ 16 = 0
      (∀ i ∈ [Instr.tlbInval, .pageResume, .pageFail], (¬ fits → exec i s = .next (ended 3 [] s)) ∧ (fits → ¬ usable c → exec i s = .next (ended 2 [] s))) ∧
      (fits → usable c → exec .tlbInval s = .next (started (.tlbInval c (BitVec.ofNat 80 va) n) (List.range 10)) ∧ exec .pageResume s = .next (started (.pageResume c (BitVec.ofNat 80 va) n) arb) ∧
        exec .pageFail s = .next (started (.pageFail c (BitVec.ofNat 80 va) n) arb))) ∧
     (s.Takes [.ready] [(0, 12)] →
      let core := s.param 0 2
      let x : Comparator := { index := s.param 2 1, ctx := s.param 3 1, offset := BitVec.ofNat 32 (s.param 8 4), qfilter := s.param 4 2, gfilter := BitVec.ofNat 6 (s.param 6 1), action := s.param 7 1 }
      let fits : Prop := (core ≤ 831 ∨ core = 0xFFFF) ∧ x.index ≤ 7 ∧ x.ctx ≤ 63 ∧ x.qfilter ≤ 0xFFF ∧ s.param 6 1 ≤ 63 ∧ x.action ≤ 3
      (¬ fits → exec .pcbpSet s = .next (ended 3 [] s)) ∧
      (fits → exec .pcbpSet s = .next (if core = 0xFFFF then started (.comparator x none) arb else started (.comparator x (some core)) [core / 104])))) ∧
    -- an Arbour that has acknowledged uses the new settings; the first finds the header of a new trace area zero
    (∀ c k base, ∀ unit < 8, d.mb.directed = .traceSetup c k base → d.mb.units = arb → ∃ t, exec (.directedCommandAck unit) s = .next t ∧
      t = { s with dev := { d with ctxs := t.dev.ctxs, mb := { d.mb with units := arb.filter fun v => v ≠ unit }, mem := if base = 0 then d.mem else d.mem.writeBytes base.toNat (leBytes 0 64), poison := t.dev.poison } } ∧
      t.ctx c = { s.ctx c with traceNew := 0 } ∧ t.ctxOn unit c = { s.ctx c with traceBase := base, traceLog2 := k, traceNext := 0, traceNew := 0 } ∧
      ∀ a < 8, a ≠ unit → t.ctxOn a c = { s.ctx c with traceNew := 0 }) ∧
    (∀ c k unit, d.mb.directed = .sampling c k → unit ∈ d.mb.units → (∃ v ∈ d.mb.units, v ≠ unit) → ∃ t, exec (.directedCommandAck unit) s = .next t ∧ (t.ctxOn unit c).sampleK = k ∧
      (∀ x ∈ (t.ctx c).samplePos, x.1 / 104 ≠ unit) ∧ ∀ a ∈ d.mb.units, a ≠ unit → (t.ctxOn a c).sampleK = (s.ctx c).sampleK) ∧
    -- the last acknowledgement
    (∀ unit, d.mb.units = [unit] →
      let done (i : State) : Prop := exec (.directedCommandAck unit) s = .next i
      let sets (k : Ctx) (u : State) : Prop := u.ctx k.num = k ∧ ∀ m, m ≠ k.num → u.ctx m = s.ctx m
      (∀ c trace hoff hm dm, d.mb.directed = .trapSetup c trace hoff hm dm → ∃ u, sets { s.ctx c with trace, hoff, hmask := hm, dmask := dm } u ∧
        done (ended 0 [] u) ∧ u = { s with dev := { d with ctxs := u.dev.ctxs } }) ∧
      (∀ c k base, d.mb.directed = .traceSetup c k base → ∃ u, sets { s.ctx c with traceBase := base, traceLog2 := k, traceNext := (s.ctx c).traceNew } u ∧
        done (ended 0 [] u) ∧ u = { s with dev := { d with ctxs := u.dev.ctxs } }) ∧
      (∀ c k, d.mb.directed = .sampling c k → ∃ u, sets { s.ctx c with sampleK := k, samplePos := (s.ctx c).samplePos.filter fun x => x.1 / 104 ≠ unit } u ∧ done (ended 0 [] u) ∧ u = { s with dev := { d with ctxs := u.dev.ctxs } }) ∧
      (∀ n, d.mb.directed = .tickstop n → done (ended 0 [] { s with dev := { d with stopAt := some n } })) ∧
      (∀ x core, d.mb.directed = .comparator x (some core) → ∃ u, done (ended 0 d.mb.response u) ∧ u = { s with core := u.core, cores := u.cores } ∧
        (u.coreOf core).cmps = x :: (s.coreOf core).cmps.filter (fun y => y.index != x.index) ∧ ∀ k, k ≠ core → u.coreOf k = s.coreOf k) ∧
      (∀ x, d.mb.directed = .comparator x none → unit < 8 → ∃ u, done (ended 0 d.mb.response u) ∧
        ∀ k, (u.coreOf k).cmps = if k / 104 = unit then x :: (s.coreOf k).cmps.filter (fun y => y.index != x.index) else (s.coreOf k).cmps) ∧
      (∀ c p stamp, d.mb.directed = .prio c p stamp →
        let up : PrioUpdate := ⟨p, stamp, true⟩
        let held := (s.coreOf unit).prio (s.ctx c)
        ∃ t, done t ∧ (t.coreOf unit).prio (s.ctx c) = (if up.beats held then up else held) ∧ t.dev = (ended 0 d.mb.response s).dev) ∧
      (∀ c va n, d.mb.directed = .tlbInval c va n → ∃ t, done t ∧ t.dev.mb.busy = d.mb.busy ∧ t.dev.mb.units = [] ∧ t.dev.mb.mark = s.nextOp ∧
        -- no entry of the unit meets the range; what an Arbour drops, Lodge A has not from it
        let outside (e : TlbEntry) : Prop := e.astag = (s.ctx c).astag → n ≠ 0 ∧ (va.toNat + n ≤ e.key * 2 ^ levelShift e.level ∨ (e.key + 1) * 2 ^ levelShift e.level ≤ va.toNat)
        (∀ e ∈ (if unit = 9 then t.dev.lodgeTlbB else t.dev.lodgeTlb), outside e) ∧ (∀ e ∈ t.dev.l2tlb ++ t.dev.walkCache, e.1 = unit → outside e.2) ∧
        ∀ k ∈ t.allCores, k.num / 104 = unit → ∀ e ∈ k.itlb ++ k.dtlb, outside e) ∧
      (∀ c va n, (d.mb.directed = .pageResume c va n ∨ d.mb.directed = .pageFail c va n) → ∃ t, done t ∧ t.dev.mb.busy = false ∧ t.dev.mb.result = 0 ∧
        (d.mb.directed = .pageResume c va n → d.salt = [] → ∀ f ∈ t.dev.slots, f.arbour = unit → f.ctx = c → n ≠ 0 ∧ (f.page.toNat < va.toNat / 2 ^ 16 ∨ (va.toNat + n) / 2 ^ 16 ≤ f.page.toNat)))) ∧
    (∀ c va n, d.mb.directed = .tlbInval c va n → d.mb.units = [] →
      (∀ g ∈ s.allGroups, (s.teamOf g.team).ctx = c → ∀ o ∈ g.ops, o.done = false → o.id < d.mb.mark → o.access = false) → exec .tlbInvalDone s = .next (ended 0x11 [] s)) ∧
    -- registers, telemetry, heat
    (∀ v : BitVec 64,
      let logged (u : State) : State := { u with dev := { u.dev with mb := { u.dev.mb with rsvw := true } } }
      exec (.mbStatusWrite v) s = .next { s with dev := { d with mb := { d.mb with rsvw := (d.mb.rsvw && !v.getLsbD 30) || decide (fieldOf v.toNat 16 14 ≠ 0) } } } ∧
      (let u : State := { s with dev := { d with power := { d.power with hot := d.power.hot && !v.getLsbD 1, overcap := d.power.overcap && !v.getLsbD 0 } } }
       exec (.tflagsWrite v) s = .next (if d.devstate = .recovery then s else if v.toNat < 4 then u else logged u)) ∧
      (∀ off < 2 ^ 19, exec (.bar2Write off v) s = .next (if v = 0 ∨ d.devstate = .recovery then s else logged s)) ∧
      (∀ off, off % 8 = 0 → off ≠ 0 →
        (off < 0x100 → exec (.registerWrite off v) s = .next { s with dev := { d with mb := { d.mb with params := splice d.mb.params (off - 8) (leBytes v.toNat 8) } } }) ∧
        (2 ^ 20 ≤ off → off < 2 ^ 21 → exec (.registerWrite off v) s = .next (if d.devstate = .recovery then { s with dev := { d with window := d.window.writeBytes (off - 2 ^ 20) (leBytes v.toNat 8) } } else s)) ∧
        (∀ p < 36, off = 0x8000 + 8 * p → exec (.registerWrite off v) s = .next (if v &&& 0x001F00000000F8F8 = 0 ∨ d.devstate = .recovery then s else logged s)) ∧
        ((0x100 < off ∧ off < 0x200 ∨ 0x400 ≤ off ∧ off < 0x8000) → exec (.registerWrite off v) s = .next (if v = 0 ∨ (d.devstate = .recovery ∧ 0x400 ≤ off) then s else logged s)) ∧
        ((0x200 ≤ off ∧ off < 0x400 ∨ 0x9000 ≤ off ∧ off < 0x90B0 ∧ off ≠ 0x9018) → exec (.registerWrite off v) s = .next s))) ∧
    (∀ mw temps,
      let high : Prop := 1000 * d.power.cap < mw
      ∃ t, exec (.telemetryUpdate mw temps) s = .next t ∧ t = { s with dev := { d with power := t.dev.power, msix := t.dev.msix } } ∧ t.dev.power.mw = mw ∧ t.dev.power.temps = (List.range 16).map (fun i => temps.getD i 0) ∧
        t.dev.power.step = d.power.step ∧ t.dev.power.cap = d.power.cap ∧ t.dev.power.seenStep = d.power.step ∧ t.dev.power.seenCap = d.power.cap ∧
        t.dev.power.corrected = (s.allCores.map Core.corrected).sum ∧ t.dev.power.withheld = (s.allCores.map fun k => (k.banks.filter fun b => b.state = .withheld).length).sum ∧ (t.dev.power.hot = true ↔ d.power.hot = true ∨ ∃ x ∈ temps, 100000 ≤ x) ∧
        (t.dev.power.overcap = true ↔ d.power.overcap = true ∨ high) ∧ (high → t.dev.msix = d.msix ++ [1]) ∧ (¬ high → t.dev.msix = d.msix)) ∧
    (d.stopped = none → ∃ t, exec .thermalFailsafe s = .next t ∧
      t = { s with dev := { d with stopped := some d.tick, devstate := .failsafe, stopAt := none, msix := t.dev.msix, mb := t.dev.mb, power := { d.power with hot := true } } } ∧
      (d.mb.busy = false → t.dev.mb = d.mb ∧ t.dev.msix = d.msix) ∧ (d.mb.busy = true → t.dev.mb.busy = false ∧ t.dev.mb.result = 6))

/-! ## Ports, other devices and the host (15_link.md, 04_queue.md) -/

/-- (R229 to R232) The LINK commands and the training events move a port among its states; a port that leaves the usable set has its outstanding operations fail with
ACCESS_FAULT. (R228) A flit that fails its CRC is replayed, eight in succession take the port DOWN. (R230) LINK_SETUP reads the routing table. (R73, R162) An operation from another device is performed
where its generation is the one given, else dropped; notices and their acknowledgements set the generations. (R234, R236) The host reads, writes and snoops
where it has negotiated CXL. (R5, R44, R55, R228, R235) What it reads of a port's status register, the window, a context entry, a queue descriptor; in RECOVERY it reads no
BAR2 (R396). In whose fault log a hole is reported, and with what CODE, is a free value (notes/assumptions/28.md). LINK_SETUP moves the module's bytes to its new number
(notes/assumptions/49.md), the count of successive CRC failures begins again as notes/assumptions/50.md says, a queue's new generation is noted per port
(notes/assumptions/51.md), no CXL means no access to host memory (notes/assumptions/68.md), and an offset where nothing stands reads 0 (notes/assumptions/70.md).
Completes: linkEnable, linkFence, linkUnfence, linkSetup, linkTrainingStart, linkTrained, linkTrainingTimeout, linkLaneLost, linkDown, flitCrcError, remoteOpArrive,
generationNotice, generationNoticeAck, cxlMemRead, cxlMemWrite, cxlSnoop. -/
def Obligations.LinkEvents : Prop :=
  ∀ s : State,
    let d := s.dev
    let ended (result : Nat) (resp : List Byte) (u : State) : State := { u with dev := { u.dev with
      msix := u.dev.msix ++ [0], mb := { u.dev.mb with busy := false, result, response := resp, directed := .none, units := [] } } }
    -- port k.num is now k, and nothing but the ports has changed
    let sets (k : Port) (t u : State) : Prop := u.port k.num = k ∧ (∀ m, m ≠ k.num → u.port m = t.port m) ∧ u = { t with dev := { t.dev with ports := u.dev.ports } }
    let quiet : Prop := ∀ k ∈ s.allCores, ∀ g ∈ k.groups, ∀ o ∈ g.ops, o.uses = []
    -- what is outstanding towards a device whose usable ports have changed holds back new accesses there (R230)
    let marked (t : State) (o : Op) : Op := { o with uses := o.uses.map fun x => { x with stale := x.stale || decide (s.routePorts x.dev ≠ t.routePorts x.dev) } }
    let usable (k : Port) : Prop := k.state = .up ∨ k.state = .degraded
    let trained (k : Port) : Port := { k with state := .training, lanes := 0, fails := 0, retrains := k.retrains + 1 }
    (s.Takes [.ready] [(0, 1)] →
      let p := s.param 0 1
      let k := s.port p
      (35 < p → ∀ i ∈ [Instr.linkEnable, .linkFence, .linkUnfence], exec i s = .next (ended 3 [] s)) ∧
      (p ≤ 35 →
        (k.state ≠ .down → exec .linkEnable s = .next (ended 2 [] s)) ∧ (k.state ≠ .fenced → exec .linkUnfence s = .next (ended 2 [] s)) ∧
        (k.state = .down → ∃ u, sets (trained k) s u ∧ exec .linkEnable s = .next (ended 0 [] u)) ∧
        (k.state = .fenced → ∃ u, sets { k with state := .down } s u ∧ exec .linkUnfence s = .next (ended 0 [] u)) ∧
        (∃ t, exec .linkFence s = .next t ∧ t.port p = { k with state := .fenced, lanes := 0, fails := 0 } ∧ t.dev.mb.busy = false ∧ t.dev.mb.result = 0 ∧
          ((¬ usable k ∨ quiet) → ∃ u, sets { k with state := .fenced, lanes := 0, fails := 0 } s u ∧ t = ended 0 [] u)))) ∧
    (s.Takes [.ready] [(0, 2), (8, 8)] →
      let n := s.param 0 2
      let a := s.param 8 8
      let fits : Prop := n ≤ 1151 ∧ a % 64 = 0 ∧ a + 9216 ≤ 2 ^ 56 ∧ ∀ x ∈ [a, a + 9215], s.place x = .local ∨ s.place x = .host
      let down : Prop := ∀ p < 36, (s.port p).state = .down ∨ (s.port p).state = .fenced
      (¬ fits → exec .linkSetup s = .next (ended 3 [] s)) ∧ (fits → ¬ down → exec .linkSetup s = .next (ended 2 [] s)) ∧
      (fits → down → ∃ t, exec .linkSetup s = .next t ∧ t.dev.devnum = n ∧ t.dev.mb.busy = false ∧ t.dev.mb.result = 0 ∧
        (∀ m < 1152, t.dev.routes.getD m 0 = BitVec.ofNat 64 (leNat (d.mem.readBytes (a + 8 * m) 8) % 2 ^ 36)) ∧
        (n = d.devnum → t.dev.mem = d.mem) ∧ (s.Canonical → ∀ o < 2 ^ 42, t.dev.mem.read (n * 2 ^ 42 + o) = d.mem.read (d.devnum * 2 ^ 42 + o)))) ∧
    (∀ p ≤ 35,
      let k := s.port p
      (k.state = .down → ∃ u, sets (trained k) s u ∧ exec (.linkTrainingStart p) s = .next u) ∧
      (∀ lanes peer, k.state = .training → 2 ≤ lanes → lanes ≤ 4 → peer ≤ 1151 → ∃ t, exec (.linkTrained p lanes peer) s = .next t ∧
        let y : Port := { k with state := if lanes = 4 then .up else .degraded, lanes, peer, resets := [], theirs := [], fails := 0 }
        (d.salt = [] → t.port p = y ∧ (∀ m, m ≠ p → t.port m = s.port m) ∧ t.grp.ops = s.grp.ops.map (marked t) ∧
          (k.theirs = [] → t.dev.gensIn = d.gensIn) ∧
          (∀ q g, k.theirs = [(q, g)] → (⟨peer, q, g⟩ : Generation) ∈ t.dev.gensIn ∧ ∀ x ∈ t.dev.gensIn, x.dev = peer → x.queue = q → x.gen = g) ∧
          (k.resets = [] → t.dev.gensAck = d.gensAck ∧ t.dev.gensSent = d.gensSent) ∧
          ∀ q g, k.resets = [(q, g)] → (⟨peer, q, g⟩ : Generation) ∈ t.dev.gensAck ∧ ∀ x ∈ t.dev.gensAck, x.dev = peer → x.queue = q → x.gen = g)) ∧
      (k.state = .training → ∃ u, sets { k with state := .down, lanes := 0 } s u ∧ exec (.linkTrainingTimeout p) s = .next u) ∧
      (∀ lanes, k.state = .up → 2 ≤ lanes → lanes ≤ 3 → ∃ u, sets { k with state := .degraded, lanes } s u ∧ exec (.linkLaneLost p lanes) s = .next u) ∧
      (usable k →
        let lost : Port := { k with state := .down, lanes := 0, fails := 0 }
        (k.fails < 7 → ∃ u, sets { k with fails := k.fails + 1, replays := min 65535 (k.replays + 1) } s u ∧ exec (.flitCrcError p) s = .next u) ∧
        ∀ i, (i = .linkDown p ∨ (i = .flitCrcError p ∧ 7 ≤ k.fails)) → ∃ t, exec i s = .next t ∧ t.port p = lost ∧
          (quiet → sets lost s t) ∧
          -- the record of an operation that fails
          (∀ o x, s.allGroups.filter (fun g => g.ops.any fun o => !o.done && o.uses.any fun x => x.port = p) = [{ s.grp with sibs := s.ent :: s.grp.sibs }] → s.grp.ops = [o] → o.uses = [x] →
            x.port = p → x.lane < 64 → let m := s.teamOf s.grp.team
            t.dev.mem = (s.record m.ctx { kind := 6, code := 1, addr := x.addr, detail := BitVec.ofNat 32 (0x600 + p), lanes := (1 : Mask) <<< x.lane, launch := m.launch, queue := m.queue
                                          core := s.grp.loc.core, part := s.grp.loc.part }).dev.mem) ∧
          -- the operations of the group in front
          (t.grp.ops = s.grp.ops.map (fun o => if o.done = false ∧ (∃ x ∈ o.uses, x.port = p) then { o with
              fills := o.fills.map fun f => match f.dest with
                | .q i _ => if o.uses.any fun x => x.port = p && x.lane = i then { f with val := 0 } else f
                | .v i _ => if o.uses.any fun x => x.port = p && x.lane = i then { f with val := 0 } else f
                | _ => { f with val := 0 }
              todo := o.todo.filter fun a => !(o.uses.any fun x => x.port = p && x.lane = a.lane)
              uses := (marked t o).uses.filter fun x => x.port != p } else marked t o) ∧
            ∀ o x, s.grp.ops = [o] → o.done = false → o.ent = s.ent.num → o.uses = [x] → x.port = p → x.lane < 64 →
              t.ent.deferred = s.ent.deferred ++ [{ code := .accessFault, fault := x.addr.setWidth 32, addr := x.addr, lanes := (1 : Mask) <<< x.lane, data := BitVec.ofNat 32 (0x600 + p) }]))) ∧
    -- operations and notices from other devices
    (∀ (src q : Nat) (gen : BitVec 8) (addr : BitVec 56) (op : RemoteOp), s.place addr.toNat = .local →
      let a := addr.toNat
      let given : Prop := (⟨src, q, gen⟩ : Generation) ∈ d.gensIn
      let stored (bs : List Byte) (t : State) : Prop := t = { s with dev := { d with mem := d.mem.writeBytes a bs, poison := t.dev.poison } }
      let old (n : Nat) : BitVec 64 := BitVec.ofNat 64 (leNat (d.mem.readBytes a n))
      let run (t : State) : Prop := exec (.remoteOpArrive src q gen addr op) s = .next t
      (¬ given → run s) ∧
      (∀ n, op = .load n → run s) ∧
      (∀ bs, given → op = .store bs → ∃ t, run t ∧ stored bs t) ∧
      (given → s.poisonedAt a 8 = false →
        (∀ o wide v, op = .atomic o wide v → ∃ t, run t ∧ let n := if wide then 8 else 4; stored (leBytes (atomStep n o.toNat v (old n)).toNat n) t) ∧
        (∀ wide e v, op = .cas wide e v → ∃ t, run t ∧ let n := if wide then 8 else 4; stored (leBytes (casStep n e v (old n)).toNat n) t) ∧
        (∀ add v, op = .signal add v → ∃ t, run t ∧ stored (leBytes (if add then old 8 + v else v).toNat 8) t))) ∧
    (∀ (dev q : Nat) (gen : BitVec 8),
      let g : Generation := ⟨dev, q, gen⟩
      let heldOnly (l : List Generation) (before : List Generation) : Prop := ∀ x, x ∈ l ↔ x = g ∨ (x ∈ before ∧ ¬ (x.dev = dev ∧ x.queue = q))
      (∃ t, exec (.generationNotice dev q gen) s = .next t ∧ t = { s with dev := { d with gensIn := t.dev.gensIn } } ∧ heldOnly t.dev.gensIn d.gensIn) ∧
      (g ∈ d.gensSent → ∃ t, exec (.generationNoticeAck dev q gen) s = .next t ∧ (d.salt = [] →
        t = { s with dev := { d with gensAck := t.dev.gensAck, gensSent := t.dev.gensSent } } ∧ heldOnly t.dev.gensAck d.gensAck ∧ g ∉ t.dev.gensSent))) ∧
    -- the host
    (∀ a : BitVec 56, exec (.cxlSnoop a) s = if d.cxl = true then .next s else .refused .notDue) ∧
    (d.devstate ≠ .recovery →
      (∀ p < 36, ∃ w, s.bar0Read (0x8000 + 8 * p) = some w ∧
        let k := s.port p
        let f (lo n : Nat) : Nat := fieldOf w.toNat lo n
        f 0 8 = (match k.state with | .down => 0 | .training => 1 | .up => 2 | .degraded => 3 | .fenced => 4) ∧ f 8 8 = k.lanes % 8 ∧ f 16 16 = k.replays % 2 ^ 16 ∧ f 32 21 = k.retrains.toNat ∧
          f 53 11 = k.peer % 2 ^ 11) ∧
      (∀ off, 2 ^ 20 ≤ off → off < 2 ^ 21 → s.bar0Read off = some 0) ∧
      (∀ n < 64, ∃ w, s.bar2Read (64 * n) = some w ∧
        let k := s.ctx n
        let f (lo l : Nat) : Nat := fieldOf w.toNat lo l
        f 0 8 = (match k.state with | .free => 0 | .defined => 1 | .resident => 2 | .saving => 3 | .saved => 4 | .restoring => 5 | .error => 6 | .releasing => 7) ∧ f 8 4 = k.rslot % 4 ∧
          f 12 4 = k.prio % 16 ∧ f 16 16 = k.astag % 2 ^ 16 ∧ f 32 32 = k.gen.toNat ∧ f 64 64 = k.root.toNat ∧ f 128 64 = k.flbase.toNat ∧ f 256 64 = k.ovbase.toNat ∧ f 384 64 = k.savebase.toNat) ∧
      ∀ n < 4096, ∃ w, s.bar2Read (0x40000 + 64 * n) = some w ∧
        let k := s.queue n
        let f (lo l : Nat) : Nat := fieldOf w.toNat lo l
        f 0 8 = (match k.state with | .unmapped => 0 | .idle => 1 | .active => 2 | .stalled => 3 | .error => 4 | .resetting => 5) ∧ f 64 16 = k.ctx % 64 ∧ f 88 8 = k.qgen.toNat ∧
          f 96 32 = k.err % 256 ∧ f 192 64 = k.ridx % 2 ^ 64 ∧ f 256 64 = k.ring.toNat ∧ f 320 64 = k.widxAddr.toNat ∧ f 384 128 = k.ridxAddr.toNat) ∧
    (d.devstate = .recovery → (∀ off, s.bar2Read off = none) ∧ ∀ off, 2 ^ 20 ≤ off → off < 2 ^ 21 → s.bar0Read off = some (BitVec.ofNat 64 (leNat (d.window.readBytes (off - 2 ^ 20) 8)))) ∧
    (d.devstate = .ready → d.cxl = true →
      let mapped (o : Nat) : Bool := (decide (o < 2 ^ 39) && decide (o % 2 ^ 36 < 48 * 2 ^ 30)) || (decide (2 ^ 40 ≤ o) && decide (o < 2 ^ 40 + 1536 * 2 ^ 30))
      (∀ off n, off + n ≤ 2 ^ 42 → (∀ i < n, mapped (off + i) = true) →
        let a := d.devnum * 2 ^ 42 + off
        (s.poisonedAt a n = false → exec (.cxlMemRead off n) s = .next { s with dev := { d with cxlData := d.mem.readBytes a n, cxlPoison := false } }) ∧
        (s.poisonedAt a n = true → ∃ x, exec (.cxlMemRead off n) s = .next { s with fresh := s.fresh + 1, dev := { d with cxlData := x, cxlPoison := true } })) ∧
      (∀ off n i, off + n ≤ 2 ^ 42 → i < n → mapped (off + i) = false → ∃ t x, exec (.cxlMemRead off n) s = .next t ∧ t.core = s.core ∧
        let read (k : Nat) : State := { s with fresh := s.fresh + k, dev := { d with cxlData := x, cxlPoison := true } }
        ((∀ c < 64, (s.ctx c).state = .free ∨ (s.ctx c).state = .releasing) → t = read 2) ∧
        ∀ c < 64, (s.ctx c).state ≠ .free → (s.ctx c).state ≠ .releasing → (∀ m < 64, m ≠ c → (s.ctx m).state = .free ∨ (s.ctx m).state = .releasing) →
          ∃ code, t = (read 3).record c { kind := 5, code }) ∧
      (∀ off bs, off + bs.length ≤ 2 ^ 42 → ∃ t, exec (.cxlMemWrite off bs) s = .next t ∧
        ((∀ i < bs.length, mapped (off + i) = true) → t = { s with dev := { d with mem := t.dev.mem, poison := t.dev.poison } }) ∧
        (s.Canonical → (∀ c < 64, (s.ctx c).state = .free ∨ (s.ctx c).state = .releasing) ∨ (∀ i < bs.length, mapped (off + i) = true) →
          ∀ x, t.dev.mem.read x = if d.devnum * 2 ^ 42 + off ≤ x ∧ x < d.devnum * 2 ^ 42 + off + bs.length ∧ mapped (x - d.devnum * 2 ^ 42) = true then
            bs.getD (x - (d.devnum * 2 ^ 42 + off)) 0 else d.mem.read x)))
end

