-- ==== Sys2Proof/Laws/Exec.lean ====
section
/-! SUPPORT. What exec runs for each constructor. -/
namespace Sys2Proof.Machine
open Sys2Proof

@[simp] theorem exec_iadd v0 v1 v2 s : exec (.iadd v0 v1 v2) s = execIadd v0 v1 v2 s := rfl
@[simp] theorem exec_isub v0 v1 v2 s : exec (.isub v0 v1 v2) s = execIsub v0 v1 v2 s := rfl
@[simp] theorem exec_imul v0 v1 v2 s : exec (.imul v0 v1 v2) s = execImul v0 v1 v2 s := rfl
@[simp] theorem exec_imulh v0 v1 v2 s : exec (.imulh v0 v1 v2) s = execImulh v0 v1 v2 s := rfl
@[simp] theorem exec_imulhn v0 v1 v2 s : exec (.imulhn v0 v1 v2) s = execImulhn v0 v1 v2 s := rfl
@[simp] theorem exec_idiv v0 v1 v2 s : exec (.idiv v0 v1 v2) s = execIdiv v0 v1 v2 s := rfl
@[simp] theorem exec_idivn v0 v1 v2 s : exec (.idivn v0 v1 v2) s = execIdivn v0 v1 v2 s := rfl
@[simp] theorem exec_irem v0 v1 v2 s : exec (.irem v0 v1 v2) s = execIrem v0 v1 v2 s := rfl
@[simp] theorem exec_iremn v0 v1 v2 s : exec (.iremn v0 v1 v2) s = execIremn v0 v1 v2 s := rfl
@[simp] theorem exec_imin v0 v1 v2 s : exec (.imin v0 v1 v2) s = execImin v0 v1 v2 s := rfl
@[simp] theorem exec_iminn v0 v1 v2 s : exec (.iminn v0 v1 v2) s = execIminn v0 v1 v2 s := rfl
@[simp] theorem exec_imax v0 v1 v2 s : exec (.imax v0 v1 v2) s = execImax v0 v1 v2 s := rfl
@[simp] theorem exec_imaxn v0 v1 v2 s : exec (.imaxn v0 v1 v2) s = execImaxn v0 v1 v2 s := rfl
@[simp] theorem exec_and v0 v1 v2 s : exec (.and v0 v1 v2) s = execAnd v0 v1 v2 s := rfl
@[simp] theorem exec_or v0 v1 v2 s : exec (.or v0 v1 v2) s = execOr v0 v1 v2 s := rfl
@[simp] theorem exec_xor v0 v1 v2 s : exec (.xor v0 v1 v2) s = execXor v0 v1 v2 s := rfl
@[simp] theorem exec_andn v0 v1 v2 s : exec (.andn v0 v1 v2) s = execAndn v0 v1 v2 s := rfl
@[simp] theorem exec_shl v0 v1 v2 s : exec (.shl v0 v1 v2) s = execShl v0 v1 v2 s := rfl
@[simp] theorem exec_shr v0 v1 v2 s : exec (.shr v0 v1 v2) s = execShr v0 v1 v2 s := rfl
@[simp] theorem exec_shra v0 v1 v2 s : exec (.shra v0 v1 v2) s = execShra v0 v1 v2 s := rfl
@[simp] theorem exec_rotl v0 v1 v2 s : exec (.rotl v0 v1 v2) s = execRotl v0 v1 v2 s := rfl
@[simp] theorem exec_bfx v0 v1 v2 s : exec (.bfx v0 v1 v2) s = execBfx v0 v1 v2 s := rfl
@[simp] theorem exec_bilv2 v0 v1 v2 s : exec (.bilv2 v0 v1 v2) s = execBilv2 v0 v1 v2 s := rfl
@[simp] theorem exec_bdil2 v0 v1 v2 s : exec (.bdil2 v0 v1 v2) s = execBdil2 v0 v1 v2 s := rfl
@[simp] theorem exec_clz v0 v1 v2 s : exec (.clz v0 v1 v2) s = execClz v0 v1 v2 s := rfl
@[simp] theorem exec_popc v0 v1 v2 s : exec (.popc v0 v1 v2) s = execPopc v0 v1 v2 s := rfl
@[simp] theorem exec_brev v0 v1 v2 s : exec (.brev v0 v1 v2) s = execBrev v0 v1 v2 s := rfl
@[simp] theorem exec_iabs v0 v1 v2 s : exec (.iabs v0 v1 v2) s = execIabs v0 v1 v2 s := rfl
@[simp] theorem exec_sext v0 v1 v2 s : exec (.sext v0 v1 v2) s = execSext v0 v1 v2 s := rfl
@[simp] theorem exec_iaddd v0 v1 v2 s : exec (.iaddd v0 v1 v2) s = execIaddd v0 v1 v2 s := rfl
@[simp] theorem exec_isubd v0 v1 v2 s : exec (.isubd v0 v1 v2) s = execIsubd v0 v1 v2 s := rfl
@[simp] theorem exec_shrd v0 v1 v2 s : exec (.shrd v0 v1 v2) s = execShrd v0 v1 v2 s := rfl
@[simp] theorem exec_fadd v0 v1 v2 s : exec (.fadd v0 v1 v2) s = execFadd v0 v1 v2 s := rfl
@[simp] theorem exec_fsub v0 v1 v2 s : exec (.fsub v0 v1 v2) s = execFsub v0 v1 v2 s := rfl
@[simp] theorem exec_fmul v0 v1 v2 s : exec (.fmul v0 v1 v2) s = execFmul v0 v1 v2 s := rfl
@[simp] theorem exec_fmin v0 v1 v2 s : exec (.fmin v0 v1 v2) s = execFmin v0 v1 v2 s := rfl
@[simp] theorem exec_fmax v0 v1 v2 s : exec (.fmax v0 v1 v2) s = execFmax v0 v1 v2 s := rfl
@[simp] theorem exec_fdiv v0 v1 v2 s : exec (.fdiv v0 v1 v2) s = execFdiv v0 v1 v2 s := rfl
@[simp] theorem exec_frcp v0 v1 v2 s : exec (.frcp v0 v1 v2) s = execFrcp v0 v1 v2 s := rfl
@[simp] theorem exec_frsq v0 v1 v2 s : exec (.frsq v0 v1 v2) s = execFrsq v0 v1 v2 s := rfl
@[simp] theorem exec_fsqrt v0 v1 v2 s : exec (.fsqrt v0 v1 v2) s = execFsqrt v0 v1 v2 s := rfl
@[simp] theorem exec_fexp2 v0 v1 v2 s : exec (.fexp2 v0 v1 v2) s = execFexp2 v0 v1 v2 s := rfl
@[simp] theorem exec_flog2 v0 v1 v2 s : exec (.flog2 v0 v1 v2) s = execFlog2 v0 v1 v2 s := rfl
@[simp] theorem exec_fsinpi v0 v1 v2 s : exec (.fsinpi v0 v1 v2) s = execFsinpi v0 v1 v2 s := rfl
@[simp] theorem exec_fcospi v0 v1 v2 s : exec (.fcospi v0 v1 v2) s = execFcospi v0 v1 v2 s := rfl
@[simp] theorem exec_ftanh v0 v1 v2 s : exec (.ftanh v0 v1 v2) s = execFtanh v0 v1 v2 s := rfl
@[simp] theorem exec_frndn v0 v1 v2 s : exec (.frndn v0 v1 v2) s = execFrndn v0 v1 v2 s := rfl
@[simp] theorem exec_frndz v0 v1 v2 s : exec (.frndz v0 v1 v2) s = execFrndz v0 v1 v2 s := rfl
@[simp] theorem exec_ffloor v0 v1 v2 s : exec (.ffloor v0 v1 v2) s = execFfloor v0 v1 v2 s := rfl
@[simp] theorem exec_fceil v0 v1 v2 s : exec (.fceil v0 v1 v2) s = execFceil v0 v1 v2 s := rfl
@[simp] theorem exec_fneg v0 v1 v2 s : exec (.fneg v0 v1 v2) s = execFneg v0 v1 v2 s := rfl
@[simp] theorem exec_fabs v0 v1 v2 s : exec (.fabs v0 v1 v2) s = execFabs v0 v1 v2 s := rfl
@[simp] theorem exec_fcpys v0 v1 v2 s : exec (.fcpys v0 v1 v2) s = execFcpys v0 v1 v2 s := rfl
@[simp] theorem exec_hadd2 v0 v1 v2 s : exec (.hadd2 v0 v1 v2) s = execHadd2 v0 v1 v2 s := rfl
@[simp] theorem exec_hsub2 v0 v1 v2 s : exec (.hsub2 v0 v1 v2) s = execHsub2 v0 v1 v2 s := rfl
@[simp] theorem exec_hmul2 v0 v1 v2 s : exec (.hmul2 v0 v1 v2) s = execHmul2 v0 v1 v2 s := rfl
@[simp] theorem exec_hmin2 v0 v1 v2 s : exec (.hmin2 v0 v1 v2) s = execHmin2 v0 v1 v2 s := rfl
@[simp] theorem exec_hmax2 v0 v1 v2 s : exec (.hmax2 v0 v1 v2) s = execHmax2 v0 v1 v2 s := rfl
@[simp] theorem exec_badd2 v0 v1 v2 s : exec (.badd2 v0 v1 v2) s = execBadd2 v0 v1 v2 s := rfl
@[simp] theorem exec_bmul2 v0 v1 v2 s : exec (.bmul2 v0 v1 v2) s = execBmul2 v0 v1 v2 s := rfl
@[simp] theorem exec_ffrac v0 v1 v2 s : exec (.ffrac v0 v1 v2) s = execFfrac v0 v1 v2 s := rfl
@[simp] theorem exec_fscalb v0 v1 v2 s : exec (.fscalb v0 v1 v2) s = execFscalb v0 v1 v2 s := rfl
@[simp] theorem exec_fgete v0 v1 v2 s : exec (.fgete v0 v1 v2) s = execFgete v0 v1 v2 s := rfl
@[simp] theorem exec_iaddk v0 v1 v2 s : exec (.iaddk v0 v1 v2) s = execIaddk v0 v1 v2 s := rfl
@[simp] theorem exec_imulk v0 v1 v2 s : exec (.imulk v0 v1 v2) s = execImulk v0 v1 v2 s := rfl
@[simp] theorem exec_andk v0 v1 v2 s : exec (.andk v0 v1 v2) s = execAndk v0 v1 v2 s := rfl
@[simp] theorem exec_ork v0 v1 v2 s : exec (.ork v0 v1 v2) s = execOrk v0 v1 v2 s := rfl
@[simp] theorem exec_xork v0 v1 v2 s : exec (.xork v0 v1 v2) s = execXork v0 v1 v2 s := rfl
@[simp] theorem exec_shlk v0 v1 v2 s : exec (.shlk v0 v1 v2) s = execShlk v0 v1 v2 s := rfl
@[simp] theorem exec_shrk v0 v1 v2 s : exec (.shrk v0 v1 v2) s = execShrk v0 v1 v2 s := rfl
@[simp] theorem exec_shrak v0 v1 v2 s : exec (.shrak v0 v1 v2) s = execShrak v0 v1 v2 s := rfl
@[simp] theorem exec_imink v0 v1 v2 s : exec (.imink v0 v1 v2) s = execImink v0 v1 v2 s := rfl
@[simp] theorem exec_imaxk v0 v1 v2 s : exec (.imaxk v0 v1 v2) s = execImaxk v0 v1 v2 s := rfl
@[simp] theorem exec_icmpeqk v0 v1 v2 s : exec (.icmpeqk v0 v1 v2) s = execIcmpeqk v0 v1 v2 s := rfl
@[simp] theorem exec_icmpltk v0 v1 v2 s : exec (.icmpltk v0 v1 v2) s = execIcmpltk v0 v1 v2 s := rfl
@[simp] theorem exec_faddk v0 v1 v2 s : exec (.faddk v0 v1 v2) s = execFaddk v0 v1 v2 s := rfl
@[simp] theorem exec_fmulk v0 v1 v2 s : exec (.fmulk v0 v1 v2) s = execFmulk v0 v1 v2 s := rfl
@[simp] theorem exec_liml v0 v1 s : exec (.liml v0 v1) s = execLiml v0 v1 s := rfl
@[simp] theorem exec_limh v0 v1 s : exec (.limh v0 v1) s = execLimh v0 v1 s := rfl
@[simp] theorem exec_movk v0 v1 v2 s : exec (.movk v0 v1 v2) s = execMovk v0 v1 v2 s := rfl
@[simp] theorem exec_ffma v0 v1 v2 s : exec (.ffma v0 v1 v2) s = execFfma v0 v1 v2 s := rfl
@[simp] theorem exec_ffms v0 v1 v2 s : exec (.ffms v0 v1 v2) s = execFfms v0 v1 v2 s := rfl
@[simp] theorem exec_fnfma v0 v1 v2 s : exec (.fnfma v0 v1 v2) s = execFnfma v0 v1 v2 s := rfl
@[simp] theorem exec_hfma2 v0 v1 v2 s : exec (.hfma2 v0 v1 v2) s = execHfma2 v0 v1 v2 s := rfl
@[simp] theorem exec_bfma2 v0 v1 v2 s : exec (.bfma2 v0 v1 v2) s = execBfma2 v0 v1 v2 s := rfl
@[simp] theorem exec_imad v0 v1 v2 s : exec (.imad v0 v1 v2) s = execImad v0 v1 v2 s := rfl
@[simp] theorem exec_bilv3 v0 v1 v2 s : exec (.bilv3 v0 v1 v2) s = execBilv3 v0 v1 v2 s := rfl
@[simp] theorem exec_bfi v0 v1 v2 s : exec (.bfi v0 v1 v2) s = execBfi v0 v1 v2 s := rfl
@[simp] theorem exec_selP0 v0 v1 v2 s : exec (.selP0 v0 v1 v2) s = execSelP0 v0 v1 v2 s := rfl
@[simp] theorem exec_selP1 v0 v1 v2 s : exec (.selP1 v0 v1 v2) s = execSelP1 v0 v1 v2 s := rfl
@[simp] theorem exec_selP2 v0 v1 v2 s : exec (.selP2 v0 v1 v2) s = execSelP2 v0 v1 v2 s := rfl
@[simp] theorem exec_selP3 v0 v1 v2 s : exec (.selP3 v0 v1 v2) s = execSelP3 v0 v1 v2 s := rfl
@[simp] theorem exec_icmpeq v0 v1 v2 s : exec (.icmpeq v0 v1 v2) s = execIcmpeq v0 v1 v2 s := rfl
@[simp] theorem exec_icmpne v0 v1 v2 s : exec (.icmpne v0 v1 v2) s = execIcmpne v0 v1 v2 s := rfl
@[simp] theorem exec_icmplt v0 v1 v2 s : exec (.icmplt v0 v1 v2) s = execIcmplt v0 v1 v2 s := rfl
@[simp] theorem exec_icmple v0 v1 v2 s : exec (.icmple v0 v1 v2) s = execIcmple v0 v1 v2 s := rfl
@[simp] theorem exec_icmpltn v0 v1 v2 s : exec (.icmpltn v0 v1 v2) s = execIcmpltn v0 v1 v2 s := rfl
@[simp] theorem exec_icmplen v0 v1 v2 s : exec (.icmplen v0 v1 v2) s = execIcmplen v0 v1 v2 s := rfl
@[simp] theorem exec_fcmpeq v0 v1 v2 s : exec (.fcmpeq v0 v1 v2) s = execFcmpeq v0 v1 v2 s := rfl
@[simp] theorem exec_fcmpne v0 v1 v2 s : exec (.fcmpne v0 v1 v2) s = execFcmpne v0 v1 v2 s := rfl
@[simp] theorem exec_fcmplt v0 v1 v2 s : exec (.fcmplt v0 v1 v2) s = execFcmplt v0 v1 v2 s := rfl
@[simp] theorem exec_fcmple v0 v1 v2 s : exec (.fcmple v0 v1 v2) s = execFcmple v0 v1 v2 s := rfl
@[simp] theorem exec_fcmpun v0 v1 v2 s : exec (.fcmpun v0 v1 v2) s = execFcmpun v0 v1 v2 s := rfl
@[simp] theorem exec_plop v0 v1 v2 v3 s : exec (.plop v0 v1 v2 v3) s = execPlop v0 v1 v2 v3 s := rfl
@[simp] theorem exec_cvt v0 v1 v2 v3 v4 s : exec (.cvt v0 v1 v2 v3 v4) s = execCvt v0 v1 v2 v3 v4 s := rfl
@[simp] theorem exec_cvt8 v0 v1 v2 v3 v4 v5 s : exec (.cvt8 v0 v1 v2 v3 v4 v5) s = execCvt8 v0 v1 v2 v3 v4 v5 s := rfl
@[simp] theorem exec_cvt8n v0 v1 v2 v3 s : exec (.cvt8n v0 v1 v2 v3) s = execCvt8n v0 v1 v2 v3 s := rfl
@[simp] theorem exec_movp v0 v1 v2 s : exec (.movp v0 v1 v2) s = execMovp v0 v1 v2 s := rfl
@[simp] theorem exec_sadd v0 v1 v2 s : exec (.sadd v0 v1 v2) s = execSadd v0 v1 v2 s := rfl
@[simp] theorem exec_ssub v0 v1 v2 s : exec (.ssub v0 v1 v2) s = execSsub v0 v1 v2 s := rfl
@[simp] theorem exec_smul v0 v1 v2 s : exec (.smul v0 v1 v2) s = execSmul v0 v1 v2 s := rfl
@[simp] theorem exec_smulh v0 v1 v2 s : exec (.smulh v0 v1 v2) s = execSmulh v0 v1 v2 s := rfl
@[simp] theorem exec_smulhn v0 v1 v2 s : exec (.smulhn v0 v1 v2) s = execSmulhn v0 v1 v2 s := rfl
@[simp] theorem exec_sdiv v0 v1 v2 s : exec (.sdiv v0 v1 v2) s = execSdiv v0 v1 v2 s := rfl
@[simp] theorem exec_sdivn v0 v1 v2 s : exec (.sdivn v0 v1 v2) s = execSdivn v0 v1 v2 s := rfl
@[simp] theorem exec_srem v0 v1 v2 s : exec (.srem v0 v1 v2) s = execSrem v0 v1 v2 s := rfl
@[simp] theorem exec_sremn v0 v1 v2 s : exec (.sremn v0 v1 v2) s = execSremn v0 v1 v2 s := rfl
@[simp] theorem exec_smin v0 v1 v2 s : exec (.smin v0 v1 v2) s = execSmin v0 v1 v2 s := rfl
@[simp] theorem exec_sminn v0 v1 v2 s : exec (.sminn v0 v1 v2) s = execSminn v0 v1 v2 s := rfl
@[simp] theorem exec_smax v0 v1 v2 s : exec (.smax v0 v1 v2) s = execSmax v0 v1 v2 s := rfl
@[simp] theorem exec_smaxn v0 v1 v2 s : exec (.smaxn v0 v1 v2) s = execSmaxn v0 v1 v2 s := rfl
@[simp] theorem exec_sand v0 v1 v2 s : exec (.sand v0 v1 v2) s = execSand v0 v1 v2 s := rfl
@[simp] theorem exec_sor v0 v1 v2 s : exec (.sor v0 v1 v2) s = execSor v0 v1 v2 s := rfl
@[simp] theorem exec_sxor v0 v1 v2 s : exec (.sxor v0 v1 v2) s = execSxor v0 v1 v2 s := rfl
@[simp] theorem exec_sshl v0 v1 v2 s : exec (.sshl v0 v1 v2) s = execSshl v0 v1 v2 s := rfl
@[simp] theorem exec_sshr v0 v1 v2 s : exec (.sshr v0 v1 v2) s = execSshr v0 v1 v2 s := rfl
@[simp] theorem exec_sshra v0 v1 v2 s : exec (.sshra v0 v1 v2) s = execSshra v0 v1 v2 s := rfl
@[simp] theorem exec_sclz v0 v1 v2 s : exec (.sclz v0 v1 v2) s = execSclz v0 v1 v2 s := rfl
@[simp] theorem exec_spopc v0 v1 v2 s : exec (.spopc v0 v1 v2) s = execSpopc v0 v1 v2 s := rfl
@[simp] theorem exec_sbfx v0 v1 v2 s : exec (.sbfx v0 v1 v2) s = execSbfx v0 v1 v2 s := rfl
@[simp] theorem exec_smov v0 v1 v2 s : exec (.smov v0 v1 v2) s = execSmov v0 v1 v2 s := rfl
@[simp] theorem exec_slil v0 v1 s : exec (.slil v0 v1) s = execSlil v0 v1 s := rfl
@[simp] theorem exec_slih v0 v1 s : exec (.slih v0 v1) s = execSlih v0 v1 s := rfl
@[simp] theorem exec_saddd v0 v1 v2 s : exec (.saddd v0 v1 v2) s = execSaddd v0 v1 v2 s := rfl
@[simp] theorem exec_ssubd v0 v1 v2 s : exec (.ssubd v0 v1 v2) s = execSsubd v0 v1 v2 s := rfl
@[simp] theorem exec_scmp v0 v1 s : exec (.scmp v0 v1) s = execScmp v0 v1 s := rfl
@[simp] theorem exec_srd v0 v1 v2 s : exec (.srd v0 v1 v2) s = execSrd v0 v1 v2 s := rfl
@[simp] theorem exec_swr v0 v1 s : exec (.swr v0 v1) s = execSwr v0 v1 s := rfl
@[simp] theorem exec_wset v0 v1 v2 s : exec (.wset v0 v1 v2) s = execWset v0 v1 v2 s := rfl
@[simp] theorem exec_wadd v0 v1 v2 s : exec (.wadd v0 v1 v2) s = execWadd v0 v1 v2 s := rfl
@[simp] theorem exec_ldb v0 v1 v2 v3 v4 s : exec (.ldb v0 v1 v2 v3 v4) s = execLdb v0 v1 v2 v3 v4 s := rfl
@[simp] theorem exec_ldbs v0 v1 v2 v3 v4 s : exec (.ldbs v0 v1 v2 v3 v4) s = execLdbs v0 v1 v2 v3 v4 s := rfl
@[simp] theorem exec_ldh v0 v1 v2 v3 v4 s : exec (.ldh v0 v1 v2 v3 v4) s = execLdh v0 v1 v2 v3 v4 s := rfl
@[simp] theorem exec_ldhs v0 v1 v2 v3 v4 s : exec (.ldhs v0 v1 v2 v3 v4) s = execLdhs v0 v1 v2 v3 v4 s := rfl
@[simp] theorem exec_ldw v0 v1 v2 v3 v4 s : exec (.ldw v0 v1 v2 v3 v4) s = execLdw v0 v1 v2 v3 v4 s := rfl
@[simp] theorem exec_ldd v0 v1 v2 v3 v4 s : exec (.ldd v0 v1 v2 v3 v4) s = execLdd v0 v1 v2 v3 v4 s := rfl
@[simp] theorem exec_ldq v0 v1 v2 v3 v4 s : exec (.ldq v0 v1 v2 v3 v4) s = execLdq v0 v1 v2 v3 v4 s := rfl
@[simp] theorem exec_stb v0 v1 v2 v3 v4 s : exec (.stb v0 v1 v2 v3 v4) s = execStb v0 v1 v2 v3 v4 s := rfl
@[simp] theorem exec_sth v0 v1 v2 v3 v4 s : exec (.sth v0 v1 v2 v3 v4) s = execSth v0 v1 v2 v3 v4 s := rfl
@[simp] theorem exec_stw v0 v1 v2 v3 v4 s : exec (.stw v0 v1 v2 v3 v4) s = execStw v0 v1 v2 v3 v4 s := rfl
@[simp] theorem exec_std v0 v1 v2 v3 v4 s : exec (.std v0 v1 v2 v3 v4) s = execStd v0 v1 v2 v3 v4 s := rfl
@[simp] theorem exec_stq v0 v1 v2 v3 v4 s : exec (.stq v0 v1 v2 v3 v4) s = execStq v0 v1 v2 v3 v4 s := rfl
@[simp] theorem exec_ldsw v0 v1 v2 s : exec (.ldsw v0 v1 v2) s = execLdsw v0 v1 v2 s := rfl
@[simp] theorem exec_ldsd v0 v1 v2 s : exec (.ldsd v0 v1 v2) s = execLdsd v0 v1 v2 s := rfl
@[simp] theorem exec_ldsq v0 v1 v2 s : exec (.ldsq v0 v1 v2) s = execLdsq v0 v1 v2 s := rfl
@[simp] theorem exec_stsw v0 v1 v2 s : exec (.stsw v0 v1 v2) s = execStsw v0 v1 v2 s := rfl
@[simp] theorem exec_stsd v0 v1 v2 s : exec (.stsd v0 v1 v2) s = execStsd v0 v1 v2 s := rfl
@[simp] theorem exec_stsq v0 v1 v2 s : exec (.stsq v0 v1 v2) s = execStsq v0 v1 v2 s := rfl
@[simp] theorem exec_lduw v0 v1 v2 v3 v4 s : exec (.lduw v0 v1 v2 v3 v4) s = execLduw v0 v1 v2 v3 v4 s := rfl
@[simp] theorem exec_ldud v0 v1 v2 v3 v4 s : exec (.ldud v0 v1 v2 v3 v4) s = execLdud v0 v1 v2 v3 v4 s := rfl
@[simp] theorem exec_ldba v0 v1 v2 v3 v4 s : exec (.ldba v0 v1 v2 v3 v4) s = execLdba v0 v1 v2 v3 v4 s := rfl
@[simp] theorem exec_stba v0 v1 v2 v3 v4 s : exec (.stba v0 v1 v2 v3 v4) s = execStba v0 v1 v2 v3 v4 s := rfl
@[simp] theorem exec_gath4 v0 v1 v2 v3 v4 s : exec (.gath4 v0 v1 v2 v3 v4) s = execGath4 v0 v1 v2 v3 v4 s := rfl
@[simp] theorem exec_pref v0 v1 v2 v3 s : exec (.pref v0 v1 v2 v3) s = execPref v0 v1 v2 v3 s := rfl
@[simp] theorem exec_bra v0 s : exec (.bra v0) s = execBra v0 s := rfl
@[simp] theorem exec_brz v0 s : exec (.brz v0) s = execBrz v0 s := rfl
@[simp] theorem exec_brnz v0 s : exec (.brnz v0) s = execBrnz v0 s := rfl
@[simp] theorem exec_brn v0 s : exec (.brn v0) s = execBrn v0 s := rfl
@[simp] theorem exec_brnn v0 s : exec (.brnn v0) s = execBrnn v0 s := rfl
@[simp] theorem exec_brc v0 s : exec (.brc v0) s = execBrc v0 s := rfl
@[simp] theorem exec_brnc v0 s : exec (.brnc v0) s = execBrnc v0 s := rfl
@[simp] theorem exec_brvP0 v0 s : exec (.brvP0 v0) s = execBrvP0 v0 s := rfl
@[simp] theorem exec_brvP1 v0 s : exec (.brvP1 v0) s = execBrvP1 v0 s := rfl
@[simp] theorem exec_brvP2 v0 s : exec (.brvP2 v0) s = execBrvP2 v0 s := rfl
@[simp] theorem exec_brvP3 v0 s : exec (.brvP3 v0) s = execBrvP3 v0 s := rfl
@[simp] theorem exec_brany v0 s : exec (.brany v0) s = execBrany v0 s := rfl
@[simp] theorem exec_brall v0 s : exec (.brall v0) s = execBrall v0 s := rfl
@[simp] theorem exec_bre v0 s : exec (.bre v0) s = execBre v0 s := rfl
@[simp] theorem exec_call v0 s : exec (.call v0) s = execCall v0 s := rfl
@[simp] theorem exec_mov v0 v1 s : exec (.mov v0 v1) s = execMov v0 v1 s := rfl
@[simp] theorem exec_iadd16 v0 v1 s : exec (.iadd16 v0 v1) s = execIadd16 v0 v1 s := rfl
@[simp] theorem exec_isub16 v0 v1 s : exec (.isub16 v0 v1) s = execIsub16 v0 v1 s := rfl
@[simp] theorem exec_imul16 v0 v1 s : exec (.imul16 v0 v1) s = execImul16 v0 v1 s := rfl
@[simp] theorem exec_and16 v0 v1 s : exec (.and16 v0 v1) s = execAnd16 v0 v1 s := rfl
@[simp] theorem exec_or16 v0 v1 s : exec (.or16 v0 v1) s = execOr16 v0 v1 s := rfl
@[simp] theorem exec_xor16 v0 v1 s : exec (.xor16 v0 v1) s = execXor16 v0 v1 s := rfl
@[simp] theorem exec_shl16 v0 v1 s : exec (.shl16 v0 v1) s = execShl16 v0 v1 s := rfl
@[simp] theorem exec_shr16 v0 v1 s : exec (.shr16 v0 v1) s = execShr16 v0 v1 s := rfl
@[simp] theorem exec_shra16 v0 v1 s : exec (.shra16 v0 v1) s = execShra16 v0 v1 s := rfl
@[simp] theorem exec_fadd16 v0 v1 s : exec (.fadd16 v0 v1) s = execFadd16 v0 v1 s := rfl
@[simp] theorem exec_fsub16 v0 v1 s : exec (.fsub16 v0 v1) s = execFsub16 v0 v1 s := rfl
@[simp] theorem exec_fmul16 v0 v1 s : exec (.fmul16 v0 v1) s = execFmul16 v0 v1 s := rfl
@[simp] theorem exec_fmin16 v0 v1 s : exec (.fmin16 v0 v1) s = execFmin16 v0 v1 s := rfl
@[simp] theorem exec_fmax16 v0 v1 s : exec (.fmax16 v0 v1) s = execFmax16 v0 v1 s := rfl
@[simp] theorem exec_sel16 v0 v1 s : exec (.sel16 v0 v1) s = execSel16 v0 v1 s := rfl
@[simp] theorem exec_nop s : exec .nop s = execNop s := rfl
@[simp] theorem exec_exit s : exec .exit s = execExit s := rfl
@[simp] theorem exec_join s : exec .join s = execJoin s := rfl
@[simp] theorem exec_ret s : exec .ret s = execRet s := rfl
@[simp] theorem exec_jmpi v0 s : exec (.jmpi v0) s = execJmpi v0 s := rfl
@[simp] theorem exec_yield s : exec .yield s = execYield s := rfl
@[simp] theorem exec_sleep v0 s : exec (.sleep v0) s = execSleep v0 s := rfl
@[simp] theorem exec_waitc v0 v1 s : exec (.waitc v0 v1) s = execWaitc v0 v1 s := rfl
@[simp] theorem exec_idem s : exec .idem s = execIdem s := rfl
@[simp] theorem exec_scopeOpen v0 s : exec (.scopeOpen v0) s = execScopeOpen v0 s := rfl
@[simp] theorem exec_scopeClose s : exec .scopeClose s = execScopeClose s := rfl
@[simp] theorem exec_emget v0 s : exec (.emget v0) s = execEmget v0 s := rfl
@[simp] theorem exec_emset v0 v1 s : exec (.emset v0 v1) s = execEmset v0 v1 s := rfl
@[simp] theorem exec_emand v0 v1 s : exec (.emand v0 v1) s = execEmand v0 v1 s := rfl
@[simp] theorem exec_trap v0 s : exec (.trap v0) s = execTrap v0 s := rfl
@[simp] theorem exec_rte s : exec .rte s = execRte s := rfl
@[simp] theorem exec_icinv v0 v1 s : exec (.icinv v0 v1) s = execIcinv v0 v1 s := rfl
@[simp] theorem exec_fence v0 v1 v2 s : exec (.fence v0 v1 v2) s = execFence v0 v1 v2 s := rfl
@[simp] theorem exec_stampBegin v0 s : exec (.stampBegin v0) s = execStampBegin v0 s := rfl
@[simp] theorem exec_stampEnd v0 s : exec (.stampEnd v0) s = execStampEnd v0 s := rfl
@[simp] theorem exec_mcfg v0 v1 s : exec (.mcfg v0 v1) s = execMcfg v0 v1 s := rfl
@[simp] theorem exec_actLd v0 v1 s : exec (.actLd v0 v1) s = execActLd v0 v1 s := rfl
@[simp] theorem exec_badd v0 v1 s : exec (.badd v0 v1) s = execBadd v0 v1 s := rfl
@[simp] theorem exec_bset v0 v1 s : exec (.bset v0 v1) s = execBset v0 v1 s := rfl
@[simp] theorem exec_bget v0 v1 s : exec (.bget v0 v1) s = execBget v0 v1 s := rfl
@[simp] theorem exec_wfence s : exec .wfence s = execWfence s := rfl
@[simp] theorem exec_xshf v0 v1 v2 s : exec (.xshf v0 v1 v2) s = execXshf v0 v1 v2 s := rfl
@[simp] theorem exec_xdn v0 v1 v2 s : exec (.xdn v0 v1 v2) s = execXdn v0 v1 v2 s := rfl
@[simp] theorem exec_xup v0 v1 v2 s : exec (.xup v0 v1 v2) s = execXup v0 v1 v2 s := rfl
@[simp] theorem exec_xrot v0 v1 v2 s : exec (.xrot v0 v1 v2) s = execXrot v0 v1 v2 s := rfl
@[simp] theorem exec_xbfly v0 v1 v2 s : exec (.xbfly v0 v1 v2) s = execXbfly v0 v1 v2 s := rfl
@[simp] theorem exec_xred v0 v1 v2 s : exec (.xred v0 v1 v2) s = execXred v0 v1 v2 s := rfl
@[simp] theorem exec_xscan v0 v1 v2 v3 s : exec (.xscan v0 v1 v2 v3) s = execXscan v0 v1 v2 v3 s := rfl
@[simp] theorem exec_xbal v0 v1 v2 s : exec (.xbal v0 v1 v2) s = execXbal v0 v1 v2 s := rfl
@[simp] theorem exec_xbcast v0 v1 v2 s : exec (.xbcast v0 v1 v2) s = execXbcast v0 v1 v2 s := rfl
@[simp] theorem exec_xfirst v0 v1 s : exec (.xfirst v0 v1) s = execXfirst v0 v1 s := rfl
@[simp] theorem exec_mma v0 v1 s : exec (.mma v0 v1) s = execMma v0 v1 s := rfl
@[simp] theorem exec_accAlloc v0 s : exec (.accAlloc v0) s = execAccAlloc v0 s := rfl
@[simp] theorem exec_accFree v0 s : exec (.accFree v0) s = execAccFree v0 s := rfl
@[simp] theorem exec_accZero v0 s : exec (.accZero v0) s = execAccZero v0 s := rfl
@[simp] theorem exec_accRd v0 v1 v2 s : exec (.accRd v0 v1 v2) s = execAccRd v0 v1 v2 s := rfl
@[simp] theorem exec_accWr v0 v1 s : exec (.accWr v0 v1) s = execAccWr v0 v1 s := rfl
@[simp] theorem exec_accMask v0 v1 s : exec (.accMask v0 v1) s = execAccMask v0 v1 s := rfl
@[simp] theorem exec_accRowmax v0 v1 s : exec (.accRowmax v0 v1) s = execAccRowmax v0 v1 s := rfl
@[simp] theorem exec_accRowsum v0 v1 s : exec (.accRowsum v0 v1) s = execAccRowsum v0 v1 s := rfl
@[simp] theorem exec_accRowscl v0 v1 s : exec (.accRowscl v0 v1) s = execAccRowscl v0 v1 s := rfl
@[simp] theorem exec_fragLda v0 v1 s : exec (.fragLda v0 v1) s = execFragLda v0 v1 s := rfl
@[simp] theorem exec_fragLdb v0 v1 s : exec (.fragLdb v0 v1) s = execFragLdb v0 v1 s := rfl
@[simp] theorem exec_fragLdas v0 v1 s : exec (.fragLdas v0 v1) s = execFragLdas v0 v1 s := rfl
@[simp] theorem exec_fragLdbs v0 v1 s : exec (.fragLdbs v0 v1) s = execFragLdbs v0 v1 s := rfl
@[simp] theorem exec_permLd v0 v1 s : exec (.permLd v0 v1) s = execPermLd v0 v1 s := rfl
@[simp] theorem exec_permLdg v0 v1 s : exec (.permLdg v0 v1) s = execPermLdg v0 v1 s := rfl
@[simp] theorem exec_permId v0 s : exec (.permId v0) s = execPermId v0 s := rfl
@[simp] theorem exec_permInv v0 v1 s : exec (.permInv v0 v1) s = execPermInv v0 v1 s := rfl
@[simp] theorem exec_permCmp v0 v1 v2 s : exec (.permCmp v0 v1 v2) s = execPermCmp v0 v1 v2 s := rfl
@[simp] theorem exec_permRnd v0 v1 s : exec (.permRnd v0 v1) s = execPermRnd v0 v1 s := rfl
@[simp] theorem exec_permPack v0 v1 s : exec (.permPack v0 v1) s = execPermPack v0 v1 s := rfl
@[simp] theorem exec_permApply v0 v1 v2 s : exec (.permApply v0 v1 v2) s = execPermApply v0 v1 v2 s := rfl
@[simp] theorem exec_permSt v0 v1 s : exec (.permSt v0 v1) s = execPermSt v0 v1 s := rfl
@[simp] theorem exec_permCyc v0 v1 s : exec (.permCyc v0 v1) s = execPermCyc v0 v1 s := rfl
@[simp] theorem exec_permAcc v0 v1 s : exec (.permAcc v0 v1) s = execPermAcc v0 v1 s := rfl
@[simp] theorem exec_atom32 v0 v1 v2 v3 s : exec (.atom32 v0 v1 v2 v3) s = execAtom32 v0 v1 v2 v3 s := rfl
@[simp] theorem exec_atom64 v0 v1 v2 v3 s : exec (.atom64 v0 v1 v2 v3) s = execAtom64 v0 v1 v2 v3 s := rfl
@[simp] theorem exec_atoms v0 v1 v2 s : exec (.atoms v0 v1 v2) s = execAtoms v0 v1 v2 s := rfl
@[simp] theorem exec_cas v0 v1 v2 v3 v4 s : exec (.cas v0 v1 v2 v3 v4) s = execCas v0 v1 v2 v3 v4 s := rfl
@[simp] theorem exec_ringInit v0 s : exec (.ringInit v0) s = execRingInit v0 s := rfl
@[simp] theorem exec_ringWait v0 v1 s : exec (.ringWait v0 v1) s = execRingWait v0 v1 s := rfl
@[simp] theorem exec_ringRel v0 v1 s : exec (.ringRel v0 v1) s = execRingRel v0 v1 s := rfl
@[simp] theorem exec_ringStat v0 v1 s : exec (.ringStat v0 v1) s = execRingStat v0 v1 s := rfl
@[simp] theorem exec_barInit v0 v1 s : exec (.barInit v0 v1) s = execBarInit v0 v1 s := rfl
@[simp] theorem exec_barArrive v0 s : exec (.barArrive v0) s = execBarArrive v0 s := rfl
@[simp] theorem exec_barWait v0 v1 s : exec (.barWait v0 v1) s = execBarWait v0 v1 s := rfl
@[simp] theorem exec_barStat v0 s : exec (.barStat v0) s = execBarStat v0 s := rfl
@[simp] theorem exec_barSync v0 s : exec (.barSync v0) s = execBarSync v0 s := rfl
@[simp] theorem exec_xcopyIn v0 v1 v2 s : exec (.xcopyIn v0 v1 v2) s = execXcopyIn v0 v1 v2 s := rfl
@[simp] theorem exec_xcopyOut v0 v1 v2 s : exec (.xcopyOut v0 v1 v2) s = execXcopyOut v0 v1 v2 s := rfl
@[simp] theorem exec_xcopyCommit v0 v1 v2 s : exec (.xcopyCommit v0 v1 v2) s = execXcopyCommit v0 v1 v2 s := rfl
@[simp] theorem exec_xcopyRows v0 v1 v2 s : exec (.xcopyRows v0 v1 v2) s = execXcopyRows v0 v1 v2 s := rfl
@[simp] theorem exec_mqSend v0 v1 s : exec (.mqSend v0 v1) s = execMqSend v0 v1 s := rfl
@[simp] theorem exec_mqRecv v0 v1 v2 s : exec (.mqRecv v0 v1 v2) s = execMqRecv v0 v1 v2 s := rfl
@[simp] theorem exec_mqPop v0 v1 s : exec (.mqPop v0 v1) s = execMqPop v0 v1 s := rfl
@[simp] theorem exec_tagLook v0 s : exec (.tagLook v0) s = execTagLook v0 s := rfl
@[simp] theorem exec_tagSet v0 v1 s : exec (.tagSet v0 v1) s = execTagSet v0 v1 s := rfl
@[simp] theorem exec_tagClr v0 s : exec (.tagClr v0) s = execTagClr v0 s := rfl
@[simp] theorem exec_tagInv s : exec .tagInv s = execTagInv s := rfl
@[simp] theorem exec_ssetInit v0 v1 v2 s : exec (.ssetInit v0 v1 v2) s = execSsetInit v0 v1 v2 s := rfl
@[simp] theorem exec_ssetAdd v0 v1 s : exec (.ssetAdd v0 v1) s = execSsetAdd v0 v1 s := rfl
@[simp] theorem exec_ssetBuild v0 s : exec (.ssetBuild v0) s = execSsetBuild v0 s := rfl
@[simp] theorem exec_ssetBind v0 s : exec (.ssetBind v0) s = execSsetBind v0 s := rfl
@[simp] theorem exec_ssetUnbind v0 s : exec (.ssetUnbind v0) s = execSsetUnbind v0 s := rfl
@[simp] theorem exec_ssetFree v0 s : exec (.ssetFree v0) s = execSsetFree v0 s := rfl
@[simp] theorem exec_ssetQuery v0 v1 s : exec (.ssetQuery v0 v1) s = execSsetQuery v0 v1 s := rfl
@[simp] theorem exec_rastEmit v0 v1 v2 s : exec (.rastEmit v0 v1 v2) s = execRastEmit v0 v1 v2 s := rfl
@[simp] theorem exec_rastDraw v0 v1 s : exec (.rastDraw v0 v1) s = execRastDraw v0 v1 s := rfl
@[simp] theorem exec_rastSin v0 s : exec (.rastSin v0) s = execRastSin v0 s := rfl
@[simp] theorem exec_rastSout v0 v1 s : exec (.rastSout v0 v1) s = execRastSout v0 v1 s := rfl
@[simp] theorem exec_rastSkip s : exec .rastSkip s = execRastSkip s := rfl
@[simp] theorem exec_treemask v0 v1 v2 s : exec (.treemask v0 v1 v2) s = execTreemask v0 v1 v2 s := rfl
@[simp] theorem exec_privTeamgo v0 v1 v2 s : exec (.privTeamgo v0 v1 v2) s = execPrivTeamgo v0 v1 v2 s := rfl
@[simp] theorem exec_privTeamdone s : exec .privTeamdone s = execPrivTeamdone s := rfl
@[simp] theorem exec_privAgsleep v0 s : exec (.privAgsleep v0) s = execPrivAgsleep v0 s := rfl
@[simp] theorem exec_privWkpop v0 s : exec (.privWkpop v0) s = execPrivWkpop v0 s := rfl
@[simp] theorem exec_dbgTracew v0 v1 s : exec (.dbgTracew v0 v1) s = execDbgTracew v0 v1 s := rfl
@[simp] theorem exec_dbgPcsmp v0 s : exec (.dbgPcsmp v0) s = execDbgPcsmp v0 s := rfl
@[simp] theorem exec_ordInit v0 v1 s : exec (.ordInit v0 v1) s = execOrdInit v0 v1 s := rfl
@[simp] theorem exec_ordEnter v0 v1 s : exec (.ordEnter v0 v1) s = execOrdEnter v0 v1 s := rfl
@[simp] theorem exec_ordTry v0 v1 s : exec (.ordTry v0 v1) s = execOrdTry v0 v1 s := rfl
@[simp] theorem exec_ordWait v0 v1 s : exec (.ordWait v0 v1) s = execOrdWait v0 v1 s := rfl
@[simp] theorem exec_ordLeave v0 v1 s : exec (.ordLeave v0 v1) s = execOrdLeave v0 v1 s := rfl
@[simp] theorem exec_ordLeavev v0 v1 s : exec (.ordLeavev v0 v1) s = execOrdLeavev v0 v1 s := rfl
@[simp] theorem exec_ordQuery v0 s : exec (.ordQuery v0) s = execOrdQuery v0 s := rfl
@[simp] theorem exec_identRead s : exec .identRead s = execIdentRead s := rfl
@[simp] theorem exec_attest s : exec .attest s = execAttest s := rfl
@[simp] theorem exec_slotWrite s : exec .slotWrite s = execSlotWrite s := rfl
@[simp] theorem exec_authRecovery s : exec .authRecovery s = execAuthRecovery s := rfl
@[simp] theorem exec_devReset s : exec .devReset s = execDevReset s := rfl
@[simp] theorem exec_powerSet s : exec .powerSet s = execPowerSet s := rfl
@[simp] theorem exec_powerCap s : exec .powerCap s = execPowerCap s := rfl
@[simp] theorem exec_tickstop s : exec .tickstop s = execTickstop s := rfl
@[simp] theorem exec_stopStatus s : exec .stopStatus s = execStopStatus s := rfl
@[simp] theorem exec_ctxDefine s : exec .ctxDefine s = execCtxDefine s := rfl
@[simp] theorem exec_ctxAdmit s : exec .ctxAdmit s = execCtxAdmit s := rfl
@[simp] theorem exec_ctxSave s : exec .ctxSave s = execCtxSave s := rfl
@[simp] theorem exec_ctxRestore s : exec .ctxRestore s = execCtxRestore s := rfl
@[simp] theorem exec_ctxRelease s : exec .ctxRelease s = execCtxRelease s := rfl
@[simp] theorem exec_ctxPrio s : exec .ctxPrio s = execCtxPrio s := rfl
@[simp] theorem exec_ctxQuery s : exec .ctxQuery s = execCtxQuery s := rfl
@[simp] theorem exec_ctxFail s : exec .ctxFail s = execCtxFail s := rfl
@[simp] theorem exec_queueMap s : exec .queueMap s = execQueueMap s := rfl
@[simp] theorem exec_queueReset s : exec .queueReset s = execQueueReset s := rfl
@[simp] theorem exec_queueUnmap s : exec .queueUnmap s = execQueueUnmap s := rfl
@[simp] theorem exec_launchQuery s : exec .launchQuery s = execLaunchQuery s := rfl
@[simp] theorem exec_tlbInval s : exec .tlbInval s = execTlbInval s := rfl
@[simp] theorem exec_pageResume s : exec .pageResume s = execPageResume s := rfl
@[simp] theorem exec_pageFail s : exec .pageFail s = execPageFail s := rfl
@[simp] theorem exec_linkEnable s : exec .linkEnable s = execLinkEnable s := rfl
@[simp] theorem exec_linkFence s : exec .linkFence s = execLinkFence s := rfl
@[simp] theorem exec_linkUnfence s : exec .linkUnfence s = execLinkUnfence s := rfl
@[simp] theorem exec_linkSetup s : exec .linkSetup s = execLinkSetup s := rfl
@[simp] theorem exec_trapSetup s : exec .trapSetup s = execTrapSetup s := rfl
@[simp] theorem exec_traceSetup s : exec .traceSetup s = execTraceSetup s := rfl
@[simp] theorem exec_pcbpSet s : exec .pcbpSet s = execPcbpSet s := rfl
@[simp] theorem exec_pcsampleSetup s : exec .pcsampleSetup s = execPcsampleSetup s := rfl
@[simp] theorem exec_dbgList s : exec .dbgList s = execDbgList s := rfl
@[simp] theorem exec_dbgRead s : exec .dbgRead s = execDbgRead s := rfl
@[simp] theorem exec_dbgWrite s : exec .dbgWrite s = execDbgWrite s := rfl
@[simp] theorem exec_dbgResume s : exec .dbgResume s = execDbgResume s := rfl
@[simp] theorem exec_mbCmdUnlisted v0 s : exec (.mbCmdUnlisted v0) s = execMbCmdUnlisted v0 s := rfl
@[simp] theorem exec_mbStatusWrite v0 s : exec (.mbStatusWrite v0) s = execMbStatusWrite v0 s := rfl
@[simp] theorem exec_tflagsWrite v0 s : exec (.tflagsWrite v0) s = execTflagsWrite v0 s := rfl
@[simp] theorem exec_bar2Write v0 v1 s : exec (.bar2Write v0 v1) s = execBar2Write v0 v1 s := rfl
@[simp] theorem exec_registerWrite v0 v1 s : exec (.registerWrite v0 v1) s = execRegisterWrite v0 v1 s := rfl
@[simp] theorem exec_queuePoll v0 s : exec (.queuePoll v0) s = execQueuePoll v0 s := rfl
@[simp] theorem exec_launch v0 s : exec (.launch v0) s = execLaunch v0 s := rfl
@[simp] theorem exec_draw v0 s : exec (.draw v0) s = execDraw v0 s := rfl
@[simp] theorem exec_signal v0 s : exec (.signal v0) s = execSignal v0 s := rfl
@[simp] theorem exec_waitv v0 s : exec (.waitv v0) s = execWaitv v0 s := rfl
@[simp] theorem exec_codesync v0 s : exec (.codesync v0) s = execCodesync v0 s := rfl
@[simp] theorem exec_prio v0 s : exec (.prio v0) s = execPrio v0 s := rfl
@[simp] theorem exec_mark v0 s : exec (.mark v0) s = execMark v0 s := rfl
@[simp] theorem exec_pad v0 s : exec (.pad v0) s = execPad v0 s := rfl
@[simp] theorem exec_packetComplete v0 v1 s : exec (.packetComplete v0 v1) s = execPacketComplete v0 v1 s := rfl
@[simp] theorem exec_waitvPoll v0 s : exec (.waitvPoll v0) s = execWaitvPoll v0 s := rfl
@[simp] theorem exec_waitvTimeout v0 s : exec (.waitvTimeout v0) s = execWaitvTimeout v0 s := rfl
@[simp] theorem exec_launchClaim v0 s : exec (.launchClaim v0) s = execLaunchClaim v0 s := rfl
@[simp] theorem exec_teamComplete v0 s : exec (.teamComplete v0) s = execTeamComplete v0 s := rfl
@[simp] theorem exec_groupRetire v0 s : exec (.groupRetire v0) s = execGroupRetire v0 s := rfl
@[simp] theorem exec_groupKill v0 s : exec (.groupKill v0) s = execGroupKill v0 s := rfl
@[simp] theorem exec_loadFill v0 v1 s : exec (.loadFill v0 v1) s = execLoadFill v0 v1 s := rfl
@[simp] theorem exec_pathOpComplete v0 v1 s : exec (.pathOpComplete v0 v1) s = execPathOpComplete v0 v1 s := rfl
@[simp] theorem exec_promotion v0 v1 s : exec (.promotion v0 v1) s = execPromotion v0 v1 s := rfl
@[simp] theorem exec_sleepWake v0 v1 s : exec (.sleepWake v0 v1) s = execSleepWake v0 v1 s := rfl
@[simp] theorem exec_accStarve v0 v1 s : exec (.accStarve v0 v1) s = execAccStarve v0 v1 s := rfl
@[simp] theorem exec_ordTimeout v0 v1 s : exec (.ordTimeout v0 v1) s = execOrdTimeout v0 v1 s := rfl
@[simp] theorem exec_migratingRetry v0 v1 s : exec (.migratingRetry v0 v1) s = execMigratingRetry v0 v1 s := rfl
@[simp] theorem exec_rollback v0 v1 v2 s : exec (.rollback v0 v1 v2) s = execRollback v0 v1 v2 s := rfl
@[simp] theorem exec_trapEntry v0 s : exec (.trapEntry v0) s = execTrapEntry v0 s := rfl
@[simp] theorem exec_icacheLineFill v0 v1 v2 s : exec (.icacheLineFill v0 v1 v2) s = execIcacheLineFill v0 v1 v2 s := rfl
@[simp] theorem exec_solveDone v0 s : exec (.solveDone v0) s = execSolveDone v0 s := rfl
@[simp] theorem exec_bankZeroDone v0 v1 v2 s : exec (.bankZeroDone v0 v1 v2) s = execBankZeroDone v0 v1 v2 s := rfl
@[simp] theorem exec_bankScrubDone v0 v1 v2 v3 s : exec (.bankScrubDone v0 v1 v2 v3) s = execBankScrubDone v0 v1 v2 v3 s := rfl
@[simp] theorem exec_xcopyStart v0 v1 s : exec (.xcopyStart v0 v1) s = execXcopyStart v0 v1 s := rfl
@[simp] theorem exec_sluiceChunk v0 v1 s : exec (.sluiceChunk v0 v1) s = execSluiceChunk v0 v1 s := rfl
@[simp] theorem exec_xcopyEnd v0 v1 s : exec (.xcopyEnd v0 v1) s = execXcopyEnd v0 v1 s := rfl
@[simp] theorem exec_mqDeliver v0 v1 s : exec (.mqDeliver v0 v1) s = execMqDeliver v0 v1 s := rfl
@[simp] theorem exec_ssetBuildEnd v0 v1 s : exec (.ssetBuildEnd v0 v1) s = execSsetBuildEnd v0 v1 s := rfl
@[simp] theorem exec_rasterStageJob v0 v1 s : exec (.rasterStageJob v0 v1) s = execRasterStageJob v0 v1 s := rfl
@[simp] theorem exec_unitPublish v0 v1 s : exec (.unitPublish v0 v1) s = execUnitPublish v0 v1 s := rfl
@[simp] theorem exec_drawRelease v0 s : exec (.drawRelease v0) s = execDrawRelease v0 s := rfl
@[simp] theorem exec_keyAbandon v0 v1 s : exec (.keyAbandon v0 v1) s = execKeyAbandon v0 v1 s := rfl
@[simp] theorem exec_groupPreempt v0 s : exec (.groupPreempt v0) s = execGroupPreempt v0 s := rfl
@[simp] theorem exec_coreRestore v0 v1 s : exec (.coreRestore v0 v1) s = execCoreRestore v0 v1 s := rfl
@[simp] theorem exec_ctxSaveDone v0 s : exec (.ctxSaveDone v0) s = execCtxSaveDone v0 s := rfl
@[simp] theorem exec_ctxRestoreDone v0 s : exec (.ctxRestoreDone v0) s = execCtxRestoreDone v0 s := rfl
@[simp] theorem exec_ctxReleaseDone v0 s : exec (.ctxReleaseDone v0) s = execCtxReleaseDone v0 s := rfl
@[simp] theorem exec_queueResetDone v0 s : exec (.queueResetDone v0) s = execQueueResetDone v0 s := rfl
@[simp] theorem exec_tlbInvalDone s : exec .tlbInvalDone s = execTlbInvalDone s := rfl
@[simp] theorem exec_prioUpdateApply v0 v1 s : exec (.prioUpdateApply v0 v1) s = execPrioUpdateApply v0 v1 s := rfl
@[simp] theorem exec_remoteOpArrive v0 v1 v2 v3 v4 s : exec (.remoteOpArrive v0 v1 v2 v3 v4) s = execRemoteOpArrive v0 v1 v2 v3 v4 s := rfl
@[simp] theorem exec_generationNotice v0 v1 v2 s : exec (.generationNotice v0 v1 v2) s = execGenerationNotice v0 v1 v2 s := rfl
@[simp] theorem exec_linkTrainingStart v0 s : exec (.linkTrainingStart v0) s = execLinkTrainingStart v0 s := rfl
@[simp] theorem exec_linkTrained v0 v1 v2 s : exec (.linkTrained v0 v1 v2) s = execLinkTrained v0 v1 v2 s := rfl
@[simp] theorem exec_linkTrainingTimeout v0 s : exec (.linkTrainingTimeout v0) s = execLinkTrainingTimeout v0 s := rfl
@[simp] theorem exec_linkLaneLost v0 v1 s : exec (.linkLaneLost v0 v1) s = execLinkLaneLost v0 v1 s := rfl
@[simp] theorem exec_linkDown v0 s : exec (.linkDown v0) s = execLinkDown v0 s := rfl
@[simp] theorem exec_flitCrcError v0 s : exec (.flitCrcError v0) s = execFlitCrcError v0 s := rfl
@[simp] theorem exec_cxlMemRead v0 v1 s : exec (.cxlMemRead v0 v1) s = execCxlMemRead v0 v1 s := rfl
@[simp] theorem exec_cxlMemWrite v0 v1 s : exec (.cxlMemWrite v0 v1) s = execCxlMemWrite v0 v1 s := rfl
@[simp] theorem exec_cxlSnoop v0 s : exec (.cxlSnoop v0) s = execCxlSnoop v0 s := rfl
@[simp] theorem exec_resetRelease s : exec .resetRelease s = execResetRelease s := rfl
@[simp] theorem exec_powerLoss s : exec .powerLoss s = execPowerLoss s := rfl
@[simp] theorem exec_telemetryUpdate v0 v1 s : exec (.telemetryUpdate v0 v1) s = execTelemetryUpdate v0 v1 s := rfl
@[simp] theorem exec_thermalFailsafe s : exec .thermalFailsafe s = execThermalFailsafe s := rfl
@[simp] theorem exec_tickStop s : exec .tickStop s = execTickStop s := rfl
@[simp] theorem exec_pcSample v0 v1 s : exec (.pcSample v0 v1) s = execPcSample v0 v1 s := rfl
@[simp] theorem exec_pcComparatorMatch v0 s : exec (.pcComparatorMatch v0) s = execPcComparatorMatch v0 s := rfl
@[simp] theorem exec_agsleepWake v0 s : exec (.agsleepWake v0) s = execAgsleepWake v0 s := rfl
@[simp] theorem exec_reservedEncoding v0 s : exec (.reservedEncoding v0) s = execReservedEncoding v0 s := rfl
@[simp] theorem exec_scanChainShift v0 s : exec (.scanChainShift v0) s = execScanChainShift v0 s := rfl
@[simp] theorem exec_directedCommandAck v0 s : exec (.directedCommandAck v0) s = execDirectedCommandAck v0 s := rfl
@[simp] theorem exec_generationNoticeAck v0 v1 v2 s : exec (.generationNoticeAck v0 v1 v2) s = execGenerationNoticeAck v0 v1 v2 s := rfl

end Sys2Proof.Machine
end

