-- ==== Sys2Proof/Laws/Memory.lean ====
section
/-! SUPPORT. The laws of storage: a read after a write, what a write leaves alone, and the canonical form. -/
namespace Sys2Proof.Machine
open Sys2Proof

@[simp] theorem Memory.read_nil (x : Nat) : Memory.read [] x = 0 := rfl
@[simp] theorem Memory.wf_nil : Memory.wf [] = true := rfl

/-- A write leaves every other address alone. -/
theorem Memory.read_write_other (m : Memory) (x y : Nat) (v : Byte) (h : y ≠ x) : (m.write x v).read y = m.read y := by
  induction m with
  | nil => by_cases hv : v = 0#8 <;> simp [Memory.write, Memory.read, hv, Ne.symm h]
  | cons c t ih =>
    obtain ⟨a, b⟩ := c
    simp only [Memory.write]
    split
    · by_cases hv : v = 0#8 <;> simp [Memory.read, hv, Ne.symm h]
    · split
      · rename_i _ hx
        by_cases hv : v = 0#8 <;> simp [Memory.read, hv, Ne.symm h, ← hx]
      · simp [Memory.read, ih]

theorem Memory.wfFrom_mono {lo hi : Nat} {m : Memory} (h : lo ≤ hi) (w : m.wfFrom hi = true) : m.wfFrom lo = true := by
  cases m with
  | nil => rfl
  | cons c t =>
    simp only [Memory.wfFrom, Bool.and_eq_true, decide_eq_true_eq] at w ⊢
    exact ⟨⟨h.trans w.1.1, w.1.2⟩, w.2⟩

/-- Below the lowest listed address storage reads 0. -/
theorem Memory.read_below {lo x : Nat} {m : Memory} (w : m.wfFrom lo = true) (h : x < lo) : m.read x = 0 := by
  induction m generalizing lo with
  | nil => rfl
  | cons c t ih =>
    obtain ⟨a, b⟩ := c
    simp only [Memory.wfFrom, Bool.and_eq_true, decide_eq_true_eq] at w
    simp only [Memory.read, if_neg (show a ≠ x by omega)]
    exact ih w.2 (by omega)

theorem Memory.wfFrom_write {lo x : Nat} {m : Memory} {v : Byte} (w : m.wfFrom lo = true) (h : lo ≤ x) :
    (m.write x v).wfFrom lo = true := by
  induction m generalizing lo with
  | nil => by_cases hv : v = 0#8 <;> simp [Memory.write, Memory.wfFrom, hv, h]
  | cons c t ih =>
    obtain ⟨a, b⟩ := c
    simp only [Memory.wfFrom, Bool.and_eq_true, decide_eq_true_eq] at w
    obtain ⟨⟨wa, wb⟩, wt⟩ := w
    replace wb : ¬ b = 0#8 := wb
    simp only [Memory.write]
    split
    · rename_i hx
      by_cases hv : v = 0#8 <;> simp [Memory.wfFrom, hv, h, wa, wb, wt, hx]
    · split
      · rename_i _ hx
        subst hx
        by_cases hv : v = 0#8
        · simpa [hv] using Memory.wfFrom_mono (by omega) wt
        · simp [Memory.wfFrom, hv, h, wt]
      · simp [Memory.wfFrom, wa, wb, ih wt (by omega)]

theorem Memory.wf_write {m : Memory} (w : m.wf = true) (x : Nat) (v : Byte) : (m.write x v).wf = true :=
  Memory.wfFrom_write w (Nat.zero_le x)

/-- A read after a write to the same address gives the byte written. -/
theorem Memory.read_write_same {lo : Nat} {m : Memory} (w : m.wfFrom lo = true) (x : Nat) (v : Byte) : (m.write x v).read x = v := by
  induction m generalizing lo with
  | nil => by_cases hv : v = 0#8 <;> simp [Memory.write, Memory.read, hv]
  | cons c t ih =>
    obtain ⟨a, b⟩ := c
    have w' := w
    simp only [Memory.wfFrom, Bool.and_eq_true, decide_eq_true_eq] at w
    obtain ⟨⟨wa, wb⟩, wt⟩ := w
    simp only [Memory.write]
    split
    · rename_i hx
      by_cases hv : v = 0#8
      · subst hv
        simp only [BitVec.ofNat_eq_ofNat, if_true, Memory.read, if_neg (show a ≠ x by omega)]
        exact Memory.read_below wt (by omega)
      · simp [Memory.read, hv]
    · split
      · rename_i _ hx
        subst hx
        by_cases hv : v = 0#8
        · subst hv
          simpa using Memory.read_below wt (by omega)
        · simp [Memory.read, hv]
      · rename_i _ hx
        simp only [Memory.read, if_neg (Ne.symm hx)]
        exact ih wt

theorem Memory.read_write {m : Memory} (w : m.wf = true) (x y : Nat) (v : Byte) : (m.write x v).read y = if y = x then v else m.read y := by
  by_cases h : y = x
  · subst h; simp [Memory.read_write_same w]
  · simp [h, Memory.read_write_other _ _ _ _ h]

theorem Memory.wf_writeBytes {m : Memory} (w : m.wf = true) (a : Nat) (bs : List Byte) : (m.writeBytes a bs).wf = true := by
  induction bs generalizing m a with
  | nil => exact w
  | cons b t ih => exact ih (Memory.wf_write w a b) (a + 1)

/-- Bytes stored from an address up leave every address outside them alone. -/
theorem Memory.read_writeBytes_other (m : Memory) (a : Nat) (bs : List Byte) (y : Nat) (h : y < a ∨ a + bs.length ≤ y) :
    (m.writeBytes a bs).read y = m.read y := by
  induction bs generalizing m a with
  | nil => rfl
  | cons b t ih =>
    simp only [List.length_cons] at h
    simp only [Memory.writeBytes]
    rw [ih (m.write a b) (a + 1) (by omega), Memory.read_write_other _ _ _ _ (by omega)]

/-- Bytes stored from an address up are read there. -/
theorem Memory.read_writeBytes_at {m : Memory} (w : m.wf = true) (a : Nat) (bs : List Byte) (i : Nat) (h : i < bs.length) :
    (m.writeBytes a bs).read (a + i) = bs.getD i 0 := by
  induction bs generalizing m a i with
  | nil => simp at h
  | cons b t ih =>
    simp only [Memory.writeBytes]
    cases i with
    | zero => simp [Memory.read_writeBytes_other _ _ _ _ (Or.inl (Nat.lt_succ_self a)), Memory.read_write w]
    | succ i =>
      have := ih (Memory.wf_write w a b) (a + 1) i (by simpa using h)
      simpa [Nat.add_assoc, Nat.add_comm 1 i] using this

theorem Memory.wfFrom_filter {lo : Nat} {m : Memory} (w : m.wfFrom lo = true) (p : Host.Cell → Bool) : Memory.wfFrom lo (m.filter p) = true := by
  induction m generalizing lo with
  | nil => rfl
  | cons c t ih =>
    obtain ⟨a, b⟩ := c
    simp only [Memory.wfFrom, Bool.and_eq_true, decide_eq_true_eq] at w
    obtain ⟨⟨wa, wb⟩, wt⟩ := w
    replace wb : ¬ b = 0#8 := wb
    by_cases hp : p (a, b)
    · simp [List.filter, hp, Memory.wfFrom, wa, wb, ih wt]
    · simpa [List.filter, hp] using Memory.wfFrom_mono (by omega) (ih wt)

theorem Memory.wf_filter {m : Memory} (w : m.wf = true) (p : Host.Cell → Bool) : Memory.wf (m.filter p) = true :=
  Memory.wfFrom_filter w p

theorem Memory.wf_foldl_write {m : Memory} (w : m.wf = true) (l : List Host.Cell) (f : Host.Cell → Nat) :
    Memory.wf (l.foldl (fun (m : Memory) c => m.write (f c) c.2) m) = true := by
  induction l generalizing m with
  | nil => exact w
  | cons c t ih => exact ih (Memory.wf_write w _ _)

theorem Memory.wf_renumber {m : Memory} (w : m.wf = true) (old new : Nat) : (m.renumber old new).wf = true := by
  unfold Memory.renumber
  dsimp only
  split
  · exact w
  · exact Memory.wf_foldl_write (Memory.wf_filter w _) _ _

@[simp] theorem Memory.length_readBytes (m : Memory) (a n : Nat) : (m.readBytes a n).length = n := by
  induction n generalizing a with
  | zero => rfl
  | succ n ih => simp [Memory.readBytes, ih]

@[simp] theorem length_leBytes (x n : Nat) : (leBytes x n).length = n := by
  induction n generalizing x with
  | zero => rfl
  | succ n ih => simp [leBytes, ih]

/-- A part of bytes read is what stands there. -/
theorem Memory.readBytes_part (m : Memory) (a n k j : Nat) (h : k + j ≤ n) : ((m.readBytes a n).drop k).take j = m.readBytes (a + k) j := by
  induction k generalizing a n with
  | zero =>
    induction j generalizing a n with
    | zero => simp [Memory.readBytes]
    | succ j ih =>
      cases n with
      | zero => omega
      | succ n =>
        have := ih (a + 1) n (by omega)
        simp only [List.drop_zero, Nat.add_zero] at this ⊢
        rw [Memory.readBytes, List.take_succ_cons, Memory.readBytes, this]
  | succ k ih =>
    cases n with
    | zero => omega
    | succ n => rw [Memory.readBytes, List.drop_succ_cons, ih (a + 1) n (by omega)]; congr 1; omega

/-- Little-endian bytes hold the number modulo their width (R4). -/
theorem leNat_leBytes (x n : Nat) : leNat (leBytes x n) = x % 256 ^ n := by
  induction n generalizing x with
  | zero => simp [leBytes, leNat, Nat.mod_one]
  | succ n ih =>
    simp only [leBytes, leNat, ih, BitVec.toNat_ofNat, Nat.reducePow]
    rw [Nat.pow_succ, Nat.mul_comm (256 ^ n) 256, Nat.mod_mul]

end Sys2Proof.Machine
end

