-- ==== Sys2Proof/Laws/State.lean ====
section
/-! SUPPORT. What each update of the state leaves in each field. -/
namespace Sys2Proof.Machine
open Sys2Proof

@[simp] theorem State.setEnt_ent (s : State) (f : Entity → Entity) : (s.setEnt f).ent = f s.ent := rfl
@[simp] theorem State.setEnt_grp (s : State) (f : Entity → Entity) : (s.setEnt f).grp = s.grp := rfl
@[simp] theorem State.setEnt_team (s : State) (f : Entity → Entity) : (s.setEnt f).team = s.team := rfl
@[simp] theorem State.setEnt_core (s : State) (f : Entity → Entity) : (s.setEnt f).core = s.core := rfl
@[simp] theorem State.setEnt_teams (s : State) (f : Entity → Entity) : (s.setEnt f).teams = s.teams := rfl
@[simp] theorem State.setEnt_cores (s : State) (f : Entity → Entity) : (s.setEnt f).cores = s.cores := rfl
@[simp] theorem State.setEnt_dev (s : State) (f : Entity → Entity) : (s.setEnt f).dev = s.dev := rfl
@[simp] theorem State.setEnt_turns (s : State) (f : Entity → Entity) : (s.setEnt f).turns = s.turns := rfl
@[simp] theorem State.setEnt_fresh (s : State) (f : Entity → Entity) : (s.setEnt f).fresh = s.fresh := rfl
@[simp] theorem State.setEnt_nextOp (s : State) (f : Entity → Entity) : (s.setEnt f).nextOp = s.nextOp := rfl
@[simp] theorem State.setEnt_nextAge (s : State) (f : Entity → Entity) : (s.setEnt f).nextAge = s.nextAge := rfl
@[simp] theorem State.setEnt_nextTeam (s : State) (f : Entity → Entity) : (s.setEnt f).nextTeam = s.nextTeam := rfl

@[simp] theorem State.setDev_ent (s : State) (f : Device → Device) : (s.setDev f).ent = s.ent := rfl
@[simp] theorem State.setDev_grp (s : State) (f : Device → Device) : (s.setDev f).grp = s.grp := rfl
@[simp] theorem State.setDev_team (s : State) (f : Device → Device) : (s.setDev f).team = s.team := rfl
@[simp] theorem State.setDev_core (s : State) (f : Device → Device) : (s.setDev f).core = s.core := rfl
@[simp] theorem State.setDev_teams (s : State) (f : Device → Device) : (s.setDev f).teams = s.teams := rfl
@[simp] theorem State.setDev_cores (s : State) (f : Device → Device) : (s.setDev f).cores = s.cores := rfl
@[simp] theorem State.setDev_dev (s : State) (f : Device → Device) : (s.setDev f).dev = f s.dev := rfl
@[simp] theorem State.setDev_turns (s : State) (f : Device → Device) : (s.setDev f).turns = s.turns := rfl
@[simp] theorem State.setDev_fresh (s : State) (f : Device → Device) : (s.setDev f).fresh = s.fresh := rfl
@[simp] theorem State.setDev_nextOp (s : State) (f : Device → Device) : (s.setDev f).nextOp = s.nextOp := rfl
@[simp] theorem State.setDev_nextAge (s : State) (f : Device → Device) : (s.setDev f).nextAge = s.nextAge := rfl
@[simp] theorem State.setDev_nextTeam (s : State) (f : Device → Device) : (s.setDev f).nextTeam = s.nextTeam := rfl

@[simp] theorem State.raise_ent (s : State) (f : Flags) : (s.raise f).ent = s.ent := rfl
@[simp] theorem State.raise_grp (s : State) (f : Flags) : (s.raise f).grp = { s.grp with gs := s.grp.gs ||| f.setWidth 32 } := rfl
@[simp] theorem State.raise_team (s : State) (f : Flags) : (s.raise f).team = s.team := rfl
@[simp] theorem State.raise_core (s : State) (f : Flags) : (s.raise f).core = s.core := rfl
@[simp] theorem State.raise_teams (s : State) (f : Flags) : (s.raise f).teams = s.teams := rfl
@[simp] theorem State.raise_cores (s : State) (f : Flags) : (s.raise f).cores = s.cores := rfl
@[simp] theorem State.raise_dev (s : State) (f : Flags) : (s.raise f).dev = s.dev := rfl
@[simp] theorem State.raise_turns (s : State) (f : Flags) : (s.raise f).turns = s.turns := rfl
@[simp] theorem State.raise_fresh (s : State) (f : Flags) : (s.raise f).fresh = s.fresh := rfl
@[simp] theorem State.raise_nextOp (s : State) (f : Flags) : (s.raise f).nextOp = s.nextOp := rfl
@[simp] theorem State.raise_nextAge (s : State) (f : Flags) : (s.raise f).nextAge = s.nextAge := rfl
@[simp] theorem State.raise_nextTeam (s : State) (f : Flags) : (s.raise f).nextTeam = s.nextTeam := rfl

@[simp] theorem State.setS_ent (s : State) (n : Nat) (x : Word) : (s.setS n x).ent = s.ent := rfl
@[simp] theorem State.setS_grp (s : State) (n : Nat) (x : Word) : (s.setS n x).grp = s.grp.setSAt (s.sIndex n) x := rfl
@[simp] theorem State.setS_team (s : State) (n : Nat) (x : Word) : (s.setS n x).team = s.team := rfl
@[simp] theorem State.setS_core (s : State) (n : Nat) (x : Word) : (s.setS n x).core = s.core := rfl
@[simp] theorem State.setS_teams (s : State) (n : Nat) (x : Word) : (s.setS n x).teams = s.teams := rfl
@[simp] theorem State.setS_cores (s : State) (n : Nat) (x : Word) : (s.setS n x).cores = s.cores := rfl
@[simp] theorem State.setS_dev (s : State) (n : Nat) (x : Word) : (s.setS n x).dev = s.dev := rfl
@[simp] theorem State.setS_turns (s : State) (n : Nat) (x : Word) : (s.setS n x).turns = s.turns := rfl
@[simp] theorem State.setS_fresh (s : State) (n : Nat) (x : Word) : (s.setS n x).fresh = s.fresh := rfl
@[simp] theorem State.setS_nextOp (s : State) (n : Nat) (x : Word) : (s.setS n x).nextOp = s.nextOp := rfl
@[simp] theorem State.setS_nextAge (s : State) (n : Nat) (x : Word) : (s.setS n x).nextAge = s.nextAge := rfl
@[simp] theorem State.setS_nextTeam (s : State) (n : Nat) (x : Word) : (s.setS n x).nextTeam = s.nextTeam := rfl

@[simp] theorem State.setB_ent (s : State) (n : Nat) (x : VAddr) : (s.setB n x).ent = s.ent := rfl
@[simp] theorem State.setB_grp (s : State) (n : Nat) (x : VAddr) : (s.setB n x).grp = { s.grp with b := putAt 0 s.grp.b n x } := rfl
@[simp] theorem State.setB_team (s : State) (n : Nat) (x : VAddr) : (s.setB n x).team = s.team := rfl
@[simp] theorem State.setB_core (s : State) (n : Nat) (x : VAddr) : (s.setB n x).core = s.core := rfl
@[simp] theorem State.setB_teams (s : State) (n : Nat) (x : VAddr) : (s.setB n x).teams = s.teams := rfl
@[simp] theorem State.setB_cores (s : State) (n : Nat) (x : VAddr) : (s.setB n x).cores = s.cores := rfl
@[simp] theorem State.setB_dev (s : State) (n : Nat) (x : VAddr) : (s.setB n x).dev = s.dev := rfl
@[simp] theorem State.setB_turns (s : State) (n : Nat) (x : VAddr) : (s.setB n x).turns = s.turns := rfl
@[simp] theorem State.setB_fresh (s : State) (n : Nat) (x : VAddr) : (s.setB n x).fresh = s.fresh := rfl
@[simp] theorem State.setB_nextOp (s : State) (n : Nat) (x : VAddr) : (s.setB n x).nextOp = s.nextOp := rfl
@[simp] theorem State.setB_nextAge (s : State) (n : Nat) (x : VAddr) : (s.setB n x).nextAge = s.nextAge := rfl
@[simp] theorem State.setB_nextTeam (s : State) (n : Nat) (x : VAddr) : (s.setB n x).nextTeam = s.nextTeam := rfl

@[simp] theorem State.setW_ent (s : State) (n : Nat) (x : Word) (add : Bool) : (s.setW n x add).ent = s.ent := rfl
@[simp] theorem State.setW_grp (s : State) (n : Nat) (x : Word) (add : Bool) : (s.setW n x add).grp = s.grp := rfl
@[simp] theorem State.setW_team (s : State) (n : Nat) (x : Word) (add : Bool) : (s.setW n x add).team = { s.team with w := (s.setW n x add).team.w, wold := (s.setW n x add).team.wold } := rfl
@[simp] theorem State.setW_core (s : State) (n : Nat) (x : Word) (add : Bool) : (s.setW n x add).core = s.core := rfl
@[simp] theorem State.setW_teams (s : State) (n : Nat) (x : Word) (add : Bool) : (s.setW n x add).teams = s.teams := rfl
@[simp] theorem State.setW_cores (s : State) (n : Nat) (x : Word) (add : Bool) : (s.setW n x add).cores = s.cores := rfl
@[simp] theorem State.setW_dev (s : State) (n : Nat) (x : Word) (add : Bool) : (s.setW n x add).dev = s.dev := rfl
@[simp] theorem State.setW_turns (s : State) (n : Nat) (x : Word) (add : Bool) : (s.setW n x add).turns = s.turns := rfl
@[simp] theorem State.setW_fresh (s : State) (n : Nat) (x : Word) (add : Bool) : (s.setW n x add).fresh = s.fresh := rfl
@[simp] theorem State.setW_nextOp (s : State) (n : Nat) (x : Word) (add : Bool) : (s.setW n x add).nextOp = s.nextOp := rfl
@[simp] theorem State.setW_nextAge (s : State) (n : Nat) (x : Word) (add : Bool) : (s.setW n x add).nextAge = s.nextAge := rfl
@[simp] theorem State.setW_nextTeam (s : State) (n : Nat) (x : Word) (add : Bool) : (s.setW n x add).nextTeam = s.nextTeam := rfl

@[simp] theorem State.mapLanes_ent (s : State) (f : Nat → Lane → Lane) : (s.mapLanes f).ent = s.ent := rfl
@[simp] theorem State.mapLanes_grp (s : State) (f : Nat → Lane → Lane) : (s.mapLanes f).grp = s.grp.mapLanes f := rfl
@[simp] theorem State.mapLanes_team (s : State) (f : Nat → Lane → Lane) : (s.mapLanes f).team = s.team := rfl
@[simp] theorem State.mapLanes_core (s : State) (f : Nat → Lane → Lane) : (s.mapLanes f).core = s.core := rfl
@[simp] theorem State.mapLanes_teams (s : State) (f : Nat → Lane → Lane) : (s.mapLanes f).teams = s.teams := rfl
@[simp] theorem State.mapLanes_cores (s : State) (f : Nat → Lane → Lane) : (s.mapLanes f).cores = s.cores := rfl
@[simp] theorem State.mapLanes_dev (s : State) (f : Nat → Lane → Lane) : (s.mapLanes f).dev = s.dev := rfl
@[simp] theorem State.mapLanes_turns (s : State) (f : Nat → Lane → Lane) : (s.mapLanes f).turns = s.turns := rfl
@[simp] theorem State.mapLanes_fresh (s : State) (f : Nat → Lane → Lane) : (s.mapLanes f).fresh = s.fresh := rfl
@[simp] theorem State.mapLanes_nextOp (s : State) (f : Nat → Lane → Lane) : (s.mapLanes f).nextOp = s.nextOp := rfl
@[simp] theorem State.mapLanes_nextAge (s : State) (f : Nat → Lane → Lane) : (s.mapLanes f).nextAge = s.nextAge := rfl
@[simp] theorem State.mapLanes_nextTeam (s : State) (f : Nat → Lane → Lane) : (s.mapLanes f).nextTeam = s.nextTeam := rfl

@[simp] theorem State.setEM_ent (s : State) (m : Mask) : (s.setEM m).ent = { s.ent with em := m &&& s.live } := rfl
@[simp] theorem State.setEM_grp (s : State) (m : Mask) : (s.setEM m).grp = s.grp := rfl
@[simp] theorem State.setEM_team (s : State) (m : Mask) : (s.setEM m).team = s.team := rfl
@[simp] theorem State.setEM_core (s : State) (m : Mask) : (s.setEM m).core = s.core := rfl
@[simp] theorem State.setEM_teams (s : State) (m : Mask) : (s.setEM m).teams = s.teams := rfl
@[simp] theorem State.setEM_cores (s : State) (m : Mask) : (s.setEM m).cores = s.cores := rfl
@[simp] theorem State.setEM_dev (s : State) (m : Mask) : (s.setEM m).dev = s.dev := rfl
@[simp] theorem State.setEM_turns (s : State) (m : Mask) : (s.setEM m).turns = s.turns := rfl
@[simp] theorem State.setEM_fresh (s : State) (m : Mask) : (s.setEM m).fresh = s.fresh := rfl
@[simp] theorem State.setEM_nextOp (s : State) (m : Mask) : (s.setEM m).nextOp = s.nextOp := rfl
@[simp] theorem State.setEM_nextAge (s : State) (m : Mask) : (s.setEM m).nextAge = s.nextAge := rfl
@[simp] theorem State.setEM_nextTeam (s : State) (m : Mask) : (s.setEM m).nextTeam = s.nextTeam := rfl

@[simp] theorem State.dirty_ent (s : State) : (s.dirty).ent = s.ent.dirty := rfl
@[simp] theorem State.dirty_grp (s : State) : (s.dirty).grp = s.grp := rfl
@[simp] theorem State.dirty_team (s : State) : (s.dirty).team = s.team := rfl
@[simp] theorem State.dirty_core (s : State) : (s.dirty).core = s.core := rfl
@[simp] theorem State.dirty_teams (s : State) : (s.dirty).teams = s.teams := rfl
@[simp] theorem State.dirty_cores (s : State) : (s.dirty).cores = s.cores := rfl
@[simp] theorem State.dirty_dev (s : State) : (s.dirty).dev = s.dev := rfl
@[simp] theorem State.dirty_turns (s : State) : (s.dirty).turns = s.turns := rfl
@[simp] theorem State.dirty_fresh (s : State) : (s.dirty).fresh = s.fresh := rfl
@[simp] theorem State.dirty_nextOp (s : State) : (s.dirty).nextOp = s.nextOp := rfl
@[simp] theorem State.dirty_nextAge (s : State) : (s.dirty).nextAge = s.nextAge := rfl
@[simp] theorem State.dirty_nextTeam (s : State) : (s.dirty).nextTeam = s.nextTeam := rfl

@[simp] theorem State.finish_ent (s : State) (pc : Word) : (s.finish pc).ent = s.ent.finish pc := rfl
@[simp] theorem State.finish_grp (s : State) (pc : Word) : (s.finish pc).grp = s.grp := rfl
@[simp] theorem State.finish_team (s : State) (pc : Word) : (s.finish pc).team = s.team := rfl
@[simp] theorem State.finish_core (s : State) (pc : Word) : (s.finish pc).core = s.core := rfl
@[simp] theorem State.finish_teams (s : State) (pc : Word) : (s.finish pc).teams = s.teams := rfl
@[simp] theorem State.finish_cores (s : State) (pc : Word) : (s.finish pc).cores = s.cores := rfl
@[simp] theorem State.finish_dev (s : State) (pc : Word) : (s.finish pc).dev = s.dev := rfl
@[simp] theorem State.finish_turns (s : State) (pc : Word) : (s.finish pc).turns = s.turns := rfl
@[simp] theorem State.finish_fresh (s : State) (pc : Word) : (s.finish pc).fresh = s.fresh := rfl
@[simp] theorem State.finish_nextOp (s : State) (pc : Word) : (s.finish pc).nextOp = s.nextOp := rfl
@[simp] theorem State.finish_nextAge (s : State) (pc : Word) : (s.finish pc).nextAge = s.nextAge := rfl
@[simp] theorem State.finish_nextTeam (s : State) (pc : Word) : (s.finish pc).nextTeam = s.nextTeam := rfl

@[simp] theorem State.setCtx_ent (s : State) (c : Ctx) : (s.setCtx c).ent = s.ent := rfl
@[simp] theorem State.setCtx_grp (s : State) (c : Ctx) : (s.setCtx c).grp = s.grp := rfl
@[simp] theorem State.setCtx_team (s : State) (c : Ctx) : (s.setCtx c).team = s.team := rfl
@[simp] theorem State.setCtx_core (s : State) (c : Ctx) : (s.setCtx c).core = s.core := rfl
@[simp] theorem State.setCtx_teams (s : State) (c : Ctx) : (s.setCtx c).teams = s.teams := rfl
@[simp] theorem State.setCtx_cores (s : State) (c : Ctx) : (s.setCtx c).cores = s.cores := rfl
@[simp] theorem State.setCtx_dev (s : State) (c : Ctx) : (s.setCtx c).dev = { s.dev with ctxs := upsert (fun k => k.num = c.num) c s.dev.ctxs } := rfl
@[simp] theorem State.setCtx_turns (s : State) (c : Ctx) : (s.setCtx c).turns = s.turns := rfl
@[simp] theorem State.setCtx_fresh (s : State) (c : Ctx) : (s.setCtx c).fresh = s.fresh := rfl
@[simp] theorem State.setCtx_nextOp (s : State) (c : Ctx) : (s.setCtx c).nextOp = s.nextOp := rfl
@[simp] theorem State.setCtx_nextAge (s : State) (c : Ctx) : (s.setCtx c).nextAge = s.nextAge := rfl
@[simp] theorem State.setCtx_nextTeam (s : State) (c : Ctx) : (s.setCtx c).nextTeam = s.nextTeam := rfl

@[simp] theorem State.setQueue_ent (s : State) (q : Queue) : (s.setQueue q).ent = s.ent := rfl
@[simp] theorem State.setQueue_grp (s : State) (q : Queue) : (s.setQueue q).grp = s.grp := rfl
@[simp] theorem State.setQueue_team (s : State) (q : Queue) : (s.setQueue q).team = s.team := rfl
@[simp] theorem State.setQueue_core (s : State) (q : Queue) : (s.setQueue q).core = s.core := rfl
@[simp] theorem State.setQueue_teams (s : State) (q : Queue) : (s.setQueue q).teams = s.teams := rfl
@[simp] theorem State.setQueue_cores (s : State) (q : Queue) : (s.setQueue q).cores = s.cores := rfl
@[simp] theorem State.setQueue_dev (s : State) (q : Queue) : (s.setQueue q).dev = { s.dev with queues := upsert (fun k => k.num = q.num) q s.dev.queues } := rfl
@[simp] theorem State.setQueue_turns (s : State) (q : Queue) : (s.setQueue q).turns = s.turns := rfl
@[simp] theorem State.setQueue_fresh (s : State) (q : Queue) : (s.setQueue q).fresh = s.fresh := rfl
@[simp] theorem State.setQueue_nextOp (s : State) (q : Queue) : (s.setQueue q).nextOp = s.nextOp := rfl
@[simp] theorem State.setQueue_nextAge (s : State) (q : Queue) : (s.setQueue q).nextAge = s.nextAge := rfl
@[simp] theorem State.setQueue_nextTeam (s : State) (q : Queue) : (s.setQueue q).nextTeam = s.nextTeam := rfl

@[simp] theorem State.setPort_ent (s : State) (p : Port) : (s.setPort p).ent = s.ent := rfl
@[simp] theorem State.setPort_grp (s : State) (p : Port) : (s.setPort p).grp = s.grp := rfl
@[simp] theorem State.setPort_team (s : State) (p : Port) : (s.setPort p).team = s.team := rfl
@[simp] theorem State.setPort_core (s : State) (p : Port) : (s.setPort p).core = s.core := rfl
@[simp] theorem State.setPort_teams (s : State) (p : Port) : (s.setPort p).teams = s.teams := rfl
@[simp] theorem State.setPort_cores (s : State) (p : Port) : (s.setPort p).cores = s.cores := rfl
@[simp] theorem State.setPort_dev (s : State) (p : Port) : (s.setPort p).dev = { s.dev with ports := upsert (fun k => k.num = p.num) p s.dev.ports } := rfl
@[simp] theorem State.setPort_turns (s : State) (p : Port) : (s.setPort p).turns = s.turns := rfl
@[simp] theorem State.setPort_fresh (s : State) (p : Port) : (s.setPort p).fresh = s.fresh := rfl
@[simp] theorem State.setPort_nextOp (s : State) (p : Port) : (s.setPort p).nextOp = s.nextOp := rfl
@[simp] theorem State.setPort_nextAge (s : State) (p : Port) : (s.setPort p).nextAge = s.nextAge := rfl
@[simp] theorem State.setPort_nextTeam (s : State) (p : Port) : (s.setPort p).nextTeam = s.nextTeam := rfl

@[simp] theorem State.setLaunch_ent (s : State) (l : Launch) : (s.setLaunch l).ent = s.ent := rfl
@[simp] theorem State.setLaunch_grp (s : State) (l : Launch) : (s.setLaunch l).grp = s.grp := rfl
@[simp] theorem State.setLaunch_team (s : State) (l : Launch) : (s.setLaunch l).team = s.team := rfl
@[simp] theorem State.setLaunch_core (s : State) (l : Launch) : (s.setLaunch l).core = s.core := rfl
@[simp] theorem State.setLaunch_teams (s : State) (l : Launch) : (s.setLaunch l).teams = s.teams := rfl
@[simp] theorem State.setLaunch_cores (s : State) (l : Launch) : (s.setLaunch l).cores = s.cores := rfl
@[simp] theorem State.setLaunch_dev (s : State) (l : Launch) : (s.setLaunch l).dev = { s.dev with launches := upsert (fun k => k.id = l.id) l s.dev.launches } := rfl
@[simp] theorem State.setLaunch_turns (s : State) (l : Launch) : (s.setLaunch l).turns = s.turns := rfl
@[simp] theorem State.setLaunch_fresh (s : State) (l : Launch) : (s.setLaunch l).fresh = s.fresh := rfl
@[simp] theorem State.setLaunch_nextOp (s : State) (l : Launch) : (s.setLaunch l).nextOp = s.nextOp := rfl
@[simp] theorem State.setLaunch_nextAge (s : State) (l : Launch) : (s.setLaunch l).nextAge = s.nextAge := rfl
@[simp] theorem State.setLaunch_nextTeam (s : State) (l : Launch) : (s.setLaunch l).nextTeam = s.nextTeam := rfl

@[simp] theorem State.setDraw_ent (s : State) (l : Draw) : (s.setDraw l).ent = s.ent := rfl
@[simp] theorem State.setDraw_grp (s : State) (l : Draw) : (s.setDraw l).grp = s.grp := rfl
@[simp] theorem State.setDraw_team (s : State) (l : Draw) : (s.setDraw l).team = s.team := rfl
@[simp] theorem State.setDraw_core (s : State) (l : Draw) : (s.setDraw l).core = s.core := rfl
@[simp] theorem State.setDraw_teams (s : State) (l : Draw) : (s.setDraw l).teams = s.teams := rfl
@[simp] theorem State.setDraw_cores (s : State) (l : Draw) : (s.setDraw l).cores = s.cores := rfl
@[simp] theorem State.setDraw_dev (s : State) (l : Draw) : (s.setDraw l).dev = { s.dev with draws := upsert (fun k => k.id = l.id) l s.dev.draws } := rfl
@[simp] theorem State.setDraw_turns (s : State) (l : Draw) : (s.setDraw l).turns = s.turns := rfl
@[simp] theorem State.setDraw_fresh (s : State) (l : Draw) : (s.setDraw l).fresh = s.fresh := rfl
@[simp] theorem State.setDraw_nextOp (s : State) (l : Draw) : (s.setDraw l).nextOp = s.nextOp := rfl
@[simp] theorem State.setDraw_nextAge (s : State) (l : Draw) : (s.setDraw l).nextAge = s.nextAge := rfl
@[simp] theorem State.setDraw_nextTeam (s : State) (l : Draw) : (s.setDraw l).nextTeam = s.nextTeam := rfl

@[simp] theorem State.store_ent (s : State) (a : Nat) (bs : List Byte) : (s.store a bs).ent = s.ent := rfl
@[simp] theorem State.store_grp (s : State) (a : Nat) (bs : List Byte) : (s.store a bs).grp = s.grp := rfl
@[simp] theorem State.store_team (s : State) (a : Nat) (bs : List Byte) : (s.store a bs).team = s.team := rfl
@[simp] theorem State.store_core (s : State) (a : Nat) (bs : List Byte) : (s.store a bs).core = s.core := rfl
@[simp] theorem State.store_teams (s : State) (a : Nat) (bs : List Byte) : (s.store a bs).teams = s.teams := rfl
@[simp] theorem State.store_cores (s : State) (a : Nat) (bs : List Byte) : (s.store a bs).cores = s.cores := rfl
@[simp] theorem State.store_dev (s : State) (a : Nat) (bs : List Byte) : (s.store a bs).dev = { s.dev with mem := s.dev.mem.writeBytes a bs, poison := s.dev.poison.filter fun p => p < a || a + bs.length ≤ p } := rfl
@[simp] theorem State.store_turns (s : State) (a : Nat) (bs : List Byte) : (s.store a bs).turns = s.turns := rfl
@[simp] theorem State.store_fresh (s : State) (a : Nat) (bs : List Byte) : (s.store a bs).fresh = s.fresh := rfl
@[simp] theorem State.store_nextOp (s : State) (a : Nat) (bs : List Byte) : (s.store a bs).nextOp = s.nextOp := rfl
@[simp] theorem State.store_nextAge (s : State) (a : Nat) (bs : List Byte) : (s.store a bs).nextAge = s.nextAge := rfl
@[simp] theorem State.store_nextTeam (s : State) (a : Nat) (bs : List Byte) : (s.store a bs).nextTeam = s.nextTeam := rfl

@[simp] theorem State.addOp_ent (s : State) (o : Op) : (s.addOp o).ent = s.ent := rfl
@[simp] theorem State.addOp_grp (s : State) (o : Op) : (s.addOp o).grp = { s.grp with ops := s.grp.ops ++ [{ o with id := s.nextOp, ent := s.ent.num, after := s.grp.precede s.ent o }] } := rfl
@[simp] theorem State.addOp_team (s : State) (o : Op) : (s.addOp o).team = s.team := rfl
@[simp] theorem State.addOp_core (s : State) (o : Op) : (s.addOp o).core = s.core := rfl
@[simp] theorem State.addOp_teams (s : State) (o : Op) : (s.addOp o).teams = s.teams := rfl
@[simp] theorem State.addOp_cores (s : State) (o : Op) : (s.addOp o).cores = s.cores := rfl
@[simp] theorem State.addOp_dev (s : State) (o : Op) : (s.addOp o).dev = s.dev := rfl
@[simp] theorem State.addOp_turns (s : State) (o : Op) : (s.addOp o).turns = s.turns := rfl
@[simp] theorem State.addOp_fresh (s : State) (o : Op) : (s.addOp o).fresh = s.fresh := rfl
@[simp] theorem State.addOp_nextOp (s : State) (o : Op) : (s.addOp o).nextOp = s.nextOp + 1 := rfl
@[simp] theorem State.addOp_nextAge (s : State) (o : Op) : (s.addOp o).nextAge = s.nextAge := rfl
@[simp] theorem State.addOp_nextTeam (s : State) (o : Op) : (s.addOp o).nextTeam = s.nextTeam := rfl

@[simp] theorem State.showWords_ent (s : State) : s.showWords.ent = s.ent := rfl
@[simp] theorem State.showWords_grp (s : State) : s.showWords.grp = s.grp := rfl
@[simp] theorem State.showWords_team (s : State) : s.showWords.team = { s.team with wold := settleWords s.grp.loc [] s.team.wold } := rfl
@[simp] theorem State.showWords_core (s : State) : s.showWords.core = s.core := rfl
@[simp] theorem State.showWords_teams (s : State) : s.showWords.teams = s.teams := rfl
@[simp] theorem State.showWords_cores (s : State) : s.showWords.cores = s.cores := rfl
@[simp] theorem State.showWords_dev (s : State) : s.showWords.dev = s.dev := rfl
@[simp] theorem State.showWords_turns (s : State) : s.showWords.turns = s.turns := rfl
@[simp] theorem State.showWords_fresh (s : State) : s.showWords.fresh = s.fresh := rfl
@[simp] theorem State.showWords_nextOp (s : State) : s.showWords.nextOp = s.nextOp := rfl
@[simp] theorem State.showWords_nextAge (s : State) : s.showWords.nextAge = s.nextAge := rfl
@[simp] theorem State.showWords_nextTeam (s : State) : s.showWords.nextTeam = s.nextTeam := rfl
@[simp] theorem State.showWords_wreg (s : State) (n : Nat) : s.showWords.wreg n = s.wreg n := rfl

/-- A team word reads as it stands, or as it stood before a recent write (R121). -/
theorem State.wseen_mem (s : State) (n : Nat) : s.wseen n = s.wreg n ∨ s.wseen n ∈ s.wordsSeen n := by
  have h : s.wseen n ∈ s.wreg n :: s.wordsSeen n := by
    unfold State.wseen
    rw [List.getD_eq_getElem _ _ (Nat.mod_lt _ (by simp))]
    exact List.getElem_mem _
  simpa using h

/-- A group that has written a word itself reads it as it stands. -/
theorem State.wseen_own {s : State} {n : Nat} {o : WOld} {r : List WOld}
    (h : (s.team.wold.filter fun o => o.reg = n) = o :: r) (ho : o.by_ = s.grp.loc) : s.wseen n = s.wreg n := by
  simp [State.wseen, State.wordsSeen, h, ho, Nat.mod_one]

end Sys2Proof.Machine
end

