-- ==== Sys2Proof/Laws/Vector.lean ====
section
/-! SUPPORT. What the shared vector operations do: register writes and pushes, the checks, a whole form. -/
namespace Sys2Proof.Machine
open Sys2Proof

theorem getD_putAt {α : Type} (d : α) (l : List α) (i j : Nat) (x : α) : (putAt d l i x).getD j d = if j = i then x else l.getD j d := by
  induction l generalizing i j with
  | nil =>
    induction i generalizing j with
    | zero => cases j <;> simp [putAt]
    | succ i ih => cases j with
      | zero => simp [putAt]
      | succ j => simpa [putAt] using ih j
  | cons a t ih =>
    cases i with
    | zero => cases j <;> simp [putAt]
    | succ i => cases j with
      | zero => simp [putAt]
      | succ j => simpa [putAt] using ih i j

@[simp] theorem Lane.reg_setReg (l : Lane) (r k : Nat) (x : Word) : (l.setReg r x).reg k = if k = r then x else l.reg k :=
  getD_putAt 0 l.v r k x
@[simp] theorem Lane.setReg_q (l : Lane) (r : Nat) (x : Word) : (l.setReg r x).q = l.q := rfl
@[simp] theorem Lane.setReg_p (l : Lane) (r : Nat) (x : Word) : (l.setReg r x).p = l.p := rfl
@[simp] theorem Lane.setReg_use (l : Lane) (r : Nat) (x : Word) : (l.setReg r x).use = l.use := rfl
@[simp] theorem Lane.reg_push (l : Lane) (e : QEntry) (k : Nat) : (l.push e).reg k = l.reg k := rfl
@[simp] theorem Lane.push_v (l : Lane) (e : QEntry) : (l.push e).v = l.v := rfl
@[simp] theorem Lane.push_q (l : Lane) (e : QEntry) : (l.push e).q = e :: l.q.take 15 := rfl
@[simp] theorem Lane.push_p (l : Lane) (e : QEntry) : (l.push e).p = l.p := rfl
@[simp] theorem Lane.push_use (l : Lane) (e : QEntry) : (l.push e).use = l.use := rfl

theorem Group.lane_mapLanes (g : Group) (f : Nat → Lane → Lane) (i : Nat) (h : i < g.width) : (g.mapLanes f).lane i = f i (g.lane i) := by
  simp [Group.mapLanes, Group.lane, List.getD_eq_getElem?_getD, h]

/-- The frame of an update of lanes. -/
theorem Group.mapLanes_frame (g : Group) (f : Nat → Lane → Lane) : g.mapLanes f = { g with lanes := (g.mapLanes f).lanes } := rfl

theorem State.vecCheck_none {s : State} {d : BitVec 7} {srcs : List Src} {third : List (BitVec 8)}
    (h : s.Ready d (srcs.map Src.code ++ third)) : s.vecCheck d srcs third s.activeLanes = none := by
  have hs : firstBad s.srcBad srcs = none := by
    simp only [firstBad, List.find?_eq_none, Bool.not_eq_true]
    exact fun x hx => h.sources _ (List.mem_append_left _ (List.mem_map_of_mem hx))
  have hp : (srcs.map Src.code ++ third).any (s.pendingIn s.activeLanes) = false := by
    simp only [List.any_eq_false, Bool.not_eq_true]
    exact h.settled
  simp only [State.vecCheck, h.dest, hs, hp, h.destSettled, Bool.false_eq_true, if_false, Bool.or_self]

theorem State.vecWrite_result (s : State) (len : Nat) (d : BitVec 7) (r : Nat → Word) (f : Flags) :
    VecResult len d r f s (((s.vecWrite d r).raise f).finish (s.ent.pc + BitVec.ofNat 32 len)) where
  frame := rfl
  named i h k := by
    have : (((s.vecWrite d r).raise f).finish (s.ent.pc + BitVec.ofNat 32 len)).grp.lane i = (s.vecWrite d r).grp.lane i := rfl
    rw [this]
    simp only [State.vecWrite, State.mapLanes, Group.lane_mapLanes _ _ _ h, State.computes]
    rcases Bool.eq_false_or_eq_true (s.inL i) with hl | hl <;> rcases Bool.eq_false_or_eq_true (s.active i) with ha | ha <;>
      rcases Bool.eq_false_or_eq_true d[6] with h6 | h6 <;> by_cases hd : d.toNat % 64 = 0x3F <;>
      simp [hl, ha, h6, hd]
    all_goals by_cases hk : k = d.toNat % 64 <;> simp_all
  queue i h := by
    have : (((s.vecWrite d r).raise f).finish (s.ent.pc + BitVec.ofNat 32 len)).grp.lane i = (s.vecWrite d r).grp.lane i := rfl
    rw [this]
    simp only [State.vecWrite, State.mapLanes, Group.lane_mapLanes _ _ _ h]
    rcases Bool.eq_false_or_eq_true (s.inL i) with hl | hl <;> rcases Bool.eq_false_or_eq_true (s.active i) with ha | ha <;>
      rcases Bool.eq_false_or_eq_true d[6] with h6 | h6 <;> by_cases hd : d.toNat % 64 = 0x3F <;>
      simp [hl, ha, h6, hd]
  preds i h := by
    have : (((s.vecWrite d r).raise f).finish (s.ent.pc + BitVec.ofNat 32 len)).grp.lane i = (s.vecWrite d r).grp.lane i := rfl
    rw [this]
    simp only [State.vecWrite, State.mapLanes, Group.lane_mapLanes _ _ _ h]
    rcases Bool.eq_false_or_eq_true (s.inL i) with hl | hl <;> rcases Bool.eq_false_or_eq_true (s.active i) with ha | ha <;>
      rcases Bool.eq_false_or_eq_true d[6] with h6 | h6 <;> by_cases hd : d.toNat % 64 = 0x3F <;>
      simp [hl, ha, h6, hd]
  uses i h := by
    have : (((s.vecWrite d r).raise f).finish (s.ent.pc + BitVec.ofNat 32 len)).grp.lane i = (s.vecWrite d r).grp.lane i := rfl
    rw [this]
    simp only [State.vecWrite, State.mapLanes, Group.lane_mapLanes _ _ _ h]
    rcases Bool.eq_false_or_eq_true (s.inL i) with hl | hl <;> rcases Bool.eq_false_or_eq_true (s.active i) with ha | ha <;>
      rcases Bool.eq_false_or_eq_true d[6] with h6 | h6 <;> by_cases hd : d.toNat % 64 = 0x3F <;>
      simp [hl, ha, h6, hd]

/-- A form whose operands are ready and that raises no enabled condition retires with its result. -/
theorem State.vecForm_result {s : State} {d : BitVec 7} {srcs : List Src} {third : List (BitVec 8)} (len : Nat) (f : Nat → Word × Flags)
    (h : s.Ready d (srcs.map Src.code ++ third)) (e : orFlags (fun i => (f i).2) s.activeLanes &&& gcEnable s.grp.gc = 0) :
    ∃ t, commit len s (s.vecForm d srcs third f) = .next t ∧ VecResult len d (fun i => (f i).1) (orFlags (fun i => (f i).2) s.activeLanes) s t := by
  refine ⟨_, ?_, s.vecWrite_result len d _ _⟩
  simp only [State.vecForm, State.vecCheck_none h, State.retireFlags, e, if_true, commit]

/-- One that raises an enabled condition completes and traps. -/
theorem State.vecForm_traps {s : State} {d : BitVec 7} {srcs : List Src} {third : List (BitVec 8)} (len : Nat) (f : Nat → Word × Flags)
    (h : s.Ready d (srcs.map Src.code ++ third)) (e : orFlags (fun i => (f i).2) s.activeLanes &&& gcEnable s.grp.gc ≠ 0) :
    ∃ t, commit len s (s.vecForm d srcs third f) = .next t ∧ TrapsAfter len (fun i => (f i).2) s
      (VecResult len d (fun i => (f i).1) (orFlags (fun i => (f i).2) s.activeLanes) s) t := by
  refine ⟨_, ?_, _, s.vecWrite_result len d _ _, rfl⟩
  simp only [State.vecForm, State.vecCheck_none h, State.retireFlags, e, if_false, commit]

theorem getLsbD_setBit : ∀ (q : BitVec 4) (p : BitVec 2) (k : Fin 4),
    (q ||| 1#4 <<< p.toNat).getLsbD k = if k.val = p.toNat then true else q.getLsbD k := by decide
theorem getLsbD_clearBit : ∀ (q : BitVec 4) (p : BitVec 2) (k : Fin 4),
    (q &&& ~~~ (1#4 <<< p.toNat)).getLsbD k = if k.val = p.toNat then false else q.getLsbD k := by decide

theorem State.predWrite_result (s : State) (p : BitVec 2) (r : Nat → Bool) (f : Flags) :
    PredResult p r f s (((s.predWrite p r).raise f).finish (s.ent.pc + 4)) where
  frame := rfl
  preds i h k hk := by
    have : (((s.predWrite p r).raise f).finish (s.ent.pc + 4)).grp.lane i = (s.predWrite p r).grp.lane i := rfl
    rw [this]
    simp only [State.predWrite, State.mapLanes, Group.lane_mapLanes _ _ _ h, State.computes]
    by_cases hc : s.inL i && s.active i
    · by_cases hr : r i
      · simpa [hc, hr] using getLsbD_setBit (s.grp.lane i).p p ⟨k, hk⟩
      · simpa [hc, hr] using getLsbD_clearBit (s.grp.lane i).p p ⟨k, hk⟩
    · simp [hc]
  lanes i h := by
    have : (((s.predWrite p r).raise f).finish (s.ent.pc + 4)).grp.lane i = (s.predWrite p r).grp.lane i := rfl
    rw [this]
    simp only [State.predWrite, State.mapLanes, Group.lane_mapLanes _ _ _ h]
    by_cases hc : s.inL i && s.active i <;> simp [hc]

theorem State.predForm_result {s : State} {p : BitVec 2} {srcs : List Src} (f : Nat → Bool × Flags)
    (h : s.Ready 0x3F (srcs.map Src.code)) (e : orFlags (fun i => (f i).2) s.activeLanes &&& gcEnable s.grp.gc = 0) :
    ∃ t, commit 4 s (s.predForm p srcs f) = .next t ∧ PredResult p (fun i => (f i).1) (orFlags (fun i => (f i).2) s.activeLanes) s t := by
  have h' : s.Ready 0x3F (srcs.map Src.code ++ []) := by simpa using h
  refine ⟨_, ?_, s.predWrite_result p _ _⟩
  simp only [State.predForm, State.vecCheck_none h', State.retireFlags, e, if_true, commit]
  rfl

theorem State.vecForm_done {s : State} {d : BitVec 7} {srcs : List Src} {third : List (BitVec 8)} (len : Nat) (f : Nat → Word × Flags)
    (h : s.Ready d (srcs.map Src.code ++ third)) : ∃ t, commit len s (s.vecForm d srcs third f) = .next t ∧ VecDone len d f s t := by
  unfold VecDone
  split
  · exact s.vecForm_result len f h ‹_›
  · exact s.vecForm_traps len f h ‹_›

theorem State.predForm_traps {s : State} {p : BitVec 2} {srcs : List Src} (f : Nat → Bool × Flags)
    (h : s.Ready 0x3F (srcs.map Src.code)) (e : orFlags (fun i => (f i).2) s.activeLanes &&& gcEnable s.grp.gc ≠ 0) :
    ∃ t, commit 4 s (s.predForm p srcs f) = .next t ∧ TrapsAfter 4 (fun i => (f i).2) s
      (PredResult p (fun i => (f i).1) (orFlags (fun i => (f i).2) s.activeLanes) s) t := by
  have h' : s.Ready 0x3F (srcs.map Src.code ++ []) := by simpa using h
  refine ⟨_, ?_, _, s.predWrite_result p _ _, rfl⟩
  simp only [State.predForm, State.vecCheck_none h', State.retireFlags, e, if_false, commit]
  rfl

theorem State.predForm_done {s : State} {p : BitVec 2} {srcs : List Src} (f : Nat → Bool × Flags)
    (h : s.Ready 0x3F (srcs.map Src.code)) : ∃ t, commit 4 s (s.predForm p srcs f) = .next t ∧ PredDone p f s t := by
  unfold PredDone
  split
  · exact s.predForm_result f h ‹_›
  · exact s.predForm_traps f h ‹_›

/-- The bits of a lane mask. -/
theorem getLsbD_laneMask (f : Nat → Bool) (n k : Nat) (hk : k < 64) : (laneMask f n).getLsbD k = (decide (k < n) && f k) := by
  induction n with
  | zero => simp [laneMask]
  | succ n ih =>
    have h1 : ((1#64) <<< n).getLsbD k = decide (k = n) := by
      rw [BitVec.getLsbD_shiftLeft, BitVec.getLsbD_one]
      by_cases h : k = n
      · subst h; simp; omega
      · simp [h]; omega
    have e : laneMask f (n + 1) = laneMask f n ||| (if f n then 1#64 <<< n else 0#64) := rfl
    rw [e, BitVec.getLsbD_or, ih]
    rcases Nat.lt_trichotomy k n with h | h | h
    · cases hf : f n <;> simp only [if_true, Bool.false_eq_true, if_false, h1] <;> simp [h, Nat.lt_succ_of_lt h, Nat.ne_of_lt h]
    · subst h
      cases hf : f k <;> simp only [if_true, Bool.false_eq_true, if_false, h1] <;> simp
    · cases hf : f n <;> simp only [if_true, Bool.false_eq_true, if_false, h1] <;>
        simp [Nat.not_lt_of_gt h, Nat.ne_of_gt h, show ¬ k < n + 1 by omega]

theorem laneMask_eq {f g : Nat → Bool} {n m : Nat} :
    laneMask f n = laneMask g m ↔ ∀ k < 64, (decide (k < n) && f k) = (decide (k < m) && g k) := by
  constructor
  · intro h k hk
    rw [← getLsbD_laneMask f n k hk, ← getLsbD_laneMask g m k hk, h]
  · intro h
    refine BitVec.eq_of_getLsbD_eq fun k hk => ?_
    rw [getLsbD_laneMask f n k hk, getLsbD_laneMask g m k hk, h k hk]

theorem laneMask_ne_zero {f : Nat → Bool} {n : Nat} : laneMask f n ≠ 0 ↔ ∃ k < 64, k < n ∧ f k = true := by
  have h : laneMask f n = laneMask (fun _ => false) 0 ↔ _ := laneMask_eq
  rw [show laneMask (fun _ => false) 0 = 0 from rfl] at h
  rw [Ne, h]
  push Not
  simp

theorem getLsbD_wordOf (f : Nat → Bool) (k : Nat) (h : k < 32) : (wordOf f).getLsbD k = f k := by
  rw [wordOf, BitVec.getLsbD_setWidth, getLsbD_laneMask _ _ _ (by omega)]
  simp [h]

/-- A form that raises nothing has its plain result. -/
theorem orFlags_zero (l : List Nat) : orFlags (fun _ => 0#7) l = 0#7 := by
  induction l with
  | nil => rfl
  | cons a t ih => simpa [orFlags] using ih

theorem VecDone.plain {len : Nat} {d : BitVec 7} {r : Nat → Word} {s t : State} (h : VecDone len d (fun i => (r i, 0)) s t) :
    VecResult len d r 0 s t := by
  simpa [VecDone, orFlags_zero] using h

theorem PredDone.plain {p : BitVec 2} {r : Nat → Bool} {s t : State} (h : PredDone p (fun i => (r i, 0)) s t) :
    PredResult p r 0 s t := by
  simpa [PredDone, orFlags_zero] using h

/-- The write of a pair form. -/
theorem State.pairWrite_result (s : State) (d : BitVec 7) (r : Nat → BitVec 64) :
    PairResult d r s ((s.mapLanes fun i l =>
      if s.inL i then
        let x := if s.active i then r i else 0
        let l := if s.active i && decide (d.toNat % 64 ≠ 0x3F) then (l.setReg (d.toNat % 64) (x.setWidth 32)).setReg (d.toNat % 64 + 1) ((x >>> 32).setWidth 32) else l
        if d.getLsbD 6 then l else (l.push { val := (x >>> 32).setWidth 32 }).push { val := x.setWidth 32 }
      else l).finish (s.ent.pc + 4)) where
  frame := rfl
  named i h k := by
    refine (congrArg (fun l : Lane => l.reg k) (Group.lane_mapLanes _ _ _ h)).trans ?_
    by_cases hl : s.inL i <;> by_cases ha : s.active i <;> by_cases h6 : d[6] <;> by_cases hd : d.toNat % 64 = 0x3F <;>
      simp [State.computes, hl, ha, h6, hd]
    all_goals by_cases h1 : k = d.toNat % 64 <;> by_cases h2 : k = d.toNat % 64 + 1 <;> simp [h1, h2]
  queue i h := by
    refine (congrArg Lane.q (Group.lane_mapLanes _ _ _ h)).trans ?_
    by_cases hl : s.inL i <;> by_cases ha : s.active i <;> by_cases h6 : d[6] <;> by_cases hd : d.toNat % 64 = 0x3F <;>
      simp [hl, ha, h6, hd, List.take_take]
  others i h := by
    constructor
    · refine (congrArg Lane.p (Group.lane_mapLanes _ _ _ h)).trans ?_
      by_cases hl : s.inL i <;> by_cases ha : s.active i <;> by_cases h6 : d[6] <;> by_cases hd : d.toNat % 64 = 0x3F <;>
        simp [hl, ha, h6, hd]
    · refine (congrArg Lane.use (Group.lane_mapLanes _ _ _ h)).trans ?_
      by_cases hl : s.inL i <;> by_cases ha : s.active i <;> by_cases h6 : d[6] <;> by_cases hd : d.toNat % 64 = 0x3F <;>
        simp [hl, ha, h6, hd]

theorem State.PairReady.dbad {s : State} {d : BitVec 7} {p q : List (BitVec 8)} (h : s.PairReady d p q) :
    (decide (d.toNat % 64 ≠ 0x3F) && (decide (d.toNat % 64 % 2 = 1) || decide (s.grp.window ≤ d.toNat % 64 + 1))) = false := by
  rcases h.dest with e | ⟨e, f⟩
  · simp [e]
  · have : d.toNat % 64 % 2 = 0 := by omega
    simp [this]; omega

theorem State.PairReady.dset {s : State} {d : BitVec 7} {p q : List (BitVec 8)} (h : s.PairReady d p q) :
    (s.pendingD s.activeLanes d || (decide (d.toNat % 64 ≠ 0x3F) && s.activeLanes.any fun i => s.grp.pendingV i (d.toNat % 64 + 1))) = false := by
  rcases h.destSettled with e | e
  · simp [State.pendingD, e]
  · simp only [State.pendingD, Bool.or_eq_false_iff, Bool.and_eq_false_iff, List.any_eq_false, Bool.not_eq_true]
    exact ⟨.inr fun i hi => (e i hi).1, .inr fun i hi => (e i hi).2⟩

theorem State.vecPair_done {s : State} {d : BitVec 7} {srcs : List Src} {pairs plain : List (BitVec 8)} (f : Nat → BitVec 64)
    (h : s.PairReady d pairs plain) (hs : ∀ x ∈ srcs, x.code ∈ pairs ∨ x.code ∈ plain) :
    ∃ t, s.vecPair d srcs pairs plain f = .next t ∧ PairResult d f s t := by
  refine ⟨_, ?_, s.pairWrite_result d f⟩
  have h1 : (srcs.find? fun x => if pairs.contains x.code then s.pairBad x.code else s.srcBad x.code) = none := by
    simp only [List.find?_eq_none, Bool.not_eq_true]
    intro x hx
    split
    · rename_i e
      exact h.pairOk _ (by simpa using e)
    · rename_i e
      exact h.plainOk _ ((hs x hx).resolve_left (by simpa using e))
  have h2 : (plain ++ pairs ++ pairs.map fun c => codePlus c 1).any (s.pendingIn s.activeLanes) = false := by
    simp only [List.any_eq_false, Bool.not_eq_true]
    exact h.settled
  simp only [State.vecPair, h.dbad, h1, h2, Bool.false_or, h.dset, Bool.false_eq_true, if_false, commit]
  rfl

theorem State.vecShrd_done {s : State} {d : BitVec 7} {a b : BitVec 8} (h : s.PairReady d [a] [b]) :
    ∃ t, s.vecShrd d a b = .next t ∧ PairResult d (fun i => s.read64 a i >>> ((s.read b i).toNat % 64)) s t := by
  refine ⟨_, ?_, s.pairWrite_result d _⟩
  have h2 : [a, codePlus a 1, b].any (s.pendingIn s.activeLanes) = false := by
    simp only [List.any_eq_false, Bool.not_eq_true]
    intro x hx
    exact h.settled x (by simp at hx ⊢; tauto)
  have h3 := h.pairOk a (by simp)
  have h4 := h.plainOk b (by simp)
  simp only [State.vecShrd, h.dbad, h2, h3, h4, Bool.false_or, h.dset, Bool.false_eq_true, if_false, commit]
  rfl

end Sys2Proof.Machine
end

