-- ==== Sys2Proof/Laws/Mem.lean ====
section
/-! SUPPORT. What the issue of a memory form does: checking accesses, adding operations, loads and stores of memory and of the window. -/
namespace Sys2Proof.Machine
open Sys2Proof

/-! ## Accesses -/

/-- t is s but for what translation caches hold. -/
def OnlyCaches (s t : State) : Prop :=
  t = { s with core := { s.core with dtlb := t.core.dtlb }, dev := { s.dev with l2tlb := t.dev.l2tlb, walkCache := t.dev.walkCache } }

theorem OnlyCaches.refl (s : State) : OnlyCaches s s := rfl
theorem OnlyCaches.trans {s t u : State} (h : OnlyCaches s t) (k : OnlyCaches t u) : OnlyCaches s u := by
  unfold OnlyCaches at *
  rw [k, h]
theorem State.cacheXlate_only (s : State) (l : List TlbEntry) : OnlyCaches s (s.cacheXlate false l) := rfl
theorem OnlyCaches.foldl {α : Type} {s t : State} (h : OnlyCaches s t) (f : State → α → State) (hf : ∀ u a, OnlyCaches u (f u a)) (l : List α) :
    OnlyCaches s (l.foldl f t) := by
  induction l generalizing t with
  | nil => exact h
  | cons a l ih => exact ih (h.trans (hf t a))

theorem State.Sendable.failures {s : State} {n : Need} {align g : Nat} {uni : Bool} {as : List Access} (h : s.Sendable n align g uni as)
    {a : Access} (ha : a ∈ as) : s.failures (s.ctx s.team.ctx) n a = [] := by
  simp only [State.failures, List.filterMap_eq_nil_iff]
  intro v hv
  obtain ⟨p, hp⟩ := h.mapped a ha v hv
  rw [hp]

/-- Accesses that may be performed pass the check; only caches change. -/
theorem State.check_ok {s : State} {n : Need} {align g : Nat} {uni : Bool} {as : List Access} (h : s.Sendable n align g uni as) (kind : Nat) :
    ∃ t, s.check n align uni kind as = .ok t ∧ OnlyCaches s t := by
  have hf (fs : List XFail) : (as.filter fun a => (s.failures (s.ctx s.team.ctx) n a).any fun f => fs.contains f.1) = [] := by
    rw [List.filter_eq_nil_iff]
    intro a ha
    rw [h.failures ha]
    simp
  have hm : (as.filter fun a => decide (a.va.toNat % align ≠ 0)) = [] := by
    rw [List.filter_eq_nil_iff]
    intro a ha
    simp [h.aligned a ha]
  refine ⟨_, ?_, (OnlyCaches.refl s).foldl (fun s' a => a.probes.foldl (fun s' va => s'.cacheXlate false (s'.translate s'.core.dtlb (s.ctx s.team.ctx) s'.arbour n va).2) s') ?_ as⟩
  · unfold State.check
    simp only [hf, hm]
    simp
  · intro u a
    exact (OnlyCaches.refl u).foldl _ (fun u' v => State.cacheXlate_only u' _) _

theorem State.remoteGate_only {s t : State} (h : OnlyCaches s t) (us : List RemoteUse) (k : s.remoteGate us = none) : t.remoteGate us = none := by
  rw [h]
  unfold State.remoteGate State.remoteGateOf at *
  revert k
  have ha : State.allGroups { s with core := { s.core with dtlb := t.core.dtlb }, dev := { s.dev with l2tlb := t.dev.l2tlb, walkCache := t.dev.walkCache } } = s.allGroups := rfl
  simp only [ha]
  split
  · intro k; cases k
  · split
    · intro k; cases k
    · exact fun _ => rfl

/-- When remote accesses may be sent (R73, R230). -/
theorem State.remoteGate_none (s : State) (us : List RemoteUse) : s.remoteGate us = none ↔ ∀ u ∈ us,
    s.dev.gensAck.contains ⟨u.dev, s.team.queue, s.team.qgen⟩ = true ∧
      (s.allGroups.any fun g => g.ops.any fun o => !o.done && o.uses.any fun k => k.dev = u.dev && k.stale) = false := by
  unfold State.remoteGate State.remoteGateOf
  cases hf : us.find? fun u => !s.dev.gensAck.contains ⟨u.dev, s.team.queue, s.team.qgen⟩ with
  | some u =>
    simp only [reduceCtorEq, false_iff]
    intro h
    have := List.find?_some hf
    rw [(h u (List.mem_of_find?_eq_some hf)).1] at this
    cases this
  | none =>
    rw [List.find?_eq_none] at hf
    simp only [Bool.not_eq_true'] at hf
    dsimp only
    split
    · rename_i hs
      simp only [reduceCtorEq, false_iff]
      intro h
      obtain ⟨u, hu, hs⟩ := List.any_eq_true.1 hs
      rw [(h u hu).2] at hs
      cases hs
    · rename_i hs
      simp only [true_iff]
      intro u hu
      refine ⟨by simpa using hf u hu, ?_⟩
      rw [Bool.not_eq_true, List.any_eq_false] at hs
      simpa using hs u hu

/-- What an access form comes to where its accesses may be sent. -/
theorem State.access_ok {s : State} {n : Need} {align g : Nat} {uni : Bool} {as : List Access} (h : s.Sendable n align g uni as) (hg : 0 < g) (kind : Nat)
    (what : Nat → Nat → Nat → AccessKind) (f : State → List Todo → List RemoteUse → Issue) :
    ∃ t, OnlyCaches s t ∧ s.access n align uni kind g as what f = f t (s.todoOf n uni g as what) (s.usesOfTodo (s.todoOf n uni g as what)) := by
  obtain ⟨t, ht, ho⟩ := s.check_ok h kind
  refine ⟨t, ho, ?_⟩
  have hs : s.remoteGate (s.usesOfTodo (s.todoOf n uni g as what)) = none := by
    rw [State.remoteGate_none]
    intro u hu
    simp only [State.usesOfTodo, State.usesOf, State.todoOf, unitsOf, List.mem_filterMap, List.mem_map, List.mem_flatMap, List.mem_range, Prod.exists] at hu
    obtain ⟨l, va, pa, ⟨x, ⟨a, ha, o, k, ⟨m, hm, hok⟩, rfl⟩, hx⟩, hu⟩ := hu
    cases hok
    cases hx
    have hlt : g * m < a.size := by
      have := (Nat.lt_div_iff_mul_lt hg).1 hm
      rw [Nat.mul_comm] at this
      omega
    refine (State.remoteGate_none s _).1 (h.sent a ha m hlt) u ?_
    simpa [State.usesOf] using hu
  unfold State.access
  rw [ht]
  simp only [State.remoteGate_only ho _ hs]

/-! ## Operations and loads -/

theorem State.mem_precede (s : State) (o : Op) (n : Nat) : n ∈ s.grp.precede s.ent o ↔ s.Follows o.path o.todo n := by
  unfold Group.precede Group.earlier State.Follows
  simp only [List.mem_map, List.mem_filter, Bool.and_eq_true, Bool.or_eq_true, Bool.not_eq_true', decide_eq_true_eq, List.any_eq_true, List.contains_iff_mem]
  constructor
  · rintro ⟨y, ⟨⟨hy, hd, he⟩, hp, a, ha, b, hb, hm⟩, rfl⟩
    exact ⟨y, hy, rfl, hd, he, hp, a, ha, b, hb, hm⟩
  · rintro ⟨y, hy, rfl, hd, he, hp, a, ha, b, hb, hm⟩
    exact ⟨y, ⟨⟨hy, hd, he⟩, hp, a, ha, b, hb, hm⟩, rfl⟩

/-- The pushes of a load of n words. -/
theorem Lane.push_words (n : Nat) (h : n = 1 ∨ n = 2 ∨ n = 4) (f : Nat → QEntry) (l : Lane) :
    ((List.range n).foldl (fun l k => l.push (f (n - 1 - k))) l) = { l with q := (List.range n).map f ++ l.q.take (16 - n) } := by
  rcases h with rfl | rfl | rfl <;> simp [List.range_succ, Lane.push, List.take_take]

theorem State.mem_loadFills {s : State} {reg : Option Nat} {push : Bool} {n : Nat} {val : Nat → Nat → Word} (f : Fill) :
    f ∈ (s.activeLanes.flatMap fun i => ((List.range n).map (val i)).zipIdx.flatMap fun (x, k) =>
      (match reg with | some r => [⟨.v i (r + k), x.setWidth 80⟩] | none => []) ++ (if push then [⟨.q i k, x.setWidth 80⟩] else []) : List Fill) ↔
    ∃ i k, i ∈ s.activeLanes ∧ k < n ∧ ((∃ r, reg = some r ∧ f = ⟨.v i (r + k), (val i k).setWidth 80⟩) ∨ (push = true ∧ f = ⟨.q i k, (val i k).setWidth 80⟩)) := by
  simp only [List.mem_flatMap, Prod.exists, List.mem_zipIdx_iff_getElem?, List.getElem?_map, List.mem_append]
  constructor
  · rintro ⟨i, hi, x, k, hx, h⟩
    rw [Option.map_eq_some_iff] at hx
    obtain ⟨j, hj, rfl⟩ := hx
    obtain ⟨hk, rfl⟩ := List.getElem?_eq_some_iff.1 hj
    rw [List.length_range] at hk
    rw [List.getElem_range] at h
    refine ⟨i, k, hi, hk, ?_⟩
    rcases h with h | h
    · cases reg with
      | none => simp at h
      | some r => exact .inl ⟨r, rfl, by simpa using h⟩
    · cases push with
      | false => simp at h
      | true => exact .inr ⟨rfl, by simpa using h⟩
  · rintro ⟨i, k, hi, hk, h⟩
    refine ⟨i, hi, val i k, k, by simp [hk], ?_⟩
    rcases h with ⟨r, rfl, rfl⟩ | ⟨rfl, rfl⟩
    · exact .inl (by simp)
    · exact .inr (by simp)

theorem OpAdded.of {path : Path} {fills : Fill → Prop} {us : List RemoteUse} {todo : List Todo} {s t : State} {l : List Fill}
    (h : t.grp.ops = s.grp.ops ++ [{ id := s.nextOp, path := some path, ent := s.ent.num, fills := l, uses := us, todo, after := s.grp.precede s.ent { id := 0, path := some path, ent := 0, fills := l, uses := us, todo } }])
    (hl : ∀ f, f ∈ l ↔ fills f) (hc : t.nextOp = s.nextOp + 1) : OpAdded path fills us todo s t :=
  ⟨⟨_, h, hl, fun n => s.mem_precede _ n, rfl⟩, hc⟩

/-- The state a counted load leaves before its entity moves on. -/
theorem State.loadOp_result {s u : State} (hu : u.grp = s.grp ∧ u.ent = s.ent ∧ u.nextOp = s.nextOp) (path : Path) (reg : Option Nat) (push : Bool)
    (n : Nat) (hn : push = true → n = 1 ∨ n = 2 ∨ n = 4) (val : Nat → Nat → Word) (us : List RemoteUse) (todo : List Todo) (pc : Word) (e : Entity → Entity) :
    LoadResult path reg push n val us todo s (((u.loadOp (some path) reg push n (fun i => (List.range n).map (val i)) us todo).setEnt e).finish pc) ∧
    (((u.loadOp (some path) reg push n (fun i => (List.range n).map (val i)) us todo).setEnt e).finish pc) =
      { u with ent := (e u.ent).finish pc, nextOp := u.nextOp + 1, grp := { u.grp with
          lanes := (((u.loadOp (some path) reg push n (fun i => (List.range n).map (val i)) us todo).setEnt e).finish pc).grp.lanes
          ops := (((u.loadOp (some path) reg push n (fun i => (List.range n).map (val i)) us todo).setEnt e).finish pc).grp.ops } } := by
  obtain ⟨h1, h2, h3⟩ := hu
  have ha : u.activeLanes = s.activeLanes := by
    have : u.active = s.active := by funext i; simp only [State.active, h1, h2]
    simp only [State.activeLanes, h1, this]
  have hl : u.inL = s.inL := by funext i; simp only [State.inL, State.live, h1, h2]
  have hact : u.active = s.active := by funext i; simp only [State.active, h1, h2]
  cases push with
  | false =>
    unfold State.loadOp State.pushPending
    simp only [Bool.false_eq_true, if_false, reduceCtorEq, false_and]
    refine ⟨⟨OpAdded.of (l := ?l) ?_ ?_ ?_, fun i hi => ?_, fun i hi => ?_⟩, rfl⟩
    rotate_left
    · simp only [State.addOp, State.finish, State.setEnt, h1, h2, h3]
      rfl
    · intro f
      rw [← ha]
      exact State.mem_loadFills (s := u) (reg := reg) (push := false) (n := n) (val := val) f
    · simp only [State.addOp, State.finish, State.setEnt, h3]
    · rw [if_neg (by simp)]; simp only [State.addOp, State.finish, State.setEnt, h1]; rfl
    · simp only [State.addOp, State.finish, State.setEnt, h1]; exact ⟨rfl, rfl, rfl⟩
  | true =>
    have hw := hn rfl
    unfold State.loadOp State.pushPending
    simp only [if_true, reduceCtorEq, false_and, if_false]
    have hlane : ∀ i < s.grp.width, ((u.mapLanes fun i l => if u.inL i then (List.range n).foldl (fun l k => l.push { tag := if u.active i then some (u.nextOp, n - 1 - k) else none }) l else l).grp.lane i) =
        if s.inL i then { s.grp.lane i with q := (List.range n).map (fun k => ({ tag := if s.active i then some (s.nextOp, k) else none } : QEntry)) ++ (s.grp.lane i).q.take (16 - n) } else s.grp.lane i := by
      intro i hi
      rw [State.mapLanes]
      rw [Group.lane_mapLanes _ _ _ (by rw [h1]; exact hi), hl, hact, h3, h1]
      split
      · rw [Lane.push_words n hw (fun k => { tag := if s.active i then some (s.nextOp, k) else none })]
      · rfl
    refine ⟨⟨OpAdded.of (l := ?l) ?_ ?_ ?_, fun i hi => ?_, fun i hi => ?_⟩, rfl⟩
    rotate_left
    · simp only [State.addOp, State.finish, State.setEnt, State.mapLanes, Group.mapLanes, h1, h2, h3]
      rfl
    · intro f
      rw [← ha]
      exact State.mem_loadFills (s := u) (reg := reg) (push := true) (n := n) (val := val) f
    · simp only [State.addOp, State.finish, State.setEnt, State.mapLanes, h3]
    · refine (congrArg Lane.q (hlane i hi)).trans ?_
      by_cases h : s.inL i <;> simp [h]
    · refine ⟨(congrArg Lane.v (hlane i hi)).trans ?_, (congrArg Lane.p (hlane i hi)).trans ?_, (congrArg Lane.use (hlane i hi)).trans ?_⟩ <;>
        by_cases h : s.inL i <;> simp [h]

theorem OpAdded.congr {path : Path} {fills : Fill → Prop} {us : List RemoteUse} {todo : List Todo} {s t t' : State}
    (h : OpAdded path fills us todo s t) (hg : t'.grp = t.grp) (hn : t'.nextOp = t.nextOp) : OpAdded path fills us todo s t' :=
  ⟨hg ▸ h.added, hn ▸ h.counted⟩

theorem LoadResult.congr {path : Path} {reg : Option Nat} {push : Bool} {n : Nat} {val : Nat → Nat → Word} {us : List RemoteUse} {todo : List Todo}
    {s t t' : State} (h : LoadResult path reg push n val us todo s t) (hg : t'.grp = t.grp) (hn : t'.nextOp = t.nextOp) :
    LoadResult path reg push n val us todo s t' :=
  ⟨h.op.congr hg hn, hg ▸ h.queue, hg ▸ h.others⟩

/-- What a counted load adds, as an equation of states. -/
theorem State.loadOp_eq (u : State) (path : Path) (reg : Option Nat) (push : Bool)
    (n : Nat) (hn : push = true → n = 1 ∨ n = 2 ∨ n = 4) (val : Nat → Nat → Word) (us : List RemoteUse) (todo : List Todo) :
    ∃ ls os, u.loadOp (some path) reg push n (fun i => (List.range n).map (val i)) us todo = { u with grp := { u.grp with lanes := ls, ops := os }, nextOp := u.nextOp + 1 } ∧
      ∀ s t : State, u.grp = s.grp → u.ent = s.ent → u.nextOp = s.nextOp → t.grp = { u.grp with lanes := ls, ops := os } → t.nextOp = u.nextOp + 1 →
        LoadResult path reg push n val us todo s t := by
  have hf (s : State) := fun h => State.loadOp_result (s := s) (u := u) h path reg push n hn val us todo 0 id
  refine ⟨(u.loadOp (some path) reg push n (fun i => (List.range n).map (val i)) us todo).grp.lanes, (u.loadOp (some path) reg push n (fun i => (List.range n).map (val i)) us todo).grp.ops, ?_, ?_⟩
  · cases push <;> rfl
  · intro s t h1 h2 h3 h4 h5
    refine (hf s ⟨h1, h2, h3⟩).1.congr ?_ ?_
    · rw [h4]; cases push <;> rfl
    · rw [h5]; cases push <;> rfl

/-! ## Whole forms -/

theorem blanks_eq (nw : Nat) : blanks nw = fun _ => (List.range nw).map fun _ => (0 : Word) := by
  funext i
  simp [blanks, List.map_const']

theorem State.ready_settled {s : State} {path : Path} {base : Option (BitVec 4)} {codes : List (BitVec 8)} (h : s.MemReady path base codes) (f : Issue) (b : Bool) (hb : b = false) :
    s.ready (s.memPending base codes || b) path f = f := by
  have h1 : s.memPending base codes = false := by
    unfold State.memPending
    rw [Bool.or_eq_false_iff]
    refine ⟨by simpa using h.settled, ?_⟩
    cases base with
    | none => rfl
    | some e => exact h.base e rfl
  have h2 : s.pathFull path = false := by simpa [State.pathFull] using h.room
  simp [State.ready, h1, h2, hb]

theorem State.ready_ok {s : State} {path : Path} {base : Option (BitVec 4)} {codes : List (BitVec 8)} (h : s.MemReady path base codes) (f : Issue) :
    s.ready (s.memPending base codes) path f = f := by
  have := State.ready_settled h f false rfl
  rwa [Bool.or_false] at this

theorem dReg_namedReg (d : BitVec 7) : dReg d = namedReg d := rfl

theorem State.RunReady.pending {s : State} {d : BitVec 7} {n : Nat} (h : s.RunReady d n) :
    ((dReg d).any fun r => s.activeLanes.any fun i => (List.range n).any fun k => s.grp.pendingV i (r + k)) = false := by
  unfold dReg
  split
  · rfl
  · rename_i h3
    have := h.settled.resolve_left h3
    simpa using this

/-- The issue of a load of memory. -/
theorem State.load_issued {s : State} {path : Path} {x : BitVec 2} {e : BitVec 4} {o : BitVec 8} {d : BitVec 7} {ld : Ld} {size align g : Nat} (hg : 0 < g) (signed : Bool)
    (hb : ld.bad = false) (ho : s.srcBad o = false) (hm : s.MemReady path (some e) [o]) (hr : s.RunReady d ld.regs) (hn : ld.push = true → ld.regs = 1 ∨ ld.regs = 2 ∨ ld.regs = 4)
    (h : s.Sendable { r := true } align g false (s.accesses size (s.ea x e o))) :
    let todo := s.todoOf { r := true } false g (s.accesses size (s.ea x e o)) fun i o len =>
      .load (wordParts ld.regs (min size 4) signed (resultDests (dReg d) ld.push i) o len)
    ∃ t, s.load path x e o d ld size align g signed = .next t ∧ MemFrame s.ent s t ∧
      LoadResult path (namedReg d) ld.push ld.regs (fun _ _ => 0) (s.usesOfTodo todo) todo s t := by
  intro todo
  unfold State.load
  simp only [hb, ho, Bool.false_eq_true, if_false]
  rw [State.ready_settled hm _ _ hr.pending]
  obtain ⟨u, hu, ha⟩ := State.access_ok h hg 1 (fun i o len => .load (wordParts ld.regs (min size 4) signed (resultDests (dReg d) ld.push i) o len))
    fun t todo us => Issue.retire (t.loadOp (some path) (dReg d) ld.push ld.regs (blanks ld.regs) us todo)
  rw [ha, blanks_eq]
  obtain ⟨c1, c2, c3, rfl⟩ : ∃ c1 c2 c3, u = { s with core := { s.core with dtlb := c1 }, dev := { s.dev with l2tlb := c2, walkCache := c3 } } := ⟨_, _, _, hu⟩
  obtain ⟨ls, os, he, hr'⟩ := State.loadOp_eq { s with core := { s.core with dtlb := c1 }, dev := { s.dev with l2tlb := c2, walkCache := c3 } } path (dReg d) ld.push ld.regs hn
    (fun _ _ => 0) (s.usesOfTodo todo) todo
  rw [he]
  exact ⟨_, rfl, rfl, hr' s _ rfl rfl rfl rfl rfl⟩

/-- The issue of a store to memory. -/
theorem State.store_issued {s : State} {x : BitVec 2} {e : BitVec 4} {o : BitVec 8} {d : BitVec 7} {n size : Nat} (hb : s.storeBad d n = false) (ho : s.srcBad o = false)
    (hm : s.MemReady .vm (some e) (o :: (List.range n).map (codePlus (d.setWidth 8)))) (h : s.Sendable { w := true } size 8 false (s.accesses size (s.ea x e o))) :
    let todo := s.todoOf { w := true } false 8 (s.accesses size (s.ea x e o)) (s.storePart d n size)
    ∃ t, s.storeForm x e o d n size = .next t ∧ MemFrame s.ent.dirty s t ∧ t.grp.lanes = s.grp.lanes ∧ OpAdded .vm (fun _ => False) (s.usesOfTodo todo) todo s t := by
  intro todo
  unfold State.storeForm
  simp only [hb, ho, Bool.false_eq_true, if_false]
  rw [State.ready_ok hm]
  obtain ⟨u, hu, ha⟩ := State.access_ok h (by omega) 2 (s.storePart d n size) fun t todo us => Issue.retire (t.addOp { id := 0, ent := 0, path := some .vm, uses := us, todo }).dirty
  rw [ha]
  obtain ⟨c1, c2, c3, rfl⟩ : ∃ c1 c2 c3, u = { s with core := { s.core with dtlb := c1 }, dev := { s.dev with l2tlb := c2, walkCache := c3 } } := ⟨_, _, _, hu⟩
  exact ⟨_, rfl, rfl, rfl, OpAdded.of (l := []) rfl (by simp) rfl⟩

/-! ## The window -/

/-- A part of a window access that lies in its bounds. -/
theorem State.window_part {s : State} {o : Word} {size c p k m : Nat} (h : s.window o size size = .ok c p) (hs : size ∣ 2 ^ 23) (hk : k < size) (hm : k + m ≤ size) :
    s.window (o + BitVec.ofNat 32 k) m 1 = .ok c (p + k) := by
  unfold State.window at h ⊢
  simp only at h ⊢
  split at h
  · cases h
  · rename_i ha
    split at h
    · cases h
    · rename_i hb
      push Not at ha hb
      obtain ⟨q, hq⟩ := hs
      obtain ⟨r, hr⟩ : ∃ r, o.toNat = size * r := ⟨_, (Nat.mul_div_cancel' (Nat.dvd_of_mod_eq_zero ha)).symm⟩
      have h1 : o.toNat % 2 ^ 23 + size ≤ 2 ^ 23 := by
        rw [hr, hq, Nat.mul_mod_mul_left]
        have : 0 < q := by by_contra h0; simp at h0; subst h0; simp at hq
        calc size * (r % q) + size = size * (r % q + 1) := by ring
          _ ≤ size * q := Nat.mul_le_mul_left _ (Nat.mod_lt _ this)
      have h2 : (o + BitVec.ofNat 32 k).toNat = o.toNat + k := by
        rw [BitVec.toNat_add, BitVec.toNat_ofNat]
        have : k < 2 ^ 23 := by omega
        omega
      have h3 : (o.toNat + k) % 2 ^ 23 = o.toNat % 2 ^ 23 + k := by omega
      have h4 : (o + BitVec.ofNat 32 k).getLsbD 23 = o.getLsbD 23 := by
        simp only [BitVec.getLsbD, Nat.testBit, h2, Nat.shiftRight_eq_div_pow]
        rw [show (o.toNat + k) / 2 ^ 23 = o.toNat / 2 ^ 23 by omega]
      rw [h2, h3, h4, if_neg (by omega), if_neg]
      · cases h
        simp only [WinRes.ok.injEq, true_and]
        omega
      · rintro (h | h | h)
        · omega
        · exact absurd hb.2.1 (by push Not; exact ⟨h.1, by simpa using h.2⟩)
        · omega

theorem State.window_any {s : State} {o : Word} {size c p : Nat} (h : s.window o size size = .ok c p) (hs : size ∣ 2 ^ 23) (h0 : 0 < size) : s.window o size 1 = .ok c p := by
  have := State.window_part (k := 0) h hs h0 (Nat.le_refl (0 + size) |>.trans (by omega))
  simpa using this

theorem State.checkWindow_none {s : State} {f : Nat → Word} {size : Nat} (h : ∀ i ∈ s.activeLanes, ∃ c p, s.window (f i) size size = .ok c p) :
    s.checkWindow size size false (s.offsets f) = none := by
  have hb (r : WinRes) (hr : ∀ c p, WinRes.ok c p ≠ r) : ((s.offsets f).filter fun (x : Nat × Word) => decide (s.window x.2 size size = r)) = [] := by
    rw [List.filter_eq_nil_iff]
    intro x hx
    obtain ⟨i, hi, rfl⟩ := List.mem_map.1 hx
    obtain ⟨c, p, hw⟩ := h i hi
    simp [hw, hr]
  unfold State.checkWindow
  simp only
  rw [if_neg, if_neg]
  · exact fun hn => hn (hb .access (fun _ _ h => nomatch h))
  · exact fun hn => hn (hb .misalign (fun _ _ h => nomatch h))

theorem State.mem_activeLanes (s : State) (i : Nat) : i ∈ s.activeLanes ↔ s.active i = true := by
  unfold State.activeLanes
  rw [List.mem_filter, List.mem_range]
  refine ⟨fun h => h.2, fun h => ⟨?_, h⟩⟩
  unfold State.active at h
  simp at h; exact h.1

/-- The trap of a window access. -/
theorem State.checkWindow_trap {s : State} (f : Nat → Word) (size : Nat) :
    let mis (i : Nat) : Bool := s.active i && decide (s.window (f i) size size = .misalign)
    let out (i : Nat) : Bool := s.active i && decide (s.window (f i) size size = .access)
    let first (p : Nat → Bool) : VAddr := (((s.activeLanes.find? p).map f).getD 0).setWidth 80
    ((∃ i < s.grp.width, mis i) → s.checkWindow size size false (s.offsets f) = some (s.trapHere .misalign 0 (laneMask mis 64) (first mis))) ∧
    ((∀ i < s.grp.width, mis i = false) → (∃ i < s.grp.width, out i) → s.checkWindow size size false (s.offsets f) = some (s.trapHere .accessFault 0 (laneMask out 64) (first out))) := by
  intro mis out first
  have key (r : WinRes) : ((s.offsets f).filter fun (x : Nat × Word) => decide (s.window x.2 size size = r)) =
      (s.activeLanes.filter fun i => decide (s.window (f i) size size = r)).map fun i => (i, f i) := by
    unfold State.offsets
    rw [List.filter_map]; rfl
  have hmask (r : WinRes) : (fun i => ((s.activeLanes.filter fun i => decide (s.window (f i) size size = r)).map fun i => (i, f i)).any fun x => decide (x.1 = i)) =
      fun i => s.active i && decide (s.window (f i) size size = r) := by
    funext i
    rw [Bool.eq_iff_iff]
    simp only [List.any_map, List.any_filter, List.any_eq_true, Function.comp, Bool.and_eq_true, decide_eq_true_eq]
    constructor
    · rintro ⟨j, hj, h, rfl⟩; exact ⟨(State.mem_activeLanes s j).1 hj, h⟩
    · rintro ⟨h1, h2⟩; exact ⟨i, (State.mem_activeLanes s i).2 h1, h2, rfl⟩
  have hfirst (r : WinRes) : ((((s.activeLanes.filter fun i => decide (s.window (f i) size size = r)).map fun i => (i, f i)).head?.map Prod.snd).getD 0).setWidth 80 =
      first fun i => s.active i && decide (s.window (f i) size size = r) := by
    simp only [first]
    congr 2
    rw [List.head?_map, Option.map_map, List.head?_filter]
    have : (s.activeLanes.find? fun i => s.active i && decide (s.window (f i) size size = r)) = s.activeLanes.find? fun i => decide (s.window (f i) size size = r) := by
      apply List.find?_congr
      intro i hi
      rw [(State.mem_activeLanes s i).1 hi, Bool.true_and]
    rw [this]; rfl
  have hne (r : WinRes) : ((s.activeLanes.filter fun i => decide (s.window (f i) size size = r)).map fun i => (i, f i)) ≠ [] ↔ ∃ i < s.grp.width, (s.active i && decide (s.window (f i) size size = r)) = true := by
    rw [Ne, List.map_eq_nil_iff, List.filter_eq_nil_iff]
    push Not
    simp only [decide_eq_true_eq, Bool.and_eq_true]
    constructor
    · rintro ⟨i, hi, h⟩
      have := (State.mem_activeLanes s i).1 hi
      exact ⟨i, by unfold State.active at this; simp at this; exact this.1, this, h⟩
    · rintro ⟨i, -, hi, h⟩
      exact ⟨i, (State.mem_activeLanes s i).2 hi, h⟩
  unfold State.checkWindow
  simp only [key, hmask, hfirst, Bool.false_eq_true, if_false]
  constructor
  · intro h
    rw [if_pos ((hne .misalign).2 h)]
  · intro h1 h2
    rw [if_neg, if_pos ((hne .access).2 h2)]
    intro h
    obtain ⟨i, hi, h⟩ := (hne .misalign).1 h
    have := h1 i hi
    simp only [mis] at this
    rw [this] at h; cases h

theorem State.window_traps {s : State} (f : Nat → Word) (size : Nat) (rest : Issue) (t : Trap) (h : s.checkWindow size size false (s.offsets f) = some t) (hx : t.code ≠ .xlateFault) :
    commit 4 s (match s.checkWindow size size false (s.offsets f) with | some t => .trap t | none => rest) = .next (s.takeTrap t) := by
  rw [h]
  simp only [commit, State.malformedRecord, if_neg hx]

/-- The issue of a load of the window. -/
theorem State.spLoad_issued {s : State} {x : BitVec 2} {o : BitVec 8} {d : BitVec 7} {ld : Ld} (hn : ld.regs = 1 ∨ ld.regs = 2 ∨ ld.regs = 4)
    (hb : ld.bad = false) (ho : s.srcBad o = false) (hm : s.MemReady .sp none [o]) (hr : s.RunReady d ld.regs) :
    let w (i : Nat) : Word := s.wo x o i
    let mis (i : Nat) : Bool := s.active i && decide (s.window (w i) (4 * ld.regs) (4 * ld.regs) = .misalign)
    let out (i : Nat) : Bool := s.active i && decide (s.window (w i) (4 * ld.regs) (4 * ld.regs) = .access)
    let first (p : Nat → Bool) : VAddr := (((s.activeLanes.find? p).map w).getD 0).setWidth 80
    let todo := s.winTodo false (4 * ld.regs) 8 (s.offsets w) fun i o len => .load (wordParts ld.regs 4 false (resultDests (dReg d) ld.push i) o len)
    ((∀ i ∈ s.activeLanes, ∃ c p, s.window (w i) (4 * ld.regs) (4 * ld.regs) = .ok c p) → ∃ t, s.spLoad x o d ld = .next t ∧ MemFrame s.ent s t ∧ t.core = s.core ∧ t.dev = s.dev ∧
        LoadResult .sp (namedReg d) ld.push ld.regs (fun _ _ => 0) [] todo s t) ∧
      ((∃ i < s.grp.width, mis i) → s.spLoad x o d ld = .next (s.takeTrap (s.trapHere .misalign 0 (laneMask mis 64) (first mis)))) ∧
      ((∀ i < s.grp.width, mis i = false) → (∃ i < s.grp.width, out i) → s.spLoad x o d ld = .next (s.takeTrap (s.trapHere .accessFault 0 (laneMask out 64) (first out)))) := by
  intro w mis out first todo
  unfold State.spLoad
  simp only [hb, ho, Bool.false_eq_true, if_false]
  rw [State.ready_settled hm _ _ hr.pending]
  obtain ⟨h1, h2⟩ := State.checkWindow_trap (s := s) (s.wo x o) (4 * ld.regs)
  refine ⟨fun h => ?_, fun h => State.window_traps _ _ _ _ (h1 h) (by simp [State.trapHere]), fun h h' => State.window_traps _ _ _ _ (h2 h h') (by simp [State.trapHere])⟩
  rw [State.checkWindow_none h, blanks_eq]
  obtain ⟨ls, os, he, hr'⟩ := State.loadOp_eq s .sp (dReg d) ld.push ld.regs (fun _ => hn) (fun _ _ => 0) [] todo
  dsimp only
  rw [he]
  exact ⟨_, rfl, rfl, rfl, rfl, hr' s _ rfl rfl rfl rfl rfl⟩

/-- The issue of a store to the window. -/
theorem State.spStore_issued (s : State) (x : BitVec 2) (o : BitVec 8) (d : BitVec 7) (n : Nat) (ho : s.srcBad o = false) (hb : s.storeBad d n = false)
      (hm : s.MemReady .sp none (o :: (List.range n).map (codePlus (d.setWidth 8)))) :
    let w (i : Nat) : Word := s.wo x o i
    let mis (i : Nat) : Bool := s.active i && decide (s.window (w i) (4 * n) (4 * n) = .misalign)
    let out (i : Nat) : Bool := s.active i && decide (s.window (w i) (4 * n) (4 * n) = .access)
    let first (p : Nat → Bool) : VAddr := (((s.activeLanes.find? p).map w).getD 0).setWidth 80
    let todo := s.winTodo false (4 * n) 8 (s.offsets w) (s.storePart d n (4 * n))
    ((∀ i ∈ s.activeLanes, ∃ c p, s.window (w i) (4 * n) (4 * n) = .ok c p) → ∃ t, s.spStore x o d n = .next t ∧ MemFrame s.ent.dirty s t ∧ t.core = s.core ∧ t.dev = s.dev ∧
        t.grp.lanes = s.grp.lanes ∧ OpAdded .sp (fun _ => False) [] todo s t) ∧
      ((∃ i < s.grp.width, mis i) → s.spStore x o d n = .next (s.takeTrap (s.trapHere .misalign 0 (laneMask mis 64) (first mis)))) ∧
      ((∀ i < s.grp.width, mis i = false) → (∃ i < s.grp.width, out i) → s.spStore x o d n = .next (s.takeTrap (s.trapHere .accessFault 0 (laneMask out 64) (first out)))) := by
  intro w mis out first todo
  unfold State.spStore
  simp only [hb, ho, Bool.false_eq_true, if_false]
  rw [State.ready_ok hm]
  obtain ⟨h1, h2⟩ := State.checkWindow_trap (s := s) (s.wo x o) (4 * n)
  refine ⟨fun h => ?_, fun h => State.window_traps _ _ _ _ (h1 h) (by simp [State.trapHere]), fun h h' => State.window_traps _ _ _ _ (h2 h h') (by simp [State.trapHere])⟩
  rw [State.checkWindow_none h]
  dsimp only
  exact ⟨_, rfl, rfl, rfl, rfl, rfl, OpAdded.of (l := []) rfl (by simp) rfl⟩

/-- What a uniform form comes to where its access may be sent. -/
theorem State.uniAccess_ok {s : State} {n : Need} {x : BitVec 2} {e : BitVec 4} {o : BitVec 8} {size kind : Nat} (pend : Bool) (what : Nat → Nat → AccessKind)
    (f : State → List Todo → List RemoteUse → State)
    (hb : s.grp.pendingDest (.b e.toNat) = false) (ho : s.uniBad o = false) (hp : s.pendingIn [] o = false) (hr : s.grp.count .vm < 63) (hd : pend = false)
    (h : s.Sendable n size 8 true [⟨0, s.ea x e o 0, size⟩]) :
    let todo := s.todoOf n true 8 [⟨0, s.ea x e o 0, size⟩] fun _ => what
    ∃ t, OnlyCaches s t ∧ s.uniAccess n x e o size kind pend what f = .retire (f t todo (s.usesOfTodo todo)) := by
  obtain ⟨t, ht, ha⟩ := State.access_ok h (by omega) kind (fun _ => what) fun t todo us => .retire (f t todo us)
  refine ⟨t, ht, ?_⟩
  unfold State.uniAccess State.ready
  have : s.pathFull .vm = false := by simpa [State.pathFull] using hr
  simp only [ho, hp, hb, hd, this, Bool.or_self, Bool.false_eq_true, if_false, ha]


end Sys2Proof.Machine
end

