-- ==== Sys2Proof/Laws/Access.lean ====
section
/-! SUPPORT. What performing the accesses of an operation does (R147 to R150): one access, all that an operation has left, and what loads, stores and
atomics come to. -/
namespace Sys2Proof.Machine
open Sys2Proof

/-! ## One access -/

/-- An access does not look at the group in front, and leaves it as it is. -/
theorem State.spadStore_group (s : State) (g : Group) (c a : Nat) (bs : List Byte) :
    State.spadStore { s with grp := g } c a bs = { s.spadStore c a bs with grp := g } := by
  unfold State.spadStore State.onCore
  dsimp only
  split <;> rfl

theorem State.todoRead_group (s : State) (g : Group) (a : Todo) : State.todoRead { s with grp := g } a = s.todoRead a := by
  unfold State.todoRead
  cases a.spad <;> rfl

theorem State.todoWrite_group (s : State) (g : Group) (a : Todo) (bs : List Byte) :
    State.todoWrite { s with grp := g } a bs = { s.todoWrite a bs with grp := g } := by
  unfold State.todoWrite
  cases a.spad
  · rfl
  · exact s.spadStore_group g _ _ _

theorem State.doAccess_group (s : State) (g : Group) (a : Todo) :
    State.doAccess { s with grp := g } a = ({ (s.doAccess a).1 with grp := g }, (s.doAccess a).2) := by
  have rmw (f : BitVec 64 → BitVec 64) : State.rmw { s with grp := g } a f = ({ (s.rmw a f).1 with grp := g }, (s.rmw a f).2) := by
    unfold State.rmw
    rw [s.todoRead_group g a]
    cases s.todoRead a
    · rfl
    · dsimp only
      rw [s.todoWrite_group g a]
  unfold State.doAccess
  cases a.what with
  | load ps => dsimp only; rw [s.todoRead_group g a]
  | store bs => dsimp only; rw [s.todoWrite_group g a]
  | atom op v ps => exact rmw _
  | cas e v ps => exact rmw _
  | barInit =>
    dsimp only
    cases a.spad.bind fun c => s.team.barrierAt c a.addr with
    | none => rfl
    | some b =>
      dsimp only
      split
      · rfl
      · exact congrArg (·, some []) (State.spadStore_group { s with team := { s.team with
          barriers := upsert (fun k => k.core = b.core && k.off = b.off) { b with reached := true } s.team.barriers } } g _ _ _)

/-- What an operation is after an access of it has returned. -/
def Op.returned (o : Op) (a : Todo) : Option (List Byte) → Op
  | some bs => o.took a.what.parts bs
  | none => o.met a

/-- The state in which operation o has become x. -/
def State.withOp (s : State) (id : Nat) (x : Op) : State := { s with grp := { s.grp with ops := s.grp.ops.map fun y => if y.id = id then x else y } }

theorem Group.find_op {g : Group} {o : Op} (hm : o ∈ g.ops) (hu : ∀ y ∈ g.ops, y.id = o.id → y = o) : (g.ops.find? fun y => decide (y.id = o.id)) = some o := by
  cases h : g.ops.find? fun y => decide (y.id = o.id) with
  | none => exact absurd (List.find?_eq_none.1 h o hm) (by simp)
  | some y => exact congrArg some (hu y (List.mem_of_find?_eq_some h) (by simpa using List.find?_some h))

/-- The first access that an operation has left, where nothing holds it. -/
theorem State.perform_head {s : State} {o : Op} {a : Todo} {t : List Todo} (hm : o ∈ s.grp.ops) (hu : ∀ y ∈ s.grp.ops, y.id = o.id → y = o) (ht : o.todo = a :: t)
    (hb : s.grp.blocked o a = false) :
    s.perform o.id 0 = some ({ (s.doAccess a).1 with grp := s.grp }.withOp o.id (({ o with todo := t } : Op).returned a (s.doAccess a).2)) := by
  have hg : (s.doAccess a).1.grp = s.grp := congrArg (fun r : State × Option (List Byte) => r.1.grp) (s.doAccess_group s.grp a)
  unfold State.perform
  rw [Group.find_op hm hu, Option.bind_some, ht, List.getElem?_cons_zero, Option.bind_some, if_neg (by rw [hb]; decide)]
  unfold State.withOp Op.returned
  dsimp only
  rewrite [hg, List.eraseIdx_cons_zero]
  cases (s.doAccess a).2 <;> rfl

/-- Performing the first n accesses that an operation has left, one after the other. -/
def Op.runs : Nat → State → Op → State × Op
  | 0, s, o => (s, o)
  | n + 1, s, o => match o.todo with
    | [] => (s, o)
    | a :: t => Op.runs n (s.doAccess a).1 (({ o with todo := t } : Op).returned a (s.doAccess a).2)

theorem Op.runs_cons {n : Nat} {s : State} {o : Op} {a : Todo} {t : List Todo} (h : o.todo = a :: t) :
    Op.runs (n + 1) s o = Op.runs n (s.doAccess a).1 (({ o with todo := t } : Op).returned a (s.doAccess a).2) := by
  rw [Op.runs, h]

theorem Op.returned_id (o : Op) (a : Todo) (r : Option (List Byte)) : (o.returned a r).id = o.id := by cases r <;> rfl
theorem Op.returned_after (o : Op) (a : Todo) (r : Option (List Byte)) : (o.returned a r).after = o.after := by cases r <;> rfl
theorem Op.returned_length (o : Op) (a : Todo) (r : Option (List Byte)) : (o.returned a r).todo.length = o.todo.length := by
  cases r
  · simp [Op.returned, Op.met]
  · rfl

theorem Todo.meets_without (x : Todo) (ds : List Dest) (a : Todo) : Todo.meets { x with what := x.what.without ds } a = x.meets a := rfl
theorem Todo.meets_of (a : Todo) (x : Todo) (ds : List Dest) : a.meets { x with what := x.what.without ds } = a.meets x := rfl

/-- What holds an access of an operation does not depend on what its accesses return. -/
theorem Group.blocked_returned {g : Group} {o : Op} {a : Todo} {t : List Todo} (r : Option (List Byte)) (h : ∀ b ∈ o.todo, g.blocked o b = false) (ht : o.todo = a :: t)
    (hu : ∀ y ∈ g.ops, y.id = o.id → y = o) (b : Todo) (hb : b ∈ (({ o with todo := t } : Op).returned a r).todo) :
    Group.blocked { g with ops := g.ops.map fun y => if y.id = o.id then (({ o with todo := t } : Op).returned a r) else y } (({ o with todo := t } : Op).returned a r) b = false := by
  obtain ⟨c, hc, hbc⟩ : ∃ c ∈ t, (∀ y : Todo, y.meets b = y.meets c) := by
    cases r with
    | some bs => exact ⟨b, hb, fun _ => rfl⟩
    | none =>
      obtain ⟨c, hc, rfl⟩ := List.mem_map.1 hb
      exact ⟨c, hc, fun _ => rfl⟩
  have hx : (({ o with todo := t } : Op).returned a r).todo.any (fun y => y.meets b) = true → o.todo.any (fun y => y.meets c) = true := by
    intro hy
    obtain ⟨y, hy, hm⟩ := List.any_eq_true.1 hy
    rw [hbc] at hm
    cases r with
    | some bs => exact List.any_eq_true.2 ⟨y, by rw [ht]; exact List.mem_cons_of_mem _ hy, hm⟩
    | none =>
      obtain ⟨z, hz, rfl⟩ := List.mem_map.1 hy
      exact List.any_eq_true.2 ⟨z, by rw [ht]; exact List.mem_cons_of_mem _ hz, hm⟩
  have hc' := h c (by rw [ht]; exact List.mem_cons_of_mem _ hc)
  unfold Group.blocked at hc' ⊢
  rw [List.any_eq_false] at hc' ⊢
  intro y hy
  obtain ⟨z, hz, rfl⟩ := List.mem_map.1 hy
  have := hc' z hz
  rw [Bool.and_eq_true, not_and] at this ⊢
  rw [Op.returned_after]
  have meets_sym (l : List Todo) (d : Todo) : (l.any d.meets) = l.any fun y => y.meets d := by
    congr 1; funext y; unfold Todo.meets
    rw [Bool.eq_iff_iff]
    simp only [Bool.and_eq_true, decide_eq_true_eq]
    constructor <;> rintro ⟨⟨h1, h2⟩, h3⟩ <;> exact ⟨⟨h1.symm, h3⟩, h2⟩
  split
  · rename_i hid
    intro ha
    rw [Op.returned_id] at ha
    have hzo := hu z hz hid
    subst hzo
    have := this ha
    rw [meets_sym] at this ⊢
    exact fun hy => this (hx hy)
  · intro ha hm
    refine this ha ?_
    rw [meets_sym] at hm ⊢
    rwa [show (fun y : Todo => y.meets c) = fun y => y.meets b from funext fun y => (hbc y).symm]

theorem State.withOp_withOp (s : State) (id : Nat) (x y : Op) (h : x.id = id) : (s.withOp id x).withOp id y = s.withOp id y := by
  unfold State.withOp
  simp only [List.map_map]
  congr 3
  funext z
  by_cases hz : z.id = id <;> simp [hz, h]

theorem State.withOp_self {s : State} {o : Op} (hu : ∀ y ∈ s.grp.ops, y.id = o.id → y = o) : s.withOp o.id o = s := by
  unfold State.withOp
  have : (s.grp.ops.map fun y => if y.id = o.id then o else y) = s.grp.ops := by
    conv_rhs => rw [← List.map_id s.grp.ops]
    apply List.map_congr_left
    intro y hy
    split
    · rename_i h; exact (hu y hy h).symm
    · rfl
  rw [this]

theorem Op.runs_group (n : Nat) (s : State) (o : Op) (g : Group) : Op.runs n { s with grp := g } o = ({ (Op.runs n s o).1 with grp := g }, (Op.runs n s o).2) := by
  induction n generalizing s o with
  | zero => rfl
  | succ n ih =>
    unfold Op.runs
    cases o.todo with
    | nil => rfl
    | cons a t => dsimp only; rw [s.doAccess_group g a]; exact ih _ _

theorem State.performN_eq : ∀ (n : Nat) (s : State) (o : Op), o ∈ s.grp.ops → (∀ y ∈ s.grp.ops, y.id = o.id → y = o) → (∀ a ∈ o.todo, s.grp.blocked o a = false) → o.todo.length = n →
    s.performN n o.id = some ({ (Op.runs n s o).1 with grp := s.grp }.withOp o.id (Op.runs n s o).2)
  | 0, s, o, _, hu, _, _ => by
    unfold State.performN Op.runs
    exact congrArg some (State.withOp_self hu).symm
  | n + 1, s, o, hm, hu, hb, hl => by
    cases ht : o.todo with
    | nil => rw [ht] at hl; cases hl
    | cons a t =>
      unfold State.performN
      rw [State.perform_head hm hu ht (hb a (by rw [ht]; exact List.mem_cons_self)), Option.bind_some]
      generalize hx : ({ o with todo := t } : Op).returned a (s.doAccess a).2 = x
      have hid : x.id = o.id := by rw [← hx, Op.returned_id]
      rw [← hid]
      have key := State.performN_eq n ({ (s.doAccess a).1 with grp := s.grp }.withOp x.id x) x ?_ ?_ ?_ ?_
      · rw [key, Op.runs_cons ht, hx]
        have e : (({ (s.doAccess a).1 with grp := s.grp } : State).withOp x.id x) = { (s.doAccess a).1 with grp := (({ (s.doAccess a).1 with grp := s.grp } : State).withOp x.id x).grp } := rfl
        rw [e, Op.runs_group]
        exact congrArg some (State.withOp_withOp { (Op.runs n (s.doAccess a).1 x).1 with grp := s.grp } x.id x _ rfl)
      · exact List.mem_map.2 ⟨o, hm, by rw [if_pos hid.symm]⟩
      · intro y hy hyid
        obtain ⟨z, hz, rfl⟩ := List.mem_map.1 hy
        split at hyid
        · rename_i h; rw [if_pos h]
        · rename_i h; exact absurd hyid h
      · intro b hb'
        have := Group.blocked_returned (g := s.grp) (s.doAccess a).2 hb ht hu b (by rw [hx]; exact hb')
        rw [hx, ← hid] at this
        exact this
      · rw [← hx, Op.returned_length]
        rw [ht] at hl
        simpa using hl

/-- Performing all that an operation has left, where nothing holds it. -/
theorem State.performAll_eq {s : State} {o : Op} (hm : o ∈ s.grp.ops) (hu : ∀ y ∈ s.grp.ops, y.id = o.id → y = o) (hb : ∀ a ∈ o.todo, s.grp.blocked o a = false) :
    s.performAll o.id = some ({ (Op.runs o.todo.length s o).1 with grp := s.grp }.withOp o.id (Op.runs o.todo.length s o).2) := by
  unfold State.performAll
  rw [Group.find_op hm hu]
  exact State.performN_eq _ s o hm hu hb rfl

/-! ## What accesses return -/

/-- The state after some accesses. -/
def State.after (s : State) (l : List Todo) : State := l.foldl (fun s a => (s.doAccess a).1) s

/-- What some accesses make of a destination's value: 0 once one has met an uncorrectable error in what goes there (R176). -/
def returnedTo (s : State) (d : Dest) : List Todo → VAddr → VAddr
  | [], v => v
  | a :: t, v => match (s.doAccess a).2 with
    | some bs => returnedTo (s.doAccess a).1 d t (a.what.parts.foldl (fun v p => if p.dest = d then v ||| p.value bs else v) v)
    | none => if (a.what.parts.map Part.dest).contains d then 0 else returnedTo (s.doAccess a).1 d t v

/-- The lanes of those that meet an error, with the addresses to report. -/
def metBy (s : State) : List Todo → List (Nat × VAddr)
  | [] => []
  | a :: t => (match (s.doAccess a).2 with | some _ => [] | none => [(a.lane, a.va)]) ++ metBy (s.doAccess a).1 t

theorem parts_foldl_none {d : Dest} {ps : List Part} (h : ∀ p ∈ ps, p.dest ≠ d) (bs : List Byte) (v : VAddr) :
    ps.foldl (fun v p => if p.dest = d then v ||| p.value bs else v) v = v := by
  induction ps generalizing v with
  | nil => rfl
  | cons p ps ih =>
    rw [List.foldl_cons, if_neg (h p List.mem_cons_self)]
    exact ih (fun q hq => h q (List.mem_cons_of_mem _ hq)) v

theorem parts_foldl_filter (d : Dest) (bs : List Byte) (ps : List Part) (v : VAddr) : ps.foldl (fun v q => if q.dest = d then v ||| q.value bs else v) v =
    (ps.filter fun q => decide (q.dest = d)).foldl (fun v q => v ||| q.value bs) v := by
  induction ps generalizing v with
  | nil => rfl
  | cons q ps ih =>
    rw [List.foldl_cons, ih]
    by_cases hq : q.dest = d <;> simp [hq]

/-- Accesses that read nothing for a destination leave its value. -/
theorem returnedTo_other {s : State} {d : Dest} {l : List Todo} (h : ∀ a ∈ l, ∀ p ∈ a.what.parts, p.dest ≠ d) (v : VAddr) : returnedTo s d l v = v := by
  induction l generalizing s v with
  | nil => rfl
  | cons a t ih =>
    have ht := fun b hb => h b (List.mem_cons_of_mem a hb)
    have ha := h a List.mem_cons_self
    unfold returnedTo
    split
    · rw [ih ht, parts_foldl_none ha]
    · rw [if_neg, ih ht]
      intro hc
      obtain ⟨p, hp, hpd⟩ := List.mem_map.1 (List.contains_iff_mem.1 hc)
      exact ha p hp hpd

/-- An access that reads for some destinations no more. -/
def Todo.trim (ds : List Dest) (a : Todo) : Todo := { a with what := a.what.without ds }

theorem AccessKind.without_parts (k : AccessKind) (ds : List Dest) : (k.without ds).parts = k.parts.filter fun p => !ds.contains p.dest := by
  cases k <;> rfl

theorem Todo.trim_parts (ds : List Dest) (a : Todo) : (a.trim ds).what.parts = a.what.parts.filter fun p => !ds.contains p.dest := AccessKind.without_parts _ _

theorem State.doAccess_trim (s : State) (ds : List Dest) (a : Todo) : s.doAccess (a.trim ds) = s.doAccess a := by
  unfold Todo.trim State.doAccess
  cases h : a.what <;> rfl

theorem metBy_trim (s : State) (ds : List Dest) (l : List Todo) : metBy s (l.map (Todo.trim ds)) = metBy s l := by
  induction l generalizing s with
  | nil => rfl
  | cons a t ih =>
    rw [List.map_cons]
    unfold metBy
    rw [State.doAccess_trim, ih]
    rfl

theorem returnedTo_trim {s : State} {d : Dest} {ds : List Dest} (l : List Todo) (v : VAddr) :
    returnedTo s d (l.map (Todo.trim ds)) v = if ds.contains d then v else returnedTo s d l v := by
  split
  · rename_i hd
    apply returnedTo_other
    intro b hb p hp hpd
    obtain ⟨a, -, rfl⟩ := List.mem_map.1 hb
    rw [Todo.trim_parts, List.mem_filter, hpd, hd] at hp
    exact absurd hp.2 (by decide)
  · rename_i hd
    induction l generalizing s v with
    | nil => rfl
    | cons a t ih =>
      have hf : ((a.what.parts.filter fun p => !ds.contains p.dest).filter fun q => decide (q.dest = d)) = a.what.parts.filter fun q => decide (q.dest = d) := by
        rw [List.filter_filter]
        apply List.filter_congr
        intro p _
        by_cases hp : p.dest = d
        · simpa [hp] using hd
        · simp [hp]
      have hc : (((a.what.parts.filter fun p => !ds.contains p.dest).map Part.dest).contains d) = (a.what.parts.map Part.dest).contains d := by
        rw [Bool.eq_iff_iff, List.contains_iff_mem, List.contains_iff_mem, List.mem_map, List.mem_map]
        constructor
        · rintro ⟨p, hp, rfl⟩; exact ⟨p, (List.mem_filter.1 hp).1, rfl⟩
        · rintro ⟨p, hp, rfl⟩; exact ⟨p, List.mem_filter.2 ⟨hp, by simpa using hd⟩, rfl⟩
      rw [List.map_cons, returnedTo, returnedTo, State.doAccess_trim, Todo.trim_parts]
      simp only [hc, ih, parts_foldl_filter d, hf]

theorem State.after_trim (s : State) (ds : List Dest) (l : List Todo) : s.after (l.map (Todo.trim ds)) = s.after l := by
  unfold State.after
  rw [List.foldl_map]
  congr 1
  funext s a
  rw [State.doAccess_trim]

/-- Performing all that an operation has left, one after the other. -/
theorem Op.runs_eq : ∀ (n : Nat) (s : State) (o : Op), o.todo.length = n →
    Op.runs n s o = (s.after o.todo, { o with
      todo := [], fills := o.fills.map fun (f : Fill) => { f with val := returnedTo s f.dest o.todo f.val }, poisoned := o.poisoned ++ metBy s o.todo })
  | 0, s, o, hl => by
    rw [List.length_eq_zero_iff] at hl
    obtain ⟨id, path, ent, fills, done, auto, uses, sout, todo, after, poisoned, order⟩ := o
    subst hl
    simp [Op.runs, returnedTo, metBy, State.after]
  | n + 1, s, o, hl => by
    cases ht : o.todo with
    | nil => rw [ht] at hl; cases hl
    | cons a t =>
      rw [ht] at hl
      have hlen : (({ o with todo := t } : Op).returned a (s.doAccess a).2).todo.length = n := by rw [Op.returned_length]; simpa using hl
      rw [Op.runs_cons ht, Op.runs_eq n _ _ hlen]
      cases hr : (s.doAccess a).2 with
      | some bs =>
        unfold Op.returned Op.took
        simp only [List.map_map, Function.comp_def, metBy, returnedTo, hr, List.nil_append]
        rfl
      | none =>
        unfold Op.returned Op.met
        have hm : (t.map fun (x : Todo) => { x with what := x.what.without (a.what.parts.map Part.dest) }) = t.map (Todo.trim (a.what.parts.map Part.dest)) := rfl
        simp only [hm, List.map_map, Function.comp_def, metBy, returnedTo, hr, metBy_trim, State.after_trim, List.append_assoc]
        refine congrArg (fun l : List Fill => ((s.doAccess a).1.after t, { o with todo := [], fills := l, poisoned := o.poisoned ++ ([(a.lane, a.va)] ++ metBy (s.doAccess a).1 t) })) ?_
        apply List.map_congr_left
        intro f _
        by_cases hc : (a.what.parts.map Part.dest).contains f.dest = true
        · rw [if_pos hc, returnedTo_trim, if_pos hc]; simp only [hc, if_true]
        · rw [if_neg hc, returnedTo_trim, if_neg hc]; simp only [hc, Bool.false_eq_true, if_false]

theorem State.withOp_only {s : State} {o : Op} (id : Nat) (x : Op) (hu : ∀ y ∈ s.grp.ops, y.id = id → y = o) (f : Op → Op) (hx : f o = x) :
    (s.withOp id x).grp.ops = s.grp.ops.map fun y => if y.id = id then f y else y := by
  apply List.map_congr_left
  intro y hy
  split
  · rename_i h; rw [hu y hy h, hx]
  · rfl

/-- What performing an operation does, where nothing holds its accesses. -/
theorem State.all_performed {u : State} {o : Op} (hp : u.Performable o) (h0 : ∀ f ∈ o.fills, f.val = 0) (hn : o.poisoned = []) :
    ∃ v, u.performAll o.id = some v ∧ v = { u.after o.todo with grp := { u.grp with ops := v.grp.ops } } ∧
      v.grp.ops = u.grp.ops.map fun y => if y.id = o.id then
        { y with todo := [], fills := y.fills.map (fun (f : Fill) => { f with val := returnedTo u f.dest o.todo 0 }), poisoned := metBy u o.todo } else y := by
  obtain ⟨us, hm, hu, hb⟩ := hp
  have hq := State.performAll_eq hm hu hb
  rw [Op.runs_eq _ u { o with uses := us } rfl] at hq
  refine ⟨_, hq, rfl, State.withOp_only o.id _ hu (fun y =>
    { y with todo := [], fills := y.fills.map (fun (f : Fill) => { f with val := returnedTo u f.dest o.todo 0 }), poisoned := metBy u o.todo }) ?_⟩
  simp only [hn, List.nil_append]
  congr 1
  apply List.map_congr_left
  intro f hf
  rw [h0 f hf]

/-! ## Loads -/

theorem State.after_loads {s : State} {l : List Todo} (h : ∀ a ∈ l, ∃ ps, a.what = .load ps) : s.after l = s := by
  induction l with
  | nil => rfl
  | cons a t ih =>
    obtain ⟨ps, hps⟩ := h a List.mem_cons_self
    have : (s.doAccess a).1 = s := by unfold State.doAccess; rw [hps]
    unfold State.after at ih ⊢
    rw [List.foldl_cons, this]
    exact ih fun b hb => h b (List.mem_cons_of_mem _ hb)

theorem State.doAccess_load (s : State) {a : Todo} {ps : List Part} (h : a.what = .load ps) : s.doAccess a = (s, s.todoRead a) := by
  unfold State.doAccess; rw [h]

theorem metBy_loads {s : State} {l : List Todo} (h : ∀ a ∈ l, ∃ ps, a.what = .load ps) : metBy s l = (l.filter fun a => (s.todoRead a).isNone).map fun a => (a.lane, a.va) := by
  induction l with
  | nil => rfl
  | cons a t ih =>
    obtain ⟨ps, hps⟩ := h a List.mem_cons_self
    unfold metBy
    rw [State.doAccess_load s hps, ih fun b hb => h b (List.mem_cons_of_mem _ hb)]
    cases hr : s.todoRead a <;> simp [hr]

/-- What an operation of loads alone does. -/
theorem State.loads_performed {u : State} {o : Op} (hp : u.Performable o) (hl : ∀ a ∈ o.todo, ∃ ps, a.what = .load ps) (h0 : ∀ f ∈ o.fills, f.val = 0) (hn : o.poisoned = []) :
    ∃ v, u.performAll o.id = some v ∧ MemoryKept u v ∧
      Performs o (fun d => returnedTo u d o.todo 0) (fun x => ∃ a ∈ o.todo, u.todoRead a = none ∧ x = (a.lane, a.va)) u v := by
  obtain ⟨v, h1, h2, h3⟩ := State.all_performed hp h0 hn
  rw [State.after_loads hl] at h2
  refine ⟨v, h1, ⟨by rw [h2], by rw [h2], by rw [h2], by rw [h2], by rw [h2]⟩, ⟨_, ?_, h3⟩, by rw [h2]⟩
  intro x
  rw [metBy_loads hl]
  simp only [List.mem_map, List.mem_filter, Option.isNone_iff_eq_none]
  constructor
  · rintro ⟨a, ⟨ha, hr⟩, rfl⟩; exact ⟨a, ha, hr, rfl⟩
  · rintro ⟨a, ha, hr, rfl⟩; exact ⟨a, ⟨ha, hr⟩, rfl⟩

theorem Performs.congr {o : Op} {val val' : Dest → VAddr} {met met' : Nat × VAddr → Prop} {u v : State} (h : Performs o val met u v) (hm : ∀ x, met x ↔ met' x)
    (hv : ∀ f ∈ o.fills, val f.dest = val' f.dest) (hu : ∀ y ∈ u.grp.ops, y.id = o.id → y.fills = o.fills) : Performs o val' met' u v := by
  obtain ⟨⟨ps, h1, h2⟩, h3⟩ := h
  refine ⟨⟨ps, fun x => (h1 x).trans (hm x), h2.trans ?_⟩, h3⟩
  apply List.map_congr_left
  intro y hy
  split
  · rename_i hid
    have hf : (y.fills.map fun (f : Fill) => { f with val := val f.dest }) = y.fills.map fun (f : Fill) => { f with val := val' f.dest } := by
      apply List.map_congr_left
      intro f hf
      rw [hv f (hu y hy hid ▸ hf)]
    rw [hf]
  · rfl

/-- The one access that reads for a destination. -/
theorem returnedTo_at {s : State} {d : Dest} {l₁ l₂ : List Todo} {a : Todo} {p : Part} (h₁ : ∀ b ∈ l₁, ∀ q ∈ b.what.parts, q.dest ≠ d) (h₂ : ∀ b ∈ l₂, ∀ q ∈ b.what.parts, q.dest ≠ d)
    (hp : (a.what.parts.filter fun q => decide (q.dest = d)) = [p]) : returnedTo s d (l₁ ++ a :: l₂) 0 = ((((s.after l₁).doAccess a).2).map p.value).getD 0 := by
  induction l₁ generalizing s with
  | nil =>
    have hmem : (a.what.parts.map Part.dest).contains d = true := by
      have : p ∈ a.what.parts.filter fun q => decide (q.dest = d) := by rw [hp]; exact List.mem_cons_self
      rw [List.mem_filter] at this
      exact List.contains_iff_mem.2 (List.mem_map.2 ⟨p, this.1, by simpa using this.2⟩)
    rw [List.nil_append, returnedTo, show s.after [] = s from rfl]
    cases (s.doAccess a).2 with
    | none => simp only [hmem, if_true]; rfl
    | some bs => simp only [returnedTo_other h₂, parts_foldl_filter d, hp]; simp
  | cons b t ih =>
    have hb := h₁ b List.mem_cons_self
    have hn : ¬ (b.what.parts.map Part.dest).contains d = true := by
      intro hc
      obtain ⟨q, hq, hqd⟩ := List.mem_map.1 (List.contains_iff_mem.1 hc)
      exact hb q hq hqd
    rw [List.cons_append, returnedTo]
    have := ih (s := (s.doAccess b).1) fun c hc => h₁ c (List.mem_cons_of_mem _ hc)
    split
    · rw [parts_foldl_none hb, this]; rfl
    · rw [if_neg hn, this]; rfl

/-- Destination d is that of word k of lane i. -/
def Names (reg : Option Nat) (push : Bool) (i k : Nat) (d : Dest) : Prop := (∃ r, reg = some r ∧ d = .v i (r + k)) ∨ (push = true ∧ d = .q i k)

theorem resultDests_filter {reg : Option Nat} {push : Bool} {i k : Nat} {d : Dest} (h : Names reg push i k d) (j m : Nat) :
    ((resultDests reg push j m).filter fun y => decide (y = d)) = if j = i ∧ m = k then [d] else [] := by
  unfold resultDests
  rcases h with ⟨r, rfl, rfl⟩ | ⟨rfl, rfl⟩
  · by_cases hj : j = i
    · by_cases hm : m = k
      · cases push <;> simp [hj, hm]
      · have : r + m ≠ r + k := by omega
        cases push <;> simp [hj, hm]
    · cases push <;> simp [hj]
  · by_cases hj : j = i
    · by_cases hm : m = k
      · cases reg <;> simp [hj, hm]
      · cases reg <;> simp [hj, hm]
    · cases reg <;> simp [hj]

theorem filter_flatMap_one {α β : Type} {l : List α} {f : α → List β} {x : α} {r : List β} (hx : x ∈ l) (hn : l.Nodup) (h1 : f x = r) (h2 : ∀ y ∈ l, y ≠ x → f y = []) :
    l.flatMap f = r := by
  induction l with
  | nil => cases hx
  | cons a t ih =>
    rw [List.nodup_cons] at hn
    rw [List.flatMap_cons]
    by_cases ha : a = x
    · subst ha
      rw [h1]
      have : t.flatMap f = [] := by
        rw [List.flatMap_eq_nil_iff]
        intro y hy
        exact h2 y (List.mem_cons_of_mem _ hy) fun e => hn.1 (e ▸ hy)
      rw [this, List.append_nil]
    · rw [h2 a List.mem_cons_self ha, List.nil_append]
      exact ih ((List.mem_cons.1 hx).resolve_left fun e => ha e.symm) hn.2 fun y hy => h2 y (List.mem_cons_of_mem _ hy)

/-- The parts that a unit reads for the destination of word k of lane i. -/
theorem wordParts_filter {nw size : Nat} {signed : Bool} {reg : Option Nat} {push : Bool} {i k : Nat} {d : Dest} (h : Names reg push i k d) (hk : k < nw) (j o len : Nat) :
    ((wordParts nw size signed (resultDests reg push j) o len).filter fun q => decide (q.dest = d)) =
      if j = i ∧ o ≤ 4 * k ∧ 4 * k < o + len then [{ dest := d, from_ := 4 * k - o, size, signed }] else [] := by
  have hf (m : Nat) : (((resultDests reg push j m).map fun y => ({ dest := y, from_ := 4 * m - o, size, signed } : Part)).filter fun q => decide (q.dest = d)) =
      if j = i ∧ m = k then [{ dest := d, from_ := 4 * k - o, size, signed }] else [] := by
    rw [List.filter_map, show ((fun q : Part => decide (q.dest = d)) ∘ fun y => ({ dest := y, from_ := 4 * m - o, size, signed } : Part)) = fun y => decide (y = d) from rfl, resultDests_filter h]
    split
    · rename_i hjm; rw [hjm.2]; rfl
    · rfl
  unfold wordParts
  rw [List.filter_flatMap]
  simp only [hf]
  split
  · rename_i hc
    refine filter_flatMap_one (x := k) ?_ (List.nodup_range.filter _) (by rw [if_pos ⟨hc.1, rfl⟩]) (fun y _ hy => by rw [if_neg fun e => hy e.2])
    rw [List.mem_filter, List.mem_range]
    exact ⟨hk, by simp [hc.2.1, hc.2.2]⟩
  · rename_i hc
    rw [List.flatMap_eq_nil_iff]
    intro m hm
    rw [List.mem_filter] at hm
    rw [if_neg]
    rintro ⟨rfl, rfl⟩
    exact hc ⟨rfl, by simpa using hm.2⟩

theorem parts_none {ps : List Part} {d : Dest} (h : (ps.filter fun q => decide (q.dest = d)) = []) : ∀ q ∈ ps, q.dest ≠ d := by
  rw [List.filter_eq_nil_iff] at h
  exact fun q hq e => h q hq (by simpa using e)

/-- The value of word k of lane i, from the unit that holds it, as the accesses before it left the state. -/
theorem returnedTo_units {u : State} {lanes : List Nat} (hnd : lanes.Nodup) {M g nw size : Nat} {signed : Bool} {reg : Option Nat} {push : Bool} {mk : Nat → Nat → Todo} {len : Nat → Nat}
    (hmk : ∀ i m, (mk i m).what.parts = wordParts nw size signed (resultDests reg push i) (g * m) (len m)) (hlen : ∀ m, len m ≤ g)
    {i k m : Nat} {d : Dest} (hi : i ∈ lanes) (hk : k < nw) (h : Names reg push i k d) (hm : m < M) (h1 : g * m ≤ 4 * k) (h2 : 4 * k < g * m + len m) :
    ∃ l, (∀ b ∈ l, ∃ j m, b = mk j m) ∧ returnedTo u d (lanes.flatMap fun i => (List.range M).map (mk i)) 0 =
      ((((u.after l).doAccess (mk i m)).2).map (Part.value { dest := d, from_ := 4 * k - g * m, size, signed })).getD 0 := by
  have hno (j o : Nat) (hjo : j ≠ i ∨ o ≠ m) : ∀ q ∈ (mk j o).what.parts, q.dest ≠ d := by
    apply parts_none
    rw [hmk, wordParts_filter h hk, if_neg]
    rintro ⟨rfl, h3, h4⟩
    rcases hjo with hj | ho
    · exact hj rfl
    · have := hlen o
      have := hlen m
      rcases Nat.lt_or_gt_of_ne ho with hlt | hlt
      · have : g * o + g ≤ g * m := by rw [← Nat.mul_succ]; exact Nat.mul_le_mul_left g hlt
        omega
      · have : g * m + g ≤ g * o := by rw [← Nat.mul_succ]; exact Nat.mul_le_mul_left g hlt
        omega
  obtain ⟨A, B, rfl⟩ := List.append_of_mem hi
  have hni : i ∉ A ∧ i ∉ B := by
    rw [List.nodup_append] at hnd
    refine ⟨fun hA => (hnd.2.2 i hA i List.mem_cons_self) rfl, ?_⟩
    exact (List.nodup_cons.1 hnd.2.1).1
  obtain ⟨C, D, hCD⟩ := List.append_of_mem (List.mem_range.2 hm)
  have hnm : m ∉ C ∧ m ∉ D := by
    have := List.nodup_range (n := M)
    rw [hCD, List.nodup_append] at this
    exact ⟨fun hC => (this.2.2 m hC m List.mem_cons_self) rfl, (List.nodup_cons.1 this.2.1).1⟩
  have hlist : ((A ++ i :: B).flatMap fun i => (List.range M).map (mk i)) =
      ((A.flatMap fun i => (List.range M).map (mk i)) ++ C.map (mk i)) ++ mk i m :: (D.map (mk i) ++ B.flatMap fun i => (List.range M).map (mk i)) := by
    rw [List.flatMap_append, List.flatMap_cons, hCD]
    simp
  have ho (L : List Nat) (hL : i ∉ L) : ∀ b ∈ L.flatMap (fun i => (List.range M).map (mk i)), ∀ q ∈ b.what.parts, q.dest ≠ d := by
    intro b hb
    obtain ⟨j, hj, hb⟩ := List.mem_flatMap.1 hb
    obtain ⟨o, -, rfl⟩ := List.mem_map.1 hb
    exact hno j o (.inl fun e => hL (e ▸ hj))
  have hs (L : List Nat) (hL : m ∉ L) : ∀ b ∈ L.map (mk i), ∀ q ∈ b.what.parts, q.dest ≠ d := by
    intro b hb
    obtain ⟨o, ho', rfl⟩ := List.mem_map.1 hb
    exact hno i o (.inr fun e => hL (e ▸ ho'))
  rw [hlist]
  refine ⟨_, ?_, returnedTo_at (l₁ := (A.flatMap fun i => (List.range M).map (mk i)) ++ C.map (mk i)) ?_ ?_ (by rw [hmk, wordParts_filter h hk, if_pos ⟨rfl, h1, h2⟩])⟩
  · intro b hb
    rcases List.mem_append.1 hb with hb | hb
    · obtain ⟨j, -, hb⟩ := List.mem_flatMap.1 hb
      obtain ⟨o, -, rfl⟩ := List.mem_map.1 hb
      exact ⟨j, o, rfl⟩
    · obtain ⟨o, -, rfl⟩ := List.mem_map.1 hb
      exact ⟨i, o, rfl⟩
  · intro b hb
    rcases List.mem_append.1 hb with hb | hb
    · exact ho A hni.1 b hb
    · exact hs C hnm.1 b hb
  · intro b hb
    rcases List.mem_append.1 hb with hb | hb
    · exact hs D hnm.2 b hb
    · exact ho B hni.2 b hb

/-- The accesses of a global form, lane by lane, unit by unit. -/
theorem todoOf_lanes (s : State) (n : Need) (g size : Nat) (ea : Nat → VAddr) (what : Nat → Nat → Nat → AccessKind) :
    s.todoOf n false g (s.accesses size ea) what = s.activeLanes.flatMap fun i => (List.range ((size + g - 1) / g)).map fun m =>
      { lane := i, addr := s.pa n (ea i + BitVec.ofNat 80 (g * m)), size := min g (size - g * m), va := ea i, what := what i (g * m) (min g (size - g * m)) } := by
  unfold State.todoOf State.accesses unitsOf
  rw [List.flatMap_map]
  simp only [List.map_map, Function.comp_def, Bool.false_eq_true, if_false]

theorem activeLanes_nodup (s : State) : s.activeLanes.Nodup := List.nodup_range.filter _

/-- A load result's operation, from the operations that it adds. -/
theorem OpAdded.eq {path : Path} {fills : Fill → Prop} {us : List RemoteUse} {todo : List Todo} {s t : State} (h : OpAdded path fills us todo s t) {op : Op}
    (ho : t.grp.ops = s.grp.ops ++ [op]) : op.todo = todo ∧ op.poisoned = [] ∧ ∀ f, f ∈ op.fills ↔ fills f := by
  obtain ⟨o, h1, h2, -, h4⟩ := h.added
  rw [h1] at ho
  have : o = op := by simpa using ho
  subst this
  exact ⟨by rw [h4], by rw [h4], h2⟩

/-- What a part of at most a word takes of the bytes read. -/
theorem word_value (p : Part) (m : Memory) (a n : Nat) (h : p.from_ + p.size ≤ n) (hb : p.bit = 0) (hs : p.size ≤ 4) :
    p.value (m.readBytes a n) = if p.signed then ((BitVec.ofNat (8 * p.size) (leNat (m.readBytes (a + p.from_) p.size))).signExtend 32).setWidth 80
      else (BitVec.ofNat 32 (leNat (m.readBytes (a + p.from_) p.size))).setWidth 80 := by
  have hl : ∀ (n : Nat) a, leNat (m.readBytes a n) < 256 ^ n := by
    intro n
    induction n with
    | zero => intro a; simp [Memory.readBytes, leNat]
    | succ n ih =>
      intro a
      have := ih (a + 1)
      have h8 := (m.read a).isLt
      simp only [Memory.readBytes, leNat, Nat.pow_succ]
      omega
  unfold Part.value
  rw [Memory.readBytes_part _ _ _ _ _ h, hb]
  dsimp only
  split
  · simp
  · have h1 := hl p.size (a + p.from_)
    have h2 : 256 ^ p.size ≤ 256 ^ 4 := Nat.pow_le_pow_right (by omega) hs
    apply BitVec.eq_of_toNat_eq
    simp only [BitVec.toNat_shiftLeft, BitVec.toNat_ofNat, BitVec.toNat_setWidth, Nat.shiftLeft_zero]
    omega

/-- What a global load's accesses return, performed together. -/
theorem State.load_performed {s t u : State} {path : Path} {d : BitVec 7} {push signed : Bool} {n size g : Nat} {ea : Nat → VAddr} {us : List RemoteUse} (hg : 0 < g)
    (hu : ∀ k < n, 4 * k - g * (4 * k / g) + min size 4 ≤ min g (size - g * (4 * k / g)))
    (hz : 0 < size)
    (hr : LoadResult path (namedReg d) push n (fun _ _ => 0) us (s.todoOf { r := true } false g (s.accesses size ea) fun i o len =>
      .load (wordParts n (min size 4) signed (resultDests (dReg d) push i) o len)) s t) {op : Op} (ho : t.grp.ops = s.grp.ops ++ [op]) (hp : u.Performable op) :
    let pa (i k : Nat) : Nat := s.pa { r := true } (ea i + BitVec.ofNat 80 (g * k))
    let len (k : Nat) : Nat := min g (size - g * k)
    ∃ v, u.performAll op.id = some v ∧ MemoryKept u v ∧
      Performs op (laneResults (d.toNat % 64) fun i k => let m := 4 * k / g
          if u.poisonedAt (pa i m) (len m) then 0 else
            if signed then ((BitVec.ofNat (8 * min size 4) (leNat (u.mem.readBytes (pa i m + (4 * k - g * m)) (min size 4)))).signExtend 32).setWidth 80
            else (BitVec.ofNat 32 (leNat (u.mem.readBytes (pa i m + (4 * k - g * m)) (min size 4)))).setWidth 80)
        (fun y => ∃ i ∈ s.activeLanes, ∃ k, g * k < size ∧ u.poisonedAt (pa i k) (len k) = true ∧ y = (i, ea i)) u v := by
  intro pa len
  obtain ⟨ht, hpo, hf⟩ := hr.op.eq ho
  rw [todoOf_lanes] at ht
  have hM (k : Nat) : k < (size + g - 1) / g ↔ g * k < size := by
    rw [Nat.lt_div_iff_mul_lt hg, Nat.mul_comm]; omega
  obtain ⟨v, h1, h2, h3⟩ := State.loads_performed hp (by
      rw [ht]; intro a ha
      obtain ⟨i, -, ha⟩ := List.mem_flatMap.1 ha
      obtain ⟨m, -, rfl⟩ := List.mem_map.1 ha
      exact ⟨_, rfl⟩) (by
      intro f hfm
      obtain ⟨i, k, -, -, ⟨r, -, rfl⟩ | ⟨-, rfl⟩⟩ := (hf f).1 hfm <;> rfl) hpo
  refine ⟨v, h1, h2, h3.congr ?_ ?_ ?_⟩
  · intro x
    rw [ht]
    constructor
    · rintro ⟨a, ha, hr, rfl⟩
      obtain ⟨i, hi, ha⟩ := List.mem_flatMap.1 ha
      obtain ⟨m, hm, rfl⟩ := List.mem_map.1 ha
      refine ⟨i, hi, m, (hM m).1 (List.mem_range.1 hm), ?_, rfl⟩
      unfold State.todoRead at hr
      dsimp only at hr
      split at hr
      · assumption
      · cases hr
    · rintro ⟨i, hi, m, hm, hb, rfl⟩
      refine ⟨_, List.mem_flatMap.2 ⟨i, hi, List.mem_map.2 ⟨m, List.mem_range.2 ((hM m).2 hm), rfl⟩⟩, ?_, rfl⟩
      unfold State.todoRead
      dsimp only
      rw [if_pos hb]
  · intro f hfm
    obtain ⟨i, k, hi, hk, hn⟩ := (hf f).1 hfm
    have hnames : Names (namedReg d) push i k f.dest := by
      rcases hn with ⟨r, hr, rfl⟩ | ⟨hr, rfl⟩
      · exact .inl ⟨r, hr, rfl⟩
      · exact .inr ⟨hr, rfl⟩
    have hlr (w : Nat → Nat → VAddr) : laneResults (d.toNat % 64) w f.dest = w i k := by
      rcases hnames with ⟨r, hr, hd⟩ | ⟨-, hd⟩
      · rw [hd]
        unfold namedReg at hr
        split at hr
        · cases hr
        · cases hr
          show w i (d.toNat % 64 + k - d.toNat % 64) = w i k
          rw [Nat.add_sub_cancel_left]
      · rw [hd]; rfl
    rw [hlr, ht]
    have hk' := hu k hk
    have hmod := Nat.mul_div_le (4 * k) g
    have h4 : 0 < min size 4 := by omega
    obtain ⟨l, hl, hv⟩ := returnedTo_units (u := u) (activeLanes_nodup s) (g := g) (nw := n) (size := min size 4) (signed := signed) (reg := dReg d) (push := push) (len := len) (i := i) (k := k) (m := 4 * k / g)
      (mk := fun i m => { lane := i, addr := pa i m, size := len m, va := ea i, what := .load (wordParts n (min size 4) signed (resultDests (dReg d) push i) (g * m) (len m)) })
      (fun _ _ => rfl) (fun m => Nat.min_le_left _ _) hi hk hnames ((hM _).2 (by omega)) hmod (by show 4 * k < g * (4 * k / g) + min g (size - g * (4 * k / g)); omega)
    rw [State.after_loads (fun a ha => by obtain ⟨j, m, rfl⟩ := hl a ha; exact ⟨_, rfl⟩), State.doAccess_load u rfl] at hv
    refine Eq.trans hv ?_
    by_cases hb : u.poisonedAt (pa i (4 * k / g)) (len (4 * k / g)) = true
    · have hr : u.todoRead { lane := i, addr := pa i (4 * k / g), size := len (4 * k / g), va := ea i, what := .load (wordParts n (min size 4) signed (resultDests (dReg d) push i) (g * (4 * k / g)) (len (4 * k / g))) } = none := if_pos hb
      rw [hr, if_pos hb]; rfl
    · have hr : u.todoRead { lane := i, addr := pa i (4 * k / g), size := len (4 * k / g), va := ea i, what := .load (wordParts n (min size 4) signed (resultDests (dReg d) push i) (g * (4 * k / g)) (len (4 * k / g))) } = some (u.mem.readBytes (pa i (4 * k / g)) (len (4 * k / g))) := if_neg hb
      rw [hr, if_neg hb, Option.map_some, Option.getD_some]
      exact word_value _ _ _ _ hk' rfl (Nat.min_le_right _ _)
  · intro y hy hid
    obtain ⟨us, -, hu, -⟩ := hp
    rw [hu y hy hid]


/-! ## Stores -/

theorem State.storeBytes_length (s : State) (d : BitVec 7) (n size i : Nat) (h : size ≤ 4 * n) : (s.storeBytes d n size i).length = size := by
  have : ((List.range n).flatMap fun k => leBytes (s.read (codePlus (d.setWidth 8) k) i).toNat 4).length = 4 * n := by
    rw [List.length_flatMap]
    simp [Nat.mul_comm]
  rw [State.storeBytes, List.length_take, this]
  omega

theorem leBytes_getD (x n k : Nat) (h : k < n) : (leBytes x n).getD k 0 = BitVec.ofNat 8 (x / 256 ^ k) := by
  induction n generalizing x k with
  | zero => omega
  | succ n ih =>
    cases k with
    | zero => simp [leBytes]
    | succ k =>
      rw [leBytes, List.getD_cons_succ, ih _ _ (by omega), Nat.div_div_eq_div_mul, Nat.pow_succ, Nat.mul_comm]

theorem word_byte (w : Word) (k : Nat) (_ : k < 4) : BitVec.ofNat 8 (w.toNat / 256 ^ k) = w.extractLsb' (8 * k) 8 := by
  apply BitVec.eq_of_toNat_eq
  rw [BitVec.toNat_ofNat, BitVec.extractLsb'_toNat, Nat.shiftRight_eq_div_pow, show (256 : Nat) = 2 ^ 8 from rfl, ← Nat.pow_mul]

theorem State.storeBytes_getD (s : State) (d : BitVec 7) (n size i k : Nat) (hk : k < size) (h : size ≤ 4 * n) : (s.storeBytes d n size i).getD k 0 = s.storeByte d i k := by
  have key : ∀ n k, k < 4 * n → ((List.range n).flatMap fun k => leBytes (s.read (codePlus (d.setWidth 8) k) i).toNat 4).getD k 0 = s.storeByte d i k := by
    intro n
    induction n with
    | zero => intro k hk; omega
    | succ n ih =>
      intro k hk
      have hl : ((List.range n).flatMap fun k => leBytes (s.read (codePlus (d.setWidth 8) k) i).toNat 4).length = 4 * n := by
        rw [List.length_flatMap]; simp [Nat.mul_comm]
      rw [List.range_succ, List.flatMap_append]
      simp only [List.flatMap_cons, List.flatMap_nil, List.append_nil, List.getD_eq_getElem?_getD]
      by_cases h1 : k < 4 * n
      · rw [List.getElem?_append_left (by omega), ← List.getD_eq_getElem?_getD, ih k h1]
      · rw [List.getElem?_append_right (by omega), ← List.getD_eq_getElem?_getD, hl, leBytes_getD _ _ _ (by omega), word_byte _ _ (by omega)]
        unfold State.storeByte
        rw [show k / 4 = n by omega, show k % 4 = k - 4 * n by omega]
  rw [State.storeBytes, List.getD_eq_getElem?_getD, List.getElem?_take_of_lt hk, ← List.getD_eq_getElem?_getD]
  exact key n k (by omega)

/-- An access that stores bytes. -/
def Todo.bytes (a : Todo) : List Byte := match a.what with
  | .store bs => bs
  | _ => []

theorem metBy_stores {l : List Todo} (h : ∀ a ∈ l, ∃ bs, a.what = .store bs) (s : State) : metBy s l = [] := by
  induction l generalizing s with
  | nil => rfl
  | cons a t ih =>
    obtain ⟨bs, hbs⟩ := h a List.mem_cons_self
    have : (s.doAccess a).2 = some [] := by unfold State.doAccess; rw [hbs]
    rw [metBy, this, ih fun b hb => h b (List.mem_cons_of_mem _ hb)]
    rfl

/-- Stores to memory: each byte stored holds one of the bytes stored there, every other is kept; the errors of the bytes stored are removed. -/
theorem State.after_stores {l : List Todo} (h : ∀ a ∈ l, a.spad = none ∧ ∃ bs, a.what = .store bs) (s : State) (w : s.dev.mem.wf = true) :
    s.after l = { s with dev := { s.dev with mem := (s.after l).dev.mem, poison := (s.after l).dev.poison } } ∧ (s.after l).dev.mem.wf = true ∧
      (∀ p, p ∈ (s.after l).dev.poison ↔ p ∈ s.dev.poison ∧ ∀ a ∈ l, p < a.addr ∨ a.addr + a.bytes.length ≤ p) ∧
      ∀ x, (∃ a ∈ l, ∃ j < a.bytes.length, x = a.addr + j ∧ (s.after l).dev.mem.read x = a.bytes.getD j 0) ∨
        ((∀ a ∈ l, x < a.addr ∨ a.addr + a.bytes.length ≤ x) ∧ (s.after l).dev.mem.read x = s.dev.mem.read x) := by
  induction l generalizing s with
  | nil => exact ⟨rfl, w, by simp [State.after], fun x => .inr ⟨by simp, rfl⟩⟩
  | cons a t ih =>
    obtain ⟨hs, bs, hbs⟩ := h a List.mem_cons_self
    have hb : a.bytes = bs := by unfold Todo.bytes; rw [hbs]
    have hd : (s.doAccess a).1 = s.store a.addr bs := by unfold State.doAccess State.todoWrite; rw [hbs, hs]
    have hc : s.after (a :: t) = (s.store a.addr bs).after t := by unfold State.after; rw [List.foldl_cons, hd]
    obtain ⟨h1, h2, h3, h4⟩ := ih (fun b hb => h b (List.mem_cons_of_mem _ hb)) (s.store a.addr bs) (Memory.wf_writeBytes w _ _)
    rw [hc]
    refine ⟨?_, h2, fun p => ?_, fun x => ?_⟩
    · rw [h1]; rfl
    · rw [h3 p]
      simp only [State.store, State.setDev, List.mem_filter, Bool.or_eq_true, decide_eq_true_eq, List.forall_mem_cons, hb]
      tauto
    · rcases h4 x with ⟨y, hy, j, hj, e, r⟩ | ⟨ho, r⟩
      · exact .inl ⟨y, List.mem_cons_of_mem _ hy, j, hj, e, r⟩
      · rw [r]
        by_cases hx : x < a.addr ∨ a.addr + bs.length ≤ x
        · refine .inr ⟨List.forall_mem_cons.2 ⟨by rw [hb]; exact hx, ho⟩, Memory.read_writeBytes_other _ _ _ _ hx⟩
        · have hx : a.addr ≤ x ∧ x < a.addr + bs.length := by omega
          obtain ⟨j, rfl⟩ := Nat.exists_eq_add_of_le hx.1
          refine .inl ⟨a, List.mem_cons_self, j, by rw [hb]; omega, rfl, ?_⟩
          rw [hb]
          exact Memory.read_writeBytes_at w _ _ _ (by omega)

/-- What an operation of stores to memory alone does. -/
theorem State.stores_performed {u : State} {o : Op} (hp : u.Performable o) (hc : u.Canonical) (hl : ∀ a ∈ o.todo, a.spad = none ∧ ∃ bs, a.what = .store bs) (h0 : o.fills = []) (hn : o.poisoned = []) :
    ∃ v, u.performAll o.id = some v ∧ Performs o (fun _ => 0) (fun _ => False) u v ∧ v.core = u.core ∧ v.cores = u.cores ∧
      (∀ p, p ∈ v.dev.poison ↔ p ∈ u.dev.poison ∧ ∀ a ∈ o.todo, p < a.addr ∨ a.addr + a.bytes.length ≤ p) ∧
      ∀ x, (∃ a ∈ o.todo, ∃ j < a.bytes.length, x = a.addr + j ∧ v.dev.mem.read x = a.bytes.getD j 0) ∨
        ((∀ a ∈ o.todo, x < a.addr ∨ a.addr + a.bytes.length ≤ x) ∧ v.dev.mem.read x = u.dev.mem.read x) := by
  obtain ⟨v, h1, h2, h3⟩ := State.all_performed hp (by rw [h0]; simp) hn
  obtain ⟨k1, -, k3, k4⟩ := State.after_stores hl u hc.1
  have hd : v.dev = (u.after o.todo).dev := by rw [h2]
  refine ⟨v, h1, ⟨⟨[], by simp, ?_⟩, ?_⟩, by rw [h2, k1], by rw [h2, k1], by rw [hd]; exact k3, by rw [hd]; exact k4⟩
  · rw [h3, metBy_stores fun a ha => (hl a ha).2]
    obtain ⟨us, -, hu, -⟩ := hp
    apply List.map_congr_left
    intro y hy
    split
    · rename_i hid
      rw [hu y hy hid, h0]; rfl
    · rfl
  · rw [h2, k1]

/-- What a global store's accesses write, performed together. -/
theorem State.store_performed {s t u : State} {n size : Nat} {d : BitVec 7} {ea : Nat → VAddr} {us : List RemoteUse} (hz : size ≤ 4 * n)
    (hr : OpAdded .vm (fun _ => False) us (s.todoOf { w := true } false 8 (s.accesses size ea) (s.storePart d n size)) s t) {op : Op} (ho : t.grp.ops = s.grp.ops ++ [op])
    (hp : u.Performable op) (hc : u.Canonical) :
    let at_ (i k : Nat) : Option Nat := some (s.pa { w := true } (ea i + BitVec.ofNat 80 (8 * (k / 8))) + k % 8)
    ∃ v, u.performAll op.id = some v ∧ Performs op (fun _ => 0) (fun _ => False) u v ∧ v.core = u.core ∧ v.cores = u.cores ∧
      Stored s.activeLanes size at_ (s.storeByte d) u.dev.mem.read v.dev.mem.read ∧ Cleaned s.activeLanes size at_ u.dev.poison v.dev.poison := by
  intro at_
  obtain ⟨ht, hpo, hf⟩ := hr.eq ho
  rw [todoOf_lanes] at ht
  have hlen (i m : Nat) : (((s.storeBytes d n size i).drop (8 * m)).take (min 8 (size - 8 * m))).length = min 8 (size - 8 * m) := by
    rw [List.length_take, List.length_drop, State.storeBytes_length s d n size i hz]; omega
  have hm (a : Todo) : a ∈ op.todo ↔ ∃ i ∈ s.activeLanes, ∃ m, 8 * m < size ∧ a = { lane := i, addr := s.pa { w := true } (ea i + BitVec.ofNat 80 (8 * m)), size := min 8 (size - 8 * m), va := ea i, what := s.storePart d n size i (8 * m) (min 8 (size - 8 * m)) } := by
    rw [ht, List.mem_flatMap]
    simp only [List.mem_map, List.mem_range]
    constructor
    · rintro ⟨i, hi, m, hm, rfl⟩; exact ⟨i, hi, m, by omega, rfl⟩
    · rintro ⟨i, hi, m, hm, rfl⟩; exact ⟨i, hi, m, by omega, rfl⟩
  obtain ⟨v, h1, h2, h3, h4, h5, h6⟩ := State.stores_performed hp hc (by
    intro a ha; obtain ⟨i, -, m, -, rfl⟩ := (hm a).1 ha; exact ⟨rfl, _, rfl⟩) (by
    rw [List.eq_nil_iff_forall_not_mem]; exact fun f hfm => (hf f).1 hfm) hpo
  refine ⟨v, h1, h2, h3, h4, fun x => ?_, fun p => (h5 p).trans (and_congr_right fun _ => ?_)⟩
  · rcases h6 x with ⟨a, ha, j, hj, e, r⟩ | ⟨h, r⟩
    · obtain ⟨i, hi, m, hm', rfl⟩ := (hm a).1 ha
      have hj' : j < min 8 (size - 8 * m) := by rw [← hlen i m]; exact hj
      refine .inl ⟨i, hi, 8 * m + j, by omega, ?_, r.trans ?_⟩
      · simp only [at_]
        rw [show (8 * m + j) / 8 = m by omega, show (8 * m + j) % 8 = j by omega]
        exact congrArg some e.symm
      · rw [← State.storeBytes_getD s d n size i (8 * m + j) (by omega) hz]
        show (((s.storeBytes d n size i).drop (8 * m)).take (min 8 (size - 8 * m))).getD j 0 = _
        simp only [List.getD_eq_getElem?_getD]
        rw [List.getElem?_take_of_lt hj', List.getElem?_drop]
    · refine .inr ⟨fun i hi k hk hx => ?_, r⟩
      have := h _ ((hm _).2 ⟨i, hi, k / 8, by omega, rfl⟩)
      have hl := hlen i (k / 8)
      simp only [at_, Option.some.injEq] at hx
      change x < s.pa { w := true } (ea i + BitVec.ofNat 80 (8 * (k / 8))) ∨ s.pa { w := true } (ea i + BitVec.ofNat 80 (8 * (k / 8))) + (((s.storeBytes d n size i).drop (8 * (k / 8))).take (min 8 (size - 8 * (k / 8)))).length ≤ x at this
      omega
  · constructor
    · intro h i hi k hk hx
      have := h _ ((hm _).2 ⟨i, hi, k / 8, by omega, rfl⟩)
      have hl := hlen i (k / 8)
      simp only [at_, Option.some.injEq] at hx
      change p < s.pa { w := true } (ea i + BitVec.ofNat 80 (8 * (k / 8))) ∨ s.pa { w := true } (ea i + BitVec.ofNat 80 (8 * (k / 8))) + (((s.storeBytes d n size i).drop (8 * (k / 8))).take (min 8 (size - 8 * (k / 8)))).length ≤ p at this
      omega
    · intro h a ha
      obtain ⟨i, hi, m, hm', rfl⟩ := (hm a).1 ha
      have hl := hlen i m
      change p < s.pa { w := true } (ea i + BitVec.ofNat 80 (8 * m)) ∨ s.pa { w := true } (ea i + BitVec.ofNat 80 (8 * m)) + (((s.storeBytes d n size i).drop (8 * m)).take (min 8 (size - 8 * m))).length ≤ p
      by_contra hx
      rw [hl] at hx
      push Not at hx
      obtain ⟨j, rfl⟩ := Nat.exists_eq_add_of_le hx.1
      refine h i hi (8 * m + j) (by omega) ?_
      simp only [at_]
      rw [show (8 * m + j) / 8 = m by omega, show (8 * m + j) % 8 = j by omega]

end Sys2Proof.Machine
end

