-- ==== Sys2Proof/Laws/Cross.lean ====
section
/-! SUPPORT. What the shared cross-lane operations do: permuting forms, reductions, scans. -/
namespace Sys2Proof.Machine
open Sys2Proof

theorem State.peek_sees (s : State) (c : Nat) (a : BitVec 8) (j : Nat) : s.Sees a j (s.peek c a j) := by
  unfold State.peek State.Sees
  split
  · rename_i h
    split
    · rename_i k
      exact .inr ⟨by simpa using (Bool.and_eq_true_iff.1 k).1, h⟩
    · exact .inl rfl
  · exact .inl rfl

theorem State.CrossReady.check {s : State} {d : BitVec 7} {a : BitVec 8} {b : Option (BitVec 8 × Bool)} (h : s.CrossReady d a b) :
    s.crossCheck d a b = none := by
  unfold State.crossCheck
  rw [h.dest, h.left]
  cases b with
  | none => simp [h.settled, h.destSettled]
  | some p =>
    obtain ⟨c, u⟩ := p
    obtain ⟨h1, h2, h3⟩ := h.right c u rfl
    cases u <;> simp [h1, h3, h.settled, h.destSettled, State.uniBad, h2]

/-- The index operand of lane i. -/
def State.crossIndex (s : State) (b : Option (BitVec 8 × Bool)) (i : Nat) : Nat :=
  match b with
  | some (b, _) => (s.read b i).toNat
  | none => 0

theorem State.raise_zero (s : State) : s.raise 0#7 = s := by simp [State.raise]

theorem State.peekChoice_frame (s : State) (a : BitVec 8) : ∃ n, (s.peekChoice a).2 = { s with fresh := n } := by
  unfold State.peekChoice
  split
  · exact ⟨_, rfl⟩
  · exact ⟨s.fresh, rfl⟩

theorem State.crossForm_done {s : State} {d : BitVec 7} {a : BitVec 8} {b : Option (BitVec 8 × Bool)} (f : Nat → Nat → Option Nat)
    (h : s.CrossReady d a b) :
    ∃ t v, s.crossForm d a b f = .next t ∧ (∀ j, s.Sees a j (v j)) ∧
      VecResult 4 d (fun i => s.crossValue a v i (f i (s.crossIndex b i))) 0 { s with fresh := t.fresh } t := by
  obtain ⟨n, hn⟩ := s.peekChoice_frame a
  have hr := ({ s with fresh := n } : State).vecWrite_result 4 d
    (fun i => s.crossValue a (fun j => s.peek (s.peekChoice a).1 a j) i (f i (s.crossIndex b i))) 0#7
  rw [State.raise_zero] at hr
  refine ⟨(({ s with fresh := n } : State).vecWrite d
    fun i => s.crossValue a (fun j => s.peek (s.peekChoice a).1 a j) i (f i (s.crossIndex b i))).finish (s.ent.pc + 4),
    fun j => s.peek (s.peekChoice a).1 a j, ?_, fun j => s.peek_sees _ a j, hr⟩
  simp only [State.crossForm, h.check, commit, hn]
  rfl

/-! ## Reductions and scans -/

theorem State.redCheck_none {s : State} {d : BitVec 7} {a : BitVec 8} (h : s.CrossReady d a none) (h63 : s.pendingS 63 = false)
    (hd : s.pendingD s.ownLanes d = false) : s.redCheck d a = none := by
  simp [State.redCheck, h.check, h63, hd]

theorem State.writeL_result (s : State) (d : BitVec 7) (r : Word) (f : Flags) :
    AllLanes d r f s (((s.writeL d r).raise f).finish (s.ent.pc + 4)) where
  frame := rfl
  named i h k := by
    refine (congrArg (fun l : Lane => l.reg k) (Group.lane_mapLanes _ _ _ h)).trans ?_
    by_cases hl : s.inL i <;> by_cases h6 : d[6] <;> by_cases hd : d.toNat % 64 = 0x3F <;> simp [hl, h6, hd]
    all_goals by_cases hk : k = d.toNat % 64 <;> simp_all
  queue i h := by
    refine (congrArg Lane.q (Group.lane_mapLanes _ _ _ h)).trans ?_
    by_cases hl : s.inL i <;> by_cases h6 : d[6] <;> by_cases hd : d.toNat % 64 = 0x3F <;> simp [hl, h6, hd]
  others i h := by
    constructor
    · refine (congrArg Lane.p (Group.lane_mapLanes _ _ _ h)).trans ?_
      by_cases hl : s.inL i <;> by_cases h6 : d[6] <;> by_cases hd : d.toNat % 64 = 0x3F <;> simp [hl, h6, hd]
    · refine (congrArg Lane.use (Group.lane_mapLanes _ _ _ h)).trans ?_
      by_cases hl : s.inL i <;> by_cases h6 : d[6] <;> by_cases hd : d.toNat % 64 = 0x3F <;> simp [hl, h6, hd]

/-- The side effects of a reduction on a state whose lanes have been written. -/
theorem State.redSide_full (s u : State) (total : Word) (f : Flags) (pc : Word) (he : u.ent = s.ent) (hL : u.grp.width = s.grp.width) :
    ((u.redSide total).raise f).finish pc =
      let w := (u.raise f).finish pc
      { w with ent := { w.ent with scc := { w.ent.scc with e := decide (s.activeLanes = []) } }, grp := w.grp.setSAt (s.sIndex 63) total } := by
  have ha : u.activeLanes = s.activeLanes := by
    have : u.active = s.active := by funext i; simp only [State.active, he, hL]
    simp only [State.activeLanes, hL, this]
  have hs : u.sIndex 63 = s.sIndex 63 := by simp only [State.sIndex, he]
  simp only [State.redSide, State.setS, State.setEnt, State.raise, State.finish, Group.setSAt, hs, ha]
  split <;> rfl

/-- A reduction's last part: side effects, conditions, traps. -/
theorem State.side_done {s u : State} {R : State → Prop} {total : Word} {f : Flags} (he : u.ent = s.ent) (hL : u.grp.width = s.grp.width)
    (hR : R ((u.raise f).finish (s.ent.pc + 4))) :
    ∃ t, commit 4 s (s.retireFlags ((u.redSide total).raise f) s.activeLanes fun _ => f) = .next t ∧ SideDone R total f s t := by
  unfold SideDone
  simp only [State.retireFlags]
  split
  · exact ⟨_, rfl, _, hR, State.redSide_full s u total f _ he hL⟩
  · exact ⟨_, rfl, _, ⟨_, hR, State.redSide_full s u total f _ he hL⟩, rfl⟩

end Sys2Proof.Machine
end

