-- ==== Sys2Proof/Laws/Device.lean ====
section
/-! SUPPORT. Laws of what stands outside the groups: records kept by number, mailbox commands, fault records, ports, and
the map over all groups. -/
namespace Sys2Proof.Machine
open Sys2Proof

/-! ## Records kept by number -/

theorem find_upsert_same {α : Type} (p : α → Bool) (x : α) (l : List α) (h : p x = true) : (upsert p x l).find? p = some x := by
  induction l with
  | nil => simp [upsert, h]
  | cons a t ih => by_cases ha : p a <;> simp [upsert, ha, h, ih]

theorem find_upsert_other {α : Type} (p q : α → Bool) (x : α) (l : List α) (h : q x = false) (hd : ∀ y, p y = true → q y = false) :
    (upsert p x l).find? q = l.find? q := by
  induction l with
  | nil => simp [upsert, h]
  | cons a t ih =>
    by_cases ha : p a = true
    · simp [upsert, ha, h, hd a ha]
    · simp [upsert, ha, List.find?_cons, ih]

theorem mem_upsert {α : Type} {p : α → Bool} {x y : α} {l : List α} (h : y ∈ upsert p x l) : y = x ∨ y ∈ l := by
  induction l with
  | nil => simpa [upsert] using h
  | cons a t ih =>
    unfold upsert at h
    split at h <;> rcases List.mem_cons.mp h with h | h
    · exact .inl h
    · exact .inr (by simp [h])
    · exact .inr (by simp [h])
    · exact (ih h).imp_right fun k => by simp [k]

@[simp] theorem State.ctx_num (s : State) (n : Nat) : (s.ctx n).num = n := by
  unfold State.ctx
  cases h : s.dev.ctxs.find? (fun k => decide (k.num = n)) with
  | none => rfl
  | some k => simpa using List.find?_some h
@[simp] theorem State.queue_num (s : State) (n : Nat) : (s.queue n).num = n := by
  unfold State.queue
  cases h : s.dev.queues.find? (fun k => decide (k.num = n)) with
  | none => rfl
  | some k => simpa using List.find?_some h
@[simp] theorem State.port_num (s : State) (n : Nat) : (s.port n).num = n := by
  unfold State.port
  cases h : s.dev.ports.find? (fun k => decide (k.num = n)) with
  | none => rfl
  | some k => simpa using List.find?_some h

/-- A record set is read back; the others stay. -/
theorem State.ctx_setCtx (s : State) (c : Ctx) (n : Nat) : (s.setCtx c).ctx n = if n = c.num then c else s.ctx n := by
  simp only [State.ctx, State.setCtx, State.setDev]
  split
  · next h => subst h; rw [find_upsert_same _ _ _ (by simp)]; rfl
  · next h => rw [find_upsert_other _ _ _ _ (by simp; omega) (by intro y hy; simp at hy ⊢; omega)]
theorem State.queue_setQueue (s : State) (c : Queue) (n : Nat) : (s.setQueue c).queue n = if n = c.num then c else s.queue n := by
  simp only [State.queue, State.setQueue, State.setDev]
  split
  · next h => subst h; rw [find_upsert_same _ _ _ (by simp)]; rfl
  · next h => rw [find_upsert_other _ _ _ _ (by simp; omega) (by intro y hy; simp at hy ⊢; omega)]
theorem State.port_setPort (s : State) (c : Port) (n : Nat) : (s.setPort c).port n = if n = c.num then c else s.port n := by
  simp only [State.port, State.setPort, State.setDev]
  split
  · next h => subst h; rw [find_upsert_same _ _ _ (by simp)]; rfl
  · next h => rw [find_upsert_other _ _ _ _ (by simp; omega) (by intro y hy; simp at hy ⊢; omega)]
theorem State.launch_setLaunch (s : State) (c : Launch) (n : Word) : (s.setLaunch c).launch? n = if n = c.id then some c else s.launch? n := by
  simp only [State.launch?, State.setLaunch, State.setDev]
  split
  · next h => subst h; rw [find_upsert_same _ _ _ (by simp)]
  · next h => rw [find_upsert_other _ _ _ _ (by simpa using fun k : c.id = n => h k.symm) (by intro y hy; simp at hy ⊢; rw [hy]; exact fun k => h k.symm)]

/-! ## Mailbox commands (R398) -/

theorem State.Takes.mbox {s : State} {ok : List DevState} {used : List (Nat × Nat)} (h : s.Takes ok used) (f : Outcome) : s.mbox ok used f = f := by
  have : s.unusedZero used = true := by
    simp only [State.unusedZero, List.all_eq_true]
    rintro ⟨b, i⟩ hb
    have hb' := List.mem_zipIdx hb
    by_cases h0 : b = 0
    · simp [h0]
    · obtain ⟨u, hu, h1, h2⟩ := h.unused i (by
        have h2 := hb'.2.2
        simp at h2
        have hi := hb'.2.1
        simp at hi
        rw [List.getD_eq_getElem?_getD, List.getElem?_eq_getElem (by simpa using hi)]
        rw [Option.getD_some, ← h2]; exact h0)
      simp only [Bool.or_eq_true, List.any_eq_true]
      right; exact ⟨u, hu, by simp [h1, h2]⟩
  unfold State.mbox
  simp [h.idle, h.state, this]

/-! ## Fault records (R51) -/

/-- What appending records can change: memory, its poison, and the contexts' counts. -/
def RecordsOnly (s t : State) : Prop := t = { s with dev := { s.dev with mem := t.dev.mem, poison := t.dev.poison, ctxs := t.dev.ctxs } }

theorem RecordsOnly.refl (s : State) : RecordsOnly s s := rfl
theorem RecordsOnly.trans {s t u : State} (h : RecordsOnly s t) (k : RecordsOnly t u) : RecordsOnly s u := by
  unfold RecordsOnly at *; rw [k, h]
theorem RecordsOnly.foldl {α : Type} (f : State → α → State) (hf : ∀ s a, RecordsOnly s (f s a)) (l : List α) (s : State) : RecordsOnly s (l.foldl f s) := by
  induction l generalizing s with
  | nil => rfl
  | cons a t ih => exact (hf s a).trans (ih _)

theorem State.record_only (s : State) (c : Nat) (r : Rec) : RecordsOnly s (s.record c r) := by
  have hs : ∀ (u : State) a bs, RecordsOnly u (u.store a bs) := fun _ _ _ => rfl
  have hc : ∀ (u : State) k, RecordsOnly u (u.setCtx k) := fun _ _ => rfl
  unfold State.record
  dsimp only
  split
  · exact .refl s
  · split
    · exact ((hs _ _ _).trans (hs _ _ _)).trans (hc _ _)
    · exact hs _ _ _

/-! ## The map over all groups -/

/-- A map that changes no group changes nothing. -/
theorem State.mapGroups_id {s : State} {f : Group → Group} (h : ∀ c ∈ s.allCores, ∀ g ∈ c.groups, f g = g) : s.mapGroups f = s := by
  have h0 : f s.stowGroup = s.stowGroup := h s.stowCore (by simp [State.allCores]) _ (by simp [State.stowCore])
  have h1 : s.core.groups.map f = s.core.groups := by
    apply List.map_congr_left (g := id) _ |>.trans (List.map_id _)
    intro g hg; exact h s.stowCore (by simp [State.allCores]) g (by simp [State.stowCore, hg])
  have h2 : s.cores.map (fun (k : Core) => { k with groups := k.groups.map f }) = s.cores := by
    apply List.map_congr_left (g := id) _ |>.trans (List.map_id _)
    intro k hk
    have : k.groups.map f = k.groups := by
      apply List.map_congr_left (g := id) _ |>.trans (List.map_id _)
      intro g hg; exact h k (by simp [State.allCores, hk]) g hg
    simp [this]
  unfold State.mapGroups
  dsimp only
  rw [h0, h1, h2]
  have : takeFirst (fun e : Entity => decide (e.num = s.ent.num)) s.stowGroup.sibs = some (s.ent, s.grp.sibs) := by
    simp [State.stowGroup, takeFirst]
  rw [this]
  rfl

@[simp] theorem State.mapGroups_dev (s : State) (f : Group → Group) : (s.mapGroups f).dev = s.dev := by
  unfold State.mapGroups; dsimp only; split
  · rfl
  · split <;> rfl
@[simp] theorem State.mapGroups_team (s : State) (f : Group → Group) : (s.mapGroups f).team = s.team := by
  unfold State.mapGroups; dsimp only; split
  · rfl
  · split <;> rfl
@[simp] theorem State.mapGroups_teams (s : State) (f : Group → Group) : (s.mapGroups f).teams = s.teams := by
  unfold State.mapGroups; dsimp only; split
  · rfl
  · split <;> rfl

/-- Where the map keeps the front entity first, it stays in front. -/
theorem State.mapGroups_front {s : State} {f : Group → Group} {e : Entity} {r : List Entity} (h : (f s.stowGroup).sibs = e :: r) (he : e.num = s.ent.num) :
    s.mapGroups f = { s with
      ent := e, grp := { f s.stowGroup with sibs := r }, core := { s.core with groups := s.core.groups.map f }
      cores := s.cores.map fun (k : Core) => { k with groups := k.groups.map f } } := by
  unfold State.mapGroups
  dsimp only
  have : takeFirst (fun x : Entity => decide (x.num = s.ent.num)) (f s.stowGroup).sibs = some (e, r) := by
    rw [h]; simp [takeFirst, he]
  rw [this]

/-! ## Ports (R229, R231) -/

theorem State.failPort_quiet {s : State} {p : Nat} (code : Nat) (h : ∀ k ∈ s.allCores, ∀ g ∈ k.groups, ∀ o ∈ g.ops, o.done = true ∨ ∀ x ∈ o.uses, x.port ≠ p) :
    s.failPort p code = s := by
  have hg : ∀ k ∈ s.allCores, ∀ g ∈ k.groups, (g.ops.any fun o => o.onPort p) = false := by
    intro k hk g hg
    rw [List.any_eq_false]
    intro o ho
    rcases h k hk g hg o ho with hd | hu
    · simp [Op.onPort, hd]
    · simp only [Op.onPort, Bool.and_eq_true, List.any_eq_true, not_and, not_exists]
      intro _ x hx; simpa using hu x hx
  have : (s.allGroups.filter fun g => g.ops.any fun o => o.onPort p) = [] := by
    rw [List.filter_eq_nil_iff]
    intro g hm
    simp only [State.allGroups, List.mem_filter, List.mem_flatMap] at hm
    obtain ⟨⟨k, hk, hkg⟩, -⟩ := hm
    simp [hg k hk g hkg]
  unfold State.failPort
  simp only [this, List.foldl_nil]
  apply State.mapGroups_id
  intro k hk g hkg
  simp [hg k hk g hkg]

theorem State.failPort_eq (s : State) (p code : Nat) :
    ∃ u, RecordsOnly s u ∧ s.failPort p code = u.mapGroups fun g => if g.ops.any fun o => o.onPort p then g.failPort p else g := by
  refine ⟨_, ?_, rfl⟩
  apply RecordsOnly.foldl
  intro s g
  apply RecordsOnly.foldl
  intro s o
  exact s.record_only _ _

theorem State.failPort_port (s : State) (p code q : Nat) : (s.failPort p code).port q = s.port q := by
  obtain ⟨u, hu, h⟩ := s.failPort_eq p code
  have : u.dev.ports = s.dev.ports := by rw [hu]
  rw [h, State.port, State.mapGroups_dev, this]; rfl

/-- What moving a port leaves: the port, and which outstanding accesses a change of usable ports has overtaken (R230). -/
theorem State.movePort_eq (s : State) (p : Port) :
    s.movePort p = (s.setPort p).mapGroups fun g => { g with ops := g.ops.map fun o => { o with uses := o.uses.map fun u =>
      { u with stale := u.stale || s.routePorts u.dev != (s.setPort p).routePorts u.dev } } } := rfl
theorem State.movePort_port (s : State) (p : Port) (q : Nat) : (s.movePort p).port q = (s.setPort p).port q := by
  rw [State.movePort_eq, State.port, State.mapGroups_dev]; rfl

theorem State.lose_port (s : State) (p : Nat) (st : PortState) : (s.lose p st).port p = { s.port p with state := st, lanes := 0, fails := 0 } := by
  have := s.port_setPort { s.port p with state := st, lanes := 0, fails := 0 } p
  rw [if_pos (s.port_num p).symm] at this
  unfold State.lose
  dsimp only
  split
  · rw [State.failPort_port, State.movePort_port]; exact this
  · rw [State.movePort_port]; exact this

theorem Port.usable_iff (k : Port) : k.usable = true ↔ (k.state = .up ∨ k.state = .degraded) := by
  simp [Port.usable]

theorem State.drainSalt_nil {s : State} (h : s.dev.salt = []) : s.drainSalt = s := by
  unfold State.drainSalt
  rw [h]
  simp only [State.drainList, State.setDev, List.nil_append]
  show { s with dev := { s.dev with salt := [] } } = s
  rw [← h]

end Sys2Proof.Machine
end

