-- ==== Sys2Proof/Laws/Numbers.lean ====
section
/-! SUPPORT. What the model's rounding does, in the terms that claims use. -/
namespace Sys2Proof.Machine
open Sys2Proof

theorem step_up {U : Prop} {up : Bool} (h : U ↔ up = true) (n d : Nat) : ((U → n = d + 1) ∧ (¬ U → n = d)) ↔ n = d + if up then 1 else 0 := by
  cases up <;> simp at h <;> simp [h]

/-- The model's rounding is the rounding of the claims (R28, R36). -/
theorem rounds_iff (mode : RMode) (neg : Bool) (m : Nat) (e q : Int) (n : Nat) :
    Rounds mode neg m e q n ↔ n = (roundAt mode neg m e false q).1 := by
  unfold Rounds roundAt
  by_cases h : q ≤ e
  · simp [h]
  · simp only [h, if_false]
    apply step_up
    obtain ⟨k, hk⟩ : ∃ k, (q - e).toNat = k + 1 := ⟨(q - e).toNat - 1, by omega⟩
    rw [hk, Nat.add_sub_cancel, show 2 ^ (k + 1) = 2 * 2 ^ k by rw [Nat.pow_succ, Nat.mul_comm]]
    cases mode <;> simp
    all_goals omega

theorem inexact_iff (mode : RMode) (neg : Bool) (m : Nat) (e q : Int) : Inexact m e q ↔ (roundAt mode neg m e false q).2 = true := by
  unfold Inexact roundAt
  by_cases h : q ≤ e
  · simp [h, Int.not_lt.2 h]
  · simp [h, Int.not_le.1 h]

/-- Whether a result is tiny, as the model decides it. -/
theorem tiny_iff (mode : RMode) (neg : Bool) (m : Nat) (e top emin : Int) (mb : Nat) :
    Tiny mode neg m e top emin mb ↔ top < emin ∧ ¬ ((roundAt mode neg m e false (top - mb)).1 = 2 ^ (mb + 1) ∧ emin ≤ top + 1) := by
  unfold Tiny
  rw [rounds_iff]
  exact and_congr_right fun _ => not_congr ⟨fun x => ⟨x.2.symm, x.1⟩, fun x => ⟨x.2, x.1.symm⟩⟩

theorem toInf_iff (mode : RMode) (neg : Bool) :
    OverflowsToInf mode neg ↔ mode.toInf neg = true := by
  cases mode <;> simp [OverflowsToInf, RMode.toInf]

/-- The model's rounding into a format gives what `Converts` says. -/
theorem round_converts (f : Fmt) (mode : RMode) (ftz neg : Bool) (m : Nat) (e : Int) :
    f.Converts mode ftz (.fin neg m e) (f.round mode ftz neg m e false).1 (f.round mode ftz neg m e false).2 := by
  unfold Fmt.Converts Fmt.round
  by_cases hm : m = 0
  · simp [hm]
  simp only [hm, false_and, if_false, not_false_eq_true, ne_eq, forall_const, false_implies, true_and, tiny_iff, toInf_iff]
  intro n hn
  generalize hq : max (e + (Nat.log2 m : Int) - f.mb) (1 - (f.bias : Int) - f.mb) = q at hn ⊢
  have hq1 : 1 - (f.bias : Int) - f.mb ≤ q := hq ▸ le_max_right _ _
  rw [inexact_iff mode neg]
  rw [rounds_iff] at hn
  generalize roundAt mode neg m e false q = R at hn ⊢
  generalize roundAt mode neg m e false (e + (Nat.log2 m : Int) - f.mb) = S
  obtain ⟨k, b⟩ := R
  subst hn
  have hp : 2 ^ (f.mb + 1) = 2 * 2 ^ f.mb := by rw [Nat.pow_succ, Nat.mul_comm]
  have hp0 : 0 < 2 ^ f.mb := Nat.two_pow_pos _
  have e1 : (q + 1 + f.mb + f.bias).toNat * 2 ^ f.mb + 0 = (q + f.mb + f.bias).toNat * 2 ^ f.mb + (2 ^ (f.mb + 1) - 2 ^ f.mb) := by
    rw [show (q + 1 + f.mb + f.bias).toNat = (q + f.mb + f.bias).toNat + 1 by omega, hp, Nat.add_mul]; omega
  generalize hem : 1 - (f.bias : Int) = em at hq1 ⊢
  generalize e + (Nat.log2 m : Int) = top
  obtain ⟨S, S2⟩ := S
  simp only
  by_cases h1 : n = 2 ^ (f.mb + 1)
  · subst h1
    have hk : 2 ^ f.mb ≤ 2 ^ (f.mb + 1) := by omega
    have hk' : ¬ 2 ^ (f.mb + 1) < 2 ^ f.mb := by omega
    simp only [if_true, hk, hk', ge_iff_le, le_refl, true_and, false_implies, and_true, forall_const, gt_iff_lt, Nat.sub_self, e1]
    by_cases hb : (f.bias : Int) < q + 1 + f.mb
    · cases mode.toInf neg <;> simp [hb]
    · have hb' : ¬ (f.bias : Int) < q + f.mb := by omega
      by_cases hA : top < em <;> by_cases hB : S = 2 ^ (f.mb + 1) <;> by_cases hC : em ≤ top + 1 <;> cases b <;> simp [hb, hb', hA, hB, hC]
  · by_cases hk : 2 ^ f.mb ≤ n
    · by_cases hb : (f.bias : Int) < q + f.mb
      · cases mode.toInf neg <;> simp [hb, hk, h1, Nat.not_lt.2 hk]
      · by_cases hA : top < em <;> by_cases hB : S = 2 ^ (f.mb + 1) <;> by_cases hC : em ≤ top + 1 <;> cases b <;> simp [hb, hk, h1, hA, hB, hC, Nat.not_lt.2 hk]
    · have hk' : n < 2 ^ f.mb := by omega
      simp only [h1, if_false, ge_iff_le, hk, hk', false_and, false_implies, true_and, not_false_eq_true, forall_const]
      by_cases h0 : n = 0 <;> cases ftz <;> cases b <;> simp [h0, flagNX, flagUF]

/-- A rounding that knows only that the magnitude lies above n × 2^e and below its neighbour is that of the value halfway, where 2^e is below the last place. -/
theorem roundAt_sticky (mode : RMode) (neg : Bool) (n : Nat) (e q : Int) (hq : e < q) (hs : ∀ w, mode ≠ .sr w) :
    roundAt mode neg n e true q = roundAt mode neg (2 * n + 1) (e - 1) false q := by
  unfold roundAt
  obtain ⟨k, hk⟩ : ∃ k, (q - e).toNat = k + 1 := ⟨(q - e).toNat - 1, by omega⟩
  have hk' : (q - (e - 1)).toNat = k + 1 + 1 := by omega
  have h2 : 2 ^ (k + 1 + 1) = 2 * 2 ^ (k + 1) := by rw [Nat.pow_succ, Nat.mul_comm]
  have h3 : 2 ^ (k + 1) = 2 * 2 ^ k := by rw [Nat.pow_succ, Nat.mul_comm]
  have hp : 0 < 2 ^ (k + 1) := Nat.two_pow_pos _
  have hd : (2 * n + 1) / 2 ^ (k + 1 + 1) = n / 2 ^ (k + 1) := by rw [h2, ← Nat.div_div_eq_div_mul]; congr 1; omega
  have hm : (2 * n + 1) % 2 ^ (k + 1 + 1) = 2 * (n % 2 ^ (k + 1)) + 1 := by
    rw [h2]
    have h4 := Nat.mod_mul (x := 2 * n + 1) (a := 2) (b := 2 ^ (k + 1))
    rw [h4, show (2 * n + 1) / 2 = n by omega]; omega
  simp only [Int.not_le.2 hq, show ¬ q ≤ e - 1 by omega, if_false, hk, hk', hd, hm, Nat.add_sub_cancel]
  cases mode with
  | sr w => exact absurd rfl (hs w)
  | rne =>
    have : (decide (n % 2 ^ (k + 1) > 2 ^ k) || decide (n % 2 ^ (k + 1) = 2 ^ k) && (true || decide (n / 2 ^ (k + 1) % 2 = 1))) =
        (decide (2 * (n % 2 ^ (k + 1)) + 1 > 2 ^ (k + 1)) || decide (2 * (n % 2 ^ (k + 1)) + 1 = 2 ^ (k + 1)) && (false || decide (n / 2 ^ (k + 1) % 2 = 1))) := by
      generalize n % 2 ^ (k + 1) = r at *
      rw [h3, Bool.eq_iff_iff]; simp; omega
    simp only [this]; simp
  | _ => simp

/-- The model's rounding of a magnitude between two neighbouring multiples of a unit well below the last place. -/
theorem round_near (f : Fmt) (mode : RMode) (ftz neg : Bool) (n : Nat) (e : Int) (exact : Prop) [Decidable exact]
    (hn : 2 ^ (f.mb + 1) ≤ n) (hs : ∀ w, mode ≠ .sr w) :
    f.RoundsNear mode ftz neg n e exact (f.round mode ftz neg n e (decide (¬ exact))).1 (f.round mode ftz neg n e (decide (¬ exact))).2 := by
  refine ⟨fun h => ?_, fun h => ?_⟩
  · simpa [h] using round_converts f mode ftz neg n e
  have hn0 : n ≠ 0 := by have := Nat.two_pow_pos (f.mb + 1); omega
  have hl : f.mb + 1 ≤ Nat.log2 n := (Nat.le_log2 hn0).2 hn
  have hl' : Nat.log2 (2 * n + 1) = Nat.log2 n + 1 := by
    rw [Nat.log2_def, if_pos (by omega), show (2 * n + 1) / 2 = n by omega]
  have he : f.round mode ftz neg n e true = f.round mode ftz neg (2 * n + 1) (e - 1) false := by
    have ht : e - 1 + ((Nat.log2 (2 * n + 1) : Nat) : Int) = e + (Nat.log2 n : Int) := by rw [hl']; push_cast; omega
    have hb : e < max (e + (Nat.log2 n : Int) - f.mb) (1 - (f.bias : Int) - f.mb) := lt_of_lt_of_le (by omega) (le_max_left _ _)
    unfold Fmt.round
    simp only [hn0, ht, roundAt_sticky mode neg n e _ hb hs, roundAt_sticky mode neg n e (e + (Nat.log2 n : Int) - f.mb) (by omega) hs]
    simp
  simp only [h, not_false_eq_true, decide_true, he]
  exact round_converts f mode ftz neg _ _
/-- The sum of two signed significands. -/
theorem addSigned_eq (a : Bool) (m : Nat) (b : Bool) (k : Nat) :
    (addSigned a m b k).2 = (signedNat a m + signedNat b k).natAbs ∧ (signedNat a m + signedNat b k ≠ 0 → (addSigned a m b k).1 = decide (signedNat a m + signedNat b k < 0)) := by
  cases a <;> cases b <;> simp [addSigned, signedNat] <;> (try split) <;> (try simp) <;> omega

/-- The exact sum of two finite values. -/
theorem addExact_eq (a : Bool) (m : Nat) (e : Int) (b : Bool) (k : Nat) (g : Int) :
    let z := signedNat a m * 2 ^ (e - min e g).toNat + signedNat b k * 2 ^ (g - min e g).toNat
    (addExact a m e b k g).2.1 = z.natAbs ∧ (addExact a m e b k g).2.2 = min e g ∧ (z ≠ 0 → (addExact a m e b k g).1 = decide (z < 0)) := by
  have h (a : Bool) (m p : Nat) : signedNat a m * 2 ^ p = signedNat a (m * 2 ^ p) := by cases a <;> simp [signedNat]
  simp only [h]
  have := addSigned_eq a (m * 2 ^ (e - min e g).toNat) b (k * 2 ^ (g - min e g).toNat)
  exact ⟨this.1, rfl, this.2⟩

/-- The square root by bits is the integer root. -/
theorem isqrt_spec (n k acc : Nat) (h1 : acc * acc ≤ n) (h2 : n < (acc + 2 ^ k) * (acc + 2 ^ k)) :
    isqrt n k acc * isqrt n k acc ≤ n ∧ n < (isqrt n k acc + 1) * (isqrt n k acc + 1) := by
  induction k generalizing acc with
  | zero => exact ⟨by simpa [isqrt] using h1, by simpa [isqrt] using h2⟩
  | succ k ih =>
    have hp : 2 ^ (k + 1) = 2 ^ k + 2 ^ k := by rw [Nat.pow_succ]; omega
    unfold isqrt
    split
    · rename_i h; exact ih _ h (by rw [Nat.add_assoc, ← hp]; exact h2)
    · rename_i h; exact ih _ h1 (Nat.not_le.1 h)

end Sys2Proof.Machine
end

