-- ==== Sys2Proof/Laws/Scalar.lean ====
section
/-! SUPPORT. What the shared scalar operations do: s register writes, the checks of uniform operands, whole forms. -/
namespace Sys2Proof.Machine
open Sys2Proof

theorem Group.sAt_setSAt (g : Group) (i k : Nat) (x : Word) : (g.setSAt i x).sAt k = if k = i then x else g.sAt k := by
  unfold Group.setSAt Group.sAt
  by_cases hi : 64 ≤ i <;> by_cases hk : 64 ≤ k <;> simp only [hi, hk, if_true, if_false, getD_putAt]
  · by_cases h : k = i
    · simp [h]
    · rw [if_neg (by omega), if_neg h]
  · rw [if_neg (by omega)]
  · rw [if_neg (by omega)]

theorem Group.setSAt_frame (g : Group) (i : Nat) (x : Word) :
    g.setSAt i x = { g with s := (g.setSAt i x).s, hbank := (g.setSAt i x).hbank } := by
  unfold Group.setSAt
  split <;> rfl

theorem State.uniCheck_none {s : State} {srcs : List Src} {dst : List Nat} (h : s.UniReady (srcs.map Src.code) dst) :
    s.scCheck srcs dst = none := by
  have h1 : firstBad s.uniBad srcs = none := by
    simp only [firstBad, List.find?_eq_none, Bool.not_eq_true]
    exact fun x hx => h.sources _ (List.mem_map_of_mem hx)
  have h2 : (srcs.map Src.code).any (s.pendingIn []) = false := by
    simp only [List.any_eq_false, Bool.not_eq_true]
    exact h.settled
  have h3 : dst.any (fun n => s.pendingS n) = false := by
    simp only [List.any_eq_false, Bool.not_eq_true]
    exact h.dest
  simp [State.scCheck, h1, h2, h3]

/-- The state a class 4 form writes. -/
theorem State.scWrite_result (s : State) (d : BitVec 7) (r : ScRes) : ScResult d r s ((s.scWrite d r).finish (s.ent.pc + 4)) := by
  refine ⟨fun k => ?_, ?_⟩
  · by_cases hd : d.toNat % 64 = 0x3F <;> by_cases h6 : d.getLsbD 6 <;>
      simp only [State.scWrite, hd, h6, if_true, if_false, Bool.false_eq_true, State.setS, State.setEnt, State.raise, State.finish, List.foldl]
    all_goals first
      | rfl
      | exact Group.sAt_setSAt _ _ _ _
  · by_cases hd : d.toNat % 64 = 0x3F <;> by_cases h6 : d.getLsbD 6 <;>
      simp only [State.scWrite, hd, h6, if_true, if_false, Bool.false_eq_true, State.setS, State.setEnt, State.raise, State.finish]
    all_goals first
      | rfl
      | (rw [Group.setSAt_frame]; rfl)

/-- A class 4 form whose operands are ready completes, and traps after an enabled condition. -/
theorem State.scForm_done {s : State} {d : BitVec 7} {srcs : List Src} (r : ScRes) (h : s.UniReady (srcs.map Src.code) (scDst d)) :
    ∃ t, commit 4 s (s.scForm d srcs [] r) = .next t ∧ ScDone d r s t := by
  have hc : s.scCheck srcs (scDst d ++ []) = none := State.uniCheck_none (by simpa using h)
  unfold ScDone
  split
  · rename_i he
    refine ⟨_, ?_, s.scWrite_result d r⟩
    simp only [State.scForm, hc, he, if_true, commit]
    rfl
  · rename_i he
    refine ⟨_, ?_, _, s.scWrite_result d r, rfl⟩
    simp only [State.scForm, hc, he, if_false, commit]
    rfl

/-- One that raises nothing has its plain result. -/
theorem ScDone.plain {d : BitVec 7} {r : ScRes} {s t : State} (h : ScDone d r s t) (e : r.flags = 0) : ScResult d r s t := by
  unfold ScDone at h
  rw [if_pos (by simp [e])] at h
  exact h

/-! ## Several writes -/

/-- t differs from s in s registers and the handler bank alone. -/
def OnlyS (s t : State) : Prop := t = { s with grp := { s.grp with s := t.grp.s, hbank := t.grp.hbank } }

theorem OnlyS.refl (s : State) : OnlyS s s := rfl

theorem OnlyS.setS {s t : State} (h : OnlyS s t) (n : Nat) (x : Word) : OnlyS s (t.setS n x) := by
  unfold OnlyS at h ⊢
  rw [h]
  unfold State.setS Group.setSAt
  split <;> rfl

theorem OnlyS.sIndex {s t : State} (h : OnlyS s t) (n : Nat) : t.sIndex n = s.sIndex n := by rw [h]; rfl

theorem SWrites.nil (s : State) : SWrites s [] s := fun _ => rfl

theorem SWrites.setS {s t : State} {ws : List (Nat × Word)} (h : SWrites s ws t) (o : OnlyS s t) (n : Nat) (x : Word) :
    SWrites s (ws ++ [(n, x)]) (t.setS n x) := by
  intro k
  simp only [State.setS, Group.sAt_setSAt, o.sIndex, List.foldl_append, List.foldl, h k]

/-- What an instruction that writes s registers alone does. -/
theorem OnlyS.frame {s t : State} {ws : List (Nat × Word)} (o : OnlyS s t) (h : SWrites s ws t) (len : Nat) (e : Entity) :
    ScalarFrame len e 0 ws s { t with ent := e.finish (s.ent.pc + BitVec.ofNat 32 len) } := by
  refine ⟨h, ?_⟩
  rw [o]
  simp

end Sys2Proof.Machine
end

