-- ==== Sys2Proof/Laws/Trap.lean ====
section
/-! SUPPORT. What trace records, fault records and taking a trap do. -/
namespace Sys2Proof.Machine
open Sys2Proof

/-- t differs from s in the device alone. -/
def OnlyDev (s t : State) : Prop := t = { s with dev := t.dev }

theorem OnlyDev.refl (s : State) : OnlyDev s s := rfl
theorem OnlyDev.setDev {s t : State} (h : OnlyDev s t) (f : Device → Device) : OnlyDev s (t.setDev f) := by
  unfold OnlyDev State.setDev at *
  rw [h]
theorem OnlyDev.setCtx {s t : State} (h : OnlyDev s t) (c : Ctx) : OnlyDev s (t.setCtx c) := h.setDev _
theorem OnlyDev.store {s t : State} (h : OnlyDev s t) (a : Nat) (bs : List Byte) : OnlyDev s (t.store a bs) := h.setDev _
theorem OnlyDev.setQueue {s t : State} (h : OnlyDev s t) (q : Queue) : OnlyDev s (t.setQueue q) := h.setDev _
theorem OnlyDev.setLaunch {s t : State} (h : OnlyDev s t) (l : Launch) : OnlyDev s (t.setLaunch l) := h.setDev _
theorem OnlyDev.setDraw {s t : State} (h : OnlyDev s t) (l : Draw) : OnlyDev s (t.setDraw l) := h.setDev _
theorem OnlyDev.setPort {s t : State} (h : OnlyDev s t) (p : Port) : OnlyDev s (t.setPort p) := h.setDev _

/-- A trace record changes the device alone. -/
theorem OnlyDev.trace {s t : State} (h : OnlyDev s t) (n : Nat) (r : TraceRec) : OnlyDev s (t.trace n r) := by
  unfold State.trace
  generalize t.ctx n = c
  simp only
  split
  · exact h
  · split
    · exact ((h.store _ _).store _ _).setCtx _
    · exact h.store _ _

/-- A fault record changes the device alone. -/
theorem OnlyDev.record {s t : State} (h : OnlyDev s t) (n : Nat) (r : Rec) : OnlyDev s (t.record n r) := by
  unfold State.record
  generalize t.ctx n = c
  simp only
  split
  · exact h
  · split
    · exact ((h.store _ _).store _ _).setCtx _
    · exact h.store _ _

theorem State.traceTrap_frame (s : State) (t : Trap) :
    ∃ d, s.traceTrap t = { s with dev := d } ∧ ((s.ctxOn s.arbour s.team.ctx).trace = false ∨ s.grp.agent = true → d = s.dev) := by
  unfold State.traceTrap
  split
  · rename_i h
    refine ⟨_, (OnlyDev.refl s).trace s.team.ctx { s.traceRec 6 t.tpc (s.grp.treg.cause) with pc := t.tpc }, fun k => ?_⟩
    rw [Bool.and_eq_true, Bool.not_eq_true'] at h
    rcases k with k | k
    · rw [k] at h; exact absurd h.1 (by decide)
    · rw [k] at h; exact absurd h.2 (by decide)
  · exact ⟨s.dev, rfl, fun _ => rfl⟩

/-- A trap is entered where no other entity's trap holds the group, and is pending else (R381). -/
theorem State.takeTrap_eq (s : State) (t : Trap) :
    s.takeTrap t = if s.grp.gstate = .trapped ∧ s.ent.handling = false then { s with ent := { s.ent with pendingTrap := s.ent.pendingTrap.or (some t) } } else s.enterTrap t := by
  unfold State.takeTrap State.stoppedByOther State.setEnt
  by_cases h : s.grp.gstate = .trapped <;> cases k : s.ent.handling <;> simp [h]

theorem State.takeTrap_free {s : State} (h : s.grp.gstate ≠ .trapped ∨ s.ent.handling = true) (t : Trap) : s.takeTrap t = s.enterTrap t := by
  rw [State.takeTrap_eq, if_neg]
  rintro ⟨k, k'⟩
  rcases h with h | h
  · exact h k
  · rw [h] at k'; cases k'

/-- Entry into the group's own handler. -/
theorem State.enterTrap_inGroup (s : State) (t : Trap) (h1 : s.ent.handling = false) (h2 : (s.ctxOn s.arbour s.team.ctx).dmask.getLsbD t.code.num = false)
    (h3 : (s.ctxOn s.arbour s.team.ctx).hmask.getLsbD t.code.num = true) (h4 : t.code ≠ .regParityFatal) :
    ∃ d, s.enterTrap t = { (s.trapped t).enterHandler (s.ctxOn s.arbour s.team.ctx).hoff with dev := d } ∧
      ((s.ctxOn s.arbour s.team.ctx).trace = false ∨ s.grp.agent = true → d = s.dev) := by
  obtain ⟨d, hd, hx⟩ := (s.trapped t).traceTrap_frame t
  refine ⟨d, ?_, hx⟩
  simp only [State.enterTrap, h1, h2, h3, decide_eq_true h4, Bool.and_self, Bool.false_eq_true, if_false, if_true, hd]
  rfl

/-- Entry that holds the group for the debug handler. -/
theorem State.enterTrap_debug (s : State) (t : Trap) (h1 : s.ent.handling = false) (h2 : (s.ctxOn s.arbour s.team.ctx).dmask.getLsbD t.code.num = true) :
    ∃ d, s.enterTrap t = { (s.trapped t).holdForDebug with dev := d } ∧ ((s.ctxOn s.arbour s.team.ctx).trace = false ∨ s.grp.agent = true → d = s.dev) := by
  obtain ⟨d, hd, hx⟩ := (s.trapped t).traceTrap_frame t
  refine ⟨d, ?_, hx⟩
  simp only [State.enterTrap, h1, h2, Bool.false_eq_true, if_false, if_true, hd]
  rfl

/-- Entry that no handler takes. -/
theorem State.enterTrap_unhandled (s : State) (t : Trap)
    (h : s.ent.handling = true ∨ ((s.ctxOn s.arbour s.team.ctx).dmask.getLsbD t.code.num = false ∧
      ((s.ctxOn s.arbour s.team.ctx).hmask.getLsbD t.code.num = false ∨ t.code = .regParityFatal))) :
    s.enterTrap t = ((s.trapped t).traceTrap t).unhandled t := by
  simp only [State.enterTrap]
  rcases h with h | ⟨h, k | k⟩
  · simp only [h, if_true]
  · simp only [h, k, Bool.false_eq_true, if_false, Bool.false_and, ite_self]
  · rw [h, decide_eq_false (not_not.2 k)]
    simp only [Bool.false_eq_true, if_false, Bool.and_false, ite_self]

end Sys2Proof.Machine
end

