-- ==== Sys2Proof/Tests/Slice0.lean ====
section
/-! SUPPORT. Tests: ill-formed terms that WellFormed refuses, words written out from the spec's encodings, and a witness for the hypotheses
of each statement, named wit_<statement>_<clause>. Each witness is a small state and the operands. -/
namespace Sys2Proof.Tests
open Sys2Proof Sys2Proof.Machine

-- one theorem at a time: elaborated side by side they hold a thread each
set_option Elab.async false

/-! ## WellFormed refuses (R240, R241, R247 to R251, R268, R265, R294, R300, R353, R368) -/

theorem test_wf_cvt_pair : (Instr.cvt 0 1 2 0 0).wf = false := by decide
theorem test_wf_cvt_mode : (Instr.cvt 1 0 1 0 0).wf = false := by decide
theorem test_wf_cvt8_prec : (Instr.cvt8 0 0 0 15 0 0).wf = false := by decide
theorem test_wf_cvt8n_prec : (Instr.cvt8n 0 24 0 0).wf = false := by decide
theorem test_wf_load_hint : ∀ i ∈ [Instr.ldb 3 0 0 0 0, .ldbs 3 0 0 0 0, .ldh 3 0 0 0 0, .ldhs 3 0 0 0 0, .ldw 3 0 0 0 0, .ldd 3 0 0 0 0, .ldq 3 0 0 0 0, .gath4 3 0 0 0 0], i.wf = false := by decide
theorem test_wf_store_hint : ∀ i ∈ [Instr.stb 3 0 0 0 0, .sth 3 0 0 0 0, .stw 3 0 0 0 0, .std 3 0 0 0 0, .stq 3 0 0 0 0, .pref 3 0 0 0], i.wf = false := by decide
theorem test_wf_uniform_hint : ∀ i ∈ [Instr.lduw 3 0 0 0 0, .ldud 3 0 0 0 0, .ldba 3 0 0 0 0, .stba 3 0 0 0 0], i.wf = false := by decide
theorem test_wf_waitc_path : (Instr.waitc 0 6).wf = false := by decide
theorem test_wf_emget_odd : (Instr.emget 5).wf = false ∧ (Instr.emget 64).wf = false := by decide
theorem test_wf_fence : (Instr.fence 0 0 0).wf = false ∧ (Instr.fence 0 7 1).wf = false := by decide
theorem test_wf_base : (Instr.bset 62 0).wf = false ∧ (Instr.bget 62 0).wf = false := by decide
theorem test_wf_reduce : (Instr.xred 11 0 0).wf = false ∧ (Instr.xscan 0 11 0 0).wf = false := by decide
theorem test_wf_cas : (Instr.cas 0 0 0 2 0).wf = false ∧ (Instr.cas 0 0 0 1 3).wf = false := by decide
theorem test_wf_rastSin : (Instr.rastSin 11).wf = false := by decide
theorem test_wf_wkpop : (Instr.privWkpop 3).wf = false ∧ (Instr.privWkpop 62).wf = false := by decide
theorem test_wf_accepts : (Instr.cvt 2 0 3 0 0).wf = true ∧ (Instr.cas 0 0 0 1 0).wf = true ∧ (Instr.emget 62).wf = true := by decide

/-! ## Words written out (fields from bit 31 down, as R237 to R251 and R255 lay them out; the last field names the class) -/

theorem test_word_class0 : decode 0b00000010_00000001_0000011_00101_0001 = .ok (.idiv 2 1 3) := by rfl
theorem test_word_class1 : decode 0b00111111_11010000_0000010_00000_0011 = .ok (.fadd 0x3F 0xD0 2) := by rfl
theorem test_word_class2_literal : decode 0b00101000_00000010_0111111_01101_0101 = .ok (.fmulk 0x28 2 0x3F) := by rfl
theorem test_word_class2_imm16 : decode 0b0100000000010000_0000000_01111_0101 = .ok (.limh 0x4010 0) := by rfl
theorem test_word_class3 : decode 0b00000001_00000000_0000110_00110_0111 = .ok (.bilv3 1 0 6) := by rfl
theorem test_word_class4 : decode 0b10100001_01010001_1000001_00001_1001 = .ok (.ssub 0xA1 0x51 0x41) := by rfl
theorem test_word_class5 : decode 0b00_00_0000_01000000_1000000_00100_1011 = .ok (.ldw 0 0 0 0x40 0x40) := by rfl
theorem test_word_class6 : decode 0b11111111111111111111100_00010_1101 = .ok (.brnz 0x7FFFFC) := by rfl
theorem test_word_16bit : decode 0b00010_000011_1100_0 = .ok (.fmul16 2 3) := by rfl
theorem test_word_sys : decode 0b00000000_10100001_0001001_00000_1111 = .ok (.scopeOpen 0xA1) := by rfl
theorem test_word_mma : decode 0b00011000_00001000_0000000_01011_1111 = .ok (.mma 0x18 8) := by rfl
theorem test_word_xshf : decode 0b00000000_00000001_0000010_00001_1111 = .ok (.xshf 0 1 2) := by rfl
theorem test_word_xred : decode 0b0000_0001_00000101_0000110_00110_1111 = .ok (.xred 1 5 6) := by rfl
theorem test_word_xscan : decode 0b1_000_0000_00000100_0000101_00111_1111 = .ok (.xscan 1 0 4 5) := by rfl
theorem test_word_acc : decode 0b0_000_0011_10100001_0000010_01100_1111 = .ok (.accRd 0 0xA1 2) := by rfl
theorem test_word_frag : decode 0b00000001_01011110_0011000_01101_1111 = .ok (.fragLdb 0x5E 0x18) := by rfl
theorem test_word_perm : decode 0b00_01_0110_000000_00_1111111_01110_1111 = .ok (.permPack 1 0) := by rfl
theorem test_word_permAcc : decode 0b00_01_0_000_00000000_1111111_01111_1111 = .ok (.permAcc 1 0) := by rfl
theorem test_word_atom64 : decode 0b00000100_00000010_010_0011_10001_1111 = .ok (.atom64 4 2 2 3) := by rfl
theorem test_word_atoms : decode 0b10100001_01000000_000_0000_10010_1111 = .ok (.atoms 0xA1 0x40 0) := by rfl
theorem test_word_cas : decode 0b00000011_00000001_0_00_0010_10011_1111 = .ok (.cas 3 1 0 0 2) := by rfl
theorem test_word_ring : decode 0b00000000_00111111_0000000_10100_1111 = .ok (.ringInit 0x3F) := by rfl
theorem test_word_bar : decode 0b10100010_00111111_0000000_10101_1111 = .ok (.barInit 0xA2 0x3F) := by rfl
theorem test_word_xcopy : decode 0b0000_0010_01010110_0000000_10110_1111 = .ok (.xcopyIn 0 2 0x56) := by rfl
theorem test_word_mq : decode 0b00_10_0001_01010000_0000011_10111_1111 = .ok (.mqRecv 2 0x50 3) := by rfl
theorem test_word_tag : decode 0b00000011_00000010_0000001_11000_1111 = .ok (.tagSet 3 2) := by rfl
theorem test_word_sset : decode 0b0010_0000_10100001_0000000_11001_1111 = .ok (.ssetInit 2 0 0xA1) := by rfl
theorem test_word_rast : decode 0b0011_0000_01000000_0000000_11010_1111 = .ok (.rastEmit 3 0 0x40) := by rfl
theorem test_word_treemask : decode 0b0000000_0_00000001_0000011_11011_1111 = .ok (.treemask 0 1 3) := by rfl
theorem test_word_dbg : decode 0b01010001_01010000_0000000_11101_1111 = .ok (.dbgTracew 0x51 0x50) := by rfl
theorem test_word_ord : decode 0b00000010_00000000_0000010_11110_1111 = .ok (.ordTry 2 0) := by rfl
theorem test_word_nop_is_zero_fields : decode 0b00000000_00000000_0000000_00000_1111 = .ok .nop := by rfl
theorem test_word_reserved : (match decode 0xFFFFFFFF with | .ok _ => false | .error _ => true) = true := by decide
theorem test_word_priv : decodeTableWord 32 0x000003CF = some .privTeamdone := by rfl

/-! ## Small states -/

def ent0 : Entity := { num := 0, live := true, pc := 0x100, em := 0xFFFF, l := 0xFFFF }
def grp0 : Group := { loc := ⟨0, 0, 0⟩, gstate := .ready, team := 1, width := 16, base := 32, peak := 56, age := 1 }
def team0 : Team := { serial := 1, ctx := 1, scratch := 4096, bars := 4, launch := 5, groups := 2 }
def agent0 : Group := { agentGroup 0 with sibs := [agentEntity] }
/-- A leaf that maps page 5 of context 1 to the module's page 5, readable, writable, executable. -/
def leaf5 : TlbEntry := ⟨1, 0, 5, 0x7C00000000050000⟩
def ctx1 : Ctx := { num := 1, state := .resident, astag := 1 }
/-- A user group of 16 lanes in front, in a READY module. -/
def u0 : State := { ent := ent0, grp := grp0, team := team0, core := { groups := [agent0], dtlb := [leaf5], itlb := [leaf5] }, dev := { devstate := .ready, ctxs := [ctx1] }, nextOp := 1, nextTeam := 2, nextAge := 2 }
/-- The agent of core 0 in front. -/
def a0 : State := { ent := agentEntity, grp := agentGroup 0, dev := { devstate := .ready, ctxs := [ctx1] } }

/-- The state after an instruction, if it answers one. -/
def after (i : Instr) (s : State) : State := match exec i s with | .next t => t | _ => s
/-- Whether an instruction adds one operation, whose accesses may all be performed at once and which are some. -/
def performs (i : Instr) (s : State) : Bool := match (after i s).grp.ops with
  | [o] => s.grp.ops.isEmpty && !o.todo.isEmpty && o.todo.all fun a => !(after i s).grp.blocked o a
  | _ => false
theorem performable {i : Instr} {s : State} (h : performs i s = true) : ∃ op, (after i s).grp.ops = s.grp.ops ++ [op] ∧ op.todo ≠ [] ∧ (after i s).Performable op := by
  unfold performs at h
  split at h
  · rename_i o ho
    simp only [Bool.and_eq_true, List.isEmpty_iff, Bool.not_eq_true', List.isEmpty_eq_false_iff, List.all_eq_true] at h
    exact ⟨o, by simp [ho, h.1.1], h.1.2, o.uses, by simp [ho], by simp [ho], fun a ha => h.2 a ha⟩
  · cases h

/-! ## Vector forms -/

theorem wit_IntegerFormResults : u0.Ready 3 [1, 0x8E] := ⟨by decide, by decide, by decide, by decide⟩
theorem wit_IntegerFormResults_last : u0.Ready 31 [31, 0x4F] := ⟨by decide, by decide, by decide, by decide⟩
/-- The operands of the division corners in s0 to s2. -/
def uDiv : State := { u0 with grp := { grp0 with s := [0x80000000, 0xFFFFFFFF, 0] } }
theorem wit_DivisionForms : uDiv.Ready 3 [0x50, 0x51] ∧ uDiv.Ready 3 [0x50, 0x52] ∧ uDiv.read 0x50 0 = 0x80000000 ∧ uDiv.read 0x51 0 = 0xFFFFFFFF ∧ uDiv.read 0x52 0 = 0 :=
  ⟨⟨by decide, by decide, by decide, by decide⟩, ⟨by decide, by decide, by decide, by decide⟩, by decide, by decide, by decide⟩
theorem wit_FloatForms : u0.Ready 0x5F [0x4F, 0x8F] ∧ u0.Ready 0x5F [0x9E] := ⟨⟨by decide, by decide, by decide, by decide⟩, ⟨by decide, by decide, by decide, by decide⟩⟩
theorem wit_CompareForms : u0.Ready 0x3F [1, 0xDF] ∧ u0.Ready 0x3F [] ∧ u0.Ready 0x1F [] := ⟨⟨by decide, by decide, by decide, by decide⟩, ⟨by decide, by decide, by decide, by decide⟩, ⟨by decide, by decide, by decide, by decide⟩⟩
theorem wit_BitForms : u0.Ready 3 [0xD0, 2] ∧ u0.Ready 3 [0xD0, 2, thirdCode 3] ∧ u0.Ready 3 [0xD0] := ⟨⟨by decide, by decide, by decide, by decide⟩, ⟨by decide, by decide, by decide, by decide⟩, ⟨by decide, by decide, by decide, by decide⟩⟩
theorem wit_LiteralForms : u0.Ready 0x7F [] ∧ u0.Ready 0x5F [0x8F] ∧ u0.Ready 0x5F [thirdCode 0x5F] := ⟨⟨by decide, by decide, by decide, by decide⟩, ⟨by decide, by decide, by decide, by decide⟩, ⟨by decide, by decide, by decide, by decide⟩⟩
theorem wit_TernaryForms : u0.Ready 31 [1, 2, thirdCode 31] ∧ u0.Ready 0x3F [1, 2, thirdCode 0x3F] :=
  ⟨⟨by decide, by decide, by decide, by decide⟩, ⟨by decide, by decide, by decide, by decide⟩⟩
theorem wit_SixteenBitForms : u0.Ready 31 [0x4F, 31] ∧ u0.Ready 63 [0, 0x40] := ⟨⟨by decide, by decide, by decide, by decide⟩, ⟨by decide, by decide, by decide, by decide⟩⟩
theorem wit_PairForms : u0.PairReady 30 [0, 0x8E] [] ∧ u0.PairReady 0x3F [0x4E] [0xA3] :=
  ⟨⟨by decide, by decide, by decide, by decide, by decide⟩, ⟨by decide, by decide, by decide, by decide, by decide⟩⟩
theorem wit_ConversionForms : u0.Ready 2 [1] ∧ precOk 8 = true ∧ precOk 23 = true ∧ (Instr.cvt 3 0 6 1 2).wf = true ∧ (0#8).toNat ≠ (b8Of 11).nan ∧ (b8Of 11).nan = 0x80 := ⟨⟨by decide, by decide, by decide, by decide⟩, by decide⟩
theorem wit_OperandFieldTraps_d : u0.dBad 32 = true := by decide
theorem wit_OperandFieldTraps_a : u0.dBad 31 = false ∧ u0.srcBad 32 = true := by decide
theorem wit_OperandFieldTraps_b : u0.dBad 0x3F = false ∧ u0.srcBad 0x3F = false ∧ u0.srcBad 0x3E = true := by decide
/-- A load is outstanding into v3 of lane 0. -/
def uPend : State := { u0 with grp := { grp0 with ops := [{ id := 0, path := some .vm, ent := 0, fills := [⟨.v 0 3, 7⟩, ⟨.s 4, 9⟩] }] } }
theorem wit_OperandFieldTraps_pending : uPend.dBad 1 = false ∧ uPend.srcBad 3 = false ∧ uPend.srcBad 1 = false ∧
    (uPend.pendingIn uPend.activeLanes 3 || uPend.pendingIn uPend.activeLanes 1 || uPend.pendingD uPend.activeLanes 1) = true := by decide
theorem wit_PermutingForms : u0.CrossReady 3 1 (some (0x50, true)) ∧ u0.CrossReady 3 1 (some (2, false)) ∧ u0.CrossReady 3 1 none :=
  ⟨⟨by decide, by decide, by rintro c u h; cases h; decide, by decide, by decide⟩, ⟨by decide, by decide, by rintro c u h; cases h; decide, by decide, by decide⟩, ⟨by decide, by decide, by simp, by decide, by decide⟩⟩
theorem wit_ReductionForms : (10#4).toNat ≤ 10 ∧ u0.pendingS 63 = false ∧ u0.pendingD u0.ownLanes 3 = false := by decide

/-! ## Scalar forms and control flow -/

theorem wit_ScalarForms : u0.UniReady [0x50, 0xA1] (scDst 3) ∧ u0.UniReady [] (scDst 0x3F) ∧ u0.UniReady [0x8F] [] := ⟨⟨by decide, by decide, by decide⟩, ⟨by decide, by decide, by decide⟩, ⟨by decide, by decide, by decide⟩⟩
theorem wit_ScalarDivisionAndPairs_zero : uDiv.uni 0x52 = 0 ∧ uDiv.UniReady [0x50, 0x52] (scDst 3) := ⟨by decide, by decide, by decide, by decide⟩
theorem wit_ScalarDivisionAndPairs_overflow : uDiv.uni 0x50 = 0x80000000 ∧ uDiv.uni 0x51 = 0xFFFFFFFF ∧ uDiv.UniReady [0x50, 0x51] (scDst 3) := ⟨by decide, by decide, by decide, by decide, by decide⟩
theorem wit_ScalarDivisionAndPairs_pairs : (62#7).toNat % 64 % 2 = 0 ∧ sPairBad 0x50 = false ∧ sPairBad 0x8E = false ∧ u0.UniReady [] [62, 63] ∧ ∀ c ∈ [0x50#8, codePlus 0x50 1, 0x8E, codePlus 0x8E 1], u0.pendingIn [] c = false :=
  ⟨by decide, by decide, by decide, ⟨by decide, by decide, by decide⟩, by decide⟩
theorem wit_SpecialRegisters_bad : (0x1F#8 = 0x1F ∨ 0x29 < (0x1F#8).toNat) ∧ 0x29 < (0x2A#8).toNat ∧ (0x11#8).toNat ∉ [0x12, 0x13, 0x14, 0x15, 0x16, 0x17, 0x18, 0x1E] := by decide
/-- Of two writes of team word 2 in this cycle, one of partition 9 takes effect after the group's, one of partition 1 before it. -/
def uCycle : State := { u0 with grp := { grp0 with loc := ⟨0, 3, 0⟩ }, team := { team0 with wold := [⟨2, 7, 0, ⟨0, 9, 0⟩, 1, false⟩, ⟨2, 5, 0, ⟨0, 1, 0⟩, 2, true⟩] } }
theorem wit_SpecialRegisters_cycle : uCycle.team.wold.filter (fun o => o.reg = 2 && o.tick = uCycle.dev.tick) = [⟨2, 7, 0, ⟨0, 9, 0⟩, 1, false⟩] ++ [⟨2, 5, 0, ⟨0, 1, 0⟩, 2, true⟩] ∧
    (let place (l : GLoc) : Nat := l.core % 2 * 16 + l.part; place uCycle.grp.loc < place ⟨0, 9, 0⟩ ∧ place ⟨0, 1, 0⟩ ≤ place uCycle.grp.loc) ∧ uCycle.UniReady [0xA1] [] := ⟨by decide, by decide, by decide, by decide, by decide⟩
theorem wit_BranchesAndCalls_taken : u0.ent.scc.z = false ∧ (∃ k < 64, u0.active k) ∧ ¬ ∃ k < 64, u0.active k ∧ (u0.grp.lane k).p.getLsbD 0 := by decide
def u0calls (l : List Word) : State := { u0 with ent := { ent0 with calls := l } }
theorem wit_BranchesAndCalls_call : (u0calls [1, 2, 3, 4, 5, 6, 7]).ent.calls.length < 8 ∧ 8 ≤ (u0calls [1, 2, 3, 4, 5, 6, 7, 8]).ent.calls.length := by decide
theorem wit_BranchesAndCalls_ret : (u0calls [7]).ent.calls = 7 :: [] ∧ (u0calls []).ent.calls = [] := by decide
theorem wit_BranchesAndCalls_jmpi : (u0.uni 0xA2).getLsbD 0 = false ∧ (u0.uni 0xA1).getLsbD 0 = true ∧ u0.UniReady [0xA1] [] := ⟨by decide, by decide, ⟨by decide, by decide, by decide⟩⟩
/-- Lanes 0 to n − 1 have p0. -/
def uPred (n : Nat) : State := { u0 with grp := { grp0 with lanes := List.replicate n { p := 1 } } }
theorem wit_DivergentBranch_none : (uPred 0).predMask 0 = 0 := by decide
theorem wit_DivergentBranch_all : (uPred 16).predMask 0 ≠ 0 ∧ (uPred 16).predMask 0 = (uPred 16).activeMask := by decide
theorem wit_DivergentBranch_split : (uPred 3).predMask 0 ≠ 0 ∧ (uPred 3).predMask 0 ≠ (uPred 3).activeMask ∧ (uPred 3).ent.handling = false ∧ (uPred 3).grp.freeSplit = some 0 ∧ (uPred 3).freeEntity = some 1 := by decide
def uSerial (d : Nat) : State := { uPred 3 with ent := { ent0 with handling := true, defs := List.replicate d ⟨0, 0, none, false⟩ } }
theorem wit_DivergentBranch_serial : (uSerial 7).predMask 0 ≠ 0 ∧ (uSerial 7).predMask 0 ≠ (uSerial 7).activeMask ∧ (uSerial 7).ent.defs.length < 8 ∧ 8 ≤ (uSerial 8).ent.defs.length := by decide
theorem wit_MaskAndBaseForms : u0.UniReady [] [62, 63] ∧ u0.grp.pendingDest (.b 15) = false ∧ u0.UniReady [] [61, 62, 63] := ⟨⟨by decide, by decide, by decide⟩, by decide, ⟨by decide, by decide, by decide⟩⟩
theorem wit_WaitForms_drained : ∀ y ∈ [Path.vm, .sp, .ga, .mq], u0.grp.count y = 0 := by decide
theorem wit_WaitForms_notDrained : ¬ ∀ y ∈ [Path.vm, .sp, .ga, .mq], uPend.grp.count y = 0 := by decide
theorem wit_WaitForms_waitc : ¬ uPend.grp.count .vm ≤ (uPend.uni 0xA0).toNat ∧ uPend.grp.count .vm ≤ (uPend.uni 0xA1).toNat := by decide
def uSleep (w : Option Nat) (tick : Nat) : State := { u0 with ent := { ent0 with status := .waiting .sleep, wd := { wake := w } }, dev := { u0.dev with tick } }
theorem wit_WaitForms_sleep_new : (uSleep none 0).ent.wd.wake = none ∧ (uSleep none 0).uni 0xA0 = 0 ∧ (uSleep none 0).uni 0xA1 ≠ 0 := by decide
theorem wit_WaitForms_sleep_bounds : (uSleep (some 9) 9).ent.wd.wake = some 9 ∧ 9 ≤ (uSleep (some 9) 9).dev.tick ∧ ¬ 9 ≤ (uSleep (some 9) 8).dev.tick := by decide
theorem wit_ExitAndJoin_exit_last : u0.ent.handling = false ∧ u0.ent.defs = [] ∧ u0.grp.sibs = [] ∧ u0.ent.parent = none := by decide
def uDef (half : Bool) (j : Option Word) : State := { u0 with ent := { ent0 with defs := [⟨0x200, 0xFF, j, half⟩] } }
theorem wit_ExitAndJoin_exit_deferral : (uDef false none).ent.defs = ⟨0x200, 0xFF, none, false⟩ :: [] ∧ (uDef true (some 4)).ent.defs = ⟨0x200, 0xFF, some 4, true⟩ :: [] := by decide
def uJoin (wait : Bool) (sibs : List Entity) : State := { u0 with
  ent := { ent0 with parent := some 0 }, grp := { grp0 with split := [{ valid := true, live := 2, wait, waitpc := 0x100, waiter := 1 }], sibs } }
def joiner : Entity := { num := 1, live := true, pc := 0x100, status := .waiting .join, parent := some 0 }
theorem wit_ExitAndJoin_join_waits : (uJoin false []).ent.parent = some 0 ∧ 1 < ((uJoin false []).grp.split.getD 0 {}).live ∧ ((uJoin false []).grp.split.getD 0 {}).wait = false := by decide
theorem wit_ExitAndJoin_join_fuses : ((uJoin true [joiner]).grp.split.getD 0 {}).live = 2 ∧ ((uJoin true [joiner]).grp.split.getD 0 {}).wait = true ∧ ((uJoin true [joiner]).grp.split.getD 0 {}).waiter ≠ (uJoin true [joiner]).ent.num ∧
    ((uJoin true [joiner]).grp.split.getD 0 {}).waitpc = (uJoin true [joiner]).ent.pc ∧ joiner.num = ((uJoin true [joiner]).grp.split.getD 0 {}).waiter ∧ (uJoin true [joiner]).grp.sibs = [] ++ joiner :: [] ∧
    joiner.defs = [] ∧ ((uJoin true [joiner]).grp.split.getD 0 {}).parent = none := by decide
theorem wit_ExitAndJoin_exit_handler : ({ u0 with ent := { ent0 with handling := true } } : State).ent.handling = true ∧ u0.grp.sibs = [] ∧ (uDef true none).ent.defs = ⟨0x200, 0xFF, none, true⟩ :: [] ∧ (uDef true none).ent.defs.length ≤ 8 := by decide
/-- The split entry of the entity, with so many live children; its sibling waits there, or does not, at the PC given. -/
def uSib (live : Nat) (wait : Bool) (waitpc : Word) (up : Option Nat) : State := { u0 with
  ent := { ent0 with parent := some 0 }, grp := { grp0 with split := [{ valid := true, live, wait, waitpc, waiter := 1, parent := up }], sibs := [joiner] } }
theorem wit_ExitAndJoin_exit_several : (uSib 2 false 0 none).grp.sibs = joiner :: [] ∧ (uSib 2 false 0 none).ent.parent = some 0 ∧ (uSib 2 false 0 none).grp.split.length ≤ 8 ∧ 2 ≤ ((uSib 2 false 0 none).grp.split.getD 0 {}).live ∧
    ((uSib 2 false 0 none).grp.split.getD 0 {}).wait = false ∧ ((uSib 1 false 0 none).grp.split.getD 0 {}).live ≤ 1 ∧ ({ uSib 2 false 0 none with ent := ent0 } : State).ent.parent = none := by decide
theorem wit_ExitAndJoin_exit_waiter : ∀ up ∈ [none, some 1], let s := uSib 2 true 0x80 up
    let left : State := { s with ent := joiner, grp := { s.grp with lastExit := s.ent.pc, sibs := [], split := putAt {} s.grp.split 0 { s.grp.split.getD 0 {} with live := 1 } } }
    (s.grp.split.getD 0 {}).live = 2 ∧ (s.grp.split.getD 0 {}).waiter ≠ s.ent.num ∧ left.focusEnt 1 = some left ∧ left.ent.defs = [] ∧ left.ent.parent = some 0 := by decide
theorem wit_ExitAndJoin_join_elsewhere : 1 < ((uSib 2 true 0x80 none).grp.split.getD 0 {}).live ∧ ((uSib 2 true 0x80 none).grp.split.getD 0 {}).waitpc ≠ (uSib 2 true 0x80 none).ent.pc := by decide
theorem wit_ExitAndJoin_join_parent : ((uSib 2 true 0x100 (some 1)).grp.split.getD 0 {}).parent ≠ none ∧ ((uSib 2 true 0x100 (some 1)).grp.split.getD 0 {}).waitpc = (uSib 2 true 0x100 (some 1)).ent.pc ∧ joiner.pc = (uSib 2 true 0x100 (some 1)).ent.pc := by decide
theorem wit_ScopeForms_bad : u0.uni 0xA0 = 0 ∧ u0.grp.peak < u0.grp.window + 8 * 4 ∧ ¬ u0.grp.peak < u0.grp.window + 8 * 3 := by decide
theorem wit_ScopeForms_granted : u0.scopeGrant 3 = some false := by decide
/-- An older group of the partition waits for a scope. -/
def uScopeFull : State := { u0 with grp := { grp0 with age := 9 }, core := { u0.core with groups := [agent0, { grp0 with loc := ⟨0, 0, 1⟩, sibs := [{ ent0 with num := 1, status := .waiting .scope }] }] } }
theorem wit_ScopeForms_waits : uScopeFull.scopeGrant 1 = none := by decide
theorem wit_ScopeForms_close : u0.grp.scopes = [] ∧ ({ u0 with grp := { grp0 with scopes := [2, 1] } } : State).grp.scopes = 2 :: [1] := by decide
/-- A line fill that core 5 of the cluster requested before is in flight, and what overwrote a team word. -/
def uFills : State := { u0 with cores := [{ num := 5, fills := [⟨0, ⟨1, 0x50000, []⟩⟩] }] }
theorem wit_WaitForms_code : uFills.inScope 2 5 = true ∧ uFills.inScope 0 5 = false ∧ (∃ k ∈ uFills.allCores, uFills.inScope 2 k.num = true ∧ ∃ f ∈ k.fills, f.id < uFills.ent.wd.fills.getD uFills.nextOp) ∧
    ¬ ∃ k ∈ uFills.allCores, uFills.inScope 0 k.num = true ∧ ∃ f ∈ k.fills, f.id < uFills.ent.wd.fills.getD uFills.nextOp := by decide

/-! ## Traps -/

def uTrap (hmask dmask : Word) (trace handling : Bool) : State := { u0 with
  ent := { ent0 with handling }
  dev := { u0.dev with ctxs := [{ ctx1 with hmask, dmask, trace, hoff := 0x40 }], launches := [{ id := 5, state := .issuing, ctx := 1 }] } }
def softTrap : Trap := { code := .softTrap, tpc := 0x104, first := 0x100 }
theorem wit_TrapEntry_handler : ((uTrap 0x400000 0 false false).ctx 1).dmask.getLsbD softTrap.code.num = false ∧ ((uTrap 0x400000 0 false false).ctx 1).hmask.getLsbD softTrap.code.num = true ∧
    softTrap.code ≠ .regParityFatal ∧ (uTrap 0x400000 0 false false).ent.handling = false ∧ ((uTrap 0x400000 0 false false).ctx 1).trace = false := by decide
theorem wit_TrapEntry_debug : ((uTrap 0 0x400000 true false).ctx 1).dmask.getLsbD softTrap.code.num = true ∧ (uTrap 0 0x400000 true false).ent.handling = false := by decide
theorem wit_TrapEntry_unhandled : ((uTrap 0 0 false false).ctx 1).dmask.getLsbD 0x16 = false ∧ ((uTrap 0 0 false false).ctx 1).hmask.getLsbD 0x16 = false ∧ (uTrap 0 0 false false).grp.agent = false ∧
    (uTrap 0 0 false false).launch? 5 = some { id := 5, state := .issuing, ctx := 1 } := ⟨by decide, by decide, by decide, by rfl⟩
theorem wit_TrapEntry_nested : (uTrap 0 0 false true).ent.handling = true := by decide
theorem wit_TrapAndReturn : (0x00#8) ≠ 0xFF ∧ (0xFE#8) ≠ 0xFF ∧ (uTrap 0 0 false true).ent.handling = true ∧ (uTrap 0 0 false true).grp.sibs = [] := by decide
theorem wit_TrapThenReturnRestores : (uTrap 0x400000 0 false false).ent.em &&& (uTrap 0x400000 0 false false).live = (uTrap 0x400000 0 false false).ent.em := by decide
theorem wit_TrapEntry_pending : ({ u0 with grp := { grp0 with gstate := .trapped } } : State).grp.gstate = .trapped ∧ u0.ent.handling = false := by decide

/-! ## Encoding and stepping -/

theorem wit_DecodeOfEncode : (Instr.idiv 2 1 3).wf = true ∧ (Instr.rastSin 10).wf = true := by decide
theorem wit_EncodeOfDecode : decode 0x02010651 = .ok (.idiv 2 1 3) := by rfl
/-- u0 with the word of NOP, or a reserved one, in its cached line. -/
def uCode (w : Nat) (turns : List Turn) : State := { (u0.putCode 0x100 (leBytes w 4)) with turns }
theorem wit_StepRunsDecodedInstruction_issue : (uCode 0x0000000F []).canIssue (uCode 0x0000000F []).stowGroup (uCode 0x0000000F []).ent = true ∧ (uCode 0x0000000F []).nextTrap = none ∧ (uCode 0x0000000F []).comparator = none ∧
    (uCode 0x0000000F []).fetch = .ok (4, 0x0000000F) := ⟨by decide, by decide, by decide, by rfl⟩
theorem wit_StepRunsDecodedInstruction_decodes : decode 0x0000000F = .ok .nop ∧ ∃ e, decode 0xFFFFFFFF = .error e := ⟨by rfl, by exact ⟨_, rfl⟩⟩
theorem wit_StepRunsDecodedInstruction_default : ((uCode 0x0000000F []).internalEvents.find? fun k => goesOn (exec k (uCode 0x0000000F []))) = none ∧ (uCode 0x0000000F []).waiters = [] ∧
    (uCode 0x0000000F []).nextIssue = some ⟨⟨0, 0, 0⟩, 0⟩ := ⟨by decide, by decide, by decide⟩
theorem wit_StepTakesTurns_event : u0.allows .powerLoss = true ∧ u0.allows .nop = false ∧ ({ u0 with dev := { u0.dev with devstate := .stopped } } : State).allows (.queuePoll 0) = false := by decide
def uStopped (st : DevState) (turns : List Turn) : State := { u0 with dev := { u0.dev with devstate := st, stopped := some 9, tick := 9 }, turns }
theorem wit_StepTakesTurns_pass : u0.dev.stopped = none ∧ u0.dev.salt = [] ∧ (uStopped .stopped [.pass 1]).dev.stopped ≠ none ∧ State.reset.dev.devstate = .boot ∧ (uStopped .failsafe []).dev.devstate = .failsafe := by decide
theorem wit_CanonicalKeptByEveryStep : u0.Canonical ∧ State.reset.Canonical := ⟨⟨by decide, by decide, by decide, by decide⟩, ⟨by decide, by decide, by decide, by decide⟩⟩
theorem wit_CanonicalKeptByEveryStep_step : goesOn (step (uCode 0x0000000F [.issue ⟨⟨0, 0, 0⟩, 0⟩])) = true := by decide
theorem wit_StoppedUntilReset : goesOn (step (uStopped .stopped [.event .stopStatus])) = true ∧ goesOn (step (uStopped .stopped [.event .powerLoss])) = true := by decide
/-- The status of an ENTER has not filled. -/
def uStatus : State := { uCode 0x0000000F [] with grp := { (uCode 0x0000000F []).grp with ops := [{ id := 0, path := none, ent := 0, fills := [⟨.q 0 0, 0⟩], order := some true }] } }
theorem wit_StepRunsDecodedInstruction_order : uStatus.nextTrap = none ∧ uStatus.orderHold = some .order ∧ (uCode 0x0000000F []).orderHold = none := by decide
theorem wit_StepRunsDecodedInstruction_stop : (uCode 0x0000000F []).stopTick = none ∧ ((uCode 0x0000000F []).dev.tick + 1) % 65536 ≠ 0 := by decide

/-! ## Memory -/

/-- Every probe of the accesses translates, as a Bool. -/
def mapsAll (n : Need) (s : State) (as : List Access) : Bool :=
  as.all fun a => a.probes.all fun v => match (s.translate s.core.dtlb (s.ctx s.team.ctx) s.arbour n v).1 with | .ok _ => true | .error _ => false
theorem mapped_of_mapsAll {n : Need} {s : State} {as : List Access} (h : mapsAll n s as = true) :
    ∀ a ∈ as, ∀ v ∈ a.probes, ∃ p, (s.translate s.core.dtlb (s.ctx s.team.ctx) s.arbour n v).1 = .ok p := by
  intro a ha v hv
  have h2 := List.all_eq_true.1 (List.all_eq_true.1 h a ha) v hv
  split at h2
  · exact ⟨_, ‹_›⟩
  · cases h2
/-- Every unit of g bytes of the accesses may be sent, as a Bool. -/
def sentAll (n : Need) (g : Nat) (uni : Bool) (s : State) (as : List Access) : Bool :=
  as.all fun a => (List.range (a.size / g + 1)).all fun k => decide (a.size ≤ g * k) || decide (s.remoteGate (s.usesOf [(if uni then 64 else a.lane, a.va, s.pa n (a.va + BitVec.ofNat 80 (g * k)))]) = none)
theorem sendable {s : State} {n : Need} {m g : Nat} {uni : Bool} {as : List Access}
    (h : mapsAll n s as = true ∧ (∀ a ∈ as, a.va.toNat % m = 0) ∧ sentAll n g uni s as = true ∧ 0 < g) : s.Sendable n m g uni as :=
  ⟨h.2.1, mapped_of_mapsAll h.1, fun a ha k hk => by
    have hk2 : k < a.size / g + 1 := Nat.lt_succ_of_le ((Nat.le_div_iff_mul_le h.2.2.2).2 (Nat.mul_comm g k ▸ Nat.le_of_lt hk))
    simpa [Nat.not_le.2 hk] using List.all_eq_true.1 (List.all_eq_true.1 h.2.2.1 a ha) k (List.mem_range.2 hk2)⟩
/-- Every lane's window access is inside the window, as a Bool. -/
def windowAll (s : State) (f : Nat → Word) (m : Nat) : Bool :=
  s.activeLanes.all fun i => match s.window (f i) m m with | .ok _ _ => true | _ => false
theorem window_of_windowAll {s : State} {f : Nat → Word} {m : Nat} (h : windowAll s f m = true) : ∀ i ∈ s.activeLanes, ∃ c p, s.window (f i) m m = .ok c p := by
  intro i hi
  have h2 := List.all_eq_true.1 h i hi
  split at h2
  · exact ⟨_, _, ‹_›⟩
  · cases h2
def uMem (a : VAddr) : State := { u0 with grp := { grp0 with b := [a], lanes := List.replicate 16 { v := [0] } }, team := { team0 with base := 0 } }
theorem wit_GlobalLoads : (uMem 0x50000).srcBad 0xA0 = false ∧ (uMem 0x50000).MemReady .vm (some 0) [0xA0] ∧ (uMem 0x50000).RunReady 0x40 1 ∧
    (uMem 0x50000).Sendable { r := true } 4 8 false ((uMem 0x50000).accesses 4 ((uMem 0x50000).ea 0 0 0xA0)) :=
  ⟨by decide, ⟨by decide, by rintro e ⟨⟩; decide, by decide⟩, ⟨by decide, by decide⟩, sendable (by decide)⟩
theorem wit_GlobalLoads_last : (uMem 0x5FFF0).RunReady 28 4 ∧ (uMem 0x5FFF0).RunReady 0x3F 1 ∧ (uMem 0x5FFF0).Sendable { r := true } 16 8 false ((uMem 0x5FFF0).accesses 16 ((uMem 0x5FFF0).ea 0 0 0xA0)) ∧ (28#7).toNat % 64 ≠ 0x3F :=
  ⟨⟨by decide, by decide⟩, ⟨by decide, by decide⟩, sendable (by decide), by decide⟩
theorem wit_GlobalLoads_performed : (∃ op, (after (.ldq 0 0 0 0xA0 4) (uMem 0x50000)).grp.ops = (uMem 0x50000).grp.ops ++ [op] ∧ op.todo ≠ [] ∧ (after (.ldq 0 0 0 0xA0 4) (uMem 0x50000)).Performable op) ∧
    ∃ op, (after (.gath4 0 0 0 0xA0 4) (uMem 0x50000)).grp.ops = (uMem 0x50000).grp.ops ++ [op] ∧ op.todo ≠ [] ∧ (after (.gath4 0 0 0 0xA0 4) (uMem 0x50000)).Performable op := ⟨performable (by decide +kernel), performable (by decide +kernel)⟩
theorem wit_GlobalStores : (uMem 0x5FFF0).Canonical ∧ (uMem 0x5FFF0).storeBad 0 4 = false ∧ (uMem 0x5FFF0).MemReady .vm (some 0) (0xA0 :: (List.range 4).map (codePlus ((0#7).setWidth 8))) ∧
    (uMem 0x5FFF0).Sendable { w := true } 16 8 false ((uMem 0x5FFF0).accesses 16 ((uMem 0x5FFF0).ea 0 0 0xA0)) :=
  ⟨⟨by decide, by decide, by decide, by decide⟩, by decide, ⟨by decide, by rintro e ⟨⟩; decide, by decide⟩, sendable (by decide)⟩
theorem wit_GlobalStores_performed : (∃ op, (after (.stq 0 0 0 0xA0 0) (uMem 0x5FFF0)).grp.ops = (uMem 0x5FFF0).grp.ops ++ [op] ∧ op.todo ≠ [] ∧ (after (.stq 0 0 0 0xA0 0) (uMem 0x5FFF0)).Performable op) ∧
    (after (.stq 0 0 0 0xA0 0) (uMem 0x5FFF0)).Canonical := ⟨performable (by decide +kernel), ⟨by decide, by decide, by decide, by decide⟩⟩
theorem wit_ScratchpadForms_in : (uMem 0).MemReady .sp none [0xA0] ∧ ∀ i ∈ (uMem 0).activeLanes, ∃ c p, (uMem 0).window ((uMem 0).wo 0 0xA0 i) 16 16 = .ok c p :=
  ⟨⟨by decide, by simp, by decide⟩, window_of_windowAll (f := (uMem 0).wo 0 0xA0) (by decide)⟩
theorem wit_ScratchpadForms_traps : (uMem 0).window 2 4 4 = .misalign ∧ (uMem 0).window 4096 4 4 = .access ∧ (uMem 0).window 4092 4 4 = .ok 0 4092 := by decide
theorem wit_ScratchpadForms_performed : (∃ op, (after (.ldsq 0 0xA0 4) (uMem 0)).grp.ops = (uMem 0).grp.ops ++ [op] ∧ op.todo ≠ [] ∧ (after (.ldsq 0 0xA0 4) (uMem 0)).Performable op) ∧
    (∃ op, (after (.stsq 0 0xA0 0) (uMem 0)).grp.ops = (uMem 0).grp.ops ++ [op] ∧ op.todo ≠ [] ∧ (after (.stsq 0 0xA0 0) (uMem 0)).Performable op) ∧ (after (.stsq 0 0xA0 0) (uMem 0)).Canonical :=
  ⟨performable (by decide +kernel), performable (by decide +kernel), ⟨by decide, by decide, by decide, by decide⟩⟩
theorem wit_UniformMemoryForms : (uMem 0x50000).uniBad 0xA0 = false ∧ (uMem 0x50000).grp.pendingDest (.b 0) = false ∧ (uMem 0x50000).grp.count .vm < 63 ∧
    (uMem 0x50000).Sendable { w := true } 16 8 true [⟨0, 0x50000, 16⟩] ∧ (uMem 0x50000).Sendable { r := true } 8 8 true [⟨0, 0x5FFF8, 8⟩] :=
  ⟨by decide, by decide, by decide, sendable (by decide), sendable (by decide)⟩
theorem wit_UniformMemoryForms_performed : (∃ op, (after (.ldba 0 0 0 0xA0 1) (uMem 0x50000)).grp.ops = (uMem 0x50000).grp.ops ++ [op] ∧ op.todo ≠ [] ∧ (after (.ldba 0 0 0 0xA0 1) (uMem 0x50000)).Performable op) ∧
    (∃ op, (after (.stba 0 0 0 0xA0 1) (uMem 0x50000)).grp.ops = (uMem 0x50000).grp.ops ++ [op] ∧ op.todo ≠ [] ∧ (after (.stba 0 0 0 0xA0 1) (uMem 0x50000)).Performable op) ∧ (after (.stba 0 0 0 0xA0 1) (uMem 0x50000)).Canonical :=
  ⟨performable (by decide +kernel), performable (by decide +kernel), ⟨by decide, by decide, by decide, by decide⟩⟩
theorem wit_GlobalAtomics : (uMem 0x50000).MemReady .vm (some 0) ([0, 0] ++ [codePlus 0 1] ++ [0x40, 0x41]) ∧ (uMem 0x50000).pairBad 0 = false ∧
    (uMem 0x50000).Sendable { r := true, w := true } 8 8 false ((uMem 0x50000).accesses 8 fun i => (uMem 0x50000).breg 0 + ((uMem 0x50000).read 0 i).signExtend 80) :=
  ⟨⟨by decide, by rintro e ⟨⟩; decide, by decide⟩, by decide, sendable (by decide)⟩
theorem wit_GlobalAtomics_performed : (∃ op, (after (.atom64 0 0 0 0) (uMem 0x50000)).grp.ops = (uMem 0x50000).grp.ops ++ [op] ∧ op.todo ≠ [] ∧ (after (.atom64 0 0 0 0) (uMem 0x50000)).Performable op) ∧ (after (.atom64 0 0 0 0) (uMem 0x50000)).Canonical :=
  ⟨performable (by decide +kernel), ⟨by decide, by decide, by decide, by decide⟩⟩
theorem wit_ScratchpadAtomics : (uMem 0).MemReady .sp none ([0, 0] ++ [] ++ [0x40]) ∧ ∀ i ∈ (uMem 0).activeLanes, ∃ c p, (uMem 0).window ((uMem 0).read 0 i) 4 4 = .ok c p :=
  ⟨⟨by decide, by simp, by decide⟩, window_of_windowAll (f := (uMem 0).read 0) (by decide)⟩
theorem wit_ScratchpadAtomics_performed : (∃ op, (after (.atoms 0 0 0) (uMem 0)).grp.ops = (uMem 0).grp.ops ++ [op] ∧ op.todo ≠ [] ∧ (after (.atoms 0 0 0) (uMem 0)).Performable op) ∧ (after (.atoms 0 0 0) (uMem 0)).Canonical :=
  ⟨performable (by decide +kernel), ⟨by decide, by decide, by decide, by decide⟩⟩
/-- One lane, whose page is the one given, with an entry of the page table of context 1 at level 4. -/
def uFault (a : VAddr) (pte : Nat) : State := { uMem a with
  ent := { ent0 with em := 1 }, core := { u0.core with dtlb := [⟨1, 0, 5, BitVec.ofNat 64 pte⟩] } }
theorem wit_AccessFaults_misalign : (uFault 0x50002 0x7C00000000050000).active 0 = true ∧ ((uFault 0x50002 0x7C00000000050000).ea 0 0 0xA0 0).toNat % 4 ≠ 0 := by decide
def xl (s : State) : Except XFail Nat := (s.translate s.core.dtlb (s.ctx 1) 0 { r := true } (s.ea 0 0 0xA0 0).toNat).1
theorem wit_AccessFaults_access : xl (uFault 0x50000 0x6000000000050000) = .error .access := by rfl
theorem wit_AccessFaults_noRoute : xl (uFault 0x50000 (0x7C00000000050000 + 2 ^ 42)) = .error .noRoute := by rfl
theorem wit_AccessFaults_invalid : xl { uFault 0x50000 0 with core := { u0.core with dtlb := [] } } = .error .invalid := by rfl
def uWalk (pte : Nat) : State := { uFault 0x50000 0 with core := { u0.core with dtlb := [] }, dev := { u0.dev with
  walkCache := [(0, ⟨1, 4, 0, 0x4000000000000000⟩), (0, ⟨1, 3, 0, 0x4000000000000000⟩), (0, ⟨1, 2, 0, 0x4000000000000000⟩), (0, ⟨1, 1, 0, 0x4000000000000000⟩), (0, ⟨1, 0, 5, BitVec.ofNat 64 pte⟩)] } }
theorem wit_AccessFaults_malformed : xl (uWalk 0x4000000000000001) = .error .malformed := by rfl
theorem wit_AccessFaults_migrating : xl (uWalk 0xBC00000000050000) = .error .migrating := by rfl
theorem wit_AccessFaults_poisoned : xl (uWalk 0xFC00000000050000) = .error .poisoned := by rfl

/-! ## Events of operations and entities -/

theorem wit_OperationsComplete_fill : ∃ o, uPend.focusGroup ⟨0, 0, 0⟩ = some uPend ∧ uPend.grp.ops.find? (fun x => x.id = 0) = some o ∧ o.done = false ∧ o.auto = true ∧ o.fills ≠ [] :=
  ⟨_, by rfl, by rfl, by decide, by decide, by decide⟩
def uStored : State := { u0 with grp := { grp0 with ops := [{ id := 0, path := some .vm, ent := 0 }] } }
theorem wit_OperationsComplete_store : ∃ o, uStored.focusGroup ⟨0, 0, 0⟩ = some uStored ∧ uStored.grp.ops.find? (fun x => x.id = 0) = some o ∧ o.auto = true ∧ o.fills = [] ∧ o.todo = [] :=
  ⟨_, by rfl, by rfl, by decide, by decide, by decide⟩
theorem wit_EntityEvents_promotion : u0.focus ⟨0, 0, 0⟩ 0 = some u0 ∧ u0.ent.live = true ∧ u0.ent.promoted = none ∧ u0.grp.agent = false ∧ u0.running = true := by decide
theorem wit_EntityEvents_sleepWake : (uSleep (some 9) 9).focus ⟨0, 0, 0⟩ 0 = some (uSleep (some 9) 9) ∧ (uSleep (some 9) 9).ent.status = .waiting .sleep := by decide
def uHeld : State := { u0 with ent := { ent0 with status := .faultwait, held := [⟨5, true⟩] } }
theorem wit_EntityEvents_migratingRetry : uHeld.focus ⟨0, 0, 0⟩ 0 = some uHeld ∧ uHeld.ent.status = .faultwait ∧ ∃ p ∈ uHeld.ent.held, p.migrating = true := by decide
def uIdem (dirty : Bool) : State := { u0 with ent := { ent0 with idem := some { pc := 0x80, em := 0xFF, scc := {}, calls := [], defs := [], scopes := [], dirty } } }
theorem wit_EntityEvents_rollback : (uIdem false).running = true ∧ (uIdem false).ent.idem ≠ none ∧ 1 ∉ (uIdem false).ent.failedRegs ∧ ((uIdem false).putCode 0x100 (leBytes 0x02010651 4)).mayRead 1 = true ∧ ∀ o ∈ (uIdem false).grp.ops, o.fills = [] := by decide
theorem wit_EntityEvents_parityFatal : (uIdem true).ent.idem.any IdemPoint.dirty = true ∧ u0.ent.idem = none := by decide
/-- Its code window is page 5. -/
def uFetch (itlb : List TlbEntry) : State := { u0 with team := { team0 with cwin := 0x50000 }, core := { u0.core with itlb } }
theorem wit_EntityEvents_lineFill : (uFetch [leaf5]).fetch = .error 0x100 ∧ ((uFetch [leaf5]).translate [leaf5] ctx1 0 { x := true } 0x50100).1 = .ok 0x50100 ∧
    (uFetch [leaf5]).remoteGate ((uFetch [leaf5]).usesOf [(64, 0x50100, 0x50100)]) = none ∧ (uFetch [leaf5]).poisonedAt 0x50100 128 = false := ⟨by rfl, by rfl, by decide, by decide⟩
theorem wit_EntityEvents_lineFaults : ((uFetch []).translate [⟨1, 0, 5, 0x6C00000000050000⟩] ctx1 0 { x := true } 0x50100).1 = .error .access := by rfl
def uDeferred : State := { u0 with ent := { ent0 with deferred := [softTrap] } }
theorem wit_EntityEvents_trapEntry : uDeferred.nextTrap = some 0 ∧ uDeferred.focusEnt 0 = some uDeferred ∧ uDeferred.ent.pendingTrap = none ∧ ({ u0 with ent := { ent0 with pendingTrap := some softTrap } } : State).nextTrap = some 0 := by decide

/-! ## Barriers, rings, message queues, tags, the Sluice -/

/-- Values in s0, s1, … -/
def uS (l : List Word) : State := { u0 with grp := { grp0 with s := l } }
theorem wit_BarrierForms_place : (uS []).UniReady [0x50, 0x51] [] ∧ (uS [2]).barPlace 2 = none ∧ (uS []).barPlace 4096 = none ∧ (uS []).barPlace 4080 = some (0, 4080) :=
  ⟨⟨by decide, by decide, by decide⟩, by decide, by decide, by decide⟩
theorem wit_BarrierForms_counts : ((uS [0, 0]).uni 0x51).toNat = 0 ∧ 65535 < ((uS [0, 65536]).uni 0x51).toNat ∧ ((uS [0, 65535]).uni 0x51).toNat ≤ 65535 := by decide
/-- Barrier at offset 0, and the one that fills the table. -/
def uBar (b : Barrier) (others : List Barrier) : State := { u0 with team := { team0 with barriers := b :: others } }
def bar0 : Barrier := { core := 0, off := 0, expected := 2 }
theorem wit_BarrierForms_new : (uBar bar0 []).team.barrier? 0 16 = none ∧ ((uBar bar0 []).team.barriers.filter fun k => k.core = 0).length < 4 ∧
    (uBar bar0 (List.replicate 3 { bar0 with off := 32 })).team.bars ≤ ((uBar bar0 (List.replicate 3 { bar0 with off := 32 })).team.barriers.filter fun k => k.core = 0).length := by decide
theorem wit_BarrierForms_known : (uBar bar0 []).team.barrier? 0 0 = some bar0 ∧ bar0.arrived = 0 ∧ (uBar bar0 []).hasWaiter bar0 = false ∧ { bar0 with arrived := 1 : Barrier }.arrived ≠ 0 ∧
    (uBar bar0 []).ent.wd.bar = none ∧ decide (bar0.phases % 2 = 1) ≠ ((uBar bar0 []).uni 0xA1).getLsbD 0 ∧ decide (bar0.phases % 2 = 1) = ((uBar bar0 []).uni 0xA0).getLsbD 0 := by decide
def uBarWait : State := { uBar bar0 [] with ent := { ent0 with status := .waiting .barrier, wd := { bar := some ⟨0, 0, 0⟩ } }, core := { u0.core with groups := [{ grp0 with sibs := [{ ent0 with status := .waiting .barrier, wd := { bar := some ⟨0, 0, 0⟩ } }] }] } }
theorem wit_BarrierForms_wait : uBarWait.ent.wd.bar = some ⟨0, 0, 0⟩ ∧ uBarWait.hasWaiter bar0 = true := by decide
theorem wit_BarrierForms_reached : (∀ o ∈ uBarWait.grp.earlier uBarWait.ent, ∀ x ∈ o.todo, x.what ≠ .barInit) ∧ uBarWait.reachSlots = uBarWait ∧ uBarWait.reachSlots.team.barrier? 0 0 = some bar0 ∧ (uBar bar0 []).reachSlots.ent.wd.bar = none ∧
    (uBar bar0 []).Canonical ∧ uBarWait.reachSlots.ent.wd.bar = some ⟨0, 0, 0⟩ := ⟨by decide, by rfl, by decide, by decide, ⟨by decide, by decide, by decide, by decide⟩, by decide⟩
/-- The registration of a barrier at offset 0 has not reached its slot. -/
theorem wit_BarrierForms_registered : (∃ op, (after (.barInit 0xA2 0xA0) (uS [])).grp.ops = (uS []).grp.ops ++ [op] ∧ op.todo ≠ [] ∧ (after (.barInit 0xA2 0xA0) (uS [])).Performable op) ∧ (after (.barInit 0xA2 0xA0) (uS [])).Canonical ∧
    (after (.barInit 0xA2 0xA0) (uS [])).team.barrierAt 0 0 = some { core := 0, off := 0, expected := 2, reached := false } := ⟨performable (by decide), ⟨by decide, by decide, by decide, by decide⟩, by decide⟩
/-- A header at 32 of a ring of 2 slots of 64 bytes at 128, for one consumer. -/
def uRingHeader : State := { u0 with core := { u0.core with spad := [⟨32, 0x40⟩, ⟨33, 0x42⟩, ⟨35, 0x80⟩] } }
theorem wit_RingForms_init : uRingHeader.Canonical ∧ uRingHeader.grp.count .sp = 0 ∧ uRingHeader.ringHeader 0 = none ∧ (uRingHeader.ringHeader 32).isSome = true :=
  ⟨⟨by decide, by decide, by decide, by decide⟩, by decide, by decide, by decide⟩
def ring0 (x : RingSlot) : Ring := { core := 0, off := 32, slotBase := 128, slotSz := 1, cons := 1, log2n := 1, slots := [x, {}] }
def uRing (x : RingSlot) (l : List Word) : State := { uS l with team := { team0 with rings := [ring0 x] } }
theorem wit_RingForms_none : (uRing {} [0]).team.ring? 0 ((uRing {} [0]).uni 0x50).toNat = none ∧ (uRing {} [32]).team.ring? 0 ((uRing {} [32]).uni 0x50).toNat = some (ring0 {}) := ⟨by decide, by rfl⟩
theorem wit_RingForms_states : ∀ st ∈ [SlotState.empty, .filling, .filled, .held, .poisoned], ((ring0 { state := st, lap := 1 }).slots.getD (2 % 2 ^ 1) {}).state = st ∧
    ((ring0 { state := st, lap := 1 }).slots.getD (2 % 2 ^ 1) {}).lap = BitVec.ofNat 16 (2 / 2 ^ 1) := by decide
theorem wit_RingForms_laps : BitVec.ofNat 16 (3 / 2 ^ 1) ≠ (0#16) ∧ (BitVec.ofNat 16 (0xFFFF / 2 ^ 1) - (0#16)).toNat < 2 ^ 15 ∧ ¬ (BitVec.ofNat 16 (0x10000 / 2 ^ 1) - (0#16)).toNat < 2 ^ 15 := by decide
theorem wit_RingForms_rel : ({ state := .held, rels := 0 : RingSlot }).rels < (ring0 {}).cons ∧ ¬ ({ state := .held, rels := 1 : RingSlot }).rels < (ring0 {}).cons := by decide
theorem wit_RingForms_released : (∀ o ∈ (uRing { state := .held } [32]).grp.ops, o.id ∈ (uRing { state := .held } [32]).grp.before (uRing { state := .held } [32]).ent → o.todo = []) ∧ (uRing { state := .held } [32]).released = uRing { state := .held } [32] ∧
    (uRing { state := .held } [32]).released.Canonical := ⟨by decide, by rfl, ⟨by decide, by decide, by decide, by decide⟩⟩
/-- Queue 0 of core 0 as given; a send to it names window offset 0. -/
def uMq (m : Mq) : State := { uS [0x07000000, 0x08000000] with core := { u0.core with mqs := [m] } }
theorem wit_MessageQueues_send : (uMq {}).UniReady [0xA0] [] ∧ ((uMq {}).uni 0x50).toNat < 2 ^ 27 ∧ (uMq {}).grp.count .mq < 63 ∧ (∃ k x, (uMq {}).window (0x07000000 &&& 0xFFFFFF) 64 64 = .ok k x) :=
  ⟨⟨by decide, by decide, by decide⟩, by decide, by decide, ⟨_, _, by rfl⟩⟩
theorem wit_MessageQueues_other : ((uMq { owner := some 9, ownerCtx := 2 }).coreOf 0).mq 0 = { owner := some 9, ownerCtx := 2 } ∧ (2 : Nat) ≠ (uMq {}).team.ctx ∧ (9 : Nat) ≠ (uMq {}).team.serial := ⟨by rfl, by decide, by decide⟩
theorem wit_MessageQueues_own : ((uMq { owner := some 1, ownerCtx := 1 }).coreOf 0).mq 0 = { owner := some 1, ownerCtx := 1 } ∧ (uMq { owner := some 1, ownerCtx := 1 }).team.ctx = 1 ∧ (uMq {}).core.mq 0 = {} ∧
    (uMq {}).dBad 3 = false ∧ (uMq {}).pendingD (uMq {}).activeLanes 3 = false := ⟨by rfl, by decide, by rfl, by decide, by decide⟩
theorem wit_MessageQueues_earlier : (∀ o ∈ (uMq {}).grp.earlier (uMq {}).ent, o.path = some .sp → o.todo = []) ∧ (128 : Nat) - ((127 : BitVec 16) - 0).toNat ≠ 0 ∧ ({ owner := some 1, ownerCtx := 1, t := 128 } : Mq).owner ≠ none := by decide
def send0 : MqSend := { from_ := ⟨0, 0, 0⟩, op := 0, ctx := 1, bytes := List.replicate 64 7 }
theorem wit_MessageQueues_deliver : (((uMq { owner := some 1, ownerCtx := 1, t := 127, sends := [send0] }).coreOf 0).mq 0).sends = send0 :: [] ∧ (128 : Nat) - ((127 : BitVec 16) - 0).toNat > 0 ∧
    (128 : Nat) - ((128 : BitVec 16) - 0).toNat = 0 ∧ ({ sends := [send0] } : Mq).owner = none ∧ (uMq { sends := [send0] }).Canonical :=
  ⟨by rfl, by decide, by decide, by decide, ⟨by decide, by decide, by decide, by decide⟩⟩
/-- One active lane, its registers 0, and entries of context 1 in every way of the set of key 0. -/
def uTags (n : Nat) : State := { u0 with ent := { ent0 with em := 1 }, core := { u0.core with tags := (List.range n).map fun w => ⟨tagSet 0, w, 1, BitVec.ofNat 64 (w + 1), 5⟩ } }
theorem wit_TagTable : (uTags 4).pairBad 0 = false ∧ (uTags 4).MemReady .sp none [0, codePlus 0 1, 0xA1] ∧ (uTags 4).activeLanes = [0] ∧ (uTags 4).grp.count .sp < 63 :=
  ⟨by decide, ⟨by decide, by simp, by decide⟩, by decide, by decide⟩
theorem wit_TagTable_set : (uTags 4).read 0xA1 0 ≠ 0xFFFFFFFF ∧ (∃ w < 4, ¬ ∃ e ∈ (uTags 3).core.tags, e.set = tagSet ((uTags 3).read64 0 0) ∧ e.way = w) ∧ (∀ w < 4, ∃ e ∈ (uTags 4).core.tags, e.set = tagSet ((uTags 4).read64 0 0) ∧ e.way = w) ∧
    ((uTags 4).core.tags.find? fun e => e.ctx = (uTags 4).team.ctx && e.key = (uTags 4).read64 0 0) = none := by decide

/-- The producer with a target word in s0 and a parameter in s1. -/
def uCopy (target param : Word) (pm : List Perm) : State := { u0 with grp := { grp0 with s := [target, param], pm }, team := { team0 with producer := some 0, rings := [ring0 {}] } }
theorem wit_XcopyIssue_rights : u0.team.producer ≠ some u0.grp.gid ∧ (uCopy 0 0 []).team.producer = some (uCopy 0 0 []).grp.gid := by decide
theorem wit_XcopyIssue_pairs : sPairBad 0x51 = true ∧ sPairBad 0x50 = false ∧ (uCopy 0 0 []).pendingIn [] 0x50 = false ∧ (uCopy 0 0 []).grp.pendingDest (.b 0) = false ∧ (uCopy 0 0 []).grp.count .xc < 63 := by decide
theorem wit_XcopyIssue_words : (uCopy 0xC0000000 0 []).targetBad .cin 0xC0000000 = true ∧ (uCopy 0x80000FF8 0 []).targetBad .cin 0x80000FF8 = false ∧ paramBad .cin 2 1 = true ∧ paramBad .cin 2 0 = false ∧
    (uCopy 0 0 []).targetBad .cin 0 = false ∧ (uCopy 0 0 []).team.ring? 0 0 = none ∧ (uCopy 32 0 []).team.ring? 0 32 ≠ none := by decide
theorem wit_XcopyIssue_perm : (0x80000000#32).toNat / 2 ^ 30 ≠ 0 ∧ (3#32).toNat % 8 < 4 ∧ ¬ (4#32).toNat % 8 < 4 ∧ paramBad .rows 2 4 = false ∧ ((uCopy 0x80000000 0 []).grp.perm 0).state = .invalid ∧
    ((uCopy 0x80000000 0 [{ state := .solving }]).grp.perm 0).state = .solving ∧ ((uCopy 0x80000000 0 [{ state := .valid }]).grp.perm 0).state = .valid := by decide
/-- A command of context 1 for one row of 16 words from page 5 to the window's byte 256, with its status word to byte 8. -/
def fields0 : BitVec 512 := BitVec.ofNat 512 (0x50000 * 2 ^ 432 + 64 * 2 ^ 320 + 1 * 2 ^ 304 + 16 * 2 ^ 288 + 256 * 2 ^ 264 + 64 * 2 ^ 220)
def copy0 : Copy := { id := 7, g := ⟨0, 0, 0⟩, team := 1, op := 0, form := .cin, target := 0x80000008, param := 0, desc := 0x50000 }
def uSluice (k : Copy) (x : RingSlot) : State := { u0 with core := { u0.core with sluice := [k] }, team := { team0 with rings := [ring0 x], barriers := [bar0] } }
theorem wit_SluiceEvents_start : (uSluice copy0 {}).copyAt 0 7 = some (uSluice copy0 {}, copy0) ∧ (uSluice copy0 {}).team.killed = false ∧ (uSluice copy0 {}).copyFirst copy0 = true ∧ (uSluice copy0 {}).copyWaits copy0 = false ∧
    copy0.target.toNat / 2 ^ 30 = 2 ∧ (uSluice copy0 {}).gCheck [leaf5] ctx1 0 { r := true } [(copy0.desc, 64)] = .ok ∧ (uSluice copy0 {}).gPoisoned [leaf5] ctx1 0 copy0.desc 64 = false ∧ copy0.badDesc = true :=
  ⟨by rfl, by decide, by decide, by decide, by decide, by rfl, by decide, by decide +kernel⟩
theorem wit_SluiceEvents_reach : (uSluice copy0 {}).gCheck [⟨1, 0, 5, 0x6000000000050000⟩] ctx1 0 { w := true } [(copy0.desc, 64)] = .err 2 ∧ { copy0 with fields := fields0 : Copy }.badDesc = false := ⟨by rfl, by decide⟩
theorem wit_SluiceEvents_kinds : (∃ b o, (uSluice copy0 {}).barPlace 0 = some (b, o) ∧ (uSluice copy0 {}).team.barrier? b o ≠ none) ∧ (uSluice copy0 {}).team.ring? 0 32 = some (ring0 {}) ∧ ((ring0 {}).slots.getD (0 % 2 ^ 1) {}).state = .empty ∧
    ((ring0 {}).slots.getD 0 {}).lap = BitVec.ofNat 16 (0 / 2 ^ 1) := ⟨⟨_, _, by rfl, by decide⟩, by rfl, by decide, by decide⟩
/-- A COMMIT of no row whose tail stands at the byte 0x800 of page 5, its descriptor read. -/
def commit0 : Copy := { copy0 with form := .commit, fields := fields0 ||| BitVec.ofNat 512 (0x50800 * 2 ^ 352), begun := true, described := true }
theorem wit_SluiceEvents_tail : (uSluice commit0 {}).copyAt 0 7 = some (uSluice commit0 {}, commit0) ∧ commit0.badDesc = false ∧ commit0.target.toNat / 2 ^ 30 = 2 ∧ (uSluice commit0 {}).copyFirst commit0 = true ∧ (uSluice commit0 {}).copyWaits commit0 = false ∧
    (uSluice commit0 {}).gCheck [leaf5] ctx1 0 { r := true } [((copyDesc commit0.fields).sscale, 8)] = .ok ∧ (uSluice commit0 {}).gPoisoned [leaf5] ctx1 0 (copyDesc commit0.fields).sscale 8 = false := ⟨by rfl, by decide +kernel, by decide, by decide, by decide, by rfl, by decide +kernel⟩
/-- The page of the tail, 6, is INVALID: its level 4 entry is 0. -/
def uTail : State := { uSluice commit0 {} with dev := { (uSluice commit0 {}).dev with walkCache := [(0, ⟨1, 4, 0, 0x4000000000000000⟩), (0, ⟨1, 3, 0, 0x4000000000000000⟩), (0, ⟨1, 2, 0, 0x4000000000000000⟩), (0, ⟨1, 1, 0, 0x4000000000000000⟩)] } }
theorem wit_SluiceEvents_tailHeld : (match uTail.gCheck [leaf5] ctx1 0 { r := true } [(0x60800, 8)] with | .held l => !l.isEmpty | _ => false) = true := by decide +kernel
def copy1 : Copy := { copy0 with started := true, fields := fields0 }
theorem wit_SluiceEvents_chunk : copy1.progress < copy1.total ∧ (uSluice copy1 {}).Canonical ∧ copy1.progress + 1 = copy1.total ∧ (copyDesc copy1.fields).sfmt ≤ 2 ∧
    (uSluice copy1 {}).copyWindow copy1 (copyDesc copy1.fields).dst (copy1.progress * (copyDesc copy1.fields).dpitch) ((copyDesc copy1.fields).cols * targetSize (copyDesc copy1.fields).sfmt) = some (0, 256) ∧
    (uSluice copy1 {}).remoteGate ((uSluice copy1 {}).gUses [leaf5] ctx1 0 { r := true } [((copyDesc copy1.fields).src, 64)]) = none :=
  ⟨by decide, ⟨by decide, by decide, by decide, by decide⟩, by decide, by decide, by decide, by decide⟩
theorem wit_SluiceEvents_end : { copy1 with progress := 1 : Copy }.total ≤ 1 ∧ (uSluice { copy1 with progress := 1 } {}).copyFirst { copy1 with progress := 1 } = true ∧ (uSluice copy1 {}).window (BitVec.ofNat 32 8) 8 1 = .ok 0 8 ∧
    ((ring0 { state := .filling }).slots.getD 0 {}).state = .filling := by decide
/-- Two groups' commands, that of slot 1 served last: slot 0's is not behind it in the rotation. -/
def uTwo : State := { u0 with core := { u0.core with served := 1, sluice := [copy1, { copy1 with id := 8, g := ⟨0, 0, 1⟩ }] } }
theorem wit_SluiceEvents_turn : uTwo.copyTurn copy1 = true ∧ uTwo.copyTurn { copy1 with id := 8, g := ⟨0, 0, 1⟩ } = false := by decide
theorem wit_XcopyIssue_after : ∃ o ∈ uPend.grp.ops, o.done = false ∧ o.ent = uPend.ent.num ∧ o.path ∈ [some Path.vm, some .sp, some .ga, some .mq] := by decide

/-! ## Permutations -/

def uPerm (p : Perm) (v : List Word) : State := { u0 with grp := { grp0 with pm := [p], lanes := v.map fun x => { v := [x] } } }
theorem wit_PermutationForms_solving : ((uPerm { state := .solving } []).grp.perm 0).state = .solving ∧ (uPerm { state := .solving } []).srcBad 0 = false ∧ (uPerm { state := .solving } []).pendingIn (uPerm { state := .solving } []).ownLanes 0 = false ∧
    (uPerm { state := .solving } []).UniReady [0x50] [] := ⟨by decide, by decide, by decide, ⟨by decide, by decide, by decide⟩⟩
theorem wit_PermutationForms_invalid : ((uPerm {} []).grp.perm 0).state = .invalid ∧ (uPerm {} []).CrossReady 3 0 none ∧ (uPerm {} []).Ready 3 [] ∧ (uPerm {} []).pendingS 63 = false ∧ (uPerm {} []).core.pergola.length < 4 :=
  ⟨by decide, ⟨by decide, by decide, by simp, by decide, by decide⟩, ⟨by decide, by decide, by decide, by decide⟩, by decide, by decide⟩
/-- Each lane names the other of its pair; or lane 0 and lane 1 name the same. -/
def swapped : List Word := [1, 0, 3, 2, 5, 4, 7, 6, 9, 8, 11, 10, 13, 12, 15, 14]
theorem wit_PermutationForms_list : (∀ j < 16, (uPerm {} swapped).Sees 0 j (swapped.getD j 0)) ∧ IsPerm 16 (swapped.map BitVec.toNat) ∧ ¬ IsPerm 16 ((1 :: swapped.drop 1 |>.map BitVec.toNat).set 1 1) ∧ 16 ≤ 64 :=
  ⟨fun j h => Or.inl (by revert j; decide), by unfold IsPerm; decide, by unfold IsPerm; decide, by decide⟩
theorem wit_PermutationForms_valid : ((uPerm { state := .valid, pos := List.range 16 } []).grp.perm 0).state = .valid ∧ IsPerm 16 ((uPerm { state := .valid, pos := List.range 16 } []).grp.perm 0).pos := ⟨by decide, by unfold IsPerm; decide⟩
theorem wit_PermutationForms_store : (uPerm {} []).Canonical ∧ (uPerm {} []).grp.count .sp < 63 ∧ (uPerm {} []).window 0 128 64 = .ok 0 0 ∧ (uPerm {} []).window 0 128 1 = .ok 0 0 :=
  ⟨⟨by decide, by decide, by decide, by decide⟩, by decide, by decide, by decide⟩
theorem wit_PermutationForms_performed : (∃ op, (after (.permSt 0 0xA0) (uPerm {} [])).grp.ops = (uPerm {} []).grp.ops ++ [op] ∧ op.todo ≠ [] ∧ (after (.permSt 0 0xA0) (uPerm {} [])).Performable op) ∧ (after (.permSt 0 0xA0) (uPerm {} [])).Canonical :=
  ⟨performable (by decide +kernel), ⟨by decide, by decide, by decide, by decide⟩⟩
theorem wit_PermutationForms_acc : ∀ st ∈ [PmState.invalid, .solving], ({ uPerm { state := st } [] with grp := { (uPerm { state := st } []).grp with acc := [some ⟨0, [{}]⟩] } } : State).grp.acc.getD 0 none = some ⟨0, [{}]⟩ ∧
    (uPerm { state := st } []).grp.acc.getD 0 none = none := by decide
def uPergola : State := { u0 with core := { u0.core with pergola := [(⟨0, 0, 0⟩, 0)] }, grp := { grp0 with pm := [{ state := .solving, pos := List.range 16 }] } }
theorem wit_PermutationForms_done : (uPergola.focusCore 0).core.pergola = (⟨0, 0, 0⟩, 0) :: [] := by decide

/-! ## Matrix instructions and accumulators -/

/-- Accumulator 0 bound, its row 0 as given. -/
def uAcc (mc : Word) (r : AccRow) (l : List Word) : State := { u0 with grp := { grp0 with mc, s := l, acc := [some ⟨0, [r]⟩] } }
theorem wit_MatrixForms_mcfg : ((uS [0xFFFFFF]).uni 0x50).toNat < 2 ^ 24 ∧ 2 ^ 24 ≤ ((uS [0x1000000]).uni 0x50).toNat := by decide
theorem wit_MatrixForms_table : (uMem 0x50000).uniBad 0xA0 = false ∧ (uMem 0x50000).pendingIn [] 0xA0 = false ∧ (uMem 0x50000).grp.pendingDest (.epi 0) = false ∧ (uMem 0x50000).Sendable { r := true } 64 8 true [⟨0, 0x50000, 768⟩] :=
  ⟨by decide, by decide, by decide, sendable (by decide)⟩
theorem wit_MatrixForms_frag : (24#7).toNat < 0x3F ∧ 24 + 8 ≤ u0.grp.window ∧ (uS [0x01000000]).uniBad 0x50 = false ∧ (uS [0x01000000]).activeLanes ≠ [] ∧ ((uS [0x01000000]).uni 0x50).toNat % 2 ^ 24 % 32 = 0 ∧ ((uS [0x01000001]).uni 0x50).toNat % 2 ^ 24 % 32 ≠ 0 ∧
    (∀ i ∈ (uS [0x01000000]).activeLanes, ∀ k < 8, (uS [0x01000000]).grp.pendingV i (24 + k) = false) ∧ windowAll u0 (fun i => BitVec.ofNat 32 (i * 32)) 32 = true := by decide
theorem wit_MatrixForms_performed : (∃ op, (after (.actLd 0xA0 0) (uMem 0x50000)).grp.ops = (uMem 0x50000).grp.ops ++ [op] ∧ op.todo ≠ [] ∧ (after (.actLd 0xA0 0) (uMem 0x50000)).Performable op) ∧
    ∃ op, (after (.fragLda 0x50 24) (uS [0x01000000])).grp.ops = (uS [0x01000000]).grp.ops ++ [op] ∧ op.todo ≠ [] ∧ (after (.fragLda 0x50 24) (uS [0x01000000])).Performable op := ⟨performable (by decide +kernel), performable (by decide +kernel)⟩
theorem wit_MatrixForms_outside : ((uS [0x01000E20]).uni 0x50).toNat % 2 ^ 24 % 32 = 0 ∧ 15 ∈ (uS [0x01000E20]).activeLanes ∧ (uS [0x01000E20]).window (BitVec.ofNat 32 (0xE20 + 15 * 32)) 32 1 = .access ∧ (uS [0x01000E20]).window 0xE20 32 1 = .ok 0 0xE20 ∧
    2 ^ 23 ≤ (0x7FFFE0 : Nat) % 2 ^ 23 + 1 * 32 := by decide
theorem wit_MatrixForms_kinds : mkind 0 ≠ none ∧ (u0.grp.acc.getD 0 none) = none ∧ (uAcc 0 {} []).grp.acc.getD 0 none = some ⟨0, [{}]⟩ := by decide
theorem wit_MatrixForms_mma : (0#8).toNat + 8 + 1 ≤ u0.grp.window ∧ (12#8).toNat + 256 / u0.grp.width + 1 ≤ u0.grp.window ∧ (∀ i < 16, (∀ j < 9, u0.grp.pendingV i (0 + j) = false) ∧ ∀ j < 17, u0.grp.pendingV i (12 + j) = false) := by decide
theorem wit_MatrixForms_rows : (∃ m < 16, (uAcc 0 { poison := true } []).active m = true) ∧ ({ poison := true } : AccRow).poison = true ∧ (∀ m < 16, ((⟨0, [{}]⟩ : Acc).rows.getD m {}).poison = false ∧ ((⟨0, [{}]⟩ : Acc).rows.getD m {}).bad = false) := by decide
theorem wit_AccumulatorForms_alloc : u0.grp.acc.getD 7 none = none ∧ (15 + 1 ≤ 16 ∧ ∀ j < 1, ∀ x ∈ u0.core.banks, ¬ (x.part = 0 ∧ x.bank = 15 + j)) := by decide
/-- Every bank of the partition is owned. -/
def uFull : State := { u0 with core := { u0.core with banks := (List.range 16).map fun k => ⟨0, k, .owned⟩ } }
theorem wit_AccumulatorForms_full : ∀ k, ¬ (k + 1 ≤ 16 ∧ ∀ j < 1, ∀ x ∈ uFull.core.banks, ¬ (x.part = uFull.grp.loc.part ∧ x.bank = k + j)) := fun k ⟨h, h2⟩ =>
  h2 0 (by decide) ⟨0, k, .owned⟩ (List.mem_map.2 ⟨k, List.mem_range.2 (by omega), rfl⟩) ⟨rfl, rfl⟩
theorem wit_AccumulatorForms_columns : 32 < ((uS [33]).uni 0x50).toNat ∧ ((uS [32]).uni 0x50).toNat = 32 ∧ ((uS [31]).uni 0x50).toNat < 32 ∧ (uS [31]).uniBad 0x50 = false ∧ (uS [31]).pendingIn (uS [31]).activeLanes 0x40 = false := by decide
def uBanks (st : BankState) : State := { u0 with core := { u0.core with banks := [⟨0, 3, st⟩] } }
theorem wit_AccumulatorForms_banks : (⟨0, 3, .zeroing⟩ : Bank) ∈ ((uBanks .zeroing).focusCore 0).core.banks ∧ (⟨0, 3, .poisoned⟩ : Bank) ∈ ((uBanks .poisoned).focusCore 0).core.banks := by decide
/-- The one user group of the partition waits for a bank. -/
def uStarve : State := { u0 with ent := { ent0 with status := .waiting .acc } }
theorem wit_AccumulatorForms_starve : ∃ g e, g ∈ (((uStarve.focusCore 0).partGroups 0).filter fun x => x.agent = false) ∧ g.gstate = .ready ∧ e ∈ g.sibs ∧ e.live = true ∧ e.num < 32 ∧
    (∀ x ∈ ((uStarve.focusCore 0).partGroups 0).filter (fun x => x.agent = false), x.gstate ≠ .trapped) ∧
    (∀ x ∈ ((uStarve.focusCore 0).partGroups 0).filter (fun x => x.agent = false), x.gstate = .ready → (x = g ∨ x.age < g.age) ∧ ∀ y ∈ x.sibs, y.live = true → y.status = .waiting .acc) ∧
    (∀ y ∈ g.sibs, y.live = true → e.num ≤ y.num) ∧ (uStarve.focusCore 0).focus g.loc e.num ≠ none :=
  ⟨{ uStarve.grp with sibs := [uStarve.ent] }, uStarve.ent, by decide⟩
theorem wit_AccumulatorForms_met : (∃ m < 16, (uAcc 0 { bad := true } []).activeLanes.contains m && (((⟨0, [{ bad := true }]⟩ : Acc).rows.getD m {}).bad) = true) ∧ (∀ m < 16, ((⟨0, [{ bad := true }]⟩ : Acc).rows.getD m {}).poison = false) := by decide

/-! ## Ordered sections -/

def key0 : Key := { ctx := 1, key := 0, n := 5, holder := none }
/-- The key 0 as given, and what the group holds. -/
def uOrd (k : Key) (held : List HeldKey) : State := { u0 with grp := { grp0 with keys := held, s := [4, 5, 6, 0x80000006] }, dev := { u0.dev with keys := [k] } }
theorem wit_OrderedSections_noLane : ({ u0 with ent := { ent0 with em := 0 } } : State).activeLanes = [] ∧ u0.pairBad 0 = false ∧ u0.srcBad 0x51 = false := by decide
theorem wit_OrderedSections_lane : (uOrd key0 []).activeLanes = 0 :: (uOrd key0 []).activeLanes.drop 1 ∧ (∀ c ∈ [0, codePlus 0 1, 0x51], (uOrd key0 []).pendingIn [0] c = false) ∧ (uOrd key0 []).ent.wd.ordGrant = none ∧
    (uOrd key0 []).keyAt 1 0 = key0 ∧ ¬ ∃ x ∈ (uOrd key0 []).dev.keys, x.waits ⟨0, 0, 0⟩ (uOrd key0 []).ent = true := by decide
theorem wit_OrderedSections_held : ((uOrd key0 [⟨0, 5⟩]).holds 0).isSome = true ∧ (uOrd key0 []).holds 0 = none ∧ 4 ≤ (uOrd key0 (List.replicate 4 ⟨7, 0⟩)).grp.keys.length ∧ (uOrd key0 (List.replicate 3 ⟨7, 0⟩)).grp.keys.length < 4 := by decide
theorem wit_OrderedSections_passed : (uOrd key0 []).read 0x50 0 = 4 ∧ (4 : Word) ≠ key0.n ∧ ¬ ((4 : Word) ≠ key0.n ∧ ((4 : Word) - key0.n).toNat < 2 ^ 31) ∧ (0x80000006 : Word) ≠ key0.n ∧ ¬ ((0x80000006 : Word) - key0.n).toNat < 2 ^ 31 ∧
    (key0.n - 4).toNat < 2 ^ 31 := by decide
theorem wit_OrderedSections_now : (uOrd key0 []).read 0x51 0 = key0.n ∧ key0.holder = none ∧ (uOrd key0 []).key? 1 0 = some key0 ∧ key0.n ≠ 0 ∧ { key0 with holder := some ⟨0, 0, 1⟩ : Key }.holder ≠ none := by decide
theorem wit_OrderedSections_ahead : (uOrd key0 []).read 0x52 0 = 6 ∧ (6 : Word) ≠ key0.n ∧ ((6 : Word) - key0.n).toNat < 2 ^ 31 ∧ ¬ (key0.n - 6).toNat < 2 ^ 31 := by decide
/-- Slot 1 holds key 0 and waits at key 1, which slot 0 holds. -/
def uChain : State := { u0 with grp := { grp0 with keys := [⟨1, 0⟩] }, dev := { u0.dev with keys := [{ key0 with holder := some ⟨0, 0, 1⟩ }, { key0 with key := 1, n := 0, holder := some ⟨0, 0, 0⟩, waiters := [⟨⟨0, 0, 1⟩, 1, 1, true, 0, false⟩] }] } }
theorem wit_OrderedSections_chain : (∃ h, (uChain.keyAt 1 0).holder = some h ∧ uChain.probe uChain.grp.loc 9 [h] = true) ∧ ¬ ∃ h, key0.holder = some h ∧ (uOrd key0 []).probe (uOrd key0 []).grp.loc 9 [h] = true :=
  ⟨⟨_, by rfl, by decide⟩, by rintro ⟨h, ⟨⟩, _⟩⟩
/-- The Wicket of key 0 holds n entries for keys of another context, and the one overflow slot is taken. -/
def uCrowd (n : Nat) : State := { u0 with dev := { u0.dev with keys := List.replicate n { key0 with ctx := 2 }, mem := [⟨0, 1⟩] } }
theorem crowd (n : Nat) : (uCrowd n).key? 1 0 = none ∧ (uCrowd n).dev.keys.length = n ∧ ∀ x ∈ (uCrowd n).dev.keys, x.n ≠ 0 ∧ x.spilled = false ∧ keyHome x.key = keyHome 0 := by
  simp [State.key?, uCrowd, key0]
theorem wit_OrderedSections_full : (uCrowd 65536).overflowSlot ctx1 0 = none ∧ ¬ ((∃ x, (uCrowd 65536).key? 1 0 = some x) ∨
    ∀ l : List Key, l.Sublist (uCrowd 65536).dev.keys → (∀ x ∈ l, x.n ≠ 0 ∧ x.spilled = false ∧ keyHome x.key = keyHome 0) → l.length < 65536) := by
  refine ⟨by decide, ?_⟩
  obtain ⟨h1, h2, h3⟩ := crowd 65536
  rintro (⟨x, h⟩ | h)
  · rw [h1] at h; cases h
  · have := h _ (List.Sublist.refl _) h3
    rw [h2] at this
    exact Nat.lt_irrefl _ this
theorem wit_OrderedSections_room : ∀ l : List Key, l.Sublist (uCrowd 3).dev.keys → l.length < 65536 := fun l h => Nat.lt_of_le_of_lt h.length_le (by decide)
theorem wit_OrderedSections_grant : (∀ st : Word, ({ u0 with ent := { ent0 with wd := { ordGrant := some st } } } : State).ent.wd.ordGrant = some st) ∧ fieldOf (0x20000000 : Word).toNat 30 2 ≠ 3 ∧ fieldOf (0xC0000000 : Word).toNat 30 2 = 3 := ⟨fun _ => rfl, by decide⟩
theorem wit_OrderedSections_leave : (uOrd key0 [⟨0, 5⟩]).holds 0 = some ⟨0, 5⟩ ∧ (5 : Word) ≠ (uOrd key0 []).read 0x52 0 ∧ (uOrd key0 []).read 0x51 0 = 5 ∧ ((∀ y ∈ [Path.vm, .sp, .ga, .mq], u0.grp.count y = 0) ∧ ∀ o ∈ u0.grp.ops, o.sout = true → o.done = true) ∧
    key0.skips = [] ∧ key0.waiters = [] ∧ ({ key0 with waiters := [⟨⟨0, 0, 1⟩, 1, 6, true, 0, false⟩] } : Key).waiters = [⟨⟨0, 0, 1⟩, 1, 6, true, 0, false⟩] := by decide
/-- The entity has waited for its limit, 0 ticks, at key 0. -/
def uLate : State := { uOrd { key0 with waiters := [⟨⟨0, 0, 0⟩, 0, 9, true, 0, false⟩] } [] with ent := { ent0 with status := .waiting .order } }
theorem wit_OrderedSections_waiting : uLate.ent.wd.ordGrant = none ∧ ∃ x ∈ uLate.dev.keys, x.waits uLate.grp.loc uLate.ent = true := by decide
theorem wit_OrderedSections_timeout : uLate.focus ⟨0, 0, 0⟩ 0 = some uLate ∧ uLate.ent.status = .waiting .order ∧ (uLate.ctx uLate.team.ctx).state = .resident ∧ (∃ x ∈ uLate.dev.keys, (⟨⟨0, 0, 0⟩, 0, 9, true, 0, false⟩ : Waiter) ∈ x.waiters) ∧ uLate.ent.handling = false ∧
    (∀ x ∈ uLate.dev.keys, ∀ y ∈ x.waiters, y.g = ⟨0, 0, 0⟩ → y.ent = 0 → y = ⟨⟨0, 0, 0⟩, 0, 9, true, 0, false⟩) ∧ 0 + ((uLate.ctx 1).ordLimit - uLate.ent.wd.ordTicks) ≤ ({ uLate.dev with tick := (uLate.ctx 1).ordLimit } : Device).tick := by decide
def uGone : State := uOrd { key0 with holder := some ⟨3, 0, 0⟩ } []
theorem wit_OrderedSections_abandon : uGone.key? 1 0 = some { key0 with holder := some ⟨3, 0, 0⟩ } ∧ (∀ z ∈ uGone.allGroups, ¬ (z.loc = ⟨3, 0, 0⟩ ∧ ∃ w ∈ z.keys, w.key = 0)) ∧ ∀ z ∈ (uGone.ctx 1).saved, ∀ w ∈ z.groups, ¬ (w.loc = ⟨3, 0, 0⟩ ∧ ∃ v ∈ w.keys, v.key = 0) := by decide
/-- Key 0 is held by a group that has exited. -/
def uLeft : State := { uOrd { key0 with holder := some ⟨0, 0, 0⟩ } [⟨0, 5⟩] with grp := { grp0 with gstate := .exited, keys := [⟨0, 5⟩] } }
theorem wit_OrderedSections_exited : (uLeft.focusGroup ⟨0, 0, 0⟩).isSome = true ∧ uLeft.grp.gstate = .exited ∧ (∀ o ∈ uLeft.grp.ops, o.done = true) ∧ ∃ z ∈ uLeft.allGroups, z.loc = ⟨0, 0, 0⟩ ∧ (∃ w ∈ z.keys, w.key = 0) ∧ ∃ w ∈ uLeft.allTeams, w.serial = z.team ∧ w.ctx = 1 := by decide
/-- The same of a job's key whose draw is gone. -/
def uDropped : State := { uLeft with grp := { uLeft.grp with rast := some ⟨0, 0, 0, 0, 0, false, false⟩ } }
theorem wit_OrderedSections_dropped : (uDropped.focusGroup ⟨0, 0, 0⟩).isSome = true ∧ uDropped.grp.rast = some ⟨0, 0, 0, 0, 0, false, false⟩ ∧ uDropped.draw? (BitVec.ofNat 32 0) = none ∧ (uDropped.teamOf uDropped.grp.team).ctx = 1 ∧
    (uDropped.dev.keys.filter fun z => z.ctx = 1 && z.key = 0) = [{ key0 with holder := some ⟨0, 0, 0⟩ }] := by decide
theorem wit_OrderedSections_next : (∀ g ∈ (uOrd key0 [⟨0, 5⟩]).allGroups, g.loc = ⟨0, 0, 1⟩ → g.keys.length < 4) ∧ ∃ g ∈ (uOrd key0 (List.replicate 4 ⟨7, 0⟩)).allGroups, g.loc = ⟨0, 0, 0⟩ ∧ 4 ≤ g.keys.length := by decide

/-! ## Sample sets and draws -/

/-- Set 0 of context 1 with samples, results and index in page 5, 16 samples at most, 16 a unit. -/
def set0 (st : SetState) : SampleSet := { ctx := 1, handle := 0, state := st, desc := (0x50000 <<< 432) ||| (0x50400 <<< 352) ||| (0x50800 <<< 272) ||| (16 <<< 248) ||| (1 <<< 207) ||| (16 <<< 200) }
/-- That set, page 5 known to Arbour 0, and these bytes at its start. -/
def uSet (st : SetState) (bytes : List Byte) (draws : List Draw) : State := { u0 with grp := { grp0 with b := [0x50000], s := [1023, 1024] }, dev := { u0.dev with
  l2tlb := [(0, leaf5)], sets := [set0 st], draws, mem := Memory.writeBytes [] 0x50000 bytes } }
theorem wit_SampleSets_ready : (uSet .freed [] []).uniBad 0xA0 = false ∧ (uSet .freed [] []).pendingIn [] 0xA0 = false ∧ (uSet .freed [] []).grp.pendingDest (.b 0) = false ∧ (0x1C#8).toNat < 0x3C ∧ (0x1C#8).toNat + 3 < (uSet .freed [] []).grp.window ∧
    (∀ j < 4, (uSet .freed [] []).pendingIn (uSet .freed [] []).activeLanes (codePlus 0x1C j) = false) ∧ (uSet .freed [] []).grp.count .rs < 63 ∧ ∀ o ∈ (uSet .freed [] []).grp.ops, o.id ≠ (uSet .freed [] []).nextOp := by decide
theorem wit_SampleSets_handles : 1024 ≤ ((uSet .freed [] []).uni 0x51).toNat ∧ ((uSet .freed [] []).uni 0x50).toNat < 1024 ∧ (∀ w ∈ (uSet .freed [] []).dev.salt, ¬ (w.g = ⟨0, 0, 0⟩ ∧ w.home = 1023 % 8)) := by decide
theorem wit_SampleSets_states : ∀ st ∈ [SetState.freed, .empty, .filling, .building, .built, .bound], ((uSet st [] []).set 1 0).state = st := by decide
theorem wit_SampleSets_init : (uSet .freed [] []).gCheck [] ctx1 0 { r := true } [(0x50000, 64)] = .ok ∧ (uSet .freed [] []).gUses [] ctx1 0 { r := true } [(0x50000, 64)] = [] ∧ (uSet .freed [] []).gPoisoned [] ctx1 0 0x50000 64 = false := by decide
theorem wit_SampleSets_initFails : ({ uSet .freed [] [] with dev := { (uSet .freed [] []).dev with l2tlb := [(0, ⟨1, 0, 5, 0x4000000000050000⟩)] } } : State).gCheck [] ctx1 0 { r := true } [(0x50000, 64)] = .err 2 := by decide
theorem wit_SampleSets_descriptor : setBad 0 = true ∧ setBad (set0 .empty).desc = false ∧ ((uSet .freed [] []).dev.sets.filter fun y => y.handle % 8 = 0 && y.state != .freed).length < 512 ∧
    512 ≤ ((List.replicate 512 (set0 .empty)).filter fun y => y.handle % 8 = 0 && y.state != .freed).length := by decide +kernel
theorem wit_SampleSets_writes : (uSet .filling [] []).gCheck [] ctx1 0 { w := true } [((setDesc (set0 .filling).desc).samples, 16 * 16)] = .ok ∧ (uSet .filling [] []).gUses [] ctx1 0 { w := true } [((setDesc (set0 .filling).desc).samples, 16 * 16)] = [] ∧
    (uSet .built [] []).gCheck [] ctx1 0 { w := true } [((setDesc (set0 .built).desc).results, 8 * 16)] = .ok := by decide +kernel
def draw0 (mode : Nat) : Draw := { id := 0, ctx := 1, home := 0, handle := 0, header := (0x50000 <<< 432) ||| (1 <<< 120) ||| (BitVec.ofNat 512 mode <<< 118), headerAt := 0x50000, team := 1, jobs := [{ num := 0, unit := 0, batch := 0, prims := [] }]
                                   staged := [⟨0, 0, 0, 0⟩] }
theorem wit_SampleSets_busy : (∃ w ∈ (uSet .bound [] [draw0 0]).dev.draws, w.ctx = 1 ∧ w.handle = 0) ∧ ¬ ∃ w ∈ (uSet .bound [] []).dev.draws, w.ctx = 1 ∧ w.handle = 0 := by decide
theorem wit_SampleSets_build : (set0 .building).held = [] ∧ (uSet .building [] []).dev.salt = [] ∧ (uSet .building [] []).gCheck [] ctx1 0 { r := true } [((setDesc (set0 .building).desc).samples, 16 * 1)] = .ok ∧
    (uSet .building [] []).gCheck [] ctx1 0 { w := true } (sizes ((setDesc (set0 .building).desc).indexWrites 0 0 [⟨0, 0, 0, 0, 0⟩] [⟨0, 1, 0, 0, 0⟩])) = .ok ∧
    (uSet .building [] []).gUses [] ctx1 0 { w := true } (sizes ((setDesc (set0 .building).desc).indexWrites 0 0 [⟨0, 0, 0, 0, 0⟩] [⟨0, 1, 0, 0, 0⟩])) = [] := by decide +kernel
theorem wit_SampleSets_before : uPend.grp.gstate ≠ .empty ∧ (∃ o ∈ uPend.grp.ops, o.done = false ∧ o.ent = uPend.ent.num ∧ o.path ∈ [some Path.vm, some .sp, some .ga, some .mq]) ∧ ∀ o ∈ u0.grp.ops, o.done = true := by decide
/-- A command of the group waits at the draw that its team has not opened. -/
theorem wit_SampleSets_behind : ∃ w ∈ ({ u0.dev with salt := [⟨⟨0, 0, 0⟩, 0, 1, 1, 8, .bind 3, [], []⟩] } : Device).salt, w.g = u0.grp.loc ∧ w.home = 8 := by decide
/-- The group that builds set 0, held at a page, has been killed. -/
def uKilledBuild : State := { uSet .building [] [] with
  grp := { (uSet .building [] []).grp with killed := true, ops := [{ id := 0, path := some .rs, ent := 0, auto := false }] }
  dev := { (uSet .building [] []).dev with sets := [{ set0 .building with builder := some ⟨⟨0, 0, 0⟩, 0, 5, 0, 0⟩, held := [⟨5, false⟩] }] } }
theorem wit_SampleSets_killed : (uKilledBuild.set 1 0).state = .building ∧ (uKilledBuild.set 1 0).held ≠ [] ∧ uKilledBuild.dev.salt = [] ∧ (∃ g, uKilledBuild.buildOwner (uKilledBuild.set 1 0) = some g) ∧
    (uKilledBuild.buildOwner (uKilledBuild.set 1 0)).map Group.killed = some true := ⟨by decide, by decide, by decide, ⟨_, by rfl⟩, by decide⟩

theorem wit_RasterForms_elsewhere : 10 < (11#8).toNat ∧ u0.rastJob = none ∧ (10#8).toNat ≤ 10 ∧ u0.srcBad 32 = true ∧ u0.srcBad 31 = false := by decide
/-- The group runs job 0 of the draw. -/
def uJob (keys : List HeldKey) (j : RastJob) : State := { uSet .bound [] [draw0 0] with grp := { grp0 with rast := some j, keys } }
theorem wit_RasterForms_job : (uJob [] ⟨0, 0, 0, 0, 0, false, false⟩).rastJob = some (⟨0, 0, 0, 0, 0, false, false⟩, draw0 0, { num := 0, unit := 0, batch := 0, prims := [] }) ∧ (uJob [] ⟨0, 0, 0, 0, 0, false, false⟩).grp.count .rs < 63 ∧
    (¬ ∃ h ∈ (uJob [] ⟨0, 0, 0, 0, 0, false, false⟩).grp.keys, h.key = (draw0 0).id ++ BitVec.ofNat 32 0) ∧ ((uJob [] ⟨0, 0, 0, 0, 0, false, false⟩).keyAt 1 0).holder = none ∧ ((uJob [] ⟨0, 0, 0, 0, 0, false, false⟩).keyAt 1 0).n = BitVec.ofNat 32 0 := by decide +kernel
theorem wit_RasterForms_held : (∃ h ∈ (uJob [⟨0, 0⟩] ⟨0, 0, 0, 0, 0, false, false⟩).grp.keys, h.key = (draw0 0).id ++ BitVec.ofNat 32 0) ∧ (uJob [⟨0, 0⟩] ⟨0, 0, 0, 0, 0, false, false⟩).srcBad 1 = false ∧ (uJob [⟨0, 0⟩] ⟨0, 0, 0, 0, 0, false, false⟩).pendingIn (uJob [⟨0, 0⟩] ⟨0, 0, 0, 0, 0, false, false⟩).activeLanes 1 = false := by decide
/-- Lanes read 0 and b0 names page 5, where a header stands; the Saltern of Arbour 0 as given. -/
def uEmit (draws : List Draw) (salt : List HeldCmd) : State := { uSet .bound (List.replicate 15 0 ++ [1]) draws with grp := { grp0 with b := [0x50000] }, dev := { (uSet .bound (List.replicate 15 0 ++ [1]) draws).dev with salt } }
theorem wit_RasterForms_emit : (uEmit [] []).srcBad 0 = false ∧ (uEmit [] []).pendingIn (uEmit [] []).activeLanes 0 = false ∧ (uEmit [] []).grp.pendingDest (.b 0) = false ∧ (uEmit [] []).team.serial ≠ 0 ∧ (∀ j < 4, (uEmit [] []).poisonedAt ((uEmit [] []).pa { r := true } (0x50000 + BitVec.ofNat 80 (16 * j))) 16 = false) ∧
    (uEmit [] []).Sendable { r := true } 16 16 false ((uEmit [] []).accesses 48 (fun i => (uEmit [] []).breg 0 + ((uEmit [] []).read 0 i).setWidth 80) ++ [⟨64, 0x50000, 64⟩]) ∧ (uEmit [] []).Sendable { r := true } 16 16 false [⟨64, 0x50000, 64⟩] ∧
    (uEmit [] []).openDraw 1 = none ∧ (uEmit [] []).recordsAt 0 < 256 ∧ (uEmit [] []).drawable 1 0 = true := ⟨by decide, by decide, by decide, by decide, by decide, sendable (by decide), sendable (by decide), by decide, by decide, by decide⟩
theorem wit_RasterForms_header : headerBad (BitVec.ofNat 512 (leNat ((uEmit [] []).loadVA 0x50000 64))) = false ∧ (header (BitVec.ofNat 512 (leNat ((uEmit [] []).loadVA 0x50000 64)))).smallout = false ∧ (header (BitVec.ofNat 512 (leNat ((uEmit [] []).loadVA 0x50000 64)))).seth = 0 := by decide +kernel
theorem wit_RasterForms_wait : ¬ ∀ c ∈ (uEmit [] [⟨⟨0, 0, 0⟩, 0, 1, 1, 0, .bind 3, [], []⟩]).dev.salt, ¬ (c.g = (uEmit [] []).grp.loc ∧ c.home = 0) := by decide
theorem wit_RasterForms_open : (uEmit [draw0 1] []).openDraw 1 = some (draw0 1) ∧ (draw0 1).headerAt = 0x50000 ∧ (uEmit [draw0 1] []).draw? 0 = some (draw0 1) ∧ (header (draw0 1).header).smallout = false ∧ (header (draw0 1).header).mode = 1 ∧
    ((uEmit [draw0 1] []).set 1 0).count = ((uEmit [draw0 1] []).set 1 0).latePlaced ∧ (match (uEmit [draw0 1] []).check { r := true } 16 false 1 [⟨64, 0x50000, 64⟩] with
      | .ok u => decide (u.gCheck [] ctx1 0 { r := true } [((header (draw0 1).header).primbase, 48 * 1)] = .ok) && decide (u.gUses [] ctx1 0 { r := true } [((header (draw0 1).header).primbase, 48 * 1)] = [])
          && !u.gPoisoned [] ctx1 0 (header (draw0 1).header).primbase (48 * 1)
      | .bad _ => false) = true := by decide +kernel
def drawn (jobs : List Job) (published : List Nat) : Draw := { draw0 1 with closed := true, jobs, published, team := 0 }
def uDraw (jobs : List Job) (published : List Nat) (launches : List Launch) : State := { uSet .bound [] [drawn jobs published] with dev := { (uSet .bound [] [drawn jobs published]).dev with launches } }
theorem wit_RasterForms_stage : (uDraw [⟨0, 0, 0, [], false, false⟩] [] []).draw? (BitVec.ofNat 32 0) = some (drawn [⟨0, 0, 0, [], false, false⟩] []) ∧ (uDraw [⟨0, 0, 0, [], false, false⟩] [] []).isHead (drawn [⟨0, 0, 0, [], false, false⟩] []) = true ∧
    (drawn [⟨0, 0, 0, [], false, false⟩] []).jobs[0]? = some ⟨0, 0, 0, [], false, false⟩ ∧ ((uDraw [⟨0, 0, 0, [], false, false⟩] [] []).keyAt 1 0).n = BitVec.ofNat 32 0 ∧ ((uDraw [⟨0, 0, 0, [], false, false⟩] [] []).dev.keys.filter fun y => y.needed && !y.spilled && keyHome y.key = keyHome 0).length < 65536 ∧ ((uDraw [⟨0, 0, 0, [], false, false⟩] [] []).ctx 1).state = .resident ∧
    (∃ r ∈ (drawn [⟨0, 0, 0, [], false, false⟩] []).staged, r.unit = 0) ∧ (header (drawn [] []).header).mode = 1 := by decide +kernel
theorem wit_RasterForms_publish : 0 ∉ (drawn [⟨0, 0, 0, [], false, true⟩] []).published ∧ (∃ j ∈ (drawn [⟨0, 0, 0, [], false, true⟩] []).jobs, j.unit = 0) ∧ (∀ j ∈ (drawn [⟨0, 0, 0, [], false, true⟩] []).jobs, j.unit = 0 → j.committed = true) ∧
    (uDraw [⟨0, 0, 0, [], false, true⟩] [] []).gCheck [] ctx1 0 { w := true } [((setDesc (set0 .bound).desc).results + BitVec.ofNat 80 (8 * 0), 8 * 1)] = .ok := by decide +kernel
theorem wit_RasterForms_key : ((uDraw [⟨0, 0, 0, [], false, true⟩] [] []).keyAt 1 0).waiters = [] ∧ ∀ y ∈ (uDraw [⟨0, 0, 0, [], false, true⟩] [] []).dev.keys, y.spilled = false := by decide
theorem wit_RasterForms_release : (header (drawn [] []).header).stats = 0 ∧ (∀ t ∈ (uDraw [⟨0, 0, 0, [], false, true⟩] [0] [{ id := 0, ctx := 1 }]).everyTeam, t.serial ≠ 0 → t.draw ≠ some 0) ∧ (∀ j ∈ (drawn [⟨0, 0, 0, [], false, true⟩] [0]).jobs, j.unit ∈ (drawn [] [0]).published) ∧
    (drawn [] []).team = 0 ∧ ((uDraw [⟨0, 0, 0, [], false, true⟩] [0] [{ id := 0, ctx := 1 }]).launch? 0).isSome = true ∧ { drawn [] [] with team := 1 : Draw }.team ≠ 0 := by decide +kernel
/-- The group's EMIT waits at the Saltern of the draw that its job belongs to. -/
def uBehind : State := { uJob [] ⟨0, 0, 0, 0, 0, false, false⟩ with
  grp := { (uJob [] ⟨0, 0, 0, 0, 0, false, false⟩).grp with ops := [{ id := 0, path := some .rs, ent := 0, auto := false }] }
  dev := { (uJob [] ⟨0, 0, 0, 0, 0, false, false⟩).dev with salt := [{ g := ⟨0, 0, 0⟩, op := 0, team := 1, ctx := 1, home := 0, cmd := .bind 3 }] } }
theorem wit_RasterForms_behind : (∃ c ∈ uBehind.dev.salt, c.g = uBehind.grp.loc ∧ c.home = (draw0 0).home ∧ ∃ o ∈ uBehind.grp.ops, o.id = c.op) ∧ (∃ h ∈ uBehind.grp.keys, h.key = (draw0 0).id ++ BitVec.ofNat 32 0) = False ∧
    (uBehind.keyAt 1 0).waiters = [] := ⟨by decide, by simp [uBehind, uJob], by decide⟩
/-- The issue of an EMIT or a DRAW at page 5: its translations cache nothing new, and the Saltern reaches the header and the records from Arbour 0. -/
theorem wit_RasterForms_reach : (∃ u, (uEmit [] []).check { r := true } 16 false 1 [⟨64, 0x50000, 64⟩] = .ok u) ∧ (match (uEmit [] []).check { r := true } 16 false 1 [⟨64, 0x50000, 64⟩] with
      | .ok u => decide (u.gCheck [] ctx1 0 { r := true } [(0x50000, 64), (0x50001, 48)] = .ok) && decide (u.gUses [] ctx1 0 { r := true } [(0x50000, 64), (0x50001, 48)] = []) && !u.gPoisoned [] ctx1 0 0x50000 64 && !u.gPoisoned [] ctx1 0 0x50001 48
      | .bad _ => false) = true := by
  have h : ∃ u, (uEmit [] []).check { r := true } 16 false 1 [⟨64, 0x50000, 64⟩] = .ok u := ⟨_, by rfl⟩
  exact ⟨h, by decide +kernel⟩
/-- An access of the group before the command is open, and the set of the open draw is BUILDING. -/
theorem wit_RasterForms_parked : (∃ o ∈ uPend.grp.ops, o.done = false ∧ o.ent = uPend.ent.num ∧ o.path ∈ [some Path.vm, some .sp, some .ga, some .mq]) ∧ ((uSet .building [] [draw0 1]).set 1 (draw0 1).handle).state = .building ∧
    (uSet .building [] [draw0 1]).openDraw 1 = some (draw0 1) ∧ uPend.openDraw 1 = none ∧ uPend.grp.gstate ≠ .empty := by decide +kernel


/-! ## Agents, launches, debugging -/

/-- What an answer holds, or the error's code. -/
def errOf {α : Type} : Except Nat α → Option Nat
  | .ok _ => none
  | .error e => some e
theorem ok_of_errOf {α : Type} {x : Except Nat α} (h : errOf x = none) : ∃ y, x = .ok y := by cases x with | ok y => exact ⟨y, rfl⟩ | error e => cases h
theorem err_of_errOf {α : Type} {x : Except Nat α} {e : Nat} (h : errOf x = some e) : x = .error e := by cases x with | ok y => cases h | error f => cases h; rfl
theorem wit_AgentForms_user : u0.grp.agent = false ∧ a0.grp.agent = true ∧ (∀ j ∈ [60, 61, 62, 63], a0.pendingS j = false) ∧ a0.core.done = [] ∧ ({ a0 with core := { a0.core with done := [⟨1, 2, 3⟩] } } : State).core.done = ⟨1, 2, 3⟩ :: [] := by decide
def aSleep (wake : Option Nat) (wakes : BitVec 6) : State := { a0 with ent := { agentEntity with wd := { wake }, status := .waiting .sleep }, core := { a0.core with wakes } }
theorem wit_AgentForms_sleep : (aSleep none 0).uniBad 0xA5 = false ∧ (aSleep none 0).pendingIn [] 0xA5 = false ∧ (∃ w, (aSleep (some 0) 0).ent.wd.wake = some w ∧ w ≤ (aSleep (some 0) 0).dev.tick) ∧ (¬ ∃ w, (aSleep none 1).ent.wd.wake = some w ∧ w ≤ (aSleep none 1).dev.tick) ∧ (aSleep none 1).core.wakes ≠ 0 :=
  ⟨by decide, by decide, ⟨0, by decide⟩, by simp [aSleep], by decide⟩
theorem wit_AgentForms_asleep : ((aSleep none 1).focusCore 0).focusGroup ⟨0, 0, 15⟩ = some (aSleep none 1) ∧ (aSleep none 1).ent.status = .waiting .sleep := by decide
/-- The agent's b0 names page 5, where a block stands: these bytes from its byte 64 on; teams hold the numbers given. -/
def aGo (bytes : List Byte) (nums : List Nat) : State := { a0 with
  grp := { agentGroup 0 with b := [0x50000] }, dev := { a0.dev with mem := Memory.writeBytes [] 0x50040 bytes }
  core := { dtlb := [⟨0, 0, 5, 0x7C00000000050000⟩], holds := nums.map fun num => { num, places := [⟨0, 0, num⟩], width := 16, named := 0, peak := 0, bars := 0, scratch := 0, base := 0, base2 := 0, pair := false } } }
/-- The block's number of a job is all ones, which says that there is none. -/
def blockBytes : List Byte := leBytes ((2 ^ 32 - 1) * 2 ^ 148) 64
def blockOf (s : State) : Nat := leNat (s.loadVA 0x50000 128)
theorem wit_AgentForms_block : (aGo [] []).grp.pendingDest (.b 0) = false ∧ (aGo [] []).Sendable { r := true } 64 8 true [⟨0, 0x50000, 128⟩] ∧ (∃ h, (aGo [] []).admission 0 (kdesc (blockOf (aGo [] []) % 2 ^ 512)) = .ok h) ∧
    ∃ r, (aGo [] (List.range 8)).admission 0 (kdesc (blockOf (aGo [] []) % 2 ^ 512)) = .error r := ⟨by decide, sendable (by decide), ok_of_errOf (by decide +kernel), ⟨7, err_of_errOf (by decide +kernel)⟩⟩
theorem wit_AgentForms_steps : ((aGo blockBytes [0]).core.holds.find? fun h => h.num = fieldOf (blockOf (aGo blockBytes [0])) 756 4).isSome = true ∧ fieldOf (blockOf (aGo blockBytes [0])) 660 32 = 2 ^ 32 - 1 ∧
    ((aGo blockBytes [1]).core.holds.find? fun h => h.num = fieldOf (blockOf (aGo blockBytes [1])) 756 4) = none ∧ (aGo [] []).uni 0xA1 = 1 ∧ (aGo [] []).uni 0xA2 = 2 ∧ 2 < ((aGo [] []).uni 0xA3).toNat := by decide +kernel
theorem wit_AgentForms_before : (∀ o ∈ (aGo [] []).grp.ops, o.todo = []) ∧ ((aGo [] []).grp.ops.map Op.id).Nodup ∧ (∀ o ∈ (aGo [] []).grp.ops, o.after = []) ∧ (uStored.grp.ops.map Op.id).Nodup ∧ ∀ o ∈ uStored.grp.ops, o.todo = [] ∧ o.after = [] := by decide
def aNotice (l : List Notice) : State := { a0 with dev := { a0.dev with notices := l, queues := [{ num := 3, ctx := 1, state := .active }] } }
theorem wit_AgentForms_wkpop : (60#8).toNat % 2 = 0 ∧ (61#8).toNat % 2 = 1 ∧ 60 < (62#8).toNat ∧ (∀ j < 4, a0.pendingS (60 + j) = false) ∧ (∀ x, ¬ (x ∈ (aNotice []).dev.notices)) ∧ (⟨0, false, 0, 3, 0, 0⟩ : Notice) ∈ (aNotice [⟨0, false, 0, 3, 0, 0⟩]).dev.notices ∧
    ((aNotice []).ctx ((aNotice []).queue 3).ctx).state = .resident := ⟨by decide, by decide, by decide, by decide, by simp [aNotice], by decide, by decide⟩
/-- Launch 1, its kernel descriptor in page 5 of context 1: a code region of 4 bytes in the bytes given. -/
def launch1 (st : LaunchState) (cohort : Bool) : Launch := { id := 1, state := st, kdesc := 0x50000, args := 0x50000, total := 1, ctx := 1, cohort }
def uLaunch (ls : List Launch) (bytes : List Byte) (open_ : List (Nat × Word)) : State := { uSet .freed bytes [] with dev := { (uSet .freed bytes []).dev with launches := ls, openTable := open_ } }
def kernelBytes : List Byte := leBytes (4 * 2 ^ 336 + 0x100 * 2 ^ 6) 64
theorem wit_AgentForms_claim : (uLaunch [launch1 .pending false] [] []).launch? 1 = some (launch1 .pending false) ∧ ((uLaunch [] [] []).ctx 1).state = .resident ∧ (uLaunch [launch1 .pending false] [] []).recordsAt 0 < 256 ∧
    (uLaunch [launch1 .pending false] [] []).checkLaunch (launch1 .pending false) = .error 1 := ⟨by decide +kernel, by decide, by decide +kernel, err_of_errOf (by decide +kernel)⟩
theorem wit_AgentForms_claims : ∃ k, (uLaunch [launch1 .claimed false] kernelBytes []).checkLaunch (launch1 .claimed false) = .ok k := ok_of_errOf (by decide +kernel)
theorem wit_AgentForms_waits : (256 ≤ (((List.replicate 256 (0, (9 : Word))).filter fun e => e.1 = 0).length)) ∧ (∃ x ∈ (uLaunch [launch1 .pending true, { launch1 .issuing true with id := 2 }] [] []).dev.launches, x.cohort = true ∧ x.state = .issuing ∧ x.id ≠ 1) := by decide +kernel
/-- The team has no group left. -/
def aDone (killed : Bool) (l : LaunchState) : State := { a0 with teams := [{ team0 with launch := 1, killed }], dev := { a0.dev with launches := [launch1 l false] } }
theorem wit_AgentForms_complete : (aDone false .draining).allTeams.find? (fun x => x.serial = 1) = some { team0 with launch := 1 } ∧ (∀ g ∈ (aDone false .draining).allGroups, g.team = 1 → g.agent = true) ∧ (∀ c ∈ (aDone false .draining).dev.ctxs, ∀ k ∈ c.saved, ∀ g ∈ k.groups, g.team ≠ 1) ∧
    (∀ k ∈ (aDone false .draining).allCores, ∀ c ∈ k.sluice, c.team ≠ 1) ∧ (launch1 .draining false).doneN + 1 = (launch1 .draining false).total := by decide
def uExited (killed : Bool) : State := { u0 with grp := { grp0 with gstate := .exited, killed } }
theorem wit_AgentForms_retire : (uExited false).core.num = (uExited false).grp.loc.core ∧ takeFirst Group.agent (uExited false).core.groups = some (agent0, []) ∧ (uExited false).grp.gstate = .exited ∧ (uExited false).grp.ops = [] ∧ (uExited false).grp.keys = [] ∧ (uExited false).grp.team ≠ 0 ∧
    (uExited true).grp.killed = true ∧ (uExited false).team.serial = (uExited false).grp.team := by decide
theorem wit_DebugForms_groups : u0.UniReady [0xA0, 0xA2] [] ∧ u0.team.groups ≤ (u0.uni 0xA2).toNat ∧ (u0.uni 0xA1).toNat < u0.team.groups ∧ (∃ e, (u0.allGroups.find? (fun g => !g.agent && g.team = 1 && g.gid = 0 && g.gstate != .exited)).map Group.liveEnts = some [e]) ∧
    ∀ g ∈ u0.allGroups, ¬ (g.agent = false ∧ g.team = 1 ∧ g.gid = 1) := ⟨⟨by decide, by decide, by decide⟩, by decide, by decide, ⟨_, by rfl⟩, by decide⟩
def uSample : State := { u0 with dev := { u0.dev with ctxs := [{ ctx1 with sampleK := 10 }] } }
theorem wit_DebugForms_sample : (uSample.ctx 1).sampleK ≠ 0 ∧ (∃ g e, (g ∈ uSample.allGroups ∧ g.agent = false ∧ g.loc.core = 0 ∧ ∃ t ∈ uSample.allTeams, t.serial = g.team ∧ t.ctx = 1) ∧ (∀ x ∈ uSample.allGroups, x.agent = false → x = g) ∧ g.liveEnts = [e] ∧
    ((uSample.ctx 1).samplePos.lookup 0).getD 0 ≤ samplePlace g e ∧ samplePlace g e < 2 ^ 14) := ⟨by decide, { uSample.grp with sibs := [uSample.ent] }, ent0, by decide⟩
theorem wit_DebugForms_sampleNone : ∀ g ∈ uSample.allGroups, ¬ (g.agent = false ∧ g.loc.core = 1) := by decide
def uCmp (action : Nat) : State := { u0 with core := { u0.core with cmps := [⟨0, 1, 0x100, 0xFFF, 32, action⟩] }, dev := { u0.dev with stopAt := some 0, queues := [{ num := 0, ctx := 1 }] } }
theorem wit_DebugForms_comparator : ∀ n ∈ [1, 2, 3], (uCmp n).comparator = some ⟨0, 1, 0x100, 0xFFF, 32, n⟩ ∧ (uCmp n).ent.status ≠ .faultwait ∧ (uCmp n).grp.gstate = .ready := by decide
theorem wit_DebugForms_exited : ((uExited false).allGroups.find? fun g => !g.agent && g.team = 1 && g.gid = 0).isSome = true ∧ ∀ x ∈ (uExited false).allGroups, x.agent = false → x.gstate = .exited := by decide
theorem wit_DebugForms_stop : (uCmp 1).dev.stopAt = some 0 ∧ 0 ≤ (uCmp 1).dev.tick ∧ (uStopped .stopped []).dev.stopped ≠ none ∧ 9 ∉ (uStopped .stopped []).dev.scanned := by decide
/-- Launch 1 alone, open on Arbour 0, whose cores have room for its team. -/
def uServe (l : Launch) : State := { a0 with core := { groups := [] }, dev := { a0.dev with launches := [l], openTable := [(0, 1)] } }
def issuing (ticket : Nat) : Launch := { launch1 .issuing false with desc := BitVec.ofNat 512 (leNat kernelBytes), ticket }
theorem wit_AgentForms_serve : (uServe (issuing 0)).launch? 1 = some (issuing 0) ∧ (0 / 104, (1 : Word)) ∈ (uServe (issuing 0)).dev.openTable ∧ (issuing 0).holders = [] ∧ ((uServe (issuing 0)).ctx 1).state = .resident ∧ (issuing 0).ticket < (issuing 0).total ∧
    (issuing 0).ticket < (issuing 0).low + 65536 ∧ (issuing 1).total ≤ (issuing 1).ticket := by decide +kernel
theorem wit_AgentForms_room : ∃ h, (uServe (issuing 0)).admission 0 (kdesc (issuing 0).desc.toNat) = .ok h := ok_of_errOf (by decide +kernel)
theorem wit_AgentForms_draining : { launch1 .claimed false with sync := true : Launch }.sync = true ∧ ∃ c ∈ uFills.allCores, c.fills ≠ [] := by decide

/-- A mailbox command's parameters, none in progress. -/
def uBox (params : List Byte) : State := { u0 with dev := { u0.dev with mb := { params } } }
theorem takes {s : State} {ok : List DevState} {used : List (Nat × Nat)} (h : s.dev.mb.busy = false ∧ s.dev.devstate ∈ ok ∧ ∀ i < s.dev.mb.params.length, s.dev.mb.params.getD i 0 ≠ 0 → ∃ u ∈ used, u.1 ≤ i ∧ i < u.1 + u.2) : s.Takes ok used :=
  ⟨h.1, h.2.1, fun i hi => if hl : i < s.dev.mb.params.length then h.2.2 i hl hi else absurd (by simp [List.getD, List.getElem?_eq_none (Nat.le_of_not_lt hl)]) hi⟩
/-- The group is held by the debug handler; a command of that handler names it. -/
def uHandler (d : Directed) : State := { u0 with grp := { grp0 with gstate := .trapped, debugHeld := true }, ent := { ent0 with handling := true }, dev := { u0.dev with mb := { params := [0, 0, 0, 0, 2], busy := true, directed := d, units := [0] } } }
theorem wit_DebugForms_commands : (uBox [63]).Takes [.ready] [(0, 1)] ∧ (uBox [63]).param 0 1 ≤ 63 ∧ (uBox [0, 0, 0, 0, 2, 0, 0, 0, 0, 0, 0, 0, 0, 2]).Takes [.ready] [(0, 6), (8, 8)] ∧ (uBox [0, 0, 0, 0, 2, 0, 0, 0, 0, 0, 0, 0, 0, 2]).param 12 4 ≤ 512 ∧
    (uBox [63, 3, 0, 0, 4, 0, 0, 0, 0, 0, 0, 0, 232]).Takes [.ready] [(0, 6), (8, 8 + min 232 232)] ∧ (uBox [63, 3]).param 0 2 ≤ 831 ∧ dbgRefused 4 0 232 = false ∧ (uBox [0, 0, 0, 0, 2]).Takes [.ready] [(0, 5)] ∧ (uBox [0, 0, 0, 0, 2]).param 4 1 ≤ 2 :=
  ⟨takes (by decide), by decide, takes (by decide), by decide, takes (by decide), by decide, by decide, takes (by decide), by decide⟩
theorem wit_DebugForms_held : ∃ g, (uHandler .none).groupAt ⟨(uHandler .none).param 0 2, (uHandler .none).param 2 1, (uHandler .none).param 3 1⟩ = some g ∧ g.debugHeld = true ∧ g.gstate = .trapped ∧ (∃ bs, g.payload team0 true 2 0 = some bs) ∧ g.payload team0 true 2 1 = none ∧
    (uHandler .none).focus ⟨0, 0, 0⟩ g.trapper = some (uHandler .none) := ⟨_, by rfl, by decide, by decide, ⟨_, by rfl⟩, by rfl, by rfl⟩
/-- A write of 4 bytes at the start of the image of the group's first permutation register, and one past the end of the payload. -/
theorem wit_DebugForms_write : ∃ g bs, (uHandler (.dbgWrite ⟨0, 0, 0⟩ 2 0 0 [1, 2, 3, 4])).groupAt ⟨0, 0, 0⟩ = some g ∧ g.debugHeld = true ∧ g.payload team0 true 2 0 = some bs ∧ 0 + [1, 2, 3, 4].length ≤ bs.length ∧ bs.length < 4000 + 4 ∧
    (uHandler (.dbgWrite ⟨0, 0, 0⟩ 2 0 0 [1, 2, 3, 4])).dev.mb.units = [arbourOf 0] ∧ g.treg.cause.setWidth 8 ≠ 0x12#8 := ⟨_, _, by rfl, by decide, by rfl, by decide +kernel, by decide +kernel, by decide, by decide⟩
theorem wit_DebugForms_notHeld : ∀ g, ¬ (u0.groupAt ⟨1, 0, 0⟩ = some g ∧ g.debugHeld = true) := by
  have h : u0.groupAt ⟨1, 0, 0⟩ = none := by decide
  simp [h]

/-! ## Queues -/

/-- Queue 3 of context 1: 16 packets at 0x1000, its indices at 0x2000 and 0x2008, its read index and the write index last read as given. -/
def queue3 (state : QState) (ridx lastW : Nat) : Queue := { num := 3, state, ctx := 1, log2 := 4, priook := true, ring := 0x1000, widxAddr := 0x2000, ridxAddr := 0x2008, ridx, lastW, claimed := true }
/-- The head packet p at index 0, the write index w; page 5 known to the Lodges. -/
def uQueue (k : Queue) (p w : Nat) : State := { u0 with dev := { u0.dev with queues := [k], lodgeTlb := [leaf5], mem := Memory.writeBytes (Memory.writeBytes [] 0x1000 (leBytes p 64)) 0x2000 (leBytes w 8) } }
theorem wit_QueueEvents_poll : (queue3 .idle 0 0).polled = true ∧ (queue3 .idle 0 0).due ≤ (uQueue (queue3 .idle 0 0) 0 1).dev.tick ∧ (∀ y ∈ (uQueue (queue3 .idle 0 0) 0 1).dev.queues, y.pollsBefore (queue3 .idle 0 0) = false) ∧
    (uQueue (queue3 .idle 0 0) 0 1).reach 0x2000 8 = true ∧ leNat ((uQueue (queue3 .idle 0 0) 0 1).dev.mem.readBytes 0x2000 8) = 1 ∧ (1 : Nat) ≤ 0 + 2 ^ (queue3 .idle 0 0).log2 := by decide
theorem wit_QueueEvents_overrun : leNat ((uQueue (queue3 .idle 0 0) 0 17).dev.mem.readBytes 0x2000 8) = 17 ∧ (queue3 .idle 0 0).ridx + 2 ^ (queue3 .idle 0 0).log2 < 17 ∧ (queue3 .stalled 0 18).lastW > 17 := by decide
theorem wit_QueueEvents_unreached : ({ uQueue (queue3 .idle 0 0) 0 1 with dev := { (uQueue (queue3 .idle 0 0) 0 1).dev with poison := [0x2000] } } : State).reach 0x2000 8 = false := by decide
def head (p : Nat) : State := uQueue (queue3 .active 0 1) p 1
theorem wit_QueueEvents_claimed : { queue3 .active 0 1 with claimTick := 7 : Queue }.claimTick ≠ (head 6).dev.tick ∧ (queue3 .active 0 1).claimed = true ∧ { queue3 .active 0 1 with claimed := false : Queue }.claimed = false := by decide
theorem wit_QueueEvents_head : (queue3 .active 0 1).state = .active ∧ (queue3 .active 0 1).ridx < (queue3 .active 0 1).lastW ∧ (queue3 .active 0 1).claimed = true ∧ ((head 3).ctx 1).state = .resident ∧ (head 3).reach (0x1000 + BitVec.ofNat 64 (64 * (0 % 2 ^ 4))) 64 = true ∧ (head 3).reach 0x2008 8 = true ∧
    (∀ y ∈ (queue3 .active 0 1).started, y.n ≠ 0) ∧ (head 3).queue 3 = queue3 .active 0 1 ∧ (head 3).headPacket (queue3 .active 0 1) = 3 := by decide
theorem wit_QueueEvents_bad : (head 0).badPacket (queue3 .active 0 1) 0 = true ∧ (head 9).badPacket (queue3 .active 0 1) 9 = true := by decide
theorem wit_QueueEvents_barrier : (head (3 + 2 ^ 8)).badPacket (queue3 .active 0 1) (3 + 2 ^ 8) = false ∧ (3 + 2 ^ 8).testBit 8 = true ∧ { queue3 .active 1 2 with started := [{ n := 0, packet := 7 }] : Queue }.started ≠ [] := by decide
/-- Whether a control access may go ahead. -/
def goes : CRes → Bool
  | .ok _ => true
  | _ => false
theorem ok_of_goes {r : CRes} (h : goes r = true) : ∃ v, r = .ok v := by cases r with | ok v => exact ⟨v, rfl⟩ | _ => cases h
/-- Packets whose words are in page 5. -/
def signalP : Nat := 3 + 0x50000 * 2 ^ 64
def markP : Nat := 7 + 0x50000 * 2 ^ 256
def waitP (mask cond limit : Nat) : Nat := 4 + 0x50000 * 2 ^ 256 + mask * 2 ^ 400 + cond * 2 ^ 464 + limit * 2 ^ 480
theorem wit_QueueEvents_types : ∀ p ∈ [1 + 2 ^ 416 + 2 ^ 448 + 2 ^ 464, 2, signalP, waitP 0 0 0, 5, 6 + 2 ^ 256, markP], (head p).badPacket (queue3 .active 0 1) p = false ∧ p.testBit 8 = false ∧ p.testBit 9 = false ∧ p.testBit 10 = false := by decide
def started (p : Nat) : State := ((head p).withdrawNotice 3).startPacket 3 { n := 0, packet := BitVec.ofNat 512 p }
theorem wit_QueueEvents_signal : ∃ v, (started signalP).control ((started signalP).queue 3) { r := true, w := true } 0x50000 16 = .ok v := ok_of_goes (by decide)
theorem wit_QueueEvents_signalFails : ({ started signalP with dev := { (started signalP).dev with lodgeTlb := [⟨1, 0, 5, 0x4000000000050000⟩] } } : State).control ((started signalP).queue 3) { r := true, w := true } 0x50000 16 = .fail := by rfl
theorem wit_QueueEvents_mark : ∃ v, (started markP).control ((started markP).queue 3) { w := true } 0x50000 16 = .ok v := ok_of_goes (by decide)
theorem wit_QueueEvents_markFails : ({ started markP with dev := { (started markP).dev with lodgeTlb := [⟨1, 0, 5, 0x6000000000050000⟩] } } : State).control ((started markP).queue 3) { w := true } 0x50000 16 = .fail := by rfl
theorem wit_QueueEvents_waitv : (∃ v, ((head (waitP 0 0 0)).withdrawNotice 3).control (((head (waitP 0 0 0)).withdrawNotice 3).queue 3) { r := true } 0x50000 8 = .ok v) ∧ waitCond (waitP 0 0 0) 0 = true ∧ waitCond (waitP 0 1 0) 0 = false ∧ waitCond (waitP 0 2 0) 0 = true ∧ waitCond (waitP 0 3 0) 0 = false :=
  ⟨ok_of_goes (by decide), by decide, by decide, by decide, by decide⟩
theorem wit_QueueEvents_prio : ((head 0).ctx 1).state = .resident ∧ ((head 0).ctx 2).state ≠ .resident := by decide
theorem wit_QueueEvents_draw : (head 2).recordsAt 0 < 256 ∧ (2 : Nat).testBit 9 = false ∧ ∃ c ∈ ({ (head 2).dev with salt := [⟨⟨3, 16, 16⟩, 0, 0, 1, 0, .bind 3, [], []⟩] } : Device).salt, c.g = ⟨3, 16, 16⟩ ∧ c.home = 0 := by decide
theorem wit_QueueEvents_drawSync : (2 + 2 ^ 9 : Nat).testBit 9 = true ∧ ∃ c ∈ uFills.allCores, c.num / 104 = 0 ∧ c.fills ≠ [] := by decide
def uWait (p : Nat) : State := uQueue { queue3 .stalled 0 1 with waitSince := some 0 } p 1
theorem wit_QueueEvents_waiting : { queue3 .stalled 0 1 with waitSince := some 0 : Queue }.waitSince = some 0 ∧ ((uWait 0).ctx 1).state = .resident ∧ (∃ v, (uWait 0).control { queue3 .stalled 0 1 with waitSince := some 0 } { r := true } 0x50000 8 = .ok v) ∧
    fieldOf (waitP 0 1 1) 480 32 ≠ 0 ∧ 0 + fieldOf (waitP 0 1 1) 480 32 ≤ ({ (uWait 0).dev with tick := 1 } : Device).tick := ⟨by decide, by decide, ok_of_goes (by decide), by decide, by decide⟩
def packet7 (p : Nat) (wait : List Nat) : Started := { n := 0, packet := BitVec.ofNat 512 p, launch := 1, wait, marked := true }
def uDonePacket (p : Nat) (wait : List Nat) : State := { uQueue { queue3 .active 1 1 with started := [packet7 p wait] } 0 1 with dev := { (uQueue { queue3 .active 1 1 with started := [packet7 p wait] } 0 1).dev with launches := [launch1 .done false] } }
theorem wit_QueueEvents_complete : ∀ p ∈ [1, 7], ((uDonePacket p []).queue 3).started.find? (fun z => z.n = 0) = some (packet7 p []) ∧ ((uDonePacket p []).queue 3).state ≠ .resetting ∧ (uDonePacket p []).packetDone (packet7 p []) = true ∧ pktSigen p = false ∧ (uDonePacket p []).launch? 1 = some (launch1 .done false) := by decide +kernel
theorem wit_QueueEvents_update : (uDonePacket (6 + 2 ^ 256) [5]).queue 3 ∈ (uDonePacket (6 + 2 ^ 256) [5]).dev.queues ∧ packet7 (6 + 2 ^ 256) [5] ∈ ((uDonePacket (6 + 2 ^ 256) [5]).queue 3).started ∧ fieldOf (packet7 (6 + 2 ^ 256) [5]).packet.toNat 256 8 = 1 ∧ 5 ∈ (packet7 (6 + 2 ^ 256) [5]).wait ∧
    ∀ z ∈ (uDonePacket (6 + 2 ^ 256) [5]).dev.queues, ∀ v ∈ z.started, v = packet7 (6 + 2 ^ 256) [5] := by decide +kernel
theorem wit_QueueEvents_fills : (∃ c ∈ uFills.allCores, c.num / 104 = 0 ∧ c.fills ≠ []) ∧ ∀ c ∈ u0.allCores, c.fills = [] := by decide
theorem wit_QueueEvents_met : { queue3 .active 0 1 with waitMet := true : Queue }.waitMet = true ∧ (queue3 .active 0 1).waitMet = false ∧ { queue3 .error 1 1 with started := [packet7 (1 + 2 ^ 10) []] : Queue }.state = .error ∧ pktSigen (1 + 2 ^ 10) = true := by decide
theorem wit_QueueEvents_failed : ((uDonePacket 7 []).packetDone { packet7 7 [] with marked := false, err := 6 }) = true ∧ { packet7 7 [] with marked := false, err := 6 : Started }.err ≠ 0 ∧ { packet7 7 [] with stamp := 3 : Started }.stamp ≤ ({ tick := 3 } : Device).tick := by decide +kernel

/-! ## Contexts -/

def bytesAt (l : List (Nat × Byte)) : List Byte := l.foldl (fun bs x => bs.set x.1 x.2) (List.replicate 72 0)
def uDefine : State := uBox (bytesAt [(0, 2), (24, 4), (40, 10), (65, 4), (68, 1)])
theorem wit_ContextCommands_define : uDefine.Takes [.ready] [(0, 1), (8, 17), (32, 9), (48, 4), (56, 15)] ∧ uDefine.param 0 1 = 2 ∧ (uDefine.ctx 2).state = .free ∧ 4 ≤ uDefine.param 24 1 ∧ 10 ≤ uDefine.param 40 1 ∧ uDefine.param 64 4 = 1024 ∧ uDefine.param 68 2 = 1 ∧ uDefine.place 0 = .local ∧
    (∀ x ∈ uDefine.dev.ctxs, x.state ≠ .free → x.astag ≠ 2) ∧ (∀ y, 1 ≤ y → y < 2 → ∃ x ∈ uDefine.dev.ctxs, x.state ≠ .free ∧ x.astag = y) :=
  ⟨takes (by decide), by decide, by decide, by decide, by decide, by decide, by decide, by decide, by decide, fun y h1 h2 => ⟨ctx1, by decide, by decide, by show (1 : Nat) = y; omega⟩⟩
theorem wit_ContextCommands_bounds : (uBox [64]).Takes [.ready] [(0, 1)] ∧ 63 < (uBox [64]).param 0 1 ∧ (uBox [63]).param 0 1 = 63 ∧ (uBox [1]).param 0 1 = 1 ∧ (uBox [1, 16]).Takes [.ready] [(0, 2)] ∧ 15 < (uBox [1, 16]).param 1 1 ∧ (uBox [1, 15]).param 1 1 = 15 :=
  ⟨takes (by decide), by decide, by decide, by decide, takes (by decide), by decide, by decide⟩
/-- Context 1 in the state given, with a kept update; other contexts hold the slots given. -/
def uCtx (state : CtxState) (slots : List Nat) : State := { uBox [1] with dev := { (uBox [1]).dev with ctxs := { ctx1 with state, rslot := 0, kept := [⟨3, 1, true⟩] } :: slots.map fun r => { num := 10 + r, state := .resident, rslot := r } } }
theorem wit_ContextCommands_states : ∀ st ∈ [CtxState.free, .defined, .resident, .saving, .saved, .restoring, .error, .releasing], ((uCtx st []).ctx 1).state = st := by decide
theorem wit_ContextCommands_slots : (∀ r < 4, ∃ x ∈ (uCtx .defined [0, 1, 2, 3]).dev.ctxs, (uCtx .defined [0, 1, 2, 3]).holdsSlot x = true ∧ x.rslot = r) ∧ ((∀ x ∈ (uCtx .defined [0, 1, 2]).dev.ctxs, (uCtx .defined [0, 1, 2]).holdsSlot x = true → x.rslot ≠ 3) ∧
    ∀ y < 3, ∃ x ∈ (uCtx .defined [0, 1, 2]).dev.ctxs, (uCtx .defined [0, 1, 2]).holdsSlot x = true ∧ x.rslot = y) := by decide
theorem wit_ContextCommands_preempt : ∃ x, (uCtx .saving []).groupAt ⟨0, 0, 0⟩ = some x ∧ (∀ k ∈ (uCtx .saving []).allCores, ∀ y ∈ k.groups, y.loc = ⟨0, 0, 0⟩ → y = x) ∧ x.agent = false ∧ ((uCtx .saving []).teamOf x.team).ctx = 1 ∧ x.gstate = .ready ∧ x.count .vm = 0 ∧ x.ops = [] ∧ x.pm = [] := ⟨_, by rfl, by decide⟩
/-- Its group is preempted; what the device keeps of core 1 and of a team. -/
def uSaved (state : CtxState) (saved : List SavedCore) (poison : List Nat) : State := { uCtx state [] with grp := { grp0 with gstate := .preempted }, dev := { (uCtx state []).dev with poison, ctxs := [{ ctx1 with state, saved, savebase := 0x100000, savedTeams := [{ team0 with serial := 8 }] }] } }
theorem wit_ContextCommands_saveDone : (∀ g ∈ (uSaved .saving [] []).allGroups, g.agent = false → ((uSaved .saving [] []).teamOf g.team).ctx = 1 → g.gstate = .preempted ∧ ∀ a, some a ∈ g.acc → ∀ r ∈ a.rows, r.bad = false) ∧ (∀ k < 832, ∀ x ∈ ((uSaved .saving [] []).coreOf k).sluice, ((uSaved .saving [] []).teamOf x.team).ctx = 1 → x.progress % 32 = 0) := by
  have h : ∀ k, ((uSaved .saving [] []).coreOf k).sluice = [] := by
    intro k; unfold State.coreOf; split
    · rfl
    · rfl
  refine ⟨?_, fun k _ x hx => by rw [h] at hx; cases hx⟩
  have h2 : (uSaved .saving [] []).allGroups.all (fun g => g.agent || (decide (g.gstate = .preempted) && g.acc.isEmpty)) = true := by decide
  intro g hg ha _
  have := List.all_eq_true.1 h2 g hg
  simp [ha] at this
  exact ⟨this.1, by simp [this.2]⟩
theorem wit_ContextCommands_restore : ((uSaved .restoring [⟨1, [], [], []⟩] []).ctx 1).saved.find? (fun x => x.core = 1) = some ⟨1, [], [], []⟩ ∧ (uSaved .restoring [⟨1, [], [], []⟩] []).roomFor ((uSaved .restoring [⟨1, [], [], []⟩] []).ctx 1) ⟨1, [], [], []⟩ = true ∧
    (uSaved .restoring [⟨1, [], [], []⟩] [0x100000 + 2 ^ 22]).poisonedAt (((uSaved .restoring [⟨1, [], [], []⟩] []).ctx 1).streamAt 1 0) 16 = true ∧ ((uSaved .restoring [] []).ctx 1).saved = [] := by decide
theorem wit_ContextCommands_released : ((uCtx .releasing []).ctx 1).state = .releasing ∧ (∀ q ∈ (uCtx .releasing []).dev.queues, q.ctx = 1 → q.state ≠ .resetting) ∧ ∀ x ∈ ({ uCtx .releasing [] with team := {} } : State).allTeams, x.serial ≠ 0 → x.ctx ≠ 1 := by decide
theorem wit_ContextCommands_releasing : ({ uCtx .releasing [] with dev := { (uCtx .releasing []).dev with mb := { busy := true, directed := .release 1, units := [] } } } : State).dev.mb.units = [] ∧ (uCtx .releasing []).dev.mb.directed ≠ .release 1 ∧
    (uCtx .releasing []).dev.sets = [] ∧ (∀ l ∈ (uCtx .resident []).dev.launches, l.ctx ≠ 1) := by decide
/-- Queue 3 in the state given, and the parameters of QUEUE_MAP for it: 16 packets at 0x1000, its indices at 0x2000 and 0x2008. -/
def uMap (state : QState) (lg : Byte) : State := { u0 with dev := { u0.dev with
  ctxs := [{ ctx1 with qmax := 1 }], queues := [queue3 state 0 0], mb := { params := [3, 0, 1, 0, 0, lg, 0, 0, 0, 0x10, 0, 0, 0, 0, 0, 0, 0, 0x20, 0, 0, 0, 0, 0, 0, 8, 0x20] } } }
theorem wit_ContextCommands_map : (uMap .unmapped 4).Takes [.ready] [(0, 7), (8, 24)] ∧ (uMap .unmapped 4).param 0 2 = 3 ∧ (uMap .unmapped 4).param 8 8 % 4096 = 0 ∧ (uMap .unmapped 4).param 16 8 % 8 = 0 ∧ (uMap .unmapped 4).param 24 8 % 8 = 0 ∧ (uMap .unmapped 4).param 5 1 = 4 ∧ (uMap .unmapped 3).param 5 1 = 3 ∧ (uMap .unmapped 4).param 2 1 = 1 ∧
    (∀ x ∈ [0x1000, 0x1000 + 64 * 2 ^ 4 - 1, 0x2000, 0x2007, 0x2008, 0x200F], (uMap .unmapped 4).place x = .local) ∧ ((uMap .unmapped 4).dev.queues.filter fun x => x.state != .unmapped && x.ctx = 1).length < ((uMap .unmapped 4).ctx 1).qmax ∧ ((uMap .unmapped 4).ctx 1).state = .resident ∧ ((uMap .idle 4).queue 3).state ≠ .unmapped :=
  ⟨takes (by decide), by decide, by decide, by decide, by decide, by decide, by decide, by decide, by decide, by decide, by decide, by decide⟩
def uQueueCmd (state : QState) : State := { uMap state 4 with dev := { (uMap state 4).dev with mb := { params := [3] } } }
theorem wit_ContextCommands_queues : (uQueueCmd .idle).Takes [.ready] [(0, 2)] ∧ (∀ st ∈ [QState.unmapped, .idle, .active, .stalled, .error, .resetting], ((uQueueCmd st).queue ((uQueueCmd st).param 0 2)).state = st) ∧ (∀ p ∈ (uQueueCmd .idle).dev.ports, (p.resets.filter fun r => r.1 = 3).length < 127) ∧
    (∀ x ∈ (uQueueCmd .resetting).allTeams, x.serial ≠ 0 → x.queue ≠ 3) ∧ ∀ y ∈ (uQueueCmd .resetting).dev.ctxs, ∀ x ∈ y.savedTeams, x.serial ≠ 0 → x.queue ≠ 3 := ⟨takes (by decide), by decide, by decide, by decide, by decide⟩
def uQuery (at_ : Byte) (l : List Launch) : State := { uBox [1, 0, 0, 0, 0, 0, 0, 0, at_] with dev := { (uBox [1, 0, 0, 0, 0, 0, 0, 0, at_]).dev with launches := l } }
theorem wit_ContextCommands_query : (uQuery 64 []).Takes [.ready] [(0, 4), (8, 8)] ∧ (uQuery 64 []).launch? 1 = none ∧ (∀ st ∈ [LaunchState.pending, .claimed, .issuing, .draining, .done, .failed], (uQuery 64 [launch1 st false]).launch? (BitVec.ofNat 32 ((uQuery 64 [launch1 st false]).param 0 4)) = some (launch1 st false)) ∧
    (uQuery 64 []).param 8 8 % 64 = 0 ∧ (uQuery 32 []).param 8 8 % 64 ≠ 0 ∧ (uQuery 64 []).inReach 64 16448 = true := ⟨takes (by decide), by decide, by decide +kernel, by decide, by decide, by decide⟩
theorem wit_ContextCommands_acks : ∀ d ∈ [Directed.release 1, .kill 1, .queueReset 1], ({ u0 with dev := { u0.dev with mb := { busy := true, directed := d, units := [0, 7] } } } : State).dev.mb.directed = d ∧ 7 ∈ ({ u0 with dev := { u0.dev with mb := { busy := true, directed := d, units := [0, 7] } } } : State).dev.mb.units := by decide
theorem wit_ContextCommands_saveBad : { ctx1 with state := .saving, saveBad := true : Ctx }.saveBad = true ∧ (uCtx .saving []).core.badSpad = [] := by decide
theorem wit_ContextCommands_launches : (uLaunch [launch1 .issuing false] [] []).dev.launches.filter (fun y => y.id = (launch1 .issuing false).id) = [launch1 .issuing false] ∧ (uMap .idle 4).dev.queues.filter (fun y => y.num = 3) = [(uMap .idle 4).queue 3] ∧ ((uMap .idle 4).queue 3).ctx = 1 := by decide +kernel
/-- The stream of core 1 says END at once. -/
def uStream : State := { uSaved .restoring [⟨1, [], [], []⟩] [] with dev := { (uSaved .restoring [⟨1, [], [], []⟩] []).dev with mem := [⟨0x500000, 15⟩] } }
theorem wit_ContextCommands_stream : uStream.roomFor (uStream.ctx 1) (uStream.restored (uStream.ctx 1) ⟨1, [], [], []⟩ (uStream.readStream (uStream.ctx 1) 1 8192 0).1) = true := by decide +kernel

/-! ## The mailbox, boot, power -/

def uDev (st : DevState) (params : List Byte) : State := { u0 with dev := { u0.dev with devstate := st, mb := { params } } }
theorem wit_MailboxCommands_refused : ({ u0 with dev := { u0.dev with mb := { busy := true } } } : State).dev.mb.busy = true ∧ (uDev .boot []).dev.devstate ∉ [DevState.ready] ∧ (∃ j, (uDev .ready [0, 0, 9]).dev.mb.params.getD j 0 ≠ 0 ∧ ∀ u ∈ [(0, 2), (8, 8)], j < u.1 ∨ u.1 + u.2 ≤ j) :=
  ⟨by decide, by decide, 2, by decide, by decide⟩
theorem wit_MailboxCommands_unlisted : ∀ n ∈ [0x0A, 0x0F, 0x18, 0x24, 0x33, 0x44, 0x54, 0x5C, 0xFFFF], BitVec.ofNat 16 n ≠ 0 ∧ (BitVec.ofNat 16 n).toNat ∉ (List.range' 1 9 ++ List.range' 0x10 8 ++ List.range' 0x20 4 ++ List.range' 0x30 3 ++ List.range' 0x40 4 ++ List.range' 0x50 4 ++ List.range' 0x58 4) := by decide
theorem wit_MailboxCommands_identity : (uDev .boot []).Takes [.boot, .ready, .recovery, .stopped, .failsafe] [] ∧ (uDev .recovery [1, 2]).Takes [.ready, .recovery] [(0, 32)] ∧ (uDev .failsafe []).Takes [.ready, .stopped, .failsafe] [] := ⟨takes (by decide), takes (by decide), takes (by decide)⟩
/-- SLOT_WRITE of n bytes from the window, or from host memory, to slot 1 of a module that runs a recovery image. -/
def uSlot (src55 : Byte) (n : Byte) : State := { uDev .ready [1, 0, 0, 0, 0, 0, 0, 0, 0, 0, 0, 0, 0, 0, src55, 0, 0, 0, 0, 0, 0, 0, 0, 0, n] with dev := { (uDev .ready [1, 0, 0, 0, 0, 0, 0, 0, 0, 0, 0, 0, 0, 0, src55, 0, 0, 0, 0, 0, 0, 0, 0, 0, n]).dev with slot := 2 } }
theorem wit_MailboxCommands_slot : (uSlot 0x80 64).Takes [.ready] [(0, 1), (8, 24)] ∧ (uSlot 0x80 64).param 0 1 = 1 ∧ ((uSlot 0x80 64).param 8 8).testBit 55 = true ∧ (uSlot 0x80 64).param 8 8 < 2 ^ 56 ∧ (uSlot 0 64).param 8 8 = 0 ∧ (uSlot 0 64).dev.slot = 2 ∧ (uSlot 0 64).param 24 8 ≤ 2 ^ 20 ∧
    (1 : Nat) ≠ (uSlot 0 64).dev.slot ∧ ((uSlot 1 64).param 8 8).testBit 55 = false ∧ (uSlot 1 64).param 8 8 ≠ 0 := ⟨takes (by decide), by decide, by decide, by decide, by decide, by decide, by decide, by decide, by decide, by decide⟩
/-- What a header says and the keys are opaque: given a flash whose regions and slots verify or do not, a module in BOOT holds it. -/
theorem wit_MailboxCommands_boot (flash : Memory) (good : List (Nat × Nat)) (h : ∀ r ∈ good, authentic 0 ({ flash : Device }.image r) = true) :
    ∃ s : State, s.dev.devstate = .boot ∧ s.dev.flash = flash ∧ ∀ r ∈ good, authentic s.dev.floor (s.dev.image r) = true :=
  ⟨{ uDev .boot [] with dev := { (uDev .boot []).dev with flash } }, rfl, rfl, h⟩
theorem wit_MailboxCommands_recovery : (uDev .recovery [0, 0, 16]).Takes [.recovery] [(0, 8)] ∧ (uDev .recovery [0, 0, 16]).param 0 8 = 2 ^ 20 ∧ 2 ^ 20 < (uDev .recovery [1, 0, 16]).param 0 8 := ⟨takes (by decide), by decide, by decide⟩
theorem wit_MailboxCommands_power : (uDev .ready [3]).Takes [.ready] [(0, 1)] ∧ (uDev .ready [3]).param 0 1 ≤ 3 ∧ ¬ (uDev .ready [4]).param 0 1 ≤ 3 ∧ (uDev .ready [0xE8, 3]).Takes [.ready] [(0, 4)] ∧ (uDev .ready [0xE8, 3]).param 0 4 = 1000 ∧ (uDev .ready [0xC0, 0x12]).param 0 4 = 4800 ∧
    (uDev .ready [0xE2, 4]).Takes [.ready] [(0, 8)] ∧ (uDev .ready [0xE2, 4]).dev.tick + 1250 ≤ (uDev .ready [0xE2, 4]).param 0 8 ∧ ¬ (uDev .ready [0xE1, 4]).dev.tick + 1250 ≤ (uDev .ready [0xE1, 4]).param 0 8 :=
  ⟨takes (by decide), by decide, by decide, takes (by decide), by decide, by decide, takes (by decide), by decide, by decide⟩
theorem wit_MailboxCommands_settings : (uDev .ready [1, 1, 0, 0, 2]).Takes [.ready] [(0, 2), (4, 12)] ∧ (uDev .ready [1, 1, 0, 0, 2]).param 4 4 % 2 = 0 ∧ (uDev .ready [1, 2]).param 1 1 = 2 ∧ (uDev .ready [1, 8, 0, 0, 0, 0, 0, 0, 0, 16]).Takes [.ready] [(0, 2), (8, 8)] ∧
    (uDev .ready [1, 8, 0, 0, 0, 0, 0, 0, 0, 16]).param 8 8 = 4096 ∧ (uDev .ready [1, 20]).param 1 1 = 20 ∧ (uDev .ready [1, 10]).Takes [.ready] [(0, 2)] ∧ (uDev .ready [1, 9]).param 1 1 = 9 ∧ ((uDev .ready []).ctx 1).state = .resident ∧ ((uDev .ready []).ctx 63).state = .free :=
  ⟨takes (by decide), by decide, by decide, takes (by decide), by decide, by decide, takes (by decide), by decide, by decide, by decide⟩
theorem wit_MailboxCommands_pages : (uDev .ready (1 :: List.replicate 17 0 ++ [5] ++ List.replicate 15 0 ++ [1])).Takes [.ready] [(0, 1), (16, 10), (32, 8)] ∧ (uDev .ready (1 :: List.replicate 17 0 ++ [5])).param 16 10 = 0x50000 ∧ (uDev .ready (1 :: List.replicate 15 0 ++ [5])).param 16 10 % 2 ^ 16 ≠ 0 :=
  ⟨takes (by decide), by decide, by decide⟩
theorem wit_MailboxCommands_comparator : (uDev .ready [0xFF, 0xFF, 7, 63, 0xFF, 0x0F, 63, 3]).Takes [.ready] [(0, 12)] ∧ (uDev .ready [0xFF, 0xFF]).param 0 2 = 0xFFFF ∧ (uDev .ready [0x3F, 3]).param 0 2 = 831 ∧ (uDev .ready [0x40, 3]).param 0 2 = 832 := ⟨takes (by decide), by decide, by decide, by decide⟩
/-- A directed command with one unit left. -/
def uAck (directed : Directed) (unit : Nat) : State := { u0 with dev := { u0.dev with mb := { busy := true, directed, units := [unit] } } }
theorem wit_MailboxCommands_acks : ∀ d ∈ [Directed.trapSetup 1 true 2 3 4, .traceSetup 1 8 0x1000, .sampling 1 10, .tickstop 1250, .comparator ⟨0, 1, 0, 0, 0, 1⟩ (some 0), .comparator ⟨0, 1, 0, 0, 0, 1⟩ none, .prio 1 2 3, .tlbInval 1 0 0, .pageResume 1 0 0, .pageFail 1 0 0],
    (uAck d 7).dev.mb.units = [7] ∧ (uAck d 7).dev.mb.directed = d ∧ (uAck d 7).dev.salt = [] := by decide
def uInval : State := { uAck (.tlbInval 1 0 0) 7 with dev := { (uAck (.tlbInval 1 0 0) 7).dev with mb := { busy := true, directed := .tlbInval 1 0 0, units := [], mark := 5 } } }
theorem wit_MailboxCommands_invalDone : uInval.dev.mb.units = [] ∧ ∀ g ∈ uInval.allGroups, (uInval.teamOf g.team).ctx = 1 → ∀ o ∈ g.ops, o.done = false → o.id < uInval.dev.mb.mark → o.access = false := by decide
theorem wit_MailboxCommands_registers : (3 : BitVec 64).toNat < 4 ∧ ¬ (4 : BitVec 64).toNat < 4 ∧ (2 ^ 19 - 8) < 2 ^ 19 ∧ (0xF8 % 8 = 0 ∧ 0xF8 ≠ 0 ∧ 0xF8 < 0x100) ∧ (2 ^ 20 % 8 = 0 ∧ 2 ^ 20 ≤ 2 ^ 20 ∧ 2 ^ 21 - 8 < 2 ^ 21) ∧ (0x8000 + 8 * 35) % 8 = 0 := by decide
theorem wit_MailboxCommands_firstAcks : (∀ d ∈ [Directed.traceSetup 1 8 0x1000, .traceSetup 1 8 0], ({ uAck d 7 with dev := { (uAck d 7).dev with mb := { busy := true, directed := d, units := List.range 8 } } } : State).dev.mb.units = List.range 8) ∧
    (∃ v ∈ ({ busy := true, directed := .sampling 1 10, units := [2, 5] } : Mailbox).units, v ≠ 2) ∧ 2 ∈ ({ busy := true, directed := .sampling 1 10, units := [2, 5] } : Mailbox).units := by decide
theorem wit_MailboxCommands_heat : u0.dev.stopped = none ∧ State.reset.dev.stopped = none ∧ 1000 * u0.dev.power.cap < 4800001 ∧ ¬ 1000 * u0.dev.power.cap < 4800000 ∧ (∃ x ∈ ({ temps := [110000] } : Power).temps, 110000 ≤ x) ∧ u0.dev.devstate = .ready := by decide

/-! ## Ports, other devices, the host -/

/-- Port 0 in the state given; an access of lane 3 through it is outstanding, or through port 1. -/
def uPort (state : PortState) (fails : Nat) (port : Nat) : State := { uBox [0] with
  grp := { grp0 with ops := [{ id := 0, path := some .vm, ent := 0, fills := [⟨.v 3 0, 7⟩], uses := [{ dev := 1, port, addr := 0x50000, lane := 3 }] }] }
  dev := { (uBox [0]).dev with ports := [{ num := 0, state, fails }], gensSent := [⟨1, 2, 3⟩] } }
theorem wit_LinkEvents_commands : (uPort .down 0 0).Takes [.ready] [(0, 1)] ∧ (uPort .down 0 0).param 0 1 = 0 ∧ 35 < (uBox [36]).param 0 1 ∧ (uBox [35]).param 0 1 ≤ 35 ∧ (∀ st ∈ [PortState.down, .training, .up, .degraded, .fenced], ((uPort st 0 0).port 0).state = st) ∧
    (∀ k ∈ (uPort .up 0 1).allCores, ∀ g ∈ k.groups, ∀ o ∈ g.ops, o.done = true ∨ ∀ x ∈ o.uses, x.port ≠ 0) := ⟨takes (by decide), by decide, by decide, by decide, by decide, by decide⟩
theorem wit_LinkEvents_setup : (uBox [0x7F, 4]).Takes [.ready] [(0, 2), (8, 8)] ∧ (uBox [0x7F, 4]).param 0 2 = 1151 ∧ (uBox [0x80, 4]).param 0 2 = 1152 ∧ (∀ x ∈ [0, 0 + 9215], (uBox []).place x = .local) ∧ (∀ p < 36, ((uBox []).port p).state = .down) ∧ ¬ ∀ p < 36, ((uPort .up 0 0).port p).state = .down ∨ ((uPort .up 0 0).port p).state = .fenced :=
  ⟨takes (by decide), by decide, by decide, by decide, by decide, by decide⟩
theorem wit_LinkEvents_training : ((uPort .training 0 0).port 0).state = .training ∧ (uPort .training 0 0).dev.salt = [] ∧ ((uPort .training 0 0).port 0).resets = [] ∧ ({ num := 0, resets := [(2, 3)] : Port }).resets = [(2, 3)] ∧ ((uPort .up 0 0).port 0).state = .up ∧ 0 ≤ 35 := by decide
theorem wit_LinkEvents_flits : ((uPort .degraded 6 0).port 0).fails < 7 ∧ 7 ≤ ((uPort .degraded 7 0).port 0).fails := by decide
theorem wit_LinkEvents_lost : ∃ o x, (uPort .up 7 0).grp.ops = [o] ∧ o.done = false ∧ o.ent = (uPort .up 7 0).ent.num ∧ o.uses = [x] ∧ x.port = 0 ∧ x.lane < 64 := ⟨_, _, rfl, by decide, by decide, rfl, by decide, by decide⟩
theorem wit_LinkEvents_alone : ((uPort .up 7 0).allGroups.filter fun g => g.ops.any fun o => !o.done && o.uses.any fun x => x.port = 0) = [{ (uPort .up 7 0).grp with sibs := (uPort .up 7 0).ent :: (uPort .up 7 0).grp.sibs }] ∧
    (∀ k ∈ (uBox [0]).allCores, ∀ g ∈ k.groups, ∀ o ∈ g.ops, o.uses = []) ∧ ((uBox [0]).port 0).state ≠ .up ∧ ((uBox [0]).port 0).state ≠ .degraded := by decide
theorem wit_LinkEvents_remote : u0.place (0x1000#56).toNat = .local ∧ (⟨1, 2, 3⟩ : Generation) ∈ ({ gensIn := [⟨1, 2, 3⟩] } : Device).gensIn ∧ (⟨1, 2, 3⟩ : Generation) ∉ u0.dev.gensIn ∧ u0.poisonedAt 0x1000 8 = false ∧ (⟨1, 2, 3⟩ : Generation) ∈ (uPort .up 0 0).dev.gensSent := by decide
/-- Offsets at the ends of the mapped ranges. -/
theorem wit_LinkEvents_host : u0.dev.devstate = .ready ∧ (∀ i < 64, (let o := 48 * 2 ^ 30 - 64 + i; (decide (o < 2 ^ 39) && decide (o % 2 ^ 36 < 48 * 2 ^ 30)) || (decide (2 ^ 40 ≤ o) && decide (o < 2 ^ 40 + 1536 * 2 ^ 30))) = true) ∧
    (let o := 48 * 2 ^ 30; (decide (o < 2 ^ 39) && decide (o % 2 ^ 36 < 48 * 2 ^ 30)) || (decide (2 ^ 40 ≤ o) && decide (o < 2 ^ 40 + 1536 * 2 ^ 30))) = false ∧ u0.Canonical ∧ (u0.ctx 1).state ≠ .free ∧ (u0.ctx 1).state ≠ .releasing ∧ (∀ m < 64, m ≠ 1 → (u0.ctx m).state = .free ∨ (u0.ctx m).state = .releasing) ∧
    ∀ c < 64, (State.reset.ctx c).state = .free := ⟨by decide, by decide, by decide, ⟨by decide, by decide, by decide, by decide⟩, by decide, by decide, by decide, by decide⟩
theorem wit_LinkEvents_theirs : ({ num := 0, theirs := [(2, 3)] : Port }).theirs = [(2, 3)] ∧ ((uPort .training 0 0).port 0).theirs = [] ∧ u0.dev.cxl = true ∧ u0.poisonedAt 0x1000 64 = false ∧ u0.dev.devstate ≠ .recovery := by decide

/-! ## Steps of the spec's worked examples and tables -/

def uLanes (lanes : List Lane) : State := { u0 with grp := { grp0 with lanes } }
/-- 0.5 goes to v2 and is pushed in every lane (R9). -/
theorem test_fadd : ((after (.fadd 0x3F 0xD0 2) u0).grp.lane 15).reg 2 = 0x3F000000 ∧ ((after (.fadd 0x3F 0xD0 2) u0).grp.lane 15).q = [{ val := 0x3F000000 }] ∧ (after (.fadd 0x3F 0xD0 2) u0).grp.gs = 0 := by decide
/-- 2.25 × 4.0 + 0.5 = 9.5 (R9). -/
theorem test_ffma : ((after (.ffma 0xD3 0 2) (uLanes [{ v := [0x40100000, 0, 0x3F000000] }])).grp.lane 0).reg 2 = 0x41180000 := by decide
theorem test_limh : ((after (.limh 0x4010 0) u0).grp.lane 3).reg 0 = 0x40100000 := by decide
/-- The BILV3 line of R292. -/
theorem test_bilv3 : ((after (.bilv3 1 0 6) (uLanes [{ v := [1, 2, 0, 0, 0, 0, 3] }])).grp.lane 0).reg 6 = 0x35 := by decide
/-- Division in four lanes (R278): lanes 0 to 3, GC.DZT set, a handler for every trap. -/
def uFour : State := { uTrap 0xFFFFFFFF 0 false false with
  ent := { ent0 with em := 0xF }, grp := { grp0 with gc := 0x10, lanes := [{ v := [0, 7, 2] }, { v := [0, 0xFFFFFFF9, 2] }, { v := [0, 0x80000000, 0xFFFFFFFF] }, { v := [0, 5, 0] }, { v := [0, 0, 0, 9] }] } }
theorem test_idiv : (List.range 5).map (fun i => ((after (.idiv 2 1 3) uFour).grp.lane i).reg 3) = [3, 0xFFFFFFFD, 0x80000000, 0xFFFFFFFF, 9] ∧ ((after (.idiv 2 1 3) uFour).grp.lane 4).q = [{ val := 0 }] := by decide
theorem test_irem : (List.range 4).map (fun i => ((after (.irem 2 1 4) uFour).grp.lane i).reg 4) = [1, 0xFFFFFFFF, 0, 5] := by decide
theorem test_idiv_traps : (after (.idiv 2 1 3) uFour).grp.treg.cause.toNat % 256 = 7 ∧ (after (.idiv 2 1 3) uFour).grp.treg.lanesLo = 8 ∧ (after (.idiv 2 1 3) uFour).grp.treg.data = 0x20 ∧ (after (.idiv 2 1 3) uFour).grp.gs = 0x60 ∧
    (after (.idiv 2 1 3) uFour).grp.treg.pc = 0x104 := by decide
/-- An exclusive scan with gaps (R291). -/
def uGaps : State := { u0 with ent := { ent0 with em := 0xB6 }, grp := { grp0 with lanes := (List.range 16).map fun i => { v := [0, 0, 0, 0, BitVec.ofNat 32 (i + 1), 77] } } }
theorem test_xscan : (List.range 8).map (fun i => ((after (.xscan 1 0 4 5) uGaps).grp.lane i).reg 5) = [77, 0, 2, 77, 5, 10, 77, 16] ∧ (after (.xscan 1 0 4 5) uGaps).grp.sAt 63 = 24 ∧ (after (.xscan 1 0 4 5) uGaps).ent.scc.e = false := by decide
theorem test_xscan_inclusive : (List.range 8).map (fun i => ((after (.xscan 0 0 4 5) uGaps).grp.lane i).reg 5) = [77, 2, 5, 77, 10, 16, 77, 24] := by decide
/-- XRED with no active lane writes 0 in the lanes of L and sets SCC.E (R290, R293). -/
def uNone : State := { u0 with ent := { ent0 with em := 0, l := 0x3F }, grp := { grp0 with lanes := List.replicate 16 { v := [0, 7, 0, 0, 0, 0, 5] } } }
theorem test_xred : ((after (.xred 0 1 6) uNone).grp.lane 5).reg 6 = 0 ∧ ((after (.xred 0 1 6) uNone).grp.lane 9).reg 6 = 5 ∧ (after (.xred 0 1 6) uNone).ent.scc.e = true := by decide
/-- Rounding into signed P4 (R33): 230, 235, 250, −0 and 2^−11, with infinities or the finite variant, without and with SAT. -/
def uP4 : State := uLanes ([0x43660000, 0x436B0000, 0x437A0000, 0x80000000, 0x3A000000].map fun x => { v := [0, 0, x] })
def codes (i : Instr) (s : State) (n : Nat) : List Nat := (List.range n).map fun k => (((after i s).grp.lane k).reg 3).toNat
theorem test_cvt8_signed : codes (.cvt8 0 0 0 11 2 3) uP4 5 = [0x7E, 0x7F, 0x7F, 0, 0] ∧ codes (.cvt8 0 1 0 11 2 3) uP4 5 = [0x7E, 0x7E, 0x7E, 0, 0] := by decide
theorem test_cvt8_finite : codes (.cvt8 0 0 1 11 2 3) uP4 5 = [0x7E, 0x7F, 0x80, 0, 0] ∧ codes (.cvt8 0 1 1 11 2 3) uP4 5 = [0x7E, 0x7F, 0x7F, 0, 0] := by decide
/-- The flags of 250.0: NV OF NX in the finite variant, OF NX with SAT. -/
theorem test_cvt8_flags : (u0.cvt8 false false true 11 0 0x437A0000).2 = flagNV ||| flagOF ||| flagNX ∧ (u0.cvt8 false true true 11 0 0x437A0000).2 = flagOF ||| flagNX ∧ (u0.cvt8 false false false 11 0 0x43660000).2 = flagNX := by decide
/-- Rounding −3, −inf, −2^−20 and +inf into unsigned P4 (R33). -/
def uU4 : State := uLanes ([0xC0400000, 0xFF800000, 0xB5800000, 0x7F800000].map fun x => { v := [0, 0, x] })
theorem test_cvt8_unsigned : codes (.cvt8 0 0 0 19 2 3) uU4 4 = [0xFF, 0xFF, 0, 0xFE] ∧ codes (.cvt8 0 1 0 19 2 3) uU4 4 = [0, 0, 0, 0xFD] := by decide
theorem test_cvt8_unsigned_flags : [0xC0400000, 0xFF800000, 0xB5800000].map (fun x => (u0.cvt8 false true false 19 0 x).2) = [flagNX, 0, flagUF ||| flagNX] ∧ (u0.cvt8 false false false 19 0 0xFF800000).2 = flagNV := by decide
/-- The last pass of sloop: 1 − 1 sets Z and C (18_isa_scalar.md). -/
theorem test_ssub_cc : (after (.ssub 0xA1 0x51 0x41) (uS [0, 1])).grp.sAt 1 = 0 ∧ (after (.ssub 0xA1 0x51 0x41) (uS [0, 1])).ent.scc = { z := true, c := true } := by decide
theorem test_sadd_overflow : (after (.sadd 0xA1 0x51 0x41) (uS [0, 0x7FFFFFFF])).ent.scc = { n := true, v := true } := by decide
/-- BRNZ at 0x10 with offset −4 halfwords goes back to 0x08; CALL at 0x08 pushes 0x0C and goes to 0x1C. -/
def uAt (pc : Word) : State := { u0 with ent := { ent0 with pc } }
theorem test_brnz : (after (.brnz 0x7FFFFC) (uAt 0x10)).ent.pc = 8 ∧ (after (.brnz 0x7FFFFC) { uAt 0x10 with ent := { ent0 with pc := 0x10, scc := { z := true } } }).ent.pc = 0x14 := by decide
theorem test_call : (after (.call 10) (uAt 8)).ent.pc = 0x1C ∧ (after (.call 10) (uAt 8)).ent.calls = [0xC] := by decide
/-- The split of split16: entity 3 is the lowest free slot and takes lanes 0 to 5 to 0x10 (R100). -/
def uSplit : State := { u0 with ent := { ent0 with pc := 4 }, grp := { grp0 with lanes := List.replicate 6 { p := 1 } }, core := { u0.core with groups := [agent0, { grp0 with loc := ⟨0, 0, 1⟩, sibs := [{ ent0 with num := 1 }, { ent0 with num := 2 }] }] } }
theorem test_brv : (after (.brvP0 6) uSplit).ent.em = 0xFFC0 ∧ (after (.brvP0 6) uSplit).ent.pc = 8 ∧ (after (.brvP0 6) uSplit).grp.sibs.map (fun e => (e.num, e.em, e.pc)) = [(3, 0x3F, 0x10)] := by decide
/-- PERM.PACK with p0 in lanes 0, 2 and 3; then PERM.CYC and PERM.APPLY of π (R344). -/
def uPack : State := uLanes [{ p := 1 }, {}, { p := 1 }, { p := 1 }]
theorem test_permPack : (after (.permPack 1 0) uPack).grp.sAt 63 = 3 ∧ ((after (.permPack 1 0) uPack).grp.perm 1).pos = [0, 3, 1, 2, 4, 5, 6, 7, 8, 9, 10, 11, 12, 13, 14, 15] := by decide
def uPi : State := uPerm { state := .valid, pos := [0, 3, 1, 2, 4, 5, 6, 7, 8, 9, 10, 11, 12, 13, 14, 15] } []
theorem test_permCyc : ((after (.permCyc 0 5) uPi).grp.lane 9).reg 5 = 0x030E0D00 := by decide
theorem test_permApply : (List.range 6).map (fun i => ((after (.permApply 0 0xE0 6) uPi).grp.lane i).reg 6) = [0, 2, 3, 1, 4, 5] := by decide
theorem test_permInv : ((after (.permInv 0 1) uPi).grp.perm 1).pos = [0, 2, 3, 1, 4, 5, 6, 7, 8, 9, 10, 11, 12, 13, 14, 15] := by decide
/-- The MMA of R332: row 0 becomes 0x7D, 0x7E and zeros, with status SAT (R333). -/
def fragLane (i : Nat) : Lane := { v := (List.range 48).map fun k =>
  if k = 16 then (if i = 0 then 0x80 else 0x7F) else if k = 40 then (if i = 0 then 0x807F else 0x7F7F) else if i = 0 then (if k = 8 then 0x4048 else if k = 24 then 0x3840 else if k = 32 then 0x48 else 0) else 0 }
def uMma : State := { u0 with ent := { ent0 with em := 1 }, grp := { grp0 with
  base := 48, peak := 56, mc := 0x005B6B58, mc2 := 0x42200000, epi := [0x3E800000], acc := [some ⟨0, List.replicate 16 { elems := List.replicate 32 5 }⟩], lanes := (List.range 16).map fragLane } }
def mmaRow (m : Nat) : AccRow := (((after (.mma 0x18 8) uMma).grp.acc.getD 0 none).map fun k => k.rows.getD m {}).getD {}
theorem test_mma : (mmaRow 0).elems = [0x7D, 0x7E] ++ List.replicate 30 0 ∧ (mmaRow 0).sat = true ∧ (mmaRow 0).nan = false ∧ (mmaRow 1).elems = List.replicate 32 5 := by decide +kernel
/-- The state in which an instruction has been issued and its accesses performed. -/
def performed (i : Instr) (s : State) : State := ((after i s).performAll s.nextOp).getD s
/-- bins4 (R314): lane 6 names bin 2 at byte 8; an atomic add in one lane returns the old value and stores the sum. -/
theorem test_andk : ((after (.andk 3 0xE0 0x3F) u0).grp.lane 6).q = [{ val := 2 }] := by decide
def uBins : State := { uMem 0 with ent := { ent0 with em := 1 }, core := { u0.core with spad := [⟨0, 3⟩] } }
theorem test_atoms : ((performed (.atoms 0xA1 0 0) uBins).core.spad.readBytes 0 4) = [4, 0, 0, 0] ∧ ((performed (.atoms 0xA1 0 0) uBins).grp.ops.map Op.fills) = [[⟨.q 0 0, 3⟩]] := by decide
/-- A load reads low byte first; a store writes low byte first (R2). -/
def uLoad : State := { uMem 0x50000 with ent := { ent0 with em := 1 }, grp := { (uMem 0x50000).grp with lanes := [{ v := [0, 0x12345678] }] }, dev := { u0.dev with mem := [⟨0x50000, 0x78⟩, ⟨0x50001, 0x56⟩, ⟨0x50002, 0x34⟩, ⟨0x50003, 0x92⟩] } }
theorem test_ldw : ((performed (.ldw 0 0 0 0xA0 0x41) uLoad).grp.ops.map Op.fills) = [[⟨.v 0 1, 0x92345678⟩]] := by decide
theorem test_ldhs : ((performed (.ldhs 0 0 0 0xA2 0x41) uLoad).grp.ops.map Op.fills) = [[⟨.v 0 1, 0xFFFF9234⟩]] := by decide
theorem test_stw : (performed (.stw 0 0 0 0xA4 1) uLoad).dev.mem.readBytes 0x50004 4 = [0x78, 0x56, 0x34, 0x12] ∧ (performed (.stw 0 0 0 0xA4 1) uLoad).dev.mem.readBytes 0x50000 4 = [0x78, 0x56, 0x34, 0x92] := by decide
end Sys2Proof.Tests
end

/-! ## What leaves the mailbox alone

The units' answer to a page command runs through queues, launches and the Saltern. None of that writes the mailbox, but for a fatal event of a
context whose save or restore is in progress (R50, notes/assumptions/26.md). -/
namespace Sys2Proof.Machine
open Sys2Proof

/-- A part of the state that a step of a fold keeps, the fold keeps. -/
theorem foldl_keeps {α β : Type} (p : State → β) {f : State → α → State} (hf : ∀ s a, p (f s a) = p s) (l : List α) (s : State) : p (l.foldl f s) = p s := by
  induction l generalizing s with
  | nil => rfl
  | cons a t ih => exact (ih _).trans (hf s a)

/-! ### Updates outside the device -/

@[simp] theorem State.mapCores_dev (s : State) (f : Core → Core) : (s.mapCores f).dev = s.dev := rfl
@[simp] theorem State.mapTeams_dev (s : State) (f : Team → Team) : (s.mapTeams f).dev = s.dev := rfl
@[simp] theorem State.onCore_dev (s : State) (c : Nat) (f : Core → Core) : (s.onCore c f).dev = s.dev := by
  unfold State.onCore; split <;> rfl
@[simp] theorem State.wake_dev (s : State) (c bit : Nat) : (s.wake c bit).dev = s.dev := State.onCore_dev ..
@[simp] theorem State.codeSync_dev (s : State) (ctx : Nat) (cwin : VAddr) (off len : Word) (p : Nat → Bool) : (s.codeSync ctx cwin off len p).dev = s.dev := rfl

/-! ### Fault records, keys and teams -/

@[simp] theorem State.record_mb (s : State) (c : Nat) (r : Rec) : (s.record c r).dev.mb = s.dev.mb := by
  rw [s.record_only c r]
@[simp] theorem State.mapHeld_mb (s : State) (f : Group → Group) : (s.mapHeld f).dev.mb = s.dev.mb := by
  simp [State.mapHeld]
@[simp] theorem State.completeOp_mb (s : State) (g : GLoc) (op : Nat) : (s.completeOp g op).dev.mb = s.dev.mb := State.mapHeld_mb ..
@[simp] theorem State.release_mb (s : State) (c : HeldCmd) : (s.release c).dev.mb = s.dev.mb := State.mapHeld_mb ..
@[simp] theorem State.freeSlots_mb (s : State) (l : List Key) : (s.freeSlots l).dev.mb = s.dev.mb :=
  foldl_keeps (fun s => s.dev.mb) (fun s k => by split <;> simp) l s
@[simp] theorem State.keepKeys_mb (s : State) (p : Key → Bool) : (s.keepKeys p).dev.mb = s.dev.mb := by
  simp [State.keepKeys]
@[simp] theorem State.withdraw_mb (s : State) (p : Waiter → Bool) : (s.withdraw p).dev.mb = s.dev.mb := by
  simp [State.withdraw]
@[simp] theorem State.dropWaits_mb (s : State) (l : List GLoc) : (s.dropWaits l).dev.mb = s.dev.mb := by
  simp [State.dropWaits]
@[simp] theorem State.dropStale_mb (s : State) (g : Group) : (s.dropStale g).dev.mb = s.dev.mb := by
  unfold State.dropStale
  split
  · split
    · exact State.keepKeys_mb ..
    · rfl
  · rfl
@[simp] theorem State.killSaved_mb (s : State) (p : Team → Bool) : (s.killSaved p).dev.mb = s.dev.mb := rfl
@[simp] theorem State.killTeams_mb (s : State) (p : Team → Bool) : (s.killTeams p).dev.mb = s.dev.mb := by
  simp [State.killTeams, foldl_keeps (fun s : State => s.dev.mb) State.dropStale_mb]
@[simp] theorem State.absentKeys_mb (s : State) (p : Nat → BitVec 64 → Bool) : (s.absentKeys p).dev.mb = s.dev.mb := by
  simp [State.absentKeys]
@[simp] theorem State.absentUnits_mb (s : State) (w : Draw) (p : Nat → Bool) : (s.absentUnits w p).dev.mb = s.dev.mb := State.absentKeys_mb ..

/-! ### Launches, draws and queues -/

@[simp] theorem State.wakeArbour_mb (s : State) (a bit : Nat) : (s.wakeArbour a bit).dev.mb = s.dev.mb := by
  simp [State.wakeArbour]
@[simp] theorem State.postHeads_mb (s : State) : s.postHeads.dev.mb = s.dev.mb :=
  foldl_keeps (fun s => s.dev.mb) (fun s w => by simp) _ s
@[simp] theorem State.dropDraw_mb (s : State) (id : Word) : (s.dropDraw id).dev.mb = s.dev.mb := by
  simp [State.dropDraw, foldl_keeps (fun s : State => s.dev.mb) (f := fun s (o : GLoc × Nat) => s.completeOp o.1 o.2) (fun s o => s.completeOp_mb o.1 o.2),
    foldl_keeps (fun s : State => s.dev.mb) (f := fun s w => s.absentUnits w fun _ => true) (fun s w => s.absentUnits_mb w _)]
@[simp] theorem State.withdrawOpen_mb (s : State) (id : Word) : (s.withdrawOpen id).dev.mb = s.dev.mb := by
  simp [State.withdrawOpen, foldl_keeps (fun s : State => s.dev.mb) (f := fun s a => s.wakeArbour a 2) (fun s a => s.wakeArbour_mb a 2)]
@[simp] theorem State.withdrawNotice_mb (s : State) (q : Nat) : (s.withdrawNotice q).dev.mb = s.dev.mb := rfl
@[simp] theorem State.queueError_mb (s : State) (q code : Nat) (r : Rec) : (s.queueError q code r).dev.mb = s.dev.mb := by
  unfold State.queueError
  dsimp only
  split <;> simp
@[simp] theorem State.errorAt_mb (s : State) (q code n : Nat) : (s.errorAt q code n).dev.mb = s.dev.mb := State.queueError_mb ..
/-- A launch that fails, with what it takes along, leaves the mailbox alone. -/
@[simp] theorem State.failLaunch_mb (s : State) (id : Word) (err : Nat) (kill : Bool) : (s.failLaunch id err kill).dev.mb = s.dev.mb := by
  unfold State.failLaunch
  split
  · split <;> simp
  · split
    · rfl
    · cases kill <;> simp
@[simp] theorem State.postNotice_mb (s : State) (q : Nat) : (s.postNotice q).dev.mb = s.dev.mb := by
  unfold State.postNotice
  dsimp only
  split <;> simp
@[simp] theorem State.settleQueue_mb (s : State) (q : Nat) : (s.settleQueue q).dev.mb = s.dev.mb := by
  unfold State.settleQueue
  dsimp only
  split
  · rfl
  · split
    · simp
    · split <;> simp
@[simp] theorem State.putStarted_mb (s : State) (q : Nat) (k : Started) : (s.putStarted q k).dev.mb = s.dev.mb := rfl
@[simp] theorem State.packetOver_mb (s : State) (q : Nat) (k : Started) : (s.packetOver q k).dev.mb = s.dev.mb := by
  unfold State.packetOver
  simp only [State.settleQueue_mb]
  split
  · split <;> rfl
  · rfl
@[simp] theorem State.signalFailed_mb (s : State) (q : Nat) (k : Started) : (s.signalFailed q k).dev.mb = s.dev.mb := by
  simp [State.signalFailed]
@[simp] theorem State.startPacket_mb (s : State) (q : Nat) (k : Started) : (s.startPacket q k).dev.mb = s.dev.mb := by
  unfold State.startPacket
  dsimp only
  split <;> simp [State.putWord64]
@[simp] theorem State.gWrite_mb (s : State) (tlb : List TlbEntry) (c : Ctx) (arb : Nat) (va : VAddr) (bs : List Byte) : (s.gWrite tlb c arb va bs).dev.mb = s.dev.mb := by
  have h (l : List (Nat × Nat)) (u : State) (cs : List Byte) :
      (l.foldl (fun (t, bs) p => (t.store (s.gPa tlb c arb { w := true } p.1) (bs.take p.2), bs.drop p.2)) (u, cs)).1.dev.mb = u.dev.mb := by
    induction l generalizing u cs with
    | nil => rfl
    | cons p l ih => exact (ih _ _).trans rfl
  exact h _ s bs
@[simp] theorem State.ctlWrite_mb (s : State) (q : Queue) (va : VAddr) (bs : List Byte) : (s.ctlWrite q va bs).dev.mb = s.dev.mb := State.gWrite_mb ..
@[simp] theorem State.applySignal_mb (s : State) (q : Queue) (k : Started) : (s.applySignal q k).dev.mb = s.dev.mb := by
  unfold State.applySignal
  dsimp only
  rw [State.ctlWrite_mb]
  split
  · exact State.ctlWrite_mb ..
  · rfl

/-! ### The Saltern -/

@[simp] theorem State.putSet_mb (s : State) (x : SampleSet) : (s.putSet x).dev.mb = s.dev.mb := rfl
@[simp] theorem State.saltWrite_mb (s : State) (ctx home : Nat) (l : List (VAddr × List Byte)) : (s.saltWrite ctx home l).dev.mb = s.dev.mb :=
  foldl_keeps (fun s => s.dev.mb) (fun _ _ => State.gWrite_mb ..) l s
@[simp] theorem State.failDraw_mb (s : State) (w : Draw) (e : Nat) : (s.failDraw w e).dev.mb = s.dev.mb := State.failLaunch_mb ..
@[simp] theorem State.openTeamDraw_mb (s : State) (c : HeldCmd) (at_ : VAddr) (home : Nat) (hd : BitVec 512) : (s.openTeamDraw c at_ home hd).2.dev.mb = s.dev.mb := by
  simp [State.openTeamDraw, State.newDraw]
@[simp] theorem State.openFailed_mb (s : State) (c : HeldCmd) (at_ : VAddr) (err : Nat) : (s.openFailed c at_ err).dev.mb = s.dev.mb := by
  simp [State.openFailed]
theorem State.remoteGateOf_mb {s t : State} {q : Nat} {gen : BitVec 8} {us : List RemoteUse} (h : s.remoteGateOf q gen us = some t) : t.dev.mb = s.dev.mb := by
  unfold State.remoteGateOf at h
  split at h
  · cases h; rfl
  · split at h <;> cases h; rfl

/-! ## A fatal event may end a save or restore -/

/-- The mailbox is as it was, or a fatal event has ended the save or restore that was in progress, with BAD_STATE (R50, notes/assumptions/26.md). -/
def MailboxHolds (s t : State) : Prop :=
  t.dev.mb = s.dev.mb ∨ ((∃ n, s.dev.mb.directed = .save n ∨ s.dev.mb.directed = .restore n) ∧
    t.dev.mb = { s.dev.mb with busy := false, result := 2, response := [], directed := .none, units := [] })

theorem MailboxHolds.of_eq {s t : State} (h : t.dev.mb = s.dev.mb) : MailboxHolds s t := .inl h
theorem MailboxHolds.refl (s : State) : MailboxHolds s s := .inl rfl
theorem MailboxHolds.trans {s t u : State} (h : MailboxHolds s t) (k : MailboxHolds t u) : MailboxHolds s u := by
  rcases h with h | ⟨hd, h⟩
  · simpa only [MailboxHolds, h] using k
  · rcases k with k | ⟨⟨n, kd⟩, -⟩
    · exact .inr ⟨hd, k.trans h⟩
    · simp [h] at kd
theorem MailboxHolds.foldl {α : Type} {f : State → α → State} (hf : ∀ s a, MailboxHolds s (f s a)) (l : List α) (s : State) : MailboxHolds s (l.foldl f s) := by
  induction l generalizing s with
  | nil => exact .refl s
  | cons a t ih => exact (hf s a).trans (ih _)

/-- Followed by what leaves the mailbox alone. -/
theorem MailboxHolds.then_eq {s t u : State} (h : MailboxHolds s t) (k : u.dev.mb = t.dev.mb) : MailboxHolds s u := h.trans (.of_eq k)
/-- After what leaves the mailbox alone. -/
theorem MailboxHolds.after_eq {s t u : State} (h : MailboxHolds t u) (k : t.dev.mb = s.dev.mb) : MailboxHolds s u := (MailboxHolds.of_eq k).trans h

/-- No command but a save or a restore ends so. -/
theorem MailboxHolds.other {s t : State} (h : MailboxHolds s t) (hs : ∀ n, s.dev.mb.directed ≠ .save n ∧ s.dev.mb.directed ≠ .restore n) : t.dev.mb = s.dev.mb := by
  rcases h with h | ⟨⟨n, hn | hn⟩, -⟩
  · exact h
  · exact absurd hn (hs n).1
  · exact absurd hn (hs n).2

theorem State.ctxFatal_holds (s : State) (n kind code : Nat) (addr : VAddr) (kill : Bool) : MailboxHolds s (s.ctxFatal n kind code addr kill) := by
  unfold State.ctxFatal
  dsimp only
  split
  · exact .refl s
  · generalize hu : (if kill = true then _ else _ : State) = u
    have hm : u.dev.mb = s.dev.mb := by
      subst hu
      split <;> simp [foldl_keeps (fun s : State => s.dev.mb) (f := fun s (l : Launch) => s.failLaunch l.id 8 kill) (fun s l => s.failLaunch_mb l.id 8 kill)]
    split
    · next h => exact .inr ⟨⟨n, hm ▸ h⟩, by simp [State.setDev, hm]⟩
    · exact .of_eq hm

theorem State.attachSlot_mb (s : State) (ctx arb : Nat) (page : BitVec 64) (r : Rec) : (s.attachSlot ctx arb page r).dev.mb = s.dev.mb := by
  unfold State.attachSlot
  split
  · rfl
  · split <;> simp
theorem State.openSlot_holds (s : State) (ctx arb : Nat) (page : BitVec 64) (r : Rec) : MailboxHolds s (s.openSlot ctx arb page r) := by
  unfold State.openSlot
  dsimp only
  split
  · exact s.ctxFatal_holds ..
  · exact .of_eq (s.attachSlot_mb ..)
theorem State.slotsFor_holds (s : State) (launch : Word) (queue core ctx arb kind : Nat) (pages : List (HeldPage × Nat)) :
    MailboxHolds s (s.slotsFor launch queue core ctx arb kind pages) :=
  .foldl (fun s p => by
    dsimp only
    split
    · exact .refl s
    · exact s.openSlot_holds ..) pages s
theorem State.fatalKernel_holds (s : State) (ctx arb : Nat) (desc args : VAddr) : MailboxHolds s (s.fatalKernel ctx arb desc args) :=
  .foldl (fun s p => by
    unfold State.fatalAt
    dsimp only
    split
    · exact s.ctxFatal_holds ..
    · exact .refl s) _ s

/-! ### The control plane -/

/-- The state that a control-plane access leaves, if it leaves one. -/
def CRes.All (p : State → Prop) : CRes → Prop
  | .ok t => p t
  | .fail => True
  | .held _ t => p t
  | .wait t => p t

theorem State.control_holds (s : State) (q : Queue) (n : Need) (va : VAddr) (len : Nat) : (s.control q n va len).All (MailboxHolds s) := by
  unfold State.control
  dsimp only
  split
  · trivial
  · exact s.slotsFor_holds ..
  · split
    · trivial
    · split
      · next h => exact .of_eq (State.remoteGateOf_mb h)
      · exact .refl s

theorem State.access_holds (s : State) (q : Nat) (k : Started) (n : Need) (va : VAddr) (len : Nat) {f : State → State} (hf : ∀ t, MailboxHolds t (f t)) :
    MailboxHolds s (s.access? q k n va len f) := by
  have h := s.control_holds (s.queue q) n va len
  unfold State.access?
  split <;> rename_i hc <;> rw [hc] at h
  · exact MailboxHolds.trans h (hf _)
  · exact .of_eq (s.signalFailed_mb q k)
  · exact MailboxHolds.then_eq h rfl
  · exact h

theorem State.signalPacket_holds (s : State) (q : Nat) (k : Started) : MailboxHolds s (s.signalPacket q k) := by
  unfold State.signalPacket
  split
  · exact s.access_holds _ _ _ _ _ fun t => .of_eq (by simp)
  · exact .of_eq (s.packetOver_mb q k)
theorem State.failStarted_holds (s : State) (q : Nat) (k : Started) : MailboxHolds s (s.failStarted q k) :=
  (State.signalPacket_holds ..).after_eq (by simp)
theorem State.failHeld_holds (s : State) (q : Nat) (k : Started) : MailboxHolds s (s.failHeld q k) := by
  unfold State.failHeld
  dsimp only
  split
  · exact s.failStarted_holds ..
  · exact .of_eq (s.signalFailed_mb ..)
theorem State.closeQueue_holds (s : State) (k : Closing) (resume : Bool) (n : Nat) : MailboxHolds s (s.closeQueue k resume n) := by
  unfold State.closeQueue
  extract_lets q free u v
  have hu : MailboxHolds s u := .of_eq rfl
  split
  · exact hu
  · have hv : MailboxHolds s v := hu.trans (.foldl (fun s x => s.failHeld_holds n x) _ _)
    split
    · split
      · exact hv.trans ((State.failStarted_holds ..).after_eq (by simp))
      · exact hv
    · exact hv

/-! ### Commands at the Saltern -/

/-- The states that applying a command leaves. -/
def Applied.All (p : State → Prop) : Applied → Prop
  | .done t _ => p t
  | .held _ => True
  | .wait t => p t

theorem State.saltCheck_wait {s t : State} {ctx home q : Nat} {gen : BitVec 8} {n : Need} {runs : List (VAddr × Nat)}
    (h : s.saltCheck ctx home q gen n runs = .wait t) : t.dev.mb = s.dev.mb := by
  unfold State.saltCheck at h
  dsimp only at h
  split at h
  · cases h
  · cases h
  · split at h
    · next hg => cases h; exact State.remoteGateOf_mb hg
    · split at h <;> cases h

/-- After a check by the Saltern: its failure and what follows it hold the mailbox, so all does. -/
theorem State.saltCheck_go {s u : State} {ctx home q : Nat} {gen : BitVec 8} {n : Need} {runs : List (VAddr × Nat)} {fail : Nat → Applied} {f : Applied}
    (hu : MailboxHolds s u) (he : ∀ e, (fail e).All (MailboxHolds s)) (hf : f.All (MailboxHolds s)) :
    ((u.saltCheck ctx home q gen n runs).go fail f).All (MailboxHolds s) := by
  unfold SRes.go
  split
  · exact hf
  · exact he _
  · trivial
  · next h => exact hu.then_eq (State.saltCheck_wait h)

theorem State.closeDraw_holds {s u : State} (hu : MailboxHolds s u) (w : Draw) (q : Nat) (gen : BitVec 8) (b : Bool) : (u.closeDraw w q gen b).All (MailboxHolds s) := by
  unfold State.closeDraw
  extract_lets x d h new built pos
  refine State.saltCheck_go hu (fun e => hu.then_eq (u.failDraw_mb w e)) ?_
  split
  dsimp only
  refine State.saltCheck_go hu (fun e => hu.then_eq (u.failDraw_mb w e)) ?_
  split
  · exact hu.trans (MailboxHolds.after_eq (State.fatalKernel_holds ..) (by simp))
  · split
    · exact hu.then_eq (by simp)
    · split
      · exact hu.then_eq (by simp)
      · exact hu.then_eq (by simp only [State.postHeads_mb, State.setLaunch_dev, State.setDev_dev, State.putSet_mb, State.saltWrite_mb])
theorem State.emitInto_holds {s u : State} (hu : MailboxHolds s u) (w : Draw) (q : Nat) (gen : BitVec 8) (recs : List (List Word)) (b : Bool) {f : State → Draw → Applied}
    (hf : ∀ v w, MailboxHolds s v → (f v w).All (MailboxHolds s)) : (u.emitInto w q gen recs b f).All (MailboxHolds s) :=
  State.saltCheck_go hu (fun _ => hu.then_eq (u.failDraw_mb w _)) (hf _ _ (hu.then_eq (by simp)))
theorem State.emitStream_holds {s u : State} (hu : MailboxHolds s u) (w : Draw) (q : Nat) (gen : BitVec 8) (b : Bool) : (u.emitStream w q gen b).All (MailboxHolds s) :=
  State.saltCheck_go hu (fun _ => hu.then_eq (u.failDraw_mb w _)) (State.emitInto_holds hu _ _ _ _ _ fun _ _ h => State.closeDraw_holds h ..)

theorem State.drawFor_holds {s : State} (c : HeldCmd) (at_ : VAddr) {f : State → Draw → Applied} (hf : ∀ v w, MailboxHolds s v → (f v w).All (MailboxHolds s)) :
    (s.drawFor c at_ f).All (MailboxHolds s) := by
  unfold State.drawFor
  extract_lets emit openNew
  have opens (u : State) (hu : MailboxHolds s u) : (openNew u).All (MailboxHolds s) := by
    refine State.saltCheck_go hu (fun _ => hu.then_eq (u.openFailed_mb ..)) ?_
    dsimp only
    split
    · exact hu
    · split
      · exact hu.then_eq (by simp)
      · split
        · exact hf _ _ (hu.then_eq rfl)
        · exact hu.then_eq rfl
  split
  · exact opens s (.refl s)
  · split
    · exact hf _ _ (.refl s)
    · split
      · exact .of_eq (by simp)
      · exact opens _ (.of_eq (by simp))

theorem State.drawSync_holds {s : State} (l : Launch) (c : HeldCmd) {f : State → Applied} (hf : ∀ v, MailboxHolds s v → (f v).All (MailboxHolds s)) :
    (s.drawSync l c f).All (MailboxHolds s) := by
  unfold State.drawSync
  split
  · exact hf _ (.refl s)
  · split
    · exact .refl s
    · split
      · trivial
      · next h => exact .of_eq (State.saltCheck_wait h)
      · exact hf _ (.refl s)
      · split
        · exact hf _ (.of_eq (by simp))
        · exact hf _ (.refl s)

theorem State.applyCmd_holds (s : State) (c : HeldCmd) : (s.applyCmd c).All (MailboxHolds s) := by
  have hs := MailboxHolds.refl s
  have put (x : SampleSet) : MailboxHolds s (s.putSet x) := .of_eq rfl
  unfold State.applyCmd
  dsimp only
  split
  case h_1 =>
    split
    · exact put _
    · refine State.saltCheck_go hs (fun _ => put _) ?_
      split
      · exact put _
      · split <;> exact put _
  case h_2 =>
    split
    · exact put _
    · exact State.saltCheck_go hs (fun _ => put _) (.of_eq (by simp))
  case h_3 => split <;> exact put _
  case h_4 =>
    split
    · exact put _
    · exact State.saltCheck_go hs (fun _ => put _) (.of_eq (by simp))
  case h_5 =>
    split
    · exact put _
    · split <;> exact put _
  case h_6 =>
    split
    · exact put _
    · split <;> exact put _
  case h_7 => exact .of_eq (by simp)
  case h_8 =>
    exact State.drawFor_holds _ _ fun v w hv => State.saltCheck_go hv (fun _ => hv.then_eq (by simp)) (State.emitInto_holds hv _ _ _ _ _ fun _ _ h => h)
  case h_9 => exact State.drawFor_holds _ _ fun v w hv => State.emitStream_holds (hv.then_eq (by simp)) ..
  case h_10 =>
    split
    · exact hs
    · refine State.drawSync_holds _ _ fun v hv => State.saltCheck_go hv (fun _ => hv.then_eq (by simp)) ?_
      split
      · exact hv.then_eq (by simp)
      · exact State.emitStream_holds (hv.then_eq (by simp)) ..

theorem State.tryCmd_holds (s : State) (c : HeldCmd) : MailboxHolds s (s.tryCmd c).1 := by
  have h := s.applyCmd_holds c
  unfold State.tryCmd
  split <;> rename_i hc <;> rw [hc] at h
  · split
    · exact MailboxHolds.then_eq h (by simp)
    · exact h
  · exact s.slotsFor_holds ..
  · exact .of_eq rfl
theorem State.drainList_holds (l ahead : List HeldCmd) (s : State) : MailboxHolds s (State.drainList l ahead s) := by
  induction l generalizing ahead s with
  | nil => exact .of_eq rfl
  | cons c t ih =>
    unfold State.drainList
    dsimp only
    generalize (if c.held = [] then s.homed c else c) = c
    have h := s.tryCmd_holds c
    split
    · exact ih ..
    · split <;> rename_i hc <;> rw [hc] at h <;> exact h.trans (ih ..)
theorem State.drainSalt_holds (s : State) : MailboxHolds s s.drainSalt := (State.drainList_holds ..).after_eq rfl

theorem State.failBuild_holds (s : State) (x : SampleSet) (e : Nat) : MailboxHolds s (s.failBuild x e) := by
  unfold State.failBuild State.endBuild
  refine (State.drainSalt_holds _).after_eq ?_
  split <;> simp
theorem State.failCmd_holds (s : State) (c : HeldCmd) : MailboxHolds s (s.failCmd c) := by
  unfold State.failCmd
  extract_lets u setFail drawFail
  have set (h : Nat) : MailboxHolds s (setFail h) := .of_eq (by simp [setFail, u])
  have draw (at_ : VAddr) : MailboxHolds s (drawFail at_) := by
    have h : (u.drawFor c at_ fun s w => .done (s.failLaunch w.id 9) true).All (MailboxHolds u) := State.drawFor_holds _ _ fun v w hv => hv.then_eq (by simp)
    refine MailboxHolds.after_eq ?_ (t := u) rfl
    simp only [drawFail]
    split <;> rename_i hc <;> rw [hc] at h
    · exact MailboxHolds.then_eq h (by simp)
    · exact MailboxHolds.then_eq h (by simp)
    · exact .of_eq (by simp)
  split
  case h_8 => exact draw _
  case h_9 => exact draw _
  case h_10 => exact .of_eq (by simp [u])
  all_goals exact set _

/-! ### A page command at an Arbour -/

theorem State.closeSalt_holds (s : State) (k : Closing) (resume : Bool) : MailboxHolds s (s.closeSalt k resume) := by
  unfold State.closeSalt
  extract_lets mine cmds sets draws free freed failed1 failed2 closed
  have h0 : MailboxHolds s freed := .of_eq rfl
  have h1 : MailboxHolds s failed1 := h0.trans (.foldl State.failCmd_holds _ _)
  have h2 : MailboxHolds s failed2 := h1.trans (.foldl (f := fun s (x : SampleSet) => s.failBuild (s.set x.ctx x.handle) 1) (fun s x => s.failBuild_holds ..) _ _)
  have h3 : MailboxHolds s closed := by
    show MailboxHolds s (if resume = true then freed else _)
    split
    · exact h0
    · exact h2.trans (.foldl (f := fun s (w : Draw) => s.failLaunch w.id 9) (fun s w => .of_eq (s.failLaunch_mb ..)) _ _)
  exact h3.trans (State.drainSalt_holds _)
/-- Closing pages at an Arbour leaves the mailbox as it is, but for a save or restore that a fatal event ends. -/
theorem State.closePages_holds (s : State) (arb : Nat) (r : PageRange) (resume : Bool) : MailboxHolds s (s.closePages arb r resume) := by
  unfold State.closePages
  dsimp only
  refine .trans ?_ (State.closeSalt_holds ..)
  exact (MailboxHolds.foldl (fun s n => s.closeQueue_holds _ _ n) _ _).after_eq (by simp)

end Sys2Proof.Machine


/-! ## The mailbox (R397, R398) -/
namespace Sys2Proof.Machine
open Sys2Proof

/-! ### What refuses a command -/

theorem State.mbox_busy {s : State} (h : s.dev.mb.busy = true) (ok : List DevState) (used : List (Nat × Nat)) (f : Outcome) :
    s.mbox ok used f = .next (s.setMb fun m => { m with result := 1 }) := by
  simp [State.mbox, h]
theorem State.mbox_badState {s : State} {ok : List DevState} (h : s.dev.mb.busy = false) (hs : s.dev.devstate ∉ ok) (used : List (Nat × Nat)) (f : Outcome) :
    s.mbox ok used f = .next (s.mbDone 2) := by
  simp [State.mbox, h, hs]
theorem State.unusedZero_false {s : State} {used : List (Nat × Nat)} {j : Nat} (hj : s.dev.mb.params.getD j 0 ≠ 0) (hu : ∀ u ∈ used, j < u.1 ∨ u.1 + u.2 ≤ j) :
    s.unusedZero used = false := by
  have hlt : j < s.dev.mb.params.length := by
    by_contra hge
    exact hj (List.getD_eq_default _ _ (Nat.le_of_not_lt hge))
  rw [List.getD_eq_getElem _ _ hlt] at hj
  refine List.all_eq_false.mpr ⟨(s.dev.mb.params[j], j), List.mem_zipIdx_iff_getElem?.mpr (List.getElem?_eq_getElem hlt), ?_⟩
  have : (used.any fun u => decide (u.1 ≤ j) && decide (j < u.1 + u.2)) = false := by
    rw [List.any_eq_false]
    intro u m
    have := hu u m
    simp; omega
  simpa [this] using hj
theorem State.mbox_badParam {s : State} {ok : List DevState} {used : List (Nat × Nat)} (h : s.dev.mb.busy = false) (hs : s.dev.devstate ∈ ok)
    (hj : ∃ j, s.dev.mb.params.getD j 0 ≠ 0 ∧ ∀ u ∈ used, j < u.1 ∨ u.1 + u.2 ≤ j) (f : Outcome) : s.mbox ok used f = .next (s.mbDone 3) := by
  obtain ⟨j, hj, hu⟩ := hj
  simp [State.mbox, h, hs, State.unusedZero_false hj hu]

/-- A host write of MB_CMD performs the row that its opcode names. -/
theorem State.event_mbCmd {s : State} {op : Nat} {i : Instr} (h : mbCommands.lookup op = some i) {v : BitVec 64} (hv : v.toNat % 2 ^ 16 = op) :
    s.event (.registerWrite 0 v) = exec i (s.setMb fun m => { m with cmd := op }) := by
  have hc : mbCommand (v.setWidth 16) = i := by
    rw [mbCommand, BitVec.toNat_setWidth, hv, h, Option.getD_some]
  show exec (mbCommand (v.setWidth 16)) (s.setMb fun m => { m with cmd := v.toNat % 2 ^ 16 }) = _
  rw [hc, hv]

theorem mbOpcodes_eq : mbOpcodes = List.range' 1 9 ++ List.range' 0x10 8 ++ List.range' 0x20 4 ++ List.range' 0x30 3 ++ List.range' 0x40 4 ++ List.range' 0x50 4 ++ List.range' 0x58 4 := rfl

theorem execMbCmdUnlisted_eq {op : BitVec 16} (h0 : op ≠ 0) (h : op.toNat ∉ mbOpcodes) (s : State) :
    execMbCmdUnlisted op s = .next (if s.dev.mb.busy = true then s.setMb fun m => { m with result := 1 } else s.mbDone 3) := by
  have hc : mbOpcodes.contains op.toNat = false := by simpa using h
  unfold execMbCmdUnlisted
  rw [hc, if_neg Bool.false_ne_true, if_neg h0]
  split <;> rfl

/-- A command of a context (or of all) with three ends: BAD_PARAM where its parameters do not fit, BAD_STATE where the context takes no settings, and its effect. -/
theorem refusals {bad fits : Prop} [Decidable bad] {u : Bool} {x a b c : Outcome} (hx : x = if bad then a else if (!u) = true then b else c) (h : bad ↔ ¬ fits) :
    (¬ fits → x = a) ∧ (fits → ¬ u = true → x = b) ∧ (fits → u = true → x = c) := by
  subst hx
  refine ⟨fun hf => if_pos (h.mpr hf), fun hf hu => ?_, fun hf hu => ?_⟩
  · rw [if_neg (fun k => h.mp k hf)]; simp [hu]
  · rw [if_neg (fun k => h.mp k hf)]; simp [hu]

theorem State.usable_iff (s : State) (n : Nat) : s.usable n = true ↔ (s.ctx n).state ≠ .free ∧ (s.ctx n).state ≠ .releasing := by
  simp [State.usable]

/-! ### Images and boot (R393 to R396) -/

theorem authentic_iff (floor : Nat) (bs : List Byte) : authentic floor bs = true ↔ imageSize bs ≤ bs.length ∧ sha512 (imageBody bs) = Config.headerDigest (imageHeader bs) ∧
    edVerify Config.bootKey (imageSigned bs) (imageSignature bs) = true ∧ floor ≤ imageVersion bs := by
  simp [authentic, and_assoc]

/-- The slot with the higher version is tried first, then the other (R394, R395). -/
theorem Device.choose_eq (d : Device) : let first := if imageVersion (d.slotImage 0) < imageVersion (d.slotImage 1) then 1 else 0
    d.choose = if authentic d.floor (d.slotImage first) = true then (some (first, d.slotImage first), 0)
      else if authentic d.floor (d.slotImage (1 - first)) = true then (some (1 - first, d.slotImage (1 - first)), first + 1) else (none, 3) := by
  dsimp only
  unfold Device.choose
  by_cases h : imageVersion (d.slotImage 0) < imageVersion (d.slotImage 1) <;> simp [h]
/-- The BOOTERR bits of the slots are bits 0 and 1. -/
theorem Device.choose_err (d : Device) : d.choose.2 < 4 := by
  rw [d.choose_eq]
  by_cases h : imageVersion (d.slotImage 0) < imageVersion (d.slotImage 1) <;> simp only [h, if_true, if_false]
  all_goals
    split
    · simp
    · split <;> simp

/-- BOOTERR has bit 2 for the defect map and bit 3 for the calibration region, above the bits of the slots. -/
theorem Device.regionErr_bits (d : Device) {e : Nat} (he : e < 4) :
    ((e + d.regionErr).testBit 2 = true ↔ ¬ authentic d.floor (d.image defectRegion) = true) ∧ ((e + d.regionErr).testBit 3 = true ↔ ¬ authentic d.floor (d.image calibRegion) = true) := by
  unfold Device.regionErr
  cases authentic d.floor (d.image defectRegion) <;> cases authentic d.floor (d.image calibRegion) <;> interval_cases e <;> decide
theorem Device.regionErr_zero (d : Device) : d.regionErr = 0 ↔ authentic d.floor (d.image defectRegion) = true ∧ authentic d.floor (d.image calibRegion) = true := by
  unfold Device.regionErr
  cases authentic d.floor (d.image defectRegion) <;> cases authentic d.floor (d.image calibRegion) <;> simp

/-- Boot as the choice of a slot and the regions decide it. -/
theorem execResetRelease_eq {s : State} (h : s.dev.devstate = .boot) :
    execResetRelease s = .next (s.setDev fun d => match s.dev.choose with
      | (some (n, img), e) => if d.regionErr = 0 then d.boot n e img else d.recover (e + d.regionErr)
      | (none, e) => d.recover (e + d.regionErr)) := by
  unfold execResetRelease
  rw [if_neg (by simp [h])]
  dsimp only
  split <;> rename_i hc <;> simp [hc]
theorem execResetRelease_badRegion {s : State} (h : s.dev.devstate = .boot) (hr : s.dev.regionErr ≠ 0) :
    ∃ e < 4, execResetRelease s = .next (s.setDev fun d => d.recover (e + d.regionErr)) := by
  refine ⟨s.dev.choose.2, s.dev.choose_err, ?_⟩
  rw [execResetRelease_eq h]
  rcases s.dev.choose with ⟨_ | ⟨n, img⟩, e⟩
  · rfl
  · simp [State.setDev, hr]

/-- What a reset keeps (R390, R395): flash, the floor, and memory that is the module's under neither number. -/
theorem State.resetAll_eq (s : State) (p : Nat → Bool)
    (hp : ∀ a, p a = true ↔ ¬ ({ s with dev := { s.dev with devnum := s.dev.devnum } } : State).place a = .local ∧ ¬ ({ s with dev := { s.dev with devnum := 0 } } : State).place a = .local) :
    s.resetAll = { State.reset with
      turns := s.turns, fresh := s.fresh
      dev := { mem := s.dev.mem.filter fun c => p c.1, poison := s.dev.poison.filter p, flash := s.dev.flash, floor := s.dev.floor } } := by
  have : p = fun a => !decide (({ s with dev := { s.dev with devnum := s.dev.devnum } } : State).place a = .local) && !decide (({ s with dev := { s.dev with devnum := 0 } } : State).place a = .local) := by
    funext a
    rw [Bool.eq_iff_iff, hp]
    simp
  subst this
  rfl

/-- A byte of a run that is read. -/
theorem Memory.getD_readBytes (m : Memory) (a : Nat) {n k : Nat} (h : k < n) : (m.readBytes a n).getD k 0 = m.read (a + k) := by
  induction n generalizing a k with
  | zero => omega
  | succ n ih =>
    cases k with
    | zero => rfl
    | succ k => rw [Memory.readBytes, List.getD_cons_succ, ih (a + 1) (by omega)]; congr 1; omega
/-- Memory after a copy of bytes into it: in the range the bytes copied, outside as before. -/
theorem Memory.read_copied {m : Memory} (w : m.wf = true) (src : Memory) (from_ dst n a : Nat) :
    (m.writeBytes dst (src.readBytes from_ n)).read a = if dst ≤ a ∧ a < dst + n then src.read (from_ + (a - dst)) else m.read a := by
  split
  · next h =>
    obtain ⟨k, rfl⟩ := Nat.exists_eq_add_of_le h.1
    rw [Memory.read_writeBytes_at w _ _ _ (by rw [Memory.length_readBytes]; omega), Memory.getD_readBytes _ _ (by omega), Nat.add_sub_cancel_left]
  · next h => exact Memory.read_writeBytes_other _ _ _ _ (by rw [Memory.length_readBytes]; omega)

/-! ### Settings at the units (R17) -/

/-- The last unit acknowledges: what the command does at it, then the command's end. -/
theorem execDirectedCommandAck_last {s t : State} {unit : Nat} {x : Directed} (hu : s.dev.mb.units = [unit]) (hx : s.dev.mb.directed = x)
    (ht : (s.setMb fun m => { m with units := [] }).applyDirected unit x = t) (h0 : t.dev.mb.units = []) :
    execDirectedCommandAck unit s = .next (t.endDirected x) := by
  subst hx ht
  have : (s.setMb fun m => { m with units := m.units.filter fun u => u != unit }) = s.setMb fun m => { m with units := [] } := by
    simp [State.setMb, State.setDev, hu]
  simp [execDirectedCommandAck, hu, this, h0]
/-- A unit acknowledges while others have still to. -/
theorem execDirectedCommandAck_more {s t : State} {unit : Nat} {x : Directed} (hu : unit ∈ s.dev.mb.units) (hx : s.dev.mb.directed = x)
    (ht : (s.setMb fun m => { m with units := m.units.filter fun u => u != unit }).applyDirected unit x = t) (h0 : t.dev.mb.units ≠ []) :
    execDirectedCommandAck unit s = .next t := by
  subst hx ht
  simp [execDirectedCommandAck, hu, h0]

@[simp] theorem State.setMb_ctx (s : State) (f : Mailbox → Mailbox) (n : Nat) : (s.setMb f).ctx n = s.ctx n := rfl

/-- A context set and set again. -/
theorem State.setCtx_sets {s : State} (c : Ctx) : (s.setCtx c).ctx c.num = c ∧ ∀ m, m ≠ c.num → (s.setCtx c).ctx m = s.ctx m :=
  ⟨by simp [State.ctx_setCtx], fun m hm => by rw [State.ctx_setCtx, if_neg hm]⟩

/-! ### Cores by number -/

@[simp] theorem State.coreOf_num (s : State) (n : Nat) : (s.coreOf n).num = n := by
  unfold State.coreOf
  split
  · assumption
  · cases h : s.cores.find? (fun k => decide (k.num = n)) with
    | none => rfl
    | some k => simpa using List.find?_some h
/-- A change of one core, read back. -/
theorem State.coreOf_onCore (s : State) (c : Nat) {f : Core → Core} (hf : ∀ k, (f k).num = k.num) (n : Nat) :
    (s.onCore c f).coreOf n = if n = c then f (s.coreOf c) else s.coreOf n := by
  unfold State.onCore
  by_cases hc : s.core.num = c
  · rw [if_pos hc]
    subst hc
    by_cases hn : n = s.core.num
    · simp [State.coreOf, hf, hn]
    · simp only [State.coreOf, hf, if_neg hn, if_neg (Ne.symm hn)]
      rfl
  · rw [if_neg hc]
    by_cases hn : n = c
    · subst hn
      have := find_upsert_same (fun k : Core => decide (k.num = n)) (f (s.coreOf n)) s.cores (by simp [hf])
      rw [if_pos rfl]
      show (if s.core.num = n then s.core else _) = _
      rw [if_neg hc, this]
      rfl
    · rw [if_neg hn]
      have := find_upsert_other (fun k : Core => decide (k.num = c)) (fun k => decide (k.num = n)) (f (s.coreOf c)) s.cores (by simp [hf, Ne.symm hn])
        (fun y hy => by simp at hy ⊢; omega)
      show (if s.core.num = n then s.core else ((upsert _ (f (s.coreOf c)) s.cores).find? fun k => decide (k.num = n)).getD (s.freshCore n)) = _
      rw [this]
      rfl
/-- A change of every listed core: a core is changed, or it is one that neither state lists. -/
theorem State.coreOf_map {s t : State} {f : Core → Core} (hf : ∀ k, (f k).num = k.num) (hc : t.core = f s.core) (hs : t.cores = s.cores.map f) (n : Nat) :
    t.coreOf n = f (s.coreOf n) ∨ (t.coreOf n = t.freshCore n ∧ s.coreOf n = s.freshCore n) := by
  by_cases hn : s.core.num = n
  · left; simp [State.coreOf, hc, hf, hn]
  · cases h : s.cores.find? (fun k => decide (k.num = n)) with
    | none => right; simp [State.coreOf, hc, hs, hf, hn, List.find?_map, h]
    | some k => left; simp [State.coreOf, hc, hs, hf, hn, List.find?_map, h]

/-- A wake event changes nothing that a core holds of priorities. -/
theorem State.prio_wake (s : State) (core bit n : Nat) (c : Ctx) : ((s.wake core bit).coreOf n).prio c = (s.coreOf n).prio c := by
  rw [State.wake, State.coreOf_onCore s core (f := fun k => { k with wakes := k.wakes ||| (1#6 <<< bit) }) (fun _ => rfl) n]
  split
  · next h => subst h; rfl
  · rfl
/-- A priority update at a core (R48): the later of it and what the core held. -/
theorem State.applyPrio_prio (s : State) (core c : Nat) (u : PrioUpdate) :
    ((s.applyPrio core c u).coreOf core).prio (s.ctx c) = if u.beats ((s.coreOf core).prio (s.ctx c)) then u else (s.coreOf core).prio (s.ctx c) := by
  have h := s.coreOf_onCore core (f := fun k => if u.beats (k.prio (s.ctx c)) then { k with prios := upsert (fun x => x.ctx = c) ⟨c, u.prio, u.stamp, u.mailbox⟩ k.prios } else k)
    (fun k => by split <;> rfl) core
  rw [State.applyPrio, State.prio_wake, h, if_pos rfl]
  split
  · simp [Core.prio, find_upsert_same]
  · rfl
theorem State.applyPrio_dev (s : State) (core c : Nat) (u : PrioUpdate) : (s.applyPrio core c u).dev = s.dev := by
  simp [State.applyPrio]

/-! ### Cached translations (R170) -/

/-- A range's page command drops what maps or leads to the range: what it leaves does not meet it. -/
theorem PageRange.meets_false {r : PageRange} {e : TlbEntry} (h : r.meets e = false) :
    r.len ≠ 0 ∧ (r.va + r.len ≤ e.key * 2 ^ levelShift e.level ∨ (e.key + 1) * 2 ^ levelShift e.level ≤ r.va) := by
  simp only [PageRange.meets, Bool.or_eq_false_iff, Bool.and_eq_false_iff, decide_eq_false_iff_not, Nat.not_lt] at h
  obtain ⟨h0, h⟩ := h
  exact ⟨h0, h.imp_right fun k => by rw [Nat.add_mul, Nat.one_mul]; exact k⟩

/-- What dropping translations leaves (R47, R170). -/
theorem State.dropTlb_left (s : State) (p : TlbEntry → Bool) (arb : Nat → Bool) (a b : Bool) :
    let t := s.dropTlb p arb a b
    (a = true → ∀ e ∈ t.dev.lodgeTlb, p e = false) ∧ (b = true → ∀ e ∈ t.dev.lodgeTlbB, p e = false) ∧
      (∀ e ∈ t.dev.l2tlb ++ t.dev.walkCache, arb e.1 = true → p e.2 = false) ∧ ∀ k ∈ t.allCores, arb (arbourOf k.num) = true → ∀ e ∈ k.itlb ++ k.dtlb, p e = false := by
  have cut (k : Core) (hk : arb (arbourOf k.num) = true) : ∀ e ∈ (k.itlb.filter fun e => !p e) ++ k.dtlb.filter fun e => !p e, p e = false := by
    intro e he
    simp only [List.mem_append, List.mem_filter, Bool.not_eq_true'] at he
    exact he.elim And.right And.right
  refine ⟨fun ha e he => ?_, fun hb e he => ?_, fun e he hx => ?_, fun k hk hx => ?_⟩
  · simp only [State.dropTlb, State.setDev_dev, ha, if_true, List.mem_filter, Bool.not_eq_true'] at he
    exact he.2
  · simp only [State.dropTlb, State.setDev_dev, hb, if_true, List.mem_filter, Bool.not_eq_true'] at he
    exact he.2
  · simp only [State.dropTlb, State.setDev_dev, List.mem_append, List.mem_filter, Bool.not_eq_true', Bool.and_eq_false_iff, hx] at he
    simp at he
    exact he.elim And.right And.right
  · rcases List.mem_cons.mp hk with rfl | hk
    · by_cases hc : arb (arbourOf s.core.num) = true
      · have := cut s.core hc
        simpa [State.dropTlb, State.mapCores, State.setDev, State.stowCore, hc] using this
      · exact absurd hx (by simp [State.dropTlb, State.mapCores, State.setDev, State.stowCore, hc])
    · obtain ⟨k, -, rfl⟩ := List.mem_map.mp hk
      split at hx <;> rename_i hc
      · rw [if_pos hc]; exact cut k hx
      · exact absurd hx hc

/-! ### Fault slots (R173) -/

/-- Releasing waiters touches no slot and no command at the Saltern. -/
theorem State.closeQueue_resume (s : State) (k : Closing) (n : Nat) :
    (s.closeQueue k true n).dev.slots = s.dev.slots ∧ (s.closeQueue k true n).dev.salt = s.dev.salt := by
  simp [State.closeQueue]
theorem State.closeSalt_resume_slots {s : State} (k : Closing) (h : s.dev.salt = []) : (s.closeSalt k true).dev.slots = s.dev.slots := by
  unfold State.closeSalt
  dsimp only
  rw [if_pos rfl, State.drainSalt_nil (by simp [h])]
  rfl
/-- PAGE_RESUME at an Arbour closes its slots in the range. -/
theorem State.closePages_resume_slots {s : State} (arb : Nat) (r : PageRange) (h : s.dev.salt = []) :
    (s.closePages arb r true).dev.slots = s.dev.slots.filter fun f => !(f.arbour = arb && f.ctx = r.ctx && r.has f.page) := by
  unfold State.closePages
  extract_lets k u v w qs
  have hw : w.dev = u.dev := by simp [w, v]
  have hq := foldl_keeps (fun s : State => (s.dev.slots, s.dev.salt)) (f := fun s n => s.closeQueue k true n)
    (fun s n => Prod.ext (s.closeQueue_resume k n).1 (s.closeQueue_resume k n).2) qs w
  rw [hw] at hq
  obtain ⟨hslots, hsalt⟩ := Prod.mk.inj hq
  rw [State.closeSalt_resume_slots k (hsalt.trans h), hslots]
  rfl

end Sys2Proof.Machine

namespace Sys2Proof.Machine
open Sys2Proof

/-! ### Firmware slots and boot -/

/-- What SLOT_WRITE asks of its parameters (R399): a slot, a range in it, a source, and for the slot that runs an authentic image in the other. -/
def State.slotFits (s : State) : Prop :=
  s.param 0 1 ≤ 1 ∧ s.param 16 8 + s.param 24 8 ≤ 96 * 2 ^ 20 ∧
    ((s.param 8 8 < 2 ^ 56 ∧ s.place (s.param 8 8) = .host) ∨ (s.param 8 8 = 0 ∧ s.dev.slot = 2 ∧ s.param 24 8 ≤ 2 ^ 20)) ∧
    (s.param 0 1 = s.dev.slot → authentic s.dev.floor (s.dev.slotImage (1 - s.param 0 1)) = true)

/-- SLOT_WRITE with parameters that do not fit, and with parameters that do. -/
theorem execSlotWrite_eq {s : State} (h : s.Takes [.ready] [(0, 1), (8, 24)]) [Decidable s.slotFits] :
    execSlotWrite s = if ¬ s.slotFits then .next (s.mbDone 3) else
      let bs := if s.param 8 8 = 0 then s.dev.window.readBytes 0 (s.param 24 8) else s.dev.mem.readBytes (s.param 8 8) (s.param 24 8)
      .next ((s.setDev fun d => { d with flash := d.flash.writeBytes (96 * 2 ^ 20 * s.param 0 1 + s.param 16 8) bs }).mbDone 0) := by
  rw [execSlotWrite, h.mbox]
  refine if_congr ?_ rfl ?_
  · rw [← not_iff_not, not_not]
    simp only [not_or, not_lt, not_and, Bool.not_eq_true', Bool.not_eq_false, decide_eq_true_eq]
    exact and_congr Iff.rfl (and_congr Iff.rfl (and_congr (by rw [imp_iff_not_or, ← mebi]; tauto) Iff.rfl))
  · simp only [slotRegion, Nat.mul_comm (s.param 0 1), mebi]
    rfl

/-- Boot with both regions authentic: the first slot that authenticates runs, else RECOVERY (R394, R395). -/
theorem execResetRelease_boots {s : State} (h : s.dev.devstate = .boot) (hr : s.dev.regionErr = 0) {first : Nat}
    (hf : first = if imageVersion (s.dev.slotImage 0) < imageVersion (s.dev.slotImage 1) then 1 else 0) :
    (authentic s.dev.floor (s.dev.slotImage first) = true → execResetRelease s = .next (s.setDev fun d => d.boot first 0 (d.slotImage first))) ∧
    (¬ authentic s.dev.floor (s.dev.slotImage first) = true → authentic s.dev.floor (s.dev.slotImage (1 - first)) = true →
      execResetRelease s = .next (s.setDev fun d => d.boot (1 - first) (first + 1) (d.slotImage (1 - first)))) ∧
    (¬ authentic s.dev.floor (s.dev.slotImage 0) = true → ¬ authentic s.dev.floor (s.dev.slotImage 1) = true → execResetRelease s = .next (s.setDev fun d => d.recover 3)) := by
  have hx := execResetRelease_eq h
  have hc := s.dev.choose_eq
  dsimp only at hc
  rw [← hf] at hc
  refine ⟨fun ha => ?_, fun hn ha => ?_, fun h0 h1 => ?_⟩
  · rw [if_pos ha] at hc
    rw [hx]; simp [State.setDev, hc, hr]
  · rw [if_neg hn, if_pos ha] at hc
    rw [hx]; simp [State.setDev, hc, hr]
  · have hn : ∀ n ≤ 1, ¬ authentic s.dev.floor (s.dev.slotImage n) = true := fun n hn => by
      obtain rfl | rfl : n = 0 ∨ n = 1 := by omega
      · exact h0
      · exact h1
    rw [if_neg (hn _ (by rw [hf]; split <;> omega)), if_neg (hn _ (by omega))] at hc
    rw [hx]; simp [State.setDev, hc, hr]

/-- The three ends of AUTH_RECOVERY (R396). -/
theorem execAuthRecovery_ends {s : State} (h : s.Takes [.recovery] [(0, 8)]) {n : Nat} (hn : n = s.param 0 8) :
    (2 ^ 20 < n → execAuthRecovery s = .next (s.mbDone 3)) ∧
    (n ≤ 2 ^ 20 → ¬ authentic s.dev.floor (s.dev.window.readBytes 0 n) = true → execAuthRecovery s = .next (s.mbDone 5)) ∧
    (n ≤ 2 ^ 20 → authentic s.dev.floor (s.dev.window.readBytes 0 n) = true → execAuthRecovery s =
      .next ((s.setDev fun d => if d.regionErr = 0 then d.boot 2 d.booterr (s.dev.window.readBytes 0 n) else d.recover d.regionErr).mbDone 0)) := by
  subst hn
  rw [execAuthRecovery, h.mbox, show 2 ^ 20 = mebi from rfl]
  refine ⟨fun hn => ?_, fun hn ha => ?_, fun hn ha => ?_⟩
  · rw [if_pos hn]
  · rw [if_neg (Nat.not_lt.mpr hn), if_pos (by simp only [ha, Bool.not_false])]
  · rw [if_neg (Nat.not_lt.mpr hn), if_neg (by simp only [ha, Bool.not_true, Bool.false_eq_true, not_false_iff])]

end Sys2Proof.Machine

namespace Sys2Proof.Machine
open Sys2Proof

/-! ### Power and the stop (R391, R399, R401) -/

theorem execPowerSet_eq {s : State} (h : s.Takes [.ready] [(0, 1)]) :
    execPowerSet s = .next (if s.param 0 1 ≤ 3 then (s.setDev fun d => { d with power := { d.power with step := s.param 0 1 } }).mbDone 0 else s.mbDone 3) := by
  rw [execPowerSet, h.mbox]
  by_cases hp : s.param 0 1 ≤ 3
  · rw [if_neg (by omega), if_pos hp]
  · rw [if_pos (by omega), if_neg hp]
theorem execPowerCap_eq {s : State} (h : s.Takes [.ready] [(0, 4)]) :
    execPowerCap s = .next (if 1000 ≤ s.param 0 4 ∧ s.param 0 4 ≤ 4800 then (s.setDev fun d => { d with power := { d.power with cap := s.param 0 4 } }).mbDone 0 else s.mbDone 3) := by
  rw [execPowerCap, h.mbox]
  dsimp only
  by_cases hp : 1000 ≤ s.param 0 4 ∧ s.param 0 4 ≤ 4800
  · rw [if_neg (by omega), if_pos hp]
  · rw [if_pos (by omega), if_neg hp]
theorem execTickstop_eq {s : State} (h : s.Takes [.ready] [(0, 8)]) :
    execTickstop s = .next (if s.dev.tick + 1250 ≤ s.param 0 8 then s.mbStart (.tickstop (s.param 0 8)) (List.range 10) else s.mbDone 3) := by
  rw [execTickstop, h.mbox]
  dsimp only
  by_cases hp : s.dev.tick + 1250 ≤ s.param 0 8
  · rw [if_neg (by omega), if_pos hp]
  · rw [if_pos (by omega), if_neg hp]
theorem execStopStatus_eq {s : State} (h : s.Takes [.ready, .stopped, .failsafe] []) :
    execStopStatus s = .next (s.mbDone 0 (leBytes (match s.dev.stopped, s.dev.stopAt with | some t, _ => t | none, some t => t | none, none => 0) 8)) := by
  rw [execStopStatus, h.mbox]
  cases s.dev.stopped <;> cases s.dev.stopAt <;> rfl

/-! ### The first acknowledgements (R17, R360, R392) -/

/-- The units that have still to acknowledge have the settings of before. -/
theorem State.ctxOn_waiting {s : State} {a : Nat} (h : a ∈ s.dev.mb.units) (n : Nat) : s.ctxOn a n = s.ctx n := by
  unfold State.ctxOn
  dsimp only
  rw [if_pos (by simpa using h)]

/-- Bytes stored change no context and no mailbox. -/
theorem State.store_eq (s : State) (a : Nat) (bs : List Byte) : (s.store a bs).dev.mb = s.dev.mb ∧ (∀ n, (s.store a bs).ctx n = s.ctx n) ∧
    s.store a bs = { s with dev := { s.dev with mem := s.dev.mem.writeBytes a bs, poison := (s.store a bs).dev.poison } } := ⟨rfl, fun _ => rfl, rfl⟩

/-- The first Arbour to acknowledge TRACE_SETUP finds the header of the area zero and uses the area; the others do not yet (R360). -/
theorem ack_traceSetup_first {s : State} {c k : Nat} {base : BitVec 64} {unit : Nat} (hu : unit < 8) (hd : s.dev.mb.directed = .traceSetup c k base)
    (hus : s.dev.mb.units = List.range 8) : ∃ t, execDirectedCommandAck unit s = .next t ∧
      t = { s with dev := { s.dev with ctxs := t.dev.ctxs, mb := { s.dev.mb with units := (List.range 8).filter fun v => v ≠ unit }, mem := if base = 0 then s.dev.mem else s.dev.mem.writeBytes base.toNat (leBytes 0 64), poison := t.dev.poison } } ∧
      t.ctx c = { s.ctx c with traceNew := 0 } ∧ t.ctxOn unit c = { s.ctx c with traceBase := base, traceLog2 := k, traceNext := 0, traceNew := 0 } ∧
      ∀ a < 8, a ≠ unit → t.ctxOn a c = { s.ctx c with traceNew := 0 } := by
  let u : State := s.setMb fun m => { m with units := m.units.filter fun v => v != unit }
  let v : State := u.setCtx { u.ctx c with traceNew := 0 }
  let t : State := if base = 0 then v else v.store base.toNat (leBytes 0 64)
  have hunits : u.dev.mb.units = (List.range 8).filter fun v => v ≠ unit := by
    rw [← hus]; exact List.filter_congr fun a _ => by simp [bne, beq_eq_decide]
  have hlen : ¬ u.dev.mb.units.length + 1 < arbours.length := by
    rw [hunits]; interval_cases unit <;> decide
  have ht : u.applyDirected unit (.traceSetup c k base) = t := if_neg hlen
  have htm : t.dev.mb = u.dev.mb := by
    simp only [t]; split
    · rfl
    · exact (v.store_eq ..).1
  have htc : t.ctx c = { s.ctx c with traceNew := 0 } := by
    have hv : v.ctx c = { s.ctx c with traceNew := 0 } := by
      rw [State.ctx_setCtx, if_pos (by simp)]; rfl
    simp only [t]; split
    · exact hv
    · exact ((v.store_eq ..).2.1 c).trans hv
  have hne : t.dev.mb.units ≠ [] := by
    rw [htm, hunits]; interval_cases unit <;> decide
  refine ⟨t, execDirectedCommandAck_more (by rw [hus]; simpa using hu) hd ht hne, ?_, htc, ?_, fun a ha hau => ?_⟩
  · rw [← hunits]
    simp only [t]
    split
    · rfl
    · exact (v.store_eq ..).2.2
  · have hn : unit ∉ t.dev.mb.units := by rw [htm, hunits]; simp
    have hdir : t.dev.mb.directed = .traceSetup c k base := by rw [htm]; exact hd
    simp [State.ctxOn, hn, hdir, htc]
  · rw [State.ctxOn_waiting (by rw [htm, hunits]; simp [ha, hau]), htc]

/-- An Arbour that acknowledges PCSAMPLE_SETUP samples at the new rate, its cores anew; the others as before (R392). -/
theorem ack_sampling {s : State} {c k unit : Nat} (hd : s.dev.mb.directed = .sampling c k) (hu : unit ∈ s.dev.mb.units) (hv : ∃ v ∈ s.dev.mb.units, v ≠ unit) :
    ∃ t, execDirectedCommandAck unit s = .next t ∧ (t.ctxOn unit c).sampleK = k ∧
      (∀ x ∈ (t.ctx c).samplePos, x.1 / 104 ≠ unit) ∧ ∀ a ∈ s.dev.mb.units, a ≠ unit → (t.ctxOn a c).sampleK = (s.ctx c).sampleK := by
  let u : State := s.setMb fun m => { m with units := m.units.filter fun v => v != unit }
  let t : State := u.setCtx { u.ctx c with samplePos := (u.ctx c).samplePos.filter fun x => arbourOf x.1 != unit }
  have htc : t.ctx c = { s.ctx c with samplePos := (s.ctx c).samplePos.filter fun x => arbourOf x.1 != unit } := by
    rw [State.ctx_setCtx, if_pos (by simp)]; rfl
  have hne : t.dev.mb.units ≠ [] := by
    obtain ⟨v, hv, hvu⟩ := hv
    exact List.ne_nil_of_mem (a := v) (List.mem_filter.mpr ⟨hv, by simpa using hvu⟩)
  refine ⟨t, execDirectedCommandAck_more hu hd rfl hne, ?_, fun x hx => ?_, fun a ha hau => ?_⟩
  · have hn : unit ∉ t.dev.mb.units := fun h => by simpa using (List.mem_filter.mp h).2
    have hdir : t.dev.mb.directed = .sampling c k := hd
    simp [State.ctxOn, hn, hdir]
  · rw [htc] at hx
    simpa [arbourOf] using (List.mem_filter.mp hx).2
  · rw [State.ctxOn_waiting (List.mem_filter.mpr ⟨ha, by simpa using hau⟩), htc]

/-! ### The last acknowledgement (R17) -/

/-- The last acknowledgement of a command of a context that does nothing at its units: the context has the settings, and no other changes. -/
theorem ack_last_ctx {s : State} {unit : Nat} {x : Directed} {k : Ctx} (hu : s.dev.mb.units = [unit]) (hd : s.dev.mb.directed = x)
    (ha : ∀ u : State, u.dev.mb.units = [] → u.applyDirected unit x = u) (he : (s.setMb fun m => { m with units := [] }).endDirected x = (s.setCtx k).mbDone 0) :
    ∃ u : State, (u.ctx k.num = k ∧ ∀ m, m ≠ k.num → u.ctx m = s.ctx m) ∧ execDirectedCommandAck unit s = .next (u.mbDone 0) ∧ u = { s with dev := { s.dev with ctxs := u.dev.ctxs } } :=
  ⟨s.setCtx k, State.setCtx_sets k, (execDirectedCommandAck_last hu hd (ha _ rfl) rfl).trans (congrArg _ he), rfl⟩

/-- PCSAMPLE_SETUP ends with the new rate, the rotation begun anew at the last Arbour as at those before it (R392). -/
theorem ack_last_sampling {s : State} {unit c k : Nat} (hu : s.dev.mb.units = [unit]) (hd : s.dev.mb.directed = .sampling c k) :
    let x : Ctx := { s.ctx c with sampleK := k, samplePos := (s.ctx c).samplePos.filter fun x => x.1 / 104 ≠ unit }
    ∃ u : State, (u.ctx x.num = x ∧ ∀ m, m ≠ x.num → u.ctx m = s.ctx m) ∧ execDirectedCommandAck unit s = .next (u.mbDone 0) ∧ u = { s with dev := { s.dev with ctxs := u.dev.ctxs } } := by
  intro x
  let a : Ctx := { s.ctx c with samplePos := (s.ctx c).samplePos.filter fun x => arbourOf x.1 != unit }
  let v : State := s.setCtx a
  let u : State := v.setCtx { v.ctx c with sampleK := k }
  have hac : a.num = c := s.ctx_num c
  have hv : v.ctx c = a := by rw [State.ctx_setCtx, if_pos hac.symm]
  have hx : { v.ctx c with sampleK := k } = x := by
    rw [hv]
    have : ((s.ctx c).samplePos.filter fun y => arbourOf y.1 != unit) = (s.ctx c).samplePos.filter fun y => decide (y.1 / 104 ≠ unit) :=
      List.filter_congr fun y _ => by simp [arbourOf, bne, beq_eq_decide]
    simp only [x, a, this]
  refine ⟨u, ⟨?_, fun m hm => ?_⟩, execDirectedCommandAck_last (t := (s.setMb fun m => { m with units := [] }).setCtx a) hu hd rfl rfl, rfl⟩
  · show (v.setCtx _).ctx x.num = x
    rw [hx]
    exact (State.setCtx_sets x).1
  · have hm' : m ≠ c := fun h => hm (h.trans (s.ctx_num c).symm)
    show (v.setCtx _).ctx m = _
    rw [hx, (State.setCtx_sets x).2 m hm, State.ctx_setCtx, if_neg (by rw [hac]; exact hm')]

theorem ack_last_comparator {s : State} {unit core : Nat} {x : Comparator} (hu : s.dev.mb.units = [unit]) (hd : s.dev.mb.directed = .comparator x (some core)) :
    ∃ u : State, execDirectedCommandAck unit s = .next (u.mbDone 0 s.dev.mb.response) ∧ u = { s with core := u.core, cores := u.cores } ∧
      (u.coreOf core).cmps = x :: (s.coreOf core).cmps.filter (fun y => y.index != x.index) ∧ ∀ k, k ≠ core → u.coreOf k = s.coreOf k := by
  let f : Core → Core := fun k => { k with cmps := setComparator x k.cmps }
  have hc := s.coreOf_onCore core (f := f) fun _ => rfl
  refine ⟨s.onCore core f, ?_, ?_, by rw [hc, if_pos rfl]; rfl, fun k hk => by rw [hc, if_neg hk]⟩
  · refine (execDirectedCommandAck_last hu hd rfl (by rw [State.applyDirected, State.onCore_dev]; rfl)).trans (congrArg _ ?_)
    show State.mbDone (State.onCore _ core f) 0 (State.onCore _ core f).dev.mb.response = _
    rw [State.onCore_dev]
    unfold State.onCore
    by_cases h : s.core.num = core
    · rw [if_pos h, if_pos (show (s.setMb _).core.num = core from h)]; rfl
    · rw [if_neg h, if_neg (show ¬ (s.setMb _).core.num = core from h)]; rfl
  · unfold State.onCore
    split <;> rfl

/-- A comparator for all cores holds at every core of the Arbour, listed or not (R388). -/
theorem ack_last_comparators {s : State} {unit : Nat} {x : Comparator} (hu : s.dev.mb.units = [unit]) (hd : s.dev.mb.directed = .comparator x none) :
    ∃ u : State, execDirectedCommandAck unit s = .next (u.mbDone 0 s.dev.mb.response) ∧
      ∀ k, (u.coreOf k).cmps = if k / 104 = unit then x :: (s.coreOf k).cmps.filter (fun y => y.index != x.index) else (s.coreOf k).cmps := by
  let f : Core → Core := fun k => if arbourOf k.num = unit then { k with cmps := setComparator x k.cmps } else k
  let u : State := (s.mapCores f).setDev fun d => { d with arbCmps := putAt [] d.arbCmps unit (setComparator x (d.arbCmps.getD unit [])) }
  refine ⟨u, execDirectedCommandAck_last (t := u.setMb fun m => { m with units := [] }) hu hd rfl rfl, fun k => ?_⟩
  rcases State.coreOf_map (s := s) (t := u) (f := f) (fun k => by simp only [f]; split <;> rfl) rfl rfl k with h | ⟨ht, hs⟩
  · have hn : (s.coreOf k).num = k := s.coreOf_num k
    simp only [h, f, hn, arbourOf]
    split <;> rfl
  · rw [ht, hs]
    show (putAt [] s.dev.arbCmps unit _).getD (k / 104) [] = _
    rw [getD_putAt]
    split
    · next h => simp only [State.freshCore, h]; rfl
    · rfl

/-- CTX_PRIO's update at the last Arbour (R48). -/
theorem ack_last_prio {s : State} {unit c p stamp : Nat} (hu : s.dev.mb.units = [unit]) (hd : s.dev.mb.directed = .prio c p stamp) :
    let up : PrioUpdate := ⟨p, stamp, true⟩
    let held := (s.coreOf unit).prio (s.ctx c)
    ∃ t, execDirectedCommandAck unit s = .next t ∧ (t.coreOf unit).prio (s.ctx c) = (if up.beats held then up else held) ∧ t.dev = (s.mbDone 0 s.dev.mb.response).dev := by
  intro up held
  let u : State := s.setMb fun m => { m with units := [] }
  have hdev : (u.applyPrio unit c up).dev = u.dev := u.applyPrio_dev ..
  have hresp : (u.applyPrio unit c up).dev.mb.response = s.dev.mb.response := by rw [hdev]; rfl
  refine ⟨(u.applyPrio unit c up).mbDone 0 s.dev.mb.response, ?_, u.applyPrio_prio unit c up, ?_⟩
  · refine (execDirectedCommandAck_last hu hd rfl (congrArg (fun d : Device => d.mb.units) hdev)).trans (congrArg _ ?_)
    show State.mbDone (u.applyPrio unit c up) 0 (u.applyPrio unit c up).dev.mb.response = _
    rw [hresp]
  · show ((u.applyPrio unit c up).setDev _).dev = _
    rw [State.setDev_dev, hdev]
    rfl

/-- The last acknowledgement of TLB_INVAL (R170): the unit has no entry that meets the range, and the command waits for the accesses issued so far. -/
theorem ack_last_tlbInval {s : State} {unit c n : Nat} {va : VAddr} (hu : s.dev.mb.units = [unit]) (hd : s.dev.mb.directed = .tlbInval c va n) :
    let outside (e : TlbEntry) : Prop := e.astag = (s.ctx c).astag → n ≠ 0 ∧ (va.toNat + n ≤ e.key * 2 ^ levelShift e.level ∨ (e.key + 1) * 2 ^ levelShift e.level ≤ va.toNat)
    ∃ t, execDirectedCommandAck unit s = .next t ∧ t.dev.mb.busy = s.dev.mb.busy ∧ t.dev.mb.units = [] ∧ t.dev.mb.mark = s.nextOp ∧
      (∀ e ∈ (if unit = 9 then t.dev.lodgeTlbB else t.dev.lodgeTlb), outside e) ∧ (∀ e ∈ t.dev.l2tlb ++ t.dev.walkCache, e.1 = unit → outside e.2) ∧
      ∀ k ∈ t.allCores, k.num / 104 = unit → ∀ e ∈ k.itlb ++ k.dtlb, outside e := by
  intro outside
  let u : State := s.setMb fun m => { m with units := [] }
  let p (e : TlbEntry) : Bool := decide (e.astag = (s.ctx c).astag) && PageRange.meets ⟨c, va.toNat, n⟩ e
  have hp (e : TlbEntry) (h : p e = false) : outside e := fun he => PageRange.meets_false (r := ⟨c, va.toNat, n⟩) (by simpa [p, he] using h)
  obtain ⟨hA, hB, hL, hC⟩ := u.dropTlb_left p (fun a => decide (a = unit)) (unit != 9) (decide (unit = 9))
  refine ⟨(u.dropTlb p (fun a => decide (a = unit)) (unit != 9) (decide (unit = 9))).setMb fun m => { m with mark := s.nextOp }, execDirectedCommandAck_last hu hd rfl rfl, rfl, rfl, rfl, fun e he => hp e ?_,
    fun e he hx => hp _ (hL e he (by simpa using hx)), fun k hk hx e he => hp e (hC k hk (decide_eq_true hx) e he)⟩
  by_cases h9 : unit = 9
  · rw [if_pos h9] at he
    exact hB (by simpa using h9) e he
  · rw [if_neg h9] at he
    exact hA (by simpa using h9) e he

/-- PAGE_RESUME and PAGE_FAIL end as any command without an effect at its end. -/
theorem State.endDirected_pages (s : State) (c : Nat) (va : VAddr) (n : Nat) :
    s.endDirected (.pageResume c va n) = s.mbDone 0 s.dev.mb.response ∧ s.endDirected (.pageFail c va n) = s.mbDone 0 s.dev.mb.response := ⟨rfl, rfl⟩
theorem State.mbDone_dev (s : State) (r : Nat) (l : List Byte) : (s.mbDone r l).dev.mb.busy = false ∧ (s.mbDone r l).dev.mb.result = r ∧ (s.mbDone r l).dev.slots = s.dev.slots := ⟨rfl, rfl, rfl⟩

/-- The last acknowledgement of a page command (R173). -/
theorem ack_last_pages {s : State} {unit c n : Nat} {va : VAddr} (hu : s.dev.mb.units = [unit]) (hd : s.dev.mb.directed = .pageResume c va n ∨ s.dev.mb.directed = .pageFail c va n) :
    ∃ t, execDirectedCommandAck unit s = .next t ∧ t.dev.mb.busy = false ∧ t.dev.mb.result = 0 ∧
      (s.dev.mb.directed = .pageResume c va n → s.dev.salt = [] → ∀ f ∈ t.dev.slots, f.arbour = unit → f.ctx = c →
        n ≠ 0 ∧ (f.page.toNat < va.toNat / 2 ^ 16 ∨ (va.toNat + n) / 2 ^ 16 ≤ f.page.toNat)) := by
  let u : State := s.setMb fun m => { m with units := [] }
  have hm (resume : Bool) : (u.closePages unit ⟨c, va.toNat, n⟩ resume).dev.mb.units = [] := by
    rw [(u.closePages_holds unit ⟨c, va.toNat, n⟩ resume).other]
    · rfl
    · intro k
      rcases hd with hd | hd <;> exact ⟨fun h => by simp [u, State.setMb, State.setDev, hd] at h, fun h => by simp [u, State.setMb, State.setDev, hd] at h⟩
  generalize hv : u.closePages unit ⟨c, va.toNat, n⟩ = v at hm
  rcases hd with hd | hd
  · obtain ⟨hbusy, hresult, hslots⟩ := (v true).mbDone_dev 0 (v true).dev.mb.response
    refine ⟨_, (execDirectedCommandAck_last hu hd (congrFun hv true) (hm true)).trans (congrArg _ ((v true).endDirected_pages c va n).1), hbusy, hresult, fun _ hs f hf ha hc => ?_⟩
    rw [hslots, ← hv, State.closePages_resume_slots (s := u) unit _ hs] at hf
    have := (List.mem_filter.mp hf).2
    simpa [ha, hc, PageRange.has, imp_iff_not_or] using this
  · obtain ⟨hbusy, hresult, -⟩ := (v false).mbDone_dev 0 (v false).dev.mb.response
    exact ⟨_, (execDirectedCommandAck_last hu hd (congrFun hv false) (hm false)).trans (congrArg _ ((v false).endDirected_pages c va n).2), hbusy, hresult, fun h => by rw [hd] at h; cases h⟩

/-- INVAL_DONE ends TLB_INVAL once the accesses issued before it have completed (R170, notes/assumptions/55.md). -/
theorem execTlbInvalDone_eq {s : State} {c n : Nat} {va : VAddr} (hd : s.dev.mb.directed = .tlbInval c va n) (hu : s.dev.mb.units = [])
    (h : ∀ g ∈ s.allGroups, (s.teamOf g.team).ctx = c → ∀ o ∈ g.ops, o.done = false → o.id < s.dev.mb.mark → o.access = false) : execTlbInvalDone s = .next (s.mbDone 0x11) := by
  have hq : ((s.allGroups.filter fun g => decide ((s.teamOf g.team).ctx = c)).any fun g => g.ops.any fun o => !o.done && o.access && decide (o.id < s.dev.mb.mark)) = false := by
    simp only [List.any_eq_false, List.mem_filter, decide_eq_true_eq, and_imp, Bool.not_eq_true, Bool.and_eq_false_iff, Bool.not_eq_false', decide_eq_false_iff_not]
    intro g hg hc o ho
    by_cases hdone : o.done = true
    · exact .inl (.inl hdone)
    · by_cases hid : o.id < s.dev.mb.mark
      · exact .inl (.inr (h g hg hc o ho (by simpa using hdone) hid))
      · exact .inr hid
  unfold execTlbInvalDone
  rw [hd]
  exact if_neg fun k => k.elim (fun k => k hu) fun k => Bool.false_ne_true (hq.symm.trans k)

/-! ### Registers (R5, R235, R396, R397, R403) -/

/-- A write to a reserved field, logged in RSVW (R5). -/
def State.logged (s : State) : State := s.setMb fun m => { m with rsvw := true }

theorem ushiftRight_eq_zero_iff {w : Nat} (v : BitVec w) (n : Nat) : v >>> n = 0 ↔ v.toNat < 2 ^ n := by
  rw [← BitVec.toNat_inj, BitVec.toNat_ushiftRight, Nat.shiftRight_eq_div_pow]
  simp [Nat.div_eq_zero_iff]

/-- What the host reaches of BAR0 in RECOVERY (R396). -/
theorem State.reachesBar_false_iff (s : State) (off : Nat) : s.reachesBar off = false ↔ s.dev.devstate = .recovery ∧ 0x400 ≤ off ∧ off < 2 ^ 20 := by
  simp [State.reachesBar, and_assoc]

theorem execMbStatusWrite_eq (v : BitVec 64) (s : State) : execMbStatusWrite v s =
    .next (s.setMb fun m => { m with rsvw := (m.rsvw && !v.getLsbD 30) || decide (fieldOf v.toNat 16 14 ≠ 0) }) := by
  have : (v >>> 16).setWidth 14 = (0 : BitVec 14) ↔ fieldOf v.toNat 16 14 = 0 := by
    rw [← BitVec.toNat_inj, BitVec.toNat_setWidth, BitVec.toNat_ushiftRight, Nat.shiftRight_eq_div_pow]
    rfl
  simp only [execMbStatusWrite, ne_eq, this]

theorem execTflagsWrite_eq (v : BitVec 64) (s : State) :
    let u : State := s.setDev fun d => { d with power := { d.power with hot := d.power.hot && !v.getLsbD 1, overcap := d.power.overcap && !v.getLsbD 0 } }
    execTflagsWrite v s = .next (if s.dev.devstate = .recovery then s else if v.toNat < 4 then u else u.logged) := by
  intro u
  have hv : v >>> 2 = 0 ↔ v.toNat < 4 := ushiftRight_eq_zero_iff v 2
  have hr : (!s.reachesBar 0x9018) = true ↔ s.dev.devstate = .recovery := by
    rw [Bool.not_eq_true', s.reachesBar_false_iff]; simp
  unfold execTflagsWrite
  by_cases h : s.dev.devstate = .recovery
  · rw [if_pos (hr.mpr h), if_pos h]
  · rw [if_neg (mt hr.mp h), if_neg h]
    by_cases h4 : v.toNat < 4
    · simp only [if_pos h4, if_pos (hv.mpr h4)]; rfl
    · simp only [if_neg h4, if_neg (mt hv.mp h4)]; rfl

theorem execBar2Write_eq {off : Nat} (h : off < 2 ^ 19) (v : BitVec 64) (s : State) : execBar2Write off v s = .next (if v = 0 ∨ s.dev.devstate = .recovery then s else s.logged) :=
  if_neg (Nat.not_le.mpr h)

section
variable {off : Nat} (h8 : off % 8 = 0)
include h8

/-- A write of a parameter. -/
theorem execRegisterWrite_param (h0 : off ≠ 0) (h : off < 0x100) (v : BitVec 64) (s : State) :
    execRegisterWrite off v s = .next (s.setMb fun m => { m with params := splice m.params (off - 8) (leBytes v.toNat 8) }) := by
  rw [execRegisterWrite, if_neg (by omega), if_pos h]
/-- A write of the recovery window. -/
theorem execRegisterWrite_window (h : 2 ^ 20 ≤ off) (hw : off < 2 ^ 21) (v : BitVec 64) (s : State) : execRegisterWrite off v s =
    .next (if s.dev.devstate = .recovery then s.setDev fun d => { d with window := d.window.writeBytes (off - 2 ^ 20) (leBytes v.toNat 8) } else s) := by
  rw [execRegisterWrite, if_neg (by omega), if_neg (by omega), if_pos h]
/-- A write between the parameters and the window changes nothing but RSVW. -/
theorem execRegisterWrite_other (h : 0x100 < off) (hw : off < 2 ^ 20) (hf : off ≠ 0x9018) (v : BitVec 64) (s : State) : execRegisterWrite off v s =
    .next (if v &&& reservedBits off = 0 ∨ (s.dev.devstate = .recovery ∧ 0x400 ≤ off) then s else s.logged) := by
  have hr : (!s.reachesBar off) = true ↔ s.dev.devstate = .recovery ∧ 0x400 ≤ off := by
    rw [Bool.not_eq_true', s.reachesBar_false_iff]
    exact ⟨fun k => ⟨k.1, k.2.1⟩, fun k => ⟨k.1, k.2, hw⟩⟩
  rw [execRegisterWrite, if_neg (by omega), if_neg (by omega), if_neg (by omega)]
  simp only [hr]
  rfl
end

theorem and_reservedBits_none {off : Nat} (h : 0x100 < off ∧ off < 0x200 ∨ 0x400 ≤ off ∧ off < 0x8000) (v : BitVec 64) : v &&& reservedBits off = v := by
  rw [reservedBits, if_neg (by omega), if_neg (by omega)]
  exact BitVec.and_allOnes
theorem and_reservedBits_all {off : Nat} (h : 0x200 ≤ off ∧ off < 0x400 ∨ 0x9000 ≤ off ∧ off < 0x90B0) (v : BitVec 64) : v &&& reservedBits off = 0 := by
  rw [reservedBits, if_neg (by omega), if_pos (by omega)]
  exact BitVec.and_zero
theorem reservedBits_port {p : Nat} (h : p < 36) : reservedBits (0x8000 + 8 * p) = 0x001F00000000F8F8 := if_pos (by omega)

/-! ### Telemetry and heat (R402, R403) -/

/-- The failsafe stops the module at the tick of the heat; a command in progress ends with STOPPED. -/
theorem execThermalFailsafe_eq {s : State} (h : s.dev.stopped = none) : ∃ t, execThermalFailsafe s = .next t ∧
    t = { s with dev := { s.dev with stopped := some s.dev.tick, devstate := .failsafe, stopAt := none, msix := t.dev.msix, mb := t.dev.mb, power := { s.dev.power with hot := true } } } ∧
    (s.dev.mb.busy = false → t.dev.mb = s.dev.mb ∧ t.dev.msix = s.dev.msix) ∧ (s.dev.mb.busy = true → t.dev.mb.busy = false ∧ t.dev.mb.result = 6) := by
  refine ⟨_, if_neg (by simp [h]), rfl, fun hb => ?_, fun hb => ?_⟩ <;> simp [State.freeze, State.setDev, hb]

end Sys2Proof.Machine

namespace Sys2Proof.Machine
open Sys2Proof

/-- Settles O59: what refuses a command, then each command, register write and event by the lemma of its own above. -/
theorem mailboxCommands : Obligations.MailboxCommands := by
  intro s d ended started arb numbered away reset size signed version region img defects calib authentic regions booted usable all len commands
  have himg : img = d.slotImage := by
    funext n
    show d.flash.readBytes (96 * n * 2 ^ 20) _ = d.flash.readBytes (n * (96 * mebi)) _
    rw [show 96 * n * 2 ^ 20 = n * (96 * mebi) by unfold mebi; ring]
    rfl
  have hauth : authentic = fun x => Machine.authentic d.floor x = true := funext fun x => propext (authentic_iff d.floor x).symm
  have husable : usable = fun c => s.usable c = true := funext fun c => propext (s.usable_iff c).symm
  have hdef : defects = d.image defectRegion := rfl
  have hcal : calib = d.image calibRegion := rfl
  have hregions : regions ↔ d.regionErr = 0 := by
    rw [d.regionErr_zero]
    show authentic defects ∧ authentic calib ↔ _
    rw [hauth]; rfl
  have hreset : s.resetAll = reset := s.resetAll_eq away fun a => decide_eq_true_iff
  have hcommands : ∀ c ∈ commands, mbCommands.lookup c.1 = some c.2.1 ∧ ∃ f, exec c.2.1 s = s.mbox c.2.2.1 c.2.2.2 f := by
    simp only [commands, List.forall_mem_cons]
    exact ⟨⟨rfl, _, rfl⟩, ⟨rfl, _, rfl⟩, ⟨rfl, _, rfl⟩, ⟨rfl, _, rfl⟩, ⟨rfl, _, rfl⟩, ⟨rfl, _, rfl⟩, ⟨rfl, _, rfl⟩, ⟨rfl, _, rfl⟩, ⟨rfl, _, rfl⟩,
      ⟨rfl, _, rfl⟩, ⟨rfl, _, rfl⟩, ⟨rfl, _, rfl⟩, ⟨rfl, _, rfl⟩, ⟨rfl, _, rfl⟩, ⟨rfl, _, rfl⟩, ⟨rfl, _, rfl⟩, ⟨rfl, _, rfl⟩,
      ⟨rfl, _, rfl⟩, ⟨rfl, _, rfl⟩, ⟨rfl, _, rfl⟩, ⟨rfl, _, rfl⟩, ⟨rfl, _, rfl⟩, ⟨rfl, _, rfl⟩, ⟨rfl, _, rfl⟩,
      ⟨rfl, _, rfl⟩, ⟨rfl, _, rfl⟩, ⟨rfl, _, rfl⟩, ⟨rfl, _, rfl⟩, ⟨rfl, _, rfl⟩, ⟨rfl, _, rfl⟩, ⟨rfl, _, rfl⟩, ⟨rfl, _, rfl⟩,
      ⟨rfl, _, rfl⟩, ⟨rfl, _, rfl⟩, ⟨rfl, _, rfl⟩, ⟨rfl, _, rfl⟩, by simp⟩
  clear_value img authentic usable
  subst himg hauth husable
  refine ⟨?_, ?_, ?_, ?_, ?_, ?_, ?_, ?_, ?_, ?_, ?_, ?_, ?_, ?_, ?_, ?_, ?_, ?_, ?_, ?_⟩
  -- what refuses a command
  · intro op i states used hm
    obtain ⟨hl, f, hf⟩ := hcommands _ hm
    dsimp only at hl hf
    rw [hf]
    exact ⟨fun v hv => State.event_mbCmd hl hv, fun hb => State.mbox_busy hb .., fun hb hs => State.mbox_badState hb hs .., fun hb hs hj => State.mbox_badParam hb hs hj _⟩
  · intro op h0 hop
    exact execMbCmdUnlisted_eq h0 hop s
  -- identity, resets
  · intro v h
    exact ⟨h.mbox _, (h.mbox _).trans (congrArg _ hreset)⟩
  · exact congrArg _ hreset
  · intro h m
    exact h.mbox _
  -- slots and boot
  · intro h slot src off n takes first
    classical
    have hx := execSlotWrite_eq h
    refine ⟨fun hf => hx.trans (if_pos hf), fun hf => ⟨_, hx.trans (if_neg (not_not.mpr hf)), rfl, fun hc a => ?_⟩⟩
    obtain ⟨-, -, -, -, hflash⟩ := hc
    show (d.flash.writeBytes first (if src = 0 then d.window.readBytes 0 n else d.mem.readBytes src n)).read a = _
    split
    · rw [Memory.read_copied hflash, Nat.zero_add]
    · exact Memory.read_copied hflash ..
  · intro hb first
    refine ⟨fun hr => (execResetRelease_boots hb (hregions.mp hr) rfl).1, fun hr => (execResetRelease_boots hb (hregions.mp hr) rfl).2.1,
      fun hr => (execResetRelease_boots hb (hregions.mp hr) rfl).2.2, fun hr => ?_⟩
    obtain ⟨e, he, hx⟩ := execResetRelease_badRegion hb fun h => hr (hregions.mpr h)
    exact ⟨_, hx, d.regionErr_bits he⟩
  · intro h n img
    obtain ⟨hlong, hbad, hgood⟩ := execAuthRecovery_ends h (n := n) rfl
    refine ⟨hlong, hbad, fun hn ha hr => (hgood hn ha).trans ?_, fun hn ha hr => ⟨d.regionErr, (hgood hn ha).trans ?_⟩⟩
    · have hr' : s.dev.regionErr = 0 := hregions.mp hr
      simp only [State.setDev, if_pos hr']
      rfl
    · have hr' : ¬ s.dev.regionErr = 0 := fun h => hr (hregions.mpr h)
      simp only [State.setDev, if_neg hr']
      rfl
  -- power and the stop
  · intro h
    exact execPowerSet_eq h
  · intro h
    exact execPowerCap_eq h
  · intro h
    exact execTickstop_eq h
  · intro h
    exact execStopStatus_eq h
  -- settings
  · intro c k
    refine ⟨fun h hc => ?_, fun h hc => ?_, fun h hc => ?_, fun h => ?_, fun h => ?_⟩
    · exact refusals (h.mbox _) (by omega)
    · exact refusals (h.mbox _) (by omega)
    · exact refusals (h.mbox _) (by omega)
    · intro va n fits
      have hp (units f) : s.pageCmd units f = if 63 < c ∨ va % 2 ^ 16 ≠ 0 ∨ n % 2 ^ 16 ≠ 0 then .next (s.mbDone 3) else if (!s.usable c) = true then .next (s.mbDone 2)
          else .next (s.mbStart (f c (BitVec.ofNat 80 va) n) units) := h.mbox _
      have hr (units f) := refusals (hp units f) (fits := fits) (by simp only [fits]; omega)
      refine ⟨?_, fun hf hu => ⟨(hr ..).2.2 hf hu, (hr ..).2.2 hf hu, (hr ..).2.2 hf hu⟩⟩
      simp only [List.forall_mem_cons]
      exact ⟨⟨(hr ..).1, (hr ..).2.1⟩, ⟨(hr ..).1, (hr ..).2.1⟩, ⟨(hr ..).1, (hr ..).2.1⟩, by simp⟩
    · intro core x fits
      have hx : exec .pcbpSet s = if (831 < core ∧ core ≠ 0xFFFF) ∨ 7 < x.index ∨ 63 < x.ctx ∨ 0xFFF < x.qfilter ∨ 63 < s.param 6 1 ∨ 3 < x.action then .next (s.mbDone 3)
        else .next (s.mbStart (.comparator x (if core = 0xFFFF then none else some core)) (if core = 0xFFFF then arbours else [arbourOf core])) := h.mbox _
      refine ⟨fun hf => hx.trans (if_pos (by omega)), fun hf => hx.trans ((if_neg (by omega)).trans ?_)⟩
      by_cases hc : core = 0xFFFF
      · simp only [if_pos hc]; rfl
      · simp only [if_neg hc]; rfl
  -- acknowledgements
  · intro c k base unit hu hd hus
    exact ack_traceSetup_first hu hd hus
  · intro c k unit hd hu hv
    exact ack_sampling hd hu hv
  · intro unit hus done sets
    refine ⟨fun c trace hoff hm dm hd => ?_, fun c k base hd => ?_, fun c k hd => ack_last_sampling hus hd, fun n hd => ?_, fun x core hd => ack_last_comparator hus hd,
      fun x hd _ => ack_last_comparators hus hd, fun c p stamp hd => ack_last_prio hus hd, fun c va n hd => ack_last_tlbInval hus hd, fun c va n hd => ack_last_pages hus hd⟩
    · exact ack_last_ctx hus hd (fun _ _ => rfl) rfl
    · exact ack_last_ctx hus hd (fun u hu => if_pos (by rw [hu]; decide)) rfl
    · exact execDirectedCommandAck_last (t := s.setMb fun m => { m with units := [] }) hus hd rfl rfl
  · intro c va n hd hu hg
    exact execTlbInvalDone_eq hd hu hg
  -- registers, telemetry, heat
  · intro v logged
    refine ⟨execMbStatusWrite_eq v s, execTflagsWrite_eq v s, fun off h => execBar2Write_eq h v s, fun off h8 h0 => ⟨fun h => ?_, fun h hw => ?_, fun p hp he => ?_, fun h => ?_, fun h => ?_⟩⟩
    · exact execRegisterWrite_param h8 h0 h v s
    · exact execRegisterWrite_window h8 h hw v s
    · have hx := execRegisterWrite_other h8 (by omega) (by omega) (by omega) v s
      rw [he, reservedBits_port hp, ← he] at hx
      rw [exec_registerWrite, hx]
      have : 0x400 ≤ off := by omega
      simp only [this, and_true]
      rfl
    · have hx := execRegisterWrite_other h8 (by omega) (by omega) (by omega) v s
      rw [and_reservedBits_none h] at hx
      exact hx
    · have hx := execRegisterWrite_other h8 (by omega) (by omega) (by omega) v s
      rw [and_reservedBits_all (by omega), if_pos (.inl rfl)] at hx
      exact hx
  · intro mw temps high
    refine ⟨_, rfl, rfl, rfl, rfl, rfl, rfl, rfl, rfl, rfl, rfl, ?_, ?_, fun h => if_pos (decide_eq_true h), fun h => if_neg fun k => h (of_decide_eq_true k)⟩
    · show (d.power.hot || temps.any fun t => decide (100000 ≤ t)) = true ↔ _
      simp
    · show (d.power.overcap || decide (1000 * d.power.cap < mw)) = true ↔ _
      simp [high]
  · intro h
    exact execThermalFailsafe_eq h
end Sys2Proof.Machine


/-! ## Ports (R229 to R232) -/
namespace Sys2Proof.Machine
open Sys2Proof

/-- Port k.num is k, and nothing but the ports has changed. -/
def PortSet (k : Port) (s t : State) : Prop := t.port k.num = k ∧ (∀ m, m ≠ k.num → t.port m = s.port m) ∧ t = { s with dev := { s.dev with ports := t.dev.ports } }

theorem State.setPort_set (s : State) (k : Port) : PortSet k s (s.setPort k) :=
  ⟨by rw [s.port_setPort, if_pos rfl], fun m hm => by rw [s.port_setPort, if_neg hm], rfl⟩

/-- No group lists an operation that holds an access to another device. -/
def State.Quiet (s : State) : Prop := ∀ k ∈ s.allCores, ∀ g ∈ k.groups, ∀ o ∈ g.ops, o.uses = []

/-! ### What moving a port changes -/

theorem Group.map_ops_id {g : Group} {f : Op → Op} (h : ∀ o ∈ g.ops, f o = o) : { g with ops := g.ops.map f } = g := by
  rw [(List.map_congr_left (g := id) h).trans (List.map_id _)]

/-- A change of a port that keeps its usability changes no route. -/
theorem State.routePorts_setPort {s : State} {p : Port} (h : p.usable = (s.port p.num).usable) (d : Nat) : (s.setPort p).routePorts d = s.routePorts d := by
  refine List.filter_congr fun m _ => ?_
  show (_ && decide (((s.setPort p).port m).state ∈ _)) = _
  have hs (k : Port) : decide (k.state ∈ [PortState.up, .degraded]) = k.usable := by
    rw [Bool.eq_iff_iff, Port.usable_iff]; simp
  rw [hs, hs, s.port_setPort]
  split
  · next hm => rw [hm, h]; rfl
  · rfl

theorem State.movePort_quiet {s : State} (p : Port) (h : s.Quiet) : s.movePort p = s.setPort p := by
  rw [State.movePort_eq]
  refine State.mapGroups_id fun c hc g hg => Group.map_ops_id fun o ho => ?_
  have : o.uses = [] := h c hc g hg o ho
  rw [this, List.map_nil, ← this]
theorem State.movePort_routes {s : State} {p : Port} (h : p.usable = (s.port p.num).usable) : s.movePort p = s.setPort p := by
  rw [State.movePort_eq]
  refine State.mapGroups_id fun c hc g hg => Group.map_ops_id fun o ho => ?_
  have (u : RemoteUse) : { u with stale := u.stale || s.routePorts u.dev != (s.setPort p).routePorts u.dev } = u := by
    rw [State.routePorts_setPort h, bne_self_eq_false, Bool.or_false]
  simp only [this, List.map_id']

/-- A port that is not usable, or over which nothing is outstanding, is lost with nothing else changed. -/
theorem State.lose_quiet {s : State} {p : Nat} {st : PortState} (hs : st ≠ .up ∧ st ≠ .degraded) (h : ¬ ((s.port p).state = .up ∨ (s.port p).state = .degraded) ∨ s.Quiet) :
    s.lose p st = s.setPort { s.port p with state := st, lanes := 0, fails := 0 } := by
  let k : Port := { s.port p with state := st, lanes := 0, fails := 0 }
  have hk : k.usable = false := by simp [k, Port.usable, hs]
  unfold State.lose
  extract_lets k0 t
  rcases h with h | h
  · have h0 : (s.port p).usable = false := by simpa [Port.usable] using h
    have ht : t = s.setPort k := State.movePort_routes (by
      show k.usable = (s.port (s.port p).num).usable
      rw [hk, s.port_num, h0])
    rw [ht]
    exact if_neg (by simp [k0, h0])
  · have ht : t = s.setPort k := s.movePort_quiet k h
    rw [ht]
    split
    · exact State.failPort_quiet _ fun c hc g hg o ho => .inr fun x hx => by
        rw [h c hc g hg o ho] at hx; simp at hx
    · rfl

/-! ### The LINK commands -/

theorem State.portCmd_eq {s : State} (h : s.Takes [.ready] [(0, 1)]) (ok : Port → Bool) (f : Port → State) :
    s.portCmd ok f = if 35 < s.param 0 1 then .next (s.mbDone 3) else if (!ok (s.port (s.param 0 1))) = true then .next (s.mbDone 2) else .next ((f (s.port (s.param 0 1))).mbDone 0) :=
  h.mbox _

section
variable {s : State} (h : s.Takes [.ready] [(0, 1)])
include h

/-- A LINK command that one state takes: BAD_PARAM, BAD_STATE, its effect. -/
theorem portCmd_ends {st : PortState} {f : Port → State} {x : Outcome} (hx : x = s.portCmd (fun k => decide (k.state = st)) f) :
    (35 < s.param 0 1 → x = .next (s.mbDone 3)) ∧ (s.param 0 1 ≤ 35 → (s.port (s.param 0 1)).state ≠ st → x = .next (s.mbDone 2)) ∧
      (s.param 0 1 ≤ 35 → (s.port (s.param 0 1)).state = st → x = .next ((f (s.port (s.param 0 1))).mbDone 0)) := by
  rw [State.portCmd_eq h] at hx
  exact ⟨fun hp => hx.trans (if_pos hp), fun hp hk => hx.trans ((if_neg (Nat.not_lt.mpr hp)).trans (if_pos (by simpa using hk))),
    fun hp hk => hx.trans ((if_neg (Nat.not_lt.mpr hp)).trans (if_neg (by simpa using hk)))⟩

theorem execLinkFence_noPort (hp : 35 < s.param 0 1) : execLinkFence s = .next (s.mbDone 3) := (State.portCmd_eq h _ _).trans (if_pos hp)
/-- LINK_FENCE fences a port in any state (R229). -/
theorem execLinkFence_port (hp : s.param 0 1 ≤ 35) :
    let k : Port := { s.port (s.param 0 1) with state := .fenced, lanes := 0, fails := 0 }
    ∃ t, execLinkFence s = .next t ∧ t.port (s.param 0 1) = k ∧ t.dev.mb.busy = false ∧ t.dev.mb.result = 0 ∧
      ((¬ ((s.port (s.param 0 1)).state = .up ∨ (s.port (s.param 0 1)).state = .degraded) ∨ s.Quiet) → ∃ u, PortSet k s u ∧ t = u.mbDone 0) := by
  intro k
  have hx := (State.portCmd_eq h (fun _ => true) fun k => s.lose k.num .fenced).trans ((if_neg (Nat.not_lt.mpr hp)).trans (if_neg Bool.false_ne_true))
  rw [s.port_num] at hx
  refine ⟨_, hx, s.lose_port _ _, rfl, rfl, fun hq => ⟨_, s.setPort_set k, ?_⟩⟩
  rw [State.lose_quiet (by decide) hq]
end

/-! ### LINK_SETUP (R230) -/

theorem Memory.read_eq_find (m : Memory) (x : Nat) : m.read x = (m.find? fun c => decide (c.1 = x)).elim 0 Prod.snd := by
  induction m with
  | nil => rfl
  | cons c t ih =>
    obtain ⟨a, b⟩ := c
    by_cases h : a = x <;> simp [Memory.read, h, ih]

theorem Memory.le_of_mem {lo : Nat} {m : Memory} (w : m.wfFrom lo = true) {c : Host.Cell} (hc : c ∈ m) : lo ≤ c.1 := by
  induction m generalizing lo with
  | nil => cases hc
  | cons x t ih =>
    obtain ⟨a, b⟩ := x
    simp only [Memory.wfFrom, Bool.and_eq_true, decide_eq_true_eq] at w
    rcases List.mem_cons.mp hc with rfl | hc
    · exact w.1.1
    · have := ih w.2 hc
      omega

/-- The cells of one number's part of memory, written at another number: what is read there is the cell moved there, else as before. -/
theorem Memory.read_moved {lo old new o : Nat} {l m : Memory} (wl : l.wfFrom lo = true) (wm : m.wf = true) (hl : ∀ c ∈ l, c.1 / 2 ^ 42 = old) (ho : o < 2 ^ 42) :
    (l.foldl (fun (m : Memory) c => m.write (new * 2 ^ 42 + c.1 % 2 ^ 42) c.2) m).read (new * 2 ^ 42 + o)
      = (l.find? fun c => decide (c.1 = old * 2 ^ 42 + o)).elim (m.read (new * 2 ^ 42 + o)) Prod.snd := by
  induction l generalizing lo m with
  | nil => rfl
  | cons c t ih =>
    obtain ⟨a, b⟩ := c
    simp only [Memory.wfFrom, Bool.and_eq_true, decide_eq_true_eq] at wl
    obtain ⟨-, wt⟩ := wl
    have ha : a / 2 ^ 42 = old := hl (a, b) (by simp)
    rw [List.foldl_cons, ih wt (Memory.wf_write wm _ _) fun c hc => hl c (List.mem_cons_of_mem _ hc), Memory.read_write wm]
    by_cases hx : a = old * 2 ^ 42 + o
    · have hnone : t.find? (fun c => decide (c.1 = old * 2 ^ 42 + o)) = none := by
        refine List.find?_eq_none.mpr fun c hc => ?_
        have := Memory.le_of_mem wt hc
        rw [decide_eq_true_eq]
        omega
      rw [hnone, List.find?_cons_of_pos (by simpa using hx), if_pos (by omega)]
      rfl
    · have hmod : ¬ o = a % 2 ^ 42 := by omega
      rw [List.find?_cons_of_neg (by simpa using hx), if_neg (by omega)]

/-- What the module held under its number it holds under its new one. -/
theorem Memory.read_renumber {m : Memory} (w : m.wf = true) (old new : Nat) {o : Nat} (ho : o < 2 ^ 42) :
    (m.renumber old new).read (new * 2 ^ 42 + o) = m.read (old * 2 ^ 42 + o) := by
  unfold Memory.renumber
  extract_lets own
  split
  · next h => rw [h]
  · next h =>
    have hown (d a : Nat) : own d a = true ↔ a / 2 ^ 42 = d := decide_eq_true_iff
    rw [Memory.read_moved (old := old) (Memory.wfFrom_filter w _) (Memory.wf_filter w _) (fun c hc => (hown _ _).mp (List.mem_filter.mp hc).2) ho,
      Memory.read_eq_find m, List.find?_filter]
    have hlisted : (m.find? fun c => decide (own old c.1 = true ∧ decide (c.1 = old * 2 ^ 42 + o) = true)) = m.find? fun c => decide (c.1 = old * 2 ^ 42 + o) := by
      congr 1
      funext c
      simp only [hown, decide_eq_true_eq, decide_eq_decide]
      omega
    have hnew : Memory.read (m.filter fun c => !own old c.1 && !own new c.1) (new * 2 ^ 42 + o) = 0 := by
      rw [Memory.read_eq_find, List.find?_eq_none.mpr]
      · rfl
      · intro c hc
        have : ¬ c.1 / 2 ^ 42 = new := by
          have := (List.mem_filter.mp hc).2
          rw [Bool.and_eq_true, Bool.not_eq_true', Bool.not_eq_true', Bool.eq_false_iff, ne_eq, Bool.eq_false_iff, ne_eq, hown, hown] at this
          exact this.2
        simp only [decide_eq_true_eq]
        omega
    rw [hnew, hlisted]

/-- The routing table that bytes hold: for each device the 36 bits of its ports. -/
def routesOf (m : Memory) (a : Nat) : List (BitVec 64) := (List.range 1152).map fun d => BitVec.ofNat 64 (byteField (m.readBytes a 9216) (8 * d) 8 % 2 ^ 36)
theorem routesOf_getD (m : Memory) (a : Nat) {n : Nat} (h : n < 1152) : (routesOf m a).getD n 0 = BitVec.ofNat 64 (leNat (m.readBytes (a + 8 * n) 8) % 2 ^ 36) := by
  have hl : n < (routesOf m a).length := by simpa [routesOf] using h
  rw [List.getD_eq_getElem _ _ hl]
  simp only [routesOf, List.getElem_map, List.getElem_range, byteField]
  rw [Memory.readBytes_part _ _ _ _ _ (by omega)]

/-- What LINK_SETUP asks of its parameters: a device number, and a table of 9,216 bytes that the module reaches. -/
def State.setupFits (s : State) : Prop :=
  s.param 0 2 ≤ 1151 ∧ s.param 8 8 % 64 = 0 ∧ s.param 8 8 + 9216 ≤ 2 ^ 56 ∧ ∀ x ∈ [s.param 8 8, s.param 8 8 + 9215], s.place x = .local ∨ s.place x = .host
def State.portsDown (s : State) : Prop := ∀ p < 36, (s.port p).state = .down ∨ (s.port p).state = .fenced

theorem State.inReach_iff (s : State) (a n : Nat) : s.inReach a n = true ↔ a + n ≤ 2 ^ 56 ∧ ∀ x ∈ [a, a + n - 1], s.place x = .local ∨ s.place x = .host := by
  simp only [State.inReach, Bool.and_eq_true, decide_eq_true_eq, List.all_eq_true]
  refine and_congr Iff.rfl (forall₂_congr fun x _ => ?_)
  cases s.place x <;> simp

theorem execLinkSetup_eq {s : State} (h : s.Takes [.ready] [(0, 2), (8, 8)]) [Decidable s.setupFits] [Decidable s.portsDown] :
    execLinkSetup s = if ¬ s.setupFits then .next (s.mbDone 3) else if ¬ s.portsDown then .next (s.mbDone 2) else .next ((s.setDev fun d => { d with
        routes := routesOf s.mem (s.param 8 8)
        devnum := s.param 0 2, mem := d.mem.renumber d.devnum (s.param 0 2)
        poison := d.poison.map fun a => if a / 2 ^ 42 = d.devnum then s.param 0 2 * 2 ^ 42 + a % 2 ^ 42 else a }).mbDone 0) := by
  rw [execLinkSetup, h.mbox]
  dsimp only
  refine if_congr ?_ rfl (if_congr ?_ rfl rfl)
  · have hr : s.inReach (s.param 8 8) 9216 = true ↔ _ := s.inReach_iff (s.param 8 8) 9216
    rw [← not_iff_not, not_not]
    simp only [not_or, Nat.not_lt, ne_eq, not_not, Bool.not_eq_true', Bool.not_eq_false, hr]
    rfl
  · rw [← not_iff_not, not_not, Bool.not_eq_true, List.any_eq_false]
    simp [State.portsDown, or_iff_not_imp_left]

/-! ### Training (R229, R232) -/

section
variable {s : State} {p : Nat} (hp : p ≤ 35)
include hp

theorem execLinkTrainingStart_eq (hk : (s.port p).state = .down) : execLinkTrainingStart p s = .next (s.train (s.port p)) :=
  if_neg (by simp [hk, hp])
theorem execLinkTrainingTimeout_eq (hk : (s.port p).state = .training) : execLinkTrainingTimeout p s = .next (s.setPort { s.port p with state := .down, lanes := 0 }) :=
  if_neg (by simp [hk, hp])
theorem execLinkLaneLost_eq {lanes : Nat} (hk : (s.port p).state = .up) (h2 : 2 ≤ lanes) (h3 : lanes ≤ 3) :
    execLinkLaneLost p lanes s = .next (s.setPort { s.port p with state := .degraded, lanes }) :=
  if_neg (by simp [hk]; omega)
theorem execFlitCrcError_replay (hk : (s.port p).usable = true) (hf : (s.port p).fails < 7) :
    execFlitCrcError p s = .next (s.setPort { s.port p with fails := (s.port p).fails + 1, replays := min 65535 ((s.port p).replays + 1) }) :=
  (if_neg (by simp [hk, hp])).trans (if_neg (Nat.not_le.mpr hf))
theorem execFlitCrcError_lose (hk : (s.port p).usable = true) (hf : 7 ≤ (s.port p).fails) : execFlitCrcError p s = .next (s.lose p .down) :=
  (if_neg (by simp [hk, hp])).trans (if_pos hf)
theorem execLinkDown_eq (hk : (s.port p).usable = true) : execLinkDown p s = .next (s.lose p .down) :=
  if_neg (by simp [hk, hp])
end

/-! ### Generations (R73, R232) -/

/-- A generation put is held, and no other of its device and queue is. -/
theorem mem_putGeneration {l : List Generation} {g x : Generation} : x ∈ putGeneration l g ↔ x = g ∨ (x ∈ l ∧ ¬ (x.dev = g.dev ∧ x.queue = g.queue)) := by
  simp [putGeneration, List.mem_filter, imp_iff_not_or]
theorem putGeneration_only {l : List Generation} {g : Generation} : g ∈ putGeneration l g ∧ ∀ x ∈ putGeneration l g, x.dev = g.dev → x.queue = g.queue → x.gen = g.gen :=
  ⟨mem_putGeneration.mpr (.inl rfl), fun _ hx hd hq => (mem_putGeneration.mp hx).elim (fun h => h ▸ rfl) fun h => absurd ⟨hd, hq⟩ h.2⟩

/-- An acknowledgement where no command waits at the Saltern. -/
theorem execGenerationNoticeAck_eq {s : State} {g : Generation} (hg : g ∈ s.dev.gensSent) :
    execGenerationNoticeAck g.dev g.queue g.gen s = .next (s.acknowledge g).drainSalt :=
  if_neg (by simpa using hg)

/-! ### Operations from other devices (R73, R162) -/

section
variable {s : State} {src q : Nat} {gen : BitVec 8} {addr : BitVec 56} {op : RemoteOp} (ha : s.place addr.toNat = .local)
include ha

theorem execRemoteOpArrive_dropped (hg : (⟨src, q, gen⟩ : Generation) ∉ s.dev.gensIn) : execRemoteOpArrive src q gen addr op s = .next s := by
  unfold execRemoteOpArrive
  cases op <;> simp [ha, hg, State.remoteOp]
theorem execRemoteOpArrive_load {n : Nat} (ho : op = .load n) : execRemoteOpArrive src q gen addr op s = .next s := by
  subst ho
  simp [execRemoteOpArrive, ha, State.remoteOp]
theorem execRemoteOpArrive_given (hg : (⟨src, q, gen⟩ : Generation) ∈ s.dev.gensIn) : execRemoteOpArrive src q gen addr op s = .next (s.remoteOp addr.toNat op) := by
  unfold execRemoteOpArrive
  cases op <;> simp [ha, hg]
end

theorem State.poisonedAt_part {s : State} {a n m : Nat} (h : s.poisonedAt a n = false) (hm : m ≤ n) : s.poisonedAt a m = false := by
  simp only [State.poisonedAt, List.any_eq_false, Bool.and_eq_true, decide_eq_true_eq, not_and] at h ⊢
  intro p hp ha
  have := h p hp ha
  omega

/-- What a remote operation on data that is not poisoned stores. -/
theorem State.remoteOp_stores {s : State} {a : Nat} (hp : s.poisonedAt a 8 = false) :
    (∀ o wide v, s.remoteOp a (.atomic o wide v) = s.store a (let n := if wide then 8 else 4; leBytes (atomStep n o.toNat v (BitVec.ofNat 64 (leNat (s.mem.readBytes a n)))).toNat n)) ∧
    (∀ wide e v, s.remoteOp a (.cas wide e v) = s.store a (let n := if wide then 8 else 4; leBytes (casStep n e v (BitVec.ofNat 64 (leNat (s.mem.readBytes a n)))).toNat n)) ∧
    ∀ add v, s.remoteOp a (.signal add v) = s.store a (leBytes (if add then BitVec.ofNat 64 (leNat (s.mem.readBytes a 8)) + v else v).toNat 8) := by
  have hn (wide : Bool) : s.poisonedAt a (if wide = true then 8 else 4) = false := s.poisonedAt_part hp (by split <;> omega)
  exact ⟨fun o wide v => by simp only [State.remoteOp, hn, Bool.false_eq_true, if_false], fun wide e v => by simp only [State.remoteOp, hn, Bool.false_eq_true, if_false],
    fun add v => by simp only [State.remoteOp, hp, Bool.false_eq_true, if_false]⟩

end Sys2Proof.Machine


/-! ## A port that becomes usable or is lost (R230 to R232) -/
namespace Sys2Proof.Machine
open Sys2Proof

/-! ### What is outstanding where routes change (R230) -/

/-- An operation with its accesses towards the devices marked whose usable ports differ in two states. -/
def Op.marked (s t : State) (o : Op) : Op := { o with uses := o.uses.map fun x => { x with stale := x.stale || decide (s.routePorts x.dev ≠ t.routePorts x.dev) } }

theorem State.routePorts_congr {s t : State} (hp : t.dev.ports = s.dev.ports) (hr : t.dev.routes = s.dev.routes) : t.routePorts = s.routePorts := by
  funext d
  have h (p : Nat) : t.port p = s.port p := by rw [State.port, State.port, hp]
  simp only [State.routePorts, h, hr]

def Group.marked (s t : State) (g : Group) : Group := { g with ops := g.ops.map (Op.marked s t) }

theorem Group.marked_congr {r s t u : State} (hs : r.routePorts = s.routePorts) (h : t.routePorts = u.routePorts) : Group.marked r t = Group.marked s u := by
  unfold Group.marked Op.marked
  rw [hs, h]

theorem State.movePort_map (s : State) (p : Port) : s.movePort p = (s.setPort p).mapGroups (Group.marked s (s.setPort p)) := by
  rw [State.movePort_eq]
  congr 1
  funext g
  unfold Group.marked
  congr 2
  funext o
  simp only [Op.marked, bne, beq_eq_decide, ne_eq, decide_not]
theorem State.movePort_dev (s : State) (p : Port) : (s.movePort p).dev = (s.setPort p).dev := by
  rw [State.movePort_map, State.mapGroups_dev]
theorem State.movePort_routePorts (s : State) (p : Port) : (s.movePort p).routePorts = (s.setPort p).routePorts :=
  State.routePorts_congr (by rw [s.movePort_dev]) (by rw [s.movePort_dev])
/-- The group in front after a port has moved. -/
theorem State.movePort_front (s : State) (p : Port) : (s.movePort p).ent = s.ent ∧ (s.movePort p).grp = s.grp.marked s (s.movePort p) := by
  have hm : Group.marked s (s.movePort p) = Group.marked s (s.setPort p) := Group.marked_congr rfl (s.movePort_routePorts p)
  rw [hm, State.movePort_map, State.mapGroups_front (s := s.setPort p) (f := Group.marked s (s.setPort p)) (e := s.ent) (r := s.grp.sibs) rfl rfl]
  exact ⟨rfl, rfl⟩

/-! ### The generation exchange (R232) -/

/-- What acknowledgements change: what is sent and what is acknowledged. -/
def AcksOnly (s t : State) : Prop := t = { s with dev := { s.dev with gensSent := t.dev.gensSent, gensAck := t.dev.gensAck } }

theorem State.acknowledge_keeps (peer : Nat) (l : List (Nat × BitVec 8)) (s : State) : AcksOnly s (l.foldl (fun s r => s.acknowledge ⟨peer, r.1, r.2⟩) s) := by
  induction l generalizing s with
  | nil => rfl
  | cons r t ih =>
    have h := ih (s.acknowledge ⟨peer, r.1, r.2⟩)
    rw [List.foldl_cons]
    unfold AcksOnly at h ⊢
    rw [h]
    rfl

/-- Training completes where no command waits at the Saltern. -/
theorem execLinkTrained_eq {s : State} {p lanes peer : Nat} (hp : p ≤ 35) (hk : (s.port p).state = .training) (h2 : 2 ≤ lanes) (h4 : lanes ≤ 4) (hd : peer ≤ 1151) :
    let k := s.port p
    let y : Port := { k with state := if lanes = 4 then .up else .degraded, lanes, peer, resets := [], theirs := [], fails := 0 }
    ∃ u : State, execLinkTrained p lanes peer s = .next (u.movePort y).drainSalt ∧ u = { s with dev := { s.dev with gensSent := u.dev.gensSent, gensAck := u.dev.gensAck, gensIn := u.dev.gensIn } } ∧
      u.dev.gensIn = k.theirs.foldl (fun l r => putGeneration l ⟨peer, r.1, r.2⟩) s.dev.gensIn ∧
      (k.resets = [] → u.dev.gensAck = s.dev.gensAck ∧ u.dev.gensSent = s.dev.gensSent) ∧
      ∀ q g, k.resets = [(q, g)] → u.dev.gensAck = putGeneration s.dev.gensAck ⟨peer, q, g⟩ := by
  intro k y
  let v : State := k.resets.foldl (fun s r => s.acknowledge ⟨peer, r.1, r.2⟩) s
  let gensIn : List Generation := k.theirs.foldl (fun l r => putGeneration l ⟨peer, r.1, r.2⟩) v.dev.gensIn
  have hv : v = _ := State.acknowledge_keeps peer k.resets s
  refine ⟨v.setDev fun d => { d with gensIn }, if_neg (by simp [hk]; omega), ?_, ?_, fun h => ?_, fun q g h => ?_⟩
  · rw [hv]; rfl
  · show k.theirs.foldl _ v.dev.gensIn = _
    rw [hv]
  · simp only [v, h]; exact ⟨rfl, rfl⟩
  · simp only [v, h]; rfl

/-- Training completes (R229, R230, R232): the port, the routes that change, the generations of both ends. -/
theorem execLinkTrained_done {s : State} {p lanes peer : Nat} (hp : p ≤ 35) (hk : (s.port p).state = .training) (h2 : 2 ≤ lanes) (h4 : lanes ≤ 4) (hd : peer ≤ 1151) :
    let k := s.port p
    let y : Port := { k with state := if lanes = 4 then .up else .degraded, lanes, peer, resets := [], theirs := [], fails := 0 }
    ∃ t : State, execLinkTrained p lanes peer s = .next t ∧ (s.dev.salt = [] → t.port p = y ∧ (∀ m, m ≠ p → t.port m = s.port m) ∧ t.grp.ops = s.grp.ops.map (Op.marked s t) ∧
      (k.theirs = [] → t.dev.gensIn = s.dev.gensIn) ∧
      (∀ q g, k.theirs = [(q, g)] → (⟨peer, q, g⟩ : Generation) ∈ t.dev.gensIn ∧ ∀ x ∈ t.dev.gensIn, x.dev = peer → x.queue = q → x.gen = g) ∧
      (k.resets = [] → t.dev.gensAck = s.dev.gensAck ∧ t.dev.gensSent = s.dev.gensSent) ∧
      ∀ q g, k.resets = [(q, g)] → (⟨peer, q, g⟩ : Generation) ∈ t.dev.gensAck ∧ ∀ x ∈ t.dev.gensAck, x.dev = peer → x.queue = q → x.gen = g) := by
  intro k y
  obtain ⟨u, hx, hu, hin, hack0, hack⟩ := execLinkTrained_eq hp hk h2 h4 hd
  refine ⟨_, hx, fun hs => ?_⟩
  have hdev := u.movePort_dev y
  have hsalt : (u.movePort y).dev.salt = [] := by rw [hdev, hu]; exact hs
  have hgin : (u.movePort y).dev.gensIn = u.dev.gensIn := by rw [hdev]; rfl
  have hgack : (u.movePort y).dev.gensAck = u.dev.gensAck := by rw [hdev]; rfl
  have hgsent : (u.movePort y).dev.gensSent = u.dev.gensSent := by rw [hdev]; rfl
  have hport (m : Nat) : (u.movePort y).port m = if m = p then y else s.port m := by
    rw [u.movePort_port, u.port_setPort, show y.num = p from s.port_num p]
    congr 1
    rw [hu]; rfl
  have hroutes : u.routePorts = s.routePorts := State.routePorts_congr (by rw [hu]) (by rw [hu])
  rw [State.drainSalt_nil hsalt, hgin, hgack, hgsent]
  refine ⟨by rw [hport, if_pos rfl], fun m hm => by rw [hport, if_neg hm], ?_, fun h => ?_, fun q g h => ?_, hack0, fun q g h => ?_⟩
  · have hgrp : u.grp = s.grp := by rw [hu]
    rw [(u.movePort_front y).2, hgrp, Group.marked_congr hroutes rfl]
    rfl
  · rw [hin, h]; rfl
  · rw [hin, h]; exact putGeneration_only
  · rw [hack q g h]; exact putGeneration_only

end Sys2Proof.Machine


/-! ## What a lost port takes with it (R231) -/
namespace Sys2Proof.Machine
open Sys2Proof

/-! ### Groups after a map -/

/-- A map that keeps each group's state and the front entity in front maps the list of all groups. -/
theorem State.allGroups_mapGroups {s : State} {f : Group → Group} {e : Entity} {r : List Entity} (hg : ∀ g, (f g).gstate = g.gstate)
    (h : (f s.stowGroup).sibs = e :: r) (he : e.num = s.ent.num) : (s.mapGroups f).allGroups = s.allGroups.map f := by
  have hstow : ({ f s.stowGroup with sibs := e :: r } : Group) = f s.stowGroup := by rw [← h]
  have hcores : (s.mapGroups f).allCores.flatMap Core.groups = (s.allCores.flatMap Core.groups).map f := by
    rw [State.mapGroups_front h he]
    show ({ f s.stowGroup with sibs := e :: r } : Group) :: (s.core.groups.map f) ++ (s.cores.map fun (k : Core) => { k with groups := k.groups.map f }).flatMap Core.groups = (s.stowGroup :: s.core.groups ++ s.cores.flatMap Core.groups).map f
    rw [hstow, List.flatMap_map, List.map_append, List.map_flatMap, List.map_cons]
  unfold State.allGroups
  rw [hcores, List.filter_map]
  congr 2
  funext g
  simp only [Function.comp, hg]

/-! ### A failed port at the group in front -/

theorem map_failOn_of_none {p : Nat} {l : List Op} (h : (l.any fun o => o.onPort p) = false) : l.map (fun o => if o.onPort p then o.failOn p else o) = l := by
  refine (List.map_congr_left (g := id) fun o ho => ?_).trans (List.map_id _)
  exact if_neg (List.any_eq_false.mp h o ho)

/-- What is outstanding on a port fails at the group in front, and its front entity takes the traps of its own. -/
theorem State.failPort_front (s : State) (p code : Nat) : (s.failPort p code).grp.ops = s.grp.ops.map (fun o => if o.onPort p then o.failOn p else o) ∧
    (s.failPort p code).ent.deferred = s.ent.deferred ++ (s.grp.ops.filter fun o => o.onPort p && o.ent = s.ent.num).map (Op.portTrap p) := by
  obtain ⟨u, hu, h⟩ := s.failPort_eq p code
  have hent : u.ent = s.ent := by rw [hu]
  have hgrp : u.grp = s.grp := by rw [hu]
  have hops : u.stowGroup.ops = s.grp.ops := by rw [State.stowGroup, hgrp]
  rw [h]
  by_cases ha : (s.grp.ops.any fun o => o.onPort p) = true
  · have hf : (if u.stowGroup.ops.any fun o => o.onPort p then u.stowGroup.failPort p else u.stowGroup) = u.stowGroup.failPort p := if_pos (by rw [hops]; exact ha)
    rw [State.mapGroups_front (e := { u.ent with deferred := u.ent.deferred ++ (u.stowGroup.ops.filter fun o => o.onPort p && o.ent = u.ent.num).map (Op.portTrap p) })
      (r := _) (by rw [hf]; rfl) rfl, hf]
    rw [← hent, ← hgrp]
    exact ⟨rfl, rfl⟩
  · have ha' : (s.grp.ops.any fun o => o.onPort p) = false := by simpa using ha
    have hf : (if u.stowGroup.ops.any fun o => o.onPort p then u.stowGroup.failPort p else u.stowGroup) = u.stowGroup := if_neg (by rw [hops]; exact ha)
    have hnone : (s.grp.ops.filter fun o => o.onPort p && o.ent = s.ent.num) = [] :=
      List.filter_eq_nil_iff.mpr fun o ho => by simp [List.any_eq_false.mp ha' o ho]
    rw [State.mapGroups_front (e := u.ent) (r := u.grp.sibs) (by rw [hf]; rfl) rfl, hf, map_failOn_of_none ha', hnone, List.map_nil, List.append_nil, ← hent, ← hgrp]
    exact ⟨rfl, rfl⟩

/-! ### The record of a failed operation -/

/-- The memory after a record depends on memory, the contexts and the tick. -/
theorem State.record_mem_congr {s t : State} (hm : t.dev.mem = s.dev.mem) (hc : t.dev.ctxs = s.dev.ctxs) (ht : t.dev.tick = s.dev.tick) (c : Nat) (r : Rec) :
    (t.record c r).dev.mem = (s.record c r).dev.mem := by
  have hctx : t.ctx c = s.ctx c := by rw [State.ctx, State.ctx, hc]
  unfold State.record State.mem
  rw [hctx, hm, ht]
  dsimp only
  split
  · exact hm
  · split <;> simp [State.setCtx, hm]

/-- The trap of an operation with one access. -/
theorem Op.portTrap_single {p : Nat} {o : Op} {x : RemoteUse} (hu : o.uses = [x]) (hp : x.port = p) :
    o.portTrap p = { code := .accessFault, fault := x.addr.setWidth 32, addr := x.addr, lanes := (1 : Mask) <<< x.lane, data := BitVec.ofNat 32 (0x600 + p) } := by
  have hb : (o.uses.filter fun u => u.port = p) = [x] := by simp [hu, hp]
  have hm : laneMask (fun i => decide (x.lane = i)) 64 = (1 : Mask) <<< x.lane := by
    refine BitVec.eq_of_getLsbD_eq fun k hk => ?_
    rw [getLsbD_laneMask _ _ _ hk]
    rw [Bool.eq_iff_iff]
    simp [hk]
    omega
  simp only [Op.portTrap, hb]
  simp [hm]

/-- The record of an operation of a group that fails on a port. -/
def State.portRec (s : State) (g : Group) (o : Op) (p code : Nat) : Rec :=
  { kind := 6, code, addr := (o.portTrap p).addr, detail := (o.portTrap p).data, lanes := (o.portTrap p).lanes, launch := (s.teamOf g.team).launch
    queue := (s.teamOf g.team).queue, core := g.loc.core, part := g.loc.part }

theorem State.failPort_mem {s : State} {p code : Nat} {g : Group} {o : Op} (hg : (s.allGroups.filter fun g => g.ops.any fun o => o.onPort p) = [g])
    (ho : (g.ops.filter fun o => o.onPort p) = [o]) : (s.failPort p code).dev.mem = (s.record (s.teamOf g.team).ctx (s.portRec g o p code)).dev.mem := by
  unfold State.failPort
  dsimp only
  rw [State.mapGroups_dev, hg, List.foldl_cons, List.foldl_nil, ho, List.foldl_cons, List.foldl_nil]
  rfl

/-! ### A port that is lost -/

section
variable {s : State} {p : Nat}

/-- The port lost, with its accesses marked; before any of them has failed. -/
def State.lostPort (s : State) (p : Nat) : State := s.movePort { s.port p with state := .down, lanes := 0, fails := 0 }

theorem State.lose_eq (hk : (s.port p).usable = true) : s.lose p .down = (s.lostPort p).failPort p 1 := by
  unfold State.lose
  dsimp only
  rw [if_pos hk]
  rfl

theorem Op.onPort_iff (o : Op) : o.onPort p = true ↔ o.done = false ∧ ∃ x ∈ o.uses, x.port = p := by
  simp [Op.onPort]
theorem Op.onPort_marked (t : State) (o : Op) : (o.marked s t).onPort p = o.onPort p := by
  simp [Op.onPort, Op.marked, List.any_map, Function.comp_def]

theorem State.lose_routePorts : (s.lose p .down).routePorts = (s.lostPort p).routePorts := by
  unfold State.lose
  dsimp only
  split
  · obtain ⟨u, hu, h⟩ := State.failPort_eq (s.lostPort p) p 1
    show ((s.lostPort p).failPort p 1).routePorts = _
    rw [h]
    exact State.routePorts_congr (by rw [State.mapGroups_dev, hu]) (by rw [State.mapGroups_dev, hu])
  · rfl

/-- The lanes of an operation's accesses on a port. -/
theorem Op.lanes_contains (o : Op) (i : Nat) : ((o.uses.filter fun u => u.port = p).map RemoteUse.lane).contains i = o.uses.any fun x => x.port = p && x.lane = i := by
  rw [Bool.eq_iff_iff]
  simp [List.mem_filter, and_assoc]

/-- What a failed operation has left, its accesses marked. -/
theorem Op.failOn_marked (t : State) (o : Op) : (o.marked s t).failOn p = { o with
    fills := o.fills.map fun f => match f.dest with
      | .q i _ => if o.uses.any fun x => x.port = p && x.lane = i then { f with val := 0 } else f
      | .v i _ => if o.uses.any fun x => x.port = p && x.lane = i then { f with val := 0 } else f
      | _ => { f with val := 0 }
    todo := o.todo.filter fun a => !(o.uses.any fun x => x.port = p && x.lane = a.lane)
    uses := (o.marked s t).uses.filter fun x => x.port != p } := by
  have hl (i : Nat) : (((o.marked s t).uses.filter fun u => u.port = p).map RemoteUse.lane).contains i = o.uses.any fun x => x.port = p && x.lane = i := by
    rw [Op.lanes_contains]
    simp [Op.marked, List.any_map, Function.comp_def]
  unfold Op.failOn
  simp only [hl]
  congr 1
  · refine List.map_congr_left fun f _ => ?_
    cases f.dest <;> rfl

/-- The operations of the group in front after the loss. -/
theorem State.lose_ops (hk : (s.port p).usable = true) : (s.lose p .down).grp.ops = s.grp.ops.map fun o =>
    if o.onPort p = true then (o.marked s (s.lose p .down)).failOn p else o.marked s (s.lose p .down) := by
  have hm : Op.marked s (s.lose p .down) = Op.marked s (s.lostPort p) := by
    funext o; simp only [Op.marked, State.lose_routePorts]
  have hg : (s.lostPort p).grp.ops = s.grp.ops.map (Op.marked s (s.lostPort p)) := by
    rw [State.lostPort, (s.movePort_front _).2]; rfl
  rw [hm, State.lose_eq hk, ((s.lostPort p).failPort_front p 1).1, hg, List.map_map]
  refine List.map_congr_left fun o _ => ?_
  simp only [Function.comp, Op.onPort_marked]

variable {o : Op} {x : RemoteUse} (hu : o.uses = [x]) (hx : x.port = p)
include hu hx

theorem Op.onPort_single : o.onPort p = !o.done := by
  simp [Op.onPort, hu, hx]
theorem Op.portTrap_marked (t : State) : (o.marked s t).portTrap p =
    { code := .accessFault, fault := x.addr.setWidth 32, addr := x.addr, lanes := (1 : Mask) <<< x.lane, data := BitVec.ofNat 32 (0x600 + p) } := by
  have hm : (o.marked s t).uses = [{ x with stale := x.stale || decide (s.routePorts x.dev ≠ t.routePorts x.dev) }] := by
    rw [Op.marked, hu]; rfl
  rw [Op.portTrap_single hm hx]

/-- The trap that the front entity takes at its next boundary (R231). -/
theorem State.lose_deferred (hk : (s.port p).usable = true) (ho : s.grp.ops = [o]) (hd : o.done = false) (he : o.ent = s.ent.num) : (s.lose p .down).ent.deferred = s.ent.deferred ++
    [{ code := .accessFault, fault := x.addr.setWidth 32, addr := x.addr, lanes := (1 : Mask) <<< x.lane, data := BitVec.ofNat 32 (0x600 + p) }] := by
  obtain ⟨hent, hgrp⟩ := s.movePort_front { s.port p with state := .down, lanes := 0, fails := 0 }
  have hops : (s.lostPort p).grp.ops = [o.marked s (s.lostPort p)] := by
    rw [State.lostPort, hgrp, Group.marked, ho]; rfl
  have hon : (o.marked s (s.lostPort p)).onPort p = true := by
    rw [Op.onPort_marked, Op.onPort_single hu hx, hd]; rfl
  have hent' : (s.lostPort p).ent = s.ent := hent
  have hown : (o.marked s (s.lostPort p)).ent = s.ent.num := he
  rw [State.lose_eq hk, ((s.lostPort p).failPort_front p 1).2, hops, hent', List.filter_singleton, hon, decide_eq_true hown]
  exact congrArg (fun t => s.ent.deferred ++ [t]) (Op.portTrap_marked hu hx _)

/-- The record of the operation, where it is the only one on the port (R231). -/
theorem State.lose_mem (hk : (s.port p).usable = true) (ho : s.grp.ops = [o]) (hg : (s.allGroups.filter fun g => g.ops.any fun o => o.onPort p) = [s.stowGroup]) :
    let m := s.teamOf s.grp.team
    (s.lose p .down).dev.mem = (s.record m.ctx { kind := 6, code := 1, addr := x.addr, detail := BitVec.ofNat 32 (0x600 + p), lanes := (1 : Mask) <<< x.lane, launch := m.launch, queue := m.queue, core := s.grp.loc.core, part := s.grp.loc.part }).dev.mem := by
  intro m
  have hd : o.onPort p = true := by
    have := (List.mem_filter.mp (hg ▸ List.mem_singleton_self s.stowGroup)).2
    simpa [State.stowGroup, ho] using this
  let t := s.lostPort p
  let f := Group.marked s (s.setPort { s.port p with state := .down, lanes := 0, fails := 0 })
  have ht : t = (s.setPort { s.port p with state := .down, lanes := 0, fails := 0 }).mapGroups f := State.movePort_map ..
  have hall : t.allGroups = s.allGroups.map f := by
    rw [ht]
    exact State.allGroups_mapGroups (f := f) (e := s.ent) (r := s.grp.sibs) (fun _ => rfl) rfl rfl
  have hany (g : Group) : ((f g).ops.any fun o => o.onPort p) = g.ops.any fun o => o.onPort p := by
    simp only [f, Group.marked, List.any_map, Function.comp_def, Op.onPort_marked]
  have hone : (t.allGroups.filter fun g => g.ops.any fun o => o.onPort p) = [f s.stowGroup] := by
    rw [hall, List.filter_map]
    simp only [Function.comp_def, hany, hg]
    rfl
  have hops : ((f s.stowGroup).ops.filter fun o => o.onPort p) = [o.marked s (s.setPort { s.port p with state := .down, lanes := 0, fails := 0 })] := by
    simp only [f, Group.marked, State.stowGroup, ho, List.map_cons, List.map_nil, List.filter_singleton, Op.onPort_marked, hd, cond_true]
  have hdev : t.dev = (s.setPort { s.port p with state := .down, lanes := 0, fails := 0 }).dev := s.movePort_dev _
  have hteam (n : Nat) : t.teamOf n = s.teamOf n := by
    simp only [State.teamOf, State.allTeams, State.mapGroups_dev, ht, State.mapGroups_team, State.mapGroups_teams]
    rfl
  rw [State.lose_eq hk, State.failPort_mem hone hops, State.record_mem_congr (s := s) (by rw [hdev]; rfl) (by rw [hdev]; rfl) (by rw [hdev]; rfl)]
  simp only [State.portRec, Op.portTrap_marked hu hx, hteam]
  rfl

end

end Sys2Proof.Machine


/-! ## What the host reads (R5, R44, R55, R228, R235, R396) -/
namespace Sys2Proof.Machine
open Sys2Proof

/-! ### Fields side by side -/

/-- A number of at most m bits. Stated apart, since the powers of two of these images are not to be evaluated. -/
def Below (x m : Nat) : Prop := x < 2 ^ m

/-- A field above a number that ends below it. -/
theorem bitsAt_add_below {x lo k m r : Nat} (hr : Below r lo) (h : lo + k ≤ m) : Below (bitsAt x lo k + r) m := by
  have hx : x % 2 ^ k + 1 ≤ 2 ^ k := Nat.mod_lt _ (Nat.two_pow_pos k)
  calc bitsAt x lo k + r < x % 2 ^ k * 2 ^ lo + 2 ^ lo := Nat.add_lt_add_left hr _
    _ = (x % 2 ^ k + 1) * 2 ^ lo := by ring
    _ ≤ 2 ^ k * 2 ^ lo := Nat.mul_le_mul_right _ hx
    _ = 2 ^ (lo + k) := by rw [Nat.pow_add, Nat.mul_comm]
    _ ≤ 2 ^ m := Nat.pow_le_pow_right (by omega) h

/-- A field above what is read. -/
theorem fieldOf_skip {x lo k l w r : Nat} (h : l + w ≤ lo) : fieldOf (bitsAt x lo k + r) l w = fieldOf r l w := by
  obtain ⟨j, rfl⟩ := Nat.exists_eq_add_of_le h
  have : bitsAt x (l + w + j) k = 2 ^ l * (2 ^ w * (x % 2 ^ k * 2 ^ j)) := by
    unfold bitsAt; rw [Nat.pow_add, Nat.pow_add]; ring
  unfold fieldOf
  rw [this, Nat.mul_add_div (Nat.two_pow_pos l), Nat.mul_add_mod]
/-- The field that is read, over what ends below it. -/
theorem fieldOf_here {x lo k w r : Nat} (hr : Below r lo) (hk : k ≤ w) : fieldOf (bitsAt x lo k + r) lo w = x % 2 ^ k := by
  have hx : x % 2 ^ k < 2 ^ w := lt_of_lt_of_le (Nat.mod_lt _ (Nat.two_pow_pos k)) (Nat.pow_le_pow_right (by omega) hk)
  unfold fieldOf bitsAt
  rw [Nat.mul_comm, Nat.mul_add_div (Nat.two_pow_pos lo), Nat.div_eq_of_lt hr, Nat.add_zero, Nat.mod_eq_of_lt hx]

/-- Fields one over another, the highest first, as (value, lowest bit, width). -/
def stack : List (Nat × Nat × Nat) → Nat
  | [] => 0
  | (x, lo, k) :: t => bitsAt x lo k + stack t
/-- Each field ends below the one over it, and the highest below bit m. -/
def Stacked : Nat → List (Nat × Nat × Nat) → Prop
  | _, [] => True
  | m, (_, lo, k) :: t => lo + k ≤ m ∧ Stacked lo t

theorem stack_below {m : Nat} {l : List (Nat × Nat × Nat)} (h : Stacked m l) : Below (stack l) m := by
  induction l generalizing m with
  | nil => exact Nat.two_pow_pos m
  | cons y t ih =>
    obtain ⟨x, lo, k⟩ := y
    exact bitsAt_add_below (ih h.2) h.1
/-- A field read with as many bits above it as no other field has. -/
theorem fieldOf_stack {l : List (Nat × Nat × Nat)} (i : Nat) {m x lo k w : Nat} (h : Stacked m l) (hi : l[i]? = some (x, lo, k)) (hk : k ≤ w) (hw : ∀ y ∈ l.take i, lo + w ≤ y.2.1) :
    fieldOf (stack l) lo w = x % 2 ^ k := by
  induction l generalizing m i with
  | nil => simp at hi
  | cons y t ih =>
    cases i with
    | zero =>
      cases (Option.some.inj hi : y = _)
      exact fieldOf_here (stack_below h.2) hk
    | succ i =>
      obtain ⟨x', lo', k'⟩ := y
      have hlo : lo + w ≤ lo' := hw (x', lo', k') (by simp)
      exact (fieldOf_skip hlo).trans (ih i h.2 hi fun y hy => hw y (by simp [hy]))

theorem toNat_ofNat_stack {m : Nat} {l : List (Nat × Nat × Nat)} (h : Stacked m l) : (BitVec.ofNat m (stack l)).toNat = stack l := by
  rw [BitVec.toNat_ofNat, Nat.mod_eq_of_lt (stack_below h)]

/-! ### The images -/

def Port.fields (p : Port) : List (Nat × Nat × Nat) := [(p.peer, 53, 11), (p.retrains.toNat, 32, 16), (p.replays, 16, 16), (p.lanes, 8, 3), (p.state.num, 0, 3)]
theorem Port.statusBits_eq (p : Port) : p.statusBits = stack p.fields := by
  simp only [Port.statusBits, Port.fields, stack, Nat.add_assoc, Nat.add_zero]
theorem Port.fields_stacked (p : Port) : Stacked 64 p.fields := by
  simp [Port.fields, Stacked]

theorem Port.status_fields (p : Port) :
    let f (lo n : Nat) : Nat := fieldOf (BitVec.ofNat 64 p.statusBits).toNat lo n
    f 0 8 = p.state.num ∧ f 8 8 = p.lanes % 8 ∧ f 16 16 = p.replays % 2 ^ 16 ∧ f 32 21 = p.retrains.toNat ∧ f 53 11 = p.peer % 2 ^ 11 := by
  have hs := p.fields_stacked
  have hnum : p.state.num % 2 ^ 3 = p.state.num := by cases p.state <;> rfl
  rw [p.statusBits_eq, toNat_ofNat_stack hs]
  refine ⟨(fieldOf_stack 4 hs rfl (by decide) (by simp [Port.fields])).trans hnum, fieldOf_stack 3 hs rfl (by decide) (by simp [Port.fields]), fieldOf_stack 2 hs rfl (by decide) (by simp [Port.fields]),
    (fieldOf_stack 1 hs rfl (by decide) (by simp [Port.fields])).trans (Nat.mod_eq_of_lt p.retrains.isLt), fieldOf_stack 0 hs rfl (by decide) (by simp [Port.fields])⟩

def Ctx.fields (c : Ctx) : List (Nat × Nat × Nat) := [(c.qmax, 480, 16), (c.savemb, 448, 32), (c.savebase.toNat, 384, 64), (c.ordwait, 352, 32), (c.ovlog2, 320, 8), (c.ovbase.toNat, 256, 64),
  (c.fllog2, 192, 8), (c.flbase.toNat, 128, 64), (c.root.toNat, 64, 64), (c.gen.toNat, 32, 16), (c.astag, 16, 16), (c.prio, 12, 4), (c.rslot, 8, 2), (c.state.num, 0, 8)]
theorem Ctx.entryBits_eq (c : Ctx) : c.entryBits = stack c.fields := by
  simp only [Ctx.entryBits, Ctx.fields, stack, Nat.add_assoc, Nat.add_zero]
theorem Ctx.fields_stacked (c : Ctx) : Stacked 512 c.fields := by
  simp [Ctx.fields, Stacked]

theorem Ctx.entry_fields (c : Ctx) :
    let f (lo n : Nat) : Nat := fieldOf (BitVec.ofNat 512 c.entryBits).toNat lo n
    f 0 8 = c.state.num ∧ f 8 4 = c.rslot % 4 ∧ f 12 4 = c.prio % 16 ∧ f 16 16 = c.astag % 2 ^ 16 ∧ f 32 32 = c.gen.toNat ∧ f 64 64 = c.root.toNat ∧
      f 128 64 = c.flbase.toNat ∧ f 256 64 = c.ovbase.toNat ∧ f 384 64 = c.savebase.toNat := by
  have hs := c.fields_stacked
  have hnum : c.state.num % 2 ^ 8 = c.state.num := by cases c.state <;> rfl
  have h64 (x : BitVec 64) : x.toNat % 2 ^ 64 = x.toNat := Nat.mod_eq_of_lt x.isLt
  rw [c.entryBits_eq, toNat_ofNat_stack hs]
  refine ⟨(fieldOf_stack 13 hs rfl (by decide) (by simp [Ctx.fields])).trans hnum, fieldOf_stack 12 hs rfl (by decide) (by simp [Ctx.fields]), fieldOf_stack 11 hs rfl (by decide) (by simp [Ctx.fields]),
    fieldOf_stack 10 hs rfl (by decide) (by simp [Ctx.fields]), (fieldOf_stack 9 hs rfl (by decide) (by simp [Ctx.fields])).trans (Nat.mod_eq_of_lt c.gen.isLt),
    (fieldOf_stack 8 hs rfl (by decide) (by simp [Ctx.fields])).trans (h64 _), (fieldOf_stack 7 hs rfl (by decide) (by simp [Ctx.fields])).trans (h64 _),
    (fieldOf_stack 5 hs rfl (by decide) (by simp [Ctx.fields])).trans (h64 _), (fieldOf_stack 2 hs rfl (by decide) (by simp [Ctx.fields])).trans (h64 _)⟩

def Queue.fields (q : Queue) : List (Nat × Nat × Nat) := [(q.ridxAddr.toNat, 384, 64), (q.widxAddr.toNat, 320, 64), (q.ring.toNat, 256, 64), (q.ridx, 192, 64), (q.pollns, 128, 32), (q.err, 96, 8),
  (q.qgen.toNat, 88, 8), (q.home, 80, 3), (q.ctx, 64, 6), (q.log2, 48, 5), (q.cls, 38, 2), (q.priook.toNat, 37, 1), (q.state.num, 0, 8)]
theorem Queue.descBits_eq (q : Queue) : q.descBits = stack q.fields := by
  simp only [Queue.descBits, Queue.fields, stack, Nat.add_assoc, Nat.add_zero]
theorem Queue.fields_stacked (q : Queue) : Stacked 512 q.fields := by
  simp [Queue.fields, Stacked]

theorem Queue.desc_fields (q : Queue) :
    let f (lo n : Nat) : Nat := fieldOf (BitVec.ofNat 512 q.descBits).toNat lo n
    f 0 8 = q.state.num ∧ f 64 16 = q.ctx % 64 ∧ f 88 8 = q.qgen.toNat ∧ f 96 32 = q.err % 256 ∧ f 192 64 = q.ridx % 2 ^ 64 ∧ f 256 64 = q.ring.toNat ∧
      f 320 64 = q.widxAddr.toNat ∧ f 384 128 = q.ridxAddr.toNat := by
  have hs := q.fields_stacked
  have hnum : q.state.num % 2 ^ 8 = q.state.num := by cases q.state <;> rfl
  have h64 (x : BitVec 64) : x.toNat % 2 ^ 64 = x.toNat := Nat.mod_eq_of_lt x.isLt
  rw [q.descBits_eq, toNat_ofNat_stack hs]
  refine ⟨(fieldOf_stack 12 hs rfl (by decide) (by simp [Queue.fields])).trans hnum, fieldOf_stack 8 hs rfl (by decide) (by simp [Queue.fields]),
    (fieldOf_stack 6 hs rfl (by decide) (by simp [Queue.fields])).trans (Nat.mod_eq_of_lt q.qgen.isLt), fieldOf_stack 5 hs rfl (by decide) (by simp [Queue.fields]),
    fieldOf_stack 3 hs rfl (by decide) (by simp [Queue.fields]), (fieldOf_stack 2 hs rfl (by decide) (by simp [Queue.fields])).trans (h64 _),
    (fieldOf_stack 1 hs rfl (by decide) (by simp [Queue.fields])).trans (h64 _), (fieldOf_stack 0 hs rfl (by decide) (by simp [Queue.fields])).trans (h64 _)⟩

/-! ### Reads of BAR0 and BAR2 -/

section
variable {s : State}

theorem State.bar0Read_port (h : s.dev.devstate ≠ .recovery) {p : Nat} (hp : p < 36) : s.bar0Read (0x8000 + 8 * p) = some (BitVec.ofNat 64 (s.port p).statusBits) := by
  have hr : s.reachesBar (0x8000 + 8 * p) = true := by simp [State.reachesBar, h]
  have hi : (0x8000 + 8 * p - 0x8000) / 8 = p := by omega
  unfold State.bar0Read
  dsimp only
  rw [hr, if_neg (by simp), if_neg (by omega), if_neg (by omega), if_neg (by omega), if_neg (by omega), if_pos (by omega), hi]
/-- The window reads 0 except in RECOVERY (R396). -/
theorem State.bar0Read_window {off : Nat} (h : 2 ^ 20 ≤ off) :
    s.bar0Read off = some (BitVec.ofNat 64 (if s.dev.devstate = .recovery then leNat (s.dev.window.readBytes (off - 2 ^ 20) 8) else 0)) := by
  have hr : s.reachesBar off = true := by
    have : s.reachesBar off = false ↔ _ := s.reachesBar_false_iff off
    rw [← Bool.not_eq_false, this]
    omega
  unfold State.bar0Read
  dsimp only
  rw [hr, if_neg (by simp), if_neg (by omega), if_neg (by omega), if_neg (by omega), if_neg (by omega), if_neg (by omega), if_pos h]
theorem State.bar2Read_ctx (h : s.dev.devstate ≠ .recovery) {n : Nat} (hn : n < 64) : s.bar2Read (64 * n) = some (BitVec.ofNat 512 (s.ctx n).entryBits) := by
  unfold State.bar2Read
  rw [if_neg h, if_pos (by omega), Nat.mul_div_cancel_left _ (by decide)]
theorem State.bar2Read_queue (h : s.dev.devstate ≠ .recovery) {n : Nat} (hn : n < 4096) : s.bar2Read (0x40000 + 64 * n) = some (BitVec.ofNat 512 (s.queue n).descBits) := by
  unfold State.bar2Read
  rw [if_neg h, if_neg (by omega), if_pos (by omega), Nat.add_sub_cancel_left, Nat.mul_div_cancel_left _ (by decide)]
end

end Sys2Proof.Machine


/-! ## The CXL host port (R234, R236) -/
namespace Sys2Proof.Machine
open Sys2Proof

theorem holeIn_false {off n : Nat} : holeIn off n = false ↔ ∀ i < n, localMapped (off + i) = true := by
  simp [holeIn]
theorem holeIn_true {off n i : Nat} (hi : i < n) (h : localMapped (off + i) = false) : holeIn off n = true :=
  List.any_eq_true.mpr ⟨i, List.mem_range.mpr hi, by rw [h]; rfl⟩

theorem State.usable_false {s : State} {c : Nat} (h : (s.ctx c).state = .free ∨ (s.ctx c).state = .releasing) : s.usable c = false := by
  rcases h with h | h <;> simp [State.usable, h]

/-! ### Records of holes (notes/assumptions/28.md) -/

/-- No context takes a record. -/
theorem State.holeRecord_none {s : State} (h : ∀ c < 64, s.usable c = false) : s.holeRecord = { s with fresh := s.fresh + 1 } := by
  have : (List.range 64).filter s.free.2.usable = [] := List.filter_eq_nil_iff.mpr fun c hc => by
    rw [Bool.not_eq_true]; exact h c (List.mem_range.mp hc)
  unfold State.holeRecord
  dsimp only
  rw [this]
  rfl
/-- One context takes the record, whose CODE is a free value. -/
theorem State.holeRecord_one {s : State} {c : Nat} (hc : c < 64) (hu : s.usable c = true) (h : ∀ m < 64, m ≠ c → s.usable m = false) :
    ∃ code, s.holeRecord = ({ s with fresh := s.fresh + 2 } : State).record c { kind := 5, code } := by
  have : (List.range 64).filter s.free.2.usable = [c] := by
    refine List.perm_singleton.mp ((List.perm_ext_iff_of_nodup (List.nodup_range.filter _) (List.nodup_singleton c)).mpr fun m => ?_)
    rw [List.mem_filter, List.mem_range, List.mem_singleton]
    constructor
    · rintro ⟨hm, hum⟩
      by_contra hmc
      exact Bool.false_ne_true ((h m hm hmc).symm.trans hum)
    · rintro rfl
      exact ⟨hc, hu⟩
  refine ⟨Config.free (s.fresh + 1), ?_⟩
  unfold State.holeRecord
  dsimp only
  rw [this, List.length_singleton, Nat.mod_one]
  rfl
theorem State.holeRecord_core (s : State) : s.holeRecord.core = s.core := by
  unfold State.holeRecord
  dsimp only
  split
  · unfold State.recordOpen
    dsimp only
    rw [State.record_only]
    rfl
  · rfl

/-! ### Reads -/

section
variable {s : State} (hr : s.dev.devstate = .ready) (hx : s.dev.cxl = true) {off n : Nat} (hn : off + n ≤ 2 ^ 42)
include hr hx hn

theorem State.cxlMem_ready : s.cxlMem off n = true := by
  simp only [State.cxlMem, hr, hx, decide_true, Bool.and_self, decide_eq_true hn]

theorem execCxlMemRead_clean (h : holeIn off n = false) (hp : s.poisonedAt (s.hdm off) n = false) :
    execCxlMemRead off n s = .next { s with dev := { s.dev with cxlData := s.dev.mem.readBytes (s.hdm off) n, cxlPoison := false } } := by
  unfold execCxlMemRead State.cxlReturn
  rw [State.cxlMem_ready hr hx hn, if_neg (by simp)]
  simp only [h, hp, Bool.false_or, Bool.false_eq_true, if_false]
  rfl
theorem execCxlMemRead_poisoned (h : holeIn off n = false) (hp : s.poisonedAt (s.hdm off) n = true) :
    execCxlMemRead off n s = .next { s with fresh := s.fresh + 1, dev := { s.dev with cxlData := leBytes (Config.free s.fresh) n, cxlPoison := true } } := by
  unfold execCxlMemRead State.cxlReturn
  rw [State.cxlMem_ready hr hx hn, if_neg (by simp)]
  simp only [h, hp, Bool.false_or, Bool.false_eq_true, if_true, if_false]
  rfl
theorem execCxlMemRead_hole (h : holeIn off n = true) : execCxlMemRead off n s =
    .next ({ s with fresh := s.fresh + 1, dev := { s.dev with cxlData := leBytes (Config.free s.fresh) n, cxlPoison := true } } : State).holeRecord := by
  unfold execCxlMemRead State.cxlReturn
  rw [State.cxlMem_ready hr hx hn, if_neg (by simp)]
  simp only [h, Bool.true_or, if_true]
  rfl
end

/-! ### Writes -/

/-- What the host's stores change: memory and its poison. -/
def StoresOnly (s t : State) : Prop := t = { s with dev := { s.dev with mem := t.dev.mem, poison := t.dev.poison } }

/-- One byte that the host writes, where its offset is mapped. -/
def State.hostStore (off : Nat) (s : State) (x : Byte × Nat) : State := if localMapped (off + x.2) then s.store (s.hdm (off + x.2)) [x.1] else s

theorem State.hostStore_only (off : Nat) (s : State) (x : Byte × Nat) : StoresOnly s (s.hostStore off x) := by
  unfold State.hostStore
  split <;> rfl
theorem State.hostStores_only (off : Nat) (l : List (Byte × Nat)) (s : State) : StoresOnly s (l.foldl (State.hostStore off) s) := by
  induction l generalizing s with
  | nil => rfl
  | cons x t ih =>
    have h := ih (s.hostStore off x)
    have k := s.hostStore_only off x
    rw [List.foldl_cons]
    unfold StoresOnly at h k ⊢
    rw [h, k]

/-- Memory after one byte. -/
theorem State.hostStore_read {s : State} (w : s.dev.mem.wf = true) (off : Nat) (b : Byte) (i x : Nat) :
    (s.hostStore off (b, i)).dev.mem.wf = true ∧ (s.hostStore off (b, i)).dev.mem.read x = if x = s.dev.devnum * 2 ^ 42 + off + i ∧ localMapped (off + i) = true then b else s.dev.mem.read x := by
  unfold State.hostStore
  split
  · next h =>
    refine ⟨Memory.wf_write w _ _, (Memory.read_write w _ _ _).trans ?_⟩
    refine if_congr ?_ rfl rfl
    simp only [State.hdm, h, and_true, Nat.add_assoc]
  · next h => exact ⟨w, by simp [h]⟩
/-- Memory after the bytes of a write, the first of which has number j and stands at n. -/
theorem State.hostStores_read (off : Nat) (bs : List Byte) (j n : Nat) {s : State} (w : s.dev.mem.wf = true) (hn : n = s.dev.devnum * 2 ^ 42 + off + j) (x : Nat) :
    ((bs.zipIdx j).foldl (State.hostStore off) s).dev.mem.read x = if n ≤ x ∧ x < n + bs.length ∧ localMapped (x - s.dev.devnum * 2 ^ 42) = true then bs.getD (x - n) 0 else s.dev.mem.read x := by
  induction bs generalizing j n s with
  | nil =>
    exact (if_neg (by simp; omega)).symm
  | cons b t ih =>
    obtain ⟨w', hb⟩ := State.hostStore_read w off b j x
    have hd : (s.hostStore off (b, j)).dev.devnum = s.dev.devnum := by rw [s.hostStore_only off (b, j)]
    rw [List.zipIdx_cons, List.foldl_cons, ih (j + 1) (n + 1) w' (by rw [hd]; omega), hd, hb, ← hn, List.length_cons]
    by_cases hx : x = n
    · have hl : x - s.dev.devnum * 2 ^ 42 = off + j := by omega
      rw [if_neg (by omega), hl]
      exact if_congr (by simp [hx]) (by simp [hx]) rfl
    · have hb' : (if x = n ∧ localMapped (off + j) = true then b else s.dev.mem.read x) = s.dev.mem.read x := if_neg fun h => hx h.1
      rw [hb']
      by_cases hin : n + 1 ≤ x ∧ x < n + 1 + t.length ∧ localMapped (x - s.dev.devnum * 2 ^ 42) = true
      · obtain ⟨k, hk⟩ := Nat.exists_eq_add_of_le hin.1
        rw [if_pos hin, if_pos ⟨by omega, by omega, hin.2.2⟩, show x - n = x - (n + 1) + 1 by omega, List.getD_cons_succ]
      · rw [if_neg hin, if_neg fun h => hin ⟨by omega, by omega, h.2.2⟩]

theorem execCxlMemWrite_eq {s : State} (hr : s.dev.devstate = .ready) (hx : s.dev.cxl = true) {off : Nat} {bs : List Byte} (hn : off + bs.length ≤ 2 ^ 42) :
    execCxlMemWrite off bs s = .next (if holeIn off bs.length = true then (bs.zipIdx.foldl (State.hostStore off) s).holeRecord else bs.zipIdx.foldl (State.hostStore off) s) := by
  unfold execCxlMemWrite
  rw [State.cxlMem_ready hr hx hn, if_neg (by simp)]
  rfl
/-- A write stores the bytes whose offsets are mapped, where it meets no hole or no context takes the record. -/
theorem execCxlMemWrite_read {s : State} {off : Nat} {bs : List Byte} (w : s.dev.mem.wf = true) (h : (∀ c < 64, (s.ctx c).state = .free ∨ (s.ctx c).state = .releasing) ∨ holeIn off bs.length = false) (x : Nat) :
    (if holeIn off bs.length = true then (bs.zipIdx.foldl (State.hostStore off) s).holeRecord else bs.zipIdx.foldl (State.hostStore off) s).dev.mem.read x =
      if s.dev.devnum * 2 ^ 42 + off ≤ x ∧ x < s.dev.devnum * 2 ^ 42 + off + bs.length ∧ localMapped (x - s.dev.devnum * 2 ^ 42) = true then bs.getD (x - (s.dev.devnum * 2 ^ 42 + off)) 0 else s.dev.mem.read x := by
  rw [← State.hostStores_read off bs 0 (s.dev.devnum * 2 ^ 42 + off) w (Nat.add_zero _).symm x]
  have hctx : ∀ c, (bs.zipIdx.foldl (State.hostStore off) s).ctx c = s.ctx c := fun c => by rw [State.hostStores_only off bs.zipIdx s]; rfl
  generalize bs.zipIdx.foldl (State.hostStore off) s = u at hctx ⊢
  split
  · next hh =>
    have hf : ∀ c < 64, u.usable c = false := fun c hc =>
      State.usable_false (by rw [hctx]; exact h.resolve_right (by rw [hh]; exact fun k => Bool.false_ne_true k.symm) c hc)
    rw [State.holeRecord_none hf]
  · rfl

end Sys2Proof.Machine

namespace Sys2Proof.Machine
open Sys2Proof
/-- Settles O60: commands and events of the ports, what arrives from other devices, what the host reads and writes, each by the lemmas of its own above. -/
theorem linkEvents : Obligations.LinkEvents := by
  intro s d ended sets quiet marked usable trained
  refine ⟨?_, ?_, ?_, ?_, ?_, ?_, ?_, ?_, ?_⟩
  -- the LINK commands
  · intro h p k
    obtain ⟨he3, he2, he0⟩ := portCmd_ends h (x := execLinkEnable s) rfl
    obtain ⟨hu3, hu2, hu0⟩ := portCmd_ends h (x := execLinkUnfence s) rfl
    refine ⟨fun hp => ?_, fun hp => ⟨he2 hp, hu2 hp, fun hk => ⟨_, s.setPort_set (trained k), he0 hp hk⟩, fun hk => ⟨_, s.setPort_set { k with state := .down }, hu0 hp hk⟩, execLinkFence_port h hp⟩⟩
    simp only [List.forall_mem_cons]
    exact ⟨he3 hp, execLinkFence_noPort h hp, hu3 hp, by simp⟩
  · intro h n a fits down
    classical
    have hx := execLinkSetup_eq h
    refine ⟨fun hf => hx.trans (if_pos hf), fun hf hd => hx.trans ((if_neg (not_not.mpr hf)).trans (if_pos hd)), fun hf hd => ⟨_, hx.trans ((if_neg (not_not.mpr hf)).trans (if_neg (not_not.mpr hd))),
      rfl, rfl, rfl, fun m hm => ?_, fun hn => ?_, fun hc o ho => ?_⟩⟩
    · dsimp only [State.mbDone, State.setDev]
      exact routesOf_getD d.mem a hm
    · exact if_pos hn.symm
    · obtain ⟨hmem, -⟩ := hc
      exact Memory.read_renumber hmem _ _ ho
  -- events of ports
  · intro p hp k
    refine ⟨fun hk => ⟨_, s.setPort_set (trained k), execLinkTrainingStart_eq hp hk⟩, fun lanes peer hk h2 h4 hd => execLinkTrained_done hp hk h2 h4 hd, fun hk => ⟨_, s.setPort_set { k with state := .down, lanes := 0 }, execLinkTrainingTimeout_eq hp hk⟩,
      fun lanes hk h2 h3 => ⟨_, s.setPort_set { k with state := .degraded, lanes }, execLinkLaneLost_eq hp hk h2 h3⟩, fun hk => ?_⟩
    have hku : (s.port p).usable = true := (Port.usable_iff _).mpr hk
    intro lost
    refine ⟨fun hf => ⟨_, s.setPort_set { k with fails := k.fails + 1, replays := min 65535 (k.replays + 1) }, execFlitCrcError_replay hp hku hf⟩, fun i hi => ⟨s.lose p .down, ?_, s.lose_port p .down, fun hq => ?_, fun o x hg ho hu hx _ => ?_, ?_, fun o x ho hd he hu hx _ => ?_⟩⟩
    · rcases hi with rfl | ⟨rfl, hf⟩
      · exact execLinkDown_eq hp hku
      · exact execFlitCrcError_lose hp hku hf
    · rw [State.lose_quiet (by decide) (.inr hq)]
      exact s.setPort_set lost
    · exact State.lose_mem hu hx hku ho hg
    · rw [State.lose_ops hku]
      refine List.map_congr_left fun o _ => if_congr o.onPort_iff (Op.failOn_marked _ o) rfl
    · exact State.lose_deferred hu hx hku ho hd he
  -- operations and notices from other devices
  · intro src q gen addr op ha a given stored old run
    refine ⟨execRemoteOpArrive_dropped ha, fun n => execRemoteOpArrive_load ha, fun bs hg ho => ?_, fun hg hp => ?_⟩
    · subst ho
      exact ⟨_, execRemoteOpArrive_given (op := .store bs) ha hg, rfl⟩
    · obtain ⟨hatom, hcas, hsignal⟩ := State.remoteOp_stores hp
      refine ⟨fun o wide v ho => ?_, fun wide e v ho => ?_, fun add v ho => ?_⟩
      · subst ho
        exact ⟨_, (execRemoteOpArrive_given ha hg).trans (congrArg _ (hatom o wide v)), rfl⟩
      · subst ho
        exact ⟨_, (execRemoteOpArrive_given ha hg).trans (congrArg _ (hcas wide e v)), rfl⟩
      · subst ho
        exact ⟨_, (execRemoteOpArrive_given ha hg).trans (congrArg _ (hsignal add v)), rfl⟩
  · intro dev q gen g heldOnly
    refine ⟨⟨_, rfl, rfl, fun x => mem_putGeneration⟩, fun hg => ⟨_, execGenerationNoticeAck_eq hg, fun hs => ?_⟩⟩
    rw [State.drainSalt_nil (by exact hs)]
    exact ⟨rfl, fun x => mem_putGeneration, fun hm => by simpa using (List.mem_filter.mp hm).2⟩
  -- the host
  · exact fun a => rfl
  · intro hd
    refine ⟨fun p hp => ⟨_, State.bar0Read_port hd hp, ?_⟩, fun off h _ => ?_, fun n hn => ⟨_, State.bar2Read_ctx hd hn, ?_⟩, fun n hn => ⟨_, State.bar2Read_queue hd hn, ?_⟩⟩
    · exact (s.port p).status_fields
    · exact (State.bar0Read_window h).trans (by rw [if_neg hd]; rfl)
    · exact (s.ctx n).entry_fields
    · exact (s.queue n).desc_fields
  · intro hd
    refine ⟨fun off => if_pos hd, fun off h _ => ?_⟩
    rw [State.bar0Read_window h, if_pos hd]
  · intro hr hx mapped
    refine ⟨fun off n hn hm => ⟨fun hp => ?_, fun hp => ⟨leBytes (Config.free s.fresh) n, ?_⟩⟩, fun off n i hn hi hm => ?_, fun off bs hn => ⟨_, execCxlMemWrite_eq hr hx hn, fun hm => ?_, fun hc h => ?_⟩⟩
    · exact execCxlMemRead_clean hr hx hn (holeIn_false.mpr hm) hp
    · exact execCxlMemRead_poisoned hr hx hn (holeIn_false.mpr hm) hp
    · have he := execCxlMemRead_hole hr hx hn (holeIn_true hi hm)
      refine ⟨_, leBytes (Config.free s.fresh) n, he, State.holeRecord_core _, ?_⟩
      intro read
      refine ⟨fun h => State.holeRecord_none fun c hc => State.usable_false (h c hc), fun c hc hf hr h => State.holeRecord_one hc ?_ fun m hm hmc => State.usable_false (h m hm hmc)⟩
      exact (State.usable_iff _ _).mpr ⟨hf, hr⟩
    · rw [if_neg (by rw [holeIn_false.mpr hm]; exact Bool.false_ne_true)]
      exact State.hostStores_only off bs.zipIdx s
    · obtain ⟨hmem, -⟩ := hc
      exact execCxlMemWrite_read hmem (h.imp_right holeIn_false.mpr)
end Sys2Proof.Machine

namespace Sys2Proof.Machine
open Sys2Proof

/-! ## Reset and the list of turns (R390, R391, R395 to R399) -/

/-- The machine after reset with the agent of a core other than core 0 in front. -/
def State.resetAt (c : Nat) : State :=
  { State.reset with grp := agentGroup c, core := { State.reset.freshCore c with groups := [] }, cores := [State.reset.stowCore] }

/-- After reset every core's agent stands in its slot (R12, R81), listed or not. -/
theorem State.reset_focus (c : Nat) : State.reset.focus ⟨c, 0, 15⟩ 31 = some (if c = 0 then State.reset else State.resetAt c) := by
  by_cases hc : c = 0
  · subst hc; rfl
  · have h0 : ¬ 0 = c := fun h => hc h.symm
    rw [if_neg hc]
    simp [State.focus, State.focusGroup, State.focusCore, State.reset, State.resetAt, agentGroup, agentEntity, coreReset, takeFirst, State.freshCore, State.leadGroup, State.focusTeam, State.focusEnt, h0]

/-- Settles O31: the values are those of the state's defaults, and each agent is found by State.reset_focus. -/
theorem resetValues : Obligations.ResetValues := by
  unfold Obligations.ResetValues
  refine ⟨rfl, rfl, rfl, rfl, rfl, rfl, rfl, rfl, rfl, rfl, fun _ => rfl, fun _ => rfl, fun _ => rfl, fun c => ⟨_, State.reset_focus c, ?_⟩, ?_⟩
  · split
    · next h => subst h; exact ⟨rfl, rfl, rfl, rfl, rfl⟩
    · exact ⟨rfl, rfl, rfl, rfl, rfl⟩
  · exact ⟨rfl, rfl, rfl, fun _ h => absurd h List.not_mem_nil, rfl⟩
end Sys2Proof.Machine

namespace Sys2Proof.Machine
open Sys2Proof

section
variable {s : State}

/-- With the group's team in front, a step takes the turn at the head of the list. -/
theorem step_turn {t : Turn} {r : List Turn} (hf : s.team.serial = s.grp.team) (h : s.turns = t :: r) : step s = State.turn { s with turns := r } t := by
  rw [step, State.focusTeam, if_pos hf]
  simp only [h]

theorem step_idle_boot (hf : s.team.serial = s.grp.team) (h : s.turns = []) (hd : s.dev.devstate = .boot) : step s = exec .resetRelease s := by
  rw [step, State.focusTeam, if_pos hf]
  simp only [h, hd]
theorem step_idle_stopped (hf : s.team.serial = s.grp.team) (h : s.turns = []) (hd : s.dev.devstate = .stopped ∨ s.dev.devstate = .failsafe) : step s = .fault .frozen := by
  rw [step, State.focusTeam, if_pos hf]
  rcases hd with hd | hd <;> simp only [h, hd]

/-! ### Events and host writes -/

/-- An event other than a host write runs where it is allowed and may come by itself, and not otherwise. -/
theorem State.event_eq {i : Instr} (hi : ∀ o v, i ≠ .registerWrite o v) : s.event i = if s.allows i = true ∧ s.promotable i = true then exec i s else .refused .notDue := by
  unfold State.event
  split
  · next o v => exact absurd rfl (hi o v)
  · simp only [Bool.and_eq_true]

theorem State.event_write (s : State) (o : Nat) (v : BitVec 64) : s.event (.registerWrite o v) = exec (hostWrite o v) (s.noteCommand o v) := rfl
theorem State.noteCommand_other {o : Nat} (h : o ≠ 0) (v : BitVec 64) : s.noteCommand o v = s := if_neg h
theorem hostWrite_other {o : Nat} (h0 : o ≠ 0) (h1 : o ≠ 0x100) (h2 : o ≠ 0x9018) (v : BitVec 64) : hostWrite o v = .registerWrite o v := by
  rw [hostWrite, if_neg h0, if_neg h1, if_neg h2]

/-! ### What a READY module does -/

theorem State.whenReady_not (h : s.dev.devstate ≠ .ready) (t : Option State) : s.whenReady t = .refused .notDue := if_pos h
theorem State.whenReady_some (h : s.dev.devstate = .ready) (t : State) : s.whenReady (some t) = .next t := if_neg (not_not_intro h)
theorem State.whenReady_none (h : s.dev.devstate = .ready) : s.whenReady none = .refused .notDue := if_neg (not_not_intro h)

/-- A line as memory holds it is kept at its core alone (R239). -/
theorem State.keepVersion_eq {core ctx pa : Nat} {va : VAddr} (hc : core < 832) (ha : va.toNat % 128 = 0)
    (ht : (s.translate (s.coreOf core).itlb (s.ctx ctx) (core / 104) { x := true } va.toNat).1 = .ok pa) (hp : s.poisonedAt pa 128 = false) :
    s.keepVersion core ctx va = some (s.onCore core fun k => { k with versions := ⟨ctx, va, s.mem.readBytes pa 128⟩ :: k.versions }) := by
  rw [State.keepVersion, if_neg (by omega)]
  show (match (s.translate (s.coreOf core).itlb (s.ctx ctx) (core / 104) { x := true } va.toNat).1 with | .ok pa => _ | .error _ => _) = _
  rw [ht]
  simp only [hp, Bool.false_eq_true, if_false]

@[simp] theorem State.onCore_turns (s : State) (c : Nat) (f : Core → Core) : (s.onCore c f).turns = s.turns := by
  unfold State.onCore; split <;> rfl

/-! ### Ticks (R390, R391) -/

/-- Ticks that reach no stop tick and no multiple of 65,536. -/
theorem State.advance_plain {n : Nat} (hs : s.stopTick = none) (ht : s.dev.tick / 65536 = (s.dev.tick + n) / 65536) :
    s.advance n = s.setDev fun d => { d with tick := d.tick + n } := by
  simp only [State.advance, hs]
  exact if_pos ht
/-- Ticks past the stop tick freeze the module at it. -/
theorem State.advance_stops {n k : Nat} (hs : s.stopTick = some k) (hk : k < s.dev.tick + n) :
    s.advance n = (s.setDev fun d => { d with tick := max d.tick k }).freeze k .stopped := by
  simp only [State.advance, hs]
  exact if_pos hk
theorem State.pass_running {n : Nat} (h : (s.advance n).dev.stopped = none) : s.pass n = (s.advance n).drainSalt := by
  rw [State.pass, h]; rfl
theorem State.pass_stopped {n : Nat} (h : (s.advance n).dev.stopped ≠ none) : s.pass n = s.advance n :=
  if_pos (Option.isSome_iff_ne_none.mpr h)

/-- A poisoned byte arises: it joins the poisoned ones. -/
theorem mem_poisonAdded {l : List Nat} {a b : Nat} : b ∈ (if l.contains a then l else a :: l) ↔ b = a ∨ b ∈ l := by
  split
  · next h => exact ⟨.inr, fun k => k.elim (fun e => e ▸ List.contains_iff_mem.mp h) id⟩
  · exact List.mem_cons

end

/-- Settles O30: a step takes the head of the list, and each kind of turn is read off from what it does. -/
theorem stepTakesTurns : Obligations.StepTakesTurns := by
  unfold Obligations.StepTakesTurns
  intro s r hf u
  have hstep {t : Turn} (h : s.turns = t :: r) : step s = u.turn t := step_turn hf h
  refine ⟨fun i h hi => ?_, fun o v h => ?_, fun e h hd => ?_, fun g op k h => ⟨fun hd => ?_, fun hd v hv => ?_⟩, fun core ctx va pa h hd hc ha ht hp => ?_,
    fun n h hs => ?_, fun n h hs => ?_, fun a h hd => ?_, step_idle_boot hf, step_idle_stopped hf⟩
  -- events and host writes
  · have he : step s = if s.allows i = true ∧ u.promotable i = true then exec i u else .refused .notDue := (hstep h).trans (State.event_eq (s := u) hi)
    exact ⟨fun ha hp => he.trans (if_pos ⟨ha, hp⟩), fun hn => he.trans (if_neg (by simpa [imp_iff_not_or] using hn))⟩
  · have he : step s = exec (hostWrite o v) (u.noteCommand o v) := (hstep h).trans (u.event_write o v)
    refine ⟨fun h0 => ?_, fun h1 => ?_, fun h2 => ?_, fun h0 h1 h2 => ?_⟩
    · subst h0; exact he
    · subst h1; exact he
    · subst h2; exact he
    · rw [he, hostWrite_other h0 h1 h2, State.noteCommand_other h0]
  -- issues and performed accesses
  · rcases h with h | h
    · exact (hstep h).trans (if_neg hd)
    · exact (hstep h).trans (if_neg hd)
  · exact (hstep h).trans (State.whenReady_not hd _)
  · have he : step s = u.whenReady (v.perform op k) := by
      rw [hstep h, State.turn, hv]; rfl
    rw [he]
    cases v.perform op k with
    | some t => exact State.whenReady_some hd t
    | none => exact State.whenReady_none hd
  -- lines kept
  · let f : Core → Core := fun k => { k with versions := ⟨ctx, va, s.mem.readBytes pa 128⟩ :: k.versions }
    have hk : u.keepVersion core ctx va = some (u.onCore core f) := State.keepVersion_eq (s := u) hc ha ht hp
    have hcore := u.coreOf_onCore core (f := f) fun _ => rfl
    refine ⟨u.onCore core f, ?_, ?_, fun c hne => ?_, u.onCore_dev core f, u.onCore_turns core f⟩
    · rw [hstep h, State.turn, hk]
      exact State.whenReady_some hd _
    · rw [hcore, if_pos rfl]; rfl
    · rw [hcore, if_neg hne]; rfl
  -- ticks
  · have he : step s = .next (u.pass n) := (hstep h).trans (if_neg (by simp [u, hs]))
    refine ⟨u.pass n, he, fun hst hsalt ht => ?_, fun k hst hk => ?_⟩
    · have hadv : u.advance n = u.setDev fun d => { d with tick := d.tick + n } := State.advance_plain (s := u) hst ht
      rw [State.pass_running (by rw [hadv]; exact hs), hadv, State.drainSalt_nil (by exact hsalt)]
      rfl
    · have hadv := State.advance_stops (s := u) hst hk
      rw [State.pass_stopped (by rw [hadv]; exact Option.some_ne_none k), hadv]
      exact ⟨rfl, rfl, rfl, rfl⟩
  · exact (hstep h).trans (if_pos (Option.isSome_iff_ne_none.mpr hs))
  -- a bit error in memory
  · refine ⟨u.upset (.memory a), (hstep h).trans (State.whenReady_some hd _), mem_poisonAdded.mpr (.inl rfl), fun b hb => ?_, rfl⟩
    exact mem_poisonAdded.trans (or_iff_right hb)
end Sys2Proof.Machine

namespace Sys2Proof.Machine
open Sys2Proof

/-! ## Contexts under the mailbox (R45 to R50) -/

/-- The ends of a command on a context (R46): a number past 63, a state that does not take it, and what it does otherwise. -/
theorem State.ctxCmd_ends {s : State} {n : Nat} {used : List (Nat × Nat)} {ok : List CtxState} {f : Ctx → Outcome} {x : Outcome} {does : Prop}
    (h : s.Takes [.ready] used) (hn : s.param 0 1 = n) (hx : x = s.ctxCmd used ok f) (hd : n ≤ 63 → (s.ctx n).state ∈ ok → x = f (s.ctx n) → does) :
    (63 < n → x = .next (s.mbDone 3)) ∧ (n ≤ 63 → (s.ctx n).state ∉ ok → x = .next (s.mbDone 2)) ∧ (n ≤ 63 → (s.ctx n).state ∈ ok → does) := by
  have hc : x = if 63 < n then .next (s.mbDone 3) else if !ok.contains (s.ctx n).state then .next (s.mbDone 2) else f (s.ctx n) := by
    rw [hx, State.ctxCmd, h.mbox, hn]
    simp only [State.ctx_num]
  refine ⟨fun hp => hc.trans (if_pos hp), fun hp hs => ?_, fun hp hs => hd hp hs ?_⟩
  · rw [hc, if_neg (Nat.not_lt.mpr hp), if_pos (by simpa using hs)]
  · rw [hc, if_neg (Nat.not_lt.mpr hp), if_neg (by simpa using hs)]

theorem State.queue_congr {s t : State} (h : t.dev.queues = s.dev.queues) (q : Nat) : t.queue q = s.queue q := by
  rw [State.queue, State.queue, h]
theorem State.ctx_congr {s t : State} (h : t.dev.ctxs = s.dev.ctxs) (n : Nat) : t.ctx n = s.ctx n := by
  rw [State.ctx, State.ctx, h]
theorem State.launch_congr {s t : State} (h : t.dev.launches = s.dev.launches) (id : Word) : t.launch? id = s.launch? id := by
  rw [State.launch?, State.launch?, h]

/-- A context set is read back at its number, and no other changes. -/
theorem State.setCtx_at {s : State} {k : Ctx} {n : Nat} (h : k.num = n) : (s.setCtx k).ctx n = k ∧ ∀ m, m ≠ n → (s.setCtx k).ctx m = s.ctx m :=
  h ▸ State.setCtx_sets k

@[simp] theorem State.mbDone_ctx (s : State) (r : Nat) (l : List Byte) (n : Nat) : (s.mbDone r l).ctx n = s.ctx n := rfl
@[simp] theorem State.store_ctx (s : State) (a : Nat) (bs : List Byte) (n : Nat) : (s.store a bs).ctx n = s.ctx n := rfl
@[simp] theorem State.mbDone_mem (s : State) (r : Nat) (l : List Byte) : (s.mbDone r l).dev.mem = s.dev.mem := rfl
@[simp] theorem State.mbDone_mb (s : State) (r : Nat) (l : List Byte) : (s.mbDone r l).dev.mb = { s.dev.mb with busy := false, result := r, response := l, directed := .none, units := [] } := rfl

/-! ### Definition (R45) -/

/-- The tag of a new context is the lowest that no other holds. -/
theorem State.freeTag_eq {s : State} {tag : Nat} (h1 : 1 ≤ tag) (h64 : tag ≤ 64) (hfree : ∀ x ∈ s.dev.ctxs, x.state ≠ .free → x.astag ≠ tag)
    (hused : ∀ y, 1 ≤ y → y < tag → ∃ x ∈ s.dev.ctxs, x.state ≠ .free ∧ x.astag = y) : s.freeTag = tag := by
  obtain ⟨k, rfl⟩ := Nat.exists_eq_add_of_le' h1
  have hmem (y : Nat) : ((s.dev.ctxs.filter fun c => c.state != .free).map Ctx.astag).contains y = true ↔ ∃ x ∈ s.dev.ctxs, x.state ≠ .free ∧ x.astag = y := by
    simp [and_assoc]
  have hk : ((List.range 64).find? fun i => !((s.dev.ctxs.filter fun c => c.state != .free).map Ctx.astag).contains (i + 1)) = some k := by
    rw [List.find?_range_eq_some]
    refine ⟨?_, List.mem_range.mpr (by omega), fun j hj => ?_⟩
    · rw [Bool.not_eq_true', Bool.eq_false_iff, ne_eq, hmem]
      rintro ⟨x, hx, hs, ht⟩
      exact hfree x hx hs ht
    · rw [Bool.not_not, hmem]
      exact hused (j + 1) (by omega) (by omega)
  rw [State.freeTag]
  simp only [hk, Option.getD_some]

/-- What CTX_DEFINE asks of its parameters (R45). -/
def State.defineFits (s : State) : Prop :=
  s.param 8 8 % 4096 = 0 ∧ s.param 16 8 % 4096 = 0 ∧ s.param 32 8 % 65536 = 0 ∧ s.param 56 8 % 2 ^ 20 = 0 ∧ 4 ≤ s.param 24 1 ∧ s.param 24 1 ≤ 16 ∧ 10 ≤ s.param 40 1 ∧ s.param 40 1 ≤ 20 ∧
    1 ≤ s.param 68 2 ∧ s.param 68 2 ≤ 4096 ∧ s.param 70 1 ≤ 15 ∧ 832 ≤ s.param 64 4 ∧ s.param 56 8 < 2 ^ 56 ∧ s.place (s.param 56 8) = .local ∧
    s.param 56 8 % 2 ^ 42 + s.param 64 4 * 2 ^ 20 ≤ 48 * 2 ^ 30
theorem State.badDefine_iff (s : State) : s.badDefine = true ↔ ¬ s.defineFits := by
  unfold State.badDefine State.defineFits
  simp only [Bool.or_eq_true, decide_eq_true_eq]
  by_cases hp : s.place (s.param 56 8) = .local
  · simp only [hp, ne_eq, not_true_eq_false, false_or, true_and]
    omega
  · simp [hp]

/-- The entry that CTX_DEFINE makes (R45). -/
def State.newCtx (s : State) (n tag : Nat) : Ctx :=
  { num := n, state := .defined, root := BitVec.ofNat 64 (s.param 8 8), flbase := BitVec.ofNat 64 (s.param 16 8), fllog2 := s.param 24 1, ovbase := BitVec.ofNat 64 (s.param 32 8),
    ovlog2 := s.param 40 1, ordwait := s.param 48 4, savebase := BitVec.ofNat 64 (s.param 56 8), savemb := s.param 64 4, qmax := s.param 68 2, prio := s.param 70 1, astag := tag,
    gen := (s.ctx n).gen + 1, base := ⟨s.param 70 1, 0, false⟩, eff := ⟨s.param 70 1, 0, false⟩ }

/-- The state that CTX_DEFINE leaves (R45): the entry is made, and the fault log's header is zero. -/
def State.defineCtx (s : State) (n tag : Nat) : State :=
  ((s.setCtx (s.newCtx n tag)).store (s.param 16 8) (leBytes 0 64)).mbDone 0 (leBytes tag 2 ++ leBytes ((s.ctx n).gen + 1).toNat 2)
theorem State.defineCtx_leaves (s : State) (n tag : Nat) : (s.defineCtx n tag).ctx n = s.newCtx n tag ∧ (∀ m, m ≠ n → (s.defineCtx n tag).ctx m = s.ctx m) ∧
    (s.defineCtx n tag).dev.mem = s.dev.mem.writeBytes (s.param 16 8) (leBytes 0 64) ∧ (s.defineCtx n tag).dev.mb.result = 0 ∧
    (s.defineCtx n tag).dev.mb.response = leBytes tag 2 ++ leBytes ((s.ctx n).gen + 1).toNat 2 := by
  obtain ⟨hset, hother⟩ := State.setCtx_at (s := s) (k := s.newCtx n tag) (n := n) rfl
  unfold State.defineCtx
  refine ⟨?_, fun m hm => ?_, ?_, ?_, ?_⟩
  · rw [State.mbDone_ctx, State.store_ctx, hset]
  · rw [State.mbDone_ctx, State.store_ctx, hother m hm]
  · rw [State.mbDone_mem, State.store_dev, State.setCtx_dev]
  · rw [State.mbDone_mb]
  · rw [State.mbDone_mb]

/-! ### Residency (R46, R48) -/

theorem lowestFree_none {used : List Nat} {n : Nat} : lowestFree used n = none ↔ ∀ r < n, r ∈ used := by
  induction n with
  | zero => simp [lowestFree]
  | succ n ih =>
    simp only [lowestFree, Option.or_eq_none_iff, ih, Nat.lt_succ_iff_lt_or_eq, or_imp, forall_and, forall_eq]
    simp
theorem lowestFree_some {used : List Nat} {n r : Nat} (hr : r < n) (hf : r ∉ used) (hl : ∀ y < r, y ∈ used) : lowestFree used n = some r := by
  induction n with
  | zero => omega
  | succ n ih =>
    rw [lowestFree]
    by_cases h : r < n
    · rw [ih h]; rfl
    · obtain rfl : r = n := by omega
      rw [lowestFree_none.mpr hl]
      simp [hf]

/-- The slots that contexts hold. -/
theorem State.mem_heldSlots {s : State} {r : Nat} : r ∈ (s.dev.ctxs.filter s.holdsSlot).map Ctx.rslot ↔ ∃ x ∈ s.dev.ctxs, s.holdsSlot x = true ∧ x.rslot = r := by
  simp [and_assoc]
theorem State.freeSlot_none {s : State} (h : ∀ r < 4, ∃ x ∈ s.dev.ctxs, s.holdsSlot x = true ∧ x.rslot = r) : s.freeSlot = none :=
  lowestFree_none.mpr fun r hr => State.mem_heldSlots.mpr (h r hr)
theorem State.freeSlot_some {s : State} {r : Nat} (hr : r < 4) (hf : ∀ x ∈ s.dev.ctxs, s.holdsSlot x = true → x.rslot ≠ r)
    (hl : ∀ y < r, ∃ x ∈ s.dev.ctxs, s.holdsSlot x = true ∧ x.rslot = y) : s.freeSlot = some r :=
  lowestFree_some hr (fun h => let ⟨x, hx, hs, he⟩ := State.mem_heldSlots.mp h; hf x hx hs he) fun y hy => State.mem_heldSlots.mpr (hl y hy)

/-- The order of R48 as one number: the stamp, then the mailbox. -/
def PrioUpdate.rank (u : PrioUpdate) : Nat := 2 * u.stamp + u.mailbox.toNat
theorem PrioUpdate.beats_iff (u v : PrioUpdate) : u.beats v = true ↔ v.rank < u.rank := by
  unfold PrioUpdate.beats PrioUpdate.rank
  cases u.mailbox <;> cases v.mailbox <;> simp <;> omega
theorem PrioUpdate.beats_false (u v : PrioUpdate) : u.beats v = false ↔ u.rank ≤ v.rank := by
  rw [Bool.eq_false_iff, ne_eq, PrioUpdate.beats_iff, Nat.not_lt]

/-- Of the updates taken one by one, the last effective is one of them that none beats. -/
theorem foldl_beats (l : List PrioUpdate) (a : PrioUpdate) :
    let r := l.foldl (fun a u => if u.beats a then u else a) a
    (r = a ∨ r ∈ l) ∧ a.rank ≤ r.rank ∧ ∀ v ∈ l, v.rank ≤ r.rank := by
  induction l generalizing a with
  | nil => simp
  | cons b l ih =>
    have hb : (if b.beats a then b else a) = a ∨ (if b.beats a then b else a) = b := by split <;> simp
    have hab : a.rank ≤ (if b.beats a then b else a).rank ∧ b.rank ≤ (if b.beats a then b else a).rank := by
      split
      · next h => exact ⟨((b.beats_iff a).mp h).le, le_rfl⟩
      · next h => exact ⟨le_rfl, (b.beats_false a).mp (Bool.eq_false_iff.mpr h)⟩
    obtain ⟨hmem, hacc, hall⟩ := ih (if b.beats a then b else a)
    refine ⟨?_, hab.1.trans hacc, fun v hv => ?_⟩
    · rcases hmem with h | h
      · exact hb.imp (h.trans ·) fun k => List.mem_cons.mpr (.inl (h.trans k))
      · exact .inr (List.mem_cons_of_mem _ h)
    · rcases List.mem_cons.mp hv with rfl | hv
      · exact hab.2.trans hacc
      · exact hall v hv

/-- The priority that a context takes up: PRIO where no update is kept, and else a kept one that no kept one beats (R48). -/
def Ctx.Latest (c : Ctx) (u : PrioUpdate) : Prop := (u = ⟨c.prio, 0, false⟩ ∨ u ∈ c.kept) ∧ ∀ v ∈ c.kept, v.beats u = false
theorem Ctx.lastUpdate_latest (c : Ctx) : c.Latest (lastUpdate ⟨c.prio, 0, false⟩ c.kept) := by
  unfold Ctx.Latest
  cases c.kept with
  | nil => exact ⟨.inl rfl, fun v hv => absurd hv List.not_mem_nil⟩
  | cons a l =>
    obtain ⟨hmem, hacc, hall⟩ := foldl_beats l a
    refine ⟨.inr (List.mem_cons.mpr hmem), fun v hv => (v.beats_false _).mpr ?_⟩
    rcases List.mem_cons.mp hv with rfl | hv
    · exact hacc
    · exact hall v hv

/-- A core that holds no update of a context has the context's priority. -/
theorem Core.prio_base {k : Core} {c : Ctx} (h : ∀ x ∈ k.prios, x.ctx ≠ c.num) : k.prio c = c.base := by
  have hn : (k.prios.find? fun x => x.ctx = c.num) = none := List.find?_eq_none.mpr fun x hx => by simpa using h x hx
  simp only [Core.prio, hn]

/-- What becoming RESIDENT leaves (R46, R48): the slot and the latest of the kept updates, which every core has. -/
theorem State.makeResident_leaves (s : State) (n slot : Nat) :
    ∃ u, (s.ctx n).Latest u ∧ (s.makeResident n slot).ctx n = { s.ctx n with state := .resident, rslot := slot, base := u, eff := u, kept := [], keepsSlot := false } ∧
      (∀ m, m ≠ n → (s.makeResident n slot).ctx m = s.ctx m) ∧ (∀ k, ((s.makeResident n slot).coreOf k).prio ((s.makeResident n slot).ctx n) = u) ∧
      s.makeResident n slot = { s with core := (s.makeResident n slot).core, cores := (s.makeResident n slot).cores, dev := { s.dev with ctxs := (s.makeResident n slot).dev.ctxs } } := by
  let u := lastUpdate ⟨(s.ctx n).prio, 0, false⟩ (s.ctx n).kept
  let c : Ctx := { s.ctx n with state := .resident, rslot := slot, base := u, eff := u, kept := [], keepsSlot := false }
  let f : Core → Core := fun k => { k with prios := k.prios.filter fun x => x.ctx != n }
  have hn : c.num = n := s.ctx_num n
  obtain ⟨hset, hother⟩ := State.setCtx_at (s := s) hn
  have hctx : (s.makeResident n slot).ctx n = c := hset
  refine ⟨u, (s.ctx n).lastUpdate_latest, hctx, hother, fun k => ?_, rfl⟩
  rw [hctx]
  refine Core.prio_base (c := c) fun x hx => ?_
  rw [hn]
  rcases State.coreOf_map (s := s) (t := s.makeResident n slot) (f := f) (fun _ => rfl) rfl rfl k with h | ⟨h, -⟩ <;> rw [h] at hx
  · simpa using (List.mem_filter.mp hx).2
  · exact absurd hx List.not_mem_nil

/-! ### Priority (R48) -/

theorem State.takePrio_resident {s : State} {n : Nat} (h : (s.ctx n).state = .resident) (u : PrioUpdate) :
    s.takePrio n u = (true, s.setCtx { s.ctx n with eff := if u.beats (s.ctx n).eff then u else (s.ctx n).eff }) := by
  simp only [State.takePrio, h]
theorem State.takePrio_error {s : State} {n : Nat} (h : (s.ctx n).state = .error) (u : PrioUpdate) : s.takePrio n u = (false, s) := by
  simp only [State.takePrio, h]
theorem State.takePrio_kept {s : State} {n : Nat} (hr : (s.ctx n).state ≠ .resident) (he : (s.ctx n).state ≠ .error) (u : PrioUpdate) :
    s.takePrio n u = (false, s.setCtx { s.ctx n with kept := (s.ctx n).kept ++ [u] }) := by
  unfold State.takePrio
  dsimp only
  split
  · next h => exact absurd h hr
  · next h => exact absurd h he
  · rfl
end Sys2Proof.Machine

namespace Sys2Proof.Machine
open Sys2Proof

/-! ### Events that may end the command in progress (R17, R46) -/

/-- A state in which the command under way ends, where it is the one that waits for what has happened. -/
def State.doneIf (s : State) (x : Directed) (r : Nat) (l : List Byte) : State := if s.dev.mb.directed = x then s.mbDone r l else s

section
variable (s : State) (x : Directed) (r : Nat) (l : List Byte)

/-- Ending a command changes the mailbox and the vectors raised, and nothing else. -/
theorem State.doneIf_frame : s.doneIf x r l = { s with dev := { s.dev with mb := (s.doneIf x r l).dev.mb, msix := (s.doneIf x r l).dev.msix } } := by
  unfold State.doneIf
  split <;> rfl
theorem State.doneIf_this {s : State} {x : Directed} (h : s.dev.mb.directed = x) :
    (s.doneIf x r l).dev.mb = { s.dev.mb with busy := false, result := r, response := l, directed := .none, units := [] } := by
  rw [State.doneIf, if_pos h, State.mbDone_mb]
theorem State.doneIf_other {s : State} {x : Directed} (h : s.dev.mb.directed ≠ x) : s.doneIf x r l = s := if_neg h
@[simp] theorem State.doneIf_ctx (n : Nat) : (s.doneIf x r l).ctx n = s.ctx n := by rw [State.doneIf_frame]; rfl
@[simp] theorem State.doneIf_queue (n : Nat) : (s.doneIf x r l).queue n = s.queue n := by rw [State.doneIf_frame]; rfl
@[simp] theorem State.doneIf_coreOf (n : Nat) : (s.doneIf x r l).coreOf n = s.coreOf n := by rw [State.doneIf_frame]; rfl
@[simp] theorem State.doneIf_teams : (s.doneIf x r l).teams = s.teams := by rw [State.doneIf_frame]
@[simp] theorem State.doneIf_allCores : (s.doneIf x r l).allCores = s.allCores := by rw [State.doneIf_frame]; rfl
@[simp] theorem State.doneIf_mem : (s.doneIf x r l).dev.mem = s.dev.mem := by rw [State.doneIf_frame]
end

/-- CTX_RESTORE ends (R46, R48): every core has reported, and the teams that are still saved stand again. -/
theorem execCtxRestoreDone_leaves {s : State} {n : Nat} (h : (s.ctx n).state = .restoring) (hs : (s.ctx n).saved = []) :
    ∃ t u, execCtxRestoreDone n s = .next t ∧ (s.ctx n).Latest u ∧
      t.ctx n = { s.ctx n with state := .resident, base := u, eff := u, kept := [], savedTeams := [], keepsSlot := false } ∧ (∀ m, m ≠ n → t.ctx m = s.ctx m) ∧
      (∀ k, (t.coreOf k).prio (t.ctx n) = u) ∧ t.teams = s.teams ++ (s.ctx n).savedTeams ∧
      (s.dev.mb.directed = .restore n → t.dev.mb = { s.dev.mb with busy := false, result := 0, directed := .none, units := [] }) ∧ (s.dev.mb.directed ≠ .restore n → t.dev.mb = s.dev.mb) := by
  let s1 : State := { s with teams := s.teams ++ (s.ctx n).savedTeams }
  let s2 : State := s1.setCtx { s.ctx n with savedTeams := [] }
  let v : State := s2.makeResident n (s.ctx n).rslot
  obtain ⟨hset, hother⟩ := State.setCtx_at (s := s1) (k := { s.ctx n with savedTeams := [] }) (s.ctx_num n)
  obtain ⟨u, hu, hctx, hothers, hprio, hframe⟩ := s2.makeResident_leaves n (s.ctx n).rslot
  have hmb : v.dev.mb = s.dev.mb := by rw [show v = _ from hframe]; rfl
  refine ⟨v.doneIf (.restore n) 0 v.dev.mb.response, u, ?_, ?_, ?_, fun m hm => ?_, fun k => ?_, ?_, fun hd => ?_, fun hd => ?_⟩
  · rw [execCtxRestoreDone, if_neg (by simp [h, hs])]; rfl
  · rw [show s2.ctx n = _ from hset] at hu; exact hu
  · rw [State.doneIf_ctx, show v.ctx n = _ from hctx, show s2.ctx n = _ from hset]
  · rw [State.doneIf_ctx, show v.ctx m = _ from hothers m hm, show s2.ctx m = _ from hother m hm]; rfl
  · rw [State.doneIf_coreOf, State.doneIf_ctx]; exact hprio k
  · rw [State.doneIf_teams]; rfl
  · rw [State.doneIf_this _ _ (by rw [hmb]; exact hd), hmb]
  · rw [State.doneIf_other _ _ (by rw [hmb]; exact hd), hmb]

end Sys2Proof.Machine

namespace Sys2Proof.Machine
open Sys2Proof

/-! ## Queues under the mailbox (R55, R60, R72) -/

@[simp] theorem State.mbDone_queue (s : State) (r : Nat) (l : List Byte) (n : Nat) : (s.mbDone r l).queue n = s.queue n := rfl
@[simp] theorem State.store_queue (s : State) (a : Nat) (bs : List Byte) (n : Nat) : (s.store a bs).queue n = s.queue n := rfl

/-- A queue set is read back at its number, and no other changes. -/
theorem State.setQueue_at {s : State} {k : Queue} {q : Nat} (h : k.num = q) : (s.setQueue k).queue q = k ∧ ∀ m, m ≠ q → (s.setQueue k).queue m = s.queue m := by
  subst h
  exact ⟨by rw [State.queue_setQueue, if_pos rfl], fun m hm => by rw [State.queue_setQueue, if_neg hm]⟩

/-- A notice withdrawn is noted at its queue, and no other changes. -/
theorem State.withdrawNotice_at (s : State) (q : Nat) : (s.withdrawNotice q).queue q = { s.queue q with notice := false, claimed := false } ∧
    ∀ m, m ≠ q → (s.withdrawNotice q).queue m = s.queue m :=
  State.setQueue_at (s := s) (k := { s.queue q with notice := false, claimed := false }) (s.queue_num q)
theorem State.withdrawNotice_notices (s : State) (q : Nat) : ∀ x ∈ (s.withdrawNotice q).dev.notices, x.raster = true ∨ x.queue ≠ q := by
  intro x hx
  simpa using (List.mem_filter.mp hx).2

/-! ### Mapping (R55) -/

/-- How many mapped queues p selects. -/
def State.mapped (s : State) (p : Queue → Bool) : Nat := (s.dev.queues.filter fun x => x.state != .unmapped && p x).length

/-- What QUEUE_MAP asks of its parameters (R55). -/
def State.mapFits (s : State) : Prop :=
  let cls := s.param 3 1
  let lg := s.param 5 1
  let ring := s.param 8 8
  let w := s.param 16 8
  let r := s.param 24 8
  let inReach (a len : Nat) : Prop := a + len ≤ 2 ^ 56 ∧ ∀ x ∈ [a, a + len - 1], s.place x = .local ∨ s.place x = .host
  ring % 4096 = 0 ∧ w % 8 = 0 ∧ r % 8 = 0 ∧ 4 ≤ lg ∧ lg ≤ 20 ∧ cls ≤ 3 ∧ s.param 4 1 ≤ 7 ∧ s.param 6 1 ≤ 1 ∧ s.param 2 1 ≤ 63 ∧ inReach ring (64 * 2 ^ lg) ∧ inReach w 8 ∧ inReach r 8 ∧
    (s.param 6 1 = 1 → cls = 0) ∧ (s.ctx (s.param 2 1)).state ≠ .free ∧ (s.ctx (s.param 2 1)).state ≠ .releasing ∧ s.mapped (fun x => x.ctx = s.param 2 1) < (s.ctx (s.param 2 1)).qmax ∧
    (cls = 0 → s.mapped (fun x => x.cls = 0) < 64)
theorem State.badMap_false (s : State) : s.badMap = false ↔ s.mapFits := by
  unfold State.badMap State.mapFits
  dsimp only
  rw [← State.inReach_iff, ← State.inReach_iff, ← State.inReach_iff]
  simp only [Bool.or_eq_false_iff, Bool.and_eq_false_iff, Bool.not_eq_false', decide_eq_false_iff_not, State.usable_iff, State.mapped]
  generalize (s.ctx (s.param 2 1)).state = st
  constructor
  · rintro ⟨⟨⟨⟨⟨⟨⟨hp, hr⟩, hw⟩, hx⟩, hc⟩, hf, hl⟩, hq⟩, hb⟩
    refine ⟨by omega, by omega, by omega, by omega, by omega, by omega, by omega, by omega, by omega, hr, hw, hx, by omega, hf, hl, by omega, fun h => by omega⟩
  · rintro ⟨h1, h2, h3, h4, h5, h6, h7, h8, h9, hr, hw, hx, hc, hf, hl, hq, hb⟩
    refine ⟨⟨⟨⟨⟨⟨⟨by omega, hr⟩, hw⟩, hx⟩, by omega⟩, hf, hl⟩, by omega⟩, by omega⟩
theorem State.badMap_true (s : State) : s.badMap = true ↔ ¬ s.mapFits := by
  rw [← State.badMap_false, Bool.not_eq_false]

/-- The descriptor that QUEUE_MAP makes (R55). -/
def State.newQueue (s : State) (q : Nat) : Queue :=
  let at_ := leNat (s.dev.mem.readBytes (s.param 16 8) 8)
  let ns := if s.param 3 1 = 0 then 128 else 256
  { num := q, state := .idle, ctx := s.param 2 1, cls := s.param 3 1, home := s.param 4 1, log2 := s.param 5 1, priook := decide (s.param 6 1 = 1), ring := BitVec.ofNat 64 (s.param 8 8)
    widxAddr := BitVec.ofNat 64 (s.param 16 8), ridxAddr := BitVec.ofNat 64 (s.param 24 8), ridx := at_, qgen := (s.queue q).qgen + 1, pollns := ns, lastW := at_, due := s.dev.tick + ns * 5 / 4 }

/-- The state that QUEUE_MAP leaves (R55): the descriptor is made, and RIDX is as it has been read. -/
def State.mapQueue (s : State) (q : Nat) : State :=
  ((s.setQueue (s.newQueue q)).store (s.param 24 8) (leBytes (s.newQueue q).ridx 8)).mbDone 0 (leBytes ((s.queue q).qgen + 1).toNat 1)
theorem State.mapQueue_leaves (s : State) (q : Nat) : (s.mapQueue q).queue q = s.newQueue q ∧ (∀ m, m ≠ q → (s.mapQueue q).queue m = s.queue m) ∧
    (s.mapQueue q).dev.mem = s.dev.mem.writeBytes (s.param 24 8) (leBytes (s.newQueue q).ridx 8) ∧ (s.mapQueue q).dev.mb.result = 0 ∧
    (s.mapQueue q).dev.mb.response = leBytes ((s.queue q).qgen + 1).toNat 1 := by
  obtain ⟨hset, hother⟩ := State.setQueue_at (s := s) (k := s.newQueue q) (q := q) rfl
  unfold State.mapQueue
  refine ⟨?_, fun m hm => ?_, ?_, ?_, ?_⟩
  · rw [State.mbDone_queue, State.store_queue, hset]
  · rw [State.mbDone_queue, State.store_queue, hother m hm]
  · rw [State.mbDone_mem, State.store_dev, State.setQueue_dev]
  · rw [State.mbDone_mb]
  · rw [State.mbDone_mb]

/-- QUEUE_MAP of a queue that is mapped, with parameters that do not fit, and with parameters that do (R55). -/
theorem execQueueMap_ends {s : State} {q : Nat} (h : s.Takes [.ready] [(0, 7), (8, 24)]) (hq : s.param 0 2 = q) (hn : q ≤ 4095) :
    ((s.queue q).state ≠ .unmapped → execQueueMap s = .next (s.mbDone 2)) ∧
    ((s.queue q).state = .unmapped → ¬ s.mapFits → execQueueMap s = .next (s.mbDone 3)) ∧
    ((s.queue q).state = .unmapped → s.mapFits → execQueueMap s =
      .next (s.mapQueue q)) := by
  rw [execQueueMap, h.mbox]
  dsimp only
  rw [hq, if_neg (Nat.not_lt.mpr hn)]
  refine ⟨fun hs => if_pos hs, fun hs hf => ?_, fun hs hf => ?_⟩
  · rw [if_neg (not_not_intro hs), if_pos (s.badMap_true.mpr hf)]
  · have hfit := s.badMap_false.mpr hf
    obtain ⟨-, -, -, -, -, -, -, -, -, -, ⟨hw, -⟩, ⟨hr, -⟩, -⟩ := hf
    have hword (a : Nat) (ha : a + 8 ≤ 2 ^ 56) : (BitVec.ofNat 64 a).toNat = a := by
      rw [BitVec.toNat_ofNat, Nat.mod_eq_of_lt (by omega)]
    rw [if_neg (not_not_intro hs), if_neg (by rw [hfit]; exact Bool.false_ne_true)]
    simp only [State.putWord64, State.word64, hword _ hw, hword _ hr]
    rfl

/-- The descriptor that QUEUE_UNMAP leaves (R60), and those of the other queues. -/
theorem State.unmapped_at (s : State) (q : Nat) (gen : BitVec 8) : ((s.withdrawNotice q).setQueue { num := q, qgen := gen }).queue q = { num := q, qgen := gen } ∧
    ∀ m, m ≠ q → ((s.withdrawNotice q).setQueue { num := q, qgen := gen }).queue m = s.queue m := by
  obtain ⟨hset, hother⟩ := State.setQueue_at (s := s.withdrawNotice q) (k := { num := q, qgen := gen }) rfl
  exact ⟨hset, fun m hm => (hother m hm).trans ((s.withdrawNotice_at q).2 m hm)⟩
/-- QUEUE_UNMAP of a queue that is not IDLE, and of one that is (R60). -/
theorem execQueueUnmap_ends {s : State} {q : Nat} (h : s.Takes [.ready] [(0, 2)]) (hq : s.param 0 2 = q) (hn : q ≤ 4095) :
    ((s.queue q).state ≠ .idle → execQueueUnmap s = .next (s.mbDone 2)) ∧
    ((s.queue q).state = .idle → execQueueUnmap s = .next (((s.withdrawNotice q).setQueue { num := q, qgen := (s.queue q).qgen }).mbDone 0)) := by
  rw [execQueueUnmap, h.mbox]
  dsimp only
  rw [hq, if_neg (Nat.not_lt.mpr hn)]
  exact ⟨fun hs => if_pos hs, fun hs => if_neg (not_not_intro hs)⟩

/-! ### The end of a reset (R72) -/

/-- A state without its ports: what noting a generation for the ports leaves alone. -/
def State.noPorts (s : State) : State := { s with dev := { s.dev with ports := [] } }
theorem State.noteReset_noPorts (s : State) (q : Nat) (gen : BitVec 8) : (s.noteReset q gen).noPorts = s.noPorts := by
  unfold State.noteReset
  exact foldl_keeps State.noPorts (fun s n => by split <;> rfl) _ s
theorem State.eq_of_noPorts {s t : State} (h : t.noPorts = s.noPorts) : t = { s with dev := { s.dev with ports := t.dev.ports } } :=
  congrArg (fun u : State => { u with dev := { u.dev with ports := t.dev.ports } }) h

/-- A reset ends (R72): nothing of the queue is left, and it is IDLE with the next generation. -/
theorem execQueueResetDone_leaves {s : State} {q : Nat} (hs : (s.queue q).state = .resetting)
    (hu : (s.dev.mb.directed = .queueReset q ∨ s.dev.mb.directed = .release (s.queue q).ctx) → s.dev.mb.units = [])
    (hteam : ∀ x ∈ s.allTeams, x.serial ≠ 0 → x.queue ≠ q) (hsaved : ∀ y ∈ s.dev.ctxs, ∀ x ∈ y.savedTeams, x.serial ≠ 0 → x.queue ≠ q)
    (hb : ∀ x ∈ s.dev.sets, ∀ b, x.builder = some b → b.queue ≠ q) :
    let k := s.queue q
    let k' : Queue := { k with state := .idle, qgen := k.qgen + 1, ridx := k.lastW, pollns := firstPoll k.cls, due := s.dev.tick + firstPoll k.cls * 5 / 4 }
    ∃ t, execQueueResetDone q s = .next t ∧ t.queue q = k' ∧ (∀ m, m ≠ q → t.queue m = s.queue m) ∧ t.dev.mem = s.dev.mem.writeBytes k.ridxAddr.toNat (leBytes k.lastW 8) ∧
      (∀ l ∈ t.dev.launches, l.queue ≠ q) ∧
      (s.dev.mb.directed = .queueReset q → t.dev.mb.busy = false ∧ t.dev.mb.result = 0x10 ∧ t.dev.mb.response = leBytes (k.qgen + 1).toNat 1) ∧
      (s.dev.mb.directed ≠ .queueReset q → t.dev.mb = s.dev.mb) := by
  intro k k'
  let v : State := s.setDev fun d => { d with launches := d.launches.filter fun l => l.queue != q }
  let w : State := (v.setQueue k').store k.ridxAddr.toNat (leBytes k.lastW 8)
  obtain ⟨t, ht⟩ : ∃ t, t = w.noteReset q (k.qgen + 1) := ⟨_, rfl⟩
  obtain ⟨hset, hother⟩ := State.setQueue_at (s := v) (k := k') (s.queue_num q)
  have hframe : t = { w with dev := { w.dev with ports := t.dev.ports } } := State.eq_of_noPorts (ht ▸ State.noteReset_noPorts ..)
  have hqueue (m : Nat) : t.queue m = w.queue m := by rw [hframe]; rfl
  have hmb : t.dev.mb = s.dev.mb := by rw [hframe]; rfl
  have hdone : ¬ ((s.queue q).state ≠ .resetting ∨ !s.unitsDone (.queueReset q) ∨ !s.unitsDone (.release (s.queue q).ctx) ∨ s.everyTeam.any (fun t => t.serial != 0 && t.queue = q) ∨
      s.dev.sets.any fun x => x.builder.any fun b => b.queue = q) := by
    have hunits (x : Directed) (hx : x = .queueReset q ∨ x = .release (s.queue q).ctx) : s.unitsDone x = true := by
      simp only [State.unitsDone, Bool.or_eq_true, decide_eq_true_eq]
      refine or_iff_not_imp_left.mpr fun hd => hu ?_
      rw [not_not.mp hd]; exact hx
    have hteams : s.everyTeam.any (fun t => t.serial != 0 && t.queue = q) = false := by
      rw [List.any_eq_false]
      intro x hx
      have : x.serial ≠ 0 → x.queue ≠ q := by
        rcases List.mem_append.mp hx with hx | hx
        · exact hteam x hx
        · obtain ⟨y, hy, hx⟩ := List.mem_flatMap.mp hx
          exact hsaved y hy x hx
      simpa using this
    have hsets : (s.dev.sets.any fun x => x.builder.any fun b => b.queue = q) = false := by
      rw [List.any_eq_false]
      intro x hx
      cases hbx : x.builder with
      | none => simp
      | some b => simpa using hb x hx b hbx
    rw [hs, hunits _ (.inl rfl), hunits _ (.inr rfl), hteams, hsets]
    simp
  refine ⟨t.doneIf (.queueReset q) 0x10 (leBytes (k.qgen + 1).toNat 1), ?_, ?_, fun m hm => ?_, ?_, fun l hl => ?_, fun hd => ?_, fun hd => ?_⟩
  · rw [execQueueResetDone, if_neg hdone]
    exact congrArg (fun t : State => Host.Outcome.next (t.doneIf (.queueReset q) 0x10 (leBytes (k.qgen + 1).toNat 1))) ht.symm
  · rw [State.doneIf_queue, hqueue, State.store_queue, hset]
  · rw [State.doneIf_queue, hqueue, State.store_queue, hother m hm]; rfl
  · rw [State.doneIf_mem, hframe]
    exact congrArg Device.mem (State.store_dev (v.setQueue k') _ _)
  · rw [State.doneIf_frame, hframe] at hl
    simpa using (List.mem_filter.mp hl).2
  · rw [State.doneIf_this _ _ (by rw [hmb]; exact hd)]
    exact ⟨rfl, rfl, rfl⟩
  · rw [State.doneIf_other _ _ (by rw [hmb]; exact hd), hmb]

end Sys2Proof.Machine

namespace Sys2Proof.Machine
open Sys2Proof

/-! ## The query of a record (R83) -/

/-- The two bits of a ticket in the progress map: 0 not started, 1 started, 3 completed. -/
def Launch.mapDigit (l : Launch) (i : Nat) : Nat := match l.map.find? fun e => e.1 % 65536 = i with | some e => if e.2 then 3 else 1 | none => 0
theorem Launch.mapDigit_lt (l : Launch) (i : Nat) : l.mapDigit i < 4 := by
  unfold Launch.mapDigit
  split
  · split <;> decide
  · decide

/-- A byte of the map holds four tickets, lowest first. -/
theorem Launch.mapByte_eq (l : Launch) (i : Nat) :
    (l.mapByte i).toNat = l.mapDigit (4 * i) + 4 * l.mapDigit (4 * i + 1) + 16 * l.mapDigit (4 * i + 2) + 64 * l.mapDigit (4 * i + 3) := by
  have hterm (j : Nat) : (match l.map.find? fun e => e.1 % 65536 = 4 * i + j with | some e => (if e.2 then 3 else 1) * 4 ^ j | none => 0) = l.mapDigit (4 * i + j) * 4 ^ j := by
    unfold Launch.mapDigit
    cases l.map.find? fun e => decide (e.1 % 65536 = 4 * i + j) with
    | some e => rfl
    | none => exact (Nat.zero_mul _).symm
  have h0 := l.mapDigit_lt (4 * i)
  have h1 := l.mapDigit_lt (4 * i + 1)
  have h2 := l.mapDigit_lt (4 * i + 2)
  have h3 := l.mapDigit_lt (4 * i + 3)
  have hsum : l.mapByte i = BitVec.ofNat 8 (((List.range 4).map fun j => l.mapDigit (4 * i + j) * 4 ^ j).sum) :=
    congrArg (fun f : Nat → Nat => BitVec.ofNat 8 ((List.range 4).map f).sum) (funext hterm)
  have hfour : ((List.range 4).map fun j => l.mapDigit (4 * i + j) * 4 ^ j).sum =
      l.mapDigit (4 * i) + 4 * l.mapDigit (4 * i + 1) + 16 * l.mapDigit (4 * i + 2) + 64 * l.mapDigit (4 * i + 3) := by
    simp only [List.range_succ, List.range_zero, List.nil_append, List.cons_append, List.map_cons, List.map_nil, List.sum_cons, List.sum_nil, Nat.add_zero]
    omega
  rw [hsum, hfour, BitVec.toNat_ofNat, Nat.mod_eq_of_lt (by omega)]
theorem Launch.mapByte_field (l : Launch) (i : Nat) {j : Nat} (hj : j < 4) : fieldOf (l.mapByte i).toNat (2 * j) 2 = l.mapDigit (4 * i + j) := by
  have h0 := l.mapDigit_lt (4 * i)
  have h1 := l.mapDigit_lt (4 * i + 1)
  have h2 := l.mapDigit_lt (4 * i + 2)
  have h3 := l.mapDigit_lt (4 * i + 3)
  rw [fieldOf, Launch.mapByte_eq]
  interval_cases j
  · show _ / 1 % 4 = l.mapDigit (4 * i)
    omega
  · show _ / 4 % 4 = _
    omega
  · show _ / 16 % 4 = _
    omega
  · show _ / 64 % 4 = _
    omega

/-- The bytes that LAUNCH_QUERY copies: the header, then the map. -/
def Launch.recordBytes (l : Launch) : List Byte := l.headerBytes ++ (List.range 16384).map l.mapByte
theorem Launch.length_headerBytes (l : Launch) : l.headerBytes.length = 64 := length_leBytes _ _
theorem Launch.length_recordBytes (l : Launch) : l.recordBytes.length = 16448 := by
  rw [Launch.recordBytes, List.length_append, Launch.length_headerBytes, List.length_map, List.length_range]
theorem Launch.take_recordBytes (l : Launch) : l.recordBytes.take 64 = l.headerBytes := by
  rw [Launch.recordBytes, List.take_append_of_le_length l.length_headerBytes.ge, List.take_of_length_le l.length_headerBytes.le]
theorem Launch.getD_recordBytes (l : Launch) {k : Nat} (h : k < 16384) : l.recordBytes.getD (64 + k) 0 = l.mapByte k := by
  rw [Launch.recordBytes, List.getD_append_right _ _ _ _ (by rw [Launch.length_headerBytes]; omega), Launch.length_headerBytes, Nat.add_sub_cancel_left,
    List.getD_eq_getElem _ _ (by simpa using h)]
  simp
/-- What the bytes say of a ticket. -/
theorem Launch.recordBytes_digit (l : Launch) : ∀ i < 65536, fieldOf (l.recordBytes.getD (64 + i / 4) 0).toNat (2 * (i % 4)) 2 = l.mapDigit i := by
  intro i hi
  rw [l.getD_recordBytes (by omega), l.mapByte_field _ (by omega), Nat.div_add_mod]
/-- The header lists its fields from the highest down; their sum is the same from the lowest up. -/
theorem Launch.headerBytes_eq (l : Launch) : l.headerBytes = leBytes (l.state.num + l.go.toNat * 2 ^ 43 + l.morton.toNat * 2 ^ 44 + l.cohort.toNat * 2 ^ 45 + l.ctx % 64 * 2 ^ 46 +
    l.queue % 4096 * 2 ^ 52 + l.qgen.toNat * 2 ^ 64 + l.err % 256 * 2 ^ 72 + l.id.toNat * 2 ^ 80 + l.kdesc.toNat * 2 ^ 112 + l.low % 2 ^ 64 * 2 ^ 192 + l.hwm % 2 ^ 64 * 2 ^ 256 +
    l.total % 2 ^ 64 * 2 ^ 320 + l.doneN % 2 ^ 64 * 2 ^ 384 + l.ticket % 2 ^ 64 * 2 ^ 448) 64 := by
  unfold Launch.headerBytes
  congr 1
  ac_rfl

theorem State.launch_freeLaunch (s : State) (id : Word) : (s.freeLaunch id).launch? id = none :=
  List.find?_eq_none.mpr fun l hl => by simpa using (List.mem_filter.mp hl).2

/-- The state once a record has been copied; one that has failed is freed. -/
def State.copied (s : State) (a : Nat) (l : Launch) : State := if l.state = .failed then (s.store a l.recordBytes).freeLaunch l.id else s.store a l.recordBytes
theorem State.copied_mem (s : State) (a : Nat) (l : Launch) : (s.copied a l).dev.mem = s.dev.mem.writeBytes a l.recordBytes := by
  have hs : (s.store a l.recordBytes).dev.mem = s.dev.mem.writeBytes a l.recordBytes := by rw [State.store_dev]
  have hfree (t : State) (id : Word) : (t.freeLaunch id).dev.mem = t.dev.mem := rfl
  unfold State.copied
  split
  · rw [hfree, hs]
  · exact hs
theorem State.copied_failed {s : State} {a : Nat} {l : Launch} (h : l.state = .failed) : (s.copied a l).launch? l.id = none := by
  rw [State.copied, if_pos h]
  exact State.launch_freeLaunch ..
theorem State.copied_launches {s : State} {a : Nat} {l : Launch} (h : l.state ≠ .failed) : (s.copied a l).dev.launches = s.dev.launches := by
  rw [State.copied, if_neg h, State.store_dev]

section
variable {s : State} (h : s.Takes [.ready] [(0, 4), (8, 8)])
include h

theorem execLaunchQuery_none (hl : s.launch? (BitVec.ofNat 32 (s.param 0 4)) = none) : execLaunchQuery s = .next (s.mbDone 3) := by
  rw [execLaunchQuery, h.mbox]
  simp only [hl]
/-- LAUNCH_QUERY of a record that it does not copy, and of one that it does. -/
theorem execLaunchQuery_ends {l : Launch} (hl : s.launch? (BitVec.ofNat 32 (s.param 0 4)) = some l) :
    (s.param 8 8 % 64 ≠ 0 ∨ s.inReach (s.param 8 8) 16448 = false ∨ l.state = .pending ∨ l.state = .done → execLaunchQuery s = .next (s.mbDone 3)) ∧
    (s.param 8 8 % 64 = 0 → s.inReach (s.param 8 8) 16448 = true → l.state ≠ .pending → l.state ≠ .done → ∃ t, execLaunchQuery s = .next t ∧
      t.dev.mem = s.dev.mem.writeBytes (s.param 8 8) l.recordBytes ∧ t.dev.mb.result = 0 ∧ (l.state = .failed → t.launch? l.id = none) ∧ (l.state ≠ .failed → t.dev.launches = s.dev.launches)) := by
  rw [execLaunchQuery, h.mbox]
  simp only [hl]
  refine ⟨fun hbad => if_pos (hbad.imp_right (Or.imp_left fun hr => by rw [hr]; rfl)), fun ha hr hp hd => ?_⟩
  have hmem := s.copied_mem (s.param 8 8) l
  have hfreed := State.copied_failed (s := s) (a := s.param 8 8) (l := l)
  have hkept := State.copied_launches (s := s) (a := s.param 8 8) (l := l)
  obtain ⟨t, ht⟩ : ∃ t, s.copied (s.param 8 8) l = t := ⟨_, rfl⟩
  rw [ht] at hmem hfreed hkept
  refine ⟨t.mbDone 0, (if_neg ?_).trans (congrArg (fun t : State => Host.Outcome.next (t.mbDone 0)) ht), hmem, rfl, hfreed, hkept⟩
  rintro (hx | hx | hx | hx)
  · exact hx ha
  · rw [hr] at hx; exact Bool.false_ne_true hx
  · exact hp hx
  · exact hd hx
end

end Sys2Proof.Machine

namespace Sys2Proof.Machine
open Sys2Proof

/-! ### The end of a release (R47) -/

theorem State.store_only (s : State) (a : Nat) (bs : List Byte) : StoresOnly s (s.store a bs) := rfl
theorem StoresOnly.trans {s t u : State} (h : StoresOnly s t) (k : StoresOnly t u) : StoresOnly s u := by
  unfold StoresOnly at *; rw [k, h]
/-- Freeing overflow slots writes memory alone. -/
theorem State.freeSlots_frame (s : State) (l : List Key) : StoresOnly s (s.freeSlots l) := by
  induction l generalizing s with
  | nil => rfl
  | cons k t ih =>
    have h : StoresOnly s (if k.spilled then s.store ((s.ctx k.ctx).ovbase.toNat + 32 * k.ovslot) (leBytes 0 32) else s) := by
      split
      · exact s.store_only _ _
      · rfl
    exact h.trans (ih _)
/-- Where no key has spilled, there is no slot to free. -/
theorem State.freeSlots_none (s : State) {l : List Key} (h : ∀ k ∈ l, k.spilled = false) : s.freeSlots l = s := by
  induction l with
  | nil => rfl
  | cons k t ih =>
    rw [State.freeSlots, List.foldl_cons, if_neg (by rw [h k List.mem_cons_self]; exact Bool.false_ne_true)]
    exact ih fun x hx => h x (List.mem_cons_of_mem _ hx)

theorem State.keepKeys_frame (s : State) (p : Key → Bool) :
    s.keepKeys p = { s with dev := { s.dev with keys := (s.keepKeys p).dev.keys, mem := (s.keepKeys p).dev.mem, poison := (s.keepKeys p).dev.poison } } := by
  have h := State.freeSlots_frame (s.setDev fun d => { d with keys := (d.keys.filter p).filterMap fun k => if k.needed then some k else k.idle }) (s.dev.keys.filter fun k => !(p k && k.needed))
  unfold StoresOnly at h
  rw [State.keepKeys, h]
  rfl
theorem State.keepKeys_keys (s : State) (p : Key → Bool) : (s.keepKeys p).dev.keys = (s.dev.keys.filter p).filterMap fun k => if k.needed then some k else k.idle := by
  have h := State.freeSlots_frame (s.setDev fun d => { d with keys := (d.keys.filter p).filterMap fun k => if k.needed then some k else k.idle }) (s.dev.keys.filter fun k => !(p k && k.needed))
  unfold StoresOnly at h
  rw [State.keepKeys, h]
  rfl
/-- What is kept of a key that needs no entry has its context, key and waiters. -/
theorem Key.idle_some {k k' : Key} (h : k.idle = some k') : k'.ctx = k.ctx ∧ k'.key = k.key ∧ k'.waiters = k.waiters := by
  unfold Key.idle at h
  split at h
  · cases h
  · cases h; exact ⟨rfl, rfl, rfl⟩
/-- A key that is kept is one of those selected, with its context, key and waiters. -/
theorem State.mem_keepKeys {s : State} {p : Key → Bool} {k : Key} (h : k ∈ (s.keepKeys p).dev.keys) :
    ∃ k0 ∈ s.dev.keys, p k0 = true ∧ k.ctx = k0.ctx ∧ k.key = k0.key ∧ k.waiters = k0.waiters := by
  rw [State.keepKeys_keys] at h
  obtain ⟨k0, hk0, hk⟩ := List.mem_filterMap.mp h
  obtain ⟨hmem, hp⟩ := List.mem_filter.mp hk0
  refine ⟨k0, hmem, hp, ?_⟩
  split at hk
  · cases hk; exact ⟨rfl, rfl, rfl⟩
  · exact Key.idle_some hk
theorem State.keepKeys_mem_none {s : State} {p : Key → Bool} (h : ∀ k ∈ s.dev.keys, k.spilled = false) : (s.keepKeys p).dev.mem = s.dev.mem := by
  rw [State.keepKeys, State.freeSlots_none _ fun k hk => h k (List.mem_filter.mp hk).1]
  rfl

/-- A map of every core that leaves their groups alone maps every core that the state lists. -/
theorem State.allCores_mapCores (s : State) {f : Core → Core} (hf : ∀ k gs, f { k with groups := gs } = { f k with groups := gs }) (hg : ∀ k, (f k).groups = k.groups) :
    (s.mapCores f).allCores = s.allCores.map f := by
  have hstow : (s.mapCores f).stowCore = f s.stowCore := by
    rw [State.stowCore, State.stowCore, hf, ← hg s.core]
    rfl
  show (s.mapCores f).stowCore :: s.cores.map f = f s.stowCore :: s.cores.map f
  rw [hstow]

/-- What is dropped of a context on a core as it becomes FREE (R47). -/
def Core.forget (ctx : Nat) (k : Core) : Core := { k with
  icache := k.icache.filter fun l => l.ctx != ctx, versions := k.versions.filter fun l => l.ctx != ctx, fills := k.fills.filter fun f => f.line.ctx != ctx
  tags := k.tags.filter fun e => e.ctx != ctx, prios := k.prios.filter fun x => x.ctx != ctx }
theorem Core.forget_left (ctx : Nat) (k : Core) : (∀ l ∈ (k.forget ctx).icache ++ (k.forget ctx).versions, l.ctx ≠ ctx) ∧ (∀ f ∈ (k.forget ctx).fills, f.line.ctx ≠ ctx) ∧ ∀ e ∈ (k.forget ctx).tags, e.ctx ≠ ctx := by
  refine ⟨fun l hl => ?_, fun f hf => ?_, fun e he => ?_⟩
  · rcases List.mem_append.mp hl with hl | hl <;> simpa using (List.mem_filter.mp hl).2
  · simpa using (List.mem_filter.mp hf).2
  · simpa using (List.mem_filter.mp he).2

/-- The state once translations, lines and keys of a context are dropped. -/
def State.dropHeld (s : State) (n : Nat) : State :=
  ((s.dropTlb (fun e => e.astag = (s.ctx n).astag) (fun _ => true) true true).mapCores (Core.forget n)).keepKeys fun k => k.ctx != n
/-- The state once nothing of a context is left (R47). -/
def State.forgotten (s : State) (n : Nat) : State :=
  ((s.dropHeld n).setDev fun d => { d with sets := d.sets.filter fun x => x.ctx != n, salt := d.salt.filter fun x => x.ctx != n, strays := d.strays.filter fun k => k.prioCtx != n }).setCtx
    { num := n, gen := (s.ctx n).gen }

section
variable (s : State) (n : Nat)

theorem State.dropHeld_frame :
    let t := s.dropTlb (fun e => e.astag = (s.ctx n).astag) (fun _ => true) true true
    s.dropHeld n = { t.mapCores (Core.forget n) with dev := { t.dev with keys := (s.dropHeld n).dev.keys, mem := (s.dropHeld n).dev.mem, poison := (s.dropHeld n).dev.poison } } :=
  State.keepKeys_frame ..
theorem State.dropHeld_ctxs : (s.dropHeld n).dev.ctxs = s.dev.ctxs := by rw [State.dropHeld_frame]; rfl
theorem State.dropHeld_mb : (s.dropHeld n).dev.mb = s.dev.mb := by rw [State.dropHeld_frame]; rfl
theorem State.dropHeld_keys : ∀ k ∈ (s.dropHeld n).dev.keys, k.ctx ≠ n := by
  intro k hk
  obtain ⟨k0, -, hk0, hctx, -⟩ := State.mem_keepKeys hk
  rw [hctx]
  simpa using hk0
theorem State.dropHeld_mem (h : ∀ k ∈ s.dev.keys, k.spilled = false) : (s.dropHeld n).dev.mem = s.dev.mem := by
  exact State.keepKeys_mem_none (s := (s.dropTlb _ _ _ _).mapCores _) h
/-- No translation of the context is left at an Arbour or a Lodge. -/
theorem State.dropHeld_tlb : (∀ e ∈ (s.dropHeld n).dev.l2tlb ++ (s.dropHeld n).dev.walkCache, e.2.astag ≠ (s.ctx n).astag) ∧
    ∀ e ∈ (s.dropHeld n).dev.lodgeTlb ++ (s.dropHeld n).dev.lodgeTlbB, e.astag ≠ (s.ctx n).astag := by
  obtain ⟨ha, hb, hl2, -⟩ := s.dropTlb_left (fun e => e.astag = (s.ctx n).astag) (fun _ => true) true true
  have hframe := s.dropHeld_frame n
  generalize s.dropTlb (fun e => e.astag = (s.ctx n).astag) (fun _ => true) true true = t at ha hb hl2 hframe
  have hl2' : ∀ e ∈ t.dev.l2tlb ++ t.dev.walkCache, e.2.astag ≠ (s.ctx n).astag := fun e he => of_decide_eq_false (hl2 e he rfl)
  have hlodge : ∀ e ∈ t.dev.lodgeTlb ++ t.dev.lodgeTlbB, e.astag ≠ (s.ctx n).astag := fun e he => of_decide_eq_false ((List.mem_append.mp he).elim (ha rfl e) (hb rfl e))
  rw [hframe]
  exact ⟨hl2', hlodge⟩
/-- A core keeps no translation, line or tag of the context. -/
theorem State.dropHeld_cores : ∀ k ∈ (s.dropHeld n).allCores, (∀ e ∈ k.itlb ++ k.dtlb, e.astag ≠ (s.ctx n).astag) ∧ (∀ l ∈ k.icache ++ k.versions, l.ctx ≠ n) ∧
    (∀ f ∈ k.fills, f.line.ctx ≠ n) ∧ ∀ e ∈ k.tags, e.ctx ≠ n := by
  obtain ⟨-, -, -, hcores⟩ := s.dropTlb_left (fun e => e.astag = (s.ctx n).astag) (fun _ => true) true true
  have hall : (s.dropHeld n).allCores = (s.dropTlb (fun e => e.astag = (s.ctx n).astag) (fun _ => true) true true).allCores.map (Core.forget n) := by
    rw [State.dropHeld_frame]
    exact State.allCores_mapCores _ (f := Core.forget n) (fun _ _ => rfl) fun _ => rfl
  intro k hk
  rw [hall] at hk
  obtain ⟨k0, hk0, rfl⟩ := List.mem_map.mp hk
  exact ⟨fun e he => of_decide_eq_false (hcores k0 hk0 rfl e he), k0.forget_left n⟩

theorem State.forgotten_dev : ∃ ctxs salt strays, (s.forgotten n).dev = { (s.dropHeld n).dev with ctxs, salt, strays, sets := (s.dropHeld n).dev.sets.filter fun x => x.ctx != n } :=
  ⟨_, _, _, by simp only [State.forgotten, State.setCtx_dev, State.setDev_dev]; rfl⟩
theorem State.forgotten_allCores : (s.forgotten n).allCores = (s.dropHeld n).allCores := by
  have hset (u : State) (f : Device → Device) (c : Ctx) : ((u.setDev f).setCtx c).allCores = u.allCores := rfl
  rw [State.forgotten, hset]
theorem State.forgotten_ctx : (s.forgotten n).ctx n = { num := n, gen := (s.ctx n).gen } ∧ ∀ m, m ≠ n → (s.forgotten n).ctx m = s.ctx m := by
  unfold State.forgotten
  generalize hu : State.setDev _ _ = u
  have hctx (m : Nat) : u.ctx m = s.ctx m := State.ctx_congr (by rw [← hu, State.setDev_dev, State.dropHeld_ctxs]) m
  obtain ⟨hset, hother⟩ := State.setCtx_at (s := u) (k := { num := n, gen := (s.ctx n).gen }) (n := n) rfl
  exact ⟨hset, fun m hm => (hother m hm).trans (hctx m)⟩
end

/-- A release is due to end when no queue of the context resets and no team of it is left. -/
theorem execCtxReleaseDone_due {s : State} {n : Nat} (hs : (s.ctx n).state = .releasing) (hu : s.dev.mb.directed = .release n → s.dev.mb.units = [])
    (hq : ∀ q ∈ s.dev.queues, q.ctx = n → q.state ≠ .resetting) (ht : ∀ x ∈ s.allTeams, x.serial ≠ 0 → x.ctx ≠ n) :
    execCtxReleaseDone n s = .next ((s.forgotten n).doneIf (.release n) 0 []) := by
  have hunits : s.unitsDone (.release n) = true := by
    simp only [State.unitsDone, Bool.or_eq_true, decide_eq_true_eq]
    exact or_iff_not_imp_left.mpr fun hd => hu (not_not.mp hd)
  have hqueues : s.dev.queues.any (fun q => q.ctx = n && q.state = .resetting) = false := by
    rw [List.any_eq_false]; intro q hm; simpa using hq q hm
  have hteams : s.allTeams.any (fun t => t.serial != 0 && t.ctx = n) = false := by
    rw [List.any_eq_false]; intro z hm; simpa using ht z hm
  rw [execCtxReleaseDone, if_neg (by rw [hs, hunits, hqueues, hteams]; simp)]
  rfl
/-- A release ends (R47): the entry is FREE, and no unit keeps anything of the context. -/
theorem execCtxReleaseDone_leaves {s : State} {n : Nat} (hs : (s.ctx n).state = .releasing) (hu : s.dev.mb.directed = .release n → s.dev.mb.units = [])
    (hq : ∀ q ∈ s.dev.queues, q.ctx = n → q.state ≠ .resetting) (ht : ∀ x ∈ s.allTeams, x.serial ≠ 0 → x.ctx ≠ n) :
    ∃ t, execCtxReleaseDone n s = .next t ∧ (t.ctx n = { num := n, gen := (s.ctx n).gen } ∧ ∀ m, m ≠ n → t.ctx m = s.ctx m) ∧
      (∀ k ∈ t.allCores, (∀ e ∈ k.itlb ++ k.dtlb, e.astag ≠ (s.ctx n).astag) ∧ (∀ l ∈ k.icache ++ k.versions, l.ctx ≠ n) ∧ (∀ f ∈ k.fills, f.line.ctx ≠ n) ∧ ∀ e ∈ k.tags, e.ctx ≠ n) ∧
      (∀ k ∈ t.dev.keys, k.ctx ≠ n) ∧ (∀ e ∈ t.dev.l2tlb ++ t.dev.walkCache, e.2.astag ≠ (s.ctx n).astag) ∧
      (∀ e ∈ t.dev.lodgeTlb ++ t.dev.lodgeTlbB, e.astag ≠ (s.ctx n).astag) ∧ (∀ x ∈ t.dev.sets, x.ctx ≠ n) ∧ ((∀ k ∈ s.dev.keys, k.spilled = false) → t.dev.mem = s.dev.mem) ∧
      (s.dev.mb.directed = .release n → t.dev.mb.busy = false ∧ t.dev.mb.result = 0) ∧ (s.dev.mb.directed ≠ .release n → t.dev.mb = s.dev.mb) := by
  have hx := execCtxReleaseDone_due hs hu hq ht
  have hcores := s.dropHeld_cores n
  rw [← s.forgotten_allCores n] at hcores
  obtain ⟨hctx, hother⟩ := s.forgotten_ctx n
  obtain ⟨ctxs, salt, strays, hdev⟩ := s.forgotten_dev n
  have hmb : (s.forgotten n).dev.mb = s.dev.mb := by rw [hdev, ← s.dropHeld_mb n]
  obtain ⟨hl2, hlodge⟩ := s.dropHeld_tlb n
  generalize s.forgotten n = y at hx hcores hctx hother hdev hmb
  refine ⟨y.doneIf (.release n) 0 [], hx, ⟨?_, fun m hm => ?_⟩, ?_, ?_, ?_, ?_, ?_, fun hsp => ?_, fun hd => ?_, fun hd => ?_⟩
  · rw [State.doneIf_ctx, hctx]
  · rw [State.doneIf_ctx, hother m hm]
  · rw [State.doneIf_allCores]; exact hcores
  · rw [State.doneIf_frame, hdev]; exact s.dropHeld_keys n
  · rw [State.doneIf_frame, hdev]; exact hl2
  · rw [State.doneIf_frame, hdev]; exact hlodge
  · rw [State.doneIf_frame, hdev]
    exact fun z hz => by simpa using (List.mem_filter.mp hz).2
  · rw [State.doneIf_mem, hdev, ← s.dropHeld_mem n hsp]
  · rw [State.doneIf_this _ _ (by rw [hmb]; exact hd)]
    exact ⟨rfl, rfl⟩
  · rw [State.doneIf_other _ _ (by rw [hmb]; exact hd), hmb]

end Sys2Proof.Machine

namespace Sys2Proof.Machine
open Sys2Proof

/-! ### Pre-emption (R215, R384) -/

/-- Withdrawing waits changes the keys, and memory where overflow slots are freed. -/
theorem State.withdraw_frame (s : State) (p : Waiter → Bool) :
    s.withdraw p = { s with dev := { s.dev with keys := (s.withdraw p).dev.keys, mem := (s.withdraw p).dev.mem, poison := (s.withdraw p).dev.poison } } := by
  have h := State.keepKeys_frame (s.setDev fun d => { d with keys := d.keys.map fun (k : Key) => { k with waiters := k.waiters.filter fun w => !p w } }) fun _ => true
  rw [State.withdraw, h]
  rfl
/-- The waits withdrawn stand at no key. -/
theorem State.withdraw_keys {s : State} {p : Waiter → Bool} : ∀ k ∈ (s.withdraw p).dev.keys, ∀ w ∈ k.waiters, p w = false := by
  intro k hk w hw
  obtain ⟨k0, hk0, -, -, -, hws⟩ := State.mem_keepKeys hk
  obtain ⟨k1, -, rfl⟩ := List.mem_map.mp hk0
  rw [hws] at hw
  simpa using (List.mem_filter.mp hw).2

/-- Every group that the state lists, slots without one included. -/
def State.places (s : State) : List Group := s.allCores.flatMap Core.groups
theorem State.groupAt_eq (s : State) (l : GLoc) : s.groupAt l = (s.places.filter fun g => g.gstate != .empty).find? fun g => g.loc = l := rfl

/-- A map that keeps the front entity in front maps every place. -/
theorem State.places_mapGroups {s : State} {f : Group → Group} {e : Entity} {r : List Entity} (h : (f s.stowGroup).sibs = e :: r) (he : e.num = s.ent.num) :
    (s.mapGroups f).places = s.places.map f := by
  have hstow : ({ f s.stowGroup with sibs := e :: r } : Group) = f s.stowGroup := by rw [← h]
  rw [State.mapGroups_front h he]
  show ({ f s.stowGroup with sibs := e :: r } : Group) :: (s.core.groups.map f) ++ (s.cores.map fun (k : Core) => { k with groups := k.groups.map f }).flatMap Core.groups = (s.stowGroup :: s.core.groups ++ s.cores.flatMap Core.groups).map f
  rw [hstow, List.flatMap_map, List.map_append, List.map_flatMap, List.map_cons]

/-- The first group that stands at a place, after a change there alone: the group changed, where no other is listed there. -/
theorem find_standing_map {l : GLoc} {x x' : Group} {f : Group → Group} (hf : ∀ g, g.loc ≠ l → f g = g) (hx : f x = x') (hl : x'.loc = l) (hs : x'.gstate ≠ .empty) {gs : List Group}
    (h : (gs.filter fun g => g.gstate != .empty).find? (fun g => g.loc = l) = some x) (hu : ∀ y ∈ gs, y.loc = l → y = x) :
    ((gs.map f).filter fun g => g.gstate != .empty).find? (fun g => g.loc = l) = some x' := by
  induction gs with
  | nil => cases h
  | cons g gs ih =>
    by_cases hg : g.loc = l
    · obtain rfl := hu g List.mem_cons_self hg
      rw [List.map_cons, hx, List.filter_cons_of_pos (by simpa using hs), List.find?_cons_of_pos (by simpa using hl)]
    · have hu' : ∀ y ∈ gs, y.loc = l → y = x := fun y hy => hu y (List.mem_cons_of_mem _ hy)
      rw [List.map_cons, hf g hg]
      by_cases he : (g.gstate != GState.empty) = true
      · rw [List.filter_cons, if_pos he, List.find?_cons_of_neg (by simpa using hg)] at h ⊢
        exact ih h hu'
      · rw [List.filter_cons, if_neg he] at h ⊢
        exact ih h hu'

/-- What a group waits for before it is taken has ended (R384). -/
theorem Group.quiet_of {g : Group} (hv : g.count .vm = 0) (hs : g.count .sp = 0) (hg : g.count .ga = 0)
    (ho : ∀ o ∈ g.ops, o.done = true ∨ (o.path = some .mq ∧ o.auto = false) ∨ (o.fills = [] ∧ o.path ≠ none)) (hp : ∀ p ∈ g.pm, p.state ≠ .solving) : g.quiet = true := by
  simp only [Group.quiet, hv, hs, hg, Bool.and_eq_true, decide_true, List.all_eq_true, true_and]
  refine ⟨fun o h => ?_, fun p h => by simpa using hp p h⟩
  rcases ho o h with h | ⟨h, ha⟩ | ⟨h, hn⟩
  · simp [h]
  · simp [h, ha]
  · simp [h, Option.isSome_iff_ne_none.mpr hn]

/-- An entity's wait data with the ticks that it has waited at keys since `since` until the save began (R214, R215). -/
def WaitData.waited (ws : List Waiter) (until_ ent : Nat) (handler : Bool) (d : WaitData) : WaitData :=
  match ws.find? fun w => w.ent = ent && w.handler == handler with
  | some w => { d with ordTicks := d.ordTicks + (until_ - w.since) }
  | none => d
/-- An entity of a group that is taken (R384). -/
def Entity.taken (ws : List Waiter) (until_ : Nat) (e : Entity) : Entity :=
  { e with
    idem := none, failedRegs := [], wd := e.wd.waited ws until_ e.num e.handling
    frame := if e.handling then { e.frame with wd := e.frame.wd.waited ws until_ e.num false } else e.frame }
/-- A group that is taken (R384). -/
def Group.taken (ws : List Waiter) (until_ : Nat) (g : Group) : Group := { g with gstate := .preempted, sibs := g.sibs.map (Entity.taken ws until_) }

/-- A group that has drained is taken with the ticks its entities have waited at keys, where it waits no longer (R215, R384). -/
theorem execGroupPreempt_leaves {s : State} {l : GLoc} {x : Group} (hx : s.groupAt l = some x) (hu : ∀ k ∈ s.allCores, ∀ y ∈ k.groups, y.loc = l → y = x) (ha : x.agent = false)
    (hc : (s.ctx (s.teamOf x.team).ctx).state = .saving) (hst : x.gstate = .admitted ∨ x.gstate = .ready ∨ x.gstate = .trapped) (hq : x.quiet = true) :
    ∃ t, execGroupPreempt l s = .next t ∧ (∀ k ∈ t.dev.keys, ∀ w ∈ k.waiters, w.g ≠ l) ∧
      t.groupAt l = some (x.taken ((s.dev.keys.flatMap Key.waiters).filter fun w => w.g = l) (s.ctx (s.teamOf x.team).ctx).savingAt) := by
  let ws := (s.dev.keys.flatMap Key.waiters).filter fun w => w.g = l
  let until_ := (s.ctx (s.teamOf x.team).ctx).savingAt
  let f : Group → Group := fun g => if g.loc = l then g.taken ws until_ else g
  have hpre : s.preempt l = (s.mapGroups f).withdraw fun w => w.g = l := by
    unfold State.preempt
    rw [hx]
    rfl
  have hloc : x.loc = l := by simpa using List.find?_some hx
  have hfront : ∃ e r, (f s.stowGroup).sibs = e :: r ∧ e.num = s.ent.num := by
    simp only [f]
    split
    · exact ⟨_, _, rfl, rfl⟩
    · exact ⟨_, _, rfl, rfl⟩
  obtain ⟨e, r, hsibs, hnum⟩ := hfront
  refine ⟨s.preempt l, ?_, fun k hk w hw => ?_, ?_⟩
  · unfold execGroupPreempt
    rw [hx]
    exact if_neg (by simp [ha, hc, hst, hq])
  · rw [hpre] at hk
    simpa using State.withdraw_keys k hk w hw
  · have hplaces : (s.preempt l).places = s.places.map f := by
      rw [hpre, State.withdraw_frame, ← State.places_mapGroups hsibs hnum]
      rfl
    rw [State.groupAt_eq, hplaces]
    refine find_standing_map (x := x) (f := f) (fun g hg => if_neg hg) (if_pos hloc) hloc (by simp [Group.taken]) hx fun y hy hyl => ?_
    obtain ⟨k, hk, hyk⟩ := List.mem_flatMap.mp hy
    exact hu k hk y hyk hyl

end Sys2Proof.Machine

namespace Sys2Proof.Machine
open Sys2Proof

/-! ## What the end of work leaves (R47, R50, R72, R84)

Failing launches, killing teams and dropping waits run through most of the machine. What a command of the mailbox asks about afterwards is little: contexts keep
their states, commands at the Saltern only go, only RASTER notices come, and no team comes to life. -/

/-- Every team is killed, or stood before with the same place, context and queue, killed or not. -/
structure TeamsHold (s t : State) : Prop where
  held : ∀ y ∈ t.allTeams, y.killed = true ∨ ∃ x ∈ s.allTeams, y.serial = x.serial ∧ y.core = x.core ∧ y.ctx = x.ctx ∧ y.queue = x.queue ∧ y.killed = x.killed

theorem TeamsHold.of_eq {s t : State} (h : t.team = s.team) (hs : t.teams = s.teams) : TeamsHold s t := by
  refine ⟨fun y hy => ?_⟩
  rw [State.allTeams, h, hs] at hy
  exact .inr ⟨y, hy, rfl, rfl, rfl, rfl, rfl⟩
theorem TeamsHold.refl (s : State) : TeamsHold s s := .of_eq rfl rfl
theorem TeamsHold.trans {s t u : State} (h : TeamsHold s t) (k : TeamsHold t u) : TeamsHold s u := by
  refine ⟨fun z hz => ?_⟩
  rcases k.held z hz with hk | ⟨y, hy, hs, hc, hx, hq, hk⟩
  · exact .inl hk
  · rcases h.held y hy with hy | ⟨x, hx', hs', hc', hx'', hq', hk'⟩
    · exact .inl (hk.trans hy)
    · exact .inr ⟨x, hx', hs.trans hs', hc.trans hc', hx.trans hx'', hq.trans hq', hk.trans hk'⟩

/-- What is left of contexts, commands at the Saltern, notices and teams. -/
structure Quieter (s t : State) : Prop where
  ctxs : ∀ n, (t.ctx n).state = (s.ctx n).state
  salt : ∀ x ∈ t.dev.salt, x ∈ s.dev.salt
  notices : ∀ x ∈ t.dev.notices, x.raster = true ∨ x ∈ s.dev.notices
  teams : TeamsHold s t
/-- Such a change that leaves the launches, the queues and the fault slots as they are. -/
structure Tidied (s t : State) : Prop extends Quieter s t where
  launches : t.dev.launches = s.dev.launches
  queues : t.dev.queues = s.dev.queues
  slots : t.dev.slots = s.dev.slots
/-- Such a change in which launches and packets may fail: no launch comes, and what is resetting stays so. -/
structure Ends (s t : State) : Prop extends Quieter s t where
  launches : ∀ z ∈ t.dev.launches, ∃ y ∈ s.dev.launches, z.id = y.id ∧ z.queue = y.queue
  queues : ∀ q, (s.queue q).state = .resetting → (t.queue q).state = .resetting ∧ ((s.queue q).started = [] → (t.queue q).started = [])

theorem Quieter.refl (s : State) : Quieter s s := ⟨fun _ => rfl, fun _ h => h, fun _ h => .inr h, .refl s⟩
theorem Quieter.trans {s t u : State} (h : Quieter s t) (k : Quieter t u) : Quieter s u :=
  ⟨fun n => (k.ctxs n).trans (h.ctxs n), fun x hx => h.salt x (k.salt x hx), fun x hx => (k.notices x hx).elim .inl (h.notices x), h.teams.trans k.teams⟩
theorem Tidied.refl (s : State) : Tidied s s := ⟨.refl s, rfl, rfl, rfl⟩
theorem Tidied.trans {s t u : State} (h : Tidied s t) (k : Tidied t u) : Tidied s u :=
  ⟨h.toQuieter.trans k.toQuieter, k.launches.trans h.launches, k.queues.trans h.queues, k.slots.trans h.slots⟩
theorem Tidied.foldl {α : Type} {f : State → α → State} (hf : ∀ s a, Tidied s (f s a)) (l : List α) (s : State) : Tidied s (l.foldl f s) := by
  induction l generalizing s with
  | nil => exact .refl s
  | cons a t ih => exact (hf s a).trans (ih _)
theorem Ends.refl (s : State) : Ends s s := ⟨.refl s, fun z h => ⟨z, h, rfl, rfl⟩, fun _ h => ⟨h, id⟩⟩
theorem Ends.trans {s t u : State} (h : Ends s t) (k : Ends t u) : Ends s u := by
  refine ⟨h.toQuieter.trans k.toQuieter, fun z hz => ?_, fun q hq => ?_⟩
  · obtain ⟨y, hy, hi, hq⟩ := k.launches z hz
    obtain ⟨x, hx, hi', hq'⟩ := h.launches y hy
    exact ⟨x, hx, hi.trans hi', hq.trans hq'⟩
  · obtain ⟨hs, ht⟩ := h.queues q hq
    exact ⟨(k.queues q hs).1, fun he => (k.queues q hs).2 (ht he)⟩
theorem Ends.foldl {α : Type} {f : State → α → State} (hf : ∀ s a, Ends s (f s a)) (l : List α) (s : State) : Ends s (l.foldl f s) := by
  induction l generalizing s with
  | nil => exact .refl s
  | cons a t ih => exact (hf s a).trans (ih _)
theorem Tidied.ends {s t : State} (h : Tidied s t) : Ends s t :=
  ⟨h.toQuieter, fun z hz => ⟨z, h.launches ▸ hz, rfl, rfl⟩, fun q hq => by rw [State.queue_congr h.queues]; exact ⟨hq, id⟩⟩

/-- The parts of the state that tidying may touch by more than leaving them alone, or must leave alone. -/
def State.books (s : State) : Team × List Team × List Ctx × List HeldCmd × List Notice × List Launch × List Queue × List FaultSlot :=
  (s.team, s.teams, s.dev.ctxs, s.dev.salt, s.dev.notices, s.dev.launches, s.dev.queues, s.dev.slots)
theorem Tidied.of_books {s t : State} (h : t.books = s.books) : Tidied s t := by
  simp only [State.books, Prod.mk.injEq] at h
  obtain ⟨hteam, hteams, hctxs, hsalt, hnotices, hlaunches, hqueues, hslots⟩ := h
  exact ⟨⟨fun n => by rw [State.ctx_congr hctxs], fun x hx => hsalt ▸ hx, fun x hx => .inr (hnotices ▸ hx), .of_eq hteam hteams⟩, hlaunches, hqueues, hslots⟩

/-! ### Updates of keys, groups and cores -/

theorem State.mapGroups_books (s : State) (f : Group → Group) : (s.mapGroups f).books = s.books := by
  simp only [State.books, State.mapGroups_dev, State.mapGroups_team, State.mapGroups_teams]
theorem State.keepKeys_books (s : State) (p : Key → Bool) : (s.keepKeys p).books = s.books := by
  rw [State.keepKeys_frame]; rfl
theorem State.withdraw_books (s : State) (p : Waiter → Bool) : (s.withdraw p).books = s.books := by
  rw [State.withdraw_frame]; rfl
theorem State.wakeArbour_books (s : State) (a bit : Nat) : (s.wakeArbour a bit).books = s.books := rfl

/-- Contexts all changed alike, read by number. -/
theorem State.ctx_mapCtxs {s t : State} {g : Ctx → Ctx} (h : t.dev.ctxs = s.dev.ctxs.map g) (hn : ∀ c, (g c).num = c.num) {n : Nat} (h0 : g { num := n } = { num := n }) :
    t.ctx n = g (s.ctx n) := by
  have hp : ((fun c : Ctx => decide (c.num = n)) ∘ g) = fun c => decide (c.num = n) := funext fun c => by simp [hn]
  rw [State.ctx, h, List.find?_map, hp, State.ctx]
  cases s.dev.ctxs.find? fun c => decide (c.num = n) with
  | none => exact h0.symm
  | some c => rfl
/-- A change of every group, saved ones included, leaves a context's entry but for its saved groups. -/
theorem State.mapHeld_ctx (s : State) (f : Group → Group) (n : Nat) :
    (s.mapHeld f).ctx n = { s.ctx n with saved := (s.ctx n).saved.map fun (k : SavedCore) => { k with groups := k.groups.map f } } :=
  State.ctx_mapCtxs (g := fun c : Ctx => { c with saved := c.saved.map fun (k : SavedCore) => { k with groups := k.groups.map f } })
    (by rw [State.mapHeld, State.setDev_dev, State.mapGroups_dev]) (fun _ => rfl) rfl
theorem State.mapHeld_tidied (s : State) (f : Group → Group) : Tidied s (s.mapHeld f) := by
  refine ⟨⟨fun n => by rw [State.mapHeld_ctx], fun x hx => ?_, fun x hx => .inr ?_, .of_eq (State.mapGroups_team ..) (State.mapGroups_teams ..)⟩, ?_, ?_, ?_⟩
  · rwa [State.mapHeld, State.setDev_dev, State.mapGroups_dev] at hx
  · rwa [State.mapHeld, State.setDev_dev, State.mapGroups_dev] at hx
  all_goals rw [State.mapHeld, State.setDev_dev, State.mapGroups_dev]
theorem State.dropWaits_tidied (s : State) (l : List GLoc) : Tidied s (s.dropWaits l) := by
  have h := Tidied.of_books (s.withdraw_books fun w => l.contains w.g)
  exact ⟨⟨h.ctxs, fun x hx => h.salt x (List.mem_filter.mp hx).1, h.notices, ⟨h.teams.held⟩⟩, h.launches, h.queues, h.slots⟩
theorem State.absentKeys_tidied (s : State) (p : Nat → BitVec 64 → Bool) : Tidied s (s.absentKeys p) :=
  (((Tidied.of_books (State.keepKeys_books ..)).trans (State.dropWaits_tidied ..)).trans (State.mapHeld_tidied ..)).trans (.of_books (State.mapGroups_books ..))

/-! ### Draws and launches -/

theorem State.postHeads_tidied (s : State) : Tidied s s.postHeads := by
  unfold State.postHeads
  refine .foldl (fun s w => ?_) _ s
  refine .trans ?_ (.of_books (State.wakeArbour_books ..))
  refine ⟨⟨fun n => congrArg Ctx.state (State.ctx_congr rfl n), fun _ h => h, fun x hx => ?_, .of_eq rfl rfl⟩, rfl, rfl, rfl⟩
  rcases List.mem_append.mp hx with hx | hx
  · exact .inr hx
  · exact .inl (by rw [List.eq_of_mem_replicate hx])
theorem State.dropDraw_tidied (s : State) (id : Word) : Tidied s (s.dropDraw id) := by
  unfold State.dropDraw
  extract_lets ws u v
  have hu : Tidied s u := ⟨⟨fun n => congrArg Ctx.state (State.ctx_congr rfl n), fun x hx => (List.mem_filter.mp hx).1, fun x hx => .inr (List.mem_filter.mp hx).1, .of_eq rfl rfl⟩, rfl, rfl, rfl⟩
  have hv : Tidied u v := .foldl (fun s w => State.absentKeys_tidied ..) _ _
  have hw := Tidied.foldl (f := fun s (o : GLoc × Nat) => s.completeOp o.1 o.2) (fun s o => s.mapHeld_tidied _) (ws.flatMap Draw.ops) v
  exact ((hu.trans hv).trans hw).trans (State.postHeads_tidied _)
theorem State.withdrawOpen_tidied (s : State) (id : Word) : Tidied s (s.withdrawOpen id) := by
  unfold State.withdrawOpen
  refine .trans ?_ (.foldl (fun s a => .of_books (s.wakeArbour_books a 2)) _ _)
  exact .of_books rfl

/-! ### Killing teams -/

theorem State.dropStale_books (s : State) (g : Group) : (s.dropStale g).books = s.books := by
  unfold State.dropStale
  split
  · split
    · exact State.keepKeys_books ..
    · rfl
  · rfl

/-- The teams after a kill of what is saved: those of before, and killed ones. -/
theorem State.killSaved_teams {s : State} {p : Team → Bool} : ∀ y ∈ (s.killSaved p).allTeams, y.killed = true ∨ y ∈ s.allTeams := by
  intro y hy
  rcases List.mem_cons.mp hy with rfl | hy
  · exact .inr List.mem_cons_self
  · rcases List.mem_append.mp hy with hy | hy
    · exact .inr (List.mem_cons_of_mem _ hy)
    · obtain ⟨x, -, rfl⟩ := List.mem_map.mp hy
      exact .inl rfl
theorem State.killSaved_tidied (s : State) (p : Team → Bool) : Tidied s (s.killSaved p) := by
  refine ⟨⟨fun n => ?_, fun x hx => (List.mem_filter.mp hx).1, fun x hx => .inr hx, ⟨fun y hy => ?_⟩⟩, rfl, rfl, rfl⟩
  · rw [State.ctx_mapCtxs (s := s) (t := s.killSaved p) rfl (fun _ => rfl) rfl]
  · exact (State.killSaved_teams y hy).imp_right fun h => ⟨y, h, rfl, rfl, rfl, rfl, rfl⟩

/-- The state in which the teams that p selects are marked killed. -/
def State.markKilled (s : State) (p : Team → Bool) : State := s.mapTeams fun t => if p t then { t with killed := true, barriers := [] } else t
theorem State.markKilled_teams {s : State} {p : Team → Bool} : ∀ y ∈ (s.markKilled p).allTeams, y.killed = true ∨ (y ∈ s.allTeams ∧ p y = false) := by
  intro y hy
  have h : y ∈ s.allTeams.map fun t => if p t then { t with killed := true, barriers := [] } else t := hy
  obtain ⟨x, hx, rfl⟩ := List.mem_map.mp h
  split
  · exact .inl rfl
  · next hp => exact .inr ⟨hx, Bool.eq_false_iff.mpr hp⟩
theorem State.markKilled_tidied (s : State) (p : Team → Bool) : Tidied s (s.markKilled p) :=
  ⟨⟨fun n => congrArg Ctx.state (State.ctx_congr rfl n), fun _ h => h, fun _ h => .inr h, ⟨fun y hy => (State.markKilled_teams y hy).imp_right fun h => ⟨y, h.1, rfl, rfl, rfl, rfl, rfl⟩⟩⟩, rfl, rfl, rfl⟩

/-- A kill in its steps: waits and stale keys dropped, teams marked, groups stopped, what is saved dropped. -/
theorem State.killTeams_steps (s : State) (p : Team → Bool) : ∃ u f, Tidied s u ∧ u.team = s.team ∧ u.teams = s.teams ∧ s.killTeams p = ((u.markKilled p).mapGroups f).killSaved p := by
  let dead := (s.allTeams.filter p).map Team.serial
  let gs := s.allGroups.filter fun g => !g.agent && dead.contains g.team
  let v := s.dropWaits (gs.map Group.loc)
  have hteams (u : State) (h : u.books = v.books) : u.team = s.team ∧ u.teams = s.teams := by
    have hv : v.team = s.team ∧ v.teams = s.teams := by
      have := s.withdraw_books fun w => (gs.map Group.loc).contains w.g
      simp only [State.books, Prod.mk.injEq] at this
      exact ⟨this.1, this.2.1⟩
    simp only [State.books, Prod.mk.injEq] at h
    exact ⟨h.1.trans hv.1, h.2.1.trans hv.2⟩
  have hbooks : (gs.foldl State.dropStale v).books = v.books := foldl_keeps State.books (fun s g => s.dropStale_books g) gs v
  obtain ⟨h1, h2⟩ := hteams _ hbooks
  exact ⟨gs.foldl State.dropStale v, _, (State.dropWaits_tidied ..).trans (.of_books hbooks), h1, h2, rfl⟩
theorem State.killTeams_tidied (s : State) (p : Team → Bool) : Tidied s (s.killTeams p) := by
  obtain ⟨u, f, hu, -, -, he⟩ := s.killTeams_steps p
  rw [he]
  exact ((hu.trans (u.markKilled_tidied p)).trans (.of_books (State.mapGroups_books ..))).trans (State.killSaved_tidied ..)
/-- After a kill, a team that is not killed is one of before that the kill does not select. -/
theorem State.killTeams_teams {s : State} {p : Team → Bool} : ∀ y ∈ (s.killTeams p).allTeams, y.killed = true ∨ (y ∈ s.allTeams ∧ p y = false) := by
  obtain ⟨u, f, -, hteam, hteams, he⟩ := s.killTeams_steps p
  intro y hy
  rw [he] at hy
  refine (State.killSaved_teams y hy).elim .inl fun h => ?_
  have h' : y ∈ (u.markKilled p).allTeams := by
    rwa [State.allTeams, State.mapGroups_team, State.mapGroups_teams] at h
  have hall : u.allTeams = s.allTeams := by rw [State.allTeams, State.allTeams, hteam, hteams]
  exact hall ▸ State.markKilled_teams y h'

/-! ### Fault records and queue errors -/

theorem State.record_tidied (s : State) (c : Nat) (r : Rec) : Tidied s (s.record c r) := by
  have hf := s.record_only c r
  unfold RecordsOnly at hf
  have hctx (n : Nat) : ((s.record c r).ctx n).state = (s.ctx n).state := by
    unfold State.record
    dsimp only
    split
    · rfl
    · split
      · rw [State.ctx_setCtx]
        split
        · next h => rw [h, State.ctx_num]
        · rw [State.store_ctx, State.store_ctx]
      · rw [State.store_ctx]
  refine ⟨⟨hctx, fun x hx => ?_, fun x hx => .inr ?_, .of_eq ?_ ?_⟩, ?_, ?_, ?_⟩
  · rw [hf] at hx; exact hx
  · rw [hf] at hx; exact hx
  all_goals rw [hf]

end Sys2Proof.Machine

namespace Sys2Proof.Machine
open Sys2Proof

/-! ### Failing launches (R71, R84) -/

/-- A queue changed at its number: what was resetting there stays so, with nothing started where nothing was. -/
theorem State.setQueue_ends {s : State} {q : Nat} {k : Queue} (hn : k.num = q)
    (h : (s.queue q).state = .resetting → k.state = .resetting ∧ ((s.queue q).started = [] → k.started = [])) : Ends s (s.setQueue k) := by
  obtain ⟨hset, hother⟩ := State.setQueue_at (s := s) hn
  refine ⟨⟨fun n => congrArg Ctx.state (State.ctx_congr rfl n), fun _ h => h, fun _ h => .inr h, .of_eq rfl rfl⟩, fun z hz => ⟨z, hz, rfl, rfl⟩, fun m hm => ?_⟩
  by_cases hmq : m = q
  · subst hmq; rw [hset]; exact h hm
  · rw [hother m hmq]; exact ⟨hm, id⟩
theorem State.withdrawNotice_ends (s : State) (q : Nat) : Ends s (s.withdrawNotice q) := by
  have h : Ends s (s.setQueue { s.queue q with notice := false, claimed := false }) := State.setQueue_ends (s.queue_num q) fun h => ⟨h, id⟩
  exact ⟨⟨h.ctxs, h.salt, fun x hx => .inr (List.mem_filter.mp hx).1, ⟨h.teams.held⟩⟩, h.launches, h.queues⟩

/-- A queue error ends nothing that is resetting, and no launch. -/
theorem State.queueError_ends (s : State) (q code : Nat) (r : Rec) : Ends s (s.queueError q code r) ∧ (s.queueError q code r).dev.launches = s.dev.launches := by
  unfold State.queueError
  extract_lets k u v
  have hu : Tidied s u := State.record_tidied ..
  clear_value u
  split
  · next hk =>
    have hv : Ends u v := u.withdrawNotice_ends q
    refine ⟨(hu.ends.trans hv).trans ?_, hu.launches⟩
    refine State.setQueue_ends (q := q) (k := { v.queue q with state := .error, err := code, waitSince := none, held := [] }) (v.queue_num q) fun h => absurd h ?_
    have hvq : v.queue q = { u.queue q with notice := false, claimed := false } := (u.withdrawNotice_at q).1
    rw [hvq, State.queue_congr hu.queues]
    show k.state ≠ .resetting
    rcases hk with hk | hk | hk <;> rw [hk] <;> decide
  · exact ⟨hu.ends, hu.launches⟩

/-- A launch once it has failed (R84); one that is over keeps its state. -/
def Launch.failed (err : Nat) (l : Launch) : Launch := if l.state = .done ∨ l.state = .failed then l else { l with state := .failed, err := err, holders := [] }
theorem Launch.failed_twice (err : Nat) (l : Launch) : (l.failed err).failed err = l.failed err := by
  unfold Launch.failed
  by_cases h : l.state = .done ∨ l.state = .failed
  · rw [if_pos h, if_pos h]
  · rw [if_neg h, if_pos (.inr rfl)]
theorem Launch.failed_id (err : Nat) (l : Launch) : (l.failed err).id = l.id ∧ (l.failed err).queue = l.queue := by
  unfold Launch.failed
  split <;> exact ⟨rfl, rfl⟩
/-- A launch that has been claimed and is not over fails. -/
theorem Launch.failed_active {l : Launch} (err : Nat) (h : l.state = .claimed ∨ l.state = .issuing ∨ l.state = .draining) : (l.failed err).state = .failed ∧ (l.failed err).err = err := by
  have hn : ¬ (l.state = .done ∨ l.state = .failed) := by rcases h with h | h | h <;> simp [h]
  rw [Launch.failed, if_neg hn]
  exact ⟨rfl, rfl⟩

/-- So its record says. -/
theorem State.failed_record {s : State} {id : Word} {l : Launch} {err : Nat} (hl : s.launch? id = some (l.failed err)) (h : l.state = .claimed ∨ l.state = .issuing ∨ l.state = .draining) :
    ∃ y, s.launch? id = some y ∧ y.state = .failed ∧ y.err = err := ⟨l.failed err, hl, Launch.failed_active err h⟩

theorem State.launch_id {s : State} {id : Word} {l : Launch} (h : s.launch? id = some l) : l ∈ s.dev.launches ∧ l.id = id :=
  ⟨List.mem_of_find?_eq_some h, by simpa using List.find?_some h⟩

/-- The failure of a launch that is not over, in its steps: the record, what is tidied, the error at its queue and in its packet. -/
theorem State.failLaunch_steps {s : State} {id : Word} {l : Launch} (h : s.launch? id = some l) (ha : ¬ (l.state = .done ∨ l.state = .failed)) (err : Nat) (kill : Bool) :
    ∃ u code r f, Tidied (s.setLaunch (l.failed err)) u ∧ s.failLaunch id err kill =
      (u.queueError l.queue code r).setQueue { (u.queueError l.queue code r).queue l.queue with started := ((u.queueError l.queue code r).queue l.queue).started.map f } := by
  have hl : l.failed err = { l with state := .failed, err := err, holders := [] } := if_neg ha
  rw [hl]
  unfold State.failLaunch
  simp only [h, if_neg ha]
  generalize s.setLaunch { l with state := .failed, err := err, holders := [] } = t
  have hd := t.dropDraw_tidied id
  generalize t.dropDraw id = d at hd
  have hw (t : State) (f : Core → Core) : Tidied t ((t.mapCores f).withdrawOpen id) := by
    have hc : Tidied t (t.mapCores f) := .of_books rfl
    exact hc.trans ((t.mapCores f).withdrawOpen_tidied id)
  have hk (v : State) (p : Team → Bool) : Tidied v (if kill then v.killTeams p else v) := by
    cases kill with
    | true => exact State.killTeams_tidied ..
    | false => exact .refl v
  exact ⟨_, _, _, _, (hd.trans (hw d _)).trans (hk _ _), rfl⟩

theorem State.failLaunch_ends (s : State) (id : Word) (err : Nat) (kill : Bool) : Ends s (s.failLaunch id err kill) := by
  cases h : s.launch? id with
  | none =>
    simp only [State.failLaunch, h]
    cases kill with
    | true => exact (State.killTeams_tidied ..).ends
    | false => exact .refl s
  | some l =>
    by_cases ha : l.state = .done ∨ l.state = .failed
    · simp only [State.failLaunch, h, if_pos ha]
      exact .refl s
    · obtain ⟨u, code, r, f, hu, he⟩ := s.failLaunch_steps h ha err kill
      obtain ⟨hmem, hid⟩ := State.launch_id h
      have hset : Ends s (s.setLaunch (l.failed err)) := by
        refine ⟨⟨fun n => congrArg Ctx.state (State.ctx_congr rfl n), fun _ h => h, fun _ h => .inr h, .of_eq rfl rfl⟩, fun z hz => ?_, fun q hq => ⟨hq, fun h => h⟩⟩
        rcases mem_upsert hz with rfl | hz
        · exact ⟨l, hmem, l.failed_id err⟩
        · exact ⟨z, hz, rfl, rfl⟩
      rw [he]
      have hv := (u.queueError_ends l.queue code r).1
      generalize u.queueError l.queue code r = v at hv
      refine ((hset.trans hu.ends).trans hv).trans ?_
      exact State.setQueue_ends (k := { v.queue l.queue with started := (v.queue l.queue).started.map f }) (v.queue_num l.queue) fun h => ⟨h, fun hs => by simp [hs]⟩

/-- The record of a launch that fails is the only one that changes. -/
theorem State.failLaunch_launch (s : State) (id : Word) (err : Nat) (kill : Bool) (id' : Word) :
    (s.failLaunch id err kill).launch? id' = if id' = id then (s.launch? id).map (Launch.failed err) else s.launch? id' := by
  cases h : s.launch? id with
  | none =>
    have hk : (s.failLaunch id err kill).dev.launches = s.dev.launches := by
      simp only [State.failLaunch, h]
      cases kill with
      | true => exact (State.killTeams_tidied ..).launches
      | false => rfl
    rw [State.launch_congr hk]
    split
    · next hi => rw [hi, h]; rfl
    · rfl
  | some l =>
    by_cases ha : l.state = .done ∨ l.state = .failed
    · simp only [State.failLaunch, h, if_pos ha]
      split
      · next hi => rw [hi, h]; exact congrArg some (if_pos ha).symm
      · rfl
    · obtain ⟨u, code, r, f, hu, he⟩ := s.failLaunch_steps h ha err kill
      have hl : (s.failLaunch id err kill).dev.launches = (s.setLaunch (l.failed err)).dev.launches := by
        rw [he, State.setQueue_dev, (u.queueError_ends ..).2, hu.launches]
      rw [State.launch_congr hl, State.launch_setLaunch, (l.failed_id err).1, (State.launch_id h).2]
      rfl

/-- Launches that fail one after another: each is as failed once, and the others are as they were. -/
theorem State.failLaunches_launch (s : State) (l : List Launch) (err : Nat) (kill : Bool) (id : Word) :
    (l.foldl (fun s x => s.failLaunch x.id err kill) s).launch? id = if id ∈ l.map Launch.id then (s.launch? id).map (Launch.failed err) else s.launch? id := by
  induction l generalizing s with
  | nil => rfl
  | cons a l ih =>
    rw [List.foldl_cons, ih, State.failLaunch_launch]
    by_cases ha : id = a.id
    · subst ha
      rw [if_pos rfl, if_pos (List.mem_map_of_mem List.mem_cons_self)]
      split
      · rw [Option.map_map]
        congr 1
        exact funext (Launch.failed_twice err)
      · rfl
    · rw [if_neg ha, List.map_cons]
      simp only [List.mem_cons, ha, false_or]
theorem State.failLaunches_ends (s : State) (l : List Launch) (err : Nat) (kill : Bool) : Ends s (l.foldl (fun s x => s.failLaunch x.id err kill) s) :=
  .foldl (fun s x => s.failLaunch_ends x.id err kill) l s

end Sys2Proof.Machine

namespace Sys2Proof.Machine
open Sys2Proof

/-! ## Resets and releases (R47, R72) -/

/-- Keys that are made absent do not stand. -/
theorem State.absentKeys_keys {s : State} {p : Nat → BitVec 64 → Bool} : ∀ k ∈ (s.absentKeys p).dev.keys, p k.ctx k.key = false := by
  intro k hk
  simp only [State.absentKeys, State.mapGroups_dev, State.mapHeld, State.setDev_dev] at hk
  obtain ⟨k1, hk1, -, hc1, hk1', -⟩ := State.mem_keepKeys (s := State.setDev _ _) hk
  obtain ⟨k2, hk2, rfl⟩ := List.mem_map.mp hk1
  obtain ⟨k3, -, hp, hc3, hk3, -⟩ := State.mem_keepKeys hk2
  simpa [hc1, hk1', hc3, hk3] using hp

/-- A queue whose reset starts. -/
def Queue.toReset (k : Queue) : Queue := { k with state := .resetting, started := [], held := [], waitSince := none, waitMet := false }
/-- The state in which a reset of a queue fails its launches: notices, commands at the Saltern and packets dropped, with the launches that are over. -/
def State.cleared (s : State) (q : Nat) : State :=
  let s := s.withdrawNotice q
  let mine := (s.dev.launches.filter fun l => l.queue = q).map Launch.id
  let s := s.setDev fun d => { d with salt := d.salt.filter fun c => match c.cmd with | .packet _ id _ => !mine.contains id | _ => true }
  let s := s.setDev fun d => { d with strays := d.strays ++ (s.queue q).started.filter Started.onItsWay }
  let s := s.setQueue (s.queue q).toReset
  s.setDev fun d => { d with launches := d.launches.filter fun l => !(l.queue = q && (l.state = .failed || l.state = .done || l.state = .pending)) }
theorem State.startReset_eq (s : State) (q : Nat) :
    s.startReset q = ((s.cleared q).dev.launches.filter fun l => l.queue = q).foldl (fun s l => s.failLaunch l.id 8 false) (s.cleared q) := rfl

theorem State.cleared_launches (s : State) (q : Nat) :
    (s.cleared q).dev.launches = s.dev.launches.filter fun l => !(l.queue = q && (l.state = .failed || l.state = .done || l.state = .pending)) := by
  simp only [State.cleared, State.withdrawNotice, State.setDev_dev, State.setQueue_dev]
theorem State.cleared_notices (s : State) (q : Nat) : (s.cleared q).dev.notices = (s.withdrawNotice q).dev.notices := by
  simp only [State.cleared, State.withdrawNotice, State.setDev_dev, State.setQueue_dev]
theorem State.cleared_ctxs (s : State) (q : Nat) : (s.cleared q).dev.ctxs = s.dev.ctxs := by
  simp only [State.cleared, State.withdrawNotice, State.setDev_dev, State.setQueue_dev]
theorem State.cleared_team (s : State) (q : Nat) : (s.cleared q).team = s.team ∧ (s.cleared q).teams = s.teams := by
  simp only [State.cleared, State.withdrawNotice, State.setDev_team, State.setQueue_team, State.setDev_teams, State.setQueue_teams, and_self]
theorem State.cleared_at (s : State) (q : Nat) : ((s.cleared q).queue q).state = .resetting ∧ ((s.cleared q).queue q).started = [] ∧ ∀ m, m ≠ q → (s.cleared q).queue m = s.queue m := by
  unfold State.cleared
  extract_lets u mine v w t
  have hw (m : Nat) : w.queue m = u.queue m := State.queue_congr (by simp only [w, v, State.setDev_dev]) m
  have hset : t.queue q = (w.queue q).toReset := (State.setQueue_at (k := (w.queue q).toReset) (w.queue_num q)).1
  have hother : ∀ m, m ≠ q → t.queue m = w.queue m := (State.setQueue_at (k := (w.queue q).toReset) (w.queue_num q)).2
  clear_value t w
  have ht (f : Device → List Launch) (m : Nat) : (t.setDev fun d => { d with launches := f d }).queue m = t.queue m := rfl
  simp only [ht]
  refine ⟨congrArg Queue.state hset, congrArg Queue.started hset, fun m hm => ?_⟩
  exact (hother m hm).trans ((hw m).trans ((s.withdrawNotice_at q).2 m hm))
theorem State.cleared_salt (s : State) (q : Nat) :
    ∀ x ∈ (s.cleared q).dev.salt, x ∈ s.dev.salt ∧ ∀ h id a, x.cmd = .packet h id a → ∀ l ∈ s.dev.launches, l.queue = q → l.id ≠ id := by
  intro x hx
  simp only [State.cleared, State.withdrawNotice, State.setDev_dev, State.setQueue_dev] at hx
  obtain ⟨hmem, hc⟩ := List.mem_filter.mp hx
  refine ⟨hmem, fun h id a hp l hl hq hid => ?_⟩
  simp only [hp, Bool.not_eq_true', Bool.eq_false_iff, ne_eq, List.contains_iff_mem] at hc
  exact hc (List.mem_map.mpr ⟨l, List.mem_filter.mpr ⟨hl, by simpa using hq⟩, hid⟩)
theorem State.cleared_ends (s : State) (q : Nat) : Ends s (s.cleared q) := by
  obtain ⟨hset, hstarted, hother⟩ := s.cleared_at q
  refine ⟨⟨fun n => by rw [State.ctx_congr (s.cleared_ctxs q)], fun x hx => (s.cleared_salt q x hx).1, fun x hx => .inr ?_, .of_eq (s.cleared_team q).1 (s.cleared_team q).2⟩, fun z hz => ?_, fun m hm => ?_⟩
  · exact (List.mem_filter.mp (s.cleared_notices q ▸ hx)).1
  · exact ⟨z, (List.mem_filter.mp (s.cleared_launches q ▸ hz)).1, rfl, rfl⟩
  · by_cases h : m = q
    · subst h; exact ⟨hset, fun _ => hstarted⟩
    · rw [hother m h]; exact ⟨hm, id⟩

theorem State.startReset_ends (s : State) (q : Nat) : Ends s (s.startReset q) := by
  rw [State.startReset_eq]
  exact (s.cleared_ends q).trans (State.failLaunches_ends ..)
/-- A queue whose reset starts is resetting, with nothing started. -/
theorem State.startReset_queue (s : State) (q : Nat) : ((s.startReset q).queue q).state = .resetting ∧ ((s.startReset q).queue q).started = [] := by
  obtain ⟨hset, hstarted, -⟩ := s.cleared_at q
  have h := ((s.cleared q).failLaunches_ends ((s.cleared q).dev.launches.filter fun l => l.queue = q) 8 false).queues q hset
  exact ⟨h.1, h.2 hstarted⟩
theorem State.startReset_notices (s : State) (q : Nat) : ∀ x ∈ (s.startReset q).dev.notices, x.raster = true ∨ x.queue ≠ q := by
  intro x hx
  rw [State.startReset_eq] at hx
  refine ((State.failLaunches_ends ..).notices x hx).elim .inl fun h => s.withdrawNotice_notices q x ?_
  rwa [s.cleared_notices q] at h
/-- No command of the queue's launches stands at the Saltern once its reset starts. -/
theorem State.startReset_salt (s : State) (q : Nat) : ∀ x ∈ (s.startReset q).dev.salt, ∀ h id a, x.cmd = .packet h id a → ∀ l ∈ s.dev.launches, l.queue = q → l.id ≠ id := by
  intro x hx
  rw [State.startReset_eq] at hx
  exact (s.cleared_salt q x ((State.failLaunches_ends ..).salt x hx)).2

/-- The first of a list that is asked for is still the first after a filter that keeps it. -/
theorem find_filter_of_keep {α : Type} {l : List α} {p r : α → Bool} {a : α} (h : l.find? r = some a) (hp : p a = true) : (l.filter p).find? r = some a := by
  rw [List.find?_eq_some_iff_append] at h ⊢
  obtain ⟨hr, as, bs, rfl, has⟩ := h
  exact ⟨hr, as.filter p, bs.filter p, by simp [hp], fun x hx => has x (List.mem_filter.mp hx).1⟩

/-- A launch of the queue that has been claimed and is not over fails when the queue's reset starts. -/
theorem State.startReset_fails {s : State} {l : Launch} {id : Word} (h : s.launch? id = some l) (hs : l.state = .claimed ∨ l.state = .issuing ∨ l.state = .draining) :
    (s.startReset l.queue).launch? id = some (l.failed 8) := by
  have hl : (s.cleared l.queue).launch? id = some l := by
    rw [State.launch?, s.cleared_launches]
    exact find_filter_of_keep h (by rcases hs with hs | hs | hs <;> simp [hs])
  obtain ⟨hmem, hid⟩ := State.launch_id hl
  rw [State.startReset_eq, State.failLaunches_launch, if_pos, hl]
  · rfl
  · exact List.mem_map.mpr ⟨l, List.mem_filter.mpr ⟨hmem, decide_eq_true rfl⟩, hid⟩
/-- A launch of another queue is as it was, if its number is its own. -/
theorem State.startReset_keeps {s : State} {l : Launch} {id : Word} {q : Nat} (h : s.launch? id = some l) (hu : ∀ z ∈ s.dev.launches, z.id = id → z.queue ≠ q) :
    (s.startReset q).launch? id = some l := by
  obtain ⟨hmem, hid⟩ := State.launch_id h
  have hl : (s.cleared q).launch? id = some l := by
    rw [State.launch?, s.cleared_launches]
    exact find_filter_of_keep h (by simp [hu l hmem hid])
  rw [State.startReset_eq, State.failLaunches_launch, if_neg, hl]
  intro hin
  obtain ⟨z, hz, hzi⟩ := List.mem_map.mp hin
  obtain ⟨hz, hzq⟩ := List.mem_filter.mp hz
  rw [s.cleared_launches] at hz
  exact hu z (List.mem_filter.mp hz).1 hzi (by simpa using hzq)

/-! ### Resets of several queues, which a release starts (R47) -/

theorem State.startResets_ends (s : State) (qs : List Nat) : Ends s (qs.foldl State.startReset s) := .foldl State.startReset_ends qs s
theorem State.startResets_queue {s : State} {qs : List Nat} {q : Nat} (h : q ∈ qs) : ((qs.foldl State.startReset s).queue q).state = .resetting := by
  induction qs generalizing s with
  | nil => cases h
  | cons a t ih =>
    rcases List.mem_cons.mp h with rfl | h
    · exact ((State.startResets_ends (s.startReset q) t).queues q (s.startReset_queue q).1).1
    · exact ih h
theorem State.startResets_keeps {s : State} {qs : List Nat} {l : Launch} {id : Word} (h : s.launch? id = some l) (hu : ∀ z ∈ s.dev.launches, z.id = id → z.queue ∉ qs) :
    (qs.foldl State.startReset s).launch? id = some l := by
  induction qs generalizing s with
  | nil => exact h
  | cons a t ih =>
    refine ih (State.startReset_keeps h fun z hz hi => ?_) fun z hz hi => ?_
    · exact fun he => hu z hz hi (he ▸ List.mem_cons_self)
    · obtain ⟨y, hy, hyi, hyq⟩ := (s.startReset_ends a).launches z hz
      exact hyq ▸ fun hm => hu y hy (hyi.symm.trans hi) (List.mem_cons_of_mem _ hm)
/-- A launch that has been claimed and is not over fails when the reset of its queue starts among others. -/
theorem State.startResets_fails {s : State} {qs : List Nat} {l : Launch} (h : s.launch? l.id = some l) (hu : ∀ z ∈ s.dev.launches, z.id = l.id → z.queue = l.queue)
    (hs : l.state = .claimed ∨ l.state = .issuing ∨ l.state = .draining) (hq : qs.filter (fun q => q = l.queue) = [l.queue]) :
    (qs.foldl State.startReset s).launch? l.id = some (l.failed 8) := by
  obtain ⟨as, bs, rfl, has, -, hbs⟩ := List.filter_eq_cons_iff.mp hq
  rw [List.foldl_append, List.foldl_cons]
  have ha : (as.foldl State.startReset s).launch? l.id = some l :=
    State.startResets_keeps h fun z hz hi hm => has _ hm (by simpa using hu z hz hi)
  refine State.startResets_keeps (State.startReset_fails ha hs) fun z hz hi hm => ?_
  obtain ⟨y, hy, hyi, hyq⟩ := ((State.startResets_ends s as).trans (State.startReset_ends _ l.queue)).launches z hz
  exact List.filter_eq_nil_iff.mp hbs _ hm (by simpa using hyq.trans (hu y hy (hyi.symm.trans hi)))

/-! ### The commands -/

/-- What the start of a reset leaves (R72): the queue resetting with nothing started, its notices and commands at the Saltern gone, and its launches failed. -/
theorem State.startReset_leaves (s : State) (q : Nat) : ∃ t, s.startReset q = t ∧ (t.queue q).state = .resetting ∧ (t.queue q).started = [] ∧ (∀ x ∈ t.dev.notices, x.raster = true ∨ x.queue ≠ q) ∧
    (∀ x ∈ t.dev.salt, ∀ h id a, x.cmd = .packet h id a → ∀ l ∈ s.dev.launches, l.queue = q → l.id ≠ id) ∧
    ∀ l, s.launch? l.id = some l → l.queue = q → (l.state = .claimed ∨ l.state = .issuing ∨ l.state = .draining) → ∃ y, t.launch? l.id = some y ∧ y.state = .failed ∧ y.err = 8 :=
  ⟨_, rfl, (s.startReset_queue q).1, (s.startReset_queue q).2, s.startReset_notices q, s.startReset_salt q, fun _ hl hq hs => State.failed_record (hq ▸ State.startReset_fails hl hs) hs⟩

/-- QUEUE_RESET of a queue that it does not take, and of one that it does while no port owes its generations (R72, R73). -/
theorem execQueueReset_ends {s : State} {q : Nat} (h : s.Takes [.ready] [(0, 2)]) (hq : s.param 0 2 = q) (hn : q ≤ 4095) :
    (((s.queue q).state = .unmapped ∨ (s.queue q).state = .resetting) → execQueueReset s = .next (s.mbDone 2)) ∧
    ((s.queue q).state ≠ .unmapped → (s.queue q).state ≠ .resetting → (∀ p ∈ s.dev.ports, (p.resets.filter fun r => r.1 = q).length < 127) → ∃ t, execQueueReset s = .next t ∧
      (t.queue q).state = .resetting ∧ (t.queue q).started = [] ∧ (∀ x ∈ t.dev.notices, x.raster = true ∨ x.queue ≠ q) ∧
      t.dev.mb.busy = true ∧ t.dev.mb.directed = .queueReset q ∧ t.dev.mb.units = List.range 8 ∧
      (∀ x ∈ t.dev.salt, ∀ h id a, x.cmd = .packet h id a → ∀ l ∈ s.dev.launches, l.queue = q → l.id ≠ id) ∧
      ∀ l, s.launch? l.id = some l → l.queue = q → (l.state = .claimed ∨ l.state = .issuing ∨ l.state = .draining) → ∃ y, t.launch? l.id = some y ∧ y.state = .failed ∧ y.err = 8) := by
  rw [execQueueReset, h.mbox]
  dsimp only
  rw [hq, if_neg (Nat.not_lt.mpr hn)]
  refine ⟨fun hs => if_pos (hs.elim .inl fun hs => .inr (.inl hs)), fun hu hr hp => ?_⟩
  obtain ⟨t, ht, hstate, hstarted, hnotices, hsalt, hfails⟩ := s.startReset_leaves q
  rw [if_neg, ht]
  · exact ⟨_, rfl, hstate, hstarted, hnotices, rfl, rfl, rfl, hsalt, hfails⟩
  · rintro (hs | hs | hs)
    · exact hu hs
    · exact hr hs
    · obtain ⟨p, hp', ho⟩ := List.any_eq_true.mp hs
      have := hp p hp'
      have hge := of_decide_eq_true (Bool.and_eq_true_iff.mp ho).2
      rw [Port.pending] at hge
      omega

end Sys2Proof.Machine

namespace Sys2Proof.Machine
open Sys2Proof

/-! ### Releases (R47) -/

/-- The queues that a release of a context resets. -/
def State.releaseQueues (s : State) (n : Nat) : List Nat := (s.dev.queues.filter fun q => q.ctx = n && q.state != .unmapped && q.state != .resetting).map Queue.num
theorem State.mem_releaseQueues {s : State} {n : Nat} {k : Queue} (hk : k ∈ s.dev.queues) (hn : k.ctx = n) (hu : k.state ≠ .unmapped) (hr : k.state ≠ .resetting) : k.num ∈ s.releaseQueues n :=
  List.mem_map_of_mem (List.mem_filter.mpr ⟨hk, by simp [hn, hu, hr]⟩)
theorem State.releaseQueues_filter {s : State} {n q : Nat} {k : Queue} (hk : s.dev.queues.filter (fun y => y.num = q) = [k]) (hn : k.ctx = n) (hu : k.state ≠ .unmapped)
    (hr : k.state ≠ .resetting) : (s.releaseQueues n).filter (fun x => x = q) = [q] := by
  have hmem : k ∈ s.dev.queues.filter (fun y => y.num = q) := hk ▸ List.mem_singleton_self k
  have hq : k.num = q := of_decide_eq_true (List.mem_filter.mp hmem).2
  have hswap : (s.dev.queues.filter fun q => q.ctx = n && q.state != .unmapped && q.state != .resetting).filter (fun y => y.num = q) = [k] := by
    rw [List.filter_comm, hk]
    simp [hn, hu, hr]
  rw [State.releaseQueues, List.filter_map]
  simpa [Function.comp_def, hq] using congrArg (List.map Queue.num) hswap

/-- The state in which a release has started. -/
def State.startRelease (s : State) (n : Nat) (k : Ctx) : State := ((s.releaseQueues n).foldl State.startReset (s.setCtx k)).absentKeys fun ctx _ => ctx = n
/-- What the start of a release leaves: the context releasing, none of its keys, its queues resetting and its launches failed. -/
theorem State.release_leaves {s : State} {n : Nat} {k : Ctx} (hk : k.num = n) (hs : k.state = .releasing) :
    let t := s.startRelease n k
    (t.ctx n).state = .releasing ∧ (∀ x ∈ t.dev.keys, x.ctx ≠ n) ∧
      (∀ q ∈ s.dev.queues, s.queue q.num = q → q.ctx = n → q.state ≠ .unmapped → (t.queue q.num).state = .resetting) ∧
      ∀ l, s.dev.launches.filter (fun y => y.id = l.id) = [l] → s.dev.queues.filter (fun y => y.num = l.queue) = [s.queue l.queue] → (s.queue l.queue).ctx = n → (s.queue l.queue).state ≠ .unmapped →
        (s.queue l.queue).state ≠ .resetting → (l.state = .claimed ∨ l.state = .issuing ∨ l.state = .draining) → ∃ y, t.launch? l.id = some y ∧ y.state = .failed ∧ y.err = 8 := by
  intro t
  have hends := (s.setCtx k).startResets_ends (s.releaseQueues n)
  have ht : Tidied ((s.releaseQueues n).foldl State.startReset (s.setCtx k)) t := State.absentKeys_tidied ..
  have hctx : (t.ctx n).state = .releasing := by rw [ht.ctxs, hends.ctxs, (State.setCtx_at hk).1, hs]
  refine ⟨hctx, fun x hx => by simpa using State.absentKeys_keys x hx, fun q hq hqs hqn hqu => ?_, fun l hl hlq hn hu hr hst => ?_⟩
  · rw [State.queue_congr ht.queues]
    by_cases hr : q.state = .resetting
    · exact (hends.queues q.num (by rw [← hr]; exact congrArg Queue.state hqs)).1
    · exact State.startResets_queue (State.mem_releaseQueues hq hqn hqu hr)
  · have hmem (z : Launch) (hz : z ∈ s.dev.launches) (hi : z.id = l.id) : z = l := by
      have : z ∈ s.dev.launches.filter (fun y => y.id = l.id) := List.mem_filter.mpr ⟨hz, by simpa using hi⟩
      simpa [hl] using this
    have hfind : (s.setCtx k).launch? l.id = some l := by
      show s.dev.launches.find? (fun y => decide (y.id = l.id)) = some l
      rw [← List.head?_filter, hl]; rfl
    rw [State.launch_congr ht.launches]
    refine State.failed_record ?_ hst
    exact State.startResets_fails hfind (fun z hz hi => congrArg Launch.queue (hmem z hz hi)) hst (State.releaseQueues_filter hlq hn hu hr)

/-! ### Saves (R49) -/

theorem State.setDraw_tidied (s : State) (w : Draw) : Tidied s (s.setDraw w) := .of_books rfl
theorem State.rerunDraw_tidied (s : State) (w : Draw) : Tidied s (s.rerunDraw w) := by
  unfold State.rerunDraw
  extract_lets undone u v redo w'
  have hu : Tidied s u := State.killTeams_tidied ..
  have hv : Tidied u v := State.absentKeys_tidied ..
  have hw : Tidied s (v.setDraw w') := (hu.trans hv).trans (v.setDraw_tidied w')
  clear_value v
  generalize v.setDraw w' = x at hw
  refine hw.trans (.trans ?_ (State.postHeads_tidied _))
  exact ⟨⟨fun n => congrArg Ctx.state (State.ctx_congr rfl n), fun _ h => h, fun x hx => .inr (List.mem_filter.mp hx).1, .of_eq rfl rfl⟩, rfl, rfl, rfl⟩

/-- Whether a packet carries a priority update of the context that a core still awaits (R48). -/
def Started.updates (n : Nat) (x : Started) : Bool := decide (x.packet.toNat % 256 = 6 ∧ fieldOf x.packet.toNat 256 8 = n ∧ x.wait ≠ [])
/-- The updates of a context that are on their way. -/
def State.updatesOf (s : State) (n : Nat) : List PrioUpdate :=
  ((s.dev.queues.flatMap Queue.started ++ s.dev.strays).filter (Started.updates n)).map fun x => ⟨fieldOf x.packet.toNat 264 4, x.stamp, false⟩

/-- Updates on their way are kept with the context; only contexts, queues and strays change. -/
theorem State.keepUpdates_leaves (s : State) (n : Nat) : (s.keepUpdates n).ctx n = { s.ctx n with kept := (s.ctx n).kept ++ s.updatesOf n } ∧ (∀ m, m ≠ n → (s.keepUpdates n).ctx m = s.ctx m) ∧
    s.keepUpdates n = { s with dev := { s.dev with ctxs := (s.keepUpdates n).dev.ctxs, queues := (s.keepUpdates n).dev.queues, strays := (s.keepUpdates n).dev.strays } } := by
  have hmine : (fun k : Started => pktType k.packet.toNat = 6 && k.prioCtx = n && k.wait != []) = Started.updates n := by
    funext k
    rw [Started.updates, Bool.eq_iff_iff]
    simp only [Bool.and_eq_true, decide_eq_true_iff, bne_iff_ne, and_assoc]
    rfl
  have hus : ((s.dev.queues.flatMap Queue.started ++ s.dev.strays).filter (Started.updates n)).map Started.update = s.updatesOf n := rfl
  obtain ⟨hset, hother⟩ := State.setCtx_at (s := s) (k := { s.ctx n with kept := (s.ctx n).kept ++ s.updatesOf n }) (s.ctx_num n)
  simp only [State.keepUpdates, hmine, hus]
  exact ⟨hset, hother, rfl⟩

/-- What the start of a save leaves: the context is saving; without draws of the context, only contexts, queues and strays change. -/
def State.startSave (s : State) (n : Nat) (k : Ctx) : State :=
  let t := (s.setCtx k).keepUpdates n
  (t.dev.draws.filter fun w => w.ctx = n).foldl State.rerunDraw t
theorem State.startSave_ctx (s : State) {n : Nat} {k : Ctx} (hk : k.num = n) : ((s.startSave n k).ctx n).state = k.state := by
  obtain ⟨hkept, -, -⟩ := (s.setCtx k).keepUpdates_leaves n
  have h := (Tidied.foldl State.rerunDraw_tidied (((s.setCtx k).keepUpdates n).dev.draws.filter fun w => w.ctx = n) ((s.setCtx k).keepUpdates n)).ctxs n
  rw [State.startSave, h, hkept, (State.setCtx_at hk).1]
theorem State.startSave_frame {s : State} {n : Nat} {k : Ctx} (hk : k.num = n) (hw : ∀ w ∈ s.dev.draws, w.ctx ≠ n) :
    (s.startSave n k).ctx n = { k with kept := k.kept ++ s.updatesOf n } ∧ (∀ m, m ≠ n → (s.startSave n k).ctx m = s.ctx m) ∧
      s.startSave n k = { s with dev := { s.dev with ctxs := (s.startSave n k).dev.ctxs, queues := (s.startSave n k).dev.queues, strays := (s.startSave n k).dev.strays } } := by
  obtain ⟨hkept, hother, hframe⟩ := (s.setCtx k).keepUpdates_leaves n
  obtain ⟨hset, hothers⟩ := State.setCtx_at (s := s) hk
  have hdraws : ((s.setCtx k).keepUpdates n).dev.draws = s.dev.draws := by rw [hframe]; rfl
  have he : s.startSave n k = (s.setCtx k).keepUpdates n := by
    have hnil : (s.dev.draws.filter fun w => w.ctx = n) = [] := List.filter_eq_nil_iff.mpr fun w hm => by simp [hw w hm]
    rw [State.startSave, hdraws, hnil]
    rfl
  rw [he]
  refine ⟨?_, fun m hm => (hother m hm).trans (hothers m hm), hframe⟩
  rw [hkept, hset]
  rfl

end Sys2Proof.Machine

namespace Sys2Proof.Machine
open Sys2Proof

/-! ## Fatal events (R46, R50) -/

/-- The launches of a context that a fatal event fails. -/
def State.openOf (s : State) (n : Nat) : List Launch :=
  s.dev.launches.filter fun l => l.ctx = n && (l.state = .claimed || l.state = .issuing || l.state = .draining || (l.isDraw && l.state = .pending))
/-- The state in which a fatal event fails launches: its record is written and its context in ERROR. -/
def State.errored (s : State) (n : Nat) (r : Rec) : State :=
  (s.record n r).setCtx { (s.record n r).ctx n with state := .error, keepsSlot := decide ((s.ctx n).state = .resident) }

/-- The state after the launches have failed and the context's teams, where the event kills them itself, are killed. -/
def State.fatal (s : State) (n : Nat) (r : Rec) (kill : Bool) : State :=
  let t := ((s.errored n r).openOf n).foldl (fun s l => s.failLaunch l.id 8 kill) (s.errored n r)
  if kill then t.killTeams fun y => y.ctx = n && y.serial != 0 else t

theorem State.errored_ctx (s : State) (n : Nat) (r : Rec) : ((s.errored n r).ctx n).state = .error :=
  congrArg Ctx.state (State.setCtx_at (s := s.record n r) (k := { (s.record n r).ctx n with state := .error, keepsSlot := decide ((s.ctx n).state = .resident) }) (State.ctx_num ..)).1
theorem State.errored_launches (s : State) (n : Nat) (r : Rec) : (s.errored n r).dev.launches = s.dev.launches := (s.record_tidied n r).launches
theorem State.errored_teams (s : State) (n : Nat) (r : Rec) : TeamsHold s (s.errored n r) := ⟨(s.record_tidied n r).teams.held⟩
theorem State.errored_mb (s : State) (n : Nat) (r : Rec) : (s.errored n r).dev.mb = s.dev.mb := s.record_mb n r
theorem State.errored_openOf (s : State) (n : Nat) (r : Rec) : (s.errored n r).openOf n = s.openOf n := by
  rw [State.openOf, s.errored_launches]; rfl

theorem State.fatal_without_kill (s : State) (n : Nat) (r : Rec) : s.fatal n r false = (s.openOf n).foldl (fun s l => s.failLaunch l.id 8 false) (s.errored n r) := by
  rw [State.fatal, s.errored_openOf]; rfl
/-- What the failing launches keep, and every kill keeps, the whole keeps. -/
theorem State.fatal_keeps {P : State → Prop} {s : State} {n : Nat} {r : Rec} {kill : Bool} (hf : P (((s.errored n r).openOf n).foldl (fun s l => s.failLaunch l.id 8 kill) (s.errored n r)))
    (hk : ∀ t, P t → P (t.killTeams fun y => y.ctx = n && y.serial != 0)) : P (s.fatal n r kill) := by
  unfold State.fatal
  dsimp only
  split
  · exact hk _ hf
  · exact hf
theorem State.fatal_ends (s : State) (n : Nat) (r : Rec) (kill : Bool) : Ends (s.errored n r) (s.fatal n r kill) :=
  State.fatal_keeps (P := Ends (s.errored n r)) (State.failLaunches_ends ..) fun t ht => ht.trans (t.killTeams_tidied _).ends
theorem State.fatal_mb (s : State) (n : Nat) (r : Rec) (kill : Bool) : (s.fatal n r kill).dev.mb = s.dev.mb := by
  have h := foldl_keeps (fun s : State => s.dev.mb) (fun s (l : Launch) => s.failLaunch_mb l.id 8 kill) ((s.errored n r).openOf n) (s.errored n r)
  exact State.fatal_keeps (P := fun t => t.dev.mb = s.dev.mb) (h.trans (s.errored_mb n r)) fun t ht => (t.killTeams_mb _).trans ht

/-- A fatal event of a context that can have one: what fails and is killed, and the end of the save or restore under way. -/
theorem State.ctxFatal_eq {s : State} {n : Nat} (h : ¬ ((s.ctx n).state = .free ∨ (s.ctx n).state = .releasing ∨ (s.ctx n).state = .error)) (kind code : Nat) (addr : VAddr) (kill : Bool) :
    s.ctxFatal n kind code addr kill =
      if s.dev.mb.directed = .save n ∨ s.dev.mb.directed = .restore n then (s.fatal n { kind, code, addr } kill).mbDone 2 else s.fatal n { kind, code, addr } kill := by
  rw [State.ctxFatal]
  dsimp only
  rw [if_neg h, ← s.fatal_mb n { kind, code, addr } kill]
  rfl

/-- A context that takes CTX_FAIL can have a fatal event. -/
theorem CtxState.not_over {st : CtxState} (h : st ∈ [.defined, .resident, .saving, .saved, .restoring]) : ¬ (st = .free ∨ st = .releasing ∨ st = .error) := by
  rintro (rfl | rfl | rfl) <;> revert h <;> decide

section
variable {s : State} {n : Nat} (h : ¬ ((s.ctx n).state = .free ∨ (s.ctx n).state = .releasing ∨ (s.ctx n).state = .error)) (kind code : Nat) (addr : VAddr) (kill : Bool)
include h

theorem State.ctxFatal_ctx : ((s.ctxFatal n kind code addr kill).ctx n).state = .error := by
  have hf : ((s.fatal n { kind, code, addr } kill).ctx n).state = .error := by rw [(s.fatal_ends ..).ctxs, s.errored_ctx]
  rw [State.ctxFatal_eq h]
  split
  · exact hf
  · exact hf
theorem State.ctxFatal_mb (hd : s.dev.mb.directed = .save n ∨ s.dev.mb.directed = .restore n) :
    (s.ctxFatal n kind code addr kill).dev.mb.busy = false ∧ (s.ctxFatal n kind code addr kill).dev.mb.result = 2 := by
  rw [State.ctxFatal_eq h, if_pos hd]
  exact ⟨rfl, rfl⟩
/-- A launch of the context that has been claimed and is not over fails. -/
theorem State.ctxFatal_launch {l : Launch} (hl : s.launch? l.id = some l) (hn : l.ctx = n) (hs : l.state = .claimed ∨ l.state = .issuing ∨ l.state = .draining) :
    (s.ctxFatal n kind code addr false).launch? l.id = some (l.failed 8) := by
  have hf : (s.fatal n { kind, code, addr } false).launch? l.id = some (l.failed 8) := by
    have hmem : l ∈ s.openOf n := List.mem_filter.mpr ⟨(State.launch_id hl).1, by rcases hs with hs | hs | hs <;> simp [hn, hs]⟩
    rw [s.fatal_without_kill, State.failLaunches_launch, if_pos (List.mem_map_of_mem hmem), State.launch_congr (s.errored_launches n _), hl]
    rfl
  rw [State.ctxFatal_eq h]
  split
  · exact hf
  · exact hf
/-- Without launches of the context, memory is that of the record. -/
theorem State.ctxFatal_mem (hl : ∀ l ∈ s.dev.launches, l.ctx ≠ n) : (s.ctxFatal n kind code addr false).dev.mem = (s.record n { kind, code, addr }).dev.mem := by
  have hf : s.fatal n { kind, code, addr } false = s.errored n { kind, code, addr } := by
    have ho : s.openOf n = [] := List.filter_eq_nil_iff.mpr fun l hm => by simp [hl l hm]
    rw [s.fatal_without_kill, ho]; rfl
  rw [State.ctxFatal_eq h, hf]
  split
  · rfl
  · rfl
end

/-- A fatal event leaves no team but killed ones and those of before. -/
theorem State.ctxFatal_teams (s : State) (n kind code : Nat) (addr : VAddr) (kill : Bool) : TeamsHold s (s.ctxFatal n kind code addr kill) := by
  by_cases h : (s.ctx n).state = .free ∨ (s.ctx n).state = .releasing ∨ (s.ctx n).state = .error
  · rw [State.ctxFatal]
    dsimp only
    rw [if_pos h]
    exact .refl s
  · have hf : TeamsHold s (s.fatal n { kind, code, addr } kill) := (s.errored_teams n _).trans (s.fatal_ends ..).teams
    rw [State.ctxFatal_eq h]
    split
    · exact ⟨hf.held⟩
    · exact hf

end Sys2Proof.Machine

namespace Sys2Proof.Machine
open Sys2Proof

/-! ## The end of a save (R49, R384) -/

@[simp] theorem State.focusTeam_dev (s : State) (n : Nat) : (s.focusTeam n).dev = s.dev := by
  unfold State.focusTeam
  split
  · rfl
  · split <;> rfl
@[simp] theorem State.leadGroup_dev (s : State) (g : Group) (r : List Group) : (s.leadGroup g r).dev = s.dev := by
  unfold State.leadGroup
  dsimp only
  rw [State.focusTeam_dev]
  split <;> rfl
@[simp] theorem State.removeGroup_dev (s : State) (l : GLoc) : (s.removeGroup l).dev = s.dev := by
  unfold State.removeGroup
  dsimp only
  split
  · split <;> rw [State.leadGroup_dev]
  · exact State.onCore_dev ..
@[simp] theorem State.takeOff_dev (s : State) (n : Nat) (k : SavedCore) : (s.takeOff n k).dev = s.dev := by
  rw [State.takeOff, State.onCore_dev, foldl_keeps State.dev fun s (g : Group) => s.removeGroup_dev g.loc]

@[simp] theorem State.writeStream_mb (s : State) (c : Ctx) (core : Nat) (bs : List Byte) : (s.writeStream c core bs).dev.mb = s.dev.mb := by
  simp only [State.writeStream, State.store_dev]

/-- What the cores hold of a context, of those that hold something. -/
def State.savedCores (s : State) (n : Nat) : List SavedCore := ((List.range 832).map (s.heldOn n)).filter fun k => k.groups != [] || k.copies != [] || k.mqs != []
theorem State.mem_savedCores {s : State} {n : Nat} {k : SavedCore} (h : k ∈ s.savedCores n) : ∃ i < 832, k = s.heldOn n i := by
  obtain ⟨i, hi, rfl⟩ := List.mem_map.mp (List.mem_filter.mp h).1
  exact ⟨i, List.mem_range.mp hi, rfl⟩
theorem State.mem_heldOn_groups {s : State} {n i : Nat} {g : Group} (h : g ∈ (s.heldOn n i).groups) : g ∈ s.allGroups ∧ g.agent = false ∧ (s.teamOf g.team).ctx = n := by
  obtain ⟨hg, hp⟩ := List.mem_filter.mp h
  have ho := (Bool.and_eq_true_iff.mp hp).2
  obtain ⟨ha, hc⟩ := Bool.and_eq_true_iff.mp ho
  exact ⟨hg, by simpa using ha, of_decide_eq_true hc⟩

/-- A core by its number is one that the state lists, or as after reset. -/
theorem State.badSpad_coreOf {s : State} (h : ∀ k ∈ s.allCores, k.badSpad = []) (n : Nat) : (s.coreOf n).badSpad = [] := by
  unfold State.coreOf
  split
  · exact h s.stowCore List.mem_cons_self
  · cases hf : s.cores.find? fun k => k.num = n with
    | none => rfl
    | some k => exact h k (List.mem_cons_of_mem _ (List.mem_of_find?_eq_some hf))
theorem State.savedBad_false {s : State} {k : SavedCore} (hg : ∀ g ∈ k.groups, g.hasError = false) (hs : ∀ c ∈ s.allCores, c.badSpad = []) : s.savedBad k = false := by
  have hspad (c a n : Nat) : s.spadBad c a n = false := by rw [State.spadBad, State.badSpad_coreOf hs]; rfl
  simp only [State.savedBad, hspad, Bool.or_eq_false_iff, List.any_eq_false, Bool.false_eq_true, not_false_eq_true, implies_true, and_true]
  exact ⟨fun g h => by rw [hg g h]; exact Bool.false_ne_true, fun m _ => by simp⟩
theorem Group.hasError_false {g : Group} (h : ∀ a, some a ∈ g.acc → ∀ r ∈ a.rows, r.bad = false) : g.hasError = false := by
  simp only [Group.hasError, List.any_eq_false]
  intro o ho
  cases o with
  | none => simp
  | some a => simpa using fun r hr => h a ho r hr

/-- The state in which a save has ended: the streams are written, what the cores hold is taken off, and the context keeps its teams. -/
def State.afterSave (s : State) (n : Nat) : State :=
  let c := s.ctx n
  let ks := s.savedCores n
  let s := ks.foldl (fun s k => s.writeStream c k.core (s.streamOf c k).flatten) s
  let s := (ks.foldl (fun s k => s.takeOff n k) s).mapCores fun x => { x with tags := x.tags.filter fun e => e.ctx != n }
  let s := if s.team.ctx = n then s.focusTeam 0 else s
  let mine (t : Team) : Bool := t.serial != 0 && t.ctx = n && !t.killed
  let ts := s.teams.filter mine
  let s : State := { s with teams := s.teams.filter fun t => !mine t }
  s.setCtx { s.ctx n with state := .saved, saved := ks, savedTeams := ts }
theorem State.afterSave_ctx (s : State) (n : Nat) : ((s.afterSave n).ctx n).state = .saved := by
  unfold State.afterSave
  extract_lets c ks s1 s2 s3 mine ts s4
  clear_value s4 ts ks
  exact congrArg Ctx.state (State.setCtx_at (k := { s4.ctx n with state := .saved, saved := ks, savedTeams := ts }) (s4.ctx_num n)).1
theorem State.afterSave_mb (s : State) (n : Nat) : (s.afterSave n).dev.mb = s.dev.mb := by
  unfold State.afterSave
  extract_lets c ks s1 s2 s3 mine ts s4
  clear_value ks
  have h1 : s1.dev.mb = s.dev.mb := by
    have hf (s : State) (k : SavedCore) : (s.writeStream c k.core (s.streamOf c k).flatten).dev.mb = s.dev.mb := s.writeStream_mb ..
    clear_value c
    exact foldl_keeps (fun s : State => s.dev.mb) hf ks s
  have h2 : s2.dev = s1.dev := foldl_keeps State.dev (fun s k => s.takeOff_dev n k) ks s1
  have h3 : s3.dev = s2.dev := by
    simp only [s3]
    split
    · exact State.focusTeam_dev ..
    · rfl
  rw [← h1, ← h2, ← h3]
  rfl

section
variable {s : State} {n : Nat} (hs : (s.ctx n).state = .saving) (hg : ∀ g ∈ s.allGroups, g.agent = false → (s.teamOf g.team).ctx = n → g.gstate = .preempted)
  (hc : ∀ k < 832, ∀ x ∈ (s.coreOf k).sluice, (s.teamOf x.team).ctx = n → x.progress % 32 = 0)
include hs hg hc

/-- The save is due when its groups are taken and its copies stand at a chunk boundary. -/
theorem execCtxSaveDone_due : execCtxSaveDone n s =
    if (s.ctx n).saveBad || (s.savedCores n).any s.savedBad then .next (s.ctxFatal n 7 1) else .next ((s.afterSave n).doneIf (.save n) 0 []) := by
  unfold execCtxSaveDone
  extract_lets c ks gs
  rw [if_neg]
  · have hk : s.savedCores n = ks := rfl
    unfold State.afterSave
    rw [hk]
    clear_value ks
    rfl
  · rintro (h | h | h)
    · exact h hs
    · obtain ⟨g, hgm, hgs⟩ := List.any_eq_true.mp h
      obtain ⟨k, hk, hgk⟩ := List.mem_flatMap.mp hgm
      obtain ⟨i, -, rfl⟩ := State.mem_savedCores hk
      obtain ⟨hgm, ha, hn⟩ := State.mem_heldOn_groups hgk
      simp [hg g hgm ha hn] at hgs
    · obtain ⟨k, hk, hx⟩ := List.any_eq_true.mp h
      obtain ⟨x, hx, hb⟩ := List.any_eq_true.mp hx
      obtain ⟨i, hi, rfl⟩ := State.mem_savedCores hk
      obtain ⟨hx, hn⟩ := List.mem_filter.mp hx
      simp [Copy.atBoundary, hc i hi x hx (of_decide_eq_true hn)] at hb
/-- The last core reports saved: the context is SAVED, and the command that waits for it ends. -/
theorem execCtxSaveDone_saved (hr : ∀ g ∈ s.allGroups, g.agent = false → (s.teamOf g.team).ctx = n → ∀ a, some a ∈ g.acc → ∀ r ∈ a.rows, r.bad = false) (hb : (s.ctx n).saveBad = false)
    (hp : ∀ k ∈ s.allCores, k.badSpad = []) : execCtxSaveDone n s = .next ((s.afterSave n).doneIf (.save n) 0 []) := by
  have hbad : (s.savedCores n).any s.savedBad = false := by
    rw [List.any_eq_false]
    intro k hk
    obtain ⟨i, -, rfl⟩ := State.mem_savedCores hk
    refine Bool.eq_false_iff.mp (State.savedBad_false (fun g hgk => ?_) hp)
    obtain ⟨hgm, ha, hn⟩ := State.mem_heldOn_groups hgk
    exact Group.hasError_false (hr g hgm ha hn)
  rw [execCtxSaveDone_due hs hg hc, hb, hbad]
  rfl
/-- A save that has met an error ends with the context in ERROR. -/
theorem execCtxSaveDone_bad (hb : (s.ctx n).saveBad = true) : execCtxSaveDone n s = .next (s.ctxFatal n 7 1) := by
  rw [execCtxSaveDone_due hs hg hc, hb]
  rfl
end

end Sys2Proof.Machine

namespace Sys2Proof.Machine
open Sys2Proof

/-! ## The restore of a core (R50, R385) -/

/-- What a restore asks about a context: its state, and the cores whose state is still saved. -/
def State.awaited (n : Nat) (s : State) : CtxState × List Nat := ((s.ctx n).state, (s.ctx n).saved.map SavedCore.core)

/-- A context whose saved state of a core is taken back. -/
def Ctx.without (c : Ctx) (core : Nat) : Ctx := { c with savedTeams := [], saved := c.saved.filter fun x => x.core != core }
theorem Ctx.without_cores (c : Ctx) (core : Nat) : (c.without core).saved.map SavedCore.core = (c.saved.map SavedCore.core).filter fun x => x ≠ core := by
  rw [List.filter_map]
  refine congrArg (List.map SavedCore.core) (List.filter_congr fun x _ => ?_)
  rw [Bool.eq_iff_iff, bne_iff_ne, Function.comp_apply, decide_eq_true_iff]

theorem State.awaited_congr {s t : State} {n : Nat} (h : t.dev = s.dev) : t.awaited n = s.awaited n := by
  rw [State.awaited, State.awaited, State.ctx_congr (congrArg Device.ctxs h)]
theorem State.resolveSend_awaited (s : State) (x : MqSend) (w : Word) (n : Nat) : (s.resolveSend x w).awaited n = s.awaited n := by
  rw [State.awaited, State.resolveSend, State.mapHeld_ctx, List.map_map]
  rfl
/-- Once a core's state is put back, the context awaits the other cores' only. -/
theorem State.putBack_awaited (s : State) (k full : SavedCore) (rs : List SRecord) (n : Nat) :
    (s.putBack (s.ctx n) k full rs).awaited n = ((s.ctx n).state, ((s.ctx n).saved.map SavedCore.core).filter fun x => x ≠ k.core) := by
  unfold State.putBack
  extract_lets copies dead live s1 c2 s2 bytes s3 s4 s5 entries s6
  have h6 : ((dead.flatMap fun m => m.2.sends).foldl (fun s x => s.resolveSend x 0xFFFFFFFF) s6).awaited n = s6.awaited n :=
    foldl_keeps (State.awaited n) (fun s x => s.resolveSend_awaited x _ n) _ s6
  rw [h6]
  have h2 : s2.awaited n = ((s.ctx n).state, ((s.ctx n).saved.map SavedCore.core).filter fun x => x ≠ k.core) := by
    have hs2 : s2 = s1.setCtx ((s.ctx (s.ctx n).num).without k.core) := rfl
    rw [s.ctx_num n] at hs2
    rw [State.awaited, hs2, (State.setCtx_at (k := (s.ctx n).without k.core) (s.ctx_num n)).1]
    exact congrArg (Prod.mk _) (Ctx.without_cores ..)
  have hd3 : s3.dev = s2.dev := by
    simp only [s3]
    exact foldl_keeps State.dev (fun s g => State.mapTeams_dev ..) _ s2
  have hd4 : s4.dev = s3.dev := by
    simp only [s4]
    exact State.onCore_dev ..
  have hd5 : s5.dev = s4.dev := by
    simp only [s5]
    exact foldl_keeps State.dev (fun s r => s.onCore_dev ..) _ s4
  have hd6 : s6.dev = s5.dev := by
    simp only [s6]
    refine foldl_keeps State.dev (fun s m => ?_) _ s5
    simp only [entries]
    split
    · exact foldl_keeps State.dev (fun s r => s.onCore_dev ..) _ s
    · rfl
  rw [State.awaited_congr (hd6.trans (hd5.trans (hd4.trans hd3))), h2]

/-- A stream is read to the end of its first record at least. -/
theorem State.le_readStream (s : State) (c : Ctx) (core m o : Nat) : o ≤ (s.readStream c core m o).2 := by
  induction m generalizing o with
  | zero => exact Nat.le_refl o
  | succ m ih =>
    rw [State.readStream]
    dsimp only
    split
    · exact Nat.le_add_right ..
    · exact Nat.le_trans (Nat.le_trans (Nat.le_add_right ..) (Nat.le_add_right ..)) (ih _)
theorem State.readStream_header (s : State) (c : Ctx) (core o : Nat) {m : Nat} (hm : 0 < m) : o + 16 ≤ (s.readStream c core m o).2 := by
  obtain ⟨m, rfl⟩ := Nat.exists_eq_add_of_lt hm
  rw [State.readStream]
  dsimp only
  split
  · exact Nat.le_refl _
  · exact Nat.le_trans (Nat.le_add_right ..) (State.le_readStream ..)
theorem State.poisonedAt_mono {s : State} {a m n : Nat} (h : s.poisonedAt a m = true) (hm : m ≤ n) : s.poisonedAt a n = true := by
  obtain ⟨p, hp, hr⟩ := List.any_eq_true.mp h
  refine List.any_eq_true.mpr ⟨p, hp, ?_⟩
  simp only [Bool.and_eq_true, decide_eq_true_eq] at hr ⊢
  omega

section
variable {s : State} {core n : Nat} {k : SavedCore} (hs : (s.ctx n).state = .restoring) (hk : (s.ctx n).saved.find? (fun x => x.core = core) = some k)
include hs hk

/-- A restore with room, of a stream that can be read: what the context awaits is what the other cores hold. -/
theorem execCoreRestore_restores (hr : s.roomFor (s.ctx n) (s.restored (s.ctx n) k (s.readStream (s.ctx n) core 8192 0).1) = true) (hp : s.dev.poison = []) :
    ∃ t, execCoreRestore core n s = .next t ∧ (t.ctx n).state = .restoring ∧ (t.ctx n).saved.map SavedCore.core = ((s.ctx n).saved.map SavedCore.core).filter fun x => x ≠ core := by
  have hpoison (a m : Nat) : ¬ s.poisonedAt a m = true := by rw [State.poisonedAt, hp]; exact Bool.false_ne_true
  have hcore : k.core = core := by simpa using List.find?_some hk
  have hx : execCoreRestore core n s = .next (s.putBack (s.ctx n) k (s.restored (s.ctx n) k (s.readStream (s.ctx n) core 8192 0).1) (s.readStream (s.ctx n) core 8192 0).1) := by
    unfold execCoreRestore
    simp only [hk]
    rw [if_neg (not_not_intro hs), if_neg (not_or.mpr ⟨hpoison _ _, hpoison _ _⟩), if_neg (by rw [hr]; exact Bool.false_ne_true)]
  generalize (s.readStream (s.ctx n) core 8192 0).1 = rs at hx
  obtain ⟨hstate, hcores⟩ := Prod.mk.inj (s.putBack_awaited k (s.restored (s.ctx n) k rs) rs n)
  exact ⟨_, hx, hstate.trans hs, hcore ▸ hcores⟩
/-- A restore of a stream whose first record cannot be read. -/
theorem execCoreRestore_bad (hp : s.poisonedAt ((s.ctx n).streamAt core 0) 16 = true) : execCoreRestore core n s = .next (s.ctxFatal n 7 2) := by
  have hlen := s.readStream_header (s.ctx n) core 0 (m := 8192) (by decide)
  unfold execCoreRestore
  simp only [hk]
  rw [if_neg (not_not_intro hs), if_pos (.inl (State.poisonedAt_mono hp (by omega)))]
end

end Sys2Proof.Machine

namespace Sys2Proof.Machine
open Sys2Proof

/-! ## Teams while the Saltern works (R189, R194)

Where pages open at an Arbour, the commands that waited are tried again. No such command makes a team; a launch that fails or a fatal event kills some. -/

/-- The teams of a state. -/
def State.roster (s : State) : Team × List Team := (s.team, s.teams)

theorem TeamsHold.of_roster {s t : State} (h : t.roster = s.roster) : TeamsHold s t := .of_eq (congrArg Prod.fst h) (congrArg Prod.snd h)
theorem TeamsHold.foldl {α : Type} {f : State → α → State} (hf : ∀ s a, TeamsHold s (f s a)) (l : List α) (s : State) : TeamsHold s (l.foldl f s) := by
  induction l generalizing s with
  | nil => exact .refl s
  | cons a t ih => exact (hf s a).trans (ih _)
/-- Followed by what leaves the teams alone. -/
theorem TeamsHold.then_eq {s t u : State} (h : TeamsHold s t) (k : u.roster = t.roster) : TeamsHold s u := h.trans (.of_roster k)

/-! ### What leaves the teams alone -/

@[simp] theorem State.setDev_roster (s : State) (f : Device → Device) : (s.setDev f).roster = s.roster := rfl
@[simp] theorem State.setQueue_roster (s : State) (q : Queue) : (s.setQueue q).roster = s.roster := rfl
@[simp] theorem State.setLaunch_roster (s : State) (l : Launch) : (s.setLaunch l).roster = s.roster := rfl
@[simp] theorem State.setDraw_roster (s : State) (w : Draw) : (s.setDraw w).roster = s.roster := rfl
@[simp] theorem State.putSet_roster (s : State) (x : SampleSet) : (s.putSet x).roster = s.roster := rfl
@[simp] theorem State.mapCores_roster (s : State) (f : Core → Core) : (s.mapCores f).roster = s.roster := rfl
@[simp] theorem State.mapGroups_roster (s : State) (f : Group → Group) : (s.mapGroups f).roster = s.roster := Prod.ext (s.mapGroups_team f) (s.mapGroups_teams f)
@[simp] theorem State.mapHeld_roster (s : State) (f : Group → Group) : (s.mapHeld f).roster = s.roster := s.mapGroups_roster f
@[simp] theorem State.release_roster (s : State) (c : HeldCmd) : (s.release c).roster = s.roster := State.mapHeld_roster ..
@[simp] theorem State.codeSync_roster (s : State) (ctx : Nat) (cwin : VAddr) (off len : Word) (p : Nat → Bool) : (s.codeSync ctx cwin off len p).roster = s.roster := rfl
@[simp] theorem State.record_roster (s : State) (c : Nat) (r : Rec) : (s.record c r).roster = s.roster := by
  rw [s.record_only c r]; rfl
@[simp] theorem State.postHeads_roster (s : State) : s.postHeads.roster = s.roster := by
  unfold State.postHeads
  exact foldl_keeps State.roster (fun s w => by simp [State.wakeArbour]) _ s
@[simp] theorem State.gWrite_roster (s : State) (tlb : List TlbEntry) (c : Ctx) (arb : Nat) (va : VAddr) (bs : List Byte) : (s.gWrite tlb c arb va bs).roster = s.roster := by
  have h (l : List (Nat × Nat)) (u : State) (cs : List Byte) :
      (l.foldl (fun (t, bs) p => (t.store (s.gPa tlb c arb { w := true } p.1) (bs.take p.2), bs.drop p.2)) (u, cs)).1.roster = u.roster := by
    induction l generalizing u cs with
    | nil => rfl
    | cons p l ih => exact (ih _ _).trans rfl
  exact h _ s bs
@[simp] theorem State.saltWrite_roster (s : State) (ctx home : Nat) (l : List (VAddr × List Byte)) : (s.saltWrite ctx home l).roster = s.roster :=
  foldl_keeps State.roster (fun _ _ => State.gWrite_roster ..) l s
@[simp] theorem State.openTeamDraw_roster (s : State) (c : HeldCmd) (at_ : VAddr) (home : Nat) (hd : BitVec 512) : (s.openTeamDraw c at_ home hd).2.roster = s.roster := by
  simp [State.openTeamDraw, State.newDraw]
theorem State.saltCheck_wait_roster {s t : State} {ctx home q : Nat} {gen : BitVec 8} {n : Need} {runs : List (VAddr × Nat)}
    (h : s.saltCheck ctx home q gen n runs = .wait t) : t.roster = s.roster := by
  unfold State.saltCheck at h
  dsimp only at h
  split at h
  · cases h
  · cases h
  · split at h
    · next hg =>
      cases h
      unfold State.remoteGateOf at hg
      split at hg
      · cases hg; rfl
      · split at hg <;> cases hg; rfl
    · split at h <;> cases h

/-! ### What kills some -/

theorem State.failLaunch_teams (s : State) (id : Word) (err : Nat) (kill : Bool) : TeamsHold s (s.failLaunch id err kill) := (s.failLaunch_ends id err kill).teams
theorem State.slotsFor_teams (s : State) (launch : Word) (queue core ctx arb kind : Nat) (pages : List (HeldPage × Nat)) : TeamsHold s (s.slotsFor launch queue core ctx arb kind pages) := by
  have attach (s : State) (page : BitVec 64) (r : Rec) : (s.attachSlot ctx arb page r).roster = s.roster := by
    unfold State.attachSlot
    split
    · rfl
    · split <;> simp
  refine .foldl (fun s p => ?_) pages s
  dsimp only
  split
  · exact .refl s
  · unfold State.openSlot
    dsimp only
    split
    · exact s.ctxFatal_teams ..
    · exact .of_roster (attach ..)
theorem State.fatalKernel_teams (s : State) (ctx arb : Nat) (desc args : VAddr) : TeamsHold s (s.fatalKernel ctx arb desc args) := by
  refine .foldl (fun s p => ?_) _ s
  unfold State.fatalAt
  dsimp only
  split
  · exact s.ctxFatal_teams ..
  · exact .refl s

/-! ### Commands at the Saltern -/

section
variable {s u : State} (hu : TeamsHold s u)
include hu

/-- After a check by the Saltern: its failure and what follows it hold the teams, so all does. -/
theorem State.saltCheck_go_teams {ctx home q : Nat} {gen : BitVec 8} {n : Need} {runs : List (VAddr × Nat)} {fail : Nat → Applied} {f : Applied}
    (he : ∀ e, (fail e).All (TeamsHold s)) (hf : f.All (TeamsHold s)) : ((u.saltCheck ctx home q gen n runs).go fail f).All (TeamsHold s) := by
  unfold SRes.go
  split
  · exact hf
  · exact he _
  · trivial
  · next h => exact hu.then_eq (State.saltCheck_wait_roster h)
theorem State.failed_teams (id : Word) (err : Nat) (kill b : Bool) : (Applied.done (u.failLaunch id err kill) b).All (TeamsHold s) := hu.trans (u.failLaunch_teams ..)
theorem State.closeDraw_teams (w : Draw) (q : Nat) (gen : BitVec 8) (b : Bool) : (u.closeDraw w q gen b).All (TeamsHold s) := by
  unfold State.closeDraw
  extract_lets x d h new built pos
  refine State.saltCheck_go_teams hu (fun e => State.failed_teams hu ..) ?_
  split
  dsimp only
  refine State.saltCheck_go_teams hu (fun e => State.failed_teams hu ..) ?_
  split
  · exact (hu.then_eq (by simp)).trans ((State.failLaunch_teams ..).trans (State.fatalKernel_teams ..))
  · split
    · exact (hu.then_eq (by simp)).trans (State.failLaunch_teams ..)
    · split
      · exact (hu.then_eq (by simp)).trans (State.failLaunch_teams ..)
      · exact hu.then_eq (by simp only [State.postHeads_roster, State.setLaunch_roster, State.setDev_roster, State.putSet_roster, State.saltWrite_roster])
theorem State.emitInto_teams (w : Draw) (q : Nat) (gen : BitVec 8) (recs : List (List Word)) (b : Bool) {f : State → Draw → Applied}
    (hf : ∀ v w, TeamsHold s v → (f v w).All (TeamsHold s)) : (u.emitInto w q gen recs b f).All (TeamsHold s) :=
  State.saltCheck_go_teams hu (fun _ => State.failed_teams hu ..) (hf _ _ (hu.then_eq (by simp)))
theorem State.emitStream_teams (w : Draw) (q : Nat) (gen : BitVec 8) (b : Bool) : (u.emitStream w q gen b).All (TeamsHold s) :=
  State.saltCheck_go_teams hu (fun _ => State.failed_teams hu ..) (State.emitInto_teams hu _ _ _ _ _ fun _ _ h => State.closeDraw_teams h ..)
end

theorem State.drawFor_teams {s : State} (c : HeldCmd) (at_ : VAddr) {f : State → Draw → Applied} (hf : ∀ v w, TeamsHold s v → (f v w).All (TeamsHold s)) :
    (s.drawFor c at_ f).All (TeamsHold s) := by
  unfold State.drawFor
  extract_lets emit openNew
  have opens (u : State) (hu : TeamsHold s u) : (openNew u).All (TeamsHold s) := by
    have ho (home : Nat) (hd : BitVec 512) : TeamsHold s (u.openTeamDraw c at_ home hd).2 := hu.then_eq (by simp)
    refine State.saltCheck_go_teams hu (fun e => (ho c.arb 0).trans (State.failLaunch_teams ..)) ?_
    dsimp only
    split
    · exact hu
    · split
      · exact (ho ..).trans (State.failLaunch_teams ..)
      · split
        · exact hf _ _ (ho ..)
        · exact ho ..
  split
  · exact opens s (.refl s)
  · next w _ =>
    have hw := s.failLaunch_teams w.id 4 true
    split
    · exact hf _ _ (.refl s)
    · split
      · exact hw
      · exact opens _ hw
theorem State.drawSync_teams {s : State} (l : Launch) (c : HeldCmd) {f : State → Applied} (hf : ∀ v, TeamsHold s v → (f v).All (TeamsHold s)) :
    (s.drawSync l c f).All (TeamsHold s) := by
  unfold State.drawSync
  split
  · exact hf _ (.refl s)
  · split
    · exact .refl s
    · split
      · trivial
      · next h => exact .of_roster (State.saltCheck_wait_roster h)
      · exact hf _ (.refl s)
      · split
        · exact hf _ (.of_roster (State.codeSync_roster ..))
        · exact hf _ (.refl s)

theorem State.applyCmd_teams (s : State) (c : HeldCmd) : (s.applyCmd c).All (TeamsHold s) := by
  have hs := TeamsHold.refl s
  have put (x : SampleSet) : TeamsHold s (s.putSet x) := .of_roster rfl
  unfold State.applyCmd
  dsimp only
  split
  case h_1 =>
    split
    · exact put _
    · refine State.saltCheck_go_teams hs (fun _ => put _) ?_
      split
      · exact put _
      · split <;> exact put _
  case h_2 =>
    split
    · exact put _
    · exact State.saltCheck_go_teams hs (fun _ => put _) (.of_roster (by simp))
  case h_3 => split <;> exact put _
  case h_4 =>
    split
    · exact put _
    · exact State.saltCheck_go_teams hs (fun _ => put _) (.of_roster (by simp))
  case h_5 =>
    split
    · exact put _
    · split <;> exact put _
  case h_6 =>
    split
    · exact put _
    · split <;> exact put _
  case h_7 => exact .of_roster (by simp)
  case h_8 =>
    exact State.drawFor_teams _ _ fun v w hv => State.saltCheck_go_teams hv (fun _ => State.failed_teams hv ..) (State.emitInto_teams hv _ _ _ _ _ fun _ _ h => h)
  case h_9 => exact State.drawFor_teams _ _ fun v w hv => State.emitStream_teams (hv.then_eq (by simp)) ..
  case h_10 =>
    split
    · exact hs
    · refine State.drawSync_teams _ _ fun v hv => State.saltCheck_go_teams hv (fun _ => State.failed_teams hv ..) ?_
      split
      · exact State.failed_teams hv ..
      · exact State.emitStream_teams (hv.then_eq (by simp)) ..

theorem State.tryCmd_teams (s : State) (c : HeldCmd) : TeamsHold s (s.tryCmd c).1 := by
  have h := s.applyCmd_teams c
  unfold State.tryCmd
  split <;> rename_i hc <;> rw [hc] at h
  · split
    · exact TeamsHold.then_eq h (by simp)
    · exact h
  · exact s.slotsFor_teams ..
  · exact .of_roster rfl
theorem State.drainList_teams (l ahead : List HeldCmd) (s : State) : TeamsHold s (State.drainList l ahead s) := by
  induction l generalizing ahead s with
  | nil => exact .of_roster rfl
  | cons c t ih =>
    unfold State.drainList
    dsimp only
    generalize (if c.held = [] then s.homed c else c) = c
    have h := s.tryCmd_teams c
    split
    · exact ih ..
    · split <;> rename_i hc <;> rw [hc] at h <;> exact h.trans (ih ..)
theorem State.closeSalt_resume_teams (s : State) (k : Closing) : TeamsHold s (s.closeSalt k true) := by
  unfold State.closeSalt
  dsimp only
  rw [if_pos rfl]
  refine TeamsHold.trans ?_ (State.drainList_teams ..)
  exact .of_roster rfl
/-- PAGE_RESUME's way through an Arbour, which a release goes too, leaves no team but killed ones and those of before. -/
theorem State.closePages_resume_teams (s : State) (arb : Nat) (r : PageRange) : TeamsHold s (s.closePages arb r true) := by
  unfold State.closePages
  extract_lets k u v w qs
  have hw : w.roster = s.roster := by simp [w, v, u]
  have hc (s : State) (n : Nat) : (s.closeQueue k true n).roster = s.roster := by
    unfold State.closeQueue
    dsimp only
    rw [if_pos rfl, State.setQueue_roster]
  have hq : (qs.foldl (fun s n => s.closeQueue k true n) w).roster = w.roster := foldl_keeps State.roster hc qs w
  exact (TeamsHold.of_roster (hq.trans hw)).trans (State.closeSalt_resume_teams ..)

/-! ## Kills, resets and releases at the Arbours (R17, R47, R72) -/

/-- After the kill at an Arbour, the teams there that it selects are killed. -/
theorem State.killOn_kills {s : State} {unit : Nat} {p : Team → Bool} : ∀ y ∈ (s.killOn unit p).allTeams, y.serial ≠ 0 → y.core / 104 = unit → p y = true → y.killed = true := by
  intro y hy hs hc hp
  refine (State.killTeams_teams y hy).resolve_right fun h => ?_
  simp [hs, hp, arbourOf, hc] at h
/-- Teams that are all killed stay so. -/
theorem TeamsHold.kills {s t : State} (h : TeamsHold s t) {unit : Nat} {p : Team → Prop} (hp : ∀ x y : Team, y.ctx = x.ctx → y.queue = x.queue → p y → p x)
    (hs : ∀ y ∈ s.allTeams, y.serial ≠ 0 → y.core / 104 = unit → p y → y.killed = true) : ∀ y ∈ t.allTeams, y.serial ≠ 0 → y.core / 104 = unit → p y → y.killed = true := by
  intro y hy h0 hc hpy
  rcases h.held y hy with hk | ⟨x, hx, hxs, hxc, hxx, hxq, hk⟩
  · exact hk
  · exact hk ▸ hs x hx (hxs ▸ h0) (hxc ▸ hc) (hp x y hxx hxq hpy)

/-- A unit's acknowledgement of a directed command that leaves the mailbox alone. -/
theorem execDirectedCommandAck_keeps {s t : State} {unit : Nat} {x : Directed} (hu : unit ∈ s.dev.mb.units) (hx : s.dev.mb.directed = x)
    (ht : (s.setMb fun m => { m with units := m.units.filter fun u => u != unit }).applyDirected unit x = t)
    (hmb : t.dev.mb = { s.dev.mb with units := s.dev.mb.units.filter fun v => v ≠ unit }) :
    execDirectedCommandAck unit s = .next (if ∀ v ∈ s.dev.mb.units, v = unit then t.endDirected x else t) := by
  subst hx ht
  rw [execDirectedCommandAck]
  dsimp only
  rw [if_neg (by simpa using hu)]
  refine congrArg Host.Outcome.next (if_congr ?_ rfl rfl)
  rw [hmb, List.filter_eq_nil_iff]
  simp

/-- The command of a release, a kill or a queue's reset, with the teams that it kills. -/
def Directed.kills (n : Nat) (x : Directed) (p : Team → Prop) : Prop :=
  (x, p) ∈ [(Directed.release n, fun y => y.ctx = n), (.kill n, fun y => y.ctx = n), (.queueReset n, fun y => y.queue = n)]

/-- What an Arbour does on such a command: it kills, leaves the mailbox as it is, and at a release has no fault slot of the context any more. -/
theorem State.applyDirected_kills {s : State} {n unit : Nat} {x : Directed} {p : Team → Prop} (h : x.kills n p) (hx : s.dev.mb.directed = x) :
    (∀ y ∈ (s.applyDirected unit x).allTeams, y.serial ≠ 0 → y.core / 104 = unit → p y → y.killed = true) ∧ (s.applyDirected unit x).dev.mb = s.dev.mb ∧
      (x = .release n → s.dev.salt = [] → ∀ f ∈ (s.applyDirected unit x).dev.slots, f.arbour = unit → f.ctx ≠ n) := by
  simp only [Directed.kills, List.mem_cons, List.not_mem_nil, or_false, Prod.mk.injEq] at h
  rcases h with ⟨rfl, rfl⟩ | ⟨rfl, rfl⟩ | ⟨rfl, rfl⟩
  · let k := s.killOn unit fun t => t.ctx = n
    have hk : k.dev.mb = s.dev.mb := State.killTeams_mb ..
    refine ⟨(k.closePages_resume_teams unit ⟨n, 0, 0⟩).kills (fun x y hc _ hy => hc ▸ hy) fun y hy h0 hc hp => State.killOn_kills y hy h0 hc (decide_eq_true hp), ?_, fun _ hs f hf ha hn => ?_⟩
    · exact ((k.closePages_holds unit ⟨n, 0, 0⟩ true).other fun m => by rw [hk, hx]; exact ⟨nofun, nofun⟩).trans hk
    · have ht : Tidied s k := State.killTeams_tidied ..
      have hsalt : k.dev.salt = [] := List.eq_nil_iff_forall_not_mem.mpr fun c hc => by simpa [hs] using ht.salt c hc
      have hf' : f ∈ (k.closePages unit ⟨n, 0, 0⟩ true).dev.slots := hf
      rw [State.closePages_resume_slots unit _ hsalt] at hf'
      simpa [ha, hn, PageRange.has] using (List.mem_filter.mp hf').2
  · exact ⟨fun y hy h0 hc hp => State.killOn_kills y hy h0 hc (decide_eq_true hp), State.killTeams_mb .., nofun⟩
  · exact ⟨fun y hy h0 hc hp => State.killOn_kills y hy h0 hc (decide_eq_true hp), State.killTeams_mb .., nofun⟩

/-- A unit acknowledges such a command: the teams there are killed, and a kill ends with the last acknowledgement. -/
theorem execDirectedCommandAck_kills {s : State} {n unit : Nat} {x : Directed} {p : Team → Prop} (h : x.kills n p) (hx : s.dev.mb.directed = x) (hu : unit ∈ s.dev.mb.units) :
    ∃ t, execDirectedCommandAck unit s = .next t ∧ (∀ y ∈ t.allTeams, y.serial ≠ 0 → y.core / 104 = unit → p y → y.killed = true) ∧
      (x = .release n → s.dev.salt = [] → ∀ f ∈ t.dev.slots, f.arbour = unit → f.ctx ≠ n) ∧
      (t.dev.mb = { s.dev.mb with units := s.dev.mb.units.filter fun v => v ≠ unit } ∨
        (x = .kill n ∧ (∀ v ∈ s.dev.mb.units, v = unit) ∧ t.dev.mb = { s.dev.mb with busy := false, result := 0, directed := .none, units := [] })) ∧
      (x = .kill n → (∀ v ∈ s.dev.mb.units, v = unit) → t.dev.mb.busy = false) := by
  obtain ⟨t, ht⟩ : ∃ t, (s.setMb fun m => { m with units := m.units.filter fun u => u != unit }).applyDirected unit x = t := ⟨_, rfl⟩
  obtain ⟨hteams, hmb, hslots⟩ := State.applyDirected_kills (unit := unit) h (s := s.setMb fun m => { m with units := m.units.filter fun u => u != unit }) hx
  rw [ht] at hteams hmb hslots
  have hmb' : t.dev.mb = { s.dev.mb with units := s.dev.mb.units.filter fun v => v ≠ unit } := by
    have hf : s.dev.mb.units.filter (fun v => v ≠ unit) = s.dev.mb.units.filter fun u => u != unit :=
      List.filter_congr fun v _ => by rw [Bool.eq_iff_iff, bne_iff_ne, decide_eq_true_iff]
    rw [hmb, hf]
    rfl
  have hexec := execDirectedCommandAck_keeps hu hx ht hmb'
  by_cases hk : x = .kill n ∧ ∀ v ∈ s.dev.mb.units, v = unit
  · obtain ⟨rfl, hall⟩ := hk
    rw [if_pos hall] at hexec
    refine ⟨_, hexec, hteams, nofun, .inr ⟨rfl, hall, ?_⟩, fun _ _ => rfl⟩
    show { t.dev.mb with busy := false, result := 0, directed := .none, units := [] } = _
    rw [hmb']
  · refine ⟨t, hexec.trans (congrArg _ ?_), hteams, hslots, .inl hmb', fun hx' hall => absurd ⟨hx', hall⟩ hk⟩
    split
    · next hall =>
      simp only [Directed.kills, List.mem_cons, List.not_mem_nil, or_false, Prod.mk.injEq] at h
      rcases h with ⟨rfl, -⟩ | ⟨rfl, -⟩ | ⟨rfl, -⟩
      · rfl
      · exact absurd ⟨rfl, hall⟩ hk
      · rfl
    · rfl

end Sys2Proof.Machine

namespace Sys2Proof.Machine
open Sys2Proof

/-! ## The obligation -/

/-- Settles O58, clause by clause: the ends of each command, and what each event leaves. -/
theorem contextCommands : Obligations.ContextCommands := by
  unfold Obligations.ContextCommands
  intro s n c ended started sets slotFree noSlot latest command
  have hnum : c.num = n := s.ctx_num n
  have hcmd {i : Instr} {used : List (Nat × Nat)} {ok : List CtxState} {f : Ctx → Outcome} {does : Prop} (hx : exec i s = s.ctxCmd used ok f)
      (hd : exec i s = f c → does) : command i used ok does := fun h hn => State.ctxCmd_ends h hn hx fun _ _ => hd
  refine ⟨?_, ?_, ?_, ?_, ?_, ?_, ?_, ?_, ?_, ?_, ?_, ?_, ?_, ?_, ?_, ?_, ?_, ?_⟩
  · refine hcmd (exec_ctxDefine s) fun hx => ⟨fun hf => hx.trans (if_pos (s.badDefine_iff.mpr hf)), fun tag hf h1 h64 hfree hused => ?_⟩
    obtain ⟨hctx, hother, hmem, hmb⟩ := s.defineCtx_leaves n tag
    refine ⟨s.defineCtx n tag, ?_, ⟨hctx, hother⟩, hmem, hmb⟩
    rw [hx, if_neg fun hb => s.badDefine_iff.mp hb hf, State.freeTag_eq h1 h64 hfree hused, hnum]
    rfl
  · refine hcmd (exec_ctxAdmit s) fun hx => ⟨fun hno => ?_, fun r hr => ?_⟩
    · rw [hx, State.freeSlot_none hno]; rfl
    · obtain ⟨hr4, hfree, hlow⟩ := hr
      obtain ⟨u, hu, hctx, hother, hprio, -⟩ := s.makeResident_leaves n r
      refine ⟨(s.makeResident n r).mbDone 0 (leBytes r 1), u, ?_, hu, ⟨hctx, hother⟩, hprio, rfl⟩
      rw [hx, State.freeSlot_some hr4 hfree hlow, hnum]
  · refine hcmd (exec_ctxSave s) fun hx => ?_
    let k : Ctx := { c with state := .saving, savingAt := s.dev.tick, saveBad := false }
    replace hx : exec .ctxSave s = .next ((s.startSave c.num k).mbStart (.save c.num) []) := hx
    rw [hnum] at hx
    refine ⟨(s.startSave n k).mbStart (.save n) [], hx, s.startSave_ctx hnum, rfl, rfl, fun hw => ?_⟩
    obtain ⟨hctx, hother, hframe⟩ := State.startSave_frame (k := k) hnum hw
    exact ⟨congrArg (fun t : State => t.mbStart (.save n) []) hframe, hctx, hother⟩
  · refine hcmd (exec_ctxRestore s) fun hx => ⟨fun hno => ?_, fun r hr => ?_⟩
    · rw [hx, State.freeSlot_none hno]; rfl
    · obtain ⟨hr4, hfree, hlow⟩ := hr
      refine ⟨(s.setCtx { c with state := .restoring, rslot := r }).mbStart (.restore n) [] (leBytes r 1), ?_, State.setCtx_at hnum, rfl⟩
      rw [hx, State.freeSlot_some hr4 hfree hlow, hnum]
  · refine hcmd (exec_ctxRelease s) fun hx => ?_
    let k : Ctx := { c with state := .releasing, keepsSlot := c.keepsSlot || decide (c.state = .resident) }
    replace hx : exec .ctxRelease s = .next ((s.startRelease c.num k).mbStart (.release c.num) (List.range 8)) := hx
    rw [hnum] at hx
    obtain ⟨hctx, hkeys, hqueues, hlaunches⟩ := State.release_leaves (s := s) (k := k) hnum rfl
    generalize s.startRelease n k = t at hx hctx hkeys hqueues hlaunches
    exact ⟨_, hx, hctx, rfl, rfl, rfl, hkeys, hqueues, hlaunches⟩
  · intro x p unit h hx hu
    obtain ⟨t, ht, hteams, hslots, hmb⟩ := execDirectedCommandAck_kills h hx hu
    exact ⟨t, ht, hteams, fun hr hs _ => hslots hr hs, hmb⟩
  · refine hcmd (exec_ctxPrio s) fun hx => ?_
    intro p u stamp
    rw [hnum] at hx
    have hx' (hb : p ≤ 15) {b : Bool} {t : State} (ht : s.takePrio n u = (b, t)) : exec .ctxPrio s = .next (if b then t.mbStart (.prio n p s.dev.tick) (List.range 832) stamp else t.mbDone 0 stamp) := by
      rw [hx, if_neg (Nat.not_lt.mpr hb), ht]
      cases b <;> rfl
    refine ⟨fun hb => hx.trans (if_pos hb), fun hb he => hx' hb (State.takePrio_error he u), fun hb hr => ?_, fun hb he hr => ?_⟩
    · exact ⟨_, hx' hb (State.takePrio_resident hr u), State.setCtx_at hnum, rfl⟩
    · exact ⟨_, hx' hb (State.takePrio_kept hr he u), State.setCtx_at hnum, rfl⟩
  · refine hcmd (exec_ctxQuery s) fun hx => ?_
    intro code
    have hcode : c.state.num = code := by cases hs : c.state <;> simp only [code, hs] <;> rfl
    rw [hx, hcode]; rfl
  · refine fun h hn => State.ctxCmd_ends h hn (exec_ctxFail s) fun _ hs hx => ?_
    have hlive := CtxState.not_over hs
    replace hx : exec .ctxFail s = .next ((s.ctxFatal c.num 8 1 0 false).mbStart (.kill c.num) (List.range 8)) := hx
    rw [hnum] at hx
    have hctx := State.ctxFatal_ctx hlive 8 1 0 false
    have hmem := State.ctxFatal_mem hlive 8 1 0
    have hlaunch {l : Launch} := State.ctxFatal_launch hlive 8 1 0 (l := l)
    generalize s.ctxFatal n 8 1 0 false = t at hx hctx hmem hlaunch
    exact ⟨_, hx, hctx, rfl, rfl, rfl, fun l hl hc hst => State.failed_record (hlaunch hl hc hst) hst, hmem⟩
  · intro g x hx hu ha hn hs hst hvm hsp hga hops hpm waited
    subst hn
    obtain ⟨t, ht, hkeys, hgroup⟩ := execGroupPreempt_leaves hx hu ha hs hst (Group.quiet_of hvm hsp hga hops hpm)
    exact ⟨t, ht, hkeys, hgroup⟩
  · intro hs hg hb hp hc
    have h := execCtxSaveDone_saved hs (fun g hm ha hn => (hg g hm ha hn).1) hc (fun g hm ha hn => (hg g hm ha hn).2) hb hp
    have hmb := s.afterSave_mb n
    refine ⟨_, h, ?_, fun hd => ?_, fun hd => ?_⟩
    · rw [State.doneIf_ctx, s.afterSave_ctx]
    · rw [State.doneIf_this _ _ (by rw [hmb]; exact hd)]
      exact ⟨rfl, rfl⟩
    · rw [State.doneIf_other _ _ (by rw [hmb]; exact hd), hmb]
  · intro hs hg hc hb
    have hlive := CtxState.not_over (st := (s.ctx n).state) (by rw [show (s.ctx n).state = _ from hs]; decide)
    exact ⟨_, execCtxSaveDone_bad hs hg hc hb, State.ctxFatal_ctx hlive .., fun hd => State.ctxFatal_mb hlive _ _ _ _ (.inl hd)⟩
  · intro core k hs hk hr
    have hlive := CtxState.not_over (st := (s.ctx n).state) (by rw [show (s.ctx n).state = _ from hs]; decide)
    refine ⟨execCoreRestore_restores hs hk hr, fun hp => ?_⟩
    exact ⟨_, execCoreRestore_bad hs hk hp, State.ctxFatal_ctx hlive .., fun hd => State.ctxFatal_mb hlive _ _ _ _ (.inr hd)⟩
  · intro hs hsaved
    obtain ⟨t, u, ht, hu, hctx, hother, hprio, hteams, hmb, hmb'⟩ := execCtxRestoreDone_leaves hs hsaved
    exact ⟨t, u, ht, hu, ⟨hctx, hother⟩, hprio, hteams, hmb, hmb'⟩
  · exact fun hs hu hq ht => execCtxReleaseDone_leaves hs hu hq ht
  · intro q k only
    refine ⟨fun h hn => ?_, fun h hn => ?_⟩
    · obtain ⟨hmapped, hbad, hfits⟩ := execQueueMap_ends h rfl hn
      obtain ⟨hset, hother, hmem, hmb⟩ := s.mapQueue_leaves q
      exact ⟨hmapped, hbad, fun hs hf => ⟨s.mapQueue q, hfits hs hf, ⟨hset, hother⟩, hmem, hmb⟩⟩
    · obtain ⟨hbad, hreset⟩ := execQueueReset_ends h rfl hn
      obtain ⟨hnot, hunmap⟩ := execQueueUnmap_ends h rfl hn
      exact ⟨hbad, hreset, hnot, fun hs => ⟨_, hunmap hs, s.unmapped_at q k.qgen, s.withdrawNotice_notices q, rfl⟩⟩
  · exact fun q => execQueueResetDone_leaves
  · intro h at_
    refine ⟨fun hl => execLaunchQuery_none h hl, fun l hl => ?_⟩
    obtain ⟨hbad, hcopies⟩ := execLaunchQuery_ends h hl
    refine ⟨hbad, fun ha hr hp hd => ?_⟩
    obtain ⟨t, hx, hmem, hresult, hfreed, hkept⟩ := hcopies ha hr hp hd
    refine ⟨t, l.recordBytes, hx, hmem, l.length_recordBytes, hresult, hfreed, hkept, ?_, l.recordBytes_digit⟩
    rw [l.take_recordBytes, l.headerBytes_eq]
    cases hs : l.state <;> rfl
end Sys2Proof.Machine

namespace Sys2Proof.Machine
open Sys2Proof

/-! ## Reductions and scans (R41, R42, R290, R291) -/

theorem execXred_done {s : State} {d : BitVec 7} {a : BitVec 8} (o : BitVec 4) (h : s.redCheck d a = none) :
    let r := redTree (s.redOp o.toNat) 6 (s.laneVals a)
    let x := r.1.getD (redIdentity o.toNat)
    ∃ t, execXred o a d s = .next t ∧ SideDone (AllLanes d x r.2 s) x r.2 s t := by
  intro r x
  obtain ⟨t, ht, hd⟩ := State.side_done (s := s) (u := s.writeL d x) (total := x) rfl rfl (s.writeL_result d x r.2)
  refine ⟨t, ?_, hd⟩
  rw [← ht, execXred, h]

/-- An exclusive scan gives lane i the inclusive value of the active lane before it (R42, R291). -/
theorem execXscan_done {s : State} {d : BitVec 7} {a : BitVec 8} (e : BitVec 1) (o : BitVec 4) (h : s.redCheck d a = none) :
    let r := scanAll (s.redOp o.toNat) 6 1 (s.laneVals a)
    let val (i : Nat) : Word := (r.1.getD i none).getD (redIdentity o.toNat)
    let below (i : Nat) : Word := match (s.activeLanes.filter fun j => j < i).getLast? with | some j => val j | none => redIdentity o.toNat
    let total := if s.activeLanes = [] then redIdentity o.toNat else val (s.grp.width - 1)
    ∃ t, execXscan e o a d s = .next t ∧ SideDone (VecResult 4 d (fun i => if e = 1 then below i else val i) r.2 s) total r.2 s t := by
  intro r val below total
  obtain ⟨t, ht, hd⟩ := State.side_done (s := s) (u := s.vecWrite d fun i => if e = 1 then below i else val i) (total := total) rfl rfl
    (s.vecWrite_result 4 d _ r.2)
  refine ⟨t, ?_, hd⟩
  rw [← ht, execXscan, h] <;> rfl

/-- Settles O13: the lanes' writes, then what every reduction does beside them. -/
theorem reductionForms : Obligations.ReductionForms := by
  intro s d a o _ hc h63 hd
  have h : s.redCheck d a = none := State.redCheck_none hc h63 hd
  exact ⟨execXred_done o h, fun e => execXscan_done e o h⟩

end Sys2Proof.Machine

namespace Sys2Proof.Machine
open Sys2Proof

/-! ## Tables of vector forms (R275) -/

section
variable {s : State} {d : BitVec 7} {a b : BitVec 8}

theorem State.vec2_done (f : Word → Word → Word × Flags) (h : s.Ready d [a, b]) :
    ∃ t, s.vec2 4 d a b f = .next t ∧ VecDone 4 d (fun k => f (s.read a k) (s.read b k)) s t :=
  State.vecForm_done (srcs := [srcA a, srcB b]) (third := []) 4 _ h

theorem State.vec1_done (f : Word → Word × Flags) (h : s.Ready d [a]) :
    ∃ t, s.vec1 d a f = .next t ∧ VecDone 4 d (fun k => f (s.read a k)) s t :=
  State.vecForm_done (srcs := [srcA a]) (third := []) 4 _ h

/-- A row of a table of two-source forms, where each row's instruction runs its function. -/
theorem State.vec2_table {l : List (Instr × (Word → Word → Word × Flags))} (hl : l.Forall fun p => exec p.1 s = s.vec2 4 d a b p.2)
    {i : Instr} {f : Word → Word → Word × Flags} (hi : (i, f) ∈ l) (h : s.Ready d [a, b]) :
    ∃ t, exec i s = .next t ∧ VecDone 4 d (fun k => f (s.read a k) (s.read b k)) s t := by
  rw [List.forall_iff_forall_mem.mp hl _ hi]
  exact State.vec2_done f h

/-- The same of one-source forms. -/
theorem State.vec1_table {l : List (Instr × (Word → Word × Flags))} (hl : l.Forall fun p => exec p.1 s = s.vec1 d a p.2)
    {i : Instr} {f : Word → Word × Flags} (hi : (i, f) ∈ l) (h : s.Ready d [a]) :
    ∃ t, exec i s = .next t ∧ VecDone 4 d (fun k => f (s.read a k)) s t := by
  rw [List.forall_iff_forall_mem.mp hl _ hi]
  exact State.vec1_done f h
end

/-- Settles O5: each row of the two tables is what exec runs, so the shared forms' results are the rows'. -/
theorem floatForms : Obligations.FloatForms := by
  intro s d a b i m z
  refine ⟨fun f hf h => State.vec2_table ?_ hf h, fun f hf h => State.vec1_table ?_ hf h⟩
  · exact ⟨rfl, rfl, rfl, rfl, rfl, rfl, rfl, rfl, rfl, rfl, rfl, rfl, rfl, rfl, rfl⟩
  · exact ⟨rfl, rfl, rfl, rfl, rfl, rfl, rfl, rfl, rfl, rfl, rfl, rfl, rfl, rfl, rfl, rfl⟩

end Sys2Proof.Machine

namespace Sys2Proof.Machine
open Sys2Proof

/-! ## Arithmetic on values (R27, R280, R281, R284) -/

@[simp] theorem Num.infinite_nan (g : Bool) : ¬ (Num.nan g).Infinite := by simp [Num.Infinite]
@[simp] theorem Num.infinite_inf (s : Bool) : (Num.inf s).Infinite := ⟨s, rfl⟩
@[simp] theorem Num.infinite_fin (s : Bool) (m : Nat) (e : Int) : ¬ (Num.fin s m e).Infinite := by simp [Num.Infinite]
@[simp] theorem Num.zero_nan (g : Bool) : ¬ (Num.nan g).Zero := by simp [Num.Zero]
@[simp] theorem Num.zero_inf (s : Bool) : ¬ (Num.inf s).Zero := by simp [Num.Zero]
@[simp] theorem Num.zero_fin (s : Bool) (m : Nat) (e : Int) : (Num.fin s m e).Zero ↔ m = 0 := by simp [Num.Zero]

@[simp] theorem snan_inf (s : Bool) : snan (.inf s) = 0#7 := rfl
@[simp] theorem snan_fin (s : Bool) (m : Nat) (e : Int) : snan (.fin s m e) = 0#7 := rfl
theorem snan_nan (g : Bool) : snan (.nan g) = if g then flagNV else 0 := by cases g <;> rfl

/-- A signalling operand raises no more than NV. -/
theorem snan_or_flagNV (x : Num) : snan x ||| flagNV = flagNV := by
  cases x with
  | nan g => cases g <;> rfl
  | inf s => simp
  | fin s m e => simp

@[simp] theorem Num.isNan_nan (g : Bool) : (Num.nan g).isNan = true := rfl
@[simp] theorem Num.isNan_inf (s : Bool) : (Num.inf s).isNan = false := rfl
@[simp] theorem Num.isNan_fin (s : Bool) (m : Nat) (e : Int) : (Num.fin s m e).isNan = false := rfl
@[simp] theorem Num.isNeg_inf (s : Bool) : (Num.inf s).isNeg = s := rfl
@[simp] theorem Num.isNeg_fin (s : Bool) (m : Nat) (e : Int) : (Num.fin s m e).isNeg = s := rfl

section
variable (f : Fmt) (mode : RMode) (ftz : Bool)

/-! ### Fused sums -/

theorem fma_invalid {x y : Num} (w : Num) (h : (x.Infinite ∧ y.Zero) ∨ (x.Zero ∧ y.Infinite)) : f.fma mode ftz x y w = (f.qnan, flagNV) := by
  obtain ⟨⟨s, rfl⟩, t, e, rfl⟩ | ⟨⟨t, e, rfl⟩, s, rfl⟩ := h
  · simp [Fmt.fma, snan_or_flagNV]
  · simp [Fmt.fma, snan_or_flagNV]

theorem fma_nan {x y w : Num} (hi : ¬ ((x.Infinite ∧ y.Zero) ∨ (x.Zero ∧ y.Infinite))) (h : (x.isNan || y.isNan || w.isNan) = true) :
    f.fma mode ftz x y w = (f.qnan, snan x ||| snan y ||| snan w) := by
  cases x with
  | nan g => simp [Fmt.fma]
  | inf s =>
    cases y with
    | nan g => simp [Fmt.fma]
    | inf t => cases w <;> simp_all [Fmt.fma]
    | fin t m e => cases w <;> simp_all [Fmt.fma]
  | fin s m e =>
    cases y with
    | nan g => simp [Fmt.fma]
    | inf t => cases w <;> simp_all [Fmt.fma]
    | fin t k e' => cases w <;> simp_all [Fmt.fma]

/-- An infinite product p meets an infinite term: of one sign they stay, of two they are invalid. -/
theorem inf_meets (p u : Bool) : (if p = u then (f.inf u, 0#7) else (f.qnan, flagNV)) = if Num.inf u = .inf (!p) then (f.qnan, flagNV) else (f.inf p, 0#7) := by
  cases p <;> cases u <;> rfl

/-- An infinite product. -/
theorem fma_inf {x y w : Num} (hi : ¬ ((x.Infinite ∧ y.Zero) ∨ (x.Zero ∧ y.Infinite))) (hn : (x.isNan || y.isNan || w.isNan) = false)
    (h : x.Infinite ∨ y.Infinite) : f.fma mode ftz x y w = if w = .inf (!(x.isNeg != y.isNeg)) then (f.qnan, flagNV) else (f.inf (x.isNeg != y.isNeg), 0) := by
  cases x with
  | nan g => simp at hn
  | inf s =>
    cases y with
    | nan g => simp at hn
    | inf t => cases w with
      | nan g => simp at hn
      | inf u => exact inf_meets f (s != t) u
      | fin u k e => simp [Fmt.fma]
    | fin t m e =>
      have hm : m ≠ 0 := by simpa using hi
      cases w with
      | nan g => simp at hn
      | inf u => simpa [Fmt.fma, hm] using inf_meets f (s != t) u
      | fin u k e => simp [Fmt.fma, hm]
  | fin s m e =>
    cases y with
    | nan g => simp at hn
    | inf t =>
      have hm : m ≠ 0 := by simpa using hi
      cases w with
      | nan g => simp at hn
      | inf u => simpa [Fmt.fma, hm] using inf_meets f (s != t) u
      | fin u k e => simp [Fmt.fma, hm]
    | fin t m e => simp at h

theorem fma_addInf (s : Bool) (m : Nat) (e : Int) (t : Bool) (k : Nat) (g : Int) (u : Bool) :
    f.fma mode ftz (.fin s m e) (.fin t k g) (.inf u) = (f.inf u, 0) := by simp [Fmt.fma]

/-- A finite sum z × 2^e, rounded once; a zero sum has the sign of R284. -/
theorem fma_fin (s : Bool) (m₁ : Nat) (e₁ : Int) (t : Bool) (m₂ : Nat) (e₂ : Int) (u : Bool) (m₃ : Nat) (e₃ : Int) :
    let p := s != t
    let e : Int := min (e₁ + e₂) e₃
    let z : Int := signedNat p (m₁ * m₂) * 2 ^ (e₁ + e₂ - e).toNat + signedNat u m₃ * 2 ^ (e₃ - e).toNat
    f.fma mode ftz (.fin s m₁ e₁) (.fin t m₂ e₂) (.fin u m₃ e₃) =
      if z = 0 then (f.zero (if m₁ * m₂ = 0 ∧ m₃ = 0 ∧ p = u then p else decide (mode = .rd)), 0) else f.round mode ftz (decide (z < 0)) z.natAbs e false := by
  intro p e z
  obtain ⟨hm, he, hs⟩ : _ = z.natAbs ∧ _ = e ∧ (z ≠ 0 → _ = decide (z < 0)) := addExact_eq p (m₁ * m₂) (e₁ + e₂) u m₃ e₃
  have hf : f.fma mode ftz (.fin s m₁ e₁) (.fin t m₂ e₂) (.fin u m₃ e₃) =
      if (addExact p (m₁ * m₂) (e₁ + e₂) u m₃ e₃).2.1 = 0 then (f.zero (if m₁ * m₂ = 0 ∧ m₃ = 0 ∧ p = u then p else decide (mode = .rd)), 0)
      else f.round mode ftz (addExact p (m₁ * m₂) (e₁ + e₂) u m₃ e₃).1 (addExact p (m₁ * m₂) (e₁ + e₂) u m₃ e₃).2.1 (addExact p (m₁ * m₂) (e₁ + e₂) u m₃ e₃).2.2 false := by
    simp [Fmt.fma, p]
  rw [hf, hm, he]
  by_cases hz : z = 0
  · rw [if_pos hz, if_pos (Int.natAbs_eq_zero.mpr hz)]
  · rw [if_neg hz, if_neg (mt Int.natAbs_eq_zero.mp hz), hs hz]

theorem converts_zero (neg : Bool) (e : Int) : f.Converts mode ftz (.fin neg 0 e) (f.zero neg) 0 :=
  ⟨fun _ => ⟨rfl, rfl⟩, fun h => absurd rfl h⟩

/-- The fused sum is the exact sum rounded once. -/
theorem fma_fused (x y w : Num) : f.Fused mode ftz x y w (f.fma mode ftz x y w).1 (f.fma mode ftz x y w).2 := by
  refine ⟨fun h => ?_, fun hi hn => ?_, fun hi hn => ⟨fun h => ?_, ?_, ?_⟩⟩
  · exact Prod.mk.inj (fma_invalid f mode ftz w h)
  · exact Prod.mk.inj (fma_nan f mode ftz hi hn)
  · rw [fma_inf f mode ftz hi hn h]
    exact ⟨fun hw => by simp [hw], fun hw => by simp [hw]⟩
  · rintro h u rfl
    cases x with
    | nan g => simp at hn
    | inf s => simp at h
    | fin s m e =>
      cases y with
      | nan g => simp at hn
      | inf t => simp at h
      | fin t k g => exact Prod.mk.inj (fma_addInf f mode ftz ..)
  · rintro s m₁ e₁ t m₂ e₂ u m₃ e₃ rfl rfl rfl e z
    rw [show f.fma mode ftz _ _ _ = _ from fma_fin f mode ftz s m₁ e₁ t m₂ e₂ u m₃ e₃]
    change f.Converts mode ftz _ (if z = 0 then _ else _ : Nat × Flags).1 (if z = 0 then _ else _ : Nat × Flags).2
    by_cases hz : z = 0
    · rw [if_pos hz, if_pos hz, hz]
      exact converts_zero f mode ftz _ e
    · rw [if_neg hz, if_neg hz]
      exact round_converts ..

/-! ### Products -/

/-- Any other product is the fused sum with +0. -/
theorem mul_special {x y : Num} (h : (x.isNan || y.isNan) = true ∨ x.Infinite ∨ y.Infinite) : f.mul mode ftz x y = f.fma mode ftz x y (.fin false 0 0) := by
  cases x with
  | nan g => rfl
  | inf s => rfl
  | fin s m e => cases y with
    | nan g => rfl
    | inf t => rfl
    | fin t k g => simp at h

theorem mul_product (x y : Num) : f.Product mode ftz x y (f.mul mode ftz x y).1 (f.mul mode ftz x y).2 := by
  obtain ⟨hinv, hnan, hfin⟩ := fma_fused f mode ftz x y (.fin false 0 0)
  simp only [Num.isNan_fin, Bool.or_false, snan_fin, BitVec.or_zero] at hnan hfin
  refine ⟨fun h => ?_, fun h => ?_, fun hi hn h => ?_, ?_⟩
  · rw [mul_special f mode ftz (.inr (h.imp And.left And.right))]
    exact hinv h
  · rw [mul_special f mode ftz (.inl h)]
    refine hnan (fun hi => ?_) h
    obtain ⟨⟨s, rfl⟩, t, e, rfl⟩ | ⟨⟨t, e, rfl⟩, s, rfl⟩ := hi <;> simp at h
  · rw [mul_special f mode ftz (.inr h)]
    exact ((hfin hi hn).1 h).2 nofun
  · rintro s m₁ e₁ t m₂ e₂ rfl rfl
    exact round_converts ..

/-! ### Quotients -/

theorem div_nan {x y : Num} (h : (x.isNan || y.isNan) = true) : f.div mode ftz x y = (f.qnan, snan x ||| snan y) := by
  cases x with
  | nan g => rfl
  | inf s => cases y <;> simp_all [Fmt.div]
  | fin s m e => cases y <;> simp_all [Fmt.div]

theorem div_invalid {x y : Num} (h : (x.Infinite ∧ y.Infinite) ∨ (x.Zero ∧ y.Zero)) : f.div mode ftz x y = (f.qnan, flagNV) := by
  obtain ⟨⟨s, rfl⟩, t, rfl⟩ | ⟨⟨s, e, rfl⟩, t, g, rfl⟩ := h
  · rfl
  · rfl

theorem div_byZero (s : Bool) {m : Nat} (hm : m ≠ 0) (e : Int) (t : Bool) (g : Int) :
    f.div mode ftz (.fin s m e) (.fin t 0 g) = (f.inf (s != t), flagDV) := by
  simp [Fmt.div, hm]

theorem div_fin (s : Bool) (m₁ : Nat) (e₁ : Int) (t : Bool) {m₂ : Nat} (h : m₂ ≠ 0) (e₂ : Int) :
    f.div mode ftz (.fin s m₁ e₁) (.fin t m₂ e₂) =
      f.round mode ftz (s != t) (m₁ * 2 ^ 80 / m₂) (e₁ - e₂ - 80) (decide (¬ (m₁ * 2 ^ 80 / m₂ * m₂ = m₁ * 2 ^ 80))) := by
  have hd : m₁ * 2 ^ 80 % m₂ ≠ 0 ↔ ¬ (m₁ * 2 ^ 80 / m₂ * m₂ = m₁ * 2 ^ 80) := by
    rw [← Nat.dvd_iff_div_mul_eq, Nat.dvd_iff_mod_eq_zero]
  simp only [Fmt.div, if_neg h, hd]

/-- The significands of the formats: small enough that a quotient to 80 bits and a root to 40 reach below the last place. -/
def Num.Short (x : Num) : Prop := ∀ s m e, x = .fin s m e → m < 2 ^ 24

/-- An exact multiple of the unit is rounded as it is. -/
theorem round_near_exact (neg : Bool) (n : Nat) (e : Int) {exact : Prop} [Decidable exact] (h : exact) :
    f.RoundsNear mode ftz neg n e exact (f.round mode ftz neg n e (decide (¬ exact))).1 (f.round mode ftz neg n e (decide (¬ exact))).2 := by
  refine ⟨fun _ => ?_, fun k => absurd h k⟩
  simpa [h] using round_converts f mode ftz neg n e

variable {f mode} (hf : f.mb ≤ 23) (hs : ∀ w, mode ≠ .sr w)
include hf hs

theorem div_quotient (x : Num) {y : Num} (hy : y.Short) : f.Quotient mode ftz x y (f.div mode ftz x y).1 (f.div mode ftz x y).2 := by
  refine ⟨fun h => Prod.mk.inj (div_nan f mode ftz h), fun h => Prod.mk.inj (div_invalid f mode ftz h), fun s m₁ e₁ t m₂ e₂ => ⟨?_, ?_, ?_, ?_⟩⟩
  · rintro rfl rfl
    exact ⟨rfl, rfl⟩
  · rintro rfl rfl
    exact ⟨rfl, rfl⟩
  · rintro rfl rfl hm rfl
    exact Prod.mk.inj (div_byZero f mode ftz s hm e₁ t e₂)
  · rintro rfl rfl hm n hl hu
    have hn : m₁ * 2 ^ 80 / m₂ = n := Nat.div_eq_of_lt_le hl hu
    rw [div_fin f mode ftz s m₁ e₁ t hm e₂, hn]
    rcases Nat.eq_zero_or_pos m₁ with rfl | h0
    · obtain rfl : n = 0 := by simpa using hn.symm
      exact round_near_exact f mode ftz (s != t) 0 _ (by simp)
    · refine round_near f mode ftz _ n _ _ ?_ hs
      have hm2 : m₂ < 2 ^ 24 := hy t m₂ e₂ rfl
      calc 2 ^ (f.mb + 1) ≤ 2 ^ 24 := Nat.pow_le_pow_right (by omega) (by omega)
        _ ≤ 2 ^ 80 / m₂ := (Nat.le_div_iff_mul_le (by omega)).mpr (by omega)
        _ ≤ m₁ * 2 ^ 80 / m₂ := Nat.div_le_div_right (by omega)
        _ = n := hn

/-! ### Roots -/

omit hf hs in
theorem sqrt_negative {x : Num} (h : x.isNeg = true) (hz : ¬ x.Zero) : f.sqrt mode ftz x = (f.qnan, flagNV) := by
  cases x with
  | nan g => simp [Num.isNeg] at h
  | inf s => subst h; rfl
  | fin s m e =>
    obtain ⟨k, rfl⟩ := Nat.exists_eq_succ_of_ne_zero (by simpa using hz : m ≠ 0)
    subst h; rfl

/-- The significand of an even exponent. -/
def evenSig (m : Nat) (e : Int) : Nat := if e % 2 = 0 then m else 2 * m

omit hf hs in
theorem sqrt_fin {m : Nat} (hm : m ≠ 0) (e : Int) : f.sqrt mode ftz (.fin false m e) =
    let r := isqrt (evenSig m e * 2 ^ 80) 64 0
    f.round mode ftz false r (e / 2 - 40) (decide (¬ (r * r = evenSig m e * 2 ^ 80))) := by
  obtain ⟨k, rfl⟩ := Nat.exists_eq_succ_of_ne_zero hm
  by_cases h : e % 2 = 0
  · simp [Fmt.sqrt, evenSig, h]
  · have he : (e - 1) / 2 = e / 2 := by omega
    simp [Fmt.sqrt, evenSig, h, he]

omit hf hs in
/-- An integer root is the only one. -/
theorem isqrt_eq {n r k : Nat} (hk : n < 2 ^ k * 2 ^ k) (hl : r * r ≤ n) (hu : n < (r + 1) * (r + 1)) : isqrt n k 0 = r := by
  obtain ⟨h1, h2⟩ := isqrt_spec n k 0 (by simp) (by simpa using hk)
  have ha : isqrt n k 0 < r + 1 := Nat.mul_self_lt_mul_self_iff.mp (h1.trans_lt hu)
  have hb : r < isqrt n k 0 + 1 := Nat.mul_self_lt_mul_self_iff.mp (hl.trans_lt h2)
  omega

theorem sqrt_root {x : Num} (hx : x.Short) : f.Root mode ftz x (f.sqrt mode ftz x).1 (f.sqrt mode ftz x).2 := by
  refine ⟨fun h => ?_, ?_, fun h hz => Prod.mk.inj (sqrt_negative ftz h hz), ?_, ?_⟩
  · cases x with
    | nan g => exact ⟨rfl, rfl⟩
    | inf s => simp at h
    | fin s m e => simp at h
  · rintro rfl
    exact ⟨rfl, rfl⟩
  · rintro s e rfl
    exact ⟨rfl, rfl⟩
  · rintro m e rfl hm m₀ n hl hu
    have hm24 : m < 2 ^ 24 := hx false m e rfl
    have hlo : m ≤ m₀ := by simp only [m₀]; split <;> omega
    have hhi : m₀ ≤ 2 * m := by simp only [m₀]; split <;> omega
    have hr : isqrt (evenSig m e * 2 ^ 80) 64 0 = n := isqrt_eq (by change m₀ * 2 ^ 80 < _; omega) hl hu
    rw [sqrt_fin ftz hm, hr]
    refine round_near f mode ftz false n _ _ ?_ hs
    have h40 : 2 ^ 40 < n + 1 := Nat.mul_self_lt_mul_self_iff.mp (lt_of_le_of_lt (by omega) hu)
    calc 2 ^ (f.mb + 1) ≤ 2 ^ 24 := Nat.pow_le_pow_right (by omega) (by omega)
      _ ≤ n := by omega

end

/-! ### Values of a format -/

/-- What a format reads has a significand of mb + 1 bits and an exponent bounded by the width of its field. -/
theorem read_fin {f : Fmt} {ftz : Bool} {c : Nat} {s : Bool} {m : Nat} {e : Int} (h : f.read ftz c = .fin s m e) :
    m < 2 ^ (f.mb + 1) ∧ e ≤ 2 ^ f.eb - f.bias - f.mb := by
  have hp : 2 ^ (f.mb + 1) = 2 * 2 ^ f.mb := by rw [Nat.pow_succ, Nat.mul_comm]
  have hm : c % 2 ^ f.mb < 2 ^ f.mb := Nat.mod_lt _ (Nat.two_pow_pos _)
  have he : c / 2 ^ f.mb % 2 ^ f.eb < 2 ^ f.eb := Nat.mod_lt _ (Nat.two_pow_pos _)
  have he' : ((c / 2 ^ f.mb % 2 ^ f.eb : Nat) : Int) < ((2 ^ f.eb : Nat) : Int) := by exact_mod_cast he
  have he2 : ((2 ^ f.eb : Nat) : Int) = 2 ^ f.eb := by push_cast; rfl
  simp only [Fmt.read] at h
  split at h
  · split at h <;> cases h
  · split at h
    · cases h
      have h1 : 1 ≤ 2 ^ f.eb := Nat.one_le_two_pow
      exact ⟨by split <;> omega, by omega⟩
    · cases h
      exact ⟨by omega, by omega⟩

theorem read_short {f : Fmt} (hf : f.mb ≤ 23) (ftz : Bool) (c : Nat) : (f.read ftz c).Short := fun s m e h =>
  calc m < 2 ^ (f.mb + 1) := (read_fin h).1
    _ ≤ 2 ^ 24 := Nat.pow_le_pow_right (by omega) (by omega)

theorem rmOf_ne_sr (c w : Nat) : rmOf c ≠ .sr w := by
  unfold rmOf
  split_ifs <;> exact nofun

/-- The arithmetic of a format on values that it reads (R27, R280, R281, R284). -/
theorem arithmetic_rounds {f : Fmt} (hf : f.mb ≤ 23) (rm : Nat) (z : Bool) (p q r : Nat) :
    let m := rmOf rm
    let x := f.read z p
    let y := f.read z q
    let w := f.read z r
    f.Fused m z x y w (f.fma m z x y w).1 (f.fma m z x y w).2 ∧ f.Fused m z x y w.neg (f.fma m z x y w.neg).1 (f.fma m z x y w.neg).2 ∧
      f.Fused m z x.neg y w (f.fma m z x.neg y w).1 (f.fma m z x.neg y w).2 ∧
    f.Fused m z x (.fin false 1 0) y (f.add m z x y).1 (f.add m z x y).2 ∧ f.Fused m z x (.fin false 1 0) y.neg (f.add m z x y.neg).1 (f.add m z x y.neg).2 ∧
    f.Product m z x y (f.mul m z x y).1 (f.mul m z x y).2 ∧ f.Quotient m z x y (f.div m z x y).1 (f.div m z x y).2 ∧
    f.Quotient m z (.fin false 1 0) x (f.div m z (.fin false 1 0) x).1 (f.div m z (.fin false 1 0) x).2 ∧ f.Root m z x (f.sqrt m z x).1 (f.sqrt m z x).2 := by
  intro m x y w
  have hs := rmOf_ne_sr rm
  have hx : x.Short := read_short hf z p
  have hy : y.Short := read_short hf z q
  exact ⟨fma_fused .., fma_fused .., fma_fused .., fma_fused .., fma_fused .., mul_product .., div_quotient z hf hs x hy, div_quotient z hf hs _ hx, sqrt_root z hf hs hx⟩

end Sys2Proof.Machine

namespace Sys2Proof.Machine
open Sys2Proof

/-! ## The size of a rounded value -/

/-- A carry adds no more than one. -/
theorem carry_le (up : Bool) : (if up then 1 else 0) ≤ 1 := by cases up <;> decide

/-- Rounding at or above the last place of mb + 1 bits leaves no more than mb + 1 bits, but for a carry out. -/
theorem roundAt_le (mode : RMode) (neg : Bool) {m mb : Nat} {e q : Int} (h : e + Nat.log2 m - mb ≤ q) :
    (roundAt mode neg m e false q).1 ≤ 2 ^ (mb + 1) := by
  have hm : m < 2 ^ (Nat.log2 m + 1) := Nat.lt_log2_self
  unfold roundAt
  split
  · rename_i hq
    have : m * 2 ^ (e - q).toNat < 2 ^ (Nat.log2 m + 1) * 2 ^ (e - q).toNat := Nat.mul_lt_mul_of_pos_right hm (Nat.two_pow_pos _)
    have hp : 2 ^ (Nat.log2 m + 1) * 2 ^ (e - q).toNat ≤ 2 ^ (mb + 1) := by
      rw [← Nat.pow_add]
      exact Nat.pow_le_pow_right (by omega) (by omega)
    simp; omega
  · have hd : m / 2 ^ (q - e).toNat < 2 ^ (mb + 1) := by
      rw [Nat.div_lt_iff_lt_mul (Nat.two_pow_pos _), ← Nat.pow_add]
      exact hm.trans_le (Nat.pow_le_pow_right (by omega) (by omega))
    exact (Nat.add_le_add_left (carry_le _) _).trans hd

/-- Rounding at or below the last place of mb + 1 bits keeps the leading bit. -/
theorem roundAt_ge (mode : RMode) (neg : Bool) {m mb : Nat} {e q : Int} (hm : m ≠ 0) (h : q ≤ e + Nat.log2 m - mb) :
    2 ^ mb ≤ (roundAt mode neg m e false q).1 := by
  have hm : 2 ^ Nat.log2 m ≤ m := Nat.log2_self_le hm
  unfold roundAt
  split
  · calc 2 ^ mb ≤ 2 ^ (Nat.log2 m + (e - q).toNat) := Nat.pow_le_pow_right (by omega) (by omega)
      _ = 2 ^ Nat.log2 m * 2 ^ (e - q).toNat := Nat.pow_add ..
      _ ≤ m * 2 ^ (e - q).toNat := Nat.mul_le_mul_right _ hm
      _ ≤ _ := Nat.le_add_right ..
  · refine le_trans ?_ (Nat.le_add_right ..)
    rw [Nat.le_div_iff_mul_le (Nat.two_pow_pos _), ← Nat.pow_add]
    exact (Nat.pow_le_pow_right (by omega) (by omega)).trans hm

section
variable (f : Fmt)

theorem Fmt.two_pow_eb {f : Fmt} (hf : 1 ≤ f.eb) : 2 ^ f.eb = 2 * f.bias + 2 := by
  obtain ⟨k, hk⟩ := Nat.exists_eq_add_of_le' hf
  have := Nat.one_le_two_pow (n := k)
  rw [Fmt.bias, hk, Nat.add_sub_cancel, Nat.pow_succ]
  omega

theorem Fmt.signBit_eq : f.signBit = 2 ^ f.eb * 2 ^ f.mb := Nat.pow_add ..

/-- The codes below the sign bit, with either sign, fit the width. -/
theorem Fmt.code_lt {f : Fmt} {k : Nat} (neg : Bool) (h : k < 2 ^ f.eb * 2 ^ f.mb) : k + f.zero neg < 2 ^ (f.eb + f.mb + 1) := by
  have hp : 2 ^ (f.eb + f.mb + 1) = 2 * (2 ^ f.eb * 2 ^ f.mb) := by rw [Nat.pow_succ, Nat.pow_add, Nat.mul_comm]
  have hz : f.zero neg ≤ 2 ^ f.eb * 2 ^ f.mb := by
    unfold Fmt.zero
    split
    · exact (Fmt.signBit_eq f).le
    · omega
  omega

variable {f}

theorem Fmt.inf_lt (neg : Bool) : f.inf neg < 2 ^ (f.eb + f.mb + 1) :=
  Fmt.code_lt neg (Nat.mul_lt_mul_of_pos_right (Nat.sub_lt (Nat.two_pow_pos _) one_pos) (Nat.two_pow_pos _))

theorem Fmt.maxFin_lt (neg : Bool) : f.maxFin neg < 2 ^ (f.eb + f.mb + 1) :=
  (Nat.add_le_add_right (Nat.sub_le ..) _).trans_lt (Fmt.inf_lt neg)

theorem Fmt.qnan_lt (hf : 1 ≤ f.mb) : f.qnan < 2 ^ (f.eb + f.mb + 1) := by
  have hm : 2 ^ (f.mb - 1) < 2 ^ f.mb := Nat.pow_lt_pow_right (by omega) (by omega)
  refine Fmt.code_lt (k := f.qnan) false ?_
  have : (2 ^ f.eb - 1) * 2 ^ f.mb + 2 ^ f.mb = 2 ^ f.eb * 2 ^ f.mb := by
    rw [← Nat.succ_mul, Nat.succ_eq_add_one, Nat.sub_add_cancel Nat.one_le_two_pow]
  unfold Fmt.qnan
  omega

/-- The code of a normal number: its biased exponent is below the one of infinities. -/
theorem Fmt.normal_lt {n : Nat} {q : Int} (hf : 1 ≤ f.eb) (neg : Bool) (hn : n < 2 ^ (f.mb + 1)) (hq : q + f.mb ≤ f.bias) :
    (q + f.mb + f.bias).toNat * 2 ^ f.mb + (n - 2 ^ f.mb) + f.zero neg < 2 ^ (f.eb + f.mb + 1) := by
  have hx : (q + f.mb + f.bias).toNat + 1 ≤ 2 ^ f.eb := by have := Fmt.two_pow_eb hf; omega
  have hp : 2 ^ (f.mb + 1) = 2 * 2 ^ f.mb := by rw [Nat.pow_succ, Nat.mul_comm]
  have := Nat.mul_le_mul_right (2 ^ f.mb) hx
  have h0 := Nat.two_pow_pos f.mb
  refine Fmt.code_lt neg ?_
  rw [Nat.add_mul] at this
  omega

theorem Fmt.round_lt (hf : 1 ≤ f.eb) (mode : RMode) (ftz neg : Bool) (m : Nat) (e : Int) : (f.round mode ftz neg m e false).1 < 2 ^ (f.eb + f.mb + 1) := by
  have hz : f.zero neg < 2 ^ (f.eb + f.mb + 1) := by simpa using Fmt.code_lt (f := f) (k := 0) neg (by positivity)
  have hp : 2 ^ (f.mb + 1) = 2 * 2 ^ f.mb := by rw [Nat.pow_succ, Nat.mul_comm]
  have hle : 2 ^ f.mb ≤ 2 ^ f.eb * 2 ^ f.mb := Nat.le_mul_of_pos_left _ (Nat.two_pow_pos _)
  have hr := roundAt_le mode neg (m := m) (mb := f.mb) (e := e) (q := max (e + Nat.log2 m - f.mb) (1 - (f.bias : Int) - f.mb)) (le_max_left ..)
  unfold Fmt.round
  split
  · exact hz
  simp only
  generalize roundAt mode neg m e false _ = R at hr ⊢
  generalize max (e + (Nat.log2 m : Int) - f.mb) (1 - (f.bias : Int) - f.mb) = q
  obtain ⟨n, b⟩ := R
  simp only at hr ⊢
  -- after a carry out the value is the smallest of the next exponent
  have hn : (if n = 2 ^ (f.mb + 1) then (2 ^ f.mb, q + 1) else (n, q)).1 < 2 ^ (f.mb + 1) := by
    have := Nat.two_pow_pos f.mb
    split <;> simp only <;> omega
  generalize (if n = 2 ^ (f.mb + 1) then (2 ^ f.mb, q + 1) else (n, q)) = p at hn ⊢
  obtain ⟨n', q'⟩ := p
  simp only at hn ⊢
  split
  · simp only
    split
    · exact Fmt.inf_lt neg
    · exact Fmt.maxFin_lt neg
  · rename_i hbig
    split
    · rename_i hn'
      exact Fmt.normal_lt hf neg hn (by omega)
    · rename_i hn'
      split
      · exact hz
      · exact Fmt.code_lt neg (by omega)

end
end Sys2Proof.Machine

namespace Sys2Proof.Machine
open Sys2Proof

/-! ## Conversions between formats (R34) -/

/-- A value rounded into a format, as CVT gives it. -/
def Fmt.ofNum (f : Fmt) (mode : RMode) (ftz : Bool) : Num → Nat × Flags
  | .nan g => (f.qnan, snan (.nan g))
  | .inf n => (f.inf n, 0)
  | .fin n m e => f.round mode ftz n m e false

theorem Fmt.ofNum_converts (f : Fmt) (mode : RMode) (ftz : Bool) (x : Num) : f.Converts mode ftz x (f.ofNum mode ftz x).1 (f.ofNum mode ftz x).2 := by
  cases x with
  | nan g => exact ⟨rfl, snan_nan g⟩
  | inf s => exact ⟨rfl, rfl⟩
  | fin s m e => exact round_converts ..

theorem Fmt.ofNum_lt {f : Fmt} (he : 1 ≤ f.eb) (hm : 1 ≤ f.mb) (mode : RMode) (ftz : Bool) (x : Num) : (f.ofNum mode ftz x).1 < 2 ^ (f.eb + f.mb + 1) := by
  cases x with
  | nan g => exact Fmt.qnan_lt hm
  | inf s => exact Fmt.inf_lt s
  | fin s m e => exact Fmt.round_lt he ..

/-- The register value of a code. -/
def codeWord (r : Nat × Flags) : Word × Flags := (BitVec.ofNat 32 r.1, r.2)

theorem codeWord_toNat {r : Nat × Flags} {n : Nat} (hn : n ≤ 32) (h : r.1 < 2 ^ n) : (codeWord r).1.toNat = r.1 :=
  Nat.mod_eq_of_lt (h.trans_le (Nat.pow_le_pow_right (by omega) hn))

theorem codeWord_converts {f : Fmt} (he : 1 ≤ f.eb) (hm : 1 ≤ f.mb) (hw : f.eb + f.mb + 1 ≤ 32) (mode : RMode) (ftz : Bool) (x : Num) :
    let w := codeWord (f.ofNum mode ftz x)
    w.1.toNat < 2 ^ (f.eb + f.mb + 1) ∧ f.Converts mode ftz x w.1.toNat w.2 := by
  intro w
  have hlt := Fmt.ofNum_lt he hm mode ftz x
  have hc := Fmt.ofNum_converts f mode ftz x
  have hw : w.1.toNat = (f.ofNum mode ftz x).1 := codeWord_toNat hw hlt
  rw [hw]
  exact ⟨hlt, hc⟩

section
variable (s : State) (x : Word)

theorem cvt_toBf16 : s.cvt 0 0 1 x = codeWord (bf16.ofNum s.rm s.ftz (fp32.read s.ftz x.toNat)) := rfl
theorem cvt_toFp16 : s.cvt 0 0 2 x = codeWord (fp16.ofNum s.rm s.ftz (fp32.read s.ftz x.toNat)) := rfl
theorem cvt_ofBf16 : s.cvt 0 1 0 x = codeWord (fp32.ofNum s.rm s.ftz (bf16.read s.ftz (x.toNat % 2 ^ 16))) := rfl
theorem cvt_ofFp16 : s.cvt 0 2 0 x = codeWord (fp32.ofNum s.rm s.ftz (fp16.read s.ftz (x.toNat % 2 ^ 16))) := rfl
theorem cvt_ofInt : s.cvt 0 3 0 x = codeWord (fp32.ofNum s.rm false (.fin (decide (x.toInt < 0)) x.toInt.natAbs 0)) := rfl
theorem cvt_ofNat : s.cvt 0 4 0 x = codeWord (fp32.ofNum s.rm false (.fin false x.toNat 0)) := by
  have h : decide ((x.toNat : Int) < 0) = false := decide_eq_false (by omega)
  show codeWord (fp32.round s.rm false (decide ((x.toNat : Int) < 0)) x.toNat 0 false) = _
  rw [h]
  rfl

/-- The register value of an integer. -/
def intWord (r : Int × Flags) : Word × Flags := (BitVec.ofInt 32 r.1, r.2)

theorem cvt_toInt (m : Nat) : s.cvt m 0 3 x = intWord (toIntSat (rmOf m) (-2 ^ 31) (2 ^ 31 - 1) (fp32.read s.ftz x.toNat)) := rfl
theorem cvt_toNat (m : Nat) : s.cvt m 0 4 x = intWord (toIntSat (rmOf m) 0 (2 ^ 32 - 1) (fp32.read s.ftz x.toNat)) := rfl
theorem cvt_toInt8 (m : Nat) : s.cvt m 0 5 x = intWord (toIntSat (rmOf m) (-128) 127 (fp32.read s.ftz x.toNat)) := rfl
theorem cvt_toNat8 (m : Nat) : s.cvt m 0 6 x = intWord (toIntSat (rmOf m) 0 255 (fp32.read s.ftz x.toNat)) := rfl

end

/-! ## Conversions to integers (R34) -/

section
variable (mode : RMode) {lo hi : Int}

/-- The saturated integer of a rounded magnitude n, with its conditions. -/
def saturated (lo hi v : Int) (inexact : Bool) : Int × Flags :=
  if v < lo then (lo, flagNV) else if hi < v then (hi, flagNV) else (v, if inexact then flagNX else 0)

theorem saturated_range (h : lo ≤ hi) (v : Int) (b : Bool) : lo ≤ (saturated lo hi v b).1 ∧ (saturated lo hi v b).1 ≤ hi := by
  unfold saturated
  split_ifs <;> constructor <;> simp only <;> omega

theorem saturated_low {v : Int} (h : v < lo) (b : Bool) : saturated lo hi v b = (lo, flagNV) := if_pos h
theorem saturated_high (hb : lo ≤ hi) {v : Int} (h : hi < v) (b : Bool) : saturated lo hi v b = (hi, flagNV) := by
  rw [saturated, if_neg (by omega), if_pos h]
theorem saturated_within {v : Int} (h : lo ≤ v) (h' : v ≤ hi) (b : Bool) : saturated lo hi v b = (v, if b then flagNX else 0) := by
  rw [saturated, if_neg (by omega), if_neg (by omega)]

theorem toIntSat_fin (neg : Bool) {m n : Nat} {e : Int} (he : e ≤ 200) (hn : Rounds mode neg m e 0 n) :
    ∃ b : Bool, (b = true ↔ Inexact m e 0) ∧ toIntSat mode lo hi (.fin neg m e) = saturated lo hi (if neg then -(n : Int) else n) b := by
  rcases le_or_gt 0 e with h0 | h0
  · refine ⟨false, by simp [Inexact, h0], ?_⟩
    have hn' : n = m * 2 ^ e.toNat := by simpa [Rounds, h0] using hn
    simp [toIntSat, saturated, h0, he, hn', not_lt.mpr h0]
  · rw [rounds_iff] at hn
    refine ⟨(roundAt mode neg m e false 0).2, (inexact_iff ..).symm, ?_⟩
    simp [toIntSat, saturated, h0, max_eq_right h0.le, not_le.mpr h0, hn]

theorem toIntSat_converts (hb : lo ≤ hi) {x : Num} (hx : ∀ s m e, x = .fin s m e → e ≤ 200) :
    IntConverts mode lo hi x (toIntSat mode lo hi x).1 (toIntSat mode lo hi x).2 := by
  cases x with
  | nan g => exact ⟨rfl, rfl⟩
  | inf s => exact ⟨rfl, rfl⟩
  | fin s m e =>
    intro n hn v
    obtain ⟨b, hi', h⟩ := toIntSat_fin mode (lo := lo) (hi := hi) s (hx s m e rfl) hn
    rw [h, ← hi']
    change (v < lo → (saturated lo hi v b).1 = lo ∧ (saturated lo hi v b).2 = _) ∧ (hi < v → (saturated lo hi v b).1 = hi ∧ (saturated lo hi v b).2 = _) ∧
      (lo ≤ v → v ≤ hi → (saturated lo hi v b).1 = v ∧ (_ → (saturated lo hi v b).2 = _) ∧ (_ → (saturated lo hi v b).2 = _))
    refine ⟨fun hv => ?_, fun hv => ?_, fun hv hv' => ?_⟩
    · exact Prod.mk.inj (saturated_low hv b)
    · exact Prod.mk.inj (saturated_high hb hv b)
    · rw [saturated_within hv hv']
      exact ⟨rfl, fun k => if_pos k, fun k => if_neg k⟩

theorem toIntSat_range (h0 : lo ≤ 0) (h1 : 0 ≤ hi) {x : Num} (hx : ∀ s m e, x = .fin s m e → e ≤ 200) :
    lo ≤ (toIntSat mode lo hi x).1 ∧ (toIntSat mode lo hi x).1 ≤ hi := by
  cases x with
  | nan g => exact ⟨h0, h1⟩
  | inf s => cases s <;> simp [toIntSat] <;> omega
  | fin s m e =>
    obtain ⟨b, -, h⟩ := toIntSat_fin mode (lo := lo) (hi := hi) s (hx s m e rfl) ((rounds_iff ..).mpr rfl)
    rw [h]
    exact saturated_range (h0.trans h1) ..

end

theorem read_fp32_exponent {ftz : Bool} {c : Nat} (s : Bool) (m : Nat) (e : Int) (h : fp32.read ftz c = .fin s m e) : e ≤ 200 :=
  (read_fin h).2.trans (by decide)

/-- A signed register value of CVT. -/
theorem intWord_converts {lo hi : Int} (h0 : lo ≤ 0) (h1 : 0 ≤ hi) (hl : -2 ^ 31 ≤ lo) (hh : hi < 2 ^ 31) (mode : RMode) (ftz : Bool) (c : Nat) :
    let w := intWord (toIntSat mode lo hi (fp32.read ftz c))
    IntConverts mode lo hi (fp32.read ftz c) w.1.toInt w.2 := by
  intro w
  obtain ⟨hl', hh'⟩ := toIntSat_range mode h0 h1 (x := fp32.read ftz c) read_fp32_exponent
  have hw : w.1.toInt = (toIntSat mode lo hi (fp32.read ftz c)).1 := by
    rw [show w.1 = BitVec.ofInt 32 _ from rfl, BitVec.toInt_ofInt]
    exact Int.bmod_eq_of_le (by omega) (by omega)
  rw [hw]
  exact toIntSat_converts mode (h0.trans h1) read_fp32_exponent

/-- A natural register value of CVT. -/
theorem natWord_converts {hi : Int} (h1 : 0 ≤ hi) (hh : hi < 2 ^ 32) (mode : RMode) (ftz : Bool) (c : Nat) :
    let w := intWord (toIntSat mode 0 hi (fp32.read ftz c))
    IntConverts mode 0 hi (fp32.read ftz c) w.1.toNat w.2 := by
  intro w
  obtain ⟨hl', hh'⟩ := toIntSat_range mode le_rfl h1 (x := fp32.read ftz c) read_fp32_exponent
  have hw : (w.1.toNat : Int) = (toIntSat mode 0 hi (fp32.read ftz c)).1 := by
    rw [show w.1 = BitVec.ofInt 32 _ from rfl, BitVec.toNat_ofInt]
    omega
  rw [hw]
  exact toIntSat_converts mode h1 read_fp32_exponent

/-! ### The rows of CVT (R247, R286) -/

section
variable (s : State) (x : Word)

theorem cvt_toBf16_converts : (s.cvt 0 0 1 x).1.toNat < 2 ^ 16 ∧ bf16.Converts s.rm s.ftz (fp32.read s.ftz x.toNat) (s.cvt 0 0 1 x).1.toNat (s.cvt 0 0 1 x).2 := by
  rw [cvt_toBf16]
  exact codeWord_converts (f := bf16) (by decide) (by decide) (by decide) ..
theorem cvt_toFp16_converts : (s.cvt 0 0 2 x).1.toNat < 2 ^ 16 ∧ fp16.Converts s.rm s.ftz (fp32.read s.ftz x.toNat) (s.cvt 0 0 2 x).1.toNat (s.cvt 0 0 2 x).2 := by
  rw [cvt_toFp16]
  exact codeWord_converts (f := fp16) (by decide) (by decide) (by decide) ..
theorem cvt_ofBf16_converts : fp32.Converts s.rm s.ftz (bf16.read s.ftz (x.toNat % 2 ^ 16)) (s.cvt 0 1 0 x).1.toNat (s.cvt 0 1 0 x).2 := by
  rw [cvt_ofBf16]
  exact (codeWord_converts (f := fp32) (by decide) (by decide) (by decide) ..).2
theorem cvt_ofFp16_converts : fp32.Converts s.rm s.ftz (fp16.read s.ftz (x.toNat % 2 ^ 16)) (s.cvt 0 2 0 x).1.toNat (s.cvt 0 2 0 x).2 := by
  rw [cvt_ofFp16]
  exact (codeWord_converts (f := fp32) (by decide) (by decide) (by decide) ..).2
theorem cvt_ofInt_converts : fp32.Converts s.rm false (.fin (decide (x.toInt < 0)) x.toInt.natAbs 0) (s.cvt 0 3 0 x).1.toNat (s.cvt 0 3 0 x).2 := by
  rw [cvt_ofInt]
  exact (codeWord_converts (f := fp32) (by decide) (by decide) (by decide) ..).2
theorem cvt_ofNat_converts : fp32.Converts s.rm false (.fin false x.toNat 0) (s.cvt 0 4 0 x).1.toNat (s.cvt 0 4 0 x).2 := by
  rw [cvt_ofNat]
  exact (codeWord_converts (f := fp32) (by decide) (by decide) (by decide) ..).2
theorem cvt_toInt_converts (m : Nat) : IntConverts (rmOf m) (-2 ^ 31) (2 ^ 31 - 1) (fp32.read s.ftz x.toNat) (s.cvt m 0 3 x).1.toInt (s.cvt m 0 3 x).2 := by
  rw [cvt_toInt]
  exact intWord_converts (by decide) (by decide) (by decide) (by decide) ..
theorem cvt_toNat_converts (m : Nat) : IntConverts (rmOf m) 0 (2 ^ 32 - 1) (fp32.read s.ftz x.toNat) (s.cvt m 0 4 x).1.toNat (s.cvt m 0 4 x).2 := by
  rw [cvt_toNat]
  exact natWord_converts (by decide) (by decide) ..
theorem cvt_toInt8_converts (m : Nat) : IntConverts (rmOf m) (-128) 127 (fp32.read s.ftz x.toNat) (s.cvt m 0 5 x).1.toInt (s.cvt m 0 5 x).2 := by
  rw [cvt_toInt8]
  exact intWord_converts (by decide) (by decide) (by decide) (by decide) ..
theorem cvt_toNat8_converts (m : Nat) : IntConverts (rmOf m) 0 255 (fp32.read s.ftz x.toNat) (s.cvt m 0 6 x).1.toNat (s.cvt m 0 6 x).2 := by
  rw [cvt_toNat8]
  exact natWord_converts (by decide) (by decide) ..
end

end Sys2Proof.Machine

namespace Sys2Proof.Machine
open Sys2Proof

/-! ## Binary8 formats (R29 to R33) -/

section
variable (b : B8) (mode : RMode) (fin sat : Bool)

/-- Step 5 of R33: what a value beyond the largest finite one becomes. -/
def B8.over (neg infinite : Bool) : Nat × Flags :=
  let fl : Flags := if infinite then 0 else flagOF ||| flagNX
  if sat then (b.sign neg (b.maxFin fin), fl)
  else if fin then (b.nan, fl ||| flagNV)
  else (b.sign neg (if infinite || mode.toInf neg then b.top else b.top - 1), fl)

/-- The code of the magnitude n × 2^q, where q is at or above the last place of the subnormals. -/
def B8.code (q : Int) (n : Nat) : Nat :=
  if n < 2 ^ (b.p - 1) then n else (q + (b.p - 1 : Nat) + b.bias).toNat * 2 ^ (b.p - 1) + (n - 2 ^ (b.p - 1))

variable {b} in
/-- A carry out of the significand leaves the code as it is. -/
theorem B8.code_carry {q : Int} (h : 1 - (b.bias : Int) - (b.p - 1 : Nat) ≤ q) : b.code (q + 1) (2 ^ (b.p - 1)) = b.code q (2 ^ (b.p - 1 + 1)) := by
  have hp : 2 ^ (b.p - 1 + 1) = 2 * 2 ^ (b.p - 1) := by rw [Nat.pow_succ, Nat.mul_comm]
  have hx : (q + 1 + (b.p - 1 : Nat) + b.bias).toNat = (q + (b.p - 1 : Nat) + b.bias).toNat + 1 := by omega
  have h0 := Nat.two_pow_pos (b.p - 1)
  rw [B8.code, B8.code, if_neg (lt_irrefl _), if_neg (by omega), hx, Nat.add_mul]
  omega

/-- The exponent of the last place of a value with leading exponent top. -/
def B8.last (top : Int) : Int := max (top - (b.p - 1 : Nat)) (1 - (b.bias : Int) - (b.p - 1 : Nat))

variable {b} in
/-- A result of fewer bits than a significand is below the smallest normal number. -/
theorem B8.subnormal {neg : Bool} {m : Nat} (hm : m ≠ 0) {e : Int} (h : (roundAt mode neg m e false (b.last (e + Nat.log2 m))).1 < 2 ^ (b.p - 1)) :
    e + Nat.log2 m < 1 - (b.bias : Int) := by
  by_contra hn
  have : 2 ^ (b.p - 1) ≤ (roundAt mode neg m e false (b.last (e + Nat.log2 m))).1 := roundAt_ge mode neg hm (max_le le_rfl (by omega))
  omega

variable {b} in
/-- The model's renormalization after a carry: the same magnitude, so the same code. -/
theorem B8.renormalized {q : Int} (h : 1 - (b.bias : Int) - (b.p - 1 : Nat) ≤ q) (n : Nat) :
    let p := if n = 2 ^ (b.p - 1 + 1) then (2 ^ (b.p - 1), q + 1) else (n, q)
    (p.1 = 0 ↔ n = 0) ∧ (p.1 < 2 ^ (b.p - 1) ↔ n < 2 ^ (b.p - 1)) ∧ b.code p.2 p.1 = b.code q n := by
  have h0 := Nat.two_pow_pos (b.p - 1)
  have hp : 2 ^ (b.p - 1 + 1) = 2 * 2 ^ (b.p - 1) := by rw [Nat.pow_succ, Nat.mul_comm]
  intro p
  by_cases hn : n = 2 ^ (b.p - 1 + 1)
  · rw [show p = _ from if_pos hn, hn]
    exact ⟨by simp only; omega, by simp only; omega, B8.code_carry h⟩
  · rw [show p = _ from if_neg hn]
    exact ⟨Iff.rfl, Iff.rfl, rfl⟩

/-- The rounding of a finite value other than zero, in the terms of the claims and without the renormalization. -/
theorem B8.round_fin (neg : Bool) {m n : Nat} (hm : m ≠ 0) {e : Int} (hn : Rounds mode neg m e (b.last (e + Nat.log2 m)) n) :
    ∃ inexact tiny : Bool, (inexact = true ↔ Inexact m e (b.last (e + Nat.log2 m))) ∧
      (tiny = true ↔ n < 2 ^ (b.p - 1) ∨ Tiny mode neg m e (e + Nat.log2 m) (1 - (b.bias : Int)) (b.p - 1)) ∧
      b.round mode fin sat (.fin neg m e) =
        if n = 0 then (0, flagUF ||| flagNX)
        else if neg ∧ ¬ b.signed then (if sat then (0, flagNX) else (b.nan, flagNV))
        else if b.maxFin fin < b.code (b.last (e + Nat.log2 m)) n then b.over mode fin sat neg false
        else (b.sign neg (b.code (b.last (e + Nat.log2 m)) n), if inexact then flagNX ||| (if tiny then flagUF else 0) else 0) := by
  rw [rounds_iff] at hn
  obtain ⟨hz, hs, hcode⟩ := B8.renormalized (b := b) (q := b.last (e + Nat.log2 m)) (le_max_right ..) n
  refine ⟨_, decide (e + Nat.log2 m < 1 - (b.bias : Int) ∧ (n < 2 ^ (b.p - 1) ∨
    ¬ ((roundAt mode neg m e false (e + Nat.log2 m - (b.p - 1 : Nat))).1 = 2 ^ (b.p - 1 + 1) ∧ e + Nat.log2 m + 1 ≥ 1 - (b.bias : Int)))),
    (inexact_iff mode neg ..).symm, ?_, ?_⟩
  · rw [decide_eq_true_iff, tiny_iff, and_or_left]
    exact or_congr_left (and_iff_right_of_imp fun h => B8.subnormal mode hm (hn ▸ h))
  · simp only [decide_eq_true_eq, ← hz, ← hs, ← hcode]
    subst hn
    exact if_neg hm

/-- Step 5 of R33 as the claims put it. -/
def B8.Overflows (neg infinite : Bool) (c : Nat) (fl : Flags) : Prop :=
  let raised : Flags := if infinite then 0 else flagOF ||| flagNX
  (sat = true → c = b.sign neg (b.maxFin fin) ∧ fl = raised) ∧
  (sat = false → fin = true → c = b.nan ∧ fl = raised ||| flagNV) ∧
  (sat = false → fin = false → fl = raised ∧ ((infinite = true ∨ OverflowsToInf mode neg) → c = b.sign neg (b.maxFin fin + 1)) ∧
    (infinite = false → ¬ OverflowsToInf mode neg → c = b.sign neg (b.maxFin fin)))

theorem B8.over_overflows (neg infinite : Bool) :
    b.Overflows mode fin sat neg infinite (b.over mode fin sat neg infinite).1 (b.over mode fin sat neg infinite).2 := by
  have htop : b.top - 1 + 1 = b.top := by unfold B8.top; split <;> rfl
  refine ⟨?_, ?_, ?_⟩
  · rintro rfl
    exact ⟨rfl, rfl⟩
  · rintro rfl rfl
    exact ⟨rfl, rfl⟩
  · rintro rfl rfl
    refine ⟨rfl, fun h => ?_, fun hi h => ?_⟩
    · have hc : (infinite || mode.toInf neg) = true := by simpa [toInf_iff] using h
      simp [B8.over, B8.maxFin, hc, htop]
    · have hc : (infinite || mode.toInf neg) = false := by simpa [toInf_iff, hi] using h
      simp [B8.over, B8.maxFin, hc]

/-- The largest finite code. -/
theorem B8.maxFin_eq : b.maxFin fin = (if b.signed then 0x7F else 0xFE) - if fin then 0 else 1 := by cases fin <;> rfl

/-- The bias, as a claim computes with it. -/
theorem B8.bias_eq : (b.bias : Int) = if b.signed then 2 ^ (7 - b.p) else 2 ^ (8 - b.p) := by
  unfold B8.bias
  split <;> simp

theorem B8.round_inf (neg : Bool) (h : neg = false ∨ b.signed = true) : b.round mode fin sat (.inf neg) = b.over mode fin sat neg true :=
  if_neg (by rcases h with h | h <;> simp [h])

/-- An unsigned format has no negative infinity. -/
theorem B8.round_infBelow {neg : Bool} (h : neg = true ∧ b.signed = false) :
    b.round mode fin sat (.inf neg) = if sat then (0, 0) else (b.nan, flagNV) :=
  if_pos (by simp [h])

/-- The model's rounding into a binary8 format is that of R33, step by step. -/
theorem B8.round_converts (x : Num) : b.Converts mode fin sat x (b.round mode fin sat x).1 (b.round mode fin sat x).2 := by
  unfold B8.Converts
  rw [← B8.maxFin_eq, ← B8.bias_eq]
  cases x with
  | nan g => exact ⟨rfl, snan_nan g⟩
  | inf neg =>
    refine ⟨fun hn hu => ?_, fun h => ?_⟩
    · rw [b.round_infBelow mode fin sat ⟨hn, hu⟩]
      exact ⟨fun hs => by simp [hs], fun hs => by simp [hs, B8.nan]⟩
    · rw [b.round_inf mode fin sat neg h]
      exact b.over_overflows mode fin sat neg true
  | fin neg m e =>
    refine ⟨fun h => ?_, fun hm n hn => ?_⟩
    · rw [show b.round mode fin sat (.fin neg m e) = (0, 0) from if_pos h]
      exact ⟨rfl, rfl⟩
    intro code
    obtain ⟨ix, tiny, hix, htiny, hr⟩ := b.round_fin mode fin sat neg hm hn
    change (ix = true ↔ Inexact m e (max (e + Nat.log2 m - (b.p - 1 : Nat)) (1 - (b.bias : Int) - (b.p - 1 : Nat)))) at hix
    rw [hr, ← hix, ← htiny]
    refine ⟨fun hz => ?_, fun hz hneg hu => ⟨fun hs => ?_, fun hs => ?_⟩, fun hz hpos => ⟨fun ho => ?_, fun ho => ?_⟩⟩
    · rw [if_pos hz]
      exact ⟨rfl, rfl⟩
    · simp [hz, hneg, hu, hs]
    · simp [hz, hneg, hu, hs, B8.nan]
    · have hneg : ¬ (neg = true ∧ ¬ b.signed = true) := by rcases hpos with h | h <;> simp [h]
      change b.maxFin fin < b.code (b.last (e + Nat.log2 m)) n at ho
      rw [if_neg hz, if_neg hneg, if_pos ho]
      exact b.over_overflows mode fin sat neg false
    · have hneg : ¬ (neg = true ∧ ¬ b.signed = true) := by rcases hpos with h | h <;> simp [h]
      change b.code (b.last (e + Nat.log2 m)) n ≤ b.maxFin fin at ho
      rw [if_neg hz, if_neg hneg, if_neg (not_lt.mpr ho)]
      exact ⟨rfl, fun hi => if_neg hi, fun hi => ⟨fun ht => by simp [hi, ht], fun ht => by simp [hi, ht]⟩⟩

/-- A code has eight bits. -/
theorem B8.sign_lt (neg : Bool) {c : Nat} (h : c ≤ b.top) : b.sign neg c < 256 := by
  unfold B8.top at h
  unfold B8.sign
  split at h <;> split <;> simp_all <;> omega

theorem B8.nan_lt : b.nan < 256 := by
  unfold B8.nan
  split <;> decide

theorem B8.maxFin_le : b.maxFin fin ≤ b.top := by
  unfold B8.maxFin
  split <;> omega

theorem B8.over_lt (neg infinite : Bool) : (b.over mode fin sat neg infinite).1 < 256 := by
  cases sat with
  | true => exact b.sign_lt neg (b.maxFin_le fin)
  | false => cases fin with
    | true => exact b.nan_lt
    | false => exact b.sign_lt neg (c := if infinite || mode.toInf neg then b.top else b.top - 1) (by split <;> omega)

theorem B8.round_lt (x : Num) : (b.round mode fin sat x).1 < 256 := by
  cases x with
  | nan g => exact b.nan_lt
  | inf neg =>
    by_cases h : neg = false ∨ b.signed = true
    · rw [b.round_inf mode fin sat neg h]
      exact b.over_lt mode fin sat neg true
    · rw [b.round_infBelow mode fin sat (by simpa using h)]
      split
      · decide
      · exact b.nan_lt
  | fin neg m e =>
    by_cases hm : m = 0
    · simp [B8.round, hm]
    obtain ⟨inexact, tiny, -, -, hr⟩ := b.round_fin mode fin sat neg hm ((rounds_iff ..).mpr rfl)
    rw [hr]
    split
    · decide
    · split
      · split
        · decide
        · exact b.nan_lt
      · split
        · exact b.over_lt mode fin sat neg false
        · rename_i hc
          exact b.sign_lt neg ((not_lt.mp hc).trans (b.maxFin_le fin))

end
end Sys2Proof.Machine

namespace Sys2Proof.Machine
open Sys2Proof

/-! ## CVT8N and CVT8 (R31, R33, R34, R36, R37, R286) -/

/-- The sign of a code. -/
def B8.negCode (b : B8) (x : Nat) : Bool := b.signed && decide (0x80 ≤ x)
/-- A code without its sign. -/
def B8.magCode (b : B8) (x : Nat) : Nat := if b.negCode x then x - 0x80 else x

/-- The value of a finite code. -/
def B8.value (b : B8) (x : Nat) : Num :=
  let c := b.magCode x
  let field := c / 2 ^ (b.p - 1)
  let least : Int := 1 - (b.bias : Int) - (b.p - 1 : Nat)
  if field = 0 then .fin (b.negCode x) (c % 2 ^ (b.p - 1)) least else .fin (b.negCode x) (2 ^ (b.p - 1) + c % 2 ^ (b.p - 1)) (least + field - 1)

/-- A finite code's value is finite. -/
theorem B8.value_fin (b : B8) (x : Nat) : ∃ neg m e, b.value x = .fin neg m e := by
  unfold B8.value
  simp only
  split <;> exact ⟨_, _, _, rfl⟩

theorem B8.read_number {b : B8} {fin : Bool} {x : Nat} (h : x ≠ b.nan) :
    b.read fin x = if b.magCode x = b.top ∧ fin = false then .inf (b.negCode x) else b.value x := by
  have hn : decide (b.signed = true ∧ x ≥ 0x80) = b.negCode x := by simp [B8.negCode]
  have hm : (if b.signed = true ∧ x ≥ 0x80 then x - 0x80 else x) = b.magCode x := by simp [B8.magCode, B8.negCode]
  rw [B8.read, if_neg h]
  simp only [hn, hm, Bool.not_eq_true]
  rfl

section
variable (s : State) (fin : Bool) (p : Nat) (x : Word)

theorem cvt8n_nan (h : x.toNat % 256 = (b8Of p).nan) : s.cvt8n fin p x = (0x7FC00000, 0) := by
  have hr : (b8Of p).read fin (x.toNat % 256) = .nan false := if_pos h
  rw [State.cvt8n, hr]

theorem cvt8n_inf (h : x.toNat % 256 ≠ (b8Of p).nan) (hc : (b8Of p).magCode (x.toNat % 256) = (b8Of p).top) :
    s.cvt8n false p x = (if (b8Of p).negCode (x.toNat % 256) then 0xFF800000 else 0x7F800000, 0) := by
  rw [State.cvt8n, B8.read_number h, if_pos ⟨hc, rfl⟩]
  cases (b8Of p).negCode (x.toNat % 256) <;> rfl

theorem cvt8n_value (h : x.toNat % 256 ≠ (b8Of p).nan) (hc : (b8Of p).magCode (x.toNat % 256) ≠ (b8Of p).top ∨ fin = true) :
    fp32.Converts .rne s.ftz ((b8Of p).value (x.toNat % 256)) (s.cvt8n fin p x).1.toNat (s.cvt8n fin p x).2 := by
  have hv : s.cvt8n fin p x = codeWord (fp32.ofNum .rne s.ftz ((b8Of p).value (x.toNat % 256))) := by
    have hr : (b8Of p).read fin (x.toNat % 256) = (b8Of p).value (x.toNat % 256) := by
      rw [B8.read_number h, if_neg]
      rintro ⟨ht, hf⟩
      rcases hc with hc | hc
      · exact hc ht
      · simp [hf] at hc
    obtain ⟨neg, m, e, he⟩ := (b8Of p).value_fin (x.toNat % 256)
    rw [State.cvt8n, hr, he]
    rfl
  rw [hv]
  exact (codeWord_converts (by decide) (by decide) (by decide) ..).2

/-- CVT8 gives the code of R33 in the mode of GC, or the stochastic one with the lane's word. -/
theorem cvt8_converts (sr sat : Bool) (k : Nat) :
    let r := s.cvt8 sr sat fin p k x
    r.1.toNat < 256 ∧ (b8Of p).Converts (if sr then .sr (s.randWord k) else s.rm) fin sat (fp32.read s.ftz x.toNat) r.1.toNat r.2 := by
  intro r
  have hlt := (b8Of p).round_lt (if sr then .sr (s.randWord k) else s.rm) fin sat (fp32.read s.ftz x.toNat)
  have hw : r.1.toNat = ((b8Of p).round (if sr then .sr (s.randWord k) else s.rm) fin sat (fp32.read s.ftz x.toNat)).1 :=
    codeWord_toNat (n := 8) (by decide) hlt
  rw [hw]
  exact ⟨hlt, (b8Of p).round_converts ..⟩
end

/-! ### The form -/

section
variable {s : State} {d : BitVec 7} {a : BitVec 8} (g f : BitVec 1) (p : BitVec 5)

/-- Without SR a CVT8 is a plain one-source form with the lane's conversion. -/
theorem execCvt8_plain (h : s.Ready d [a]) :
    ∃ t, execCvt8 0 g f p a d s = .next t ∧ VecDone 4 d (fun k => s.cvt8 false (g == 1) (f == 1) p.toNat k (s.read a k)) s t := by
  obtain ⟨t, ht, hd⟩ := State.vecForm_done (srcs := [srcA a]) (third := []) 4 (fun k => s.cvt8 false (g == 1) (f == 1) p.toNat k (s.read a k)) h
  refine ⟨t, ?_, hd⟩
  rw [← ht, execCvt8]
  change commit 4 s (match s.vecForm d [srcA a] [] (fun k => s.cvt8 false (g == 1) (f == 1) p.toNat k (s.read a k)) with
    | .retire u => .retire u
    | .after x u => .after x u
    | x => x) = _
  cases s.vecForm d [srcA a] [] (fun k => s.cvt8 false (g == 1) (f == 1) p.toNat k (s.read a k)) <;> rfl

/-- The state after a form of results r, before its trap: what CVT8 under SR adds the uses to. -/
def State.wrote (s : State) (d : BitVec 7) (r : Nat → Word × Flags) : State :=
  (s.vecWrite d fun k => (r k).1).raise (orFlags (fun k => (r k).2) s.activeLanes)

/-- Under SR the uses are counted, then the trap follows. -/
theorem execCvt8_stochastic (h : s.Ready d [a]) :
    let r (k : Nat) := s.cvt8 true (g == 1) (f == 1) p.toNat k (s.read a k)
    let fired := orFlags (fun k => (r k).2) s.activeLanes &&& gcEnable s.grp.gc
    let v := (s.countUses true (s.wrote d r)).finish (s.ent.pc + 4)
    execCvt8 1 g f p a d s = .next (if fired = 0 then v else v.takeTrap {
      code := trapOfFlags fired, tpc := s.ent.pc + 4, first := s.ent.pc, data := fired.setWidth 32
      lanes := laneMask (fun k => s.activeLanes.contains k && decide ((r k).2 &&& gcEnable s.grp.gc ≠ 0)) 64 }) := by
  intro r fired v
  have hv : s.vecForm d [srcA a] [] r = s.retireFlags (s.wrote d r) s.activeLanes fun k => (r k).2 := by
    rw [State.vecForm, State.vecCheck_none (srcs := [srcA a]) (third := []) h]
    rfl
  rw [execCvt8]
  change commit 4 s (match s.vecForm d [srcA a] [] r with
    | .retire u => .retire (s.countUses true u)
    | .after x u => .after x (s.countUses true u)
    | x => x) = _
  rw [hv, State.retireFlags]
  by_cases hf : fired = 0
  · rw [if_pos hf, if_pos hf]
    rfl
  · rw [if_neg hf, if_neg hf]
    rfl

/-- Counting the uses changes the use counts of the active lanes and no more. -/
theorem State.countUses_lane (s u : State) {pc : Word} (hw : u.grp.width = s.grp.width) (hu : ∀ k < s.grp.width, (u.grp.lane k).use = (s.grp.lane k).use) :
    let v := (s.countUses true u).finish pc
    v = { u.finish pc with grp := { (u.finish pc).grp with lanes := v.grp.lanes } } ∧
    ∀ k < s.grp.width, v.grp.lane k = { (u.finish pc).grp.lane k with use := if s.computes k then (s.grp.lane k).use + 1 else (s.grp.lane k).use } := by
  refine ⟨rfl, fun k hk => ?_⟩
  refine (Group.lane_mapLanes u.grp _ k (hw ▸ hk)).trans ?_
  rw [← hu k hk]
  unfold State.computes
  split <;> rfl

end

/-! ### The statement -/

/-- A row of the table of CVT, where each row's claim holds of what the conversion gives. -/
theorem cvt_table {s : State} {d : BitVec 7} {a : BitVec 8} (h : s.Ready d [a]) {l : List (BitVec 2 × BitVec 3 × BitVec 3 × (Nat → Word → Flags → Prop))}
    (hl : l.Forall fun p => ∀ k, p.2.2.2 k (s.cvt p.1.toNat p.2.1.toNat p.2.2.1.toNat (s.read a k)).1 (s.cvt p.1.toNat p.2.1.toNat p.2.2.1.toNat (s.read a k)).2)
    {m : BitVec 2} {z u : BitVec 3} {C : Nat → Word → Flags → Prop} (hm : (m, z, u, C) ∈ l) :
    ∃ t r, exec (.cvt m z u a d) s = .next t ∧ VecDone 4 d r s t ∧ ∀ k, C k (r k).1 (r k).2 := by
  obtain ⟨t, ht, hd⟩ := State.vec1_done (s.cvt m.toNat z.toNat u.toNat) h
  exact ⟨t, _, ht, hd, List.forall_iff_forall_mem.mp hl _ hm⟩

/-- Settles O9: the arithmetic by `arithmetic_rounds`, each row of CVT by its conversion, CVT8 and CVT8N by the roundings and values of their codes. -/
theorem conversionForms : Obligations.ConversionForms := by
  refine ⟨?_, fun s d a h => ⟨fun m z u C hm => cvt_table h ?_ hm, ?_, ?_, ?_⟩⟩
  · intro f hf
    refine arithmetic_rounds ?_
    simp only [List.mem_cons, List.not_mem_nil, or_false] at hf
    rcases hf with rfl | rfl | rfl <;> decide
  · exact ⟨fun _ => cvt_toBf16_converts s _, fun _ => cvt_toFp16_converts s _, fun _ => cvt_ofBf16_converts s _, fun _ => cvt_ofFp16_converts s _,
      fun _ => cvt_ofInt_converts s _, fun _ => cvt_ofNat_converts s _, fun _ => cvt_toInt_converts s _ _, fun _ => cvt_toNat_converts s _ _,
      fun _ => cvt_toInt8_converts s _ _, fun _ => cvt_toNat8_converts s _ _⟩
  · intro f p _
    obtain ⟨t, ht, hd⟩ := State.vec1_done (s.cvt8n (f == 1) p.toNat) h
    refine ⟨t, _, ht, hd, fun k => ⟨fun hc => cvt8n_nan s _ _ _ hc, fun hc hi hf => ?_, fun hc hi => ?_⟩⟩
    · subst hf
      exact cvt8n_inf s _ _ hc hi
    · exact cvt8n_value s _ _ _ hc (hi.imp_right fun hf => by simp [hf])
  · intro g f p _
    obtain ⟨t, ht, hd⟩ := execCvt8_plain g f p h
    exact ⟨t, _, ht, hd, fun k => cvt8_converts s (f == 1) p.toNat (s.read a k) false (g == 1) k⟩
  · intro g f p _ mix key team word
    obtain ⟨hframe, hlanes⟩ := s.countUses_lane (s.wrote d fun k => s.cvt8 true (g == 1) (f == 1) p.toNat k (s.read a k)) (pc := s.ent.pc + 4) rfl
      (s.vecWrite_result 4 d _ _).uses
    exact ⟨_, _, fun k => s.cvt8 true (g == 1) (f == 1) p.toNat k (s.read a k), fun k => cvt8_converts s (f == 1) p.toNat (s.read a k) true (g == 1) k,
      s.vecWrite_result 4 d _ _, hframe, hlanes, execCvt8_stochastic g f p h⟩

end Sys2Proof.Machine

namespace Sys2Proof.Machine

/-! ## The check of an access (R171), by the lanes that fail it -/

/-- The accesses one of whose pages fails in one of some ways. -/
def State.badIn (s : State) (n : Need) (as : List Access) (fs : List XFail) : List Access :=
  as.filter fun a => (s.failures (s.ctx s.team.ctx) n a).any fun f => fs.contains f.1

/-- The address that a trap names for accesses that fail. -/
def State.firstFailing (s : State) (n : Need) (fs : List XFail) (bad : List Access) : VAddr := match bad with
  | [] => 0
  | a :: _ => match (s.failures (s.ctx s.team.ctx) n a).find? fun f => fs.contains f.1 with
    | some (_, va) => if va = a.va.toNat then a.va else BitVec.ofNat 80 va
    | none => a.va

/-- TDATA of an ACCESS_FAULT: whether the first access that fails has no route (R171). -/
def State.routeData (s : State) (n : Need) (bad : List Access) : Word := match bad with
  | a :: _ => if ((s.failures (s.ctx s.team.ctx) n a).find? fun f => f.1 = .access ∨ f.1 = .noRoute).map Prod.fst = some .noRoute then 0x6FF else 0
  | [] => 0

/-- The lanes of some accesses. -/
def lanesOf (as : List Access) : Mask := laneMask (fun i => as.any fun a => a.lane = i) 64

/-- The INVALID and MIGRATING pages of some accesses: whether MIGRATING, the page, the address there. -/
def State.pagesOf (s : State) (n : Need) (as : List Access) : List (Bool × BitVec 64 × Nat) :=
  (as.flatMap fun a => (s.failures (s.ctx s.team.ctx) n a).filter fun f => f.1 = .invalid ∨ f.1 = .migrating).map
    fun f => (decide (f.1 = .migrating), BitVec.ofNat 64 (f.2 / 2 ^ 16), f.2)

/-- The lanes of some accesses that meet a page. -/
def lanesAt (as : List Access) (page : BitVec 64) : Mask := laneMask (fun i => as.any fun a => a.lane = i && (a.probes.any fun p => p / 2 ^ 16 = page.toNat)) 64

/-- A page that holds an access up: an INVALID one is reported where it has no slot (R172). -/
def State.reportPage (kind : Nat) (lanes : BitVec 64 → Mask) (s : State) : Bool × BitVec 64 × Nat → State
  | (mig, page, va) => if mig then s else s.attachSlot s.team.ctx s.arbour page
      { kind := 4, code := 4, addr := BitVec.ofNat 80 va, pc := s.ent.pc, launch := s.team.launch, detail := BitVec.ofNat 32 (kind + s.arbour * 256), queue := s.team.queue, core := s.core.num, part := s.grp.loc.part, lanes := lanes page }

/-- FAULTWAIT under some pages (R172). -/
def State.holdUnder (s : State) (kind : Nat) (lanes : BitVec 64 → Mask) (pages : List (Bool × BitVec 64 × Nat)) : Issue :=
  .held ((pages.map fun (mig, page, _) => (⟨page, mig⟩ : HeldPage)).eraseDups) ((pages.foldl (State.reportPage kind lanes) s).setEnt fun e =>
    { e with heldAt := pages.map fun (_, page, va) => (⟨page, BitVec.ofNat 80 va, lanes page⟩ : PageFault) })

/-- What the check of the lanes' accesses comes to, failure by failure. -/
theorem State.check_eq (s : State) (n : Need) (align kind : Nat) (as : List Access) : s.check n align false kind as =
    let mis := as.filter fun a => a.va.toNat % align ≠ 0
    let bad := s.badIn n as
    if mis = [] ∧ bad [.tablePoison] ≠ [] then .bad (.placed (s.ctxFatal s.team.ctx 8 2 (s.firstFailing n [.tablePoison] (bad [.tablePoison]))))
    else if mis ≠ [] then .bad (.trap (s.trapHere .misalign 0 (lanesOf mis) ((mis.head?.map Access.va).getD 0)))
    else if bad [.malformed] ≠ [] then .bad (.trap (s.trapHere .xlateFault 0 (lanesOf (bad [.malformed])) (s.firstFailing n [.malformed] (bad [.malformed]))))
    else if bad [.access, .noRoute] ≠ [] then
      .bad (.trap (s.trapHere .accessFault (s.routeData n (bad [.access, .noRoute])) (lanesOf (bad [.access, .noRoute])) (s.firstFailing n [.access, .noRoute] (bad [.access, .noRoute]))))
    else if bad [.poisoned] ≠ [] then .bad (.trap (s.trapHere .dataPoison 0 (lanesOf (bad [.poisoned])) (s.firstFailing n [.poisoned] (bad [.poisoned]))))
    else if bad [.invalid, .migrating] ≠ [] then .bad (s.holdUnder kind (lanesAt (bad [.invalid, .migrating])) (s.pagesOf n (bad [.invalid, .migrating])))
    else .ok (as.foldl (fun t a => a.probes.foldl (fun t va => t.cacheXlate false (t.translate t.core.dtlb (s.ctx s.team.ctx) t.arbour n va).2) t) s) := by
  rfl

/-! ### Word accesses of the active lanes -/

/-- What an address comes to for an access of the group in front. -/
def State.xlate (s : State) (n : Need) (va : VAddr) : Except XFail Nat := (s.translate s.core.dtlb (s.ctx s.team.ctx) s.arbour n va.toNat).1

/-- The active lanes whose address fails in one of some ways. -/
def State.failing (s : State) (n : Need) (ea : Nat → VAddr) (fs : List XFail) (i : Nat) : Bool := s.active i && fs.any fun f => decide (s.xlate n (ea i) = .error f)

/-- The active lanes whose address is no multiple of 4. -/
def State.misaligned (s : State) (ea : Nat → VAddr) (i : Nat) : Bool := s.active i && decide ((ea i).toNat % 4 ≠ 0)

/-- The word accesses of the active lanes that p selects, and the address of the first of them. -/
def State.picked (s : State) (ea : Nat → VAddr) (p : Nat → Bool) : List Access := (s.activeLanes.filter p).map fun i => ⟨i, ea i, 4⟩
def State.firstAt (s : State) (ea : Nat → VAddr) (p : Nat → Bool) : VAddr := ((s.activeLanes.find? p).map ea).getD 0

theorem State.active_lt {s : State} {i : Nat} (h : s.active i = true) : i < s.grp.width := by
  unfold State.active at h
  exact of_decide_eq_true (Bool.and_eq_true_iff.1 h).1

section WordAccesses
variable {s : State} {n : Need} {ea : Nat → VAddr} {p : Nat → Bool}

theorem State.failing_active {fs : List XFail} : ∀ i, s.failing n ea fs i = true → s.active i = true := fun _ h => (Bool.and_eq_true_iff.1 h).1
theorem State.misaligned_active : ∀ i, s.misaligned ea i = true → s.active i = true := fun _ h => (Bool.and_eq_true_iff.1 h).1

theorem State.accesses_filter {P : Access → Bool} (h : ∀ i ∈ s.activeLanes, P ⟨i, ea i, 4⟩ = p i) : (s.accesses 4 ea).filter P = s.picked ea p := by
  unfold State.accesses State.picked
  rw [List.filter_map]
  exact congrArg _ (List.filter_congr h)

theorem State.picked_eq_nil (hp : ∀ i, p i = true → s.active i = true) : s.picked ea p = [] ↔ ∀ i < s.grp.width, p i = false := by
  unfold State.picked
  rw [List.map_eq_nil_iff, List.filter_eq_nil_iff]
  constructor
  · intro h i _
    by_contra hi
    rw [Bool.not_eq_false] at hi
    exact h i ((s.mem_activeLanes i).2 (hp i hi)) hi
  · intro h i hi
    rw [h i (State.active_lt ((s.mem_activeLanes i).1 hi))]
    decide

theorem State.mem_picked {a : Access} : a ∈ s.picked ea p ↔ ∃ i ∈ s.activeLanes, p i = true ∧ a = ⟨i, ea i, 4⟩ := by
  simp only [State.picked, List.mem_map, List.mem_filter, and_assoc, eq_comm]

theorem State.picked_any (hp : ∀ i, p i = true → s.active i = true) (q : Access → Bool) (i : Nat) :
    ((s.picked ea p).any fun a => decide (a.lane = i) && q a) = (p i && q ⟨i, ea i, 4⟩) := by
  rw [Bool.eq_iff_iff]
  simp only [List.any_eq_true, State.mem_picked, Bool.and_eq_true, decide_eq_true_eq]
  constructor
  · rintro ⟨_, ⟨j, -, hj, rfl⟩, rfl, hq⟩
    exact ⟨hj, hq⟩
  · exact fun h => ⟨_, ⟨i, (s.mem_activeLanes i).2 (hp i h.1), h.1, rfl⟩, rfl, h.2⟩

theorem State.lanesOf_picked (hp : ∀ i, p i = true → s.active i = true) : lanesOf (s.picked ea p) = laneMask p 64 := by
  unfold lanesOf
  congr 1
  funext i
  simpa using State.picked_any hp (fun _ => true) i

/-- The first access picked is that of the first lane. -/
theorem State.picked_first (h : s.picked ea p ≠ []) : ∃ i l, s.picked ea p = ⟨i, ea i, 4⟩ :: l ∧ s.activeLanes.find? p = some i ∧ i ∈ s.activeLanes ∧ p i = true := by
  unfold State.picked at *
  cases hf : s.activeLanes.filter p with
  | nil => rw [hf] at h; exact absurd rfl h
  | cons i l =>
    have hi := List.mem_filter.1 (hf ▸ List.mem_cons_self : i ∈ s.activeLanes.filter p)
    exact ⟨i, _, rfl, by rw [← List.head?_filter, hf]; rfl, hi.1, hi.2⟩

/-! ### Failures of an aligned word -/

theorem Access.probes_word {i : Nat} {va : VAddr} (h : va.toNat % 4 = 0) : (Access.mk i va 4).probes = [va.toNat] := by
  have : va.toNat < 2 ^ 80 := va.isLt
  unfold Access.probes
  rw [if_pos]
  show va.toNat / 2 ^ 16 = (va.toNat + 4 - 1) % 2 ^ 80 / 2 ^ 16
  omega

theorem State.failures_error {i : Nat} {va : VAddr} (h : va.toNat % 4 = 0) {f : XFail} (hx : s.xlate n va = .error f) :
    s.failures (s.ctx s.team.ctx) n ⟨i, va, 4⟩ = [(f, va.toNat)] := by
  unfold State.xlate at hx
  simp only [State.failures, Access.probes_word h, List.filterMap_cons, List.filterMap_nil, hx]

theorem State.failures_ok {i : Nat} {va : VAddr} (h : va.toNat % 4 = 0) {q : Nat} (hx : s.xlate n va = .ok q) : s.failures (s.ctx s.team.ctx) n ⟨i, va, 4⟩ = [] := by
  unfold State.xlate at hx
  simp only [State.failures, Access.probes_word h, List.filterMap_cons, List.filterMap_nil, hx]

theorem State.failures_any {i : Nat} {va : VAddr} (h : va.toNat % 4 = 0) (fs : List XFail) :
    ((s.failures (s.ctx s.team.ctx) n ⟨i, va, 4⟩).any fun f => fs.contains f.1) = fs.any fun f => decide (s.xlate n va = .error f) := by
  cases hx : s.xlate n va with
  | error f =>
    rw [State.failures_error h hx, Bool.eq_iff_iff]
    simp [List.any_eq_true]
  | ok q =>
    rw [State.failures_ok h hx]
    simp

theorem State.accesses_misaligned : ((s.accesses 4 ea).filter fun a => decide (a.va.toNat % 4 ≠ 0)) = s.picked ea (s.misaligned ea) :=
  State.accesses_filter fun i hi => by rw [State.misaligned, (s.mem_activeLanes i).1 hi, Bool.true_and]

/-! ### Outcomes of the check -/

/-- Every address is aligned, and no walk meets a poisoned page-table page. -/
structure State.Walked (s : State) (n : Need) (ea : Nat → VAddr) : Prop where
  aligned : ∀ i < s.grp.width, s.misaligned ea i = false
  sound : ∀ i < s.grp.width, s.failing n ea [.tablePoison] i = false

theorem State.check_misaligned {kind i : Nat} (hi : i < s.grp.width) (h : s.misaligned ea i = true) :
    s.check n 4 false kind (s.accesses 4 ea) = .bad (.trap (s.trapHere .misalign 0 (laneMask (s.misaligned ea) 64) (s.firstAt ea (s.misaligned ea)))) := by
  have hne : s.picked ea (s.misaligned ea) ≠ [] := fun k => by
    rw [(State.picked_eq_nil State.misaligned_active).1 k i hi] at h
    cases h
  obtain ⟨j, l, hl, hj, -⟩ := State.picked_first hne
  rw [State.check_eq]
  dsimp only
  rw [State.accesses_misaligned, if_neg fun k => hne k.1, if_pos hne, State.lanesOf_picked State.misaligned_active, hl, State.firstAt, hj]
  rfl

variable (h : s.Walked n ea)
include h

theorem State.Walked.mod {i : Nat} (hi : i ∈ s.activeLanes) : (ea i).toNat % 4 = 0 := by
  have ha := (s.mem_activeLanes i).1 hi
  have := h.aligned i (State.active_lt ha)
  rw [State.misaligned, ha, Bool.true_and, decide_eq_false_iff_not, not_not] at this
  exact this

theorem State.Walked.badIn (fs : List XFail) : s.badIn n (s.accesses 4 ea) fs = s.picked ea (s.failing n ea fs) :=
  State.accesses_filter fun i hi => by rw [State.failures_any (h.mod hi), State.failing, (s.mem_activeLanes i).1 hi, Bool.true_and]

/-- The first lane that fails in one of some ways, and how it does. -/
theorem State.Walked.first {fs : List XFail} (hne : s.picked ea (s.failing n ea fs) ≠ []) :
    ∃ i l f, s.picked ea (s.failing n ea fs) = ⟨i, ea i, 4⟩ :: l ∧ s.activeLanes.find? (s.failing n ea fs) = some i ∧ f ∈ fs ∧ s.xlate n (ea i) = .error f ∧
      s.failures (s.ctx s.team.ctx) n ⟨i, ea i, 4⟩ = [(f, (ea i).toNat)] := by
  obtain ⟨i, l, hl, hf, hi, hx⟩ := State.picked_first hne
  obtain ⟨f, hfs, hx⟩ := List.any_eq_true.1 (Bool.and_eq_true_iff.1 hx).2
  rw [decide_eq_true_eq] at hx
  exact ⟨i, l, f, hl, hf, hfs, hx, State.failures_error (h.mod hi) hx⟩

theorem State.Walked.firstFailing (fs : List XFail) : s.firstFailing n fs (s.picked ea (s.failing n ea fs)) = s.firstAt ea (s.failing n ea fs) := by
  by_cases hne : s.picked ea (s.failing n ea fs) = []
  · have : s.activeLanes.find? (s.failing n ea fs) = none := by
      unfold State.picked at hne
      rw [← List.head?_filter, List.map_eq_nil_iff.1 hne]
      rfl
    rw [hne, State.firstAt, this]
    rfl
  · obtain ⟨i, l, f, hl, hf, hfs, -, hx⟩ := h.first hne
    rw [hl, State.firstAt, hf, State.firstFailing, hx, List.find?_cons, List.contains_iff_mem.2 hfs]
    exact if_pos rfl

/-- The check up to a first failure, by the lanes that fail. -/
theorem State.Walked.check (kind : Nat) : s.check n 4 false kind (s.accesses 4 ea) =
    let bad (fs : List XFail) : List Access := s.picked ea (s.failing n ea fs)
    let mask (fs : List XFail) : Mask := laneMask (s.failing n ea fs) 64
    let first (fs : List XFail) : VAddr := s.firstAt ea (s.failing n ea fs)
    if bad [.malformed] ≠ [] then .bad (.trap (s.trapHere .xlateFault 0 (mask [.malformed]) (first [.malformed])))
    else if bad [.access, .noRoute] ≠ [] then
      .bad (.trap (s.trapHere .accessFault (s.routeData n (bad [.access, .noRoute])) (mask [.access, .noRoute]) (first [.access, .noRoute])))
    else if bad [.poisoned] ≠ [] then .bad (.trap (s.trapHere .dataPoison 0 (mask [.poisoned]) (first [.poisoned])))
    else if bad [.invalid, .migrating] ≠ [] then .bad (s.holdUnder kind (lanesAt (bad [.invalid, .migrating])) (s.pagesOf n (bad [.invalid, .migrating])))
    else .ok ((s.accesses 4 ea).foldl (fun t a => a.probes.foldl (fun t va => t.cacheXlate false (t.translate t.core.dtlb (s.ctx s.team.ctx) t.arbour n va).2) t) s) := by
  rw [State.check_eq]
  dsimp only
  rw [State.accesses_misaligned, (State.picked_eq_nil State.misaligned_active).2 h.aligned, h.badIn [.tablePoison], (State.picked_eq_nil State.failing_active).2 h.sound]
  simp only [ne_eq, not_true_eq_false, and_false, if_false, h.badIn, h.firstFailing, State.lanesOf_picked State.failing_active]

end WordAccesses
/-! ### Reports of pages (R51, R172) -/

/-- What reports in the fault log of context c may change: slots, counts of records, and bytes of the log (R51, R172). -/
structure FaultsReported (c : Nat) (s t : State) : Prop where
  frame : t = { s with dev := { s.dev with mem := t.dev.mem, poison := t.dev.poison, slots := t.dev.slots, ctxs := t.dev.ctxs } }
  ctxs : ∀ k, { t.ctx k with claims := (s.ctx k).claims } = s.ctx k
  log : let log := (s.ctx c).flbase.toNat
    ∀ a, (a < log ∨ log + 64 + 64 * 2 ^ (s.ctx c).fllog2 ≤ a) → t.dev.mem.read a = s.dev.mem.read a ∧ (a ∈ t.dev.poison ↔ a ∈ s.dev.poison)

theorem FaultsReported.refl (c : Nat) (s : State) : FaultsReported c s s := ⟨rfl, fun _ => rfl, fun _ _ => ⟨rfl, .rfl⟩⟩

theorem FaultsReported.trans {c : Nat} {s t u : State} (h : FaultsReported c s t) (k : FaultsReported c t u) : FaultsReported c s u := by
  have hb : (t.ctx c).flbase = (s.ctx c).flbase := (congrArg Ctx.flbase (h.ctxs c) : _)
  have hl : (t.ctx c).fllog2 = (s.ctx c).fllog2 := (congrArg Ctx.fllog2 (h.ctxs c) : _)
  refine ⟨?_, fun n => ?_, fun a ha => ?_⟩
  · rw [k.frame, h.frame]
  · rw [← h.ctxs n, ← k.ctxs n]
  · have := k.log a (by rw [hb, hl]; exact ha)
    exact ⟨this.1.trans (h.log a ha).1, this.2.trans (h.log a ha).2⟩

theorem FaultsReported.foldl {α : Type} {c : Nat} {f : State → α → State} (hf : ∀ s a, s.team.ctx = c → FaultsReported c s (f s a)) (l : List α) :
    ∀ s : State, s.team.ctx = c → FaultsReported c s (l.foldl f s) := by
  induction l with
  | nil => exact fun s _ => .refl c s
  | cons a l ih =>
    intro s hs
    have h := hf s a hs
    exact h.trans (ih _ (by rw [h.frame]; exact hs))

theorem FaultsReported.store {c : Nat} {s t : State} (h : FaultsReported c s t) {a : Nat} {bs : List Byte} (ha : (s.ctx c).flbase.toNat ≤ a)
    (hl : a + bs.length ≤ (s.ctx c).flbase.toNat + 64 + 64 * 2 ^ (s.ctx c).fllog2) : FaultsReported c s (t.store a bs) := by
  refine ⟨by rw [h.frame]; rfl, h.ctxs, fun x hx => ⟨?_, ?_⟩⟩
  · rw [← (h.log x hx).1]
    exact Memory.read_writeBytes_other _ _ _ _ (by omega)
  · rw [← (h.log x hx).2, State.store_dev, List.mem_filter, Bool.or_eq_true, decide_eq_true_eq, decide_eq_true_eq]
    exact and_iff_left (by omega)

theorem FaultsReported.claim {c : Nat} {s t : State} (h : FaultsReported c s t) (hc : ∀ n, t.ctx n = s.ctx n) (k : Nat) : FaultsReported c s (t.setCtx { s.ctx c with claims := k }) := by
  refine ⟨by rw [h.frame]; rfl, fun n => ?_, h.log⟩
  rw [State.ctx_setCtx]
  split
  · next hn => rw [show n = c from hn.trans (s.ctx_num c)]
  · rw [hc]

theorem State.record_reports (s : State) (c : Nat) (r : Rec) : FaultsReported c s (s.record c r) := by
  have hm : (s.ctx c).claims % 2 ^ (s.ctx c).fllog2 < 2 ^ (s.ctx c).fllog2 := Nat.mod_lt _ (Nat.two_pow_pos _)
  have hlen (x k : Nat) : (leBytes x k).length = k := length_leBytes x k
  unfold State.record
  dsimp only
  generalize r.bits s.dev.tick = bits
  split
  · exact .refl c s
  · split
    · have h := (FaultsReported.refl c s).store (a := (s.ctx c).flbase.toNat + 64 + 64 * ((s.ctx c).claims % 2 ^ (s.ctx c).fllog2)) (bs := leBytes bits 64) (by omega) (by rw [hlen]; omega)
      have h' := h.store (a := (s.ctx c).flbase.toNat) (bs := leBytes ((s.ctx c).claims + 1) 8) (by omega) (by rw [hlen]; omega)
      exact h'.claim (State.ctx_congr (by rw [State.store_dev, State.store_dev])) _
    · exact (FaultsReported.refl c s).store (by omega) (by rw [hlen]; omega)

theorem State.attachSlot_reports (s : State) (c arb : Nat) (page : BitVec 64) (r : Rec) : FaultsReported c s (s.attachSlot c arb page r) := by
  unfold State.attachSlot
  split
  · exact .refl c s
  · split
    · exact .refl c s
    · have hs : FaultsReported c s (s.setDev fun d => { d with slots := ⟨arb, c, page⟩ :: d.slots }) := ⟨rfl, fun _ => rfl, fun _ _ => ⟨rfl, .rfl⟩⟩
      exact hs.trans (State.record_reports _ _ _)

theorem State.reportPage_reports (kind : Nat) (lanes : BitVec 64 → Mask) (s : State) (x : Bool × BitVec 64 × Nat) (c : Nat) (h : s.team.ctx = c) :
    FaultsReported c s (State.reportPage kind lanes s x) := by
  obtain ⟨mig, page, va⟩ := x
  subst h
  cases mig with
  | true => exact .refl _ s
  | false => exact s.attachSlot_reports _ _ _ _

/-! ### The slots of pages (R172) -/

/-- The slots that an Arbour has open. -/
def State.slotCount (s : State) (arb : Nat) : Nat := (s.dev.slots.filter fun f => f.arbour = arb).length

theorem State.attachSlot_slots {s : State} {c arb : Nat} (page : BitVec 64) (r : Rec) (h : s.slotCount arb < 256) :
    (∀ f, f ∈ (s.attachSlot c arb page r).dev.slots ↔ f ∈ s.dev.slots ∨ f = ⟨arb, c, page⟩) ∧ (s.attachSlot c arb page r).slotCount arb ≤ s.slotCount arb + 1 := by
  unfold State.attachSlot
  split
  · next hs =>
    obtain ⟨g, hg, he⟩ := List.any_eq_true.1 hs
    simp only [Bool.and_eq_true, decide_eq_true_eq] at he
    obtain ⟨⟨rfl, rfl⟩, rfl⟩ := he
    exact ⟨fun f => ⟨.inl, fun k => k.elim id fun k => k ▸ hg⟩, by omega⟩
  · rw [if_neg (by unfold State.slotCount at h; omega)]
    have hd : ∀ u : State, (u.record c r).dev.slots = u.dev.slots := fun u => by rw [u.record_only c r]
    constructor
    · intro f
      rw [hd, State.setDev_dev, List.mem_cons, or_comm]
    · unfold State.slotCount
      rw [hd, State.setDev_dev, List.filter_cons]
      simp

theorem State.reportPages_slots (kind : Nat) (lanes : BitVec 64 → Mask) (l : List (Bool × BitVec 64 × Nat)) : ∀ s : State, s.slotCount s.arbour + l.length ≤ 256 →
    ∀ f, f ∈ (l.foldl (State.reportPage kind lanes) s).dev.slots ↔ f ∈ s.dev.slots ∨ ∃ x ∈ l, x.1 = false ∧ f = ⟨s.arbour, s.team.ctx, x.2.1⟩ := by
  induction l with
  | nil => intro s _ f; simp
  | cons x l ih =>
    intro s hs f
    obtain ⟨mig, page, va⟩ := x
    rw [List.length_cons] at hs
    rw [List.foldl_cons, List.exists_mem_cons_iff]
    have hr := State.reportPage_reports kind lanes s ⟨mig, page, va⟩ _ rfl
    have ha : (State.reportPage kind lanes s ⟨mig, page, va⟩).arbour = s.arbour := by rw [hr.frame]; rfl
    have ht : (State.reportPage kind lanes s ⟨mig, page, va⟩).team = s.team := by rw [hr.frame]
    cases mig with
    | true =>
      rw [show State.reportPage kind lanes s (true, page, va) = s from rfl, ih s (by omega)]
      simp
    | false =>
      obtain ⟨h1, h2⟩ := State.attachSlot_slots (s := s) (c := s.team.ctx) (arb := s.arbour) page
        { kind := 4, code := 4, addr := BitVec.ofNat 80 va, pc := s.ent.pc, launch := s.team.launch, detail := BitVec.ofNat 32 (kind + s.arbour * 256), queue := s.team.queue, core := s.core.num, part := s.grp.loc.part, lanes := lanes page } (by omega)
      have he : State.reportPage kind lanes s (false, page, va) = _ := rfl
      rw [ih _ (by rw [ha]; have : (State.reportPage kind lanes s (false, page, va)).slotCount s.arbour ≤ _ := h2; omega), ha, ht]
      have h1 := h1 f
      change f ∈ (State.reportPage kind lanes s (false, page, va)).dev.slots ↔ _ at h1
      rw [h1, or_assoc]
      simp

theorem State.reportPages_none {s : State} (kind : Nat) (lanes : BitVec 64 → Mask) {l : List (Bool × BitVec 64 × Nat)} (h : ∀ x ∈ l, x.1 = true) :
    l.foldl (State.reportPage kind lanes) s = s := by
  induction l with
  | nil => rfl
  | cons x l ih =>
    obtain ⟨mig, page, va⟩ := x
    obtain rfl : mig = true := h _ List.mem_cons_self
    exact ih fun y hy => h y (List.mem_cons_of_mem _ hy)

/-! ### FAULTWAIT (R172) -/

section WordAccesses
variable {s : State} {n : Need} {ea : Nat → VAddr}

/-- The lanes that INVALID and MIGRATING pages hold up. -/
def State.heldUp (s : State) (n : Need) (ea : Nat → VAddr) : Nat → Bool := s.failing n ea [.invalid, .migrating]

/-- The page of an address (R166). -/
def pageOf (va : VAddr) : BitVec 64 := BitVec.ofNat 64 (va.toNat / 2 ^ 16)

theorem pageOf_toNat (va : VAddr) : (pageOf va).toNat = va.toNat / 2 ^ 16 := by
  have : va.toNat < 2 ^ 80 := va.isLt
  rw [pageOf, BitVec.toNat_ofNat, Nat.mod_eq_of_lt (by omega)]

theorem State.heldUp_cases {i : Nat} (h : s.heldUp n ea i = true) : s.active i = true ∧ (s.xlate n (ea i) = .error .invalid ∨ s.xlate n (ea i) = .error .migrating) := by
  simpa [State.heldUp, State.failing] using h

theorem State.Walked.pagesOf (h : s.Walked n ea) : s.pagesOf n (s.picked ea (s.heldUp n ea)) =
    (s.activeLanes.filter (s.heldUp n ea)).map fun i => (decide (s.xlate n (ea i) = .error .migrating), pageOf (ea i), (ea i).toNat) := by
  unfold State.pagesOf State.picked
  rw [List.flatMap_map, List.map_flatMap, List.map_eq_flatMap]
  refine List.flatMap_congr fun i hi => ?_
  obtain ⟨hi, hh⟩ := List.mem_filter.1 hi
  rcases (State.heldUp_cases hh).2 with hx | hx <;> simp [State.failures_error (h.mod hi) hx, hx, pageOf]

theorem State.Walked.lanesAt (h : s.Walked n ea) (page : BitVec 64) :
    lanesAt (s.picked ea (s.heldUp n ea)) page = laneMask (fun i => s.heldUp n ea i && decide (pageOf (ea i) = page)) 64 := by
  unfold Machine.lanesAt
  congr 1
  funext i
  rw [State.picked_any (p := s.heldUp n ea) State.failing_active]
  cases hi : s.heldUp n ea i with
  | false => rfl
  | true =>
    rw [Access.probes_word (h.mod ((s.mem_activeLanes i).2 (State.heldUp_cases hi).1)), Bool.eq_iff_iff]
    simp [← BitVec.toNat_inj, pageOf_toNat]

theorem State.mem_heldLanes {i : Nat} : i ∈ s.activeLanes.filter (s.heldUp n ea) ↔ i < s.grp.width ∧ s.heldUp n ea i = true := by
  rw [List.mem_filter, s.mem_activeLanes]
  exact ⟨fun h => ⟨State.active_lt h.1, h.2⟩, fun h => ⟨(State.heldUp_cases h.2).1, h.2⟩⟩

theorem State.activeLanes_length (s : State) : s.activeLanes.length ≤ s.grp.width := by
  unfold State.activeLanes
  exact (List.length_filter_le _ _).trans_eq List.length_range

/-- The lanes that a page of one kind holds up. -/
theorem State.heldUp_invalid {i : Nat} : s.failing n ea [.invalid] i = true ↔ s.heldUp n ea i = true ∧ decide (s.xlate n (ea i) = .error .migrating) = false := by
  simp only [State.heldUp, State.failing, List.any_cons, List.any_nil, Bool.or_false, Bool.and_eq_true, Bool.or_eq_true, decide_eq_true_eq, decide_eq_false_iff_not]
  constructor
  · rintro ⟨ha, hx⟩
    exact ⟨⟨ha, .inl hx⟩, by simp [hx]⟩
  · rintro ⟨⟨ha, hx | hx⟩, hn⟩
    · exact ⟨ha, hx⟩
    · exact absurd hx hn
theorem State.heldUp_migrating {i : Nat} : s.failing n ea [.migrating] i = true ↔ s.heldUp n ea i = true ∧ decide (s.xlate n (ea i) = .error .migrating) = true := by
  simp only [State.heldUp, State.failing, List.any_cons, List.any_nil, Bool.or_false, Bool.and_eq_true, Bool.or_eq_true, decide_eq_true_eq]
  exact ⟨fun h => ⟨⟨h.1, .inr h.2⟩, h.2⟩, fun h => ⟨h.1.1, h.2⟩⟩

/-- What FAULTWAIT under the pages of some lanes does: the entity is held under them, INVALID pages are reported, and nothing else changes. -/
theorem State.Walked.held (h : s.Walked n ea) (hw : s.grp.width ≤ 64) (kind len : Nat) :
    ∃ u, commit len s (s.holdUnder kind (Machine.lanesAt (s.picked ea (s.heldUp n ea))) (s.pagesOf n (s.picked ea (s.heldUp n ea)))) = .next u ∧
      (∀ p, p ∈ u.ent.held ↔ ∃ i < s.grp.width, (s.failing n ea [.invalid] i = true ∧ p = ⟨pageOf (ea i), false⟩) ∨ (s.failing n ea [.migrating] i = true ∧ p = ⟨pageOf (ea i), true⟩)) ∧
      (∀ f, f ∈ u.ent.heldAt ↔ ∃ i < s.grp.width, s.heldUp n ea i = true ∧
        f = ⟨pageOf (ea i), ea i, laneMask (fun j => s.heldUp n ea j && decide (pageOf (ea j) = pageOf (ea i))) 64⟩) ∧
      (∃ t, FaultsReported s.team.ctx s t ∧ u = { t with ent := { s.ent with status := .faultwait, held := u.ent.held, heldFetch := false, heldAt := u.ent.heldAt } } ∧
        ((∀ i < s.grp.width, s.failing n ea [.invalid] i = false) → t = s) ∧
        (s.slotCount s.arbour + 64 ≤ 256 → ∀ f, f ∈ t.dev.slots ↔ f ∈ s.dev.slots ∨ ∃ i < s.grp.width, s.failing n ea [.invalid] i = true ∧ f = ⟨s.arbour, s.team.ctx, pageOf (ea i)⟩)) := by
  rw [h.pagesOf]
  set lanes := s.activeLanes.filter (s.heldUp n ea) with hl
  set pages := lanes.map fun i => (decide (s.xlate n (ea i) = .error .migrating), pageOf (ea i), (ea i).toNat) with hp
  have hr := FaultsReported.foldl (fun t x ht => State.reportPage_reports kind (Machine.lanesAt (s.picked ea (s.heldUp n ea))) t x _ ht) pages s rfl
  have hent : (pages.foldl (State.reportPage kind (Machine.lanesAt (s.picked ea (s.heldUp n ea)))) s).ent = s.ent := by rw [hr.frame]
  refine ⟨_, rfl, fun p => ?_, fun f => ?_, _, hr, ?_, fun hn => ?_, fun hs f => ?_⟩
  · refine List.mem_eraseDups.trans ?_
    simp only [hp, hl, List.map_map, List.mem_map, Function.comp, State.mem_heldLanes, State.heldUp_invalid, State.heldUp_migrating]
    constructor
    · rintro ⟨i, ⟨hi, hh⟩, rfl⟩
      refine ⟨i, hi, ?_⟩
      cases hm : decide (s.xlate n (ea i) = .error .migrating)
      · exact .inl ⟨⟨hh, rfl⟩, rfl⟩
      · exact .inr ⟨⟨hh, rfl⟩, rfl⟩
    · rintro ⟨i, hi, ⟨⟨hh, hm⟩, rfl⟩ | ⟨⟨hh, hm⟩, rfl⟩⟩ <;> exact ⟨i, ⟨hi, hh⟩, by rw [hm]⟩
  · change f ∈ pages.map _ ↔ _
    simp only [hp, hl, List.map_map, List.mem_map, Function.comp, State.mem_heldLanes, h.lanesAt, BitVec.ofNat_toNat, BitVec.setWidth_eq, and_assoc, eq_comm]
  · unfold State.setEnt
    dsimp only
    rw [hent]
  · refine State.reportPages_none _ _ fun x hx => ?_
    obtain ⟨i, hi, rfl⟩ := List.mem_map.1 hx
    obtain ⟨hi, hh⟩ := State.mem_heldLanes.1 hi
    by_contra hm
    exact absurd (State.heldUp_invalid.2 ⟨hh, by simpa using hm⟩) (Bool.eq_false_iff.1 (hn i hi))
  · have hlen : pages.length ≤ 64 := by
      rw [hp, List.length_map]
      exact ((List.length_filter_le _ _).trans s.activeLanes_length).trans hw
    rw [State.reportPages_slots _ _ _ s (by omega)]
    simp only [hp, hl, List.mem_map, State.mem_heldLanes, State.heldUp_invalid]
    refine or_congr .rfl ⟨?_, ?_⟩
    · rintro ⟨_, ⟨i, ⟨hi, hh⟩, rfl⟩, hm, rfl⟩
      exact ⟨i, hi, ⟨hh, hm⟩, rfl⟩
    · rintro ⟨i, hi, ⟨hh, hm⟩, rfl⟩
      exact ⟨_, ⟨i, ⟨hi, hh⟩, rfl⟩, hm, rfl⟩

end WordAccesses

/-! ### Word forms -/

/-- What LDW and STW run once their operands are settled. -/
theorem exec_wordForm {s : State} {h x : BitVec 2} {e : BitVec 4} {o : BitVec 8} {d : BitVec 7} {i : Instr} {n : Need}
    (hi : (i = .ldw h x e o d ∧ n = { r := true } ∧ s.RunReady d 1 ∧ s.MemReady .vm (some e) [o]) ∨
      (i = .stw h x e o d ∧ n = { w := true } ∧ s.storeBad d 1 = false ∧ s.MemReady .vm (some e) (o :: (List.range 1).map (codePlus (d.setWidth 8)))))
    (ho : s.srcBad o = false) : ∃ kind what f, exec i s = commit 4 s (s.access n 4 false kind 8 (s.accesses 4 (s.ea x e o)) what f) := by
  rcases hi with ⟨rfl, rfl, hr, hm⟩ | ⟨rfl, rfl, hb, hm⟩
  · have hd : (s.ld1 d).bad = false := by
      rcases hr.named with h | ⟨-, h⟩
      · simp [State.ld1, State.dBad, h]
      · simp [State.ld1, State.dBad]
        omega
    rw [exec_ldw]
    unfold execLdw State.load
    simp only [hd, ho, Bool.false_eq_true, if_false]
    rw [State.ready_settled hm _ _ (State.RunReady.pending (n := (s.ld1 d).regs) hr)]
    exact ⟨_, _, _, rfl⟩
  · rw [exec_stw]
    unfold execStw State.storeForm
    simp only [hb, ho, Bool.false_eq_true, if_false]
    rw [State.ready_ok hm]
    exact ⟨_, _, _, rfl⟩

theorem State.access_bad {s : State} {n : Need} {align kind g : Nat} {uni : Bool} {as : List Access} {what : Nat → Nat → Nat → AccessKind} {f : State → List Todo → List RemoteUse → Issue}
    {i : Issue} (h : s.check n align uni kind as = .bad i) : s.access n align uni kind g as what f = i := by
  unfold State.access
  rw [h]

theorem commit_trapHere {s : State} {c : TrapCode} (h : c ≠ .xlateFault) (data : Word) (lanes : Mask) (addr : VAddr) (len : Nat) :
    commit len s (.trap (s.trapHere c data lanes addr)) = .next (s.takeTrap (s.trapHere c data lanes addr)) := by
  unfold commit
  dsimp only
  rw [State.malformedRecord, if_neg (show (s.trapHere c data lanes addr).code ≠ .xlateFault from h)]

section WordAccesses
variable {s : State} {n : Need} {ea : Nat → VAddr}

theorem State.failing_one (f : XFail) : s.failing n ea [f] = fun i => s.active i && decide (s.xlate n (ea i) = .error f) := by
  funext i
  simp [State.failing]

theorem State.failing_two (f g : XFail) : s.failing n ea [f, g] = fun i => s.failing n ea [f] i || s.failing n ea [g] i := by
  funext i
  simp [State.failing, Bool.and_or_distrib_left]

theorem State.picked_ne_nil {fs : List XFail} (h : ¬ ∀ i < s.grp.width, s.failing n ea fs i = false) : s.picked ea (s.failing n ea fs) ≠ [] :=
  fun k => h ((State.picked_eq_nil State.failing_active).1 k)

/-- TDATA of an ACCESS_FAULT names a missing route where the first lane that fails has none. -/
theorem State.Walked.routeData (h : s.Walked n ea) (hne : s.picked ea (s.failing n ea [.access, .noRoute]) ≠ []) : s.routeData n (s.picked ea (s.failing n ea [.access, .noRoute])) =
    if (s.activeLanes.find? (s.failing n ea [.access, .noRoute])).map (fun i => s.xlate n (ea i)) = some (.error .noRoute) then 0x6FF else 0 := by
  obtain ⟨i, l, f, hl, hf, hfs, hx, hfail⟩ := h.first hne
  rw [hl, hf, State.routeData, hfail, Option.map_some, hx]
  simp only [List.mem_cons, List.not_mem_nil, or_false] at hfs
  rcases hfs with rfl | rfl <;> rfl

end WordAccesses

/-- Settles O40: the checks in the order of R171, by `State.check_misaligned` and `State.Walked.check`, and the wait by `State.Walked.held`. -/
theorem accessFaults : Obligations.AccessFaults := by
  intro s h x e o d i n hi ho ea xlate mis bad none_ first traps hsound
  obtain ⟨kind, what, f, hexec⟩ := exec_wordForm hi ho
  have hends {r : Issue} (hc : s.check n 4 false kind (s.accesses 4 ea) = .bad r) : exec i s = commit 4 s r := hexec.trans (congrArg _ (State.access_bad hc))
  have hbad (f : XFail) : s.failing n ea [f] = bad f := State.failing_one f
  have hw (hm : none_ mis) : s.Walked n ea := ⟨hm, by rw [hbad]; exact hsound.resolve_right (not_not_intro hm)⟩
  have hnil {fs : List XFail} (hf : none_ (s.failing n ea fs)) : s.picked ea (s.failing n ea fs) = [] := (State.picked_eq_nil State.failing_active).2 hf
  refine ⟨fun hm => ?_, fun hm hmal => ?_, fun hm hmal => ?_⟩
  · simp only [none_, not_forall, Bool.not_eq_false] at hm
    obtain ⟨j, hj, hmj⟩ := hm
    exact (hends (State.check_misaligned hj hmj)).trans (commit_trapHere (by decide) ..)
  · have hc := (hw hm).check kind
    dsimp only at hc
    rw [if_pos (State.picked_ne_nil (by rw [hbad]; exact hmal)), hbad] at hc
    exact hends hc
  · have hc := (hw hm).check kind
    dsimp only at hc
    rw [if_neg (not_not_intro (hnil (by rw [hbad]; exact hmal)))] at hc
    intro acc
    have hacc : s.failing n ea [.access, .noRoute] = acc := by rw [State.failing_two, hbad, hbad]
    refine ⟨fun ha => ?_, fun ha hp => ?_, fun hwidth ha hp hheld => ?_⟩
    · have hne := State.picked_ne_nil (fs := [.access, .noRoute]) (by rw [hacc]; exact ha)
      rw [if_pos hne, (hw hm).routeData hne, hacc] at hc
      exact (hends hc).trans (commit_trapHere (by decide) ..)
    · rw [if_neg (not_not_intro (hnil (by rw [hacc]; exact ha))), if_pos (State.picked_ne_nil (by rw [hbad]; exact hp)), hbad] at hc
      exact (hends hc).trans (commit_trapHere (by decide) ..)
    · have hrep : s.failing n ea [.invalid, .migrating] = fun i => bad .invalid i || bad .migrating i := by rw [State.failing_two, hbad, hbad]
      have hne := State.picked_ne_nil (s := s) (n := n) (ea := ea) (fs := [.invalid, .migrating]) fun k => hheld ⟨fun i hi => ?a, fun i hi => ?b⟩
      case a => have := k i hi; rw [hrep] at this; exact (Bool.or_eq_false_iff.1 this).1
      case b => have := k i hi; rw [hrep] at this; exact (Bool.or_eq_false_iff.1 this).2
      rw [if_neg (not_not_intro (hnil (by rw [hacc]; exact ha))), if_neg (not_not_intro (hnil (by rw [hbad]; exact hp))), if_pos hne] at hc
      obtain ⟨u, hu, hh, hat, t, ht, hut, hnone, hslots⟩ := (hw hm).held hwidth kind 4
      refine ⟨u, ?_⟩
      intro page rep log slot
      refine ⟨(hends hc).trans hu, ?_, ?_, ?_, ?_, ?_, ?_, ?_⟩
      · rw [hbad, hbad] at hh
        exact hh
      · rw [State.heldUp, hrep] at hat
        exact hat
      · rw [hut, ht.frame]
      · rw [hut]
        intro a ha
        refine ht.log a (ha.imp_right fun k => ?_)
        exact k
      · rw [hut]
        exact ht.ctxs
      · intro hn
        rw [hut, hnone (by rw [hbad]; exact hn)]
      · rw [hbad] at hslots
        rw [hut]
        exact hslots

end Sys2Proof.Machine

namespace Sys2Proof.Machine
open Sys2Proof

/-! ## One access of an operation (R147 to R150) -/

theorem State.doAccess_grp (s : State) (a : Todo) : (s.doAccess a).1.grp = s.grp := congrArg (fun r : State × Option (List Byte) => r.1.grp) (s.doAccess_group s.grp a)

theorem Group.blocked_iff (g : Group) (o : Op) (a : Todo) : g.blocked o a = true ↔ ∃ y ∈ g.ops, y.id ∈ o.after ∧ ∃ b ∈ y.todo, a.meets b = true := by
  simp only [Group.blocked, List.any_eq_true, Bool.and_eq_true, List.contains_iff_mem]

section Perform
variable {s : State} {op k : Nat} {o : Op} {a : Todo} (ho : (s.grp.ops.find? fun x => x.id = op) = some o) (ha : o.todo[k]? = some a)
include ho ha

theorem State.perform_blocked (h : s.grp.blocked o a = true) : s.perform op k = none := by
  unfold State.perform
  rw [ho, Option.bind_some, ha, Option.bind_some, if_pos h]

/-- An access that nothing holds takes effect, and what it returns goes to its operation. -/
theorem State.perform_eq (h : s.grp.blocked o a = false) {t : State} {r : Option (List Byte)} (hr : s.doAccess a = (t, r)) :
    s.perform op k = some { t with grp := { s.grp with ops := s.grp.ops.map fun y => if y.id = op then ({ o with todo := o.todo.eraseIdx k } : Op).returned a r else y } } := by
  have hg := s.doAccess_grp a
  unfold State.perform Op.returned
  rw [hr] at hg
  rw [ho, Option.bind_some, ha, Option.bind_some, if_neg (by rw [h]; decide), hr]
  dsimp only at hg ⊢
  rw [hg]

end Perform

/-- What an operation takes of the bytes read, destination by destination. -/
theorem Op.took_eq (o : Op) (ps : List Part) (bs : List Byte) :
    o.took ps bs = { o with fills := o.fills.map fun (f : Fill) => { f with val := (ps.filter fun p => p.dest = f.dest).foldl (fun v p => v ||| p.value bs) f.val } } := by
  simp only [Op.took, parts_foldl_filter]

theorem Op.took_nil (o : Op) (bs : List Byte) : o.took [] bs = o := by
  unfold Op.took
  simp

/-- What an error leaves of an operation's results (R176). -/
theorem Op.met_fills (o : Op) (a : Todo) : (o.met a).fills = o.fills.map fun (f : Fill) => { f with val := if ∃ p ∈ a.what.parts, p.dest = f.dest then 0 else f.val } := by
  unfold Op.met
  dsimp only
  refine List.map_congr_left fun f _ => ?_
  simp only [List.contains_iff_mem, List.mem_map]
  split <;> rfl

theorem State.doAccess_rmw (s : State) {a : Todo} {f : BitVec 64 → BitVec 64} (h : s.doAccess a = s.rmw a f) {bs : List Byte} (hr : s.todoRead a = some bs) :
    s.doAccess a = (s.todoWrite a (leBytes (f (BitVec.ofNat 64 (leNat bs))).toNat a.size), some bs) := by
  rw [h, State.rmw, hr]

theorem State.doAccess_store (s : State) {a : Todo} {bs : List Byte} (h : a.what = .store bs) : s.doAccess a = (s.todoWrite a bs, some []) := by
  unfold State.doAccess
  rw [h]

/-- A read that meets an uncorrectable error returns nothing and leaves the storage. -/
theorem State.doAccess_error (s : State) {a : Todo} (hs : ∀ bs, a.what ≠ .store bs) (hb : a.what ≠ .barInit) (hr : s.todoRead a = none) : s.doAccess a = (s, none) := by
  have hrmw (f : BitVec 64 → BitVec 64) : s.rmw a f = (s, none) := by rw [State.rmw, hr]
  unfold State.doAccess
  cases h : a.what with
  | load ps => exact Prod.ext rfl hr
  | store bs => exact absurd h (hs bs)
  | atom x v ps => exact hrmw _
  | cas e v ps => exact hrmw _
  | barInit => exact absurd h hb

/-! ## Completing an operation (R114, R138) -/

/-- The last of some fills that p selects, as f gives its value; x where there is none. -/
def lastFill {α : Type} (p : Fill → Bool) (f : Fill → α) (l : List Fill) (x : α) : α := l.foldl (fun x k => if p k then f k else x) x

/-- A part of the group that one fill sets where p selects it, and that is kept else. -/
theorem fills_last {α : Type} {op : Nat} {π : Group → α} {p : Fill → Bool} {f : Fill → α} (h : ∀ g k, π (Group.fill g op k) = if p k then f k else π g) :
    ∀ (l : List Fill) (g : Group), π (l.foldl (fun g f => g.fill op f) g) = lastFill p f l (π g) := by
  intro l
  induction l with
  | nil => exact fun g => rfl
  | cons k l ih =>
    intro g
    rw [List.foldl_cons, ih, h]
    rfl

/-! ### One fill -/

section Fill
variable (g : Group) (op : Nat) (f : Fill)

theorem Group.lane_putAt (g : Group) (i k : Nat) (x : Lane) : Group.lane { g with lanes := putAt {} g.lanes i x } k = if k = i then x else g.lane k := getD_putAt _ _ _ _ _

theorem Group.lane_setSAt (g : Group) (i k : Nat) (x : Word) : (g.setSAt i x).lane k = g.lane k := by
  rw [g.setSAt_frame i x]
  rfl

theorem Group.fill_reg (k r : Nat) : ((g.fill op f).lane k).reg r = if decide (f.dest = .v k r) then f.val.setWidth 32 else (g.lane k).reg r := by
  obtain ⟨d, x⟩ := f
  cases d with
  | v i j =>
    simp only [Group.fill, Group.lane_putAt, Dest.v.injEq, decide_eq_true_eq]
    by_cases hi : k = i
    · subst hi
      simp [eq_comm]
    · rw [if_neg hi, if_neg fun h => hi h.1.symm]
  | q i w =>
    simp only [Group.fill, Group.lane_putAt]
    split
    · next h => rw [h]; rfl
    · rfl
  | s i => simp only [Group.fill, Group.lane_setSAt]; rfl
  | b i => rfl
  | epi i => rfl

/-- Whether a position of lane k's queue awaits a fill of an operation (R114). -/
def QEntry.awaits (op k : Nat) (e : QEntry) (f : Fill) : Bool :=
  match e.tag, f.dest with
  | some (n, w), .q j v => decide (n = op ∧ j = k ∧ v = w)
  | _, _ => false

/-- The position after the fill. -/
def fillEntry (op k : Nat) (f : Fill) (e : QEntry) : QEntry := if e.awaits op k f then { val := f.val.setWidth 32, tag := none } else e

theorem QEntry.awaits_none {op k : Nat} {e : QEntry} (h : e.tag = none) (f : Fill) : e.awaits op k f = false := by
  rw [QEntry.awaits, h]

theorem QEntry.awaits_other {op k : Nat} {f : Fill} (h : ∀ w, f.dest ≠ .q k w) (e : QEntry) : e.awaits op k f = false := by
  unfold QEntry.awaits
  split
  · next n w j v _ hd => exact decide_eq_false fun hk => h v (by rw [hd, hk.2.1])
  · rfl

theorem QEntry.awaits_q (op k w : Nat) (x : VAddr) (e : QEntry) : e.awaits op k ⟨.q k w, x⟩ = decide (e.tag = some (op, w)) := by
  rw [Bool.eq_iff_iff, decide_eq_true_eq]
  unfold QEntry.awaits
  cases e.tag with
  | none => simp
  | some y => simp [Prod.ext_iff, eq_comm (a := w)]

theorem Group.fill_queue (k : Nat) : ((g.fill op f).lane k).q = (g.lane k).q.map (fillEntry op k f) := by
  have keeps (h : ∀ w, f.dest ≠ .q k w) : (g.lane k).q.map (fillEntry op k f) = (g.lane k).q := by
    conv_rhs => rw [← List.map_id (g.lane k).q]
    exact List.map_congr_left fun e _ => by rw [fillEntry, QEntry.awaits_other h]; rfl
  obtain ⟨d, x⟩ := f
  cases d with
  | q i w =>
    simp only [Group.fill, Group.lane_putAt]
    by_cases hi : k = i
    · subst hi
      rw [if_pos rfl]
      exact List.map_congr_left fun e _ => by rw [fillEntry, QEntry.awaits_q]; simp only [decide_eq_true_eq]
    · rw [if_neg hi, keeps fun v h => hi (by simpa using h : i = k ∧ w = v).1.symm]
  | v i r =>
    rw [keeps (by simp)]
    simp only [Group.fill, Group.lane_putAt]
    split
    · next h => rw [h]; rfl
    · rfl
  | s i => rw [keeps (by simp)]; simp only [Group.fill, Group.lane_setSAt]
  | b i => rw [keeps (by simp)]; rfl
  | epi i => rw [keeps (by simp)]; rfl

theorem Group.fill_pred (k : Nat) : ((g.fill op f).lane k).p = (g.lane k).p ∧ ((g.fill op f).lane k).use = (g.lane k).use := by
  obtain ⟨d, x⟩ := f
  cases d with
  | q i w | v i r =>
    simp only [Group.fill, Group.lane_putAt]
    split
    · next h => rw [h]; exact ⟨rfl, rfl⟩
    · exact ⟨rfl, rfl⟩
  | s i => simp only [Group.fill, Group.lane_setSAt, and_self]
  | b i => exact ⟨rfl, rfl⟩
  | epi i => exact ⟨rfl, rfl⟩

theorem Group.fill_s (k : Nat) : (g.fill op f).sAt k = if decide (f.dest = .s k) then f.val.setWidth 32 else g.sAt k := by
  obtain ⟨d, x⟩ := f
  cases d with
  | s i => simp only [Group.fill, Group.sAt_setSAt, Dest.s.injEq, decide_eq_true_eq, eq_comm (a := k)]
  | _ => rfl

theorem Group.fill_b (k : Nat) : (g.fill op f).b.getD k 0 = if decide (f.dest = .b k) then f.val else g.b.getD k 0 := by
  obtain ⟨d, x⟩ := f
  cases d with
  | b i => simp only [Group.fill, getD_putAt, Dest.b.injEq, decide_eq_true_eq, eq_comm (a := k)]
  | s i => simp only [Group.fill]; rw [g.setSAt_frame]; rfl
  | _ => rfl

theorem Group.fill_epi (k : Nat) : (g.fill op f).epi.getD k 0 = if decide (f.dest = .epi k) then f.val.setWidth 32 else g.epi.getD k 0 := by
  obtain ⟨d, x⟩ := f
  cases d with
  | epi i => simp only [Group.fill, getD_putAt, Dest.epi.injEq, decide_eq_true_eq, eq_comm (a := k)]
  | s i => simp only [Group.fill]; rw [g.setSAt_frame]; rfl
  | _ => rfl

/-- t is g but for what fills and completions write. -/
def ResultsOnly (g t : Group) : Prop := t = { g with lanes := t.lanes, s := t.s, hbank := t.hbank, b := t.b, epi := t.epi, ops := t.ops }

theorem ResultsOnly.trans {g t u : Group} (h : ResultsOnly g t) (k : ResultsOnly t u) : ResultsOnly g u := by
  unfold ResultsOnly at *
  rw [k, h]

theorem Group.fill_only : ResultsOnly g (g.fill op f) := by
  unfold Group.fill
  cases f.dest with
  | s i => dsimp only; rw [g.setSAt_frame]; rfl
  | _ => rfl

theorem Group.fill_ops : (g.fill op f).ops = g.ops := by
  unfold Group.fill
  cases f.dest with
  | s i => dsimp only; rw [g.setSAt_frame]
  | _ => rfl

end Fill

/-! ### The fills of an operation, one after the other -/

section Fills
variable (op : Nat)

/-- The fills fs of operation op, written in order. -/
def Group.fillAll (g : Group) (fs : List Fill) : Group := fs.foldl (fun g f => g.fill op f) g

theorem Group.fillAll_only (fs : List Fill) : ∀ g : Group, ResultsOnly g (g.fillAll op fs) := by
  induction fs with
  | nil => exact fun g => rfl
  | cons f fs ih => exact fun g => (g.fill_only op f).trans (ih _)

theorem Group.fillAll_ops (fs : List Fill) : ∀ g : Group, (g.fillAll op fs).ops = g.ops := by
  induction fs with
  | nil => exact fun g => rfl
  | cons f fs ih => exact fun g => (ih _).trans (g.fill_ops op f)

theorem Group.fillAll_pred (k : Nat) (fs : List Fill) : ∀ g : Group, ((g.fillAll op fs).lane k).p = (g.lane k).p ∧ ((g.fillAll op fs).lane k).use = (g.lane k).use := by
  induction fs with
  | nil => exact fun g => ⟨rfl, rfl⟩
  | cons f fs ih =>
    intro g
    obtain ⟨hp, hu⟩ := ih (g.fill op f)
    obtain ⟨kp, ku⟩ := g.fill_pred op f k
    exact ⟨hp.trans kp, hu.trans ku⟩

/-- A queue position takes the first fill that it awaits: its tag is gone after it. -/
theorem Group.fillAll_queue (k : Nat) (fs : List Fill) : ∀ g : Group, ((g.fillAll op fs).lane k).q = (g.lane k).q.map fun e =>
    match fs.find? (e.awaits op k) with
    | some f => { val := f.val.setWidth 32, tag := none }
    | none => e := by
  induction fs with
  | nil => exact fun g => (List.map_id _).symm
  | cons f fs ih =>
    intro g
    show (((g.fill op f).fillAll op fs).lane k).q = _
    rw [ih, g.fill_queue, List.map_map]
    refine List.map_congr_left fun e _ => ?_
    rw [Function.comp, fillEntry, List.find?_cons]
    cases e.awaits op k f with
    | true =>
      rw [if_pos rfl, List.find?_eq_none.2 fun x _ => by rw [QEntry.awaits_none rfl]; decide]
    | false => rw [if_neg (by decide)]

end Fills

/-! ### The report (R138) -/

/-- The operations of one path that are left: none where an older one is not done, else those from the first that is not. -/
theorem reportDone_path (p : Path) : ∀ (l : List Op) (blocked : List Path), (reportDone blocked l).filter (fun x => x.path = some p) =
    if p ∈ blocked then l.filter fun x => x.path = some p else (l.filter fun x => x.path = some p).dropWhile Op.done := by
  intro l
  induction l with
  | nil => intro blocked; simp [reportDone]
  | cons o l ih =>
    intro blocked
    unfold reportDone
    cases hp : o.path with
    | none =>
      dsimp only
      split <;> simp [hp, ih]
    | some q =>
      dsimp only
      by_cases hq : q = p
      · subst hq
        by_cases hb : q ∈ blocked <;> cases hd : o.done <;> simp [hp, hb, hd, ih]
      · split <;> simp [hp, hq, ih, Ne.symm hq]

/-- A finished operation of no path is reported at once. -/
theorem reportDone_free : ∀ (l : List Op) (blocked : List Path), (reportDone blocked l).filter (fun x => x.path = none) = l.filter fun x => x.path = none && !x.done := by
  intro l
  induction l with
  | nil => intro blocked; rfl
  | cons o l ih =>
    intro blocked
    unfold reportDone
    cases hp : o.path with
    | none => cases hd : o.done <;> simp [hp, hd, ih]
    | some q =>
      dsimp only
      split <;> simp [hp, ih]

/-! ### Completion -/

/-- The operations of the group with operation id done. -/
def Group.opDone (g : Group) (id : Nat) : List Op := g.ops.map fun x => if x.id = id then { x with done := true, fills := [], todo := [] } else x

theorem Group.complete_eq {g : Group} {id : Nat} {o : Op} (h : (g.ops.find? fun x => x.id = id) = some o) :
    g.complete id = { g.fillAll id o.fills with ops := reportDone [] (g.opDone id) } := by
  unfold Group.complete
  rw [h]
  show ({ g.fillAll id o.fills with ops := reportDone [] ((g.fillAll id o.fills).opDone id) } : Group) = _
  rw [Group.opDone, Group.fillAll_ops]
  rfl

theorem Group.complete_only {g : Group} {id : Nat} {o : Op} (h : (g.ops.find? fun x => x.id = id) = some o) : ResultsOnly g (g.complete id) := by
  rw [g.complete_eq h]
  have k := g.fillAll_only id o.fills
  unfold ResultsOnly at k ⊢
  rw [k]

/-! ### What is left is performed first -/

theorem Op.returned_fills_length (o : Op) (a : Todo) (r : Option (List Byte)) : (o.returned a r).fills.length = o.fills.length := by
  cases r with
  | none => rw [Op.returned, Op.met_fills, List.length_map]
  | some bs => rw [Op.returned, Op.took_eq, List.length_map]

theorem State.perform_find {s u : State} {op k : Nat} {o : Op} (ho : (s.grp.ops.find? fun x => x.id = op) = some o) (h : s.perform op k = some u) :
    ∃ x, (u.grp.ops.find? fun x => x.id = op) = some x ∧ x.fills.length = o.fills.length := by
  cases ha : o.todo[k]? with
  | none => simp [State.perform, ho, ha] at h
  | some a =>
    cases hb : s.grp.blocked o a with
    | true => rw [State.perform_blocked ho ha hb] at h; exact absurd h (by simp)
    | false =>
      obtain ⟨t, r, hr⟩ : ∃ t r, s.doAccess a = (t, r) := ⟨_, _, rfl⟩
      rw [State.perform_eq ho ha hb hr] at h
      obtain rfl := Option.some.inj h
      have hid : o.id = op := by simpa using List.find?_some ho
      refine ⟨({ o with todo := o.todo.eraseIdx k } : Op).returned a r, ?_, Op.returned_fills_length _ _ _⟩
      dsimp only
      generalize hx : ({ o with todo := o.todo.eraseIdx k } : Op).returned a r = x
      have hxi : x.id = op := by rw [← hx, Op.returned_id]; exact hid
      rw [List.find?_map]
      have hp : ((fun x : Op => decide (x.id = op)) ∘ fun y => if y.id = op then x else y) = fun y => decide (y.id = op) := by
        funext y
        by_cases hy : y.id = op <;> simp [hy, hxi]
      rw [hp, ho, Option.map_some, if_pos hid]

theorem State.performN_find {op : Nat} : ∀ (n : Nat) {s u : State} {o : Op}, (s.grp.ops.find? fun x => x.id = op) = some o → s.performN n op = some u →
    ∃ x, (u.grp.ops.find? fun x => x.id = op) = some x ∧ x.fills.length = o.fills.length := by
  intro n
  induction n with
  | zero => exact fun {s u o} ho h => ⟨o, by rw [← Option.some.inj h]; exact ho, rfl⟩
  | succ n ih =>
    intro s u o ho h
    obtain ⟨t, ht, hu⟩ := Option.bind_eq_some_iff.1 h
    obtain ⟨y, hy, hl⟩ := State.perform_find ho ht
    obtain ⟨x, hx, hk⟩ := ih hy hu
    exact ⟨x, hx, hk.trans hl⟩

/-! ### The report of a poisoned load (R176) -/

/-- The one of two lanes with their addresses that is lower. -/
def lowerLane (b x : Nat × VAddr) : Nat × VAddr := if x.1 < b.1 then x else b

theorem lowerLane_le (b x : Nat × VAddr) : (lowerLane b x).1 ≤ b.1 ∧ (lowerLane b x).1 ≤ x.1 := by
  unfold lowerLane
  split <;> omega

theorem foldl_lowerLane (l : List (Nat × VAddr)) : ∀ b, l.foldl lowerLane b ∈ b :: l ∧ ∀ x ∈ b :: l, (l.foldl lowerLane b).1 ≤ x.1 := by
  induction l with
  | nil => exact fun b => ⟨List.mem_cons_self, by simp⟩
  | cons y l ih =>
    intro b
    obtain ⟨hm, hl⟩ := ih (lowerLane b y)
    have hy := lowerLane_le b y
    have hb := hl _ List.mem_cons_self
    refine ⟨?_, fun x hx => ?_⟩
    · rcases List.mem_cons.1 hm with h | h
      · rw [List.foldl_cons, h, lowerLane]
        split <;> simp
      · exact List.mem_cons_of_mem _ (List.mem_cons_of_mem _ h)
    · rcases List.mem_cons.1 hx with rfl | hx
      · exact Nat.le_trans hb hy.1
      · rcases List.mem_cons.1 hx with rfl | hx
        · exact Nat.le_trans hb hy.2
        · exact hl x (List.mem_cons_of_mem _ hx)

/-- The address reported is that of the lowest of the lanes. -/
theorem lowestLane_spec {l : List (Nat × VAddr)} (h : l ≠ []) : ∃ i, (i, lowestLane l) ∈ l ∧ ∀ x ∈ l, i ≤ x.1 := by
  obtain ⟨b, l, rfl⟩ := List.exists_cons_of_ne_nil h
  obtain ⟨hm, hl⟩ := foldl_lowerLane (b :: l) b
  refine ⟨((b :: l).foldl lowerLane b).1, ?_, fun x hx => hl x (List.mem_cons_of_mem _ hx)⟩
  show (b :: l).foldl lowerLane b ∈ b :: l
  rcases List.mem_cons.1 hm with h | h
  · rw [h]
    exact List.mem_cons_self
  · exact h

theorem State.focusEnt_grp {s t : State} {n : Nat} (h : s.focusEnt n = some t) : t.grp = { s.grp with sibs := t.grp.sibs } := by
  unfold State.focusEnt at h
  split at h
  · rw [← Option.some.inj h]
  · split at h
    · rw [← Option.some.inj h]
    · exact absurd h (by simp)

theorem State.recordOpen_front (s : State) (c : Nat) (r : Rec) : (s.recordOpen c r).grp = s.grp ∧ (s.recordOpen c r).ent = s.ent := by
  have h : RecordsOnly s.free.2 (s.recordOpen c r) := s.free.2.record_only c _
  rw [h]
  exact ⟨rfl, rfl⟩

theorem State.reportPoison_grp (s : State) (o : Op) : (s.reportPoison o).grp = { s.grp with sibs := (s.reportPoison o).grp.sibs } := by
  unfold State.reportPoison
  split
  · rfl
  · dsimp only
    split
    · next t ht =>
      show t.grp = _
      rw [State.focusEnt_grp ht, (State.recordOpen_front _ _ _).1]
      rfl
    · rw [(State.recordOpen_front _ _ _).1]

/-- The state in which an operation's fills are written and its report is made. -/
def State.completed (s : State) (o : Op) : State := { s with grp := s.grp.complete o.id }

theorem State.finishOp_grp (s : State) (o : Op) : (s.finishOp o).grp = { s.grp.complete o.id with sibs := (s.finishOp o).grp.sibs } := by
  unfold State.finishOp
  dsimp only
  split <;> exact (s.completed o).reportPoison_grp o

theorem State.finishOp_clean (s : State) {o : Op} (hu : o.uses = []) (hp : o.poisoned = []) : s.finishOp o = s.completed o := by
  rw [State.finishOp, if_pos hu, State.reportPoison, if_pos hp]
  rfl

/-- The trap that reports an operation's errors (R176). -/
def Op.poisonTrap (o : Op) : Trap := { code := .dataPoison, addr := lowestLane o.poisoned, fault := (lowestLane o.poisoned).setWidth 32, lanes := laneMask (fun i => o.poisoned.any fun x => x.1 = i) 64 }

/-- The record of KIND 0x05 that reports them. -/
def State.poisonRecord (s : State) (o : Op) : Rec :=
  { kind := 5, code := 0, addr := lowestLane o.poisoned, launch := s.team.launch, lanes := laneMask (fun i => o.poisoned.any fun x => x.1 = i) 64, queue := s.team.queue, core := s.core.num, part := s.grp.loc.part }

theorem State.finishOp_poisoned (s : State) {o : Op} (hu : o.uses = []) (hp : o.poisoned ≠ []) (he : o.ent = s.ent.num) :
    s.finishOp o = ((s.completed o).recordOpen s.team.ctx ((s.completed o).poisonRecord o)).setEnt fun e => { e with deferred := e.deferred ++ [o.poisonTrap] } := by
  have hf : ((s.completed o).recordOpen s.team.ctx ((s.completed o).poisonRecord o)).focusEnt o.ent = some ((s.completed o).recordOpen s.team.ctx ((s.completed o).poisonRecord o)) := by
    rw [State.focusEnt, if_pos]
    rw [(State.recordOpen_front _ _ _).2, he]
    rfl
  rw [State.finishOp, if_pos hu]
  show (s.completed o).reportPoison o = _
  rw [State.reportPoison, if_neg hp]
  dsimp only
  generalize hx : (s.completed o).recordOpen s.team.ctx ((s.completed o).poisonRecord o) = x at hf ⊢
  show (match ((s.completed o).recordOpen s.team.ctx ((s.completed o).poisonRecord o)).focusEnt o.ent with | some s => _ | none => _) = _
  rw [hx, hf]
  rfl

/-! ### The completion events -/

section Due
variable {s t : State} {g : GLoc} {op : Nat} {o₀ : Op} (hg : s.focusGroup g = some t) (ho : (t.grp.ops.find? fun x => x.id = op) = some o₀)

include hg in
theorem State.dueOp_held (h : t.performAll op = none) : s.dueOp g op = none := by
  rw [State.dueOp, hg, Option.bind_some, h]
  cases t.grp.ops.find? fun o => o.id = op && !o.done && o.auto <;> rfl

include hg ho in
theorem State.dueOp_some (hd : o₀.done = false) (ha : o₀.auto = true) {u : State} {o : Op} (h : t.performAll op = some u) (hu : (u.grp.ops.find? fun x => x.id = op) = some o) :
    s.dueOp g op = some (u, o) := by
  obtain ⟨hid, as, bs, hl, has⟩ := List.find?_eq_some_iff_append.1 ho
  have hf : (t.grp.ops.find? fun o => o.id = op && !o.done && o.auto) = some o₀ := by
    refine List.find?_eq_some_iff_append.2 ⟨by simpa [hd, ha] using hid, as, bs, hl, fun a m => ?_⟩
    have := has a m
    simp_all
  rw [State.dueOp, hg, Option.bind_some, hf, Option.bind_some, h, Option.bind_some, hu]
  rfl

include ho in
theorem State.performAll_fills {u : State} {o : Op} (h : t.performAll op = some u) (hu : (u.grp.ops.find? fun x => x.id = op) = some o) : o.fills.length = o₀.fills.length := by
  rw [State.performAll, ho] at h
  obtain ⟨x, hx, hl⟩ := State.performN_find _ ho h
  rw [← Option.some.inj (hu.symm.trans hx)] at hl
  exact hl

include hg ho in
theorem exec_completion (hd : o₀.done = false) (ha : o₀.auto = true) {i : Instr} (hi : (i = .loadFill g op ∧ o₀.fills ≠ []) ∨ (i = .pathOpComplete g op ∧ o₀.fills = [])) :
    (t.performAll op = none → exec i s = .refused .notDue) ∧
    ∀ u o, t.performAll op = some u → (u.grp.ops.find? fun x => x.id = op) = some o → exec i s = .next (u.finishOp o) := by
  refine ⟨fun h => ?_, fun u o h hu => ?_⟩
  · rcases hi with ⟨rfl, -⟩ | ⟨rfl, -⟩
    · show execLoadFill g op s = _
      rw [execLoadFill, State.dueOp_held hg h]
    · show execPathOpComplete g op s = _
      rw [execPathOpComplete, State.dueOp_held hg h]
  · have hl := State.performAll_fills ho h hu
    have hdue := State.dueOp_some hg ho hd ha h hu
    rcases hi with ⟨rfl, hf⟩ | ⟨rfl, hf⟩
    · show execLoadFill g op s = _
      rw [execLoadFill, hdue]
      exact if_neg fun hn => hf (List.length_eq_zero_iff.1 (by rw [← hl, hn]; rfl))
    · show execPathOpComplete g op s = _
      rw [execPathOpComplete, hdue]
      exact if_neg fun hn => hn (List.length_eq_zero_iff.1 (by rw [hl, hf]; rfl))

end Due

/-- Settles O41: a fill writes one destination (`Group.fillAll_queue`, `fills_last`), a report follows the order of the path (`reportDone_path`), and an access that nothing holds does what `State.perform_eq` says. -/
theorem operationsComplete : Obligations.OperationsComplete := by
  unfold Obligations.OperationsComplete
  refine ⟨fun s t g op o₀ i hg ho hd ha hi => ?_, fun s op k o a ho ha => ?_⟩
  · obtain ⟨hn, hs⟩ := exec_completion hg ho hd ha hi
    refine ⟨hn, fun u o h hu => ?_⟩
    have hid : o.id = op := by simpa using List.find?_some hu
    have hv := u.finishOp_grp o
    rw [hid] at hv
    have hc := Group.complete_eq hu
    have honly := Group.complete_only hu
    have hw : { u with grp := { u.grp with lanes := (u.finishOp o).grp.lanes, s := (u.finishOp o).grp.s, hbank := (u.finishOp o).grp.hbank, b := (u.finishOp o).grp.b, epi := (u.finishOp o).grp.epi, ops := (u.finishOp o).grp.ops } } = u.completed o := by
      rw [hv, State.completed, hid, honly]
    refine ⟨_, hs u o h hu, ?_, ?_, ?_, ?_, ?_, ?_, ?_, ?_, ?_, ?_⟩
    · intro k r
      rw [hv, hc]
      exact fills_last (π := fun g => (g.lane k).reg r) (fun g f => g.fill_reg op f k r) o.fills u.grp
    · intro k
      rw [hv, hc]
      exact Group.fillAll_queue op k o.fills u.grp
    · intro k
      rw [hv, hc]
      exact Group.fillAll_pred op k o.fills u.grp
    · intro k
      rw [hv, hc]
      exact fills_last (π := fun g => g.sAt k) (fun g f => g.fill_s op f k) o.fills u.grp
    · intro k
      rw [State.breg, hv, hc]
      exact fills_last (π := fun g => g.b.getD k 0) (fun g f => g.fill_b op f k) o.fills u.grp
    · intro k
      rw [hv, hc]
      exact fills_last (π := fun g => g.epi.getD k 0) (fun g f => g.fill_epi op f k) o.fills u.grp
    · intro p
      rw [hv, hc]
      exact (reportDone_path p _ []).trans (if_neg (by simp))
    · rw [hv, hc]
      exact reportDone_free _ []
    · intro huse hp
      rw [hw]
      exact u.finishOp_clean huse hp
    · intro huse hp he
      obtain ⟨l, hm, hl⟩ := lowestLane_spec hp
      refine ⟨l, _, hm, hl, ?_⟩
      rw [hw]
      exact u.finishOp_poisoned huse hp he
  · refine ⟨fun h => State.perform_blocked ho ha ((s.grp.blocked_iff o a).2 h), fun h => ?_⟩
    have hb : s.grp.blocked o a = false := by
      rw [Bool.eq_false_iff, ne_eq, Group.blocked_iff]
      rintro ⟨y, hy, hi, b, hm, ht⟩
      rw [h y hy hi b hm] at ht
      exact absurd ht (by decide)
    refine ⟨fun ps hw bs hr => ?_, fun bs hw hs => ?_, fun bs c hw hs => ?_, fun x v ps hw bs hr => ?_, fun e v ps hw bs hr => ?_, fun hs hi hr => ?_⟩
    · have hr : s.doAccess a = (s, some bs) := by rw [s.doAccess_load hw, hr]
      rw [State.perform_eq ho ha hb hr, Op.returned, Op.took_eq]
    · rw [State.perform_eq ho ha hb (s.doAccess_store hw), Op.returned, hw]
      rw [AccessKind.parts, Op.took_nil, State.todoWrite, hs]
    · rw [State.perform_eq ho ha hb (s.doAccess_store hw), Op.returned, hw]
      rw [AccessKind.parts, Op.took_nil, State.todoWrite, hs]
    · rw [State.perform_eq ho ha hb (s.doAccess_rmw (f := atomStep a.size x v) (by rw [State.doAccess, hw]) hr), Op.returned, Op.took_eq]
    · rw [State.perform_eq ho ha hb (s.doAccess_rmw (f := casStep a.size e v) (by rw [State.doAccess, hw]) hr), Op.returned, Op.took_eq]
    · exact ⟨_, State.perform_eq ho ha hb (s.doAccess_error hs hi hr), Op.met_fills _ a, rfl⟩

end Sys2Proof.Machine

namespace Sys2Proof.Machine
open Sys2Proof

/-! ## The trace area (R51, R360) -/

theorem Memory.readBytes_eq {m : Memory} {a : Nat} {l : List Byte} (h : ∀ k < l.length, m.read (a + k) = l.getD k 0) : m.readBytes a l.length = l := by
  refine List.ext_getElem (by rw [Memory.length_readBytes]) fun k h1 h2 => ?_
  rw [← List.getD_eq_getElem _ 0 h1, ← List.getD_eq_getElem _ 0 h2, Memory.getD_readBytes m a h2, h k h2]

/-- Bytes written are read back. -/
theorem Memory.readBytes_writeBytes {m : Memory} (w : m.wf = true) (a : Nat) {l : List Byte} {n : Nat} (h : l.length = n) : (m.writeBytes a l).readBytes a n = l := by
  subst h
  exact Memory.readBytes_eq fun k hk => Memory.read_writeBytes_at w a l k hk

/-- Bytes that a write does not meet. -/
theorem Memory.readBytes_writeBytes_other (m : Memory) {a b n : Nat} {l : List Byte} (h : b + n ≤ a ∨ a + l.length ≤ b) : (m.writeBytes a l).readBytes b n = m.readBytes b n := by
  have := Memory.readBytes_eq (m := m.writeBytes a l) (a := b) (l := m.readBytes b n) fun k hk => by
    rw [Memory.length_readBytes] at hk
    rw [Memory.read_writeBytes_other _ _ _ _ (by omega), Memory.getD_readBytes m b hk]
  rwa [Memory.length_readBytes] at this

theorem State.store_mem (s : State) (a : Nat) (bs : List Byte) : (s.store a bs).mem = s.mem.writeBytes a bs := rfl

/-- A store leaves what it does not meet. -/
theorem State.store_kept (s : State) {a x : Nat} {bs : List Byte} (h : x < a ∨ a + bs.length ≤ x) :
    (s.store a bs).mem.read x = s.mem.read x ∧ (x ∈ (s.store a bs).dev.poison ↔ x ∈ s.dev.poison) := by
  refine ⟨Memory.read_writeBytes_other _ _ _ _ h, ?_⟩
  rw [State.store_dev, List.mem_filter]
  simp [h]

section Trace
variable (s : State) (ctx : Nat) (r : TraceRec)

/-- The settings under which a record is appended (R17). -/
def State.traceCtx : Ctx := s.ctxOn (arbourOf r.core) ctx
/-- Where its next record stands. -/
def State.tracePlace : Nat := (s.traceCtx ctx r).traceBase.toNat + 64 + 32 * ((s.traceCtx ctx r).traceNext % 2 ^ (s.traceCtx ctx r).traceLog2)
/-- The record appended: its bytes bs, and the count. -/
def State.appendTrace (bs : List Byte) (c : Ctx) : State :=
  ((s.store (s.tracePlace ctx r) bs).store (s.traceCtx ctx r).traceBase.toNat (leBytes ((s.traceCtx ctx r).traceNext + 1) 8)).setCtx c
/-- The context with the record counted. -/
def State.traceCount : Ctx :=
  if s.newArea (arbourOf r.core) ctx then { s.ctx ctx with traceNew := (s.ctx ctx).traceNew + 1 } else { s.ctx ctx with traceNext := (s.ctx ctx).traceNext + 1 }
/-- The drop of a full area counted. -/
def State.dropTrace : State := s.store ((s.traceCtx ctx r).traceBase.toNat + 16) (leBytes (leNat (s.mem.readBytes ((s.traceCtx ctx r).traceBase.toNat + 16) 8) + 1) 8)
/-- The unread records in the area. -/
def State.unread : Nat := (s.traceCtx ctx r).traceNext - leNat (s.mem.readBytes ((s.traceCtx ctx r).traceBase.toNat + 8) 8)

theorem State.trace_eq : s.trace ctx r = if (s.traceCtx ctx r).traceBase.toNat = 0 then s
    else if s.unread ctx r < 2 ^ (s.traceCtx ctx r).traceLog2 then s.appendTrace ctx r (leBytes (r.bits s.dev.tick) 32) (s.traceCount ctx r) else s.dropTrace ctx r := rfl

theorem State.traceCount_num : (s.traceCount ctx r).num = ctx := by
  unfold State.traceCount
  split <;> exact s.ctx_num ctx

variable {s ctx r} {bs : List Byte}

theorem State.appendTrace_kept (h : bs.length = 32) (c : Ctx) {a : Nat} (hb : a < (s.traceCtx ctx r).traceBase.toNat ∨ (s.traceCtx ctx r).traceBase.toNat + 24 ≤ a)
    (hp : a < s.tracePlace ctx r ∨ s.tracePlace ctx r + 32 ≤ a) : (s.appendTrace ctx r bs c).mem.read a = s.mem.read a ∧ (a ∈ (s.appendTrace ctx r bs c).dev.poison ↔ a ∈ s.dev.poison) := by
  obtain ⟨m1, p1⟩ := s.store_kept (a := s.tracePlace ctx r) (bs := bs) (x := a) (by rw [h]; exact hp)
  obtain ⟨m2, p2⟩ := (s.store (s.tracePlace ctx r) bs).store_kept (a := (s.traceCtx ctx r).traceBase.toNat) (bs := leBytes ((s.traceCtx ctx r).traceNext + 1) 8) (x := a) (by rw [length_leBytes]; omega)
  exact ⟨m2.trans m1, p2.trans p1⟩

theorem State.appendTrace_room (w : s.dev.mem.wf = true) (h : bs.length = 32) {c : Ctx} (hc : c.num = ctx) :
    (s.appendTrace ctx r bs c).mem.readBytes (s.tracePlace ctx r) 32 = bs ∧
    (s.appendTrace ctx r bs c).mem.readBytes (s.traceCtx ctx r).traceBase.toNat 8 = leBytes ((s.traceCtx ctx r).traceNext + 1) 8 ∧
    (s.appendTrace ctx r bs c).ctx ctx = c ∧ ∀ n, n ≠ ctx → (s.appendTrace ctx r bs c).ctx n = s.ctx n := by
  have hfar : (s.traceCtx ctx r).traceBase.toNat + 64 ≤ s.tracePlace ctx r := Nat.le_add_right _ _
  have hm : (s.appendTrace ctx r bs c).mem = (s.mem.writeBytes (s.tracePlace ctx r) bs).writeBytes (s.traceCtx ctx r).traceBase.toNat (leBytes ((s.traceCtx ctx r).traceNext + 1) 8) := rfl
  refine ⟨?_, ?_, ?_, fun n hn => ?_⟩
  · rw [hm, Memory.readBytes_writeBytes_other _ (by rw [length_leBytes]; omega)]
    exact Memory.readBytes_writeBytes w _ h
  · rw [hm]
    exact Memory.readBytes_writeBytes (Memory.wf_writeBytes w _ _) _ (length_leBytes _ _)
  · rw [State.appendTrace, State.ctx_setCtx, if_pos hc.symm]
  · rw [State.appendTrace, State.ctx_setCtx, if_neg (by rw [hc]; exact hn), State.store_ctx, State.store_ctx]

variable (s ctx r)

/-- What appending a trace record does. -/
theorem State.trace_traced : Traced ctx r s (s.trace ctx r) := by
  have hlen : (leBytes (r.bits s.dev.tick) 32).length = 32 := length_leBytes _ _
  rw [s.trace_eq ctx r]
  by_cases h0 : (s.traceCtx ctx r).traceBase.toNat = 0
  · rw [if_pos h0]
    exact ⟨rfl, fun _ => rfl, fun a _ _ => ⟨rfl, .rfl⟩, fun _ h => absurd h0 h, fun _ h => absurd h0 h⟩
  · rw [if_neg h0]
    have ha : (s.traceCtx ctx r).traceBase ≠ 0 := fun h => h0 (by rw [h]; rfl)
    by_cases hr : s.unread ctx r < 2 ^ (s.traceCtx ctx r).traceLog2
    · rw [if_pos hr]
      generalize hbs : leBytes (r.bits s.dev.tick) 32 = bs at hlen
      refine ⟨rfl, fun h => absurd h ha, fun a hb hp => State.appendTrace_kept hlen _ hb hp, ?_, fun _ _ h => absurd hr (Nat.not_lt.2 h)⟩
      rw [hbs]
      exact fun hc _ _ => State.appendTrace_room hc.1 hlen (s.traceCount_num ctx r)
    · rw [if_neg hr]
      refine ⟨rfl, fun h => absurd h ha, fun a hb _ => ?_, fun _ _ h => absurd h hr, fun hc _ _ => ⟨?_, rfl⟩⟩
      · exact s.store_kept (by rw [length_leBytes]; show _ ∨ (s.traceCtx ctx r).traceBase.toNat + 16 + 8 ≤ a; change a < (s.traceCtx ctx r).traceBase.toNat ∨ (s.traceCtx ctx r).traceBase.toNat + 24 ≤ a at hb; omega)
      · exact Memory.readBytes_writeBytes hc.1 _ (length_leBytes _ _)

end Trace
/-! ## The record-writing forms (R361, R362) -/

section Forms
variable {s u : State} {ctx : Nat} {r : TraceRec} {a b : BitVec 8}

theorem Traced.ent (h : Traced ctx r s u) : u.ent = s.ent := by
  rw [h.frame]

theorem Traced.finish (h : Traced ctx r s u) (pc : Word) : u.finish pc = { u with ent := s.ent.finish pc } := by
  rw [State.finish, State.setEnt, h.ent]

theorem Traced.dirty (h : Traced ctx r s u) (pc : Word) : u.dirty.finish pc = { u with ent := s.ent.dirty.finish pc } := by
  rw [State.finish, State.dirty, State.setEnt, State.setEnt, h.ent]

/-- Operands that are ready leave the first of them ready. -/
theorem State.UniReady.first {l : List (BitVec 8)} (h : s.UniReady (a :: l) []) : s.UniReady [a] [] :=
  ⟨fun c hc => h.sources c (List.mem_cons.2 (.inl (List.mem_singleton.1 hc))), fun c hc => h.settled c (List.mem_cons.2 (.inl (List.mem_singleton.1 hc))), fun _ hn => nomatch hn⟩

theorem State.stamp_traced (h : s.UniReady [a] []) (kind : Nat) :
    ∃ u, Traced s.team.ctx (s.traceRec kind 0 (s.uni a)) s u ∧ s.stamp kind a = .next { u with ent := s.ent.finish (s.ent.pc + 4) } := by
  have ht := s.trace_traced s.team.ctx (s.traceRec kind 0 (s.uni a))
  refine ⟨_, ht, ?_⟩
  rw [← ht.finish, State.stamp, State.uniCheck_none (srcs := [srcA a]) h]
  rfl

theorem dbgTracew_traced (h : s.UniReady [a, b] []) :
    ∃ u, Traced s.team.ctx (s.traceRec 1 (s.uni a) (s.uni b)) s u ∧ execDbgTracew b a s = .next { u with ent := s.ent.dirty.finish (s.ent.pc + 4) } := by
  have ht := s.trace_traced s.team.ctx (s.traceRec 1 (s.uni a) (s.uni b))
  refine ⟨_, ht, ?_⟩
  rw [← ht.dirty, execDbgTracew, State.uniCheck_none (srcs := [srcA a, srcB b]) h]
  rfl

/-- The team's group of a GID that has not exited. -/
def State.runningGroup (s : State) (n : Nat) : Option Group := s.allGroups.find? fun g => !g.agent && g.team = s.team.serial && g.gid = n && g.gstate != .exited
/-- The team's group of a GID. -/
def State.listedGroup (s : State) (n : Nat) : Option Group := s.allGroups.find? fun g => !g.agent && g.team = s.team.serial && g.gid = n
/-- The last PC of a GID that has no running group. -/
def State.exitPc (s : State) (n : Nat) : Word := ((s.listedGroup n).map Group.lastExit).getD ((s.team.exits.lookup n).getD 0)
/-- The entity of the front group that issues the sampling form, if the sample is of that group. -/
def State.sampler (s : State) (n : Nat) : Option Nat := if n = s.grp.gid then some s.ent.num else none

theorem State.runningGroup_none {n : Nat} (h : ∀ g ∈ s.allGroups, g.agent = false ∧ g.team = s.team.serial ∧ g.gid = n → g.gstate = .exited) : s.runningGroup n = none := by
  rw [State.runningGroup, List.find?_eq_none]
  intro g hg hp
  simp only [Bool.and_eq_true, Bool.not_eq_true', decide_eq_true_eq, bne_iff_ne] at hp
  obtain ⟨⟨⟨h1, h2⟩, h3⟩, h4⟩ := hp
  exact h4 (h g hg ⟨h1, h2, h3⟩)

theorem State.listedGroup_none {n : Nat} (h : ∀ g ∈ s.allGroups, ¬ (g.agent = false ∧ g.team = s.team.serial ∧ g.gid = n)) : s.listedGroup n = none := by
  rw [State.listedGroup, List.find?_eq_none]
  intro g hg hp
  simp only [Bool.and_eq_true, Bool.not_eq_true', decide_eq_true_eq] at hp
  obtain ⟨⟨h1, h2⟩, h3⟩ := hp
  exact h g hg ⟨h1, h2, h3⟩

theorem dbgPcsmp_beyond (h : s.UniReady [a] []) (hn : s.team.groups ≤ (s.uni a).toNat) :
    execDbgPcsmp a s = .next (s.takeTrap (s.trapHere .illegalOperand (BitVec.ofNat 32 (0x100 + a.toNat)))) := by
  rw [execDbgPcsmp, State.uniCheck_none (srcs := [srcA a]) h]
  dsimp only
  rw [if_pos hn]
  rfl

theorem dbgPcsmp_running (h : s.UniReady [a] []) (hn : (s.uni a).toNat < s.team.groups) {g : Group} (hg : s.runningGroup (s.uni a).toNat = some g) :
    execDbgPcsmp a s = .next ((s.sampleEnts s.team.ctx (s.traceRec 4 0 (BitVec.ofNat 32 (s.uni a).toNat)) (s.coreOf g.loc.core) s.team g (s.sampler (s.uni a).toNat) g.liveEnts).dirty.finish (s.ent.pc + 4)) := by
  unfold State.runningGroup at hg
  rw [execDbgPcsmp, State.uniCheck_none (srcs := [srcA a]) h]
  dsimp only
  rw [if_neg (Nat.not_le.2 hn), hg]
  rfl

theorem dbgPcsmp_exited (h : s.UniReady [a] []) (hn : (s.uni a).toNat < s.team.groups) (hg : s.runningGroup (s.uni a).toNat = none) :
    execDbgPcsmp a s = .next ((s.trace s.team.ctx { s.traceRec 4 (s.exitPc (s.uni a).toNat) (BitVec.ofNat 32 (s.uni a).toNat) with sstate := 6, ent := 0 }).dirty.finish (s.ent.pc + 4)) := by
  unfold State.runningGroup at hg
  rw [execDbgPcsmp, State.uniCheck_none (srcs := [srcA a]) h]
  dsimp only
  rw [if_neg (Nat.not_le.2 hn), hg]
  rfl

end Forms

/-- Records alone change memory and the contexts' counts. -/
theorem State.trace_records (s : State) (ctx : Nat) (r : TraceRec) : RecordsOnly s (s.trace ctx r) := (s.trace_traced ctx r).frame
theorem State.sampleEnts_records (s : State) (ctx : Nat) (base : TraceRec) (k : Core) (t : Team) (g : Group) (issuing : Option Nat) (es : List Entity) :
    RecordsOnly s (s.sampleEnts ctx base k t g issuing es) :=
  RecordsOnly.foldl _ (fun s _ => s.trace_records ctx _) es s

/-- One entity sampled is one record. -/
theorem State.sampleEnts_one (s : State) (ctx : Nat) (base : TraceRec) (k : Core) (t : Team) (g : Group) (issuing : Option Nat) (e : Entity) :
    s.sampleEnts ctx base k t g issuing [e] = s.trace ctx { base with
      d0 := e.pc, d1 := BitVec.ofNat 32 g.gid, sstate := (sampleState k t g e (issuing = some e.num)).1, reason := (sampleState k t g e (issuing = some e.num)).2, ent := e.num } := rfl

theorem State.sampler_is (s : State) (n m : Nat) : decide (s.sampler n = some m) = decide (n = s.grp.gid ∧ s.ent.num = m) := by
  unfold State.sampler
  by_cases h : n = s.grp.gid <;> simp [h]

/-! ## Periodic samples (R392) -/

/-- The live entities of a context on a core, with their places in the rotation. -/
def State.sampled (s : State) (core ctx : Nat) : List (Nat × Group × Entity) :=
  (s.allGroups.filter fun g => !g.agent && g.loc.core = core && s.allTeams.any fun t => t.serial = g.team && t.ctx = ctx).flatMap fun g => g.liveEnts.map fun e => (samplePlace g e, g, e)

/-- The entity that the rotation comes to next from a place. -/
def nextSample (from_ : Nat) (ents : List (Nat × Group × Entity)) : Option (Nat × Group × Entity) :=
  let later := ents.filter fun x => decide (from_ ≤ x.1)
  let pool := if later = [] then ents else later
  let low := (pool.map fun x => x.1).foldl min (2 ^ 14)
  pool.find? fun x => x.1 = low

theorem nextSample_nil (from_ : Nat) : nextSample from_ [] = none := rfl

theorem foldl_min_replicate (n : Nat) {p q : Nat} (h : p < q) : (List.replicate (n + 1) p).foldl min q = p := by
  have keep : ∀ n, (List.replicate n p).foldl min p = p := fun n => by
    induction n with
    | zero => rfl
    | succ n ih => rw [List.replicate_succ, List.foldl_cons, min_self, ih]
  rw [List.replicate_succ, List.foldl_cons, min_eq_right h.le, keep]

/-- Where one entity alone is there, the rotation comes to it. -/
theorem nextSample_one {from_ : Nat} {x : Nat × Group × Entity} {ents : List (Nat × Group × Entity)} (h : ∀ y ∈ ents, y = x) (hne : ents ≠ []) (hf : from_ ≤ x.1) (hp : x.1 < 2 ^ 14) :
    nextSample from_ ents = some x := by
  obtain ⟨n, hn⟩ : ∃ n, ents.length = n + 1 := ⟨ents.length - 1, by have := List.length_pos_iff.2 hne; omega⟩
  have he : ents = List.replicate (n + 1) x := by rw [← hn]; exact List.eq_replicate_of_mem h
  have hl : ents.filter (fun y => decide (from_ ≤ y.1)) = ents := List.filter_eq_self.2 fun y hy => by rw [h y hy]; exact decide_eq_true hf
  unfold nextSample
  dsimp only
  rw [hl, if_neg hne, he, List.map_replicate, foldl_min_replicate n hp, List.replicate_succ, List.find?_cons]
  simp

theorem flatMap_upsert {α β : Type} {p : α → Bool} {f : α → List β} {x d : α} (hd : f d = []) : ∀ {l : List α}, f x = f ((l.find? p).getD d) → (upsert p x l).flatMap f = l.flatMap f := by
  intro l
  induction l with
  | nil =>
    intro h
    rw [upsert, List.flatMap_singleton]
    exact h.trans hd
  | cons a l ih =>
    intro h
    rw [List.find?_cons] at h
    rw [upsert]
    cases hp : p a with
    | true =>
      rw [hp] at h
      rw [if_pos rfl, List.flatMap_cons, List.flatMap_cons, h]
      rfl
    | false =>
      rw [hp] at h
      rw [if_neg Bool.false_ne_true, List.flatMap_cons, List.flatMap_cons, ih h]

/-- A context's record with its saved teams as they were leaves every team as it was. -/
theorem State.teamOf_setCtx (s : State) {c : Ctx} (h : c.savedTeams = (s.ctx c.num).savedTeams) (n : Nat) : (s.setCtx c).teamOf n = s.teamOf n := by
  have hf : (s.setCtx c).dev.ctxs.flatMap Ctx.savedTeams = s.dev.ctxs.flatMap Ctx.savedTeams := flatMap_upsert (p := fun k : Ctx => k.num = c.num) (d := { num := c.num }) rfl h
  rw [State.teamOf, hf]
  rfl

/-- The record of the entity sampled, and the next place in the rotation. -/
def State.sampleRecord (s : State) (core ctx : Nat) : Nat × Group × Entity → State
  | (p, g, e) => (s.setCtx { s.ctx ctx with samplePos := (core, p + 1) :: (s.ctx ctx).samplePos.filter fun x => x.1 != core }).sampleEnts ctx
      { kind := 5, pc := 0, d0 := 0, d1 := 0, launch := (s.teamOf g.team).launch, core, part := g.loc.part, gid := g.gid } (s.coreOf core) (s.teamOf g.team) g (if s.issuesNow ctx g e then some e.num else none) [e]

theorem execPcSample_eq {s : State} {core ctx : Nat} (h : (s.ctxOn (core / 104) ctx).sampleK ≠ 0) :
    execPcSample core ctx s = match nextSample (((s.ctx ctx).samplePos.lookup core).getD 0) (s.sampled core ctx) with
      | none => .next s
      | some x => .next (s.sampleRecord core ctx x) := by
  unfold execPcSample
  dsimp only
  rw [arbourOf, if_neg h]
  show (match nextSample (((s.ctx ctx).samplePos.lookup core).getD 0) (s.sampled core ctx) with | none => _ | some (p, g, e) => _) = _
  cases nextSample (((s.ctx ctx).samplePos.lookup core).getD 0) (s.sampled core ctx) with
  | none => rfl
  | some x =>
    dsimp only
    rw [State.teamOf_setCtx _ (by rw [s.ctx_num])]
    rfl

/-- A group of the context on the core. -/
def State.SampledGroup (s : State) (core ctx : Nat) (g : Group) : Prop := g ∈ s.allGroups ∧ g.agent = false ∧ g.loc.core = core ∧ ∃ t ∈ s.allTeams, t.serial = g.team ∧ t.ctx = ctx

theorem State.mem_sampled {s : State} {core ctx : Nat} {x : Nat × Group × Entity} : x ∈ s.sampled core ctx ↔ ∃ g, s.SampledGroup core ctx g ∧ ∃ e ∈ g.liveEnts, (samplePlace g e, g, e) = x := by
  simp only [State.sampled, State.SampledGroup, List.mem_flatMap, List.mem_filter, List.mem_map, Bool.and_eq_true, Bool.not_eq_true', decide_eq_true_eq, List.any_eq_true, and_assoc]

theorem pcSample_none {s : State} {core ctx : Nat} (h : (s.ctxOn (core / 104) ctx).sampleK ≠ 0) (hn : ∀ g, s.SampledGroup core ctx g → g.liveEnts = []) : execPcSample core ctx s = .next s := by
  have : s.sampled core ctx = [] := List.eq_nil_iff_forall_not_mem.2 fun x hx => by
    obtain ⟨g, hg, e, he, -⟩ := State.mem_sampled.1 hx
    rw [hn g hg] at he
    exact nomatch he
  rw [execPcSample_eq h, this, nextSample_nil]

theorem pcSample_one {s : State} {core ctx : Nat} {g : Group} {e : Entity} (h : (s.ctxOn (core / 104) ctx).sampleK ≠ 0) (hg : s.SampledGroup core ctx g) (hu : ∀ x, s.SampledGroup core ctx x → x = g)
    (he : g.liveEnts = [e]) (hf : ((s.ctx ctx).samplePos.lookup core).getD 0 ≤ samplePlace g e) (hp : samplePlace g e < 2 ^ 14) :
    execPcSample core ctx s = .next (s.sampleRecord core ctx (samplePlace g e, g, e)) := by
  have hm : (samplePlace g e, g, e) ∈ s.sampled core ctx := State.mem_sampled.2 ⟨g, hg, e, by rw [he]; exact List.mem_singleton.2 rfl, rfl⟩
  rw [execPcSample_eq h, nextSample_one (x := (samplePlace g e, g, e)) (fun y hy => ?_) (List.ne_nil_of_mem hm) hf hp]
  obtain ⟨g', hg', e', he', rfl⟩ := State.mem_sampled.1 hy
  obtain rfl := hu g' hg'
  rw [he, List.mem_singleton] at he'
  rw [he']

/-! ## Comparators and the tick stop (R388, R391) -/

/-- The comparator that acts is one of the core's, set, and matches the next issue. -/
theorem State.comparator_matches {s : State} {c : Comparator} (h : s.comparator = some c) : c ∈ s.core.cmps ∧ c.action ≠ 0 ∧ c.ctx = s.team.ctx ∧ c.offset = s.ent.pc := by
  unfold State.comparator at h
  split at h
  · exact nomatch h
  · obtain ⟨i, -, hi⟩ := List.exists_of_findSome?_eq_some h
    have hp := List.find?_some hi
    simp only [State.matches, Bool.and_eq_true, bne_iff_ne, decide_eq_true_eq] at hp
    obtain ⟨-, ⟨⟨⟨ha, hc⟩, ho⟩, -⟩, -⟩ := hp
    exact ⟨List.mem_of_find?_eq_some hi, ha, hc, ho⟩

section Comparator
variable {s : State} {c : Comparator} (hc : s.comparator = some c) (hw : s.ent.status ≠ .faultwait) (hg : s.grp.gstate = .ready ∨ s.grp.gstate = .trapped)
include hc hw hg

theorem pcComparatorMatch_trap (ha : c.action = 1) : execPcComparatorMatch c.index s = .next (s.takeTrap (s.trapHere .hwbkpt (BitVec.ofNat 32 c.index))) := by
  rw [execPcComparatorMatch, hc]
  dsimp only
  rw [if_neg (not_or.2 ⟨fun h => h rfl, not_or.2 ⟨hw, fun h => h hg⟩⟩), ha]
  rfl

theorem pcComparatorMatch_trace (ha : c.action = 2) : ∃ u, Traced s.team.ctx (s.traceRec 7 s.ent.pc (BitVec.ofNat 32 c.index)) s u ∧
    execPcComparatorMatch c.index s = .next { u with ent := { s.ent with skipCmp := true } } := by
  have ht := s.trace_traced s.team.ctx (s.traceRec 7 s.ent.pc (BitVec.ofNat 32 c.index))
  rw [execPcComparatorMatch, hc]
  dsimp only
  rw [if_neg (not_or.2 ⟨fun h => h rfl, not_or.2 ⟨hw, fun h => h hg⟩⟩), ha]
  generalize s.trace s.team.ctx (s.traceRec 7 s.ent.pc (BitVec.ofNat 32 c.index)) = u at ht ⊢
  refine ⟨u, ht, ?_⟩
  show Host.Outcome.next (u.setEnt fun e => { e with skipCmp := true }) = _
  rw [State.setEnt, ht.ent]

theorem pcComparatorMatch_stop (ha : c.action = 3) : execPcComparatorMatch c.index s = .next (s.freeze s.dev.tick .stopped) := by
  rw [execPcComparatorMatch, hc]
  dsimp only
  rw [if_neg (not_or.2 ⟨fun h => h rfl, not_or.2 ⟨hw, fun h => h hg⟩⟩), ha]
  rfl

end Comparator

/-- What a freeze changes; a mailbox command in progress ends with STOPPED. -/
theorem State.freeze_stopped (s : State) (n : Nat) :
    s.freeze n .stopped = { s with dev := { s.dev with stopped := some n, devstate := .stopped, stopAt := none, msix := (s.freeze n .stopped).dev.msix, mb := (s.freeze n .stopped).dev.mb } } ∧
    (s.dev.mb.busy = false → (s.freeze n .stopped).dev.mb = s.dev.mb ∧ (s.freeze n .stopped).dev.msix = s.dev.msix) ∧
    (s.dev.mb.busy = true → (s.freeze n .stopped).dev.mb.busy = false ∧ (s.freeze n .stopped).dev.mb.result = 6) := by
  refine ⟨rfl, fun h => ?_, fun h => ?_⟩
  · constructor
    · exact if_neg (by rw [h]; decide)
    · exact if_neg (by rw [h]; decide)
  · have : (s.freeze n .stopped).dev.mb = { s.dev.mb with busy := false, result := 6, directed := .none, units := [], response := [] } := if_pos h
    rw [this]
    exact ⟨rfl, rfl⟩

theorem execTickStop_due {s : State} {n : Nat} (h : s.dev.stopAt = some n) (hn : n ≤ s.dev.tick) : execTickStop s = .next (s.freeze n .stopped) := by
  unfold execTickStop
  rw [h]
  exact if_pos hn

theorem execScanChainShift_next {s : State} {c : Nat} (h : c < 10) (hs : s.dev.stopped ≠ none) (hc : c ∉ s.dev.scanned) :
    execScanChainShift c s = .next { s with dev := { s.dev with scanned := s.dev.scanned ++ [c] } } := by
  unfold execScanChainShift
  refine if_neg ?_
  rintro (h' | h' | h')
  · exact hs (Option.isNone_iff_eq_none.1 h')
  · omega
  · exact hc (List.contains_iff_mem.1 h')

end Sys2Proof.Machine

namespace Sys2Proof.Machine
open Sys2Proof

/-! ## The resident debug handler (R387) -/

/-- What identifies a group where it stands, its entities by their numbers. -/
def Group.identity (g : Group) : GLoc × Nat × Nat × Bool × GState × List Nat := (g.loc, g.gid, g.team, g.debugHeld, g.gstate, g.sibs.map Entity.num)

theorem Group.putBytes_identity (g : Group) (bs : List Byte) : (g.putBytes bs).identity = g.identity := by
  have hfold (l : List (Path × Nat)) : ∀ g : Group, (l.foldl (fun g x => g.putCount x.1 (byteField bs (40 + x.2) 1)) g).identity = g.identity := by
    induction l with
    | nil => exact fun g => rfl
    | cons x l ih => exact fun g => ih _
  exact hfold paths.zipIdx (g.putWindow (byteField bs 36 4))

theorem Entity.putBytes_num (e : Entity) (bs : List Byte) : (e.putBytes bs).num = e.num := rfl

/-- Putting a payload back leaves what identifies the group. -/
theorem Group.putPayload_identity (g : Group) (type index : Nat) (bs : List Byte) : (g.putPayload type index bs).identity = g.identity := by
  unfold Group.putPayload
  split
  · exact g.putBytes_identity bs
  · have h : (g.sibs.map fun e => if e.live && e.num = index then e.putBytes bs else e).map Entity.num = g.sibs.map Entity.num := by
      rw [List.map_map]
      refine List.map_congr_left fun e _ => ?_
      dsimp only [Function.comp]
      split <;> rfl
    simp only [Group.identity, h]
  · rfl
  · rfl
  · unfold Group.putBank
    split <;> rfl
  · rfl

section Dbg
variable {s : State} {l : GLoc} {g : Group}

/-- The front mapped, where the map leaves what identifies a group. -/
theorem State.places_mapped {f : Group → Group} (hf : ∀ g, (f g).identity = g.identity) : (s.mapGroups f).places = s.places.map f := by
  have hn : (f s.stowGroup).sibs.map Entity.num = s.ent.num :: s.grp.sibs.map Entity.num := congrArg (fun x => x.2.2.2.2.2) (hf s.stowGroup)
  obtain ⟨e, r, hs, he, -⟩ := List.map_eq_cons_iff.1 hn
  exact State.places_mapGroups hs he

theorem State.mem_allGroups {x : Group} : x ∈ s.allGroups ↔ x ∈ s.places ∧ x.gstate ≠ .empty := by
  rw [show s.allGroups = s.places.filter fun g => g.gstate != .empty from rfl, List.mem_filter, bne_iff_ne]

/-- A change of the group at a place leaves every other as it was, and that one where it was. -/
theorem State.mapGroups_at {f : Group → Group} (hf : ∀ g, (f g).identity = g.identity) (hl : ∀ g, g.loc ≠ l → f g = g) :
    (∀ x ∈ s.allGroups, x.loc = l → ∃ y ∈ (s.mapGroups f).allGroups, y.loc = l ∧ y.gid = x.gid ∧ y.team = x.team ∧ y.debugHeld = x.debugHeld) ∧
    ∀ x, x.loc ≠ l → (x ∈ (s.mapGroups f).allGroups ↔ x ∈ s.allGroups) := by
  have hid (g : Group) : (f g).loc = g.loc ∧ (f g).gid = g.gid ∧ (f g).team = g.team ∧ (f g).debugHeld = g.debugHeld ∧ (f g).gstate = g.gstate := by
    have h := hf g
    simp only [Group.identity, Prod.mk.injEq] at h
    obtain ⟨h1, h2, h3, h4, h5, -⟩ := h
    exact ⟨h1, h2, h3, h4, h5⟩
  have hm (x : Group) : x ∈ (s.mapGroups f).allGroups ↔ (∃ y ∈ s.places, f y = x) ∧ x.gstate ≠ .empty := by
    rw [State.mem_allGroups, State.places_mapped hf, List.mem_map]
  refine ⟨fun x hx hxl => ?_, fun x hx => ?_⟩
  · obtain ⟨hp, he⟩ := State.mem_allGroups.1 hx
    obtain ⟨h1, h2, h3, h4, h5⟩ := hid x
    exact ⟨f x, (hm _).2 ⟨⟨x, hp, rfl⟩, by rw [h5]; exact he⟩, h1.trans hxl, h2, h3, h4⟩
  · rw [hm, State.mem_allGroups]
    refine and_congr_left fun _ => ⟨?_, fun h => ⟨x, h, hl x hx⟩⟩
    rintro ⟨y, hy, rfl⟩
    rw [(hid y).1] at hx
    rw [hl y hx]
    exact hy

/-- The mailbox once the last unit has acknowledged. -/
def State.acknowledged (s : State) : State := s.setMb fun m => { m with units := [] }

theorem exec_dbgAck {f : Directed} {unit : Nat} (hd : s.dev.mb.directed = f) (hu : s.dev.mb.units = [unit]) (hf : s.acknowledged.applyDirected unit f = s.acknowledged) :
    exec (.directedCommandAck unit) s = .next (s.acknowledged.endDirected f) :=
  execDirectedCommandAck_last hu hd hf rfl

section Answer
variable (type index o n : Nat) (f : Group → List Byte → State)

theorem State.dbg_held (hg : s.groupAt l = some g) (hh : g.debugHeld = true) {bs : List Byte} (hp : g.payload (s.teamOf g.team) (s.lowestGid g) type index = some bs) :
    s.dbg l type index o n f = if bs.length < o + n then s.mbDone 3 else f g bs := by
  rw [State.dbg, hg, Option.bind_some, if_pos hh]
  dsimp only
  rw [hp]

theorem State.dbg_absent (hg : s.groupAt l = some g) (hh : g.debugHeld = true) (hp : g.payload (s.teamOf g.team) (s.lowestGid g) type index = none) : s.dbg l type index o n f = s.mbDone 3 := by
  rw [State.dbg, hg, Option.bind_some, if_pos hh]
  dsimp only
  rw [hp]

theorem State.heldAt_none (h : ∀ g, ¬ (s.groupAt l = some g ∧ g.debugHeld = true)) : ((s.groupAt l).bind fun g => if g.debugHeld then some g else none) = none := by
  cases hg : s.groupAt l with
  | none => rfl
  | some g => exact if_neg fun hh => h g ⟨hg, hh⟩

theorem State.dbg_notHeld (h : ∀ g, ¬ (s.groupAt l = some g ∧ g.debugHeld = true)) : s.dbg l type index o n f = s.mbDone 2 := by
  rw [State.dbg, State.heldAt_none h]

end Answer

/-! ### Resuming -/

section Front
variable (f : Mailbox → Mailbox)

/-- What stands in front does not depend on the mailbox. -/
theorem State.focusTeam_setMb (s : State) (n : Nat) : (s.setMb f).focusTeam n = (s.focusTeam n).setMb f := by
  unfold State.focusTeam
  by_cases h : s.team.serial = n
  · rw [if_pos h, if_pos (show (s.setMb f).team.serial = n from h)]
  · rw [if_neg h, if_neg (show ¬ (s.setMb f).team.serial = n from h), show (s.setMb f).teams = s.teams from rfl]
    cases takeFirst (fun t => decide (t.serial = n)) s.teams <;> rfl

theorem State.leadGroup_setMb (s : State) (g : Group) (r : List Group) : (s.setMb f).leadGroup g r = (s.leadGroup g r).setMb f := by
  unfold State.leadGroup
  dsimp only
  rw [← State.focusTeam_setMb]
  cases g.sibs <;> rfl

theorem State.focusCore_setMb (s : State) (c : Nat) : (s.setMb f).focusCore c = (s.focusCore c).setMb f := by
  unfold State.focusCore
  by_cases h : s.core.num = c
  · rw [if_pos h, if_pos (show (s.setMb f).core.num = c from h)]
  · rw [if_neg h, if_neg (show ¬ (s.setMb f).core.num = c from h), show (s.setMb f).cores = s.cores from rfl, show (s.setMb f).freshCore c = s.freshCore c from rfl]
    generalize (takeFirst (fun k => decide (k.num = c)) s.cores).getD (s.freshCore c, s.cores) = x
    obtain ⟨k, r⟩ := x
    dsimp only
    cases takeFirst Group.agent k.groups with
    | none => exact State.leadGroup_setMb f { s with core := k, cores := s.stowCore :: r } _ _
    | some y => exact State.leadGroup_setMb f { s with core := k, cores := s.stowCore :: r } _ _

theorem State.focusGroup_setMb (s : State) (l : GLoc) : (s.setMb f).focusGroup l = (s.focusGroup l).map (State.setMb · f) := by
  unfold State.focusGroup
  by_cases h : s.grp.loc = l ∧ s.core.num = l.core
  · rw [if_pos h, if_pos (show (s.setMb f).grp.loc = l ∧ (s.setMb f).core.num = l.core from h), Option.map_some, ← State.focusTeam_setMb]
    rfl
  · rw [if_neg h, if_neg (show ¬ ((s.setMb f).grp.loc = l ∧ (s.setMb f).core.num = l.core) from h), State.focusCore_setMb]
    generalize s.focusCore l.core = t
    dsimp only
    by_cases hl : t.grp.loc = l
    · rw [if_pos hl, if_pos (show (t.setMb f).grp.loc = l from hl), Option.map_some, ← State.focusTeam_setMb]
      rfl
    · rw [if_neg hl, if_neg (show ¬ (t.setMb f).grp.loc = l from hl), show (t.setMb f).core.groups = t.core.groups from rfl]
      cases takeFirst (fun g => decide (g.loc = l)) t.core.groups with
      | none => rfl
      | some y => exact congrArg some (State.leadGroup_setMb f t _ _)

theorem State.focusEnt_setMb (s : State) (n : Nat) : (s.setMb f).focusEnt n = (s.focusEnt n).map (State.setMb · f) := by
  unfold State.focusEnt
  by_cases h : s.ent.num = n
  · rw [if_pos h, if_pos (show (s.setMb f).ent.num = n from h)]
    rfl
  · rw [if_neg h, if_neg (show ¬ (s.setMb f).ent.num = n from h), show (s.setMb f).grp.sibs = s.grp.sibs from rfl]
    cases takeFirst (fun e => decide (e.num = n)) s.grp.sibs <;> rfl

theorem State.focus_setMb (s : State) (l : GLoc) (n : Nat) : (s.setMb f).focus l n = (s.focus l n).map (State.setMb · f) := by
  rw [State.focus, State.focusGroup_setMb, State.focus]
  cases s.focusGroup l with
  | none => rfl
  | some t => exact State.focusEnt_setMb f t n

end Front

/-- A state brought to the front has the mailbox that was there. -/
theorem State.focus_mb {n : Nat} {t : State} (h : s.focus l n = some t) : t.dev.mb = s.dev.mb := by
  have hk : (s.setMb fun _ => s.dev.mb).focus l n = (s.focus l n).map (State.setMb · fun _ => s.dev.mb) := State.focus_setMb _ s l n
  rw [show (s.setMb fun _ => s.dev.mb) = s from rfl, h] at hk
  rw [Option.some.inj hk]
  rfl

/-- The end of a mailbox command whose mailbox was m. -/
def State.answered (u : State) (m : Mailbox) (result : Nat) (resp : List Byte) : State :=
  { u with dev := { u.dev with msix := u.dev.msix ++ [0], mb := { m with busy := false, result, response := resp, directed := .none, units := [] } } }

/-- The step of a group that resumes: at its next instruction for mode 1. -/
def State.resumed (u : State) (mode : Nat) : State := if mode = 1 then { u with ent := { u.ent with stepTrap := 1 } } else u

theorem regParityFatal_num : BitVec.ofNat 8 (TrapCode.num .regParityFatal) = 0x12#8 := rfl

section Resume
variable (hg : s.groupAt l = some g) (hh : g.debugHeld = true) {mode : Nat}
include hg hh

theorem State.dbgResume_runs (hm : mode < 2) (ht : g.gstate = .trapped) (hc : g.treg.cause.setWidth 8 ≠ 0x12#8) {t : State} (hf : s.focus l g.trapper = some t) :
    s.acknowledged.dbgResume l mode = (t.returnTrap.resumed mode).answered s.dev.mb 0 [] := by
  have hfa : s.acknowledged.focus l g.trapper = some t.acknowledged := by rw [State.acknowledged, State.focus_setMb, hf]; rfl
  have hga : s.acknowledged.groupAt l = some g := hg
  rw [← State.focus_mb hf, State.dbgResume, hga, Option.bind_some, if_pos hh]
  dsimp only
  rw [if_neg (by omega), regParityFatal_num, if_neg (not_or.2 ⟨fun h => h ht, hc⟩), hfa, State.resumed]
  dsimp only
  by_cases h : mode = 1
  · rw [if_pos h, if_pos h]; rfl
  · rw [if_neg h, if_neg h]; rfl

theorem State.dbgResume_fatal (hm : mode < 2) (hc : g.treg.cause.setWidth 8 = 0x12#8) : s.dbgResume l mode = s.mbDone 2 := by
  rw [State.dbgResume, hg, Option.bind_some, if_pos hh]
  dsimp only
  rw [if_neg (by omega), regParityFatal_num, if_pos (.inr hc)]

theorem State.dbgResume_kill : s.dbgResume l 2 = (s.failLaunch (s.teamOf g.team).launch 8).mbDone 0 := by
  rw [State.dbgResume, hg, Option.bind_some, if_pos hh]
  dsimp only
  rw [if_pos rfl]

end Resume

theorem State.dbgResume_notHeld (h : ∀ g, ¬ (s.groupAt l = some g ∧ g.debugHeld = true)) (mode : Nat) : s.dbgResume l mode = s.mbDone 2 := by
  rw [State.dbgResume, State.heldAt_none h]

/-! ### Reading and writing -/

/-- What DBG_WRITE puts into the group at a place. -/
def Group.poked (l : GLoc) (type index : Nat) (bs : List Byte) (x : Group) : Group := if x.loc = l then x.putPayload type index bs else x

theorem Group.poked_identity (l : GLoc) (type index : Nat) (bs : List Byte) (x : Group) : (x.poked l type index bs).identity = x.identity := by
  unfold Group.poked
  split
  · exact x.putPayload_identity type index bs
  · rfl

theorem State.dbgWrite_held (hg : s.groupAt l = some g) (hh : g.debugHeld = true) {type index o : Nat} {new bs : List Byte} (hp : g.payload (s.teamOf g.team) (s.lowestGid g) type index = some bs)
    (hl : o + new.length ≤ bs.length) : (s.dbgWrite l type index o new).dev = (s.mbDone 0).dev ∧
      (s.dbgWrite l type index o new).allGroups = (s.mapGroups (Group.poked l type index (splice bs o new))).allGroups := by
  rw [State.dbgWrite, State.dbg_held type index o new.length _ hg hh hp, if_neg (Nat.not_lt.2 hl)]
  have hd : (s.mapGroups (Group.poked l type index (splice bs o new))).dev = s.dev := State.mapGroups_dev ..
  change ((if type = 2 then _ else s.mapGroups (Group.poked l type index (splice bs o new))).mbDone 0).dev = _ ∧ ((if type = 2 then _ else s.mapGroups (Group.poked l type index (splice bs o new))).mbDone 0).allGroups = _
  split
  · exact ⟨congrArg (fun d : Device => ({ d with mb := { d.mb with busy := false, result := 0, response := [], directed := .none, units := [] }, msix := d.msix ++ [0] } : Device)) hd, rfl⟩
  · exact ⟨congrArg (fun d : Device => ({ d with mb := { d.mb with busy := false, result := 0, response := [], directed := .none, units := [] }, msix := d.msix ++ [0] } : Device)) hd, rfl⟩

end Dbg

/-! ### The commands -/

section Commands
variable {s : State}

theorem execDbgList_taken (h : s.Takes [.ready] [(0, 1)]) (hc : s.param 0 1 ≤ 63) :
    execDbgList s = .next (s.answered s.dev.mb 0 (
      leBytes ((s.allGroups.filter fun g => g.debugHeld && (!g.agent && (s.teamOf g.team).ctx = s.param 0 1)).take 127).length 4 ++
      ((s.allGroups.filter fun g => g.debugHeld && (!g.agent && (s.teamOf g.team).ctx = s.param 0 1)).take 127).flatMap fun g => leBytes g.loc.core 2 ++ leBytes g.loc.part 1 ++ leBytes g.loc.slot 1)) := by
  rw [execDbgList, h.mbox]
  dsimp only
  rw [if_neg (Nat.not_lt.2 hc)]
  rfl

theorem execDbgRead_taken (h : s.Takes [.ready] [(0, 6), (8, 8)]) (hn : s.param 12 4 ≤ 512) (hc : s.param 0 2 ≤ 831) :
    execDbgRead s = .next (s.mbStart (.dbgRead s.dbgPlace (s.param 4 1) (s.param 5 1) (s.param 8 4) (s.param 12 4)) [arbourOf (s.param 0 2)]) := by
  rw [execDbgRead, h.mbox]
  dsimp only
  rw [if_neg (by omega)]

theorem execDbgWrite_taken (h : s.Takes [.ready] [(0, 6), (8, 8 + min 232 (s.param 12 4))]) (hn : s.param 12 4 ≤ 232) (hc : s.param 0 2 ≤ 831) (hr : dbgRefused (s.param 4 1) (s.param 8 4) (s.param 12 4) = false) :
    execDbgWrite s = .next (s.mbStart (.dbgWrite s.dbgPlace (s.param 4 1) (s.param 5 1) (s.param 8 4) (leBytes (s.param 16 (s.param 12 4)) (s.param 12 4))) [arbourOf (s.param 0 2)]) := by
  rw [execDbgWrite, h.mbox]
  dsimp only
  rw [if_neg]
  rintro (h1 | h1 | h1)
  · omega
  · omega
  · rw [hr] at h1
    exact Bool.false_ne_true h1

theorem execDbgResume_taken (h : s.Takes [.ready] [(0, 5)]) (hm : s.param 4 1 ≤ 2) (hc : s.param 0 2 ≤ 831) :
    execDbgResume s = .next (s.mbStart (.dbgResume s.dbgPlace (s.param 4 1)) [arbourOf (s.param 0 2)]) := by
  rw [execDbgResume, h.mbox]
  rw [if_neg (by omega)]

end Commands

theorem RecordsOnly.retire {s u : State} (h : RecordsOnly s u) (pc : Word) :
    u.dirty.finish pc = { s with ent := s.ent.dirty.finish pc, dev := { s.dev with mem := (u.dirty.finish pc).dev.mem, poison := (u.dirty.finish pc).dev.poison, ctxs := (u.dirty.finish pc).dev.ctxs } } := by
  unfold RecordsOnly at h
  rw [h]
  rfl

/-- Settles O56: a record of one entity is one append (`State.trace_traced`), a comparator and the tick stop freeze the module (`State.freeze_stopped`), and a command of the debug handler ends at its last acknowledgement (`exec_dbgAck`). -/
theorem debugForms : Obligations.DebugForms := by
  unfold Obligations.DebugForms
  refine ⟨fun s a b hr => ?_, fun s core ctx hk => ⟨fun hn => pcSample_none hk hn, fun g e hg hu he hf hp => ?_⟩, fun s => ⟨fun c hc hw hg => ?_, fun n hn ht => ?_, fun c hc hs hm => execScanChainShift_next hc hs hm⟩, fun s => ?_⟩
  · refine ⟨State.stamp_traced hr.first 2, State.stamp_traced hr.first 3, dbgTracew_traced hr, dbgPcsmp_beyond hr.first, fun hn => ?_⟩
    refine ⟨?_, fun g e hg he => ?_, fun g hg hx => ?_, fun hx => ?_⟩
    · cases hg : s.runningGroup (s.uni a).toNat with
      | none => exact ⟨_, dbgPcsmp_exited hr.first hn hg, (s.trace_records ..).retire _⟩
      | some g => exact ⟨_, dbgPcsmp_running hr.first hn hg, (s.sampleEnts_records ..).retire _⟩
    · have heq := dbgPcsmp_running hr.first hn hg
      rw [he, State.sampleEnts_one, s.sampler_is] at heq
      exact ⟨_, s.trace_traced .., heq.trans (congrArg _ ((s.trace_traced ..).dirty _))⟩
    · have hlist : s.listedGroup (s.uni a).toNat = some g := hg
      have heq := dbgPcsmp_exited hr.first hn (State.runningGroup_none hx)
      rw [State.exitPc, hlist] at heq
      exact ⟨_, s.trace_traced .., heq.trans (congrArg _ ((s.trace_traced ..).dirty _))⟩
    · have heq := dbgPcsmp_exited hr.first hn (State.runningGroup_none fun g hg h => absurd h (hx g hg))
      rw [State.exitPc, State.listedGroup_none hx] at heq
      exact ⟨_, s.trace_traced .., heq.trans (congrArg _ ((s.trace_traced ..).dirty _))⟩
  · have hissue : s.issuesNow ctx g e = true → e.status = .ready ∧ s.canIssue g e = true := fun h => by
      simp only [State.issuesNow, Bool.and_eq_true, decide_eq_true_eq] at h
      exact h.1
    refine ⟨_, s.issuesNow ctx g e, pcSample_one hk ⟨hg.1, hg.2⟩ (fun x hx => hu x ⟨hx.1, hx.2⟩) he hf hp, hissue, ?_⟩
    have hnum : decide ((if s.issuesNow ctx g e = true then some e.num else none) = some e.num) = s.issuesNow ctx g e := by
      cases s.issuesNow ctx g e <;> simp
    rw [State.sampleRecord, State.sampleEnts_one, hnum]
    exact State.trace_traced _ _ _
  · obtain ⟨hm, ha, hctx, hoff⟩ := State.comparator_matches hc
    refine ⟨⟨hoff, hctx, hm, ha⟩, pcComparatorMatch_trap hc hw hg, pcComparatorMatch_trace hc hw hg, fun h3 => ⟨_, pcComparatorMatch_stop hc hw hg h3, s.freeze_stopped _⟩⟩
  · exact ⟨_, execTickStop_due hn ht, s.freeze_stopped n⟩
  · have hack {f : Directed} {t : State} (hf : s.acknowledged.applyDirected (arbourOf (s.param 0 2)) f = s.acknowledged) (ht : s.acknowledged.endDirected f = t) :
        s.dev.mb.directed = f → s.dev.mb.units = [arbourOf (s.param 0 2)] → exec (.directedCommandAck (arbourOf (s.param 0 2))) s = .next t := fun hd hu => by rw [exec_dbgAck hd hu hf, ht]
    refine ⟨execDbgList_taken, execDbgRead_taken, execDbgWrite_taken, execDbgResume_taken, fun g hg => ?_, fun h f hf => ?_⟩
    · obtain ⟨hg, hh⟩ := hg
      have hga : s.acknowledged.groupAt ⟨s.param 0 2, s.param 2 1, s.param 3 1⟩ = some g := hg
      refine ⟨fun bs hp hl => hack rfl ?_, fun bs hp hl => hack rfl ?_, fun hp => hack rfl ?_, fun bs new hp hd hu => ⟨fun hl => hack rfl ?_ hd hu, fun hl => ?_⟩,
        fun t mode hm ht hc hf => hack rfl (State.dbgResume_runs hg hh hm ht hc hf), fun mode hm hc => hack rfl (State.dbgResume_fatal hga hh hm hc), fun l hl hnd hnf hd hu => ?_⟩
      · exact (State.dbg_held _ _ _ _ _ hga hh hp).trans (if_neg (Nat.not_lt.2 hl))
      · exact (State.dbg_held _ _ _ _ _ hga hh hp).trans (if_pos hl)
      · exact State.dbg_absent _ _ _ _ _ hga hh hp
      · exact (State.dbg_held _ _ _ _ _ hga hh hp).trans (if_pos hl)
      · obtain ⟨hdev, hgs⟩ := State.dbgWrite_held hga hh hp hl
        refine ⟨_, exec_dbgAck hd hu rfl, hdev, ?_⟩
        rw [State.endDirected, hgs]
        exact State.mapGroups_at (s := s.acknowledged) (fun x => x.poked_identity _ _ _ _) fun x hx => if_neg hx
      · refine ⟨_, { l with state := .failed, err := 8, holders := [] }, (exec_dbgAck hd hu rfl).trans (congrArg _ (State.dbgResume_kill hga hh)), ?_, rfl, rfl, rfl, rfl⟩
        have hid := (State.launch_id hl).2
        show (s.acknowledged.failLaunch (s.teamOf g.team).launch 8).launch? l.id = _
        rw [State.failLaunch_launch, if_pos hid, show s.acknowledged.launch? (s.teamOf g.team).launch = some l from hl]
        exact congrArg some (if_neg (not_or.2 ⟨hnd, hnf⟩))
    · rcases List.mem_pair.1 hf with rfl | rfl
      · exact hack rfl (State.dbg_notHeld (s := s.acknowledged) _ _ _ _ _ h)
      · exact hack rfl (State.dbgResume_notHeld (s := s.acknowledged) h _)

end Sys2Proof.Machine

namespace Sys2Proof.Machine
open Sys2Proof

/-! ## What the operations on queues change (R58 to R62) -/

/-- Cores that differ in their agents' wake events alone. -/
def Woken (s t : State) : Prop := ∃ f : Core → BitVec 6, t.core = { s.core with wakes := f s.core } ∧ t.cores = s.cores.map fun k => { k with wakes := f k }

theorem Woken.of_eq {s t : State} (h : t.core = s.core) (k : t.cores = s.cores) : Woken s t := ⟨Core.wakes, h, by rw [k]; exact (List.map_id _).symm⟩

theorem Woken.trans {s t u : State} (h : Woken s t) (k : Woken t u) : Woken s u := by
  obtain ⟨f, h1, h2⟩ := h
  obtain ⟨g, k1, k2⟩ := k
  refine ⟨fun c => g { c with wakes := f c }, by rw [k1, h1], ?_⟩
  rw [k2, h2, List.map_map]
  rfl

/-- t is s but for memory, the queues' records, notices and wake events. -/
structure QueueWork (s t : State) : Prop where
  woken : Woken s t
  frame : t = { s with
    core := t.core, cores := t.cores, dev := { s.dev with mem := t.dev.mem, poison := t.dev.poison, queues := t.dev.queues, notices := t.dev.notices, arbWakes := t.dev.arbWakes } }

namespace QueueWork
variable {s t u : State}

theorem of_dev (h : t = { s with dev := { s.dev with mem := t.dev.mem, poison := t.dev.poison, queues := t.dev.queues, notices := t.dev.notices } }) : QueueWork s t :=
  ⟨.of_eq (by rw [h]) (by rw [h]), by rw [h]⟩

theorem refl (s : State) : QueueWork s s := ⟨.of_eq rfl rfl, rfl⟩

theorem trans (h : QueueWork s t) (k : QueueWork t u) : QueueWork s u := ⟨h.woken.trans k.woken, by rw [k.frame, h.frame]⟩

theorem ctx (h : QueueWork s t) (n : Nat) : t.ctx n = s.ctx n := State.ctx_congr (by rw [h.frame]) n
theorem launch (h : QueueWork s t) (id : Word) : t.launch? id = s.launch? id := State.launch_congr (by rw [h.frame]) id
theorem salt (h : QueueWork s t) : t.dev.salt = s.dev.salt := by rw [h.frame]
theorem counters (h : QueueWork s t) : t.dev.counters = s.dev.counters := by rw [h.frame]
theorem tick (h : QueueWork s t) : t.dev.tick = s.dev.tick := by rw [h.frame]
theorem nextOp (h : QueueWork s t) : t.nextOp = s.nextOp := by rw [h.frame]

theorem icache (h : QueueWork s t) : t.core.icache = s.core.icache ∧ t.cores.map Core.icache = s.cores.map Core.icache := by
  obtain ⟨f, h1, h2⟩ := h.woken
  exact ⟨by rw [h1], by rw [h2, List.map_map]; rfl⟩

theorem filling (h : QueueWork s t) (p : Nat → Bool) : t.filling? p = s.filling? p := by
  obtain ⟨f, h1, h2⟩ := h.woken
  simp only [State.filling?, State.allCores, State.stowCore, List.any_cons, h1, h2, List.any_map]
  rfl

end QueueWork

section Work
variable (s : State) (q : Nat)

theorem State.setQueue_work (k : Queue) : QueueWork s (s.setQueue k) := .of_dev rfl
theorem State.store_work (a : Nat) (bs : List Byte) : QueueWork s (s.store a bs) := .of_dev rfl
theorem State.withdrawNotice_work : QueueWork s (s.withdrawNotice q) := .of_dev rfl
theorem State.putStarted_work (x : Started) : QueueWork s (s.putStarted q x) := s.setQueue_work _

theorem State.wakeArbour_work (a bit : Nat) : QueueWork s (s.wakeArbour a bit) := by
  have h (k : Core) : (if arbourOf k.num = a then { k with wakes := k.wakes ||| (1#6 <<< bit) } else k) = { k with wakes := if arbourOf k.num = a then k.wakes ||| (1#6 <<< bit) else k.wakes } := by
    split <;> rfl
  exact ⟨⟨fun k => if arbourOf k.num = a then k.wakes ||| (1#6 <<< bit) else k.wakes, h s.core, List.map_congr_left fun k _ => h k⟩, rfl⟩

theorem State.postNotice_work : QueueWork s (s.postNotice q) := by
  unfold State.postNotice
  dsimp only
  split
  · exact .refl s
  · exact QueueWork.trans (.of_dev rfl) (State.wakeArbour_work _ _ _)

theorem State.settleQueue_work : QueueWork s (s.settleQueue q) := by
  unfold State.settleQueue
  dsimp only
  split
  · exact .refl s
  · split
    · exact (s.setQueue_work _).trans (State.postNotice_work _ q)
    · split
      · exact s.setQueue_work _
      · exact .refl s

theorem State.startPacket_work (x : Started) : QueueWork s (s.startPacket q x) := by
  unfold State.startPacket
  dsimp only
  split
  · exact ((s.setQueue_work _).trans (State.store_work _ _ _)).trans (State.postNotice_work _ q)
  · exact (s.setQueue_work _).trans (State.store_work _ _ _)

theorem State.gWrite_only (tlb : List TlbEntry) (c : Ctx) (arb : Nat) (va : VAddr) (bs : List Byte) : StoresOnly s (s.gWrite tlb c arb va bs) := by
  have h (l : List (Nat × Nat)) (u : State) (cs : List Byte) :
      StoresOnly u (l.foldl (fun (t, bs) p => (t.store (s.gPa tlb c arb { w := true } p.1) (bs.take p.2), bs.drop p.2)) (u, cs)).1 := by
    induction l generalizing u cs with
    | nil => rfl
    | cons p l ih => exact (u.store_only _ _).trans (ih _ _)
  exact h _ s bs

theorem State.ctlWrite_only (k : Queue) (va : VAddr) (bs : List Byte) : StoresOnly s (s.ctlWrite k va bs) := s.gWrite_only ..

/-! ### Memory -/

@[simp] theorem State.postNotice_mem : (s.postNotice q).dev.mem = s.dev.mem := by
  unfold State.postNotice
  dsimp only
  split <;> rfl

@[simp] theorem State.settleQueue_mem : (s.settleQueue q).dev.mem = s.dev.mem := by
  unfold State.settleQueue
  dsimp only
  split
  · rfl
  · split
    · exact State.postNotice_mem _ q
    · split <;> rfl

@[simp] theorem State.startPacket_mem (x : Started) : (s.startPacket q x).dev.mem = s.dev.mem.writeBytes (s.queue q).ridxAddr.toNat (leBytes ((s.queue q).ridx + 1) 8) := by
  unfold State.startPacket
  dsimp only
  split
  · exact State.postNotice_mem _ q
  · rfl

/-- The record of the launch of a packet that is over, freed where it is done (R84). -/
def State.freeDone (s : State) (k : Started) : State :=
  match s.launch? k.launch with
  | some l => if l.state = LaunchState.done ∧ (pktType k.packet.toNat = 1 ∨ pktType k.packet.toNat = 2) then s.freeLaunch l.id else s
  | none => s

theorem State.freeDone_frame (k : Started) : s.freeDone k = { s with dev := { s.dev with launches := (s.freeDone k).dev.launches } } := by
  unfold State.freeDone
  split
  · split <;> rfl
  · rfl

theorem State.freeDone_other {k : Started} (h : ¬ (pktType k.packet.toNat = 1 ∨ pktType k.packet.toNat = 2)) : s.freeDone k = s := by
  unfold State.freeDone
  split
  · exact if_neg fun hk => h hk.2
  · rfl

/-- A packet that is over: it leaves the queue, its launch's record is freed, the queue goes on. -/
theorem State.packetOver_eq (k : Started) :
    s.packetOver q k = ((s.setQueue { s.queue q with started := (s.queue q).started.filter fun y => y.n != k.n }).freeDone k).settleQueue q := rfl

@[simp] theorem State.packetOver_mem (k : Started) : (s.packetOver q k).dev.mem = s.dev.mem := by
  rw [State.packetOver_eq, State.settleQueue_mem, State.freeDone_frame]
  rfl

theorem State.packetOver_work {k : Started} (h : ¬ (pktType k.packet.toNat = 1 ∨ pktType k.packet.toNat = 2)) : QueueWork s (s.packetOver q k) := by
  rw [State.packetOver_eq, State.freeDone_other _ h]
  exact (s.setQueue_work _).trans (State.settleQueue_work _ q)

/-! ### Queues -/

theorem State.postNotice_queue : (s.postNotice q).queue q = { s.queue q with notice := (s.queue q).notice || !(s.queue q).claimed } := by
  unfold State.postNotice
  dsimp only
  have hn := s.queue_num q
  split
  · next h =>
    generalize s.queue q = k at h
    obtain ⟨⟩ := k
    simp only [Queue.mk.injEq, true_and, and_true] at h ⊢
    rcases h with h | h <;> simp [h]
  · next h =>
    have hb : ((s.queue q).notice || !(s.queue q).claimed) = true := by
      rw [not_or, Bool.not_eq_true, Bool.not_eq_true] at h
      rw [h.2, Bool.not_false, Bool.or_true]
    rw [hb]
    exact (State.setQueue_at (s := s) (k := { s.queue q with notice := true }) hn).1

/-- The state of a queue after a completion (R60, R62). -/
def Queue.settled (k : Queue) : QState :=
  if k.started ≠ [] then k.state else if k.state = .stalled ∧ k.waitSince.isNone then .active else if k.state = .active ∧ k.lastW ≤ k.ridx then .idle else k.state

theorem State.settleQueue_queue : ∃ b, (s.settleQueue q).queue q = { s.queue q with state := (s.queue q).settled, notice := b } := by
  have hn := s.queue_num q
  unfold State.settleQueue Queue.settled
  dsimp only
  split
  · exact ⟨_, rfl⟩
  · split
    · refine ⟨(s.queue q).notice || !(s.queue q).claimed, (State.postNotice_queue _ q).trans ?_⟩
      rw [(State.setQueue_at (s := s) (k := { s.queue q with state := .active }) hn).1]
    · split
      · exact ⟨_, (State.setQueue_at (s := s) (k := { s.queue q with state := .idle }) hn).1⟩
      · exact ⟨_, rfl⟩

theorem State.packetOver_queue (k : Started) : ∃ b, (s.packetOver q k).queue q =
    { s.queue q with
      started := (s.queue q).started.filter fun y => y.n != k.n
      state := Queue.settled { s.queue q with started := (s.queue q).started.filter fun y => y.n != k.n }, notice := b } := by
  have hn := s.queue_num q
  have h1 := (State.setQueue_at (s := s) (k := { s.queue q with started := (s.queue q).started.filter fun y => y.n != k.n }) hn).1
  generalize hu : s.setQueue { s.queue q with started := (s.queue q).started.filter fun y => y.n != k.n } = u at h1
  have h2 : (u.freeDone k).queue q = u.queue q := State.queue_congr (by rw [State.freeDone_frame]) q
  obtain ⟨b, hb⟩ := (u.freeDone k).settleQueue_queue q
  refine ⟨b, ?_⟩
  rw [State.packetOver_eq, hu, hb, h2, h1]

theorem State.startPacket_queue (x : Started) : ∃ b, (s.startPacket q x).queue q =
    { s.queue q with ridx := (s.queue q).ridx + 1, started := (s.queue q).started ++ [x], waitSince := none, waitMet := false, held := [], state := .active, notice := b } := by
  have hn := s.queue_num q
  have h1 := (State.setQueue_at (s := s) (k := { s.queue q with ridx := (s.queue q).ridx + 1, started := (s.queue q).started ++ [x], waitSince := none, waitMet := false, held := [], state := .active }) hn).1
  unfold State.startPacket
  dsimp only
  split
  · refine ⟨(s.queue q).notice || !(s.queue q).claimed, (State.postNotice_queue _ q).trans ?_⟩
    rw [State.putWord64, State.store_queue, h1]
  · exact ⟨_, h1⟩

theorem State.putStarted_queue (x : Started) : (s.putStarted q x).queue q = { s.queue q with started := (s.queue q).started.map fun y => if y.n = x.n then x else y } :=
  (State.setQueue_at (k := { s.queue q with started := (s.queue q).started.map fun y => if y.n = x.n then x else y }) (s.queue_num q)).1

theorem State.ctlWrite_queue (k : Queue) (va : VAddr) (bs : List Byte) : (s.ctlWrite k va bs).queue q = s.queue q :=
  State.queue_congr (by rw [s.ctlWrite_only k va bs]) q

theorem State.record_queue (c : Nat) (r : Rec) : (s.record c r).queue q = s.queue q := State.queue_congr (by rw [s.record_only c r]) q

/-! ### Errors (R71) -/

/-- The first error of a queue is kept; its notice is withdrawn. -/
theorem State.errorAt_first (code n : Nat) (h : (s.queue q).state = .idle ∨ (s.queue q).state = .active ∨ (s.queue q).state = .stalled) :
    (s.errorAt q code n).queue q = { s.queue q with notice := false, claimed := false, state := .error, err := code, waitSince := none, held := [] } ∧
    ∀ x ∈ (s.errorAt q code n).dev.notices, x.raster = false → x.queue ≠ q := by
  have ht := s.record_queue q (s.queue q).ctx { kind := 3, code, progress := n, queue := q }
  unfold State.errorAt State.queueError
  dsimp only
  rw [if_pos h]
  generalize s.record (s.queue q).ctx { kind := 3, code, progress := n, queue := q } = t at ht ⊢
  have hu := (t.withdrawNotice_at q).1
  have hx := t.withdrawNotice_notices q
  rw [ht] at hu
  refine ⟨?_, fun x hm hr => (hx x hm).resolve_left (by rw [hr]; decide)⟩
  rw [hu]
  exact (State.setQueue_at (k := { s.queue q with notice := false, claimed := false, state := .error, err := code, waitSince := none, held := [] }) (s.queue_num q)).1

theorem State.errorAt_again (code n : Nat) (h : (s.queue q).state = .error) : (s.errorAt q code n).queue q = s.queue q := by
  unfold State.errorAt State.queueError
  extract_lets k t
  have ht : t.queue q = s.queue q := s.record_queue q ..
  rw [if_neg (by show ¬ ((s.queue q).state = .idle ∨ _); rw [h]; decide)]
  exact ht

end Work

/-! ### Accesses of the control plane (R174) -/

/-- An access that goes through fills the Lodge's TLB alone. -/
theorem State.control_ok {s v : State} {k : Queue} {n : Need} {va : VAddr} {len : Nat} (h : s.control k n va len = .ok v) : v = { s with dev := { s.dev with lodgeTlb := v.dev.lodgeTlb } } := by
  unfold State.control at h
  dsimp only at h
  split at h
  · exact nomatch h
  · exact nomatch h
  · split at h
    · exact nomatch h
    · split at h
      · exact nomatch h
      · rw [← CRes.ok.inj h]
        rfl

theorem State.control_queue {s v : State} {k : Queue} {n : Need} {va : VAddr} {len : Nat} (h : s.control k n va len = .ok v) (q : Nat) : v.queue q = s.queue q :=
  State.queue_congr (by rw [State.control_ok h]) q

end Sys2Proof.Machine

namespace Sys2Proof.Machine
open Sys2Proof

/-! ## The head packet (R59 to R62) -/

theorem leNat_lt (l : List Byte) : leNat l < 256 ^ l.length := by
  induction l with
  | nil => exact Nat.one_pos
  | cons b l ih =>
    have hb := b.isLt
    rw [leNat, List.length_cons, Nat.pow_succ]
    omega

theorem ofNat_leNat (l : List Byte) : (BitVec.ofNat (8 * l.length) (leNat l)).toNat = leNat l := by
  refine (BitVec.toNat_ofNat _ _).trans (Nat.mod_eq_of_lt ?_)
  rw [Nat.pow_mul]
  exact leNat_lt l

theorem State.headPacket_toNat (s : State) (k : Queue) : (BitVec.ofNat 512 (s.headPacket k)).toNat = s.headPacket k := by
  have h := ofNat_leNat (s.mem.readBytes (k.ring.toNat + 64 * (k.ridx % 2 ^ k.log2)) 64)
  rw [Memory.length_readBytes] at h
  exact h

/-- A queue whose notice has been withdrawn. -/
def Queue.unnoticed (k : Queue) : Queue := { k with notice := false, claimed := false }

theorem State.withdrawNotice_queue (s : State) (q : Nat) : (s.withdrawNotice q).queue q = (s.queue q).unnoticed := (s.withdrawNotice_at q).1
theorem State.headPacket_unnoticed (s : State) (k : Queue) : s.headPacket k.unnoticed = s.headPacket k := rfl
theorem State.badPacket_unnoticed (s : State) (k : Queue) (p : Nat) : s.badPacket k.unnoticed p = s.badPacket k p := rfl

/-- The head packet of an active queue is at hand: known, its notice claimed or the first of its Arbour, its context resident, ring and read index in reach. -/
structure State.AtHead (s : State) (q : Nat) : Prop where
  active : (s.queue q).state = .active
  known : (s.queue q).ridx < (s.queue q).lastW
  noticed : (s.queue q).claimed = true ∨ ∃ n, s.headNotice (s.queue q).home = some n ∧ n.raster = false ∧ n.queue = q
  resident : (s.ctx (s.queue q).ctx).state = .resident
  ring : s.reach ((s.queue q).ring + BitVec.ofNat 64 (64 * ((s.queue q).ridx % 2 ^ (s.queue q).log2))) 64 = true
  index : s.reach (s.queue q).ridxAddr 8 = true

section Handle
variable {s : State} {q : Nat} (h : s.AtHead q) {mine : Nat → Bool} (f : State → Queue → Nat → Outcome)
include h

/-- What an agent does with the head packet of a type that is the event's. -/
theorem State.handle_eq (hm : mine (pktType (s.headPacket (s.queue q))) = true) : s.handle q mine f =
    if s.badPacket (s.queue q) (s.headPacket (s.queue q)) then .next ((s.withdrawNotice q).errorAt q 1 (s.queue q).ridx)
    else if pktType (s.headPacket (s.queue q)) ≠ 8 ∧ pktBarrier (s.headPacket (s.queue q)) ∧ (s.queue q).started ≠ [] then .next ((s.withdrawNotice q).setQueue { (s.queue q).unnoticed with state := .stalled })
    else f (s.withdrawNotice q) (s.queue q).unnoticed (s.headPacket (s.queue q)) := by
  obtain ⟨ha, hk, hn, hr, hring, hindex⟩ := h
  have hlisted : (s.queue q).claimed = true ∨ ((s.headNotice (s.queue q).home).any fun n => !n.raster && n.queue = q) = true := by
    refine hn.imp_right ?_
    rintro ⟨n, hn, hnr, hnq⟩
    rw [hn, Option.any_some, hnr, hnq]
    simp
  unfold State.handle
  dsimp only
  rw [if_neg (by rintro (h | h | h); exacts [h ha, Nat.not_lt.2 h hk, h hlisted]), if_neg (not_not.2 hr), s.withdrawNotice_queue]
  have hring' : s.reach ((s.queue q).unnoticed.ring + BitVec.ofNat 64 (64 * ((s.queue q).unnoticed.ridx % 2 ^ (s.queue q).unnoticed.log2))) 64 = true := hring
  have hindex' : s.reach (s.queue q).unnoticed.ridxAddr 8 = true := hindex
  rw [hring', hindex', if_neg (by simp), s.headPacket_unnoticed, s.badPacket_unnoticed, hm, if_neg (by decide)]
  rfl

theorem State.handle_bad (hm : mine (pktType (s.headPacket (s.queue q))) = true) (hb : s.badPacket (s.queue q) (s.headPacket (s.queue q)) = true) :
    s.handle q mine f = .next ((s.withdrawNotice q).errorAt q 1 (s.queue q).ridx) := by
  rw [State.handle_eq h f hm, if_pos hb]

theorem State.handle_stalls (hm : mine (pktType (s.headPacket (s.queue q))) = true) (hb : s.badPacket (s.queue q) (s.headPacket (s.queue q)) = false)
    (h8 : pktType (s.headPacket (s.queue q)) ≠ 8) (hB : pktBarrier (s.headPacket (s.queue q)) = true) (hs : (s.queue q).started ≠ []) :
    s.handle q mine f = .next ((s.withdrawNotice q).setQueue { (s.queue q).unnoticed with state := .stalled }) := by
  rw [State.handle_eq h f hm, if_neg (by rw [hb]; decide), if_pos ⟨h8, hB, hs⟩]

theorem State.handle_starts (hm : mine (pktType (s.headPacket (s.queue q))) = true) (hb : s.badPacket (s.queue q) (s.headPacket (s.queue q)) = false)
    (hB : pktType (s.headPacket (s.queue q)) = 8 ∨ pktBarrier (s.headPacket (s.queue q)) = false ∨ (s.queue q).started = []) :
    s.handle q mine f = f (s.withdrawNotice q) (s.queue q).unnoticed (s.headPacket (s.queue q)) := by
  rw [State.handle_eq h f hm, if_neg (by rw [hb]; decide), if_neg]
  rintro ⟨h8, hB', hs⟩
  rcases hB with hB | hB | hB
  · exact h8 hB
  · rw [hB] at hB'
    exact Bool.false_ne_true hB'
  · exact hs hB

end Handle

/-! ### A packet on its way -/

/-- The queue was k when packet y started: the read index has passed it, and it stands last among the started ones. -/
structure Queue.Moved (k : Queue) (y : Started) (z : Queue) : Prop where
  ridx : z.ridx = k.ridx + 1
  started : z.started = k.started ++ [y]
  state : z.state = .active
  lastW : z.lastW = k.lastW

/-- The queue was k when a packet started that is over. -/
def Queue.Passed (k z : Queue) : Prop := z.ridx = k.ridx + 1 ∧ z.started = k.started ∧ z.state = if k.started = [] ∧ k.lastW ≤ k.ridx + 1 then .idle else .active

/-- The queue was k when a packet started whose access has failed. -/
def Queue.Faulted (k z : Queue) : Prop := z.state = .error ∧ z.err = 6 ∧ z.started = k.started

section Packet
variable {s : State} {q : Nat} {k : Queue} {y : Started}

theorem State.startPacket_moved (h : s.queue q = k.unnoticed) (x : Started) : k.Moved x ((s.startPacket q x).queue q) := by
  obtain ⟨b, hb⟩ := s.startPacket_queue q x
  rw [hb, h]
  exact ⟨rfl, rfl, rfl, rfl⟩

variable (hf : ∀ z ∈ k.started, z.n ≠ k.ridx) (hy : y.n = k.ridx) (hm : k.Moved y (s.queue q))
include hf hy hm

theorem Queue.Moved.rest : (s.queue q).started.filter (fun z => z.n != y.n) = k.started := by
  rw [hm.started, List.filter_append, List.filter_eq_self.2 fun z hz => by rw [hy]; exact bne_iff_ne.2 (hf z hz)]
  simp

theorem Queue.Moved.put {x : Started} (hx : x.n = k.ridx) : k.Moved x ((s.putStarted q x).queue q) := by
  rw [State.putStarted_queue]
  refine ⟨hm.ridx, ?_, hm.state, hm.lastW⟩
  dsimp only
  have hk : k.started.map (fun z => if z.n = x.n then x else z) = k.started := (List.map_congr_left fun z hz => if_neg (by rw [hx]; exact hf z hz)).trans (List.map_id _)
  rw [hm.started, List.map_append, hk, List.map_singleton, if_pos (hy.trans hx.symm)]

theorem Queue.Moved.over : k.Passed ((s.packetOver q y).queue q) := by
  obtain ⟨b, hb⟩ := s.packetOver_queue q y
  rw [hb, hm.rest hf hy]
  refine ⟨hm.ridx, rfl, ?_⟩
  unfold Queue.settled
  dsimp only
  rw [hm.state, hm.lastW, hm.ridx]
  by_cases hs : k.started = []
  · rw [if_neg (not_not.2 hs), if_neg (by rintro ⟨h, -⟩; exact nomatch h)]
    simp only [hs, true_and]
  · rw [if_pos hs, if_neg fun h => hs h.1]

theorem Queue.Moved.fails (x : Started) (hx : x.n = k.ridx) : k.Faulted ((((s.putStarted q x).errorAt q 6 x.n).packetOver q x).queue q) := by
  have hput := hm.put hf hy hx
  have herr := ((s.putStarted q x).errorAt_first q 6 x.n (.inr (.inl hput.state))).1
  obtain ⟨b, hb⟩ := ((s.putStarted q x).errorAt q 6 x.n).packetOver_queue q x
  rw [hb, herr]
  refine ⟨?_, rfl, hput.rest hf hx⟩
  unfold Queue.settled
  dsimp only
  split
  · rfl
  · rw [if_neg (by rintro ⟨h, -⟩; exact nomatch h), if_neg (by rintro ⟨h, -⟩; exact nomatch h)]

end Packet

/-! ### What is left of a packet's work (R62, R63, R69) -/

section Finish
variable {s : State} {q : Nat} {y : Started}

/-- A packet without a signal, whose work is done, is over. -/
theorem State.signalPacket_none (h : pktSigen y.packet.toNat = false) : s.signalPacket q y = s.packetOver q y := by
  rw [State.signalPacket, if_neg (by rw [h]; decide)]

theorem State.finishPacket_signal (h7 : ¬ (pktType y.packet.toNat = 7 ∧ ¬ y.marked ∧ y.err = 0)) (h8 : pktType y.packet.toNat ≠ 8) : s.finishPacket q y = s.signalPacket q y := by
  unfold State.finishPacket
  dsimp only
  rw [if_neg h7, if_neg h8]

theorem State.finishPacket_pad (h8 : pktType y.packet.toNat = 8) : s.finishPacket q y = s.packetOver q y := by
  unfold State.finishPacket
  dsimp only
  rw [if_neg (by rw [h8]; rintro ⟨h, -⟩; exact nomatch h), if_pos h8]

theorem State.finishPacket_over (h : pktType y.packet.toNat = 8 ∨ ¬ (pktType y.packet.toNat = 7 ∧ ¬ y.marked ∧ y.err = 0) ∧ pktSigen y.packet.toNat = false) : s.finishPacket q y = s.packetOver q y := by
  by_cases h8 : pktType y.packet.toNat = 8
  · exact State.finishPacket_pad h8
  · obtain ⟨h7, hs⟩ := h.resolve_left h8
    rw [State.finishPacket_signal h7 h8, State.signalPacket_none hs]

theorem State.signalPacket_ok (h : pktSigen y.packet.toNat = true) {v : State} (hv : s.control (s.queue q) { r := true, w := true } (pktSigaddr y.packet.toNat) 16 = .ok v) :
    s.signalPacket q y = (v.applySignal (v.queue q) y).packetOver q y := by
  rw [State.signalPacket, if_pos h, State.access?, hv]

theorem State.signalPacket_fail (h : pktSigen y.packet.toNat = true) (hv : s.control (s.queue q) { r := true, w := true } (pktSigaddr y.packet.toNat) 16 = .fail) : s.signalPacket q y = s.signalFailed q y := by
  rw [State.signalPacket, if_pos h, State.access?, hv]

/-- The signal of a packet without an error. -/
theorem State.applySignal_plain (k : Queue) (he : y.err = 0) : s.applySignal k y = s.ctlWrite k (pktSigaddr y.packet.toNat)
    (leBytes (if pktSigop y.packet.toNat = 0 then fieldOf y.packet.toNat 192 64 else s.ctlRead k (pktSigaddr y.packet.toNat) 8 + fieldOf y.packet.toNat 192 64) 8) := by
  have hv : (pktSigval y.packet.toNat).toNat = fieldOf y.packet.toNat 192 64 := by
    rw [pktSigval, BitVec.toNat_ofNat]
    exact Nat.mod_eq_of_lt (Nat.mod_lt _ (by decide))
  unfold State.applySignal
  dsimp only
  rw [if_neg fun h => h.1 he, hv]

theorem State.finishPacket_mark (h7 : pktType y.packet.toNat = 7) (hm : y.marked = false) (he : y.err = 0) (hs : pktSigen y.packet.toNat = false) {v : State}
    (hv : s.control (s.queue q) { w := true } (BitVec.ofNat 80 (fieldOf y.packet.toNat 256 80)) 16 = .ok v) :
    s.finishPacket q y = ((v.ctlWrite (v.queue q) (BitVec.ofNat 80 (fieldOf y.packet.toNat 256 80)) (leBytes v.dev.tick 8 ++ leBytes (fieldOf y.packet.toNat 336 64) 8)).putStarted q { y with marked := true }).packetOver q { y with marked := true } := by
  unfold State.finishPacket
  dsimp only
  rw [if_pos ⟨h7, by rw [hm]; decide, he⟩, hv]
  exact State.signalPacket_none hs

theorem State.finishPacket_markFails (h7 : pktType y.packet.toNat = 7) (hm : y.marked = false) (he : y.err = 0) (hs : pktSigen y.packet.toNat = false)
    (hv : s.control (s.queue q) { w := true } (BitVec.ofNat 80 (fieldOf y.packet.toNat 256 80)) 16 = .fail) :
    s.finishPacket q y = ((s.putStarted q { y with err := 6 }).errorAt q 6 y.n).packetOver q { y with err := 6 } := by
  unfold State.finishPacket
  dsimp only
  rw [if_pos ⟨h7, by rw [hm]; decide, he⟩, hv]
  exact State.signalPacket_none hs

end Finish
end Sys2Proof.Machine

namespace Sys2Proof.Machine
open Sys2Proof

/-! ## Starting the head packet (R63 to R70) -/

/-- The head packet of a queue as it starts. -/
def State.headStarted (s : State) (q : Nat) : Started := { n := (s.queue q).ridx, packet := BitVec.ofNat 512 (s.headPacket (s.queue q)) }
/-- The state in which it has started. -/
def State.begun (s : State) (q : Nat) : State := (s.withdrawNotice q).startPacket q (s.headStarted q)

section Begun
variable (s : State) (q : Nat)

theorem State.headStarted_packet : (s.headStarted q).packet.toNat = s.headPacket (s.queue q) := s.headPacket_toNat _

theorem State.begun_moved : (s.queue q).Moved (s.headStarted q) ((s.begun q).queue q) := State.startPacket_moved (s.withdrawNotice_queue q) _

theorem State.begun_mem : (s.begun q).dev.mem = s.dev.mem.writeBytes (s.queue q).ridxAddr.toNat (leBytes ((s.queue q).ridx + 1) 8) := by
  rw [State.begun, State.startPacket_mem, s.withdrawNotice_queue]
  rfl

theorem State.begun_work : QueueWork s (s.begun q) := (s.withdrawNotice_work q).trans (State.startPacket_work _ q _)

end Begun

theorem pktSigen_false {p : Nat} (h3 : pktType p ≠ 3) (h : p.testBit 10 = false) : pktSigen p = false := by
  rw [pktSigen, h, Bool.false_or]
  exact decide_eq_false h3

section Start
variable {s : State} {q : Nat}

/-- A packet that has nothing to wait for and no signal is over at once. -/
theorem State.startNow_eq {w : State} (ho : pktType (s.headPacket (s.queue q)) = 8 ∨ pktType (s.headPacket (s.queue q)) ≠ 7 ∧ pktSigen (s.headPacket (s.queue q)) = false) :
    w.startNow q (s.queue q).unnoticed (s.headPacket (s.queue q)) = (w.startPacket q (s.headStarted q)).packetOver q (s.headStarted q) := by
  show (w.startPacket q (s.headStarted q)).finishPacket q (s.headStarted q) = _
  refine State.finishPacket_over ?_
  rw [s.headStarted_packet]
  exact ho.imp_right fun h => ⟨fun h7 => h.1 h7.1, h.2⟩

/-- It changes the queues' records, memory and wake events alone. -/
theorem State.startNow_work {w : State} (ho : pktType (s.headPacket (s.queue q)) = 8 ∨ pktType (s.headPacket (s.queue q)) ≠ 7 ∧ pktSigen (s.headPacket (s.queue q)) = false)
    (h12 : ¬ (pktType (s.headPacket (s.queue q)) = 1 ∨ pktType (s.headPacket (s.queue q)) = 2)) : QueueWork w (w.startNow q (s.queue q).unnoticed (s.headPacket (s.queue q))) := by
  rw [State.startNow_eq ho]
  exact (w.startPacket_work q _).trans (State.packetOver_work _ q (by rw [s.headStarted_packet]; exact h12))

variable (hf : ∀ z ∈ (s.queue q).started, z.n ≠ (s.queue q).ridx)
include hf

theorem State.startNow_over {w : State} (hw : w.queue q = (s.queue q).unnoticed) (ho : pktType (s.headPacket (s.queue q)) = 8 ∨ pktType (s.headPacket (s.queue q)) ≠ 7 ∧ pktSigen (s.headPacket (s.queue q)) = false) :
    (s.queue q).Passed ((w.startNow q (s.queue q).unnoticed (s.headPacket (s.queue q))).queue q) ∧
    (w.startNow q (s.queue q).unnoticed (s.headPacket (s.queue q))).dev.mem = w.dev.mem.writeBytes (s.queue q).ridxAddr.toNat (leBytes ((s.queue q).ridx + 1) 8) := by
  rw [State.startNow_eq ho, State.packetOver_mem, State.startPacket_mem, hw]
  exact ⟨(State.startPacket_moved hw _).over hf rfl, rfl⟩

/-- A signal that goes through (R62, R63). -/
theorem State.begun_signal {v : State} (h3 : pktType (s.headPacket (s.queue q)) = 3)
    (hv : (s.begun q).control ((s.begun q).queue q) { r := true, w := true } (pktSigaddr (s.headPacket (s.queue q))) 16 = .ok v) :
    (s.queue q).Passed (((s.begun q).finishPacket q (s.headStarted q)).queue q) ∧
    ((s.begun q).finishPacket q (s.headStarted q)).dev.mem = (v.ctlWrite (v.queue q) (pktSigaddr (s.headPacket (s.queue q)))
      (leBytes (if pktSigop (s.headPacket (s.queue q)) = 0 then fieldOf (s.headPacket (s.queue q)) 192 64
        else v.ctlRead (v.queue q) (pktSigaddr (s.headPacket (s.queue q))) 8 + fieldOf (s.headPacket (s.queue q)) 192 64) 8)).dev.mem := by
  have hp := s.headStarted_packet q
  have hsig : pktSigen (s.headStarted q).packet.toNat = true := by rw [hp, pktSigen, h3]; simp
  have hfin : (s.begun q).finishPacket q (s.headStarted q) = (v.applySignal (v.queue q) (s.headStarted q)).packetOver q (s.headStarted q) := by
    rw [State.finishPacket_signal (by rw [hp, h3]; simp) (by rw [hp, h3]; decide), State.signalPacket_ok hsig (by rw [hp]; exact hv)]
  rw [hfin, State.packetOver_mem, State.applySignal_plain (v.queue q) rfl, hp]
  refine ⟨?_, rfl⟩
  refine Queue.Moved.over hf rfl ?_
  rw [State.ctlWrite_queue, State.control_queue hv]
  exact s.begun_moved q

/-- A signal whose access fails: SIGNAL_FAULT (R71). -/
theorem State.begun_signalFails (h3 : pktType (s.headPacket (s.queue q)) = 3)
    (hv : (s.begun q).control ((s.begun q).queue q) { r := true, w := true } (pktSigaddr (s.headPacket (s.queue q))) 16 = .fail) : (s.queue q).Faulted (((s.begun q).finishPacket q (s.headStarted q)).queue q) := by
  have hp := s.headStarted_packet q
  have hsig : pktSigen (s.headStarted q).packet.toNat = true := by rw [hp, pktSigen, h3]; simp
  rw [State.finishPacket_signal (by rw [hp, h3]; simp) (by rw [hp, h3]; decide), State.signalPacket_fail hsig (by rw [hp]; exact hv)]
  exact (s.begun_moved q).fails hf rfl { s.headStarted q with err := 6 } rfl

/-- A MARK that goes through (R69). -/
theorem State.begun_mark {v : State} (h7 : pktType (s.headPacket (s.queue q)) = 7) (hs : (s.headPacket (s.queue q)).testBit 10 = false)
    (hv : (s.begun q).control ((s.begun q).queue q) { w := true } (BitVec.ofNat 80 (fieldOf (s.headPacket (s.queue q)) 256 80)) 16 = .ok v) :
    (s.queue q).Passed (((s.begun q).finishPacket q (s.headStarted q)).queue q) ∧
    ((s.begun q).finishPacket q (s.headStarted q)).dev.mem = (v.ctlWrite (v.queue q) (BitVec.ofNat 80 (fieldOf (s.headPacket (s.queue q)) 256 80)) (leBytes s.dev.tick 8 ++ leBytes (fieldOf (s.headPacket (s.queue q)) 336 64) 8)).dev.mem := by
  have hp := s.headStarted_packet q
  have hsig : pktSigen (s.headStarted q).packet.toNat = false := by rw [hp]; exact pktSigen_false (by rw [h7]; decide) hs
  have htick : v.dev.tick = s.dev.tick := by rw [State.control_ok hv]; exact (s.begun_work q).tick
  rw [State.finishPacket_mark (by rw [hp]; exact h7) rfl rfl hsig (by rw [hp]; exact hv), State.packetOver_mem, hp, htick]
  refine ⟨?_, rfl⟩
  refine Queue.Moved.over hf rfl (Queue.Moved.put hf rfl (y := s.headStarted q) ?_ rfl)
  rw [State.ctlWrite_queue, State.control_queue hv]
  exact s.begun_moved q

theorem State.begun_markFails (h7 : pktType (s.headPacket (s.queue q)) = 7) (hs : (s.headPacket (s.queue q)).testBit 10 = false)
    (hv : (s.begun q).control ((s.begun q).queue q) { w := true } (BitVec.ofNat 80 (fieldOf (s.headPacket (s.queue q)) 256 80)) 16 = .fail) : (s.queue q).Faulted (((s.begun q).finishPacket q (s.headStarted q)).queue q) := by
  have hp := s.headStarted_packet q
  have hsig : pktSigen (s.headStarted q).packet.toNat = false := by rw [hp]; exact pktSigen_false (by rw [h7]; decide) hs
  rw [State.finishPacket_markFails (by rw [hp]; exact h7) rfl rfl hsig (by rw [hp]; exact hv)]
  exact (s.begun_moved q).fails hf rfl { s.headStarted q with err := 6 } rfl

end Start
end Sys2Proof.Machine

namespace Sys2Proof.Machine
open Sys2Proof

/-! ## The handlers (R63 to R70) -/

/-- The head packet is at hand, well formed, not held by BARRIER, and of an index that no started packet has. -/
structure State.Starts (s : State) (q : Nat) : Prop extends s.AtHead q where
  fresh : ∀ y ∈ (s.queue q).started, y.n ≠ (s.queue q).ridx
  good : s.badPacket (s.queue q) (s.headPacket (s.queue q)) = false
  free : pktType (s.headPacket (s.queue q)) = 8 ∨ pktBarrier (s.headPacket (s.queue q)) = false ∨ (s.queue q).started = []

/-! ### What LAUNCH and DRAW make (R64, R65, R83) -/

/-- The number that the next launch of the queue's Arbour has (R83). -/
def State.nextId (s : State) (q : Nat) : Word := BitVec.ofNat 32 ((s.queue q).home * 2 ^ 29 + s.dev.counters.getD (s.queue q).home 0 % 2 ^ 29)
/-- The state in which it has been given. -/
def State.numbered (s : State) (q : Nat) : State :=
  (s.withdrawNotice q).setDev fun d => { d with counters := putAt 0 d.counters (s.queue q).home (s.dev.counters.getD (s.queue q).home 0 + 1) }

/-- A launch or draw is made, and its packet starts. -/
def State.launched (s : State) (q : Nat) (l : Launch) : State := ((s.numbered q).setLaunch l).startPacket q { s.headStarted q with launch := s.nextId q }

/-- The launch that a LAUNCH packet makes. -/
def State.launchOf (s : State) (q : Nat) : Launch :=
  let p := s.headPacket (s.queue q)
  { id := s.nextId q, total := fieldOf p 416 31 * fieldOf p 448 16 * fieldOf p 464 16, kdesc := BitVec.ofNat 80 (fieldOf p 256 80), args := BitVec.ofNat 80 (fieldOf p 336 80), gx := fieldOf p 416 31
    gy := fieldOf p 448 16, gz := fieldOf p 464 16, qgen := (s.queue q).qgen, queue := q, packet := (s.queue q).ridx, ctx := (s.queue q).ctx, cohort := p.testBit 480, morton := p.testBit 447, sync := p.testBit 9 }
/-- The draw that a DRAW packet makes. -/
def State.drawOf (s : State) (q : Nat) : Launch :=
  let p := s.headPacket (s.queue q)
  { id := s.nextId q, isDraw := true, total := 2 ^ 64 - 1, kdesc := BitVec.ofNat 80 (fieldOf p 256 80), qgen := (s.queue q).qgen, queue := q, packet := (s.queue q).ridx, ctx := (s.queue q).ctx, sync := p.testBit 9 }
/-- The command that it gives the Saltern. -/
def State.drawCmd (s : State) (q : Nat) : HeldCmd :=
  { g := ⟨q, 16, 16⟩, op := s.nextOp, team := 0, ctx := (s.queue q).ctx, home := (s.queue q).home
    cmd := .packet (fieldOf (s.headPacket (s.queue q)) 416 16) (s.nextId q) (BitVec.ofNat 80 (fieldOf (s.headPacket (s.queue q)) 336 80)) }

section Launched
variable (s : State) (q : Nat)

theorem State.newLaunchId_eq : (s.withdrawNotice q).newLaunchId (s.queue q).home = (s.nextId q, s.numbered q) := by
  have hc : (s.withdrawNotice q).dev.counters = s.dev.counters := rfl
  rw [State.newLaunchId, hc]
  rfl

variable (l : Launch)

theorem State.launched_moved : (s.queue q).Moved { s.headStarted q with launch := s.nextId q } ((s.launched q l).queue q) :=
  State.startPacket_moved (s := (s.numbered q).setLaunch l) (s.withdrawNotice_queue q) _

theorem State.launched_work : QueueWork ((s.numbered q).setLaunch l) (s.launched q l) := State.startPacket_work _ q _

theorem State.numbered_counters : ((s.numbered q).setLaunch l).dev.counters = putAt 0 s.dev.counters (s.queue q).home (s.dev.counters.getD (s.queue q).home 0 + 1) := by
  rw [State.setLaunch_dev]
  rfl

theorem State.launched_counter : (s.launched q l).dev.counters.getD (s.queue q).home 0 = s.dev.counters.getD (s.queue q).home 0 + 1 := by
  rw [(s.launched_work q l).counters, s.numbered_counters, getD_putAt, if_pos rfl]

theorem State.launched_salt : (s.launched q l).dev.salt = s.dev.salt := by
  rw [(s.launched_work q l).salt, State.setLaunch_dev]
  rfl

theorem State.numbered_only : OnlyDev s ((s.numbered q).setLaunch l) := ((((OnlyDev.refl s).setQueue _).setDev _).setDev _).setLaunch l

theorem OnlyDev.filling {s t : State} (h : OnlyDev s t) (p : Nat → Bool) : t.filling? p = s.filling? p := by
  rw [h]
  rfl
theorem OnlyDev.nextOp {s t : State} (h : OnlyDev s t) : t.nextOp = s.nextOp := by rw [h]

theorem State.launched_filling (p : Nat → Bool) : (s.launched q l).filling? p = s.filling? p := ((s.launched_work q l).filling p).trans ((s.numbered_only q l).filling p)
theorem State.launched_nextOp : (s.launched q l).nextOp = s.nextOp := (s.launched_work q l).nextOp.trans (s.numbered_only q l).nextOp

variable {l}

theorem State.launched_record (hl : l.id = s.nextId q) : (s.launched q l).launch? (s.nextId q) = some l := by
  rw [(s.launched_work q l).launch, State.launch_setLaunch, if_pos hl.symm]

end Launched

section Handlers
variable {s : State} {q : Nat} (h : s.Starts q)
include h

theorem State.Starts.handle {mine : Nat → Bool} (hm : mine (pktType (s.headPacket (s.queue q))) = true) (f : State → Queue → Nat → Outcome) :
    s.handle q mine f = f (s.withdrawNotice q) (s.queue q).unnoticed (s.headPacket (s.queue q)) := State.handle_starts h.toAtHead f hm h.good h.free

/-- SIGNAL, MARK and PAD have nothing to wait for. -/
theorem exec_begins {i : Instr} (hi : (i = .signal q ∧ pktType (s.headPacket (s.queue q)) = 3) ∨ (i = .mark q ∧ pktType (s.headPacket (s.queue q)) = 7) ∨ (i = .pad q ∧ pktType (s.headPacket (s.queue q)) = 8)) :
    exec i s = .next ((s.begun q).finishPacket q (s.headStarted q)) := by
  rcases hi with ⟨rfl, ht⟩ | ⟨rfl, ht⟩ | ⟨rfl, ht⟩
  · rw [exec_signal, execSignal, h.handle]
    · rfl
    · rw [ht]; decide
  · rw [exec_mark, execMark, h.handle]
    · rfl
    · rw [ht]; decide
  · rw [exec_pad, execPad, h.handle]
    · rfl
    · rw [ht]; decide

/-! ### CODESYNC (R67) -/

theorem execCodesync_waits (ht : pktType (s.headPacket (s.queue q)) = 5) (hc : ∃ c ∈ s.allCores, c.fills ≠ []) : execCodesync q s = .refused .notDue := by
  obtain ⟨c, hc, hn⟩ := hc
  have hfill : ((s.withdrawNotice q).filling? fun _ => true) = true := List.any_eq_true.2 ⟨c, hc, by simpa using hn⟩
  rw [execCodesync, h.handle]
  · exact if_pos hfill
  · rw [ht]; decide

theorem execCodesync_syncs (ht : pktType (s.headPacket (s.queue q)) = 5) (hc : ∀ c ∈ s.allCores, c.fills = []) :
    execCodesync q s = .next (((s.withdrawNotice q).mapCores fun c => c.icinvAll (s.queue q).ctx (BitVec.ofNat 32 (fieldOf (s.headPacket (s.queue q)) 256 32)) (BitVec.ofNat 32 (fieldOf (s.headPacket (s.queue q)) 288 32))).startNow
      q (s.queue q).unnoticed (s.headPacket (s.queue q))) := by
  have hfill : ¬ ((s.withdrawNotice q).filling? fun _ => true) = true := by
    rw [State.filling?, List.any_eq_true]
    rintro ⟨c, hm, hn⟩
    rw [hc c hm] at hn
    exact absurd hn (by simp)
  rw [execCodesync, h.handle]
  · exact if_neg hfill
  · rw [ht]; decide

/-! ### PRIO (R48, R68) -/

/-- The PRIO packet with the tick of its claim; the cores it goes to are those of a context that is RESIDENT. -/
def State.prioStarted (s : State) (q : Nat) (send : Bool) : Started := { s.headStarted q with stamp := s.claimedAt q, wait := if send then List.range 832 else [] }

theorem execPrio_takes (ht : pktType (s.headPacket (s.queue q)) = 6) {send : Bool} {t : State}
    (hp : (s.withdrawNotice q).takePrio (fieldOf (s.headPacket (s.queue q)) 256 8) ⟨fieldOf (s.headPacket (s.queue q)) 264 4, s.claimedAt q, false⟩ = (send, t)) :
    execPrio q s = .next (if send then t.startPacket q (s.prioStarted q send) else (t.startPacket q (s.prioStarted q send)).finishPacket q (s.prioStarted q send)) := by
  have hc : Started.prioCtx { s.headStarted q with stamp := s.claimedAt q } = fieldOf (s.headPacket (s.queue q)) 256 8 := by rw [Started.prioCtx, s.headStarted_packet]
  have hu : Started.update { s.headStarted q with stamp := s.claimedAt q } = ⟨fieldOf (s.headPacket (s.queue q)) 264 4, s.claimedAt q, false⟩ := by rw [Started.update, s.headStarted_packet]
  rw [← hc, ← hu] at hp
  change (s.withdrawNotice q).takePrio (Started.prioCtx { n := (s.queue q).unnoticed.ridx, packet := BitVec.ofNat 512 (s.headPacket (s.queue q)), stamp := s.claimedAt q })
    (Started.update { n := (s.queue q).unnoticed.ridx, packet := BitVec.ofNat 512 (s.headPacket (s.queue q)), stamp := s.claimedAt q }) = (send, t) at hp
  rw [execPrio, h.handle]
  · dsimp only
    rw [hp]
    rfl
  · rw [ht]; decide

/-! ### WAITV (R66) -/

theorem execWaitv_met (ht : pktType (s.headPacket (s.queue q)) = 4) (hm : (s.queue q).waitMet = true) :
    execWaitv q s = .next ((s.withdrawNotice q).startNow q (s.queue q).unnoticed (s.headPacket (s.queue q))) := by
  have hm' : (s.queue q).unnoticed.waitMet = true := hm
  rw [execWaitv, h.handle]
  · rw [if_pos hm']
  · rw [ht]; decide

theorem execWaitv_reads (ht : pktType (s.headPacket (s.queue q)) = 4) (hm : (s.queue q).waitMet = false) :
    execWaitv q s = .next ((s.withdrawNotice q).tryWait q (s.queue q).unnoticed (s.headPacket (s.queue q)) fun t => t.startNow q (s.queue q).unnoticed (s.headPacket (s.queue q))) := by
  have hm' : (s.queue q).unnoticed.waitMet = false := hm
  rw [execWaitv, h.handle]
  · rw [hm', if_neg (by decide)]
  · rw [ht]; decide

/-! ### LAUNCH and DRAW (R64, R65) -/

theorem execLaunch_launches (ht : pktType (s.headPacket (s.queue q)) = 1) : execLaunch q s = .next (s.launched q (s.launchOf q)) := by
  rw [execLaunch, h.handle]
  · show (match (s.withdrawNotice q).newLaunchId (s.queue q).home with | (id, t) => _) = _
    rw [s.newLaunchId_eq]
    rfl
  · rw [ht]; decide

theorem execDraw_submits (ht : pktType (s.headPacket (s.queue q)) = 2) : execDraw q s = .next ((s.launched q (s.drawOf q)).submit (s.drawCmd q)) := by
  rw [execDraw, h.handle]
  · show (match (s.withdrawNotice q).newLaunchId (s.queue q).home with | (id, t) => _) = _
    rw [s.newLaunchId_eq]
    show Host.Outcome.next ((s.launched q (s.drawOf q)).submit { s.drawCmd q with op := (s.launched q (s.drawOf q)).nextOp }) = _
    rw [s.launched_nextOp]
    rfl
  · rw [ht]; decide

end Handlers

/-! ### The Saltern's order (R189, R304) -/

/-- A command that is not tried, or that waits, stands behind the others. -/
theorem State.submit_parks {s : State} {c : HeldCmd} (ha : c.cmd.headerAt = none) (h : s.dev.salt.any (sameOrder c) = true ∨ s.applyCmd c = .wait s) :
    s.submit c = { s with dev := { s.dev with salt := s.dev.salt ++ [c] } } := by
  have hh : s.homed c = c := by rw [State.homed, ha]
  unfold State.submit
  dsimp only
  rw [hh]
  split
  · rfl
  · next hp =>
    rw [Bool.or_eq_true, not_or] at hp
    rw [State.tryCmd, h.resolve_left hp.1]
    rfl

/-- A SYNC draw waits for the line fills of its Arbour (R304). -/
theorem State.applyCmd_syncs {s : State} {c : HeldCmd} {seth : Nat} {id : Word} {at_ : VAddr} (hc : c.cmd = .packet seth id at_) {l : Launch} (hl : s.launch? id = some l) (hs : l.sync = true)
    (hf : s.filling? (fun a => a = c.home) = true) : s.applyCmd c = .wait s := by
  unfold State.applyCmd
  rw [hc]
  dsimp only
  rw [hl]
  split
  · rfl
  · rw [State.drawSync, Option.getD_some, if_neg (by rw [hs]; decide), if_pos hf]

end Sys2Proof.Machine

namespace Sys2Proof.Machine
open Sys2Proof

/-! ## Polling (R58) -/

/-- A queue whose write index has been read as w. -/
def Queue.readAt (k : Queue) (tick w : Nat) : Queue :=
  { k with pollns := k.nextPoll (decide (k.lastW < w)), due := tick + k.nextPoll (decide (k.lastW < w)) * 5 / 4, lastW := w }

/-- The scanner's turn at a queue: it polls it, it is due, and none comes before it. -/
def State.PollsNext (s : State) (q : Nat) : Prop := (s.queue q).polled = true ∧ (s.queue q).due ≤ s.dev.tick ∧ ∀ y ∈ s.dev.queues, y.pollsBefore (s.queue q) = false

section Poll
variable {s : State} {q : Nat} (h : s.PollsNext q)

include h in
theorem execQueuePoll_eq : execQueuePoll q s =
    if !s.reach (s.queue q).widxAddr 8 then .next ((s.setQueue { s.queue q with due := s.dev.tick + (s.queue q).pollns * 5 / 4 }).errorAt q 3 (s.queue q).ridx)
    else if (s.queue q).state = .error then .next (s.setQueue ((s.queue q).readAt s.dev.tick (s.word64 (s.queue q).widxAddr)))
    else if (s.queue q).ridx + 2 ^ (s.queue q).log2 < s.word64 (s.queue q).widxAddr ∨ s.word64 (s.queue q).widxAddr < (s.queue q).lastW then
      .next ((s.setQueue ((s.queue q).readAt s.dev.tick (s.word64 (s.queue q).widxAddr))).errorAt q 2 (s.queue q).ridx)
    else if (s.queue q).ridx < s.word64 (s.queue q).widxAddr ∧ (s.queue q).state ≠ .stalled then
      .next (((s.setQueue ((s.queue q).readAt s.dev.tick (s.word64 (s.queue q).widxAddr))).setQueue
        { (s.setQueue ((s.queue q).readAt s.dev.tick (s.word64 (s.queue q).widxAddr))).queue q with state := .active }).postNotice q)
    else .next (s.setQueue ((s.queue q).readAt s.dev.tick (s.word64 (s.queue q).widxAddr))) := by
  obtain ⟨hp, hd, hb⟩ := h
  unfold execQueuePoll
  dsimp only
  rw [if_neg]
  · rfl
  · rintro (h | h | h)
    · rw [hp] at h
      exact absurd h (by decide)
    · omega
    · obtain ⟨y, hy, hyb⟩ := List.any_eq_true.1 h
      rw [hb y hy] at hyb
      exact Bool.false_ne_true hyb

theorem State.readAt_queue (w : Nat) : (s.setQueue ((s.queue q).readAt s.dev.tick w)).queue q = (s.queue q).readAt s.dev.tick w := (State.setQueue_at (k := (s.queue q).readAt s.dev.tick w) (s.queue_num q)).1

end Poll

/-! ## WAITV (R66) -/

theorem State.tryWait_ok {s v : State} {q : Nat} {k : Queue} {p : Nat} (met : State → State) (hv : s.control k { r := true } (waitAddr p) 8 = .ok v) :
    s.tryWait q k p met = if waitCond p (v.ctlRead k (waitAddr p) 8) then met v else v.setQueue { v.queue q with state := .stalled, held := [], waitSince := some (k.waitSince.getD v.dev.tick) } := by
  unfold State.tryWait
  dsimp only
  rw [hv]

section Waiting
variable {s : State} {q : Nat} {since : Nat} (hs : (s.queue q).state = .stalled) (hw : (s.queue q).waitSince = some since)
include hs hw

theorem State.waiting_some : s.waiting? q = some (s.headPacket (s.queue q)) := if_pos ⟨hs, by rw [hw]; rfl⟩

theorem execWaitvPoll_reads (hh : (s.queue q).held = []) (hr : (s.ctx (s.queue q).ctx).state = .resident) :
    execWaitvPoll q s = .next (s.tryWait q (s.queue q) (s.headPacket (s.queue q)) fun t => (t.setQueue { t.queue q with state := .active, waitMet := true }).postNotice q) := by
  rw [execWaitvPoll, State.waiting_some hs hw]
  exact if_neg (by rintro (h | h); exacts [h hh, h hr])

theorem execWaitvTimeout_errs (hl : fieldOf (s.headPacket (s.queue q)) 480 32 ≠ 0) (ht : since + fieldOf (s.headPacket (s.queue q)) 480 32 ≤ s.dev.tick)
    (hc : s.gCheck s.dev.lodgeTlb (s.ctx (s.queue q).ctx) (s.queue q).home { r := true } [(waitAddr (s.headPacket (s.queue q)), 8)] = .ok → waitCond (s.headPacket (s.queue q)) (s.ctlRead (s.queue q) (waitAddr (s.headPacket (s.queue q))) 8) = false) :
    execWaitvTimeout q s = .next (s.errorAt q 4 (s.queue q).ridx) := by
  rw [execWaitvTimeout, State.waiting_some hs hw]
  dsimp only
  rw [hw, Option.getD_some, if_neg]
  rintro (h | h | ⟨h, h'⟩)
  · exact hl h
  · omega
  · rw [hc h] at h'
    exact Bool.false_ne_true h'

end Waiting

/-- The condition of a WAITV, as its field says (R66). -/
theorem waitCond_iff (p w : Nat) : waitCond p w = true ↔
    match fieldOf p 464 3 with
    | 0 => BitVec.ofNat 64 w &&& BitVec.ofNat 64 (fieldOf p 400 64) = BitVec.ofNat 64 (fieldOf p 336 64) &&& BitVec.ofNat 64 (fieldOf p 400 64)
    | 1 => BitVec.ofNat 64 w &&& BitVec.ofNat 64 (fieldOf p 400 64) ≠ BitVec.ofNat 64 (fieldOf p 336 64) &&& BitVec.ofNat 64 (fieldOf p 400 64)
    | 2 => (BitVec.ofNat 64 (fieldOf p 336 64) &&& BitVec.ofNat 64 (fieldOf p 400 64)).toNat ≤ (BitVec.ofNat 64 w &&& BitVec.ofNat 64 (fieldOf p 400 64)).toNat
    | _ => (BitVec.ofNat 64 w &&& BitVec.ofNat 64 (fieldOf p 400 64)).toNat < (BitVec.ofNat 64 (fieldOf p 336 64) &&& BitVec.ofNat 64 (fieldOf p 400 64)).toNat := by
  unfold waitCond
  generalize fieldOf p 464 3 = c
  match c with
  | 0 => exact decide_eq_true_iff
  | 1 => exact bne_iff_ne
  | 2 => exact decide_eq_true_iff
  | _ + 3 => exact decide_eq_true_iff

/-! ## Completion (R62, R71, R84) -/

section Complete
variable {s : State} {q n : Nat} {y : Started} (hy : (s.queue q).started.find? (fun z => z.n = n) = some y)
include hy

theorem execPacketComplete_done (hs : (s.queue q).state ≠ .resetting) (hh : y.held = []) (hd : s.packetDone y = true) : execPacketComplete q n s = .next (s.finishPacket q y) := by
  rw [execPacketComplete, hy]
  refine if_neg ?_
  rintro (h | h | h)
  · exact hs h
  · exact h hh
  · rw [hd] at h
    exact absurd h (by decide)

theorem State.found_n : y.n = n := by simpa using List.find?_some hy

/-- The packet that is over leaves the others. -/
theorem State.packetOver_started : ∀ z, z ∈ ((s.packetOver q y).queue q).started ↔ z ∈ (s.queue q).started ∧ z.n ≠ n := by
  intro z
  obtain ⟨b, hb⟩ := s.packetOver_queue q y
  rw [hb, List.mem_filter, bne_iff_ne, State.found_n hy]

end Complete

/-- The record of a launch that is DONE is freed with its packet. -/
theorem State.packetOver_freed {s : State} {q : Nat} {y : Started} {l : Launch} (hl : s.launch? y.launch = some l) (hd : l.state = .done) (ht : pktType y.packet.toNat = 1 ∨ pktType y.packet.toNat = 2) :
    (s.packetOver q y).launch? y.launch = none := by
  rw [State.packetOver_eq, (State.settleQueue_work _ q).launch, State.freeDone]
  have hl' : (s.setQueue { s.queue q with started := (s.queue q).started.filter fun z => z.n != y.n }).launch? y.launch = some l := hl
  rw [hl']
  dsimp only
  rw [if_pos ⟨hd, ht⟩, ← (State.launch_id hl).2, State.launch?, List.find?_eq_none]
  intro z hz
  have hne : (z.id != l.id) = true := (List.mem_filter.1 hz).2
  simpa using hne

/-- A signal that fails leaves the first error of a queue in ERROR. -/
theorem State.signalFailed_again {s : State} {q n : Nat} {y : Started} (hs : (s.queue q).state = .error) (hy : (s.queue q).started.find? (fun z => z.n = n) = some y) :
    ((s.signalFailed q y).queue q).state = .error ∧ ((s.signalFailed q y).queue q).err = (s.queue q).err ∧ ∀ z, z ∈ ((s.signalFailed q y).queue q).started ↔ z ∈ (s.queue q).started ∧ z.n ≠ n := by
  have hn := State.found_n hy
  have hput := s.putStarted_queue q { y with err := 6 }
  have herr := (s.putStarted q { y with err := 6 }).errorAt_again q 6 y.n (by rw [hput]; exact hs)
  obtain ⟨b, hb⟩ := ((s.putStarted q { y with err := 6 }).errorAt q 6 y.n).packetOver_queue q { y with err := 6 }
  rw [State.signalFailed, hb, herr, hput]
  refine ⟨?_, rfl, fun z => ?_⟩
  · unfold Queue.settled
    dsimp only
    rw [hs]
    split
    · rfl
    · rw [if_neg (by rintro ⟨h, -⟩; exact nomatch h), if_neg (by rintro ⟨h, -⟩; exact nomatch h)]
  · dsimp only
    rw [List.mem_filter, List.mem_map, bne_iff_ne, hn]
    constructor
    · rintro ⟨⟨x, hx, rfl⟩, hz⟩
      by_cases hxn : x.n = n
      · rw [if_pos hxn] at hz
        exact absurd rfl hz
      · rw [if_neg hxn] at hz ⊢
        exact ⟨hx, hz⟩
    · rintro ⟨hz, hzn⟩
      exact ⟨⟨z, hz, if_neg hzn⟩, hzn⟩

/-! ## Priority updates (R48) -/

theorem foldl_min_eq {m : Nat} : ∀ {l : List Nat} {t : Nat}, (∀ x ∈ l, m ≤ x) → m ≤ t → (m ∈ l ∨ t = m) → l.foldl min t = m := by
  intro l
  induction l with
  | nil => exact fun _ _ h => h.resolve_left (by simp)
  | cons a l ih =>
    intro t hl ht h
    refine ih (fun x hx => hl x (List.mem_cons_of_mem _ hx)) (le_min ht (hl a List.mem_cons_self)) ?_
    rcases h with h | h
    · rcases List.mem_cons.1 h with rfl | h
      · exact .inr (min_eq_right ht)
      · exact .inl h
    · exact .inr (by rw [h]; exact min_eq_left (hl a List.mem_cons_self))

/-- A PRIO packet of a context that a core has still to apply. -/
def Started.due (core ctx : Nat) (k : Started) : Bool := pktType k.packet.toNat = 6 && k.prioCtx = ctx && k.wait.contains core

theorem Started.due_iff {core ctx : Nat} {k : Started} : k.due core ctx = true ↔ k.packet.toNat % 256 = 6 ∧ fieldOf k.packet.toNat 256 8 = ctx ∧ core ∈ k.wait := by
  unfold Started.due pktType Started.prioCtx
  rw [Bool.and_eq_true, Bool.and_eq_true, decide_eq_true_iff, decide_eq_true_iff, List.contains_iff_mem, and_assoc]

/-- The updates on their way to a core, with their queues. -/
def State.updates (s : State) (core ctx : Nat) : List (Option Nat × Started) :=
  (s.dev.queues.flatMap fun q => (q.started.filter (Started.due core ctx)).map fun k => (some q.num, k)) ++ (s.dev.strays.filter (Started.due core ctx)).map fun k => (none, k)

theorem State.mem_updates {s : State} {core ctx : Nat} {x : Option Nat × Started} : x ∈ s.updates core ctx ↔
    (∃ z ∈ s.dev.queues, ∃ v ∈ z.started, v.due core ctx = true ∧ (some z.num, v) = x) ∨ ∃ v ∈ s.dev.strays, v.due core ctx = true ∧ (none, v) = x := by
  simp only [State.updates, List.mem_append, List.mem_flatMap, List.mem_map, List.mem_filter, and_assoc]

section Prio
variable {s : State} {q core ctx : Nat} {y : Started}

/-- The update of the earliest stamp is applied first. -/
theorem execPrioUpdateApply_first (hm : (some q, y) ∈ s.updates core ctx) (ht : y.stamp ≤ s.dev.tick) (hu : ∀ x ∈ s.updates core ctx, x = (some q, y) ∨ y.stamp < x.2.stamp) :
    execPrioUpdateApply core ctx s = .next ((s.applyPrio core ctx y.update).putStarted q { y with wait := y.wait.filter fun c => c != core }) := by
  have hmin : ((s.updates core ctx).map fun x => x.2.stamp).foldl min s.dev.tick = y.stamp := by
    refine foldl_min_eq (fun a ha => ?_) ht (.inl (List.mem_map.2 ⟨_, hm, rfl⟩))
    obtain ⟨x, hx, rfl⟩ := List.mem_map.1 ha
    rcases hu x hx with rfl | h
    · exact Nat.le_refl _
    · exact h.le
  have hfind : (s.updates core ctx).find? (fun x => x.2.stamp = y.stamp) = some (some q, y) := by
    cases h : (s.updates core ctx).find? fun x => x.2.stamp = y.stamp with
    | none => exact absurd (List.find?_eq_none.1 h _ hm) (by simp)
    | some x =>
      have hx : x.2.stamp = y.stamp := by simpa using List.find?_some h
      rcases hu x (List.mem_of_find?_eq_some h) with rfl | hlt
      · rfl
      · omega
  rw [← hmin] at hfind
  unfold execPrioUpdateApply
  dsimp only
  change (match (s.updates core ctx).find? (fun x => x.2.stamp = ((s.updates core ctx).map fun x => x.2.stamp).foldl min s.dev.tick) with | none => _ | some (q, k) => _) = _
  rw [hfind]

theorem State.applyPrio_wakes (u : PrioUpdate) : ((s.applyPrio core ctx u).coreOf core).wakes = (s.coreOf core).wakes ||| 0x10 := by
  unfold State.applyPrio State.wake
  rw [State.coreOf_onCore _ core (f := fun k => { k with wakes := k.wakes ||| (1#6 <<< 4) }) (fun _ => rfl), if_pos rfl,
    State.coreOf_onCore _ core (f := fun k => if u.beats (k.prio (s.ctx ctx)) then { k with prios := upsert (fun x => x.ctx = ctx) ⟨ctx, u.prio, u.stamp, u.mailbox⟩ k.prios } else k) (fun k => by split <;> rfl), if_pos rfl]
  dsimp only
  split <;> rfl

end Prio
end Sys2Proof.Machine

namespace Sys2Proof.Machine
open Sys2Proof

/-! ## What the events of a queue come to (R58 to R71) -/

/-- A queue errs (R71): ERROR with a code, and no notice of it is left. -/
def State.Errs (s : State) (q : Nat) (i : Instr) (code : Nat) : Prop :=
  ∃ t, exec i s = .next t ∧ (t.queue q).state = .error ∧ (t.queue q).err = code ∧ (t.queue q).notice = false ∧ (t.queue q).claimed = false ∧ ∀ n ∈ t.dev.notices, n.raster = false → n.queue ≠ q

theorem State.Errs.of_errorAt {s t : State} {q : Nat} {i : Instr} {code n : Nat} (h : exec i s = .next (t.errorAt q code n)) (ht : (t.queue q).state = .idle ∨ (t.queue q).state = .active ∨ (t.queue q).state = .stalled) :
    s.Errs q i code := by
  obtain ⟨hq, hn⟩ := t.errorAt_first q code n ht
  exact ⟨_, h, by rw [hq], by rw [hq], by rw [hq], by rw [hq], hn⟩

/-- The event of a packet type. -/
noncomputable def handlerOf (q type : Nat) : Instr :=
  match type with | 2 => .draw q | 3 => .signal q | 4 => .waitv q | 5 => .codesync q | 6 => .prio q | 7 => .mark q | 8 => .pad q | _ => .launch q

theorem exec_handlerOf (s : State) (q type : Nat) : ∃ (mine : Nat → Bool) (f : State → Queue → Nat → Outcome), mine type = true ∧ exec (handlerOf q type) s = s.handle q mine f := by
  unfold handlerOf
  split
  · exact ⟨fun t => decide (t = 2), _, rfl, exec_draw q s⟩
  · exact ⟨fun t => decide (t = 3), _, rfl, exec_signal q s⟩
  · exact ⟨fun t => decide (t = 4), _, rfl, exec_waitv q s⟩
  · exact ⟨fun t => decide (t = 5), _, rfl, exec_codesync q s⟩
  · exact ⟨fun t => decide (t = 6), _, rfl, (exec_prio q s).trans (by unfold execPrio; rfl)⟩
  · exact ⟨fun t => decide (t = 7), _, rfl, exec_mark q s⟩
  · exact ⟨fun t => decide (t = 8), _, rfl, exec_pad q s⟩
  · refine ⟨fun t => t = 1 || t = 0 || decide (8 < t), _, ?_, exec_launch q s⟩
    simp only [imp_false, Bool.or_eq_true, decide_eq_true_eq] at *
    omega

section Events
variable {s : State} {q : Nat}

/-! ### Polls -/

theorem State.PollsNext.faults (h : s.PollsNext q) (hr : s.reach (s.queue q).widxAddr 8 = false) (hs : (s.queue q).state = .idle ∨ (s.queue q).state = .active ∨ (s.queue q).state = .stalled) :
    s.Errs q (.queuePoll q) 3 := by
  have hq := (State.setQueue_at (s := s) (k := { s.queue q with due := s.dev.tick + (s.queue q).pollns * 5 / 4 }) (s.queue_num q)).1
  refine State.Errs.of_errorAt ((execQueuePoll_eq h).trans (if_pos (by rw [hr]; rfl))) ?_
  rw [hq]
  exact hs

/-- What a poll that reads w leaves of a queue, whatever it does then. -/
def Queue.Polled (k : Queue) (tick w : Nat) (z : Queue) : Prop :=
  z.lastW = w ∧ z.pollns = (if k.cls = 0 then 128 else if k.lastW < w then 256 else min 65536 (2 * k.pollns)) ∧ z.due = tick + z.pollns * 5 / 4

theorem Queue.readAt_polled (k : Queue) (tick w : Nat) : k.Polled tick w (k.readAt tick w) := by
  refine ⟨rfl, ?_, rfl⟩
  simp only [Queue.readAt, Queue.nextPoll, decide_eq_true_eq]

/-- A poll that reads w: work gets its notice, an overrun errs the queue (R58, R71). -/
def State.PollRead (s : State) (q w : Nat) (t : State) : Prop :=
  (s.queue q).Polled s.dev.tick w (t.queue q) ∧
  (((s.queue q).state = .idle ∨ (s.queue q).state = .active) → (s.queue q).lastW ≤ w → (s.queue q).ridx < w → w ≤ (s.queue q).ridx + 2 ^ (s.queue q).log2 →
    (t.queue q).state = .active ∧ ((t.queue q).notice = true ∨ (t.queue q).claimed = true)) ∧
  (((s.queue q).state = .idle ∨ (s.queue q).state = .active ∨ (s.queue q).state = .stalled) → ((s.queue q).ridx + 2 ^ (s.queue q).log2 < w ∨ w < (s.queue q).lastW) →
    (t.queue q).state = .error ∧ (t.queue q).err = 2)

theorem Queue.polled_live {k : Queue} (h : k.polled = true) (he : k.state ≠ .error) : k.state = .idle ∨ k.state = .active ∨ k.state = .stalled := by
  unfold Queue.polled at h
  revert h he
  cases k.state <;> decide

theorem State.PollsNext.reads (h : s.PollsNext q) (hr : s.reach (s.queue q).widxAddr 8 = true) : ∃ t, execQueuePoll q s = .next t ∧ s.PollRead q (s.word64 (s.queue q).widxAddr) t := by
  have heq := execQueuePoll_eq h
  rw [if_neg (by rw [hr]; decide)] at heq
  generalize s.word64 (s.queue q).widxAddr = w at heq ⊢
  have hq := s.readAt_queue (q := q) w
  have hpolled := (s.queue q).readAt_polled s.dev.tick w
  generalize s.setQueue ((s.queue q).readAt s.dev.tick w) = u at heq hq
  by_cases he : (s.queue q).state = .error
  · rw [if_pos he] at heq
    exact ⟨u, heq, by rw [hq]; exact hpolled, (by rw [he]; rintro (h | h) <;> cases h), by rw [he]; rintro (h | h | h) <;> cases h⟩
  rw [if_neg he] at heq
  by_cases ho : (s.queue q).ridx + 2 ^ (s.queue q).log2 < w ∨ w < (s.queue q).lastW
  · rw [if_pos ho] at heq
    have herr := (u.errorAt_first q 2 (s.queue q).ridx (by rw [hq]; exact Queue.polled_live h.1 he)).1
    rw [hq] at herr
    exact ⟨_, heq, by rw [herr]; exact hpolled, fun _ _ _ _ => by omega, fun _ _ => by rw [herr]; exact ⟨rfl, rfl⟩⟩
  rw [if_neg ho] at heq
  by_cases hw : (s.queue q).ridx < w ∧ (s.queue q).state ≠ .stalled
  · rw [if_pos hw] at heq
    have hset := (State.setQueue_at (s := u) (k := { u.queue q with state := .active }) (u.queue_num q)).1
    rw [hq] at heq hset
    have hpost := (u.setQueue { (s.queue q).readAt s.dev.tick w with state := .active }).postNotice_queue q
    rw [hset] at hpost
    refine ⟨_, heq, by rw [hpost]; exact hpolled, fun _ _ _ _ => ?_, fun _ k => absurd k ho⟩
    rw [hpost]
    refine ⟨rfl, ?_⟩
    dsimp only
    cases ((s.queue q).readAt s.dev.tick w).claimed
    · exact .inl (by simp)
    · exact .inr rfl
  · rw [if_neg hw] at heq
    exact ⟨u, heq, by rw [hq]; exact hpolled, fun hs _ hlt _ => absurd ⟨hlt, by rcases hs with hs | hs <;> rw [hs] <;> decide⟩ hw, fun _ k => absurd k ho⟩

/-! ### A head packet that does not start -/

theorem State.AtHead.errs (h : s.AtHead q) (hb : s.badPacket (s.queue q) (s.headPacket (s.queue q)) = true) : s.Errs q (handlerOf q (pktType (s.headPacket (s.queue q)))) 1 := by
  obtain ⟨mine, f, hm, he⟩ := exec_handlerOf s q (pktType (s.headPacket (s.queue q)))
  refine State.Errs.of_errorAt (he.trans (State.handle_bad h f hm hb)) (.inr (.inl ?_))
  rw [s.withdrawNotice_queue]
  exact h.active

theorem State.AtHead.stalls (h : s.AtHead q) (hb : s.badPacket (s.queue q) (s.headPacket (s.queue q)) = false) (h8 : pktType (s.headPacket (s.queue q)) ≠ 8)
    (hB : pktBarrier (s.headPacket (s.queue q)) = true) (hs : (s.queue q).started ≠ []) :
    ∃ t, exec (handlerOf q (pktType (s.headPacket (s.queue q)))) s = .next t ∧ (t.queue q).state = .stalled ∧ (t.queue q).ridx = (s.queue q).ridx ∧ t.dev.mem = s.dev.mem := by
  obtain ⟨mine, f, hm, he⟩ := exec_handlerOf s q (pktType (s.headPacket (s.queue q)))
  have hq := (State.setQueue_at (s := s.withdrawNotice q) (k := { (s.queue q).unnoticed with state := .stalled }) (s.queue_num q)).1
  exact ⟨_, he.trans (State.handle_stalls h f hm hb h8 hB hs), by rw [hq], by rw [hq]; rfl, rfl⟩

end Events

/-! ### Packets that start -/

section Starting
variable {s : State} {q : Nat} (h : s.Starts q)
include h

theorem execPad_over (ht : pktType (s.headPacket (s.queue q)) = 8) : ∃ t, exec (.pad q) s = .next t ∧ (s.queue q).Passed (t.queue q) ∧ t.dev.mem = (s.begun q).dev.mem := by
  refine ⟨_, exec_begins h (.inr (.inr ⟨rfl, ht⟩)), ?_⟩
  rw [State.finishPacket_pad (by rw [s.headStarted_packet]; exact ht), State.packetOver_mem]
  exact ⟨(s.begun_moved q).over h.fresh rfl, rfl⟩

/-- CODESYNC drops the lines of every core, and is over (R67). -/
theorem execCodesync_over (ht : pktType (s.headPacket (s.queue q)) = 5) (hs : (s.headPacket (s.queue q)).testBit 10 = false) (hc : ∀ c ∈ s.allCores, c.fills = []) :
    ∃ t, execCodesync q s = .next t ∧ (s.queue q).Passed (t.queue q) ∧ t.dev.mem = (s.begun q).dev.mem ∧
      t.core.icache = (s.core.icinvAll (s.queue q).ctx (BitVec.ofNat 32 (fieldOf (s.headPacket (s.queue q)) 256 32)) (BitVec.ofNat 32 (fieldOf (s.headPacket (s.queue q)) 288 32))).icache ∧
      t.cores.map Core.icache = s.cores.map fun c => (c.icinvAll (s.queue q).ctx (BitVec.ofNat 32 (fieldOf (s.headPacket (s.queue q)) 256 32)) (BitVec.ofNat 32 (fieldOf (s.headPacket (s.queue q)) 288 32))).icache := by
  refine ⟨_, execCodesync_syncs h ht hc, ?_⟩
  generalize hw : (s.withdrawNotice q).mapCores _ = w
  have ho : pktType (s.headPacket (s.queue q)) = 8 ∨ pktType (s.headPacket (s.queue q)) ≠ 7 ∧ pktSigen (s.headPacket (s.queue q)) = false :=
    .inr ⟨by rw [ht]; decide, pktSigen_false (by rw [ht]; decide) hs⟩
  have hq : w.queue q = (s.queue q).unnoticed := by
    rw [← hw]
    exact s.withdrawNotice_queue q
  obtain ⟨hpassed, hmem⟩ := State.startNow_over h.fresh hq ho
  obtain ⟨hcore, hcores⟩ := (State.startNow_work (w := w) ho (by rw [ht]; decide)).icache
  refine ⟨hpassed, ?_, ?_, ?_⟩
  · rw [hmem, s.begun_mem, ← hw]
    rfl
  · rw [hcore, ← hw]
    rfl
  · rw [hcores, ← hw]
    exact List.map_map

/-- PRIO for a context that is RESIDENT goes to the cores (R48). -/
theorem execPrio_sends (ht : pktType (s.headPacket (s.queue q)) = 6) {c : Ctx} {up : PrioUpdate} (hc : c = s.ctx (fieldOf (s.headPacket (s.queue q)) 256 8)) (hu : up = ⟨fieldOf (s.headPacket (s.queue q)) 264 4, s.claimedAt q, false⟩)
    (hr : c.state = .resident) : ∃ t, execPrio q s = .next t ∧ (s.queue q).Moved { s.headStarted q with stamp := s.claimedAt q, wait := List.range 832 } (t.queue q) ∧
      t.ctx (fieldOf (s.headPacket (s.queue q)) 256 8) = { c with eff := if up.beats c.eff then up else c.eff } := by
  have hctx : (s.withdrawNotice q).ctx (fieldOf (s.headPacket (s.queue q)) 256 8) = c := ((s.withdrawNotice_work q).ctx _).trans hc.symm
  have htake := State.takePrio_resident (s := s.withdrawNotice q) (n := fieldOf (s.headPacket (s.queue q)) 256 8) (by rw [hctx]; exact hr) up
  rw [hctx, hu] at htake
  refine ⟨_, (execPrio_takes h ht htake).trans (congrArg _ (if_pos rfl)), ?_, ?_⟩
  · have hx : s.prioStarted q true = { s.headStarted q with stamp := s.claimedAt q, wait := List.range 832 } := by rw [State.prioStarted, if_pos rfl]
    have hq (k : Ctx) : ((s.withdrawNotice q).setCtx k).queue q = (s.queue q).unnoticed := s.withdrawNotice_queue q
    rw [← hx]
    exact State.startPacket_moved (hq _) _
  · rw [(State.startPacket_work _ q _).ctx, hu]
    exact (State.setCtx_at (by rw [hc]; exact s.ctx_num _)).1

/-- PRIO for another context is over at once; one that is not in ERROR keeps the update. -/
theorem execPrio_keeps (ht : pktType (s.headPacket (s.queue q)) = 6) {c : Ctx} {up : PrioUpdate} (hc : c = s.ctx (fieldOf (s.headPacket (s.queue q)) 256 8)) (hu : up = ⟨fieldOf (s.headPacket (s.queue q)) 264 4, s.claimedAt q, false⟩)
    (hr : c.state ≠ .resident) (hs : (s.headPacket (s.queue q)).testBit 10 = false) : ∃ t, execPrio q s = .next t ∧ (s.queue q).Passed (t.queue q) ∧
      t.ctx (fieldOf (s.headPacket (s.queue q)) 256 8) = if c.state = .error then c else { c with kept := c.kept ++ [up] } := by
  have hctx : (s.withdrawNotice q).ctx (fieldOf (s.headPacket (s.queue q)) 256 8) = c := ((s.withdrawNotice_work q).ctx _).trans hc.symm
  have hp : (s.prioStarted q false).packet.toNat = s.headPacket (s.queue q) := s.headStarted_packet q
  have hover (w : State) (hw : w.queue q = (s.queue q).unnoticed) : ((w.startPacket q (s.prioStarted q false)).finishPacket q (s.prioStarted q false)) =
      (w.startPacket q (s.prioStarted q false)).packetOver q (s.prioStarted q false) ∧ (s.queue q).Passed (((w.startPacket q (s.prioStarted q false)).packetOver q (s.prioStarted q false)).queue q) := by
    refine ⟨State.finishPacket_over (.inr ?_), (State.startPacket_moved hw _).over h.fresh rfl⟩
    rw [hp, ht]
    exact ⟨fun h => absurd h.1 (by decide), pktSigen_false (by rw [ht]; decide) hs⟩
  have hwork (w : State) : QueueWork w ((w.startPacket q (s.prioStarted q false)).packetOver q (s.prioStarted q false)) :=
    (w.startPacket_work q _).trans (State.packetOver_work _ q (by rw [hp, ht]; decide))
  have hone {w : State} (htake : (s.withdrawNotice q).takePrio (fieldOf (s.headPacket (s.queue q)) 256 8) ⟨fieldOf (s.headPacket (s.queue q)) 264 4, s.claimedAt q, false⟩ = (false, w))
      (hw : w.queue q = (s.queue q).unnoticed) : ∃ t, execPrio q s = .next t ∧ (s.queue q).Passed (t.queue q) ∧ t.ctx (fieldOf (s.headPacket (s.queue q)) 256 8) = w.ctx (fieldOf (s.headPacket (s.queue q)) 256 8) := by
    obtain ⟨hfin, hpassed⟩ := hover w hw
    exact ⟨_, (execPrio_takes h ht htake).trans (congrArg _ ((if_neg (by decide)).trans hfin)), hpassed, (hwork w).ctx _⟩
  by_cases he : c.state = .error
  · obtain ⟨t, hexec, hpassed, ht⟩ := hone (State.takePrio_error (by rw [hctx]; exact he) _) (s.withdrawNotice_queue q)
    exact ⟨t, hexec, hpassed, by rw [ht, hctx, if_pos he]⟩
  · have htake := State.takePrio_kept (s := s.withdrawNotice q) (n := fieldOf (s.headPacket (s.queue q)) 256 8) (by rw [hctx]; exact hr) (by rw [hctx]; exact he) up
    rw [hctx, hu] at htake
    obtain ⟨t, hexec, hpassed, ht⟩ := hone htake (s.withdrawNotice_queue q)
    refine ⟨t, hexec, hpassed, ?_⟩
    rw [ht, if_neg he, hu]
    exact (State.setCtx_at (by rw [hc]; exact s.ctx_num _)).1

/-- A WAITV whose condition holds, be it that the scanner has seen it or that it is read now, is over (R66). -/
theorem startNow_waited {w : State} (ht : pktType (s.headPacket (s.queue q)) = 4) (hs : (s.headPacket (s.queue q)).testBit 10 = false) (hw : w.queue q = (s.queue q).unnoticed) :
    (s.queue q).Passed ((w.startNow q (s.queue q).unnoticed (s.headPacket (s.queue q))).queue q) :=
  (State.startNow_over h.fresh hw (.inr ⟨by rw [ht]; decide, pktSigen_false (by rw [ht]; decide) hs⟩)).1

theorem execWaitv_goes (ht : pktType (s.headPacket (s.queue q)) = 4) (hm : (s.queue q).waitMet = false) (hs : (s.headPacket (s.queue q)).testBit 10 = false) {v : State}
    (hv : (s.withdrawNotice q).control (s.queue q).unnoticed { r := true } (waitAddr (s.headPacket (s.queue q))) 8 = .ok v)
    (hc : waitCond (s.headPacket (s.queue q)) (v.ctlRead (s.queue q).unnoticed (waitAddr (s.headPacket (s.queue q))) 8) = true) :
    ∃ t, execWaitv q s = .next t ∧ (s.queue q).Passed (t.queue q) := by
  have hread := execWaitv_reads h ht hm
  rw [State.tryWait_ok _ hv, if_pos hc] at hread
  exact ⟨_, hread, startNow_waited h ht hs ((State.control_queue hv q).trans (s.withdrawNotice_queue q))⟩

/-- A WAITV whose condition does not hold makes its queue STALLED. -/
theorem execWaitv_stalls (ht : pktType (s.headPacket (s.queue q)) = 4) (hm : (s.queue q).waitMet = false) {v : State}
    (hv : (s.withdrawNotice q).control (s.queue q).unnoticed { r := true } (waitAddr (s.headPacket (s.queue q))) 8 = .ok v)
    (hc : waitCond (s.headPacket (s.queue q)) (v.ctlRead (s.queue q).unnoticed (waitAddr (s.headPacket (s.queue q))) 8) = false) :
    ∃ t, execWaitv q s = .next t ∧ (t.queue q).state = .stalled ∧ (t.queue q).ridx = (s.queue q).ridx ∧ (t.queue q).waitSince = some ((s.queue q).waitSince.getD s.dev.tick) ∧ t.dev.mem = s.dev.mem := by
  have hread := execWaitv_reads h ht hm
  rw [State.tryWait_ok _ hv, hc, if_neg (by decide)] at hread
  have hvq : v.queue q = (s.queue q).unnoticed := (State.control_queue hv q).trans (s.withdrawNotice_queue q)
  have htick : v.dev.tick = s.dev.tick := by rw [State.control_ok hv]; rfl
  have hmem : v.dev.mem = s.dev.mem := by rw [State.control_ok hv]; rfl
  have hq := (State.setQueue_at (s := v) (k := { v.queue q with state := .stalled, held := [], waitSince := some ((s.queue q).unnoticed.waitSince.getD v.dev.tick) }) (v.queue_num q)).1
  exact ⟨_, hread, by rw [hq], by rw [hq, hvq]; rfl, by rw [hq, htick]; rfl, hmem⟩

/-- A draw that stands behind another of its queue, or whose SYNC waits, stays at the Saltern (R189, R304). -/
theorem execDraw_parks (ht : pktType (s.headPacket (s.queue q)) = 2)
    (hw : (∃ c ∈ s.dev.salt, c.g = ⟨q, 16, 16⟩ ∧ (c.home = (s.queue q).home ∨ c.home = 8)) ∨ ((s.headPacket (s.queue q)).testBit 9 = true ∧ ∃ c ∈ s.allCores, c.num / 104 = (s.queue q).home ∧ c.fills ≠ [])) :
    execDraw q s = .next { s.launched q (s.drawOf q) with dev := { (s.launched q (s.drawOf q)).dev with salt := s.dev.salt ++ [s.drawCmd q] } } := by
  rw [execDraw_submits h ht, State.submit_parks rfl, s.launched_salt]
  rcases hw with ⟨c, hc, hg, hh⟩ | ⟨hs, c, hc, hn, hf⟩
  · refine .inl ?_
    rw [s.launched_salt]
    refine List.any_eq_true.2 ⟨c, hc, ?_⟩
    have hg' : (s.drawCmd q).g = c.g := hg.symm
    have hh' : (s.drawCmd q).home = c.home ∨ (s.drawCmd q).home = 8 ∨ c.home = 8 := hh.imp Eq.symm .inr
    simpa only [sameOrder, Bool.and_eq_true, Bool.or_eq_true, decide_eq_true_eq, or_assoc] using And.intro hg' hh'
  · refine .inr (State.applyCmd_syncs rfl (s.launched_record q rfl) hs ?_)
    rw [s.launched_filling]
    have hhome : arbourOf c.num = (s.drawCmd q).home := hn
    refine List.any_eq_true.2 ⟨c, hc, ?_⟩
    rw [Bool.and_eq_true]
    exact ⟨decide_eq_true hhome, by simpa using hf⟩

end Starting

/-! ### A WAITV that stalls its queue (R60, R66) -/

section Waiting
variable {s v : State} {q since : Nat} (hs : (s.queue q).state = .stalled) (hw : (s.queue q).waitSince = some since)
  (hv : s.control (s.queue q) { r := true } (waitAddr (s.headPacket (s.queue q))) 8 = .ok v)
include hs hw hv

theorem execWaitvPoll_waits (hh : (s.queue q).held = []) (hr : (s.ctx (s.queue q).ctx).state = .resident)
    (hc : waitCond (s.headPacket (s.queue q)) (v.ctlRead (s.queue q) (waitAddr (s.headPacket (s.queue q))) 8) = false) :
    ∃ t, execWaitvPoll q s = .next t ∧ (t.queue q).state = .stalled ∧ (t.queue q).ridx = (s.queue q).ridx ∧ (t.queue q).waitSince = some since := by
  have hread := execWaitvPoll_reads hs hw hh hr
  rw [State.tryWait_ok _ hv, hc, if_neg (by decide), hw] at hread
  have hq := (State.setQueue_at (s := v) (k := { v.queue q with state := .stalled, held := [], waitSince := some ((some since).getD v.dev.tick) }) (v.queue_num q)).1
  exact ⟨_, hread, by rw [hq], by rw [hq, State.control_queue hv], by rw [hq]; rfl⟩

theorem execWaitvPoll_wakes (hh : (s.queue q).held = []) (hr : (s.ctx (s.queue q).ctx).state = .resident)
    (hc : waitCond (s.headPacket (s.queue q)) (v.ctlRead (s.queue q) (waitAddr (s.headPacket (s.queue q))) 8) = true) :
    ∃ t, execWaitvPoll q s = .next t ∧ (t.queue q).state = .active ∧ (t.queue q).waitMet = true ∧ (t.queue q).ridx = (s.queue q).ridx ∧ (t.queue q).started = (s.queue q).started ∧
      ((t.queue q).notice = true ∨ (t.queue q).claimed = true) ∧ t.dev.mem = s.dev.mem := by
  have hread := execWaitvPoll_reads hs hw hh hr
  rw [State.tryWait_ok _ hv, if_pos hc] at hread
  have hset := (State.setQueue_at (s := v) (k := { v.queue q with state := .active, waitMet := true }) (v.queue_num q)).1
  have hpost := (v.setQueue { v.queue q with state := .active, waitMet := true }).postNotice_queue q
  rw [hset] at hpost
  have hmem : v.dev.mem = s.dev.mem := by rw [State.control_ok hv]
  refine ⟨_, hread, by rw [hpost], by rw [hpost], by rw [hpost, State.control_queue hv], by rw [hpost, State.control_queue hv], ?_, ?_⟩
  · rw [hpost]
    dsimp only
    cases (v.queue q).claimed
    · exact .inl (by simp)
    · exact .inr rfl
  · rw [State.postNotice_mem]
    exact hmem

end Waiting

/-! ### Updates of priorities (R48) -/

/-- The update of the earliest stamp reaches the core, and is on its way to it no more. -/
theorem execPrioUpdateApply_applies {s : State} {q core ctx : Nat} {y : Started} (hk : s.queue q ∈ s.dev.queues) (hy : y ∈ (s.queue q).started) (hd : y.due core ctx = true) (ht : y.stamp ≤ s.dev.tick)
    (hq : ∀ z ∈ s.dev.queues, ∀ v ∈ z.started, v.due core ctx = true → (z = s.queue q ∧ v = y) ∨ y.stamp < v.stamp) (hs : ∀ v ∈ s.dev.strays, v.due core ctx = true → y.stamp < v.stamp) :
    ∃ t, execPrioUpdateApply core ctx s = .next t ∧
      (t.queue q).started = (s.queue q).started.map (fun z => if z.n = y.n then { y with wait := y.wait.filter fun c => c ≠ core } else z) ∧
      (t.coreOf core).prio (t.ctx ctx) = (if y.update.beats ((s.coreOf core).prio (s.ctx ctx)) then y.update else (s.coreOf core).prio (s.ctx ctx)) ∧
      (t.coreOf core).wakes = (s.coreOf core).wakes ||| 0x10 := by
  have hone : (some q, y) ∈ s.updates core ctx := State.mem_updates.2 (.inl ⟨_, hk, y, hy, hd, by rw [s.queue_num]⟩)
  have hfirst : ∀ x ∈ s.updates core ctx, x = (some q, y) ∨ y.stamp < x.2.stamp := by
    intro x hx
    rcases State.mem_updates.1 hx with ⟨z, hz, v, hv, hvd, rfl⟩ | ⟨v, hv, hvd, rfl⟩
    · rcases hq z hz v hv hvd with ⟨rfl, rfl⟩ | h
      · exact .inl (by rw [s.queue_num])
      · exact .inr h
    · exact .inr (hs v hv hvd)
  have hdev := s.applyPrio_dev core ctx y.update
  have hwait : (y.wait.filter fun c => c != core) = y.wait.filter fun c => c ≠ core := List.filter_congr fun c _ => Bool.eq_iff_iff.2 (by simp)
  have hqueue : (s.applyPrio core ctx y.update).queue q = s.queue q := State.queue_congr (by rw [hdev]) q
  refine ⟨_, execPrioUpdateApply_first hone ht hfirst, ?_, ?_, s.applyPrio_wakes y.update⟩
  · rw [State.putStarted_queue, hqueue, hwait]
  · have hctx : ((s.applyPrio core ctx y.update).putStarted q { y with wait := y.wait.filter fun c => c != core }).ctx ctx = s.ctx ctx :=
      ((State.putStarted_work _ q _).ctx ctx).trans (State.ctx_congr (by rw [hdev]) ctx)
    rw [hctx]
    exact s.applyPrio_prio core ctx y.update
end Sys2Proof.Machine

namespace Sys2Proof
open Sys2Proof.Machine

/-- Settles O57: each clause is a lemma above, by the kind of the event. It stands outside `Sys2Proof.Machine`, where `queueEvents` is a list of the model's events. -/
theorem queueEvents : Obligations.QueueEvents := by
  unfold Obligations.QueueEvents
  intro s q
  refine ⟨fun hfirst => ⟨fun hr hs => State.PollsNext.faults hfirst hr hs, fun hr => ?_⟩, fun ha hk hn hres hring hidx hfresh => ?_,
    fun hst since hsince => ⟨fun v hh hres hv hc => execWaitvPoll_waits hst hsince hv hh hres hc, fun v hh hres hv hc => execWaitvPoll_wakes hst hsince hv hh hres hc,
      fun hl ht hc => State.Errs.of_errorAt (execWaitvTimeout_errs hst hsince hl ht hc) (.inr (.inr hst))⟩,
    fun n y hy hst hh hd hsig h7 => ?_, fun n y hy hst hh hd hsig h7 h8 hv => ?_, fun core ctx y hkm hym h6 hctx hcore htick hu hstray => ?_⟩
  · obtain ⟨t, ht, ⟨hw, hns, hdue⟩, hwork, hover⟩ := State.PollsNext.reads hfirst hr
    exact ⟨t, ht, hw, hns, hdue, hwork, hover⟩
  · have hat : s.AtHead q := ⟨ha, hk, hn, hres, hring, hidx⟩
    refine ⟨?_, ?_, ?_, s.begun_mem q, fun hb hfree => ?_⟩
    · have herrs := hat.errs
      unfold handlerOf pktType at herrs
      generalize s.headPacket (s.queue q) % 256 = type at herrs ⊢
      exact herrs
    · have hstalls := hat.stalls
      unfold handlerOf pktType at hstalls
      generalize s.headPacket (s.queue q) % 256 = type at hstalls ⊢
      exact hstalls
    · obtain ⟨hridx, hstarted, hstate, -⟩ := s.begun_moved q
      exact ⟨hridx, hstarted, hstate⟩
    · have h : s.Starts q := ⟨hat, hfresh, hb, hfree⟩
      refine ⟨fun ht => ?_, fun v ht hv => ?_, fun ht hv => ?_, fun v ht hs hv => ?_, fun ht hs hv => ?_, fun ht hc => execCodesync_waits h ht hc, fun ht hs hc => ?_,
        fun ht => ⟨fun hres => ?_, fun hnr hs => ?_⟩, fun ht hm hs => ?_, fun v ht hm hv => ⟨fun hmet hs => ?_, fun hmet => ?_⟩, fun ht => ?_, fun ht => ⟨_, execDraw_submits h ht⟩, fun ht hw => ?_⟩
      · obtain ⟨t, hexec, hp, hmem⟩ := execPad_over h ht
        exact ⟨t, hexec, hp, hmem⟩
      · obtain ⟨hp, hmem⟩ := State.begun_signal hfresh ht hv
        exact ⟨_, exec_begins h (.inl ⟨rfl, ht⟩), hp, hmem⟩
      · exact ⟨_, exec_begins h (.inl ⟨rfl, ht⟩), State.begun_signalFails hfresh ht hv⟩
      · obtain ⟨hp, hmem⟩ := State.begun_mark hfresh ht hs hv
        exact ⟨_, exec_begins h (.inr (.inl ⟨rfl, ht⟩)), hp, hmem⟩
      · exact ⟨_, exec_begins h (.inr (.inl ⟨rfl, ht⟩)), State.begun_markFails hfresh ht hs hv⟩
      · exact execCodesync_over h ht hs hc
      · obtain ⟨t, hexec, ⟨hridx, hstarted, hstate, -⟩, hctx⟩ := execPrio_sends h ht rfl rfl hres
        exact ⟨t, hexec, ⟨hridx, hstarted, hstate⟩, hctx⟩
      · exact execPrio_keeps h ht rfl rfl hnr hs
      · exact ⟨_, execWaitv_met h ht hm, startNow_waited h ht hs (s.withdrawNotice_queue q)⟩
      · rw [s.withdrawNotice_queue] at hv
        have hvq := (State.control_queue hv q).trans (s.withdrawNotice_queue q)
        refine execWaitv_goes h ht hm hs hv ?_
        rw [← hvq]
        exact (waitCond_iff _ _).2 hmet
      · rw [s.withdrawNotice_queue] at hv
        have hvq := (State.control_queue hv q).trans (s.withdrawNotice_queue q)
        refine execWaitv_stalls h ht hm hv (Bool.eq_false_iff.2 fun hc => hmet ?_)
        rw [← hvq] at hc
        exact (waitCond_iff _ _).1 hc
      · obtain ⟨hridx, hstarted, hstate, -⟩ := s.launched_moved q (s.launchOf q)
        exact ⟨_, execLaunch_launches h ht, ⟨hridx, hstarted, hstate⟩, s.launched_counter q _, s.launched_record q rfl⟩
      · obtain ⟨hridx, hstarted, hstate, -⟩ := s.launched_moved q (s.drawOf q)
        exact ⟨_, execDraw_parks h ht hw, ⟨hridx, hstarted, hstate⟩, s.launched_record q rfl, rfl⟩
  · have hnot : ¬ (pktType y.packet.toNat = 7 ∧ ¬ y.marked ∧ y.err = 0) := by
      rintro ⟨h, hm, he⟩
      rcases h7 with h7 | h7 | h7
      · exact h7 h
      · exact hm h7
      · exact h7 he
    refine ⟨_, (execPacketComplete_done hy hst hh hd).trans (congrArg _ (State.finishPacket_over (.inr ⟨hnot, hsig⟩))), State.packetOver_started hy, State.packetOver_mem .., fun l hl hdone ht => State.packetOver_freed hl hdone ht⟩
  · refine ⟨_, (execPacketComplete_done hy (by rw [hst]; decide) hh hd).trans (congrArg _ ?_), State.signalFailed_again hst hy⟩
    rw [State.finishPacket_signal (fun h => h7 h.1) h8, State.signalPacket_fail hsig hv]
  · refine execPrioUpdateApply_applies hkm hym (Started.due_iff.2 ⟨h6, hctx, hcore⟩) htick (fun z hz v hv hd => ?_) fun v hv hd => ?_
    · obtain ⟨h6, hctx, hcore⟩ := Started.due_iff.1 hd
      exact hu z hz v hv h6 hctx hcore
    · obtain ⟨h6, hctx, hcore⟩ := Started.due_iff.1 hd
      exact hstray v hv h6 hctx hcore

end Sys2Proof

/-! ## What a trap leaves (R84, R376, R379 to R383) -/
namespace Sys2Proof.Machine
open Sys2Proof

/-! ### The units on the cores -/

/-- The entities, groups and teams of the state: what stands outside the device and the cores' own storage. -/
def State.units (s : State) : Entity × Group × Team × List Team × List Group × List (List Group) :=
  (s.ent, s.grp, s.team, s.teams, s.core.groups, s.cores.map Core.groups)

theorem OnlyDev.units {s t : State} (h : OnlyDev s t) : t.units = s.units := by rw [h]; rfl
theorem RecordsOnly.units {s t : State} (h : RecordsOnly s t) : t.units = s.units := by rw [h]; rfl

/-- A change of the cores that leaves their groups. -/
theorem State.mapCores_units (s : State) {f : Core → Core} (hf : ∀ k, (f k).groups = k.groups) : (s.mapCores f).units = s.units := by
  simp only [State.units, State.mapCores, hf, List.map_map, show Core.groups ∘ f = Core.groups from funext hf]

theorem State.keepKeys_units (s : State) (p : Key → Bool) : (s.keepKeys p).units = s.units := by
  rw [State.keepKeys_frame]; rfl
theorem State.dropWaits_units (s : State) (l : List GLoc) : (s.dropWaits l).units = s.units :=
  calc (s.dropWaits l).units
      _ = (s.withdraw fun w => l.contains w.g).units := State.mapCores_units (State.setDev _ _) (f := fun k => { k with mqs := _ }) fun _ => rfl
      _ = s.units := State.keepKeys_units (State.setDev s _) _
theorem State.dropStale_units (s : State) (g : Group) : (s.dropStale g).units = s.units := by
  unfold State.dropStale
  split
  · split
    · exact State.keepKeys_units ..
    · rfl
  · rfl
theorem State.wakeArbour_units (s : State) (a bit : Nat) : (s.wakeArbour a bit).units = s.units := by
  refine State.mapCores_units s (f := fun k => if arbourOf k.num = a then { k with wakes := k.wakes ||| (1#6 <<< bit) } else k) fun k => ?_
  split <;> rfl
theorem State.postHeads_units (s : State) : s.postHeads.units = s.units :=
  foldl_keeps State.units (fun s w => by exact State.wakeArbour_units (State.setDev _ _) _ _) _ s
theorem State.withdrawOpen_units (s : State) (id : Word) : (s.withdrawOpen id).units = s.units :=
  foldl_keeps State.units (fun s a => s.wakeArbour_units a 2) _ (State.setDev s _)
theorem State.queueError_only (s : State) (q code : Nat) (r : Rec) : OnlyDev s (s.queueError q code r) := by
  have h := (OnlyDev.refl s).record (s.queue q).ctx { r with kind := 3, code, queue := q }
  unfold State.queueError
  dsimp only
  split
  · exact ((h.setQueue _).setDev _).setQueue _
  · exact h

/-- The first error of a queue is kept (R71). -/
theorem State.queueError_first {s : State} {q : Nat} (code : Nat) (r : Rec) (h : (s.queue q).state = .idle ∨ (s.queue q).state = .active ∨ (s.queue q).state = .stalled) :
    ((s.queueError q code r).queue q).state = .error ∧ ((s.queueError q code r).queue q).err = code := by
  unfold State.queueError
  extract_lets k u v
  rw [if_pos h, (State.setQueue_at (k := { v.queue q with state := .error, err := code, waitSince := none, held := [] }) (v.queue_num q)).1]
  exact ⟨rfl, rfl⟩

/-- A draw that is over and owns no operation here touches no unit. -/
theorem State.dropDraw_units {s : State} {id : Word} (h : ∀ w ∈ s.dev.draws, w.id ≠ id) : (s.dropDraw id).units = s.units := by
  have hn : s.dev.draws.filter (fun w => w.id = id) = [] := List.filter_eq_nil_iff.2 fun w hw => by simpa using h w hw
  unfold State.dropDraw
  simp only [hn, List.flatMap_nil, List.foldl_nil]
  exact State.postHeads_units _

/-- A part of the front group that every change of a group leaves. -/
theorem State.mapGroups_grp {α : Type} (p : Group → α) (hp : ∀ (g : Group) l, p { g with sibs := l } = p g) (s : State) {f : Group → Group} (hf : ∀ g, p (f g) = p g) :
    p (s.mapGroups f).grp = p s.grp := by
  have h0 : p (f s.stowGroup) = p s.grp := (hf _).trans (hp _ _)
  unfold State.mapGroups
  dsimp only
  split
  · exact (hp _ _).trans h0
  · split
    · exact (hp _ _).trans h0
    · exact h0

/-! ### The trap registers outlast the end of work -/

theorem Group.fill_treg (g : Group) (id : Nat) (f : Fill) : (g.fill id f).treg = g.treg := by
  unfold Group.fill Group.setSAt
  split
  · rfl
  · rfl
  · split <;> rfl
  · rfl
  · rfl
theorem Group.complete_treg (g : Group) (id : Nat) : (g.complete id).treg = g.treg := by
  unfold Group.complete
  split
  · rfl
  · next o _ => exact List.foldlRecOn o.fills _ (motive := fun x : Group => x.treg = g.treg) rfl fun x h f _ => (x.fill_treg id f).trans h
theorem State.mapGroups_treg (s : State) {f : Group → Group} (hf : ∀ g, (f g).treg = g.treg) : (s.mapGroups f).grp.treg = s.grp.treg :=
  State.mapGroups_grp Group.treg (fun _ _ => rfl) s hf
theorem State.completeOp_treg (s : State) (g : GLoc) (op : Nat) : (s.completeOp g op).grp.treg = s.grp.treg := by
  refine State.mapGroups_treg s (f := fun x => if x.loc = g then x.complete op else x) fun x => ?_
  split
  · exact x.complete_treg op
  · rfl
theorem State.treg_of_units {s t : State} (h : t.units = s.units) : t.grp.treg = s.grp.treg := congrArg (fun x => x.2.1.treg) h
theorem State.allTeams_of_units {s t : State} (h : t.units = s.units) : t.allTeams = s.allTeams := by
  simp only [State.units, Prod.mk.injEq] at h
  obtain ⟨-, -, hteam, hteams, -, -⟩ := h
  rw [State.allTeams, State.allTeams, hteam, hteams]
theorem State.absentKeys_treg (s : State) (p : Nat → BitVec 64 → Bool) : (s.absentKeys p).grp.treg = s.grp.treg := by
  unfold State.absentKeys
  extract_lets dead u v
  calc _ = v.grp.treg := State.mapGroups_treg v fun g => by split <;> rfl
    _ = u.grp.treg := State.mapGroups_treg u (f := fun g => { g with keys := _ }) fun _ => rfl
    _ = s.grp.treg := State.treg_of_units ((State.dropWaits_units ..).trans (State.keepKeys_units ..))
theorem State.absentUnits_treg (s : State) (w : Draw) (p : Nat → Bool) : (s.absentUnits w p).grp.treg = s.grp.treg := State.absentKeys_treg ..
theorem State.dropDraw_treg (s : State) (id : Word) : (s.dropDraw id).grp.treg = s.grp.treg := by
  unfold State.dropDraw
  extract_lets ws u v
  have hv : v.grp.treg = u.grp.treg := foldl_keeps (fun s => s.grp.treg) (fun s w => s.absentUnits_treg w _) ws u
  have hw := foldl_keeps (fun s => s.grp.treg) (f := fun s (o : GLoc × Nat) => s.completeOp o.1 o.2) (fun s o => s.completeOp_treg o.1 o.2) (ws.flatMap Draw.ops) v
  exact ((State.treg_of_units (State.postHeads_units _)).trans hw).trans hv

/-! ### A kill at the units (R97) -/

/-- What a kill of the teams that p selects does to a group. -/
def State.killGroup (s : State) (busy : List Nat) (p : Team → Bool) (g : Group) : Group :=
  if !g.agent && ((s.allTeams.filter p).map Team.serial).contains g.team && g.gstate != .empty then g.kill busy else g

/-- A kill at the units: the teams marked, the groups stopped, and the teams of saved contexts come. -/
theorem State.killTeams_units (s : State) (p : Team → Bool) :
    ∃ (u : State) (busy : List Nat), u.units = s.units ∧ s.killTeams p = ((u.markKilled p).mapGroups (s.killGroup busy p)).killSaved p := by
  unfold State.killTeams
  extract_lets dead gs u v
  have hu : u.units = s.units := (foldl_keeps State.units State.dropStale_units gs (s.dropWaits (gs.map Group.loc))).trans (s.dropWaits_units _)
  clear_value u
  exact ⟨u, v.saltBusy, hu, rfl⟩

theorem State.killTeams_treg (s : State) (p : Team → Bool) : (s.killTeams p).grp.treg = s.grp.treg := by
  obtain ⟨u, busy, hu, h⟩ := s.killTeams_units p
  rw [h]
  calc (((u.markKilled p).mapGroups (s.killGroup busy p)).killSaved p).grp.treg
      _ = (u.markKilled p).grp.treg := State.mapGroups_treg _ fun g => by unfold State.killGroup; split <;> rfl
      _ = s.grp.treg := State.treg_of_units (s := s) (t := u) hu

/-- A group that stands, of a team that is killed, is in front: its entities stop, it leaves, and its team is marked. -/
theorem State.killTeams_front {s : State} {p : Team → Bool} (hp : p s.team = true) (ht : s.grp.team = s.team.serial) (ha : s.grp.agent = false) (he : s.grp.gstate ≠ .empty) :
    ∃ busy, (s.killTeams p).team = { s.team with killed := true, barriers := [] } ∧ (s.killTeams p).ent = { s.ent with live := false } ∧
      (s.killTeams p).grp = s.grp.kill busy ∧
      (s.killTeams p).core.groups = s.core.groups.map (s.killGroup busy p) ∧ (s.killTeams p).cores.map Core.groups = (s.cores.map Core.groups).map (List.map (s.killGroup busy p)) := by
  obtain ⟨u, busy, hu, h⟩ := s.killTeams_units p
  simp only [State.units, Prod.mk.injEq] at hu
  obtain ⟨hent, hgrp, hteam, -, hgroups, hcores⟩ := hu
  have hdead : s.killGroup busy p (u.markKilled p).stowGroup = (u.markKilled p).stowGroup.kill busy := by
    refine if_pos ?_
    show (!u.grp.agent && ((s.allTeams.filter p).map Team.serial).contains u.grp.team && u.grp.gstate != .empty) = true
    rw [hgrp, ha, ht]
    have hm : s.team.serial ∈ (s.allTeams.filter p).map Team.serial := List.mem_map_of_mem (List.mem_filter.2 ⟨List.mem_cons_self, hp⟩)
    simp [hm, he]
  have hfront := State.mapGroups_front (s := u.markKilled p) (f := s.killGroup busy p) (e := { u.ent with live := false }) (r := u.grp.sibs.map fun e => { e with live := false })
    (by rw [hdead]; rfl) rfl
  rw [hdead] at hfront
  rw [h, hfront]
  refine ⟨busy, ?_, ?_, ?_, ?_, ?_⟩
  · show (if p u.team then { u.team with killed := true, barriers := [] } else u.team) = _
    rw [hteam, if_pos hp]
  · show { u.ent with live := false } = _
    rw [hent]
  · rw [← hgrp]; rfl
  · rw [← hgroups]; rfl
  · rw [← hcores]
    show List.map Core.groups (u.cores.map fun (k : Core) => { k with groups := k.groups.map (s.killGroup busy p) }) = _
    rw [List.map_map, List.map_map]
    rfl

/-! ### A launch that fails, with its teams killed (R84) -/

/-- A launch that is withdrawn: it has failed, its draw is over, its held teams and its entries in the tables are gone. -/
def State.withdrawLaunch (s : State) (id : Word) (l : Launch) (err : Nat) : State :=
  (((s.setLaunch (l.failed err)).dropDraw id).mapCores fun k => { k with holds := k.holds.filter fun h => !l.holders.any fun x => x.1 = k.num && x.2.1 = h.num }).withdrawOpen id

/-- The error of a launch at its queue and in its packet (R71). -/
def State.launchError (s : State) (id : Word) (l : Launch) (err : Nat) : State :=
  let code := if err = 7 then 7 else 5
  let s := s.queueError l.queue code { kind := 3, code, launch := id, progress := l.packet, detail := BitVec.ofNat 32 err }
  let q := s.queue l.queue
  s.setQueue { q with started := q.started.map fun k => if k.launch = id ∧ (k.packet.toNat % 256 = 1 ∨ k.packet.toNat % 256 = 2) then { k with err := code } else k }

theorem State.launchError_only (s : State) (id : Word) (l : Launch) (err : Nat) : OnlyDev s (s.launchError id l err) := (s.queueError_only ..).setQueue _

theorem State.launchError_queue {s : State} (id : Word) {l : Launch} (err : Nat) (h : (s.queue l.queue).state = .idle ∨ (s.queue l.queue).state = .active ∨ (s.queue l.queue).state = .stalled) :
    ((s.launchError id l err).queue l.queue).state = .error ∧ ((s.launchError id l err).queue l.queue).err = if err = 7 then 7 else 5 := by
  unfold State.launchError
  extract_lets code u q
  have hu : (u.queue l.queue).state = .error ∧ (u.queue l.queue).err = code := State.queueError_first code _ h
  rw [State.queue_setQueue, if_pos (u.queue_num l.queue).symm]
  exact hu

section Fail
variable {s : State} {id : Word} {l : Launch} (h : s.launch? id = some l) (ha : ¬ (l.state = .done ∨ l.state = .failed)) (err : Nat)

theorem State.withdrawLaunch_units (hd : ∀ w ∈ s.dev.draws, w.id ≠ id) : (s.withdrawLaunch id l err).units = s.units :=
  calc (s.withdrawLaunch id l err).units
      _ = (((s.setLaunch (l.failed err)).dropDraw id).mapCores fun k => { k with holds := k.holds.filter fun h => !l.holders.any fun x => x.1 = k.num && x.2.1 = h.num }).units := State.withdrawOpen_units ..
      _ = ((s.setLaunch (l.failed err)).dropDraw id).units := State.mapCores_units _ fun _ => rfl
      _ = (s.setLaunch (l.failed err)).units := State.dropDraw_units hd
      _ = s.units := ((OnlyDev.refl s).setLaunch _).units

theorem State.withdrawLaunch_treg : (s.withdrawLaunch id l err).grp.treg = s.grp.treg :=
  calc (s.withdrawLaunch id l err).grp.treg
      _ = (((s.setLaunch (l.failed err)).dropDraw id).mapCores fun k => { k with holds := k.holds.filter fun h => !l.holders.any fun x => x.1 = k.num && x.2.1 = h.num }).grp.treg :=
        State.treg_of_units (State.withdrawOpen_units ..)
      _ = ((s.setLaunch (l.failed err)).dropDraw id).grp.treg := rfl
      _ = (s.setLaunch (l.failed err)).grp.treg := State.dropDraw_treg ..

theorem State.withdrawLaunch_tidied : Tidied (s.setLaunch (l.failed err)) (s.withdrawLaunch id l err) := by
  have hc (t : State) (f : Core → Core) : Tidied t (t.mapCores f) := .of_books rfl
  exact ((State.dropDraw_tidied ..).trans (hc _ _)).trans (State.withdrawOpen_tidied ..)

include h ha

/-- The failure of a launch: it is withdrawn, its teams are killed, and its queue and packet have the error. -/
theorem State.failLaunch_eq : s.failLaunch id err = ((s.withdrawLaunch id l err).killTeams (fun t => t.launch = id && t.serial != 0)).launchError id l err := by
  have hl : l.failed err = { l with state := .failed, err := err, holders := [] } := if_neg ha
  unfold State.failLaunch State.withdrawLaunch State.launchError
  rw [hl]
  simp only [h, if_neg ha, if_true]

/-- The units after it are those that the kill leaves. -/
theorem State.failLaunch_units : (s.failLaunch id err).units = ((s.withdrawLaunch id l err).killTeams (fun t => t.launch = id && t.serial != 0)).units := by
  rw [State.failLaunch_eq h ha]
  exact (State.launchError_only ..).units

/-- The queue of a launch that fails enters ERROR with the launch's code (R71). -/
theorem State.failLaunch_queue (hq : (s.queue l.queue).state = .idle ∨ (s.queue l.queue).state = .active ∨ (s.queue l.queue).state = .stalled) :
    ((s.failLaunch id err).queue l.queue).state = .error ∧ ((s.failLaunch id err).queue l.queue).err = if err = 7 then 7 else 5 := by
  rw [State.failLaunch_eq h ha]
  refine State.launchError_queue id err ?_
  rwa [State.queue_congr ((State.withdrawLaunch_tidied err).trans (State.killTeams_tidied ..)).queues]

end Fail

theorem Group.kill_ops (busy : List Nat) (g : Group) : ((g.kill busy).ops.map fun o => { o with auto := true }) = g.ops.map fun o => { o with auto := true } := by
  rw [show (g.kill busy).ops = g.ops.map _ from rfl, List.map_map]
  refine List.map_congr_left fun o _ => ?_
  dsimp only [Function.comp]
  split <;> rfl

/-- A kill leaves a group of an agent, or of no team that it selects. -/
theorem State.killGroup_other {s : State} {busy : List Nat} {p : Team → Bool} {g : Group} (h : g.agent = true ∨ ∀ m ∈ s.allTeams, m.serial = g.team → p m = false) :
    s.killGroup busy p g = g := by
  refine if_neg ?_
  rcases h with h | h
  · simp [h]
  · intro hk
    obtain ⟨m, hm, hs⟩ := List.mem_map.1 (List.contains_iff_mem.1 (Bool.and_eq_true_iff.1 (Bool.and_eq_true_iff.1 hk).1).2)
    obtain ⟨hm, hp⟩ := List.mem_filter.1 hm
    rw [h m hm hs] at hp
    exact Bool.false_ne_true hp

/-! ### Entry (R379, R380) -/

section Entry
variable (s : State) (t : Trap)

/-- The record of an entry (R379), as the group stood before it. -/
theorem State.traceTrap_traced : ∃ dev, (s.trapped t).traceTrap t = { s.trapped t with dev } ∧
    ((s.ctxOn s.arbour s.team.ctx).trace = false ∨ s.grp.agent = true → dev = s.dev) ∧
    ((s.ctxOn s.arbour s.team.ctx).trace = true → s.grp.agent = false → Traced s.team.ctx
      { kind := 6, pc := t.tpc, d0 := t.tpc, d1 := (t.regs s.ent.num).cause, launch := s.team.launch, core := s.core.num, part := s.grp.loc.part, gid := s.grp.gid, ent := s.ent.num }
      s { s with dev }) := by
  obtain ⟨dev, hd, hn⟩ := (s.trapped t).traceTrap_frame t
  refine ⟨dev, hd, hn, fun ht ha => ?_⟩
  have hr : (s.trapped t).traceTrap t = (s.trapped t).trace s.team.ctx { (s.trapped t).traceRec 6 t.tpc (t.regs s.ent.num).cause with pc := t.tpc } := by
    refine if_pos ?_
    show ((s.ctxOn s.arbour s.team.ctx).trace && !s.grp.agent) = true
    rw [ht, ha]; rfl
  obtain ⟨hframe, habsent, hkept, hroom, hfull⟩ := (s.trapped t).trace_traced s.team.ctx { (s.trapped t).traceRec 6 t.tpc (t.regs s.ent.num).cause with pc := t.tpc }
  rw [← hr, hd] at hframe habsent hkept hroom hfull
  exact ⟨congrArg (fun v : State => { s with dev := v.dev }) hframe, fun h => congrArg (fun v : State => { s with dev := v.dev }) (habsent h), hkept, hroom, hfull⟩

theorem State.traceTrap_records (s : State) : RecordsOnly s (s.traceTrap t) := by
  unfold State.traceTrap
  split
  · exact State.trace_records ..
  · exact .refl s

variable {s t}

/-- The first trap of an entity writes its frame. -/
theorem State.trapped_free (hh : s.ent.handling = false) : s.trapped t = { s with
    grp := { s.grp with gstate := .trapped, treg := t.regs s.ent.num, trapper := s.ent.num, trapTick := some s.dev.tick }
    ent := { s.ent with frame := s.ent.frameAt t.tpc, status := .ready, wd := {}, promoted := none, yielded := false } } := by
  rw [State.trapped, if_neg (by rw [hh]; exact Bool.false_ne_true)]

theorem State.enterTrap_handler (hh : s.ent.handling = false) (hd : (s.ctxOn s.arbour s.team.ctx).dmask.getLsbD t.code.num = false)
    (hm : (s.ctxOn s.arbour s.team.ctx).hmask.getLsbD t.code.num = true) (hc : t.code ≠ .regParityFatal) :
    s.enterTrap t = ((s.trapped t).traceTrap t).enterHandler (s.ctxOn s.arbour s.team.ctx).hoff := by
  simp [State.enterTrap, hh, hd, hm, hc]

theorem State.enterTrap_held (hh : s.ent.handling = false) (hd : (s.ctxOn s.arbour s.team.ctx).dmask.getLsbD t.code.num = true) :
    s.enterTrap t = ((s.trapped t).traceTrap t).holdForDebug := by
  simp [State.enterTrap, hh, hd]

/-- The team in front has met an unhandled trap, which its end reports (R366). -/
def State.blamed (s : State) : State := { s with team := { s.team with err := 6 } }

/-- An unhandled trap of a user's group fails its launch, once the trap's record is made (R383). -/
theorem State.unhandled_fails (ha : s.grp.agent = false) : ∃ v, RecordsOnly s v ∧ s.unhandled t = v.blamed.failLaunch s.team.launch 6 := by
  unfold State.unhandled
  dsimp only
  generalize hr : ({ kind := 1, code := t.code.num, addr := t.addr, pc := t.first, launch := s.team.launch, detail := t.data, lanes := t.lanes, queue := s.team.queue, core := s.core.num, part := s.grp.loc.part } : Rec) = r
  have hv := s.record_only s.team.ctx r
  refine ⟨_, hv, ?_⟩
  generalize s.record s.team.ctx r = v at hv
  have hteam : v.team = s.team := by rw [hv]
  have hgrp : v.grp = s.grp := by rw [hv]
  rw [if_neg (by rw [hgrp, ha]; exact Bool.false_ne_true), hteam]
  show ({ v with team := { s.team with err := 6 } } : State).failLaunch s.team.launch 6 = ({ v with team := { v.team with err := 6 } } : State).failLaunch s.team.launch 6
  rw [hteam]

theorem State.enterTrap_fails (ha : s.grp.agent = false)
    (h : s.ent.handling = true ∨ ((s.ctxOn s.arbour s.team.ctx).dmask.getLsbD t.code.num = false ∧
      ((s.ctxOn s.arbour s.team.ctx).hmask.getLsbD t.code.num = false ∨ t.code = .regParityFatal))) :
    ∃ w, RecordsOnly (s.trapped t).blamed w ∧ s.enterTrap t = w.failLaunch s.team.launch 6 := by
  have hu := State.traceTrap_records t (s.trapped t)
  have hteam : ((s.trapped t).traceTrap t).team = s.team := by rw [hu]; rfl
  have hgrp : ((s.trapped t).traceTrap t).grp.agent = false := by rw [hu]; exact ha
  obtain ⟨v, hv, he⟩ := State.unhandled_fails (t := t) hgrp
  rw [hteam] at he
  exact ⟨v.blamed, congrArg State.blamed (hu.trans hv), (s.enterTrap_unhandled t h).trans he⟩

end Entry

/-! ### A trap that no handler takes (R383) -/

section Unhandled
variable {s w : State} {t : Trap} {l : Launch} (hw : RecordsOnly (s.trapped t).blamed w) (hl : s.launch? s.team.launch = some l) (ha : ¬ (l.state = .done ∨ l.state = .failed))
include hw hl ha

theorem State.unhandled_launch : (w.failLaunch s.team.launch 6).launch? s.team.launch = some { l with state := .failed, err := 6, holders := [] } ∧
    ∀ id, id ≠ s.team.launch → (w.failLaunch s.team.launch 6).launch? id = s.launch? id := by
  have hx (id : Word) : w.launch? id = s.launch? id := State.launch_congr (by rw [hw]; rfl) id
  refine ⟨?_, fun id hid => ?_⟩
  · rw [State.failLaunch_launch, if_pos rfl, hx, hl, Option.map_some, Launch.failed, if_neg ha]
  · rw [State.failLaunch_launch, if_neg hid, hx]

theorem State.unhandled_queue (hq : (s.queue l.queue).state ∈ [QState.idle, .active, .stalled]) :
    ((w.failLaunch s.team.launch 6).queue l.queue).state = .error ∧ ((w.failLaunch s.team.launch 6).queue l.queue).err = 5 := by
  have hx : w.launch? s.team.launch = some l := (State.launch_congr (by rw [hw]; rfl) _).trans hl
  refine State.failLaunch_queue hx ha 6 ?_
  rw [State.queue_congr (s := s) (by rw [hw]; rfl)]
  simpa using hq

/-- Its teams are killed, and the trap registers stay. -/
theorem State.unhandled_kills :
    (∀ k ∈ (w.failLaunch s.team.launch 6).allTeams, k.launch = s.team.launch → k.serial ≠ 0 → k.killed = true) ∧ (w.failLaunch s.team.launch 6).grp.treg = t.regs s.ent.num := by
  have hx : w.launch? s.team.launch = some l := (State.launch_congr (by rw [hw]; rfl) _).trans hl
  have hu := State.failLaunch_units hx ha 6
  have hreg := ((w.withdrawLaunch s.team.launch l 6).killTeams_treg fun t => t.launch = s.team.launch && t.serial != 0).trans (State.withdrawLaunch_treg 6)
  have hteams := State.killTeams_teams (s := w.withdrawLaunch s.team.launch l 6) (p := fun t => t.launch = s.team.launch && t.serial != 0)
  generalize (w.withdrawLaunch s.team.launch l 6).killTeams _ = v at hu hreg hteams
  refine ⟨fun k hk hkl hks => ?_, ?_⟩
  · rw [State.allTeams_of_units hu] at hk
    refine (hteams k hk).resolve_right fun hp => ?_
    have := hp.2
    simp [hkl, hks] at this
  · rw [State.treg_of_units hu, hreg, hw]
    rfl

/-- Where the launch has no draw and the front is of its team, the front stops as it trapped, and every group of an agent or of another launch's team is as it was. -/
theorem State.unhandled_front (hg : s.grp.agent = false) (hn : s.team.serial ≠ 0) (ht : s.grp.team = s.team.serial) (hd : ∀ w ∈ s.dev.draws, w.id ≠ s.team.launch) :
    ∃ busy, (w.failLaunch s.team.launch 6).team = { s.team with err := 6, killed := true, barriers := [] } ∧ (w.failLaunch s.team.launch 6).ent = { (s.trapped t).ent with live := false } ∧
      (w.failLaunch s.team.launch 6).grp = (s.trapped t).grp.kill busy ∧
      ∀ g ∈ (s.core :: s.cores).flatMap Core.groups, (g.agent = true ∨ ∀ m ∈ s.allTeams, m.serial = g.team → m.launch ≠ s.team.launch ∨ m.serial = 0) →
        g ∈ ((w.failLaunch s.team.launch 6).core :: (w.failLaunch s.team.launch 6).cores).flatMap Core.groups := by
  have hx : w.launch? s.team.launch = some l := (State.launch_congr (by rw [hw]; rfl) _).trans hl
  have hu := State.failLaunch_units hx ha 6
  have hy : (w.withdrawLaunch s.team.launch l 6).units = (s.trapped t).blamed.units := (State.withdrawLaunch_units 6 (by rw [hw]; exact hd)).trans hw.units
  generalize w.withdrawLaunch s.team.launch l 6 = y at hu hy
  simp only [State.units, Prod.mk.injEq] at hy
  obtain ⟨hent, hgrp, hteam, hteams, hgroups, hcores⟩ := hy
  have hp : (fun t : Team => decide (t.launch = s.team.launch) && t.serial != 0) y.team = true := by
    rw [hteam]
    show (decide (s.team.launch = s.team.launch) && s.team.serial != 0) = true
    simp [hn]
  obtain ⟨busy, h1, h2, h3, h4, h5⟩ := State.killTeams_front (s := y) (p := fun t => t.launch = s.team.launch && t.serial != 0) hp (by rw [hgrp, hteam]; exact ht) (by rw [hgrp]; exact hg) (by rw [hgrp]; exact nofun)
  generalize y.killTeams _ = v at hu h1 h2 h3 h4 h5
  simp only [State.units, Prod.mk.injEq] at hu
  obtain ⟨uent, ugrp, uteam, -, ugroups, ucores⟩ := hu
  refine ⟨busy, ?_, ?_, ?_, fun g hgm hg => ?_⟩
  · rw [uteam, h1, hteam]; rfl
  · rw [uent, h2, hent]; rfl
  · rw [ugrp, h3, hgrp]; rfl
  · have hk : y.killGroup busy (fun t => t.launch = s.team.launch && t.serial != 0) g = g := by
      refine State.killGroup_other (hg.imp_right fun h m hm hs => ?_)
      rw [State.allTeams, hteam, hteams] at hm
      have hz : m.launch ≠ s.team.launch ∨ m.serial = 0 := by
        rcases List.mem_cons.1 hm with rfl | hm
        · exact h s.team List.mem_cons_self hs
        · exact h m (List.mem_cons_of_mem _ hm) hs
      rcases hz with hz | hz <;> simp [hz]
    rw [List.flatMap_cons, List.mem_append, List.flatMap_def] at hgm ⊢
    rw [ugroups, ucores, h4, h5, hgroups, hcores, List.mem_map, ← List.map_flatten, List.mem_map]
    exact hgm.imp (fun h => ⟨g, h, hk⟩) fun h => ⟨g, h, hk⟩

end Unhandled

/-- Settles O23: entry by `State.enterTrap_handler` and `State.enterTrap_held`, its record by `State.traceTrap_traced`, and a trap that no handler takes by what the failure of its launch leaves. -/
theorem trapEntry : Obligations.TrapEntry := by
  unfold Obligations.TrapEntry
  intro s t c code cause regs frame traced
  refine ⟨fun hg hh => ?_, fun hg hh hd hm hc => ?_, fun hg hh hd => ?_, ?_⟩
  · rw [State.takeTrap_eq, if_pos ⟨hg, hh⟩]
    cases s.ent.pendingTrap <;> rfl
  · obtain ⟨dev, he, hn, ht⟩ := s.traceTrap_traced t
    have hent : s.takeTrap t = { s.trapped t with dev }.enterHandler c.hoff := by
      rw [State.takeTrap_free (.inl hg), State.enterTrap_handler hh hd hm hc, he]
    refine ⟨dev, ?_, ⟨hn, ht⟩, fun n h1 h2 => ?_⟩
    · rw [hent]
      rw [State.trapped_free hh]
      rfl
    · rw [hent]
      have : ({ s.trapped t with dev }.enterHandler c.hoff).sIndex n = n + 8 := if_pos ⟨rfl, h1, h2⟩
      rw [State.sreg, this, Group.sAt, if_pos (by omega)]
      show s.grp.hbank.getD (n + 8 - 64) 0 = _
      rw [show n + 8 - 64 = n - 56 by omega]
  · obtain ⟨dev, he, hn, ht⟩ := s.traceTrap_traced t
    refine ⟨dev, ?_, ⟨hn, ht⟩⟩
    rw [State.takeTrap_free (.inl hg), State.enterTrap_held hh hd, he, State.trapped_free hh]
    rfl
  · intro l hu ha hl hdone hfailed u
    have hfree : s.grp.gstate ≠ .trapped ∨ s.ent.handling = true := hu.symm.imp And.left id
    obtain ⟨w, hw, he⟩ := State.enterTrap_fails (t := t) ha (hu.imp_right And.right)
    have hover : ¬ (l.state = .done ∨ l.state = .failed) := not_or.2 ⟨hdone, hfailed⟩
    rw [show u = w.failLaunch s.team.launch 6 from (State.takeTrap_free hfree t).trans he]
    obtain ⟨hthis, hothers⟩ := State.unhandled_launch hw hl hover
    obtain ⟨hteams, hreg⟩ := State.unhandled_kills hw hl hover
    refine ⟨hthis, hothers, State.unhandled_queue hw hl hover, hteams, hreg, fun hn ht hd => ?_⟩
    obtain ⟨busy, hteam, hent, hgrp, hgroups⟩ := State.unhandled_front hw hl hover ha hn ht hd
    exact ⟨hteam, hent, by rw [hgrp]; rfl, by rw [hgrp]; exact (s.trapped t).grp.kill_ops busy, hgroups⟩
end Sys2Proof.Machine

/-! ## The PRIV forms (R363 to R368) -/
namespace Sys2Proof.Machine
open Sys2Proof

/-! ### Results in s registers -/

/-- A form retired at u that has left values to fill s registers from `first` on. -/
def State.filled (u : State) (first : Nat) (l : List Word) : State := { u with
  ent := u.ent.finish (u.ent.pc + 4), nextOp := u.nextOp + 1
  grp := { u.grp with ops := u.grp.ops ++ [{ id := u.nextOp, path := none, ent := u.ent.num, fills := l.zipIdx.map fun (x, i) => ⟨.s (u.sIndex (first + i)), x.setWidth 80⟩ }] } }

/-- An operation without accesses waits for no other. -/
theorem Group.precede_idle (g : Group) (e : Entity) {o : Op} (h : o.todo = []) : g.precede e o = [] := by
  simp [Group.precede, h]

theorem commit_fillS {s u : State} (h : u.ent = s.ent) (k : Nat) (l : List Word) : commit 4 s (.retire (u.fillS k l)) = .next (u.filled k l) := by
  show Host.Outcome.next ((u.fillS k l).finish (s.ent.pc + 4)) = _
  rw [← h]
  unfold State.fillS State.addOp
  rw [Group.precede_idle _ _ rfl]
  rfl

/-! ### The checks of a form -/

section Priv
variable {s : State} {a : BitVec 8} {n k : BitVec 4}

theorem State.priv_fault (ha : s.grp.agent = false) (oa : Option (BitVec 8)) (dst : List Nat) (f : Issue) : s.priv oa dst f = .next (s.takeTrap (s.trapHere .privFault)) := by
  simp [State.priv, ha, commit, State.malformedRecord, State.trapHere]

theorem State.priv_runs (ha : s.grp.agent = true) {dst : List Nat} (hd : ∀ j ∈ dst, s.pendingS j = false) (f : Issue) : s.priv none dst f = commit 4 s f := by
  have : dst.any s.pendingS = false := List.any_eq_false.2 fun j hj => by rw [hd j hj]; exact Bool.false_ne_true
  simp [State.priv, ha, this]

/-- The agent's form with an operand that stands ready, its result in s63. -/
def State.PrivReady (s : State) (a : BitVec 8) : Prop := s.grp.agent = true ∧ s.uniBad a = false ∧ s.pendingIn [] a = false ∧ s.pendingS 63 = false

theorem State.PrivReady.priv (h : s.PrivReady a) (f : Issue) : s.priv (some a) [63] f = commit 4 s f := by
  obtain ⟨ha, hb, hp, hd⟩ := h
  simp [State.priv, ha, hb, hp, hd]

/-! ### TEAMDONE and AGSLEEP (R366, R367) -/

theorem execPrivTeamdone_empty (ha : s.grp.agent = true) (hd : ∀ j ∈ [60, 61, 62, 63], s.pendingS j = false) (h : s.core.done = []) : execPrivTeamdone s = .next (s.filled 63 [0]) := by
  rw [execPrivTeamdone, State.priv_runs ha hd, h]
  exact commit_fillS rfl 63 [0]

theorem execPrivTeamdone_takes (ha : s.grp.agent = true) (hd : ∀ j ∈ [60, 61, 62, 63], s.pendingS j = false) {x : DoneTeam} {r : List DoneTeam} (h : s.core.done = x :: r) :
    execPrivTeamdone s = .next ({ s with core := { s.core with done := r } }.filled 60 [x.ticket.setWidth 32, (x.ticket >>> 32).setWidth 32, x.launch, BitVec.ofNat 32 (2 ^ 31 + x.err)]) := by
  rw [execPrivTeamdone, State.priv_runs ha hd, h]
  exact commit_fillS (u := { s with core := { s.core with done := r } }) rfl 60 _

theorem State.agLimit_iff : s.agLimit = true ↔ ∃ w, s.ent.wd.wake = some w ∧ w ≤ s.dev.tick := by
  unfold State.agLimit
  cases s.ent.wd.wake <;> simp

theorem execPrivAgsleep_eq (h : s.PrivReady a) : execPrivAgsleep a s = commit 4 s (
    if s.core.wakes ≠ 0 ∨ s.agLimit then .retire (s.agWake s.agLimit)
    else if s.uni a = 0 ∨ s.ent.wd.wake.isSome then .wait .sleep s
    else .wait .sleep (s.setEnt fun e => { e with wd := { e.wd with wake := some (s.dev.tick + (s.uni a).toNat) } })) := h.priv _

/-- An agent with an event to report returns it, and the events are cleared. -/
theorem execPrivAgsleep_wakes (h : s.PrivReady a) (hw : s.core.wakes ≠ 0 ∨ s.agLimit = true) :
    execPrivAgsleep a s = .next ({ s with core := { s.core with wakes := 0 } }.filled 63 [s.core.wakes.setWidth 32 ||| if s.agLimit then 0x20 else 0]) := by
  rw [execPrivAgsleep_eq h, if_pos hw]
  exact commit_fillS (u := { s with core := { s.core with wakes := 0 } }) rfl 63 _

theorem execPrivAgsleep_sleeps (h : s.PrivReady a) (hw : s.core.wakes = 0) (hl : s.agLimit = false) : execPrivAgsleep a s = .next { s with ent := { s.ent with
    status := .waiting .sleep, wd := { s.ent.wd with wake := if s.uni a = 0 ∨ s.ent.wd.wake ≠ none then s.ent.wd.wake else some (s.dev.tick + (s.uni a).toNat) } } } := by
  rw [execPrivAgsleep_eq h, if_neg (by simp [hw, hl])]
  by_cases hk : s.uni a = 0 ∨ s.ent.wd.wake ≠ none
  · rw [if_pos (hk.imp_right Option.isSome_iff_ne_none.2), if_pos hk]
    rfl
  · rw [if_neg (mt (Or.imp_right Option.isSome_iff_ne_none.1) hk), if_neg hk]
    rfl

/-! ### WKPOP (R48, R368) -/

/-- A notice that the agent of the core in front may take. -/
def State.Listed (s : State) (x : Notice) : Prop := x ∈ s.dev.notices ∧ x.arbour = s.arbour ∧ x.cls < 4 ∧ (s.ctx (s.queue x.queue).ctx).state = .resident

theorem State.listed_iff {x : Notice} : s.Listed x ↔
    x ∈ (s.dev.notices.filter fun n => n.arbour = s.arbour && decide ((s.ctx (s.queue n.queue).ctx).state = .resident)) ∧ x.cls < 4 := by
  rw [List.mem_filter, Bool.and_eq_true, decide_eq_true_iff, decide_eq_true_iff]
  exact ⟨fun ⟨h1, h2, h3, h4⟩ => ⟨⟨h1, h2, h4⟩, h3⟩, fun ⟨⟨h1, h2, h4⟩, h3⟩ => ⟨h1, h2, h3, h4⟩⟩

theorem State.headNotice_none (h : ∀ x, ¬ s.Listed x) : s.headNotice s.arbour = none := by
  refine List.findSome?_eq_none_iff.2 fun c hc => List.find?_eq_none.2 fun x hx hxc => h x (State.listed_iff.2 ⟨hx, ?_⟩)
  rw [of_decide_eq_true hxc]
  exact List.mem_range.1 hc

/-- The notice taken is listed, and none of a lower class is. -/
theorem State.headNotice_some {y : Notice} (hy : s.Listed y) : ∃ x, s.headNotice s.arbour = some x ∧ s.Listed x ∧ x.cls ≤ y.cls := by
  obtain ⟨hmem, hcls⟩ := State.listed_iff.1 hy
  obtain ⟨x, hx⟩ : ∃ x, s.headNotice s.arbour = some x := by
    rw [← Option.isSome_iff_exists, State.headNotice, List.findSome?_isSome_iff]
    refine ⟨y.cls, List.mem_range.2 hcls, List.find?_isSome.2 ⟨y, hmem, decide_eq_true rfl⟩⟩
  refine ⟨x, hx, ?_⟩
  obtain ⟨l₁, c, l₂, hl, hc, hbefore⟩ := List.findSome?_eq_some_iff.1 hx
  have hcx : x.cls = c := of_decide_eq_true (List.find?_some hc :)
  have hc4 : c < 4 := List.mem_range.1 (hl ▸ List.mem_append_right _ List.mem_cons_self)
  refine ⟨State.listed_iff.2 ⟨List.mem_of_find?_eq_some hc, hcx ▸ hc4⟩, ?_⟩
  rw [hcx]
  by_contra hlt
  -- a lower class stands before c in the range, and its search finds y
  have hy₁ : y.cls ∈ l₁ := by
    have hs : List.Pairwise (· < ·) (l₁ ++ c :: l₂) := hl ▸ List.pairwise_lt_range
    have hm : y.cls ∈ l₁ ++ c :: l₂ := hl ▸ List.mem_range.2 hcls
    rcases List.mem_append.1 hm with hm | hm
    · exact hm
    · rcases List.mem_cons.1 hm with rfl | hm
      · omega
      · have := (List.pairwise_cons.1 (List.pairwise_append.1 hs).2.1).1 _ hm
        omega
  exact List.find?_eq_none.1 (hbefore _ hy₁) y hmem (decide_eq_true rfl)

/-- The 16 bytes of a notice as four words. -/
theorem Notice.words (x : Notice) (h : x.cls < 4) : wordsOf 4 x.bytes = [
    BitVec.ofNat 32 ((if x.raster then 2 else 1) + x.cls * 2 ^ 8 + x.queue % 2 ^ 16 * 2 ^ 16), x.qgen.setWidth 32, if x.raster then x.launch else 0, 0] := by
  have hbytes : x.bytes = (if x.raster then 2 else 1) :: BitVec.ofNat 8 x.cls :: BitVec.ofNat 8 x.queue :: BitVec.ofNat 8 (x.queue / 256) :: x.qgen :: 0 :: 0 :: 0 ::
      (leBytes (if x.raster then x.launch.toNat else 0) 4 ++ leBytes 0 4) := by
    simp [Notice.bytes, leBytes]
  have hlaunch (n : Nat) : wordsOf 2 (leBytes n 4 ++ leBytes 0 4) = [BitVec.ofNat 32 n, 0] := by
    have h4 : (leBytes n 4).length = 4 := length_leBytes ..
    rw [wordsOf, List.take_left' h4, List.drop_left' h4, leNat_leBytes, wordsOf, wordsOf]
    refine congrArg₂ _ (BitVec.eq_of_toNat_eq (by simp)) rfl
  rw [hbytes]
  show BitVec.ofNat 32 (leNat [_, _, _, _]) :: BitVec.ofNat 32 (leNat [x.qgen, 0, 0, 0]) :: wordsOf 2 (leBytes (if x.raster then x.launch.toNat else 0) 4 ++ leBytes 0 4) = _
  rw [hlaunch]
  refine congrArg₂ _ (congrArg _ ?_) (congrArg₂ _ ?_ (congrArg₂ _ ?_ rfl))
  · have hr : (if x.raster then (2 : Byte) else 1).toNat = if x.raster then 2 else 1 := by split <;> rfl
    simp only [leNat, BitVec.toNat_ofNat]
    rw [hr]
    omega
  · exact BitVec.eq_of_toNat_eq (by simp [leNat])
  · split
    · exact BitVec.ofNat_toNat ..
    · rfl

/-- A notice taken: it leaves the list, and that of a queue is noted as claimed. -/
def State.claimNotice (s : State) (x : Notice) : State :=
  let t : State := { s with dev := { s.dev with notices := s.dev.notices.erase x } }
  if x.raster then t else t.setQueue { s.queue x.queue with claimed := true, notice := false, claimTick := s.dev.tick }

section Wkpop
variable {k : BitVec 8}

theorem execPrivWkpop_illegal (h : k.toNat % 2 = 1 ∨ 60 < k.toNat) : execPrivWkpop k s = .next (s.takeTrap (s.trapHere .illegalInstr 0)) := by
  rw [execPrivWkpop, if_pos h]
  simp [commit, State.illegal, State.malformedRecord, State.trapHere]

theorem execPrivWkpop_fault (ha : s.grp.agent = false) (h2 : k.toNat % 2 = 0) (h60 : k.toNat ≤ 60) : execPrivWkpop k s = .next (s.takeTrap (s.trapHere .privFault)) := by
  rw [execPrivWkpop, if_neg (by omega), State.priv_fault ha]

variable (ha : s.grp.agent = true) (hd : ∀ j < 4, s.pendingS (k.toNat + j) = false) (h2 : k.toNat % 2 = 0) (h60 : k.toNat ≤ 60)
include ha hd h2 h60

theorem execPrivWkpop_eq : execPrivWkpop k s = commit 4 s (match s.headNotice s.arbour with
    | none => .retire (s.fillS k.toNat [0, 0, 0, 0])
    | some n => .retire ((s.claimNotice n).fillS k.toNat (wordsOf 4 n.bytes))) := by
  have hp : ∀ j ∈ (List.range 4).map fun i => k.toNat + i, s.pendingS j = false := by
    intro j hj
    obtain ⟨i, hi, rfl⟩ := List.mem_map.1 hj
    exact hd i (List.mem_range.1 hi)
  rw [execPrivWkpop, if_neg (by omega), State.priv_runs ha hp]
  rfl

theorem execPrivWkpop_none (h : ∀ x, ¬ s.Listed x) : execPrivWkpop k s = .next (s.filled k.toNat [0, 0, 0, 0]) := by
  rw [execPrivWkpop_eq ha hd h2 h60, State.headNotice_none h]
  exact commit_fillS rfl _ _

theorem execPrivWkpop_claims {y : Notice} (hy : s.Listed y) : ∃ x, s.Listed x ∧ x.cls ≤ y.cls ∧ execPrivWkpop k s = .next ((s.claimNotice x).filled k.toNat [
    BitVec.ofNat 32 ((if x.raster then 2 else 1) + x.cls * 2 ^ 8 + x.queue % 2 ^ 16 * 2 ^ 16), x.qgen.setWidth 32, if x.raster then x.launch else 0, 0]) := by
  obtain ⟨x, hx, hl, hc⟩ := State.headNotice_some hy
  refine ⟨x, hl, hc, ?_⟩
  rw [execPrivWkpop_eq ha hd h2 h60, hx, ← x.words hl.2.2.1]
  refine commit_fillS ?_ _ _
  unfold State.claimNotice
  dsimp only
  split <;> rfl

end Wkpop
end Priv

/-! ### Accesses performed before TEAMGO (R149, R425) -/

@[simp] theorem State.todoWrite_ent (s : State) (a : Todo) (bs : List Byte) : (s.todoWrite a bs).ent = s.ent := by
  unfold State.todoWrite State.spadStore State.onCore
  split
  · rfl
  · split <;> rfl
theorem State.doAccess_ent (s : State) (a : Todo) : (s.doAccess a).1.ent = s.ent := by
  have rmw (f : BitVec 64 → BitVec 64) : (s.rmw a f).1.ent = s.ent := by
    unfold State.rmw
    split
    · rfl
    · exact State.todoWrite_ent ..
  unfold State.doAccess
  split
  · rfl
  · exact State.todoWrite_ent ..
  · exact rmw _
  · exact rmw _
  · split
    · dsimp only
      split
      · rfl
      · unfold State.putBarrier State.spadStore State.onCore
        dsimp only
        split <;> rfl
    · rfl
theorem State.perform_ent {s t : State} {op k : Nat} (h : s.perform op k = some t) : t.ent = s.ent := by
  obtain ⟨o, -, h⟩ := Option.bind_eq_some_iff.1 h
  obtain ⟨a, -, h⟩ := Option.bind_eq_some_iff.1 h
  split at h
  · cases h
  · cases h
    exact s.doAccess_ent a
theorem State.performN_ent {n op : Nat} {s t : State} (h : s.performN n op = some t) : t.ent = s.ent := by
  induction n generalizing s with
  | zero => cases h; rfl
  | succ n ih =>
    obtain ⟨u, hu, h⟩ := Option.bind_eq_some_iff.1 h
    exact (ih h).trans (State.perform_ent hu)
/-- Accesses that are performed leave the entity in front. -/
theorem State.performOps_ent (s : State) (l : List Nat) : (s.performOps l).ent = s.ent := by
  refine foldl_keeps State.ent (fun s op => ?_) l s
  cases h : s.performAll op with
  | none => rfl
  | some t =>
    unfold State.performAll at h
    split at h
    · cases h
    · exact State.performN_ent h

/-- Where no operation has an access left, there is nothing to perform. -/
theorem State.performOps_idle {s : State} (h : ∀ o ∈ s.grp.ops, o.todo = []) (l : List Nat) : s.performOps l = s := by
  induction l with
  | nil => rfl
  | cons n t ih =>
    have hn : (s.performAll n).getD s = s := by
      unfold State.performAll
      split
      · rfl
      · next o ho =>
        rw [h o (List.mem_of_find?_eq_some ho)]
        rfl
    rw [State.performOps, List.foldl_cons, hn]
    exact ih

/-- An operation but for its accesses and results. -/
def Op.label (o : Op) : Nat × Nat × Bool × Option Path × List Nat := (o.id, o.ent, o.done, o.path, o.after)

/-- The operations of t are those of s, with nothing left of those that ids names. -/
def State.Performed (ids : List Nat) (s t : State) : Prop :=
  ∃ f : Op → Op, t.grp.ops = s.grp.ops.map f ∧ ∀ o ∈ s.grp.ops, (f o).label = o.label ∧ (o.id ∈ ids ∨ o.todo = [] → (f o).todo = [])

/-- Operations in order: each has its own number, and waits for none. -/
def State.Unordered (s : State) : Prop := (s.grp.ops.map Op.id).Nodup ∧ ∀ o ∈ s.grp.ops, o.after = []

theorem State.Performed.unordered {ids : List Nat} {s t : State} (h : State.Performed ids s t) (hs : s.Unordered) : t.Unordered := by
  obtain ⟨f, hf, hl⟩ := h
  obtain ⟨hn, ha⟩ := hs
  have hid : t.grp.ops.map Op.id = s.grp.ops.map Op.id := by
    rw [hf, List.map_map]
    exact List.map_congr_left fun o ho => congrArg (·.1) (hl o ho).1
  refine ⟨hid ▸ hn, fun o ho => ?_⟩
  rw [hf] at ho
  obtain ⟨x, hx, rfl⟩ := List.mem_map.1 ho
  exact (congrArg (·.2.2.2.2) (hl x hx).1).trans (ha x hx)

theorem State.Performed.then {ids : List Nat} {n : Nat} {s t u : State} (h : State.Performed [n] s t) (k : State.Performed ids t u) : State.Performed (n :: ids) s u := by
  obtain ⟨f, hf, hl⟩ := h
  obtain ⟨g, hg, hm⟩ := k
  refine ⟨g ∘ f, by rw [hg, hf, List.map_map], fun o ho => ?_⟩
  obtain ⟨hfl, hft⟩ := hl o ho
  obtain ⟨hgl, hgt⟩ := hm (f o) (by rw [hf]; exact List.mem_map_of_mem ho)
  have hid : (f o).id = o.id := congrArg (·.1) hfl
  refine ⟨hgl.trans hfl, fun h => hgt ?_⟩
  rw [hid]
  rcases h with h | h
  · exact (List.mem_cons.1 h).symm.imp_right fun h => hft (.inl (List.mem_singleton.2 h))
  · exact .inr (hft (.inr h))

/-- One operation that waits for none is performed to its end. -/
theorem State.performAll_performed {s : State} (h : s.Unordered) (n : Nat) : State.Performed [n] s ((s.performAll n).getD s) := by
  obtain ⟨hn, ha⟩ := h
  by_cases hex : ∃ o ∈ s.grp.ops, o.id = n
  · obtain ⟨o, ho, rfl⟩ := hex
    have hu : ∀ y ∈ s.grp.ops, y.id = o.id → y = o := fun y hy hid => List.inj_on_of_nodup_map hn hy ho hid
    have hb : ∀ a ∈ o.todo, s.grp.blocked o a = false := fun a _ => by simp [Group.blocked, ha o ho]
    rw [State.performAll_eq ho hu hb, Option.getD_some, Op.runs_eq _ s o rfl]
    refine ⟨_, rfl, fun y hy => ?_⟩
    by_cases hy' : y.id = o.id
    · rw [if_pos hy', hu y hy hy']
      exact ⟨rfl, fun _ => rfl⟩
    · rw [if_neg hy']
      exact ⟨rfl, fun h => h.resolve_left fun h => hy' (List.mem_singleton.1 h)⟩
  · have hnone : s.performAll n = none := by
      have : (s.grp.ops.find? fun o => o.id = n) = none := List.find?_eq_none.2 fun o ho hid => hex ⟨o, ho, of_decide_eq_true hid⟩
      rw [State.performAll, this]
    rw [hnone]
    refine ⟨id, (List.map_id _).symm, fun o ho => ⟨rfl, fun h => h.resolve_left fun h => hex ⟨o, ho, List.mem_singleton.1 h⟩⟩⟩

theorem State.performOps_performed {s : State} (h : s.Unordered) (ids : List Nat) : State.Performed ids s (s.performOps ids) := by
  induction ids generalizing s with
  | nil => exact ⟨id, (List.map_id _).symm, fun o _ => ⟨rfl, fun h => h.resolve_left List.not_mem_nil⟩⟩
  | cons n t ih =>
    have hn := State.performAll_performed h n
    exact hn.then (ih (hn.unordered h))

/-- A release performs the entity's earlier accesses (R154, R425). -/
theorem State.released_performs {s : State} (h : s.Unordered) {o : Op} (ho : o ∈ s.released.grp.ops) (hd : o.done = false) (he : o.ent = s.ent.num ∨ o.id ∈ s.ent.prior)
    (hp : o.path ∈ [some Path.vm, some .sp, some .ga, some .mq]) : o.todo = [] := by
  obtain ⟨f, hf, hl⟩ := State.performOps_performed h (s.grp.before s.ent)
  rw [State.released, hf] at ho
  obtain ⟨x, hx, rfl⟩ := List.mem_map.1 ho
  obtain ⟨hlabel, htodo⟩ := hl x hx
  simp only [Op.label, Prod.mk.injEq] at hlabel
  obtain ⟨hid, hent, hdone, hpath, -⟩ := hlabel
  rw [hid, hent] at he
  rw [hdone] at hd
  rw [hpath] at hp
  refine htodo (.inl (List.mem_map_of_mem (List.mem_filter.2 ⟨List.mem_filter.2 ⟨hx, ?_⟩, List.contains_iff_mem.2 hp⟩)))
  simpa [hd] using he


/-! ### TEAMGO (R364, R365) -/

theorem State.onCore_front (s : State) (f : Core → Core) : s.onCore s.core.num f = { s with core := f s.core } := if_pos rfl
theorem State.onCore_ent (s : State) (c : Nat) (f : Core → Core) : (s.onCore c f).ent = s.ent := by
  unfold State.onCore
  split <;> rfl
theorem State.onCore_allTeams (s : State) (c : Nat) (f : Core → Core) : (s.onCore c f).allTeams = s.allTeams := by
  unfold State.onCore
  split <;> rfl
theorem State.onCore_nextTeam (s : State) (c : Nat) (f : Core → Core) : (s.onCore c f).nextTeam = s.nextTeam := by
  unfold State.onCore
  split <;> rfl

/-- The team that a start makes (R79). -/
def Hold.team (h : Hold) (n core : Nat) (i : StartInfo) : Team :=
  { serial := n, core, launch := i.launch, ticket := BitVec.ofNat 64 i.ticket, job := i.job.map RastJob.job, x := BitVec.ofNat 32 i.index.1, y := BitVec.ofNat 32 i.index.2.1
    z := BitVec.ofNat 32 i.index.2.2, gx := BitVec.ofNat 32 i.grid.1, gy := BitVec.ofNat 32 i.grid.2.1, gz := BitVec.ofNat 32 i.grid.2.2, ctx := i.ctx, queue := i.queue, qgen := i.qgen
    groups := i.kd.groups, pair := h.pair, producer := i.kd.producer, cwin := i.kd.cwin, args := i.args, entry := i.kd.entry, gcinit := i.kd.gcinit, seed := i.kd.seed
    width := i.kd.width, named := i.kd.named, peak := i.kd.peak, bars := h.bars, scratch := h.scratch, base := h.base, base2 := h.base2, draw := i.draw }

/-- What a start adds a group to: a part of the state that groups on the cores are not in. -/
theorem State.startTeam_keeps {α : Type} (p : State → α) (hc : ∀ s c f, p (State.onCore s c f) = p s) (ha : ∀ (s : State) n, p { s with nextAge := n } = p s) (s : State) (core : Nat) (h : Hold)
    (i : StartInfo) : p (s.startTeam core h i) = p { s with teams := h.team s.nextTeam core i :: s.teams, nextTeam := s.nextTeam + 1 } := by
  have hg (u : State) (x : GLoc × Nat) : p (u.insertGroup i s.nextTeam x.2 x.1) = p u := (ha _ _).trans (hc _ _ _)
  exact (foldl_keeps p hg h.places.zipIdx _).trans (hc _ _ _)
theorem State.startTeam_ent (s : State) (core : Nat) (h : Hold) (i : StartInfo) : (s.startTeam core h i).ent = s.ent :=
  State.startTeam_keeps State.ent State.onCore_ent (fun _ _ => rfl) s core h i
theorem State.startTeam_teams (s : State) (core : Nat) (h : Hold) (i : StartInfo) : (s.startTeam core h i).allTeams = s.team :: h.team s.nextTeam core i :: s.teams :=
  State.startTeam_keeps State.allTeams State.onCore_allTeams (fun _ _ => rfl) s core h i
theorem State.startTeam_nextTeam (s : State) (core : Nat) (h : Hold) (i : StartInfo) : (s.startTeam core h i).nextTeam = s.nextTeam + 1 :=
  State.startTeam_keeps State.nextTeam State.onCore_nextTeam (fun _ _ => rfl) s core h i
theorem State.startTeam_dev (s : State) (core : Nat) (h : Hold) (i : StartInfo) : (s.startTeam core h i).dev = s.dev :=
  State.startTeam_keeps State.dev State.onCore_dev (fun _ _ => rfl) s core h i

/-- The hold that a block names on the core in front. -/
def State.heldFor (s : State) (block : Nat) : Option Hold := s.core.holds.find? fun h => h.num = fieldOf block 756 4

section TeamGo
variable {r : State} {block : Nat} {h : Hold}

theorem State.teamGo_admits (ha : r.admission r.core.num (kdesc (block % 2 ^ 512)) = .ok h) :
    r.teamGo 0 block = .retire ({ r with core := { r.core with holds := h :: r.core.holds } }.fillS 63 [BitVec.ofNat 32 (2 ^ 31 + h.num)]) := by
  simp only [State.teamGo, ha, State.onCore_front]

theorem State.teamGo_refuses {e : Nat} (ha : r.admission r.core.num (kdesc (block % 2 ^ 512)) = .error e) : r.teamGo 0 block = .retire (r.fillS 63 [BitVec.ofNat 32 (e * 2 ^ 28)]) := by
  simp only [State.teamGo, ha]

theorem State.teamGo_starts (hh : r.heldFor block = some h) (hj : fieldOf block 660 32 = 2 ^ 32 - 1) :
    r.teamGo 1 block = .retire ((r.startTeam r.core.num h (blockInfo block)).fillS 63 [BitVec.ofNat 32 (2 ^ 31 + h.num)]) := by
  have hh' : (r.core.holds.find? fun h => h.num = blockHold block) = some h := hh
  have hj' : blockJob block = none := if_pos hj
  simp only [State.teamGo, hh', hj']

theorem State.teamGo_releases (hh : r.heldFor block = some h) :
    r.teamGo 2 block = .retire ({ r with core := { r.core with holds := r.core.holds.filter fun x => x.num != h.num } }.fillS 63 [BitVec.ofNat 32 (2 ^ 31 + h.num)]) := by
  have hh' : (r.core.holds.find? fun h => h.num = blockHold block) = some h := hh
  simp only [State.teamGo, hh', State.onCore_front]

theorem State.teamGo_unheld {step : Nat} (h0 : step ≠ 0) (hh : r.heldFor block = none) : r.teamGo step block = r.badCause 0x50 := by
  have hh' : (r.core.holds.find? fun h => h.num = blockHold block) = none := hh
  simp only [State.teamGo, hh']

end TeamGo

/-- The block's accesses as TEAMGO reads it. -/
def State.blockRead (s : State) (va : VAddr) : List Todo := s.todoOf { r := true } true 8 [⟨0, va, 128⟩] fun _ _ _ => .load []

/-- The state in which TEAMGO reads its block: all earlier accesses of the agent are performed for a start, else those to the block (R149, R425). -/
def State.goState (u : State) (step : Nat) (todo : List Todo) : State :=
  if step = 1 then u.released else u.performOps (u.grp.precede u.ent { id := 0, ent := 0, path := some .vm, todo })

theorem State.goState_ent (u : State) (step : Nat) (todo : List Todo) : (u.goState step todo).ent = u.ent := by
  unfold State.goState
  split <;> exact State.performOps_ent ..
theorem State.goState_idle {u : State} (h : ∀ o ∈ u.grp.ops, o.todo = []) (step : Nat) (todo : List Todo) : u.goState step todo = u := by
  unfold State.goState
  split <;> exact State.performOps_idle h _

section Go
variable {s : State} {a : BitVec 8} {n k : BitVec 4} (h : s.PrivReady a) (hb : s.grp.pendingDest (.b n.toNat) = false)
include h hb

theorem execPrivTeamgo_step (hs : 2 < (s.uni a).toNat) : execPrivTeamgo k n a s = .next (s.takeTrap (s.trapHere .illegalOperand 0x350)) := by
  rw [execPrivTeamgo, h.priv, if_neg (by rw [hb]; exact Bool.false_ne_true), if_pos hs]
  rfl

theorem execPrivTeamgo_reads (hs : (s.uni a).toNat ≤ 2) (hv : s.Sendable { r := true } 64 8 true [⟨0, s.breg n.toNat + BitVec.ofNat 80 (64 * k.toNat), 128⟩]) :
    ∃ u, OnlyCaches s u ∧ execPrivTeamgo k n a s = commit 4 s (
      (u.goState (s.uni a).toNat (s.blockRead (s.breg n.toNat + BitVec.ofNat 80 (64 * k.toNat)))).teamGo (s.uni a).toNat
        (leNat ((u.goState (s.uni a).toNat (s.blockRead (s.breg n.toNat + BitVec.ofNat 80 (64 * k.toNat)))).loadVA (s.breg n.toNat + BitVec.ofNat 80 (64 * k.toNat)) 128))) := by
  obtain ⟨u, hu, he⟩ := State.access_ok hv (by decide) 1 (fun _ _ _ => .load []) fun t todo _ =>
    let u := if s.uni a = 1 then t.released else t.performOps (t.grp.precede t.ent { id := 0, ent := 0, path := some .vm, todo })
    u.teamGo (s.uni a).toNat (leNat (u.loadVA (s.breg n.toNat + BitVec.ofNat 80 (64 * k.toNat)) 128))
  refine ⟨u, hu, ?_⟩
  have h1 : (s.uni a).toNat = 1 ↔ s.uni a = 1 := ⟨fun h => BitVec.eq_of_toNat_eq h, fun h => by rw [h]; rfl⟩
  rw [execPrivTeamgo, h.priv, if_neg (by rw [hb]; exact Bool.false_ne_true), if_neg (by omega), he]
  simp only [State.goState, h1]
  rfl

end Go
end Sys2Proof.Machine

/-! ## Launches (R76, R82, R84, R85) -/
namespace Sys2Proof.Machine
open Sys2Proof

/-! ### What a claim reads (R76) -/

theorem Memory.readBytes_take (m : Memory) {n k : Nat} (h : n ≤ k) (a : Nat) : (m.readBytes a k).take n = m.readBytes a n := by
  simpa using m.readBytes_part a k 0 n (by omega)

/-- A run of at most a page is one piece, or two where it goes over a page's end. -/
theorem piecesOf_short (va : VAddr) {len : Nat} (h0 : 0 < len) (h : len < 2 ^ 16) : piecesOf va len =
    if len ≤ 2 ^ 16 - va.toNat % 2 ^ 16 then [(va.toNat, len)]
    else [(va.toNat, 2 ^ 16 - va.toNat % 2 ^ 16), ((va.toNat + (2 ^ 16 - va.toNat % 2 ^ 16)) % 2 ^ 80, len - (2 ^ 16 - va.toNat % 2 ^ 16))] := by
  have hf : len / 2 ^ 16 + 2 = 2 := by omega
  have hva : va.toNat % 2 ^ 80 = va.toNat := Nat.mod_eq_of_lt va.isLt
  rw [piecesOf, hf]
  unfold pieces pieces pieces
  generalize va.toNat = x at *
  dsimp only
  rw [if_neg (by omega), hva]
  by_cases hle : len ≤ 2 ^ 16 - x % 2 ^ 16
  · rw [if_pos hle, Nat.min_eq_left hle, if_pos (by omega)]
  · rw [if_neg hle, Nat.min_eq_right (by omega), if_neg (by omega), Nat.min_eq_left (by omega)]

/-- The first bytes that a unit reads do not depend on how many it reads. -/
theorem State.gRead_take (s : State) (tlb : List TlbEntry) (c : Ctx) (arb : Nat) (va : VAddr) {n k : Nat} (h0 : 0 < n) (h : n ≤ k) (hk : k < 2 ^ 16) :
    (s.gRead tlb c arb va k).take n = s.gRead tlb c arb va n := by
  unfold State.gRead
  rw [piecesOf_short va (by omega) hk, piecesOf_short va h0 (by omega)]
  generalize 2 ^ 16 - va.toNat % 2 ^ 16 = room
  by_cases hn : n ≤ room
  · rw [if_pos hn]
    split
    · simp only [List.flatMap_cons, List.flatMap_nil, List.append_nil, Memory.readBytes_take _ h]
    · simp only [List.flatMap_cons, List.flatMap_nil, List.append_nil]
      rw [List.take_append_of_le_length (by rw [Memory.length_readBytes]; exact hn), Memory.readBytes_take _ hn]
  · rw [if_neg hn, if_neg (by omega)]
    simp only [List.flatMap_cons, List.flatMap_nil, List.append_nil]
    rw [List.take_append, Memory.length_readBytes, List.take_of_length_le (by rw [Memory.length_readBytes]; omega), Memory.readBytes_take _ (by omega)]

theorem leNat_take (n : Nat) (l : List Byte) : leNat (l.take n) = leNat l % 256 ^ n := by
  induction n generalizing l with
  | zero => simp [leNat, Nat.mod_one]
  | succ n ih =>
    cases l with
    | nil => simp [leNat]
    | cons b t =>
      have hb := b.isLt
      rw [List.take_succ_cons, leNat, leNat, ih, Nat.pow_succ, Nat.mul_comm (256 ^ n) 256, Nat.mod_mul, Nat.add_mul_mod_self_left, Nat.mod_eq_of_lt (by omega : b.toNat < 256),
        Nat.add_mul_div_left _ _ (by omega : 0 < 256), Nat.div_eq_of_lt (by omega : b.toNat < 256), Nat.zero_add]

theorem badKernel_high {n : Nat} (h : badKernel n = false) : n < 2 ^ 512 := by
  by_contra hn
  have h0 : decide (n / 2 ^ 512 ≠ 0) = true := decide_eq_true (Nat.ne_of_gt (Nat.div_pos (Nat.not_lt.1 hn) (Nat.two_pow_pos 512)))
  unfold badKernel at h
  rw [h0] at h
  simp only [Bool.true_or] at h
  cases h

section Check
variable {s : State} {ctx arb : Nat} {desc args : VAddr} {k : KDesc} {l : Launch}

theorem State.readDesc_ok (h : s.readDesc ctx arb desc = .ok k) :
    badKernel (leNat (s.gRead [] (s.ctx ctx) arb desc 256)) = false ∧ kdesc (leNat (s.gRead [] (s.ctx ctx) arb desc 256)) = k := by
  unfold State.readDesc at h
  split at h
  · cases h
  · dsimp only at h
    split at h
    · cases h
    · next hb => exact ⟨Bool.eq_false_iff.2 hb, Except.ok.inj h⟩

theorem State.readKernel_ok (h : s.readKernel ctx arb desc args = .ok k) : s.readDesc ctx arb desc = .ok k := by
  unfold State.readKernel at h
  split at h
  · cases h
  · next k' hd =>
    split at h
    · rw [hd, Except.ok.inj h]
    · cases h

theorem State.checkLaunch_ok (h : s.checkLaunch l = .ok k) : s.readKernel l.ctx (l.id.toNat / 2 ^ 29) l.kdesc l.args = .ok k := by
  unfold State.checkLaunch at h
  split at h
  · cases h
  · next k' hr =>
    split at h
    · cases h
    · split at h
      · cases h
      · rw [hr, Except.ok.inj h]

/-- The first 64 bytes of a launch's descriptor, as its claim keeps them. -/
def State.claimedDesc (s : State) (l : Launch) : BitVec 512 := BitVec.ofNat 512 (leNat (s.gRead [] (s.ctx l.ctx) (l.id.toNat / 2 ^ 29) l.kdesc 64))

/-- A launch that passes its checks has the descriptor that they give. -/
theorem State.claimedDesc_eq (h : s.checkLaunch l = .ok k) : kdesc (s.claimedDesc l).toNat = k := by
  obtain ⟨hb, hk⟩ := State.readDesc_ok (State.readKernel_ok (State.checkLaunch_ok h))
  have hlow := badKernel_high hb
  have h64 : leNat (s.gRead [] (s.ctx l.ctx) (l.id.toNat / 2 ^ 29) l.kdesc 64) = leNat (s.gRead [] (s.ctx l.ctx) (l.id.toNat / 2 ^ 29) l.kdesc 256) := by
    rw [← State.gRead_take s [] _ _ _ (by decide : 0 < 64) (by decide : 64 ≤ 256) (by decide), leNat_take]
    exact Nat.mod_eq_of_lt (by rwa [show 256 ^ 64 = 2 ^ 512 from (Nat.pow_mul 2 8 64).symm])
  rw [State.claimedDesc, h64, BitVec.toNat_ofNat, Nat.mod_eq_of_lt hlow, hk]

end Check

/-! ### Opening a launch (R84, R304) -/

/-- What keeps a launch CLAIMED: a full table, another COHORT launch, or line fills that its SYNC drains. -/
def State.Blocked (s : State) (l : Launch) (k : KDesc) : Prop :=
  (∃ arb < 8, k.takes arb = true ∧ 256 ≤ (s.dev.openTable.filter fun e => e.1 = arb).length) ∨
  (l.cohort = true ∧ ∃ x ∈ s.dev.launches, x.cohort = true ∧ x.state = .issuing ∧ x.id ≠ l.id) ∨
  (l.sync = true ∧ ∃ c ∈ s.allCores, k.takes (c.num / 104) = true ∧ c.fills ≠ [])

section Open
variable {s : State} {l : Launch}

theorem State.blocked_iff : s.Blocked l (kdesc l.desc.toNat) ↔
    (((List.range 8).filter (kdesc l.desc.toNat).takes).any fun a => decide (256 ≤ (s.dev.openTable.filter fun e => e.1 = a).length)) = true ∨
    (l.cohort && s.dev.launches.any fun x => x.cohort && x.state = .issuing && x.id != l.id) = true ∨ (l.sync = true ∧ s.filling? (kdesc l.desc.toNat).takes = true) := by
  refine or_congr ?_ (or_congr ?_ (and_congr_right fun _ => ?_))
  · simp
  · simp [and_assoc]
  · simp [State.filling?, arbourOf]

theorem State.openLaunch_blocked (h : s.Blocked l (kdesc l.desc.toNat)) : s.openLaunch l = none := if_pos (State.blocked_iff.1 h)

/-- The Arbours whose tables a launch enters. -/
def KDesc.arbs (k : KDesc) : List Nat := (List.range 8).filter k.takes

/-- The state in which a launch is open, before its Arbours' agents wake. -/
def State.enterTables (s : State) (l : Launch) : State :=
  ((if l.sync then s.codeSync l.ctx (kdesc l.desc.toNat).cwin (kdesc l.desc.toNat).coff (kdesc l.desc.toNat).clen (kdesc l.desc.toNat).takes else s).setLaunch { l with state := .issuing }).setDev
    fun d => { d with openTable := d.openTable ++ (kdesc l.desc.toNat).arbs.map fun a => (a, l.id) }

theorem State.enterTables_dev (s : State) (l : Launch) : (s.enterTables l).dev.launches = (s.setLaunch { l with state := .issuing }).dev.launches ∧
    (s.enterTables l).dev.openTable = s.dev.openTable ++ (kdesc l.desc.toNat).arbs.map fun a => (a, l.id) := by
  unfold State.enterTables
  split <;> exact ⟨rfl, rfl⟩

theorem State.openLaunch_free (h : ¬ s.Blocked l (kdesc l.desc.toNat)) : s.openLaunch l = some ((kdesc l.desc.toNat).arbs.foldl (fun s a => s.wakeArbour a 2) (s.enterTables l)) :=
  if_neg (mt State.blocked_iff.2 h)

/-- An open launch is ISSUING, with an entry in the table of each Arbour that its kernel names. -/
theorem State.openLaunch_opens (h : ¬ s.Blocked l (kdesc l.desc.toNat)) : ∃ t, s.openLaunch l = some t ∧ t.launch? l.id = some { l with state := .issuing } ∧
    ∀ arb x, (arb, x) ∈ t.dev.openTable ↔ (arb, x) ∈ s.dev.openTable ∨ (x = l.id ∧ arb < 8 ∧ (kdesc l.desc.toNat).takes arb = true) := by
  obtain ⟨hl, ht⟩ := s.enterTables_dev l
  refine ⟨_, State.openLaunch_free h, ?_, fun arb x => ?_⟩
  · have hw := foldl_keeps (fun s => s.dev.launches) (f := fun s a => s.wakeArbour a 2) (fun _ _ => rfl) (kdesc l.desc.toNat).arbs (s.enterTables l)
    rw [State.launch_congr (hw.trans hl), State.launch_setLaunch, if_pos rfl]
  · have hw := foldl_keeps (fun s => s.dev.openTable) (f := fun s a => s.wakeArbour a 2) (fun _ _ => rfl) (kdesc l.desc.toNat).arbs (s.enterTables l)
    rw [show ((kdesc l.desc.toNat).arbs.foldl (fun s a => s.wakeArbour a 2) (s.enterTables l)).dev.openTable = _ from hw, ht, List.mem_append, List.mem_map]
    refine or_congr_right ⟨?_, ?_⟩
    · rintro ⟨a, ha, he⟩
      cases he
      simpa [KDesc.arbs] using ha
    · rintro ⟨rfl, ha⟩
      exact ⟨arb, by simpa [KDesc.arbs] using ha, rfl⟩

end Open

/-! ### Claims (R76, R77, R84) -/

/-- A fatal event leaves the record of a launch that has failed. -/
theorem State.ctxFatal_failed {s : State} {id : Word} {y : Launch} (hy : s.launch? id = some y) (hf : y.state = .failed) (n kind code : Nat) (addr : VAddr) :
    (s.ctxFatal n kind code addr).launch? id = some y := by
  by_cases h : (s.ctx n).state = .free ∨ (s.ctx n).state = .releasing ∨ (s.ctx n).state = .error
  · rw [State.ctxFatal]
    dsimp only
    rw [if_pos h, hy]
  · have hkeep : y.failed 8 = y := if_pos (.inr hf)
    have hl : (s.fatal n { kind, code, addr } true).launch? id = some y := by
      refine State.fatal_keeps (P := fun t => t.launch? id = some y) ?_ fun t ht => (State.launch_congr (t.killTeams_tidied _).launches id).trans ht
      rw [State.failLaunches_launch, State.launch_congr (s.errored_launches n _), hy]
      rw [Option.map_some, hkeep]
      exact ite_self _
    have hd (u : State) : (u.mbDone 2).launch? id = u.launch? id := rfl
    rw [State.ctxFatal_eq h, apply_ite (State.launch? · id), hd, ite_self, hl]

theorem State.fatalKernel_failed {s : State} {id : Word} {y : Launch} (hy : s.launch? id = some y) (hf : y.state = .failed) (ctx arb : Nat) (desc args : VAddr) :
    (s.fatalKernel ctx arb desc args).launch? id = some y := by
  unfold State.fatalKernel
  dsimp only
  refine List.foldlRecOn _ _ (motive := fun t : State => t.launch? id = some y) hy fun t ht p _ => ?_
  unfold State.fatalAt
  dsimp only
  split
  · exact State.ctxFatal_failed ht hf ..
  · exact ht

section Claim
variable {s : State} {id : Nat} {l : Launch} (h : s.launch? (BitVec.ofNat 32 id) = some l) (hd : l.isDraw = false) (hr : (s.ctx l.ctx).state = .resident)
include h hd hr

theorem execLaunchClaim_claimed (hc : l.state = .claimed) : execLaunchClaim id s = (s.openLaunch l).elim (.refused .notDue) .next := by
  unfold execLaunchClaim
  rw [h]
  dsimp only
  rw [if_neg (by simp [hd, hr]), if_pos hc]
  cases s.openLaunch l <;> rfl

theorem execLaunchClaim_failed (hp : l.state = .pending) (hn : s.recordsAt (l.id.toNat / 2 ^ 29) < 256) {e : Nat} (he : s.checkLaunch l = .error e) :
    execLaunchClaim id s = .next ((s.failLaunch l.id e).fatalKernel l.ctx (l.id.toNat / 2 ^ 29) l.kdesc l.args) := by
  unfold execLaunchClaim
  rw [h]
  dsimp only
  rw [if_neg (by simp [hd, hr]), if_neg (by simp [hp]), if_neg (not_or.2 ⟨not_not.2 hp, Nat.not_le.2 hn⟩), he]

theorem execLaunchClaim_checked (hp : l.state = .pending) (hn : s.recordsAt (l.id.toNat / 2 ^ 29) < 256) {k : KDesc} (hk : s.checkLaunch l = .ok k) : execLaunchClaim id s =
    .next ((s.openLaunch { l with state := .claimed, desc := s.claimedDesc l }).getD (s.setLaunch { l with state := .claimed, desc := s.claimedDesc l })) := by
  unfold execLaunchClaim
  rw [h]
  dsimp only
  rw [if_neg (by simp [hd, hr]), if_neg (by simp [hp]), if_neg (not_or.2 ⟨not_not.2 hp, Nat.not_le.2 hn⟩), hk]
  rfl

theorem execLaunchClaim_fails (hp : l.state = .pending) (hn : s.recordsAt (l.id.toNat / 2 ^ 29) < 256) {e : Nat} (he : s.checkLaunch l = .error e) :
    ∃ t y, execLaunchClaim id s = .next t ∧ t.launch? l.id = some y ∧ y.state = .failed ∧ y.err = e := by
  have hl : s.launch? l.id = some l := by rw [(State.launch_id h).2, h]
  have hy : (s.failLaunch l.id e).launch? l.id = some { l with state := .failed, err := e, holders := [] } := by
    rw [State.failLaunch_launch, if_pos rfl, hl, Option.map_some, Launch.failed, if_neg (by simp [hp])]
  rw [execLaunchClaim_failed h hd hr hp hn he]
  exact ⟨_, _, rfl, State.fatalKernel_failed hy rfl .., rfl, rfl⟩

/-- A claimed launch stays CLAIMED while something blocks it, and opens otherwise. -/
theorem execLaunchClaim_opens (hc : l.state = .claimed) : (s.Blocked l (kdesc l.desc.toNat) → execLaunchClaim id s = .refused .notDue) ∧
    (¬ s.Blocked l (kdesc l.desc.toNat) → ∃ t, execLaunchClaim id s = .next t ∧ t.launch? l.id = some { l with state := .issuing } ∧
      ∀ arb x, (arb, x) ∈ t.dev.openTable ↔ (arb, x) ∈ s.dev.openTable ∨ (x = l.id ∧ arb < 8 ∧ (kdesc l.desc.toNat).takes arb = true)) := by
  rw [execLaunchClaim_claimed h hd hr hc]
  refine ⟨fun hb => by rw [State.openLaunch_blocked hb]; rfl, fun hb => ?_⟩
  obtain ⟨t, ht, hl, ho⟩ := State.openLaunch_opens hb
  exact ⟨t, by rw [ht]; rfl, hl, ho⟩

/-- A launch that passes its checks is claimed, and opens at once where nothing blocks it. -/
theorem execLaunchClaim_claims (hp : l.state = .pending) (hn : s.recordsAt (l.id.toNat / 2 ^ 29) < 256) {k : KDesc} (hk : s.checkLaunch l = .ok k) :
    (s.Blocked l k → ∃ t, execLaunchClaim id s = .next t ∧ t.launch? l.id = some { l with state := .claimed, desc := s.claimedDesc l } ∧ t.dev.openTable = s.dev.openTable) ∧
    (¬ s.Blocked l k → ∃ t, execLaunchClaim id s = .next t ∧ t.launch? l.id = some { l with state := .issuing, desc := s.claimedDesc l } ∧
      ∀ arb x, (arb, x) ∈ t.dev.openTable ↔ (arb, x) ∈ s.dev.openTable ∨ (x = l.id ∧ arb < 8 ∧ k.takes arb = true)) := by
  rw [execLaunchClaim_checked h hd hr hp hn hk]
  have hdesc := State.claimedDesc_eq hk
  subst hdesc
  refine ⟨fun hb => ?_, fun hb => ?_⟩
  · refine ⟨_, rfl, ?_⟩
    rw [State.openLaunch_blocked (l := { l with state := .claimed, desc := s.claimedDesc l }) hb, Option.getD_none]
    exact ⟨by rw [State.launch_setLaunch, if_pos rfl], rfl⟩
  · obtain ⟨t, ht, hl, ho⟩ := State.openLaunch_opens (l := { l with state := .claimed, desc := s.claimedDesc l }) hb
    exact ⟨t, by rw [ht, Option.getD_some], hl, ho⟩

end Claim
end Sys2Proof.Machine

/-! ## What an agent does for a launch (R85, R367) -/
namespace Sys2Proof.Machine
open Sys2Proof

/-- An event or the limit ends a sleep. -/
theorem execAgsleepWake_ends {s t : State} {core : Nat} (ht : (s.focusCore core).focusGroup ⟨core, 0, 15⟩ = some t) (hs : t.ent.status = .waiting .sleep)
    (hw : t.core.wakes ≠ 0 ∨ ∃ w, t.ent.wd.wake = some w ∧ w ≤ t.dev.tick) : execAgsleepWake core s = .next { t with ent := { t.ent with status := .ready } } := by
  unfold execAgsleepWake
  dsimp only
  rw [ht]
  dsimp only
  rw [if_pos ⟨hs, hw.imp_right State.agLimit_iff.2⟩]
  rfl

theorem State.withdrawOpen_openTable (s : State) (id : Word) : (s.withdrawOpen id).dev.openTable = s.dev.openTable.filter fun e => e.2 != id :=
  foldl_keeps (fun s => s.dev.openTable) (f := fun s a => s.wakeArbour a 2) (fun _ _ => rfl) _ _

/-- A launch whose ticket x an agent starts. -/
def Launch.goes (l : Launch) (x : Nat × Nat × Nat) : Launch := { l.start x.2.2 with go := l.cohort, holders := l.holders.filter fun y => ! [x].contains y }

/-- A held ticket of a launch that is no COHORT starts its team. -/
theorem State.goOn_starts {s : State} {l : Launch} {x : Nat × Nat × Nat} {h : Hold} (hc : l.cohort = false) (hr : (s.ctx l.ctx).state = .resident) (ht : x.2.2 < l.low + 65536)
    (hh : ((s.coreOf x.1).holds.find? fun h => h.num = x.2.1) = some h) : s.goOn l x = some ((s.setLaunch (l.goes x)).startTeam x.1 h (l.info x.2.2)) := by
  have hs : ¬ (l.start x.2.2).cohort = true := by rw [show (l.start x.2.2).cohort = false from hc]; exact Bool.false_ne_true
  have hif {α : Type} (a b : α) : (if (l.start x.2.2).cohort = true then a else b) = b := if_neg hs
  have hh' (y : Launch) : (((s.setLaunch y).coreOf x.1).holds.find? fun h => h.num = x.2.1) = some h := hh
  unfold State.goOn
  dsimp only
  rw [if_neg (by simp [hc, hr, ht]), if_neg fun hn => hs hn.1]
  simp only [hif, State.startHeld, List.foldl_cons, List.foldl_nil, hh']
  rfl

/-- A launch whose next ticket a core takes for a hold. -/
def Launch.taken (l : Launch) (core : Nat) (h : Hold) : Launch := { l with ticket := l.ticket + 1, holders := l.holders ++ [(core, h.num, l.ticket)] }

/-- A core takes a hold and the next ticket. -/
def State.takes (s : State) (core : Nat) (l : Launch) (h : Hold) : State := (s.onCore core fun k => { k with holds := h :: k.holds }).setLaunch (l.taken core h)

theorem State.takes_dev (s : State) (core : Nat) (l : Launch) (h : Hold) : (s.takes core l h).dev = (s.setLaunch (l.taken core h)).dev := by
  unfold State.takes State.setLaunch State.setDev
  dsimp only
  rw [State.onCore_dev]
theorem State.takes_nextTeam (s : State) (core : Nat) (l : Launch) (h : Hold) : (s.takes core l h).nextTeam = s.nextTeam := State.onCore_nextTeam ..
theorem State.takes_holds (s : State) (core : Nat) (l : Launch) (h : Hold) : (((s.takes core l h).coreOf core).holds.find? fun x => x.num = h.num) = some h := by
  have hc : (s.takes core l h).coreOf core = (s.onCore core fun k => { k with holds := h :: k.holds }).coreOf core := rfl
  rw [hc, State.coreOf_onCore s core (f := fun k => { k with holds := h :: k.holds }) (fun _ => rfl), if_pos rfl]
  exact List.find?_cons_of_pos (decide_eq_true rfl)

section Ticket
variable {s : State} {core : Nat} {l : Launch} (hl : s.dev.launches = [l]) (hd : l.isDraw = false) (hh : l.holders = [])
include hl hd hh

/-- An agent that holds no ticket takes one of the only launch. -/
theorem State.serve_takes : s.serve core l.id = s.takeTicket core l := by
  have hl' : s.launch? l.id = some l := by simp [State.launch?, hl]
  have hnone : s.serveLaunch core l = none := by rw [State.serveLaunch, hh]; rfl
  unfold State.serve
  rw [hl']
  dsimp only
  rw [if_neg (by simp [hd]), if_neg (by simp [hl]), State.serveOne, hnone, Option.none_or]

variable (hi : l.state = .issuing) (ho : (core / 104, l.id) ∈ s.dev.openTable) (hr : (s.ctx l.ctx).state = .resident) {h : Hold} (ha : s.admission core (kdesc l.desc.toNat) = .ok h)
include hi ho hr ha

theorem State.serve_eq : s.serve core l.id = some (
    if l.total ≤ l.ticket then (s.setLaunch (Launch.settle { l with ticket := l.ticket + 1, state := .draining })).withdrawOpen l.id
    else ((s.takes core l h).goOn (l.taken core h) (core, h.num, l.ticket)).getD (s.takes core l h)) := by
  have hw : s.agentWaits core = false := by simp [State.agentWaits, hl, hh]
  rw [State.serve_takes hl hd hh]
  unfold State.takeTicket
  rw [if_neg (by simp [hi, hr, hw, arbourOf, ho]), ha]
  exact (apply_ite some ..).symm

/-- A launch whose tickets are all taken drains, and leaves the tables (R84, R85). -/
theorem State.serve_drains (ht : l.total ≤ l.ticket) : ∃ t y, s.serve core l.id = some t ∧ t.launch? l.id = some y ∧ y.ticket = l.ticket + 1 ∧
    y.state = (if l.doneN = l.total then .done else .draining) ∧ ∀ arb x, (arb, x) ∈ t.dev.openTable ↔ (arb, x) ∈ s.dev.openTable ∧ x ≠ l.id := by
  rw [State.serve_eq hl hd hh hi ho hr ha, if_pos ht]
  generalize hy : Launch.settle { l with ticket := l.ticket + 1, state := .draining } = y
  have hid : y.id = l.id ∧ y.ticket = l.ticket + 1 ∧ y.state = if l.doneN = l.total then .done else .draining := by
    rw [← hy, Launch.settle]
    by_cases hn : l.doneN = l.total <;> simp [hn]
  refine ⟨_, y, rfl, ?_, hid.2.1, hid.2.2, fun arb x => ?_⟩
  · rw [State.launch_congr ((s.setLaunch y).withdrawOpen_tidied l.id).launches, ← hid.1, State.launch_setLaunch, if_pos rfl]
  · rw [State.withdrawOpen_openTable, List.mem_filter, bne_iff_ne]
    rfl

/-- A ticket taken of a launch that has teams left starts its team (R85). -/
theorem State.serve_starts (hs : l.cohort = false) (ht : l.ticket < l.total) (hw : l.ticket < l.low + 65536) : ∃ t y team, s.serve core l.id = some t ∧ t.launch? l.id = some y ∧
    y.ticket = l.ticket + 1 ∧ y.hwm = max l.hwm (l.ticket + 1) ∧ y.map.lookup l.ticket = some false ∧ team ∈ t.allTeams ∧ team = h.team s.nextTeam core (l.info l.ticket) ∧
    t.dev.openTable = s.dev.openTable := by
  rw [State.serve_eq hl hd hh hi ho hr ha, if_neg (Nat.not_le.2 ht)]
  have hgo : (s.takes core l h).goOn (l.taken core h) (core, h.num, l.ticket) =
      some (((s.takes core l h).setLaunch ((l.taken core h).goes (core, h.num, l.ticket))).startTeam core h (l.info l.ticket)) := by
    refine State.goOn_starts hs ?_ hw (s.takes_holds core l h)
    rw [State.ctx_congr (congrArg Device.ctxs (s.takes_dev core l h))]
    exact hr
  rw [hgo, Option.getD_some]
  refine ⟨_, (l.taken core h).goes (core, h.num, l.ticket), _, rfl, ?_, rfl, rfl, List.lookup_cons_self .., ?_, rfl, ?_⟩
  · rw [State.launch_congr (congrArg Device.launches (State.startTeam_dev ..)), State.launch_setLaunch]
    exact if_pos rfl
  · rw [State.startTeam_teams, ← s.takes_nextTeam core l h]
    exact List.mem_cons_of_mem _ List.mem_cons_self
  · rw [State.startTeam_dev]
    have ht : (s.takes core l h).dev.openTable = s.dev.openTable := by rw [s.takes_dev core l h]; rfl
    exact ht

end Ticket
end Sys2Proof.Machine

/-! ## The end of teams (R91) -/
namespace Sys2Proof.Machine
open Sys2Proof

/-! ### The map of a launch's tickets -/

/-- LOW passes completed tickets until one is not, or the fuel ends. -/
theorem Launch.advance_passes (n : Nat) (l : Launch) : ∃ m, l.advance n = { l with low := l.low + m } ∧ (∀ j, l.low ≤ j → j < l.low + m → (j, true) ∈ l.map) ∧
    ((l.low + m, true) ∈ l.map → m = n) := by
  induction n generalizing l with
  | zero => exact ⟨0, rfl, fun j h1 h2 => absurd h2 (by omega), fun _ => rfl⟩
  | succ n ih =>
    by_cases h : (l.low, true) ∈ l.map
    · obtain ⟨m, he, hin, hstop⟩ := ih { l with low := l.low + 1 }
      dsimp only at he hin hstop
      have hm : l.low + 1 + m = l.low + (m + 1) := by omega
      rw [hm] at he hin hstop
      refine ⟨m + 1, ?_, fun j h1 h2 => ?_, fun hj => congrArg (· + 1) (hstop hj)⟩
      · rw [Launch.advance, if_pos (List.contains_iff_mem.2 h), he]
      · rcases Nat.eq_or_lt_of_le h1 with rfl | h1
        · exact h
        · exact hin j h1 h2
    · refine ⟨0, ?_, fun j h1 h2 => absurd h2 (by omega), fun hj => absurd hj h⟩
      rw [Launch.advance, if_neg (mt List.contains_iff_mem.1 h)]
      rfl

/-- A map of n entries has no run of more than n tickets. -/
theorem Launch.map_run (l : Launch) (n : Nat) (h : ∀ j, l.low ≤ j → j < l.low + n → (j, true) ∈ l.map) : n ≤ l.map.length := by
  have hnodup : ((List.range' l.low n).map fun j => (j, true)).Nodup := List.Nodup.map (fun _ _ h => congrArg Prod.fst h) List.nodup_range'
  have hsub : (List.range' l.low n).map (fun j => (j, true)) ⊆ l.map := by
    intro x hx
    obtain ⟨j, hj, rfl⟩ := List.mem_map.1 hx
    exact h j (List.mem_range'_1.1 hj).1 (List.mem_range'_1.1 hj).2
  simpa using (hnodup.subperm hsub).length_le

/-- Ticket t as completed. -/
def Launch.marked (l : Launch) (t : Nat) : Launch := { l with doneN := l.doneN + 1, map := l.map.map fun e => if e.1 = t then (t, true) else e }

theorem Launch.mem_marked (l : Launch) (t : Nat) (e : Nat × Bool) : e ∈ (l.marked t).map ↔ ∃ x ∈ l.map, e = (x.1, decide (x.1 = t) || x.2) := by
  have hx (x : Nat × Bool) : (if x.1 = t then (t, true) else x) = (x.1, decide (x.1 = t) || x.2) := by
    by_cases h : x.1 = t <;> simp [h]
  exact List.mem_map.trans (exists_congr fun x => and_congr_right fun _ => by rw [hx]; exact eq_comm)

/-- A completion counts the team, notes its ticket, and moves LOW past all that are completed. -/
theorem Launch.complete_marks (l : Launch) (t : Nat) : ∃ low, l.complete t = Launch.settle { l.marked t with low } ∧ l.low ≤ low ∧ (∀ j, l.low ≤ j → j < low → (j, true) ∈ (l.marked t).map) ∧
    (low, true) ∉ (l.marked t).map := by
  obtain ⟨m, he, hin, hstop⟩ := (l.marked t).advance_passes (l.map.length + 1)
  refine ⟨l.low + m, congrArg Launch.settle he, Nat.le_add_right .., hin, fun hmem => ?_⟩
  have hlen := (l.marked t).map_run m hin
  have : (l.marked t).map.length = l.map.length := List.length_map ..
  have := hstop hmem
  omega

theorem Launch.settle_fields (l : Launch) : l.settle.id = l.id ∧ l.settle.doneN = l.doneN ∧ l.settle.total = l.total ∧ l.settle.map = l.map ∧ l.settle.low = l.low ∧
    l.settle.state = if l.state = .draining ∧ l.doneN = l.total then .done else l.state := by
  unfold Launch.settle
  split <;> exact ⟨rfl, rfl, rfl, rfl, rfl, rfl⟩

theorem Launch.complete_counts (l : Launch) (t : Nat) : (l.complete t).doneN = l.doneN + 1 ∧ (l.complete t).total = l.total ∧
    (∀ e, e ∈ (l.complete t).map ↔ ∃ x ∈ l.map, e = (x.1, decide (x.1 = t) || x.2)) ∧ l.low ≤ (l.complete t).low ∧
    (∀ j, l.low ≤ j → j < (l.complete t).low → (j, true) ∈ (l.complete t).map) ∧ ((l.complete t).low, true) ∉ (l.complete t).map ∧
    (l.complete t).state = if l.state = .draining ∧ l.doneN + 1 = l.total then .done else l.state := by
  obtain ⟨low, he, hle, hin, hout⟩ := l.complete_marks t
  obtain ⟨-, hdone, htotal, hmap, hlow, hstate⟩ := Launch.settle_fields { l.marked t with low }
  rw [he, hmap, hlow]
  exact ⟨hdone, htotal, l.mem_marked t, hle, hin, hout, hstate⟩

/-! ### The cores that the end of a team leaves as they are -/

theorem State.mapGroups_cores (s : State) (f : Group → Group) : (s.mapGroups f).core = { s.core with groups := s.core.groups.map f } ∧
    (s.mapGroups f).cores = s.cores.map fun k => { k with groups := k.groups.map f } := by
  unfold State.mapGroups
  dsimp only
  split
  · exact ⟨rfl, rfl⟩
  · split <;> exact ⟨rfl, rfl⟩

/-- The completed teams that a core's agent has not taken yet. -/
def State.doneOn (s : State) (n : Nat) : List DoneTeam := (s.coreOf n).done

/-- A change of every core that leaves their completed teams leaves those of each. -/
theorem State.doneOn_map {s t : State} {f : Core → Core} (hn : ∀ k, (f k).num = k.num) (hd : ∀ k, (f k).done = k.done) (hc : t.core = f s.core) (hs : t.cores = s.cores.map f) (n : Nat) :
    t.doneOn n = s.doneOn n := by
  unfold State.doneOn
  rcases State.coreOf_map hn hc hs n with h | ⟨h, h'⟩
  · rw [h, hd]
  · rw [h, h']
    rfl

theorem State.resolveSend_doneOn (s : State) (x : MqSend) (w : Word) (n : Nat) : (s.resolveSend x w).doneOn n = s.doneOn n :=
  State.doneOn_map (f := fun k => { k with groups := k.groups.map _ }) (fun _ => rfl) (fun _ => rfl) (s.mapGroups_cores _).1 (s.mapGroups_cores _).2 n

/-- What a change of the cores' queues and of sends leaves, the freeing of a team's queues leaves. -/
theorem State.freeQueues_keeps {α : Type} (p : State → α) (hc : ∀ (s : State) (f : Core → List Mq), p (s.mapCores fun k => { k with mqs := f k }) = p s)
    (hs : ∀ s x w, p (State.resolveSend s x w) = p s) (s : State) (n : Nat) : p (s.freeQueues n) = p s :=
  (foldl_keeps p (fun s x => hs s x _) _ _).trans (hc s _)

theorem State.freeQueues_doneOn (s : State) (team n : Nat) : (s.freeQueues team).doneOn n = s.doneOn n :=
  State.freeQueues_keeps (State.doneOn · n) (fun _ f => State.doneOn_map (f := fun k => { k with mqs := f k }) (fun _ => rfl) (fun _ => rfl) rfl rfl n)
    (fun s x w => s.resolveSend_doneOn x w n) s team
theorem State.freeQueues_launches (s : State) (team : Nat) : (s.freeQueues team).dev.launches = s.dev.launches :=
  State.freeQueues_keeps (fun s => s.dev.launches) (fun _ _ => rfl) (fun s _ _ => (s.mapHeld_tidied _).launches) s team
theorem State.mapHeld_allTeams (s : State) (f : Group → Group) : (s.mapHeld f).allTeams = s.allTeams :=
  congrArg (fun r : Team × List Team => r.1 :: r.2) (s.mapHeld_roster f)
theorem State.freeQueues_allTeams (s : State) (team : Nat) : (s.freeQueues team).allTeams = s.allTeams :=
  State.freeQueues_keeps State.allTeams (fun _ _ => rfl) (fun s _ _ => s.mapHeld_allTeams _) s team

/-! ### The end of a team -/

/-- The state without a team: team 0 comes to the front, and the others but it stay. -/
def State.withoutTeam (s : State) (n : Nat) : State := { s.focusTeam 0 with teams := (s.focusTeam 0).teams.filter fun x => x.serial != n }

/-- A team that was not killed counts for its launch. -/
def State.countTeam (s : State) (t : Team) : State := (s.launch? t.launch).elim s fun l => if t.killed then s else s.setLaunch (l.complete t.ticket.toNat)

/-- A core's agent is told that a team has completed. -/
def State.reportDone (s : State) (t : Team) : State := (s.onCore t.core fun k => { k with done := k.done ++ [⟨t.ticket, t.launch, t.endErr⟩] }).wake t.core 1

/-- What takeFirst takes satisfies the predicate, and was in the list with the rest. -/
theorem takeFirst_some {α : Type} {p : α → Bool} {l : List α} {a : α} {r : List α} (h : takeFirst p l = some (a, r)) : p a = true ∧ l.Perm (a :: r) := by
  induction l generalizing r with
  | nil => cases h
  | cons x t ih =>
    rw [takeFirst] at h
    split at h
    · next hx =>
      cases h
      exact ⟨hx, .refl _⟩
    · obtain ⟨⟨b, q⟩, hb, he⟩ := Option.map_eq_some_iff.1 h
      cases he
      obtain ⟨hp, hl⟩ := ih hb
      exact ⟨hp, (hl.cons x).trans (.swap ..)⟩

/-- What a change of the teams' order leaves, bringing one to the front leaves. -/
theorem State.focusTeam_keeps {α : Type} (p : State → α) (hp : ∀ (s : State) a b, p { s with team := a, teams := b } = p s) (s : State) (n : Nat) : p (s.focusTeam n) = p s := by
  unfold State.focusTeam
  split
  · rfl
  · split <;> exact hp _ _ _

theorem State.focusTeam_front (s : State) (n : Nat) : (s.focusTeam n).team.serial = n := by
  unfold State.focusTeam
  split
  · assumption
  · split
    · next h => exact of_decide_eq_true (takeFirst_some h).1
    · rfl

/-- Bringing a team to the front loses no team. -/
theorem State.focusTeam_allTeams (s : State) (n : Nat) : s.allTeams ⊆ (s.focusTeam n).allTeams := by
  intro x hx
  unfold State.focusTeam State.allTeams at *
  split
  · exact hx
  · split
    · next h => exact (List.mem_cons.1 hx).elim (fun hx => by simp [hx]) fun hx => (List.mem_cons.1 ((takeFirst_some h).2.mem_iff.1 hx)).elim (fun hx => by simp [hx]) fun hx => by simp [hx]
    · exact List.mem_cons_of_mem _ hx

theorem State.withoutTeam_teams (s : State) {n : Nat} (h : n ≠ 0) : ∀ x ∈ (s.withoutTeam n).allTeams, x.serial ≠ n := by
  refine List.forall_mem_cons.2 ⟨?_, fun x hx => bne_iff_ne.1 (List.mem_filter.1 hx).2⟩
  exact (s.focusTeam_front 0).trans_ne h.symm

theorem State.withoutTeam_keeps {α : Type} (p : State → α) (hp : ∀ (s : State) a b, p { s with team := a, teams := b } = p s) (s : State) (n : Nat) : p (s.withoutTeam n) = p s :=
  (hp (s.focusTeam 0) _ _).trans (State.focusTeam_keeps p hp s 0)

/-- A completed launch, or one whose team was killed, as a record. -/
theorem State.countTeam_launch {s : State} {t : Team} {l : Launch} (hl : s.launch? t.launch = some l) :
    (s.countTeam t).launch? t.launch = some (if t.killed then l else l.complete t.ticket.toNat) := by
  rw [State.countTeam, hl, Option.elim_some]
  split
  · exact hl
  · obtain ⟨low, he, -⟩ := l.complete_marks t.ticket.toNat
    have hid : t.launch = (l.complete t.ticket.toNat).id := by
      rw [he, (Launch.settle_fields _).1]
      exact (State.launch_id hl).2.symm
    rw [State.launch_setLaunch, if_pos hid]

theorem State.countTeam_keeps {α : Type} (p : State → α) (hp : ∀ (s : State) l, p (s.setLaunch l) = p s) (s : State) (t : Team) : p (s.countTeam t) = p s := by
  unfold State.countTeam
  cases s.launch? t.launch with
  | none => rfl
  | some l => exact (apply_ite p ..).trans (by rw [hp, ite_self])

theorem State.reportDone_launches (s : State) (t : Team) : (s.reportDone t).dev.launches = s.dev.launches := by
  rw [State.reportDone, State.wake_dev, State.onCore_dev]
theorem State.reportDone_allTeams (s : State) (t : Team) : (s.reportDone t).allTeams = s.allTeams := (State.onCore_allTeams ..).trans (State.onCore_allTeams ..)
theorem State.reportDone_doneOn (s : State) (t : Team) : (s.reportDone t).doneOn t.core = s.doneOn t.core ++ [⟨t.ticket, t.launch, t.endErr⟩] := by
  rw [State.doneOn, State.reportDone, State.wake, State.coreOf_onCore _ t.core (f := fun k => { k with wakes := k.wakes ||| (1#6 <<< 1) }) (fun _ => rfl), if_pos rfl,
    State.coreOf_onCore s t.core (f := fun k => { k with done := k.done ++ [⟨t.ticket, t.launch, t.endErr⟩] }) (fun _ => rfl), if_pos rfl]
  rfl

section Complete
variable {s : State} {n : Nat} {t : Team} (hn : n ≠ 0) (ht : s.allTeams.find? (fun x => x.serial = n) = some t) (hg : ∀ g ∈ s.allGroups, g.team = n → g.agent = true)
  (hc : ∀ c ∈ s.dev.ctxs, ∀ k ∈ c.saved, ∀ g ∈ k.groups, g.team ≠ n) (hk : ∀ k ∈ s.allCores, ∀ c ∈ k.sluice, c.team ≠ n)
include hn ht hg hc hk

/-- A team ends once no group, no saved group and no command of it is left. -/
theorem execTeamComplete_eq : execTeamComplete n s = .next ((((s.withoutTeam n).countTeam t).reportDone t).freeQueues n) := by
  unfold execTeamComplete
  rw [ht]
  dsimp only
  rw [if_neg]
  · unfold State.countTeam State.withoutTeam
    cases State.launch? _ t.launch <;> rfl
  · simp only [not_or, List.any_eq_true, Bool.and_eq_true, decide_eq_true_iff, not_exists, not_and, Bool.not_eq_true']
    exact ⟨hn, fun g h ha hgn => by simp [hg g h hgn] at ha, fun c h k h' g hm => hc c h k h' g hm, hk⟩

theorem execTeamComplete_ends : ∃ u, execTeamComplete n s = .next u ∧ (∀ x ∈ u.allTeams, x.serial ≠ n) ∧
    u.doneOn t.core = s.doneOn t.core ++ [{ ticket := t.ticket, launch := t.launch, err := t.endErr }] ∧
    ∀ l, s.launch? t.launch = some l → u.launch? t.launch = some (if t.killed then l else l.complete t.ticket.toNat) := by
  refine ⟨_, execTeamComplete_eq hn ht hg hc hk, ?_, ?_, fun l hl => ?_⟩
  · rw [State.freeQueues_allTeams, State.reportDone_allTeams, State.countTeam_keeps State.allTeams fun _ _ => rfl]
    exact s.withoutTeam_teams hn
  · rw [State.freeQueues_doneOn, State.reportDone_doneOn, State.countTeam_keeps (State.doneOn · t.core) (fun _ _ => rfl), State.withoutTeam_keeps (State.doneOn · t.core) fun _ _ _ => rfl]
  · have hl' : (s.withoutTeam n).launch? t.launch = some l := (State.withoutTeam_keeps (State.launch? · t.launch) (fun _ _ _ => rfl) s n).trans hl
    rw [State.launch_congr ((State.freeQueues_launches ..).trans (State.reportDone_launches ..)), State.countTeam_launch hl']

end Complete

/-! ### The end of a group (R97) -/

theorem Core.releaseAll_keeps (k : Core) (g : Group) : (k.releaseAll g).num = k.num ∧ (k.releaseAll g).groups = k.groups := by
  refine List.foldlRecOn _ _ (motive := fun x : Core => x.num = k.num ∧ x.groups = k.groups) ⟨rfl, rfl⟩ fun x hx a _ => ?_
  cases a <;> exact hx

/-- A group in front, with one of its entities, before its team comes to the front. -/
def State.placed (s : State) (e : Entity) (g : Group) (r : List Group) : State := { s with ent := e, grp := g, core := { s.core with groups := r } }

theorem State.leadGroup_places (s : State) (g : Group) (r : List Group) : ∃ e t, s.leadGroup g r = (s.placed e { g with sibs := t } r).focusTeam g.team := by
  unfold State.leadGroup
  dsimp only
  split
  · exact ⟨_, _, rfl⟩
  · exact ⟨{}, g.sibs, rfl⟩

/-- The group that comes to the front, on a core that is left with the others. -/
theorem State.leadGroup_front (s : State) (g : Group) (r : List Group) : (s.leadGroup g r).core.num = s.core.num ∧ (s.leadGroup g r).grp.agent = g.agent ∧ (s.leadGroup g r).grp.loc = g.loc ∧
    (s.leadGroup g r).core.groups = r ∧ (s.leadGroup g r).cores = s.cores ∧ s.allTeams ⊆ (s.leadGroup g r).allTeams := by
  obtain ⟨e, t, he⟩ := s.leadGroup_places g r
  rw [he, State.focusTeam_keeps State.core fun _ _ _ => rfl, State.focusTeam_keeps State.grp fun _ _ _ => rfl, State.focusTeam_keeps State.cores fun _ _ _ => rfl]
  exact ⟨rfl, rfl, rfl, rfl, rfl, (s.placed e { g with sibs := t } r).focusTeam_allTeams g.team⟩

section Retire
variable {s : State} {a : Group} {r : List Group} (hn : s.core.num = s.grp.loc.core) (ha : takeFirst Group.agent s.core.groups = some (a, r))
include hn ha

/-- When the group in front leaves its slot, the core's agent comes to the front. -/
theorem State.removeGroup_front : ∃ k, k.num = s.core.num ∧ s.removeGroup s.grp.loc = { s with core := k }.leadGroup a r := by
  obtain ⟨hnum, hgroups⟩ := s.core.releaseAll_keeps s.stowGroup
  unfold State.removeGroup
  extract_lets drop k
  have hk : takeFirst Group.agent k.groups = some (a, r) := (congrArg (takeFirst Group.agent) hgroups).trans ha
  rw [if_pos ⟨rfl, hn⟩, hk]
  exact ⟨k, hnum, rfl⟩

/-- What is left of the core in front when its group has ended. -/
theorem State.removeGroup_leaves : (s.removeGroup s.grp.loc).core.num = s.core.num ∧ (s.removeGroup s.grp.loc).grp.agent = true ∧ (s.removeGroup s.grp.loc).grp.loc = a.loc ∧
    (s.removeGroup s.grp.loc).core.groups = r ∧ (s.removeGroup s.grp.loc).cores = s.cores ∧ s.allTeams ⊆ (s.removeGroup s.grp.loc).allTeams := by
  obtain ⟨k, hk, he⟩ := State.removeGroup_front hn ha
  obtain ⟨hnum, hagent, hrest⟩ := State.leadGroup_front { s with core := k } a r
  rw [he]
  exact ⟨hnum.trans hk, hagent.trans (takeFirst_some ha).1, hrest⟩

end Retire

section End
variable {s : State} (ha : s.grp.agent = false) (hx : s.grp.gstate = .exited) (ho : s.grp.ops = []) (hk : s.grp.keys = [])

/-- A team notes the exit code of a group of its own. -/
def State.noteExit (s : State) : State := s.mapTeams fun t => if t.serial = s.grp.team then { t with exits := (s.grp.gid, s.grp.lastExit) :: t.exits } else t

include hx in
theorem State.groupAt_front : s.groupAt s.grp.loc = some s.stowGroup := by
  have hs : (s.stowGroup.gstate != .empty) = true := by rw [show s.stowGroup.gstate = .exited from hx]; rfl
  unfold State.groupAt State.allGroups State.allCores
  rw [List.flatMap_cons, show s.stowCore.groups = s.stowGroup :: s.core.groups from rfl, List.cons_append, List.filter_cons_of_pos (p := fun g : Group => g.gstate != .empty) hs]
  exact List.find?_cons_of_pos (decide_eq_true rfl)

include ha hx ho hk

theorem execGroupRetire_front (hkill : s.grp.killed = false) (hr : s.grp.rast = none) (hc : ∀ c ∈ s.dev.salt, c.g ≠ s.grp.loc) :
    execGroupRetire s.grp.loc s = .next (s.noteExit.removeGroup s.grp.loc) := by
  have hsalt : (s.dev.salt.any fun c => c.g = s.grp.loc) = false := by simpa using hc
  unfold execGroupRetire
  rw [State.groupAt_front hx]
  dsimp only
  rw [if_neg (by simp [State.stowGroup, ha, hx, ho, hk, hkill, hsalt]), show s.stowGroup.rast = none from hr]
  rfl

theorem execGroupKill_front (hkill : s.grp.killed = true) : execGroupKill s.grp.loc s = .next (s.removeGroup s.grp.loc) := by
  unfold execGroupKill
  rw [State.groupAt_front hx]
  dsimp only
  rw [if_neg (by simp [State.stowGroup, ha, ho, hk, hkill])]

end End
end Sys2Proof.Machine

/-! ## What the agent forms, launches and ends do (R363 to R368) -/
namespace Sys2Proof.Machine
open Sys2Proof

theorem OnlyCaches.ent {s u : State} (hu : OnlyCaches s u) : u.ent = s.ent := by rw [hu]
theorem OnlyCaches.grp {s u : State} (hu : OnlyCaches s u) : u.grp = s.grp := by rw [hu]
theorem OnlyCaches.unordered {s u : State} (hu : OnlyCaches s u) (h : s.Unordered) : u.Unordered := by
  unfold State.Unordered
  rwa [hu.grp]

/-- A trap's registers, for a form whose entity stands as it began, are those at the form's start. -/
theorem commit_badCause {s r : State} (h : r.ent = s.ent) (v : Nat) : commit 4 s (r.badCause v) = .next (s.takeTrap (s.trapHere .illegalOperand (BitVec.ofNat 32 (0x300 + v)))) := by
  rw [State.badCause, State.trapHere, h]
  exact commit_trapHere (by decide) ..

/-- Settles O55: each clause is the lemma of its form or event. -/
theorem agentForms : Obligations.AgentForms := by
  unfold Obligations.AgentForms
  refine ⟨fun s a k8 n k => ?_, fun s t core ht hs hw => execAgsleepWake_ends ht hs hw, fun s id l hl hd hr => ?_, fun s core l hl hls hd hi hs hh ho hr h ha => ?_,
    fun s n t hn ht hg hc hk => ?_, fun s a r hn ha hag hx ho hk _ i hi => ?_⟩
  · -- the PRIV forms
    intro fill
    refine ⟨fun ha => ⟨?_, execPrivWkpop_fault ha⟩, execPrivWkpop_illegal, fun ha => ⟨fun hd => ⟨execPrivTeamdone_empty ha hd, fun x r => execPrivTeamdone_takes ha hd⟩, fun hb hp hd => ?_, fun hd h2 h60 => ?_⟩⟩
    · simp only [List.forall_mem_cons, exec_privTeamgo, exec_privTeamdone, exec_privAgsleep]
      exact ⟨State.priv_fault ha .., State.priv_fault ha .., State.priv_fault ha .., fun _ h => absurd h List.not_mem_nil⟩
    · have hready : s.PrivReady a := ⟨ha, hb, hp, hd⟩
      intro limit woken
      refine ⟨fun hl => ?_, fun hl hw => ?_, fun hl hw => execPrivAgsleep_sleeps hready hw (Bool.eq_false_iff.2 (mt State.agLimit_iff.1 hl)), ?_⟩
      · exact (execPrivAgsleep_wakes hready (.inr (State.agLimit_iff.2 hl))).trans (by rw [State.agLimit_iff.2 hl]; rfl)
      · exact (execPrivAgsleep_wakes hready (.inl hw)).trans (by rw [Bool.eq_false_iff.2 (mt State.agLimit_iff.1 hl)]; rfl)
      · -- TEAMGO, from the state in which it has read its block
        intro va step hnb
        refine ⟨execPrivTeamgo_step hready hnb, fun hs hv => ?_⟩
        obtain ⟨u, hu, hx⟩ := execPrivTeamgo_reads hready hnb hs hv
        refine ⟨u, hu, ?_⟩
        intro r block held
        have hent : r.ent = s.ent := (State.goState_ent u step _).trans hu.ent
        have hgo : exec (.privTeamgo k n a) s = commit 4 s (r.teamGo step block) := hx
        have hent' (c : Core) : ({ r with core := c } : State).ent = s.ent := hent
        clear_value block
        refine ⟨fun hidle => State.goState_idle (hu.grp ▸ hidle) step _, fun h1 hids hafter o ho hdone howner hpath => ?_, fun h h0 hadm => ?_, fun e h0 hadm => ?_,
          fun h h1 hheld hjob => ?_, fun h h2 hheld => ?_, fun h0 hheld => ?_⟩
        · have hreleased : r = u.released := if_pos h1
          exact State.released_performs (hu.unordered ⟨hids, hafter⟩) (hreleased ▸ ho) hdone (hu.ent ▸ howner) hpath
        · rw [hgo, h0, State.teamGo_admits hadm]
          exact commit_fillS (hent' _) 63 _
        · rw [hgo, h0, State.teamGo_refuses hadm]
          exact commit_fillS hent 63 _
        · rw [hgo, h1, State.teamGo_starts hheld hjob, commit_fillS ((State.startTeam_ent ..).trans hent)]
          refine ⟨_, rfl, rfl, State.startTeam_nextTeam .., h.team r.nextTeam r.core.num (blockInfo block), ?_, rfl, rfl, rfl, rfl, rfl, rfl, rfl, rfl, rfl⟩
          exact (State.startTeam_teams r r.core.num h (blockInfo block)).symm ▸ List.mem_cons_of_mem _ List.mem_cons_self
        · rw [hgo, h2, State.teamGo_releases hheld]
          exact commit_fillS (hent' _) 63 _
        · rw [hgo, State.teamGo_unheld h0 hheld]
          exact commit_badCause hent _
    · exact ⟨execPrivWkpop_none ha hd h2 h60, fun y hy => execPrivWkpop_claims ha hd h2 h60 hy⟩
  · -- the claim of a launch
    intro full other draining blocked opens
    exact ⟨fun hc => execLaunchClaim_opens hl hd hr hc, fun hp hn => ⟨fun e he => execLaunchClaim_fails hl hd hr hp hn he, fun k hk => execLaunchClaim_claims hl hd hr hp hn hk⟩⟩
  · -- a ticket of an open launch
    refine ⟨State.serve_drains hls hd hh hi ho hr ha, fun ht hw => ?_⟩
    obtain ⟨t, y, team, he, hl', hy, hhwm, hmap, hin, rfl, hopen⟩ := State.serve_starts hls hd hh hi ho hr ha hs ht hw
    exact ⟨t, y, _, he, hl', hy, hhwm, hmap, hin, rfl, rfl, rfl, rfl, rfl, rfl, rfl, fun k hk => hopen ▸ hk⟩
  · -- the end of a team
    obtain ⟨u, he, hteams, hdone, hlaunch⟩ := execTeamComplete_ends hn ht hg hc hk
    refine ⟨u, he, hteams, hdone, fun l hl => ⟨_, hlaunch l hl, fun hkill => if_pos hkill, fun hkill => ?_⟩⟩
    rw [hkill, if_neg Bool.false_ne_true]
    exact l.complete_counts t.ticket.toNat
  · -- the end of a group
    rcases hi with ⟨rfl, hkill, hrast, hsalt⟩ | ⟨rfl, hkill⟩
    · obtain ⟨hnum, hagent, hloc, hgroups, hcores, hteams⟩ := State.removeGroup_leaves (s := s.noteExit) hn ha
      exact ⟨_, execGroupRetire_front hag hx ho hk hkill hrast hsalt, hnum, hagent, hloc, hgroups, hcores, fun _ hteam => ⟨_, hteams List.mem_cons_self, if_pos hteam⟩⟩
    · obtain ⟨hnum, hagent, hloc, hgroups, hcores, -⟩ := State.removeGroup_leaves hn ha
      exact ⟨_, execGroupKill_front hag hx ho hk hkill, hnum, hagent, hloc, hgroups, hcores, fun h => absurd (hkill.symm.trans h) (by decide)⟩
end Sys2Proof.Machine
